-- ==== Sys2Proof/Word.lean ====
section
/-!
DEFINITION. The word types of the Terxo (00_scope.md, "Bits, bytes and words"): a word is 256 bits, a
register 64 bits, an instruction 128 bits.
-/
namespace Sys2Proof

/-- A byte of memory. -/
abbrev Byte := BitVec 8

/-- A data word (256 bits); its 32 check bits travel beside it (R288). -/
abbrev Word := BitVec 256

/-- A register, and every scalar register (64 bits). -/
abbrev Quad := BitVec 64

/-- A map from natural keys, written as its entries in rising key order, with no entry equal to what an
unlisted key reads as. Its operations are in `Machine/Sparse.lean`. -/
abbrev Sp (α : Type) := List (Nat × α)

/-- A word as it travels on a path: its data, and whether its check bits mark it poisoned (R290). -/
structure MWord where
  data : Word
  poison : Bool
  deriving DecidableEq, Repr

end Sys2Proof
end

