-- ==== Sys2Proof/Syntax.lean ====
section
/-!
DEFINITION. The commands of the block: one constructor of `Instr` per row of spec/opcode_table.json, with the
operands that come from outside (a value written, a word received, a measurement). What the state already
holds is never an operand.
-/
namespace Sys2Proof

/-- The four access paths to a die's register port, in rotation order (R17). -/
inductive Path where
  | control | management | cxl | debug
  deriving DecidableEq, Repr

/-- A core site: compute die CD0 to CD11 and logical site 0 to 31 (R14). -/
structure CoreId where
  cd : Fin 12
  site : Fin 32
  deriving DecidableEq, Repr

/-- A physical port, in the order A+, A−, B+, B−, S0, C+, C−, D+, D−, S1 (02_machine_time.md). -/
abbrev Port := Fin 10

/-- Guard fields of an instruction (R142): predicate number and inversion. -/
structure Guard where
  pn : BitVec 4
  neg : Bool
  deriving DecidableEq, Repr

/-- The issue of an instruction: the core that issues it and the guard it carries. -/
structure Issue where
  core : CoreId
  guard : Guard
  deriving DecidableEq, Repr

/-- Format S operand fields. -/
structure SOp where
  d : BitVec 5
  a : BitVec 5
  b : BitVec 5
  immSel : Bool
  imm : BitVec 64
  deriving DecidableEq, Repr

/-- Format P operand fields (SCMP, PLOG). -/
structure POp where
  pd : BitVec 4
  a : BitVec 5
  b : BitVec 5
  immSel : Bool
  cond : BitVec 3
  imm : BitVec 64
  deriving DecidableEq, Repr

/-- Format M operand fields (MOP). -/
structure MOp where
  aFmt : BitVec 4
  bFmt : BitVec 4
  aSign : Bool
  bSign : Bool
  aLayout : BitVec 2
  bLayout : BitVec 2
  dataflow : BitVec 2
  accSrc : BitVec 2
  accDst : BitVec 2
  accSet : Bool
  m : BitVec 11
  n : BitVec 11
  k : BitVec 17
  ra : BitVec 5
  rb : BitVec 5
  rc : BitVec 5
  rd : BitVec 5
  rt : BitVec 5
  aRel : Bool
  bRel : Bool
  cRel : Bool
  deriving DecidableEq, Repr

/-- Format V operand fields. -/
structure VOp where
  vd : BitVec 5
  vs1 : BitVec 5
  vs2 : BitVec 5
  vs3 : BitVec 5
  mask : BitVec 3
  zero : Bool
  func : BitVec 4
  opt : BitVec 2
  sd : BitVec 5
  ra : BitVec 5
  rel : Bool
  fmt : BitVec 4
  sgn : Bool
  layout : BitVec 2
  rdesc : BitVec 5
  rtile : BitVec 5
  tid : BitVec 14
  draw : BitVec 8
  purpose : BitVec 2
  imm : BitVec 32
  deriving DecidableEq, Repr

/-- One register access presented on a path (R11: its size in bytes decides whether it is legal). -/
structure Access where
  path : Path
  addr : BitVec 48
  bytes : Nat
  value : BitVec 64
  deriving DecidableEq, Repr

/-- What the 1 ms comparison of the oscillator pair measures (R27). Drift in units of 0.01 ppm. -/
structure OscMeasure where
  stopped : Bool
  drift : Int
  otherOk : Bool
  deriving DecidableEq, Repr

/-- A packet as it arrives: the raw header word (R212) and its payload words. -/
structure RawPacket where
  hdr : Word
  payload : List MWord
  deriving DecidableEq, Repr

/-- The input of a router: a port of its own die, the path from the other link die, or the hub (R223). -/
inductive RouterIn where
  | port (i : Fin 5) | other | hub
  deriving DecidableEq, Repr

/-- A received HELLO word (R198). -/
structure HelloWord where
  major : BitVec 4
  minor : BitVec 4
  coord : BitVec 20
  lport : BitVec 4
  fpr : BitVec 192
  deriving DecidableEq, Repr

/-- A received CREDIT_ACK (R198). -/
structure CreditWord where
  ackSeq : BitVec 24
  credits : List Nat
  deriving DecidableEq, Repr

/-- What training finds at codeword lock (R396, R382): the good lanes, the measured and nominal cable delay. -/
structure TrainResult where
  good : BitVec 36
  cablePs : BitVec 32
  nominalPs : Nat
  deriving DecidableEq, Repr

/-- A signature slot of a quorum certificate (R320): the signer's authority index, and what the Falcon-1024
check of the slot's signature over the message of R320 yields. -/
structure Slot where
  signer : Fin 32
  valid : Bool
  deriving DecidableEq, Repr

/-- A COMMAND message's envelope, certificate and payload bytes (R320 to R322, R339). -/
structure Envelope where
  cmdType : BitVec 8
  serial : BitVec 32
  seq : BitVec 64
  target : BitVec 256
  expiry : BitVec 64
  digest : BitVec 256
  hdrType : BitVec 5
  hdrSlots : BitVec 5
  hdrRest : Bool
  slots : List Slot
  payload : List Byte
  deriving DecidableEq, Repr

/-- The frame of an authority's management request (R338, R339): its signer, request number, what the Falcon-1024
check of its signature yields, and whether its body has the length the type needs. -/
structure MgmtReq where
  auth : BitVec 8
  requestId : BitVec 64
  sigValid : Bool
  deriving DecidableEq, Repr

/-- One datagram of a management message (R338). -/
structure Segment where
  sender : BitVec 128
  magic : BitVec 32
  version : BitVec 8
  mtype : BitVec 8
  auth : BitVec 8
  requestId : BitVec 64
  length : BitVec 32
  seg : BitVec 16
  segs : BitVec 16
  relay : Bool
  target : BitVec 20
  body : List Byte
  deriving DecidableEq, Repr

/-- An ICMPv6 message on the management port (R337). -/
inductive Icmp where
  | neighbourSolicit (target : BitVec 128)
  | echoRequest (dst : BitVec 128) (ident seq : BitVec 16) (data : List Byte)
  deriving DecidableEq, Repr

/-- What BOOT measures outside the register space: the PUF secret that the helper data yields, and the results of
the Falcon-1024 checks (firmware under each boot-ROM key, each slot of the plan's certificate, the certificate chain, and
whether the unwrapped private key yields the stored public key). -/
structure BootInput where
  pufSecret : BitVec 256
  fwSig0 : Bool
  fwSig1 : Bool
  planSigs : List Bool
  chainOk : Bool
  pubMatches : Bool
  nonce : BitVec 64
  deriving DecidableEq, Repr

/-- A debug certificate (R329): words 0 to 2, and the result of the check of its signature or certificate. -/
structure DebugCert where
  w0 : Word
  w1 : Word
  w2 : Word
  sigValid : Bool
  newNonce : BitVec 64
  deriving DecidableEq, Repr

/-- A transaction at the guest firewall (R325). -/
structure GuestTxn where
  toAperture : Bool
  write : Bool
  addr : BitVec 48
  words : Nat
  data : List MWord
  deriving DecidableEq, Repr

/-- A CXL.mem request of the host (R333). -/
structure HostReq where
  write : Bool
  addr : BitVec 64
  data : MWord
  deriving DecidableEq, Repr

/-- What the temperature sensors read (R357): die, pair, and both sensors of the pair in 0.125 °C; inlet and outlet
temperatures; flow in 0.01 L/min; and a regulator's over-temperature or fault signal. -/
structure SensorPair where
  die : Fin 20
  pair : Fin 16
  a : Int
  b : Int
  deriving DecidableEq, Repr

structure ThermalReading where
  pairs : List SensorPair
  inletA : Int
  inletB : Int
  outlet : Int
  flow : Nat
  regFault : Bool
  deriving DecidableEq, Repr

/-- A cause of a warm reset (EV_WARM_RESET). -/
inductive ResetCause where
  | sideband | watchdog | ctlFatal
  deriving DecidableEq, Repr

/-- The commands of the Terxo: one constructor per row of spec/opcode_table.json. -/
inductive Instr where
  -- register accesses
  | registerWrite (a : Access)
  | mtcNowRead (p : Path)
  -- machine time
  | controlLawUpdate
  | oscillatorCheck (m : OscMeasure)
  | timestampReceive (p : Port) (set : BitVec 160)
  | ppsEdge (highNs : Nat)
  | ppsLossTimeout
  | backupRootTakeover
  -- anchors and scheduled actions
  | anchorRelease
  | schedEntryWrite (p : Path) (n : Fin 32) (value : BitVec 64)
  | flip
  | epochSwitch
  | modeChange
  | modeChangeComplete
  | jobStart
  | selftestWindowOpen
  | selftestWindowClose
  -- control instructions
  | nop (i : Issue)
  | waitc (i : Issue) (n : BitVec 17)
  | anchor (i : Issue)
  | waitq (i : Issue) (q : BitVec 4) (count : BitVec 32) (deadline : BitVec 32)
  | loop (i : Issue) (count : BitVec 32) (len : BitVec 12)
  | brb (i : Issue) (pn : BitVec 4) (invert : Bool) (lenA lenB : BitVec 11)
  | csel (i : Issue) (slot : Bool)
  | vote (i : Issue) (v : BitVec 2) (cause : BitVec 8)
  | sloop (i : Issue) (d : BitVec 5) (level : BitVec 2)
  -- scalar and predicate instructions
  | sli (i : Issue) (o : SOp)
  | sadd (i : Issue) (o : SOp)
  | ssub (i : Issue) (o : SOp)
  | smul (i : Issue) (o : SOp)
  | sand (i : Issue) (o : SOp)
  | sor (i : Issue) (o : SOp)
  | sxor (i : Issue) (o : SOp)
  | sshl (i : Issue) (o : SOp)
  | sshr (i : Issue) (o : SOp)
  | ssra (i : Issue) (o : SOp)
  | smin (i : Issue) (o : SOp)
  | smax (i : Issue) (o : SOp)
  | scmp (i : Issue) (o : POp)
  | plog (i : Issue) (o : POp)
  -- matrix engine
  | mop (i : Issue) (o : MOp)
  | matrixOpComplete (c : CoreId)
  | mbal (i : Issue) (n : BitVec 17)
  -- vector engine
  | vfp (i : Issue) (o : VOp)
  | vfpd (i : Issue) (o : VOp)
  | vint (i : Issue) (o : VOp)
  | vcmp (i : Issue) (o : VOp)
  | vcvt (i : Issue) (o : VOp)
  | vfn (i : Issue) (o : VOp)
  | vmove (i : Issue) (o : VOp)
  | vred (i : Issue) (o : VOp)
  | vld (i : Issue) (o : VOp)
  | vst (i : Issue) (o : VOp)
  | vstr (i : Issue) (o : VOp)
  | vrand (i : Issue) (o : VOp)
  | vclrf (i : Issue) (o : VOp)
  | setvl (i : Issue) (o : VOp)
  | kop (i : Issue) (o : VOp)
  -- transfers
  | nxfer (i : Issue) (r : BitVec 5)
  | dma (i : Issue) (r : BitVec 5)
  | dmaComplete (c : CoreId)
  | gstart (i : Issue) (r : BitVec 5)
  | coll (i : Issue) (r : BitVec 5)
  | pref (i : Issue) (r : BitVec 5)
  -- sequencer events
  | instructionFetchFault (c : CoreId)
  | contextSwapComplete (c : CoreId) (slot : Bool)
  | icacheFillComplete (c : CoreId) (poisoned : Bool)
  | seqPerfClear (p : Path) (c : CoreId) (value : BitVec 64)
  -- scale table
  | conversionReport
  | pendingSetLatch
  | scaleRebuildStop (rebuilt : Nat)
  | numEntryCfgWrite (p : Path) (value : BitVec 64)
  -- fabric and memory
  | regionWriteComplete (staging : Bool) (region : BitVec 20)
  | gatherRequestIssue (cd : Fin 12) (e : Fin 4)
  | gatherElementReturn (cd : Fin 12) (e : Fin 4) (elem : BitVec 20)
  | gatherRemoteTimeout (cd : Fin 12) (e : Fin 4) (elem : BitVec 20)
  | ncacheLookup (cd : Fin 12) (lport : Fin 5) (addr : BitVec 48)
  | ncacheFillComplete (cd : Fin 12) (line : BitVec 40)
  | ncacheFlush (p : Path) (cd : Fin 12)
  | idleCalendarSlot
  | memoryRequest (ch : Fin 128)
  | windowClose (ch : Fin 128)
  | refreshSlot (ch : Fin 128)
  | channelMigrationStart (p : Path) (md : Fin 4) (value : BitVec 64)
  | channelMigrationComplete (md : Fin 4)
  | eccRepairRewrite (md : Fin 4)
  -- link words and lanes
  | linkWordSend (p : Port)
  | takeover (p : Port) (logical : BitVec 4) (tTake : BitVec 64)
  | portTakeover (logical : Fin 10)
  | spareRequest (p : Port) (failed spare : BitVec 6)
  | spareAcknowledge (p : Port) (failed spare : BitVec 6) (codeword : BitVec 32)
  | laneSpareSwitch (p : Port)
  | laneFailure (p : Port) (lane : Fin 36) (lostLock : Bool) (symErr : Nat)
  | portCtrlEnterCalm (p : Port) (instant : BitVec 64)
  | portCtrlLeaveCalm (p : Port) (instant : BitVec 64)
  | portCtrlHalveWidth (p : Port) (instant : BitVec 64)
  | portCtrlActionInstant (p : Port)
  | epochMark (p : Port) (epoch : Bool) (vcs : BitVec 8)
  | epochBankRelease (ld : Fin 2)
  | epochShadowReady (p : Path) (ld : Fin 2)
  | hello (p : Port) (w : HelloWord)
  | creditAck (p : Port) (w : CreditWord)
  | nak (p : Port) (w : CreditWord)
  | uncorrectableLinkWord (p : Port)
  | outageEnd (p : Port)
  | outageLimitExpiry (p : Port) (allLost : Bool)
  -- ports
  | portEnable (p : Path) (port : Port)
  | portDisable (p : Path) (port : Port)
  | portRetrain (p : Path) (port : Port)
  | cableMate (p : Port)
  | cableUnmate (p : Port)
  | cableOvercurrent (p : Port)
  | farEndSignal (p : Port)
  | trainingLock (p : Port) (r : TrainResult)
  | trainingLockTimeout (p : Port)
  | trainingSettleTimeout (p : Port)
  -- packets
  | packetSend (p : Port) (vc : Fin 8)
  | packetRoute (ld : Fin 2) (inp : RouterIn) (pkt : RawPacket)
  | writePacket (pkt : RawPacket)
  | readReq (pkt : RawPacket)
  | readResp (pkt : RawPacket)
  | collData (pkt : RawPacket)
  | collSignal (pkt : RawPacket)
  | collectiveComplete (ch : Fin 16)
  | collectiveDeadlineExpiry (ch : Fin 16)
  | ctrlPacket (pkt : RawPacket)
  | outcomeQuery (p : Port) (step : BitVec 32) (attempt : BitVec 8)
  | outcomeAnswer (p : Port) (step : BitVec 32) (attempt : BitVec 8) (answer : BitVec 2)
  | outcomeQuerySend
  | lineNotice (p : Port) (axis : Fin 4) (k : BitVec 5) (instant : BitVec 64)
  | votePacket (p : Port) (pkt : RawPacket)
  | mgmtPacket (pkt : RawPacket)
  | authChallenge (p : Port) (lport : BitVec 4) (nonce : BitVec 256)
  | authResponse (p : Port) (echo : BitVec 256) (key : List Byte) (sigValid : Bool)
  | authRetryTimeout (p : Port)
  | authTimeout (p : Port)
  | echo (ld : Fin 2) (pkt : RawPacket)
  | headwindRecovery (ld : Fin 2)
  -- start-up
  | powerInputGood
  | powerInputLost
  | holdRelease
  | bootComplete (b : BootInput)
  | postComplete (hubFails : Bool)
  | trainComplete (failed : List (Fin 136))
  | discoveryTimeout
  | discoverExit
  | syncExit
  | drainStateExit
  -- disruptive commands
  | command (r : MgmtReq) (e : Envelope)
  | arm
  | stop
  | fenceCore
  | fenceGather
  | fencePort
  | fenceCollChannel
  | fenceGuest
  | fenceCxl
  | fenceMemChannel
  | releaseCore (testPassed : Bool)
  | releaseGather
  | releasePort
  | releaseCollChannel
  | releaseGuest
  | releaseCxl
  | releaseMemChannel
  | expel
  | replan
  | firmwareInstall (sigOk chainOk : Bool)
  | injectionUnlock
  | rwqWrite
  | debugUnlockQuorum (newNonce : BitVec 64)
  | debugCertSubmit (c : DebugCert)
  | debugRelock (p : Path)
  | debugUnlockExpiry
  -- self-test, fencing, drains
  | unitTestStart (die : Fin 20)
  | unitTestComplete (die : Fin 20) (passed : Bool)
  | fenceCopyComplete (cd : Fin 12)
  | drainComplete (kind : BitVec 4) (unit : BitVec 9)
  | drainTimeout (kind : BitVec 4) (unit : BitVec 9)
  | ctlCoreWatchdog (die : Fin 13) (core : Fin 9)
  -- resets
  | hubWatchdogExpiry
  | hubCtlFatal
  | warmReset
  | coldReset
  | regulatorPhaseFail (rail : Fin 40) (shareW : BitVec 16)
  -- events
  | eventRecordCommit
  | eventCoalesceFlush
  | eventRingRead (p : Path) (r : Fin 4) (w : Fin 4)
  | statusMessage
  | injectionArm (p : Path) (die : Fin 13) (value : BitVec 64)
  | maintenanceExpiry
  -- security, host, management
  | attest (r : MgmtReq) (nonce : BitVec 256)
  | guestTransaction (t : GuestTxn)
  | guestAdmit
  | hostMemRequest (r : HostReq)
  | hostRequestServe (ch : Fin 128)
  | hostHoldExpiry
  | identifyMemoryDevice
  | getSupportedLogs
  | getLog (uuid : BitVec 128) (offset length : BitVec 32)
  | getHealthInfo
  | mailboxUnsupported (opcode : BitVec 16)
  | cdatDoeRequest (index : BitVec 16)
  | perstAssert
  | perstDeassert
  | cxlLinkChange (up : Bool) (speed : BitVec 2) (width : BitVec 4)
  | pullRingStart (p : Path) (head : BitVec 10)
  | pullRingResume (p : Path)
  | pullDescriptorComplete (status : BitVec 8) (data : List MWord)
  | pullCompletionTimeout
  | msixSend (vector : Fin 16)
  | mgmtSegment (s : Segment)
  | mgmtReassemblyTimeout (sender : BitVec 128) (requestId : BitVec 64)
  | readReg (r : MgmtReq) (addrs : List (BitVec 48))
  | writeReg (r : MgmtReq) (pairs : List (BitVec 48 × BitVec 64))
  | readMem (r : MgmtReq) (addr : BitVec 48) (length : BitVec 32)
  | loadChunk (r : MgmtReq) (region : Bool) (offset : BitVec 32) (bytes : List Byte)
  | loadCommit (r : MgmtReq) (region : Bool) (length : BitVec 32)
  | recoveryWriteComplete (b : BootInput)
  | timeOfDay (r : MgmtReq) (tai : BitVec 64) (pps : Bool)
  | start (r : MgmtReq)
  | powerLimit (r : MgmtReq) (watts : BitVec 32)
  | i3cEntdaa (addr : BitVec 7)
  | i3cPrivateRead (offset : Nat) (length : Nat)
  | i3cPrivateWrite (offset : Nat) (bytes : List Byte)
  -- power and thermal
  | thermalSample (t : ThermalReading)
  | thermalTrip (die : BitVec 5) (sensor : BitVec 4) (temp : Int)
  | tripSettle
  | powerCalibration (measured : Nat)
  | avsAdjust (die : Fin 19) (margin : Int) (guard : Int)
  | regulatorPoll (rail : Fin 40) (vout iout : Nat) (temp : Int)
  | perfClear (p : Path) (die : Fin 20) (value : BitVec 64)
  | perfSelWrite (p : Path) (die : Fin 20) (n : Fin 8) (value : BitVec 64)
  | warmRstNRelease
  | coldRstNRelease
  | tripSensorsClear (t : ThermalReading)
  | scaleRebuildComplete
  | hdmDecoderCommit (base : BitVec 64)
  | icmpv6Message (m : Icmp)
  | debugTapInstruction (ir : BitVec 8)
  deriving DecidableEq, Repr

end Sys2Proof
end

