-- ==== Sys2Proof/WellFormed.lean ====
section
/-!
DEFINITION. Well-formed commands: the encodings of core instructions that the opcode table and the format tables admit
(R142 to R144; an instruction outside them is refused by validation check 0x02 and stops its core under R161), and
the shapes of the other commands that their wire or message formats fix.
-/
namespace Sys2Proof.WellFormed

/-- SCMP conditions 0 to 5; PLOG functions 0 to 3 (R142). -/
def scmp (o : POp) : Bool := o.cond.toNat ≤ 5
def plog (o : POp) : Bool := o.cond.toNat ≤ 3

/-- MOP: every code field holds a code that is not reserved (R46, R48, R72); the value rules of R71 to R73 are validation
check 0x03. -/
def mop (o : MOp) : Bool :=
  o.aFmt.toNat ≤ 10 && o.bFmt.toNat ≤ 10 && o.aLayout.toNat ≤ 2 && o.bLayout.toNat ≤ 2 && o.dataflow.toNat ≤ 2
    && o.accSrc.toNat ≤ 2 && o.accDst.toNat ≤ 2

/-- VLD names a format and a layout that are not reserved (R46, R48). -/
def vld (o : VOp) : Bool := o.fmt.toNat ≤ 11 && o.layout.toNat ≤ 2

def vfp (o : VOp) : Bool := o.func.toNat ≤ 8
def vfpd (o : VOp) : Bool := o.func.toNat ≤ 10
def vint (o : VOp) : Bool := o.func.toNat ≤ 12
def vcmp (o : VOp) : Bool := o.func.toNat ≤ 5 && o.opt.toNat ≤ 2
def vcvt (o : VOp) : Bool := o.func.toNat ≤ 4 && o.opt.toNat ≤ 1
def vmove (o : VOp) : Bool := o.func.toNat ≤ 5
def vred (o : VOp) : Bool := o.func.toNat ≤ 9
def vrand (o : VOp) : Bool := o.purpose = 0 || o.purpose = 2
def kop (o : VOp) : Bool := o.func.toNat ≤ 3

/-- WAITQ names queues 0 to 5 (R142). -/
def waitq (q : BitVec 4) : Bool := q.toNat ≤ 5
/-- LOOP bodies hold 1 to 2,047 instructions, BRB arms 0 to 2,046 (R142). -/
def loop (len : BitVec 12) : Bool := 1 ≤ len.toNat && len.toNat ≤ 2047
def brb (a b : BitVec 11) : Bool := a.toNat ≤ 2046 && b.toNat ≤ 2046
/-- VOTE 0 commit, 1 skip, 2 fail (R142). -/
def vote (v : BitVec 2) : Bool := v.toNat ≤ 2

/-- A packet carries 1 to 256 payload words, as many as its header says (R212). -/
def packet (p : RawPacket) : Bool := decide (p.payload.length = (p.hdr.toNat / 2 ^ 64) % 256 + 1)

/-- A management segment carries at most 1,408 bytes of its message (R338). -/
def segment (s : Segment) : Bool := s.body.length ≤ 1408

/-- Well-formedness of a command. -/
def instr : Instr → Bool
  | .waitq _ q _ _ => waitq q
  | .loop _ _ l => loop l
  | .brb _ _ _ a b => brb a b
  | .vote _ v _ => vote v
  | .scmp _ o => scmp o
  | .plog _ o => plog o
  | .mop _ o => mop o
  | .vfp _ o => vfp o
  | .vfpd _ o => vfpd o
  | .vint _ o => vint o
  | .vcmp _ o => vcmp o
  | .vcvt _ o => vcvt o
  | .vmove _ o => vmove o
  | .vred _ o => vred o
  | .vrand _ o => vrand o
  | .vld _ o => vld o
  | .kop _ o => kop o
  | .packetRoute _ _ p => packet p
  | .writePacket p => packet p
  | .readReq p => packet p
  | .readResp p => packet p
  | .collData p => packet p
  | .collSignal p => packet p
  | .ctrlPacket p => packet p
  | .votePacket _ p => packet p
  | .mgmtPacket p => packet p
  | .echo _ p => packet p
  | .mgmtSegment s => segment s
  | .readReg _ as => as.length ≤ 64
  | .writeReg _ ps => ps.length ≤ 64
  | _ => true

end Sys2Proof.WellFormed
end

