-- ==== Sys2Proof/Decode.lean ====
section
/-!
DEFINITION. Words and commands. The opcode table gives its rows no bits, so a table word spells no command. The 128-bit
instruction words that a core executes have the layout of R142 and the opcodes of R144: a decoder, total on any word, that
refuses reserved opcodes, reserved codes and non-zero reserved fields, and the encoder of the same tables.
-/
namespace Sys2Proof

/-- The table gives no row any bits: no word spells a command. -/
def decodeTableWord (_nbits _w : Nat) : Option Instr := none

/-! ### Fields -/

/-- Bits [lo + n − 1 : lo] of an instruction word. -/
abbrev fld (w : BitVec 128) (lo n : Nat) : BitVec n := w.extractLsb' lo n

/-- One bit of an instruction word. -/
abbrev flag (w : BitVec 128) (i : Nat) : Bool := w.getLsbD i

/-- A flag as a one-bit field. -/
abbrev ofFlag (b : Bool) : BitVec 1 := BitVec.ofBool b

/-- The opcode of R144; none for a command that is no core instruction. -/
def opcodeOf : Instr → Option (BitVec 8)
  | .nop _ => some 0x00
  | .waitc _ _ => some 0x01
  | .anchor _ => some 0x02
  | .waitq _ _ _ _ => some 0x03
  | .loop _ _ _ => some 0x04
  | .brb _ _ _ _ _ => some 0x05
  | .csel _ _ => some 0x06
  | .vote _ _ _ => some 0x07
  | .sloop _ _ _ => some 0x08
  | .sli _ _ => some 0x10
  | .sadd _ _ => some 0x11
  | .ssub _ _ => some 0x12
  | .smul _ _ => some 0x13
  | .sand _ _ => some 0x14
  | .sor _ _ => some 0x15
  | .sxor _ _ => some 0x16
  | .sshl _ _ => some 0x17
  | .sshr _ _ => some 0x18
  | .ssra _ _ => some 0x19
  | .smin _ _ => some 0x1A
  | .smax _ _ => some 0x1B
  | .scmp _ _ => some 0x1C
  | .plog _ _ => some 0x1D
  | .mop _ _ => some 0x20
  | .mbal _ _ => some 0x21
  | .vfp _ _ => some 0x40
  | .vfpd _ _ => some 0x41
  | .vint _ _ => some 0x42
  | .vcmp _ _ => some 0x43
  | .vcvt _ _ => some 0x44
  | .vfn _ _ => some 0x45
  | .vmove _ _ => some 0x46
  | .vred _ _ => some 0x47
  | .vld _ _ => some 0x48
  | .vst _ _ => some 0x49
  | .vstr _ _ => some 0x4A
  | .vrand _ _ => some 0x4B
  | .vclrf _ _ => some 0x4C
  | .setvl _ _ => some 0x4D
  | .kop _ _ => some 0x4E
  | .nxfer _ _ => some 0x60
  | .dma _ _ => some 0x61
  | .gstart _ _ => some 0x62
  | .coll _ _ => some 0x63
  | .pref _ _ => some 0x64
  | _ => none

/-! ### Operand fields, bits [114:0] -/

/-- Format S. -/
def encS (o : SOp) : BitVec 115 := o.d ++ o.a ++ o.b ++ ofFlag o.immSel ++ (0 : BitVec 35) ++ o.imm
def decS (w : BitVec 128) : SOp := ⟨fld w 110 5, fld w 105 5, fld w 100 5, flag w 99, fld w 0 64⟩

/-- Format P. -/
def encP (o : POp) : BitVec 115 :=
  o.pd ++ (0 : BitVec 1) ++ o.a ++ o.b ++ ofFlag o.immSel ++ o.cond ++ (0 : BitVec 32) ++ o.imm
def decP (w : BitVec 128) : POp := ⟨fld w 111 4, fld w 105 5, fld w 100 5, flag w 99, fld w 96 3, fld w 0 64⟩

/-- Format M. -/
def encM (o : MOp) : BitVec 115 :=
  o.aFmt ++ o.bFmt ++ ofFlag o.aSign ++ ofFlag o.bSign ++ o.aLayout ++ o.bLayout ++ o.dataflow ++ o.accSrc ++ o.accDst
    ++ ofFlag o.accSet ++ o.m ++ o.n ++ o.k ++ o.ra ++ o.rb ++ o.rc ++ o.rd ++ o.rt ++ ofFlag o.aRel ++ ofFlag o.bRel
    ++ ofFlag o.cRel ++ (0 : BitVec 27)
def decM (w : BitVec 128) : MOp :=
  { aFmt := fld w 111 4, bFmt := fld w 107 4, aSign := flag w 106, bSign := flag w 105, aLayout := fld w 103 2,
    bLayout := fld w 101 2, dataflow := fld w 99 2, accSrc := fld w 97 2, accDst := fld w 95 2, accSet := flag w 94,
    m := fld w 83 11, n := fld w 72 11, k := fld w 55 17, ra := fld w 50 5, rb := fld w 45 5, rc := fld w 40 5,
    rd := fld w 35 5, rt := fld w 30 5, aRel := flag w 29, bRel := flag w 28, cRel := flag w 27 }

/-- Format V. -/
def encV (o : VOp) : BitVec 115 :=
  o.vd ++ o.vs1 ++ o.vs2 ++ o.vs3 ++ o.mask ++ ofFlag o.zero ++ o.func ++ o.opt ++ o.sd ++ o.ra ++ ofFlag o.rel ++ o.fmt
    ++ ofFlag o.sgn ++ o.layout ++ o.rdesc ++ o.rtile ++ o.tid ++ o.draw ++ o.purpose ++ (0 : BitVec 1) ++ o.imm
def decV (w : BitVec 128) : VOp :=
  { vd := fld w 110 5, vs1 := fld w 105 5, vs2 := fld w 100 5, vs3 := fld w 95 5, mask := fld w 92 3, zero := flag w 91,
    func := fld w 87 4, opt := fld w 85 2, sd := fld w 80 5, ra := fld w 75 5, rel := flag w 74, fmt := fld w 70 4,
    sgn := flag w 69, layout := fld w 67 2, rdesc := fld w 62 5, rtile := fld w 57 5, tid := fld w 43 14,
    draw := fld w 35 8, purpose := fld w 33 2, imm := fld w 0 32 }

/-- Operands of a core instruction. -/
def operandsOf : Instr → BitVec 115
  | .nop _ | .anchor _ => 0
  | .waitc _ n | .mbal _ n => (0 : BitVec 98) ++ n
  | .waitq _ q c d => q ++ (0 : BitVec 47) ++ c ++ d
  | .loop _ c l => (0 : BitVec 71) ++ l ++ c
  | .brb _ p v a b => p ++ ofFlag v ++ (0 : BitVec 88) ++ b ++ a
  | .csel _ s => (0 : BitVec 114) ++ ofFlag s
  | .vote _ v c => (0 : BitVec 105) ++ c ++ v
  | .sloop _ d l => d ++ (0 : BitVec 108) ++ l
  | .sli _ o | .sadd _ o | .ssub _ o | .smul _ o | .sand _ o | .sor _ o | .sxor _ o | .sshl _ o | .sshr _ o | .ssra _ o | .smin _ o | .smax _ o => encS o
  | .scmp _ o | .plog _ o => encP o
  | .mop _ o => encM o
  | .vfp _ o | .vfpd _ o | .vint _ o | .vcmp _ o | .vcvt _ o | .vfn _ o | .vmove _ o | .vred _ o | .vld _ o | .vst _ o | .vstr _ o | .vrand _ o | .vclrf _ o | .setvl _ o | .kop _ o => encV o
  | .nxfer _ r | .dma _ r | .gstart _ r | .coll _ r | .pref _ r => r ++ (0 : BitVec 110)
  | _ => 0

/-- Guard and core of a core instruction. -/
def issueOf : Instr → Issue
  | .nop i | .anchor i | .waitc i _ | .mbal i _ | .waitq i _ _ _ | .loop i _ _ | .brb i _ _ _ _ | .csel i _ | .vote i _ _
  | .sloop i _ _ => i
  | .sli i _ | .sadd i _ | .ssub i _ | .smul i _ | .sand i _ | .sor i _ | .sxor i _ | .sshl i _ | .sshr i _ | .ssra i _ | .smin i _ | .smax i _ | .scmp i _ | .plog i _ | .mop i _ => i
  | .vfp i _ | .vfpd i _ | .vint i _ | .vcmp i _ | .vcvt i _ | .vfn i _ | .vmove i _ | .vred i _ | .vld i _ | .vst i _ | .vstr i _ | .vrand i _ | .vclrf i _ | .setvl i _ | .kop i _ | .nxfer i _ | .dma i _ | .gstart i _ | .coll i _ | .pref i _ => i
  | _ => ⟨⟨0, 0⟩, ⟨0, false⟩⟩

/-- The 128-bit word of a core instruction (R142); none for another command. -/
def encodeInsn (i : Instr) : Option (BitVec 128) :=
  (opcodeOf i).map fun op => op ++ (issueOf i).guard.pn ++ ofFlag (issueOf i).guard.neg ++ operandsOf i

/-! ### Decoding -/

/-- The instruction of an opcode, its fields read but not yet checked. -/
def readInsn (c : CoreId) (w : BitVec 128) : Option Instr :=
  let i : Issue := ⟨c, ⟨fld w 116 4, flag w 115⟩⟩
  match (fld w 120 8).toNat with
  | 0x00 => some (.nop i)
  | 0x01 => some (.waitc i (fld w 0 17))
  | 0x02 => some (.anchor i)
  | 0x03 => some (.waitq i (fld w 111 4) (fld w 32 32) (fld w 0 32))
  | 0x04 => some (.loop i (fld w 0 32) (fld w 32 12))
  | 0x05 => some (.brb i (fld w 111 4) (flag w 110) (fld w 0 11) (fld w 11 11))
  | 0x06 => some (.csel i (flag w 0))
  | 0x07 => some (.vote i (fld w 0 2) (fld w 2 8))
  | 0x08 => some (.sloop i (fld w 110 5) (fld w 0 2))
  | 0x10 => some (.sli i (decS w))
  | 0x11 => some (.sadd i (decS w))
  | 0x12 => some (.ssub i (decS w))
  | 0x13 => some (.smul i (decS w))
  | 0x14 => some (.sand i (decS w))
  | 0x15 => some (.sor i (decS w))
  | 0x16 => some (.sxor i (decS w))
  | 0x17 => some (.sshl i (decS w))
  | 0x18 => some (.sshr i (decS w))
  | 0x19 => some (.ssra i (decS w))
  | 0x1A => some (.smin i (decS w))
  | 0x1B => some (.smax i (decS w))
  | 0x1C => some (.scmp i (decP w))
  | 0x1D => some (.plog i (decP w))
  | 0x20 => some (.mop i (decM w))
  | 0x21 => some (.mbal i (fld w 0 17))
  | 0x40 => some (.vfp i (decV w))
  | 0x41 => some (.vfpd i (decV w))
  | 0x42 => some (.vint i (decV w))
  | 0x43 => some (.vcmp i (decV w))
  | 0x44 => some (.vcvt i (decV w))
  | 0x45 => some (.vfn i (decV w))
  | 0x46 => some (.vmove i (decV w))
  | 0x47 => some (.vred i (decV w))
  | 0x48 => some (.vld i (decV w))
  | 0x49 => some (.vst i (decV w))
  | 0x4A => some (.vstr i (decV w))
  | 0x4B => some (.vrand i (decV w))
  | 0x4C => some (.vclrf i (decV w))
  | 0x4D => some (.setvl i (decV w))
  | 0x4E => some (.kop i (decV w))
  | 0x60 => some (.nxfer i (fld w 110 5))
  | 0x61 => some (.dma i (fld w 110 5))
  | 0x62 => some (.gstart i (fld w 110 5))
  | 0x63 => some (.coll i (fld w 110 5))
  | 0x64 => some (.pref i (fld w 110 5))
  | _ => none

/-- The decoder: a word whose reserved fields are not zero, or whose codes are reserved, is refused (R144): it is not the
encoding of the instruction it reads as. -/
def decodeInsn (c : CoreId) (w : BitVec 128) : Option Instr :=
  match readInsn c w with
  | some i => if encodeInsn i = some w ∧ WellFormed.instr i then some i else none
  | none => none

/-- The validation check (R160) that a word fails which the decoder refuses: 0x03 where only the value of a format, layout, dataflow or
accumulator field of a matrix operation or of a load is outside R46, R48 and R72; 0x02 for a reserved opcode, code or field. -/
def badWordCheck (c : CoreId) (w : BitVec 128) : Nat :=
  match readInsn c w with
  | some (.mop i o) => if encodeInsn (.mop i o) = some w then 3 else 2
  | some (.vld i o) => if encodeInsn (.vld i o) = some w then 3 else 2
  | _ => 2

end Sys2Proof
end

