-- ==== Sys2Proof/Machine/Sparse.lean ====
section
/-!
DEFINITION. Operations on sparse maps (`Sp`), and the bit-field, byte-order and sign helpers that the model uses.
A sparse map lists its entries in strictly rising key order and lists no entry equal to what an unlisted key reads
as, so equal maps are equal data.
-/
namespace Sys2Proof.Machine

/-- The value at key `k`, where an unlisted key reads as `d`. -/
def Sp.get {α : Type} (d : α) : Sp α → Nat → α
  | [], _ => d
  | (k', v) :: m, k => if k' = k then v else Sp.get d m k

/-- Remove key `k`. -/
def Sp.erase {α : Type} (m : Sp α) (k : Nat) : Sp α := m.filter fun e => e.1 ≠ k

/-- Insert `(k, v)` into a map that does not list `k`, keeping the order. -/
def Sp.ins {α : Type} (k : Nat) (v : α) : Sp α → Sp α
  | [] => [(k, v)]
  | (k', v') :: m => if k < k' then (k, v) :: (k', v') :: m else (k', v') :: Sp.ins k v m

/-- Set key `k` to `v`, where an unlisted key reads as `d`: writing `d` removes the entry. -/
def Sp.set {α : Type} [DecidableEq α] (d : α) (m : Sp α) (k : Nat) (v : α) : Sp α :=
  if v = d then Sp.erase m k else Sp.ins k v (Sp.erase m k)

/-- The canonical form: keys strictly rising, no entry equal to the default. -/
def Sp.wf {α : Type} [DecidableEq α] (d : α) : Sp α → Bool
  | [] => true
  | [(_, v)] => v ≠ d
  | (k, v) :: (k', v') :: m => decide (k < k') && decide (v ≠ d) && Sp.wf d ((k', v') :: m)

/-- The keys listed. -/
def Sp.keys {α : Type} (m : Sp α) : List Nat := m.map Prod.fst

/-- Bits [lo + w − 1 : lo] of `x`. -/
def bits (x lo w : Nat) : Nat := (x >>> lo) % 2 ^ w

/-- `x` with bits [lo + w − 1 : lo] replaced by the low `w` bits of `v`. -/
def setBits (x lo w v : Nat) : Nat :=
  x - (bits x lo w) * 2 ^ lo + (v % 2 ^ w) * 2 ^ lo

/-- Bit `i` of `x`. -/
def bit (x i : Nat) : Bool := x.testBit i

/-- 1 for true, 0 for false. -/
def b2n (b : Bool) : Nat := if b then 1 else 0

/-- The two's complement reading of the low `w` bits of `x`. -/
def sext (w x : Nat) : Int :=
  let v := x % 2 ^ w
  if v < 2 ^ (w - 1) then (v : Int) else (v : Int) - (2 : Int) ^ w

/-- The low `w` bits of `x` in two's complement. -/
def wrapInt (w : Nat) (x : Int) : Nat := (x % ((2 : Int) ^ w)).toNat

/-- The smaller of `x` and the largest value of `w` bits (a saturating counter field). -/
def satur (w x : Nat) : Nat := min x (2 ^ w - 1)

/-- Ceiling division. -/
def cdiv (a b : Nat) : Nat := (a + b - 1) / b

/-- Little-endian bytes of the low `8 n` bits of `x` (R5). -/
def leBytes : Nat → Nat → List Byte
  | 0, _ => []
  | n + 1, x => BitVec.ofNat 8 x :: leBytes n (x / 256)

/-- The number that bytes hold, byte 0 least significant (R5). -/
def ofLeBytes : List Byte → Nat
  | [] => 0
  | b :: bs => b.toNat + 256 * ofLeBytes bs

/-- Number of one bits among the low `w`. -/
def popcount (w x : Nat) : Nat := ((List.range w).filter fun i => x.testBit i).length

/-- The lowest `i < w` with bit `i` set. -/
def lowestBit (w x : Nat) : Option Nat := (List.range w).find? fun i => x.testBit i

/-- The characters of a string as bytes (all are below 128). -/
def asciiBytes (s : String) : List Byte := s.toList.map fun c => BitVec.ofNat 8 c.toNat

end Sys2Proof.Machine
end

