-- ==== Sys2Proof/Machine/Ecc.lean ====
section
/-!
DEFINITION. The word code (12_reliability.md, R288 to R290): Reed-Solomon over GF(2⁸), polynomial 0x11D, four check
symbols over 32 data symbols; what a checker makes of a received word.
-/
namespace Sys2Proof.Machine

/-- Multiplication by α = 0x02 modulo 0x11D. -/
def gfX (a : Nat) : Nat := if a < 128 then 2 * a else (2 * a) ^^^ 0x11D

/-- Product in GF(2⁸), over `n` bits of the second factor. -/
def gfMulN : Nat → Nat → Nat → Nat
  | 0, _, _ => 0
  | n + 1, a, b => (if b % 2 = 1 then a else 0) ^^^ gfMulN n (gfX a) (b / 2)

def gfMul (a b : Nat) : Nat := gfMulN 8 a b

/-- α^i. -/
def gfPow : Nat → Nat
  | 0 => 1
  | n + 1 => gfX (gfPow n)

/-- Symbol `i` (8 bits) of a packed value. -/
def sym (x i : Nat) : Nat := bits x (8 * i) 8

/-- g(x) = (x + 1)(x + α)(x + α²)(x + α³) without its leading coefficient, low coefficient first (R288). -/
def rsGen : List Nat :=
  let mul (p : List Nat) (r : Nat) : List Nat :=
    List.zipWith (fun a b => a ^^^ b) (0 :: p) (p.map (gfMul r) ++ [0])
  ((((mul [1] 1) |> (mul · 2)) |> (mul · 4)) |> (mul · 8)).take 4

/-- One step of the division by g(x): `r` holds the four remainder symbols, low first; `d` is the next symbol down. -/
def rsStep (r : List Nat) (d : Nat) : List Nat :=
  let top := (r.getD 3 0) ^^^ d
  List.zipWith (fun a g => a ^^^ gfMul top g) (0 :: r.take 3) rsGen

/-- The 32 check bits of a word: p_j at bits [8j + 7 : 8j] (R288). -/
def checkBits (data : Word) : BitVec 32 :=
  let d := data.toNat
  let r := (List.range 32).foldl (fun r i => rsStep r (sym d (31 - i))) [0, 0, 0, 0]
  BitVec.ofNat 32 (ofLeBytes (r.map fun x => BitVec.ofNat 8 x))

/-- Syndrome S_k of the difference between the check bits a word carries and those of its data (R289). A word's syndromes
depend on this difference alone, since the data with its own check bits is a codeword. -/
def syndrome (e : BitVec 32) (k : Nat) : Nat :=
  (List.range 4).foldl (fun acc j => acc ^^^ gfMul (sym e.toNat j) (gfPow (j * k))) 0

/-- The class of a received word (R289), by the check-bit difference: for a correctable word, the symbol position and
the value XORed into it. -/
inductive WClass where
  | clean | poisoned | correctable (pos val : Nat) | uncorrectable
  deriving DecidableEq, Repr

def classify (e : BitVec 32) : WClass :=
  if e = 0 then .clean
  else if e = 0xFFFFFFFF then .poisoned
  else
    let s0 := syndrome e 0
    let s1 := syndrome e 1
    let s2 := syndrome e 2
    let s3 := syndrome e 3
    let ok (pos : Nat) : Bool :=
      let a := gfPow pos
      s1 == gfMul s0 a && s2 == gfMul s1 a && s3 == gfMul s2 a
    if s0 = 0 then .uncorrectable
    else match (List.range 36).find? ok with
      | some pos => .correctable pos s0
      | none => .uncorrectable

/-- A word with value `val` XORed into symbol position `pos`; positions 0 to 3 are check symbols (R288). -/
def fixSymbol (data : Word) (pos val : Nat) : Word :=
  if pos < 4 then data else data ^^^ BitVec.ofNat 256 (val * 2 ^ (8 * (pos - 4)))

/-- What a checker forwards (R289, R290). -/
def checked (data : Word) (e : BitVec 32) : MWord :=
  match classify e with
  | .clean => ⟨data, false⟩
  | .correctable p v => ⟨fixSymbol data p v, false⟩
  | .poisoned | .uncorrectable => ⟨data, true⟩

/-- The check-bit difference of a word delivered with or without poison. -/
def poisonErr (p : Bool) : BitVec 32 := if p then 0xFFFFFFFF else 0

end Sys2Proof.Machine
end

