-- ==== Sys2Proof/Config.lean ====
section
/-!
DEFINITION. What the spec fixes per part or leaves open: constants of manufacture, and the free values. Each is opaque:
nothing can be proved of its value, so a statement about it holds for every value.
-/
namespace Sys2Proof.Config

/-- Serial number of die `d` (ID_SERIAL, class F; R376). -/
opaque dieSerial : Nat → BitVec 64

/-- Module serial number (GLB_SERIAL, R377). -/
opaque moduleSerial : BitVec 64

/-- Fused minimum of die `d`'s logic rail in mV, and the voltage it is trimmed to at delivery (PWR_AVS, R354). -/
opaque vminMv : Nat → BitVec 12
opaque voutMv : Nat → BitVec 12

/-- Fused nominal of die `d`'s logic rail in a mode, in mV (R354). -/
opaque nominalMv : Nat → Nat → BitVec 12

/-- Clock of the memory controllers in MHz, and the cycles for which a request keeps its bank busy (R378): the spec states neither. -/
opaque controllerMhz : BitVec 16
opaque bankBusy : Nat → Nat → Nat → BitVec 16

/-- A fresh value the spec leaves open: the argument is a counter of State that each use advances. -/
opaque freeWord : Nat → BitVec 256

/-- Device address of byte `off` of the staging memory, and of byte `off` of the SRAM of compute die `cd`, site `s`
(the spec names such addresses in descriptors and gives no map of them). -/
opaque stagingBase : BitVec 48
opaque sramBase : Nat → Nat → BitVec 48

/-- Result of a vector shift by 32 or more, which the spec does not state: a function of the shift (10 left, 11 right, 12 arithmetic), the
value and the amount, so that R92 holds. -/
opaque wideShift : Nat → BitVec 32 → BitVec 32 → BitVec 32

/-- Epsilon and row length of each normalisation that an image's programs carry out, with the image word that holds them (R108: the
procedures are programs, and the spec gives their parameters no place in the image). -/
opaque normParams : List (BitVec 256) → List (Nat × BitVec 32 × Nat)

/-- Digest of the boot ROM, fixed at manufacture (R312, kind 1). -/
opaque bootRomDigest : BitVec 256

/-- A Falcon-1024 signature, padded to 1,280 bytes, by the device key behind a fingerprint, over a message and with a salt (13_security.md
leaves the scheme to the Falcon specification). -/
opaque falconSign : BitVec 256 → List (BitVec 8) → BitVec 256 → BitVec 10240

/-- The VOTE cause code by which images name a non-finite loss (06_training_numerics.md gives no code). -/
opaque nonfiniteCause : BitVec 8

/-- What the VC calendar section of an image says: its programs, each a list of 16-bit entries, and for each segment one
program index per logical port. R218 gives the entries' bits and the section's contents, and not where in it they lie. -/
opaque vcPrograms : List (BitVec 256) → List (List (BitVec 16))
opaque vcIndex : List (BitVec 256) → List (List Nat)

/-- The dimension along which a matrix operation reduces an operand of a tensor with block layout 0: R71 allows every dimension, and
MOP has no field that names one. A function of the tensor's id, the operand's offset in it in bytes, and the reduction length. -/
opaque reduceDim : Nat → Nat → Nat → Nat

/-- What image validation finds beyond the traces of single cores (R160; log entry 44): accesses of several units of a core to one bank of
its SRAM in one cycle. The detail of EV_IMAGE_INVALID for the first failing one, from the
image's words, the plan's words and the mode that the arm asks for. -/
opaque traceCheck : List (BitVec 256) → List (BitVec 256) → Nat → Option (BitVec 99)

/-- UUID of the Command Effects Log (R330 names the log; its UUID is the CXL specification's). -/
opaque celUuid : BitVec 128

/-- What the debug port makes of an instruction-register value, by R328's names: 0 BYPASS, 1 IDCODE, 2 SAMPLE/PRELOAD, 3
DBG_MAILBOX, 4 EXTEST, 5 control-core debug. The spec gives no codes; nor the IDCODE value and the width that it shows. -/
opaque tapDecode : Nat → Fin 6
opaque tapIdcode : BitVec 32

end Sys2Proof.Config
end

