-- ==== Sys2Proof/Machine/Regs.lean ====
section
/-!
DEFINITION. The register map (16_registers.md; the chapters' register tables): every register under the name the
manual gives it, its device address (R367), its fields with their access codes (R6) and reset values, and the reset
class of each field (R373). Written from the spec's own tables.
-/
namespace Sys2Proof.Machine

/-- Access codes (R6). -/
inductive Acc where
  | ro | rw | w1c | w1s | rwl | rwq
  deriving DecidableEq, Repr

/-- Reset classes (R373): fixed, cold, warm, plan. -/
inductive RstClass where
  | f | c | w | p
  deriving DecidableEq, Repr

/-- A field's place, access code, reset class and reset value. -/
structure FieldSpec where
  lo : Nat
  w : Nat
  acc : Acc
  cls : RstClass
  rst : Nat
  deriving DecidableEq, Repr

/-- Every register of the Terxo. Indices beyond a register's range name no register (`regOfAddr` never yields them). -/
inductive Reg where
  | mtcNow
  | mtcNowFrac
  | mtcStatus
  | mtcCtrl
  | mtcRate
  | mtcLoop
  | mtcSkewLimit
  | mtcAnchorTol
  | mtcAnchorStat
  | mtcRootTrim
  | mtcPpsStat
  | mtcEpoch
  | mtcPortStat (p : Nat)
  | mtcPortCal (p : Nat)
  | mtcSchedTime (n : Nat)
  | mtcSchedAct (n : Nat)
  | matId (cd s : Nat)
  | matStatus (cd s : Nat)
  | matFlags (cd s : Nat)
  | matOps (cd s : Nat)
  | matMacs (cd s : Nat)
  | vecId (cd s : Nat)
  | vecStatus (cd s : Nat)
  | vecFlags (cd s : Nat)
  | vecOps (cd s : Nat)
  | vecNanLanes (cd s h : Nat)
  | numCtrl
  | numSeed (h : Nat)
  | numStep
  | numTableStat
  | numMonitorCfg
  | numRescales
  | numGnorm
  | numEntrySel
  | numEntryHdr
  | numEntryCnt
  | numEntryCfg
  | convFlags (cd s : Nat)
  | convCount (cd s : Nat)
  | convVanish (cd s : Nat)
  | seqId (cd s : Nat)
  | seqStatus (cd s : Nat)
  | seqFault (cd s : Nat)
  | seqCtx (cd s c : Nat)
  | seqIcache (cd s : Nat)
  | seqPerfCtrl (cd s : Nat)
  | seqVote (cd s : Nat)
  | seqIssued (cd s : Nat)
  | seqStall (cd s e c : Nat)
  | nocStatus (cd : Nat)
  | nocCollision (cd : Nat)
  | xbarStatus
  | xbarCollision
  | stageStatus
  | stageGenSel
  | stageGen
  | stageStale
  | gathSlotQuota (cd : Nat)
  | gathCtrl (cd : Nat)
  | gathStatus (cd e : Nat)
  | gathCount (cd e : Nat)
  | gathStall (cd e c : Nat)
  | ncacheCtrl (cd : Nat)
  | ncacheHits (cd : Nat)
  | ncacheMisses (cd : Nat)
  | chanRefresh (md : Nat)
  | chanMigrate (md : Nat)
  | chanStat (md : Nat)
  | chanMap (md j : Nat)
  | chanStatus (md i : Nat)
  | eccCount (md i : Nat)
  | eccRmw (md : Nat)
  | trainStatus (md i : Nat)
  | portState (p : Nat)
  | portCtrl (p : Nat)
  | portPlan (p : Nat)
  | portCfg (p : Nat)
  | portLat (p : Nat)
  | portErr (p : Nat)
  | portVcBuf (p v : Nat)
  | portCredit (p v : Nat)
  | portReplay (p : Nat)
  | portOutage (p : Nat)
  | portCal (p : Nat)
  | portLane (p l : Nat)
  | routeCfg (ld : Nat)
  | routeEpoch (ld : Nat)
  | routePortMap (ld : Nat)
  | routeStat (ld : Nat)
  | routeDrain (ld i : Nat)
  | routeNext (ld b x t : Nat)
  | routeExc (ld b e : Nat)
  | hwCfg (ld : Nat)
  | hwCfg2 (ld : Nat)
  | hwRate (ld c j : Nat)
  | hwStat (ld : Nat)
  | collAxisRole
  | collCfg
  | collJournal
  | collStatus
  | collVote
  | collVoteOwn
  | collFallback
  | collFail
  | collChan (c : Nat)
  | ctlState
  | ctlStateTime
  | ctlBoot
  | ctlPlanIndex
  | ctlArm
  | ctlArmStart
  | ctlArmDigest (h : Nat)
  | ctlDisc (p : Nat)
  | siteMap (cd s : Nat)
  | siteCore (cd c : Nat)
  | siteFence (cd : Nat)
  | rasStatus (die : Nat)
  | rasErr (die : Nat)
  | rasPoison (die : Nat)
  | rasInjCtrl (die : Nat)
  | rasInjArg (die : Nat)
  | rasStLast (die : Nat)
  | rasCfg
  | rasDrainTmo0
  | rasDrainTmo1
  | ctlEvWr
  | ctlEvRd (r : Nat)
  | ctlEvData (r w : Nat)
  | secStatus
  | secFpr (h : Nat)
  | secCmdSeq
  | secQcStat
  | secDbg
  | secDbgNonce
  | gfwCfg
  | gfwStatus
  | gfwRuleLo (n : Nat)
  | gfwRuleHi (n : Nat)
  | cxlStatus
  | cxlWin
  | cxlCfg
  | cxlPullBase
  | cxlPullIdx
  | cxlStat
  | mgmtAddr (h : Nat)
  | mgmtStatus
  | mgmtCount
  | mgmtAuthSeq (a : Nat)
  | pwrMode
  | pwrLimit
  | pwrBallast
  | pwrThermCfg
  | pwrThermStat
  | pwrSpread
  | pwrTelem
  | pwrAvs (d : Nat)
  | idDie (die : Nat)
  | idSerial (die : Nat)
  | idScratch (die : Nat)
  | glbPart
  | glbSerial
  | glbResets
  | glbClocks
  | perfCtrl (die : Nat)
  | perfSel (die n : Nat)
  | perfCnt (die n : Nat)
  deriving DecidableEq, Repr

/-- A field of a register. -/
structure Fld where
  reg : Reg
  lo : Nat
  w : Nat
  deriving DecidableEq, Repr

/-- Base of die `d`'s 16 MiB register space (R367). -/
def dieBase (d : Nat) : Nat := 0x7F0000000000 + d * 0x1000000
def hubBase : Nat := 0x7F0000000000
def cdBase (cd : Nat) : Nat := dieBase (cd + 1)
def mdBase (md : Nat) : Nat := dieBase (md + 13)
def ldBase (ld : Nat) : Nat := dieBase (ld + 17)
def coreBase (cd s : Nat) : Nat := cdBase cd + 0x100000 + s * 0x10000
/-- Port p of the ten lies on LD0 (p < 5) or LD1. -/
def portBase (p : Nat) : Nat := ldBase (p / 5) + 0x10000 + (p % 5) * 0x10000
/-- PERF blocks: +0x05_0000 on compute dies, +0x04_0000 on memory dies, +0x0A_0000 on link dies. -/
def perfBase (die : Nat) : Nat :=
  dieBase die + (if die ≤ 12 then 0x50000 else if die ≤ 16 then 0x40000 else 0xA0000)
/-- RAS blocks: 0x0A_0000 in the hub, +0x06_0000 on compute dies. -/
def rasBase (die : Nat) : Nat := dieBase die + (if die = 0 then 0xA0000 else 0x60000)

/-- The device address of a register. -/
def Reg.addr : Reg → Nat
  | .mtcNow => hubBase + 0x10000 + 0x0
  | .mtcNowFrac => hubBase + 0x10000 + 0x8
  | .mtcStatus => hubBase + 0x10000 + 0x10
  | .mtcCtrl => hubBase + 0x10000 + 0x18
  | .mtcRate => hubBase + 0x10000 + 0x20
  | .mtcLoop => hubBase + 0x10000 + 0x28
  | .mtcSkewLimit => hubBase + 0x10000 + 0x30
  | .mtcAnchorTol => hubBase + 0x10000 + 0x38
  | .mtcAnchorStat => hubBase + 0x10000 + 0x40
  | .mtcRootTrim => hubBase + 0x10000 + 0x48
  | .mtcPpsStat => hubBase + 0x10000 + 0x50
  | .mtcEpoch => hubBase + 0x10000 + 0x58
  | .mtcPortStat p => hubBase + 0x10000 + 0x80 + p * 8
  | .mtcPortCal p => hubBase + 0x10000 + 0x100 + p * 8
  | .mtcSchedTime n => hubBase + 0x10000 + 0x200 + n * 16
  | .mtcSchedAct n => hubBase + 0x10000 + 0x208 + n * 16
  | .matId cd s => coreBase cd s + 0x4000
  | .matStatus cd s => coreBase cd s + 0x4008
  | .matFlags cd s => coreBase cd s + 0x4010
  | .matOps cd s => coreBase cd s + 0x4018
  | .matMacs cd s => coreBase cd s + 0x4020
  | .vecId cd s => coreBase cd s + 0x5000
  | .vecStatus cd s => coreBase cd s + 0x5008
  | .vecFlags cd s => coreBase cd s + 0x5010
  | .vecOps cd s => coreBase cd s + 0x5018
  | .vecNanLanes cd s h => coreBase cd s + 0x5020 + h * 8
  | .numCtrl => hubBase + 0x50000 + 0x0
  | .numSeed h => hubBase + 0x50000 + 0x8 + h * 8
  | .numStep => hubBase + 0x50000 + 0x18
  | .numTableStat => hubBase + 0x50000 + 0x20
  | .numMonitorCfg => hubBase + 0x50000 + 0x28
  | .numRescales => hubBase + 0x50000 + 0x30
  | .numGnorm => hubBase + 0x50000 + 0x38
  | .numEntrySel => hubBase + 0x50000 + 0x40
  | .numEntryHdr => hubBase + 0x50000 + 0x48
  | .numEntryCnt => hubBase + 0x50000 + 0x50
  | .numEntryCfg => hubBase + 0x50000 + 0x58
  | .convFlags cd s => coreBase cd s + 0x6000
  | .convCount cd s => coreBase cd s + 0x6008
  | .convVanish cd s => coreBase cd s + 0x6010
  | .seqId cd s => coreBase cd s + 0x0
  | .seqStatus cd s => coreBase cd s + 0x8
  | .seqFault cd s => coreBase cd s + 0x10
  | .seqCtx cd s c => coreBase cd s + 0x20 + c * 8
  | .seqIcache cd s => coreBase cd s + 0x30
  | .seqPerfCtrl cd s => coreBase cd s + 0x38
  | .seqVote cd s => coreBase cd s + 0x40
  | .seqIssued cd s => coreBase cd s + 0x48
  | .seqStall cd s e c => coreBase cd s + 0x1000 + e * 128 + c * 8
  | .nocStatus cd => cdBase cd + 0x20000 + 0x0
  | .nocCollision cd => cdBase cd + 0x20000 + 0x8
  | .xbarStatus => hubBase + 0x20000 + 0x0
  | .xbarCollision => hubBase + 0x20000 + 0x8
  | .stageStatus => hubBase + 0x30000 + 0x0
  | .stageGenSel => hubBase + 0x30000 + 0x8
  | .stageGen => hubBase + 0x30000 + 0x10
  | .stageStale => hubBase + 0x30000 + 0x18
  | .gathSlotQuota cd => cdBase cd + 0x30000 + 0x0
  | .gathCtrl cd => cdBase cd + 0x30000 + 0x8
  | .gathStatus cd e => cdBase cd + 0x30000 + 0x40 + e * 8
  | .gathCount cd e => cdBase cd + 0x30000 + 0x80 + e * 8
  | .gathStall cd e c => cdBase cd + 0x30000 + 0x1000 + e * 128 + c * 8
  | .ncacheCtrl cd => cdBase cd + 0x40000 + 0x0
  | .ncacheHits cd => cdBase cd + 0x40000 + 0x8
  | .ncacheMisses cd => cdBase cd + 0x40000 + 0x10
  | .chanRefresh md => mdBase md + 0x10000 + 0x0
  | .chanMigrate md => mdBase md + 0x10000 + 0x8
  | .chanStat md => mdBase md + 0x10000 + 0x10
  | .chanMap md j => mdBase md + 0x10000 + (if j < 24 then 0x40 + j * 8 else 0x240 + (j - 24) * 8)
  | .chanStatus md i => mdBase md + 0x10000 + 0x100 + i * 8
  | .eccCount md i => mdBase md + 0x20000 + 0x0 + i * 8
  | .eccRmw md => mdBase md + 0x20000 + 0x200
  | .trainStatus md i => mdBase md + 0x30000 + 0x0 + i * 8
  | .portState p => portBase p + 0x0
  | .portCtrl p => portBase p + 0x8
  | .portPlan p => portBase p + 0x10
  | .portCfg p => portBase p + 0x18
  | .portLat p => portBase p + 0x20
  | .portErr p => portBase p + 0x28
  | .portVcBuf p v => portBase p + 0x40 + v * 8
  | .portCredit p v => portBase p + 0x80 + v * 8
  | .portReplay p => portBase p + 0xc0
  | .portOutage p => portBase p + 0xc8
  | .portCal p => portBase p + 0xd0
  | .portLane p l => portBase p + 0x100 + l * 8
  | .routeCfg ld => ldBase ld + 0x80000 + 0x0
  | .routeEpoch ld => ldBase ld + 0x80000 + 0x8
  | .routePortMap ld => ldBase ld + 0x80000 + 0x10
  | .routeStat ld => ldBase ld + 0x80000 + 0x18
  | .routeDrain ld i => ldBase ld + 0x80000 + 0x40 + i * 8
  | .routeNext ld b x t => ldBase ld + 0x80000 + 0x1000 + b * 1024 + x * 256 + t * 8
  | .routeExc ld b e => ldBase ld + 0x80000 + 0x2000 + b * 2048 + e * 8
  | .hwCfg ld => ldBase ld + 0x90000 + 0x0
  | .hwCfg2 ld => ldBase ld + 0x90000 + 0x8
  | .hwRate ld c j => ldBase ld + 0x90000 + 0x40 + c * 16 + j * 8
  | .hwStat ld => ldBase ld + 0x90000 + 0x80
  | .collAxisRole => hubBase + 0x40000 + 0x0
  | .collCfg => hubBase + 0x40000 + 0x8
  | .collJournal => hubBase + 0x40000 + 0x10
  | .collStatus => hubBase + 0x40000 + 0x18
  | .collVote => hubBase + 0x40000 + 0x20
  | .collVoteOwn => hubBase + 0x40000 + 0x28
  | .collFallback => hubBase + 0x40000 + 0x30
  | .collFail => hubBase + 0x40000 + 0x38
  | .collChan c => hubBase + 0x40000 + 0x100 + c * 8
  | .ctlState => hubBase + 0xc0000 + 0x0
  | .ctlStateTime => hubBase + 0xc0000 + 0x8
  | .ctlBoot => hubBase + 0xc0000 + 0x10
  | .ctlPlanIndex => hubBase + 0xc0000 + 0x18
  | .ctlArm => hubBase + 0xc0000 + 0x20
  | .ctlArmStart => hubBase + 0xc0000 + 0x28
  | .ctlArmDigest h => hubBase + 0xc0000 + 0x30 + h * 8
  | .ctlDisc p => hubBase + 0xc0000 + 0x80 + p * 8
  | .siteMap cd s => cdBase cd + 0x10000 + 0x0 + s * 8
  | .siteCore cd c => cdBase cd + 0x10000 + 0x200 + c * 8
  | .siteFence cd => cdBase cd + 0x10000 + 0x400
  | .rasStatus die => rasBase die + 0x0
  | .rasErr die => rasBase die + 0x8
  | .rasPoison die => rasBase die + 0x10
  | .rasInjCtrl die => rasBase die + 0x18
  | .rasInjArg die => rasBase die + 0x20
  | .rasStLast die => rasBase die + 0x28
  | .rasCfg => hubBase + 0xa0000 + 0x30
  | .rasDrainTmo0 => hubBase + 0xa0000 + 0x38
  | .rasDrainTmo1 => hubBase + 0xa0000 + 0x40
  | .ctlEvWr => hubBase + 0xc0000 + 0xd0
  | .ctlEvRd r => hubBase + 0xc0000 + 0xd8 + r * 8
  | .ctlEvData r w => hubBase + 0xc0000 + 0x100 + r * 32 + w * 8
  | .secStatus => hubBase + 0x80000 + 0x0
  | .secFpr h => hubBase + 0x80000 + 0x8 + h * 8
  | .secCmdSeq => hubBase + 0x80000 + 0x28
  | .secQcStat => hubBase + 0x80000 + 0x30
  | .secDbg => hubBase + 0x80000 + 0x38
  | .secDbgNonce => hubBase + 0x80000 + 0x40
  | .gfwCfg => hubBase + 0xb0000 + 0x0
  | .gfwStatus => hubBase + 0xb0000 + 0x8
  | .gfwRuleLo n => hubBase + 0xb0000 + 0x100 + n * 16
  | .gfwRuleHi n => hubBase + 0xb0000 + 0x108 + n * 16
  | .cxlStatus => hubBase + 0x60000 + 0x0
  | .cxlWin => hubBase + 0x60000 + 0x8
  | .cxlCfg => hubBase + 0x60000 + 0x10
  | .cxlPullBase => hubBase + 0x60000 + 0x18
  | .cxlPullIdx => hubBase + 0x60000 + 0x20
  | .cxlStat => hubBase + 0x60000 + 0x28
  | .mgmtAddr h => hubBase + 0x70000 + 0x0 + h * 8
  | .mgmtStatus => hubBase + 0x70000 + 0x10
  | .mgmtCount => hubBase + 0x70000 + 0x18
  | .mgmtAuthSeq a => hubBase + 0x70000 + 0x100 + a * 8
  | .pwrMode => hubBase + 0x90000 + 0x0
  | .pwrLimit => hubBase + 0x90000 + 0x8
  | .pwrBallast => hubBase + 0x90000 + 0x10
  | .pwrThermCfg => hubBase + 0x90000 + 0x18
  | .pwrThermStat => hubBase + 0x90000 + 0x20
  | .pwrSpread => hubBase + 0x90000 + 0x28
  | .pwrTelem => hubBase + 0x90000 + 0x30
  | .pwrAvs d => hubBase + 0x90000 + 0x100 + d * 8
  | .idDie die => dieBase die + 0x0
  | .idSerial die => dieBase die + 0x8
  | .idScratch die => dieBase die + 0x10
  | .glbPart => hubBase + 0x0 + 0x100
  | .glbSerial => hubBase + 0x0 + 0x108
  | .glbResets => hubBase + 0x0 + 0x110
  | .glbClocks => hubBase + 0x0 + 0x118
  | .perfCtrl die => perfBase die + 0x0
  | .perfSel die n => perfBase die + 0x40 + n * 8
  | .perfCnt die n => perfBase die + 0x80 + n * 8

/-- The fields of a register that are not reserved, from its table. Reset values that the tables give "per part",
"per die" and so on are 0 here and come from `Reg.reset`. -/
def Reg.fields : Reg → List FieldSpec
  | .mtcNow => [⟨0, 64, .ro, .c, 0⟩]
  | .mtcNowFrac => [⟨0, 16, .ro, .c, 0⟩]
  | .mtcStatus => [⟨0, 1, .ro, .c, 0⟩, ⟨1, 1, .ro, .c, 0⟩, ⟨2, 1, .ro, .c, 0⟩, ⟨3, 1, .ro, .c, 0⟩, ⟨4, 1, .ro, .c, 0⟩, ⟨5, 6, .ro, .c, 63⟩, ⟨32, 32, .ro, .c, 0⟩]
  | .mtcCtrl => [⟨0, 1, .rwq, .p, 0⟩, ⟨1, 1, .rwl, .w, 0⟩, ⟨2, 2, .rwq, .p, 0⟩]
  | .mtcRate => [⟨0, 32, .ro, .c, 0⟩]
  | .mtcLoop => [⟨0, 4, .rwl, .w, 3⟩, ⟨8, 4, .rwl, .w, 7⟩]
  | .mtcSkewLimit => [⟨0, 16, .rwl, .w, 4000⟩, ⟨16, 32, .rwl, .w, 1000⟩]
  | .mtcAnchorTol => [⟨0, 32, .rwl, .w, 2000⟩]
  | .mtcAnchorStat => [⟨0, 32, .w1c, .w, 0⟩, ⟨32, 32, .w1c, .w, 0⟩]
  | .mtcRootTrim => [⟨0, 32, .rwl, .c, 0⟩]
  | .mtcPpsStat => [⟨0, 32, .ro, .c, 0⟩, ⟨32, 32, .ro, .c, 0⟩]
  | .mtcEpoch => [⟨0, 64, .rwq, .p, 0⟩]
  | .mtcPortStat _ => [⟨0, 32, .ro, .w, 0⟩, ⟨32, 1, .ro, .w, 0⟩, ⟨33, 3, .ro, .w, 0⟩, ⟨36, 6, .ro, .w, 63⟩, ⟨48, 16, .w1c, .w, 0⟩]
  | .mtcPortCal _ => [⟨0, 16, .rwl, .p, 0⟩]
  | .mtcSchedTime _ => [⟨0, 64, .rw, .w, 0⟩]
  | .mtcSchedAct _ => [⟨0, 8, .rw, .w, 0⟩, ⟨8, 1, .rw, .w, 0⟩, ⟨32, 32, .rw, .w, 0⟩]
  | .matId _ _ => [⟨0, 1, .ro, .f, 0⟩, ⟨1, 3, .ro, .f, 0⟩, ⟨8, 8, .ro, .f, 64⟩, ⟨16, 8, .ro, .f, 64⟩, ⟨24, 2, .ro, .f, 2⟩]
  | .matStatus _ _ => [⟨0, 1, .ro, .w, 0⟩, ⟨1, 2, .ro, .w, 0⟩, ⟨3, 3, .ro, .w, 0⟩, ⟨6, 1, .ro, .w, 0⟩, ⟨7, 1, .ro, .w, 0⟩, ⟨8, 1, .ro, .w, 0⟩, ⟨9, 1, .ro, .w, 0⟩]
  | .matFlags _ _ => [⟨0, 1, .w1c, .w, 0⟩, ⟨1, 1, .w1c, .w, 0⟩, ⟨2, 1, .w1c, .w, 0⟩, ⟨3, 1, .w1c, .w, 0⟩]
  | .matOps _ _ => [⟨0, 48, .ro, .w, 0⟩, ⟨48, 16, .ro, .w, 0⟩]
  | .matMacs _ _ => [⟨0, 64, .ro, .w, 0⟩]
  | .vecId _ _ => [⟨0, 8, .ro, .f, 0⟩, ⟨8, 6, .ro, .f, 32⟩, ⟨14, 4, .ro, .f, 8⟩, ⟨18, 4, .ro, .f, 4⟩, ⟨22, 4, .ro, .f, 0⟩]
  | .vecStatus _ _ => [⟨0, 1, .ro, .w, 0⟩, ⟨1, 8, .ro, .w, 0⟩, ⟨9, 1, .ro, .w, 0⟩]
  | .vecFlags _ _ => [⟨0, 1, .w1c, .w, 0⟩, ⟨1, 1, .w1c, .w, 0⟩, ⟨2, 1, .w1c, .w, 0⟩, ⟨3, 1, .w1c, .w, 0⟩, ⟨4, 1, .w1c, .w, 0⟩, ⟨5, 1, .w1c, .w, 0⟩]
  | .vecOps _ _ => [⟨0, 48, .ro, .w, 0⟩, ⟨48, 16, .ro, .w, 0⟩]
  | .vecNanLanes _ _ _ => [⟨0, 64, .w1c, .w, 0⟩]
  | .numCtrl => [⟨0, 1, .rwl, .w, 0⟩, ⟨1, 1, .rwl, .w, 0⟩, ⟨2, 1, .rwl, .w, 0⟩, ⟨3, 1, .rwl, .w, 0⟩]
  | .numSeed _ => [⟨0, 64, .rwl, .w, 0⟩]
  | .numStep => [⟨0, 32, .ro, .w, 0⟩, ⟨32, 8, .ro, .w, 0⟩]
  | .numTableStat => [⟨0, 1, .ro, .w, 0⟩, ⟨1, 1, .ro, .w, 0⟩, ⟨2, 15, .ro, .w, 0⟩, ⟨32, 32, .w1c, .w, 0⟩]
  | .numMonitorCfg => [⟨0, 16, .rwl, .w, 64⟩, ⟨16, 16, .rwl, .w, 4096⟩, ⟨32, 32, .rwl, .w, 4096⟩]
  | .numRescales => [⟨0, 48, .ro, .w, 0⟩]
  | .numGnorm => [⟨0, 64, .ro, .w, 0⟩]
  | .numEntrySel => [⟨0, 14, .rw, .w, 0⟩, ⟨14, 1, .rw, .w, 0⟩]
  | .numEntryHdr => [⟨0, 64, .ro, .w, 0⟩]
  | .numEntryCnt => [⟨0, 64, .ro, .w, 0⟩]
  | .numEntryCfg => [⟨0, 4, .rwl, .w, 0⟩, ⟨4, 1, .rwl, .w, 0⟩, ⟨5, 1, .rwl, .w, 0⟩, ⟨6, 6, .rwl, .w, 15⟩, ⟨12, 4, .rwl, .w, 0⟩, ⟨16, 1, .rwl, .w, 0⟩, ⟨17, 10, .rwl, .w, 0⟩]
  | .convFlags _ _ => [⟨0, 1, .w1c, .w, 0⟩, ⟨1, 1, .w1c, .w, 0⟩, ⟨2, 1, .w1c, .w, 0⟩]
  | .convCount _ _ => [⟨0, 48, .ro, .w, 0⟩, ⟨48, 16, .ro, .w, 0⟩]
  | .convVanish _ _ => [⟨0, 48, .ro, .w, 0⟩]
  | .seqId _ _ => [⟨0, 1, .ro, .f, 0⟩, ⟨8, 8, .ro, .f, 64⟩, ⟨16, 4, .ro, .f, 2⟩, ⟨20, 4, .ro, .f, 4⟩, ⟨24, 4, .ro, .f, 4⟩, ⟨28, 8, .ro, .f, 1⟩]
  | .seqStatus _ _ => [⟨0, 3, .ro, .w, 0⟩, ⟨3, 1, .ro, .w, 0⟩, ⟨4, 32, .ro, .w, 0⟩, ⟨36, 11, .ro, .w, 0⟩]
  | .seqFault _ _ => [⟨0, 1, .w1c, .w, 0⟩, ⟨1, 8, .ro, .w, 0⟩, ⟨9, 11, .ro, .w, 0⟩, ⟨20, 32, .ro, .w, 0⟩]
  | .seqCtx _ _ _ => [⟨0, 3, .ro, .w, 0⟩, ⟨3, 1, .ro, .w, 0⟩, ⟨4, 1, .ro, .w, 0⟩]
  | .seqIcache _ _ => [⟨0, 1, .ro, .w, 0⟩, ⟨1, 1, .ro, .w, 0⟩, ⟨2, 1, .ro, .w, 0⟩, ⟨3, 16, .ro, .w, 0⟩, ⟨19, 16, .ro, .w, 0⟩]
  | .seqPerfCtrl _ _ => [⟨0, 1, .w1s, .w, 0⟩, ⟨1, 1, .rw, .w, 0⟩]
  | .seqVote _ _ => [⟨0, 2, .ro, .w, 0⟩, ⟨2, 8, .ro, .w, 0⟩, ⟨10, 1, .ro, .w, 0⟩]
  | .seqIssued _ _ => [⟨0, 48, .ro, .w, 0⟩]
  | .seqStall _ _ _ _ => [⟨0, 48, .ro, .w, 0⟩]
  | .nocStatus _ => [⟨0, 1, .ro, .w, 0⟩, ⟨32, 32, .ro, .w, 0⟩]
  | .nocCollision _ => [⟨0, 1, .w1c, .w, 0⟩, ⟨1, 6, .ro, .w, 0⟩, ⟨7, 1, .ro, .w, 0⟩, ⟨8, 5, .ro, .w, 0⟩, ⟨13, 17, .ro, .w, 0⟩, ⟨30, 32, .ro, .w, 0⟩]
  | .xbarStatus => [⟨0, 1, .ro, .w, 0⟩, ⟨1, 1, .ro, .w, 1⟩, ⟨2, 3, .ro, .w, 0⟩, ⟨32, 32, .ro, .w, 0⟩]
  | .xbarCollision => [⟨0, 1, .w1c, .w, 0⟩, ⟨1, 5, .ro, .w, 0⟩, ⟨6, 7, .ro, .w, 0⟩, ⟨13, 1, .ro, .w, 0⟩, ⟨14, 17, .ro, .w, 0⟩, ⟨31, 32, .ro, .w, 0⟩]
  | .stageStatus => [⟨0, 32, .ro, .w, 0⟩]
  | .stageGenSel => [⟨0, 20, .rw, .w, 0⟩, ⟨20, 1, .rw, .w, 0⟩]
  | .stageGen => [⟨0, 16, .ro, .w, 0⟩, ⟨16, 8, .ro, .w, 0⟩]
  | .stageStale => [⟨0, 48, .ro, .w, 0⟩]
  | .gathSlotQuota _ => [⟨0, 9, .rwl, .w, 16⟩]
  | .gathCtrl _ => [⟨0, 16, .rwl, .w, 100⟩]
  | .gathStatus _ _ => [⟨0, 1, .ro, .w, 0⟩, ⟨1, 4, .ro, .w, 0⟩, ⟨5, 9, .ro, .w, 0⟩, ⟨14, 4, .ro, .w, 0⟩]
  | .gathCount _ _ => [⟨0, 48, .ro, .w, 0⟩, ⟨48, 16, .ro, .w, 0⟩]
  | .gathStall _ _ _ => [⟨0, 48, .ro, .w, 0⟩]
  | .ncacheCtrl _ => [⟨0, 1, .rwl, .w, 1⟩, ⟨1, 1, .w1s, .w, 0⟩]
  | .ncacheHits _ => [⟨0, 48, .ro, .w, 0⟩]
  | .ncacheMisses _ => [⟨0, 48, .ro, .w, 0⟩]
  | .chanRefresh _ => [⟨0, 16, .ro, .f, 1952⟩, ⟨16, 16, .ro, .f, 0⟩, ⟨32, 16, .ro, .f, 122⟩]
  | .chanMigrate _ => [⟨0, 5, .rw, .w, 0⟩, ⟨5, 6, .rw, .w, 0⟩, ⟨11, 1, .w1s, .w, 0⟩, ⟨12, 1, .ro, .w, 0⟩, ⟨32, 32, .ro, .w, 0⟩]
  | .chanStat _ => [⟨0, 32, .ro, .w, 0⟩, ⟨32, 32, .ro, .w, 0⟩]
  | .chanMap _ _ => [⟨0, 6, .ro, .c, 0⟩]
  | .chanStatus _ _ => [⟨0, 3, .ro, .c, 0⟩, ⟨3, 5, .ro, .c, 0⟩, ⟨8, 1, .ro, .c, 0⟩, ⟨32, 32, .ro, .w, 0⟩]
  | .eccCount _ _ => [⟨0, 32, .w1c, .w, 0⟩, ⟨32, 32, .w1c, .w, 0⟩]
  | .eccRmw _ => [⟨0, 48, .ro, .w, 0⟩]
  | .trainStatus _ _ => [⟨0, 1, .ro, .c, 0⟩, ⟨1, 1, .ro, .c, 0⟩, ⟨8, 16, .ro, .c, 0⟩]
  | .portState _ => [⟨0, 3, .ro, .w, 0⟩, ⟨3, 6, .ro, .w, 0⟩, ⟨9, 4, .ro, .w, 0⟩, ⟨13, 20, .ro, .w, 0⟩, ⟨33, 4, .ro, .w, 0⟩, ⟨37, 4, .ro, .w, 0⟩]
  | .portCtrl _ => [⟨0, 1, .rwl, .w, 0⟩, ⟨1, 1, .w1s, .w, 0⟩]
  | .portPlan _ => [⟨0, 2, .rwq, .p, 0⟩, ⟨2, 4, .rwq, .p, 0⟩]
  | .portCfg _ => [⟨0, 32, .rwl, .w, 4096⟩, ⟨32, 16, .rwl, .w, 20⟩]
  | .portLat _ => [⟨0, 16, .ro, .w, 35⟩, ⟨16, 16, .ro, .w, 95⟩, ⟨32, 32, .ro, .w, 0⟩]
  | .portErr _ => [⟨0, 32, .w1c, .w, 0⟩, ⟨32, 32, .w1c, .w, 0⟩]
  | .portVcBuf _ _ => [⟨0, 16, .rwl, .w, 6144⟩, ⟨16, 1, .rwl, .w, 1⟩]
  | .portCredit _ _ => [⟨0, 16, .ro, .w, 0⟩, ⟨16, 48, .ro, .w, 0⟩]
  | .portReplay _ => [⟨0, 32, .ro, .w, 0⟩, ⟨32, 32, .ro, .w, 0⟩]
  | .portOutage _ => [⟨0, 16, .ro, .w, 0⟩, ⟨16, 24, .ro, .w, 0⟩, ⟨40, 24, .w1c, .w, 0⟩]
  | .portCal _ => [⟨0, 16, .ro, .w, 0⟩, ⟨16, 10, .ro, .w, 0⟩]
  | .portLane _ _ => [⟨0, 2, .ro, .w, 0⟩, ⟨2, 6, .ro, .w, 0⟩, ⟨8, 1, .ro, .w, 0⟩, ⟨32, 32, .w1c, .w, 0⟩]
  | .routeCfg _ => [⟨0, 20, .rwq, .p, 0⟩, ⟨20, 8, .rwq, .p, 228⟩, ⟨28, 24, .rwq, .p, 0⟩]
  | .routeEpoch _ => [⟨0, 1, .ro, .w, 0⟩, ⟨1, 1, .w1s, .w, 0⟩, ⟨2, 1, .ro, .w, 1⟩, ⟨16, 32, .ro, .w, 0⟩]
  | .routePortMap _ => [⟨0, 40, .rwl, .w, 654820258320⟩]
  | .routeStat _ => [⟨0, 32, .ro, .w, 0⟩, ⟨32, 32, .ro, .w, 0⟩]
  | .routeDrain _ _ => [⟨0, 8, .ro, .w, 0⟩, ⟨32, 32, .ro, .w, 0⟩]
  | .routeNext _ _ _ _ => [⟨0, 2, .rw, .w, 0⟩]
  | .routeExc _ _ _ => [⟨0, 20, .rw, .w, 0⟩, ⟨20, 20, .rw, .w, 0⟩, ⟨40, 4, .rw, .w, 0⟩, ⟨44, 4, .rw, .w, 0⟩, ⟨48, 2, .rw, .w, 0⟩, ⟨50, 1, .rw, .w, 0⟩]
  | .hwCfg _ => [⟨0, 16, .rwl, .w, 2000⟩, ⟨16, 16, .rwl, .w, 1000⟩, ⟨32, 16, .rwl, .w, 4000⟩, ⟨48, 16, .rwl, .w, 2000⟩]
  | .hwCfg2 _ => [⟨0, 7, .rwl, .w, 1⟩, ⟨7, 6, .rwl, .w, 1⟩, ⟨13, 15, .rwl, .w, 512⟩]
  | .hwRate _ _ _ => [⟨0, 7, .ro, .w, 64⟩, ⟨32, 32, .ro, .w, 0⟩]
  | .hwStat _ => [⟨0, 32, .ro, .w, 0⟩, ⟨32, 32, .ro, .w, 0⟩]
  | .collAxisRole => [⟨0, 12, .rwq, .p, 0⟩]
  | .collCfg => [⟨0, 8, .rwl, .w, 4⟩]
  | .collJournal => [⟨0, 48, .rwl, .c, 0⟩]
  | .collStatus => [⟨0, 3, .ro, .w, 0⟩, ⟨3, 1, .ro, .w, 0⟩, ⟨4, 2, .ro, .w, 0⟩, ⟨6, 1, .ro, .w, 0⟩, ⟨7, 4, .ro, .w, 0⟩]
  | .collVote => [⟨0, 64, .ro, .w, 0⟩]
  | .collVoteOwn => [⟨0, 64, .ro, .w, 0⟩]
  | .collFallback => [⟨0, 32, .ro, .w, 0⟩]
  | .collFail => [⟨0, 32, .ro, .w, 0⟩, ⟨32, 32, .ro, .w, 0⟩]
  | .collChan _ => [⟨0, 6, .ro, .w, 0⟩, ⟨6, 1, .ro, .w, 0⟩, ⟨7, 1, .ro, .w, 0⟩, ⟨8, 1, .ro, .w, 0⟩, ⟨9, 3, .ro, .w, 0⟩, ⟨16, 48, .ro, .w, 0⟩]
  | .ctlState => [⟨0, 4, .ro, .w, 1⟩, ⟨4, 1, .ro, .c, 0⟩, ⟨5, 1, .ro, .c, 0⟩, ⟨6, 1, .ro, .c, 0⟩, ⟨7, 1, .ro, .c, 0⟩, ⟨8, 1, .ro, .c, 0⟩, ⟨9, 1, .ro, .c, 0⟩, ⟨10, 1, .ro, .c, 0⟩, ⟨11, 1, .ro, .w, 0⟩]
  | .ctlStateTime => [⟨0, 64, .ro, .w, 0⟩]
  | .ctlBoot => [⟨0, 8, .ro, .w, 0⟩, ⟨8, 8, .ro, .w, 0⟩, ⟨16, 16, .ro, .w, 0⟩, ⟨32, 32, .ro, .w, 0⟩]
  | .ctlPlanIndex => [⟨0, 17, .ro, .w, 0⟩]
  | .ctlArm => [⟨0, 4, .ro, .w, 0⟩, ⟨4, 8, .ro, .w, 0⟩, ⟨12, 32, .ro, .w, 0⟩]
  | .ctlArmStart => [⟨0, 64, .ro, .w, 0⟩]
  | .ctlArmDigest _ => [⟨0, 64, .ro, .w, 0⟩]
  | .ctlDisc _ => [⟨0, 4, .ro, .w, 0⟩, ⟨4, 1, .ro, .w, 0⟩, ⟨5, 4, .ro, .w, 0⟩, ⟨9, 20, .ro, .w, 0⟩, ⟨29, 4, .ro, .w, 0⟩, ⟨33, 4, .ro, .w, 0⟩, ⟨37, 4, .ro, .w, 0⟩, ⟨41, 7, .ro, .w, 0⟩]
  | .siteMap _ _ => [⟨0, 6, .ro, .c, 0⟩, ⟨6, 1, .ro, .c, 0⟩]
  | .siteCore _ _ => [⟨0, 2, .ro, .c, 0⟩, ⟨2, 1, .ro, .c, 0⟩, ⟨3, 6, .ro, .c, 0⟩, ⟨9, 8, .ro, .c, 0⟩, ⟨17, 8, .ro, .c, 0⟩]
  | .siteFence _ => [⟨0, 6, .ro, .c, 0⟩, ⟨6, 1, .ro, .c, 0⟩, ⟨7, 6, .ro, .c, 0⟩, ⟨13, 2, .ro, .c, 0⟩, ⟨15, 20, .ro, .c, 0⟩]
  | .rasStatus _ => [⟨0, 1, .ro, .w, 0⟩, ⟨1, 7, .ro, .w, 0⟩, ⟨8, 1, .ro, .w, 0⟩, ⟨32, 32, .ro, .w, 0⟩]
  | .rasErr _ => [⟨0, 32, .w1c, .w, 0⟩, ⟨32, 32, .w1c, .w, 0⟩]
  | .rasPoison _ => [⟨0, 48, .ro, .w, 0⟩]
  | .rasInjCtrl _ => [⟨0, 8, .rw, .w, 0⟩, ⟨8, 5, .rw, .w, 0⟩, ⟨13, 11, .rw, .w, 0⟩, ⟨24, 8, .rw, .w, 0⟩, ⟨32, 1, .w1s, .w, 0⟩, ⟨33, 1, .ro, .w, 0⟩, ⟨34, 8, .ro, .w, 0⟩]
  | .rasInjArg _ => [⟨0, 64, .rw, .w, 0⟩]
  | .rasStLast _ => [⟨0, 8, .ro, .w, 0⟩, ⟨8, 16, .ro, .w, 0⟩, ⟨24, 1, .ro, .w, 0⟩, ⟨25, 1, .ro, .w, 0⟩, ⟨32, 32, .ro, .w, 0⟩]
  | .rasCfg => [⟨0, 8, .rwl, .w, 8⟩, ⟨8, 16, .rwl, .w, 1440⟩, ⟨24, 1, .rwl, .w, 1⟩, ⟨32, 16, .rwl, .w, 100⟩]
  | .rasDrainTmo0 => [⟨0, 16, .rwl, .w, 50⟩, ⟨16, 16, .rwl, .w, 200⟩, ⟨32, 16, .rwl, .w, 100⟩, ⟨48, 16, .rwl, .w, 200⟩]
  | .rasDrainTmo1 => [⟨0, 16, .rwl, .w, 1000⟩, ⟨16, 16, .rwl, .w, 50000⟩]
  | .ctlEvWr => [⟨0, 32, .ro, .w, 0⟩]
  | .ctlEvRd _ => [⟨0, 32, .rw, .w, 0⟩, ⟨32, 32, .ro, .w, 0⟩]
  | .ctlEvData _ _ => [⟨0, 64, .ro, .w, 0⟩]
  | .secStatus => [⟨0, 1, .ro, .w, 0⟩, ⟨1, 1, .ro, .w, 0⟩, ⟨2, 1, .ro, .w, 0⟩, ⟨3, 2, .ro, .w, 0⟩, ⟨5, 1, .ro, .f, 0⟩, ⟨6, 1, .ro, .f, 0⟩, ⟨7, 6, .ro, .f, 0⟩, ⟨13, 9, .ro, .w, 0⟩]
  | .secFpr _ => [⟨0, 64, .ro, .w, 0⟩]
  | .secCmdSeq => [⟨0, 64, .ro, .c, 0⟩]
  | .secQcStat => [⟨0, 8, .ro, .w, 0⟩, ⟨8, 8, .ro, .w, 0⟩, ⟨16, 32, .ro, .w, 0⟩]
  | .secDbg => [⟨0, 2, .ro, .w, 0⟩, ⟨2, 1, .w1s, .w, 0⟩]
  | .secDbgNonce => [⟨0, 64, .ro, .w, 0⟩]
  | .gfwCfg => [⟨0, 16, .rwl, .w, 64⟩, ⟨16, 32, .rwl, .w, 1000⟩]
  | .gfwStatus => [⟨0, 1, .ro, .w, 0⟩, ⟨1, 1, .ro, .w, 0⟩, ⟨32, 32, .ro, .w, 0⟩]
  | .gfwRuleLo _ => [⟨0, 36, .rwl, .w, 0⟩, ⟨36, 1, .rwl, .w, 0⟩, ⟨37, 1, .rwl, .w, 0⟩, ⟨38, 1, .rwl, .w, 0⟩, ⟨39, 1, .rwl, .w, 0⟩]
  | .gfwRuleHi _ => [⟨0, 36, .rwl, .w, 0⟩, ⟨36, 16, .rwl, .w, 0⟩]
  | .cxlStatus => [⟨0, 1, .ro, .w, 0⟩, ⟨1, 2, .ro, .w, 0⟩, ⟨3, 4, .ro, .w, 0⟩, ⟨7, 1, .ro, .w, 0⟩]
  | .cxlWin => [⟨0, 13, .rwl, .w, 0⟩, ⟨16, 11, .rwl, .w, 0⟩]
  | .cxlCfg => [⟨0, 16, .rwl, .w, 1000⟩, ⟨16, 4, .rwl, .w, 3⟩, ⟨20, 16, .rwl, .w, 10⟩]
  | .cxlPullBase => [⟨0, 48, .rwl, .w, 0⟩]
  | .cxlPullIdx => [⟨0, 10, .rw, .w, 0⟩, ⟨10, 10, .ro, .w, 0⟩, ⟨20, 1, .w1c, .w, 0⟩]
  | .cxlStat => [⟨0, 32, .ro, .w, 0⟩, ⟨32, 32, .ro, .w, 0⟩]
  | .mgmtAddr _ => [⟨0, 64, .rwl, .w, 0⟩]
  | .mgmtStatus => [⟨0, 1, .ro, .w, 0⟩, ⟨1, 1, .ro, .w, 1⟩, ⟨2, 3, .ro, .w, 0⟩]
  | .mgmtCount => [⟨0, 24, .ro, .w, 0⟩, ⟨24, 24, .ro, .w, 0⟩, ⟨48, 16, .ro, .w, 0⟩]
  | .mgmtAuthSeq _ => [⟨0, 64, .ro, .c, 0⟩]
  | .pwrMode => [⟨0, 2, .ro, .w, 1⟩, ⟨2, 2, .rwl, .w, 1⟩, ⟨4, 2, .ro, .w, 3⟩]
  | .pwrLimit => [⟨0, 16, .rw, .w, 5000⟩, ⟨16, 16, .ro, .w, 3400⟩, ⟨32, 16, .ro, .c, 5000⟩]
  | .pwrBallast => [⟨0, 1, .rwl, .w, 1⟩, ⟨1, 4, .rwl, .w, 8⟩, ⟨5, 4, .ro, .w, 0⟩, ⟨32, 16, .ro, .w, 1000⟩]
  | .pwrThermCfg => [⟨0, 8, .rwl, .w, 95⟩, ⟨8, 8, .rwl, .w, 100⟩, ⟨16, 8, .ro, .f, 110⟩, ⟨24, 4, .rwl, .w, 3⟩]
  | .pwrThermStat => [⟨0, 2, .ro, .w, 0⟩, ⟨2, 16, .ro, .w, 0⟩, ⟨18, 5, .ro, .w, 0⟩, ⟨23, 1, .w1c, .c, 0⟩, ⟨24, 20, .ro, .w, 0⟩, ⟨44, 20, .ro, .w, 0⟩]
  | .pwrSpread => [⟨0, 1, .rwl, .w, 1⟩, ⟨1, 1, .rwl, .w, 1⟩, ⟨2, 1, .ro, .w, 0⟩, ⟨3, 1, .ro, .w, 0⟩]
  | .pwrTelem => [⟨0, 16, .ro, .w, 0⟩, ⟨16, 16, .ro, .w, 0⟩, ⟨32, 16, .ro, .w, 0⟩, ⟨48, 16, .ro, .w, 0⟩]
  | .pwrAvs _ => [⟨0, 12, .ro, .w, 0⟩, ⟨12, 12, .ro, .f, 0⟩, ⟨24, 1, .rwl, .w, 1⟩]
  | .idDie _ => [⟨0, 5, .ro, .f, 0⟩, ⟨8, 4, .ro, .f, 0⟩, ⟨16, 8, .ro, .f, 0⟩, ⟨32, 16, .ro, .f, 7981⟩, ⟨48, 16, .ro, .f, 0⟩]
  | .idSerial _ => [⟨0, 64, .ro, .f, 0⟩]
  | .idScratch _ => [⟨0, 64, .rw, .w, 0⟩]
  | .glbPart => [⟨0, 16, .ro, .f, 0⟩, ⟨16, 8, .ro, .f, 0⟩, ⟨24, 1, .ro, .f, 0⟩, ⟨32, 8, .ro, .f, 33⟩]
  | .glbSerial => [⟨0, 64, .ro, .f, 0⟩]
  | .glbResets => [⟨0, 32, .ro, .c, 0⟩, ⟨32, 4, .ro, .c, 0⟩]
  | .glbClocks => [⟨0, 16, .ro, .w, 0⟩, ⟨16, 16, .ro, .w, 0⟩]
  | .perfCtrl _ => [⟨0, 1, .w1s, .w, 0⟩, ⟨1, 1, .rw, .w, 0⟩]
  | .perfSel _ _ => [⟨0, 8, .rw, .w, 0⟩, ⟨8, 8, .rw, .w, 0⟩]
  | .perfCnt _ _ => [⟨0, 48, .ro, .w, 0⟩]

/-! MTC_NOW (02_machine_time.md) -/
def MTC_NOW.ns : Fld := ⟨.mtcNow, 0, 64⟩
/-! MTC_NOW_FRAC (02_machine_time.md) -/
def MTC_NOW_FRAC.frac : Fld := ⟨.mtcNowFrac, 0, 16⟩
/-! MTC_STATUS (02_machine_time.md) -/
def MTC_STATUS.locked : Fld := ⟨.mtcStatus, 0, 1⟩
def MTC_STATUS.holdover : Fld := ⟨.mtcStatus, 1, 1⟩
def MTC_STATUS.is_root : Fld := ⟨.mtcStatus, 2, 1⟩
def MTC_STATUS.pps_valid : Fld := ⟨.mtcStatus, 3, 1⟩
def MTC_STATUS.mto_sel : Fld := ⟨.mtcStatus, 4, 1⟩
def MTC_STATUS.hops : Fld := ⟨.mtcStatus, 5, 6⟩
def MTC_STATUS.step_count : Fld := ⟨.mtcStatus, 32, 32⟩
/-! MTC_CTRL (02_machine_time.md) -/
def MTC_CTRL.root_enable : Fld := ⟨.mtcCtrl, 0, 1⟩
def MTC_CTRL.pps_enable : Fld := ⟨.mtcCtrl, 1, 1⟩
def MTC_CTRL.backup_rank : Fld := ⟨.mtcCtrl, 2, 2⟩
/-! MTC_RATE (02_machine_time.md) -/
def MTC_RATE.adj : Fld := ⟨.mtcRate, 0, 32⟩
/-! MTC_LOOP (02_machine_time.md) -/
def MTC_LOOP.kp_shift : Fld := ⟨.mtcLoop, 0, 4⟩
def MTC_LOOP.ki_shift : Fld := ⟨.mtcLoop, 8, 4⟩
/-! MTC_SKEW_LIMIT (02_machine_time.md) -/
def MTC_SKEW_LIMIT.limit_ps : Fld := ⟨.mtcSkewLimit, 0, 16⟩
def MTC_SKEW_LIMIT.holdover_us : Fld := ⟨.mtcSkewLimit, 16, 32⟩
/-! MTC_ANCHOR_TOL (02_machine_time.md) -/
def MTC_ANCHOR_TOL.tol_ns : Fld := ⟨.mtcAnchorTol, 0, 32⟩
/-! MTC_ANCHOR_STAT (02_machine_time.md) -/
def MTC_ANCHOR_STAT.max_late_ns : Fld := ⟨.mtcAnchorStat, 0, 32⟩
def MTC_ANCHOR_STAT.overruns : Fld := ⟨.mtcAnchorStat, 32, 32⟩
/-! MTC_ROOT_TRIM (02_machine_time.md) -/
def MTC_ROOT_TRIM.trim : Fld := ⟨.mtcRootTrim, 0, 32⟩
/-! MTC_PPS_STAT (02_machine_time.md) -/
def MTC_PPS_STAT.last_error : Fld := ⟨.mtcPpsStat, 0, 32⟩
def MTC_PPS_STAT.edges : Fld := ⟨.mtcPpsStat, 32, 32⟩
/-! MTC_EPOCH (02_machine_time.md) -/
def MTC_EPOCH.tai_s : Fld := ⟨.mtcEpoch, 0, 64⟩
/-! MTC_PORT_STAT (02_machine_time.md) -/
def MTC_PORT_STAT.offset (p : Nat) : Fld := ⟨.mtcPortStat p, 0, 32⟩
def MTC_PORT_STAT.valid (p : Nat) : Fld := ⟨.mtcPortStat p, 32, 1⟩
def MTC_PORT_STAT.role (p : Nat) : Fld := ⟨.mtcPortStat p, 33, 3⟩
def MTC_PORT_STAT.hops (p : Nat) : Fld := ⟨.mtcPortStat p, 36, 6⟩
def MTC_PORT_STAT.discards (p : Nat) : Fld := ⟨.mtcPortStat p, 48, 16⟩
/-! MTC_PORT_CAL (02_machine_time.md) -/
def MTC_PORT_CAL.asym (p : Nat) : Fld := ⟨.mtcPortCal p, 0, 16⟩
/-! MTC_SCHED_TIME (02_machine_time.md) -/
def MTC_SCHED_TIME.instant (n : Nat) : Fld := ⟨.mtcSchedTime n, 0, 64⟩
/-! MTC_SCHED_ACT (02_machine_time.md) -/
def MTC_SCHED_ACT.action (n : Nat) : Fld := ⟨.mtcSchedAct n, 0, 8⟩
def MTC_SCHED_ACT.valid (n : Nat) : Fld := ⟨.mtcSchedAct n, 8, 1⟩
def MTC_SCHED_ACT.arg (n : Nat) : Fld := ⟨.mtcSchedAct n, 32, 32⟩
/-! MAT_ID (04_matrix_engines.md) -/
def MAT_ID.kind (cd s : Nat) : Fld := ⟨.matId cd s, 0, 1⟩
def MAT_ID.dataflows (cd s : Nat) : Fld := ⟨.matId cd s, 1, 3⟩
def MAT_ID.rows (cd s : Nat) : Fld := ⟨.matId cd s, 8, 8⟩
def MAT_ID.cols (cd s : Nat) : Fld := ⟨.matId cd s, 16, 8⟩
def MAT_ID.acc_sets (cd s : Nat) : Fld := ⟨.matId cd s, 24, 2⟩
/-! MAT_STATUS (04_matrix_engines.md) -/
def MAT_STATUS.busy (cd s : Nat) : Fld := ⟨.matStatus cd s, 0, 1⟩
def MAT_STATUS.dataflow (cd s : Nat) : Fld := ⟨.matStatus cd s, 1, 2⟩
def MAT_STATUS.class_ (cd s : Nat) : Fld := ⟨.matStatus cd s, 3, 3⟩
def MAT_STATUS.set0_draining (cd s : Nat) : Fld := ⟨.matStatus cd s, 6, 1⟩
def MAT_STATUS.set1_draining (cd s : Nat) : Fld := ⟨.matStatus cd s, 7, 1⟩
def MAT_STATUS.set0_held (cd s : Nat) : Fld := ⟨.matStatus cd s, 8, 1⟩
def MAT_STATUS.set1_held (cd s : Nat) : Fld := ⟨.matStatus cd s, 9, 1⟩
/-! MAT_FLAGS (04_matrix_engines.md) -/
def MAT_FLAGS.invalid (cd s : Nat) : Fld := ⟨.matFlags cd s, 0, 1⟩
def MAT_FLAGS.overflow (cd s : Nat) : Fld := ⟨.matFlags cd s, 1, 1⟩
def MAT_FLAGS.nonfinite_input (cd s : Nat) : Fld := ⟨.matFlags cd s, 2, 1⟩
def MAT_FLAGS.int_sat (cd s : Nat) : Fld := ⟨.matFlags cd s, 3, 1⟩
/-! MAT_OPS (04_matrix_engines.md) -/
def MAT_OPS.count (cd s : Nat) : Fld := ⟨.matOps cd s, 0, 48⟩
def MAT_OPS.aborted (cd s : Nat) : Fld := ⟨.matOps cd s, 48, 16⟩
/-! MAT_MACS (04_matrix_engines.md) -/
def MAT_MACS.count (cd s : Nat) : Fld := ⟨.matMacs cd s, 0, 64⟩
/-! VEC_ID (05_vector_engine.md) -/
def VEC_ID.lanes (cd s : Nat) : Fld := ⟨.vecId cd s, 0, 8⟩
def VEC_ID.vregs (cd s : Nat) : Fld := ⟨.vecId cd s, 8, 6⟩
def VEC_ID.masks (cd s : Nat) : Fld := ⟨.vecId cd s, 14, 4⟩
def VEC_ID.fp64_div (cd s : Nat) : Fld := ⟨.vecId cd s, 18, 4⟩
def VEC_ID.summary_lat (cd s : Nat) : Fld := ⟨.vecId cd s, 22, 4⟩
/-! VEC_STATUS (05_vector_engine.md) -/
def VEC_STATUS.busy (cd s : Nat) : Fld := ⟨.vecStatus cd s, 0, 1⟩
def VEC_STATUS.vl (cd s : Nat) : Fld := ⟨.vecStatus cd s, 1, 8⟩
def VEC_STATUS.ctx (cd s : Nat) : Fld := ⟨.vecStatus cd s, 9, 1⟩
/-! VEC_FLAGS (05_vector_engine.md) -/
def VEC_FLAGS.invalid (cd s : Nat) : Fld := ⟨.vecFlags cd s, 0, 1⟩
def VEC_FLAGS.overflow (cd s : Nat) : Fld := ⟨.vecFlags cd s, 1, 1⟩
def VEC_FLAGS.nonfinite_input (cd s : Nat) : Fld := ⟨.vecFlags cd s, 2, 1⟩
def VEC_FLAGS.div_zero (cd s : Nat) : Fld := ⟨.vecFlags cd s, 3, 1⟩
def VEC_FLAGS.int_sat (cd s : Nat) : Fld := ⟨.vecFlags cd s, 4, 1⟩
def VEC_FLAGS.empty_row (cd s : Nat) : Fld := ⟨.vecFlags cd s, 5, 1⟩
/-! VEC_OPS (05_vector_engine.md) -/
def VEC_OPS.count (cd s : Nat) : Fld := ⟨.vecOps cd s, 0, 48⟩
def VEC_OPS.aborted (cd s : Nat) : Fld := ⟨.vecOps cd s, 48, 16⟩
/-! VEC_NAN_LANES (05_vector_engine.md) -/
def VEC_NAN_LANES.lanes (cd s h : Nat) : Fld := ⟨.vecNanLanes cd s h, 0, 64⟩
/-! NUM_CTRL (06_training_numerics.md) -/
def NUM_CTRL.replay : Fld := ⟨.numCtrl, 0, 1⟩
def NUM_CTRL.mw_bf16 : Fld := ⟨.numCtrl, 1, 1⟩
def NUM_CTRL.hartoeg_norm : Fld := ⟨.numCtrl, 2, 1⟩
def NUM_CTRL.cold_scale : Fld := ⟨.numCtrl, 3, 1⟩
/-! NUM_SEED (06_training_numerics.md) -/
def NUM_SEED.seed (h : Nat) : Fld := ⟨.numSeed h, 0, 64⟩
/-! NUM_STEP (06_training_numerics.md) -/
def NUM_STEP.step : Fld := ⟨.numStep, 0, 32⟩
def NUM_STEP.attempt : Fld := ⟨.numStep, 32, 8⟩
/-! NUM_TABLE_STAT (06_training_numerics.md) -/
def NUM_TABLE_STAT.active_bank : Fld := ⟨.numTableStat, 0, 1⟩
def NUM_TABLE_STAT.rebuilding : Fld := ⟨.numTableStat, 1, 1⟩
def NUM_TABLE_STAT.done : Fld := ⟨.numTableStat, 2, 15⟩
def NUM_TABLE_STAT.partial_flips : Fld := ⟨.numTableStat, 32, 32⟩
/-! NUM_MONITOR_CFG (06_training_numerics.md) -/
def NUM_MONITOR_CFG.dead_threshold : Fld := ⟨.numMonitorCfg, 0, 16⟩
def NUM_MONITOR_CFG.vanish_frac : Fld := ⟨.numMonitorCfg, 16, 16⟩
def NUM_MONITOR_CFG.vanish_min : Fld := ⟨.numMonitorCfg, 32, 32⟩
/-! NUM_RESCALES (06_training_numerics.md) -/
def NUM_RESCALES.count : Fld := ⟨.numRescales, 0, 48⟩
/-! NUM_GNORM (06_training_numerics.md) -/
def NUM_GNORM.sumsq : Fld := ⟨.numGnorm, 0, 64⟩
/-! NUM_ENTRY_SEL (06_training_numerics.md) -/
def NUM_ENTRY_SEL.tensor_id : Fld := ⟨.numEntrySel, 0, 14⟩
def NUM_ENTRY_SEL.bank : Fld := ⟨.numEntrySel, 14, 1⟩
/-! NUM_ENTRY_HDR (06_training_numerics.md) -/
def NUM_ENTRY_HDR.hdr : Fld := ⟨.numEntryHdr, 0, 64⟩
/-! NUM_ENTRY_CNT (06_training_numerics.md) -/
def NUM_ENTRY_CNT.cnt : Fld := ⟨.numEntryCnt, 0, 64⟩
/-! NUM_ENTRY_CFG (06_training_numerics.md) -/
def NUM_ENTRY_CFG.fmt : Fld := ⟨.numEntryCfg, 0, 4⟩
def NUM_ENTRY_CFG.signed : Fld := ⟨.numEntryCfg, 4, 1⟩
def NUM_ENTRY_CFG.valid : Fld := ⟨.numEntryCfg, 5, 1⟩
def NUM_ENTRY_CFG.hist_len : Fld := ⟨.numEntryCfg, 6, 6⟩
def NUM_ENTRY_CFG.margin : Fld := ⟨.numEntryCfg, 12, 4⟩
def NUM_ENTRY_CFG.grad : Fld := ⟨.numEntryCfg, 16, 1⟩
def NUM_ENTRY_CFG.x : Fld := ⟨.numEntryCfg, 17, 10⟩
/-! CONV_FLAGS (06_training_numerics.md) -/
def CONV_FLAGS.invalid (cd s : Nat) : Fld := ⟨.convFlags cd s, 0, 1⟩
def CONV_FLAGS.overflow (cd s : Nat) : Fld := ⟨.convFlags cd s, 1, 1⟩
def CONV_FLAGS.nonfinite_input (cd s : Nat) : Fld := ⟨.convFlags cd s, 2, 1⟩
/-! CONV_COUNT (06_training_numerics.md) -/
def CONV_COUNT.tiles (cd s : Nat) : Fld := ⟨.convCount cd s, 0, 48⟩
def CONV_COUNT.rescales (cd s : Nat) : Fld := ⟨.convCount cd s, 48, 16⟩
/-! CONV_VANISH (06_training_numerics.md) -/
def CONV_VANISH.vanished (cd s : Nat) : Fld := ⟨.convVanish cd s, 0, 48⟩
/-! SEQ_ID (07_core_sequencer.md) -/
def SEQ_ID.kind (cd s : Nat) : Fld := ⟨.seqId cd s, 0, 1⟩
def SEQ_ID.icache_kib (cd s : Nat) : Fld := ⟨.seqId cd s, 8, 8⟩
def SEQ_ID.slots (cd s : Nat) : Fld := ⟨.seqId cd s, 16, 4⟩
def SEQ_ID.loop_depth (cd s : Nat) : Fld := ⟨.seqId cd s, 20, 4⟩
def SEQ_ID.branch_depth (cd s : Nat) : Fld := ⟨.seqId cd s, 24, 4⟩
def SEQ_ID.fmt_major (cd s : Nat) : Fld := ⟨.seqId cd s, 28, 8⟩
/-! SEQ_STATUS (07_core_sequencer.md) -/
def SEQ_STATUS.state (cd s : Nat) : Fld := ⟨.seqStatus cd s, 0, 3⟩
def SEQ_STATUS.ctx (cd s : Nat) : Fld := ⟨.seqStatus cd s, 3, 1⟩
def SEQ_STATUS.segment (cd s : Nat) : Fld := ⟨.seqStatus cd s, 4, 32⟩
def SEQ_STATUS.pc (cd s : Nat) : Fld := ⟨.seqStatus cd s, 36, 11⟩
/-! SEQ_FAULT (07_core_sequencer.md) -/
def SEQ_FAULT.valid (cd s : Nat) : Fld := ⟨.seqFault cd s, 0, 1⟩
def SEQ_FAULT.check (cd s : Nat) : Fld := ⟨.seqFault cd s, 1, 8⟩
def SEQ_FAULT.pc (cd s : Nat) : Fld := ⟨.seqFault cd s, 9, 11⟩
def SEQ_FAULT.segment (cd s : Nat) : Fld := ⟨.seqFault cd s, 20, 32⟩
/-! SEQ_CTX (07_core_sequencer.md) -/
def SEQ_CTX.logical (cd s c : Nat) : Fld := ⟨.seqCtx cd s c, 0, 3⟩
def SEQ_CTX.bound (cd s c : Nat) : Fld := ⟨.seqCtx cd s c, 3, 1⟩
def SEQ_CTX.swapping (cd s c : Nat) : Fld := ⟨.seqCtx cd s c, 4, 1⟩
/-! SEQ_ICACHE (07_core_sequencer.md) -/
def SEQ_ICACHE.exec_half (cd s : Nat) : Fld := ⟨.seqIcache cd s, 0, 1⟩
def SEQ_ICACHE.half0_valid (cd s : Nat) : Fld := ⟨.seqIcache cd s, 1, 1⟩
def SEQ_ICACHE.half1_valid (cd s : Nat) : Fld := ⟨.seqIcache cd s, 2, 1⟩
def SEQ_ICACHE.half0_block (cd s : Nat) : Fld := ⟨.seqIcache cd s, 3, 16⟩
def SEQ_ICACHE.half1_block (cd s : Nat) : Fld := ⟨.seqIcache cd s, 19, 16⟩
/-! SEQ_PERF_CTRL (07_core_sequencer.md) -/
def SEQ_PERF_CTRL.clear (cd s : Nat) : Fld := ⟨.seqPerfCtrl cd s, 0, 1⟩
def SEQ_PERF_CTRL.freeze (cd s : Nat) : Fld := ⟨.seqPerfCtrl cd s, 1, 1⟩
/-! SEQ_VOTE (07_core_sequencer.md) -/
def SEQ_VOTE.vote (cd s : Nat) : Fld := ⟨.seqVote cd s, 0, 2⟩
def SEQ_VOTE.cause (cd s : Nat) : Fld := ⟨.seqVote cd s, 2, 8⟩
def SEQ_VOTE.hw_fail (cd s : Nat) : Fld := ⟨.seqVote cd s, 10, 1⟩
/-! SEQ_ISSUED (07_core_sequencer.md) -/
def SEQ_ISSUED.count (cd s : Nat) : Fld := ⟨.seqIssued cd s, 0, 48⟩
/-! SEQ_STALL (07_core_sequencer.md) -/
def SEQ_STALL.count (cd s e c : Nat) : Fld := ⟨.seqStall cd s e c, 0, 48⟩
/-! NOC_STATUS (08_package_fabric_memory.md) -/
def NOC_STATUS.cal_valid (cd : Nat) : Fld := ⟨.nocStatus cd, 0, 1⟩
def NOC_STATUS.collisions (cd : Nat) : Fld := ⟨.nocStatus cd, 32, 32⟩
/-! NOC_COLLISION (08_package_fabric_memory.md) -/
def NOC_COLLISION.valid (cd : Nat) : Fld := ⟨.nocCollision cd, 0, 1⟩
def NOC_COLLISION.port (cd : Nat) : Fld := ⟨.nocCollision cd, 1, 6⟩
def NOC_COLLISION.dir (cd : Nat) : Fld := ⟨.nocCollision cd, 7, 1⟩
def NOC_COLLISION.lane (cd : Nat) : Fld := ⟨.nocCollision cd, 8, 5⟩
def NOC_COLLISION.cycle (cd : Nat) : Fld := ⟨.nocCollision cd, 13, 17⟩
def NOC_COLLISION.segment (cd : Nat) : Fld := ⟨.nocCollision cd, 30, 32⟩
/-! XBAR_STATUS (08_package_fabric_memory.md) -/
def XBAR_STATUS.cal_valid : Fld := ⟨.xbarStatus, 0, 1⟩
def XBAR_STATUS.idle : Fld := ⟨.xbarStatus, 1, 1⟩
def XBAR_STATUS.idle_class : Fld := ⟨.xbarStatus, 2, 3⟩
def XBAR_STATUS.collisions : Fld := ⟨.xbarStatus, 32, 32⟩
/-! XBAR_COLLISION (08_package_fabric_memory.md) -/
def XBAR_COLLISION.valid : Fld := ⟨.xbarCollision, 0, 1⟩
def XBAR_COLLISION.port : Fld := ⟨.xbarCollision, 1, 5⟩
def XBAR_COLLISION.lane : Fld := ⟨.xbarCollision, 6, 7⟩
def XBAR_COLLISION.dir : Fld := ⟨.xbarCollision, 13, 1⟩
def XBAR_COLLISION.cycle : Fld := ⟨.xbarCollision, 14, 17⟩
def XBAR_COLLISION.segment : Fld := ⟨.xbarCollision, 31, 32⟩
/-! STAGE_STATUS (08_package_fabric_memory.md) -/
def STAGE_STATUS.bank_collisions : Fld := ⟨.stageStatus, 0, 32⟩
/-! STAGE_GEN_SEL (08_package_fabric_memory.md) -/
def STAGE_GEN_SEL.region : Fld := ⟨.stageGenSel, 0, 20⟩
def STAGE_GEN_SEL.space : Fld := ⟨.stageGenSel, 20, 1⟩
/-! STAGE_GEN (08_package_fabric_memory.md) -/
def STAGE_GEN.gen : Fld := ⟨.stageGen, 0, 16⟩
def STAGE_GEN.in_flight : Fld := ⟨.stageGen, 16, 8⟩
/-! STAGE_STALE (08_package_fabric_memory.md) -/
def STAGE_STALE.stale : Fld := ⟨.stageStale, 0, 48⟩
/-! GATH_SLOT_QUOTA (08_package_fabric_memory.md) -/
def GATH_SLOT_QUOTA.slots (cd : Nat) : Fld := ⟨.gathSlotQuota cd, 0, 9⟩
/-! GATH_CTRL (08_package_fabric_memory.md) -/
def GATH_CTRL.remote_timeout_us (cd : Nat) : Fld := ⟨.gathCtrl cd, 0, 16⟩
/-! GATH_STATUS (08_package_fabric_memory.md) -/
def GATH_STATUS.busy (cd e : Nat) : Fld := ⟨.gathStatus cd e, 0, 1⟩
def GATH_STATUS.queued (cd e : Nat) : Fld := ⟨.gathStatus cd e, 1, 4⟩
def GATH_STATUS.slots_used (cd e : Nat) : Fld := ⟨.gathStatus cd e, 5, 9⟩
def GATH_STATUS.cause (cd e : Nat) : Fld := ⟨.gathStatus cd e, 14, 4⟩
/-! GATH_COUNT (08_package_fabric_memory.md) -/
def GATH_COUNT.elements (cd e : Nat) : Fld := ⟨.gathCount cd e, 0, 48⟩
def GATH_COUNT.out_of_range (cd e : Nat) : Fld := ⟨.gathCount cd e, 48, 16⟩
/-! GATH_STALL (08_package_fabric_memory.md) -/
def GATH_STALL.count (cd e c : Nat) : Fld := ⟨.gathStall cd e c, 0, 48⟩
/-! NCACHE_CTRL (08_package_fabric_memory.md) -/
def NCACHE_CTRL.enable (cd : Nat) : Fld := ⟨.ncacheCtrl cd, 0, 1⟩
def NCACHE_CTRL.flush (cd : Nat) : Fld := ⟨.ncacheCtrl cd, 1, 1⟩
/-! NCACHE_HITS (08_package_fabric_memory.md) -/
def NCACHE_HITS.count (cd : Nat) : Fld := ⟨.ncacheHits cd, 0, 48⟩
/-! NCACHE_MISSES (08_package_fabric_memory.md) -/
def NCACHE_MISSES.count (cd : Nat) : Fld := ⟨.ncacheMisses cd, 0, 48⟩
/-! CHAN_REFRESH (08_package_fabric_memory.md) -/
def CHAN_REFRESH.interval_ns (md : Nat) : Fld := ⟨.chanRefresh md, 0, 16⟩
def CHAN_REFRESH.slot_ns (md : Nat) : Fld := ⟨.chanRefresh md, 16, 16⟩
def CHAN_REFRESH.phase_ns (md : Nat) : Fld := ⟨.chanRefresh md, 32, 16⟩
/-! CHAN_MIGRATE (08_package_fabric_memory.md) -/
def CHAN_MIGRATE.logical (md : Nat) : Fld := ⟨.chanMigrate md, 0, 5⟩
def CHAN_MIGRATE.target (md : Nat) : Fld := ⟨.chanMigrate md, 5, 6⟩
def CHAN_MIGRATE.start (md : Nat) : Fld := ⟨.chanMigrate md, 11, 1⟩
def CHAN_MIGRATE.active (md : Nat) : Fld := ⟨.chanMigrate md, 12, 1⟩
def CHAN_MIGRATE.pointer (md : Nat) : Fld := ⟨.chanMigrate md, 32, 32⟩
/-! CHAN_STAT (08_package_fabric_memory.md) -/
def CHAN_STAT.expired (md : Nat) : Fld := ⟨.chanStat md, 0, 32⟩
def CHAN_STAT.collisions (md : Nat) : Fld := ⟨.chanStat md, 32, 32⟩
/-! CHAN_MAP (08_package_fabric_memory.md) -/
def CHAN_MAP.phys (md j : Nat) : Fld := ⟨.chanMap md j, 0, 6⟩
/-! CHAN_STATUS (08_package_fabric_memory.md) -/
def CHAN_STATUS.state (md i : Nat) : Fld := ⟨.chanStatus md i, 0, 3⟩
def CHAN_STATUS.logical (md i : Nat) : Fld := ⟨.chanStatus md i, 3, 5⟩
def CHAN_STATUS.self_refresh (md i : Nat) : Fld := ⟨.chanStatus md i, 8, 1⟩
def CHAN_STATUS.deferred (md i : Nat) : Fld := ⟨.chanStatus md i, 32, 32⟩
/-! ECC_COUNT (08_package_fabric_memory.md) -/
def ECC_COUNT.corrected (md i : Nat) : Fld := ⟨.eccCount md i, 0, 32⟩
def ECC_COUNT.uncorrected (md i : Nat) : Fld := ⟨.eccCount md i, 32, 32⟩
/-! ECC_RMW (08_package_fabric_memory.md) -/
def ECC_RMW.count (md : Nat) : Fld := ⟨.eccRmw md, 0, 48⟩
/-! TRAIN_STATUS (08_package_fabric_memory.md) -/
def TRAIN_STATUS.trained (md i : Nat) : Fld := ⟨.trainStatus md i, 0, 1⟩
def TRAIN_STATUS.failed (md i : Nat) : Fld := ⟨.trainStatus md i, 1, 1⟩
def TRAIN_STATUS.retrains (md i : Nat) : Fld := ⟨.trainStatus md i, 8, 16⟩
/-! PORT_STATE (09_stavelink.md) -/
def PORT_STATE.state (p : Nat) : Fld := ⟨.portState p, 0, 3⟩
def PORT_STATE.width (p : Nat) : Fld := ⟨.portState p, 3, 6⟩
def PORT_STATE.level_minor (p : Nat) : Fld := ⟨.portState p, 9, 4⟩
def PORT_STATE.peer (p : Nat) : Fld := ⟨.portState p, 13, 20⟩
def PORT_STATE.peer_port (p : Nat) : Fld := ⟨.portState p, 33, 4⟩
def PORT_STATE.logical (p : Nat) : Fld := ⟨.portState p, 37, 4⟩
/-! PORT_CTRL (09_stavelink.md) -/
def PORT_CTRL.enable (p : Nat) : Fld := ⟨.portCtrl p, 0, 1⟩
def PORT_CTRL.retrain (p : Nat) : Fld := ⟨.portCtrl p, 1, 1⟩
/-! PORT_PLAN (09_stavelink.md) -/
def PORT_PLAN.role (p : Nat) : Fld := ⟨.portPlan p, 0, 2⟩
def PORT_PLAN.serves (p : Nat) : Fld := ⟨.portPlan p, 2, 4⟩
/-! PORT_CFG (09_stavelink.md) -/
def PORT_CFG.lane_err_limit (p : Nat) : Fld := ⟨.portCfg p, 0, 32⟩
def PORT_CFG.outage_limit_us (p : Nat) : Fld := ⟨.portCfg p, 32, 16⟩
/-! PORT_LAT (09_stavelink.md) -/
def PORT_LAT.tx_ns (p : Nat) : Fld := ⟨.portLat p, 0, 16⟩
def PORT_LAT.rx_ns (p : Nat) : Fld := ⟨.portLat p, 16, 16⟩
def PORT_LAT.cable_ps (p : Nat) : Fld := ⟨.portLat p, 32, 32⟩
/-! PORT_ERR (09_stavelink.md) -/
def PORT_ERR.corrected (p : Nat) : Fld := ⟨.portErr p, 0, 32⟩
def PORT_ERR.uncorrected (p : Nat) : Fld := ⟨.portErr p, 32, 32⟩
/-! PORT_VC_BUF (09_stavelink.md) -/
def PORT_VC_BUF.words (p v : Nat) : Fld := ⟨.portVcBuf p v, 0, 16⟩
def PORT_VC_BUF.enable (p v : Nat) : Fld := ⟨.portVcBuf p v, 16, 1⟩
/-! PORT_CREDIT (09_stavelink.md) -/
def PORT_CREDIT.avail (p v : Nat) : Fld := ⟨.portCredit p v, 0, 16⟩
def PORT_CREDIT.waits (p v : Nat) : Fld := ⟨.portCredit p v, 16, 48⟩
/-! PORT_REPLAY (09_stavelink.md) -/
def PORT_REPLAY.naks (p : Nat) : Fld := ⟨.portReplay p, 0, 32⟩
def PORT_REPLAY.discards (p : Nat) : Fld := ⟨.portReplay p, 32, 32⟩
/-! PORT_OUTAGE (09_stavelink.md) -/
def PORT_OUTAGE.count (p : Nat) : Fld := ⟨.portOutage p, 0, 16⟩
def PORT_OUTAGE.last_ns (p : Nat) : Fld := ⟨.portOutage p, 16, 24⟩
def PORT_OUTAGE.max_ns (p : Nat) : Fld := ⟨.portOutage p, 40, 24⟩
/-! PORT_CAL (09_stavelink.md) -/
def PORT_CAL.program (p : Nat) : Fld := ⟨.portCal p, 0, 16⟩
def PORT_CAL.entry (p : Nat) : Fld := ⟨.portCal p, 16, 10⟩
/-! PORT_LANE (09_stavelink.md) -/
def PORT_LANE.state (p l : Nat) : Fld := ⟨.portLane p l, 0, 2⟩
def PORT_LANE.logical (p l : Nat) : Fld := ⟨.portLane p l, 2, 6⟩
def PORT_LANE.lock (p l : Nat) : Fld := ⟨.portLane p l, 8, 1⟩
def PORT_LANE.sym_err (p l : Nat) : Fld := ⟨.portLane p l, 32, 32⟩
/-! ROUTE_CFG (09_stavelink.md) -/
def ROUTE_CFG.coord (ld : Nat) : Fld := ⟨.routeCfg ld, 0, 20⟩
def ROUTE_CFG.order (ld : Nat) : Fld := ⟨.routeCfg ld, 20, 8⟩
def ROUTE_CFG.lengths (ld : Nat) : Fld := ⟨.routeCfg ld, 28, 24⟩
/-! ROUTE_EPOCH (09_stavelink.md) -/
def ROUTE_EPOCH.active (ld : Nat) : Fld := ⟨.routeEpoch ld, 0, 1⟩
def ROUTE_EPOCH.shadow_ready (ld : Nat) : Fld := ⟨.routeEpoch ld, 1, 1⟩
def ROUTE_EPOCH.released (ld : Nat) : Fld := ⟨.routeEpoch ld, 2, 1⟩
def ROUTE_EPOCH.refused (ld : Nat) : Fld := ⟨.routeEpoch ld, 16, 32⟩
/-! ROUTE_PORT_MAP (09_stavelink.md) -/
def ROUTE_PORT_MAP.map (ld : Nat) : Fld := ⟨.routePortMap ld, 0, 40⟩
/-! ROUTE_STAT (09_stavelink.md) -/
def ROUTE_STAT.drops (ld : Nat) : Fld := ⟨.routeStat ld, 0, 32⟩
def ROUTE_STAT.cross_epoch (ld : Nat) : Fld := ⟨.routeStat ld, 32, 32⟩
/-! ROUTE_DRAIN (09_stavelink.md) -/
def ROUTE_DRAIN.open_ (ld i : Nat) : Fld := ⟨.routeDrain ld i, 0, 8⟩
def ROUTE_DRAIN.old_packets (ld i : Nat) : Fld := ⟨.routeDrain ld i, 32, 32⟩
/-! ROUTE_NEXT (09_stavelink.md) -/
def ROUTE_NEXT.dir (ld b x t : Nat) : Fld := ⟨.routeNext ld b x t, 0, 2⟩
/-! ROUTE_EXC (09_stavelink.md) -/
def ROUTE_EXC.value (ld b e : Nat) : Fld := ⟨.routeExc ld b e, 0, 20⟩
def ROUTE_EXC.mask_ (ld b e : Nat) : Fld := ⟨.routeExc ld b e, 20, 20⟩
def ROUTE_EXC.classes (ld b e : Nat) : Fld := ⟨.routeExc ld b e, 40, 4⟩
def ROUTE_EXC.port (ld b e : Nat) : Fld := ⟨.routeExc ld b e, 44, 4⟩
def ROUTE_EXC.dl (ld b e : Nat) : Fld := ⟨.routeExc ld b e, 48, 2⟩
def ROUTE_EXC.valid (ld b e : Nat) : Fld := ⟨.routeExc ld b e, 50, 1⟩
/-! HW_CFG (09_stavelink.md) -/
def HW_CFG.threshold_ns (ld : Nat) : Fld := ⟨.hwCfg ld, 0, 16⟩
def HW_CFG.echo_gap_ns (ld : Nat) : Fld := ⟨.hwCfg ld, 16, 16⟩
def HW_CFG.hold_ns (ld : Nat) : Fld := ⟨.hwCfg ld, 32, 16⟩
def HW_CFG.step_ns (ld : Nat) : Fld := ⟨.hwCfg ld, 48, 16⟩
/-! HW_CFG2 (09_stavelink.md) -/
def HW_CFG2.floor (ld : Nat) : Fld := ⟨.hwCfg2 ld, 0, 7⟩
def HW_CFG2.step (ld : Nat) : Fld := ⟨.hwCfg2 ld, 7, 6⟩
def HW_CFG2.depth_words (ld : Nat) : Fld := ⟨.hwCfg2 ld, 13, 15⟩
/-! HW_RATE (09_stavelink.md) -/
def HW_RATE.f (ld c j : Nat) : Fld := ⟨.hwRate ld c j, 0, 7⟩
def HW_RATE.halvings (ld c j : Nat) : Fld := ⟨.hwRate ld c j, 32, 32⟩
/-! HW_STAT (09_stavelink.md) -/
def HW_STAT.marks (ld : Nat) : Fld := ⟨.hwStat ld, 0, 32⟩
def HW_STAT.echoes (ld : Nat) : Fld := ⟨.hwStat ld, 32, 32⟩
/-! COLL_AXIS_ROLE (10_collectives_commit.md) -/
def COLL_AXIS_ROLE.roles : Fld := ⟨.collAxisRole, 0, 12⟩
/-! COLL_CFG (10_collectives_commit.md) -/
def COLL_CFG.doubt_attempts : Fld := ⟨.collCfg, 0, 8⟩
/-! COLL_JOURNAL (10_collectives_commit.md) -/
def COLL_JOURNAL.addr : Fld := ⟨.collJournal, 0, 48⟩
/-! COLL_STATUS (10_collectives_commit.md) -/
def COLL_STATUS.phase : Fld := ⟨.collStatus, 0, 3⟩
def COLL_STATUS.active : Fld := ⟨.collStatus, 3, 1⟩
def COLL_STATUS.outcome : Fld := ⟨.collStatus, 4, 2⟩
def COLL_STATUS.in_doubt : Fld := ⟨.collStatus, 6, 1⟩
def COLL_STATUS.stages_done : Fld := ⟨.collStatus, 7, 4⟩
/-! COLL_VOTE (10_collectives_commit.md) -/
def COLL_VOTE.combined : Fld := ⟨.collVote, 0, 64⟩
/-! COLL_VOTE_OWN (10_collectives_commit.md) -/
def COLL_VOTE_OWN.own : Fld := ⟨.collVoteOwn, 0, 64⟩
/-! COLL_FALLBACK (10_collectives_commit.md) -/
def COLL_FALLBACK.variants : Fld := ⟨.collFallback, 0, 32⟩
/-! COLL_FAIL (10_collectives_commit.md) -/
def COLL_FAIL.fails : Fld := ⟨.collFail, 0, 32⟩
def COLL_FAIL.unexpected : Fld := ⟨.collFail, 32, 32⟩
/-! COLL_CHAN (10_collectives_commit.md) -/
def COLL_CHAN.logical (c : Nat) : Fld := ⟨.collChan c, 0, 6⟩
def COLL_CHAN.bound (c : Nat) : Fld := ⟨.collChan c, 6, 1⟩
def COLL_CHAN.busy (c : Nat) : Fld := ⟨.collChan c, 7, 1⟩
def COLL_CHAN.suspended (c : Nat) : Fld := ⟨.collChan c, 8, 1⟩
def COLL_CHAN.op (c : Nat) : Fld := ⟨.collChan c, 9, 3⟩
def COLL_CHAN.words (c : Nat) : Fld := ⟨.collChan c, 16, 48⟩
/-! CTL_STATE (11_bring_up.md) -/
def CTL_STATE.state : Fld := ⟨.ctlState, 0, 4⟩
def CTL_STATE.degraded : Fld := ⟨.ctlState, 4, 1⟩
def CTL_STATE.port_missing : Fld := ⟨.ctlState, 5, 1⟩
def CTL_STATE.port_mgmt_only : Fld := ⟨.ctlState, 6, 1⟩
def CTL_STATE.core_spares : Fld := ⟨.ctlState, 7, 1⟩
def CTL_STATE.chan_spares : Fld := ⟨.ctlState, 8, 1⟩
def CTL_STATE.no_variant : Fld := ⟨.ctlState, 9, 1⟩
def CTL_STATE.other_spares : Fld := ⟨.ctlState, 10, 1⟩
def CTL_STATE.warm : Fld := ⟨.ctlState, 11, 1⟩
/-! CTL_STATE_TIME (11_bring_up.md) -/
def CTL_STATE_TIME.since : Fld := ⟨.ctlStateTime, 0, 64⟩
/-! CTL_BOOT (11_bring_up.md) -/
def CTL_BOOT.result : Fld := ⟨.ctlBoot, 0, 8⟩
def CTL_BOOT.plan_check : Fld := ⟨.ctlBoot, 8, 8⟩
def CTL_BOOT.defaults_skipped : Fld := ⟨.ctlBoot, 16, 16⟩
def CTL_BOOT.plan_serial : Fld := ⟨.ctlBoot, 32, 32⟩
/-! CTL_PLAN_INDEX (11_bring_up.md) -/
def CTL_PLAN_INDEX.index : Fld := ⟨.ctlPlanIndex, 0, 17⟩
/-! CTL_ARM (11_bring_up.md) -/
def CTL_ARM.phase : Fld := ⟨.ctlArm, 0, 4⟩
def CTL_ARM.refusal : Fld := ⟨.ctlArm, 4, 8⟩
def CTL_ARM.refusals : Fld := ⟨.ctlArm, 12, 32⟩
/-! CTL_ARM_START (11_bring_up.md) -/
def CTL_ARM_START.t_start : Fld := ⟨.ctlArmStart, 0, 64⟩
/-! CTL_ARM_DIGEST (11_bring_up.md) -/
def CTL_ARM_DIGEST.digest (h : Nat) : Fld := ⟨.ctlArmDigest h, 0, 64⟩
/-! CTL_DISC (11_bring_up.md) -/
def CTL_DISC.outcome (p : Nat) : Fld := ⟨.ctlDisc p, 0, 4⟩
def CTL_DISC.authenticated (p : Nat) : Fld := ⟨.ctlDisc p, 4, 1⟩
def CTL_DISC.logical (p : Nat) : Fld := ⟨.ctlDisc p, 5, 4⟩
def CTL_DISC.peer (p : Nat) : Fld := ⟨.ctlDisc p, 9, 20⟩
def CTL_DISC.peer_port (p : Nat) : Fld := ⟨.ctlDisc p, 29, 4⟩
def CTL_DISC.peer_major (p : Nat) : Fld := ⟨.ctlDisc p, 33, 4⟩
def CTL_DISC.peer_minor (p : Nat) : Fld := ⟨.ctlDisc p, 37, 4⟩
def CTL_DISC.hellos (p : Nat) : Fld := ⟨.ctlDisc p, 41, 7⟩
/-! SITE_MAP (12_reliability.md) -/
def SITE_MAP.phys (cd s : Nat) : Fld := ⟨.siteMap cd s, 0, 6⟩
def SITE_MAP.unserved (cd s : Nat) : Fld := ⟨.siteMap cd s, 6, 1⟩
/-! SITE_CORE (12_reliability.md) -/
def SITE_CORE.state (cd c : Nat) : Fld := ⟨.siteCore cd c, 0, 2⟩
def SITE_CORE.kind (cd c : Nat) : Fld := ⟨.siteCore cd c, 2, 1⟩
def SITE_CORE.site (cd c : Nat) : Fld := ⟨.siteCore cd c, 3, 6⟩
def SITE_CORE.transients (cd c : Nat) : Fld := ⟨.siteCore cd c, 9, 8⟩
def SITE_CORE.rows_spared (cd c : Nat) : Fld := ⟨.siteCore cd c, 17, 8⟩
/-! SITE_FENCE (12_reliability.md) -/
def SITE_FENCE.site (cd : Nat) : Fld := ⟨.siteFence cd, 0, 6⟩
def SITE_FENCE.active (cd : Nat) : Fld := ⟨.siteFence cd, 6, 1⟩
def SITE_FENCE.spare (cd : Nat) : Fld := ⟨.siteFence cd, 7, 6⟩
def SITE_FENCE.result (cd : Nat) : Fld := ⟨.siteFence cd, 13, 2⟩
def SITE_FENCE.copied (cd : Nat) : Fld := ⟨.siteFence cd, 15, 20⟩
/-! RAS_STATUS (12_reliability.md) -/
def RAS_STATUS.maint (die : Nat) : Fld := ⟨.rasStatus die, 0, 1⟩
def RAS_STATUS.st_pending (die : Nat) : Fld := ⟨.rasStatus die, 1, 7⟩
def RAS_STATUS.st_running (die : Nat) : Fld := ⟨.rasStatus die, 8, 1⟩
def RAS_STATUS.st_dropped (die : Nat) : Fld := ⟨.rasStatus die, 32, 32⟩
/-! RAS_ERR (12_reliability.md) -/
def RAS_ERR.corrected (die : Nat) : Fld := ⟨.rasErr die, 0, 32⟩
def RAS_ERR.uncorrected (die : Nat) : Fld := ⟨.rasErr die, 32, 32⟩
/-! RAS_POISON (12_reliability.md) -/
def RAS_POISON.consumed (die : Nat) : Fld := ⟨.rasPoison die, 0, 48⟩
/-! RAS_INJ_CTRL (12_reliability.md) -/
def RAS_INJ_CTRL.det (die : Nat) : Fld := ⟨.rasInjCtrl die, 0, 8⟩
def RAS_INJ_CTRL.die (die : Nat) : Fld := ⟨.rasInjCtrl die, 8, 5⟩
def RAS_INJ_CTRL.unit (die : Nat) : Fld := ⟨.rasInjCtrl die, 13, 11⟩
def RAS_INJ_CTRL.count (die : Nat) : Fld := ⟨.rasInjCtrl die, 24, 8⟩
def RAS_INJ_CTRL.arm (die : Nat) : Fld := ⟨.rasInjCtrl die, 32, 1⟩
def RAS_INJ_CTRL.armed (die : Nat) : Fld := ⟨.rasInjCtrl die, 33, 1⟩
def RAS_INJ_CTRL.fired (die : Nat) : Fld := ⟨.rasInjCtrl die, 34, 8⟩
/-! RAS_INJ_ARG (12_reliability.md) -/
def RAS_INJ_ARG.arg (die : Nat) : Fld := ⟨.rasInjArg die, 0, 64⟩
/-! RAS_ST_LAST (12_reliability.md) -/
def RAS_ST_LAST.kind (die : Nat) : Fld := ⟨.rasStLast die, 0, 8⟩
def RAS_ST_LAST.unit (die : Nat) : Fld := ⟨.rasStLast die, 8, 16⟩
def RAS_ST_LAST.pass (die : Nat) : Fld := ⟨.rasStLast die, 24, 1⟩
def RAS_ST_LAST.aborted (die : Nat) : Fld := ⟨.rasStLast die, 25, 1⟩
def RAS_ST_LAST.duration_ns (die : Nat) : Fld := ⟨.rasStLast die, 32, 32⟩
/-! RAS_CFG (12_reliability.md) -/
def RAS_CFG.transient_limit : Fld := ⟨.rasCfg, 0, 8⟩
def RAS_CFG.window_min : Fld := ⟨.rasCfg, 8, 16⟩
def RAS_CFG.auto_fence : Fld := ⟨.rasCfg, 24, 1⟩
def RAS_CFG.wdt_ms : Fld := ⟨.rasCfg, 32, 16⟩
/-! RAS_DRAIN_TMO0 (12_reliability.md) -/
def RAS_DRAIN_TMO0.core_us : Fld := ⟨.rasDrainTmo0, 0, 16⟩
def RAS_DRAIN_TMO0.gather_us : Fld := ⟨.rasDrainTmo0, 16, 16⟩
def RAS_DRAIN_TMO0.port_us : Fld := ⟨.rasDrainTmo0, 32, 16⟩
def RAS_DRAIN_TMO0.coll_us : Fld := ⟨.rasDrainTmo0, 48, 16⟩
/-! RAS_DRAIN_TMO1 (12_reliability.md) -/
def RAS_DRAIN_TMO1.guest_us : Fld := ⟨.rasDrainTmo1, 0, 16⟩
def RAS_DRAIN_TMO1.cxl_us : Fld := ⟨.rasDrainTmo1, 16, 16⟩
/-! CTL_EV_WR (12_reliability.md) -/
def CTL_EV_WR.index : Fld := ⟨.ctlEvWr, 0, 32⟩
/-! CTL_EV_RD (12_reliability.md) -/
def CTL_EV_RD.index (r : Nat) : Fld := ⟨.ctlEvRd r, 0, 32⟩
def CTL_EV_RD.lost (r : Nat) : Fld := ⟨.ctlEvRd r, 32, 32⟩
/-! CTL_EV_DATA (12_reliability.md) -/
def CTL_EV_DATA.data (r w : Nat) : Fld := ⟨.ctlEvData r w, 0, 64⟩
/-! SEC_STATUS (13_security.md) -/
def SEC_STATUS.key_ok : Fld := ⟨.secStatus, 0, 1⟩
def SEC_STATUS.cert_ok : Fld := ⟨.secStatus, 1, 1⟩
def SEC_STATUS.anchor_set : Fld := ⟨.secStatus, 2, 1⟩
def SEC_STATUS.fw_key : Fld := ⟨.secStatus, 3, 2⟩
def SEC_STATUS.revoked0 : Fld := ⟨.secStatus, 5, 1⟩
def SEC_STATUS.revoked1 : Fld := ⟨.secStatus, 6, 1⟩
def SEC_STATUS.floor : Fld := ⟨.secStatus, 7, 6⟩
def SEC_STATUS.log_entries : Fld := ⟨.secStatus, 13, 9⟩
/-! SEC_FPR (13_security.md) -/
def SEC_FPR.fpr (h : Nat) : Fld := ⟨.secFpr h, 0, 64⟩
/-! SEC_CMD_SEQ (13_security.md) -/
def SEC_CMD_SEQ.seq : Fld := ⟨.secCmdSeq, 0, 64⟩
/-! SEC_QC_STAT (13_security.md) -/
def SEC_QC_STAT.last_reason : Fld := ⟨.secQcStat, 0, 8⟩
def SEC_QC_STAT.last_type : Fld := ⟨.secQcStat, 8, 8⟩
def SEC_QC_STAT.rejects : Fld := ⟨.secQcStat, 16, 32⟩
/-! SEC_DBG (13_security.md) -/
def SEC_DBG.level : Fld := ⟨.secDbg, 0, 2⟩
def SEC_DBG.relock : Fld := ⟨.secDbg, 2, 1⟩
/-! SEC_DBG_NONCE (13_security.md) -/
def SEC_DBG_NONCE.nonce : Fld := ⟨.secDbgNonce, 0, 64⟩
/-! GFW_CFG (13_security.md) -/
def GFW_CFG.deny_limit : Fld := ⟨.gfwCfg, 0, 16⟩
def GFW_CFG.deny_window_us : Fld := ⟨.gfwCfg, 16, 32⟩
/-! GFW_STATUS (13_security.md) -/
def GFW_STATUS.isolated : Fld := ⟨.gfwStatus, 0, 1⟩
def GFW_STATUS.link_up : Fld := ⟨.gfwStatus, 1, 1⟩
def GFW_STATUS.denials : Fld := ⟨.gfwStatus, 32, 32⟩
/-! GFW_RULE_LO (13_security.md) -/
def GFW_RULE_LO.base (n : Nat) : Fld := ⟨.gfwRuleLo n, 0, 36⟩
def GFW_RULE_LO.valid (n : Nat) : Fld := ⟨.gfwRuleLo n, 36, 1⟩
def GFW_RULE_LO.dir (n : Nat) : Fld := ⟨.gfwRuleLo n, 37, 1⟩
def GFW_RULE_LO.read (n : Nat) : Fld := ⟨.gfwRuleLo n, 38, 1⟩
def GFW_RULE_LO.write (n : Nat) : Fld := ⟨.gfwRuleLo n, 39, 1⟩
/-! GFW_RULE_HI (13_security.md) -/
def GFW_RULE_HI.limit (n : Nat) : Fld := ⟨.gfwRuleHi n, 0, 36⟩
def GFW_RULE_HI.rate (n : Nat) : Fld := ⟨.gfwRuleHi n, 36, 16⟩
/-! CXL_STATUS (14_host_management.md) -/
def CXL_STATUS.link_up : Fld := ⟨.cxlStatus, 0, 1⟩
def CXL_STATUS.speed : Fld := ⟨.cxlStatus, 1, 2⟩
def CXL_STATUS.width : Fld := ⟨.cxlStatus, 3, 4⟩
def CXL_STATUS.hdm_committed : Fld := ⟨.cxlStatus, 7, 1⟩
/-! CXL_WIN (14_host_management.md) -/
def CXL_WIN.dev_base : Fld := ⟨.cxlWin, 0, 13⟩
def CXL_WIN.size : Fld := ⟨.cxlWin, 16, 11⟩
/-! CXL_CFG (14_host_management.md) -/
def CXL_CFG.hold_us : Fld := ⟨.cxlCfg, 0, 16⟩
def CXL_CFG.msix_min_sev : Fld := ⟨.cxlCfg, 16, 4⟩
def CXL_CFG.msix_gap_us : Fld := ⟨.cxlCfg, 20, 16⟩
/-! CXL_PULL_BASE (14_host_management.md) -/
def CXL_PULL_BASE.addr : Fld := ⟨.cxlPullBase, 0, 48⟩
/-! CXL_PULL_IDX (14_host_management.md) -/
def CXL_PULL_IDX.head : Fld := ⟨.cxlPullIdx, 0, 10⟩
def CXL_PULL_IDX.tail : Fld := ⟨.cxlPullIdx, 10, 10⟩
def CXL_PULL_IDX.stopped : Fld := ⟨.cxlPullIdx, 20, 1⟩
/-! CXL_STAT (14_host_management.md) -/
def CXL_STAT.discards : Fld := ⟨.cxlStat, 0, 32⟩
def CXL_STAT.pull_fails : Fld := ⟨.cxlStat, 32, 32⟩
/-! MGMT_ADDR (14_host_management.md) -/
def MGMT_ADDR.addr (h : Nat) : Fld := ⟨.mgmtAddr h, 0, 64⟩
/-! MGMT_STATUS (14_host_management.md) -/
def MGMT_STATUS.link_up : Fld := ⟨.mgmtStatus, 0, 1⟩
def MGMT_STATUS.derived : Fld := ⟨.mgmtStatus, 1, 1⟩
def MGMT_STATUS.reassembling : Fld := ⟨.mgmtStatus, 2, 3⟩
/-! MGMT_COUNT (14_host_management.md) -/
def MGMT_COUNT.accepted : Fld := ⟨.mgmtCount, 0, 24⟩
def MGMT_COUNT.rejected : Fld := ⟨.mgmtCount, 24, 24⟩
def MGMT_COUNT.dropped : Fld := ⟨.mgmtCount, 48, 16⟩
/-! MGMT_AUTH_SEQ (14_host_management.md) -/
def MGMT_AUTH_SEQ.last (a : Nat) : Fld := ⟨.mgmtAuthSeq a, 0, 64⟩
/-! PWR_MODE (15_modes_power_emc.md) -/
def PWR_MODE.mode : Fld := ⟨.pwrMode, 0, 2⟩
def PWR_MODE.default_mode : Fld := ⟨.pwrMode, 2, 2⟩
def PWR_MODE.pending : Fld := ⟨.pwrMode, 4, 2⟩
/-! PWR_LIMIT (15_modes_power_emc.md) -/
def PWR_LIMIT.limit_w : Fld := ⟨.pwrLimit, 0, 16⟩
def PWR_LIMIT.in_force_w : Fld := ⟨.pwrLimit, 16, 16⟩
def PWR_LIMIT.phase_cap_w : Fld := ⟨.pwrLimit, 32, 16⟩
/-! PWR_BALLAST (15_modes_power_emc.md) -/
def PWR_BALLAST.enable : Fld := ⟨.pwrBallast, 0, 1⟩
def PWR_BALLAST.max_frac : Fld := ⟨.pwrBallast, 1, 4⟩
def PWR_BALLAST.frac : Fld := ⟨.pwrBallast, 5, 4⟩
def PWR_BALLAST.k_milli : Fld := ⟨.pwrBallast, 32, 16⟩
/-! PWR_THERM_CFG (15_modes_power_emc.md) -/
def PWR_THERM_CFG.throttle_c : Fld := ⟨.pwrThermCfg, 0, 8⟩
def PWR_THERM_CFG.hold_c : Fld := ⟨.pwrThermCfg, 8, 8⟩
def PWR_THERM_CFG.trip_c : Fld := ⟨.pwrThermCfg, 16, 8⟩
def PWR_THERM_CFG.hyst_c : Fld := ⟨.pwrThermCfg, 24, 4⟩
/-! PWR_THERM_STAT (15_modes_power_emc.md) -/
def PWR_THERM_STAT.level : Fld := ⟨.pwrThermStat, 0, 2⟩
def PWR_THERM_STAT.hottest : Fld := ⟨.pwrThermStat, 2, 16⟩
def PWR_THERM_STAT.die : Fld := ⟨.pwrThermStat, 18, 5⟩
def PWR_THERM_STAT.trip_latched : Fld := ⟨.pwrThermStat, 23, 1⟩
def PWR_THERM_STAT.removed : Fld := ⟨.pwrThermStat, 24, 20⟩
def PWR_THERM_STAT.held : Fld := ⟨.pwrThermStat, 44, 20⟩
/-! PWR_SPREAD (15_modes_power_emc.md) -/
def PWR_SPREAD.core_en : Fld := ⟨.pwrSpread, 0, 1⟩
def PWR_SPREAD.ctl_en : Fld := ⟨.pwrSpread, 1, 1⟩
def PWR_SPREAD.core_active : Fld := ⟨.pwrSpread, 2, 1⟩
def PWR_SPREAD.ctl_active : Fld := ⟨.pwrSpread, 3, 1⟩
/-! PWR_TELEM (15_modes_power_emc.md) -/
def PWR_TELEM.input_w : Fld := ⟨.pwrTelem, 0, 16⟩
def PWR_TELEM.inlet : Fld := ⟨.pwrTelem, 16, 16⟩
def PWR_TELEM.outlet : Fld := ⟨.pwrTelem, 32, 16⟩
def PWR_TELEM.flow : Fld := ⟨.pwrTelem, 48, 16⟩
/-! PWR_AVS (15_modes_power_emc.md) -/
def PWR_AVS.vout_mv (d : Nat) : Fld := ⟨.pwrAvs d, 0, 12⟩
def PWR_AVS.vmin_mv (d : Nat) : Fld := ⟨.pwrAvs d, 12, 12⟩
def PWR_AVS.avs_en (d : Nat) : Fld := ⟨.pwrAvs d, 24, 1⟩
/-! ID_DIE (16_registers.md) -/
def ID_DIE.die (die : Nat) : Fld := ⟨.idDie die, 0, 5⟩
def ID_DIE.type (die : Nat) : Fld := ⟨.idDie die, 8, 4⟩
def ID_DIE.stepping (die : Nat) : Fld := ⟨.idDie die, 16, 8⟩
def ID_DIE.vendor (die : Nat) : Fld := ⟨.idDie die, 32, 16⟩
def ID_DIE.code (die : Nat) : Fld := ⟨.idDie die, 48, 16⟩
/-! ID_SERIAL (16_registers.md) -/
def ID_SERIAL.serial (die : Nat) : Fld := ⟨.idSerial die, 0, 64⟩
/-! ID_SCRATCH (16_registers.md) -/
def ID_SCRATCH.scratch (die : Nat) : Fld := ⟨.idScratch die, 0, 64⟩
/-! GLB_PART (16_registers.md) -/
def GLB_PART.subsystem : Fld := ⟨.glbPart, 0, 16⟩
def GLB_PART.capacity : Fld := ⟨.glbPart, 16, 8⟩
def GLB_PART.guest : Fld := ⟨.glbPart, 24, 1⟩
def GLB_PART.stepping : Fld := ⟨.glbPart, 32, 8⟩
/-! GLB_SERIAL (16_registers.md) -/
def GLB_SERIAL.serial : Fld := ⟨.glbSerial, 0, 64⟩
/-! GLB_RESETS (16_registers.md) -/
def GLB_RESETS.warm : Fld := ⟨.glbResets, 0, 32⟩
def GLB_RESETS.last_cause : Fld := ⟨.glbResets, 32, 4⟩
/-! GLB_CLOCKS (16_registers.md) -/
def GLB_CLOCKS.arith_mhz : Fld := ⟨.glbClocks, 0, 16⟩
def GLB_CLOCKS.xbar_mhz : Fld := ⟨.glbClocks, 16, 16⟩
/-! PERF_CTRL (16_registers.md) -/
def PERF_CTRL.clear (die : Nat) : Fld := ⟨.perfCtrl die, 0, 1⟩
def PERF_CTRL.freeze (die : Nat) : Fld := ⟨.perfCtrl die, 1, 1⟩
/-! PERF_SEL (16_registers.md) -/
def PERF_SEL.event (die n : Nat) : Fld := ⟨.perfSel die n, 0, 8⟩
def PERF_SEL.unit (die n : Nat) : Fld := ⟨.perfSel die n, 8, 8⟩
/-! PERF_CNT (16_registers.md) -/
def PERF_CNT.count (die n : Nat) : Fld := ⟨.perfCnt die n, 0, 48⟩

/-- The first name in a list. -/
def firstOf : List (Option Reg) → Option Reg
  | [] => none
  | some r :: _ => some r
  | none :: l => firstOf l

/-- Entry `i` of an array of `n` registers of the given stride from `base`, at offset `o`. -/
def arrIx (o base stride n : Nat) : Option Nat :=
  if base ≤ o ∧ (o - base) % stride = 0 ∧ (o - base) / stride < n then some ((o - base) / stride) else none

def regInHub_65536 (o : Nat) : Option Reg :=
    firstOf [
    if o = 0x0 then some (.mtcNow) else none,
    if o = 0x8 then some (.mtcNowFrac) else none,
    if o = 0x10 then some (.mtcStatus) else none,
    if o = 0x18 then some (.mtcCtrl) else none,
    if o = 0x20 then some (.mtcRate) else none,
    if o = 0x28 then some (.mtcLoop) else none,
    if o = 0x30 then some (.mtcSkewLimit) else none,
    if o = 0x38 then some (.mtcAnchorTol) else none,
    if o = 0x40 then some (.mtcAnchorStat) else none,
    if o = 0x48 then some (.mtcRootTrim) else none,
    if o = 0x50 then some (.mtcPpsStat) else none,
    if o = 0x58 then some (.mtcEpoch) else none,
    (arrIx o 0x80 8 10).map fun i => .mtcPortStat i,
    (arrIx o 0x100 8 10).map fun i => .mtcPortCal i,
    (arrIx o 0x200 16 32).map fun i => .mtcSchedTime i,
    (arrIx o 0x208 16 32).map fun i => .mtcSchedAct i]

def regInCore (cd s : Nat) (o : Nat) : Option Reg :=
    firstOf [
    if o = 0x4000 then some (.matId cd s) else none,
    if o = 0x4008 then some (.matStatus cd s) else none,
    if o = 0x4010 then some (.matFlags cd s) else none,
    if o = 0x4018 then some (.matOps cd s) else none,
    if o = 0x4020 then some (.matMacs cd s) else none,
    if o = 0x5000 then some (.vecId cd s) else none,
    if o = 0x5008 then some (.vecStatus cd s) else none,
    if o = 0x5010 then some (.vecFlags cd s) else none,
    if o = 0x5018 then some (.vecOps cd s) else none,
    (arrIx o 0x5020 8 2).map fun i => .vecNanLanes cd s i,
    if o = 0x6000 then some (.convFlags cd s) else none,
    if o = 0x6008 then some (.convCount cd s) else none,
    if o = 0x6010 then some (.convVanish cd s) else none,
    if o = 0x0 then some (.seqId cd s) else none,
    if o = 0x8 then some (.seqStatus cd s) else none,
    if o = 0x10 then some (.seqFault cd s) else none,
    (arrIx o 0x20 8 2).map fun i => .seqCtx cd s i,
    if o = 0x30 then some (.seqIcache cd s) else none,
    if o = 0x38 then some (.seqPerfCtrl cd s) else none,
    if o = 0x40 then some (.seqVote cd s) else none,
    if o = 0x48 then some (.seqIssued cd s) else none,
    (arrIx o 0x1000 8 64).bind fun i => if i % 16 < 16 then some (.seqStall cd s (i / 16) (i % 16)) else none]

def regInHub_327680 (o : Nat) : Option Reg :=
    firstOf [
    if o = 0x0 then some (.numCtrl) else none,
    (arrIx o 0x8 8 2).map fun i => .numSeed i,
    if o = 0x18 then some (.numStep) else none,
    if o = 0x20 then some (.numTableStat) else none,
    if o = 0x28 then some (.numMonitorCfg) else none,
    if o = 0x30 then some (.numRescales) else none,
    if o = 0x38 then some (.numGnorm) else none,
    if o = 0x40 then some (.numEntrySel) else none,
    if o = 0x48 then some (.numEntryHdr) else none,
    if o = 0x50 then some (.numEntryCnt) else none,
    if o = 0x58 then some (.numEntryCfg) else none]

def regInCd_131072 (cd : Nat) (o : Nat) : Option Reg :=
    firstOf [
    if o = 0x0 then some (.nocStatus cd) else none,
    if o = 0x8 then some (.nocCollision cd) else none]

def regInHub_131072 (o : Nat) : Option Reg :=
    firstOf [
    if o = 0x0 then some (.xbarStatus) else none,
    if o = 0x8 then some (.xbarCollision) else none]

def regInHub_196608 (o : Nat) : Option Reg :=
    firstOf [
    if o = 0x0 then some (.stageStatus) else none,
    if o = 0x8 then some (.stageGenSel) else none,
    if o = 0x10 then some (.stageGen) else none,
    if o = 0x18 then some (.stageStale) else none]

def regInCd_196608 (cd : Nat) (o : Nat) : Option Reg :=
    firstOf [
    if o = 0x0 then some (.gathSlotQuota cd) else none,
    if o = 0x8 then some (.gathCtrl cd) else none,
    (arrIx o 0x40 8 4).map fun i => .gathStatus cd i,
    (arrIx o 0x80 8 4).map fun i => .gathCount cd i,
    (arrIx o 0x1000 8 64).bind fun i => if i % 16 < 16 then some (.gathStall cd (i / 16) (i % 16)) else none]

def regInCd_262144 (cd : Nat) (o : Nat) : Option Reg :=
    firstOf [
    if o = 0x0 then some (.ncacheCtrl cd) else none,
    if o = 0x8 then some (.ncacheHits cd) else none,
    if o = 0x10 then some (.ncacheMisses cd) else none]

def regInMd_65536 (md : Nat) (o : Nat) : Option Reg :=
    firstOf [
    if o = 0x0 then some (.chanRefresh md) else none,
    if o = 0x8 then some (.chanMigrate md) else none,
    if o = 0x10 then some (.chanStat md) else none,
    (arrIx o 0x40 8 24).map fun j => .chanMap md j,
    (arrIx o 0x240 8 8).map fun j => .chanMap md (j + 24),
    (arrIx o 0x100 8 34).map fun i => .chanStatus md i]

def regInMd_131072 (md : Nat) (o : Nat) : Option Reg :=
    firstOf [
    (arrIx o 0x0 8 34).map fun i => .eccCount md i,
    if o = 0x200 then some (.eccRmw md) else none]

def regInMd_196608 (md : Nat) (o : Nat) : Option Reg :=
    firstOf [
    (arrIx o 0x0 8 34).map fun i => .trainStatus md i]

def regInPort (p : Nat) (o : Nat) : Option Reg :=
    firstOf [
    if o = 0x0 then some (.portState p) else none,
    if o = 0x8 then some (.portCtrl p) else none,
    if o = 0x10 then some (.portPlan p) else none,
    if o = 0x18 then some (.portCfg p) else none,
    if o = 0x20 then some (.portLat p) else none,
    if o = 0x28 then some (.portErr p) else none,
    (arrIx o 0x40 8 8).map fun i => .portVcBuf p i,
    (arrIx o 0x80 8 8).map fun i => .portCredit p i,
    if o = 0xc0 then some (.portReplay p) else none,
    if o = 0xc8 then some (.portOutage p) else none,
    if o = 0xd0 then some (.portCal p) else none,
    (arrIx o 0x100 8 36).map fun i => .portLane p i]

def regInLd_524288 (ld : Nat) (o : Nat) : Option Reg :=
    firstOf [
    if o = 0x0 then some (.routeCfg ld) else none,
    if o = 0x8 then some (.routeEpoch ld) else none,
    if o = 0x10 then some (.routePortMap ld) else none,
    if o = 0x18 then some (.routeStat ld) else none,
    (arrIx o 0x40 8 6).map fun i => .routeDrain ld i,
    (arrIx o 0x1000 8 256).bind fun i => if i % 32 < 32 ∧ i % 128 / 32 < 4 then some (.routeNext ld (i / 128) (i % 128 / 32) (i % 32)) else none,
    (arrIx o 0x2000 8 512).bind fun i => if i % 256 < 256 then some (.routeExc ld (i / 256) (i % 256)) else none]

def regInLd_589824 (ld : Nat) (o : Nat) : Option Reg :=
    firstOf [
    if o = 0x0 then some (.hwCfg ld) else none,
    if o = 0x8 then some (.hwCfg2 ld) else none,
    (arrIx o 0x40 8 6).bind fun i => if i % 2 < 2 then some (.hwRate ld (i / 2) (i % 2)) else none,
    if o = 0x80 then some (.hwStat ld) else none]

def regInHub_262144 (o : Nat) : Option Reg :=
    firstOf [
    if o = 0x0 then some (.collAxisRole) else none,
    if o = 0x8 then some (.collCfg) else none,
    if o = 0x10 then some (.collJournal) else none,
    if o = 0x18 then some (.collStatus) else none,
    if o = 0x20 then some (.collVote) else none,
    if o = 0x28 then some (.collVoteOwn) else none,
    if o = 0x30 then some (.collFallback) else none,
    if o = 0x38 then some (.collFail) else none,
    (arrIx o 0x100 8 16).map fun i => .collChan i]

def regInHub_786432 (o : Nat) : Option Reg :=
    firstOf [
    if o = 0x0 then some (.ctlState) else none,
    if o = 0x8 then some (.ctlStateTime) else none,
    if o = 0x10 then some (.ctlBoot) else none,
    if o = 0x18 then some (.ctlPlanIndex) else none,
    if o = 0x20 then some (.ctlArm) else none,
    if o = 0x28 then some (.ctlArmStart) else none,
    (arrIx o 0x30 8 4).map fun i => .ctlArmDigest i,
    (arrIx o 0x80 8 10).map fun i => .ctlDisc i,
    if o = 0xd0 then some (.ctlEvWr) else none,
    (arrIx o 0xd8 8 4).map fun i => .ctlEvRd i,
    (arrIx o 0x100 8 16).bind fun i => if i % 4 < 4 then some (.ctlEvData (i / 4) (i % 4)) else none]

def regInCd_65536 (cd : Nat) (o : Nat) : Option Reg :=
    firstOf [
    (arrIx o 0x0 8 36).map fun i => .siteMap cd i,
    (arrIx o 0x200 8 36).map fun i => .siteCore cd i,
    if o = 0x400 then some (.siteFence cd) else none]

def regInRas (die : Nat) (o : Nat) : Option Reg :=
    firstOf [
    if o = 0x0 then some (.rasStatus die) else none,
    if o = 0x8 then some (.rasErr die) else none,
    if o = 0x10 then some (.rasPoison die) else none,
    if o = 0x18 then some (.rasInjCtrl die) else none,
    if o = 0x20 then some (.rasInjArg die) else none,
    if o = 0x28 then some (.rasStLast die) else none]

def regInHub_655360 (o : Nat) : Option Reg :=
    firstOf [
    if o = 0x30 then some (.rasCfg) else none,
    if o = 0x38 then some (.rasDrainTmo0) else none,
    if o = 0x40 then some (.rasDrainTmo1) else none]

def regInHub_524288 (o : Nat) : Option Reg :=
    firstOf [
    if o = 0x0 then some (.secStatus) else none,
    (arrIx o 0x8 8 4).map fun i => .secFpr i,
    if o = 0x28 then some (.secCmdSeq) else none,
    if o = 0x30 then some (.secQcStat) else none,
    if o = 0x38 then some (.secDbg) else none,
    if o = 0x40 then some (.secDbgNonce) else none]

def regInHub_720896 (o : Nat) : Option Reg :=
    firstOf [
    if o = 0x0 then some (.gfwCfg) else none,
    if o = 0x8 then some (.gfwStatus) else none,
    (arrIx o 0x100 16 64).map fun i => .gfwRuleLo i,
    (arrIx o 0x108 16 64).map fun i => .gfwRuleHi i]

def regInHub_393216 (o : Nat) : Option Reg :=
    firstOf [
    if o = 0x0 then some (.cxlStatus) else none,
    if o = 0x8 then some (.cxlWin) else none,
    if o = 0x10 then some (.cxlCfg) else none,
    if o = 0x18 then some (.cxlPullBase) else none,
    if o = 0x20 then some (.cxlPullIdx) else none,
    if o = 0x28 then some (.cxlStat) else none]

def regInHub_458752 (o : Nat) : Option Reg :=
    firstOf [
    (arrIx o 0x0 8 2).map fun i => .mgmtAddr i,
    if o = 0x10 then some (.mgmtStatus) else none,
    if o = 0x18 then some (.mgmtCount) else none,
    (arrIx o 0x100 8 32).map fun i => .mgmtAuthSeq i]

def regInHub_589824 (o : Nat) : Option Reg :=
    firstOf [
    if o = 0x0 then some (.pwrMode) else none,
    if o = 0x8 then some (.pwrLimit) else none,
    if o = 0x10 then some (.pwrBallast) else none,
    if o = 0x18 then some (.pwrThermCfg) else none,
    if o = 0x20 then some (.pwrThermStat) else none,
    if o = 0x28 then some (.pwrSpread) else none,
    if o = 0x30 then some (.pwrTelem) else none,
    (arrIx o 0x100 8 19).map fun i => .pwrAvs i]

def regInId (die : Nat) (o : Nat) : Option Reg :=
    firstOf [
    if o = 0x0 then some (.idDie die) else none,
    if o = 0x8 then some (.idSerial die) else none,
    if o = 0x10 then some (.idScratch die) else none]

def regInHub_0 (o : Nat) : Option Reg :=
    firstOf [
    if o = 0x100 then some (.glbPart) else none,
    if o = 0x108 then some (.glbSerial) else none,
    if o = 0x110 then some (.glbResets) else none,
    if o = 0x118 then some (.glbClocks) else none]

def regInPerf (die : Nat) (o : Nat) : Option Reg :=
    firstOf [
    if o = 0x0 then some (.perfCtrl die) else none,
    (arrIx o 0x40 8 8).map fun i => .perfSel die i,
    (arrIx o 0x80 8 8).map fun i => .perfCnt die i]

/-- The register at offset `o` of die `d`'s register space, if any (R367, R368). -/
def regAt (d o : Nat) : Option Reg :=
  let b := o / 0x10000 * 0x10000
  let r := o % 0x10000
  if d ≤ 18 ∧ b = 0 then
    firstOf [regInId d r, if d = 0 then regInHub_0 r else none]
  else if d = 0 then
    if b = 0x10000 then regInHub_65536 r
    else if b = 0x50000 then regInHub_327680 r
    else if b = 0x20000 then regInHub_131072 r
    else if b = 0x30000 then regInHub_196608 r
    else if b = 0x40000 then regInHub_262144 r
    else if b = 0xc0000 then regInHub_786432 r
    else if b = 0xa0000 then firstOf [regInRas 0 r, regInHub_655360 r]
    else if b = 0x80000 then regInHub_524288 r
    else if b = 0xb0000 then regInHub_720896 r
    else if b = 0x60000 then regInHub_393216 r
    else if b = 0x70000 then regInHub_458752 r
    else if b = 0x90000 then regInHub_589824 r
    else none
  else if d ≤ 12 then
    if b = 0x20000 then regInCd_131072 (d - 1) r
    else if b = 0x30000 then regInCd_196608 (d - 1) r
    else if b = 0x40000 then regInCd_262144 (d - 1) r
    else if b = 0x10000 then regInCd_65536 (d - 1) r
    else if b = 0x50000 then regInPerf d r
    else if b = 0x60000 then regInRas d r
    else if 0x100000 ≤ o ∧ o < 0x100000 + 32 * 0x10000 then regInCore (d - 1) ((o - 0x100000) / 0x10000) r
    else none
  else if d ≤ 16 then
    if b = 0x10000 then regInMd_65536 (d - 13) r
    else if b = 0x20000 then regInMd_131072 (d - 13) r
    else if b = 0x30000 then regInMd_196608 (d - 13) r
    else if b = 0x40000 then regInPerf d r
    else none
  else if d ≤ 18 then
    if b = 0x80000 then regInLd_524288 (d - 17) r
    else if b = 0x90000 then regInLd_589824 (d - 17) r
    else if b = 0xA0000 then regInPerf d r
    else if 0x10000 ≤ o ∧ o < 0x60000 then regInPort ((d - 17) * 5 + (o - 0x10000) / 0x10000) r
    else none
  else none

/-- The register at a device address, if any. -/
def regOfAddr (a : Nat) : Option Reg :=
  if 0x7F0000000000 ≤ a ∧ a < 0x7F0014000000 then
    regAt ((a - 0x7F0000000000) / 0x1000000) ((a - 0x7F0000000000) % 0x1000000)
  else none

end Sys2Proof.Machine
end

