-- ==== Sys2Proof/Machine/Resets.lean ====
section
/-!
DEFINITION. The reset value of every register (16_registers.md, index): the field resets of the tables, and the values
the tables give per part, die, site, port, lane or channel.
-/
namespace Sys2Proof.Machine

/-- The four part numbers (R1). -/
inductive Part where
  | n09 | n18 | g09 | g18
  deriving DecidableEq, Repr

/-- Capacity code 09 (false) or 18 (true). -/
def Part.big : Part → Bool
  | .n09 | .g09 => false
  | .n18 | .g18 => true

/-- A part with a partner die on the guest site (R2, R3). -/
def Part.guest : Part → Bool
  | .n09 | .n18 => false
  | .g09 | .g18 => true

/-- The fixed field resets of the register tables, packed. -/
def Reg.tableReset (r : Reg) : Nat := r.fields.foldl (fun acc f => setBits acc f.lo f.w f.rst) 0

/-- Physical core serving logical site `s` at delivery (R14 leaves it to the die's site map; log entry 3). -/
def physAtDelivery (s : Nat) : Nat := if s < 28 then s else s + 3

/-- SITE_CORE of physical core `c` at delivery: gust cores 0 to 30, lee cores 31 to 35; the unmapped ones SPARE. -/
def siteCoreReset (c : Nat) : Nat :=
  let kind := b2n (31 ≤ c)
  if c < 28 then c * 8 + kind * 4
  else if 31 ≤ c ∧ c < 35 then (c - 3) * 8 + kind * 4
  else kind * 4 + 1

/-- Die type and code of ID_DIE (R376). -/
def dieType (d : Nat) : Nat := if d = 0 then 0 else if d ≤ 12 then 1 else if d ≤ 16 then 2 else 3

/-- Reset value of a register of a part. -/
def Reg.reset (part : Part) (r : Reg) : Nat :=
  match r with
  | .seqId _ s => setBits r.tableReset 0 1 (b2n (28 ≤ s))
  | .matId _ s => if s < 28 then 0x0240400E else 0x02404005
  | .vecId _ s => if s < 28 then 0x02922040 else 0x02D22080
  | .chanRefresh _ => setBits r.tableReset 16 16 (if part.big then 180 else 120)
  | .chanMap _ j => j
  | .chanStatus _ i => if i < 32 then i * 8 else 1
  | .portState p => setBits r.tableReset 37 4 p
  | .portLane _ l => if l < 34 then l * 4 else 1
  | .ctlDisc p => setBits r.tableReset 5 4 p
  | .siteMap _ s => if s < 32 then physAtDelivery s else 0
  | .siteCore _ c => siteCoreReset c
  | .secStatus => r.tableReset
  | .pwrAvs d => setBits (setBits r.tableReset 0 12 (Config.voutMv d).toNat) 12 12 (Config.vminMv d).toNat
  | .idDie d =>
    d + dieType d * 0x100 + 0x210000 + 0x1F2D * 0x100000000 + (0x2001 + dieType d) * 0x1000000000000
  | .idSerial d => (Config.dieSerial d).toNat
  | .glbPart =>
    (if part.big then (if part.guest then 0x1801 else 0x1800) else (if part.guest then 0x0901 else 0x0900))
      + (if part.big then 0x12 else 0x09) * 0x10000 + b2n part.guest * 0x1000000 + 0x21 * 0x100000000
  | .glbSerial => Config.moduleSerial.toNat
  | _ => r.tableReset

end Sys2Proof.Machine
end

