-- ==== Sys2Proof/Machine/State.lean ====
section
/-!
DEFINITION. The state of the module: every register (one store keyed by device address), every memory, and the state
behind them that the chapters name (queues, records, calendars, timers), as plain data; the queue of waiting commands;
the state right after power-on; and the reasons a step can stop.
-/
namespace Sys2Proof.Machine

/-! ### Events (12_reliability.md) -/

/-- An event record before it is packed (R294). -/
structure EvRec where
  time : Nat
  die : Nat
  unit : Nat
  code : Nat
  severity : Nat
  context : Nat
  detail : Nat
  deriving DecidableEq, Repr

/-- An open coalescing millisecond of one code and unit (R296). -/
structure Coal where
  code : Nat
  die : Nat
  unit : Nat
  opened : Nat
  count : Nat
  first : Nat
  context : Nat
  deriving DecidableEq, Repr

/-- Event machinery: records held for 2 µs, the ring of 4,096, open coalescing windows, the 32 records kept through a
warm reset, and when each path last raised EV_EVENTS_LOST (R295, R296, R309). -/
structure EventSt where
  held : List EvRec
  ring : Sp Word
  coal : List Coal
  kept : List Word
  lostAt : Sp (Option Nat)
  deriving DecidableEq, Repr

def EventSt.init : EventSt := ⟨[], [], [], [], []⟩

/-! ### Machine time (02_machine_time.md) -/

/-- A timestamp set this port sent: its number and its send time in units of 2⁻¹⁶ ns (R28). -/
structure SentSet where
  seq : Nat
  at16 : Nat
  deriving DecidableEq, Repr

/-- Per-port exchange state. Offsets in units of 2⁻¹⁶ ns. -/
structure PortTime where
  nextSeq : Nat
  sent : List SentSet
  lastRxSeq : Nat
  lastRxAt : Nat
  samples : List Int
  nbHops : Nat
  nbRoot : Bool
  nbHoldover : Bool
  overRun : Nat
  lastSetSlot : Nat
  deriving DecidableEq, Repr

def PortTime.init : PortTime := ⟨0, [], 0, 0, [], 63, false, false, 0, 0⟩

/-- The machine-time block: the counter in units of 2⁻⁴⁰ ns (R24), and what the control law holds between updates.
`integ` is in units of 2⁻⁶⁴ ns per ns; `ppsErr` is pps_error in units of 2⁻¹⁶ ns; `ppsLost` says that edges are accepted again only
after R35's five. -/
structure TimeSt where
  mtc : BitVec 104
  integ : Int
  stepped : Bool
  everContrib : Bool
  lockCount : Nat
  lastContrib : Nat
  holdSince : Option Nat
  holdRaised : Bool
  noRootSince : Nat
  otherOscBad : Bool
  bothOscBad : Bool
  ppsLast : Option Nat
  ppsGood : Nat
  ppsLost : Bool
  ppsErr : Int
  pendingTod : Option Nat
  ports : Sp PortTime
  deriving DecidableEq, Repr

def TimeSt.init : TimeSt :=
  ⟨0, 0, false, false, 0, 0, none, false, 0, false, false, none, 0, false, 0, none, []⟩

/-! ### Scheduled events and disruptive commands (02, 11, 12, 13) -/

/-- A verified disruptive command waiting for its instant (R19, R44): the table entry it holds (32: none, in a state whose
table takes no entry), its instant, its sequence number, when it was verified, its type, its payload, and whom its reply goes to. -/
structure Placed where
  entry : Nat
  inst : Nat
  seq : Nat
  verified : Nat
  ctype : Nat
  payload : List Byte
  auth : Nat
  reqId : Nat
  deriving DecidableEq, Repr

/-- The table's latched instants (R44) and the placed commands. -/
structure SchedSt where
  inst : Sp Nat
  placed : List Placed
  deriving DecidableEq, Repr

/-! ### Cores (03 to 07) -/

/-- A frame of the loop stack: first instruction and length of the body, count and index (R147). -/
structure LoopFrame where
  start : Nat
  len : Nat
  count : Nat
  idx : Nat
  deriving DecidableEq, Repr

/-- A frame of the branch stack: first instruction and end of arm A, and the join (R148). -/
structure BrFrame where
  start : Nat
  endA : Nat
  join : Nat
  deriving DecidableEq, Repr

/-- A WAITQ in progress (R150), with the cycle of the segment up to which its slip has been counted (R165). -/
structure WaitQ where
  queue : Nat
  count : Nat
  deadline : Nat
  counted : Nat
  deriving DecidableEq, Repr

/-- A context slot (R93 to R95, R99, R138, R156). Scalars by number; predicates by number; vector lane l of Vn at key
128 n + l, with the poison of R111 beside it; masks as lane bits; the flag set in VEC_FLAGS order. -/
structure Ctx where
  s : Sp Quad
  sPoison : List Nat
  p : Sp Bool
  pPoison : List Nat
  v : Sp (BitVec 32)
  vPoison : List Nat
  k : Sp Nat
  kPoison : List Nat
  vl : Nat
  flags : Nat
  deriving DecidableEq, Repr

/-- The first state of a logical context (R155). -/
def Ctx.init : Ctx := ⟨[], [], [], [], [], [], [], [], 0, 0⟩

/-- Running sums of an operation (R75 to R87): whether INT32, the extent, the rows of 32-bit sums, the tile's flag set (invalid 1, overflow
2, nonfinite-input 4, int_sat 8), and whether the results are poisoned. -/
structure AccTile where
  int : Bool
  rows : Nat
  cols : Nat
  vals : List (List Nat)
  flags : Nat
  poison : Bool
  deriving DecidableEq, Repr

/-- What an accumulator set or tile holds (R82, R84): its 64 × 64 running sums and the poisoned ones, sum (i, j) at 64 i + j, and the
flags of the operation that wrote it last. A sum not written since the set last drained is a free value, drawn from `drained` on (log
entry 124); since reset it is 0. -/
structure AccSet where
  vals : Sp (Option Nat)
  bad : List Nat
  flags : Nat
  drained : Option Nat
  deriving DecidableEq, Repr

def AccSet.init : AccSet := ⟨[], [], 0, none⟩

/-- A matrix operation in progress (R72, R81): its sums and what it delivers when it completes. `dst` is acc_dst; `out` the
place of the output or spill; `desc` and `tile` the conversion; `start` its issue cycle, counted from machine time 0, `total` its cycles,
`runs` the stretches of them (offset, length) with a valid product, `drain` the offset at which its results need the output path and for how
many cycles (R83 to R85, R89); `dataflow` and `cls` as MAT_STATUS shows them. An operation of a guarded-off MOP runs on bubbles and is not
`counted` (R143). -/
structure MatJob where
  sums : AccTile
  aborted : Bool
  written : Bool
  dst : Nat
  set : Nat
  out : Option Nat
  outAddr : Nat
  desc : Nat
  tile : Nat
  macs : Nat
  start : Nat
  total : Nat
  runs : List (Nat × Nat)
  drain : Nat × Nat
  dataflow : Nat
  cls : Nat
  counted : Bool
  deriving DecidableEq, Repr

/-- The report of one tile to the scale table (R115, R126, R133). -/
structure ScaleReport where
  tid : Nat
  captured : Bool
  amax : Nat
  nonfinite : Bool
  vanished : Nat
  nonzero : Nat
  deriving DecidableEq, Repr

/-- One core: its place in the segment, its stacks, queues (completions, and those of them with aborted status), engines and slots, the
segment and release that a held core waits to open, the cache halves that a poisoned fill left invalid. Of the matrix engine: the
cycle from which its output path is free, the cycle up to which its counters have counted, and the core's waits (first cycle, cycle past
the last, stall cause) that an operation may be outstanding across; these cycles count from machine time 0. Registers that the core block
shows live in the register store. -/
structure CoreSt where
  relNs : Nat
  cyc : Nat
  arrived : Option Nat
  loops : List LoopFrame
  brs : List BrFrame
  qcnt : Sp Nat
  qaborted : Sp Nat
  waitq : Option WaitQ
  opening : Option (Nat × Nat)
  lateInj : Bool
  draining : Bool
  badHalves : List Nat
  mats : List MatJob
  acc : Sp AccSet
  ctx0 : Ctx
  ctx1 : Ctx
  consumed : List Nat
  outFree : Nat
  matCounted : Nat
  waits : List (Nat × Nat × Nat)
  deriving DecidableEq, Repr

def CoreSt.init : CoreSt :=
  ⟨0, 0, none, [], [], [], [], none, none, false, false, [], [], [], Ctx.init, Ctx.init, [], 0, 0, []⟩

/-- The votes of the attempt (R151, R249): frozen after T_vote; what arose after it is held for the next attempt. Cores
are keyed cd × 32 + site. -/
structure VoteSt where
  frozen : Bool
  modFail : Bool
  heldModFail : Bool
  heldVote : Sp Nat
  heldHw : List Nat
  nonfinite : Bool
  linkLost : Bool
  deriving DecidableEq, Repr

def VoteSt.init : VoteSt := ⟨false, false, false, [], [], false, false⟩

/-! ### Fabric and memory (08) -/

/-- A 2 MiB region's write generation and in-flight count (R176). Keyed by region, staging from 2²⁰ up. -/
structure RegionSt where
  gen : BitVec 16
  inFlight : Nat
  deriving DecidableEq, Repr

/-- A DMA or prefetch in progress: core, kind, whether it reads through the near cache, core-side place, device address, destination and
words; `due` is when its crossbar claim has passed (R172). `id` tells its memory
requests from those of the core's other transfers. -/
structure Xfer where
  id : Nat
  core : Nat
  kind : Nat
  cached : Bool
  home : Nat
  dev : Nat
  dst : Nat
  words : Nat
  due : Nat
  aborted : Bool
  deriving DecidableEq, Repr

/-- A checked prefetch that waits for its check (R178): the transfer, the sample after its last word once that is read, and the anchors
left until the check. -/
structure PrefCheck where
  id : Nat
  core : Nat
  status : Nat
  region : Nat
  gen0 : Nat
  gen1 : Option Nat
  busy0 : Bool
  anchors : Nat
  deriving DecidableEq, Repr

/-- Lanes of a port, or a bank walk of the staging memory, that a transfer in progress uses (R168, R172, R175): the resource, the first
lane or bank and how many, the first and past the last instant in thousandths of a clock cycle, the requesting core, and what it
delivers: a place and its words, or a transfer. `step` is how many banks the walk moves on each cycle (0 for lanes). -/
structure LaneUse where
  res : Nat
  lane : Nat
  lanes : Nat
  step : Nat
  start : Nat
  stop : Nat
  core : Nat
  place : Nat
  words : Nat
  xfer : Option Nat
  deriving DecidableEq, Repr

/-- A gather request that holds a slot (R180). -/
structure GathReq where
  slot : Nat
  elem : Nat
  addr : Nat
  bank : Nat
  issued : Bool
  issuedAt : Nat
  deriving DecidableEq, Repr

/-- A gather stream (R179): its descriptor and issuing core, elements allocated and written so far, slots held. -/
structure Stream where
  core : Nat
  slotCtx : Nat
  desc : Word
  next : Nat
  done : Nat
  aborted : Bool
  reqs : List GathReq
  deriving DecidableEq, Repr

/-- A gather engine: its queue of streams, the front one running, its stall cause and the instant from which it counts (R183). -/
structure GathSt where
  streams : List Stream
  fenced : Bool
  draining : Bool
  releaseAtAnchor : Bool
  cause : Nat
  since : Nat
  deriving DecidableEq, Repr

def GathSt.init : GathSt := ⟨[], false, false, false, 0, 0⟩

/-- A near-cache line: its address ÷ 256 and its use stamp (larger is newer); data as the words it was filled with. -/
structure NcLine where
  line : Nat
  stamp : Nat
  words : List MWord
  deriving DecidableEq, Repr

/-- A near-cache miss that waits for its fill: line and the lookups (ports) that wait. `served` of a near cache are lookups answered and
not yet taken by the read that made them: port, line, and whether the words came poisoned. -/
structure NcMiss where
  line : Nat
  ports : List Nat
  deriving DecidableEq, Repr

structure NCacheSt where
  lines : List NcLine
  misses : List NcMiss
  served : List (Nat × Nat × Bool)
  clock : Nat
  flushAtAnchor : Bool
  deriving DecidableEq, Repr

def NCacheSt.init : NCacheSt := ⟨[], [], [], 0, false⟩

/-- What a held memory request serves: a transfer, the host (R334), the guest (R324). -/
inductive MemFor where
  | xfer (id : Nat) | host | guest
  deriving DecidableEq, Repr

/-- A memory request held for its owner's window (R192). -/
structure MemReq where
  owner : Nat
  addr : Nat
  words : Nat
  write : Bool
  data : List MWord
  serves : MemFor
  off : Nat
  heldAt : Nat
  deriving DecidableEq, Repr

/-- A memory-interface die: held requests of its channels, the 16-entry repair list, and the channel migration under
way: (logical, old physical, new physical), and the end of the refresh of every channel at a step of the MTC (R193). -/
structure MdSt where
  repair : List Nat
  migrating : Option (Nat × Nat × Nat)
  refreshEnd : Nat
  deriving DecidableEq, Repr

def MdSt.init : MdSt := ⟨[], none, 0⟩

/-! ### Stavelink (09) -/

/-- A packet in a queue (R223): its router-arrival order is its place in the list. `due` is the due time of R228 when it
has reached the head; `injected` marks a packet of this module; `inPort` is its input as 8 × physical port + VC (port 10: the hub,
11: the other link die); `at_` is the instant at which it entered the queue. -/
structure QPkt where
  pkt : RawPacket
  outLogical : Nat
  vc : Nat
  due : Option Nat
  injected : Bool
  inPort : Nat
  at_ : Nat
  deriving DecidableEq, Repr

/-- A packet delivered by router `ld`, in its input's buffer until link remote service takes it to its unit (R197, R213). -/
structure InPkt where
  ld : Nat
  inPort : Nat
  pkt : RawPacket
  deriving DecidableEq, Repr

/-- A packet that waits for link remote service to take it to router `ld` (R197): from the hub (`hub`), to be routed or for one
port's neighbour, or from the other link die, for logical port `out`. -/
structure CrossPkt where
  ld : Nat
  hub : Bool
  out : Option Nat
  pkt : RawPacket
  inPort : Nat
  injected : Bool
  deriving DecidableEq, Repr

/-- A lane replacement under way (R204): the failed lane, the spare, the cause, and the codeword of the switch once it is agreed. -/
structure Sparing where
  failed : Nat
  spare : Nat
  cause : Nat
  cw : Option Nat
  deriving DecidableEq, Repr

/-- A pending PORT_CTRL action (R202): action code, instant, and whether the peer asked. -/
structure CtrlAct where
  action : Nat
  instant : Nat
  deriving DecidableEq, Repr

/-- A received HELLO, reduced to what settles a peer (R273). -/
structure HelloKey where
  major : Nat
  minor : Nat
  coord : Nat
  lport : Nat
  fpr : Nat
  deriving DecidableEq, Repr

/-- Authentication of one port's peer (R318, R319): own nonce outstanding, when it was sent, challenges sent, first. -/
structure AuthSt where
  nonce : Option Nat
  sentAt : Nat
  tries : Nat
  startAt : Nat
  deriving DecidableEq, Repr

def AuthSt.init : AuthSt := ⟨none, 0, 0, 0⟩

/-- One physical port. `calStart` is the instant of cycle 0 of its calendar program and `txEnd` that at which the packet being sent
ends, both in femtoseconds (R218); `txLanes` are the physical
lanes on which it sends, in logical order (R195, R204); `retired` marks a port whose standby has taken over (R210). -/
structure PortSt where
  present : Bool
  powered : Bool
  farEnd : Option Nat
  lockAt : Option Nat
  goodLanes : Nat
  hello : Option HelloKey
  waitHellos : Nat
  admitted : Bool
  undecided : Bool
  hold : Bool
  authBad : Bool
  auth : AuthSt
  linkCount : Nat
  nakPending : Bool
  pendLink : List (Nat × Nat)
  rxSeq : Nat
  txSeq : Nat
  ackSeq : Nat
  replay : List MWord
  nakWait : Bool
  outage : Option Nat
  vcFreed : Sp Nat
  vcReturned : Sp Nat
  queue : List QPkt
  rxSpares : List Sparing
  txSpares : List Sparing
  txLanes : List Nat
  act : Option CtrlAct
  ownLeave : Option Nat
  peerLeave : Option Nat
  closedOut : List Nat
  draining : Bool
  lastHello : Nat
  calStart : Nat
  txEnd : Nat
  permuted : Bool
  deferAdmit : Bool
  retired : Bool
  inj : Bool
  deriving DecidableEq, Repr

def PortSt.init : PortSt :=
  { present := false, powered := false, farEnd := none, lockAt := none, goodLanes := 0, hello := none,
    waitHellos := 0, admitted := false, undecided := false, hold := false, authBad := false, auth := AuthSt.init,
    linkCount := 0, nakPending := false, pendLink := [], rxSeq := 0, txSeq := 0, ackSeq := 0,
    replay := [], nakWait := false, outage := none, vcFreed := [], vcReturned := [], queue := [],
    rxSpares := [], txSpares := [], txLanes := [], act := none, ownLeave := none, peerLeave := none,
    closedOut := [], draining := false, lastHello := 0,
    calStart := 0, txEnd := 0, permuted := false, deferAdmit := false, retired := false, inj := false }

/-- A standby takeover agreed for a logical port: failed physical, standby physical, T_take (R210). -/
structure Take where
  logical : Nat
  failed : Nat
  standby : Nat
  at_ : Nat
  deriving DecidableEq, Repr

/-- One injection limiter (R230): tokens in sixty-fourths of a word at the word rate, last fill and last halving. -/
structure Limiter where
  tokens : Nat
  filledAt : Nat
  halvedAt : Option Nat
  steppedAt : Nat
  deriving DecidableEq, Repr

/-- A router: the ECHO triples already sent (kept on router 0 for the module), whether a data packet was dropped in
the step, and whether it still routes in a refused epoch (R225 to R229). -/
structure RouterSt where
  echoed : List (Nat × Nat × Nat × Nat)
  dropped : Bool
  refusedSwitch : Bool
  limiters : Sp Limiter
  deriving DecidableEq, Repr

def RouterSt.init : RouterSt := ⟨[], false, false, []⟩

/-! ### Collectives and the commit (10) -/

/-- A collective in progress on a logical channel: its descriptor, its invocation, the anchors left to its deadline, the
stage in progress, FP32 values it holds (stage results, line partials, direct contributions), per-flow counts of elements
and words received and of words sent, the signals received and sent, and packets that wait for an earlier stage or for the
channel's binding. -/
structure CollRun where
  core : Nat
  desc0 : Word
  desc1 : Word
  invocation : Nat
  anchorsLeft : Nat
  stage : Nat
  vals : Sp (BitVec 32)
  got : Sp Nat
  words : Sp Nat
  sentW : Sp Nat
  sigs : Sp (Option Nat)
  sigSent : List Nat
  held : List RawPacket
  flags : Nat
  fallback : Bool
  suspended : Bool
  started : Bool
  deriving DecidableEq, Repr

/-- The journal group (R254) as fields. -/
structure Journal where
  step : Nat
  attempt : Nat
  phase : Nat
  active : Nat
  ownVote : Nat
  outcome : Nat
  inDoubt : Bool
  tFlip : Nat
  shards : Nat
  bitmap : List Nat
  deriving DecidableEq, Repr

def Journal.init : Journal := ⟨0, 0, 0, 0, 0, 0, false, 0, 0, []⟩

/-- A line notice to apply at a step start (R247). -/
structure LineNote where
  axis : Nat
  k : Nat
  instant : Nat
  deriving DecidableEq, Repr

/-- The collective engine and commit state: runs by logical channel, invocation counts, the barrier's stage and the votes
kept by (stage, position), doubt, answers, line notices, and the norm accumulation of R135. -/
structure CollSt where
  runs : Sp (Option CollRun)
  invoc : Sp Nat
  fencedCh : List Nat
  drainCh : List Nat
  releaseCh : List Nat
  stage : Nat
  barrierOn : Bool
  value : Nat
  votes : List (Nat × Nat × Nat)
  early : List (Nat × Nat × Nat × Nat × Nat)
  complete : Bool
  answer : Option Nat
  doubtSince : Nat
  notes : List LineNote
  failedLinks : Sp Nat
  jcopy : Option Journal
  abortedShard : List Nat
  normSum : BitVec 64
  normFlags : Nat
  lastQuery : Nat
  voteId : Nat
  deriving DecidableEq, Repr

def CollSt.init : CollSt :=
  { runs := [], invoc := [], fencedCh := [], drainCh := [], releaseCh := [], stage := 0, barrierOn := false, value := 0,
    votes := [], early := [], complete := false, answer := none, doubtSince := 0, notes := [], failedLinks := [],
    jcopy := none, abortedShard := [], normSum := 0, normFlags := 0, lastQuery := 0, voteId := 0 }

/-! ### Images and jobs (07, 10, 11) -/

/-- A segment-table entry (R152). -/
structure Seg where
  anchorNs : Nat
  cycles : Nat
  block : Nat
  c0 : Nat
  c1 : Nat
  removable : Bool
  lull : Bool
  ballast : Bool
  prologue : Bool
  guardNs : Nat
  powerW : Nat
  ballastW : Nat
  deriving DecidableEq, Repr

/-- A code-directory entry (section 0x0002). -/
structure CodeDir where
  block : Nat
  cd : Nat
  site : Nat
  off : Nat
  len : Nat
  deriving DecidableEq, Repr

/-- A tensor declaration (R158). -/
structure Tensor where
  tid : Nat
  fmt : Nat
  sgn : Bool
  layout : Nat
  grad : Bool
  master : Bool
  tileScaled : Bool
  readOnly : Bool
  scaleEntry : Bool
  histLen : Nat
  margin : Nat
  xInit : Nat
  elemAddr : Nat
  scaleAddr : Nat
  extents : List Nat
  deriving DecidableEq, Repr

/-- A memory-channel window (R191), instants in ns from its step or T_start. -/
structure Window where
  start : Nat
  len : Nat
  first : Nat
  count : Nat
  prologue : Bool
  owner : Nat
  deriving DecidableEq, Repr

/-- A network calendar entry (R173). -/
structure NetEnt where
  start : Nat
  len : Nat
  die : Nat
  src : Nat
  dst : Nat
  srcLane : Nat
  dstLane : Nat
  lanes : Nat
  kind : Nat
  owner : Nat
  deriving DecidableEq, Repr

/-- A crossbar calendar entry (R171). -/
structure XbarEnt where
  start : Nat
  len : Nat
  src : Nat
  dst : Nat
  srcLane : Nat
  dstLane : Nat
  lanes : Nat
  kind : Nat
  owner : Nat
  deriving DecidableEq, Repr

/-- A segment record: the calendar entries of one segment (R173). -/
structure CalRec where
  net : Nat
  netN : Nat
  xbar : Nat
  xbarN : Nat
  deriving DecidableEq, Repr

/-- A scheduled-event entry of the image (R45). -/
structure SchedImg where
  offset : Nat
  action : Nat
  prologue : Bool
  repeats : Bool
  arg : Nat
  deriving DecidableEq, Repr

/-- A shard (R252), a channel binding (R258), a line variant (R258), a grid variant (R303), a topology tolerance (R282). -/
structure Shard where
  off : Nat
  len : Nat
  seg : Nat
  deriving DecidableEq, Repr

structure Binding where
  seg : Nat
  lchan : Nat
  pchan : Nat
  bind : Bool
  deriving DecidableEq, Repr

structure LineVar where
  axis : Nat
  k : Nat
  n : Nat
  off : Nat
  deriving DecidableEq, Repr

structure Toler where
  coord : Nat
  any : Bool
  mask : Nat
  deriving DecidableEq, Repr

/-- The armed job, as the image declares it. -/
structure Job where
  imageAddr : Nat
  words : Nat
  stepNs : Nat
  prologueNs : Nat
  tStart : Nat
  segs : List Seg
  code : List CodeDir
  tensors : List Tensor
  windows : List Window
  net : List NetEnt
  xbar : List XbarEnt
  calRecs : List CalRec
  sched : List SchedImg
  shards : List Shard
  bindings : List Binding
  lines : List LineVar
  reduceSeg : Nat
  prepareSeg : Nat
  voteSeg : Nat
  voteWindow : Nat
  slotA : Nat
  slotB : Nat
  slotLen : Nat
  scaleOff : Nat
  chanRec : Nat
  part0 : Word
  part1 : Word
  spreadPpm : Nat
  vcPrograms : List (List (Nat × Nat))
  vcIndex : List (List Nat)
  roOff : Nat
  stepLists : List (Nat × Nat × Nat)
  deriving DecidableEq, Repr

/-- A context swap of one core's slot in progress (R155): outgoing logical context, if one was bound, and the incoming one,
which is fresh the first time it is bound; the release at which it began. -/
structure Swap where
  core : Nat
  slot : Nat
  out : Option Nat
  inc : Nat
  fresh : Bool
  rel : Nat
  deriving DecidableEq, Repr

/-- Where the armed job stands: the anchor next released (segment index), the step's number since T_start and its start
instant, what the control cluster holds for the attempt (R152, R351), the arm record whose image is being pulled, with
when the pull began (R281), and the segments whose calendars may still play, with their releases (R171, R172). -/
structure RunSt where
  job : Option Job
  pulling : Option (Nat × List Byte)
  seg : Nat
  lastRel : Nat
  stepStart : Nat
  removed : List Nat
  heldAttempt : Bool
  stopAt : Option Nat
  lullEnd : Option Nat
  stopped : Bool
  k : Nat
  imgPlaced : List (Nat × Nat)
  bound : List Nat
  swaps : List Swap
  rels : List (Nat × Nat)
  deriving DecidableEq, Repr

def RunSt.init : RunSt := ⟨none, none, 0, 0, 0, [], false, none, none, false, 1000, [], [], [], []⟩

/-! ### Scale table (06) -/

/-- One bank's entry of the scale table (R125, R129): the ring's slots, how many hold a maximum, and the next to write. -/
structure ScaleEnt where
  fmt : Nat
  sgn : Bool
  valid : Bool
  hist : Nat
  margin : Nat
  grad : Bool
  x : Int
  ring : Sp Nat
  count : Nat
  head : Nat
  deadRun : Nat
  coldLeft : Nat
  vanished : Nat
  nonzero : Nat
  deriving DecidableEq, Repr

def ScaleEnt.init : ScaleEnt := ⟨0, false, false, 16, 0, false, 0, [], 0, 0, 0, 0, 0, 0⟩

/-- A tensor's pending set (R126, R133). -/
structure PendSet where
  captured : Bool
  amax : Nat
  nonfinite : Bool
  vanished : Nat
  nonzero : Nat
  deriving DecidableEq, Repr

def PendSet.init : PendSet := ⟨false, 0, false, 0, 0⟩

/-- The scale table: two banks, pending and latched sets, reports on their way to the hub, the entries the running rebuild
has reached (its tensor ids), the tensors whose first rescale of the step is recorded, and the start of PREPARE while its latch is awaited
(R119, R125 to R128). -/
structure ScaleSt where
  bank0 : Sp ScaleEnt
  bank1 : Sp ScaleEnt
  pending : Sp PendSet
  latched : Option (Sp PendSet)
  reports : List ScaleReport
  rebuilt : List Nat
  rescaled : List Nat
  boundary : Option Nat
  deriving DecidableEq, Repr

def ScaleSt.init : ScaleSt := ⟨[], [], [], none, [], [], [], none⟩

/-! ### Reliability (12) -/

/-- A unit in a self-test queue: die, unit, test kind, what is tested, and its error count (R297). -/
structure StUnit where
  die : Nat
  unit : Nat
  kind : Nat
  arg : Nat
  errors : Nat
  deriving DecidableEq, Repr

/-- A running self-test. -/
structure StRun where
  unit : StUnit
  started : Nat
  deriving DecidableEq, Repr

/-- A fence of a core site in progress (R301): site key, spare physical core (36: none), ordered by command, copy end. -/
structure Fence where
  cd : Nat
  site : Nat
  spare : Nat
  ordered : Bool
  stage : Nat
  copyEnd : Nat
  deriving DecidableEq, Repr

/-- A drain in progress (R304): function kind, unit, when it started, and why: 0 fence, 1 stop, 2 expel. -/
structure Drain where
  kind : Nat
  unit : Nat
  since : Nat
  why : Nat
  deriving DecidableEq, Repr

/-- An armed injection (R292): the die block it was armed in and its remaining firings. -/
structure Inject where
  block : Nat
  det : Nat
  die : Nat
  unit : Nat
  left : Nat
  arg : Nat
  deriving DecidableEq, Repr

/-- A test of a unit that passed, and when (R299). -/
structure Transient where
  die : Nat
  unit : Nat
  kind : Nat
  arg : Nat
  at_ : Nat
  deriving DecidableEq, Repr

/-- A spared row group's 64-row block: die, unit, bank and block (R300 row 2). -/
structure RowBlock where
  die : Nat
  unit : Nat
  bank : Nat
  block : Nat
  deriving DecidableEq, Repr

/-- A failed die-to-die lane that its interface's ends are to switch: the die that saw it, the die at the far end, the lane, its spare (R300). -/
structure LaneSwap where
  die : Nat
  far : Nat
  lane : Nat
  spare : Nat
  deriving DecidableEq, Repr

/-- Reliability state: the self-test queues and running tests; the close of the open self-test window; transients; fences and
deferred fences; drains; armed injections and the words they altered; the end of maintenance; spent row-group spares and staging blocks past them;
die-to-die spares spent, switches that wait for an anchor, and lanes past them; dies whose control-core spare is in use and
the control cores lost; and when the last status message went (R293 to R308). -/
structure RasSt where
  queues : Sp (List StUnit)
  running : Sp (Option StRun)
  window : Option Nat
  transients : List Transient
  fences : List Fence
  deferred : List Fence
  drains : List Drain
  injects : List Inject
  injWords : List Nat
  maintUntil : Option Nat
  rowSpares : List RowBlock
  deadBlocks : List RowBlock
  d2dSpares : Sp Nat
  d2dSwitch : List LaneSwap
  ctlLost : List (Nat × Nat)
  lastStatus : Nat
  deriving DecidableEq, Repr

def RasSt.init : RasSt := ⟨[], [], none, [], [], [], [], [], [], none, [], [], [], [], [], 0⟩

/-! ### Power and thermal (15) -/

/-- Power and thermal: the written limit in effect and whether a newer one waits for an anchor (R20, R350); the thermal
levels in force and when each began to be clear (R357); the trip being settled and the state it came from (R358); when each
die's rail last stepped down (R354); phases lost and last readings per rail (R300, R353); sensor pairs that differ. -/
structure PowerSt where
  limitNow : Nat
  limitPending : Bool
  levels : List Nat
  clear : Sp Nat
  tripAt : Option Nat
  tripFrom : Nat
  avsDown : Sp Nat
  phasesLost : Sp Nat
  rails : Sp (Nat × Nat × Int)
  mismatched : List (Nat × Nat)
  deriving DecidableEq, Repr

def PowerSt.init : PowerSt := ⟨5000, false, [], [], none, 0, [], [], [], []⟩

/-! ### Security, host and management (13, 14) -/

/-- A measurement-log entry (R313). -/
structure LogEntry where
  kind : Nat
  seq : Nat
  mtc : Nat
  digest : BitVec 256
  deriving DecidableEq, Repr

/-- A transaction admitted by rule `rule` that waits for rate tokens (R327). -/
structure GuestWait where
  txn : GuestTxn
  rule : Nat
  deriving DecidableEq, Repr

/-- A rule's token bucket (R327): tokens in thousandths of a word, and when it was last filled. -/
structure Bucket where
  tokens : Nat
  at_ : Nat
  deriving DecidableEq, Repr

/-- The security block and the firewall: the measurement log and its chain, the anchor key K_m, the expiry of a debug
unlock, denials in the window, token buckets and waiting transactions, the held TAP instruction, and a rollback floor to
burn at READY (R311 to R329). -/
structure SecSt where
  log : List LogEntry
  chain : BitVec 256
  logNext : Nat
  km : BitVec 256
  dbgExpiry : Nat
  denials : List Nat
  buckets : Sp Bucket
  waiting : List GuestWait
  tapIr : Nat
  burnFloor : Option Nat
  deriving DecidableEq, Repr

def SecSt.init : SecSt := ⟨[], 0, 0, 0, 0, [], [], [], 0, none⟩

/-- The CXL side (R330 to R336): decoder base, reset input, step of the last hold-expiry event, vectors with merged causes,
when each vector was last sent, when the descriptor in progress began, the link held down by a fence (R308), and DVSEC Range 1 Size
as the last link-up read it (R332). -/
structure HostSt where
  hdmBase : Nat
  perst : Bool
  holdReport : Option Nat
  msixPending : List Nat
  msixSent : Sp (Option Nat)
  pullBusy : Option Nat
  fenced : Bool
  range1 : Nat
  deriving DecidableEq, Repr

def HostSt.init : HostSt := ⟨0, false, none, [], [], none, false, 0⟩

/-- A management message in reassembly (R338). -/
structure Reasm where
  sender : BitVec 128
  requestId : BitVec 64
  mtype : Nat
  length : Nat
  segs : Nat
  since : Nat
  parts : Sp (List Byte)
  deriving DecidableEq, Repr

/-- A request that came relayed, until its reply goes back: authority, request and the coordinate that relayed it (R340). -/
structure RelayEnd where
  auth : BitVec 8
  requestId : BitVec 64
  coord : Nat
  deriving DecidableEq, Repr

/-- The management side: messages in reassembly, the staging buffers of R342 and what LOAD_COMMIT marked ready, a region
write in progress, the I3C dynamic address; requests that came relayed, and requests that the module relayed on with the senders that their
replies go back to (R340). -/
structure MgmtSt where
  reasm : List Reasm
  fwBuf : Sp Byte
  planBuf : Sp Byte
  fwReady : Option Nat
  planReady : Option Nat
  writing : Option (Bool × Nat)
  i3cAddr : Option Nat
  relayFrom : List RelayEnd
  relays : List (BitVec 64 × BitVec 128)
  deriving DecidableEq, Repr

def MgmtSt.init : MgmtSt := ⟨[], [], [], none, none, none, none, [], []⟩

/-- Inputs that hold the module (R390 to R392): HOLD_N, WARM_RST_N and COLD_RST_N asserted (HOLD_N is asserted after power-on:
log entry 2), a start-up trip that must clear first (R358), a start on the warm path and the state that the reset found
(R260, R306), and the expelled condition (R260). -/
structure RstSt where
  holdN : Bool
  warmHeld : Bool
  coldHeld : Bool
  tripHold : Bool
  warmPath : Bool
  fromState : Nat
  expelled : Bool
  deriving DecidableEq, Repr

def RstSt.init : RstSt := ⟨true, false, false, false, false, 0, false⟩

/-! ### Outputs -/

/-- What the module puts out: completions, link words, packets, messages, interrupts. A log, oldest first; the model's
own field, not the spec's. -/
inductive Out where
  | access (p : Path) (status : Nat) (value : Quad)
  | link (port : Nat) (word : Word)
  | resend (port : Nat) (word : MWord)
  | packet (port : Nat) (pkt : RawPacket)
  | message (dst : Nat) (mtype : Nat) (requestId : Nat) (status : Nat) (body : List Byte)
  | neighbourAdvert (target : BitVec 128)
  | echoReply (ident seq : BitVec 16) (data : List Byte)
  | msix (vector : Nat)
  | host (poison : Bool) (data : Word)
  | hostUr
  | mailbox (code : Nat) (body : List Byte)
  | guest (aperture ok : Bool) (words : List MWord)
  | doe (index : Nat) (body : List Byte)
  | i3c (body : List Byte)
  | tap (bits : Nat)
  | ctrl (port : Nat) (kind : Nat) (args : List Nat)
  | auth (port : Nat) (payload : List Word)
  | pullRead (hostAddr : Nat) (words : Nat)
  | pushWrite (hostAddr : Nat) (words : List MWord)
  | ncache (cd port : Nat) (hit : Bool)
  | relayed (peer : BitVec 128) (segment : List Byte)
  deriving DecidableEq, Repr

/-! ### The block -/

/-- Everything the module holds but its queue of commands. -/
structure Blk where
  part : Part
  regs : Sp Quad
  mem : List Host.Cell
  err : Sp (BitVec 32)
  flash : List Host.Cell
  ev : EventSt
  time : TimeSt
  sched : SchedSt
  cores : Sp CoreSt
  vote : VoteSt
  regions : Sp RegionSt
  xfers : List Xfer
  nextXfer : Nat
  claims : List LaneUse
  checks : List PrefCheck
  gath : Sp GathSt
  ncache : Sp NCacheSt
  memReqs : Sp (List MemReq)
  mds : Sp MdSt
  ports : Sp PortSt
  takes : List Take
  routers : Sp RouterSt
  inbox : List InPkt
  crossing : List CrossPkt
  coll : CollSt
  journal : Journal
  run : RunSt
  scale : ScaleSt
  ras : RasSt
  power : PowerSt
  sec : SecSt
  host : HostSt
  mgmt : MgmtSt
  rst : RstSt
  out : List Out
  freeCtr : Nat
  deriving DecidableEq, Repr

structure State where
  blk : Blk
  pending : List Instr
  deriving DecidableEq, Repr

/-- No command stops the machine with a fault: the spec answers every error with a status, an event or a state of its
own. -/
inductive Fault where
  deriving DecidableEq, Repr

/-- Raised only by an arm of `exec` whose meaning is not modelled (safe: nothing is claimed of the command). -/
inductive Refusal where
  | notModelled (mnemonic : String)
  deriving DecidableEq, Repr

/-- The block right after power-on, in STANDBY: every register at its reset value, memory and configuration memory blank
(log entries 1 and 2). -/
def Blk.init (part : Part) : Blk :=
  { part := part, regs := [], mem := [], err := [], flash := [], ev := EventSt.init, time := TimeSt.init,
    sched := ⟨[], []⟩, cores := [], vote := VoteSt.init, regions := [], xfers := [], nextXfer := 0, claims := [], checks := [],
    gath := [], ncache := [], memReqs := [], mds := [], ports := [], takes := [], routers := [], inbox := [], crossing := [],
    coll := CollSt.init, journal := Journal.init, run := RunSt.init, scale := ScaleSt.init, ras := RasSt.init,
    power := PowerSt.init, sec := SecSt.init, host := HostSt.init, mgmt := MgmtSt.init, rst := RstSt.init, out := [],
    freeCtr := 0 }

def State.reset : State := ⟨Blk.init .n09, []⟩

end Sys2Proof.Machine
end

