-- ==== Sys2Proof/Machine/Ops.lean ====
section
/-!
DEFINITION. The named operations over the module's state that the meanings share: registers and fields, machine time,
device state, events and votes, memory words, free values, outputs.
-/
namespace Sys2Proof.Machine

/-- A meaning's effect on everything but the queue. -/
def onBlk (s : State) (f : Blk → Blk) : Host.Outcome State Fault Refusal := .next { s with blk := f s.blk }

/-- Apply `f` if `c` holds. -/
def ifB {α : Type} (c : Bool) (f : α → α) (x : α) : α := if c then f x else x

/-! ### Registers -/

/-- What the register store holds for `r` (its reset value where nothing is listed). -/
def Blk.reg (b : Blk) (r : Reg) : Nat := (Sp.get (BitVec.ofNat 64 (r.reset b.part)) b.regs r.addr).toNat

def Blk.setReg (b : Blk) (r : Reg) (v : Nat) : Blk :=
  { b with regs := Sp.set (BitVec.ofNat 64 (r.reset b.part)) b.regs r.addr (BitVec.ofNat 64 v) }

/-- Value of a field. -/
def Blk.rd (b : Blk) (f : Fld) : Nat := bits (b.reg f.reg) f.lo f.w

/-- Set a field. -/
def Blk.wr (b : Blk) (f : Fld) (v : Nat) : Blk := b.setReg f.reg (setBits (b.reg f.reg) f.lo f.w v)

def Blk.wrB (b : Blk) (f : Fld) (v : Bool) : Blk := b.wr f (b2n v)

def Blk.on (b : Blk) (f : Fld) : Bool := b.rd f ≠ 0

/-- Signed value of a field. -/
def Blk.rdI (b : Blk) (f : Fld) : Int := sext f.w (b.rd f)

/-- A wrapping counter and a saturating counter. -/
def Blk.incBy (b : Blk) (f : Fld) (n : Nat) : Blk := b.wr f (b.rd f + n)
def Blk.satBy (b : Blk) (f : Fld) (n : Nat) : Blk := b.wr f (satur f.w (b.rd f + n))

/-! ### Updates of the parts of the state -/

def Blk.updEv (b : Blk) (f : EventSt → EventSt) : Blk := { b with ev := f b.ev }
def Blk.updTime (b : Blk) (f : TimeSt → TimeSt) : Blk := { b with time := f b.time }
def Blk.updSched (b : Blk) (f : SchedSt → SchedSt) : Blk := { b with sched := f b.sched }
def Blk.updVote (b : Blk) (f : VoteSt → VoteSt) : Blk := { b with vote := f b.vote }
def Blk.updColl (b : Blk) (f : CollSt → CollSt) : Blk := { b with coll := f b.coll }
def Blk.updRun (b : Blk) (f : RunSt → RunSt) : Blk := { b with run := f b.run }
def Blk.updScale (b : Blk) (f : ScaleSt → ScaleSt) : Blk := { b with scale := f b.scale }
def Blk.updRas (b : Blk) (f : RasSt → RasSt) : Blk := { b with ras := f b.ras }
def Blk.updPower (b : Blk) (f : PowerSt → PowerSt) : Blk := { b with power := f b.power }
def Blk.updSec (b : Blk) (f : SecSt → SecSt) : Blk := { b with sec := f b.sec }
def Blk.updHost (b : Blk) (f : HostSt → HostSt) : Blk := { b with host := f b.host }
def Blk.updMgmt (b : Blk) (f : MgmtSt → MgmtSt) : Blk := { b with mgmt := f b.mgmt }
def Blk.updRst (b : Blk) (f : RstSt → RstSt) : Blk := { b with rst := f b.rst }
def Blk.updJournal (b : Blk) (f : Journal → Journal) : Blk := { b with journal := f b.journal }

def Blk.port (b : Blk) (p : Nat) : PortSt := Sp.get PortSt.init b.ports p
def Blk.updPort (b : Blk) (p : Nat) (f : PortSt → PortSt) : Blk :=
  { b with ports := Sp.set PortSt.init b.ports p (f (b.port p)) }
def Blk.ptime (b : Blk) (p : Nat) : PortTime := Sp.get PortTime.init b.time.ports p
def Blk.updPtime (b : Blk) (p : Nat) (f : PortTime → PortTime) : Blk :=
  b.updTime fun t => { t with ports := Sp.set PortTime.init t.ports p (f (b.ptime p)) }
def Blk.router (b : Blk) (ld : Nat) : RouterSt := Sp.get RouterSt.init b.routers ld
def Blk.updRouter (b : Blk) (ld : Nat) (f : RouterSt → RouterSt) : Blk :=
  { b with routers := Sp.set RouterSt.init b.routers ld (f (b.router ld)) }
def Blk.md (b : Blk) (md : Nat) : MdSt := Sp.get MdSt.init b.mds md
def Blk.updMd (b : Blk) (md : Nat) (f : MdSt → MdSt) : Blk :=
  { b with mds := Sp.set MdSt.init b.mds md (f (b.md md)) }
/-- Gather engine e of compute die cd, keyed 4 cd + e. -/
def Blk.gathE (b : Blk) (ge : Nat) : GathSt := Sp.get GathSt.init b.gath ge
def Blk.updGath (b : Blk) (ge : Nat) (f : GathSt → GathSt) : Blk :=
  { b with gath := Sp.set GathSt.init b.gath ge (f (b.gathE ge)) }
def Blk.nc (b : Blk) (cd : Nat) : NCacheSt := Sp.get NCacheSt.init b.ncache cd
def Blk.updNc (b : Blk) (cd : Nat) (f : NCacheSt → NCacheSt) : Blk :=
  { b with ncache := Sp.set NCacheSt.init b.ncache cd (f (b.nc cd)) }
def Blk.region (b : Blk) (r : Nat) : RegionSt := Sp.get ⟨0, 0⟩ b.regions r
def Blk.updRegion (b : Blk) (r : Nat) (f : RegionSt → RegionSt) : Blk :=
  { b with regions := Sp.set ⟨0, 0⟩ b.regions r (f (b.region r)) }

/-- Add to a list used as a set. -/
def addNew {α : Type} [DecidableEq α] (l : List α) (x : α) : List α := if l.contains x then l else l ++ [x]

/-! ### Machine time -/

/-- MTC_NOW: whole nanoseconds (R24). -/
def Blk.now (b : Blk) : Nat := b.time.mtc.toNat / 2 ^ 40

/-- The counter in units of 2⁻¹⁶ ns. -/
def Blk.now16 (b : Blk) : Nat := b.time.mtc.toNat / 2 ^ 24

/-! ### Device state (R259) -/

def stOff : Nat := 0
def stStandby : Nat := 1
def stBoot : Nat := 2
def stSelftest : Nat := 3
def stTrain : Nat := 4
def stDiscover : Nat := 5
def stSync : Nat := 6
def stReady : Nat := 7
def stArmed : Nat := 8
def stRun : Nat := 9
def stDrain : Nat := 10
def stFenced : Nat := 11
def stRecovery : Nat := 12

def Blk.dstate (b : Blk) : Nat := b.rd CTL_STATE.state

/-- ARMED or RUN: the states in which RWL fields are locked (R7). -/
def Blk.locked (b : Blk) : Bool := b.dstate = stArmed ∨ b.dstate = stRun

def Blk.emit (b : Blk) (o : Out) : Blk := { b with out := b.out ++ [o] }

/-- A cause of an MSI-X vector (R336): it waits for the vector's next message. -/
def Blk.msix (b : Blk) (v : Nat) : Blk := b.updHost fun h => { h with msixPending := addNew h.msixPending v }

/-- An in-band interrupt of the I3C target, with its mandatory byte (R343). -/
def Blk.ibi (b : Blk) (m : Nat) : Blk := if b.mgmt.i3cAddr.isSome then b.emit (.i3c [BitVec.ofNat 8 m]) else b

/-- Enter a device state: CTL_STATE and the time of entry (R259), with what a state change raises (R336, R343). -/
def Blk.enter (b : Blk) (st : Nat) : Blk :=
  let c := (b.wr CTL_STATE.state st).setReg .ctlStateTime b.now
  if b.dstate = st then c else (c.msix 1).ibi 1

/-- Recompute the DEGRADED flag from the cause bits (R261). -/
def Blk.degrade (b : Blk) : Blk := b.wrB CTL_STATE.degraded (bits (b.reg .ctlState) 5 6 ≠ 0)

/-- Set or clear a cause bit of DEGRADED; a change raises vector 4 (R336). -/
def Blk.cause (b : Blk) (f : Fld) (v : Bool) : Blk :=
  let c := (b.wrB f v).degrade
  if b.on f = v then c else c.msix 4

/-- A fresh free value (log entry 9). -/
def Blk.fresh (b : Blk) : Word × Blk := (Config.freeWord b.freeCtr, { b with freeCtr := b.freeCtr + 1 })

/-! ### Votes (R151, R249) -/

/-- Key of a core: compute die and logical site. -/
def coreKey (c : CoreId) : Nat := c.cd.val * 32 + c.site.val

/-- A hardware condition on a core makes the module's vote fail; after the freeze it is held for the next attempt. -/
def Blk.hwFail (b : Blk) (core : Nat) : Blk :=
  if b.vote.frozen then
    b.updVote fun v => { v with heldHw := addNew v.heldHw core }
  else b.wr (SEQ_VOTE.hw_fail (core / 32) (core % 32)) 1

/-- A condition of no one core makes the module's vote fail. -/
def Blk.modFail (b : Blk) : Blk :=
  if b.vote.frozen then b.updVote fun v => { v with heldModFail := true }
  else b.updVote fun v => { v with modFail := true }

/-- Every core's key. -/
def allCores : List Nat := List.range 384

/-- The module's vote (R151): 2 fail, 1 skip, 0 commit. -/
def Blk.moduleVote (b : Blk) : Nat :=
  let vs := allCores.map fun k => b.reg (.seqVote (k / 32) (k % 32))
  if b.vote.modFail ∨ vs.any (fun v => bits v 10 1 = 1 ∨ bits v 0 2 = 2) then 2
  else if vs.any (fun v => bits v 0 2 = 1) then 1
  else 0

/-! ### Events (R294 to R297) -/

/-- Severity of an event code (12_reliability.md, and the chapters that own other codes). -/
def severity (code : Nat) : Nat :=
  match code with
  | 0x0101 | 0x0106 | 0x0204 | 0x0301 | 0x0302 | 0x0303 | 0x0304 | 0x0402 | 0x0403 | 0x0501 | 0x0504 | 0x0505
  | 0x0601 | 0x0802 | 0x0803 | 0x080A | 0x0901 => 3
  | 0x0102 | 0x0404 | 0x0502 | 0x0503 | 0x0703 | 0x0805 | 0x0806 | 0x0807 | 0x0808 | 0x0809 | 0x080D | 0x0902
  | 0x0A03 => 4
  | 0x0602 | 0x0701 | 0x0702 | 0x080B => 5
  | 0x0401 | 0x0704 | 0x0801 | 0x0906 => 1
  | 0x0201 | 0x0804 => 0
  | _ => 2

/-- Codes coalesced per code and unit (R296). -/
def coalesced (code : Nat) : Bool := code = 0x0401 ∨ code = 0x0801 ∨ code = 0x0A02 ∨ code = 0x0906 ∨ code = 0x0B03

/-- The 256-bit record (R294). -/
def EvRec.pack (e : EvRec) : Word :=
  BitVec.ofNat 256 (e.time % 2 ^ 64 + (e.die % 32) * 2 ^ 64 + (e.unit % 2 ^ 11) * 2 ^ 69 + (e.code % 2 ^ 16) * 2 ^ 80
    + (e.severity % 16) * 2 ^ 96 + (e.context % 16) * 2 ^ 100 + (e.detail % 2 ^ 152) * 2 ^ 104)

/-- Context bits (R294): armed or running, the core site's slot, maintenance, injected. -/
def Blk.evContext (b : Blk) (die unit : Nat) (inj : Bool) : Nat :=
  let slot := if 1 ≤ die ∧ die ≤ 12 ∧ unit < 32 then b.rd (SEQ_STATUS.ctx (die - 1) unit) else 0
  b2n b.locked + 2 * slot + 4 * b2n b.ras.maintUntil.isSome + 8 * b2n inj

def Blk.hold (b : Blk) (e : EvRec) : Blk := b.updEv fun x => { x with held := x.held ++ [e] }

/-- The follow-up record of a coalescing millisecond, timestamped at its end (R296). -/
def Coal.followUp (c : Coal) : EvRec :=
  { time := c.opened + 1000000, die := c.die, unit := c.unit, code := c.code, severity := severity c.code,
    context := c.context, detail := c.first % 2 ^ 136 + satur 16 c.count * 2 ^ 136 }

/-- Replace or open the coalescing millisecond of `c`'s code and unit. -/
def Blk.setCoal (b : Blk) (c : Coal) : Blk :=
  b.updEv fun e =>
    { e with coal := e.coal.filter (fun x => ¬(x.code = c.code ∧ x.die = c.die ∧ x.unit = c.unit)) ++ [c] }

/-- Detect an event (R294, R296); EV_THERMAL also raises an I3C in-band interrupt (R343). A record of severity 3 in ARMED or RUN is one for which the step's vote becomes
fail; EV_NONFINITE_STEP records a vote that is skip (R136; log entry 30). -/
def Blk.raiseInj (b : Blk) (inj : Bool) (die unit code detail : Nat) : Blk :=
  let ctx := b.evContext die unit inj
  let r : EvRec := ⟨b.now, die, unit, code, severity code, ctx, detail % 2 ^ 152⟩
  let b := ifB (severity code = 3 && b.locked && code ≠ 0x0204) Blk.modFail b
  if coalesced code then
    match b.ev.coal.find? fun c => c.code = code ∧ c.die = die ∧ c.unit = unit with
    | some c =>
      if b.now < c.opened + 1000000 then
        b.setCoal { c with count := c.count + 1, first := if c.count = 0 then detail else c.first }
      else
        let b := ifB (0 < c.count) (fun b => b.hold c.followUp) b
        (b.setCoal ⟨code, die, unit, b.now, 0, 0, ctx⟩).hold r
    | none => (b.setCoal ⟨code, die, unit, b.now, 0, 0, ctx⟩).hold r
  else if code = 0x0901 then (b.hold r).ibi 2
  else b.hold r

def Blk.raise (b : Blk) (die unit code detail : Nat) : Blk := b.raiseInj false die unit code detail

/-- Raise an event whose detail the spec does not describe: the detail is a free value (log entry 9). -/
def Blk.raiseOpen (b : Blk) (die unit code : Nat) : Blk := b.fresh.2.raise die unit code (b.fresh.1.toNat % 2 ^ 136)

/-- Unit numbers of the hub (R294). -/
def uXbar : Nat := 0
def uStage : Nat := 1
def uColl : Nat := 2
def uScale : Nat := 3
def uMtc : Nat := 4
def uSec : Nat := 14
def uCxl : Nat := 15
def uMgmt : Nat := 16
def uGfw : Nat := 17
def uPower : Nat := 18
def uDie : Nat := 20

/-- Die index of a core's compute die. -/
def coreDie (core : Nat) : Nat := core / 32 + 1

/-- The physical port's die and unit: die 17 or 18, unit 0 to 4. -/
def portDie (p : Nat) : Nat := 17 + p / 5
def portUnit (p : Nat) : Nat := p % 5

/-- Add a unit to its self-test queue (R297): dies 1 to 12 keep their own, the hub keeps the rest. -/
def Blk.queueTest (b : Blk) (u : StUnit) : Blk :=
  let q := if 1 ≤ u.die ∧ u.die ≤ 12 then u.die else 0
  let l := Sp.get [] b.ras.queues q
  let same (x : StUnit) : Bool := x.die = u.die ∧ x.unit = u.unit ∧ x.kind = u.kind ∧ x.arg = u.arg
  let bump (x : StUnit) : StUnit := if same x then { x with errors := x.errors + 1 } else x
  if l.any same then b.updRas fun r => { r with queues := Sp.set [] r.queues q (l.map bump) }
  else if 64 ≤ l.length then b.satBy (RAS_STATUS.st_dropped q) 1
  else b.updRas fun r => { r with queues := Sp.set [] r.queues q (l ++ [u]) }

/-! ### Cores -/

def Blk.core (b : Blk) (k : Nat) : CoreSt := Sp.get CoreSt.init b.cores k
def Blk.setCore (b : Blk) (k : Nat) (c : CoreSt) : Blk := { b with cores := Sp.set CoreSt.init b.cores k c }
def Blk.updCore (b : Blk) (k : Nat) (f : CoreSt → CoreSt) : Blk := b.setCore k (f (b.core k))

/-- Gust or lee, by logical site (R14). -/
def isLee (k : Nat) : Bool := 28 ≤ k % 32

/-- Lanes of the vector engine (R93). -/
def lanes (k : Nat) : Nat := if isLee k then 128 else 64

/-- Bytes of core SRAM: 4 MiB on a gust site, 24 MiB on a lee site. -/
def sramBytes (k : Nat) : Nat := if isLee k then 0x1800000 else 0x400000

/-! ### Memory

One store of bytes keyed by place: external memory at its device address, staging from 2⁴⁸, the SRAM of core k from
2⁴⁹ + k × 2²⁵. A word's check bits are kept as their difference from those of its data. -/

def stageKey : Nat := 2 ^ 48
def sramKey (k : Nat) : Nat := 2 ^ 49 + k * 2 ^ 25

/-- Logical channel, and granule index within it, of a data address (R188). -/
def chanOf (a : Nat) : Nat :=
  let g := a / 4096
  (g ^^^ (g / 2 ^ 7) ^^^ (g / 2 ^ 14) ^^^ (g / 2 ^ 21) ^^^ (g / 2 ^ 28)) % 128
def localOf (a : Nat) : Nat := a / 4096 / 128

/-- Physical channel of its die that serves data address `a` (R189): while a migration of its logical channel runs, the granules below
the pointer are on the new channel (R194). -/
def Blk.chanPhys (b : Blk) (a : Nat) : Nat :=
  let l := chanOf a
  let md := l / 32
  match (b.md md).migrating with
  | some (lg, _, new) =>
    if lg = l % 32 ∧ localOf a < b.rd (CHAN_MIGRATE.pointer md) then new else b.rd (CHAN_MAP.phys md (l % 32))
  | none => b.rd (CHAN_MAP.phys md (l % 32))

/-- End address of external memory (R187). -/
def Blk.memEnd (b : Blk) : Nat := if b.part.big then 0x01C71C700000 else 0x00E38E380000

def Blk.byte (b : Blk) (key : Nat) : Byte := Sp.get 0 b.mem key

def Blk.setByte (b : Blk) (key : Nat) (v : Byte) : Blk := { b with mem := Sp.set 0 b.mem key v }

def Blk.setBytes (b : Blk) (key : Nat) : List Byte → Blk
  | [] => b
  | v :: vs => (b.setByte key v).setBytes (key + 1) vs

def Blk.bytes (b : Blk) (key : Nat) : Nat → List Byte
  | 0 => []
  | n + 1 => b.byte key :: b.bytes (key + 1) n

/-- The word that holds byte `key`: its data as stored and its check-bit difference. -/
def Blk.rawWord (b : Blk) (key : Nat) : Word × BitVec 32 :=
  let w := key / 32 * 32
  (BitVec.ofNat 256 (ofLeBytes (b.bytes w 32)), Sp.get 0 b.err w)

def Blk.setRawWord (b : Blk) (key : Nat) (data : Word) (e : BitVec 32) : Blk :=
  let w := key / 32 * 32
  let b := b.setBytes w (leBytes 32 data.toNat)
  { b with err := Sp.set 0 b.err w e }

/-! ### Injection hooks (R292, R293) -/

/-- Fire the first armed injection of detector `det` that `sel` accepts, if any: its argument, and the state with the
firing counted. A spent injection is disarmed. -/
def Blk.fire (b : Blk) (det : Nat) (sel : Inject → Bool) : Option Nat × Blk :=
  match b.ras.injects.find? fun i => i.det = det ∧ sel i with
  | none => (none, b)
  | some i =>
    let rest := b.ras.injects.filter fun j => j ≠ i
    let left := i.left - 1
    let b := b.updRas fun r => { r with injects := if left = 0 then rest else rest ++ [{ i with left := left }] }
    let b := b.satBy (RAS_INJ_CTRL.fired i.block) 1
    (some i.arg, if left = 0 then b.wr (RAS_INJ_CTRL.armed i.block) 0 else b)

/-- A word as an injection leaves it: every symbol of the mask is altered by a free value that is not zero (R292). -/
def alterWord (mask : Nat) (free : Word) (w : Word × BitVec 32) : Word × BitVec 32 :=
  let byte (i : Nat) : Nat := if bit mask i then max 1 (bits free.toNat (8 * (i % 32)) 8) else 0
  let delta := BitVec.ofNat 256 ((List.range 32).map fun i => byte (i + 4) * 2 ^ (8 * i)).sum
  let chk := BitVec.ofNat 32 ((List.range 4).map fun i => byte i * 2 ^ (8 * i)).sum
  (w.1 ^^^ delta, w.2 ^^^ chk ^^^ checkBits delta)

/-- An injection that alters the word stored at `key` at its next write: core SRAM (detector 0x01), staging (0x03) or
external memory (0x04). -/
def Blk.fireWrite (b : Blk) (key : Nat) : Option Nat × Blk :=
  if 2 ^ 49 ≤ key then
    let k := (key - 2 ^ 49) / 2 ^ 25
    let off := (key - 2 ^ 49) % 2 ^ 25
    let size := sramBytes k / 32
    b.fire 0x01 fun i => i.die = coreDie k ∧ i.unit = k % 32 ∧ bits i.arg 36 12 = off / size
      ∧ bits i.arg 48 16 = off % size / 32
  else if stageKey ≤ key then
    b.fire 0x03 fun i => bits i.arg 36 28 ≠ 0 ∧ bits i.arg 36 28 = (key - stageKey) / 32
  else
    b.fire 0x04 fun i => i.die = 13 + chanOf key / 32 ∧ i.unit = b.chanPhys key
      ∧ bits i.arg 36 28 = key % 4096 / 32

/-- Write a word with its own check bits, or poisoned (R290), as an armed injection may alter it. -/
def Blk.writeWord (b : Blk) (key : Nat) (w : MWord) : Blk :=
  if b.ras.injects = [] then b.setRawWord key w.data (poisonErr w.poison)
  else
    let f := b.fireWrite key
    match f.1 with
    | none => f.2.setRawWord key w.data (poisonErr w.poison)
    | some a =>
      let x := alterWord (bits a 0 36) f.2.fresh.1 (w.data, poisonErr w.poison)
      (f.2.fresh.2.setRawWord key x.1 x.2).updRas fun r => { r with injWords := addNew r.injWords (key / 32 * 32) }

/-- A residue check (detector 0x07) on an engine of core `k`: 0 matrix, 1 vector, 2 conversion. On a mismatch the event, the
core's place in the self-test queue, and a result to be written poisoned (R292). -/
def Blk.residue (b : Blk) (k engine : Nat) : Bool × Blk :=
  let f := b.fire 0x07 fun i => i.die = coreDie k ∧ i.unit = k % 32 ∧ i.arg % 4 = engine
  match f.1 with
  | none => (false, b)
  | some _ =>
    let b := (f.2.raiseInj true (coreDie k) (k % 32) 0x0304 engine).hwFail k
    (true, b.queueTest ⟨coreDie k, k % 32, 1, 0, 1⟩)

/-- Where an error of a read is reported: check point, die, unit and device address (R291), what its
self-test names, and whether an injection altered the word. -/
structure ChkAt where
  point : Nat
  die : Nat
  unit : Nat
  addr : Nat
  test : Nat
  inj : Bool
  deriving DecidableEq, Repr

/-- Self-test kind of the unit behind a check point (R298's table, from 0): row group, lane, granule. -/
def testOf (point : Nat) : Nat := if point = 5 then 3 else if point = 1 ∨ point = 2 ∨ point = 3 then 2 else 0

/-- Bank and row group of a byte offset in a core's SRAM of 32 banks, and in staging (R175; log entry 43), as
EV_ROW_SPARED's detail lays them out. -/
def coreRow (k off : Nat) : Nat :=
  let size := sramBytes k / 32
  off / size + off % size / 128 * 2 ^ 8
def stageRow (off : Nat) : Nat := off / 32 % 64 + 128 + off / 2048 / 4 * 2 ^ 8

/-- A staging word of a block whose row-group spares are spent reads poisoned (R300 row 2). -/
def Blk.deadWord (b : Blk) (key : Nat) : Bool :=
  b.ras.deadBlocks.any fun d => stageKey ≤ key ∧ key < 2 ^ 49 ∧ (key - stageKey) / 32 % 64 = d.bank
    ∧ (key - stageKey) / 2048 / 64 = d.block

/-- Read a word through its checker, without reporting (R289). -/
def Blk.readWord (b : Blk) (key : Nat) : MWord :=
  let r := b.rawWord key
  if b.ras.deadBlocks ≠ [] ∧ b.deadWord key then ⟨r.1, true⟩ else checked r.1 r.2

/-- Report what a checker found in a word's check-bit difference: the RAS counters, EV_ECC_CORRECTED or
EV_ECC_UNCORRECTED, and the unit's place in the self-test queue (R289, R291, R297). -/
def Blk.report (b : Blk) (e : BitVec 32) (c : ChkAt) : Blk :=
  match classify e with
  | .clean | .poisoned => b
  | .correctable pos _ =>
    let die := if 1 ≤ c.die ∧ c.die ≤ 12 then c.die else 0
    let b := b.satBy (RAS_ERR.corrected die) 1
    (b.raiseInj c.inj c.die c.unit 0x0801 (c.point + pos * 2 ^ 8 + c.addr * 2 ^ 14)).queueTest ⟨c.die, c.unit, testOf c.point, c.test, 1⟩
  | .uncorrectable =>
    let die := if 1 ≤ c.die ∧ c.die ≤ 12 then c.die else 0
    let b := b.satBy (RAS_ERR.uncorrected die) 1
    (b.raiseInj c.inj c.die c.unit 0x0802 (c.point + c.addr * 2 ^ 8)).queueTest ⟨c.die, c.unit, testOf c.point, c.test, 1⟩

/-- Read a word through its checker, with the report, for external memory also the channel's counters and the repair
list (R190, R291). SRAM and staging keep the stored word; a word found uncorrectable is forwarded poisoned. -/
def Blk.fetchWord (b : Blk) (key : Nat) : MWord × Blk :=
  let w := key / 32 * 32
  let r := b.rawWord w
  let out := checked r.1 r.2
  let inj := b.ras.injWords.contains w
  if b.ras.deadBlocks ≠ [] ∧ b.deadWord w then (⟨r.1, true⟩, b)
  else if r.2 = 0 ∨ r.2 = 0xFFFFFFFF then (out, b)
  else if 2 ^ 49 ≤ w then
    let k := (w - 2 ^ 49) / 2 ^ 25
    (out, b.report r.2 ⟨0, coreDie k, k % 32, 0, coreRow k ((w - 2 ^ 49) % 2 ^ 25), inj⟩)
  else if stageKey ≤ w then (out, b.report r.2 ⟨4, 0, uStage, 0, stageRow (w - stageKey), inj⟩)
  else
    let md := chanOf w / 32
    let phys := b.chanPhys w
    let b := b.report r.2 ⟨5, 13 + md, phys, w, w, inj⟩
    match classify r.2 with
    | .correctable _ _ =>
      let b := b.satBy (ECC_COUNT.corrected md phys) 1
      let r := (b.md md).repair
      if r.contains w ∨ 16 ≤ r.length then (out, b)
      else (out, b.updMd md fun m => { m with repair := m.repair ++ [w] })
    | _ => (out, b.satBy (ECC_COUNT.uncorrected md phys) 1)

/-- Read `n` words from `key` up. -/
def Blk.fetchWords (b : Blk) (key : Nat) : Nat → List MWord × Blk
  | 0 => ([], b)
  | n + 1 =>
    let r := b.fetchWord key
    let rest := r.2.fetchWords (key + 32) n
    (r.1 :: rest.1, rest.2)

/-- Read the words `ids` of the string at word-aligned place `key`, each once, through the checkers. -/
def Blk.fetchSet (b : Blk) (key : Nat) (ids : List Nat) : Sp MWord × Blk :=
  ids.foldl (fun s w =>
    let r := s.2.fetchWord (key + 32 * w)
    (Sp.set ⟨0, true⟩ s.1 w r.1, r.2)) ([], b)

/-- Words that bits [lo + n − 1 : lo] touch. -/
def wordsOf (lo n : Nat) : List Nat := if n = 0 then [] else
  (List.range ((lo + n - 1) / 256 + 1 - lo / 256)).map (· + lo / 256)

/-- Bits [lo + n − 1 : lo] out of fetched words, and whether one of them is poisoned. -/
def takeBits (m : Sp MWord) (lo n : Nat) : Nat × Bool :=
  let ws := (wordsOf lo n).map fun w => Sp.get ⟨0, true⟩ m w
  (bits (ws.foldr (fun w a => w.data.toNat + a * 2 ^ 256) 0) (lo % 256) n, ws.any (·.poison))

/-- Words that a set of fields touches, each once. -/
def coverWords (fs : List (Nat × Nat)) : List Nat := fs.foldl (fun l f => (wordsOf f.1 f.2).foldl addNew l) []

def Blk.writeWords (b : Blk) (key : Nat) : List MWord → Blk
  | [] => b
  | w :: ws => (b.writeWord key w).writeWords (key + 32) ws

/-- The place a device address names (R187, R175): external memory, staging, or a core's SRAM window. -/
def Blk.place (b : Blk) (a : Nat) : Option Nat :=
  let sb := Config.stagingBase.toNat
  if a < b.memEnd then some a
  else if sb ≤ a ∧ a < sb + 2 ^ 28 then some (stageKey + (a - sb))
  else
    let hit (k : Nat) : Bool :=
      let base := (Config.sramBase (k / 32) (k % 32)).toNat
      decide (base ≤ a ∧ a < base + sramBytes k)
    match allCores.find? hit with
    | some k => some (sramKey k + (a - (Config.sramBase (k / 32) (k % 32)).toNat))
    | none => none

/-- The 2 MiB region key of a place (R176): external memory by address, staging from 2²⁰ up; none for core SRAM. -/
def regionOf (key : Nat) : Option Nat :=
  if key < stageKey then some (key / 2 ^ 21)
  else if key < 2 ^ 49 then some (2 ^ 20 + (key - stageKey) / 2 ^ 21)
  else none

/-! ### Poison consumed (R291) -/

/-- A unit that computes from words has received poison: counted; in ARMED and RUN the event once per unit and step, and
the issuing core's vote. Consumers: 0 sequencer, 1 matrix, 2 vector, 3 numerics, 4 gather, 5 collective. -/
def Blk.consume (b : Blk) (core consumer die unit addr words : Nat) : Blk :=
  let blockDie := if 1 ≤ die ∧ die ≤ 12 then die else 0
  let b := b.incBy (RAS_POISON.consumed blockDie) words
  if b.locked then
    let c := b.core core
    let b := if c.consumed.contains (consumer * 2 ^ 16 + unit) then b
      else (b.raise die unit 0x0803 (consumer + addr * 2 ^ 8)).updCore core fun c =>
        { c with consumed := c.consumed ++ [consumer * 2 ^ 16 + unit] }
    b.hwFail core
  else b

end Sys2Proof.Machine
end

