-- ==== Sys2Proof/Machine/Sequencer.lean ====
section
/-!
DEFINITION. The core sequencer (07_core_sequencer.md): issue, guards, costs and counters (R138, R143, R145, R165), loops
and branches (R147, R148), waits and completion queues (R150), votes (R151), run-time faults (R161), and the
instructions of formats C.
-/
namespace Sys2Proof.Machine

/-! ### Registers of a context (R93, R138) -/

def Ctx.getS (c : Ctx) (n : Nat) : Quad := if n = 0 then 0 else Sp.get 0 c.s n
/-- S0 discards what is written to it; a write replaces the poison of the register. -/
def Ctx.setS (c : Ctx) (n : Nat) (v : Quad) (poison : Bool := false) : Ctx :=
  if n = 0 then c
  else { c with s := Sp.set 0 c.s n v, sPoison := if poison then addNew c.sPoison n else c.sPoison.erase n }
def Ctx.getP (c : Ctx) (n : Nat) : Bool := if n = 0 then true else Sp.get false c.p n
/-- P0 reads as 1 and discards what is written to it. -/
def Ctx.setP (c : Ctx) (n : Nat) (v : Bool) (poison : Bool := false) : Ctx :=
  if n = 0 then c
  else { c with p := Sp.set false c.p n v, pPoison := if poison then addNew c.pPoison n else c.pPoison.erase n }

/-- The slot that the last CSEL selected. -/
def Blk.slot (b : Blk) (k : Nat) : Nat := b.rd (SEQ_STATUS.ctx (k / 32) (k % 32))

def CoreSt.ctx (c : CoreSt) (slot : Nat) : Ctx := if slot = 0 then c.ctx0 else c.ctx1
def CoreSt.updCtx (c : CoreSt) (slot : Nat) (f : Ctx → Ctx) : CoreSt :=
  if slot = 0 then { c with ctx0 := f c.ctx0 } else { c with ctx1 := f c.ctx1 }

/-- The active context of core `k`. -/
def Blk.ctx (b : Blk) (k : Nat) : Ctx := (b.core k).ctx (b.slot k)
def Blk.updCtx (b : Blk) (k : Nat) (f : Ctx → Ctx) : Blk := b.updCore k fun c => c.updCtx (b.slot k) f

/-- Scalar register n of the active context. -/
def Blk.sreg (b : Blk) (k n : Nat) : Nat := ((b.ctx k).getS n).toNat
def Blk.setSreg (b : Blk) (k n v : Nat) : Blk := b.updCtx k fun c => c.setS n (BitVec.ofNat 64 v)

/-! ### Issue -/

def Blk.seqState (b : Blk) (k : Nat) : Nat := b.rd (SEQ_STATUS.state (k / 32) (k % 32))
def Blk.setSeqState (b : Blk) (k v : Nat) : Blk := b.wr (SEQ_STATUS.state (k / 32) (k % 32)) v
def Blk.pc (b : Blk) (k : Nat) : Nat := b.rd (SEQ_STATUS.pc (k / 32) (k % 32))
def Blk.segOf (b : Blk) (k : Nat) : Nat := b.rd (SEQ_STATUS.segment (k / 32) (k % 32))

/-- A core serves its site (R302). -/
def Blk.served (b : Blk) (k : Nat) : Bool := b.rd (SITE_MAP.unserved (k / 32) (k % 32)) = 0

/-- The core issues instructions: it serves its site and is neither idle, waiting, stopped nor fenced (SEQ_STATUS). -/
def Blk.issuing (b : Blk) (k : Nat) : Bool := b.seqState k = 1 && b.served k

/-- Count `n` cycles of engine `e` under cause `c`, unless the counters are frozen (R164, R165). -/
def Blk.stall (b : Blk) (k e c n : Nat) : Blk :=
  if b.on (SEQ_PERF_CTRL.freeze (k / 32) (k % 32)) then b
  else b.incBy (SEQ_STALL.count (k / 32) (k % 32) e c) n

def Blk.countIssue (b : Blk) (k : Nat) : Blk :=
  let b := b.stall k 0 0 1
  if b.on (SEQ_PERF_CTRL.freeze (k / 32) (k % 32)) then b
  else b.incBy (SEQ_ISSUED.count (k / 32) (k % 32)) 1

/-- Where control goes from `pc`, closing loops and arms that end there, innermost first (R147, R148). -/
def closeAt : Nat → List LoopFrame → List BrFrame → Nat → List LoopFrame × List BrFrame × Nat
  | 0, ls, bs, pc => (ls, bs, pc)
  | n + 1, ls, bs, pc =>
    match ls, bs with
    | [], [] => ([], [], pc)
    | l :: lt, [] =>
      if pc = l.start + l.len then
        if l.idx + 1 < l.count then ({ l with idx := l.idx + 1 } :: lt, [], l.start) else closeAt n lt [] pc
      else (l :: lt, [], pc)
    | [], r :: rt => if pc = r.endA then closeAt n [] rt r.join else ([], r :: rt, pc)
    | l :: lt, r :: rt =>
      if r.start ≤ l.start then
        if pc = l.start + l.len then
          if l.idx + 1 < l.count then ({ l with idx := l.idx + 1 } :: lt, r :: rt, l.start)
          else closeAt n lt (r :: rt) pc
        else (l :: lt, r :: rt, pc)
      else if pc = r.endA then closeAt n (l :: lt) rt r.join
      else (l :: lt, r :: rt, pc)

/-- Continue at `pc`. -/
def Blk.jump (b : Blk) (k pc : Nat) : Blk :=
  let c := b.core k
  let r := closeAt 16 c.loops c.brs pc
  (b.setCore k { c with loops := r.1, brs := r.2.1 }).wr (SEQ_STATUS.pc (k / 32) (k % 32)) r.2.2

/-- Advance the next issue cycle. -/
def Blk.spend (b : Blk) (k cost : Nat) : Blk := b.updCore k fun c => { c with cyc := c.cyc + cost }

/-- The guard of an instruction (R143). -/
def Blk.guardOn (b : Blk) (k : Nat) (g : Guard) : Bool := xor ((b.ctx k).getP g.pn.toNat) g.neg

/-- R161: the core issues nothing further in the segment; EV_IMAGE_INVALID check 0x02, SEQ_FAULT (first fault only), and
the vote. -/
def Blk.fetchFault (b : Blk) (k : Nat) (inj : Bool := false) : Blk :=
  let cd := k / 32
  let s := k % 32
  let pc := b.pc k
  let off := match b.run.job with
    | none => 0
    | some j =>
      let blk := (j.segs.getD (b.segOf k) ⟨0, 0, 0, 0, 0, false, false, false, false, 0, 0, 0⟩).block
      match j.code.find? fun d => d.block = blk ∧ d.cd = cd ∧ d.site = s with
      | some d => d.off + pc / 2
      | none => 0
  let b := b.raiseInj inj (cd + 1) s 0x0302 (0x02 + (cd + 1) * 2 ^ 8 + s * 2 ^ 13 + pc * 2 ^ 19 + off * 2 ^ 51)
  let b := if b.on (SEQ_FAULT.valid cd s) then b
    else (((b.wr (SEQ_FAULT.valid cd s) 1).wr (SEQ_FAULT.check cd s) 0x02).wr (SEQ_FAULT.pc cd s) pc).wr
      (SEQ_FAULT.segment cd s) (b.segOf k)
  (b.setSeqState k 5).hwFail k

/-- The next fetched instruction word is poisoned by an injection (detector 0x08). -/
def Blk.fireFetch (b : Blk) (k : Nat) : Bool × Blk :=
  if b.ras.injects = [] then (false, b)
  else
    let f := b.fire 0x08 fun i => i.die = coreDie k ∧ i.unit = k % 32
    (f.1.isSome, f.2)

/-- Issue an instruction on a core that is issuing: it takes its cost whether or not its guard holds, and its effect only
if the guard holds; an encoding that check 0x02 would refuse is a fault under R161. -/
def issue (i : Issue) (wf : Bool) (effect : Nat → Blk → Blk) (b : Blk) : Blk :=
  let k := coreKey i.core
  if ¬b.issuing k then b
  else if (b.fireFetch k).1 then (b.fireFetch k).2.fetchFault k true
  else if ¬wf then b.fetchFault k
  else
    let b1 := b.countIssue k
    let b2 := if b.guardOn k i.guard then effect k b1 else b1
    (b2.spend k 1).jump k (b.pc k + 1)

/-- Issue a control instruction that moves control itself; its guard must be P0 (R143). -/
def issueCtl (i : Issue) (wf : Bool) (effect : Nat → Blk → Blk) (b : Blk) : Blk :=
  let k := coreKey i.core
  if ¬b.issuing k then b
  else if (b.fireFetch k).1 then (b.fireFetch k).2.fetchFault k true
  else if ¬wf then b.fetchFault k
  else effect k (b.countIssue k)

/-! ### Completion queues (R150) -/

/-- Arithmetic clock in MHz (GLB_CLOCKS). -/
def Blk.mhz (b : Blk) : Nat := b.rd GLB_CLOCKS.arith_mhz

/-- Arithmetic cycles that fit in `ns`, and nanoseconds of `cyc` cycles, rounded up. -/
def Blk.cycOfNs (b : Blk) (ns : Nat) : Nat := ns * b.mhz / 1000
def Blk.nsOfCyc (b : Blk) (cyc : Nat) : Nat := if b.mhz = 0 then 0 else cdiv (cyc * 1000) b.mhz

/-- Arithmetic cycle that core `k` has reached, counted from machine time 0 in whole cycles of its releases. -/
def Blk.absCyc (b : Blk) (k : Nat) : Nat := b.cycOfNs (b.core k).relNs + (b.core k).cyc

/-- Stall cause of a WAITQ past its deadline on queue `q` (R165): for a gather queue the engine's current cause. A transfer descriptor
names no remote module (R169), so the DMA queue's cause is 9. -/
def Blk.queueCause (b : Blk) (k q : Nat) : Nat :=
  if q < 4 then
    let c := (b.gathE (4 * (k / 32) + q)).cause
    if c = 0 then 9 else c
  else if q = 4 then 9 else 13

/-- The cycle of the segment that a waiting core has reached, no sooner than its WAITQ's deadline. -/
def Blk.waitCyc (b : Blk) (k : Nat) (w : WaitQ) : Nat :=
  let c := b.core k
  max c.cyc (max w.deadline (b.cycOfNs (b.now - c.relNs)))

/-- Count the slip of core `k`'s WAITQ up to now, under the cause its queue has had (R165). -/
def Blk.settleWait (b : Blk) (k : Nat) : Blk :=
  match (b.core k).waitq with
  | some w =>
    let at_ := b.waitCyc k w
    let b := b.stall k 0 (b.queueCause k w.queue) (at_ - max w.counted (max (b.core k).cyc w.deadline))
    b.updCore k fun c => { c with waitq := some { w with counted := at_ } }
  | none => b

/-- A waiting core's queue has reached its count: the slip past the deadline is counted and the core issues again. -/
def Blk.waitqDone (b : Blk) (k : Nat) (w : WaitQ) : Blk :=
  let at_ := b.waitCyc k w
  ((b.settleWait k).updCore k fun c => { c with waitq := none, cyc := at_ }).setSeqState k 1

/-- Post one completion to queue `q` of core `k`, with aborted status or without. -/
def Blk.post (b : Blk) (k q : Nat) (aborted : Bool := false) : Blk :=
  let b := b.updCore k fun c =>
    { c with qcnt := Sp.set 0 c.qcnt q (Sp.get 0 c.qcnt q + 1),
             qaborted := if aborted then Sp.set 0 c.qaborted q (Sp.get 0 c.qaborted q + 1) else c.qaborted }
  match (b.core k).waitq with
  | some w => if w.queue = q ∧ w.count ≤ Sp.get 0 (b.core k).qcnt q ∧ b.seqState k = 4 then b.waitqDone k w else b
  | none => b

/-! ### Instructions of format C -/

def nopFx (i : Issue) : Blk → Blk := issue i true fun _ b => b

/-- WAITC: cycles − 1 in the operand; all but the issue cycle count under cause 4 (R150, R165). -/
def waitcFx (i : Issue) (n : BitVec 17) : Blk → Blk :=
  issueCtl i true fun k b => ((b.stall k 0 4 n.toNat).spend k (n.toNat + 1)).jump k (b.pc k + 1)

/-- WAITQ (R150): the next issue is at the later of the deadline and the cycle in which the queue's count is reached. -/
def waitqFx (i : Issue) (q : BitVec 4) (count deadline : BitVec 32) : Blk → Blk :=
  issueCtl i (WellFormed.waitq q) fun k b =>
    let pc := b.pc k
    let c := b.core k
    let next := max (c.cyc + 1) deadline.toNat
    let b := (b.stall k 0 4 (next - (c.cyc + 1))).jump k (pc + 1)
    if count.toNat ≤ Sp.get 0 c.qcnt q.toNat then b.updCore k fun c => { c with cyc := next }
    else
      (b.updCore k fun c =>
        { c with cyc := c.cyc + 1, waitq := some ⟨q.toNat, count.toNat, deadline.toNat, 0⟩ }).setSeqState k 4

/-- LOOP (R147): a count of 0 skips the body. -/
def loopFx (i : Issue) (count : BitVec 32) (len : BitVec 12) : Blk → Blk :=
  issueCtl i (WellFormed.loop len) fun k b =>
    let pc := b.pc k
    let b := b.spend k 1
    if count = 0 then b.jump k (pc + 1 + len.toNat)
    else
      (b.updCore k fun c => { c with loops := ⟨pc + 1, len.toNat, count.toNat, 0⟩ :: c.loops }).jump k (pc + 1)

/-- BRB (R148). A poisoned predicate takes the first arm and makes the vote fail (R111). -/
def brbFx (i : Issue) (pn : BitVec 4) (invert : Bool) (lenA lenB : BitVec 11) : Blk → Blk :=
  issueCtl i (WellFormed.brb lenA lenB) fun k b =>
    let pc := b.pc k
    let bad := (b.ctx k).pPoison.contains pn.toNat
    let take := bad || xor ((b.ctx k).getP pn.toNat) invert
    let b := ifB bad (fun b => b.hwFail k) (b.spend k 1)
    let endA := pc + 1 + lenA.toNat
    if take then
      (b.updCore k fun c => { c with brs := ⟨pc + 1, endA, endA + lenB.toNat⟩ :: c.brs }).jump k (pc + 1)
    else b.jump k endA

/-- CSEL (R142, R153). -/
def cselFx (i : Issue) (slot : Bool) : Blk → Blk :=
  issueCtl i true fun k b =>
    ((b.wrB (SEQ_STATUS.ctx (k / 32) (k % 32)) slot).spend k 1).jump k (b.pc k + 1)

/-- Record a core's vote, now or, after the freeze, for the next attempt (R151). -/
def Blk.setVote (b : Blk) (k vote cause : Nat) : Blk :=
  if b.vote.frozen then b.updVote fun v => { v with heldVote := Sp.set 0 v.heldVote k (vote + cause * 4 + 1024) }
  else (b.wr (SEQ_VOTE.vote (k / 32) (k % 32)) vote).wr (SEQ_VOTE.cause (k / 32) (k % 32)) cause

def voteFx (i : Issue) (v : BitVec 2) (cause : BitVec 8) : Blk → Blk :=
  issue i (WellFormed.vote v) fun k b => b.setVote k v.toNat cause.toNat

/-- SLOOP (R147): the index of the named level, 0 innermost; a level outside any loop reads as 0. -/
def sloopFx (i : Issue) (d : BitVec 5) (level : BitVec 2) : Blk → Blk :=
  issueCtl i true fun k b =>
    let idx := match (b.core k).loops[level.toNat]? with
      | some l => l.idx
      | none => 0
    ((b.setSreg k d.toNat idx).spend k 1).jump k (b.pc k + 1)

/-- A core arrives at the anchor of the segment in progress, or, after its release, late (R41, R42). Its next segment's
code starts at once when the lateness was absorbed or not: the image goes on to the vote. -/
def Blk.lateArrival (b : Blk) (k lateNs : Nat) : Blk :=
  if lateNs ≤ b.rd MTC_ANCHOR_TOL.tol_ns then
    b.wr MTC_ANCHOR_STAT.max_late_ns (max (b.rd MTC_ANCHOR_STAT.max_late_ns) lateNs)
  else
    let b := b.raiseInj (b.core k).lateInj (coreDie k) (k % 32) 0x0106 (k % 32 + satur 32 lateNs * 2 ^ 6 + b.segOf k * 2 ^ 38)
    (b.satBy MTC_ANCHOR_STAT.overruns 1).hwFail k

/-- The next segment of the job after table index `n`: the step's first segment follows its last (R152). -/
def Job.nextSeg (j : Job) (n : Nat) : Nat :=
  if n + 1 < j.segs.length then n + 1
  else match j.segs.findIdx? fun s => ¬s.prologue with
    | some i => i
    | none => 0

/-- Begin segment `seg` on core `k` at the release `relNs`. -/
def Blk.beginSeg (b : Blk) (k seg relNs : Nat) : Blk :=
  let b := b.updCore k fun c =>
    { c with relNs := relNs, cyc := 0, arrived := none, loops := [], brs := [], qcnt := [], qaborted := [], waitq := none, opening := none, lateInj := false }
  let b := (b.wr (SEQ_STATUS.pc (k / 32) (k % 32)) 0).wr (SEQ_STATUS.segment (k / 32) (k % 32)) seg
  b.setSeqState k 1

/-- A run-time fetch fault named by the fetch path (R161). -/
def fetchFaultFx (c : CoreId) (b : Blk) : Blk :=
  let k := coreKey c
  if b.issuing k then b.fetchFault k else b

def execNop (i : Issue) (s : State) := onBlk s (nopFx i)
def execWaitc (i : Issue) (n : BitVec 17) (s : State) := onBlk s (waitcFx i n)
def execWaitq (i : Issue) (q : BitVec 4) (n d : BitVec 32) (s : State) := onBlk s (waitqFx i q n d)
def execLoop (i : Issue) (n : BitVec 32) (l : BitVec 12) (s : State) := onBlk s (loopFx i n l)
def execBrb (i : Issue) (p : BitVec 4) (v : Bool) (x y : BitVec 11) (s : State) := onBlk s (brbFx i p v x y)
def execCsel (i : Issue) (x : Bool) (s : State) := onBlk s (cselFx i x)
def execVote (i : Issue) (v : BitVec 2) (c : BitVec 8) (s : State) := onBlk s (voteFx i v c)
def execSloop (i : Issue) (d : BitVec 5) (l : BitVec 2) (s : State) := onBlk s (sloopFx i d l)
def execInstructionFetchFault (c : CoreId) (s : State) := onBlk s (fetchFaultFx c)

end Sys2Proof.Machine
end

