-- ==== Sys2Proof/Machine/Calendar.lean ====
section
/-!
DEFINITION. What the calendars let a requester do (08_package_fabric_memory.md): channels and refresh (R188 to R190, R193), requester
ids and memory-channel windows (R191, R192), write generations (R176, R185), crossbar ports and windows (R170 to R173), the idle calendar (R174); and the counters of
performance events (R378).
-/
namespace Sys2Proof.Machine

/-! ### Performance events (R378) -/

/-- Count `n` occurrences of event `ev` of unit `u` on die `die`. -/
def Blk.perf (b : Blk) (die ev u n : Nat) : Blk :=
  if b.on (PERF_CTRL.freeze die) then b
  else (List.range 8).foldl (fun b i =>
    if b.rd (PERF_SEL.event die i) = ev ∧ (b.rd (PERF_SEL.unit die i) = u ∨ u = 255) then
      b.incBy (PERF_CNT.count die i) n else b) b

/-! ### Channels (R188 to R190, R193) -/

/-- DRAM bank of a data address (R188). -/
def bankOf (a : Nat) : Nat := localOf a % 16

/-- Where the word at data address `a` lies in the DRAM of its channel (R190): the first byte of its data burst and that of its
check bits, in the group's ninth burst. -/
def dramAt (a : Nat) : Nat × Nat :=
  let base := localOf a * 4608
  let w := a % 4096 / 32
  (base + (9 * (w / 8) + w % 8) * 32, base + (9 * (w / 8) + 8) * 32 + 4 * (w % 8))

/-- Module channel (0 to 135) that serves logical channel l (R189). -/
def Blk.moduleChan (b : Blk) (l : Nat) : Nat := 34 * (l / 32) + b.rd (CHAN_MAP.phys (l / 32) (l % 32))

def isSram (key : Nat) : Bool := decide (2 ^ 49 ≤ key)

/-- Length of a refresh slot, and the time since the last slot of logical channel `l` began (R193). -/
def Blk.slotNs (b : Blk) : Nat := if b.part.big then 180 else 120
def Blk.refreshPhase (b : Blk) (l : Nat) : Nat := (b.now + 1952 - (l % 16) * 122) % 1952

/-- A refresh slot of logical channel l covers the instant (R193). -/
def Blk.refreshing (b : Blk) (l : Nat) : Bool := decide (b.refreshPhase l < b.slotNs)

/-- Nanoseconds in which a channel moves `n` words with their share of the check bursts (R186, R190). -/
def burstNs (n : Nat) : Nat := cdiv (n * 36000) 21334

/-- A request of `n` words on channel `l` waits for refresh (R193): a slot covers the channel, or begins before the request can
finish, or the refresh of every channel at a step of the MTC runs. -/
def Blk.refreshWait (b : Blk) (l n : Nat) : Bool :=
  b.refreshing l || decide (1952 < b.refreshPhase l + burstNs n) || decide (b.now < (b.md (l / 32)).refreshEnd)

/-- Words of external memory from place `key` cross their channels, each in a data burst (R190, R378); a write to a channel under
migration goes to both physical channels (R194). -/
def Blk.bursts (b : Blk) (write : Bool) (key n : Nat) : Blk :=
  if stageKey ≤ key then b
  else (List.range n).foldl (fun b i =>
    let a := key + 32 * i
    let md := chanOf a / 32
    let b := b.perf (13 + md) (if write then 0x03 else 0x02) (b.chanPhys a) 1
    match (b.md md).migrating with
    | some (lg, old, new) =>
      if write ∧ lg = chanOf a % 32 then b.perf (13 + md) 0x03 (old + new - b.chanPhys a) 1 else b
    | none => b) b

/-- The MTC steps: every channel refreshes at once (R193). -/
def Blk.refreshAll (b : Blk) : Blk :=
  (List.range 4).foldl (fun b md =>
    let b := b.updMd md fun m => { m with refreshEnd := b.now + b.slotNs }
    (List.range 32).foldl (fun b j => b.perf (13 + md) 0x06 (b.rd (CHAN_MAP.phys md j)) 1) b) b

/-! ### Write generations (R176, R185) -/

/-- Regions that `n` words from place `key` touch. -/
def regionsOf (key n : Nat) : List Nat :=
  match regionOf key, regionOf (key + 32 * n - 1) with
  | some a, some z => (List.range (z + 1 - a)).map (· + a)
  | _, _ => []

/-- A near-cache line's region: that of its place; a line beyond the ranges has none, and a number that no region has. -/
def Blk.lineRegion (b : Blk) (line : Nat) : Nat := ((b.place (line * 256)).bind regionOf).getD (2 ^ 21)

/-- A write transfer begins in some regions: their generations and in-flight counts rise, and their lines leave every near cache
(R176, R185). -/
def Blk.openRegions (b : Blk) (rs : List Nat) : Blk :=
  let b := rs.foldl (fun b r => b.updRegion r fun x => { gen := x.gen + 1, inFlight := x.inFlight + 1 }) b
  { b with ncache := b.ncache.map fun e =>
      (e.1, { e.2 with lines := e.2.lines.filter fun l => ¬rs.contains (b.lineRegion l.line) }) }

/-- Before a write transfer's first word lands at place `key`. -/
def Blk.beginWrite (b : Blk) (key n : Nat) : Blk := if n = 0 then b else b.openRegions (regionsOf key n)

/-- Groups of eight words of which some, but not all, are among the words `ws`, numbered from address 0. -/
def partGroups (ws : List Nat) : List Nat :=
  ((ws.map (· / 8)).foldl addNew []).filter fun g => decide ((ws.filter fun w => w / 8 = g).length < 8)

/-- The check-burst read-modify-write of a group of eight words (R190). -/
def Blk.countGroup (b : Blk) (g : Nat) : Blk :=
  let md := chanOf (256 * g) / 32
  (b.incBy (ECC_RMW.count md) 1).perf (13 + md) 0x04 (b.chanPhys (256 * g)) 1

/-- A write of `n` words from place `key`: its data bursts, and the check bursts that it reads of the groups that it covers in part, at
most its first and its last (R190). -/
def Blk.countRmw (b : Blk) (key n : Nat) : Blk :=
  let b := b.bursts true key n
  let w := key / 32
  let z := w + n
  if n = 0 ∨ stageKey ≤ key then b
  else if w / 8 = (z - 1) / 8 then (if n = 8 then b else b.countGroup (w / 8))
  else
    let b := if w % 8 = 0 then b else b.countGroup (w / 8)
    if z % 8 = 0 then b else b.countGroup (z / 8)

/-- A write transfer of `n` words to place `key` begins, and its partly covered groups read their check bursts (R176, R190). -/
def Blk.openWrite (b : Blk) (key n : Nat) : Blk := (b.beginWrite key n).countRmw key n

/-- A write transfer to the words `ids` of the string at place `key` begins (R176, R190); core SRAM has no regions. -/
def Blk.openWords (b : Blk) (key : Nat) (ids : List Nat) : Blk :=
  if isSram key ∨ ids = [] then b
  else
    let ks := ids.map fun w => key + 32 * w
    let b := b.openRegions ((ks.filterMap regionOf).foldl addNew [])
    let b := ks.foldl (fun b x => b.bursts true x 1) b
    (partGroups ((ks.filter fun x => x < stageKey).map (· / 32))).foldl Blk.countGroup b

/-- A write transfer of words that lands whole; its end is REGION_WRITE_COMPLETE. -/
def Blk.landWords (b : Blk) (key : Nat) (ws : List MWord) : Blk := (b.openWrite key ws.length).writeWords key ws

/-! ### Requester ids (R191) -/

def ownCore (k : Nat) : Nat := (k / 32) * 256 + k % 32
def ownGath (cd e : Nat) : Nat := 1 * 4096 + cd * 256 + e
def ownNc (cd : Nat) : Nat := 2 * 4096 + cd * 256
def ownColl (c : Nat) : Nat := 3 * 4096 + c
def ownLink (ld : Nat) : Nat := 4 * 4096 + ld
def ownHost : Nat := 5 * 4096
def ownPull : Nat := 6 * 4096
def ownCtl : Nat := 7 * 4096
def ownGuest : Nat := 8 * 4096
def ownFill (k : Nat) : Nat := 9 * 4096 + ownCore k

/-- A window owned by `o` is requester `who`'s. The near cache has no index, and classes 5 to 8 have neither die nor index: R191 gives
them none (DEDUCED, log entry 128). -/
def ownsAs (who o : Nat) : Bool :=
  let c := who / 4096
  if c = 2 then who / 256 == o / 256
  else if 5 ≤ c ∧ c ≤ 8 then c == o / 4096
  else who == o

/-! ### Calendars in force -/

/-- The idle calendar is in force (R174): outside ARMED and RUN, and in ARMED before T_start. -/
def Blk.idleCal (b : Blk) : Bool := b.on XBAR_STATUS.idle

/-- Requester class of the idle slot in progress: control cluster, CXL host, CXL mastering, link service, guest
(R174, R191). -/
def Blk.idleClass (b : Blk) : Nat := [7, 5, 6, 4, 8].getD (b.now % 5000 / 1000) 7

/-- Start instant of a window in this step (R191). -/
def Blk.winStart (b : Blk) (w : Window) : Nat :=
  match b.run.job with
  | some j => (if w.prologue then j.tStart else b.run.stepStart) + w.start
  | none => w.start

/-- The physical channel that serves logical channel `l` is in self-refresh (R193). -/
def Blk.chanAsleep (b : Blk) (l : Nat) : Bool :=
  b.on (CHAN_STATUS.self_refresh (l / 32) (b.rd (CHAN_MAP.phys (l / 32) (l % 32))))

def Window.names (w : Window) (l : Nat) : Bool := decide (w.first ≤ l ∧ l < w.first + w.count)

/-- `owner` has an open window on logical channel `l`, its last 40 ns excepted (R192); outside the image calendar, its
class has the slot. A channel in self-refresh serves nobody (R346). -/
def Blk.windowOpen (b : Blk) (owner l : Nat) : Bool :=
  if b.chanAsleep l then false
  else if b.idleCal then owner / 4096 = b.idleClass
  else match b.run.job with
    | some j => j.windows.any fun w =>
        let t := b.winStart w
        ownsAs owner w.owner ∧ w.names l ∧ t ≤ b.now ∧ b.now + 40 < t + w.len
    | none => false

/-- A window, whoever's, on logical channel `l` covers the instant. -/
def Blk.windowNames (b : Blk) (l : Nat) : Bool :=
  match b.run.job with
  | some j => j.windows.any fun w =>
      let t := b.winStart w
      w.names l ∧ t ≤ b.now ∧ b.now < t + w.len
  | none => false

/-- A later window of `owner` on channel `l` before the end of the step. -/
def Blk.laterWindow (b : Blk) (owner l : Nat) : Bool :=
  match b.run.job with
  | some j => j.windows.any fun w =>
      ownsAs owner w.owner ∧ w.names l ∧ b.now < b.winStart w ∧ b.winStart w < b.run.stepStart + j.stepNs
  | none => true

/-! ### The crossbar (R170 to R174) -/

/-- Lanes of a crossbar port in each direction (R170); a port past 22 has none. -/
def portLanes (p : Nat) : Nat :=
  if p < 12 then 32 else if p < 16 then 12 else if p < 18 then 72 else if p < 20 then 64 else if p = 20 then 9
  else if p < 23 then 2 else 0

def xStage : Nat := 18
def xColl : Nat := 19
def xGuest : Nat := 20
def xCxl : Nat := 21

/-- The crossbar port behind a place: a memory-interface die, staging, or a compute die. -/
def xPort (key : Nat) : Nat :=
  if key < stageKey then 12 + chanOf key / 32 else if key < 2 ^ 49 then xStage else (key - 2 ^ 49) / 2 ^ 25 / 32

/-- Crossbar and network entries of segment `n` (R173). -/
def Job.xbarOf (j : Job) (n : Nat) : List XbarEnt :=
  match j.calRecs[n]? with
  | some r => (j.xbar.drop r.xbar).take r.xbarN
  | none => []
def Job.netOf (j : Job) (n : Nat) : List NetEnt :=
  match j.calRecs[n]? with
  | some r => (j.net.drop r.net).take r.netN
  | none => []

/-- Entries of the crossbar and network calendars that may play, with the release from which their cycles count. -/
def Blk.xbarPlay (b : Blk) : List (Nat × XbarEnt) :=
  match b.run.job with
  | some j => b.run.rels.flatMap fun e => (j.xbarOf e.1).map fun x => (e.2, x)
  | none => []
def Blk.netPlay (b : Blk) : List (Nat × NetEnt) :=
  match b.run.job with
  | some j => b.run.rels.flatMap fun e => (j.netOf e.1).map fun x => (e.2, x)
  | none => []

/-- The instant lies in cycles `start` to `start + len − 1` of a clock of `mhz` MHz whose cycle 0 begins at `rel`. -/
def Blk.inCycles (b : Blk) (mhz rel start len : Nat) : Bool :=
  decide (rel ≤ b.now ∧ start * 1000 ≤ (b.now - rel) * mhz ∧ (b.now - rel) * mhz < (start + len) * 1000)

/-- The crossbar's clock, 1.8 GHz in Gale and in Breeze (R170), and the on-die networks', half the arithmetic clock (R167), in MHz. -/
def xbarMhz : Nat := 1800
def Blk.netMhz (b : Blk) : Nat := b.mhz / 2

/-- `who` may send from crossbar port `src` to port `dst` now: in the idle calendar in its class's slot, otherwise in a window entry
of its own (R172, R174). -/
def Blk.xbarWindow (b : Blk) (who src dst : Nat) : Bool :=
  if b.idleCal then who / 4096 = b.idleClass
  else b.xbarPlay.any fun e =>
    e.2.kind = 1 ∧ ownsAs who e.2.owner ∧ e.2.src = src ∧ e.2.dst = dst ∧ b.inCycles xbarMhz e.1 e.2.start e.2.len

/-- Requester `who`, behind crossbar port `port`, owns the windows that a write to place `key`, or a read from it, needs now: on the
crossbar, and for external memory on its channel (R172, R192). Words come from the port that sends them (DEDUCED, log entry 128). -/
def Blk.wayWindow (b : Blk) (who port key : Nat) (write : Bool) : Bool :=
  let q := xPort key
  (if write then b.xbarWindow who port q else b.xbarWindow who q port)
    && (decide (stageKey ≤ key) || b.windowOpen who (chanOf key))

/-- It may access `n` words there now: its windows are open, and no refresh slot is in the way. -/
def Blk.wayOpen (b : Blk) (who port key n : Nat) (write : Bool) : Bool :=
  b.wayWindow who port key write && (decide (stageKey ≤ key) || !b.refreshWait (chanOf key) n)

/-- Link remote service carries words now on the way that `way` names: in its slot of the idle calendar, otherwise in a window entry
(R174, R197). -/
def Blk.linkWindow (b : Blk) (way : XbarEnt → Bool) : Bool :=
  if b.idleCal then b.idleClass = 4
  else b.xbarPlay.any fun e => e.2.kind = 1 ∧ way e.2 ∧ b.inCycles xbarMhz e.1 e.2.start e.2.len

/-- From link die `ld` to the hub, from the hub to it, and from the other link die to it, under either die's id (R197). -/
def Blk.linkOut (b : Blk) (ld : Nat) : Bool := b.linkWindow fun x => x.owner = ownLink ld ∧ x.src = 16 + ld
def Blk.linkIn (b : Blk) (ld : Nat) : Bool := b.linkWindow fun x => x.owner = ownLink ld ∧ x.dst = 16 + ld
def Blk.linkAcross (b : Blk) (ld : Nat) : Bool := b.linkWindow fun x =>
  (x.owner = ownLink 0 ∨ x.owner = ownLink 1) ∧ x.src = 17 - ld ∧ x.dst = 16 + ld

/-- The near cache's DMA lookup port of compute die `cd` is scheduled now (R173, R184). -/
def Blk.lookupOpen (b : Blk) (cd : Nat) : Bool :=
  b.netPlay.any fun e => e.2.kind = 2 ∧ e.2.die = cd ∧ b.inCycles b.netMhz e.1 e.2.start e.2.len

end Sys2Proof.Machine
end

