-- ==== Sys2Proof/Machine/Topo.lean ====
section
/-!
DEFINITION. Ports, axes and coordinates (02, 09, 11): port numbering, the port map, axis lengths and order, planned roles.
-/
namespace Sys2Proof.Machine

/-! ### Ports and axes

Logical and physical ports are numbered 0 to 9 as A+, A−, B+, B−, S0, C+, C−, D+, D−, S1. -/

/-- Axis (0 to 3) of logical port `n`; the spare ports have none (4, as R202 numbers them). -/
def axisOf (n : Nat) : Nat := if n = 4 ∨ n = 9 then 4 else if n < 4 then n / 2 else (n - 5) / 2 + 2

/-- Plus port of its axis. -/
def isPlus (n : Nat) : Bool := n = 0 ∨ n = 2 ∨ n = 5 ∨ n = 7

/-- Logical port of axis x, direction plus or minus. -/
def axisPort (x : Nat) (plus : Bool) : Nat := (if x < 2 then 2 * x else 2 * x + 1) + (if plus then 0 else 1)

/-- The port at the far end of logical port `n`: A+ reaches A−, S0 reaches S0 (R272). -/
def oppPort (n : Nat) : Nat := if n = 4 ∨ n = 9 then n else axisPort (axisOf n) (!isPlus n)

/-- Axis length (R267), own coordinate and axis order of link die `ld`'s ROUTE_CFG. -/
def Blk.axLen (b : Blk) (ld x : Nat) : Nat := bits (b.rd (ROUTE_CFG.lengths ld)) (6 * x) 6 + 1
def Blk.coord (b : Blk) (ld : Nat) : Nat := b.rd (ROUTE_CFG.coord ld)
def Blk.order (b : Blk) (ld : Nat) : List Nat := (List.range 4).map fun i => bits (b.rd (ROUTE_CFG.order ld)) (2 * i) 2

/-- Component x of a coordinate (R212), and a coordinate with it replaced. -/
def coordAt (c x : Nat) : Nat := bits c (5 * x) 5
def coordSet (c x v : Nat) : Nat := setBits c (5 * x) 5 v

/-- Physical port of logical port `n` in link die `ld`'s map. -/
def Blk.physOf (b : Blk) (ld n : Nat) : Nat := bits (b.rd (ROUTE_PORT_MAP.map ld)) (4 * n) 4

/-- The logical port that physical port `p` serves under its own die's map (R232): an axis port it was mapped to, else its
own spare number. -/
def Blk.logicalOf (b : Blk) (p : Nat) : Nat :=
  match [0, 1, 2, 3, 5, 6, 7, 8, 4, 9].find? fun n => b.physOf (p / 5) n = p with
  | some n => n
  | none => p

/-- Show the logical ports of the map in PORT_STATE and CTL_DISC (R232). -/
def Blk.showMap (b : Blk) : Blk :=
  (List.range 10).foldl (fun b p =>
    (b.wr (PORT_STATE.logical p) (b.logicalOf p)).wr (CTL_DISC.logical p) (b.logicalOf p)) b

/-- Map logical `n` to physical `p` on both link dies (R210, R232). -/
def Blk.mapPort (b : Blk) (n p : Nat) : Blk :=
  let f (b : Blk) (ld : Nat) : Blk := b.wr (ROUTE_PORT_MAP.map ld) (setBits (b.rd (ROUTE_PORT_MAP.map ld)) (4 * n) 4 p)
  (f (f b 0) 1).showMap

/-- Port states (R199). -/
def psDown : Nat := 0
def psTraining : Nat := 1
def psCalm : Nat := 2
def psUp : Nat := 3
def psQuar : Nat := 4
def psDegr : Nat := 5
def psFailed : Nat := 6

def Blk.pstate (b : Blk) (p : Nat) : Nat := b.rd (PORT_STATE.state p)
def Blk.setPstate (b : Blk) (p v : Nat) : Blk := b.wr (PORT_STATE.state p) v

/-- UP, CALM or DEGRADED: the states that carry TIMESTAMP (R198). -/
def Blk.pLive (b : Blk) (p : Nat) : Bool := b.pstate p = psUp ∨ b.pstate p = psCalm ∨ b.pstate p = psDegr

/-- Planned roles (PORT_PLAN). -/
def Blk.role (b : Blk) (p : Nat) : Nat := b.rd (PORT_PLAN.role p)

/-- A standby spare that has not replaced a port (R30, R210). -/
def Blk.idleStandby (b : Blk) (p : Nat) : Bool := b.role p = 1 ∧ (b.logicalOf p = 4 ∨ b.logicalOf p = 9)

/-- A spare's standby duty: the axis ports (logical) its serves field names. -/
def servesPorts (serves : Nat) : List Nat :=
  let x := serves % 4
  (if bits serves 2 1 = 1 then [axisPort x true] else []) ++ (if bits serves 3 1 = 1 then [axisPort x false] else [])

/-- Standby spare planned for logical port `n`, if any. -/
def Blk.standbyFor (b : Blk) (n : Nat) : Option Nat :=
  [4, 9].find? fun p => b.role p = 1 ∧ (servesPorts (b.rd (PORT_PLAN.serves p))).contains n

/-- A physical port that the plan uses: a spare with a role, or an axis port of an axis longer than 1 (R272). -/
def Blk.planned (b : Blk) (p : Nat) : Bool :=
  if p = 4 ∨ p = 9 then b.role p = 1 ∨ b.role p = 2
  else b.role p ≠ 3 ∧ 1 < b.axLen (p / 5) (axisOf p)

/-- Neighbour's coordinate on axis x, plus or minus. -/
def Blk.neighbour (b : Blk) (x : Nat) (plus : Bool) : Nat :=
  let c := b.coord 0
  let l := b.axLen 0 x
  coordSet c x ((coordAt c x + (if plus then 1 else l - 1)) % l)

/-- The planned peer of physical port `p` acting as logical `n` (R272): coordinate and logical port. -/
def Blk.plannedPeer (b : Blk) (p n : Nat) : Nat × Nat :=
  if n = 4 ∨ n = 9 then
    let s := b.rd (PORT_PLAN.serves p)
    let q := if b.role p = 2 then s else (servesPorts s).foldl min 9
    (b.neighbour (axisOf q) (isPlus q), n)
  else (b.neighbour (axisOf n) (isPlus n), oppPort n)

end Sys2Proof.Machine
end

