-- ==== Sys2Proof/Machine/Plan.lean ====
section
/-!
DEFINITION. The configuration memory (11_bring_up.md, R263 to R269): its bytes, the layout header, and the installation
plan's words and entries. A byte that nothing has written reads 0xFF, the erased value of the flash.
-/
namespace Sys2Proof.Machine

def Blk.fbyte (b : Blk) (off : Nat) : Byte := Sp.get 0xFF b.flash off

def Blk.fbytes (b : Blk) (off : Nat) : Nat → List Byte
  | 0 => []
  | n + 1 => b.fbyte off :: b.fbytes (off + 1) n

def Blk.setFbytes (b : Blk) (off : Nat) : List Byte → Blk
  | [] => b
  | v :: vs => ({ b with flash := Sp.set 0xFF b.flash off v }).setFbytes (off + 1) vs

/-- Region offsets (R263). -/
def fDefaults : Nat := 0x1000
def fKey : Nat := 0x10000
def fCert : Nat := 0x20000
def fPlan : Nat := 0x100000
def fFw : Nat := 0x800000

/-- The layout header (R265) and a plan word (R267), as numbers. -/
def Blk.layoutHdr (b : Blk) : Nat := ofLeBytes (b.fbytes 0 32)
def Blk.planWord (b : Blk) (i : Nat) : Nat := ofLeBytes (b.fbytes (fPlan + 32 * i) 32)

/-- Plan header fields (R267). -/
def Blk.planLen (b : Blk) (x : Nat) : Nat := bits (b.planWord 0) (80 + 6 * x) 6 + 1
def Blk.permuteOk (b : Blk) : Bool := bit (b.planWord 0) 124
def Blk.discoverS (b : Blk) : Nat := let v := bits (b.planWord 0) 192 16; if v = 0 then 60 else v
def Blk.planModules (b : Blk) : Nat := bits (b.planWord 0) 208 17
def Blk.planAuths (b : Blk) : Nat := bits (b.planWord 0) 225 5 + 1
def Blk.planK (b : Blk) : Nat := bits (b.planWord 0) 230 5
def Blk.moduleOff (b : Blk) : Nat := bits (b.planWord 1) 0 32
def Blk.authOff (b : Blk) : Nat := bits (b.planWord 1) 32 32
def Blk.sigOff (b : Blk) : Nat := bits (b.planWord 1) 64 32
def Blk.planWords (b : Blk) : Nat := bits (b.planWord 1) 96 32

/-- Position of a coordinate in the module table (R268). -/
def Blk.planIndex (b : Blk) (c : Nat) : Nat :=
  coordAt c 0 + b.planLen 0 * (coordAt c 1 + b.planLen 1 * (coordAt c 2 + b.planLen 2 * coordAt c 3))

/-- Word j of module entry i. -/
def Blk.entryWord (b : Blk) (i j : Nat) : Nat := b.planWord (b.moduleOff + 3 * i + j)

/-- Bits [191:0] of the planned fingerprint of coordinate `c`. -/
def Blk.planFpr (b : Blk) (c : Nat) : Nat := b.entryWord (b.planIndex c) 0 % 2 ^ 192

/-- Authority a: word 0 of its entry (R269), whether it is a fault manager or a job controller, and its IPv6 address. -/
def Blk.authWord (b : Blk) (a : Nat) : Nat := b.planWord (b.authOff + 64 * a)
def Blk.isFaultMgr (b : Blk) (a : Nat) : Bool := bit (b.authWord a) 128
def Blk.isJobCtl (b : Blk) (a : Nat) : Bool := bit (b.authWord a) 129
def Blk.authAddr (b : Blk) (a : Nat) : Nat := b.authWord a % 2 ^ 128

/-- Check 0x01: the header, and every section within the plan's words and the region. -/
def Blk.planShape (b : Blk) : Bool :=
  let w0 := b.planWord 0
  let s := bits (b.planWord b.sigOff) 0 5
  let words := b.planWords
  decide (bits w0 0 32 = 0x504C414E) && decide (bits w0 32 8 = 1) && decide (words ≤ 0x38000)
    && decide (b.moduleOff + 3 * b.planModules ≤ words) && decide (b.authOff + 64 * b.planAuths ≤ words)
    && decide (b.sigOff + 1 + 41 * s ≤ words)

/-- The authorities of the plan, and its fault managers, in table order; configuration memory that holds no plan has none. -/
def Blk.auths (b : Blk) : List Nat := if b.planShape then List.range b.planAuths else []
def Blk.faultMgrs (b : Blk) : List Nat := b.auths.filter b.isFaultMgr

/-- The module's fingerprint, as SEC_FPR shows it. -/
def Blk.fpr (b : Blk) : Nat := ((List.range 4).map fun h => b.rd (SEC_FPR.fpr h) * 2 ^ (64 * h)).sum

end Sys2Proof.Machine
end

