-- ==== Sys2Proof/Machine/Packets.lean ====
section
/-!
DEFINITION. Packets and routing (09_stavelink.md, R212 to R232): header fields, classes, groups and queues, the router,
credits and limiters, marking and echoes, line multicast, epochs; PACKET_SEND, PACKET_ROUTE, ECHO, HEADWIND_RECOVERY and
the epoch commands.
-/
namespace Sys2Proof.Machine

/-! ### The header (R212) -/

def hType (h : Nat) : Nat := bits h 0 8
def hDst (h : Nat) : Nat := bits h 8 20
def hSrc (h : Nat) : Nat := bits h 28 20
def hVc (h : Nat) : Nat := bits h 48 3
def hEpoch (h : Nat) : Nat := bits h 51 1
def hMark (h : Nat) : Bool := bit h 52
def hMc (h : Nat) : Bool := bit h 54
def hMcAxis (h : Nat) : Nat := bits h 55 2
def hMcMinus (h : Nat) : Bool := bit h 57
def hMcHops (h : Nat) : Nat := bits h 58 5
def hLen (h : Nat) : Nat := bits h 64 8
def hCollId (h : Nat) : Nat := bits h 72 16
def hChunk (h : Nat) : Nat := bits h 88 16
def hDev (h : Nat) : Nat := bits h 104 48
def hHwAxis (h : Nat) : Nat := bits h 152 2
def hTag (h : Nat) : Nat := bits h 154 24

def hCls (h : Nat) : Nat := hVc h / 2

/-- Words of a packet, header included. -/
def RPkt.words (p : RawPacket) : Nat := p.payload.length + 1

/-- A header from its fields; dateline 0 at injection (R215). -/
def mkHdr (type dst src cls : Nat) (payload : Nat) (rest : Nat := 0) : Nat :=
  type + dst * 2 ^ 8 + src * 2 ^ 28 + 2 * cls * 2 ^ 48 + (payload - 1) * 2 ^ 64 + rest

/-- Classes a type admits (R213), as class numbers. -/
def typeClasses (t : Nat) : List Nat :=
  if t = 0x01 then [0, 1, 2]
  else if t = 0x02 ∨ t = 0x03 then [2]
  else if t = 0x04 ∨ t = 0x05 then [0]
  else if 0x10 ≤ t ∧ t ≤ 0x14 then [3]
  else []

/-! ### Word times and calendars (R196, R218 to R220) -/

/-- Word time in femtoseconds by port state (R196). -/
def Blk.wordFs (b : Blk) (p : Nat) : Nat :=
  if b.pstate p = psCalm then 2721500 else if b.pstate p = psDegr then 80044 else 40022

/-- Class and length of a calendar entry (R218), and the programs of a VC calendar section. -/
def calEntry (e : BitVec 16) : Nat × Nat := (bits e.toNat 0 4, bits e.toNat 4 12)
def readPrograms (ws : List Word) : List (List (Nat × Nat)) := (Config.vcPrograms ws).map fun p => p.map calEntry

/-- The calendar program in force on port `p`: class and length of each entry (R218, R220). -/
def Blk.program (b : Blk) (p : Nat) : List (Nat × Nat) :=
  let idle := [(8, 1), (6, 255), (7, 256), (4, 256), (5, 256)]
  let low := [(8, 1), (6, 511), (7, 512)]
  if b.pstate p ≠ psUp then low
  else if (b.port p).deferAdmit then low
  else
    let idx := b.rd (PORT_CAL.program p)
    if idx = 0xFFFF ∨ ¬(b.dstate = stRun) then idle
    else match b.run.job with
      | some j => (j.vcPrograms[idx]?).getD idle
      | none => idle

/-- Word times of a program. -/
def calPeriod (prog : List (Nat × Nat)) : Nat := (prog.map (·.2)).sum

/-- The entry in which word time `k` of a list of entries lies: its index (from `i`), its class, and the word times left in it. -/
def entryAt : List (Nat × Nat) → Nat → Nat → Option (Nat × Nat × Nat)
  | [], _, _ => none
  | e :: es, i, k => if k < e.2 then some (i, e.1, e.2 - k) else entryAt es (i + 1) (k - e.2)

/-- Word times of class `c` with which a list of entries begins. -/
def runOf (c : Nat) : List (Nat × Nat) → Nat
  | [] => 0
  | e :: es => if e.1 = c then e.2 + runOf c es else 0

/-- The entry of a repeating program that plays at word time `k`. -/
def playing (prog : List (Nat × Nat)) (k : Nat) : Option (Nat × Nat × Nat) := entryAt prog 0 (k % calPeriod prog)

/-- Word times left, at word time `k`, in the run of consecutive entries of class `c` (R219). -/
def runLeft (prog : List (Nat × Nat)) (c k : Nat) : Nat :=
  match playing prog k with
  | some (i, x, left) => if x = c then left + runOf c ((prog ++ prog).drop (i + 1)) else 0
  | none => 0

/-- Word times of port `p` that begin in this nanosecond, counted from cycle 0 of its program; and the start of one in femtoseconds. -/
def Blk.wordTimes (b : Blk) (p : Nat) : List Nat :=
  let c := (b.port p).calStart
  let lo := cdiv (b.now * 1000000 - c) (b.wordFs p)
  (List.range (cdiv ((b.now + 1) * 1000000 - c) (b.wordFs p) - lo)).map (· + lo)
def Blk.wordStart (b : Blk) (p k : Nat) : Nat := (b.port p).calStart + k * b.wordFs p

/-- Word times of this nanosecond in which an entry of class `c` plays on port `p` and no packet is being sent. -/
def Blk.openTimes (b : Blk) (p c : Nat) : List Nat :=
  (b.wordTimes p).filter fun k =>
    (playing (b.program p) k).any (fun e => e.2.1 == c) && decide ((b.port p).txEnd ≤ b.wordStart p k)

/-- A link word takes the first of the open word times of class `c`. -/
def Blk.useTime (b : Blk) (p c : Nat) : Blk :=
  match b.openTimes p c with
  | k :: _ => b.updPort p fun s => { s with txEnd := b.wordStart p (k + 1) }
  | [] => b

/-- Events that time alone brings about in this nanosecond (R378): network cycles, controller cycles, and the word times of the ports, of
which those that no word takes carry IDLE words. -/
def Blk.countTime (b : Blk) : Blk :=
  let cycles (mhz : Nat) : Nat := (b.now + 1) * mhz / 1000 - b.now * mhz / 1000
  if b.dstate ≤ stStandby then b else
  let b := if b.rd PWR_MODE.mode = 2 then b
    else (List.range 12).foldl (fun b cd => b.perf (cd + 1) 0x01 255 (cycles b.netMhz)) b
  let b := (List.range 4).foldl (fun b md => b.perf (13 + md) 0x01 255 (cycles Config.controllerMhz.toNat)) b
  (List.range 10).foldl (fun b p =>
    if ¬(b.pLive p ∨ b.pstate p = psQuar) then b
    else
      let ks := b.wordTimes p
      let idle := (ks.filter fun k => (b.port p).txEnd ≤ b.wordStart p k).length
      (b.perf (portDie p) 0x01 (portUnit p) ks.length).perf (portDie p) 0x03 (portUnit p) idle) b

/-- The entry in play (PORT_CAL.entry). -/
def Blk.entryNow (b : Blk) (p : Nat) : Nat :=
  match playing (b.program p) ((b.now * 1000000 - (b.port p).calStart) / b.wordFs p) with
  | some e => e.1
  | none => 0

/-- The program of port `p` restarts: cycle 0 is the first word time now, or after the last word of a packet being sent (R218); link
words are counted anew (R198). -/
def Blk.restartCal (b : Blk) (p : Nat) : Blk :=
  b.updPort p fun s => { s with calStart := max (b.now * 1000000) s.txEnd, linkCount := 0 }

/-- Word-time offset of the first entry of class `c` that begins at or after offset `x` of a program, counting on into
the next repetition. -/
def nextEntry (prog : List (Nat × Nat)) (c x : Nat) : Nat :=
  let step (acc : Nat × Option Nat) (e : Nat × Nat) : Nat × Option Nat :=
    (acc.1 + e.2, match acc.2 with
      | some o => some o
      | none => if e.1 = c ∧ x ≤ acc.1 then some acc.1 else none)
  match ((prog ++ prog).foldl step (0, none)).2 with
  | some o => o
  | none => x

/-- Due time of a packet that reaches the head of its queue now (R228). -/
def Blk.dueTime (b : Blk) (p vc : Nat) : Nat :=
  let prog := b.program p
  let period := calPeriod prog
  if period = 0 then b.now
  else
    let pos := cdiv (b.now * 1000000 - (b.port p).calStart) (b.wordFs p)
    b.wordStart p (pos / period * period + nextEntry prog vc (pos % period)) / 1000000

/-! ### Groups and queues (R211, R223) -/

/-- Logical members of the group that logical port `n` belongs to: a length-2 axis joins its two ports; a bonded spare
joins its axis port. -/
def Blk.group (b : Blk) (ld n : Nat) : List Nat :=
  let axis := if axisOf n < 4 ∧ b.axLen ld (axisOf n) = 2 then [axisPort (axisOf n) true, axisPort (axisOf n) false]
    else [n]
  axis ++ [4, 9].filter fun s => b.role s = 2 ∧ axis.contains (b.rd (PORT_PLAN.serves s))

/-- The group that a spare's own logical number sends for, when it is bonded. -/
def Blk.groupOf (b : Blk) (ld n : Nat) : List Nat :=
  if (n = 4 ∨ n = 9) ∧ b.role n = 2 then b.group ld (b.rd (PORT_PLAN.serves n)) else b.group ld n

/-- The axis of the direction for which logical port `n` sends: a bonded spare has its group's (R211, R215, R228). -/
def Blk.axisFor (b : Blk) (n : Nat) : Nat :=
  if (n = 4 ∨ n = 9) ∧ b.role n = 2 then axisOf (b.rd (PORT_PLAN.serves n)) else axisOf n

/-- The queue of a group is kept at its first member's number. -/
def Blk.leader (b : Blk) (ld n : Nat) : Nat := (b.groupOf ld n).headD n

/-- Port `p`'s state carries a packet (R199, R221); a FENCED module carries C3 packets only (R259). -/
def Blk.carries (b : Blk) (p : Nat) (h : Nat) : Bool :=
  let st := b.pstate p
  let c3 := hCls h = 3
  let t := hType h
  if st = psUp then (c3 || (¬(b.port p).deferAdmit && b.dstate ≠ stFenced))
  else if st = psCalm ∨ st = psDegr then c3
  else if st = psQuar then t = 0x12 || t = 0x13
  else false

/-- It admits one to its queue: a draining port admits none, and sends what it holds (R304). -/
def Blk.admits (b : Blk) (p : Nat) (h : Nat) : Bool := ¬(b.port p).draining && b.carries p h

/-- Header bits a packet may not set (R212, R214). -/
def hdrReserved (h : Nat) : Bool := bit h 63 || h / 2 ^ 178 ≠ 0

/-- A coordinate inside the axis lengths. -/
def Blk.inTorus (b : Blk) (ld c : Nat) : Bool := (List.range 4).all fun x => decide (coordAt c x < b.axLen ld x)

/-- Drop a packet at router `ld` (R221): causes 0 unreachable, 1 no member admits the class, 2 header check,
3 coordinate outside the axis lengths. The first data-class drop of a step raises EV_ROUTE_DROP, and the module votes fail in ARMED
or RUN. -/
def Blk.dropPkt (b : Blk) (ld h cause : Nat) : Blk :=
  let b := (b.satBy (ROUTE_STAT.drops ld) 1).perf (17 + ld) 0x07 255 1
  if hCls h < 3 ∧ ¬(b.router ld).dropped then
    let b := (b.raise (17 + ld) 5 0x0505 (hType h + hVc h * 2 ^ 8 + hDst h * 2 ^ 11 + cause * 2 ^ 31)).updRouter ld fun r =>
      { r with dropped := true }
    ifB b.locked Blk.modFail b
  else b

/-- Free `n` words of input buffer of physical port `inP` (10 or more: none) on `vc` (R216). -/
def Blk.freeCredit (b : Blk) (inP vc n : Nat) : Blk :=
  if 10 ≤ inP then b
  else b.updPort inP fun p => { p with vcFreed := Sp.set 0 p.vcFreed vc ((Sp.get 0 p.vcFreed vc + n) % 2 ^ 20) }

/-- Place of an input in the fixed order (R223): this die's ports, the path from the other link die, the hub. -/
def inputRank (inPort : Nat) : Nat := if inPort / 8 < 10 then inPort / 8 % 5 else if inPort / 8 = 11 then 5 else 6

/-- Add a packet to a queue: behind its VC's packets, but before those that entered at the same instant from a later input (R223). -/
def addQueue (q : List QPkt) (x : QPkt) : List QPkt :=
  let after (y : QPkt) : Bool := y.vc == x.vc && y.at_ == x.at_ && decide (inputRank x.inPort < inputRank y.inPort)
  (q.filter fun y => !after y) ++ x :: (q.filter after).map fun y => { y with due := none }

/-- The first packet of a VC in a queue has the due time `due`, if it has none yet. -/
def setDue (vc due : Nat) (q : List QPkt) : List QPkt :=
  match q.findIdx? fun y => y.vc = vc with
  | some i => q.modify i fun y => { y with due := some (y.due.getD due) }
  | none => q

/-- Queue a packet for the group of logical port `n`. -/
def Blk.enqueue (b : Blk) (ld n : Nat) (pkt : RawPacket) (inP inVc : Nat) (injected : Bool) : Blk :=
  let vc := hVc pkt.hdr.toNat
  let due := b.dueTime (b.physOf ld n) vc
  b.updPort (b.leader ld n) fun p =>
    { p with queue := setDue vc due (addQueue p.queue ⟨pkt, n, vc, none, injected, inP * 8 + inVc, b.now⟩) }

/-- The dateline bit on the hop out of logical port `n` (R215): set when the hop crosses, cleared on a turn, else kept. -/
def Blk.dateline (b : Blk) (ld h n inAxis : Nat) : Nat :=
  let x := b.axisFor n
  let c := coordAt (b.coord ld) x
  let l := b.axLen ld x
  let cross := if isPlus n then c + 1 = l else c = 0
  if cross then 1 else if inAxis = x then hVc h % 2 else 0

def setVc (h vc : Nat) : Nat := setBits h 48 3 vc

/-- Queue a packet at router `ld` for the group of logical port `n`, if a member admits it; else drop it (R221). -/
def Blk.queueOn (b : Blk) (ld n : Nat) (pkt : RawPacket) (inP inVc : Nat) (injected : Bool) : Blk :=
  let h := pkt.hdr.toNat
  if (b.groupOf ld n).any fun m => b.admits (b.physOf ld m) h then b.enqueue ld n pkt inP inVc injected
  else (b.dropPkt ld h 1).freeCredit inP inVc (RPkt.words pkt)

/-- A packet from the other link die arrives: its words leave their input buffer. -/
def Blk.landAcross (b : Blk) (x : CrossPkt) : Blk :=
  match x.out with
  | some n => (b.queueOn x.ld n x.pkt 11 (x.inPort % 8) x.injected).freeCredit (x.inPort / 8) (x.inPort % 8) (RPkt.words x.pkt)
  | none => b

/-- Send on the group of logical port `n` at router `ld`. Where its queue is the other link die's, link remote service carries the packet
there, in order (R197). -/
def Blk.sendOn (b : Blk) (ld n : Nat) (pkt : RawPacket) (inP inVc : Nat) (injected : Bool) : Blk :=
  let home := b.physOf ld (b.leader ld n) / 5
  if home = ld then b.queueOn ld n pkt inP inVc injected
  else
    let x : CrossPkt := ⟨home, false, some n, pkt, inP * 8 + inVc, injected⟩
    if b.linkAcross home ∧ ¬b.crossing.any fun y => y.ld = home ∧ ¬y.hub then b.landAcross x
    else { b with crossing := b.crossing ++ [x] }

/-- Deliver a packet: it waits for link remote service and the unit its type names (R197, R213). -/
def Blk.deliverPkt (b : Blk) (ld : Nat) (pkt : RawPacket) (inP inVc : Nat) : Blk :=
  { b with inbox := b.inbox ++ [⟨ld, inP * 8 + inVc, pkt⟩] }

/-- Exception entry e of bank bk at router ld. -/
def Blk.excHit (b : Blk) (ld bk h e : Nat) : Bool :=
  let v := b.reg (.routeExc ld bk e)
  let mask := bits v 20 20
  bit v 50 && (hDst h &&& mask) == (bits v 0 20 &&& mask) && bit v (40 + hCls h)

/-- Where R221 sends a unicast packet: it is delivered here, leaves by a logical port with the header it then has, or reaches nothing. -/
inductive Hop where
  | here
  | out (n hdr : Nat)
  | lost
  deriving DecidableEq, Repr

/-- The routing of header `h` at router `ld` with bank `bk` (R221). -/
def Blk.hop (b : Blk) (ld bk h inAxis : Nat) : Hop :=
  if hDst h = b.coord ld then .here
  else match (List.range 256).find? fun e => b.excHit ld bk h e with
    | some e =>
      let v := b.reg (.routeExc ld bk e)
      let n := bits v 44 4
      let level := b.rd (PORT_STATE.level_minor (b.physOf ld n))
      let dl := if level < 1 then 0 else bits v 48 2
      if 10 ≤ n then .lost
      else .out n (setVc h (2 * hCls h + if dl = 1 then 0 else if dl = 2 then 1 else hVc h % 2))
    | none =>
      match (b.order ld).find? fun x => coordAt (hDst h) x ≠ coordAt (b.coord ld) x with
      | none => .here
      | some x =>
        let d := b.rd (ROUTE_NEXT.dir ld bk x (coordAt (hDst h) x))
        let n := axisPort x (d = 1)
        if d = 0 ∨ d = 3 then .lost else .out n (setVc h (2 * hCls h + b.dateline ld h n inAxis))

/-- Unicast routing (R221). `inAxis` is the axis of the input port (4 or more: none). -/
def Blk.routeUni (b : Blk) (ld : Nat) (pkt : RawPacket) (inP inVc inAxis : Nat) (injected : Bool) : Blk :=
  let h := pkt.hdr.toNat
  let refused := (b.router ld).refusedSwitch
  let act := b.rd (ROUTE_EPOCH.active ld)
  let c := ifB (refused ∧ hDst h ≠ b.coord ld ∧ hEpoch h ≠ act) (fun b => b.satBy (ROUTE_STAT.cross_epoch ld) 1) b
  match b.hop ld (if refused then act else hEpoch h) h inAxis with
  | .here => c.deliverPkt ld pkt inP inVc
  | .out n h' => c.sendOn ld n { pkt with hdr := BitVec.ofNat 256 h' } inP inVc injected
  | .lost => (c.dropPkt ld h 0).freeCredit inP inVc (RPkt.words pkt)

/-- Line multicast (R231): deliver here, and forward while hops remain. At the sender the packet only leaves. The input buffer holds the
packet until its last copy has left. -/
def Blk.routeMc (b : Blk) (ld : Nat) (pkt : RawPacket) (inP inVc inAxis : Nat) (injected : Bool) : Blk :=
  let h := pkt.hdr.toNat
  let n := axisPort (hMcAxis h) (!hMcMinus h)
  let h1 := setVc h (2 * hCls h + b.dateline ld h n inAxis)
  if injected then b.sendOn ld n { pkt with hdr := BitVec.ofNat 256 h1 } inP inVc injected
  else
    if 1 < hMcHops h then
      (b.deliverPkt ld pkt 10 inVc).sendOn ld n { pkt with hdr := BitVec.ofNat 256 (setBits h1 58 5 (hMcHops h - 1)) } inP inVc false
    else b.deliverPkt ld pkt inP inVc

/-- A packet of this module enters router `ld` under the epoch in force there (R224): out of one port, or routed; a coordinate outside
the axis lengths is dropped. -/
def Blk.launch (b : Blk) (ld : Nat) (out : Option Nat) (pkt : RawPacket) : Blk :=
  let h := setBits pkt.hdr.toNat 51 1 (b.rd (ROUTE_EPOCH.active ld))
  let pkt := { pkt with hdr := BitVec.ofNat 256 h }
  match out with
  | some n => b.sendOn ld n { pkt with hdr := BitVec.ofNat 256 (setVc h (2 * hCls h + b.dateline ld h n 4)) } 10 0 true
  | none =>
    if ¬b.inTorus ld (hDst h) then b.dropPkt ld h 3
    else if hMc h then b.routeMc ld pkt 10 0 4 true
    else b.routeUni ld pkt 10 0 4 true

/-- The hub sends a packet to router `ld`, when link remote service has the way (R197). -/
def Blk.fromHub (b : Blk) (ld : Nat) (out : Option Nat) (pkt : RawPacket) : Blk :=
  if b.linkIn ld ∧ ¬b.crossing.any fun y => y.ld = ld ∧ y.hub then b.launch ld out pkt
  else { b with crossing := b.crossing ++ [⟨ld, true, out, pkt, 80, true⟩] }

/-- Inject a packet of this module. -/
def Blk.inject (b : Blk) (ld : Nat) (pkt : RawPacket) : Blk := b.fromHub ld none pkt

/-- Link remote service carries what waited, from each source in order (R197). -/
def Blk.carryLinks (b : Blk) : Blk :=
  let go (b : Blk) (sel : CrossPkt → Bool) (f : Blk → CrossPkt → Blk) : Blk :=
    (b.crossing.filter sel).foldl f { b with crossing := b.crossing.filter fun x => !sel x }
  [0, 1].foldl (fun b ld =>
    let b := ifB (b.linkAcross ld) (fun b => go b (fun x => x.ld == ld && !x.hub) Blk.landAcross) b
    ifB (b.linkIn ld) (fun b => go b (fun x => x.ld == ld && x.hub) fun b x => b.launch x.ld x.out x.pkt) b) b

/-- A packet of one payload word, class C3, from this module. -/
def Blk.sendC3 (b : Blk) (type dst : Nat) (payload : Nat) : Blk :=
  b.inject 0 ⟨BitVec.ofNat 256 (mkHdr type dst (b.coord 0) 3 1), [⟨BitVec.ofNat 256 payload, false⟩]⟩

/-- Send a C3 packet out of one logical port only, to the neighbour there. -/
def Blk.sendNeighbour (b : Blk) (n type : Nat) (payload : List MWord) (rest : Nat := 0) : Blk :=
  let dst := b.neighbour (axisOf n) (isPlus n)
  let hdr := mkHdr type dst (b.coord 0) 3 payload.length rest
  b.fromHub (if n < 5 then 0 else 1) (some n) ⟨BitVec.ofNat 256 hdr, payload⟩

/-- R229: a destination that receives a marked packet echoes to its source, once per source, class and axis in
echo_gap_ns; the last 64 triples are kept. -/
def Blk.echoFor (b : Blk) (h : Nat) : Blk :=
  if ¬hMark h ∨ hCls h = 3 then b
  else
    let ld := hHwAxis h / 2
    let r := b.router 0
    let same (t : Nat × Nat × Nat × Nat) : Bool := t.1 = hSrc h ∧ t.2.1 = hCls h ∧ t.2.2.1 = hHwAxis h
    let recent := r.echoed.any fun t => same t ∧ b.now < t.2.2.2 + b.rd (HW_CFG.echo_gap_ns ld)
    if recent then b
    else
      let l := (r.echoed.filter fun t => ¬same t) ++ [(hSrc h, hCls h, hHwAxis h, b.now)]
      let b := b.updRouter 0 fun r => { r with echoed := l.drop (l.length - 64) }
      let b := b.satBy (HW_STAT.echoes ld) 1
      let pay := hCls h + hHwAxis h * 4 + b.coord 0 * 16
      let hdr := mkHdr 0x14 (hSrc h) (b.coord 0) 3 1 (2 ^ 53)
      b.inject ld ⟨BitVec.ofNat 256 hdr, [⟨BitVec.ofNat 256 pay, false⟩]⟩

/-- A delivered packet leaves its buffer for the unit its type names, when link remote service has the way `way` from its router, and is
acted on (R197, R213, R216). -/
def takePktIf (way : Blk → InPkt → Bool) (pkt : RawPacket) (f : Blk → Blk) (b : Blk) : Blk :=
  match b.inbox.find? fun x => x.pkt = pkt ∧ way b x with
  | some x =>
    f ((({ b with inbox := b.inbox.erase x }).freeCredit (x.inPort / 8) (x.inPort % 8) (RPkt.words pkt)).echoFor pkt.hdr.toNat)
  | none => b
def takePkt (pkt : RawPacket) (f : Blk → Blk) (b : Blk) : Blk := takePktIf (fun b x => b.linkOut x.ld) pkt f b

/-! ### Limiters (R230) -/

/-- Limiter of class c and axis x: kept on the axis's link die at key 2c + (x mod 2). -/
def Blk.limiter (b : Blk) (c x : Nat) : Limiter :=
  let ld := x / 2
  Sp.get ⟨b.rd (HW_CFG2.depth_words ld) * 64, 0, none, 0⟩ (b.router ld).limiters (2 * c + x % 2)

def Blk.setLimiter (b : Blk) (c x : Nat) (l : Limiter) : Blk :=
  b.updRouter (x / 2) fun r =>
    { r with limiters := Sp.set ⟨b.rd (HW_CFG2.depth_words (x / 2)) * 64, 0, none, 0⟩ r.limiters (2 * c + x % 2) l }

/-- Tokens held now, in sixty-fourths of a word: filled at f ÷ 64 of the full-width word rate, up to the depth. -/
def Blk.tokens (b : Blk) (c x : Nat) : Nat :=
  let l := b.limiter c x
  let f := b.rd (HW_RATE.f (x / 2) c (x % 2))
  min (b.rd (HW_CFG2.depth_words (x / 2)) * 64) (l.tokens + (b.now - l.filledAt) * f * 24986 / 1000)

/-- Axes on which destination and source differ. -/
def diffAxes (h : Nat) : List Nat := (List.range 4).filter fun x => coordAt (hDst h) x ≠ coordAt (hSrc h) x

/-- ECHO (R230): halve the limiter of the echo's class and axis, unless a halving is still in hold. -/
def Blk.echoAct (b : Blk) (pay : Nat) : Blk :=
  let c := pay % 4
  let x := pay / 4 % 4
  if 3 ≤ c then b
  else
    let ld := x / 2
    let l := b.limiter c x
    let inHold := match l.halvedAt with
      | some t => decide (b.now < t + b.rd (HW_CFG.hold_ns ld))
      | none => false
    if inHold then b
    else
      let f := b.rd (HW_RATE.f ld c (x % 2))
      let tok := b.tokens c x
      let b := b.setLimiter c x { l with tokens := tok, filledAt := b.now, halvedAt := some b.now }
      (b.wr (HW_RATE.f ld c (x % 2)) (max (b.rd (HW_CFG2.floor ld)) (f / 2))).satBy (HW_RATE.halvings ld c (x % 2)) 1

/-- HEADWIND_RECOVERY (R230): every step_ns without a halving adds the step, up to 64. -/
def recoveryFx (ld : Fin 2) (b : Blk) : Blk :=
  let ld := ld.val
  (List.range 6).foldl (fun b i =>
    let c := i / 2
    let x := 2 * ld + i % 2
    let l := b.limiter c x
    let last := max l.steppedAt (l.halvedAt.getD 0)
    let f := b.rd (HW_RATE.f ld c (i % 2))
    if last + b.rd (HW_CFG.step_ns ld) ≤ b.now then
      let tok := b.tokens c x
      (b.setLimiter c x { l with tokens := tok, filledAt := b.now, steppedAt := b.now }).wr
        (HW_RATE.f ld c (i % 2)) (min 64 (f + b.rd (HW_CFG2.step ld)))
    else b) b

/-- ECHO: a delivered ECHO reaches the limiters of link die `ld`; from the other die's router it crosses the hub (R213, R230). -/
def echoFx (ld : Fin 2) (pkt : RawPacket) (b : Blk) : Blk :=
  if ¬WellFormed.packet pkt ∨ hType pkt.hdr.toNat ≠ 0x14 then b
  else takePktIf (fun b x => x.ld == ld.val || b.linkAcross ld.val) pkt (fun b =>
    (b.perf (17 + ld.val) 0x09 255 1).echoAct (pkt.payload.headD ⟨0, false⟩).data.toNat) b

/-! ### Sending (R216, R217, R219, R228, R230) -/

/-- Packets that the routers hold: the router, the input, the logical port of the output (none: the hub) and the header of each. -/
def Blk.routed (b : Blk) : List (Nat × Nat × Option Nat × Nat) :=
  ((List.range 10).flatMap fun q => (b.port q).queue.map fun x =>
    (b.physOf (q / 5) q / 5, x.inPort, some x.outLogical, x.pkt.hdr.toNat))
  ++ ((b.crossing.filter fun x => !x.hub).map fun x => (1 - x.ld, x.inPort, x.out, x.pkt.hdr.toNat))
  ++ b.inbox.map fun x => (x.ld, x.inPort, none, x.pkt.hdr.toNat)

/-- Outputs of the old-epoch packets buffered from input `i` (0 to 4 ports, 5 hub) at router `ld` (ROUTE_DRAIN). -/
def Blk.oldOutputs (b : Blk) (ld i : Nat) : List (Option Nat) :=
  let old := 1 - b.rd (ROUTE_EPOCH.active ld)
  (b.routed.filter fun x => hEpoch x.2.2.2 = old ∧ (if i < 5 then x.2.1 / 8 = ld * 5 + i else x.1 = ld ∧ 80 ≤ x.2.1)).map (·.2.2.1)
def Blk.oldPackets (b : Blk) (ld i : Nat) : Nat := (b.oldOutputs ld i).length

/-- Input channels that can still carry an old-epoch packet towards logical port `n` of router `ld` (R225): those of axes
at or before its axis in the order, or every input where an exception of the old bank names the port. -/
def Blk.feeds (b : Blk) (ld n i : Nat) : Bool :=
  let old := 1 - b.rd (ROUTE_EPOCH.active ld)
  let ord := b.order ld
  let pos (x : Nat) : Nat := (ord.findIdx? fun y => y = x).getD 4
  let exc := (List.range 256).any fun e =>
    let v := b.reg (.routeExc ld old e)
    bit v 50 && bits v 44 4 == n
  let inAx := b.axisFor (b.logicalOf (ld * 5 + i))
  exc || i = 5 || decide (pos inAx ≤ pos (b.axisFor n))

/-- An old-epoch packet from input `i` at router `at_` can still reach class `c` of logical port `n`'s group: the input's channel is open,
or a packet for the group waits (R225). -/
def Blk.stillFed (b : Blk) (at_ n c i : Nat) : Bool :=
  b.feeds at_ n i && (bits (b.rd (ROUTE_DRAIN.open_ at_ i)) (2 * c) 2 != 0
    || (b.oldOutputs at_ i).any fun o => o.any fun m => b.leader at_ m == b.leader at_ n)

/-- Close the output channels of router `ld` that no input of either link die can feed with an old-epoch packet any more, and report them
to the neighbours in an EPOCH_MARK (R225); nothing is sent after a refused switch (R227). -/
def Blk.closeDie (b : Blk) (ld : Nat) : Blk :=
  if b.on (ROUTE_EPOCH.released ld) ∨ (b.router ld).refusedSwitch then b
  else (List.range 5).foldl (fun b j =>
    let p := ld * 5 + j
    let n := b.logicalOf p
    let clear (c : Nat) : Bool := (List.range 2).all fun at_ => (List.range 6).all fun i => !(b.stillFed at_ n c i)
    let now := (List.range 8).filter fun v => clear (v / 2) && !((b.port p).closedOut.contains v)
    if now = [] then b
    else
      let mask := now.foldl (fun m v => m + 2 ^ v) 0
      let w := 0x53 + b.rd (ROUTE_EPOCH.active ld) * 2 ^ 8 + mask * 2 ^ 16
      b.updPort p fun s => { s with closedOut := s.closedOut ++ now, pendLink := s.pendLink ++ [(0x53, w)] }) b

def Blk.closeOutputs (b : Blk) : Blk := (b.closeDie 0).closeDie 1

/-- The input channels of port `p` close, as it leaves UP, DEGRADED and CALM (R225). -/
def Blk.closeInput (b : Blk) (p : Nat) : Blk :=
  if b.on (ROUTE_EPOCH.released (p / 5)) then b else (b.wr (ROUTE_DRAIN.open_ (p / 5) (p % 5)) 0).closeOutputs

/-- Queued packets of port `p`'s group that no member carries any more are dropped at the router (R199, R221). -/
def Blk.purge (b : Blk) (p : Nat) : Blk :=
  let ld := p / 5
  let n := b.logicalOf p
  let lead := b.leader ld n
  let stuck (x : QPkt) : Bool := !((b.groupOf ld n).any fun m => b.carries (b.physOf ld m) x.pkt.hdr.toNat)
  let gone := (b.port lead).queue.filter stuck
  gone.foldl (fun b x => (b.dropPkt ld x.pkt.hdr.toNat 1).freeCredit (x.inPort / 8) (x.inPort % 8) (RPkt.words x.pkt))
    (b.updPort lead fun s => { s with queue := s.queue.filter fun x => !stuck x })

/-- Port `p` may send the packet: its state carries it, or it drains what it holds (R199, R304). -/
def Blk.maySend (b : Blk) (p : Nat) (x : QPkt) : Bool :=
  b.carries p x.pkt.hdr.toNat || ((b.port p).draining && b.pstate p = psUp)

/-- When port `p` can start the packet in this nanosecond, in femtoseconds: credits and the replay buffer hold it, no packet is being
sent, and the run of its VC's entries that plays holds it (R206, R216, R219). -/
def Blk.sendAt (b : Blk) (p : Nat) (x : QPkt) : Option Nat :=
  let words := RPkt.words x.pkt
  if ¬b.maySend p x ∨ b.rd (PORT_CREDIT.avail p x.vc) < words ∨ 16384 < (b.port p).replay.length + words then none
  else ((b.openTimes p x.vc).find? fun k => words ≤ runLeft (b.program p) x.vc k).map (b.wordStart p)

/-- Another member of port `p`'s group starts the packet first: its entry opens in an earlier word time than `t`, or in the same one and
its index is lower (R211). -/
def Blk.otherFirst (b : Blk) (p t : Nat) (x : QPkt) : Bool :=
  let fs := b.wordFs p
  (b.groupOf (p / 5) (b.logicalOf p)).any fun m =>
    let q := b.physOf (p / 5) m
    q != p && (b.sendAt q x).any fun u => decide (u + fs ≤ t) || (decide (u < t + fs) && decide (q < p))

/-- PACKET_SEND: the head packet of the group and VC starts on port `p` if credits, tokens, the replay buffer and the run of
entries allow it. -/
def packetSendFx (p : Port) (vc : Fin 8) (b : Blk) : Blk :=
  let p := p.val
  let vc := vc.val
  let ld := p / 5
  let n := b.logicalOf p
  let lead := b.leader ld n
  match (b.port lead).queue.find? fun x => x.vc = vc with
  | none => b
  | some x =>
    let h := x.pkt.hdr.toNat
    let words := RPkt.words x.pkt
    let cls := vc / 2
    if b.maySend p x ∧ b.rd (PORT_CREDIT.avail p vc) < words then
      let n := (b.openTimes p vc).length
      (b.incBy (PORT_CREDIT.waits p vc) n).perf (portDie p) 0x08 (portUnit p) n
    else match b.sendAt p x with
    | none => b
    | some t =>
    if b.otherFirst p t x ∨ (x.injected ∧ cls < 3 ∧ (diffAxes h).any fun a => b.tokens cls a < words * 64) then b
    else
      let b := if x.injected ∧ cls < 3 then (diffAxes h).foldl (fun b a =>
        let t := b.tokens cls a
        let l := b.limiter cls a
        b.setLimiter cls a { l with tokens := t - words * 64, filledAt := b.now }) b else b
      let late := match x.due with
        | some d => decide (d + b.rd (HW_CFG.threshold_ns ld) < b.now)
        | none => false
      let mark := late && decide (cls < 3) && !hMark h
      let h' := if mark then setBits (h + 2 ^ 52) 152 2 (b.axisFor n) else h
      let b := ifB mark (fun b => (b.satBy (HW_STAT.marks ld) 1).perf (portDie p) 0x06 (portUnit p) 1) b
      let pkt : RawPacket := { x.pkt with hdr := BitVec.ofNat 256 h' }
      let due := b.dueTime p vc
      let b := b.updPort lead fun s => { s with queue := setDue vc due (s.queue.erase x) }
      let fs := b.wordFs p
      let b := b.updPort p fun s =>
        { s with replay := s.replay ++ ⟨pkt.hdr, false⟩ :: pkt.payload, txSeq := (s.txSeq + words) % 2 ^ 24, txEnd := t + words * fs }
      let b := b.wr (PORT_CREDIT.avail p vc) (b.rd (PORT_CREDIT.avail p vc) - words)
      let b := (b.freeCredit (x.inPort / 8) (x.inPort % 8) words).perf (portDie p) 0x02 (portUnit p) words
      (b.emit (.packet p pkt)).closeOutputs

/-! ### Epochs (R224 to R227) -/

/-- A switch of router `ld` to bank `bank` (R226): refused if not released, not ready or already active; and after a refusal, until a
re-plan resets the epochs (R227). -/
def Blk.switchEpoch (b : Blk) (bank ld : Nat) : Blk :=
  let act := b.rd (ROUTE_EPOCH.active ld)
  let rel := b.on (ROUTE_EPOCH.released ld)
  let rdy := b.on (ROUTE_EPOCH.shadow_ready ld)
  if bank = act ∨ ¬rel ∨ ¬rdy ∨ (b.router ld).refusedSwitch then
    let b := b.raise (17 + ld) 5 0x0506 (bank + 2 * b2n (!rel) + 4 * b2n (!rdy) + 8 * b2n (decide (bank = act)))
    (b.satBy (ROUTE_EPOCH.refused ld) 1).updRouter ld fun r => { r with refusedSwitch := true }
  else
    let b := ((b.wr (ROUTE_EPOCH.active ld) bank).wr (ROUTE_EPOCH.shadow_ready ld) 0).wr (ROUTE_EPOCH.released ld) 0
    let b := (List.range 6).foldl (fun b i =>
      b.wr (ROUTE_DRAIN.open_ ld i) (if i < 5 ∧ b.pLive (ld * 5 + i) then 0xFF else 0)) b
    (List.range 5).foldl (fun b i => b.updPort (ld * 5 + i) fun s => { s with closedOut := [] }) b

/-- A switch entry that the scheduled-event table refuses: the outcome of a refused switch on both dies, without its event (R226). -/
def Blk.refuseEntry (b : Blk) : Blk :=
  [0, 1].foldl (fun b ld => (b.satBy (ROUTE_EPOCH.refused ld) 1).updRouter ld fun r => { r with refusedSwitch := true }) b

/-- A re-plan resets the epochs (R227): bank 0 is active and bank 1 is free to be written. -/
def Blk.resetEpochs (b : Blk) : Blk :=
  [0, 1].foldl (fun b ld =>
    let b := ((b.wr (ROUTE_EPOCH.active ld) 0).wr (ROUTE_EPOCH.shadow_ready ld) 0).wr (ROUTE_EPOCH.released ld) 1
    let b := (List.range 6).foldl (fun b i => b.wr (ROUTE_DRAIN.open_ ld i) 0) b
    b.updRouter ld fun r => { r with refusedSwitch := false }) b

/-- EPOCH_MARK (R225): a received mark closes the named input channels of the old epoch. -/
def epochMarkFx (p : Port) (epoch : Bool) (vcs : BitVec 8) (b : Blk) : Blk :=
  let ld := p.val / 5
  let i := p.val % 5
  if b.on (ROUTE_EPOCH.released ld) ∨ b2n epoch ≠ b.rd (ROUTE_EPOCH.active ld) then b
  else
    let o := b.rd (ROUTE_DRAIN.open_ ld i)
    (b.wr (ROUTE_DRAIN.open_ ld i) (o &&& (255 - vcs.toNat))).closeOutputs

/-- EPOCH_BANK_RELEASE (R225): every input channel closed and no old-epoch packet left. -/
def epochReleaseFx (ld : Fin 2) (b : Blk) : Blk :=
  let ld := ld.val
  if b.on (ROUTE_EPOCH.released ld) then b
  else if (List.range 6).all fun i => b.rd (ROUTE_DRAIN.open_ ld i) = 0 ∧ b.oldPackets ld i = 0 then
    b.wr (ROUTE_EPOCH.released ld) 1
  else b

def execPacketSend (p : Port) (v : Fin 8) (s : State) := onBlk s (packetSendFx p v)
def execEcho (ld : Fin 2) (x : RawPacket) (s : State) := onBlk s (echoFx ld x)
def execHeadwindRecovery (ld : Fin 2) (s : State) := onBlk s (recoveryFx ld)
def execEpochMark (p : Port) (e : Bool) (v : BitVec 8) (s : State) := onBlk s (epochMarkFx p e v)
def execEpochBankRelease (ld : Fin 2) (s : State) := onBlk s (epochReleaseFx ld)

end Sys2Proof.Machine
end

