-- ==== Sys2Proof/Machine/CollOps.lean ====
section
/-!
DEFINITION. Collective operations shared by the links, the anchors and the engine (10_collectives_commit.md): the
descriptor's fields (R234), the run of a logical channel, chunks (R240, R243) and flows (R241 to R246), failure (R248) and the status word (R237), the journal (R254),
and the recovery of a doubt (R256).
-/
namespace Sys2Proof.Machine

/-! ### Descriptor fields (R234) -/

def CollRun.op (r : CollRun) : Nat := bits r.desc0.toNat 0 4
def CollRun.axes (r : CollRun) : Nat := bits r.desc0.toNat 4 4
def CollRun.lchan (r : CollRun) : Nat := bits r.desc0.toNat 8 6
def CollRun.alg (r : CollRun) : Nat := bits r.desc0.toNat 14 2
def CollRun.norm (r : CollRun) : Bool := bit r.desc0.toNat 16
def CollRun.wire (r : CollRun) : Bool := bit r.desc0.toNat 17
def CollRun.srcScaled (r : CollRun) : Bool := bit r.desc0.toNat 18
def CollRun.srcFmt (r : CollRun) : Nat := bits r.desc0.toNat 20 4
def CollRun.srcSign (r : CollRun) : Bool := bit r.desc0.toNat 24
def CollRun.srcLayout (r : CollRun) : Nat := bits r.desc0.toNat 25 2
def CollRun.root (r : CollRun) : Nat := bits r.desc0.toNat 27 5
def CollRun.srcTid (r : CollRun) : Nat := bits r.desc0.toNat 32 14
def CollRun.srcAddr (r : CollRun) : Nat := bits r.desc0.toNat 48 48
def CollRun.dstAddr (r : CollRun) : Nat := bits r.desc0.toNat 96 48
def CollRun.convAddr (r : CollRun) : Nat := bits r.desc0.toNat 144 48
def CollRun.count (r : CollRun) : Nat := bits r.desc0.toNat 192 32
def CollRun.statusAddr (r : CollRun) : Nat := bits r.desc1.toNat 0 48
def CollRun.scratchAddr (r : CollRun) : Nat := bits r.desc1.toNat 48 48
def CollRun.srcScaleAddr (r : CollRun) : Nat := bits r.desc1.toNat 112 48

/-- The run of logical channel `l`. -/
def Blk.run? (b : Blk) (l : Nat) : Option CollRun := Sp.get none b.coll.runs l
def Blk.setRun (b : Blk) (l : Nat) (r : Option CollRun) : Blk :=
  b.updColl fun c => { c with runs := Sp.set none c.runs l r }

/-- Axes of a run longer than 1, in ROUTE_CFG.order (R235, R243). -/
def Blk.runAxes (b : Blk) (r : CollRun) : List Nat :=
  (b.order 0).filter fun x => bit r.axes x ∧ 1 < b.axLen 0 x

/-- Physical channel that carries logical channel `l`, if bound. -/
def Blk.pchanOf (b : Blk) (l : Nat) : Option Nat :=
  (List.range 16).find? fun c => b.on (COLL_CHAN.bound c) ∧ b.rd (COLL_CHAN.logical c) = l

/-- Write the status word of a run and post its completion to queue 5 of the issuing core (R237). -/
def Blk.collStatus (b : Blk) (r : CollRun) (aborted : Bool) (axis phase step : Nat) : Blk :=
  let w := b2n (!aborted) + 2 * b2n aborted + 4 * b2n r.fallback + 8 * bits r.flags 0 1 + 16 * bits r.flags 1 1
    + 32 * bits r.flags 2 1 + axis * 64 + phase * 256 + step * 512
  let b := match b.place r.statusAddr with
    | some key => (b.openWrite key 1).writeWord key ⟨BitVec.ofNat 256 w, false⟩
    | none => b
  b.post r.core 5 aborted

/-- A run ends: its channel is no longer busy. -/
def Blk.endRun (b : Blk) (r : CollRun) : Blk :=
  let b := b.setRun r.lchan none
  match b.pchanOf r.lchan with
  | some c => (b.wr (COLL_CHAN.busy c) 0).wr (COLL_CHAN.suspended c) 0
  | none => b

/-- Phase that a run is in, as the status word codes it: 0 reduction or copy, 1 gather (R237). -/
def Blk.phaseOf (b : Blk) (r : CollRun) : Nat :=
  b2n (r.op = 1 ∨ (r.op = 2 ∧ r.alg ≠ 3 ∧ (b.runAxes r).length ≤ r.stage))

/-- A write into a shard of the inactive slot completed with aborted status: its bit will stay clear (R253). -/
def Blk.shardAbort (b : Blk) (a : Nat) : Blk :=
  match b.run.job with
  | none => b
  | some j =>
    let base := if b.journal.active = 0 then j.slotB else j.slotA
    let hit (s : Shard) : Bool := decide (base + s.off * 2 ^ 21 ≤ a ∧ a < base + (s.off + s.len) * 2 ^ 21)
    match j.shards.findIdx? hit with
    | some i => b.updColl fun c => { c with abortedShard := addNew c.abortedShard i }
    | none => b

/-! ### Geometry (R240, R243) -/

/-- A stage of a collective: kind 0 reduce, 1 gather, 2 direct, 3 broadcast, 4 all-to-all; its axis; the index of the axis
among those the run names. -/
structure CollStage where
  kind : Nat
  axis : Nat
  ix : Nat
  deriving DecidableEq, Repr

def Blk.collStages (b : Blk) (r : CollRun) : List CollStage :=
  let ax := (b.runAxes r).zipIdx
  let red := ax.map fun p => CollStage.mk 0 p.1 p.2
  let gat := (ax.map fun p => CollStage.mk 1 p.1 p.2).reverse
  match r.op with
  | 0 => red
  | 1 => gat
  | 2 => if r.alg = 3 then ax.map fun p => CollStage.mk 2 p.1 p.2 else red ++ gat
  | 3 => ax.map fun p => CollStage.mk 3 p.1 p.2
  | _ => ax.map fun p => CollStage.mk 4 p.1 p.2

/-- A half moves plus-ward (R240, R242). -/
def halfPlus (alg half : Nat) : Bool := if alg = 1 then true else if alg = 2 then false else half = 0

/-- First unit and number of units of a half of a buffer of `n` elements. -/
def halfUnits (alg n half : Nat) : Nat × Nat :=
  let u := cdiv n 256
  let low := if alg = 0 then cdiv u 2 else u
  if half = 0 then (0, low) else (low, u - low)

/-- Offset and length of chunk `c` of a half. -/
def chunkRange (n l alg half c : Nat) : Nat × Nat :=
  let h := halfUnits alg n half
  let v := h.2
  let u0 := h.1 + c * (v / l) + min c (v % l)
  let k := v / l + (if c < v % l then 1 else 0)
  (256 * u0, min n (256 * (u0 + k)) - min n (256 * u0))

/-- Offset and length of a half. -/
def halfRange (n alg half : Nat) : Nat × Nat :=
  let h := halfUnits alg n half
  (256 * h.1, min n (256 * (h.1 + h.2)) - min n (256 * h.1))

/-- Elements [a, a + n) of a buffer made of the given ranges of the full buffer. -/
def subRanges : List (Nat × Nat) → Nat → Nat → List (Nat × Nat)
  | [], _, _ => []
  | (s, l) :: rest, a, n =>
    if n = 0 then []
    else if l ≤ a then subRanges rest (a - l) n
    else
      let k := min n (l - a)
      (s + a, k) :: subRanges rest 0 (n - k)

def rangesLen (rs : List (Nat × Nat)) : Nat := (rs.map (·.2)).sum

/-- Position in the full buffer of element `e` of a buffer made of ranges. -/
def posIn : List (Nat × Nat) → Nat → Nat
  | [], e => e
  | (s, l) :: rest, e => if e < l then s + e else posIn rest (e - l)

/-- The ranges that form the buffer of stage `ix`: the chunks this module owns after the stages before it. -/
def Blk.rangesAt (b : Blk) (r : CollRun) (axes : List Nat) : Nat → List (Nat × Nat)
  | 0 => [(0, r.count)]
  | i + 1 =>
    let rs := b.rangesAt r axes i
    let x := axes.getD i 0
    let p := coordAt (b.coord 0) x
    let n := rangesLen rs
    let c0 := chunkRange n (b.axLen 0 x) r.alg 0 p
    let c1 := chunkRange n (b.axLen 0 x) r.alg 1 p
    subRanges rs c0.1 c0.2 ++ subRanges rs c1.1 c1.2

/-- Buffer of a stage. The direct algorithm keeps the whole buffer. -/
def Blk.stageRanges (b : Blk) (r : CollRun) (ix : Nat) : List (Nat × Nat) :=
  if r.op = 2 ∧ r.alg = 3 then [(0, r.count)]
  else if 3 ≤ r.op then [(0, r.count)]
  else b.rangesAt r (b.runAxes r) ix

def Blk.stageLen (b : Blk) (r : CollRun) (ix : Nat) : Nat := rangesLen (b.stageRanges r ix)

/-- A line variant is in force on axis x (R246): its k. -/
def Blk.lineOf (b : Blk) (x : Nat) : Option Nat :=
  let v := bits (b.rd COLL_FALLBACK.variants) (8 * x) 8
  if bit v 5 then some (v % 32) else none

/-- Position along the opened line. -/
def lineQ (p k l : Nat) : Nat := (p + 2 * l - (k + 1)) % l

/-! ### Flows (R241 to R246) -/

/-- Where a flow goes: axis, direction, unicast destination or multicast hops; and the fields of R241. -/
structure Flow where
  axis : Nat
  plus : Bool
  hops : Nat
  dst : Nat
  half : Nat
  phase : Nat
  step : Nat
  ix : Nat
  pos : Nat
  deriving DecidableEq, Repr

/-- Number of a flow: stage, phase, half, step, direction, position. -/
def flowKey (ix phase half step side pos : Nat) : Nat :=
  ix + 4 * phase + 8 * half + 16 * step + 512 * side + 1024 * pos

def Flow.key (f : Flow) : Nat := flowKey f.ix f.phase f.half f.step (b2n (!f.plus)) f.pos

/-- Own position and length of a stage's axis. -/
def Blk.posLen (b : Blk) (x : Nat) : Nat × Nat := (coordAt (b.coord 0) x, b.axLen 0 x)

def Blk.flowTo (b : Blk) (st : CollStage) (plus : Bool) (half phase step : Nat) : Flow :=
  ⟨st.axis, plus, 0, b.neighbour st.axis plus, half, phase, step, st.ix, 0⟩

/-- A multicast flow of `hops` modules (R231): its destination is the last of them. -/
def Blk.flowMc (b : Blk) (st : CollStage) (plus : Bool) (half hops : Nat) : Flow :=
  let p := b.posLen st.axis
  let last := if plus then (p.1 + hops) % p.2 else (p.1 + p.2 - hops) % p.2
  ⟨st.axis, plus, hops, coordSet (b.coord 0) st.axis last, half, 0, 0, st.ix, 0⟩

/-- An incoming flow: its key, its elements, and the flow that carries it on. -/
structure InFlow where
  key : Nat
  elems : Nat
  next : Option Flow
  deriving DecidableEq, Repr

/-- Sum of the lengths of the chunks that `sel` takes. -/
def chunkSum (n l alg half : Nat) (sel : Nat → Bool) : Nat :=
  (((List.range l).filter sel).map fun c => (chunkRange n l alg half c).2).sum

/-- Flows that a stage receives (R242 to R246). -/
def Blk.inFlows (b : Blk) (r : CollRun) (st : CollStage) : List InFlow :=
  let pl := b.posLen st.axis
  let p := pl.1
  let l := pl.2
  let n := b.stageLen r st.ix
  let ring (phase half : Nat) : List InFlow :=
    let plus := halfPlus r.alg half
    (List.range (l - 1)).map fun s =>
      let back := if phase = 0 then s + 2 else s + 1
      let c := if plus then (p + 2 * l - back) % l else (p + back) % l
      ⟨flowKey st.ix phase half s (b2n (!plus)) 0, (chunkRange n l r.alg half c).2,
        if s + 2 < l then some (b.flowTo st plus half phase (s + 1)) else none⟩
  let line (k phase half : Nat) : List InFlow :=
    let q := lineQ p k l
    let qc (c : Nat) : Nat := lineQ c k l
    let left (c : Nat) : Bool := if phase = 0 then decide (q ≤ qc c) else decide (qc c < q)
    let right (c : Nat) : Bool := if phase = 0 then decide (qc c ≤ q) else decide (q < qc c)
    (if q = 0 then [] else
      [⟨flowKey st.ix phase half (q - 1) 0 0, chunkSum n l r.alg half left,
        if q + 1 < l then some (b.flowTo st true half phase q) else none⟩]) ++
    (if q + 1 = l then [] else
      [⟨flowKey st.ix phase half (l - 2 - q) 1 0, chunkSum n l r.alg half right,
        if 0 < q then some (b.flowTo st false half phase (l - 1 - q)) else none⟩])
  let others : List Nat := (List.range l).filter fun q => q ≠ p
  let fs := match st.kind with
    | 0 | 1 => match b.lineOf st.axis with
      | some k => line k st.kind 0 ++ line k st.kind 1
      | none => ring st.kind 0 ++ ring st.kind 1
    | 2 => others.map fun q => ⟨flowKey st.ix 0 0 0 0 (q + 1), n, none⟩
    | 3 =>
      if p = r.root then []
      else [0, 1].map fun h => ⟨flowKey st.ix 0 h 0 0 0, (halfRange n r.alg h).2, none⟩
    | _ => others.map fun q => ⟨flowKey st.ix 0 0 0 0 (q + 1), n / l, none⟩
  fs.filter fun f => f.elems ≠ 0

def CollRun.gotOf (r : CollRun) (k : Nat) : Nat := Sp.get 0 r.got k

/-- A flow has arrived whole: its elements, its signal, and as many words as the signal says. -/
def CollRun.flowDone (r : CollRun) (f : InFlow) : Bool :=
  decide (f.elems ≤ r.gotOf f.key) && (match Sp.get none r.sigs f.key with
    | some n => decide (n ≤ Sp.get 0 r.words f.key)
    | none => false)

/-- First flow of the run that has not arrived whole: axis, phase, step (0 where every flow has). -/
def Blk.missing (b : Blk) (r : CollRun) : Nat × Nat × Nat :=
  match (b.collStages r).find? fun st => (b.inFlows r st).any fun f => ¬r.flowDone f with
  | some st => match (b.inFlows r st).find? fun f => ¬r.flowDone f with
    | some f => (st.axis, b2n (st.kind = 1), bits f.key 4 5)
    | none => (st.axis, 0, 0)
  | none => (0, b.phaseOf r, 0)

/-! ### Failure (R248) -/

/-- A collective fails on this module (R248). -/
def Blk.collFail (b : Blk) (r : CollRun) (axis phase step : Nat) : Blk :=
  let b := b.collStatus r true axis phase step
  let b := (b.raise 0 uColl 0x0601 (r.lchan + axis * 2 ^ 6 + phase * 2 ^ 8 + step * 2 ^ 9)).shardAbort r.dstAddr
  ((b.satBy COLL_FAIL.fails 1).hwFail r.core).endRun r

/-- Collectives whose traffic crosses logical port `n` fail when the port discards (R248). -/
def Blk.collPortFail (b : Blk) (n : Nat) : Blk :=
  if 4 ≤ axisOf n then b
  else (List.range 64).foldl (fun b l =>
    match b.run? l with
    | some r =>
      if (b.runAxes r).contains (axisOf n) then
        let m := b.missing r
        b.collFail r (axisOf n) (b.phaseOf r) (if m.1 = axisOf n then m.2.2 else 0)
      else b
    | none => b) b

/-! ### The journal (R254) -/

/-- Bit list of the shard bitmap as a number. -/
def bitmapNat (l : List Nat) : Nat := l.foldl (fun m i => if m.testBit i then m else m + 2 ^ i) 0

/-- The 8 words of the journal group. -/
def Journal.words (j : Journal) : List MWord :=
  let w0 := j.step % 2 ^ 32 + (j.attempt % 256) * 2 ^ 32 + (j.phase % 8) * 2 ^ 40 + j.active * 2 ^ 43
    + (j.ownVote % 4) * 2 ^ 44 + (j.outcome % 4) * 2 ^ 46 + b2n j.inDoubt * 2 ^ 48 + (j.tFlip % 2 ^ 64) * 2 ^ 64
    + (j.shards % 2 ^ 11) * 2 ^ 128
  let bm := bitmapNat j.bitmap
  let w (n : Nat) : MWord := ⟨BitVec.ofNat 256 n, false⟩
  [w w0, w (bits bm 0 256), w (bits bm 256 256), w (bits bm 512 256), w (bits bm 768 256), w 0, w 0, w 0]

/-- A journal group read from eight words. -/
def Journal.ofWords (ws : List MWord) : Journal :=
  let at_ (i : Nat) : Nat := (ws.getD i ⟨0, false⟩).data.toNat
  let w0 := at_ 0
  let bm := at_ 1 + at_ 2 * 2 ^ 256 + at_ 3 * 2 ^ 512 + at_ 4 * 2 ^ 768
  { step := bits w0 0 32, attempt := bits w0 32 8, phase := bits w0 40 3, active := bits w0 43 1,
    ownVote := bits w0 44 2, outcome := bits w0 46 2, inDoubt := bit w0 48, tFlip := bits w0 64 64,
    shards := bits w0 128 11, bitmap := (List.range 1024).filter fun i => bm.testBit i }

/-- COLL_STATUS shows the journal's phase, slot, outcome and doubt. -/
def Blk.showJournal (b : Blk) : Blk :=
  let j := b.journal
  ((((b.wr COLL_STATUS.phase j.phase).wr COLL_STATUS.active j.active).wr COLL_STATUS.outcome j.outcome).wrB
    COLL_STATUS.in_doubt j.inDoubt)

/-- Change the journal and write its group whole at COLL_JOURNAL.addr (R254). In Calm after a trip the always-on copy is
what changes (R359). -/
def Blk.writeJournal (b : Blk) (f : Journal → Journal) : Blk :=
  let b := (b.updJournal f).showJournal
  match b.coll.jcopy with
  | some _ => b.updColl fun c => { c with jcopy := some b.journal }
  | none =>
    let a := b.rd COLL_JOURNAL.addr
    if a + 256 ≤ b.memEnd then b.landWords a b.journal.words else b

end Sys2Proof.Machine
end

