-- ==== Sys2Proof/Machine/Fabric.lean ====
section
/-!
DEFINITION. On-package fabric and external memory (08_package_fabric_memory.md): write generations and in-flight counts (R176),
accesses to device addresses (R187), lane claims and collisions (R22, R168, R172, R175), transfers (R168, R169), prefetches and their
checks (R177, R178), memory requests in their owners' windows (R192, R193), channel migration (R194), the idle calendar (R174).
-/
namespace Sys2Proof.Machine

/-! ### Context-relative addresses (R153) -/

/-- Base of a slot's SRAM partition at core k. -/
def Blk.partBase (b : Blk) (k slot : Nat) : Nat :=
  match b.run.job with
  | some j => bits j.part0.toNat ((if isLee k then 100 else 0) + 50 * slot) 25
  | none => 0

def Blk.partSize (b : Blk) (k slot : Nat) : Nat :=
  match b.run.job with
  | some j => bits j.part0.toNat ((if isLee k then 125 else 25) + 50 * slot) 25
  | none => 0

/-- Place of a byte offset in core k's SRAM window, context-relative or not, wrapping at the window. -/
def Blk.coreKeyOf (b : Blk) (k off : Nat) (rel : Bool) : Nat :=
  sramKey k + (off + (if rel then b.partBase k (b.slot k) else 0)) % sramBytes k

/-! ### Device addresses (R187) -/

/-- EV_ADDR_RANGE by a unit (R187, R397). -/
def Blk.addrRange (b : Blk) (die unit a : Nat) : Blk := b.raise die unit 0x0402 (a % 2 ^ 48)

/-- Place of a run of `n` words that lies in one range. -/
def Blk.placeRun (b : Blk) (a n : Nat) : Option Nat :=
  match b.place a, b.place (a + 32 * (n - 1)) with
  | some k, some z => if z = k + 32 * (n - 1) then some k else none
  | _, _ => none

/-- Read a run word by word: those beyond the ranges are poisoned, and the first of them raises EV_ADDR_RANGE (`told`: one has). -/
def Blk.readSplit (b : Blk) (a die unit : Nat) (told : Bool) : Nat → List MWord × Blk
  | 0 => ([], b)
  | n + 1 => match b.place a with
    | some key =>
      let w := b.fetchWord key
      let r := w.2.readSplit (a + 32) die unit told n
      (w.1 :: r.1, r.2)
    | none =>
      let r := (if told then b else b.addrRange die unit a).readSplit (a + 32) die unit true n
      (⟨0, true⟩ :: r.1, r.2)

/-- Write a run word by word: those beyond the ranges are discarded, and the first of them raises EV_ADDR_RANGE. -/
def Blk.writeSplit (b : Blk) (a die unit : Nat) (told : Bool) : List MWord → Blk
  | [] => b
  | w :: ws => match b.place a with
    | some key => ((b.countRmw key 1).writeWord key w).writeSplit (a + 32) die unit told ws
    | none => (if told then b else b.addrRange die unit a).writeSplit (a + 32) die unit true ws

/-- Read `n` words from a device address; beyond the ranges they are poisoned and EV_ADDR_RANGE is raised once (R187). -/
def Blk.readDev (b : Blk) (a n die unit : Nat) : List MWord × Blk :=
  match b.placeRun a n with
  | some key => b.fetchWords key n
  | none => b.readSplit a die unit false n

/-- Read `n` words from a device address over the memory's channels, each burst counted (R378). -/
def Blk.readMem (b : Blk) (a n die unit : Nat) : List MWord × Blk :=
  (match b.placeRun a n with
    | some key => b.bursts false key n
    | none => b).readDev a n die unit

/-- Words of a write transfer under way land at a device address. -/
def Blk.putDev (b : Blk) (a : Nat) (ws : List MWord) (die unit : Nat) : Blk :=
  match b.placeRun a ws.length with
  | some key => (b.countRmw key ws.length).writeWords key ws
  | none => b.writeSplit a die unit false ws

/-- Regions of the words of a run that the ranges hold. -/
def Blk.runRegions (b : Blk) (a n : Nat) : List Nat :=
  match b.placeRun a n with
  | some key => regionsOf key n
  | none => ((List.range n).filterMap fun i => (b.place (a + 32 * i)).bind regionOf).foldl addNew []

/-- Write words to a device address as a write transfer; beyond the ranges they are discarded with EV_ADDR_RANGE. -/
def Blk.writeDev (b : Blk) (a : Nat) (ws : List MWord) (die unit : Nat) : Blk :=
  if ws = [] then b else (b.openRegions (b.runRegions a ws.length)).putDev a ws die unit

/-- The descriptor word that register r names (R142). -/
def Blk.descriptor (b : Blk) (k : Nat) (r : BitVec 5) : MWord × Blk :=
  let a := b.sreg k r.toNat
  let x := b.readDev (a / 32 * 32) 1 (coreDie k) (k % 32)
  let w := x.1.headD ⟨0, true⟩
  (w, if w.poison then x.2.consume k 0 (coreDie k) (k % 32) a 1 else x.2)

def tKind (d : Nat) : Nat := bits d 0 4
def tCached (d : Nat) : Bool := bit d 7
def tCoreRel (d : Nat) : Bool := bit d 8
def tPeerRel (d : Nat) : Bool := bit d 9
def tPeerDie (d : Nat) : Nat := bits d 10 4
def tPeerSite (d : Nat) : Nat := bits d 14 6
def tCoreOff (d : Nat) : Nat := bits d 32 25
def tPeerOff (d : Nat) : Nat := bits d 64 25
def tDev (d : Nat) : Nat := bits d 96 48
def tDst (d : Nat) : Nat := bits d 144 48
def tWords (d : Nat) : Nat := bits d 192 20
def tChecks (d : Nat) : Nat := bits d 228 16

/-! ### Lane claims (R168, R172, R175) -/

/-- Resources of a claim: a port of an on-die network (36 the hub port), a crossbar port, each sending 0 or receiving 1, and the staging
banks. -/
def resNet (cd port dir : Nat) : Nat := 128 * cd + 2 * port + dir
def resXbar (port dir : Nat) : Nat := 2048 + 2 * port + dir
def resStage : Nat := 4096

/-- Clock of a resource, in MHz. -/
def Blk.resMhz (b : Blk) (res : Nat) : Nat := if res < 2048 then b.netMhz else xbarMhz

/-- Two runs of banks, of 64 in a ring, share a bank. -/
def bankMeet (a n c m : Nat) : Bool := decide ((c % 64 + 64 - a % 64) % 64 < n ∨ (a % 64 + 64 - c % 64) % 64 < m)

/-- First bank of a walk at instant `t`. -/
def LaneUse.bankAt (u : LaneUse) (t : Nat) : Nat := u.lane + u.step * ((t - u.start) / 1000)

/-- Two claims take a lane, or a bank, in the same cycle. -/
def LaneUse.meets (u v : LaneUse) : Bool :=
  if u.res ≠ v.res ∨ v.stop ≤ u.start ∨ u.stop ≤ v.start then false
  else if u.res = resStage then
    let t := max u.start v.start
    let z := min u.stop v.stop
    (List.range 64).any fun i =>
      decide (t + 1000 * i < z) && bankMeet (u.bankAt (t + 1000 * i)) u.lanes (v.bankAt (t + 1000 * i)) v.lanes
  else decide (u.lane < v.lane + v.lanes ∧ v.lane < u.lane + u.lanes)

/-- First network cycle in which core `k` can inject (R168), and the crossings between the clocks, in cycles from a release. -/
def Blk.injectCyc (b : Blk) (k : Nat) : Nat := cdiv (b.core k).cyc 2
def Blk.toXbar (b : Blk) (n : Nat) : Nat := if b.netMhz = 0 then n else cdiv (n * xbarMhz) b.netMhz
def Blk.toNet (b : Blk) (x : Nat) : Nat := cdiv (x * b.netMhz) xbarMhz

/-- The transfer entries that may declare a claim from port `src` to port `dst` of compute die `cd` in cycle `cyc` (R173): those that
cover it, or, where a late core has missed them, all that have the lanes (log entry 129). -/
def Job.netEntries (j : Job) (seg cd src dst lanes len cyc : Nat) : List NetEnt :=
  let es := (j.netOf seg).filter fun e => e.kind = 0 ∧ e.die = cd ∧ e.src = src ∧ e.dst = dst ∧ lanes ≤ e.lanes
  match es.filter fun e => e.start ≤ cyc ∧ cyc + len ≤ e.start + e.len with
  | [] => es
  | l => l

def sramCore (key : Nat) : Nat := (key - 2 ^ 49) / 2 ^ 25

/-- A claim on the network of die `cd`: its lanes at the source port from cycle `cyc`, at the destination port 48 cycles later (R168);
of the entries that declare it, the first whose lanes no other transfer has taken. -/
def Blk.netUses (b : Blk) (j : Job) (k cd src dst lanes len cyc : Nat) (place words : Nat) (id : Option Nat) : List LaneUse :=
  let at_ (n : Nat) : Nat := (b.core k).relNs * b.netMhz + 1000 * n
  let claim (e : NetEnt) : List LaneUse :=
    [⟨resNet cd src 0, e.srcLane, lanes, 0, at_ cyc, at_ (cyc + len), k, place, words, id⟩,
     ⟨resNet cd dst 1, e.dstLane, lanes, 0, at_ (cyc + 48), at_ (cyc + 48 + len), k, place, words, id⟩]
  let all := (j.netEntries (b.segOf k) cd src dst lanes len cyc).map claim
  match all.find? fun us => !(us.any fun u => b.claims.any u.meets) with
  | some us => us
  | none => all.headD []

/-- A claim of crossbar entry `e` from cycle `x0` on: source lanes, destination lanes 32 cycles later, and the banks of staging that
the words walk over at either end (R172, R175). -/
def Blk.xbarUses (b : Blk) (k : Nat) (e : XbarEnt) (x0 src dst : Nat) (place words : Nat) (id : Option Nat) : List LaneUse :=
  let at_ (n : Nat) : Nat := (b.core k).relNs * xbarMhz + 1000 * n
  let lanes (p dir lane x : Nat) : LaneUse :=
    ⟨resXbar p dir, lane, e.lanes, 0, at_ x, at_ (x + e.len), k, place, words, id⟩
  let banks (key x : Nat) : List LaneUse :=
    if stageKey ≤ key ∧ ¬isSram key then
      [⟨resStage, (key - stageKey) / 32 % 64, e.lanes, e.lanes, at_ x, at_ (x + e.len), k, place, words, id⟩] else []
  [lanes e.src 0 e.srcLane x0, lanes e.dst 1 e.dstLane (x0 + 32)] ++ banks src x0 ++ banks dst (x0 + 32)

/-- Every claim of the transfer of descriptor `x` that core `k` issues now, from place `src` to place `dst` (R168). What comes from
memory or staging enters the crossbar in the cycle of its entry. -/
def Blk.xferUses (b : Blk) (k x src dst place words : Nat) (id : Option Nat) : List LaneUse :=
  match b.run.job with
  | none => []
  | some j =>
    let lanes := bits x 4 3
    let len := cdiv (bits x 192 20) lanes
    let net (cd s d cyc : Nat) : List LaneUse := b.netUses j k cd s d lanes len cyc place words id
    let sk := sramCore src
    let dk := sramCore dst
    let n0 := b.injectCyc k
    if isSram src ∧ isSram dst ∧ sk / 32 = dk / 32 then net (sk / 32) (sk % 32) (dk % 32) n0
    else match j.xbar[bits x 212 16]? with
      | none => []
      | some e =>
        let x0 := if isSram src then b.toXbar (n0 + 48) else e.start
        (if isSram src then net (sk / 32) (sk % 32) 36 n0 else []) ++ b.xbarUses k e x0 src dst place words id
          ++ (if isSram dst then net (dk / 32) 36 (dk % 32) (b.toNet (x0 + 32)) else [])

/-- Machine time by which the last crossbar claim among `us` has passed. -/
def passedBy (us : List LaneUse) : Nat :=
  us.foldl (fun t u => if 2048 ≤ u.res ∧ u.res < resStage then max t (cdiv u.stop xbarMhz) else t) 0

/-! ### Memory requests -/

/-- Pieces of a run of words that lie in one granule: (address, words, words before it). -/
def granules : Nat → Nat → Nat → Nat → List (Nat × Nat × Nat)
  | 0, _, _, _ => []
  | fuel + 1, a, n, done =>
    if n = 0 then []
    else
      let here := min n ((4096 - a % 4096) / 32)
      (a, here, done) :: granules fuel (a + 32 * here) (n - here) (done + here)

/-- Hold the memory requests of a transfer, one per granule, on their channels (R192). -/
def Blk.holdReqs (b : Blk) (owner a n : Nat) (write : Bool) (serves : MemFor) (data : List MWord) : Blk :=
  (granules (n / 128 + 2) a n 0).foldl (fun b g =>
    let ch := chanOf g.1
    let req : MemReq := ⟨owner, g.1, g.2.1, write, (data.drop g.2.2).take g.2.1, serves, g.2.2, b.now⟩
    { b with memReqs := Sp.set [] b.memReqs ch (Sp.get [] b.memReqs ch ++ [req]) }) b

/-- Take a held request off its channel. -/
def Blk.dropReq (b : Blk) (x : Nat × MemReq) : Blk :=
  { b with memReqs := Sp.set [] b.memReqs x.1 ((Sp.get [] b.memReqs x.1).erase x.2) }

/-- Held requests that `sel` picks, with their channels. -/
def Blk.heldFor (b : Blk) (sel : MemReq → Bool) : List (Nat × MemReq) :=
  b.memReqs.flatMap fun e => (e.2.filter sel).map fun r => (e.1, r)

/-! ### Transfers (R168, R169) -/

/-- Words of transfer `x` from word `off` on go to its far side: core SRAM, or a prefetch's destination. -/
def Blk.putFar (b : Blk) (x : Xfer) (off : Nat) (ws : List MWord) : Blk :=
  if x.kind = 1 then b.writeWords (x.home + 32 * off) ws else b.putDev (x.dst + 32 * off) ws (coreDie x.core) (x.core % 32)

/-- Words `off` to `off + n − 1` of a transfer do not arrive: poison goes to the far side, and a write lands nothing. -/
def Blk.poisonFar (b : Blk) (x : Xfer) (off n : Nat) : Blk :=
  if x.kind = 2 then b.shardAbort (x.dev + 32 * off) else b.putFar x off (List.replicate n ⟨0, true⟩)

/-- A transfer completes aborted whatever comes. -/
def Blk.markAborted (b : Blk) (id : Nat) : Blk :=
  { b with xfers := b.xfers.map fun x => if x.id = id then { x with aborted := true } else x }

/-- A transfer is aborted as a whole: its requests go, its words are poisoned. -/
def Blk.abortXfer (b : Blk) (id : Nat) : Blk :=
  match b.xfers.find? fun x => x.id = id with
  | none => b
  | some x => ((((b.heldFor fun r => r.serves = .xfer id).foldl Blk.dropReq b).poisonFar x 0 x.words)).markAborted id

/-! ### Collisions (R22) -/

/-- Count a collision, and show the first since last cleared: at a network port, a crossbar port, or the staging banks. -/
def Blk.showCollision (b : Blk) (u : LaneUse) (seg cyc : Nat) : Blk :=
  if u.res < 2048 then
    let cd := u.res / 128
    let b := (b.satBy (NOC_STATUS.collisions cd) 1).perf (cd + 1) 0x09 255 1
    if b.on (NOC_COLLISION.valid cd) then b
    else
      let b := ((b.wr (NOC_COLLISION.valid cd) 1).wr (NOC_COLLISION.port cd) (u.res % 128 / 2)).wr (NOC_COLLISION.dir cd) (u.res % 2)
      ((b.wr (NOC_COLLISION.lane cd) u.lane).wr (NOC_COLLISION.cycle cd) cyc).wr (NOC_COLLISION.segment cd) seg
  else if u.res < resStage then
    let b := b.satBy XBAR_STATUS.collisions 1
    if b.on XBAR_COLLISION.valid then b
    else
      let b := ((b.wr XBAR_COLLISION.valid 1).wr XBAR_COLLISION.port ((u.res - 2048) / 2)).wr XBAR_COLLISION.dir (u.res % 2)
      ((b.wr XBAR_COLLISION.lane u.lane).wr XBAR_COLLISION.cycle cyc).wr XBAR_COLLISION.segment seg
  else b.satBy STAGE_STATUS.bank_collisions 1

/-- Requester of a claim that an injection presents (detector 0x09); no core has its number. -/
def injClaimant : Nat := 384

/-- The access behind an older claim completes aborted, its words poisoned: a transfer in progress, or words that have moved. -/
def Blk.spoil (b : Blk) (u : LaneUse) : Blk :=
  match u.xfer with
  | some id => b.abortXfer id
  | none => if u.words = 0 then b else b.writeWords u.place (List.replicate u.words ⟨0, true⟩)

/-- Claim `u` meets the older claim `v`: both accesses are aborted, the resource raises EV_SCHEDULE_COLLISION, the vote fails. The
caller aborts `u`'s. The event's detail is open (log entry 9). -/
def Blk.collide (b : Blk) (u v : LaneUse) : Blk :=
  let t := max u.start v.start
  let rel := (b.core u.core).relNs * b.resMhz u.res
  let b := b.showCollision { u with lane := max u.lane v.lane } (b.segOf u.core) ((t - rel) / 1000 % 2 ^ 17)
  let f := b.fresh
  let at_ : Nat × Nat := if u.res < 2048 then (u.res / 128 + 1, 40) else if u.res < resStage then (0, uXbar) else (0, uStage)
  ((f.2.raiseInj (decide (v.core = injClaimant)) at_.1 at_.2 0x0301 (f.1.toNat % 2 ^ 136)).modFail).spoil v

/-- Claims that may still meet a new one: those whose end is at most 1 ms past. -/
def Blk.liveClaims (b : Blk) : List LaneUse :=
  b.claims.filter fun v => decide ((b.now - 1000000) * b.resMhz v.res < v.stop)

/-- Make claims; true if one of them meets another requester's. -/
def Blk.claimLanes (b : Blk) (us : List LaneUse) : Bool × Blk :=
  if us = [] then (false, b)
  else
    let hits := us.flatMap fun u => (b.claims.filter fun v => v.core ≠ u.core ∧ v.meets u).map fun v => (u, v)
    let b := hits.foldl (fun b h => b.collide h.1 h.2) b
    (hits ≠ [], { b with claims := b.liveClaims ++ us })

/-- Second claims that injections present in the segment opening at `rel`: in the cycle of their argument, on every lane of the
unit's port in both directions (detector 0x09, R292; log entry 129). -/
def Blk.presentClaims (b : Blk) (rel : Nat) : Blk :=
  (List.range b.ras.injects.length).foldl (fun b _ =>
    match b.ras.injects.find? fun i => i.det = 0x09 ∧ 1 ≤ i.die ∧ i.die ≤ 12 ∧ i.unit < 37 with
    | none => b
    | some i =>
      let f := b.fire 0x09 fun j => j = i
      let at_ := rel * b.netMhz + 1000 * (i.arg % 2 ^ 17)
      let use (dir : Nat) : LaneUse := ⟨resNet (i.die - 1) i.unit dir, 0, 32, 0, at_, at_ + 1000, injClaimant, 0, 0, none⟩
      { f.2 with claims := f.2.claims ++ [use 0, use 1] }) b

/-- The first of the words that cross a check point, altered by an injection and checked there: detector 0x02 on the on-die network
(point 1) or a die-to-die interface (point 2), on the lane that its argument names, 0x03 at the crossbar (point 3). A lane that reports
is named with the die at the far end, `far`. -/
def Blk.fireWord (b : Blk) (det point die unit far : Nat) (sel : Inject → Bool) (ws : List MWord) : List MWord × Blk :=
  match ws with
  | [] => ([], b)
  | w :: rest =>
    if b.ras.injects = [] then (ws, b)
    else
      let f := b.fire det sel
      match f.1 with
      | none => (ws, b)
      | some a =>
        let x := alterWord (bits a 0 36) f.2.fresh.1 (w.data, poisonErr w.poison)
        (checked x.1 x.2 :: rest, f.2.fresh.2.report x.2 ⟨point, die, unit, 0, bits a 36 6 + far * 2 ^ 7, true⟩)

/-- Unit of a die's die-to-die interface (R294). -/
def d2dUnit (die : Nat) : Nat := if die = 0 then 19 else if die ≤ 12 then 46 else if die ≤ 16 then 34 else 7

/-- Words that leave die `src` and are received at die `dst`, checked at the die-to-die interface, and at a compute die in its on-die network
(R291). -/
def Blk.receive (b : Blk) (src dst : Nat) (ws : List MWord) : List MWord × Blk :=
  let x := if src = dst then (ws, b) else b.fireWord 0x02 2 dst (d2dUnit dst) src (fun j => j.die = dst ∧ j.unit = d2dUnit dst) ws
  if 1 ≤ dst ∧ dst ≤ 12 then x.2.fireWord 0x02 1 dst 40 0 (fun j => j.die = dst ∧ j.unit ≠ 46) x.1 else x

/-- Words between a compute die and the hub cross the die's hub port (R378). -/
def Blk.countHop (b : Blk) (src dst n : Nat) : Blk :=
  if 1 ≤ src ∧ src ≤ 12 ∧ dst = 0 then b.perf src 0x04 255 n
  else if src = 0 ∧ 1 ≤ dst ∧ dst ≤ 12 then b.perf dst 0x05 255 n
  else b

/-- Words received from one die to the next, along a way. -/
def Blk.travel (b : Blk) : List Nat → List MWord → List MWord × Blk
  | src :: dst :: rest, ws =>
    let x := (b.countHop src dst ws.length).receive src dst ws
    x.2.travel (dst :: rest) x.1
  | _, ws => (ws, b)

/-- The die that holds a place: a memory die, the hub for staging, a compute die. -/
def dieOfPlace (key : Nat) : Nat :=
  if key < stageKey then 13 + chanOf key / 32 else if key < 2 ^ 49 then 0 else (key - 2 ^ 49) / 2 ^ 25 / 32 + 1

/-- The dies that words pass from one place's to another's: a die reaches another through the hub. -/
def dieWay (src dst : Nat) : List Nat := if src = dst then [dst, dst] else if src = 0 ∨ dst = 0 then [src, dst] else [src, 0, dst]

/-- NXFER (R168): words go from the issuing core's SRAM to the peer's, in ascending order, poison with them. A claim that meets
another poisons them all (R22). -/
def nxferFx (i : Issue) (r : BitVec 5) : Blk → Blk :=
  issue i true fun k b =>
    let d := b.descriptor k r
    let x := d.1.data.toNat
    let b := d.2
    if d.1.poison ∨ tKind x ≠ 0 ∨ 12 ≤ tPeerDie x ∨ 32 ≤ tPeerSite x then b
    else
      let peer := tPeerDie x * 32 + tPeerSite x
      let n := tWords x
      let src := b.coreKeyOf k (tCoreOff x) (tCoreRel x)
      let base := if tPeerRel x then b.partBase peer (b.slot k) else 0
      let dst := sramKey peer + (tPeerOff x + base) % sramBytes peer
      let ws := b.fetchWords src n
      let ws := ws.2.travel (dieWay (coreDie k) (coreDie peer)) ws.1
      let c := ws.2.claimLanes (ws.2.xferUses k x src dst dst n none)
      let b := (c.2.perf (coreDie k) 0x02 (k % 32) n).perf (peer / 32 + 1) 0x03 (peer % 32) n
      b.writeWords dst (if c.1 then ws.1.map fun w => { w with poison := true } else ws.1)

/-- Place that a transfer reads from and place that it writes to. -/
def Blk.xferEnds (b : Blk) (x : Xfer) (key : Nat) : Nat × Nat :=
  if x.kind = 1 then (key, x.home) else if x.kind = 2 then (x.home, key) else (key, (b.place x.dst).getD (2 ^ 60))

/-- First address at or after `a` that the range of `a` does not hold. -/
def Blk.pastRange (b : Blk) (a : Nat) : Nat :=
  let sb := Config.stagingBase.toNat
  if a < b.memEnd then b.memEnd else if sb ≤ a ∧ a < sb + 2 ^ 28 then sb + 2 ^ 28 else a

/-- The source region of a prefetch. -/
def Blk.sourceRegion (b : Blk) (dev : Nat) : Nat := ((b.place dev).bind regionOf).getD (2 ^ 21)

/-- Start a DMA or prefetch. External memory is reached through held requests; a read through the near cache has neither these nor claims,
since its die's fills carry its words (R184); staging is reached when it completes. A checked prefetch samples its source region before it reads the first word (R178). -/
def Blk.startXfer (b : Blk) (k x : Nat) : Blk :=
  let kind := tKind x
  let n := tWords x
  let home := b.coreKeyOf k (tCoreOff x) (tCoreRel x)
  let dev := tDev x
  let id := b.nextXfer
  let cached := tCached x && kind == 1
  let xf : Xfer := ⟨id, k, kind, cached, home, dev, tDst x, n, 0, false⟩
  let b := if kind = 4 then
      let r := b.sourceRegion dev
      let g := b.region r
      { b with checks := b.checks ++ [⟨id, k, home, r, g.gen.toNat, none, 0 < g.inFlight, tChecks x⟩] }
    else b
  let b := { b with nextXfer := id + 1 }
  match b.placeRun dev n with
  | none =>
    let b := b.addrRange (coreDie k) (k % 32) (if (b.place dev).isSome then b.pastRange dev else dev)
    { b with xfers := b.xfers ++ [xf] }.abortXfer id
  | some key =>
    let ends := b.xferEnds xf key
    let us := if cached then [] else b.xferUses k x ends.1 ends.2 0 0 (some id)
    let c := b.claimLanes us
    let b := { c.2 with xfers := c.2.xfers ++ [{ xf with due := passedBy us }] }
    let b := if kind = 2 then b.beginWrite key n
      else if kind = 3 ∨ kind = 4 then b.openRegions (b.runRegions (tDst x) n)
      else b
    if c.1 then b.abortXfer id
    else if key < stageKey ∧ ¬cached then b.holdReqs (ownCore k) dev n (kind = 2) (.xfer id) []
    else b

def dmaFx (i : Issue) (r : BitVec 5) : Blk → Blk :=
  issue i true fun k b =>
    let d := b.descriptor k r
    let x := d.1.data.toNat
    if d.1.poison ∨ ¬(tKind x = 1 ∨ tKind x = 2) then d.2 else d.2.startXfer k x

def prefFx (i : Issue) (r : BitVec 5) : Blk → Blk :=
  issue i true fun k b =>
    let d := b.descriptor k r
    let x := d.1.data.toNat
    if d.1.poison ∨ ¬(tKind x = 3 ∨ tKind x = 4) then d.2 else d.2.startXfer k x

/-- Words that leave a destination port of the crossbar, checked there. -/
def Blk.crossHub (b : Blk) (ws : List MWord) : List MWord × Blk :=
  b.fireWord 0x03 3 0 uXbar 0 (fun j => bits j.arg 36 28 = 0) ws

/-- Move `n` words of a transfer, from word `off` up. -/
def Blk.moveXfer (b : Blk) (x : Xfer) (off n : Nat) : Blk :=
  let die := coreDie x.core
  let unit := x.core % 32
  if x.kind = 2 then
    let ws := b.fetchWords (x.home + 32 * off) n
    let way := ws.2.travel (dieWay die (((b.place (x.dev + 32 * off)).map dieOfPlace).getD 0)) ws.1
    let hit := way.2.crossHub way.1
    (hit.2.perf die 0x02 unit n).putDev (x.dev + 32 * off) hit.1 die unit
  else
    let ws := b.readMem (x.dev + 32 * off) n die unit
    let src := ((b.place (x.dev + 32 * off)).map dieOfPlace).getD 0
    let dst := if x.kind = 1 then die else ((b.place (x.dst + 32 * off)).map dieOfPlace).getD 0
    let way := ws.2.travel (dieWay src dst) ws.1
    let hit := way.2.crossHub way.1
    (if x.kind = 1 then hit.2.perf die 0x03 unit n else hit.2).putFar x off hit.1

/-- Near-cache lines of `n` words from device address `a`. -/
def linesOf (a n : Nat) : List Nat := (List.range ((a + 32 * n - 1) / 256 + 1 - a / 256)).map (· + a / 256)

/-- The near cache of compute die `cd` has answered port `p`'s lookups of every line. -/
def Blk.linesServed (b : Blk) (cd p : Nat) (ls : List Nat) : Bool :=
  ls.all fun l => (b.nc cd).served.any fun s => s.1 = p ∧ s.2.1 = l

/-- Take the answers to port `p`'s lookups of those lines; whether one of them came poisoned. -/
def Blk.takeServed (b : Blk) (cd p : Nat) (ls : List Nat) : Bool × Blk :=
  let mine (s : Nat × Nat × Bool) : Bool := s.1 = p && ls.contains s.2.1
  (((b.nc cd).served.filter mine).any fun s => s.2.2,
   b.updNc cd fun n => { n with served := n.served.filter fun s => ¬mine s })

/-- A transfer can complete: no request of its is left, its crossbar claim has passed (R172), and what it reads through the near cache
has been looked up. -/
def Blk.xferReady (b : Blk) (x : Xfer) : Bool :=
  !(b.memReqs.any fun e => e.2.any fun r => r.serves = .xfer x.id) && decide (x.due ≤ b.now)
    && (x.aborted || !x.cached || b.linesServed (x.core / 32) 4 (linesOf x.dev x.words))

/-- What of a transfer moves when it completes: all of it where no memory request moved it. -/
def Blk.finishXfer (b : Blk) (x : Xfer) : Blk :=
  let staged := match b.place x.dev with
    | some key => decide (stageKey ≤ key)
    | none => false
  if x.aborted then b
  else if x.cached then
    let c := b.takeServed (x.core / 32) 4 (linesOf x.dev x.words)
    if c.1 then (c.2.poisonFar x 0 x.words) else c.2.moveXfer x 0 x.words
  else if staged then b.moveXfer x 0 x.words
  else b

/-- DMA_COMPLETE: the oldest transfer of the core that can complete does, and posts to queue 4 (R169). A checked prefetch samples its
source region again (R178). -/
def dmaCompleteFx (c : CoreId) (b : Blk) : Blk :=
  let k := coreKey c
  match b.xfers.find? fun x => x.core = k ∧ b.xferReady x with
  | none => b
  | some x =>
    let b := ({ b with xfers := b.xfers.filter fun y => y.id ≠ x.id }).finishXfer x
    let sample (p : PrefCheck) : PrefCheck := if p.id = x.id then { p with gen1 := some (b.region p.region).gen.toNat } else p
    ({ b with checks := b.checks.map sample }).post k 4 x.aborted

/-- The checks of prefetches that fall at this anchor release (R178). A prefetch that is not complete by then is checked at the first
release after it is (log entry 130). -/
def Blk.prefChecks (b : Blk) : Blk :=
  let falls (c : PrefCheck) : Bool := decide (c.anchors ≤ 1) && c.gen1.isSome
  let due := b.checks.filter falls
  let rest := (b.checks.filter fun c => !falls c).map fun c => { c with anchors := c.anchors - 1 }
  due.foldl (fun b c =>
    let g := (b.region c.region).gen.toNat
    let stale := c.busy0 ∨ c.gen0 ≠ g ∨ c.gen1 ≠ some g
    let b := b.writeWord c.status ⟨BitVec.ofNat 256 (b2n stale), false⟩
    if stale then
      (b.raise (coreDie c.core) (c.core % 32) 0x0401 (c.region + c.core % 32 * 2 ^ 21)).incBy STAGE_STALE.stale 1
    else b) { b with checks := rest }

/-- Transfers that have still to write into region `r`: with requests held there, or all of theirs to come. -/
def Blk.writersIn (b : Blk) (r : Nat) : Nat :=
  (b.xfers.filter fun x =>
    if x.aborted then false
    else if x.kind = 2 then
      let held := b.heldFor fun q => q.serves = .xfer x.id
      let staged := match b.place x.dev with
        | some key => decide (stageKey ≤ key)
        | none => false
      if staged then (b.runRegions x.dev x.words).contains r
      else held.any fun q => (b.runRegions q.2.addr q.2.words).contains r
    else if x.kind = 1 then false
    else (b.runRegions x.dst x.words).contains r).length

/-- REGION_WRITE_COMPLETE (R176): a transfer's last word in the region has landed, and its in-flight count falls; never below the
transfers that have words to come. -/
def regionWriteFx (staging : Bool) (region : BitVec 20) (b : Blk) : Blk :=
  let r := (if staging then 2 ^ 20 else 0) + region.toNat
  if (b.region r).inFlight ≤ b.writersIn r then b
  else b.updRegion r fun x => { x with inFlight := x.inFlight - 1 }

/-! ### Memory requests (R192, R193) -/

/-- Serve a request: the words move now. What its bank's busy time comes to, the spec does not state (log entry 135). -/
def Blk.serveReq (b : Blk) (ch : Nat) (r : MemReq) : Blk :=
  let b := b.perf (13 + ch / 32) 0x07 (b.chanPhys r.addr) (Config.bankBusy b.now r.addr r.words).toNat
  match r.serves with
  | .xfer id =>
    match b.xfers.find? fun x => x.id = id with
    | some x => b.moveXfer x r.off r.words
    | none => b
  | .host =>
    if r.write then b.landWords r.addr r.data
    else
      let ws := (b.bursts false r.addr r.words).fetchWords r.addr r.words
      ws.1.foldl (fun b w => b.emit (.host w.poison w.data)) ws.2
  | .guest =>
    if r.write then (b.landWords r.addr r.data).emit (.guest false true [])
    else
      let ws := (b.bursts false r.addr r.words).fetchWords r.addr r.words
      ws.2.emit (.guest false true ws.1)

/-- The requester of a held request owns a window on its channel now, and the host's and the guest's one on their crossbar path too;
a transfer's path is its own calendar entry (R172, R192). -/
def Blk.reqWindow (b : Blk) (ch : Nat) (r : MemReq) : Bool :=
  match r.serves with
  | .xfer _ => b.windowOpen r.owner ch
  | .host => b.wayWindow r.owner xCxl r.addr r.write
  | .guest => b.wayWindow r.owner xGuest r.addr r.write

/-- The first held request whose owner's window is open is served, in issue order, unless refresh is in its way (R192, R193). -/
def Blk.serveChan (b : Blk) (ch : Nat) : Blk :=
  let l := Sp.get [] b.memReqs ch
  match l.find? fun r => b.reqWindow ch r with
  | none => b
  | some r =>
    if b.refreshWait ch r.words then b
    else ({ b with memReqs := Sp.set [] b.memReqs ch (l.erase r) }).serveReq ch r

/-- A request completes aborted: what it would have delivered is poisoned, and a write lands nothing. -/
def Blk.abortReq (b : Blk) (r : MemReq) : Blk :=
  match r.serves with
  | .xfer id =>
    match b.xfers.find? fun x => x.id = id with
    | some x => (b.poisonFar x r.off r.words).markAborted id
    | none => b
  | .host => if r.write then b else b.emit (.host true 0)
  | .guest => b.emit (.guest false false (if r.write then [] else List.replicate r.words ⟨0, true⟩))

/-- A request for address `a` finds no later window: EV_WINDOW_EXPIRED, and the vote fails (R192). -/
def Blk.windowExpired (b : Blk) (a : Nat) : Blk :=
  let md := chanOf a / 32
  ((b.satBy (CHAN_STAT.expired md) 1).raise (13 + md) (b.chanPhys a) 0x0403 (a % 2 ^ 48)).modFail

def Blk.expireReq (b : Blk) (r : MemReq) : Blk := (b.windowExpired r.addr).abortReq r

/-- Count requests that a close returned on channel `ch`. -/
def Blk.countDeferred (b : Blk) (ch n : Nat) : Blk :=
  let md := ch / 32
  let phys := b.rd (CHAN_MAP.phys md (ch % 32))
  (b.satBy (CHAN_STATUS.deferred md phys) n).perf (13 + md) 0x05 phys n

/-- Owners of the windows on channel `ch` that close now. -/
def Blk.closing (b : Blk) (ch : Nat) : List Nat :=
  match b.run.job with
  | none => []
  | some j => (j.windows.filter fun w =>
      let t := b.winStart w
      w.names ch ∧ t + w.len ≤ b.now + 40 ∧ b.now < t + w.len + 40).map (·.owner)

/-- Held requests at a close of channel `ch` (R192): the owner's go back, or expire. A host request keeps its own limit (R334). -/
def Blk.closeReqs (b : Blk) (ch : Nat) : Blk :=
  let owners := b.closing ch
  let l := Sp.get [] b.memReqs ch
  let back := l.filter fun r => owners.any fun o => ownsAs r.owner o
  let dead := back.filter fun r => r.serves ≠ .host ∧ ¬b.laterWindow r.owner ch
  let b := b.countDeferred ch (back.length - dead.length)
  let b := { b with memReqs := Sp.set [] b.memReqs ch (l.filter fun r => ¬dead.contains r) }
  dead.foldl Blk.expireReq b

/-- REFRESH_SLOT: at the slot instant the channel refreshes (R193); requests wait until the slot ends. -/
def refreshSlotFx (ch : Fin 128) (b : Blk) : Blk :=
  let l := ch.val
  let phys := b.rd (CHAN_MAP.phys (l / 32) (l % 32))
  if b.now % 1952 = l % 16 * 122 ∧ ¬b.on (CHAN_STATUS.self_refresh (l / 32) phys) then
    b.perf (13 + l / 32) 0x06 phys 1
  else b

/-! ### Migration and repair (R194, R291) -/

/-- Granules per channel (R187). -/
def Blk.granulesPerChan (b : Blk) : Nat := if b.part.big then 3728270 else 1864135

/-- Start a migration (R194); ignored while one is active, or where the target is no spare. -/
def Blk.startMigration (b : Blk) (md logical target : Nat) : Blk :=
  if b.on (CHAN_MIGRATE.active md) ∨ 34 ≤ target ∨ b.rd (CHAN_STATUS.state md target) ≠ 1 then b
  else
    let old := b.rd (CHAN_MAP.phys md logical)
    let b := (b.wr (CHAN_MIGRATE.logical md) logical).wr (CHAN_MIGRATE.target md) target
    let b := (b.wr (CHAN_MIGRATE.active md) 1).wr (CHAN_MIGRATE.pointer md) 0
    let b := (b.wr (CHAN_STATUS.state md old) 2).wr (CHAN_STATUS.state md target) 3
    b.updMd md fun m => { m with migrating := some (logical, old, target) }

/-- First spare channel of a memory die. -/
def Blk.spareChan (b : Blk) (md : Nat) : Option Nat :=
  (List.range 34).find? fun i => b.rd (CHAN_STATUS.state md i) = 1

/-- The copy of logical channel `l` may run now (R194): no window names the channel, or the idle calendar's control cluster has
its slot. -/
def Blk.mayCopy (b : Blk) (l : Nat) : Bool := if b.idleCal then b.idleClass == 7 else !b.windowNames l

/-- The copies under way advance where they may, by a number of granules that the spec leaves open (log entry 9). -/
def Blk.copySome (b : Blk) : Blk :=
  (List.range 4).foldl (fun b md => match (b.md md).migrating with
    | none => b
    | some (logical, _, _) =>
      if b.mayCopy (32 * md + logical) then
        let f := b.fresh
        f.2.wr (CHAN_MIGRATE.pointer md) (min b.granulesPerChan (b.rd (CHAN_MIGRATE.pointer md) + f.1.toNat % 2 ^ 32))
      else b) b

/-- CHANNEL_MIGRATION_COMPLETE (R194, R300 row 6): the rest is copied, and the map changes, where the copy may run. -/
def migrationDoneFx (md : Fin 4) (b : Blk) : Blk :=
  let md := md.val
  match (b.md md).migrating with
  | none => b
  | some (logical, old, new) =>
    if ¬b.mayCopy (32 * md + logical) then b else
    let b := b.updMd md fun m => { m with migrating := none }
    let b := (b.wr (CHAN_MAP.phys md logical) new).wr (CHAN_STATUS.state md old) 4
    let b := (b.wr (CHAN_STATUS.state md new) 0).wr (CHAN_STATUS.logical md new) logical
    let b := (b.wr (CHAN_MIGRATE.active md) 0).wr (CHAN_MIGRATE.pointer md) b.granulesPerChan
    let b := b.raise (13 + md) new 0x0404
      (34 * md + old + (34 * md + new) * 2 ^ 8 + (32 * md + logical) * 2 ^ 16)
    if b.spareChan md = none then
      (b.raise (13 + md) 35 0x0809 (6 + old * 2 ^ 8)).cause CTL_STATE.chan_spares true
    else b

/-- ECC_REPAIR_REWRITE: the first address of the repair list is rewritten corrected, in an interval that R194 allows (R291). -/
def eccRepairFx (md : Fin 4) (b : Blk) : Blk :=
  let md := md.val
  match (b.md md).repair with
  | [] => b
  | a :: rest =>
    if ¬b.mayCopy (chanOf a) then b else
    let b := b.updMd md fun m => { m with repair := rest }
    let r := b.rawWord a
    match classify r.2 with
    | .correctable pos v => b.setRawWord a (fixSymbol r.1 pos v) 0
    | _ => b

/-! ### Idle calendar (R174) -/

/-- IDLE_CALENDAR_SLOT: the slot of the instant is shown; a cycle's start stands in for an anchor (R281). -/
def idleSlotFx (b : Blk) : Blk :=
  if b.idleCal then (b.wr XBAR_STATUS.idle_class (b.now % 5000 / 1000)).copySome else b

def execNxfer (i : Issue) (r : BitVec 5) (s : State) := onBlk s (nxferFx i r)
def execDma (i : Issue) (r : BitVec 5) (s : State) := onBlk s (dmaFx i r)
def execPref (i : Issue) (r : BitVec 5) (s : State) := onBlk s (prefFx i r)
def execDmaComplete (c : CoreId) (s : State) := onBlk s (dmaCompleteFx c)
def execRegionWriteComplete (g : Bool) (r : BitVec 20) (s : State) := onBlk s (regionWriteFx g r)
def execRefreshSlot (ch : Fin 128) (s : State) := onBlk s (refreshSlotFx ch)
def execChannelMigrationComplete (md : Fin 4) (s : State) := onBlk s (migrationDoneFx md)
def execEccRepairRewrite (md : Fin 4) (s : State) := onBlk s (eccRepairFx md)

end Sys2Proof.Machine
end

