-- ==== Sys2Proof/Machine/Gather.lean ====
section
/-!
DEFINITION. Gather engines (08_package_fabric_memory.md, R179 to R183) and near caches (R184, R185), and what a window's close and a
step's end do to every requester's held requests (R192).
-/
namespace Sys2Proof.Machine

/-! ### Near cache (R184, R185) -/

def Blk.clearNc (b : Blk) (cd : Nat) : Blk := b.updNc cd fun n => { n with lines := [], flushAtAnchor := false }
def Blk.clearAllNc (b : Blk) : Blk := (List.range 12).foldl (fun b cd => b.clearNc cd) b

/-- Lookups of a line are answered: their ports may take its words. -/
def Blk.answer (b : Blk) (cd line : Nat) (ports : List Nat) (bad hit : Bool) : Blk :=
  ports.foldl (fun b p =>
    (b.updNc cd fun n => { n with served := addNew n.served (p, line, bad) }).emit (.ncache cd p hit)) b

/-- NCACHE_LOOKUP at one of the five ports: 0 to 3 the gather engines', 4 the DMA reads', which looks up only where the network calendar
schedules it (R173, R184). A hit is answered and its line is the newest; a miss waits for its fill, one fill for all that wait for the
line. -/
def ncacheLookupFx (cd : Fin 12) (lport : Fin 5) (addr : BitVec 48) (b : Blk) : Blk :=
  let cd := cd.val
  let line := addr.toNat / 256
  let n := b.nc cd
  if lport.val = 4 ∧ ¬b.lookupOpen cd then b
  else if b.on (NCACHE_CTRL.enable cd) ∧ n.lines.any fun l => l.line = line then
    let use (l : NcLine) : NcLine := if l.line = line then { l with stamp := n.clock + 1 } else l
    let bad := n.lines.any fun l => l.line = line ∧ l.words.any (·.poison)
    let b := b.updNc cd fun n => { n with clock := n.clock + 1, lines := n.lines.map use }
    (b.incBy (NCACHE_HITS.count cd) 1).answer cd line [lport.val] bad true
  else
    let b := b.incBy (NCACHE_MISSES.count cd) 1
    let b := if 0 < (b.region (b.lineRegion line)).inFlight then b.perf (cd + 1) 0x07 255 1 else b
    if n.misses.any fun m => m.line = line then
      let add (m : NcMiss) : NcMiss := if m.line = line then { m with ports := addNew m.ports lport.val } else m
      b.updNc cd fun n => { n with misses := n.misses.map add }
    else b.updNc cd fun n => { n with misses := n.misses ++ [⟨line, [lport.val]⟩] }

/-- No write is in flight in the line's region (R185). -/
def Blk.fillable (b : Blk) (line : Nat) : Bool := decide ((b.region (b.lineRegion line)).inFlight = 0)

/-- The next miss to be filled: the oldest whose region is not under write (R184, R185). -/
def Blk.nextFill (b : Blk) (cd : Nat) : Option NcMiss := (b.nc cd).misses.find? fun m => b.fillable m.line

/-- The fill requester's windows on the line's path are open, and no refresh is in the way (R184). -/
def Blk.fillOpen (b : Blk) (cd line : Nat) : Bool :=
  match b.place (line * 256) with
  | some key => b.wayOpen (ownNc cd) cd key 8 false
  | none => true

/-- A line's words enter the cache; the set's least recently used line goes when its 16 ways are taken. With the cache disabled nothing is
retained. -/
def Blk.retain (b : Blk) (cd line : Nat) (ws : List MWord) : Blk :=
  let n := b.nc cd
  let inSet := n.lines.filter fun l => l.line % 2048 = line % 2048
  let kept := if inSet.length < 16 then n.lines
    else
      let old := inSet.foldl (fun a l => min a l.stamp) (n.clock + 1)
      match inSet.find? fun l => l.stamp = old with
      | some v => n.lines.erase v
      | none => n.lines
  let lines := if b.on (NCACHE_CTRL.enable cd) then kept ++ [⟨line, n.clock + 1, ws⟩] else n.lines
  b.updNc cd fun n => { n with clock := n.clock + 1, lines := lines }

/-- NCACHE_FILL_COMPLETE: fills follow misses in miss order, in the fill requester's own windows, and wait for a region under
write. -/
def ncacheFillFx (cd : Fin 12) (line : BitVec 40) (b : Blk) : Blk :=
  let cd := cd.val
  let line := line.toNat
  match b.nextFill cd with
  | none => b
  | some m =>
    if m.line ≠ line ∨ ¬b.fillOpen cd line then b
    else
      let rd := b.readMem (line * 256) 8 (cd + 1) 41
      let ws := rd.2.travel (dieWay (((b.place (line * 256)).map dieOfPlace).getD 0) (cd + 1)) rd.1
      let b := (ws.2.perf (cd + 1) 0x06 255 1).retain cd line ws.1
      (b.updNc cd fun n => { n with misses := n.misses.erase m }).answer cd line m.ports (ws.1.any (·.poison)) false

/-! ### Gather descriptors (R179) -/

def gKind (d : Nat) : Nat := bits d 0 2
def gCached (d : Nat) : Bool := bit d 2
def gMask (d : Nat) : Bool := bit d 3
def gRel (d : Nat) : Bool := bit d 4
def gWords (d : Nat) : Nat := bits d 8 4
def gIdx (d : Nat) : Nat := bits d 16 25
def gDst (d : Nat) : Nat := bits d 41 25
def gBase (d : Nat) : Nat := bits d 72 48
def gCount (d : Nat) : Nat := bits d 120 20
def gRemote (d : Nat) : Nat := bits d 140 20
def gQuota (d : Nat) : Nat := bits d 160 8
def gLimit (d : Nat) : Nat := bits d 184 32
def gEngine (d : Nat) : Nat := bits d 216 2

/-- Place of an offset of a stream in its core's SRAM, with the slot it was started in. -/
def Blk.streamKey (b : Blk) (st : Stream) (off : Nat) : Nat :=
  sramKey st.core + (off + (if gRel st.desc.toNat then b.partBase st.core st.slotCtx else 0)) % sramBytes st.core

/-- Address of element `v` of a stream's source. -/
def gAddr (d v : Nat) : Nat := gBase d + v * gWords d * 32

/-- Bank of a request (R180): external memory (channel, bank), staging bank, or remote module. -/
def gathBank (kind addr remote : Nat) : Nat :=
  if kind = 0 then chanOf addr * 16 + bankOf addr
  else if kind = 1 then 4096 + addr / 32 % 64
  else 8192 + remote

def Blk.gathQuota (b : Blk) (cd d : Nat) : Nat :=
  if gQuota d = 0 then b.rd (GATH_SLOT_QUOTA.slots cd) else gQuota d

/-- Lowest free slot number. -/
def freeSlot (rs : List GathReq) : Option Nat := (List.range 256).find? fun n => ¬rs.any fun r => r.slot = n

/-- Requests of the stream on a bank. -/
def Stream.onBank (st : Stream) (bank : Nat) : Nat := (st.reqs.filter fun r => r.bank = bank).length

/-! ### Stall causes (R183) -/

/-- A request's windows are open: on the crossbar, and for external memory on its channel. A cached request goes to its die's near
cache, whose fills have windows of their own (R184). -/
def Blk.gathWindow (b : Blk) (ge : Nat) (d addr : Nat) : Bool :=
  let cd := ge / 4
  let own := ownGath cd (ge % 4)
  if gKind d = 2 then b.xbarWindow own cd 16 || b.xbarWindow own cd 17
  else if gCached d then true
  else match b.place addr with
    | some key => b.wayWindow own cd key false
    | none => true

/-- Refresh is in the request's way. -/
def Blk.gathRefresh (b : Blk) (d addr : Nat) : Bool :=
  gKind d = 0 && !gCached d && b.refreshWait (chanOf addr) (gWords d)

/-- What holds a remote request whose packet is still queued: a limiter (6), or link credits or a full replay buffer (5; R206). -/
def Blk.remoteHold (b : Blk) (ge slot : Nat) : Option Nat :=
  let tag := ownGath (ge / 4) (ge % 4) + slot * 2 ^ 16
  (List.range 10).findSome? fun p =>
    ((b.port p).queue.find? fun x => hType x.pkt.hdr.toNat = 0x02 ∧ x.injected ∧ hTag x.pkt.hdr.toNat = tag).bind fun x =>
      let h := x.pkt.hdr.toNat
      let words := RPkt.words x.pkt
      if (diffAxes h).any fun a => b.tokens (hCls h) a < words * 64 then some 6
      else if (b.groupOf (p / 5) (b.logicalOf p)).all fun m =>
          let q := b.physOf (p / 5) m
          b.rd (PORT_CREDIT.avail q x.vc) < words ∨ 16384 < (b.port q).replay.length + words then some 5
      else none

/-- The stream's next index would find no slot, or its bank at quota. -/
def Blk.gathNext (b : Blk) (ge : Nat) (st : Stream) : Option Nat :=
  let d := st.desc.toNat
  if gCount d ≤ st.next then none
  else
    let key := b.streamKey st (gIdx d + 4 * st.next)
    let v := bits (b.readWord key).data.toNat (8 * (key % 32)) 32
    if v = 0xFFFFFFFF ∨ gLimit d ≤ v then none
    else if (freeSlot st.reqs).isNone then some 7
    else if b.gathQuota (ge / 4) d ≤ st.onBank (gathBank (gKind d) (gAddr d v) (gRemote d)) then some 8
    else none

/-- The cause under which an engine with a stream counts now: the highest applicable code of R183's list. Where none applies it waits for
words to return, which is 9 (DEDUCED, log entry 64). -/
def Blk.gathCause (b : Blk) (ge : Nat) : Nat :=
  match (b.gathE ge).streams with
  | [] => 0
  | st :: _ =>
    let d := st.desc.toNat
    let held := st.reqs.filter fun r => ¬r.issued
    let opened := held.filter fun r => b.gathWindow ge d r.addr
    let all (c : Nat) : Bool := st.reqs ≠ [] && st.reqs.all fun r => b.remoteHold ge r.slot == some c
    let under := gCached d && (b.nc (ge / 4)).misses.any fun m => m.ports.contains (ge % 4) && !b.fillable m.line
    if under then 14
    else if held ≠ [] ∧ held.all fun r => b.gathWindow ge d r.addr ∧ b.gathRefresh d r.addr then 9
    else match b.gathNext ge st with
      | some c => c
      | none =>
        if all 6 then 6 else if all 5 then 5
        else if held ≠ [] ∧ opened = [] then 4
        else 9

/-- Network cycles since machine time 0. -/
def Blk.netCyc (b : Blk) : Nat := b.now * b.netMhz / 1000

/-- Count the cycles since the engine last counted, under the cause in force; and the slips of the cores that wait on its queue. -/
def Blk.gathSettle (b : Blk) (ge : Nat) : Blk :=
  let cd := ge / 4
  let e := ge % 4
  let g := b.gathE ge
  let c := b.netCyc
  if g.streams = [] then b.updGath ge fun g => { g with since := c }
  else
    let b := (List.range 32).foldl (fun b s => match (b.core (32 * cd + s)).waitq with
      | some w => if w.queue = e then b.settleWait (32 * cd + s) else b
      | none => b) b
    (b.incBy (GATH_STALL.count cd e g.cause) (c - g.since)).updGath ge fun g => { g with since := max g.since c }

/-- The engine issues a request or writes an element in this cycle: cause 0 (R183), once a cycle. -/
def Blk.gathBusy (b : Blk) (ge : Nat) : Blk :=
  let c := b.netCyc
  if c < (b.gathE ge).since then b
  else (b.incBy (GATH_STALL.count (ge / 4) (ge % 4) 0) 1).updGath ge fun g => { g with since := c + 1 }

/-- Show the engine's state and its cause. -/
def Blk.showGath (b : Blk) (ge : Nat) : Blk :=
  let cd := ge / 4
  let e := ge % 4
  let b := b.updGath ge fun g => { g with cause := b.gathCause ge }
  let g := b.gathE ge
  let used := match g.streams with
    | s :: _ => s.reqs.length
    | [] => 0
  let b := (b.wrB (GATH_STATUS.busy cd e) (g.streams ≠ [])).wr (GATH_STATUS.queued cd e) (g.streams.length - 1)
  (b.wr (GATH_STATUS.slots_used cd e) used).wr (GATH_STATUS.cause cd e) g.cause

/-! ### Streams (R180 to R182) -/

/-- GSTART: the stream joins the engine's queue; on a fenced or draining engine, and on one that has a stream running and 8 queued, it
completes aborted (R304, R308; log entry 131). -/
def gstartFx (i : Issue) (r : BitVec 5) : Blk → Blk :=
  issue i true fun k b =>
    let d := b.descriptor k r
    let x := d.1.data.toNat
    let ge := 4 * (k / 32) + gEngine x
    let b := d.2
    if d.1.poison ∨ gCount x = 0 then b
    else if (b.gathE ge).fenced ∨ (b.gathE ge).draining ∨ 9 ≤ (b.gathE ge).streams.length then b.post k (gEngine x) true
    else
      let st : Stream := ⟨k, b.slot k, d.1.data, 0, 0, false, []⟩
      ((b.gathSettle ge).updGath ge fun g => { g with streams := g.streams ++ [st] }).showGath ge

/-- Set mask bit `i` of a stream (R181). -/
def Blk.writeMask (b : Blk) (st : Stream) (i : Nat) (v : Bool) : Blk :=
  let d := st.desc.toNat
  if ¬gMask d then b
  else
    let key := b.streamKey st (gDst d + gCount d * gWords d * 32 + i / 256 * 32)
    let w := (b.rawWord key).1
    let w' := BitVec.ofNat 256 (setBits w.toNat (i % 256) 1 (b2n v))
    b.writeWord key ⟨w', false⟩

/-- Write element `i` of the front stream, and complete the stream when it was the last; with aborted status if an element came poisoned
(R180, R181). -/
def Blk.gathWrite (b : Blk) (ge i : Nat) (ws : List MWord) (mask bad : Bool) : Blk :=
  match (b.gathE ge).streams with
  | [] => b
  | st :: rest =>
    let d := st.desc.toNat
    let key := b.streamKey st (gDst d + i * gWords d * 32)
    let b := (((b.gathBusy ge).writeWords key ws).writeMask st i mask).incBy (GATH_COUNT.elements (ge / 4) (ge % 4)) 1
    let st := { st with done := st.done + 1, aborted := st.aborted || bad, reqs := st.reqs.filter fun r => r.elem ≠ i }
    if gCount d ≤ st.done then
      ((b.updGath ge fun g => { g with streams := rest }).post st.core (ge % 4) st.aborted).showGath ge
    else (b.updGath ge fun g => { g with streams := st :: rest }).showGath ge

/-- Index `i` of a stream: the 32-bit little-endian value in SRAM; poisoned words make the element poisoned. -/
def Blk.gathIndex (b : Blk) (st : Stream) (i : Nat) : Nat × Bool × Blk :=
  let key := b.streamKey st (gIdx st.desc.toNat + 4 * i)
  let w := b.fetchWord key
  (bits w.1.data.toNat (8 * (key % 32)) 32, w.1.poison, w.2)

/-- The front stream's next index takes a slot if one is free and its bank is below quota; an invalid, out-of-range or poisoned index
takes none, and its element is written at once (R180, R181). -/
def Blk.gathAlloc (b : Blk) (ge : Nat) : Blk :=
  match (b.gathE ge).streams with
  | [] => b
  | st :: rest =>
    let cd := ge / 4
    let e := ge % 4
    let d := st.desc.toNat
    if gCount d ≤ st.next ∨ (b.gathNext ge st).isSome then b
    else
      let i := st.next
      let ix := b.gathIndex st i
      let v := ix.1
      let st := { st with next := i + 1 }
      let put (s : Stream) : Blk := ix.2.2.updGath ge fun g => { g with streams := s :: rest }
      if ix.2.1 then
        ((put st).consume st.core 4 (cd + 1) (36 + e) 0 1).gathWrite ge i (List.replicate (gWords d) ⟨0, true⟩) true true
      else if v = 0xFFFFFFFF ∨ gLimit d ≤ v then
        let b := if v = 0xFFFFFFFF then put st else (put st).satBy (GATH_COUNT.out_of_range cd e) 1
        b.gathWrite ge i (List.replicate (gWords d) ⟨0, false⟩) false false
      else
        let addr := gAddr d v
        put { st with reqs := st.reqs ++ [⟨(freeSlot st.reqs).getD 0, i, addr, gathBank (gKind d) addr (gRemote d), false, 0⟩] }

/-- The first held request whose windows are open, in allocation order, issues; a remote one as a READ_REQ of class C2 (R180,
R182). -/
def Blk.gathIssue (b : Blk) (ge : Nat) : Blk :=
  match (b.gathE ge).streams with
  | [] => b
  | st :: rest =>
    let cd := ge / 4
    let e := ge % 4
    let d := st.desc.toNat
    match st.reqs.find? fun r => ¬r.issued ∧ b.gathWindow ge d r.addr ∧ ¬b.gathRefresh d r.addr with
    | none => b
    | some r =>
      let mark (q : GathReq) : GathReq := if q.elem = r.elem then { q with issued := true, issuedAt := b.now } else q
      let b := b.updGath ge fun g => { g with streams := { st with reqs := st.reqs.map mark } :: rest }
      let b := (b.gathBusy ge).perf (cd + 1) 0x08 e 1
      if gKind d = 2 then
        let tag := ownGath cd e + r.slot * 2 ^ 16
        let hdr := mkHdr 0x02 (gRemote d) (b.coord 0) 2 1 (r.addr * 2 ^ 104 + tag * 2 ^ 154)
        b.inject 0 ⟨BitVec.ofNat 256 hdr, [⟨BitVec.ofNat 256 (gWords d - 1), false⟩]⟩
      else b

/-- GATHER_REQUEST_ISSUE: at most one slot is given and one request issues. -/
def gatherIssueFx (cd : Fin 12) (e : Fin 4) (b : Blk) : Blk :=
  let ge := 4 * cd.val + e.val
  if (b.gathE ge).streams = [] then b else (((b.gathSettle ge).gathAlloc ge).gathIssue ge).showGath ge

/-- A returned element is written, poison with it (R181). -/
def Blk.gathReturn (b : Blk) (ge i : Nat) (ws : List MWord) : Blk :=
  match (b.gathE ge).streams with
  | [] => b
  | st :: _ =>
    let b := b.gathSettle ge
    let bad := ws.any (·.poison)
    let b := if bad then b.consume st.core 4 (ge / 4 + 1) (36 + ge % 4) 0 ((ws.filter (·.poison)).length) else b
    b.gathWrite ge i ws true bad

/-- GATHER_ELEMENT_RETURN: an issued request of this module's memory returns; a cached one once the near cache has answered for every
line of its element (R184). -/
def gatherReturnFx (cd : Fin 12) (e : Fin 4) (elem : BitVec 20) (b : Blk) : Blk :=
  let ge := 4 * cd.val + e.val
  match (b.gathE ge).streams with
  | [] => b
  | st :: _ =>
    let d := st.desc.toNat
    match st.reqs.find? fun r => r.elem = elem.toNat ∧ r.issued with
    | none => b
    | some r =>
      let ls := linesOf r.addr (gWords d)
      if gKind d = 2 ∨ (gCached d ∧ ¬b.linesServed cd.val e.val ls) then b
      else
        let c := if gCached d then b.takeServed cd.val e.val ls else (false, b)
        let ws := if gCached d then c.2.readDev r.addr (gWords d) (cd.val + 1) (36 + e.val)
          else
            let rd := c.2.readMem r.addr (gWords d) (cd.val + 1) (36 + e.val)
            rd.2.travel (dieWay (((b.place r.addr).map dieOfPlace).getD 0) (cd.val + 1)) rd.1
        (ws.2.perf (cd.val + 1) 0x03 (st.core % 32) (gWords d)).gathReturn ge elem.toNat (if c.1 then ws.1.map fun w => { w with poison := true } else ws.1)

/-- GATHER_REMOTE_TIMEOUT (R182). -/
def gatherTimeoutFx (cd : Fin 12) (e : Fin 4) (elem : BitVec 20) (b : Blk) : Blk :=
  let ge := 4 * cd.val + e.val
  match (b.gathE ge).streams with
  | [] => b
  | st :: _ =>
    let d := st.desc.toNat
    match st.reqs.find? fun r => r.elem = elem.toNat ∧ r.issued with
    | none => b
    | some r =>
      if gKind d ≠ 2 ∨ b.now < r.issuedAt + b.rd (GATH_CTRL.remote_timeout_us cd.val) * 1000 then b
      else ((b.gathSettle ge).gathWrite ge elem.toNat (List.replicate (gWords d) ⟨0, true⟩) true true).hwFail st.core

/-! ### The close of a window, and the end of a step (R192) -/

/-- Held requests of an engine's front stream for external memory that `sel` picks. -/
def Blk.gathHeld (b : Blk) (ge : Nat) (sel : Nat → Bool) : List GathReq :=
  match (b.gathE ge).streams with
  | [] => []
  | st :: _ => if gKind st.desc.toNat ≠ 0 ∨ gCached st.desc.toNat then [] else st.reqs.filter fun r => ¬r.issued ∧ sel r.addr

/-- A held gather request expires: its element is poisoned, and its stream aborted. -/
def Blk.gathExpire (b : Blk) (ge : Nat) (r : GathReq) : Blk :=
  match (b.gathE ge).streams with
  | [] => b
  | st :: _ =>
    ((b.windowExpired r.addr).gathSettle ge).gathWrite ge r.elem (List.replicate (gWords st.desc.toNat) ⟨0, true⟩) true true

/-- A waiting fill expires: its lookups are answered with poison. -/
def Blk.ncExpire (b : Blk) (cd : Nat) (m : NcMiss) : Blk :=
  ((b.windowExpired (m.line * 256)).updNc cd fun n => { n with misses := n.misses.erase m }).answer cd m.line m.ports true false

/-- Misses of a near cache for external memory that `sel` picks. -/
def Blk.ncHeld (b : Blk) (cd : Nat) (sel : Nat → Bool) : List NcMiss :=
  (b.nc cd).misses.filter fun m => match b.place (m.line * 256) with
    | some key => decide (key < stageKey) && sel (m.line * 256)
    | none => false

/-- WINDOW_CLOSE: requests of the closing windows' owners that were not started go back, or expire (R192). -/
def windowCloseFx (ch : Fin 128) (b : Blk) : Blk :=
  let ch := ch.val
  let owners := b.closing ch
  let b := b.closeReqs ch
  let b := (List.range 48).foldl (fun b ge =>
    let own := ownGath (ge / 4) (ge % 4)
    if ¬owners.any (ownsAs own) then b
    else
      let held := b.gathHeld ge fun a => chanOf a = ch
      if b.laterWindow own ch then b.countDeferred ch held.length else held.foldl (fun b r => b.gathExpire ge r) b) b
  let b := (List.range 12).foldl (fun b cd =>
    if ¬owners.any (ownsAs (ownNc cd)) then b
    else
      let held := b.ncHeld cd fun a => chanOf a = ch
      if b.laterWindow (ownNc cd) ch then b.countDeferred ch held.length else held.foldl (fun b m => b.ncExpire cd m) b) b
  b.copySome

/-- A step ends: what is still held finds no later window in it, and expires. A host request keeps its own limit (R334). -/
def Blk.expireStep (b : Blk) : Blk :=
  let held := (b.heldFor fun r => r.serves ≠ .host).filter fun x => x.1 < 128
  let b := held.foldl (fun b x => (b.dropReq x).expireReq x.2) b
  let b := (List.range 48).foldl (fun b ge => (b.gathHeld ge fun _ => true).foldl (fun b r => b.gathExpire ge r) b) b
  (List.range 12).foldl (fun b cd => (b.ncHeld cd fun _ => true).foldl (fun b m => b.ncExpire cd m) b) b

def execGstart (i : Issue) (r : BitVec 5) (s : State) := onBlk s (gstartFx i r)
def execGatherRequestIssue (cd : Fin 12) (e : Fin 4) (s : State) := onBlk s (gatherIssueFx cd e)
def execGatherElementReturn (cd : Fin 12) (e : Fin 4) (x : BitVec 20) (s : State) := onBlk s (gatherReturnFx cd e x)
def execGatherRemoteTimeout (cd : Fin 12) (e : Fin 4) (x : BitVec 20) (s : State) := onBlk s (gatherTimeoutFx cd e x)
def execNcacheLookup (cd : Fin 12) (l : Fin 5) (a : BitVec 48) (s : State) := onBlk s (ncacheLookupFx cd l a)
def execNcacheFillComplete (cd : Fin 12) (l : BitVec 40) (s : State) := onBlk s (ncacheFillFx cd l)
def execWindowClose (ch : Fin 128) (s : State) := onBlk s (windowCloseFx ch)

end Sys2Proof.Machine
end

