-- ==== Sys2Proof/Machine/Links.lean ====
section
/-!
DEFINITION. Stavelink ports (09_stavelink.md): states (R199 to R202, R396), lanes and sparing (R204, R205), link words
(R198), credits and replay (R206, R216), outages (R207, R208), standby takeover (R210), the router's input
(R214, R221), cables (R382), and the line notices a lost port sends (R247).
-/
namespace Sys2Proof.Machine

/-! ### Cause bits of the ports (R261, R278, R300) -/

/-- A standby serves the logical port of physical axis port `p`. -/
def Blk.portCovered (b : Blk) (p : Nat) : Bool :=
  p ≠ 4 && p ≠ 9 && b.physOf (p / 5) p ≠ p && b.pLive (b.physOf (p / 5) p)

/-- A planned port is DOWN or FAILED, and no standby serves its logical port. -/
def Blk.portOut (b : Blk) (p : Nat) : Bool :=
  let st := b.pstate p
  b.planned p && (st = psDown || st = psFailed) && !(b.portCovered p)
def Blk.portMissing (b : Blk) : Bool := (List.range 10).any b.portOut

/-- A planned port that can carry management traffic only. -/
def Blk.mgmtOnly (b : Blk) (p : Nat) : Bool := b.planned p && b.pstate p = psQuar && b.rd (CTL_DISC.outcome p) = 8
def Blk.portMgmtOnly (b : Blk) : Bool := (List.range 10).any b.mgmtOnly

/-- Re-evaluate the port causes (R278); in ARMED, RUN and DRAIN this waits for the release after the job. -/
def Blk.portCauses (b : Blk) : Blk :=
  if b.locked ∨ b.dstate = stDrain then b
  else (b.cause CTL_STATE.port_missing b.portMissing).cause CTL_STATE.port_mgmt_only b.portMgmtOnly

/-! ### Entering states -/

/-- Start TRAINING (R200, R396): what the peer said before is forgotten. -/
def Blk.startTraining (b : Blk) (p : Nat) : Blk :=
  let b := b.updPort p fun s =>
    { s with rxSpares := [], txSpares := [], txLanes := [], farEnd := none, lockAt := none, hello := none, waitHellos := 0, admitted := false, undecided := false, hold := false, authBad := false, auth := AuthSt.init, nakWait := false, nakPending := false, outage := none, act := none, powered := true }
  let b := ((b.setPstate p psTraining).wr (PORT_STATE.width p) 0).wr (CTL_DISC.authenticated p) 0
  (b.wr (CTL_DISC.hellos p) 0).closeInput p

/-- Every enabled VC's credits: the whole buffer of the other end (R216). -/
def Blk.fillCredits (b : Blk) (p : Nat) : Blk :=
  (List.range 8).foldl (fun b v =>
    b.wr (PORT_CREDIT.avail p v) (if b.on (PORT_VC_BUF.enable p v) then b.rd (PORT_VC_BUF.words p v) else 0)) b

/-- Enter UP, DEGRADED or QUARANTINE with sequence numbers and credits from the start (R206, R216). -/
def Blk.linkUp (b : Blk) (p st width : Nat) : Blk :=
  let b := b.updPort p fun s =>
    { s with rxSeq := 0, txSeq := 0, ackSeq := 0, replay := [], vcFreed := [], vcReturned := [], nakWait := false, nakPending := false }
  let b := ((b.restartCal p).setPstate p st).wr (PORT_STATE.width p) width
  (b.wr (PORT_CAL.program p) 0xFFFF).fillCredits p

/-- The port drives nothing any more. -/
def Blk.portDown (b : Blk) (p : Nat) : Blk :=
  let b := b.updPort p fun s => { s with farEnd := none, lockAt := none, hello := none, admitted := false, act := none }
  let b := ((b.setPstate p psDown).wr (PORT_STATE.width p) 0).wr (CTL_DISC.authenticated p) 0
  ((b.closeInput p).purge p).portCauses

/-- Enter QUARANTINE: from TRAINING with credits and sequence numbers from the start; packets that it does not carry are dropped (R199). -/
def Blk.quarantine (b : Blk) (p : Nat) : Blk :=
  let w := min 34 (b.port p).goodLanes
  let b := if b.pstate p = psTraining then b.linkUp p psQuar w else ((b.setPstate p psQuar).wr (PORT_STATE.width p) w).restartCal p
  (b.closeInput p).purge p

/-! ### Discarding (R208) and what follows -/

/-- The data-class packets queued for port `p`, or for the group that it sends for (R201, R211). -/
def Blk.dataQueued (b : Blk) (p : Nat) : List QPkt :=
  (b.port (b.leader (p / 5) (b.logicalOf p))).queue.filter fun x => x.vc < 6

/-- Those that port `p` discards with its replay buffer: none while another member of its group goes on with them (R208, R211). -/
def Blk.dataLost (b : Blk) (p : Nat) : List QPkt :=
  let other := (b.groupOf (p / 5) (b.logicalOf p)).any fun m =>
    let q := b.physOf (p / 5) m
    q ≠ p ∧ b.pstate q = psUp
  if other then [] else b.dataQueued p

def Blk.discardWords (b : Blk) (p : Nat) : Nat :=
  (b.port p).replay.length + ((b.dataLost p).map fun x => RPkt.words x.pkt).sum

/-- Discard them, and count them in PORT_REPLAY.discards; the collectives whose traffic the port carries fail (R248), and a discarded data
word in ARMED or RUN makes the vote fail and the vote word's link_lost. -/
def Blk.discard (b : Blk) (p : Nat) : Blk :=
  let n := b.discardWords p
  let gone := b.dataLost p
  let lead := b.leader (p / 5) (b.logicalOf p)
  let b := b.updPort lead fun s => { s with queue := s.queue.filter fun x => ¬gone.contains x }
  let b := b.updPort p fun s => { s with replay := [] }
  let b := b.satBy (PORT_REPLAY.discards p) n
  if n = 0 then b
  else (ifB b.locked (fun b => b.modFail.updVote fun v => { v with linkLost := true }) b).collPortFail (b.logicalOf p)

/-- First step start at least 200 µs from now (R247). -/
def Blk.lineInstant (b : Blk) : Nat :=
  match b.run.job with
  | some j =>
    if j.stepNs = 0 then b.now + 200000
    else b.run.stepStart + cdiv (b.now + 200000 - b.run.stepStart) j.stepNs * j.stepNs
  | none => b.now + 200000

/-- A lost axis port without a standby sends a LINE notice to the other side of its line, and applies it itself
(R247). -/
def Blk.lineNotice (b : Blk) (n : Nat) : Blk :=
  let x := axisOf n
  let l := b.axLen 0 x
  let c := coordAt (b.coord 0) x
  if 4 ≤ x ∨ l ≤ 1 then b
  else
    let k := if l = 2 then (if isPlus n then 0 else 1) else if isPlus n then c else (c + l - 1) % l
    let t := b.lineInstant
    let lost := b.coll.failedLinks
    let b := b.updColl fun s =>
      { s with notes := s.notes ++ [LineNote.mk x k t], failedLinks := Sp.set 0 lost x (Sp.get 0 lost x + 1) }
    let b := if 1 ≤ Sp.get 0 lost x then b.cause CTL_STATE.no_variant true else b
    b.emit (.ctrl (axisPort x (!isPlus n)) 1 [x, k, t])

/-- An admitted standby covers a missing or failed port without a TAKEOVER word (R273). -/
def Blk.cover (b : Blk) (n p s : Nat) : Blk :=
  let b := (b.mapPort n s).raise (portDie s) (portUnit s) 0x0503 (n + p * 2 ^ 4 + s * 2 ^ 8 + b.now * 2 ^ 12)
  (b.wr (CTL_DISC.outcome p) 10).portCauses

/-- A takeover of logical port `n` by standby `s` at `t`: where the other end has named an instant, the later of the two stands (R210). -/
def Blk.agreeTake (b : Blk) (n p s t : Nat) : Blk :=
  if b.takes.any fun x => x.logical = n then
    { b with takes := b.takes.map fun x => if x.logical = n then { x with at_ := max x.at_ t } else x }
  else { b with takes := b.takes ++ [Take.mk n p s t] }

/-- An axis port has left service: in DISCOVER an admitted standby covers it (R273); later its standby takes over (R210); one without
a planned standby opens the line (R247). -/
def Blk.portLost (b : Blk) (p : Nat) : Blk :=
  let n := b.logicalOf p
  if axisOf n = 4 then b
  else match b.standbyFor n with
    | some s =>
      if b.dstate = stDiscover then
        if b.pLive s ∧ (b.port s).admitted ∧ b.idleStandby s then b.cover n p s else b
      else if b.pstate s = psUp ∧ 2 ≤ b.rd (PORT_STATE.level_minor s) ∧ b.idleStandby s then
        let t := b.now + 50000
        (b.agreeTake n p s t).updPort s fun x => { x with pendLink := x.pendLink ++ [(0x54, 0x54 + n * 2 ^ 8 + t * 2 ^ 64)] }
      else b.cause CTL_STATE.port_missing true
    | none => b.lineNotice n

/-- EV_LINK_DOWN (R209). -/
def Blk.linkDownEvent (b : Blk) (p cause durUs words : Nat) : Blk :=
  (b.updPort p fun s => { s with inj := false }).raiseInj (b.port p).inj (portDie p) (portUnit p) 0x0501
    (cause + b.logicalOf p * 2 ^ 4 + p * 2 ^ 8 + satur 24 durUs * 2 ^ 12 + satur 32 words * 2 ^ 36)

/-- An outage beyond the limit (R208): event, discards, TRAINING. -/
def Blk.linkLoss (b : Blk) (p cause : Nat) : Blk :=
  let dur := match (b.port p).outage with
    | some t => b.now - t
    | none => 0
  let n := b.discardWords p
  let b := (b.linkDownEvent p cause (dur / 1000) n).discard p
  let b := b.satBy (PORT_OUTAGE.count p) 1
  let b := b.wr (PORT_OUTAGE.last_ns p) (satur 24 dur)
  let b := b.wr (PORT_OUTAGE.max_ns p) (max (b.rd (PORT_OUTAGE.max_ns p)) (satur 24 dur))
  (b.portLost p).startTraining p

/-! ### The router's input (R214, R221, R276) -/

/-- Axis of a router input; 4 where it is no port. -/
def Blk.inAxis (b : Blk) (ld : Nat) (inp : RouterIn) : Nat :=
  match inp with
  | .port i => b.axisFor (b.logicalOf (ld * 5 + i.val))
  | _ => 4

def inPhys (ld : Nat) : RouterIn → Nat
  | .port i => ld * 5 + i.val
  | .other => 11
  | .hub => 10

/-- A receiver checks `n` data words under the code of R288: it corrects and counts some of them, how many the spec leaves to the link
(a free count, log entry 133) (R196). -/
def Blk.received (b : Blk) (p n : Nat) : Blk :=
  let f := b.fresh
  let k := f.1.toNat % (n + 1)
  (f.2.satBy (PORT_ERR.corrected p) k).satBy (RAS_ERR.corrected (portDie p)) k

/-- PACKET_ROUTE: the router checks a header and forwards, multicasts, delivers or drops the packet. A port that waits for a
word to arrive again discards what follows (R206). -/
def packetRouteFx (ld : Fin 2) (inp : RouterIn) (pkt : RawPacket) (b : Blk) : Blk :=
  let ld := ld.val
  let h := pkt.hdr.toNat
  let p := inPhys ld inp
  let t := hType h
  let fromPort := p < 10
  if fromPort ∧ (¬(b.pLive p ∨ b.pstate p = psQuar) ∨ (b.port p).nakWait) then b
  else if typeClasses t = [] then
    if fromPort then
      let b := b.raise (17 + ld) (p % 5) 0x0504 (p + t * 2 ^ 4 + (b.port p).rxSeq * 2 ^ 12)
      b.linkLoss p 0
    else b.dropPkt ld h 2
  else
    let words := RPkt.words pkt
    let b := ifB fromPort (fun b => (b.received p words).updPort p fun s => { s with rxSeq := (s.rxSeq + words) % 2 ^ 24 }) b
    let bad := ¬(typeClasses t).contains (hCls h) ∨ ¬b.inTorus ld (hDst h) ∨ ¬b.inTorus ld (hSrc h) ∨ hdrReserved h
    let vc := hVc h
    if bad then (b.dropPkt ld h (if fromPort then 2 else 3)).freeCredit p vc words
    else if (b.dstate = stDiscover ∧ hCls h < 3) ∨ (fromPort ∧ b.pstate p = psQuar ∧ t ≠ 0x12 ∧ t ≠ 0x13) then
      (b.dropPkt ld h 1).freeCredit p vc words
    else
      let injected := decide (inp = .hub)
      let ax := b.inAxis ld inp
      if hMc h then b.routeMc ld pkt p vc ax injected
      else b.routeUni ld pkt p vc ax injected

/-! ### Link words (R198, R206, R216) -/

/-- CREDIT_ACK's word: the next data word expected, nak, and the words freed per VC. -/
def Blk.creditWord (b : Blk) (p : Nat) : Nat :=
  let s := b.port p
  let creds := (List.range 8).foldl (fun a v => a + Sp.get 0 s.vcFreed v * 2 ^ (64 + 20 * v)) 0
  0x51 + s.rxSeq * 2 ^ 8 + b2n s.nakPending * 2 ^ 32 + creds

/-- The timestamp set (R28). -/
def Blk.timestampWord (b : Blk) (p : Nat) : Nat :=
  let t := b.ptime p
  let now := b.now16
  let turn := (now - t.lastRxAt) % 2 ^ 32
  0x5A + t.nextSeq * 2 ^ 8 + t.lastRxSeq * 2 ^ 16 + b.rd MTC_STATUS.hops * 2 ^ 24
    + b2n (b.on MTC_STATUS.is_root) * 2 ^ 30 + b2n (b.on MTC_STATUS.holdover) * 2 ^ 31
    + (now % 2 ^ 16) * 2 ^ 32 + (now / 2 ^ 16 % 2 ^ 64) * 2 ^ 48 + turn * 2 ^ 112

/-- HELLO: level 1.2, coordinate, logical port, fingerprint bits (R198, R203). -/
def Blk.helloWord (b : Blk) (p : Nat) : Nat :=
  let fpr := b.rd (SEC_FPR.fpr 0) + b.rd (SEC_FPR.fpr 1) * 2 ^ 64 + b.rd (SEC_FPR.fpr 2) * 2 ^ 128
  0x56 + 1 * 2 ^ 8 + 2 * 2 ^ 12 + b.coord 0 * 2 ^ 16 + b.logicalOf p * 2 ^ 36 + fpr * 2 ^ 64

/-- LINK_WORD_SEND: while a link entry of the calendar plays, an even position carries CREDIT_ACK, an odd one the highest pending item
(R198). In TRAINING's final phase only HELLO passes (R199), under no calendar. -/
def linkWordSendFx (p : Port) (b : Blk) : Blk :=
  let p := p.val
  let s := b.port p
  let st := b.pstate p
  let final := st = psTraining ∧ s.lockAt.isSome
  let hp := if final ∨ st = psQuar then 1000000 else 100000000
  let hello (b : Blk) : Blk := (b.emit (.link p (BitVec.ofNat 256 (b.helloWord p)))).updPort p fun s => { s with lastHello := b.now }
  if final then
    if s.lastHello + hp ≤ b.now then
      hello ((b.updPort p fun s => { s with linkCount := s.linkCount + 1 }).perf (portDie p) 0x04 (portUnit p) 1)
    else b
  else if ¬(b.pLive p ∨ st = psQuar) ∨ b.openTimes p 8 = [] then b
  else
    let b := b.useTime p 8
    let even := s.linkCount % 2 = 0
    let b := (b.updPort p fun s => { s with linkCount := s.linkCount + 1 }).perf (portDie p) 0x04 (portUnit p) 1
    let out (b : Blk) (w : Nat) : Blk := b.emit (.link p (BitVec.ofNat 256 w))
    let credit (b : Blk) : Blk := (out b (b.creditWord p)).updPort p fun s => { s with nakPending := false }
    if even then credit b
    else
      let slot := b.now / 8000
      let pend (k : Nat) : Option (Nat × Nat) := s.pendLink.find? fun x => x.1 = k
      let takePend (b : Blk) (x : Nat × Nat) : Blk :=
        (out b x.2).updPort p fun s => { s with pendLink := s.pendLink.erase x }
      if b.pLive p ∧ (b.ptime p).lastSetSlot ≠ slot then
        let seq := (b.ptime p).nextSeq
        let b := out b (b.timestampWord p)
        b.updPtime p fun t =>
          { t with lastSetSlot := slot, nextSeq := (seq + 1) % 256, sent := (t.sent.filter fun x => b.now16 < x.at16 + 64000 * 2 ^ 16 ∧ x.seq ≠ seq) ++ [⟨seq, b.now16⟩] }
      else match pend 0x54, pend 0x52, pend 0x55, pend 0x53 with
        | some x, _, _, _ => takePend b x
        | none, some x, _, _ => takePend b x
        | none, none, some x, _ => takePend b x
        | none, none, none, some x => takePend b x
        | none, none, none, none =>
          if s.lastHello + hp ≤ b.now then hello b else credit b

/-- Acknowledge data words up to `ack` (R206). -/
def Blk.ackTo (b : Blk) (p ack : Nat) : Blk :=
  let s := b.port p
  let n := (ack + 2 ^ 24 - s.ackSeq) % 2 ^ 24
  if n ≤ s.replay.length then b.updPort p fun s => { s with ackSeq := ack, replay := s.replay.drop n } else b

/-- CREDIT_ACK: acknowledgement, and credits from the cumulative counts (R198, R216). -/
def creditAckFx (p : Port) (w : CreditWord) (b : Blk) : Blk :=
  let p := p.val
  if ¬(b.pLive p ∨ b.pstate p = psQuar) then b
  else
    let b := b.ackTo p w.ackSeq.toNat
    (List.range 8).foldl (fun b v =>
      let cum := w.credits.getD v 0 % 2 ^ 20
      let old := Sp.get 0 (b.port p).vcReturned v
      let d := (cum + 2 ^ 20 - old) % 2 ^ 20
      let b := b.updPort p fun s => { s with vcReturned := Sp.set 0 s.vcReturned v cum }
      b.wr (PORT_CREDIT.avail p v) (satur 16 (b.rd (PORT_CREDIT.avail p v) + d))) b

/-- NAK: resend from ack_seq in the original order, each word with the check bits it was made with; the stream occupies the port before
any new packet (R196, R206). -/
def nakFx (p : Port) (w : CreditWord) (b : Blk) : Blk :=
  let b := creditAckFx p w b
  let p := p.val
  let r := (b.port p).replay
  if r = [] ∨ ¬(b.pLive p ∨ b.pstate p = psQuar) then b
  else
    let b := (b.satBy (PORT_REPLAY.naks p) 1).perf (portDie p) 0x05 (portUnit p) r.length
    let b := b.updPort p fun s => { s with txEnd := max s.txEnd (b.now * 1000000) + r.length * b.wordFs p }
    r.foldl (fun b w => b.emit (.resend p w)) b

/-- An injected fault of the link (detectors 0x05, 0x06) fires where its detector sees it; the event it leads to is marked
(R292, R293). -/
def Blk.fireLink (b : Blk) (det p : Nat) (sel : Inject → Bool) : Blk :=
  let f := b.fire det fun i => i.die = portDie p ∧ i.unit = portUnit p ∧ sel i
  if f.1.isSome then f.2.updPort p fun s => { s with inj := true } else b

/-- UNCORRECTABLE_LINK_WORD: nak and the start of an outage (R206, R207). -/
def uncorrectableFx (p : Port) (b : Blk) : Blk :=
  let p := p.val
  if ¬(b.pLive p ∨ b.pstate p = psQuar) then b
  else
    let b := (b.satBy (PORT_ERR.uncorrected p) 1).fireLink 0x05 p fun _ => true
    b.updPort p fun s =>
      { s with nakPending := true, nakWait := true, outage := some (s.outage.getD b.now) }

def Blk.outageLimit (b : Blk) (p : Nat) : Nat := b.rd (PORT_CFG.outage_limit_us p) * 1000

/-- OUTAGE_END: an outage within the limit loses nothing and is recorded (R207). -/
def outageEndFx (p : Port) (b : Blk) : Blk :=
  let p := p.val
  match (b.port p).outage with
  | some t =>
    let dur := b.now - t
    if dur ≤ b.outageLimit p then
      let b := b.updPort p fun s => { s with outage := none, nakWait := false }
      let b := (b.satBy (PORT_OUTAGE.count p) 1).wr (PORT_OUTAGE.last_ns p) (satur 24 dur)
      b.wr (PORT_OUTAGE.max_ns p) (max (b.rd (PORT_OUTAGE.max_ns p)) (satur 24 dur))
    else b
  | none => b

/-- OUTAGE_LIMIT_EXPIRY (R208, R209). -/
def outageExpiryFx (p : Port) (allLost : Bool) (b : Blk) : Blk :=
  let p := p.val
  match (b.port p).outage with
  | some t => if b.outageLimit p < b.now - t then b.linkLoss p (if allLost then 2 else 0) else b
  | none => b

/-! ### Lanes (R204, R205) -/

/-- Lanes of a port in a given state: 0 active, 1 spare, 2 failed. -/
def Blk.lanesIn (b : Blk) (p st : Nat) : List Nat := (List.range 36).filter fun l => b.rd (PORT_LANE.state p l) = st

/-- Spare lanes that no replacement under way has asked for (R204). -/
def Blk.freeSpares (b : Blk) (p : Nat) : List Nat := (b.lanesIn p 1).filter fun l => ¬(b.port p).rxSpares.any fun x => x.spare = l

/-- LANE_FAILURE: sparing where a spare lane is free, else halving (R204, R205); loss of lock begins an outage (R207). -/
def laneFailureFx (p : Port) (lane : Fin 36) (lostLock : Bool) (symErr : Nat) (b : Blk) : Blk :=
  let p := p.val
  let l := lane.val
  let b := (b.satBy (PORT_LANE.sym_err p l) symErr).fireLink (if lostLock then 0x06 else 0x05) p fun i =>
    if lostLock then i.arg % 64 = l ∨ i.arg % 64 = 63 else bits i.arg 16 6 = l
  if ¬b.pLive p ∨ b.rd (PORT_LANE.state p l) ≠ 0 ∨ ¬(lostLock ∨ b.rd (PORT_CFG.lane_err_limit p) < symErr) then b
  else
    let b := ifB lostLock (fun b => (b.wr (PORT_LANE.lock p l) 0).updPort p fun x => { x with outage := some (x.outage.getD b.now) }) b
    if (b.port p).rxSpares.any fun x => x.failed = l then b
    else match b.freeSpares p with
    | s :: _ =>
      b.updPort p fun x =>
        { x with rxSpares := x.rxSpares ++ [⟨l, s, b2n (!lostLock), none⟩], pendLink := x.pendLink ++ [(0x52, 0x52 + l * 2 ^ 8 + s * 2 ^ 14)] }
    | [] =>
      if b.pstate p ≠ psUp then b
      else
        let b := b.wr (PORT_LANE.state p l) 2
        let f := b.fresh
        let t := f.2.now + f.1.toNat % 5000000
        f.2.updPort p fun x =>
          { x with act := some ⟨3, t⟩, pendLink := x.pendLink ++ [(0x55, 0x55 + 3 * 2 ^ 8 + t * 2 ^ 64)] }

/-- SPARE request at the transmitter: acknowledge with a codeword count of its choice (R204). -/
def spareRequestFx (p : Port) (failed spare : BitVec 6) (b : Blk) : Blk :=
  let p := p.val
  if ¬b.pLive p ∨ 36 ≤ failed.toNat ∨ 36 ≤ spare.toNat then b
  else
    let f := b.fresh
    let cw := f.1.toNat % 2 ^ 32
    let w := 0x52 + failed.toNat * 2 ^ 8 + spare.toNat * 2 ^ 14 + 2 ^ 20 + cw * 2 ^ 32
    f.2.updPort p fun x =>
      { x with txSpares := x.txSpares ++ [⟨failed.toNat, spare.toNat, 0, some cw⟩], pendLink := x.pendLink ++ [(0x52, w)] }

/-- SPARE acknowledge at the receiver that asked: the codeword of the switch is agreed. -/
def spareAckFx (p : Port) (failed spare : BitVec 6) (cw : BitVec 32) (b : Blk) : Blk :=
  b.updPort p.val fun x => { x with rxSpares := x.rxSpares.map fun y =>
    if y.failed = failed.toNat ∧ y.spare = spare.toNat ∧ y.cw = none then { y with cw := some cw.toNat } else y }

/-- At the transmitter the failed lane's symbols go on the spare lane. -/
def Blk.moveTx (b : Blk) (p : Nat) : Blk :=
  b.updPort p fun x =>
    { x with txSpares := x.txSpares.drop 1,
             txLanes := (x.txSpares.take 1).foldl (fun l y => l.map fun n => if n = y.failed then y.spare else n) x.txLanes }

/-- LANE_SPARE_SWITCH: at the agreed codeword the failed lane's symbols move to the spare: at the receiver that asked, the oldest agreed
replacement (R204, R300 row 4); where none is agreed, at the transmitter, the oldest one that it acknowledged. -/
def laneSwitchFx (p : Port) (b : Blk) : Blk :=
  let p := p.val
  match (b.port p).rxSpares.find? fun y => y.cw.isSome with
  | none => b.moveTx p
  | some y =>
    let f := y.failed
    let s := y.spare
    let lg := b.rd (PORT_LANE.logical p f)
    let b := ((b.wr (PORT_LANE.state p f) 2).wr (PORT_LANE.lock p f) 0).wr (PORT_LANE.state p s) 0
    let b := (b.wr (PORT_LANE.logical p s) lg).wr (PORT_LANE.lock p s) 1
    let inj := (b.port p).inj
    let b := (b.updPort p fun x => { x with inj := false }).raiseInj inj (portDie p) (portUnit p) 0x0502 (p + f * 2 ^ 4 + s * 2 ^ 10 + y.cause * 2 ^ 16)
    let b := b.updPort p fun x => { x with rxSpares := x.rxSpares.erase y }
    let b := b.queueTest ⟨portDie p, portUnit p, 5, f, 1⟩
    if b.lanesIn p 1 = [] then b.raise (portDie p) (portUnit p) 0x0809 (4 + portUnit p * 2 ^ 8) else b

/-! ### PORT_CTRL (R201, R202, R205, R349) -/

def enterCalmFx (p : Port) (instant : BitVec 64) (b : Blk) : Blk :=
  let p := p.val
  if b.pstate p ≠ psUp then b
  else if b.dataQueued p ≠ [] ∨ (b.port p).replay ≠ [] then b.linkDownEvent p 1 0 0
  else b.updPort p fun s => { s with act := some ⟨1, instant.toNat⟩, ownLeave := none, peerLeave := none }

/-- Send PORT_CTRL action `a` with an instant. -/
def Blk.sendPortCtrl (b : Blk) (p a t : Nat) : Blk :=
  b.updPort p fun s => { s with pendLink := s.pendLink ++ [(0x55, 0x55 + a * 2 ^ 8 + t * 2 ^ 64)] }

/-- The leave is agreed when both ends have sent action 2: the later instant (R349). -/
def Blk.agreeLeave (b : Blk) (p : Nat) : Blk :=
  match (b.port p).ownLeave, (b.port p).peerLeave with
  | some o, some q => b.updPort p fun s => { s with act := some ⟨2, max o q⟩ }
  | _, _ => b

/-- A received action 2: a module that is not itself in Calm answers with its own (R201). -/
def leaveCalmFx (p : Port) (instant : BitVec 64) (b : Blk) : Blk :=
  let p := p.val
  if b.pstate p ≠ psCalm then b
  else
    let t := instant.toNat
    let b := b.updPort p fun s => { s with peerLeave := some t }
    let b := if b.rd PWR_MODE.mode ≠ 2 ∧ (b.port p).ownLeave = none then
      (b.sendPortCtrl p 2 t).updPort p fun s => { s with ownLeave := some t } else b
    b.agreeLeave p

def halveWidthFx (p : Port) (instant : BitVec 64) (b : Blk) : Blk :=
  let p := p.val
  if b.pstate p ≠ psUp then b else b.updPort p fun s => { s with act := some ⟨3, instant.toNat⟩ }

/-- Keep the 17 lowest-numbered good lanes and enter DEGRADED (R205). -/
def Blk.halve (b : Blk) (p : Nat) : Blk :=
  let good := (List.range 36).filter fun l => b.rd (PORT_LANE.state p l) ≠ 2
  let keep := good.take 17
  let b := good.foldl (fun b l => b.wr (PORT_LANE.state p l) (if keep.contains l then 0 else 1)) b
  let b := b.updPort p fun s => { s with txLanes := keep }
  ((((b.setPstate p psDegr).wr (PORT_STATE.width p) 17).wr (PORT_CAL.program p) 0xFFFF).restartCal p).purge p

/-- PORT_CTRL_ACTION_INSTANT: the agreed action takes effect (R202, R205). -/
def actionInstantFx (p : Port) (b : Blk) : Blk :=
  let p := p.val
  match (b.port p).act with
  | none => b
  | some a =>
    if b.now < a.instant then b
    else
      let b := ((b.updPort p fun s => { s with act := none }).wr (PORT_CAL.program p) 0xFFFF).restartCal p
      if a.action = 1 then ((b.setPstate p psCalm).wr (PORT_STATE.width p) 2).purge p
      else if a.action = 2 then
        let b := b.updPort p fun s => { s with ownLeave := none, peerLeave := none }
        let n := (b.lanesIn p 0).length
        if 34 ≤ n then (b.setPstate p psUp).wr (PORT_STATE.width p) 34
        else ((b.setPstate p psDegr).wr (PORT_STATE.width p) 17).purge p
      else b.halve p

/-! ### Takeover (R210) -/

/-- A received TAKEOVER on the standby: the later instant of the two ends stands. -/
def takeoverFx (p : Port) (logical : BitVec 4) (tTake : BitVec 64) (b : Blk) : Blk :=
  let p := p.val
  let n := logical.toNat
  if b.role p ≠ 1 ∨ b.rd (PORT_STATE.level_minor p) < 2 ∨ 10 ≤ n ∨ axisOf n = 4
      ∨ ¬(servesPorts (b.rd (PORT_PLAN.serves p))).contains n then b
  else b.agreeTake n (b.physOf (p / 5) n) p tTake.toNat

/-- PORT_TAKEOVER: at T_take the standby serves the logical port, with its calendar program and its VC buffers, all of them free; the
failed port stays out of service (R210). -/
def portTakeoverFx (logical : Fin 10) (b : Blk) : Blk :=
  let n := logical.val
  match b.takes.find? fun x => x.logical = n ∧ x.at_ ≤ b.now with
  | none => b
  | some t =>
    let b := { b with takes := b.takes.filter fun x => x ≠ t }
    let b := (b.mapPort n t.standby).raise (portDie t.standby) (portUnit t.standby) 0x0503
      (n + t.failed * 2 ^ 4 + t.standby * 2 ^ 8 + t.at_ * 2 ^ 12)
    let b := (List.range 8).foldl (fun b v => b.setReg (.portVcBuf t.standby v) (b.reg (.portVcBuf t.failed v))) b
    let b := (b.fillCredits t.standby).wr (PORT_CAL.program t.standby) (b.rd (PORT_CAL.program t.failed))
    ((b.restartCal t.standby).updPort t.failed fun s => { s with retired := true }).portCauses

/-! ### Enable, disable, retrain, cables (R200, R382, R396) -/

/-- Train again on request: a port that a standby replaced may serve once more (R210). -/
def Blk.retrain (b : Blk) (p : Nat) : Blk := (b.startTraining p).updPort p fun s => { s with retired := false }

/-- Effect of setting PORT_CTRL.enable. -/
def Blk.portEnabled (b : Blk) (p : Nat) : Blk :=
  if b.pstate p = psDown ∧ (b.port p).present then b.retrain p else b

/-- Effect of clearing PORT_CTRL.enable: DOWN, and the cable's supply removed. -/
def Blk.portDisabled (b : Blk) (p : Nat) : Blk := (b.portDown p).updPort p fun s => { s with powered := false }

/-- Effect of PORT_CTRL.retrain while enable is set: TRAINING from DOWN or FAILED. -/
def Blk.portRetrained (b : Blk) (p : Nat) : Blk :=
  if b.on (PORT_CTRL.enable p) ∧ (b.pstate p = psDown ∨ b.pstate p = psFailed) ∧ (b.port p).present then
    b.retrain p else b

def cableMateFx (p : Port) (b : Blk) : Blk :=
  let p := p.val
  let b := b.updPort p fun s => { s with present := true }
  if b.on (PORT_CTRL.enable p) ∧ b.pstate p = psDown then b.retrain p else b

/-- CABLE_UNMATE: DOWN, after R208 where the outage discards words (R200, R382). -/
def cableUnmateFx (p : Port) (b : Blk) : Blk :=
  let p := p.val
  let live := b.pLive p ∨ (b.pstate p = psQuar ∧ 0 < b.discardWords p)
  let b := if b.pstate p = psDown then b
    else if live then (b.linkLoss p 2).portDown p
    else b.portDown p
  b.updPort p fun s => { s with present := false, powered := false }

/-- The port fails: no lane is driven until a retrain. -/
def Blk.portFail (b : Blk) (p : Nat) : Blk :=
  let b := ((b.setPstate p psFailed).wr (PORT_STATE.width p) 0).wr (CTL_DISC.authenticated p) 0
  let b := b.updPort p fun s => { s with lockAt := none, farEnd := none, admitted := false, act := none }
  (((b.closeInput p).portLost p).purge p).portCauses

def cableOvercurrentFx (p : Port) (b : Blk) : Blk :=
  let p := p.val
  if ¬(b.port p).present ∨ b.pstate p = psDown then b
  else (b.updPort p fun s => { s with powered := false }).portFail p

def farEndFx (p : Port) (b : Blk) : Blk :=
  let p := p.val
  if b.pstate p = psTraining ∧ (b.port p).farEnd = none then b.updPort p fun s => { s with farEnd := some b.now } else b

/-- TRAINING_LOCK: fewer than 17 good lanes, or a cable delay more than 2 ns from nominal, fails the port (R382,
R396); otherwise the final phase begins. -/
def trainingLockFx (p : Port) (r : TrainResult) (b : Blk) : Blk :=
  let p := p.val
  if b.pstate p ≠ psTraining ∨ (b.port p).lockAt.isSome then b
  else
    let good := (List.range 36).filter fun l => r.good.getLsbD l
    let active := good.take 34
    let b := (List.range 36).foldl (fun b l =>
      let st := if ¬good.contains l then 2 else if active.contains l then 0 else 1
      let b := (b.wr (PORT_LANE.state p l) st).wrB (PORT_LANE.lock p l) (good.contains l)
      if st = 0 then b.wr (PORT_LANE.logical p l) ((active.findIdx? fun x => x = l).getD 0) else b) b
    let b := b.wr (PORT_LAT.cable_ps p) r.cablePs.toNat
    let off := ((r.cablePs.toNat : Int) - r.nominalPs).natAbs
    if good.length < 17 ∨ 2000 < off then b.portFail p
    else b.updPort p fun s =>
      { s with lockAt := some b.now, txLanes := active, goodLanes := good.length, farEnd := some (s.farEnd.getD b.now) }

def lockTimeoutFx (p : Port) (b : Blk) : Blk :=
  let p := p.val
  match (b.port p).farEnd with
  | some t =>
    if b.pstate p = psTraining ∧ (b.port p).lockAt = none ∧ t + 100000000 ≤ b.now then b.portFail p else b
  | none => b

/-- TRAINING_SETTLE_TIMEOUT: no decision 20 ms after lock (R396). -/
def settleTimeoutFx (p : Port) (b : Blk) : Blk :=
  let p := p.val
  match (b.port p).lockAt with
  | some t =>
    if b.pstate p = psTraining ∧ t + 20000000 ≤ b.now then
      (b.quarantine p).updPort p fun s => { s with undecided := true } else b
  | none => b

def execPacketRoute (ld : Fin 2) (i : RouterIn) (x : RawPacket) (s : State) := onBlk s (packetRouteFx ld i x)
def execLinkWordSend (p : Port) (s : State) := onBlk s (linkWordSendFx p)
def execCreditAck (p : Port) (w : CreditWord) (s : State) := onBlk s (creditAckFx p w)
def execNak (p : Port) (w : CreditWord) (s : State) := onBlk s (nakFx p w)
def execUncorrectableLinkWord (p : Port) (s : State) := onBlk s (uncorrectableFx p)
def execOutageEnd (p : Port) (s : State) := onBlk s (outageEndFx p)
def execOutageLimitExpiry (p : Port) (a : Bool) (s : State) := onBlk s (outageExpiryFx p a)
def execLaneFailure (p : Port) (l : Fin 36) (k : Bool) (n : Nat) (s : State) := onBlk s (laneFailureFx p l k n)
def execSpareRequest (p : Port) (f x : BitVec 6) (s : State) := onBlk s (spareRequestFx p f x)
def execSpareAcknowledge (p : Port) (f x : BitVec 6) (c : BitVec 32) (s : State) := onBlk s (spareAckFx p f x c)
def execLaneSpareSwitch (p : Port) (s : State) := onBlk s (laneSwitchFx p)
def execPortCtrlEnterCalm (p : Port) (t : BitVec 64) (s : State) := onBlk s (enterCalmFx p t)
def execPortCtrlLeaveCalm (p : Port) (t : BitVec 64) (s : State) := onBlk s (leaveCalmFx p t)
def execPortCtrlHalveWidth (p : Port) (t : BitVec 64) (s : State) := onBlk s (halveWidthFx p t)
def execPortCtrlActionInstant (p : Port) (s : State) := onBlk s (actionInstantFx p)
def execTakeover (p : Port) (l : BitVec 4) (t : BitVec 64) (s : State) := onBlk s (takeoverFx p l t)
def execPortTakeover (l : Fin 10) (s : State) := onBlk s (portTakeoverFx l)
def execCableMate (p : Port) (s : State) := onBlk s (cableMateFx p)
def execCableUnmate (p : Port) (s : State) := onBlk s (cableUnmateFx p)
def execCableOvercurrent (p : Port) (s : State) := onBlk s (cableOvercurrentFx p)
def execFarEndSignal (p : Port) (s : State) := onBlk s (farEndFx p)
def execTrainingLock (p : Port) (r : TrainResult) (s : State) := onBlk s (trainingLockFx p r)
def execTrainingLockTimeout (p : Port) (s : State) := onBlk s (lockTimeoutFx p)
def execTrainingSettleTimeout (p : Port) (s : State) := onBlk s (settleTimeoutFx p)

end Sys2Proof.Machine
end

