-- ==== Sys2Proof/Machine/Float.lean ====
section
/-!
DEFINITION. Exact values and their rounding (03_number_formats.md, R46 to R50, R67): a finite value is a sign, a natural
significand and a power of two, so every step before a rounding is exact; and fixed-point series for the functions that
R103 rounds correctly.
-/
namespace Sys2Proof.Machine

/-! ### Exact values -/

/-- A value: NaN, an infinity, or (−1)^neg × sig × 2^e. A zero keeps its sign. -/
inductive Ex where
  | nan
  | inf (neg : Bool)
  | fin (neg : Bool) (sig : Nat) (e : Int)
  deriving DecidableEq, Repr

namespace Ex

def zero (neg : Bool) : Ex := .fin neg 0 0
def ofNat (n : Nat) : Ex := .fin false n 0
def ofInt (i : Int) : Ex := .fin (i < 0) i.natAbs 0
def pow2 (e : Int) : Ex := .fin false 1 e

def isNan : Ex → Bool
  | .nan => true
  | _ => false
def isInf : Ex → Bool
  | .inf _ => true
  | _ => false
def finite : Ex → Bool
  | .fin _ _ _ => true
  | _ => false
def isZero : Ex → Bool
  | .fin _ s _ => s = 0
  | _ => false
def neg? : Ex → Bool
  | .nan => false
  | .inf n => n
  | .fin n _ _ => n

def negate : Ex → Ex
  | .nan => .nan
  | .inf n => .inf !n
  | .fin n s e => .fin (!n) s e

def abs : Ex → Ex
  | .nan => .nan
  | .inf _ => .inf false
  | .fin _ s e => .fin false s e

/-- Significand of `s × 2^e` at the smaller exponent `e0`. -/
def lift (s : Nat) (e e0 : Int) : Nat := s * 2 ^ (e - e0).toNat

/-- Compare magnitudes of finite values: a ≤ b. -/
def magLe (s1 : Nat) (e1 : Int) (s2 : Nat) (e2 : Int) : Bool :=
  let e0 := min e1 e2
  decide (lift s1 e1 e0 ≤ lift s2 e2 e0)

def magLt (s1 : Nat) (e1 : Int) (s2 : Nat) (e2 : Int) : Bool := !magLe s2 e2 s1 e1

/-- Signed order of two values that are not NaN: a < b, with −0 = +0. -/
def lt (a b : Ex) : Bool :=
  match a, b with
  | .nan, _ | _, .nan => false
  | .inf n, .inf m => n && !m
  | .inf n, .fin _ _ _ => n
  | .fin _ _ _, .inf m => !m
  | .fin n s e, .fin m t f =>
    if s = 0 ∧ t = 0 then false
    else if n && !m then true
    else if !n && m then false
    else if n then magLt t f s e
    else magLt s e t f

def eq (a b : Ex) : Bool :=
  match a, b with
  | .nan, _ | _, .nan => false
  | _, _ => !lt a b && !lt b a

/-- Exact sum; a zero sum of values that are not both −0 is +0 (round to nearest). ∞ − ∞ is NaN. -/
def add (a b : Ex) : Ex :=
  match a, b with
  | .nan, _ | _, .nan => .nan
  | .inf n, .inf m => if n = m then .inf n else .nan
  | .inf n, .fin _ _ _ => .inf n
  | .fin _ _ _, .inf m => .inf m
  | .fin n s e, .fin m t f =>
    let e0 := min e f
    let x : Int := (lift s e e0 : Int) * (if n then -1 else 1)
    let y : Int := (lift t f e0 : Int) * (if m then -1 else 1)
    let z := x + y
    if z = 0 then .fin (n && m) 0 0 else .fin (z < 0) z.natAbs e0

/-- Exact product; 0 × ∞ is NaN. -/
def mul (a b : Ex) : Ex :=
  match a, b with
  | .nan, _ | _, .nan => .nan
  | .inf n, .inf m => .inf (n != m)
  | .inf n, .fin m t _ => if t = 0 then .nan else .inf (n != m)
  | .fin n s _, .inf m => if s = 0 then .nan else .inf (n != m)
  | .fin n s e, .fin m t f => .fin (n != m) (s * t) (e + f)

/-- Times a power of two. -/
def scale (a : Ex) (k : Int) : Ex :=
  match a with
  | .fin n s e => .fin n s (e + k)
  | x => x

end Ex

/-- Position of the highest set bit plus one. -/
def bitLen (n : Nat) : Nat := if n = 0 then 0 else Nat.log2 n + 1

/-! ### Rounding (R67, R117) -/

/-- Rounding modes: nearest even, toward zero, stochastic with its 16 bits, and toward +∞ for captured maxima. -/
inductive Rnd where
  | rne | rtz | sr (r : Nat) | away
  deriving DecidableEq, Repr

/-- Round `s / 2^sh` to an integer. -/
def roundShift (m : Rnd) (s sh : Nat) : Nat :=
  let q := s >>> sh
  let rem := s - (q <<< sh)
  if rem = 0 then q
  else match m with
    | .rne =>
      let half := 2 ^ (sh - 1)
      if half < rem ∨ (rem = half ∧ q % 2 = 1) then q + 1 else q
    | .rtz => q
    | .sr r => if r < rem * 65536 / 2 ^ sh then q + 1 else q
    | .away => q + 1

/-- Round s × 2^e to `mb` + 1 significant bits with no quantum below 2^qmin: significand and quantum exponent. -/
def roundSig (m : Rnd) (mb : Nat) (qmin : Int) (s : Nat) (e : Int) : Nat × Int :=
  let q := max qmin (e + bitLen s - 1 - mb)
  if q ≤ e then (s * 2 ^ (e - q).toNat, q) else (roundShift m s (q - e).toNat, q)

/-! ### Binary interchange formats -/

/-- Exponent bits, mantissa bits and bias of a floating format. -/
structure FpFmt where
  eb : Nat
  mb : Nat
  bias : Nat
  deriving DecidableEq, Repr

def f32 : FpFmt := ⟨8, 23, 127⟩
def f64 : FpFmt := ⟨11, 52, 1023⟩

/-- Exponent of the smallest subnormal. -/
def FpFmt.qmin (f : FpFmt) : Int := 1 - (f.bias : Int) - f.mb

/-- The exact value of an exponent field and mantissa that hold a finite number (R46). -/
def FpFmt.finVal (f : FpFmt) (neg : Bool) (e m : Nat) : Ex :=
  if e = 0 then .fin neg m f.qmin else .fin neg (2 ^ f.mb + m) ((e : Int) - f.bias - f.mb)

/-- The value of an IEEE code (R49, R50). -/
def FpFmt.val (f : FpFmt) (x : Nat) : Ex :=
  let m := bits x 0 f.mb
  let e := bits x f.mb f.eb
  let neg := bit x (f.mb + f.eb)
  if e = 2 ^ f.eb - 1 then (if m = 0 then .inf neg else .nan) else f.finVal neg e m

/-- The code of a rounded finite value q × 2^qe that is no larger than the format's largest. -/
def FpFmt.pack (f : FpFmt) (neg : Bool) (q : Nat) (qe : Int) : Nat :=
  let s := b2n neg * 2 ^ (f.mb + f.eb)
  if q < 2 ^ f.mb then s + q
  else
    let (q, qe) := if q = 2 ^ (f.mb + 1) then (q / 2, qe + 1) else (q, qe)
    s + (qe + f.mb + f.bias).toNat * 2 ^ f.mb + (q - 2 ^ f.mb)

def FpFmt.infCode (f : FpFmt) (neg : Bool) : Nat := b2n neg * 2 ^ (f.mb + f.eb) + (2 ^ f.eb - 1) * 2 ^ f.mb

/-- Canonical NaN of an IEEE format (R50). -/
def FpFmt.nanCode (f : FpFmt) : Nat := (2 ^ f.eb - 1) * 2 ^ f.mb + 2 ^ (f.mb - 1)

/-- Round to nearest even into an IEEE format: the code, and whether a finite value became infinite (R98). -/
def FpFmt.round (f : FpFmt) (v : Ex) : Nat × Bool :=
  match v with
  | .nan => (f.nanCode, false)
  | .inf n => (f.infCode n, false)
  | .fin n s e =>
    if s = 0 then (b2n n * 2 ^ (f.mb + f.eb), false)
    else
      let r := roundSig .rne f.mb f.qmin s e
      if Ex.magLe (2 ^ (f.mb + 1)) ((f.bias : Int) - f.mb) r.1 r.2 then (f.infCode n, true)
      else (f.pack n r.1 r.2, false)

/-! ### Fixed-point series (R103)

`fpP` fractional bits: enough to hold every FP32 input exactly and to reduce every FP32 angle. A series result that is not
exact is handed on as 2 × floor + 1 at half the unit, so that its rounding to nearest is that of the exact value. -/

def fpP : Nat := 448

def one : Int := 2 ^ fpP

/-- Product and quotient of fixed-point numbers. -/
def fmul (a b : Int) : Int := a * b / one
def fdiv (a b : Int) : Int := a * one / b

/-- Σ over `n` terms: term i is `t`, the next is `f i t`. -/
def series (f : Nat → Int → Int) : Nat → Nat → Int → Int
  | 0, _, _ => 0
  | n + 1, i, t => t + series f n (i + 1) (f i t)

/-- Σ (−1)^k z^(2k+1) / (2k+1) where `alt`, else without the signs: atan and atanh. -/
def atanSeries (alt : Bool) (z2 : Int) : Nat → Nat → Int → Int
  | 0, _, _ => 0
  | n + 1, k, t =>
    let x := t / (2 * (k : Int) + 1)
    (if alt && k % 2 = 1 then -x else x) + atanSeries alt z2 n (k + 1) (fmul t z2)

/-- ln 2 = 2 atanh(1/3). -/
def ln2F : Int := 2 * atanSeries false (one / 9) 150 0 (one / 3)

/-- π by Machin's formula. -/
def piF : Int :=
  16 * atanSeries true (one / 25) 110 0 (one / 5) - 4 * atanSeries true (one / 57121) 40 0 (one / 239)

/-- Integer square root by Newton's step from above. -/
def isqrtGo : Nat → Nat → Nat → Nat
  | 0, _, x => x
  | k + 1, n, x =>
    let y := (x + n / x) / 2
    if y < x then isqrtGo k n y else x

def isqrt (n : Nat) : Nat := if n = 0 then 0 else isqrtGo 1024 n (2 ^ (bitLen n / 2 + 1))

/-- A finite value as a fixed-point number; exact for every FP32 value. -/
def Ex.fixed (neg : Bool) (s : Nat) (e : Int) : Int :=
  let m : Int := if 0 ≤ e + fpP then (s : Int) * 2 ^ (e + fpP).toNat else (s : Int) / 2 ^ (-(e + fpP)).toNat
  if neg then -m else m

/-- A fixed-point result that is not exact, times 2^k, as a value whose rounding to nearest is that of the exact one. -/
def sticky (x : Int) (k : Int) : Ex := .fin (x < 0) (2 * x.natAbs + 1) (k - fpP - 1)

/-- e^r for 0 ≤ r < 1. -/
def expSeries (r : Int) : Int := series (fun i t => fmul t r / ((i : Int) + 1)) 100 0 one

/-- e^x as (E, n): e^x = E × 2^n with 1 ≤ E < 2, for a fixed-point x. -/
def expFix (x : Int) : Int × Int :=
  let n := x / ln2F
  (expSeries (x - n * ln2F), n)

/-- ln of s × 2^e, for s > 0. -/
def lnFix (s : Nat) (e : Int) : Int :=
  let l := bitLen s - 1
  let m : Int := (s : Int) * one / 2 ^ l
  let z := fdiv (m - one) (m + one)
  2 * atanSeries false (fmul z z) 150 0 z + (e + l) * ln2F

/-- sin r and cos r for |r| ≤ 1. -/
def sinSeries (r : Int) : Int :=
  let y := fmul r r
  fmul r (series (fun i t => -(fmul t y / ((2 * (i : Int) + 2) * (2 * i + 3)))) 60 0 one)
def cosSeries (r : Int) : Int :=
  let y := fmul r r
  series (fun i t => -(fmul t y / ((2 * (i : Int) + 1) * (2 * i + 2)))) 60 0 one

/-- sin x (or cos x) for a fixed-point x, after exact reduction by multiples of π/2. -/
def sinCosFix (cos : Bool) (x : Int) : Int :=
  let h := piF / 2
  let q := (2 * x + h) / (2 * h)
  let r := x - q * h
  match (q + (if cos then 1 else 0)) % 4 with
  | 0 => sinSeries r
  | 1 => cosSeries r
  | 2 => -sinSeries r
  | _ => -cosSeries r

/-- Fixed-point value of E × 2^n. -/
def unscale (p : Int × Int) : Int := if 0 ≤ p.2 then p.1 * 2 ^ p.2.toNat else p.1 / 2 ^ (-p.2).toNat

/-- erf x = 2/√π × Σ (−1)^k x^(2k+1) / (k! (2k+1)), for |x| < 4. -/
def erfSeries (y : Int) : Nat → Nat → Int → Int
  | 0, _, _ => 0
  | n + 1, k, t =>
    let x := t / (2 * (k : Int) + 1)
    (if k % 2 = 1 then -x else x) + erfSeries y n (k + 1) (fmul t y / ((k : Int) + 1))

def erfFix (x : Int) : Int :=
  let rootPi : Int := isqrt (piF.toNat * 2 ^ fpP)
  fdiv (2 * erfSeries (fmul x x) 220 0 x) rootPi

/-! ### Correctly rounded functions -/

/-- Exact quotient of finite values, b ≠ 0, as a value that rounds as the exact one. -/
def divEx (n : Bool) (s : Nat) (e : Int) (t : Nat) (f : Int) : Ex :=
  let k := 128 + bitLen t
  let q := s * 2 ^ k / t
  if q * t = s * 2 ^ k then .fin n q (e - f - k) else .fin n (2 * q + 1) (e - f - k - 1)

/-- Exact square root of s × 2^e. -/
def sqrtEx (s : Nat) (e : Int) : Ex :=
  let (s, e) := if e % 2 = 0 then (s, e) else (2 * s, e - 1)
  let r := isqrt (s * 2 ^ 256)
  if r * r = s * 2 ^ 256 then .fin false r (e / 2 - 128) else .fin false (2 * r + 1) (e / 2 - 129)

/-- 1 ÷ √(s × 2^e): the root of the quotient. -/
def rsqrtEx (s : Nat) (e : Int) : Ex :=
  let (s, e) := if e % 2 = 0 then (s, e) else (2 * s, e - 1)
  let n := 2 ^ 512 / s
  let r := isqrt n
  if r * r * s = 2 ^ 512 then .fin false r (-(e / 2) - 256) else .fin false (2 * r + 1) (-(e / 2) - 257)

/-- A value just below 1 and one just above 0, for saturated functions. -/
def belowOne (neg : Bool) : Ex := .fin neg (2 ^ 64 - 1) (-64)
def tiny : Ex := .fin false 1 (-1000)

/-- e^v for a finite v. -/
def expEx (n : Bool) (s : Nat) (e : Int) : Ex :=
  if s = 0 then .ofNat 1
  else if Ex.magLe 128 0 s e then (if n then tiny else .pow2 1000)
  else
    let p := expFix (Ex.fixed n s e)
    sticky p.1 p.2

/-- 2^v for a finite v. -/
def exp2Ex (n : Bool) (s : Nat) (e : Int) : Ex :=
  if s = 0 then .ofNat 1
  else if Ex.magLe 256 0 s e then (if n then tiny else .pow2 1000)
  else
    let x := Ex.fixed n s e
    let k := x / one
    let r := x - k * one
    if r = 0 then .pow2 k else sticky (expSeries (fmul r ln2F)) k

/-- ln v for a finite v > 0; ln 1 = +0. -/
def logEx (s : Nat) (e : Int) : Ex :=
  if Ex.magLe s e 1 0 && Ex.magLe 1 0 s e then .zero false else sticky (lnFix s e) 0

/-- log₂ v for a finite v > 0: exact for powers of two. -/
def log2Ex (s : Nat) (e : Int) : Ex :=
  let l := bitLen s - 1
  if s = 2 ^ l then .ofInt (e + l) else sticky (fdiv (lnFix s e) ln2F) 0

def sinEx (n : Bool) (s : Nat) (e : Int) : Ex :=
  if s = 0 then .zero n else sticky (sinCosFix false (Ex.fixed n s e)) 0
def cosEx (n : Bool) (s : Nat) (e : Int) : Ex :=
  if s = 0 then .ofNat 1 else sticky (sinCosFix true (Ex.fixed n s e)) 0

def tanhEx (n : Bool) (s : Nat) (e : Int) : Ex :=
  if s = 0 then .zero n
  else if Ex.magLe 32 0 s e then belowOne n
  else
    let x := unscale (expFix (2 * Ex.fixed false s e))
    let r := fdiv (x - one) (x + one)
    sticky (if n then -r else r) 0

def sigmoidEx (n : Bool) (s : Nat) (e : Int) : Ex :=
  if s = 0 then .fin false 1 (-1)
  else if Ex.magLe 128 0 s e then (if n then tiny else belowOne false)
  else
    let x := unscale (expFix (Ex.fixed n s e))
    sticky (fdiv x (one + x)) 0

def erfEx (n : Bool) (s : Nat) (e : Int) : Ex :=
  if s = 0 then .zero n
  else if Ex.magLe 4 0 s e then belowOne n
  else
    let r := erfFix (Ex.fixed false s e)
    sticky (if n then -r else r) 0

end Sys2Proof.Machine
end

