-- ==== Sys2Proof/Machine/Operands.lean ====
section
/-!
DEFINITION. Element formats, block layouts and their conversions (03_number_formats.md): decoding of every code (R46, R50
to R57, R60), encode_value with its rounding and saturation modes (R67 to R70, R117), encode_block (R59, R62 to R66), and
the bit strings of element and scale arrays (R58).
-/
namespace Sys2Proof.Machine

/-! ### Formats (R46) -/

/-- Fields of the floating format of a code; none for the integer and reserved codes. -/
def floatFmt (c : Nat) : Option FpFmt :=
  match c with
  | 0 => some f32
  | 1 => some ⟨8, 7, 127⟩
  | 2 => some ⟨5, 10, 15⟩
  | 3 => some ⟨4, 3, 7⟩
  | 4 => some ⟨5, 2, 15⟩
  | 5 => some ⟨3, 2, 3⟩
  | 6 => some ⟨2, 3, 1⟩
  | 7 => some ⟨2, 1, 1⟩
  | 11 => some f64
  | _ => none

def isInt (c : Nat) : Bool := c = 8 ∨ c = 9 ∨ c = 10

/-- Width of an element in bits. -/
def fmtWidth (c : Nat) : Nat :=
  match c with
  | 0 => 32
  | 1 | 2 => 16
  | 3 | 4 | 8 => 8
  | 5 | 6 => 6
  | 7 | 9 => 4
  | 10 => 2
  | 11 => 64
  | _ => 0

/-- The format encodes infinities; it encodes NaN (R50). -/
def hasInf (c : Nat) : Bool := c = 0 ∨ c = 1 ∨ c = 2 ∨ c = 4 ∨ c = 11
def hasNan (c : Nat) : Bool := hasInf c ∨ c = 3

/-- Largest finite magnitude as significand and exponent (R46); for integers the largest value. -/
def maxFinite (c : Nat) (sgn : Bool) : Nat × Int :=
  match c with
  | 3 => (14, 5)
  | 5 => (7, 2)
  | 6 => (15, -1)
  | 7 => (3, 1)
  | _ =>
    match floatFmt c with
    | some f => (2 ^ (f.mb + 1) - 1, (f.bias : Int) - f.mb)
    | none => (if sgn then 2 ^ (fmtWidth c - 1) - 1 else 2 ^ fmtWidth c - 1, 0)

/-- Code of the canonical NaN (R50). -/
def nanOf (c : Nat) : Nat :=
  match c with
  | 3 | 4 => 0x7F
  | _ => match floatFmt c with
    | some f => f.nanCode
    | none => 0

/-! ### Decoding -/

/-- The value of an element code (R46, R50 to R54). -/
def decodeElem (c : Nat) (sgn : Bool) (x : Nat) : Ex :=
  match floatFmt c with
  | none => .ofInt (if sgn then sext (fmtWidth c) x else (x % 2 ^ fmtWidth c : Nat))
  | some f =>
    if hasInf c then f.val x
    else
      let m := bits x 0 f.mb
      let e := bits x f.mb f.eb
      if c = 3 ∧ e = 15 ∧ m = 7 then .nan else f.finVal (bit x (f.mb + f.eb)) e m

/-- A block-scaled element (R55 to R57, R60): scale byte `s`, sub-scale field `f`. -/
def decodeScaled (c : Nat) (sgn : Bool) (x s f : Nat) : Ex :=
  if s = 255 then .nan else (decodeElem c sgn x).scale ((s : Int) - 127 - f)

/-! ### Flags of a conversion (R70): invalid, overflow, nonfinite-input -/

def flInvalid : Nat := 1
def flOverflow : Nat := 2
def flNonfinite : Nat := 4

/-- What one element's conversion gives: its code, its flags, and whether a finite non-zero value became zero (R66). -/
structure Enc where
  code : Nat
  flags : Nat
  vanished : Bool
  deriving DecidableEq, Repr

/-- Saturation modes (R68). -/
inductive Sat where
  | limit | inf | recompute
  deriving DecidableEq, Repr

/-- Signed saturation value (R68). -/
def satCode (c : Nat) (sgn neg : Bool) : Nat :=
  let w := fmtWidth c
  if isInt c then
    if sgn then (if neg then 2 ^ (w - 1) else 2 ^ (w - 1) - 1)
    else if neg then 0 else 2 ^ w - 1
  else match floatFmt c with
    | some f =>
      let m := maxFinite c sgn
      f.pack neg (m.1 * 2 ^ (f.mb + 1 - bitLen m.1)) (m.2 - (f.mb + 1 - bitLen m.1 : Nat))
    | none => 0

def signBit (c : Nat) (neg : Bool) : Nat := if isInt c then 0 else b2n neg * 2 ^ (fmtWidth c - 1)

/-- Result of an overflow, or of an infinite input. -/
def overCode (c : Nat) (sgn : Bool) (sat : Sat) (neg : Bool) : Nat :=
  match floatFmt c with
  | some f => if hasInf c ∧ sat = .inf then f.infCode neg else satCode c sgn neg
  | none => satCode c sgn neg

/-- encode_value (R67 to R70) for a floating target. -/
def encodeFloat (c : Nat) (f : FpFmt) (m : Rnd) (sat : Sat) (neg : Bool) (s : Nat) (e : Int) : Enc :=
  let r := roundSig m f.mb f.qmin s e
  if r.1 = 0 then ⟨signBit c neg, 0, true⟩
  else
    let mx := maxFinite c true
    if Ex.magLt mx.1 mx.2 r.1 r.2 then ⟨overCode c true sat neg, flOverflow, false⟩
    else ⟨f.pack neg r.1 r.2, 0, false⟩

/-- encode_value for an integer target: rounding to an integer (R67). -/
def encodeInt (c : Nat) (sgn : Bool) (m : Rnd) (sat : Sat) (neg : Bool) (s : Nat) (e : Int) : Enc :=
  let w := fmtWidth c
  let q := if 0 ≤ e then s * 2 ^ e.toNat else roundShift m s (-e).toNat
  if q = 0 then ⟨0, 0, true⟩
  else
    let tooBig := if sgn then (if neg then 2 ^ (w - 1) < q else 2 ^ (w - 1) ≤ q) else neg ∨ 2 ^ w ≤ q
    if tooBig then ⟨overCode c sgn sat neg, flOverflow, false⟩
    else ⟨if neg then 2 ^ w - q else q, 0, false⟩

/-- encode_value (R67 to R70). -/
def encodeValue (c : Nat) (sgn : Bool) (m : Rnd) (sat : Sat) (v : Ex) : Enc :=
  match v with
  | .nan => if hasNan c then ⟨nanOf c, flNonfinite, false⟩ else ⟨0, flInvalid ||| flNonfinite, false⟩
  | .inf neg => ⟨overCode c sgn sat neg, flNonfinite, false⟩
  | .fin neg s e =>
    if s = 0 then ⟨signBit c neg, 0, false⟩
    else match floatFmt c with
      | some f => encodeFloat c f m sat neg s e
      | none => encodeInt c sgn m sat neg s e

/-! ### Blocks (R59, R62 to R66) -/

/-- Larger of two finite magnitudes. -/
def maxMag (a b : Nat × Int) : Nat × Int := if Ex.magLe a.1 a.2 b.1 b.2 then b else a

/-- Maximum magnitude over the finite values. -/
def finMax (v : List (Option Ex)) : Nat × Int :=
  v.foldl (fun a x => match x with
    | some (.fin _ s e) => maxMag a (s, e)
    | _ => a) (0, 0)

/-- The block maximum: for unsigned integers over the values that are not negative (R62). -/
def blockMax (c : Nat) (sgn : Bool) (v : List (Option Ex)) : Nat × Int :=
  finMax (if isInt c ∧ ¬sgn then v.filter fun x => !(x.any Ex.neg?) else v)

/-- Smallest x with a ≤ maxv × 2^x, for a > 0. -/
def minExp (mx a : Nat × Int) : Int :=
  let g := (bitLen a.1 : Int) + a.2 - (bitLen mx.1 + mx.2)
  if Ex.magLe a.1 a.2 mx.1 (mx.2 + g) then
    (if Ex.magLe a.1 a.2 mx.1 (mx.2 + g - 1) then g - 1 else g)
  else g + 1

/-- Sub-scale of a sub-block: the largest f ≤ 3 with its maximum still in range. -/
def subScale (mx a : Nat × Int) (x : Int) : Nat → Nat → Nat
  | 0, f => f
  | n + 1, f => if 0 < a.1 ∧ Ex.magLe a.1 a.2 mx.1 (mx.2 + x - f - 1) then subScale mx a x n (f + 1) else f

/-- An encoded block: scale byte, sub-scale byte, element codes, flags, values that vanished, and finite non-zero values
that reached the encoder (R133). -/
structure EncBlock where
  scale : Nat
  sub : Nat
  codes : List Nat
  flags : Nat
  vanished : Nat
  nonzero : Nat
  deriving DecidableEq, Repr

def isFinNz (v : Ex) : Bool := v.finite && !v.isZero

/-- encode_block (R62): 32 positions, pads `none`; `rnd` gives the rounding mode of each position. -/
def encodeBlock (c : Nat) (sgn : Bool) (nested : Bool) (rnd : Nat → Rnd) (sat : Sat) (v : List (Option Ex)) :
    EncBlock :=
  let nan (x : Option Ex) : Bool := match x with
    | some y => y.isNan
    | none => false
  let inf (x : Option Ex) : Bool := match x with
    | some y => y.isInf
    | none => false
  if v.any nan then
    ⟨255, 0, v.map fun _ => if c = 3 ∨ c = 4 then 0x7F else 0, flNonfinite, 0, 0⟩
  else
    let a := blockMax c sgn v
    let mx := maxFinite c sgn
    let x : Int := if a.1 = 0 then (if v.any inf then 127 else -127) else min 127 (max (-127) (minExp mx a))
    let f : List Nat := (List.range 4).map fun j =>
      if nested then subScale mx (finMax ((v.drop (8 * j)).take 8)) x 3 0 else 0
    let es : List Enc := v.zipIdx.map fun p =>
      match p.1 with
      | none => ⟨0, 0, false⟩
      | some y => encodeValue c sgn (rnd p.2) (if sat = .recompute then .limit else sat)
          (y.scale (-(x - f.getD (p.2 / 8) 0)))
    let sub := f.getD 0 0 + f.getD 1 0 * 4 + f.getD 2 0 * 16 + f.getD 3 0 * 64
    let allZero := v.all fun o => match o with
      | some y => y.isZero
      | none => true
    ⟨(x + 127).toNat, if allZero then 0 else sub, es.map (·.code), es.foldl (fun g e => g ||| e.flags) 0,
      (es.filter (·.vanished)).length, (v.filter fun o => match o with
        | some y => isFinNz y
        | none => false).length⟩

/-! ### Arrays as bit strings (R5, R58) -/

/-- Element `i` of width `w` in a bit string whose bytes `byte` gives. -/
def elemBits (byte : Nat → Byte) (w i : Nat) : Nat :=
  let lo := w * i
  let n := cdiv (lo % 8 + w) 8
  bits (ofLeBytes ((List.range n).map fun k => byte (lo / 8 + k))) (lo % 8) w

/-- Block number and place of element i, and the bytes that hold its scale and sub-scale (R58). -/
def scaleByteOf (layout i : Nat) : Nat := if layout = 2 then 2 * (i / 32) else i / 32

/-- Element i of an array of format c at `elem`, with scale array `scale` (R46 to R60). -/
def loadElem (elem scale : Nat → Byte) (c : Nat) (sgn : Bool) (layout i : Nat) : Ex :=
  let x := elemBits elem (fmtWidth c) i
  if layout = 0 then decodeElem c sgn x
  else
    let s := (scale (scaleByteOf layout i)).toNat
    let f := if layout = 2 then bits (scale (scaleByteOf layout i + 1)).toNat (2 * (i / 8 % 4)) 2 else 0
    decodeScaled c sgn x s f

/-- The format, layout and use rules of R48 that a field can break by its code alone. -/
def fmtLayoutOk (c layout : Nat) : Bool :=
  match c with
  | 0 | 1 | 2 | 11 => layout = 0
  | 3 | 4 | 8 | 9 => layout ≤ 2
  | 5 | 6 | 7 | 10 => layout = 1 ∨ layout = 2
  | _ => false

end Sys2Proof.Machine
end

