-- ==== Sys2Proof/Machine/Flags.lean ====
section
/-!
DEFINITION. Arithmetic with its flags (05_vector_engine.md, R98, R99, R103, R104): each operation gives a result code and
its flags in the order of VEC_FLAGS: invalid 1, overflow 2, nonfinite_input 4, div_zero 8, int_sat 16, empty_row 32.
-/
namespace Sys2Proof.Machine

/-- A result and its flags. -/
structure Res where
  val : Nat
  flags : Nat
  deriving DecidableEq, Repr

def vDivZero : Nat := 8
def vIntSat : Nat := 16

/-- nonfinite_input of an operand. -/
def nfOf (v : Ex) : Nat := if v.finite then 0 else flNonfinite

/-- Round the exact result `r` of an operation on operands `ops`: invalid where a NaN arises from operands none of which is
NaN, overflow where a finite result becomes infinite, nonfinite_input where an operand is not finite. -/
def arith (f : FpFmt) (ops : List Ex) (r : Ex) : Res :=
  let c := f.round r
  let inv := r.isNan && !(ops.any Ex.isNan)
  ⟨c.1, (if inv then flInvalid else 0) + (if c.2 then flOverflow else 0)
    + (if ops.all Ex.finite then 0 else flNonfinite)⟩

/-! ### FP32 and FP64 arithmetic (VFP and VFPD) -/

/-- IEEE minimum and maximum: NaN if an operand is NaN; −0 below +0. -/
def exMin (a b : Ex) : Ex :=
  if a.isNan ∨ b.isNan then .nan
  else if a.isZero ∧ b.isZero then (if a.neg? then a else b)
  else if b.lt a then b else a
def exMax (a b : Ex) : Ex :=
  if a.isNan ∨ b.isNan then .nan
  else if a.isZero ∧ b.isZero then (if a.neg? then b else a)
  else if a.lt b then b else a

/-- a × b + c with one rounding; 0 × ∞ is invalid unless the addend is NaN. -/
def exFma (a b c : Ex) : Ex := (a.mul b).add c

/-- Quotient, with div_zero for a finite non-zero value over zero. -/
def exDiv (a b : Ex) : Ex × Nat :=
  match a, b with
  | .nan, _ | _, .nan => (.nan, 0)
  | .inf _, .inf _ => (.nan, 0)
  | .inf n, .fin m _ _ => (.inf (n != m), 0)
  | .fin n _ _, .inf m => (.zero (n != m), 0)
  | .fin n s e, .fin m t g =>
    if t = 0 then (if s = 0 then (.nan, 0) else (.inf (n != m), vDivZero))
    else if s = 0 then (.zero (n != m), 0) else (divEx (n != m) s e t g, 0)

def exSqrt (a : Ex) : Ex :=
  match a with
  | .nan => .nan
  | .inf n => if n then .nan else .inf false
  | .fin n s e => if s = 0 then a else if n then .nan else sqrtEx s e

/-- Functions 0 to 10 of VFP and VFPD. -/
def fpOp (f : FpFmt) (fn : Nat) (x y z : Nat) : Res :=
  let a := f.val x
  let b := f.val y
  let c := f.val z
  match fn with
  | 0 => arith f [a, b] (a.add b)
  | 1 => arith f [a, b] (a.add b.negate)
  | 2 => arith f [a, b] (a.mul b)
  | 3 => arith f [a, b, c] (exFma a b c)
  | 4 => arith f [a, b, c] (exFma a b c.negate)
  | 5 => arith f [a] a.negate
  | 6 => arith f [a] a.abs
  | 7 => arith f [a, b] (exMin a b)
  | 8 => arith f [a, b] (exMax a b)
  | 9 =>
    let r := exDiv a b
    let q := arith f [a, b] r.1
    ⟨q.val, q.flags ||| r.2⟩
  | _ => arith f [a] (exSqrt a)

/-! ### Comparisons (VCMP) -/

/-- Conditions eq, ne, lt, le, gt, ge on floating values; false with a NaN, but for ne. -/
def fpCmp (fn : Nat) (a b : Ex) : Bool :=
  if a.isNan ∨ b.isNan then fn = 1
  else match fn with
    | 0 => a.eq b
    | 1 => !a.eq b
    | 2 => a.lt b
    | 3 => !b.lt a
    | 4 => b.lt a
    | _ => !a.lt b

def intCmp (fn : Nat) (a b : Int) : Bool :=
  match fn with
  | 0 => a = b
  | 1 => a ≠ b
  | 2 => a < b
  | 3 => a ≤ b
  | 4 => b < a
  | _ => b ≤ a

/-! ### INT32 (VINT) -/

def sat32i (x : Int) : Res :=
  if x < -(2 ^ 31) then ⟨2 ^ 31, vIntSat⟩ else if 2 ^ 31 ≤ x then ⟨2 ^ 31 - 1, vIntSat⟩ else ⟨wrapInt 32 x, 0⟩

/-- Functions 0 to 12 of VINT. A shift by 32 or more has no stated result: it is a free value (log entry 9). -/
def intOp (fn : Nat) (x y : Nat) : Res :=
  let far : Res := ⟨(Config.wideShift fn (BitVec.ofNat 32 x) (BitVec.ofNat 32 y)).toNat, 0⟩
  let a := sext 32 x
  let b := sext 32 y
  let w (i : Int) : Res := ⟨wrapInt 32 i, 0⟩
  match fn with
  | 0 => w (a + b)
  | 1 => w (a - b)
  | 2 => w (a * b)
  | 3 => sat32i (a + b)
  | 4 => sat32i (a - b)
  | 5 => w (min a b)
  | 6 => w (max a b)
  | 7 => ⟨x &&& y, 0⟩
  | 8 => ⟨x ||| y, 0⟩
  | 9 => ⟨x ^^^ y, 0⟩
  | 10 => if 32 ≤ y then far else ⟨(x * 2 ^ y) % 2 ^ 32, 0⟩
  | 11 => if 32 ≤ y then far else ⟨x / 2 ^ y, 0⟩
  | _ => if 32 ≤ y then far else w (a / 2 ^ y)

/-! ### Conversions in registers (VCVT), destination named first (log entry 21) -/

/-- Float to INT32 (R99): saturates with overflow; NaN gives 0 with invalid and nonfinite-input; ±∞ saturates with
nonfinite-input. -/
def toInt32 (rtz : Bool) (v : Ex) : Res :=
  match v with
  | .nan => ⟨0, flInvalid ||| flNonfinite⟩
  | .inf n => ⟨if n then 2 ^ 31 else 2 ^ 31 - 1, flOverflow ||| flNonfinite⟩
  | .fin neg s e =>
    let q := if 0 ≤ e then s * 2 ^ e.toNat else roundShift (if rtz then .rtz else .rne) s (-e).toNat
    let lim := if neg then 2 ^ 31 else 2 ^ 31 - 1
    if s = 0 then ⟨0, 0⟩
    else if lim < q then ⟨if neg then 2 ^ 31 else 2 ^ 31 - 1, flOverflow⟩
    else ⟨if neg then (2 ^ 32 - q) % 2 ^ 32 else q, 0⟩

/-- Functions 0 to 4 of VCVT on a source code (64 bits for FP64): to FP32 from INT32, to INT32 from FP32, to FP64 from FP32,
to FP32 from FP64 (encode_value under RNE and INF), to FP64 from INT32. -/
def cvtOp (fn : Nat) (rtz : Bool) (x : Nat) : Res :=
  match fn with
  | 0 => ⟨(f32.round (.ofInt (sext 32 x))).1, 0⟩
  | 1 => toInt32 rtz (f32.val x)
  | 2 => arith f64 [f32.val x] (f32.val x)
  | 3 =>
    let r := encodeValue 0 true .rne .inf (f64.val x)
    ⟨r.code, r.flags⟩
  | _ => ⟨(f64.round (.ofInt (sext 32 x))).1, 0⟩

/-! ### Functions (VFN) -/

/-- A function given by its value at finite inputs, with the special results of R103. -/
def fn1 (x : Nat) (spec : Ex → Option (Ex × Nat)) (fin : Bool → Nat → Int → Ex) : Res :=
  let a := f32.val x
  match spec a with
  | some (r, fl) =>
    let q := arith f32 [a] r
    ⟨q.val, q.flags ||| fl⟩
  | none => match a with
    | .fin n s e => arith f32 [a] (fin n s e)
    | _ => arith f32 [a] .nan

def noSpec (_ : Ex) : Option (Ex × Nat) := none

/-- ±∞ map to the given values. -/
def infSpec (p m : Ex) (a : Ex) : Option (Ex × Nat) :=
  match a with
  | .inf n => some (if n then m else p, 0)
  | .nan => some (.nan, 0)
  | _ => none

def vexpOp (x : Nat) : Res := fn1 x (infSpec (.inf false) (.zero false)) expEx
def vexp2Op (x : Nat) : Res := fn1 x (infSpec (.inf false) (.zero false)) exp2Ex

/-- Logarithms: ±0 gives −∞ with div_zero; a negative input gives NaN with invalid. -/
def logSpec (a : Ex) : Option (Ex × Nat) :=
  match a with
  | .nan => some (.nan, 0)
  | .inf n => some (if n then .nan else .inf false, 0)
  | .fin n s _ => if s = 0 then some (.inf true, vDivZero) else if n then some (.nan, 0) else none

def vlogOp (x : Nat) : Res := fn1 x logSpec fun _ s e => logEx s e
def vlog2Op (x : Nat) : Res := fn1 x logSpec fun _ s e => log2Ex s e
def vsqrtOp (x : Nat) : Res := arith f32 [f32.val x] (exSqrt (f32.val x))
def rsqrtSpec (a : Ex) : Option (Ex × Nat) :=
  match a with
  | .nan => some (.nan, 0)
  | .inf n => some (if n then .nan else .zero false, 0)
  | .fin n s _ => if s = 0 then some (.inf n, vDivZero) else if n then some (.nan, 0) else none
def vrsqrtOp (x : Nat) : Res := fn1 x rsqrtSpec fun _ s e => rsqrtEx s e
def vdivOp (x y : Nat) : Res := fpOp f32 9 x y 0
def vrecipOp (x : Nat) : Res :=
  let a := f32.val x
  let r := exDiv (.ofNat 1) a
  let q := arith f32 [a] r.1
  ⟨q.val, q.flags ||| r.2⟩
def vsinOp (x : Nat) : Res := fn1 x noSpec sinEx
def vcosOp (x : Nat) : Res := fn1 x noSpec cosEx
def vtanhOp (x : Nat) : Res := fn1 x (infSpec (.ofNat 1) (.ofInt (-1))) tanhEx
def vsigmoidOp (x : Nat) : Res := fn1 x (infSpec (.ofNat 1) (.zero false)) sigmoidEx
def verfOp (x : Nat) : Res := fn1 x (infSpec (.ofNat 1) (.ofInt (-1))) erfEx

/-- Flags of a composite (R104): nonfinite_input from its own operand; invalid where its NaN does not come from a NaN;
overflow from any step. -/
def composite (x r stepFlags : Nat) : Res :=
  let a := f32.val x
  let inv := (f32.val r).isNan && !a.isNan
  ⟨r, (if inv then flInvalid else 0) + (stepFlags &&& flOverflow) + nfOf a⟩

def vsiluOp (x : Nat) : Res :=
  let s := vsigmoidOp x
  let r := fpOp f32 2 x s.val 0
  composite x r.val (s.flags ||| r.flags)

def vgeluOp (x : Nat) : Res :=
  let t := fpOp f32 2 x 0x3F3504F3 0
  let u := fpOp f32 0 0x3F800000 (verfOp t.val).val 0
  let v := fpOp f32 2 x u.val 0
  let r := fpOp f32 2 v.val 0x3F000000 0
  composite x r.val (t.flags ||| u.flags ||| v.flags ||| r.flags)

def vsoftplusOp (x : Nat) : Res :=
  let a := f32.val x
  if (Ex.ofNat 20).lt a then composite x x 0
  else
    let e := vexpOp x
    let s := fpOp f32 0 0x3F800000 e.val 0
    let r := vlogOp s.val
    composite x r.val (e.flags ||| s.flags ||| r.flags)

/-- Functions 0 to 15 of VFN. -/
def vfnOp (fn x y : Nat) : Res :=
  match fn with
  | 0 => vdivOp x y
  | 1 => vrecipOp x
  | 2 => vsqrtOp x
  | 3 => vrsqrtOp x
  | 4 => vexpOp x
  | 5 => vexp2Op x
  | 6 => vlogOp x
  | 7 => vlog2Op x
  | 8 => vsinOp x
  | 9 => vcosOp x
  | 10 => vtanhOp x
  | 11 => vsigmoidOp x
  | 12 => verfOp x
  | 13 => vsiluOp x
  | 14 => vgeluOp x
  | _ => vsoftplusOp x

/-! ### Sums (R100, comp_sum) -/

def addF (x y : Nat) : Res := fpOp f32 0 x y 0
def subF (x y : Nat) : Res := fpOp f32 1 x y 0

/-- two_sum: s and e, with the flags of its operands' sum. -/
def twoSum (a b : Nat) : Nat × Nat × Nat :=
  let s := addF a b
  let bb := (subF s.val a).val
  let e := (addF (subF a (subF s.val bb).val).val (subF b bb).val).val
  (s.val, e, s.flags)

/-- One level of the pairwise tree of R100. -/
def pairUp (op : Nat → Nat → Res) : List Nat → List Nat × Nat
  | a :: b :: l =>
    let r := op a b
    let t := pairUp op l
    (r.val :: t.1, r.flags ||| t.2)
  | l => (l, 0)

/-- The pairwise tree over a list padded to a power of two. -/
def tree (op : Nat → Nat → Res) : Nat → List Nat → Nat → Nat × Nat
  | 0, l, fl => (l.headD 0, fl)
  | n + 1, l, fl =>
    match l with
    | [x] => (x, fl)
    | _ =>
      let p := pairUp op l
      tree op n p.1 (fl ||| p.2)

/-- Smallest power of two at or above n (1 for 0). -/
def pow2Above (n : Nat) : Nat := if n ≤ 1 then 1 else 2 ^ bitLen (n - 1)

/-- The reduction of R100: `id` for inactive elements and the padding. -/
def reduce (op : Nat → Nat → Res) (id : Nat) (l : List Nat) : Nat × Nat :=
  let n := pow2Above l.length
  tree op 32 (l ++ List.replicate (n - l.length) id) 0

end Sys2Proof.Machine
end

