-- ==== Sys2Proof/Machine/Scale.lean ====
section
/-!
DEFINITION. The numerics unit (06_training_numerics.md): the counter-based generator (R122, R123), conversion descriptors
(R112, R113), the conversion pipeline with its tile rescale (R114 to R119), the per-tensor scale table with its pending
sets, rebuild and monitors (R125 to R133), and the commands of the table.
-/
namespace Sys2Proof.Machine

/-! ### The generator (R122, R123) -/

def rotl32 (x n : Nat) : Nat := (x * 2 ^ n + x / 2 ^ (32 - n)) % 2 ^ 32

def genRot : List (Nat × Nat) :=
  [(7, 13), (19, 3), (11, 29), (5, 17), (23, 9), (15, 26), (2, 21), (27, 12), (10, 31), (18, 6)]

def genRc : List Nat :=
  [0x7E1A43C5, 0x29D8B06F, 0xC4531E9A, 0x5B07E8D2, 0x96F23A41, 0x0D8C6F1B, 0xE3B59027, 0x4A61D5FC, 0xB17E0C38,
   0x6C29A7E3]

/-- One round on the four words. -/
def genRound (k : List Nat) (r : Nat) (x : Nat × Nat × Nat × Nat) : Nat × Nat × Nat × Nat :=
  let (a, b) := genRot.getD r (0, 0)
  let t := k.getD (r % 4) 0 ^^^ genRc.getD r 0
  let (x0, x1, x2, x3) := x
  let x0 := (x0 + (x3 ^^^ t)) % 2 ^ 32
  let x1 := rotl32 (x1 ^^^ x0) a
  let x2 := (x2 + x1) % 2 ^ 32
  let x3 := rotl32 (x3 ^^^ x2) b
  (x1, x2, x3, x0)

/-- generate(key, ctr) (R123). -/
def generate (key ctr : Nat) : Nat :=
  let k := (List.range 4).map fun j => bits key (32 * j) 32
  let w (j : Nat) : Nat := bits ctr (32 * j) 32 ^^^ k.getD j 0
  let (x0, x1, x2, x3) := (List.range 10).foldl (fun x r => genRound k r x) (w 0, w 1, w 2, w 3)
  let f (x j : Nat) : Nat := (x + k.getD ((j + 2) % 4) 0) % 2 ^ 32
  f x0 0 + f x1 1 * 2 ^ 32 + f x2 2 * 2 ^ 64 + f x3 3 * 2 ^ 96

/-- The generator's counter (R122). -/
def genCtr (index step attempt tensor purpose : Nat) : Nat :=
  index % 2 ^ 48 + (step % 2 ^ 32) * 2 ^ 48 + (attempt % 256) * 2 ^ 80 + (tensor % 2 ^ 14) * 2 ^ 88 + purpose * 2 ^ 102

/-- Key, step and attempt in force: the attempt is 0 when replay is set. -/
def Blk.genKey (b : Blk) : Nat := b.rd (NUM_SEED.seed 0) + b.rd (NUM_SEED.seed 1) * 2 ^ 64
def Blk.genAttempt (b : Blk) : Nat := if b.on NUM_CTRL.replay then 0 else b.rd NUM_STEP.attempt

/-- The 16 rounding bits of element i. -/
def Blk.roundBits (b : Blk) (tensor draw i : Nat) : Nat :=
  let o := generate b.genKey (genCtr (draw * 2 ^ 37 + i / 8) (b.rd NUM_STEP.step) b.genAttempt tensor 1)
  bits o (16 * (i % 8)) 16

/-- The 32-bit word of element i for vrand. -/
def Blk.randWord (b : Blk) (tensor draw purpose i : Nat) : Nat :=
  let o := generate b.genKey (genCtr (draw * 2 ^ 37 + i / 4) (b.rd NUM_STEP.step) b.genAttempt tensor purpose)
  bits o (32 * (i % 4)) 32

/-! ### The scale table (R125) -/

def Blk.bank (b : Blk) (shadow : Bool) : Sp ScaleEnt :=
  if xor (b.on NUM_TABLE_STAT.active_bank) shadow then b.scale.bank1 else b.scale.bank0

def Blk.setBank (b : Blk) (shadow : Bool) (m : Sp ScaleEnt) : Blk :=
  if xor (b.on NUM_TABLE_STAT.active_bank) shadow then b.updScale fun s => { s with bank1 := m }
  else b.updScale fun s => { s with bank0 := m }

/-- Entry of tensor t in the active bank, and its exponent. -/
def Blk.entry (b : Blk) (t : Nat) : ScaleEnt := Sp.get ScaleEnt.init (b.bank false) t
def Blk.xOf (b : Blk) (t : Nat) : Int := (b.entry t).x

def Blk.pendSet (b : Blk) (t : Nat) : PendSet := Sp.get PendSet.init b.scale.pending t

/-- Combine two sets of reports of one tensor (R126, R128): maxima by maximum, counts by sum. -/
def PendSet.merge (p q : PendSet) : PendSet :=
  ⟨p.captured || q.captured, max p.amax q.amax, p.nonfinite || q.nonfinite, p.vanished + q.vanished,
    p.nonzero + q.nonzero⟩

def Blk.addPending (b : Blk) (t : Nat) (p : PendSet) : Blk :=
  b.updScale fun s => { s with pending := Sp.set PendSet.init s.pending t ((b.pendSet t).merge p) }

/-! ### Conversion descriptors (R112) -/

def dFmt (d : Nat) : Nat := bits d 0 4
def dSgn (d : Nat) : Bool := bit d 4
def dLayout (d : Nat) : Nat := bits d 5 2
def dRnd (d : Nat) : Nat := bits d 7 2
def dSat (d : Nat) : Nat := bits d 9 2
def dGrad (d : Nat) : Bool := bit d 11
def dClip (d : Nat) : Bool := bit d 12
def dBias (d : Nat) : Bool := bit d 13
def dAmax (d : Nat) : Bool := bit d 14
def dTile (d : Nat) : Bool := bit d 15
def dTid (d : Nat) : Nat := bits d 16 14
def dOutSrc (d : Nat) : Nat := bits d 30 2
def dInSrc (d : Nat) : Nat := bits d 32 2
def dATid (d : Nat) : Nat := bits d 34 14
def dBTid (d : Nat) : Nat := bits d 48 14
def dClipLo (d : Nat) : Nat := bits d 64 32
def dClipHi (d : Nat) : Nat := bits d 96 32
def dImm (d : Nat) : Nat := bits d 128 32
def dTileAddr (d : Nat) : Nat := bits d 160 48
def dBiasOff (d : Nat) : Nat := bits d 208 25
def dDraw (d : Nat) : Nat := bits d 233 8

/-- Declaration of tensor t in the armed image. -/
def Blk.tensor? (b : Blk) (t : Nat) : Option Tensor :=
  match b.run.job with
  | some j => j.tensors.find? fun x => x.tid = t
  | none => none

/-- A tensor that may not be an in_src operand (R113). -/
def Blk.scaledTensor (b : Blk) (t : Nat) : Bool :=
  match b.tensor? t with
  | some x => x.layout ≠ 0 || x.tileScaled
  | none => false

/-- The rules of R48 and R113, where `scaled` tells the tensors that may not be an in_src operand. -/
def descRules (scaled : Nat → Bool) (d : Nat) (vector : Bool) : Bool :=
  let imm := f32.val (dImm d)
  let lo := f32.val (dClipLo d)
  let hi := f32.val (dClipHi d)
  fmtLayoutOk (dFmt d) (dLayout d) && (vector || dFmt d ≠ 11)
  && dRnd d ≠ 3 && dSat d ≠ 3 && dInSrc d ≠ 3 && bits d 62 2 = 0 && d / 2 ^ 241 = 0
  && (!dGrad d || dRnd d = 2)
  && !(dLayout d ≠ 0 && (dOutSrc d ≠ 0 || dInSrc d ≠ 0 || dTile d))
  && !(dSat d = 2 && dLayout d = 0 && !dTile d)
  && !(2 ≤ dOutSrc d && !(imm.finite && !imm.isZero && !imm.neg?))
  && !(dClip d && (lo.isNan || hi.isNan || hi.lt lo))
  && !(vector && dInSrc d ≠ 0)
  && !(dInSrc d = 1 && (scaled (dATid d) || scaled (dBTid d)))
  && !(dInSrc d = 2 && scaled (dATid d))
  && dBiasOff d % 32 = 0

/-- The rules of R48 and R113 at run time. -/
def Blk.descOk (b : Blk) (d : Nat) (vector : Bool) : Bool := descRules b.scaledTensor d vector

/-! ### The pipeline (R114) -/

/-- An element that enters the unit: its value, its column (or index) for the bias row, its index in the tensor. -/
structure ConvEl where
  v : Ex
  j : Nat
  i : Nat
  deriving DecidableEq, Repr

/-- A value on its way: before and after out_mult, and the flags of the special cases of R114. -/
structure Piped where
  mid : Ex
  out : Ex
  flags : Nat
  deriving DecidableEq, Repr

/-- Steps of R114 for one element; `bias` gives the row at bias_off. -/
def Blk.pipe (b : Blk) (d : Nat) (bias : Nat → Ex) (el : ConvEl) : Piped :=
  let xin : Int := if dInSrc d = 1 then b.xOf (dATid d) + b.xOf (dBTid d) else if dInSrc d = 2 then b.xOf (dATid d) else 0
  let v := el.v.scale xin
  let bz := if dBias d then bias el.j else .zero false
  let w := if dBias d then v.add bz else v
  let inv := w.isNan && !v.isNan && !bz.isNan
  let fl := (if inv then flInvalid else 0) ||| nfOf v ||| nfOf bz
  let lo := f32.val (dClipLo d)
  let hi := f32.val (dClipHi d)
  let c := if dClip d ∧ ¬w.isNan then (let u := if w.lt lo then lo else w; if hi.lt u then hi else u) else w
  let tab : Int := if dOutSrc d = 1 ∨ dOutSrc d = 3 then -(b.xOf (dTid d)) else 0
  let o := if 2 ≤ dOutSrc d then (c.mul (f32.val (dImm d))).scale tab else c.scale tab
  ⟨c, o, fl⟩

/-- Rounding mode of element i (R117, R118). -/
def Blk.rndOf (b : Blk) (d i : Nat) : Rnd :=
  if dGrad d ∨ dRnd d = 2 then .sr (b.roundBits (dTid d) (dDraw d) i) else if dRnd d = 1 then .rtz else .rne

/-- What a tile's conversion delivers: the codes with their indices, the blocks' scale bytes, the flag set, the counts, the
capture, the tile byte and whether it was rescaled. -/
structure ConvOut where
  codes : List (Nat × Nat)
  blocks : List (Nat × Nat × Nat)
  flags : Nat
  vanished : Nat
  nonzero : Nat
  captured : Bool
  amax : Nat
  mark : Bool
  delta : Nat
  deriving DecidableEq, Repr

/-- |v| as FP32 rounded toward +∞, and whether it exceeds the largest finite value (R126). -/
def amaxOf (v : Ex) : Nat × Bool :=
  match v with
  | .fin _ s e =>
    if s = 0 then (0, false)
    else
      let r := roundSig .away 23 f32.qmin s e
      if Ex.magLe (2 ^ 24) 104 r.1 r.2 then (0x7F7FFFFF, true) else (f32.pack false r.1 r.2, false)
  | _ => (0, true)

/-- Encode piped values one by one, with delta (R119). -/
def Blk.encodeAll (b : Blk) (d : Nat) (sat : Sat) (delta : Nat) (ps : List (ConvEl × Piped)) : List Enc :=
  ps.map fun p =>
    let r := encodeValue (dFmt d) (dSgn d) (b.rndOf d p.1.i) sat (p.2.out.scale (-(delta : Int)))
    { r with flags := r.flags ||| p.2.flags }

/-- Encode whole blocks: positions without an element are pads (R62, R97). `cover` lists blocks that are written although no
element of theirs is active. -/
def Blk.encodeBlocks (b : Blk) (d : Nat) (sat : Sat) (cover : List Nat) (ps : List (ConvEl × Piped)) :
    List (Nat × EncBlock) :=
  let ids := cover.foldl addNew (ps.foldl (fun l p => addNew l (p.1.i / 32)) [])
  ids.map fun k =>
    let at_ (q : Nat) : Option Ex := (ps.find? fun p => p.1.i = 32 * k + q).map fun p => p.2.out
    (k, encodeBlock (dFmt d) (dSgn d) (dLayout d = 2) (fun q => b.rndOf d (32 * k + q)) sat ((List.range 32).map at_))

/-- A tile-scaled target of a cold entry (R131). -/
def Blk.coldTile (b : Blk) (d : Nat) : Bool := dTile d && decide (0 < (b.entry (dTid d)).coldLeft)

/-- The conversion runs under RECOMPUTE, with its reserved slot (R119, R120, R131). -/
def Blk.recomputes (b : Blk) (d : Nat) : Bool := decide (dLayout d = 0) && (decide (dSat d = 2) || b.coldTile d)

/-- Convert a tile (R114 to R119). RECOMPUTE is in force where sat asks for it, and for a tile-scaled target of a cold
entry (R131). -/
def Blk.convTile (b : Blk) (d : Nat) (bias : Nat → Ex) (els : List ConvEl) (cover : List Nat := []) : ConvOut :=
  let ps := els.map fun el => (el, b.pipe d bias el)
  let mode : Sat := if b.coldTile d ∨ dSat d = 2 then .recompute else if dSat d = 1 then .inf else .limit
  -- observe() runs once for each element
  let seen := dAmax d && decide (els ≠ [])
  let caps := if dAmax d then ps.map fun p => amaxOf p.2.mid else []
  let amax := caps.foldl (fun a c => max a c.1) 0
  let capBad := caps.any (·.2)
  let pflags := ps.foldl (fun f p => f ||| p.2.flags) 0
  if dLayout d ≠ 0 then
    let bs := b.encodeBlocks d (if mode = .recompute then .limit else mode) cover ps
    let flags := bs.foldl (fun f x => f ||| x.2.flags) pflags
    ⟨(bs.map fun x => x.2.codes.zipIdx.map fun q => (32 * x.1 + q.2, q.1)).flatten,
      bs.map fun x => (x.1, x.2.scale, x.2.sub), flags, (bs.map fun x => x.2.vanished).sum,
      (bs.map fun x => x.2.nonzero).sum, seen, amax, capBad || flags &&& 6 ≠ 0, 0⟩
  else
    let first := b.encodeAll d mode 0 ps
    let tooBig := (ps.zip first).any fun p => p.1.2.out.finite && p.2.flags &&& 2 ≠ 0
    let rescale := mode = .recompute ∧ tooBig
    let a := ps.foldl (fun m p => match p.2.out with
      | .fin _ s e => maxMag m (s, e)
      | _ => m) (0, 0)
    let delta := if rescale then min 127 (max 1 (minExp (maxFinite (dFmt d) (dSgn d)) a)).toNat else 0
    let encs := if rescale then b.encodeAll d .limit delta ps else first
    let flags := encs.foldl (fun f e => f ||| e.flags) 0
    ⟨(ps.zip encs).map fun p => (p.1.1.i, p.2.code), [], flags, (encs.filter (·.vanished)).length,
      (ps.filter fun p => isFinNz p.2.out).length, seen, amax, capBad || flags &&& 6 ≠ 0, delta⟩

/-! ### Writing what a conversion delivers -/

/-- Replace bits [lo + n − 1 : lo] of the bit string at `key` (R58); a word that a poisoned result touches becomes
poisoned, and an unpoisoned write leaves a poisoned word poisoned unless it covers it. -/
def Blk.writeBits (b : Blk) (key lo n v : Nat) (poison : Bool) : Blk :=
  if n = 0 then b
  else
    let lo := lo + 8 * (key % 32)
    let key := key / 32 * 32
    let w0 := lo / 256
    let w1 := (lo + n - 1) / 256
    (List.range (w1 + 1 - w0)).foldl (fun b q =>
      let w := w0 + q
      let a := max lo (256 * w)
      let z := min (lo + n) (256 * w + 256)
      let old := b.readWord (key + 32 * w)
      let data := setBits old.data.toNat (a - 256 * w) (z - a) (v >>> (a - lo))
      b.writeWord (key + 32 * w) ⟨BitVec.ofNat 256 data, poison || (old.poison && decide (z - a < 256))⟩) b

/-- The element array an output belongs to: place of its first element, the output's element index in the tensor, the
elements from one row to the next, and the place of its scale array (R58, R158). -/
structure OutAt where
  key : Nat
  i0 : Nat
  stride : Nat
  scale : Option Nat
  deriving DecidableEq, Repr

/-- Extent of dimension 0, padded to whole blocks for a block-scaled tensor. -/
def Tensor.run (t : Tensor) : Nat :=
  let e := t.extents.headD 0
  if t.layout = 0 then e else cdiv e 32 * 32

/-- Bytes of a tensor's element array: blocks run along dimension 0, each run padded to a whole block (R158). -/
def Tensor.bytes (t : Tensor) : Nat := cdiv (t.run * (t.extents.drop 1).prod * fmtWidth t.fmt) 8

/-- Bytes of a block-scaled tensor's scale array: a byte for each block, and its sub-scales with layout 2 (R58). -/
def Tensor.scaleBytes (t : Tensor) : Nat :=
  if t.layout = 0 then 0 else t.run / 32 * (t.extents.drop 1).prod * (if t.layout = 2 then 2 else 1)

/-- Element `i` of a tensor's array is a pad (R59). -/
def Tensor.pad (t : Tensor) (i : Nat) : Bool := decide (t.layout ≠ 0) && decide (t.extents.headD 0 ≤ i % max 1 t.run)

/-- The tensor of `ts` whose element array holds a place, and the place where the array begins. -/
def Blk.holding (b : Blk) (ts : List Tensor) (key : Nat) : Option (Tensor × Nat) :=
  ts.findSome? fun t => match b.place t.elemAddr with
    | some k0 => if k0 ≤ key ∧ key < k0 + t.bytes then some (t, k0) else none
    | none => none

/-- The armed image's tensor at a place. -/
def Blk.tensorAt (b : Blk) (key : Nat) : Option (Tensor × Nat) :=
  match b.run.job with
  | some j => b.holding j.tensors key
  | none => none

/-- Elements of an operand at place `key` that are pads of the tensor declared there (R59). -/
def Blk.padOf (b : Blk) (key fmt : Nat) : Nat → Bool :=
  match b.tensorAt key with
  | some (t, k0) => fun i => t.pad ((key - k0) * 8 / fmtWidth fmt + i)
  | none => fun _ => false

/-- Where the output at place `key` lies in the declared tensor of its descriptor; a tensor that the image does not declare
there counts from the output's own address. -/
def Blk.outAt (b : Blk) (d key cols : Nat) : OutAt :=
  match b.tensor? (dTid d) with
  | some t =>
    let sc := if t.layout = 0 then none else b.place t.scaleAddr
    match b.place t.elemAddr with
    | some k0 =>
      let i0 := (key - k0) * 8 / fmtWidth (dFmt d)
      if k0 ≤ key ∧ key - k0 < 2 ^ 40 then ⟨k0, i0, if t.run = 0 then cols else t.run, sc⟩ else ⟨key, 0, cols, sc⟩
    | none => ⟨key, 0, cols, sc⟩
  | none => ⟨key, 0, cols, none⟩

/-- Write codes and scale bytes; `poison` tells the elements that came out poisoned. -/
def Blk.writeConv (b : Blk) (d : Nat) (o : OutAt) (r : ConvOut) (poison : Nat → Bool) : Blk :=
  let w := fmtWidth (dFmt d)
  let bad (k : Nat) : Bool := (List.range 32).any fun q => poison (32 * k + q)
  let b := b.openWords (o.key / 32 * 32) (coverWords (r.codes.map fun c => (8 * (o.key % 32) + w * c.1, w)))
  let b := r.codes.foldl (fun b c => b.writeBits o.key (w * c.1) w c.2 (if dLayout d = 0 then poison c.1 else bad (c.1 / 32))) b
  match o.scale with
  | none => b
  | some sk =>
    let step := if dLayout d = 2 then 16 else 8
    let b := b.openWords (sk / 32 * 32) (coverWords (r.blocks.map fun x => (8 * (sk % 32) + step * x.1, step)))
    r.blocks.foldl (fun b x =>
      if dLayout d = 2 then b.writeBits sk (16 * x.1) 16 (x.2.1 + x.2.2 * 256) (bad x.1)
      else b.writeBits sk (8 * x.1) 8 x.2.1 (bad x.1)) b

/-- Count a rescale of tensor t: NUM_RESCALES, and the event for the first of the step (R119). -/
def Blk.countRescale (b : Blk) (die unit t delta : Nat) : Blk :=
  let b := b.incBy NUM_RESCALES.count 1
  if b.scale.rescaled.contains t then b
  else (b.raise die unit 0x0201 (t + delta * 2 ^ 14)).updScale fun z => { z with rescaled := z.rescaled ++ [t] }

/-- Count a tile: CONV registers of the site, the report to the hub, the rescale counters and event (R115, R119, R133). -/
def Blk.countConv (b : Blk) (k d : Nat) (r : ConvOut) : Blk :=
  let cd := k / 32
  let s := k % 32
  let b := b.setReg (.convFlags cd s) (b.reg (.convFlags cd s) ||| r.flags)
  let b := (b.incBy (CONV_COUNT.tiles cd s) 1).incBy (CONV_VANISH.vanished cd s) r.vanished
  let t := dTid d
  let b := b.updScale fun z =>
    { z with reports := z.reports ++ [ScaleReport.mk t r.captured r.amax r.mark r.vanished r.nonzero] }
  if r.delta = 0 then b else (b.satBy (CONV_COUNT.rescales cd s) 1).countRescale (cd + 1) s t r.delta

/-- A descriptor that breaks R113 at run time: EV_IMAGE_INVALID naming it, and the vote. -/
def Blk.badDesc (b : Blk) (k addr : Nat) : Blk :=
  let off := match b.run.job with
    | some j => (addr - j.imageAddr) / 32
    | none => 0
  (b.raise (coreDie k) (k % 32) 0x0302
    (0x0F + coreDie k * 2 ^ 8 + k % 32 * 2 ^ 13 + (2 ^ 32 - 1) * 2 ^ 19 + off * 2 ^ 51)).hwFail k

/-- The elements `js` of the bias row of a descriptor in core k's SRAM, read through the checkers: a value and its poison by column
(R111, R114). A conversion without bias reads none. -/
def Blk.fetchBias (b : Blk) (k d : Nat) (js : List Nat) : (Nat → Ex × Bool) × Blk :=
  if ¬dBias d then (fun _ => (.zero false, false), b)
  else
    let at_ (j : Nat) : Nat := 8 * ((dBiasOff d + 4 * j) % sramBytes k)
    let ws := b.fetchSet (sramKey k) (coverWords (js.map fun j => (at_ j, 32)))
    let bad := (ws.1.filter (·.2.poison)).length
    (fun j => let x := takeBits ws.1 (at_ j) 32; (f32.val x.1, x.2),
      if bad = 0 then ws.2 else ws.2.consume k 3 (coreDie k) (k % 32) (dBiasOff d) bad)

/-- Poisoned words in place of the elements `is` of an output (R113); with a reserved format, which has no width, of 32 bits each (log
entry 125). -/
def Blk.poisonOut (b : Blk) (d key : Nat) (is : List Nat) : Blk :=
  let w := if fmtWidth (dFmt d) = 0 then 32 else fmtWidth (dFmt d)
  let b := b.openWords (key / 32 * 32) (coverWords (is.map fun i => (8 * (key % 32) + w * i, w)))
  is.foldl (fun b i => b.writeBits key (w * i) w 0 true) b

/-- The tile byte (R119): delta for a tile that carries tile scales. -/
def Blk.writeTileByte (b : Blk) (d tile delta : Nat) : Blk :=
  if ¬dTile d then b
  else match b.place (dTileAddr d + tile) with
    | some key => (b.openWords (key / 32 * 32) [0]).writeBits (key / 32 * 32) (8 * (key % 32)) 8 delta false
    | none => b

/-! ### Commands of the scale table -/

/-- CONVERSION_REPORT: the hub merges the oldest report into the tensor's pending set (R126). -/
def conversionReportFx (b : Blk) : Blk :=
  match b.scale.reports with
  | [] => b
  | r :: rest =>
    (b.updScale fun s => { s with reports := rest }).addPending r.tid
      ⟨r.captured, r.amax, r.nonfinite, r.vanished, r.nonzero⟩

/-- Commit phases (R254): 2 is PREPARE. -/
def phPrepare : Nat := 2

/-- The latch of PREPARE is due: 1 µs after the phase boundary, and not yet taken (R127). -/
def Blk.latchDue (b : Blk) : Bool :=
  decide (b.journal.phase = phPrepare) && b.scale.boundary.any fun t => decide (t + 1000 ≤ b.now)

/-- The module is in a lull window: its segment in RUN is one, or DRAIN lasts (R255, R286). -/
def Blk.inLull (b : Blk) : Bool :=
  (decide (b.dstate = stRun) && b.run.job.any fun j => (j.segs[b.run.seg]?).any (·.lull))
    || (decide (b.dstate = stDrain) && b.run.lullEnd.any fun t => decide (b.now < t))

/-- A latched set that no flip has used yet keeps what it holds under a later latch (log entry 126). -/
def latchOver (old pending : Sp PendSet) : Sp PendSet :=
  pending.foldl (fun m e => Sp.set PendSet.init m e.1 ((Sp.get PendSet.init m e.1).merge e.2)) old

/-- PENDING_SET_LATCH (R127): the pending sets are latched and cleared, and the rebuild starts; once in PREPARE, and, as the control
cluster chooses, in a lull window (R128). -/
def pendingLatchFx (b : Blk) : Blk :=
  if ¬b.latchDue ∧ ¬(b.inLull ∧ ¬b.on NUM_TABLE_STAT.rebuilding) then b
  else
    let b := b.updScale fun s =>
      { s with latched := some (latchOver (s.latched.getD []) s.pending), pending := [], rebuilt := [],
               boundary := if b.latchDue then none else s.boundary }
    ((b.setBank true (b.bank false)).wr NUM_TABLE_STAT.rebuilding 1).wr NUM_TABLE_STAT.done 0

/-- Push a maximum onto a ring (R127). -/
def ScaleEnt.push (e : ScaleEnt) (a : Nat) : ScaleEnt :=
  { e with ring := Sp.set 0 e.ring e.head a, head := (e.head + 1) % e.hist, count := min e.hist (e.count + 1) }

/-- The maxima a ring holds. -/
def ScaleEnt.maxima (e : ScaleEnt) : List Nat := (List.range e.count).map fun n => Sp.get 0 e.ring ((e.head + e.hist - 1 - n) % e.hist)

def clampX (x : Int) : Int := max (-512) (min 511 x)

/-- rebuild (R127), with the monitors of R132 and R133 as the flip will show them. -/
def ScaleEnt.rebuild (act : ScaleEnt) (p : PendSet) : ScaleEnt :=
  let e := if p.captured ∧ 0 < p.amax then act.push p.amax else act
  let top := e.maxima.foldl max 0
  let x0 : Int := if e.count = 0 then e.x
    else match f32.val top with
      | .fin _ s k => if s = 0 then e.x else minExp (maxFinite e.fmt e.sgn) (s, k + e.margin)
      | _ => e.x
  let x := clampX (if p.nonfinite then max x0 (act.x + 1) else x0)
  let dead := if ¬e.grad ∨ ¬p.captured then e.deadRun
    else if p.amax = 0 ∧ ¬p.nonfinite then satur 16 (e.deadRun + 1) else if 0 < p.amax then 0 else e.deadRun
  { e with x := x, deadRun := dead, vanished := satur 32 p.vanished, nonzero := satur 32 p.nonzero }

/-- Valid entries of the active bank, in tensor order: the order of the background. -/
def Blk.validIds (b : Blk) : List Nat := ((b.bank false).filter fun e => e.2.valid).map (·.1)

/-- Rebuild the first `n` valid entries into the shadow bank. -/
def Blk.rebuildFirst (b : Blk) (n : Nat) : Blk :=
  match b.scale.latched with
  | none => b
  | some l =>
    let ids := b.validIds.take n
    let sh := ids.foldl (fun m t =>
      Sp.set ScaleEnt.init m t ((b.entry t).rebuild (Sp.get PendSet.init l t))) (b.bank true)
    ((b.setBank true sh).updScale fun s => { s with rebuilt := ids }).wr NUM_TABLE_STAT.done ids.length

/-- SCALE_REBUILD_COMPLETE (R127). -/
def rebuildCompleteFx (b : Blk) : Blk :=
  if ¬b.on NUM_TABLE_STAT.rebuilding then b
  else (b.rebuildFirst b.validIds.length).wr NUM_TABLE_STAT.rebuilding 0

/-- SCALE_REBUILD_STOP (R128, R253): the background stops after the entries it has reached. -/
def rebuildStopFx (n : Nat) (b : Blk) : Blk :=
  if ¬b.on NUM_TABLE_STAT.rebuilding then b
  else (b.rebuildFirst n).wr NUM_TABLE_STAT.rebuilding 0

/-! ### Entry words (R129) -/

/-- The first word of an entry, its bits [127:0]. -/
def ScaleEnt.word1 (e : ScaleEnt) : Nat :=
  wrapInt 10 e.x + e.fmt * 2 ^ 10 + b2n e.sgn * 2 ^ 14 + b2n e.valid * 2 ^ 15 + (e.hist - 1) * 2 ^ 16
    + e.margin * 2 ^ 22 + b2n e.grad * 2 ^ 26 + e.count * 2 ^ 28 + e.head * 2 ^ 35 + e.deadRun * 2 ^ 41
    + e.coldLeft * 2 ^ 57 + e.vanished * 2 ^ 64 + e.nonzero * 2 ^ 96

/-- The nine words of an entry. -/
def ScaleEnt.words (e : ScaleEnt) : List Nat :=
  e.word1 :: (List.range 8).map fun w =>
    (List.range 8).foldl (fun a q => a + Sp.get 0 e.ring (8 * w + q) * 2 ^ (32 * q)) 0

/-- An entry read back from its nine words. -/
def ScaleEnt.ofWords (ws : List Nat) : ScaleEnt :=
  let w := ws.headD 0
  let ring := (List.range 64).foldl (fun m n => Sp.set 0 m n (bits (ws.getD (1 + n / 8) 0) (32 * (n % 8)) 32)) []
  { fmt := bits w 10 4, sgn := bit w 14, valid := bit w 15, hist := bits w 16 6 + 1, margin := bits w 22 4,
    grad := bit w 26, x := sext 10 w, ring := ring, count := bits w 28 7, head := bits w 35 6, deadRun := bits w 41 16,
    coldLeft := bits w 57 7, vanished := bits w 64 32, nonzero := bits w 96 32 }

/-- Entry shown by NUM_ENTRY_HDR and NUM_ENTRY_CNT. -/
def Blk.shownEntry (b : Blk) : ScaleEnt :=
  Sp.get ScaleEnt.init (b.bank (b.on NUM_ENTRY_SEL.bank)) (b.rd NUM_ENTRY_SEL.tensor_id)

/-- Effect of a write of NUM_ENTRY_CFG on both banks of the selected entry (R125). -/
def Blk.entryCfg (b : Blk) : Blk :=
  let t := b.rd NUM_ENTRY_SEL.tensor_id
  let h := b.rd NUM_ENTRY_CFG.hist_len + 1
  let f (e : ScaleEnt) : ScaleEnt :=
    let e := if e.hist = h then e else { e with hist := h, ring := [], count := 0, head := 0 }
    { e with fmt := b.rd NUM_ENTRY_CFG.fmt, sgn := b.on NUM_ENTRY_CFG.signed, valid := b.on NUM_ENTRY_CFG.valid, margin := b.rd NUM_ENTRY_CFG.margin, grad := b.on NUM_ENTRY_CFG.grad, x := b.rdI NUM_ENTRY_CFG.x }
  b.updScale fun s =>
    { s with bank0 := Sp.set ScaleEnt.init s.bank0 t (f (Sp.get ScaleEnt.init s.bank0 t)), bank1 := Sp.set ScaleEnt.init s.bank1 t (f (Sp.get ScaleEnt.init s.bank1 t)) }

def execConversionReport (s : State) := onBlk s conversionReportFx

end Sys2Proof.Machine
end

