-- ==== Sys2Proof/Machine/Time.lean ====
section
/-!
DEFINITION. Machine time (02_machine_time.md): the counter, the timestamp exchange (R28 to R30), the control law (R31 to
R32), the time root and 1PPS (R34, R35), holdover and backup roots (R36 to R38), and the oscillator pair (R27). Offsets
are held in units of 2⁻³² ns.
-/
namespace Sys2Proof.Machine

/-- One 1 GHz tick of the machine-time domain: 1 ns plus the rate adjustment (R24). -/
def Blk.tick (b : Blk) : Blk :=
  if b.dstate = stOff then b
  else b.updTime fun t => { t with mtc := t.mtc + BitVec.ofInt 104 ((2 : Int) ^ 40 + b.rdI MTC_RATE.adj) }

/-- Units of 2⁻³² ns per nanosecond. -/
def ns32 : Int := 2 ^ 32

/-- Clamp of R25, in units of 2⁻⁴⁰. -/
def adjClamp (x : Int) : Int := max (-219902325) (min 219902325 x)

/-- Step the counter by `e` (2⁻³² ns) (R31); every channel refreshes at once (R193). -/
def Blk.stepMtc (b : Blk) (e : Int) : Blk :=
  let b := b.updTime fun t => { t with mtc := t.mtc + BitVec.ofInt 104 (e * 2 ^ 8), integ := 0, stepped := true }
  (b.incBy MTC_STATUS.step_count 1).refreshAll

/-- EV_SKEW_LIMIT (R39). In ARMED and RUN it faults the step; otherwise it clears locked (R38), which the active root keeps
for as long as it holds the role (R32). DESIGN CHOICE (log entry 119): R27 does not say what the failure of both oscillators does to
locked outside ARMED and RUN; it acts there as R38's conditions do. -/
def Blk.skewEvent (b : Blk) (inj : Bool) (cause port : Nat) (val : Nat) : Blk :=
  let b := b.raiseInj inj 0 uMtc 0x0101 (cause + port * 16 + (val % 2 ^ 32) * 2 ^ 8)
  if b.locked then b.modFail else if b.on MTC_STATUS.is_root then b else b.wr MTC_STATUS.locked 0

/-- A signed value saturated to 32 bits. -/
def sat32 (x : Int) : Nat := wrapInt 32 (max (-(2 ^ 31)) (min (2 ^ 31 - 1) x))

/-- A port whose samples count: live, authenticated, and not an idle standby, whose role is monitor (R30, R276). -/
def Blk.inService (b : Blk) (p : Nat) : Bool := b.pLive p && !b.idleStandby p && b.on (CTL_DISC.authenticated p)

/-- TIMESTAMP_RECEIVE (R28, R29). R38 compares every valid sample of a port in service, whatever the last update took from it. -/
def timestampFx (p : Port) (set : BitVec 160) (b : Blk) : Blk :=
  let p := p.val
  let x := set.toNat
  if ¬b.pLive p ∨ bits x 0 8 ≠ 0x5A then b
  else
    let t4 := b.now16
    let pt := b.ptime p
    let hops := bits x 24 6
    let turn := bits x 112 32
    let tTx : Nat := bits x 48 64 * 2 ^ 16 + bits x 32 16
    let b := ifB (hops < 63) (fun b => b.updTime fun t => { t with noRootSince := b.now }) b
    let b := b.updPtime p fun t =>
      { t with lastRxSeq := bits x 8 8, lastRxAt := t4, nbHops := hops, nbRoot := bit x 30, nbHoldover := bit x 31 }
    let b := b.wr (MTC_PORT_STAT.hops p) hops
    let found := pt.sent.find? fun s => s.seq = bits x 16 8 ∧ t4 < s.at16 + 64000 * 2 ^ 16
    match found with
    | none => b.satBy (MTC_PORT_STAT.discards p) 1
    | some s =>
      let rt : Int := (t4 : Int) - s.at16 - turn
      if rt < 0 ∨ 50000 * 2 ^ 16 < rt then b.satBy (MTC_PORT_STAT.discards p) 1
      else
        let inj := b.fire 0x0B fun i => bits i.arg 32 4 = p
        let b := inj.2
        let injPs : Int := match inj.1 with
          | some a => sext 32 a
          | none => 0
        let asym : Int := b.rdI (MTC_PORT_CAL.asym p)
        let delay : Int := rt * 2 ^ 15 + asym * ns32 / 1000
        let off : Int := ((tTx : Int) - t4) * 2 ^ 16 + delay + injPs * ns32 / 1000
        let b := b.updPtime p fun t => { t with samples := t.samples ++ [off] }
        if ¬b.inService p then b
        else if b.rd MTC_SKEW_LIMIT.limit_ps * 2 ^ 32 < off.natAbs * 1000 then
          let run := (b.ptime p).overRun + 1
          let b := b.updPtime p fun t => { t with overRun := run }
          if run = 2 then b.skewEvent inj.1.isSome 0 p (sat32 (off * 1000 / ns32))
          else if 2 < run ∧ b.locked then b.modFail
          else b
        else b.updPtime p fun t => { t with overRun := 0 }

/-- What the law takes from a port: role code, weight in eighths, and mean offset. -/
structure PortIn where
  port : Nat
  role : Nat
  weight : Nat
  mean : Int
  hops : Nat
  deriving DecidableEq, Repr

/-- Sum of samples over their number. -/
def meanOf (l : List Int) : Int := (l.foldl (· + ·) 0) / (l.length : Int)

/-- Ports that contribute in this period: in service, with a valid sample (R30). -/
def Blk.contributors (b : Blk) : List Nat :=
  (List.range 10).filter fun p => b.inService p ∧ (b.ptime p).samples ≠ []

/-- Own hop count (R30): one more than the least advertised, 63 without a root. -/
def Blk.hopsFrom (b : Blk) (ps : List Nat) : Nat :=
  let m := (ps.map fun p => (b.ptime p).nbHops).foldl min 63
  if m = 63 then 63 else min 63 (m + 1)

/-- Both ports of a length-2 axis reach one neighbour and carry half weight (R30). -/
def Blk.halved (b : Blk) (p : Nat) : Bool :=
  let n := b.logicalOf p
  axisOf n < 4 ∧ b.axLen (p / 5) (axisOf n) = 2

/-- Role of a port in service by its neighbour's advertised hops: 1 parent, 2 peer, 3 child (R30). -/
def PortTime.roleAt (t : PortTime) (h : Nat) : Nat :=
  if t.nbHoldover ∨ h < t.nbHops then 3 else if t.nbHops = h then 2 else if t.nbHops + 1 = h then 1 else 3

/-- Role and weight of a contributing port (R30). -/
def Blk.portIn (b : Blk) (h p : Nat) : PortIn :=
  let t := b.ptime p
  let role := t.roleAt h
  let w := if role = 1 then 8 else if role = 2 then 2 else 0
  ⟨p, role, if b.halved p then w / 2 else w, meanOf t.samples, t.nbHops⟩

/-- Show roles and offsets, and start a new period (R29, MTC_PORT_STAT). DESIGN CHOICE (log entry 119): a port in service without a
valid sample in the period shows the role of its neighbour's last advertised hops, since R30 gives each port one role each period and
says of such a port only that the update leaves it out. -/
def Blk.showPorts (b : Blk) (h : Nat) (ins : List PortIn) : Blk :=
  (List.range 10).foldl (fun b p =>
    let b := match ins.find? fun i => i.port = p with
      | some i =>
        ((b.wr (MTC_PORT_STAT.offset p) (sat32 (i.mean / 2 ^ 16))).wr (MTC_PORT_STAT.valid p) 1).wr
          (MTC_PORT_STAT.role p) i.role
      | none =>
        let role := if b.pLive p ∧ b.idleStandby p then 4 else if b.inService p then (b.ptime p).roleAt h else 0
        (b.wr (MTC_PORT_STAT.valid p) 0).wr (MTC_PORT_STAT.role p) role
    b.updPtime p fun t => { t with samples := [] }) b

/-- An update without a parent or peer: holdover, its event, and its limit (R36, R38). -/
def Blk.noContributor (b : Blk) : Blk :=
  if ¬b.time.everContrib then b.wr MTC_STATUS.hops 63
  else
    let b := match b.time.holdSince with
      | some _ => b
      | none =>
        let b := b.raise 0 uMtc 0x0104 (b.rd MTC_STATUS.hops + b.time.lastContrib * 2 ^ 6)
        let b := b.updTime fun t => { t with holdSince := some b.now, holdRaised := false }
        b.wr MTC_STATUS.holdover 1
    let b := b.wr MTC_STATUS.hops 63
    match b.time.holdSince with
    | some t0 =>
      if b.rd MTC_SKEW_LIMIT.holdover_us * 1000 < b.now - t0 then
        if b.time.holdRaised then ifB b.locked Blk.modFail b
        else (b.skewEvent false 2 15 (satur 32 ((b.now - t0) / 1000))).updTime fun t => { t with holdRaised := true }
      else b
    | none => b

/-- The lock condition of one update that computes e (R32). -/
def Blk.lockStep (b : Blk) (e : Int) (ins : List PortIn) : Blk :=
  let ok := e.natAbs ≤ 2 ^ 32 ∧ (ins.filter fun i => i.role = 1).all fun i => decide (i.mean.natAbs * 2 ≤ 3 * 2 ^ 32)
  if ok then
    let n := min 256 (b.time.lockCount + 1)
    let b := b.updTime fun t => { t with lockCount := n }
    if n = 256 then b.wr MTC_STATUS.locked 1 else b
  else (b.updTime fun t => { t with lockCount := 0 }).wr MTC_STATUS.locked 0

/-- The law's correction (R31): integral and proportional terms in units of 2⁻⁶⁴ per ns, over t_u = 64 µs. -/
def Blk.correct (b : Blk) (e : Int) : Blk :=
  let r := e * 2 ^ 32 / 64000
  let integ := b.time.integ + r / 2 ^ b.rd MTC_LOOP.ki_shift
  let adj := adjClamp ((integ + r / 2 ^ b.rd MTC_LOOP.kp_shift) / 2 ^ 24)
  (b.updTime fun t => { t with integ := integ }).wr MTC_RATE.adj (wrapInt 32 adj)

/-- The root's rate follows `want`, no further than 20 ppm from the trim, and by at most 1 ppm per second: 70 units in 64 µs (R34).
DESIGN CHOICE (log entry 120): where the trim itself moves further than the slew allows, the slew limit holds. -/
def Blk.slewRate (b : Blk) (old want : Int) : Blk :=
  let trim := adjClamp (b.rdI MTC_ROOT_TRIM.trim)
  let near := max (trim - 21990232) (min (trim + 21990232) want)
  b.wr MTC_RATE.adj (wrapInt 32 (adjClamp (max (old - 70) (min (old + 70) near))))

/-- The root's update (R31, R34): disciplined to 1PPS, with a step in SYNC where the error exceeds 1 µs, or held at the trim; with 1PPS
lost it keeps its rate (R35). Before its first step it takes no correction (R31). -/
def Blk.rootUpdate (b : Blk) : Blk :=
  let old := b.rdI MTC_RATE.adj
  if ¬b.time.stepped then b
  else if b.on MTC_CTRL.pps_enable ∧ b.on MTC_STATUS.pps_valid then
    let e : Int := b.time.ppsErr * 2 ^ 16
    if b.dstate = stSync ∧ 1000 * 2 ^ 32 < e.natAbs then
      (b.stepMtc e).updTime fun t =>
        { t with ppsLast := t.ppsLast.map fun l => ((l : Int) + e / ns32).toNat, ppsErr := 0 }
    else
      let b := b.correct e
      b.slewRate old (b.rdI MTC_RATE.adj)
  else if b.on MTC_CTRL.pps_enable ∧ b.time.ppsLost then b
  else b.slewRate old (adjClamp (b.rdI MTC_ROOT_TRIM.trim))

/-- Weighted mean offset of some ports (R30). -/
def weighted (l : List PortIn) : Int :=
  (l.foldl (fun (a : Int) i => a + (i.weight : Int) * i.mean) 0) / ((l.foldl (fun a i => a + i.weight) 0 : Nat) : Int)

/-- Ports whose run of samples beyond the limit is in progress fail the attempt (R38). -/
def Blk.overFail (b : Blk) : Blk :=
  ifB (b.locked && (List.range 10).any fun p => b.pLive p && decide (2 ≤ (b.ptime p).overRun)) Blk.modFail b

/-- CONTROL_LAW_UPDATE: the 64 µs update of the law (R30 to R32, R36). The first step after a cold start is to the parents'
time; later steps and the rate follow every port with a weight (R31). -/
def controlLawFx (b : Blk) : Blk :=
  if b.dstate = stOff then b
  else
    let b := b.overFail
    let ps := b.contributors
    let root := b.on MTC_STATUS.is_root
    let h := if root then 0 else b.hopsFrom ps
    let ins := ps.map (b.portIn h)
    let live := ins.filter fun i => 0 < i.weight
    let mask := live.foldl (fun m i => m + 2 ^ i.port) 0
    let b := (b.showPorts h ins).updTime fun t =>
      { t with everContrib := t.everContrib || !ins.isEmpty, lastContrib := if root ∨ ¬live.isEmpty then mask else t.lastContrib }
    if root then b.rootUpdate.wr MTC_STATUS.hops 0
    else if live.isEmpty then b.noContributor
    else
      let b := b.updTime fun t => { t with holdSince := none, holdRaised := false }
      let b := (b.wr MTC_STATUS.holdover 0).wr MTC_STATUS.hops h
      let e := weighted live
      if ¬b.time.stepped then
        let par := live.filter fun i => i.role = 1
        if b.dstate = stSync ∧ ¬par.isEmpty then b.stepMtc (weighted par) else b
      else if b.dstate = stSync ∧ 1000 * 2 ^ 32 < e.natAbs then (b.lockStep e ins).stepMtc e
      else (b.correct e).lockStep e ins

/-- OSCILLATOR_CHECK (R27): drift in units of 0.01 ppm. -/
def oscillatorFx (m : OscMeasure) (b : Blk) : Blk :=
  let inj := b.fire 0x0C fun _ => true
  let b := inj.2
  let stopped := m.stopped || inj.1.isSome
  if stopped ∨ 10000 < m.drift.natAbs then
    if m.otherOk ∧ ¬b.time.otherOscBad then
      let sel := 1 - b.rd MTC_STATUS.mto_sel
      let b := b.wr MTC_STATUS.mto_sel sel
      let b := b.raiseInj inj.1.isSome 0 uMtc 0x0102 (sel + 2 * b2n (!stopped) + wrapInt 32 m.drift * 4)
      let b := b.updTime fun t => { t with otherOscBad := inj.1.isNone, lockCount := 0 }
      if b.on MTC_STATUS.is_root then b else b.wr MTC_STATUS.locked 0
    else if b.time.bothOscBad then b
    else
      (b.skewEvent inj.1.isSome 1 15 0).updTime fun t => { t with bothOscBad := true }
  else b

/-- Take the active root role with locked set (R32, R279). -/
def Blk.takeRoot (b : Blk) : Blk :=
  let b := ((b.wr MTC_STATUS.is_root 1).wr MTC_STATUS.locked 1).wr MTC_STATUS.hops 0
  (b.wr MTC_STATUS.holdover 0).updTime fun t => { t with holdSince := none, holdRaised := false }

/-- Some port advertises a root now (R37): a live port whose last set, received within the last update period, has hops below 63
(DESIGN CHOICE, log entry 120: R37 gives no age after which a set no longer advertises). -/
def Blk.rootAdvertised (b : Blk) : Bool :=
  (List.range 10).any fun p =>
    b.pLive p ∧ (b.ptime p).nbHops < 63 ∧ b.now16 ≤ (b.ptime p).lastRxAt + 64000 * 2 ^ 16

/-- The root's time-of-day step to `ns` (R31, R279, R341). -/
def Blk.todStep (b : Blk) (ns : Nat) : Blk :=
  let b := b.updTime fun t =>
    { t with mtc := BitVec.ofNat 104 (ns * 2 ^ 40), integ := 0, stepped := true, pendingTod := none }
  let b := b.incBy MTC_STATUS.step_count 1
  if b.rootAdvertised then b else b.takeRoot

/-- Distance from a captured value to the nearest whole second, in units of 2⁻¹⁶ ns; seconds of MTC_NOW and of MTC_NOW + MTC_EPOCH
coincide. DESIGN CHOICE (log entry 119): "the signed distance from the captured value to the nearest whole second, negated" is read
as the nearest second minus the captured value, so that the law drives it to 0. -/
def ppsError (cap16 : Nat) : Int :=
  let sec : Nat := 1000000000 * 2 ^ 16
  let r := cap16 % sec
  if r * 2 ≤ sec then -(r : Int) else (sec : Int) - r

/-- PPS_EDGE (R34, R35, R341, R388): a pulse high for 1 µs to 500 ms; the capture removes the path's 52 ns. Every edge at the root
gives pps_error; after a loss, edges are accepted again at the fifth close interval (DESIGN CHOICE, log entry 119: "five consecutive
edges 1 s ± 10 µs apart" is read as five intervals in a row, so the sixth edge is the first accepted). -/
def ppsEdgeFx (highNs : Nat) (b : Blk) : Blk :=
  if highNs < 1000 ∨ 500000000 < highNs ∨ ¬b.on MTC_CTRL.pps_enable then b
  else
    match b.time.pendingTod with
    | some ns => if b.dstate = stSync ∧ b.on MTC_CTRL.root_enable then
        (b.todStep ns).updTime fun t => { t with ppsLast := some ns, ppsErr := 0 } else b
    | none =>
      if ¬b.on MTC_STATUS.is_root then b
      else
        let cap16 : Nat := b.now16 - 52 * 2 ^ 16
        let err := ppsError cap16
        let capNs := cap16 / 2 ^ 16
        let close := match b.time.ppsLast with
          | some l => decide (1000000000 - 10000 ≤ capNs - l ∧ capNs - l ≤ 1000000000 + 10000)
          | none => false
        let good := if close then b.time.ppsGood + 1 else 0
        let b := (b.wr MTC_PPS_STAT.last_error (sat32 err)).updTime fun t =>
          { t with ppsLast := some capNs, ppsGood := good, ppsErr := err }
        if b.time.ppsLost ∧ good < 5 then b
        else
          ((b.wr MTC_STATUS.pps_valid 1).incBy MTC_PPS_STAT.edges 1).updTime fun t => { t with ppsLost := false }

/-- PPS_LOSS_TIMEOUT (R35). -/
def ppsLossFx (b : Blk) : Blk :=
  match b.time.ppsLast with
  | some l =>
    if b.on MTC_STATUS.is_root ∧ b.on MTC_STATUS.pps_valid ∧ l + 1100000000 ≤ b.now then
      ((b.wr MTC_STATUS.pps_valid 0).raise 0 uMtc 0x0103 (satur 32 ((b.now - l) / 1000))).updTime fun t =>
        { t with ppsGood := 0, ppsLost := true }
    else b
  | none => b

/-- BACKUP_ROOT_TAKEOVER (R37): 1, 6 or 11 ms in which no set that a port received advertised a root, by rank. -/
def backupRootFx (b : Blk) : Blk :=
  let r := b.rd MTC_CTRL.backup_rank
  let okState := b.dstate = stReady ∨ b.dstate = stArmed ∨ b.dstate = stRun
  if r ≠ 0 ∧ okState ∧ ¬b.on MTC_STATUS.is_root ∧ b.time.noRootSince + (1 + 5 * (r - 1)) * 1000000 ≤ b.now then
    (b.wr MTC_ROOT_TRIM.trim (b.rd MTC_RATE.adj)).takeRoot
  else b

def execControlLawUpdate (s : State) := onBlk s controlLawFx
def execOscillatorCheck (m : OscMeasure) (s : State) := onBlk s (oscillatorFx m)
def execTimestampReceive (p : Port) (x : BitVec 160) (s : State) := onBlk s (timestampFx p x)
def execPpsEdge (h : Nat) (s : State) := onBlk s (ppsEdgeFx h)
def execPpsLossTimeout (s : State) := onBlk s ppsLossFx
def execBackupRootTakeover (s : State) := onBlk s backupRootFx

end Sys2Proof.Machine
end

