-- ==== Sys2Proof/Machine/Access.lean ====
section
/-!
DEFINITION. Register accesses (00_scope.md R6 to R11; 16_registers.md R367 to R375): what an access reaches, its status
(R369), the fields a write sets, what a read shows, and what a write starts.
-/
namespace Sys2Proof.Machine

/-! ### What an access reaches -/

/-- Access statuses (R369). -/
def stDone : Nat := 0
def stLock : Nat := 1
def stError : Nat := 2
def stPowerOff : Nat := 3
def stQuorum : Nat := 4
def stDebugLocked : Nat := 5

/-- A compute die's rails are off: STANDBY, Calm, or after a trip, which ends in Calm (R374, R358). -/
def Blk.cdOff (b : Blk) : Bool := b.dstate ≤ stStandby ∨ b.rd PWR_MODE.mode = 2

/-- Die of a device address in the register region, and the offset in its 16 MiB. -/
def dieOfAddr (a : Nat) : Nat := (a - hubBase) / 2 ^ 24
def offOfAddr (a : Nat) : Nat := (a - hubBase) % 2 ^ 24

/-- An address of the register space (R367, R368). -/
def isRegAddr (a : Nat) : Bool := hubBase ≤ a ∧ a < 0x7F0014000000

/-- Registers that answer in STANDBY (R374): ID and global, and those with a class-C field. -/
def standbyMask (r : Reg) : Nat :=
  r.fields.foldl (fun m f => if f.cls = .c then setBits m f.lo f.w (2 ^ f.w - 1) else m) 0

/-- The access completes with status Powered off (R374). `SITE_MAP` and `SITE_CORE` reads are answered by the hub. -/
def Blk.poweredOff (b : Blk) (a : Nat) (write : Bool) : Bool :=
  let d := dieOfAddr a
  let site := match regOfAddr a with
    | some (.siteMap _ _) | some (.siteCore _ _) => !write
    | _ => false
  if 1 ≤ d ∧ d ≤ 12 then b.cdOff && !site
  else if b.dstate ≤ stStandby then
    if 13 ≤ d ∧ d ≤ 18 then true
    else if d = 0 then
      offOfAddr a / 2 ^ 16 ≠ 0 && (match regOfAddr a with
        | some r => decide (standbyMask r = 0)
        | none => true)
    else false
  else false

/-- The path can carry an access at all: in STANDBY only the management plane and the debug port; never without power; CXL.io
not while PERST_N is low (R385) or a fence holds its link down (R308). -/
def Blk.pathOpen (b : Blk) (p : Path) : Bool :=
  b.dstate ≠ stOff && (b.dstate ≠ stStandby || p = .management || p = .debug)
    && !(p = .cxl && (b.host.perst || b.host.fenced))

/-- The debug port's level refuses the access (R328, R369). -/
def Blk.debugRefuses (b : Blk) (p : Path) (write : Bool) : Bool :=
  p = .debug && decide (b.rd SEC_DBG.level < (if write then 2 else 1))

/-! ### Reads -/

/-- Record n of the event ring (R295). -/
def Blk.ringRec (b : Blk) (n : Nat) : Word := Sp.get 0 b.ev.ring (n % 4096)

/-- Read index of path r as a read of CTL_EV_DATA[r][0] leaves it, and the records it passes over (R309). -/
def Blk.evIndex (b : Blk) (r : Nat) : Nat × Nat :=
  let w := b.rd CTL_EV_WR.index
  let i := b.rd (CTL_EV_RD.index r)
  let behind := (w + 2 ^ 32 - i) % 2 ^ 32
  if 4096 < behind then ((w + 2 ^ 32 - 4096) % 2 ^ 32, behind - 4096) else (i, 0)

/-- Queue number of a die's self-test queue (R297). -/
def stQueue (die : Nat) : Nat := if 1 ≤ die ∧ die ≤ 12 then die else 0

/-- What a read of a register shows: the store, and the views of state kept elsewhere. -/
def Blk.view (b : Blk) (r : Reg) : Nat :=
  match r with
  | .mtcNow => b.now % 2 ^ 64
  | .numEntryHdr => b.shownEntry.word1 % 2 ^ 64
  | .numEntryCnt => b.shownEntry.word1 / 2 ^ 64
  | .stageGen =>
    let g := b.region (b.rd STAGE_GEN_SEL.region + (if b.on STAGE_GEN_SEL.space then 2 ^ 20 else 0))
    g.gen.toNat + satur 8 g.inFlight * 2 ^ 16
  | .vecStatus cd s =>
    let k := cd * 32 + s
    (b.ctx k).vl * 2 + b.slot k * 2 ^ 9
  | .vecNanLanes _ s h => if s < 28 ∧ h = 1 then 0 else b.reg r
  | .portCal p => setBits (b.reg r) 16 10 (b.entryNow p)
  | .routeDrain ld i => setBits (b.reg r) 32 32 (b.oldPackets ld i)
  | .seqVote _ _ => if b.vote.modFail then setBits (b.reg r) 10 1 1 else b.reg r
  | .rasStatus die =>
    let v := setBits (b.reg r) 1 7 (Sp.get [] b.ras.queues (stQueue die)).length
    let v := setBits v 0 1 (b2n b.ras.maintUntil.isSome)
    setBits v 8 1 (b2n (Sp.get none b.ras.running (stQueue die)).isSome)
  | .mgmtStatus => setBits (b.reg r) 2 3 (satur 3 b.mgmt.reasm.length)
  | .ctlEvData p w =>
    let i := if w = 0 then (b.evIndex p).1 else b.rd (CTL_EV_RD.index p)
    if i = b.rd CTL_EV_WR.index then 0 else bits (b.ringRec i).toNat (64 * w) 64
  | _ => b.reg r

/-- What a read does beside its value: MTC_NOW latches the fraction (R24), the event ports move their index (R309). -/
def Blk.afterRead (b : Blk) (r : Reg) : Blk :=
  match r with
  | .mtcNow => b.wr MTC_NOW_FRAC.frac (b.now16 % 2 ^ 16)
  | .ctlEvData p w =>
    let b := if w ≠ 0 then b
      else
        let i := b.evIndex p
        if i.2 = 0 then b
        else
          let b := (b.wr (CTL_EV_RD.index p) i.1).satBy (CTL_EV_RD.lost p) i.2
          let quiet := match Sp.get none b.ev.lostAt p with
            | some t => decide (b.now < t + 1000000000)
            | none => false
          if quiet then b
          else (b.raise 0 uDie 0x080C (p + i.2 * 4)).updEv fun e =>
            { e with lostAt := Sp.set none e.lostAt p (some b.now) }
    if w = 3 ∧ b.rd (CTL_EV_RD.index p) ≠ b.rd CTL_EV_WR.index then b.incBy (CTL_EV_RD.index p) 1 else b
  | _ => b

/-- A read by a path: status, value, and the state after it. -/
def Blk.regRead (b : Blk) (p : Path) (a bytes : Nat) : Nat × Nat × Blk :=
  if bytes ≠ 8 ∨ a % 8 ≠ 0 ∨ ¬isRegAddr a then (stError, 0, b)
  else if b.debugRefuses p false then (stDebugLocked, 0, b)
  else if b.poweredOff a false then (stPowerOff, 0, b)
  else match regOfAddr a with
    | none => (stDone, 0, b)
    | some r =>
      let v := b.view r
      let v := if b.dstate ≤ stStandby ∧ dieOfAddr a = 0 ∧ offOfAddr a / 2 ^ 16 ≠ 0 then v &&& standbyMask r else v
      (stDone, v, b.afterRead r)

/-! ### Writes of fields -/

/-- New value of a register for a write of `v` (R6, R7, R8, R10): each 1 clears the corresponding bit of a W1C field. -/
def Blk.mergeWrite (b : Blk) (q : Bool) (r : Reg) (v : Nat) : Nat :=
  r.fields.foldl (fun acc f =>
    let x := bits v f.lo f.w
    let old := bits acc f.lo f.w
    match f.acc with
    | .ro => acc
    | .rw => setBits acc f.lo f.w x
    | .w1c => setBits acc f.lo f.w (old &&& (2 ^ f.w - 1 - x))
    | .w1s => setBits acc f.lo f.w (old ||| x)
    | .rwl => if b.locked then acc else setBits acc f.lo f.w x
    | .rwq => if q then setBits acc f.lo f.w x else acc) (b.reg r)

/-- A field forced into its stated range. -/
def clampFld (v lo w : Nat) (f : Nat → Nat) : Nat := setBits v lo w (f (bits v lo w))
def atLeast1 (x : Nat) : Nat := max 1 x

/-- What the register tables make of written values outside their range. -/
def clampReg (r : Reg) (v : Nat) : Nat :=
  match r with
  | .gathSlotQuota _ => clampFld v 0 9 fun x => if x = 0 then 1 else min x 256
  | .gathCtrl _ => clampFld v 0 16 atLeast1
  | .portCfg _ => clampFld v 32 16 atLeast1
  | .hwCfg2 _ => clampFld (clampFld v 0 7 atLeast1) 13 15 (max 257)
  | .collCfg => clampFld v 0 8 atLeast1
  | .rasCfg => clampFld (clampFld v 0 8 atLeast1) 32 16 atLeast1
  | .gfwCfg => clampFld v 0 16 atLeast1
  | .cxlCfg => clampFld v 0 16 atLeast1
  | .pwrMode => clampFld v 2 2 fun x => if x = 3 then 1 else x
  | .pwrThermCfg => clampFld (clampFld v 8 8 (min (bits v 16 8 - 2))) 24 4 atLeast1
  | .mtcRootTrim => clampFld v 0 32 fun x => wrapInt 32 (adjClamp (sext 32 x))
  | _ => v

/-- Writes that the owning rule discards whole: the active route bank (R222, R224), and VC buffers that do not fit (R216). -/
def Blk.discards (b : Blk) (r : Reg) (v : Nat) : Bool :=
  match r with
  | .routeNext ld bk _ _ | .routeExc ld bk _ => bk = b.rd (ROUTE_EPOCH.active ld)
  | .portVcBuf p n =>
    let size (k : Nat) : Nat :=
      let w := if k = n then v else b.reg (.portVcBuf p k)
      if bit w 16 then bits w 0 16 else 0
    decide (bit v 16 ∧ bits v 0 16 < 257) || decide (49152 < ((List.range 8).map size).sum)
  | _ => false

/-! ### The scheduled-event table (R43, R44) -/

/-- EV_SCHED_LATE; an entry for an epoch switch is also a refused switch (R226). `why` 0 lateness or state, 1 no free entry, 2 reserved code, 4 replacement too late. -/
def Blk.schedLate (b : Blk) (action entry inst why : Nat) : Blk :=
  (ifB (action % 256 = 2) Blk.refuseEntry b).raise 0 uMtc 0x0105 (action % 256 + entry * 2 ^ 8 + inst % 2 ^ 64 * 2 ^ 13 + b.now % 2 ^ 64 * 2 ^ 77 + why * 2 ^ 141)

/-- An entry with this action and instant meets the conditions of R44. -/
def Blk.schedState (b : Blk) : Bool := stReady ≤ b.dstate ∧ b.dstate ≤ stDrain
def Blk.schedOk (b : Blk) (inst : Nat) : Bool := b.schedState && decide (b.now + 100 ≤ inst)

def Blk.schedInst (b : Blk) (n : Nat) : Nat := Sp.get 0 b.sched.inst n

/-- Take an entry into the table with its instant latched. -/
def Blk.setEntry (b : Blk) (n action arg inst : Nat) : Blk :=
  (b.setReg (.mtcSchedAct n) (action % 256 + 256 + arg % 2 ^ 32 * 2 ^ 32)).updSched fun s =>
    { s with inst := Sp.set 0 s.inst n inst }

/-- A write of MTC_SCHED_ACT[n]. -/
def Blk.schedWrite (b : Blk) (n v : Nat) : Blk :=
  let action := bits v 0 8
  let arg := bits v 32 32
  let inst := b.rd (MTC_SCHED_TIME.instant n)
  let held := b.on (MTC_SCHED_ACT.valid n)
  let near := held ∧ b.schedInst n < b.now + 100
  if bit v 8 then
    if action = 0 ∨ 8 ≤ action then b.schedLate action n inst 2
    else if near then b.schedLate action n inst 4
    else if ¬b.schedOk inst then b.schedLate action n inst 0
    else b.setEntry n action arg inst
  else if near then b
  else b.setReg (.mtcSchedAct n) (action + arg * 2 ^ 32)

/-- The control cluster places an entry in the first free place (R44): the place, or none with EV_SCHED_LATE. -/
def Blk.placeSched (b : Blk) (action arg inst : Nat) : Option Nat × Blk :=
  match (List.range 32).find? fun n => ¬b.on (MTC_SCHED_ACT.valid n) with
  | none => (none, b.schedLate action 0 inst 1)
  | some n =>
    if b.schedOk inst then (some n, (b.setReg (.mtcSchedTime n) inst).setEntry n action arg inst)
    else (none, b.schedLate action n inst 0)

/-! ### What a write starts -/

/-- The descriptor at ring slot `i` (R335). -/
def Blk.pullAddr (b : Blk) (i : Nat) : Nat := b.rd CXL_PULL_BASE.addr + 32 * i

/-- The CXL side masters no new transaction: fenced, draining (R304), or held in the host's reset. -/
def Blk.cxlClosed (b : Blk) : Bool := b.host.fenced || b.host.perst || b.ras.drains.any fun d => d.kind = 5

/-- Start the descriptor at the tail, while the ring runs and holds one (R335): a pull asks for its words, a push sends
them. -/
def Blk.pullIssue (b : Blk) : Blk :=
  if b.cxlClosed ∨ b.host.pullBusy.isSome ∨ b.on CXL_PULL_IDX.stopped ∨ b.rd CXL_PULL_IDX.head = b.rd CXL_PULL_IDX.tail then b
  else
    let d := b.readDev (b.pullAddr (b.rd CXL_PULL_IDX.tail)) 1 0 uCxl
    let w := (d.1.headD ⟨0, true⟩).data.toNat
    let n := bits w 176 32 / 32
    let b := d.2.updHost fun h => { h with pullBusy := some b.now }
    if bit w 0 then
      let ws := b.readMem (bits w 128 48) n 0 uCxl
      ws.2.emit (.pushWrite (bits w 64 64) ws.1)
    else b.emit (.pullRead (bits w 64 64) n)

/-- Clear the performance counters of a die (R375). -/
def Blk.perfClear (b : Blk) (die : Nat) : Blk :=
  ((List.range 8).foldl (fun b n => b.wr (PERF_CNT.count die n) 0) b).wr (PERF_CTRL.clear die) 0

/-- Arm an injection in a die's RAS block (R292, R293). -/
def Blk.armInject (b : Blk) (die : Nat) : Blk :=
  let n := b.rd (RAS_INJ_CTRL.count die)
  let i : Inject :=
    ⟨die, b.rd (RAS_INJ_CTRL.det die), if die = 0 then b.rd (RAS_INJ_CTRL.die die) else die,
      b.rd (RAS_INJ_CTRL.unit die), max 1 n, b.rd (RAS_INJ_ARG.arg die)⟩
  let b := b.updRas fun r => { r with injects := r.injects.filter (fun j => j.block ≠ die) ++ [i] }
  ((b.wr (RAS_INJ_CTRL.arm die) 0).wr (RAS_INJ_CTRL.armed die) 1).wr (RAS_INJ_CTRL.fired die) 0

/-- End a debug unlock (R328). -/
def Blk.debugLock (b : Blk) : Blk :=
  let c := (b.wr SEC_DBG.level 0).updSec fun s => { s with dbgExpiry := 0 }
  if b.rd SEC_DBG.level = 0 then c else c.msix 5

/-- Effects of a completed write, by register; `old` is the register before it and `v` what was written. -/
def Blk.afterWrite (b : Blk) (r : Reg) (old v : Nat) : Blk :=
  match r with
  | .numEntryCfg => if b.locked then b else b.entryCfg
  | .ncacheCtrl cd =>
    if ¬b.on (NCACHE_CTRL.flush cd) then b
    else if b.dstate = stRun then b.updNc cd fun n => { n with flushAtAnchor := true }
    else (b.clearNc cd).wr (NCACHE_CTRL.flush cd) 0
  | .chanMigrate md =>
    if b.on (CHAN_MIGRATE.start md) then
      (b.wr (CHAN_MIGRATE.start md) 0).startMigration md (b.rd (CHAN_MIGRATE.logical md)) (b.rd (CHAN_MIGRATE.target md))
    else b
  | .portCtrl p =>
    let was := bit old 0
    let is := b.on (PORT_CTRL.enable p)
    let b := if is ∧ ¬was then b.portEnabled p else if was ∧ ¬is then b.portDisabled p else b
    let go := b.on (PORT_CTRL.retrain p)
    let b := b.wr (PORT_CTRL.retrain p) 0
    if go ∧ is then b.portRetrained p else b
  | .rasInjCtrl die => if b.on (RAS_INJ_CTRL.arm die) then b.armInject die else b
  | .secDbg => if b.on SEC_DBG.relock then (b.wr SEC_DBG.relock 0).debugLock else b
  | .perfCtrl die => if b.on (PERF_CTRL.clear die) ∧ b.dstate ≠ stRun then b.perfClear die else b
  | .perfSel die n => if b.reg r = old then b else b.wr (PERF_CNT.count die n) 0
  | .cxlPullIdx => b.pullIssue
  | .pwrAvs d =>
    let m := b.rd PWR_MODE.mode
    if b.on (PWR_AVS.avs_en d) ∨ 2 ≤ m then b else b.wr (PWR_AVS.vout_mv d) (Config.nominalMv d m).toNat
  | .pwrLimit => b.updPower fun p => { p with limitPending := true }
  | .mgmtAddr _ => b.wrB MGMT_STATUS.derived (b.reg (.mgmtAddr 0) = 0 ∧ b.reg (.mgmtAddr 1) = 0)
  | .routePortMap _ => if v = old then b else b.showMap
  | _ => b

/-- RAS_INJ registers outside maintenance mode are handled as R7 handles an RWL field (R293). -/
def Blk.injLocked (b : Blk) (r : Reg) : Bool :=
  match r with
  | .rasInjCtrl _ | .rasInjArg _ => !b.ras.maintUntil.isSome
  | _ => false

/-- EV_QUORUM_REJECT and the reason shown (R8, R322). -/
def Blk.quorumReject (b : Blk) (reason seq : Nat) : Blk := b.raise 0 uSec 0x0A01 (reason + seq % 2 ^ 64 * 2 ^ 8)

/-- A write that reaches a register: status and state. `q` tells a write of a verified command of type 7. -/
def Blk.writeReg (b : Blk) (q : Bool) (r : Reg) (v : Nat) : Nat × Blk :=
  if b.injLocked r then (stLock, b)
  else
    let has (a : Acc) : Bool := r.fields.any fun f => f.acc = a
    let status := if has .rwq && !q then stQuorum else if has .rwl && b.locked then stLock else stDone
    let b1 := match r with
      | .mtcSchedAct n => b.schedWrite n v
      | _ =>
        let m := b.mergeWrite q r v
        if b.discards r m then b else (b.setReg r (clampReg r m)).afterWrite r (b.reg r) v
    (status, if status = stQuorum then b1.quorumReject 0 0 else b1)

/-- A write by a path: status and state (R369). -/
def Blk.regWrite (b : Blk) (q : Bool) (p : Path) (a bytes v : Nat) : Nat × Blk :=
  if bytes ≠ 8 ∨ a % 8 ≠ 0 ∨ ¬isRegAddr a then (stError, b)
  else if b.debugRefuses p true then (stDebugLocked, b)
  else if b.poweredOff a true then (stPowerOff, b)
  else match regOfAddr a with
    | none => (stDone, b)
    | some r => b.writeReg q r v

/-- A write with its completion on the path. -/
def writeFx (p : Path) (a bytes v : Nat) (b : Blk) : Blk :=
  if ¬b.pathOpen p then b
  else
    let r := b.regWrite false p a bytes v
    r.2.emit (.access p r.1 0)

/-- A read with its completion on the path. -/
def readFx (p : Path) (a bytes : Nat) (b : Blk) : Blk :=
  if ¬b.pathOpen p then b
  else
    let r := b.regRead p a bytes
    r.2.2.emit (.access p r.1 (BitVec.ofNat 64 r.2.1))

/-- A write of one register by its name. -/
def writeAt (p : Path) (r : Reg) (v : Nat) (b : Blk) : Blk := writeFx p r.addr 8 v b

def mtcNowReadFx (p : Path) (b : Blk) : Blk := readFx p (Reg.addr .mtcNow) 8 b
def eventReadFx (p : Path) (r w : Fin 4) (b : Blk) : Blk := readFx p (Reg.addr (.ctlEvData r.val w.val)) 8 b

/-- A write of PORT_CTRL: enable set, enable clear, or retrain with enable as it stands. -/
def portEnableFx (p : Path) (n : Port) (b : Blk) : Blk := writeAt p (.portCtrl n.val) 1 b
def portDisableFx (p : Path) (n : Port) (b : Blk) : Blk := writeAt p (.portCtrl n.val) 0 b
def portRetrainFx (p : Path) (n : Port) (b : Blk) : Blk :=
  writeAt p (.portCtrl n.val) (2 + b.rd (PORT_CTRL.enable n.val)) b

def pullStartFx (p : Path) (head : Nat) (b : Blk) : Blk := writeAt p .cxlPullIdx head b
def pullResumeFx (p : Path) (b : Blk) : Blk := writeAt p .cxlPullIdx (2 ^ 20 + b.rd CXL_PULL_IDX.head) b
def flushFx (p : Path) (cd : Nat) (b : Blk) : Blk :=
  writeAt p (.ncacheCtrl cd) (2 + b.rd (NCACHE_CTRL.enable cd)) b
def shadowReadyFx (p : Path) (ld : Nat) (b : Blk) : Blk := writeAt p (.routeEpoch ld) 2 b
def relockFx (p : Path) (b : Blk) : Blk := writeAt p .secDbg 4 b
/-- Performance blocks exist on the compute, memory-interface and link dies. -/
def perfClearFx (p : Path) (die v : Nat) (b : Blk) : Blk := if die = 0 ∨ die = 19 then b else writeAt p (.perfCtrl die) (v ||| 1) b
def perfSelFx (p : Path) (die n v : Nat) (b : Blk) : Blk := if die = 0 ∨ die = 19 then b else writeAt p (.perfSel die n) v b

def execRegisterWrite (a : Access) (s : State) := onBlk s (writeFx a.path a.addr.toNat a.bytes a.value.toNat)
def execMtcNowRead (p : Path) (s : State) := onBlk s (mtcNowReadFx p)
def execSchedEntryWrite (p : Path) (n : Fin 32) (v : BitVec 64) (s : State) :=
  onBlk s (writeAt p (.mtcSchedAct n.val) v.toNat)
def execSeqPerfClear (p : Path) (c : CoreId) (v : BitVec 64) (s : State) :=
  onBlk s (writeAt p (.seqPerfCtrl c.cd.val c.site.val) (v.toNat ||| 1))
def execNumEntryCfgWrite (p : Path) (v : BitVec 64) (s : State) := onBlk s (writeAt p .numEntryCfg v.toNat)
def execNcacheFlush (p : Path) (cd : Fin 12) (s : State) := onBlk s (flushFx p cd.val)
def execChannelMigrationStart (p : Path) (md : Fin 4) (v : BitVec 64) (s : State) :=
  onBlk s (writeAt p (.chanMigrate md.val) (v.toNat ||| 2 ^ 11))
def execEpochShadowReady (p : Path) (ld : Fin 2) (s : State) := onBlk s (shadowReadyFx p ld.val)
def execPortEnable (p : Path) (n : Port) (s : State) := onBlk s (portEnableFx p n)
def execPortDisable (p : Path) (n : Port) (s : State) := onBlk s (portDisableFx p n)
def execPortRetrain (p : Path) (n : Port) (s : State) := onBlk s (portRetrainFx p n)
def execDebugRelock (p : Path) (s : State) := onBlk s (relockFx p)
def execEventRingRead (p : Path) (r w : Fin 4) (s : State) := onBlk s (eventReadFx p r w)
def execInjectionArm (p : Path) (die : Fin 13) (v : BitVec 64) (s : State) :=
  onBlk s (writeAt p (.rasInjCtrl die.val) (v.toNat ||| 2 ^ 32))
def execPullRingStart (p : Path) (head : BitVec 10) (s : State) := onBlk s (pullStartFx p head.toNat)
def execPullRingResume (p : Path) (s : State) := onBlk s (pullResumeFx p)
def execPerfClear (p : Path) (die : Fin 20) (v : BitVec 64) (s : State) := onBlk s (perfClearFx p die.val v.toNat)
def execPerfSelWrite (p : Path) (die : Fin 20) (n : Fin 8) (v : BitVec 64) (s : State) :=
  onBlk s (perfSelFx p die.val n.val v.toNat)

end Sys2Proof.Machine
end

