-- ==== Sys2Proof/Machine/Matrix.lean ====
section
/-!
DEFINITION. Matrix engines (04_matrix_engines.md): operand fetch (R58, R74), the accumulation order with its flags (R76 to
R81), spill records (R86, R87), shapes and timing (R75, R83 to R85, R89), and the delivery of a tile to its destination.
-/
namespace Sys2Proof.Machine

/-! ### Addresses -/

/-- Place that a register names: with `rel`, the active slot's partition base plus the address in the core's SRAM window
(R153); otherwise a device address. -/
def Blk.regPlace (b : Blk) (k r : Nat) (rel : Bool) : Option Nat :=
  let a := b.sreg k r
  if rel then some (b.coreKeyOf k a true) else b.place (a % 2 ^ 48)

/-- An operand array: place of its elements and of its scale bytes. -/
structure Arr where
  elem : Option Nat
  scale : Option Nat
  fmt : Nat
  sgn : Bool
  layout : Nat
  deriving DecidableEq, Repr

/-- Elements `ix` of an array (R58); a pad reads as +0 (R59); unmapped words are poisoned (R187). -/
def Blk.fetchAt (b : Blk) (die unit : Nat) (a : Arr) (ix : List Nat) : (List Ex × Bool) × Blk :=
  let w := fmtWidth a.fmt
  let gone : List Ex × Bool := (ix.map fun _ => .zero false, true)
  match a.elem with
  | none => (gone, b.addrRange die unit 0)
  | some key =>
    let pad := b.padOf key a.fmt
    let eo (i : Nat) : Nat := 8 * (key % 32) + w * i
    let es := b.fetchSet (key / 32 * 32) (coverWords (ix.map fun i => (eo i, w)))
    let el (i : Nat) : Nat := (takeBits es.1 (eo i) w).1
    let bad (m : Sp MWord) : Bool := m.any (·.2.poison)
    if a.layout = 0 then ((ix.map fun i => if pad i then .zero false else decodeElem a.fmt a.sgn (el i), bad es.1), es.2)
    else
      let step := if a.layout = 2 then 16 else 8
      match a.scale with
      | none => (gone, es.2.addrRange die unit 0)
      | some sk =>
        let so (i : Nat) : Nat := 8 * (sk % 32) + step * (i / 32)
        let ss := es.2.fetchSet (sk / 32 * 32) (coverWords (ix.map fun i => (so i, step)))
        let dec (i : Nat) : Ex :=
          let sb := (takeBits ss.1 (so i) step).1
          if pad i then .zero false
          else decodeScaled a.fmt a.sgn (el i) (sb % 256) (if a.layout = 2 then bits (sb / 256) (2 * (i / 8 % 4)) 2 else 0)
        ((ix.map dec, bad es.1 || bad ss.1), ss.2)

/-- Elements i0 to i0 + n − 1 of an array. -/
def Blk.fetchElems (b : Blk) (die unit : Nat) (a : Arr) (i0 n : Nat) : (List Ex × Bool) × Blk :=
  b.fetchAt die unit a ((List.range n).map (i0 + ·))

/-- Element `q` of run `i` of an operand of length `k` along the reduction. In the declared tensor `t` that holds it the reduction runs
along dimension 0, or, with block layout 0, along the dimension that `Config.reduceDim` gives (R71; log entry 26), `i` counting the
positions of the other dimensions in their order. An operand that no tensor holds has its runs one after another, padded to whole
blocks (R59). -/
def runIndex (t : Option (Tensor × Nat)) (key layout k : Nat) (i q : Nat) : Nat :=
  let own := if layout = 0 then k else cdiv k 32 * 32
  match t with
  | none => i * own + q
  | some (t, k0) =>
    let ext := t.run :: t.extents.drop 1
    let d := if t.layout = 0 then Config.reduceDim t.tid (key - k0) k % max 1 t.extents.length else 0
    let len := ext.getD d 0
    let inner := (ext.take d).prod
    if len < k then i * own + q else i % max 1 inner + i / max 1 inner * (inner * len) + q * inner

/-- Rows (or columns) 0 to n − 1 of an operand, each k elements along the reduction. -/
def Blk.fetchRuns (b : Blk) (die unit : Nat) (a : Arr) (k n : Nat) : (List (List Ex) × Bool) × Blk :=
  let key := a.elem.getD 0
  let t := a.elem.bind b.tensorAt
  (List.range n).foldl (fun s i =>
    let r := s.2.fetchAt die unit a ((List.range k).map (runIndex t key a.layout k i))
    ((s.1.1 ++ [r.1.1], s.1.2 || r.1.2), r.2)) (([], false), b)

/-! ### Classes (R75, R76) -/

/-- Width class: 0 32-bit, 1 16-bit, 2 8-bit, 3 4-bit, 4 2-bit. -/
def fmtClass (c : Nat) : Nat :=
  if c = 0 then 0 else if c = 1 ∨ c = 2 then 1 else if c = 7 ∨ c = 9 then 3 else if c = 10 then 4 else 2

def mopClass (o : MOp) : Nat := min (fmtClass o.aFmt.toNat) (fmtClass o.bFmt.toNat)
/-- P, s and g of a class. -/
def classP (c : Nat) : Nat := if c ≤ 1 then 1 else 2 ^ (c - 1)
def classS (c : Nat) : Nat := if c = 0 then 2 else 1
def classG (c : Nat) : Nat := 2 ^ (c + 1)

/-- INT32 accumulation: both operands integer with layout 0. -/
def mopInt (o : MOp) : Bool := isInt o.aFmt.toNat && o.aLayout = 0 && isInt o.bFmt.toNat && o.bLayout = 0

/-! ### Accumulation (R77 to R79, R81) -/

/-- A running sum and the flags raised so far. -/
structure RunSum where
  v : Nat
  fl : Nat
  deriving DecidableEq, Repr

/-- One group on the FP32 path: exact group sum, one rounding, one addition. -/
def fpGroup (a : RunSum) (terms : List (Ex × Ex)) : RunSum :=
  let ps := terms.map fun t => t.1.mul t.2
  let grp := match ps with
    | [] => Ex.zero true
    | p :: l => l.foldl Ex.add p
  let marked := terms.any fun t => t.1.isNan || t.2.isNan
  let r := f32.round grp
  let x := f32.val a.v
  let y := f32.val r.1
  let s := x.add y
  let c := f32.round s
  let inv := (grp.isNan && !marked) || (s.isNan && !x.isNan && !y.isNan)
  ⟨c.1, a.fl ||| (if inv then 1 else 0) ||| (if r.2 || c.2 then 2 else 0)⟩

def exInt : Ex → Int
  | .fin n s e => (if n then -1 else 1) * ((s : Int) * 2 ^ e.toNat)
  | _ => 0

/-- One group on the INT32 path: exact sum, then the clamp of R79. -/
def intGroup (a : RunSum) (terms : List (Ex × Ex)) : RunSum :=
  let s := terms.foldl (fun z t => z + exInt t.1 * exInt t.2) (sext 32 a.v)
  if s < -(2 ^ 31) then ⟨2 ^ 31, a.fl ||| 10⟩ else if 2 ^ 31 ≤ s then ⟨2 ^ 31 - 1, a.fl ||| 10⟩
  else ⟨wrapInt 32 s, a.fl⟩

/-- accumulate (R77): groups of g terms in ascending order. -/
def accumulate (int : Bool) (g : Nat) : Nat → RunSum → List (Ex × Ex) → RunSum
  | 0, a, _ => a
  | n + 1, a, l =>
    match l with
    | [] => a
    | _ => accumulate int g n (if int then intGroup a (l.take g) else fpGroup a (l.take g)) (l.drop g)

/-- Running sums of an operation with k > 0, from the starting sums `start i j`. -/
def mopSums (int : Bool) (g : Nat) (arows bcols : List (List Ex)) (start : Nat → Nat → Nat) : List (List Nat) × Nat :=
  let rows := arows.zipIdx.map fun ra => bcols.zipIdx.map fun cb =>
    accumulate int g ra.1.length ⟨start ra.2 cb.2, 0⟩ (ra.1.zip cb.1)
  (rows.map fun r => r.map (·.v), rows.foldl (fun f r => r.foldl (fun f a => f ||| a.fl) f) 0)

/-! ### Shapes (R83 to R85, R89) -/

/-- The timing of an operation (R83 to R85, R89), in arithmetic cycles from its issue: all its cycles; the stretches (offset, length)
in which some cell forms a valid product; and when its results first need the output path, and for how many cycles. -/
structure MopTime where
  total : Nat
  runs : List (Nat × Nat)
  drain : Nat × Nat
  deriving DecidableEq, Repr

def mopTime (o : MOp) (lee : Bool) : MopTime :=
  let c := mopClass o
  let P := classP c
  let s := classS c
  let m := o.m.toNat
  let n := o.n.toNat
  let k := o.k.toNat
  let rows := if o.dataflow = 0 then m else n
  let drain := if o.accDst = 2 then 0 else 64
  if m = 0 ∨ n = 0 then ⟨1, [], (0, 0)⟩
  else if k = 0 then
    let d := if lee ∨ o.dataflow = 1 then drain else rows
    ⟨d, [], (0, d)⟩
  else if lee then
    let q := s * (cdiv k P - 1)
    ⟨q + 8 + drain, [(0, q + s)], (q + 8, drain)⟩
  else if o.dataflow = 1 then
    let q := s * (cdiv k P - 1)
    ⟨q + 131 + drain, [(0, q + m + n - 1)], (q + 131, drain)⟩
  else
    let T := cdiv k (64 * P)
    let D := max (s * rows) 66
    let used (t : Nat) : Nat := cdiv (min (64 * P) (k - t * 64 * P)) P
    let len (t : Nat) : Nat := s * (rows - 1) + used t + (if o.dataflow = 0 then n else m) - 1
    let last := 64 + (T - 1) * D
    ⟨last + s * (rows - 1) + 128, (List.range T).map fun t => (64 + t * D, if t + 1 < T then min D (len t) else len t),
      (last + 64, s * (rows - 1) + 64)⟩

/-- Cycles of an operation: those with a valid product, and all. -/
def mopCycles (o : MOp) (lee : Bool) : Nat × Nat := (((mopTime o lee).runs.map (·.2)).sum, (mopTime o lee).total)

/-- Spill records of an operation, and the extent of record r (R86, R87). -/
def mopRecords (o : MOp) (lee : Bool) : Nat :=
  if lee ∨ o.dataflow = 1 then 1 else if o.dataflow = 0 then max 1 (cdiv o.m.toNat 64) else max 1 (cdiv o.n.toNat 64)

def recExtent (o : MOp) (lee : Bool) (r : Nat) : Nat × Nat :=
  let m := o.m.toNat
  let n := o.n.toNat
  if lee ∨ o.dataflow = 1 then (m, n)
  else if o.dataflow = 0 then (min 64 (m - 64 * r), n) else (m, min 64 (n - 64 * r))

/-- Record and place in it of sum (i, j). -/
def recOf (o : MOp) (lee : Bool) (i j : Nat) : Nat × Nat × Nat :=
  if lee ∨ o.dataflow = 1 then (0, i, j) else if o.dataflow = 0 then (i / 64, i % 64, j) else (j / 64, i, j % 64)

/-- The starting sums of a spill source (R86, R87): the words of its records, the flags, and whether a status word does not
fit the operation. -/
def Blk.readSpill (b : Blk) (o : MOp) (lee int : Bool) (key : Nat) :
    ((Nat → Nat → Nat) × Nat × Bool × Bool) × Blk :=
  let T := mopRecords o lee
  let ws := b.fetchWords key (513 * T)
  let at_ (w : Nat) : Nat := (ws.1.getD w ⟨0, true⟩).data.toNat
  let sums (i j : Nat) : Nat :=
    let p := recOf o lee i j
    bits (at_ (513 * p.1 + p.2.1 * 8 + p.2.2 / 8)) (32 * (p.2.2 % 8)) 32
  let bad := (List.range T).any fun r =>
    let st := at_ (513 * r + 512)
    let e := recExtent o lee r
    bit st 4 != int || decide (bits st 5 7 < e.1) || decide (bits st 12 7 < e.2)
  let fl := (List.range T).foldl (fun f r => f ||| bits (at_ (513 * r + 512)) 0 4) 0
  ((sums, fl, bad, ws.1.any (·.poison)), ws.2)

/-- The words of the spill records of a tile. DESIGN CHOICE (log entry 123): the sums outside the tile's rows and columns, for which R86
gives no value, are written 0. -/
def spillWords (t : AccTile) (o : MOp) (lee : Bool) : List Nat :=
  let T := mopRecords o lee
  let byRow := lee = false ∧ o.dataflow = 0
  let byCol := lee = false ∧ o.dataflow = 2
  (List.range T).flatMap fun r =>
    let e := recExtent o lee r
    let i0 := if byRow then 64 * r else 0
    let j0 := if byCol then 64 * r else 0
    let at_ (i j : Nat) : Nat := if i < e.1 ∧ j < e.2 then (t.vals.getD (i0 + i) []).getD (j0 + j) 0 else 0
    let word (w : Nat) : Nat := (List.range 8).foldl (fun a q => a + at_ (w / 8) (8 * (w % 8) + q) * 2 ^ (32 * q)) 0
    (List.range 512).map word ++ [t.flags + b2n t.int * 16 + e.1 * 32 + e.2 * 2 ^ 12]

/-! ### MOP -/

/-- Sums of a tile, and of a set. -/
def AccTile.at_ (t : AccTile) (i j : Nat) : Nat := (t.vals.getD i []).getD j 0
def AccSet.at_ (a : AccSet) (i j : Nat) : Nat :=
  match Sp.get none a.vals (64 * i + j), a.drained with
  | some v, _ => v
  | none, none => 0
  | none, some c => (Config.freeWord (c + 64 * i + j)).toNat % 2 ^ 32

/-- Some sum of the first m rows and n columns is poisoned. -/
def AccSet.poisoned (a : AccSet) (m n : Nat) : Bool := a.bad.any fun p => p / 64 < m ∧ p % 64 < n

/-- A tile lands in a set: the sums at bubble rows and columns are not written (R82). -/
def AccSet.land (a : AccSet) (t : AccTile) : AccSet :=
  let ps := (List.range t.rows).flatMap fun i => (List.range t.cols).map fun j => (i, j)
  let out (p : Nat) : Bool := decide (t.rows ≤ p / 64 ∨ t.cols ≤ p % 64)
  { vals := ps.foldl (fun m p => Sp.set none m (64 * p.1 + p.2) (some (t.at_ p.1 p.2))) a.vals,
    bad := a.bad.filter out ++ (if t.poison then ps.map fun p => 64 * p.1 + p.2 else []), flags := t.flags, drained := a.drained }

/-- What a set holds once operation `j` has completed: its sums stay with acc_dst = 2, and otherwise move to the drain registers
(R84), after which the spec gives the set no contents. An operation of another dataflow, or with m or n of 0, uses no set (R89). -/
def AccSet.after (a : AccSet) (j : MatJob) (ctr : Nat) : AccSet :=
  if ¬j.written ∨ j.dataflow ≠ 1 then a else if j.dst = 2 then a.land j.sums else ⟨[], [], 0, some ctr⟩

/-- The resident sums of a set as the operations before this one leave them. -/
def CoreSt.accNow (c : CoreSt) (set ctr : Nat) : AccSet :=
  (c.mats.filter fun j => j.set = set).foldl (fun a j => a.after j ctr) (Sp.get AccSet.init c.acc set)

/-- Compute a matrix operation on core k (R72 to R81, R89). The operands and the starting sums are read at issue. -/
def Blk.mopRun (b : Blk) (k : Nat) (o : MOp) : (AccTile × Bool) × Blk :=
  let lee := isLee k
  let int := mopInt o
  let m := o.m.toNat
  let n := o.n.toNat
  let kk := o.k.toNat
  let die := coreDie k
  let unit := k % 32
  let res := (b.core k).accNow (b2n o.accSet) b.freeCtr
  let none_ : (Nat → Nat → Nat) × Nat × Bool × Bool :=
    if o.accSrc = 1 then (res.at_, res.flags, false, res.poisoned m n)
    else (fun _ _ => if int ∨ kk = 0 then 0 else 2 ^ 31, 0, false, false)
  let src := if o.accSrc = 2 then
      match b.regPlace k o.rc.toNat o.cRel with
      | some key => b.readSpill o lee int key
      | none => ((fun _ _ => 0, 0, false, true), b.addrRange die unit (b.sreg k o.rc.toNat))
    else (none_, if o.accSrc = 1 then { b with freeCtr := b.freeCtr + 4096 } else b)
  let start := src.1.1
  let fl0 := src.1.2.1
  let bad := src.1.2.2.1
  let pois0 := src.1.2.2.2
  let b := src.2
  if kk = 0 then
    let vals := (List.range m).map fun i => (List.range n).map fun j => start i j
    ((⟨int, m, n, vals, fl0, pois0⟩, bad), b)
  else
    let aArr : Arr := ⟨b.regPlace k o.ra.toNat o.aRel, b.regPlace k (o.ra.toNat + 1) o.aRel, o.aFmt.toNat, o.aSign, o.aLayout.toNat⟩
    let bArr : Arr := ⟨b.regPlace k o.rb.toNat o.bRel, b.regPlace k (o.rb.toNat + 1) o.bRel, o.bFmt.toNat, o.bSign, o.bLayout.toNat⟩
    let ar := b.fetchRuns die unit aArr kk m
    let br := ar.2.fetchRuns die unit bArr kk n
    let s := mopSums int (classG (mopClass o)) ar.1.1 br.1.1 start
    let nf := (ar.1.1 ++ br.1.1).any fun r => r.any fun v => !v.finite
    let pois := ar.1.2 || br.1.2
    let b := if pois then br.2.consume k 1 die unit 0 1 else br.2
    ((⟨int, m, n, s.1, fl0 ||| s.2 ||| (if nf then 4 else 0), pois0 || pois⟩, bad), b)

/-- Show MAT_STATUS of core k from its operations (R81). -/
def Blk.showMat (b : Blk) (k : Nat) : Blk :=
  let cd := k / 32
  let s := k % 32
  let js := (b.core k).mats
  let draining (set : Nat) : Bool := js.any fun j => j.dst ≠ 2 ∧ j.dataflow = 1 ∧ j.set = set
  let b := b.wrB (MAT_STATUS.busy cd s) (js ≠ [])
  (b.wrB (MAT_STATUS.set0_draining cd s) (draining 0)).wrB (MAT_STATUS.set1_draining cd s) (draining 1)

def setHeld (b : Blk) (k set : Nat) (v : Bool) : Blk :=
  if set = 0 then b.wrB (MAT_STATUS.set0_held (k / 32) (k % 32)) v else b.wrB (MAT_STATUS.set1_held (k / 32) (k % 32)) v

/-- The effect of MOP at its issue: the engine takes the operation. The detail of EV_SPILL_MISMATCH is free (log entry 9). -/
def Blk.mopStart (b : Blk) (k : Nat) (o : MOp) : Blk :=
  let lee := isLee k
  let m := o.m.toNat
  let n := o.n.toNat
  let time := mopTime o lee
  let df := if lee then 1 else o.dataflow.toNat
  let empty := m = 0 ∨ n = 0
  let r := if empty then (((⟨false, 0, 0, [], 0, false⟩ : AccTile), false), b) else b.mopRun k o
  let b := r.2
  let bad := r.1.2
  let tile := if bad then { r.1.1 with poison := true } else r.1.1
  let job : MatJob :=
    { sums := tile, aborted := bad, written := !empty, dst := o.accDst.toNat, set := b2n o.accSet,
      out := b.regPlace k o.rc.toNat o.cRel, outAddr := b.sreg k o.rc.toNat, desc := b.sreg k o.rd.toNat % 2 ^ 48,
      tile := b.sreg k o.rt.toNat % 2 ^ 16, macs := if bad then 0 else m * n * o.k.toNat, start := b.absCyc k, total := time.total,
      runs := time.runs, drain := time.drain, dataflow := df, cls := mopClass o, counted := true }
  let b := if bad then (b.raiseOpen (coreDie k) (k % 32) 0x0303).hwFail k else b
  let b := b.updCore k fun c => { c with mats := c.mats ++ [job] }
  let b := (b.wr (MAT_STATUS.dataflow (k / 32) (k % 32)) df).wr (MAT_STATUS.class_ (k / 32) (k % 32)) job.cls
  b.showMat k

/-- A guarded-off MOP (R143): its engine runs on bubbles for the operation's full duration, and it delivers and counts nothing. -/
def Blk.mopIdle (b : Blk) (k : Nat) (o : MOp) : Blk :=
  let time := mopTime o (isLee k)
  let df := if isLee k then 1 else o.dataflow.toNat
  let job : MatJob :=
    { sums := ⟨false, 0, 0, [], 0, false⟩, aborted := false, written := false, dst := 2, set := b2n o.accSet, out := none, outAddr := 0,
      desc := 0, tile := 0, macs := 0, start := b.absCyc k, total := time.total, runs := [], drain := (0, 0), dataflow := df,
      cls := mopClass o, counted := false }
  let b := b.updCore k fun c => { c with mats := c.mats ++ [job] }
  ((b.wr (MAT_STATUS.dataflow (k / 32) (k % 32)) df).wr (MAT_STATUS.class_ (k / 32) (k % 32)) job.cls).showMat k

/-- MOP. The guard is that of the context at its issue. -/
def mopFx (i : Issue) (o : MOp) (b : Blk) : Blk :=
  let k := coreKey i.core
  if b.issuing k ∧ WellFormed.mop o ∧ ¬b.guardOn k i.guard then issue { i with guard := ⟨0, false⟩ } true (fun k b => b.mopIdle k o) b
  else issue i (WellFormed.mop o) (fun k b => b.mopStart k o) b

/-- Cycles of a tile's first conversion (R120): a row (or a column) a cycle, and the full set or tile where one drains; and those in
which a result enters the unit. -/
def MatJob.convTime (j : MatJob) : Nat × Nat :=
  if j.dataflow = 0 then (j.sums.rows, j.sums.rows) else if j.dataflow = 2 then (j.sums.cols, j.sums.cols) else (64, j.sums.rows)

/-- Deliver a tile to the output conversion (R112 to R120): whether it completes with aborted status, the cycles of the reserved slot of a
tile under RECOMPUTE with the stall cause they count under (R88), and the state. -/
def Blk.deliverTile (b : Blk) (k : Nat) (j : MatJob) : Bool × (Nat × Nat) × Blk :=
  let dw := b.readDev (j.desc / 32 * 32) 1 (coreDie k) (k % 32)
  let w := dw.1.headD ⟨0, true⟩
  let d := w.data.toNat
  let b := dw.2
  let ok := !w.poison && b.descOk d false
  let b := if w.poison then b.consume k 3 (coreDie k) (k % 32) j.desc 1 else if ok then b else b.badDesc k j.desc
  match j.out with
  | none => (!ok, (0, 0), b.addrRange (coreDie k) (k % 32) j.outAddr)
  | some key =>
    let o := b.outAt d key j.sums.cols
    let els : List ConvEl := (j.sums.vals.zipIdx.map fun r => r.1.zipIdx.map fun c =>
      ConvEl.mk (if j.sums.int then .ofInt (sext 32 c.1) else f32.val c.1) c.2 (o.i0 + r.2 * o.stride + c.2)).flatten
    if !ok || j.aborted then
      (!ok && !w.poison, (0, 0), b.poisonOut d o.key (els.map (·.i)))
    else
      let bias := b.fetchBias k d (List.range j.sums.cols)
      let b := bias.2
      let r := b.convTile d (fun c => (bias.1 c).1) els
      let res := b.residue k 2
      let bad := res.1 || j.sums.poison
      let badEls := if bad then [] else (els.filter fun e => (bias.1 e.j).2).map (·.i)
      let slot := b.recomputes d
      let t := j.convTime
      let b := (res.2.writeConv d o r fun i => bad || badEls.contains i).countConv k d r
      let b := (b.stall k 3 0 t.2).writeTileByte d j.tile r.delta
      if slot then
        let c := if r.delta = 0 then 4 else 10
        (false, (t.1 + 8, c), b.stall k 3 c (t.1 + 8))
      else (false, (0, 0), b)

/-- The stretch of cycles r (first, length) holds cycle t. -/
def inRun (r : Nat × Nat) (t : Nat) : Bool := decide (r.1 ≤ t ∧ t < r.1 + r.2)

/-- Cause under which the matrix engine counts cycle `t` in the span of operation `j` (R88, R165): 0 where some operation forms a valid
product, else the highest of the causes that apply. `drainAt` is when `j`'s results have the output path, `slot` the cycles and cause of
its reconversion slot, which begins at `end_`. -/
def CoreSt.matCause (c : CoreSt) (j : MatJob) (drainAt end_ : Nat) (slot : Nat × Nat) (t : Nat) : Nat :=
  if (j :: c.mats).any fun o => o.runs.any fun r => inRun (o.start + r.1, r.2) t then 0
  else
    let waits := (c.waits.filter fun w => w.1 ≤ t ∧ t < w.2.1).map fun w => w.2.2
    let drain := if j.start + j.drain.1 ≤ t ∧ t < drainAt then [2] else []
    let rec_ := if inRun (end_, slot.1) t then [slot.2] else []
    (waits ++ drain ++ rec_).foldl max 1

/-- Count the cycles of operation `j`, which has left the engine (R165); cycles counted with an operation before it stay as they are. -/
def Blk.countMat (b : Blk) (k : Nat) (j : MatJob) (slot : Nat × Nat) : Blk :=
  let c := b.core k
  let need := j.start + j.drain.1
  let drainAt := if j.drain.2 = 0 then need else max need c.outFree
  let end_ := j.start + j.total + (drainAt - need)
  let stop := end_ + slot.1
  let from_ := max c.matCounted j.start
  let causes := (List.range (stop - from_)).map fun i => c.matCause j drainAt end_ slot (from_ + i)
  let b := (List.range 16).foldl (fun b x => if causes.contains x then b.stall k 1 x (causes.count x) else b) b
  b.updCore k fun c =>
    { c with matCounted := max c.matCounted stop, outFree := if j.drain.2 = 0 then c.outFree else drainAt + j.drain.2 + slot.1,
             waits := if c.mats = [] then [] else c.waits }

/-- Deliver to a spill record: the words land as one write (R86). DESIGN CHOICE (log entry 123): the status word of a poisoned tile is
poisoned with the 512 words of its sums; R88 delivers the flag set unchanged and does not say whether that word is. -/
def Blk.deliverSpill (b : Blk) (k : Nat) (j : MatJob) (ws : List Nat) : Blk :=
  let mw : List MWord := ws.map fun x => ⟨BitVec.ofNat 256 x, j.sums.poison⟩
  match j.out with
  | some key => b.landWords key mw
  | none => b.addrRange (coreDie k) (k % 32) j.outAddr

/-- The instruction fields that the spill layout needs, rebuilt from a job. -/
def MatJob.shape (j : MatJob) : MOp :=
  { aFmt := 0, bFmt := 0, aSign := false, bSign := false, aLayout := 0, bLayout := 0,
    dataflow := BitVec.ofNat 2 j.dataflow, accSrc := 0, accDst := 1, accSet := false, m := BitVec.ofNat 11 j.sums.rows,
    n := BitVec.ofNat 11 j.sums.cols, k := 0, ra := 0, rb := 0, rc := 0, rd := 0, rt := 0, aRel := false, bRel := false,
    cRel := false }

/-- An operation's results go to their destination: whether it is then aborted, the reserved slot, and the state. -/
def Blk.deliver (b : Blk) (k : Nat) (j : MatJob) : Bool × (Nat × Nat) × Blk :=
  if ¬j.written then (false, (0, 0), b)
  else if j.dst = 0 then b.deliverTile k j
  else if j.dst = 1 then (false, (0, 0), b.deliverSpill k j (spillWords j.sums j.shape (isLee k)))
  else (false, (0, 0), b)

/-- MATRIX_OP_COMPLETE: the core's oldest operation delivers its tile and is counted (R81, R87 to R89, R165). -/
def matrixCompleteFx (c : CoreId) (b : Blk) : Blk :=
  let k := coreKey c
  let cd := k / 32
  let s := k % 32
  match (b.core k).mats with
  | [] => b
  | j :: rest =>
    let b := b.updCore k fun c => { c with mats := rest }
    let res := if j.written then b.residue k 0 else (false, b)
    let j := if res.1 then { j with sums := { j.sums with poison := true } } else j
    let b := res.2
    let b := b.setReg (.matFlags cd s) (b.reg (.matFlags cd s) ||| j.sums.flags)
    let r := b.deliver k j
    let aborted := j.aborted || r.1
    let b := r.2.2.countMat k j r.2.1
    let b := (b.incBy (MAT_OPS.count cd s) (b2n j.counted)).incBy (MAT_MACS.count cd s) (if aborted then 0 else j.macs)
    let b := ifB aborted (fun b => b.satBy (MAT_OPS.aborted cd s) 1) b
    let b := if j.written ∧ j.dataflow = 1 then
        setHeld ({ b with freeCtr := b.freeCtr + if j.dst = 2 then 0 else 4096 }.updCore k fun c =>
          { c with acc := Sp.set AccSet.init c.acc j.set ((Sp.get AccSet.init c.acc j.set).after j b.freeCtr) }) k j.set (j.dst = 2)
      else b
    b.showMat k

/-! ### MBAL (R355) -/

/-- The ballast duty in force on core k. -/
def Blk.ballastFrac (b : Blk) (k : Nat) : Nat :=
  let under := (Sp.get none b.ras.running (coreDie k)).any fun r => r.unit.die = coreDie k ∧ r.unit.unit = k % 32 ∧ r.unit.kind = 1
  if ¬b.on PWR_BALLAST.enable ∨ under ∨ 1 ≤ b.rd PWR_THERM_STAT.level then 0 else b.rd PWR_BALLAST.frac

def mbalFx (i : Issue) (n : BitVec 17) (b : Blk) : Blk :=
  let k := coreKey i.core
  if ¬b.issuing k then b
  else
    let cyc := n.toNat + 1
    let f := if b.guardOn k i.guard then b.ballastFrac k else 0
    let busy := cyc / 16 * f + min f (cyc % 16)
    let at_ := b.absCyc k
    let b := issue i true (fun _ b => b) b
    ((b.stall k 1 0 busy).stall k 1 1 (cyc - busy)).updCore k fun c => { c with matCounted := max c.matCounted (at_ + cyc) }

def execMop (i : Issue) (o : MOp) (s : State) := onBlk s (mopFx i o)
def execMatrixOpComplete (c : CoreId) (s : State) := onBlk s (matrixCompleteFx c)
def execMbal (i : Issue) (n : BitVec 17) (s : State) := onBlk s (mbalFx i n)

end Sys2Proof.Machine
end

