-- ==== Sys2Proof/Machine/Coll.lean ====
section
/-!
DEFINITION. The collective engine (10_collectives_commit.md, R234 to R248): packets (R241), the ring, line
and direct algorithms (R242 to R246), conversion of the results (R239), completion and failure (R237, R248).
-/
namespace Sys2Proof.Machine

/-! ### Values -/

def kVal (ix e : Nat) : Nat := ix * 2 ^ 34 + e
def kPart (ix side e : Nat) : Nat := (16 + ix * 2 + side) * 2 ^ 34 + e
def kDir (ix q e : Nat) : Nat := (64 + ix * 32 + q) * 2 ^ 34 + e

def CollRun.val (r : CollRun) (k : Nat) : Nat := (Sp.get 0 r.vals k).toNat
def CollRun.setVals (r : CollRun) (key : Nat → Nat) (e0 : Nat) (vs : List Nat) : CollRun :=
  { r with vals := vs.zipIdx.foldl (fun m v => Sp.set 0 m (key (e0 + v.2)) (BitVec.ofNat 32 v.1)) r.vals }

/-- The source array. -/
def Blk.collSrc (b : Blk) (r : CollRun) : Arr :=
  ⟨b.place r.srcAddr, b.place r.srcScaleAddr, r.srcFmt, r.srcSign, r.srcLayout⟩

/-- What a step of the engine works on: the state, its run, and whether every word could be sent and none was poisoned. -/
structure CollCx where
  b : Blk
  r : CollRun
  ok : Bool
  deriving DecidableEq, Repr

def CollCx.flag (c : CollCx) (fl : Nat) : CollCx := { c with r := { c.r with flags := c.r.flags ||| fl } }

/-- Own FP32 values of elements e0 … of stage `ix` (R238). -/
def CollCx.own (c : CollCx) (ix e0 n : Nat) : List Nat × CollCx :=
  if ix ≠ 0 then ((List.range n).map fun i => c.r.val (kVal ix (e0 + i)), c)
  else
    let f := c.b.fetchElems 0 uColl (c.b.collSrc c.r) e0 n
    let x : Int := if c.r.srcScaled then c.b.xOf c.r.srcTid else 0
    let rs := f.1.1.map fun v => f32.round (v.scale x)
    let c := { c with b := f.2, ok := c.ok && !f.1.2 }
    (rs.map (·.1), c.flag (if rs.any (·.2) then flOverflow else 0))

/-- Round to the wire format and back (R238). -/
def bf16 : FpFmt := ⟨8, 7, 127⟩
def wireCode (wire : Bool) (x : Nat) : Nat := if wire then (bf16.round (f32.val x)).1 else x
def wireVal (wire : Bool) (x : Nat) : Nat := if wire then (f32.round (bf16.val x)).1 else x
def wireW (wire : Bool) : Nat := if wire then 16 else 32

/-! ### Sending (R241) -/

/-- Codes of width `w` as payload words. -/
def packWords (w : Nat) (codes : List Nat) : List MWord :=
  let v := codes.zipIdx.foldl (fun a c => a + (c.1 % 2 ^ w) * 2 ^ (w * c.2)) 0
  (List.range (cdiv (w * codes.length) 256)).map fun i => ⟨BitVec.ofNat 256 (bits v (256 * i) 256), false⟩

def unpackWords (w : Nat) (ws : List MWord) (n : Nat) : List Nat :=
  let v := ws.foldr (fun x a => x.data.toNat + a * 2 ^ 256) 0
  (List.range n).map fun i => bits v (w * i) w

def CollRun.collId (r : CollRun) : Nat := r.lchan + (r.invocation % 1024) * 64

/-- Header fields of a flow's packets. -/
def CollRun.hdrOf (r : CollRun) (b : Blk) (f : Flow) (type dev words : Nat) : Nat :=
  let seq := f.half + f.phase * 2 + f.step * 4 + f.ix * 128
  let mc := if f.hops = 0 then 0 else 2 ^ 54 + f.axis * 2 ^ 55 + b2n (!f.plus) * 2 ^ 57 + f.hops * 2 ^ 58
  mkHdr type f.dst (b.coord 0) 0 words (mc + r.collId * 2 ^ 72 + seq * 2 ^ 88 + dev * 2 ^ 104)

/-- Send one packet of a flow; a port that does not admit C0 fails the collective (R248). -/
def CollCx.sendPkt (c : CollCx) (f : Flow) (type dev : Nat) (ws : List MWord) : CollCx :=
  let h := c.r.hdrOf c.b f type dev ws.length
  let n := axisPort f.axis f.plus
  let ld := if n < 5 then 0 else 1
  let way := if hMc h then Hop.out n h else c.b.hop ld (c.b.rd (ROUTE_EPOCH.active ld)) h 4
  let open_ := match way with
    | .here => true
    | .out m _ => (c.b.groupOf ld m).any fun q => c.b.admits (c.b.physOf ld q) h
    | .lost => false
  let b := c.b.inject ld ⟨BitVec.ofNat 256 h, ws⟩
  let sent := Sp.get 0 c.r.sentW f.key + (if type = 4 then ws.length else 0)
  let b := match b.pchanOf c.r.lchan with
    | some p => b.incBy (COLL_CHAN.words p) ws.length
    | none => b
  { b := b, r := { c.r with sentW := Sp.set 0 c.r.sentW f.key sent }, ok := c.ok && open_ }

/-- Elements per packet: as many whole units of 256 as 256 words hold. -/
def perPkt (w : Nat) : Nat := if w = 0 then 256 else 65536 / w / 256 * 256

/-- Send codes of width `w` as COLL_DATA from element (or byte) offset `e0`. -/
def CollCx.sendData : Nat → CollCx → Flow → Nat → Nat → List Nat → CollCx
  | 0, c, _, _, _, _ => c
  | fuel + 1, c, f, w, e0, codes =>
    if codes = [] then c
    else
      let n := perPkt w
      CollCx.sendData fuel (c.sendPkt f 0x04 e0 (packWords w (codes.take n))) f w (e0 + n) (codes.drop n)

def CollCx.send (c : CollCx) (f : Flow) (w e0 : Nat) (codes : List Nat) : CollCx :=
  CollCx.sendData (codes.length + 1) c f w e0 codes

/-- COLL_SIGNAL of a flow, once. -/
def CollCx.signal (c : CollCx) (f : Flow) : CollCx :=
  if c.r.sigSent.contains f.key then c
  else
    let w := Sp.get 0 c.r.sentW f.key
    let c := c.sendPkt f 0x05 0 [⟨BitVec.ofNat 256 (w % 2 ^ 32 + c.r.collId * 2 ^ 32), false⟩]
    { c with r := { c.r with sigSent := c.r.sigSent ++ [f.key] } }

/-! ### Destination -/

/-- Conversion descriptor of a reduction. -/
def Blk.collDesc (b : Blk) (r : CollRun) : MWord := (b.readDev (r.convAddr / 32 * 32) 1 0 uColl).1.headD ⟨0, true⟩

/-- Format and layout of the destination: the descriptor's for a reduction, else the source's. -/
def Blk.collFmt (b : Blk) (r : CollRun) : Nat × Nat :=
  if r.op = 0 ∨ r.op = 2 then
    let d := (b.collDesc r).data.toNat
    (dFmt d, dLayout d)
  else (r.srcFmt, r.srcLayout)

/-- Place of the destination's scale array: that of the tensor declared there. -/
def Blk.collScale (b : Blk) (r : CollRun) : Option Nat :=
  match b.run.job with
  | some j => match j.tensors.find? fun t => t.elemAddr = r.dstAddr with
    | some t => b.place t.scaleAddr
    | none => none
  | none => none

/-- Bytes per block of a scale array. -/
def scaleStep (layout : Nat) : Nat := if layout = 2 then 2 else 1

/-- Write code `v` at destination element `e`. -/
def Blk.putElem (b : Blk) (r : CollRun) (w e v : Nat) : Blk :=
  match b.place r.dstAddr with
  | some k => b.writeBits k (w * e) w v false
  | none => b

def Blk.putScale (b : Blk) (r : CollRun) (i v : Nat) : Blk :=
  match b.collScale r with
  | some k => b.writeBits (k / 32 * 32) (8 * (k % 32) + 8 * i) 8 v false
  | none => b

/-- Code at element `e` of an array, and byte `i` of a scale array, as they stand. -/
def Blk.codeAt (b : Blk) (a w e : Nat) : Nat :=
  match b.place a with
  | some k => elemBits (fun i => b.byte (k + i)) w e
  | none => 0
def Blk.scaleAt (b : Blk) (k? : Option Nat) (i : Nat) : Nat :=
  match k? with
  | some k => (b.byte (k + i)).toNat
  | none => 0

/-! ### Conversion of results (R239, R135) -/

/-- FP64 sum of squares of a conversion's elements, in the order written (R135). -/
def normAdd (d : Nat) (o : ConvOut) (s : Nat × Nat) : Nat × Nat :=
  o.codes.foldl (fun s c =>
    let v := if dLayout d = 0 then decodeElem (dFmt d) (dSgn d) c.2
      else match o.blocks.find? fun x => x.1 = c.1 / 32 with
        | some x => decodeScaled (dFmt d) (dSgn d) c.2 x.2.1 (if dLayout d = 2 then bits x.2.2 (2 * (c.1 / 8 % 4)) 2 else 0)
        | none => .nan
    let sq := (f64.round (v.mul v)).1
    let r := fpOp f64 0 s.1 sq 0
    (r.val, s.2 ||| r.flags)) s

/-- Convert the results and write them to the destination (R239, R243): after the last reduction stage. -/
def CollCx.convert (c : CollCx) (ix : Nat) : CollCx :=
  let rs := c.b.stageRanges c.r ix
  let n := rangesLen rs
  let vs := c.own ix 0 n
  let c := vs.2
  let dw := c.b.collDesc c.r
  let d := dw.data.toNat
  let local_ (pos : Nat) : Nat :=
    if c.r.op = 0 then ((List.range n).find? fun e => posIn rs e = pos).getD 0 else pos
  if dw.poison then { c with ok := false }
  else if ¬c.b.descOk d false then
    -- the conversion completes aborted, its words poisoned (R113)
    let b := c.b.badDesc c.r.core (c.r.convAddr / 32 * 32)
    let is := (List.range n).map fun e => local_ (posIn rs e)
    { c with ok := false, b := match b.place c.r.dstAddr with
      | some key => b.poisonOut d key is
      | none => b }
  else
    let els := vs.1.zipIdx.map fun v => ConvEl.mk (f32.val v.1) (posIn rs v.2) (posIn rs v.2)
    let bias := c.b.fetchBias c.r.core d (els.map (·.j))
    let c : CollCx := { c with b := bias.2, ok := c.ok && els.all fun e => !(bias.1 e.j).2 }
    let o := c.b.convTile d (fun j => (bias.1 j).1) els
    let w := fmtWidth (dFmt d)
    let b := o.codes.foldl (fun b q => if q.1 < c.r.count then b.putElem c.r w (local_ q.1) q.2 else b) c.b
    let st := scaleStep (dLayout d)
    let b := o.blocks.foldl (fun b x =>
      let i := local_ (32 * x.1) / 32
      let b := b.putScale c.r (st * i) x.2.1
      if st = 2 then b.putScale c.r (2 * i + 1) x.2.2 else b) b
    let b := b.updScale fun z =>
      { z with reports := z.reports ++ [ScaleReport.mk (dTid d) o.captured o.amax o.mark o.vanished o.nonzero] }
    -- the results of a collective are one tile, of index 0 (log entry 127)
    let b := b.writeTileByte d 0 o.delta
    let b := if o.delta = 0 then b else b.countRescale 0 uColl (dTid d) o.delta
    let b := if b.on NUM_CTRL.hartoeg_norm ∧ dGrad d ∧ c.r.norm then
        let s := normAdd d o (b.coll.normSum.toNat, b.coll.normFlags)
        b.updColl fun z => { z with normSum := BitVec.ofNat 64 s.1, normFlags := s.2 }
      else b
    ({ c with b := b }).flag o.flags

/-! ### Stages -/

/-- Counter of the results of the own chunk: half, side. -/
def resKey (ix half side : Nat) : Nat := 2 ^ 20 + ix * 4 + half * 2 + side

/-- What the stage needs to start the next one has arrived. -/
def Blk.stageReady (b : Blk) (r : CollRun) (st : CollStage) : Bool :=
  if st.kind ≠ 0 then (b.inFlows r st).all fun f => decide (f.elems ≤ r.gotOf f.key)
  else
    let pl := b.posLen st.axis
    let n := b.stageLen r st.ix
    [0, 1].all fun h =>
      let len := (chunkRange n pl.2 r.alg h pl.1).2
      match b.lineOf st.axis with
      | some k =>
        let q := lineQ pl.1 k pl.2
        (q = 0 || decide (len ≤ r.gotOf (resKey st.ix h 0))) && (q + 1 = pl.2 || decide (len ≤ r.gotOf (resKey st.ix h 1)))
      | none => decide (len ≤ r.gotOf (resKey st.ix h 0))

/-- Add lists of FP32 values, element by element, with the flags. -/
def addLists (a c : List Nat) : List Nat × Nat :=
  let rs := List.zipWith addF a c
  (rs.map (·.val), rs.foldl (fun f r => f ||| r.flags) 0)

/-- Send own values of chunk `ch` on a flow (step 0 of a reduction). -/
def CollCx.sendOwn (c : CollCx) (f : Flow) (st : CollStage) (half ch : Nat) : CollCx :=
  let pl := c.b.posLen st.axis
  let r := chunkRange (c.b.stageLen c.r st.ix) pl.2 c.r.alg half ch
  if r.2 = 0 then c
  else
    let v := c.own st.ix r.1 r.2
    v.2.send f (wireW c.r.wire) r.1 (v.1.map (wireCode c.r.wire))

/-- Send destination elements e0 … e0 + n − 1 of a stage buffer, and their scale bytes, on a flow. -/
def CollCx.sendDst (c : CollCx) (f : Flow) (rs : List (Nat × Nat)) (e0 n : Nat) : CollCx :=
  let fm := c.b.collFmt c.r
  let w := fmtWidth fm.1
  let c := c.send f w e0 ((List.range n).map fun i => c.b.codeAt c.r.dstAddr w (posIn rs (e0 + i)))
  if fm.2 = 0 then c
  else
    let st := scaleStep fm.2
    let bytes := (List.range (cdiv n 32)).flatMap fun q =>
      (List.range st).map fun j => c.b.scaleAt (c.b.collScale c.r) (st * (posIn rs (e0 + 32 * q) / 32) + j)
    c.send f 8 (2 ^ 47 + st * (e0 / 32)) bytes

/-- Copy own source elements to the destination, source element s + i to destination element d + i. -/
def CollCx.copyOwn (c : CollCx) (s n : Nat) (d : Nat → Nat) : CollCx :=
  let w := fmtWidth c.r.srcFmt
  let b := (List.range n).foldl (fun b i => b.putElem c.r w (d i) (c.b.codeAt c.r.srcAddr w (s + i))) c.b
  let b := if c.r.srcLayout = 0 then b
    else
      let st := scaleStep c.r.srcLayout
      (List.range (cdiv n 32)).foldl (fun b q => (List.range st).foldl (fun b j =>
        b.putScale c.r (st * (d (32 * q) / 32) + j) (c.b.scaleAt (c.b.place c.r.srcScaleAddr) (st * (s / 32 + q) + j))) b) b
  { c with b := b }

/-- The sends that open a stage. -/
def CollCx.startStage (c : CollCx) (st : CollStage) : CollCx :=
  let pl := c.b.posLen st.axis
  let p := pl.1
  let l := pl.2
  let n := c.b.stageLen c.r st.ix
  let nonEmpty (half ch : Nat) : Bool := (chunkRange n l c.r.alg half ch).2 ≠ 0
  match st.kind with
  | 0 =>
    [0, 1].foldl (fun c half => match c.b.lineOf st.axis with
      | none =>
        let plus := halfPlus c.r.alg half
        let ch := if plus then (p + l - 1) % l else (p + 1) % l
        let f := c.b.flowTo st plus half 0 0
        if nonEmpty half ch then (c.sendOwn f st half ch).signal f else c
      | some k =>
        let q := lineQ p k l
        let run (c : CollCx) (plus : Bool) (sel : Nat → Bool) : CollCx :=
          let cs := (List.range l).filter fun ch => sel (lineQ ch k l) && nonEmpty half ch
          let f := c.b.flowTo st plus half 0 0
          if cs = [] then c else (cs.foldl (fun c ch => c.sendOwn f st half ch) c).signal f
        let c := if q = 0 then run c true fun qc => decide (0 < qc) else c
        if q + 1 = l then run c false fun qc => decide (qc + 1 < l) else c) c
  | 1 =>
    let rs := c.b.stageRanges c.r st.ix
    [0, 1].foldl (fun c half =>
      let ch := chunkRange n l c.r.alg half p
      match c.b.lineOf st.axis with
      | none =>
        let f := c.b.flowTo st (halfPlus c.r.alg half) half 1 0
        if ch.2 = 0 then c else (c.sendDst f rs ch.1 ch.2).signal f
      | some k =>
        let q := lineQ p k l
        let go (c : CollCx) (plus on last : Bool) (step : Nat) : CollCx :=
          let f := c.b.flowTo st plus half 1 step
          if ¬on then c
          else
            let c := if ch.2 = 0 then c else c.sendDst f rs ch.1 ch.2
            if last ∧ ch.2 ≠ 0 then c.signal f else c
        go (go c true (q + 1 < l) (q = 0) q) false (0 < q) (q + 1 = l) (l - 1 - q)) c
  | 2 =>
    let v := c.own st.ix 0 n
    let codes := v.1.map (wireCode c.r.wire)
    let c := { v.2 with r := v.2.r.setVals (kDir st.ix p) 0 (codes.map (wireVal c.r.wire)) }
    let hp := match c.b.lineOf st.axis with
      | some k => (l - 1 - lineQ p k l, lineQ p k l)
      | none => (l / 2, cdiv l 2 - 1)
    let go (c : CollCx) (plus : Bool) (hops : Nat) : CollCx :=
      let f := c.b.flowMc st plus 0 hops
      if hops = 0 then c else (c.send f (wireW c.r.wire) 0 codes).signal f
    go (go c true hp.1) false hp.2
  | 3 =>
    if p ≠ c.r.root then c
    else
      let c := c.copyOwn 0 n id
      let rs := c.b.stageRanges c.r st.ix
      let go (c : CollCx) (plus : Bool) (half hops : Nat) : CollCx :=
        let h := halfRange n c.r.alg half
        let f := c.b.flowMc st plus half hops
        if hops = 0 ∨ h.2 = 0 then c else (c.sendDst f rs h.1 h.2).signal f
      match c.b.lineOf st.axis with
      | none => [0, 1].foldl (fun c half => go c (halfPlus c.r.alg half) half (l - 1)) c
      | some k => [0, 1].foldl (fun c half => go (go c true half (l - 1 - lineQ p k l)) false half (lineQ p k l)) c
  | _ =>
    let blk := n / l
    let c := c.copyOwn (p * blk) blk fun i => p * blk + i
    let w := fmtWidth c.r.srcFmt
    (List.range l).foldl (fun c q =>
      if q = p then c
      else
        let f : Flow := ⟨st.axis, true, 0, coordSet (c.b.coord 0) st.axis q, 0, 0, 0, st.ix, q + 1⟩
        let c := c.send f w (q * blk) ((List.range blk).map fun i => c.b.codeAt c.r.srcAddr w (q * blk + i))
        let c := if c.r.srcLayout = 0 then c
          else
            let s := scaleStep c.r.srcLayout
            c.send f 8 (2 ^ 47 + s * (q * blk / 32))
              ((List.range (s * cdiv blk 32)).map fun i => c.b.scaleAt (c.b.place c.r.srcScaleAddr) (s * (q * blk / 32) + i))
        c.signal f) c

/-- Store results of the own chunk for the next stage: lower-half chunk first. -/
def CollCx.putResult (c : CollCx) (st : CollStage) (half e0 : Nat) (vs : List Nat) : CollCx :=
  let pl := c.b.posLen st.axis
  let n := c.b.stageLen c.r st.ix
  let c0 := chunkRange n pl.2 c.r.alg 0 pl.1
  let c1 := chunkRange n pl.2 c.r.alg 1 pl.1
  let o := if half = 0 then e0 - c0.1 else c0.2 + (e0 - c1.1)
  { c with r := c.r.setVals (kVal (st.ix + 1)) o vs }

def CollCx.count (c : CollCx) (k n : Nat) : CollCx := { c with r := { c.r with got := Sp.set 0 c.r.got k (c.r.gotOf k + n) } }

/-- What a finished reduction stage leaves: the line's (left + right) + own, or the direct sum from −0 (R245, R246). -/
def CollCx.closeStage (c : CollCx) (st : CollStage) : CollCx :=
  let pl := c.b.posLen st.axis
  let n := c.b.stageLen c.r st.ix
  match st.kind with
  | 0 => match c.b.lineOf st.axis with
    | none => c
    | some k =>
      let q := lineQ pl.1 k pl.2
      [0, 1].foldl (fun c half =>
        let ch := chunkRange n pl.2 c.r.alg half pl.1
        let side (s : Nat) (on : Bool) : List Nat :=
          (List.range ch.2).map fun i => if on then c.r.val (kPart st.ix s (ch.1 + i)) else 2 ^ 31
        let a := addLists (side 0 (0 < q)) (side 1 (q + 1 < pl.2))
        let o := c.own st.ix ch.1 ch.2
        let z := addLists a.1 o.1
        (o.2.flag (a.2 ||| z.2)).putResult st half ch.1 z.1) c
  | 2 =>
    let sum := (List.range pl.2).foldl (fun s q =>
      let a := addLists s.1 ((List.range n).map fun e => c.r.val (kDir st.ix q e))
      (a.1, s.2 ||| a.2)) (List.replicate n (2 ^ 31), 0)
    ({ c with r := c.r.setVals (kVal (st.ix + 1)) 0 sum.1 }).flag sum.2
  | _ => c

/-! ### Receiving -/

/-- Chunk that holds element `e` of a half. -/
def chunkAt (n l alg half e : Nat) : Nat :=
  ((List.range l).find? fun c => let r := chunkRange n l alg half c; decide (r.1 ≤ e ∧ e < r.1 + r.2)).getD 0

/-- Place the elements of a COLL_DATA packet (R242 to R246). `side` is 0 where the sender lies before this module. -/
def CollCx.place (c : CollCx) (st : CollStage) (half step side src dev : Nat) (ws : List MWord) : CollCx :=
  let pl := c.b.posLen st.axis
  let p := pl.1
  let l := pl.2
  let n := c.b.stageLen c.r st.ix
  let rs := c.b.stageRanges c.r st.ix
  let sp := coordAt src st.axis
  let multi := 2 ≤ st.kind
  let key := match st.kind with
    | 2 | 4 => flowKey st.ix 0 0 0 0 (sp + 1)
    | 3 => flowKey st.ix 0 half 0 0 0
    | _ => flowKey st.ix st.kind half step side 0
  let c := { c with r := { c.r with words := Sp.set 0 c.r.words key (Sp.get 0 c.r.words key + ws.length) } }
  let scale := bit dev 47
  let dev := dev % 2 ^ 47
  let fm := c.b.collFmt c.r
  let w := if st.kind = 0 ∨ st.kind = 2 then wireW c.r.wire else if scale then 8 else fmtWidth fm.1
  let line := c.b.lineOf st.axis
  let e0 := if scale then dev / scaleStep fm.2 * 32 else dev
  let ch := chunkAt n l c.r.alg half e0
  let lim := if multi then n else let r := chunkRange n l c.r.alg half ch; r.1 + r.2
  let cnt := min (256 * ws.length / (max 1 w)) ((if scale then cdiv lim 32 * scaleStep fm.2 else lim) - dev)
  let codes := unpackWords w ws cnt
  let c := if scale then c else c.count key cnt
  match st.kind with
  | 0 =>
    let vs := codes.map (wireVal c.r.wire)
    let own := c.own st.ix dev cnt
    match line with
    | none =>
      let a := addLists vs own.1
      let c := own.2.flag a.2
      if ch = p then (c.putResult st half dev a.1).count (resKey st.ix half 0) cnt
      else c.send (c.b.flowTo st (halfPlus c.r.alg half) half 0 (step + 1)) w dev (a.1.map (wireCode c.r.wire))
    | some k =>
      if lineQ ch k l = lineQ p k l then
        ({ c with r := c.r.setVals (kPart st.ix side) dev vs }).count (resKey st.ix half side) cnt
      else
        let a := addLists vs own.1
        (own.2.flag a.2).send (c.b.flowTo st (side = 0) half 0 (step + 1)) w dev (a.1.map (wireCode c.r.wire))
  | 2 => { c with r := c.r.setVals (kDir st.ix sp) dev (codes.map (wireVal c.r.wire)) }
  | _ =>
    let map (e : Nat) : Nat := if st.kind = 4 then sp * (n / l) + (e - p * (n / l)) else posIn rs e
    let b := codes.zipIdx.foldl (fun b v =>
      if scale then
        let s := scaleStep fm.2
        let i := dev + v.2
        b.putScale c.r (s * (map (i / s * 32) / 32) + i % s) v.1
      else b.putElem c.r w (map (dev + v.2)) v.1) c.b
    let c := { c with b := b }
    let on : Bool := match line with
      | none => decide (step + 2 < l)
      | some k => if side = 0 then decide (lineQ p k l + 1 < l) else decide (0 < lineQ p k l)
    if st.kind = 1 ∧ on then
      let plus := if line.isSome then side = 0 else halfPlus c.r.alg half
      c.sendPkt (c.b.flowTo st plus half 1 (step + 1)) 0x04 (dev + b2n scale * 2 ^ 47) ws
    else c

/-- The stage that a packet's fields name. -/
def Blk.stageOf (b : Blk) (r : CollRun) (ix phase : Nat) : Option (Nat × CollStage) :=
  ((b.collStages r).zipIdx.find? fun s => s.1.ix = ix ∧ (if s.1.kind = 1 then phase = 1 else phase = 0)).map
    fun s => (s.2, s.1)

/-- Take a packet of the run: a reduction packet of a later stage waits until its own values are there. -/
def CollCx.take (c : CollCx) (pkt : RawPacket) : CollCx :=
  let h := pkt.hdr.toNat
  let seq := hChunk h
  let half := bits seq 0 1
  let step := bits seq 2 5
  let src := hSrc h
  match c.b.stageOf c.r (bits seq 7 2) (bits seq 1 1) with
  | none => c
  | some (i, st) =>
    let x := st.axis
    let pl := c.b.posLen x
    let side := match c.b.lineOf x with
      | some k => b2n (lineQ (coordAt src x) k pl.2 ≠ (lineQ pl.1 k pl.2 + pl.2 - 1) % pl.2)
      | none => b2n (!halfPlus c.r.alg half)
    if hType h = 0x05 then
      let w := (pkt.payload.headD ⟨0, true⟩).data.toNat
      let key := match st.kind with
        | 2 | 4 => flowKey st.ix 0 0 0 0 (coordAt src x + 1)
        | 3 => flowKey st.ix 0 half 0 0 0
        | _ => flowKey st.ix st.kind half step side 0
      { c with r := { c.r with sigs := Sp.set none c.r.sigs key (some (bits w 0 32)) } }
    else if c.r.stage < i ∧ st.kind = 0 then { c with r := { c.r with held := c.r.held ++ [pkt] } }
    else c.place st half step side src (hDev h) pkt.payload

/-- Send the signals of the flows that have been carried on whole. -/
def CollCx.signals (c : CollCx) : CollCx :=
  (c.b.collStages c.r).foldl (fun c st =>
    (c.b.inFlows c.r st).foldl (fun c f => match f.next with
      | some g => if c.r.flowDone f ∧ Sp.get 0 c.r.sentW g.key ≠ 0 then c.signal g else c
      | none => c) c) c

/-- Hold the results of a reduction stage, the buffer of the next one, in FP32 at scratch_addr (R243; DEDUCED, log entry 134). -/
def CollCx.scratch (c : CollCx) : CollCx :=
  let n := c.b.stageLen c.r c.r.stage
  let ws := packWords 32 ((List.range n).map fun e => c.r.val (kVal c.r.stage e))
  { c with b := c.b.writeDev (c.r.scratchAddr / 32 * 32) ws 0 uColl }

/-- Number of reduction stages of a run. -/
def Blk.redStages (b : Blk) (r : CollRun) : Nat := if r.op = 0 ∨ r.op = 2 then (b.runAxes r).length else 0

/-- Go on while the stage in progress has what it needs. -/
def CollCx.progress : Nat → CollCx → CollCx
  | 0, c => c
  | fuel + 1, c =>
    let c := c.signals
    match (c.b.collStages c.r)[c.r.stage]? with
    | none => c
    | some st =>
      if ¬c.b.stageReady c.r st then c
      else
        let c := c.closeStage st
        let c := { c with r := { c.r with stage := c.r.stage + 1 } }
        let c := if st.kind ≠ 1 ∧ c.r.stage < c.b.redStages c.r then c.scratch else c
        let c := if c.b.redStages c.r = c.r.stage ∧ st.kind ≠ 1 ∧ st.kind < 3 then c.convert c.r.stage else c
        let c := match (c.b.collStages c.r)[c.r.stage]? with
          | some s => c.startStage s
          | none => c
        let held := c.r.held
        let c := held.foldl CollCx.take { c with r := { c.r with held := [] } }
        CollCx.progress fuel c

/-- Put a run back, or fail it where a word could not be sent or was poisoned (R248). -/
def CollCx.store (c : CollCx) : Blk :=
  if c.ok then c.b.setRun c.r.lchan (some c.r)
  else
    let m := c.b.missing c.r
    c.b.collFail c.r m.1 m.2.1 m.2.2

/-- Every stage is over and every flow has arrived whole. -/
def Blk.collDone (b : Blk) (r : CollRun) : Bool :=
  decide ((b.collStages r).length ≤ r.stage) &&
    (b.collStages r).all fun st => (b.inFlows r st).all r.flowDone

/-! ### Commands -/

/-- Start a run: own data that no stage reduces is placed, the first stage opens, and the packets that have come are taken. -/
def Blk.startRun (b : Blk) (r : CollRun) : Blk :=
  let b := match b.place r.dstAddr with
    | some k => b.openWrite k (cdiv (r.count * fmtWidth (b.collFmt r).1) 256)
    | none => b
  let b := match b.collScale r with
    | some k => b.openWrite (k / 32 * 32) (cdiv (k % 32 + cdiv r.count 32 * scaleStep (b.collFmt r).2) 32)
    | none => b
  let c : CollCx := ⟨b, { r with started := true }, true⟩
  let k := (b.runAxes r).length
  let c := if r.op = 1 then
      let rs := b.rangesAt r (b.runAxes r) k
      c.copyOwn 0 (rangesLen rs) (posIn rs)
    else if r.op ≤ 2 ∧ k = 0 then c.convert 0
    else if 3 ≤ r.op ∧ k = 0 then c.copyOwn 0 r.count id
    else c
  let c := match (c.b.collStages r)[0]? with
    | some st => c.startStage st
    | none => c
  ((r.held.foldl CollCx.take { c with r := { c.r with held := [] } }).progress 16).store

/-- The collective engine's windows for a run are open (R192): on the crossbar, and on the channels of its source and destination. -/
def Blk.collOpen (b : Blk) (r : CollRun) : Bool :=
  match b.pchanOf r.lchan with
  | none => false
  | some p =>
    let way (a : Nat) (write : Bool) : Bool := match b.place a with
      | some key => b.wayOpen (ownColl p) xColl key 1 write
      | none => true
    way r.srcAddr false && way r.dstAddr true

/-- A run that is bound goes on where its windows are open: it starts, or takes the packets it kept; otherwise it waits. -/
def Blk.goOn (b : Blk) (r : CollRun) : Blk :=
  if ¬b.collOpen r then b.setRun r.lchan (some r)
  else if ¬r.started then b.startRun r
  else ((r.held.foldl CollCx.take ⟨b, { r with held := [] }, true⟩).progress 16).store

/-- The run waits for the engine's windows, on channel `ch` or in staging alone. -/
def Blk.collWaits (b : Blk) (ch : Nat) (r : CollRun) : Bool :=
  let at_ (a : Nat) : Option Nat := (b.place a).bind fun key => if key < stageKey then some (chanOf key) else none
  !r.suspended && (!r.started || r.held ≠ []) &&
    (at_ r.srcAddr == some ch || at_ r.dstAddr == some ch || (at_ r.srcAddr == none && at_ r.dstAddr == none))

/-- The collectives that wait for channel `ch` go on. -/
def Blk.collServe (b : Blk) (ch : Nat) : Blk :=
  (b.coll.runs.map (·.1)).foldl (fun b l => match b.run? l with
    | some r => if b.collWaits ch r then b.goOn r else b
    | none => b) b

/-- MEMORY_REQUEST: the channel serves a held request (R192), or a collective that waits for it. -/
def memoryRequestFx (ch : Fin 128) (b : Blk) : Blk := (b.serveChan ch.val).collServe ch.val

/-- Where COLL reads the descriptor at address `a`: while a line variant is in force on an axis that it names, in the variant's step lists, which
replace the image's read-only section (R246, R258). -/
def Blk.stepList (b : Blk) (a : Nat) : Nat :=
  match b.run.job with
  | none => a
  | some j =>
    let axes := bits (b.readWord a).data.toNat 4 4
    let i := (a - j.imageAddr) / 32
    match j.stepLists.find? fun v => bit axes v.1 && (b.lineOf v.1).isSome with
    | some v => if j.imageAddr ≤ a ∧ j.roOff ≤ i ∧ i - j.roOff < v.2.2 then j.imageAddr + 32 * (v.2.1 + (i - j.roOff)) else a
    | none => a

/-- COLL (R234, R236, R237): an unbound channel's collective starts suspended; a fenced or draining channel's fails. -/
def collFx (i : Issue) (rg : BitVec 5) : Blk → Blk :=
  issue i true fun k b =>
    let a := b.sreg k rg.toNat
    let d := b.readDev (b.stepList (a / 32 * 32)) 2 (coreDie k) (k % 32)
    let w0 := d.1.getD 0 ⟨0, true⟩
    let w1 := d.1.getD 1 ⟨0, true⟩
    let b := d.2
    if w0.poison ∨ w1.poison then b.consume k 0 (coreDie k) (k % 32) a 1
    else
      let l := bits w0.data.toNat 8 6
      let n := Sp.get 0 b.coll.invoc l
      let p := b.pchanOf l
      let x := bits w0.data.toNat 4 4
      let fb := (List.range 4).any fun q => bit x q ∧ (b.lineOf q).isSome
      let r : CollRun :=
        { core := k, desc0 := w0.data, desc1 := w1.data, invocation := n, anchorsLeft := bits w0.data.toNat 224 16,
          stage := 0, vals := [], got := [], words := [], sentW := [], sigs := [], sigSent := [], held := [], flags := 0,
          fallback := fb, suspended := p.isNone, started := false }
      let b := b.updColl fun c => { c with invoc := Sp.set 0 c.invoc l ((n + 1) % 1024) }
      let shut := match p with
        | some q => b.coll.fencedCh.contains q || b.coll.drainCh.contains q
        | none => false
      if 5 ≤ r.op ∨ (b.run? l).isSome then b
      else if shut then b.collFail r 0 0 0
      else
        let b := match p with
          | some q => (b.wr (COLL_CHAN.busy q) 1).wr (COLL_CHAN.op q) r.op
          | none => b
        if r.suspended then b.setRun l (some r) else b.goOn r

/-- A packet for the run of its coll_id: unexpected where none is in progress; kept while the run is suspended (R241) or waits for its windows (R192). -/
def Blk.collPkt (b : Blk) (pkt : RawPacket) : Blk :=
  let id := hCollId pkt.hdr.toNat
  match b.run? (id % 64) with
  | none => b.satBy COLL_FAIL.unexpected 1
  | some r =>
    if r.invocation % 1024 ≠ id / 64 then b.satBy COLL_FAIL.unexpected 1
    else if pkt.payload.any (·.poison) then
      let m := b.missing r
      (b.consume r.core 5 0 uColl 0 ((pkt.payload.filter (·.poison)).length)).collFail r m.1 m.2.1 m.2.2
    else if r.suspended then b.setRun r.lchan (some { r with held := r.held ++ [pkt] })
    else b.goOn { r with held := r.held ++ [pkt] }

def collDataFx (pkt : RawPacket) : Blk → Blk := takePkt pkt fun b => b.collPkt pkt

/-- COLL_SIGNAL; detector 0x11 suppresses the next one of a physical channel (R292). -/
def collSignalFx (pkt : RawPacket) : Blk → Blk := takePkt pkt fun b =>
  let p := b.pchanOf (hCollId pkt.hdr.toNat % 64)
  let f := b.fire 0x11 fun i => some (i.arg % 16) = p
  if f.1.isSome then f.2 else b.collPkt pkt

/-- COLLECTIVE_COMPLETE: the status word and the completion of a run whose words have all arrived (R237). -/
def collCompleteFx (ch : Fin 16) (b : Blk) : Blk :=
  if ¬b.on (COLL_CHAN.bound ch.val) then b
  else match b.run? (b.rd (COLL_CHAN.logical ch.val)) with
    | some r => if b.collDone r ∧ ¬r.suspended then (b.collStatus r false 0 0 0).endRun r else b
    | none => b

/-- COLLECTIVE_DEADLINE_EXPIRY: not complete by the release of the deadline anchor (R248). -/
def collDeadlineFx (ch : Fin 16) (b : Blk) : Blk :=
  if ¬b.on (COLL_CHAN.bound ch.val) then b
  else match b.run? (b.rd (COLL_CHAN.logical ch.val)) with
    | some r =>
      if r.anchorsLeft ≠ 0 ∨ b.collDone r then b
      else
        let m := b.missing r
        b.collFail r m.1 m.2.1 m.2.2
    | none => b

def execMemoryRequest (ch : Fin 128) (s : State) := onBlk s (memoryRequestFx ch)
def execColl (i : Issue) (r : BitVec 5) (s : State) := onBlk s (collFx i r)
def execCollData (x : RawPacket) (s : State) := onBlk s (collDataFx x)
def execCollSignal (x : RawPacket) (s : State) := onBlk s (collSignalFx x)
def execCollectiveComplete (c : Fin 16) (s : State) := onBlk s (collCompleteFx c)
def execCollectiveDeadlineExpiry (c : Fin 16) (s : State) := onBlk s (collDeadlineFx c)

end Sys2Proof.Machine
end

