-- ==== Sys2Proof/Machine/Image.lean ====
section
/-!
DEFINITION. The Porop image as the control cluster reads it (07_core_sequencer.md, R152 to R159; R45, R191, R258, R282, R303,
R350): its words in external memory, the section directory, and each section's entries.
-/
namespace Sys2Proof.Machine

/-- An image in memory: its first byte's address and its length in words. -/
structure Img where
  base : Nat
  words : Nat
  deriving DecidableEq, Repr

/-- Word i of an image. -/
def Blk.iw (b : Blk) (g : Img) (i : Nat) : Nat := if i < g.words then (b.readWord (g.base + 32 * i)).data.toNat else 0

/-- Word i of an image is poisoned. -/
def Blk.iwBad (b : Blk) (g : Img) (i : Nat) : Bool := (b.readWord (g.base + 32 * i)).poison

/-- Words [off, off + n) of an image. -/
def Blk.iws (b : Blk) (g : Img) (off n : Nat) : List Nat := (List.range n).map fun i => b.iw g (off + i)

/-- Entries of `w` bits laid from word `off` on, 256 ÷ w to a word. -/
def Blk.ients (b : Blk) (g : Img) (off n w : Nat) : List Nat :=
  (List.range n).map fun i => bits (b.iw g (off + i / (256 / w))) (w * (i % (256 / w))) w

/-! ### Header and directory (R157) -/

def hMagic (h : Nat) : Nat := bits h 0 32
def hMajor (h : Nat) : Nat := bits h 32 8
def hSections (h : Nat) : Nat := bits h 48 16
def hWords (h : Nat) : Nat := bits h 64 48
def hStepNs (h : Nat) : Nat := bits h 112 48
def hTolNs (h : Nat) : Nat := bits h 160 32
def hSpread (h : Nat) : Nat := bits h 192 16
def hContexts (h : Nat) : Nat := bits h 208 4
def hColdOk (h : Nat) : Bool := bit h 212
def hMwBf16 (h : Nat) : Bool := bit h 213
def hHartoeg (h : Nat) : Bool := bit h 214
def hVariants (h : Nat) : Nat := bits h 224 16

/-- A directory entry, with the word that holds it. -/
structure DirEnt where
  type : Nat
  required : Bool
  off : Nat
  len : Nat
  raw : Nat
  at_ : Nat
  deriving DecidableEq, Repr

def DirEnt.of (raw at_ : Nat) : DirEnt := ⟨bits raw 0 16, bit raw 16, bits raw 32 48, bits raw 80 48, raw, at_⟩

/-- `n` directory entries from word `off` on. -/
def Blk.dirAt (b : Blk) (g : Img) (off n : Nat) : List DirEnt :=
  (List.range n).map fun i => DirEnt.of (b.iw g (off + i)) (off + i)

/-- The image's own directory. -/
def Blk.mainDir (b : Blk) (g : Img) : List DirEnt := b.dirAt g 1 (hSections (b.iw g 0))

/-- The entry of a section type; a section that is absent is empty. -/
def secOf (d : List DirEnt) (type : Nat) : DirEnt :=
  match d.find? fun e => e.type = type with
  | some e => e
  | none => ⟨type, false, 0, 0, 0, 0⟩

/-- Replace the sections that `repl` names (R303, R258). -/
def replaceSecs (d repl : List DirEnt) : List DirEnt :=
  (d.filter fun e => ¬repl.any fun r => r.type = e.type) ++ repl

/-! ### Sections -/

/-- Segment table (R152), with the power profile's entry of each segment (R350). -/
def Blk.readSegs (b : Blk) (g : Img) (d : List DirEnt) : List Seg :=
  let s := secOf d 0x0001
  let p := secOf d 0x000F
  let prof := if p.len = 0 then [] else b.ients g (p.off + 1) (bits (b.iw g p.off) 0 32) 64
  (List.range s.len).map fun i =>
    let w := b.iw g (s.off + i)
    let q := prof.getD i 0
    { anchorNs := bits w 0 64, cycles := bits w 64 18, block := bits w 96 16, c0 := bits w 112 4, c1 := bits w 116 4,
      removable := bit w 120, lull := bit w 121, ballast := bit w 122, prologue := bit w 123, guardNs := bits w 128 48,
      powerW := bits q 0 16, ballastW := bits q 16 16 }

/-- Code directory (section 0x0002). -/
def Blk.readCode (b : Blk) (g : Img) (d : List DirEnt) : List CodeDir :=
  let s := secOf d 0x0002
  (List.range s.len).map fun i =>
    let w := b.iw g (s.off + i)
    ⟨bits w 0 16, bits w 16 4, bits w 20 6, bits w 32 48, bits w 80 16⟩

/-- Tensor declarations (R158): one or two words each. -/
def tensorsOf : Nat → List Nat → List Tensor
  | 0, _ => []
  | _, [] => []
  | fuel + 1, w :: rest =>
    let rank := bits w 21 3
    let more := 3 < rank
    let w2 := if more then rest.headD 0 else 0
    let ext := (List.range 3).map (fun i => bits w (160 + 32 * i) 32) ++ (List.range 3).map fun i => bits w2 (32 * i) 32
    { tid := bits w 0 14, fmt := bits w 14 4, sgn := bit w 18, layout := bits w 19 2, grad := bit w 24, master := bit w 25,
      tileScaled := bit w 26, readOnly := bit w 27, scaleEntry := bit w 28, histLen := bits w 29 6 + 1,
      margin := bits w 35 4, xInit := bits w 39 10, elemAddr := bits w 64 48, scaleAddr := bits w 112 48,
      extents := ext.take rank } :: tensorsOf fuel (if more then rest.drop 1 else rest)

def Blk.readTensors (b : Blk) (g : Img) (d : List DirEnt) : List Tensor :=
  let s := secOf d 0x0004
  tensorsOf s.len (b.iws g s.off s.len)

/-- Memory-channel windows (R191). -/
def Blk.readWindows (b : Blk) (g : Img) (d : List DirEnt) : List Window :=
  let s := secOf d 0x0008
  (b.iws g s.off s.len).map fun w =>
    { start := bits w 0 64, len := bits w 64 32, first := bits w 96 7, count := bits w 103 8, prologue := bit w 111,
      owner := bits w 112 16 }

/-- The calendar section (R173): where its entries and records begin, and how many there are. -/
structure CalLayout where
  net : Nat
  netN : Nat
  xbar : Nat
  xbarN : Nat
  recs : Nat
  recsN : Nat
  deriving DecidableEq, Repr

def Blk.calLayout (b : Blk) (g : Img) (s : DirEnt) : CalLayout :=
  let w := if s.len = 0 then 0 else b.iw g s.off
  let nn := bits w 0 32
  let nx := bits w 32 32
  ⟨s.off + 1, nn, s.off + 1 + cdiv nn 2, nx, s.off + 1 + cdiv nn 2 + cdiv nx 2, bits w 64 32⟩

/-- Network and crossbar calendar entries (R173, R171). -/
def netEnt (w : Nat) : NetEnt :=
  { start := bits w 0 17, len := bits w 17 17, die := bits w 34 4, src := bits w 38 6, dst := bits w 44 6, srcLane := bits w 50 5,
    dstLane := bits w 55 5, lanes := bits w 60 3, kind := bits w 63 2, owner := bits w 65 16 }
def xbarEnt (w : Nat) : XbarEnt :=
  { start := bits w 0 17, len := bits w 17 17, src := bits w 34 5, dst := bits w 39 5, srcLane := bits w 44 7, dstLane := bits w 51 7,
    lanes := bits w 58 7, kind := bits w 65 2, owner := bits w 67 16 }

def Blk.readNet (b : Blk) (g : Img) (d : List DirEnt) : List NetEnt :=
  let l := b.calLayout g (secOf d 0x0007)
  (b.ients g l.net l.netN 128).map netEnt
def Blk.readXbar (b : Blk) (g : Img) (d : List DirEnt) : List XbarEnt :=
  let l := b.calLayout g (secOf d 0x0007)
  (b.ients g l.xbar l.xbarN 128).map xbarEnt

/-- Segment records (R173). -/
def Blk.readRecs (b : Blk) (g : Img) (d : List DirEnt) : List CalRec :=
  let l := b.calLayout g (secOf d 0x0007)
  (b.ients g l.recs l.recsN 128).map fun w => ⟨bits w 0 32, bits w 32 32, bits w 64 32, bits w 96 32⟩

/-- Scheduled-event entries (R45). -/
def Blk.readSched (b : Blk) (g : Img) (d : List DirEnt) : List SchedImg :=
  let s := secOf d 0x000B
  if s.len = 0 then []
  else (b.ients g (s.off + 1) (bits (b.iw g s.off) 0 16) 128).map fun w =>
    { offset := bits w 0 64, action := bits w 64 8, prologue := bit w 72, repeats := bit w 73, arg := bits w 96 32 }

/-- Grid variants (R303): number, directory, unserved mask. -/
structure GridVar where
  number : Nat
  n : Nat
  off : Nat
  mask : Nat
  raw : Nat
  deriving DecidableEq, Repr

def Blk.readVariants (b : Blk) (g : Img) (d : List DirEnt) : List GridVar :=
  let s := secOf d 0x000D
  if s.len = 0 then []
  else (List.range (bits (b.iw g s.off) 0 16)).map fun i =>
    let at_ := s.off + 1 + 3 * i
    let w := b.iw g at_
    ⟨bits w 0 16, bits w 16 16, bits w 32 48, b.iw g (at_ + 1) + b.iw g (at_ + 2) * 2 ^ 256, w⟩

/-- The topology section (R282): word 0 and the tolerance entries. -/
def Blk.readTopo (b : Blk) (g : Img) (d : List DirEnt) : Nat × List Toler :=
  let s := secOf d 0x000C
  let w0 := b.iw g s.off
  (w0, (b.ients g (s.off + 1) (bits w0 64 16) 128).map fun e => ⟨bits e 0 20, bit e 20, bits e 21 10⟩)

/-! ### The collective section (R258) -/

def Blk.readShards (b : Blk) (g : Img) (s : DirEnt) : List Shard :=
  (b.ients g (s.off + 2) (bits (b.iw g s.off) 0 11) 128).map fun e => ⟨bits e 0 32, bits e 32 32, bits e 64 16⟩

/-- First word of the bindings, and of the line variants. -/
def Blk.bindOff (b : Blk) (g : Img) (s : DirEnt) : Nat := s.off + 2 + cdiv (bits (b.iw g s.off) 0 11) 2
def Blk.lineOff (b : Blk) (g : Img) (s : DirEnt) : Nat := b.bindOff g s + cdiv (bits (b.iw g s.off) 16 16) 4

def Blk.readBindings (b : Blk) (g : Img) (s : DirEnt) : List Binding :=
  (b.ients g (b.bindOff g s) (bits (b.iw g s.off) 16 16) 64).map fun e =>
    ⟨bits e 0 16, bits e 16 6, bits e 22 4, bit e 26⟩

def Blk.readLines (b : Blk) (g : Img) (s : DirEnt) : List LineVar :=
  (b.iws g (b.lineOff g s) (bits (b.iw g s.off) 40 8)).map fun w => ⟨bits w 0 2, bits w 2 5, bits w 7 16, bits w 23 48⟩

/-- The words of a section. -/
def Blk.secWords (b : Blk) (g : Img) (s : DirEnt) : List Word := (b.iws g s.off s.len).map (BitVec.ofNat 256)

/-- Prologue length (R152): the offset of the last prologue anchor. -/
def prologueLen (segs : List Seg) : Nat := (segs.filter (·.prologue)).foldl (fun m s => max m s.anchorNs) 0

/-- The job that an image declares under directory `d`, starting at `t`. -/
def Blk.readJob (b : Blk) (g : Img) (d : List DirEnt) (t : Nat) : Job :=
  let h := b.iw g 0
  let segs := b.readSegs g d
  let c := secOf d 0x000A
  let c0 := if c.len = 0 then 0 else b.iw g c.off
  let c1 := if c.len = 0 then 0 else b.iw g (c.off + 1)
  let ctx := secOf d 0x0006
  let vc := b.secWords g (secOf d 0x0009)
  { imageAddr := g.base, words := g.words, stepNs := hStepNs h, prologueNs := prologueLen segs, tStart := t, segs := segs,
    code := b.readCode g d, tensors := b.readTensors g d, windows := b.readWindows g d, net := b.readNet g d,
    xbar := b.readXbar g d, calRecs := b.readRecs g d, sched := b.readSched g d,
    shards := if c.len = 0 then [] else b.readShards g c, bindings := if c.len = 0 then [] else b.readBindings g c,
    lines := if c.len = 0 then [] else b.readLines g c, reduceSeg := bits c0 64 16, prepareSeg := bits c0 80 16,
    voteSeg := bits c0 96 16, voteWindow := bits c0 112 32, slotA := bits c1 0 48, slotB := bits c1 48 48, slotLen := bits c1 96 48,
    scaleOff := bits c1 144 48, chanRec := bits c1 192 48,
    part0 := BitVec.ofNat 256 (if ctx.len = 0 then 0 else b.iw g ctx.off),
    part1 := BitVec.ofNat 256 (if ctx.len = 0 then 0 else b.iw g (ctx.off + 1)), spreadPpm := hSpread h,
    vcPrograms := readPrograms vc, vcIndex := Config.vcIndex vc, roOff := (secOf d 0x0005).off, stepLists := [] }

/-- Segment table index of step segment `n` (R258 counts the step's segments). -/
def Job.stepSeg (j : Job) (n : Nat) : Nat := (j.segs.filter (·.prologue)).length + n

/-- An image with no collective section has no commit timeline. -/
def Job.commits (j : Job) : Bool := j.shards ≠ []

/-- The segment at a table index. -/
def Job.seg (j : Job) (n : Nat) : Seg := j.segs.getD n ⟨0, 0, 0, 0, 0, false, false, false, false, 0, 0, 0⟩

/-- The segment has a code object for a site. -/
def Job.codeFor (j : Job) (n k : Nat) : Option CodeDir :=
  j.code.find? fun c => c.block = (j.seg n).block ∧ c.cd = k / 32 ∧ c.site = k % 32

end Sys2Proof.Machine
end

