-- ==== Sys2Proof/Machine/Commit.lean ====
section
/-!
DEFINITION. The step commit (10_collectives_commit.md, R249 to R257, R395): the vote word and the barrier, the shards and
shard 0, the outcome at the flip with the scale table's part in it (R127 to R133), doubt and its recovery, line notices
(R247), and the packets delivered to the hub (R213).
-/
namespace Sys2Proof.Machine

/-! ### Votes at the flip (R151, R395) -/

/-- SEQ_VOTE returns to 0. -/
def Blk.clearVotes (b : Blk) : Blk :=
  let b := allCores.foldl (fun b k => b.setReg (.seqVote (k / 32) (k % 32)) 0) b
  b.updVote fun v => { v with modFail := false }

/-- The freeze ends, and what was held applies to the next attempt. -/
def Blk.applyHeld (b : Blk) : Blk :=
  let v := b.vote
  let b := b.updVote fun x =>
    { x with frozen := false, heldModFail := false, heldVote := [], heldHw := [], modFail := x.modFail || x.heldModFail }
  let b := v.heldVote.foldl (fun b e => b.setVote e.1 (bits e.2 0 2) (bits e.2 2 8)) b
  v.heldHw.foldl Blk.hwFail b

/-! ### Shard 0: the scale section (R129, R253) -/

/-- Base address of the slot that PREPARE writes. -/
def Blk.inactiveSlot (b : Blk) (j : Job) : Nat := if b.journal.active = 0 then j.slotB else j.slotA

/-- Write the words of entry `t` of a scale section at `key`. The copy is what the flip makes active, so it holds the
countdown after that flip (R131). -/
def Blk.putScaleEntry (b : Blk) (key t : Nat) (e : ScaleEnt) : Blk :=
  let ws := ({ e with coldLeft := e.coldLeft - 1 } : ScaleEnt).words
  b.writeWords (key + 32 * (1 + 9 * t)) (ws.map fun w => ⟨BitVec.ofNat 256 w, false⟩)

/-- Words of a scale section. -/
def scaleWords : Nat := 147457

/-- Step 1 of R253: every entry of the active bank, under the step that a commit makes the committed one (R130). -/
def Blk.writeShard0 (b : Blk) : Blk :=
  match b.run.job with
  | none => b
  | some j =>
    match b.place (b.inactiveSlot j + j.scaleOff) with
    | none => b
    | some key =>
      let b := b.openWrite key scaleWords
      let hdr := 0x5CA1E5EC + (b.rd NUM_STEP.step + 1) % 2 ^ 32 * 2 ^ 32 + b.validIds.length % 2 ^ 16 * 2 ^ 64
      let b := b.writeWord key ⟨BitVec.ofNat 256 hdr, false⟩
      (List.range 16384).foldl (fun b t => b.putScaleEntry key t (b.entry t)) b

/-- Step 2 of R253: the entries that the background has rebuilt are written again. -/
def Blk.rewriteShard0 (b : Blk) : Blk :=
  match b.run.job with
  | none => b
  | some j =>
    match b.place (b.inactiveSlot j + j.scaleOff) with
    | none => b
    | some key =>
      if b.scale.rebuilt = [] then b
      else b.scale.rebuilt.foldl (fun b t => b.putScaleEntry key t (Sp.get ScaleEnt.init (b.bank true) t))
        (b.openWords key (b.scale.rebuilt.flatMap fun t => (List.range 9).map (· + 1 + 9 * t)))

/-- PENDING_SET_LATCH, in PREPARE with step 1 of R253. -/
def latchFx (b : Blk) : Blk := if b.latchDue then (pendingLatchFx b).writeShard0 else pendingLatchFx b

/-- In PREPARE: the instant at which the step's rebuild stops, 2 µs before the release of shard 0's anchor (R128, R253). -/
def Blk.rebuildLimit (b : Blk) : Option Nat :=
  match b.run.job with
  | some j => if b.journal.phase = phPrepare then
      j.shards.head?.map fun s => b.run.stepStart + (j.seg (j.stepSeg s.seg)).anchorNs + 40 - 2000
    else none
  | none => none

/-- SCALE_REBUILD_STOP, from that instant on. -/
def stopRebuildFx (n : Nat) (b : Blk) : Blk :=
  if b.on NUM_TABLE_STAT.rebuilding ∧ b.rebuildLimit.any (fun t => decide (t ≤ b.now)) then (rebuildStopFx n b).rewriteShard0 else b

/-- SCALE_REBUILD_COMPLETE: in PREPARE no later than that instant; a rebuild of a lull window writes no shard (R128). -/
def endRebuildFx (b : Blk) : Blk :=
  if ¬b.on NUM_TABLE_STAT.rebuilding then b
  else match b.rebuildLimit with
    | some t => if b.now ≤ t then (rebuildCompleteFx b).rewriteShard0 else b
    | none => rebuildCompleteFx b

/-! ### The scale table at the flip (R128, R131 to R133) -/

/-- Events of the monitors of a rebuilt gradient-class entry. -/
def Blk.monitors (b : Blk) (t : Nat) (old new : ScaleEnt) : Blk :=
  if ¬new.grad then b
  else
    let th := b.rd NUM_MONITOR_CFG.dead_threshold
    let fr := b.rd NUM_MONITOR_CFG.vanish_frac
    let dead := th ≠ 0 ∧ old.deadRun < new.deadRun ∧ new.deadRun % th = 0
    let b := ifB dead (fun b => b.raise 0 uScale 0x0202 (t + new.deadRun * 2 ^ 14)) b
    let van := fr ≠ 0 ∧ b.rd NUM_MONITOR_CFG.vanish_min ≤ new.nonzero ∧ fr * new.nonzero ≤ new.vanished * 65536
    ifB van (fun b => b.raiseOpen 0 uScale 0x0203) b

/-- The shadow bank becomes active (commit or skip), or is discarded (fail). -/
def Blk.flipScale (b : Blk) (out : Nat) : Blk :=
  let done (b : Blk) : Blk := (b.updScale fun s => { s with latched := none, rebuilt := [] }).wr NUM_TABLE_STAT.rebuilding 0
  if out = 3 then done b
  else
    let act := b.bank false
    let sh := b.bank true
    let hit := b.scale.rebuilt
    let lat := b.scale.latched.getD []
    let copied := b.validIds.filter fun t => ¬hit.contains t
    let new := act.foldl (fun m e =>
      let x := if hit.contains e.1 then Sp.get ScaleEnt.init sh e.1 else e.2
      Sp.set ScaleEnt.init m e.1 { x with coldLeft := x.coldLeft - 1 }) []
    let b := copied.foldl (fun b t => b.addPending t (Sp.get PendSet.init lat t)) b
    let b := (b.setBank true new).wr NUM_TABLE_STAT.active_bank (1 - b.rd NUM_TABLE_STAT.active_bank)
    let b := hit.foldl (fun b t => b.monitors t (Sp.get ScaleEnt.init act t) (Sp.get ScaleEnt.init new t)) b
    let b := if copied = [] then b
      else (b.satBy NUM_TABLE_STAT.partial_flips 1).raise 0 uScale 0x0205 copied.length
    let b := if new.any (fun e => e.2.valid && decide (e.2.coldLeft ≠ 0)) then b else b.wr NUM_CTRL.cold_scale 0
    done b

/-! ### The outcome (R255, R256, R395) -/

/-- Apply an outcome: 1 commit, 2 skip, 3 fail. Roll-forward and roll-back of a doubt are a commit and a fail. -/
def Blk.applyOutcome (b : Blk) (out : Nat) : Blk :=
  let b := (b.clearVotes.applyHeld.flipScale out).msix 3
  let j := b.journal
  let step := if out = 1 then (j.step + 1) % 2 ^ 32 else j.step
  let att := if out = 1 then 0 else (j.attempt + 1) % 256
  let slot := if out = 1 then 1 - j.active else j.active
  let b := (b.wr NUM_STEP.step step).wr NUM_STEP.attempt att
  let b := b.updColl fun c => { c with answer := none, doubtSince := 0 }
  b.writeJournal fun x =>
    { x with step := step, attempt := att, phase := 5, active := slot, outcome := out, inDoubt := false }

/-- End of the lull window after a flip: the closing anchor of the image's lull segments, or 200 µs (R255). -/
def Blk.lullEndOf (b : Blk) (tFlip : Nat) : Nat :=
  match b.run.job with
  | none => tFlip + 200000
  | some j =>
    let lulls := ((j.segs.drop b.run.seg).filter fun s => s.lull && !s.prologue).map (·.anchorNs)
    if lulls = [] then tFlip + 200000 else b.run.stepStart + lulls.foldl max 0

/-- A stop waits for the first flip at or after its instant (R286): that flip takes the module to DRAIN. -/
def Blk.stopAtFlip (b : Blk) (t : Nat) : Blk :=
  match b.run.stopAt with
  | some s =>
    if b.dstate = stRun ∧ s ≤ t then
      let e := b.lullEndOf t
      (b.updRun fun r => { r with stopAt := none, lullEnd := some e }).enter stDrain
    else b
  | none => b

/-- Another attempt in doubt (R256). -/
def Blk.countDoubt (b : Blk) : Blk :=
  let n := b.coll.doubtSince + 1
  let b := b.updColl fun c => { c with doubtSince := n }
  if n = max 1 (b.rd COLL_CFG.doubt_attempts) then b.raiseOpen 0 uColl 0x0602 else b

/-- The flip at T_flip: the outcome of the barrier, or doubt where there is none. A module in doubt makes no flip; what
its votes held applies. Either way the near caches are cleared (R184). -/
def Blk.flipAt (b : Blk) (t : Nat) : Blk :=
  let b := b.clearAllNc
  if b.journal.inDoubt then b.applyHeld.countDoubt
  else if b.coll.complete then
    let b := b.updColl fun c => { c with barrierOn := false, complete := false }
    (b.applyOutcome b.journal.outcome).stopAtFlip t
  else
    let b := (b.writeJournal fun j => { j with inDoubt := true }).applyHeld
    (b.updColl fun c => { c with answer := none, doubtSince := 0, lastQuery := 0, barrierOn := false }).countDoubt

/-! ### The vote barrier (R249 to R251) -/

/-- The attempt's journal is live: its phases are being recorded. An attempt that began in doubt has none. -/
def Blk.attemptLive (b : Blk) : Bool := !b.journal.inDoubt && decide (b.journal.phase ≤ 2)

/-- S_machine (R33): 1.5 ns for each hop of the machine's diameter, in whole nanoseconds. -/
def Blk.sMachine (b : Blk) : Nat := cdiv (3 * ((List.range 4).map fun x => b.axLen 0 x / 2).sum) 2

/-- Position of this module, and the axis, of barrier stage s. -/
def Blk.stageAxis (b : Blk) (s : Nat) : Nat := (b.order 0).getD s 0

/-- Number of an attempt, as VOTE packets name it. -/
def Blk.attemptId (b : Blk) : Nat := b.rd NUM_STEP.step * 256 + b.rd NUM_STEP.attempt

/-- Send a VOTE out of both ports of an axis, with a hop budget each way (R250); the budget travels in mc_hops. -/
def Blk.sendVote (b : Blk) (n hops payload : Nat) : Blk :=
  b.sendNeighbour n 0x11 [⟨BitVec.ofNat 256 payload, false⟩] (hops * 2 ^ 58)

/-- Open barrier stage s with the current value: own value kept, early values taken, and the value sent. -/
def Blk.openStage (b : Blk) (s : Nat) : Blk :=
  let x := b.stageAxis s
  let l := b.axLen 0 x
  let p := coordAt (b.coord 0) x
  let v := b.coll.value
  let id := b.attemptId
  let early := (b.coll.early.filter fun e => e.1 = s).map fun e => (s, e.2.1, e.2.2.1)
  let b := b.updColl fun c =>
    { c with stage := s, votes := c.votes ++ [(s, p, v)] ++ early, early := c.early.filter fun e => e.1 ≠ s }
  if l ≤ 1 then b
  else
    let pay := v % 2 ^ 64 + (id / 256) % 2 ^ 32 * 2 ^ 64 + id % 256 * 2 ^ 96 + s * 2 ^ 104 + p * 2 ^ 106
    (b.sendVote (axisPort x true) (l - 1) pay).sendVote (axisPort x false) (l - 1) pay

/-- First value kept from position p in stage s. -/
def CollSt.voteOf (c : CollSt) (s p : Nat) : Option Nat :=
  (c.votes.find? fun v => v.1 = s ∧ v.2.1 = p).map (·.2.2)

/-- Combine vote words: [31:0] by AND, [63:32] by OR (R249). -/
def combineVotes (a c : Nat) : Nat := (bits a 0 32 &&& bits c 0 32) + (bits a 32 32 ||| bits c 32 32) * 2 ^ 32

/-- Outcome of a combined vote word (R249). -/
def outcomeOf (w : Nat) : Nat := if bit w 33 ∨ ¬bit w 0 then 3 else if bit w 32 then 2 else 1

/-- Every stage is complete: the outcome (R250, R255). -/
def Blk.barrierDone (b : Blk) : Blk :=
  let w := b.coll.value
  let b := b.setReg .collVote w
  let b := b.updColl fun c => { c with complete := !b.journal.inDoubt && c.barrierOn }
  if b.coll.complete then b.writeJournal fun j => { j with phase := 4, outcome := outcomeOf w } else b

/-- Go on while the stage in progress holds every position's value. -/
def Blk.advanceBarrier : Nat → Blk → Blk
  | 0, b => b
  | fuel + 1, b =>
    let s := b.coll.stage
    if 4 ≤ s then b
    else
      let l := b.axLen 0 (b.stageAxis s)
      let vs := (List.range l).map fun p => b.coll.voteOf s p
      if vs.any (·.isNone) then b
      else
        let v := (vs.map (·.getD 0)).foldl combineVotes (2 ^ 32 - 1)
        let b := b.updColl fun c => { c with value := v, stage := s + 1 }
        let b := b.wr COLL_STATUS.stages_done (b.rd COLL_STATUS.stages_done ||| 2 ^ s)
        if s = 3 then b.barrierDone else (b.openStage (s + 1)).advanceBarrier fuel

/-- The vote word that the module forms (R249); a module whose attempt began in doubt votes fail (R256). -/
def Blk.voteWord (b : Blk) (vote : Nat) : Nat :=
  let prepared := (List.range b.journal.shards).all b.journal.bitmap.contains
  b2n prepared + 0xFFFFFFFE + 2 ^ 32 * b2n (vote = 1) + 2 ^ 33 * b2n (vote = 2 ∨ b.journal.inDoubt)
    + 2 ^ 34 * b2n b.vote.nonfinite + 2 ^ 35 * b2n b.vote.linkLost + 2 ^ 36 * b2n b.journal.inDoubt

/-- A skip whose cause is the non-finite one (R136). -/
def Blk.nonfiniteVote (b : Blk) : Bool :=
  allCores.any fun k => b.rd (SEQ_VOTE.vote (k / 32) (k % 32)) = 1
    ∧ b.rd (SEQ_VOTE.cause (k / 32) (k % 32)) = Config.nonfiniteCause.toNat

/-- The release of T_vote: votes freeze, action 0x01 is placed at T_flip, the vote word is formed and sent (R255). -/
def Blk.startVote (b : Blk) (j : Job) (tVote : Nat) : Blk :=
  let live := b.attemptLive
  let vote := if live then b.moduleVote else 2
  let nf := vote = 1 ∧ b.nonfiniteVote
  let b := ifB nf (fun b => b.raiseOpen 0 uDie 0x0204) b
  let b := b.updVote fun v => { v with frozen := true, nonfinite := nf }
  let w := b.voteWord vote
  let b := (b.updVote fun v => { v with linkLost := false }).setReg .collVoteOwn w
  let tFlip := tVote + j.voteWindow + b.sMachine + 2000
  let b := (b.placeSched 0x01 0 tFlip).2
  let b := if live then b.writeJournal fun x => { x with phase := 3, ownVote := vote, tFlip := tFlip } else b
  let b := b.updColl fun c =>
    { c with barrierOn := true, complete := false, value := w, votes := [], stage := 0, voteId := b.attemptId }
  ((b.wr COLL_STATUS.stages_done 0).openStage 0).advanceBarrier 8

/-- VOTE_PACKET (R250): kept, discarded as a duplicate, or kept for a barrier that has not begun; forwarded with one hop
less while the budget lasts. -/
def votePacketFx (p : Port) (pkt : RawPacket) : Blk → Blk := takePktIf (fun b x => b.linkOut x.ld && x.inPort / 8 == p.val) pkt fun b =>
  let w := (pkt.payload.headD ⟨0, true⟩)
  let v := w.data.toNat
  let n := b.logicalOf p.val
  let hops := hMcHops pkt.hdr.toNat
  let b := if 1 < hops ∧ axisOf n < 4 then b.sendVote (axisPort (axisOf n) (!isPlus n)) (hops - 1) v else b
  let s := bits v 104 2
  let pos := bits v 106 5
  let id := bits v 64 32 * 256 + bits v 96 8
  let val := bits v 0 64
  if w.poison then b
  else if b.coll.barrierOn then
    if s < b.coll.stage ∨ (b.coll.voteOf s pos).isSome then b
    else if s = b.coll.stage then
      (b.updColl fun c => { c with votes := c.votes ++ [(s, pos, val)] }).advanceBarrier 8
    else if b.coll.early.any (fun e => e.1 = s && e.2.1 == pos) then b
    else b.updColl fun c => { c with early := c.early ++ [(s, pos, val, id / 256, id % 256)] }
  else if id = b.coll.voteId ∨ b.coll.early.any (fun e => e.1 = s && e.2.1 == pos) then b
  else b.updColl fun c => { c with early := c.early ++ [(s, pos, val, id / 256, id % 256)] }

/-! ### Doubt (R256) -/

/-- What the journal answers a query: 0 unknown, 1 commit, 2 not committed. -/
def Journal.answer (j : Journal) (step att : Nat) : Nat :=
  if j.step = step ∧ j.attempt = att then
    if j.phase ≤ 2 then 2
    else if j.phase = 3 then (if j.ownVote = 1 ∨ j.ownVote = 2 then 2 else 0)
    else if j.phase = 4 then (if j.outcome = 1 then 1 else 2)
    else 2
  else if j.step = step then 2
  else if j.step = (step + 1) % 2 ^ 32 then 1
  else if j.step < step then 2
  else 0

/-- OUTCOME_QUERY: answered from the journal, or, after a trip, from its always-on copy (R359). -/
def outcomeQueryFx (p : Port) (step : BitVec 32) (att : BitVec 8) (b : Blk) : Blk :=
  if ¬b.pLive p.val then b
  else
    let j := b.coll.jcopy.getD b.journal
    b.emit (.ctrl p.val 3 [step.toNat, att.toNat, j.answer step.toNat att.toNat])

/-- OUTCOME_ANSWER: the first definite answer is kept for the next anchor release. -/
def outcomeAnswerFx (p : Port) (step : BitVec 32) (att : BitVec 8) (a : BitVec 2) (b : Blk) : Blk :=
  let j := b.journal
  if b.pLive p.val ∧ j.inDoubt ∧ b.coll.answer.isNone ∧ j.step = step.toNat ∧ j.attempt = att.toNat
      ∧ (a = 1 ∨ a = 2) then
    b.updColl fun c => { c with answer := some a.toNat }
  else b

/-- OUTCOME_QUERY_SEND: every 20 µs, on every port in UP, DEGRADED or CALM. -/
def querySendFx (b : Blk) : Blk :=
  let t := b.coll.lastQuery
  if ¬b.journal.inDoubt ∨ (t ≠ 0 ∧ b.now < t + 20000) then b
  else
    let q := [b.journal.step, b.journal.attempt]
    let b := (List.range 10).foldl (fun b p => if b.pLive p then b.emit (.ctrl p 2 q) else b) b
    b.updColl fun c => { c with lastQuery := b.now }

/-- Resolve a doubt: 1 rolls forward, 2 rolls back. In RUN the attempt in progress began in doubt and votes fail. -/
def Blk.resolve (b : Blk) (how : Nat) : Blk :=
  let b := b.applyOutcome (if how = 1 then 1 else 3)
  let b := ifB (b.dstate = stRun) Blk.modFail b
  b.stopAtFlip b.now

/-- An in-doubt module applies its answer at an anchor release. -/
def Blk.resolveAtAnchor (b : Blk) : Blk :=
  match b.coll.answer with
  | some a => if b.journal.inDoubt then b.resolve a else b
  | none => b

/-! ### Line notices (R247) -/

/-- The axis has a second break: no variant serves it. -/
def Blk.otherBreak (b : Blk) (x k : Nat) : Bool :=
  (match b.lineOf x with
    | some q => decide (q ≠ k)
    | none => false) || b.coll.notes.any fun n => n.axis = x && n.k != k

/-- LINE_NOTICE: recorded, and forwarded away from the break until the line's end. -/
def lineNoticeFx (p : Port) (axis : Fin 4) (k : BitVec 5) (instant : BitVec 64) (b : Blk) : Blk :=
  let x := axis.val
  let n := b.logicalOf p.val
  let l := b.axLen 0 x
  if ¬b.pLive p.val ∨ axisOf n ≠ x ∨ l ≤ k.toNat then b
  else
    let q := lineQ (coordAt (b.coord 0) x) k.toNat l
    let b := ifB (b.otherBreak x k.toNat) (fun b => b.cause CTL_STATE.no_variant true) b
    let note : LineNote := ⟨x, k.toNat, instant.toNat⟩
    let late := decide (b.locked ∧ instant.toNat ≤ b.run.stepStart)
    let b := ifB (late && !b.coll.notes.contains note) Blk.modFail b
    let b := b.updColl fun c => { c with notes := addNew c.notes note }
    let last := if isPlus n then q = 0 else q + 1 = l
    if last then b else b.emit (.ctrl (axisPort x (!isPlus n)) 1 [x, k.toNat, instant.toNat])

/-! ### Delivered packets (R213) -/

/-- Link remote service can access `n` words at device address `a` for link die `ld` now: a window on the crossbar between the die and the
memory, on the memory's channel, and no refresh in the way; what lies beyond the ranges needs only the way to the hub (R172, R174, R197,
R213). -/
def Blk.serviceOpen (b : Blk) (a n : Nat) (write : Bool) (ld : Nat) : Bool :=
  match b.place a with
  | some key => b.wayOpen (ownLink ld) (16 + ld) key n write
  | none => b.linkOut ld

/-- WRITE_PACKET: the payload lands at dev_addr, in link remote service's windows. -/
def writePacketFx (pkt : RawPacket) (b : Blk) : Blk :=
  takePktIf (fun b x => b.serviceOpen (hDev pkt.hdr.toNat) pkt.payload.length true x.ld) pkt
    (fun b => b.writeDev (hDev pkt.hdr.toNat) pkt.payload 0 uXbar) b

/-- READ_REQ: the words asked for, in a READ_RESP to the source with the tag and the address echoed; in link remote service's
windows. -/
def readReqFx (pkt : RawPacket) (b : Blk) : Blk :=
  let h := pkt.hdr.toNat
  let w := pkt.payload.headD ⟨0, true⟩
  let n := bits w.data.toNat 0 8 + 1
  takePktIf (fun b x => if w.poison then b.linkOut x.ld else b.serviceOpen (hDev h) n false x.ld) pkt (fun b =>
    if w.poison then b
    else
      let ws := b.readMem (hDev h) n 0 uXbar
      let hdr := mkHdr 0x03 (hSrc h) (ws.2.coord 0) 2 ws.1.length (hDev h * 2 ^ 104 + hTag h * 2 ^ 154)
      ws.2.inject 0 ⟨BitVec.ofNat 256 hdr, ws.1⟩) b

/-- READ_RESP: to the gather engine and slot of its tag (R180, R182); a reply after its time-out finds no request. -/
def readRespFx (pkt : RawPacket) : Blk → Blk := takePkt pkt fun b =>
  let t := hTag pkt.hdr.toNat
  let own := bits t 0 16
  if own / 4096 ≠ 1 ∨ 12 ≤ own / 256 % 16 ∨ 4 ≤ own % 256 then b
  else
    let ge := 4 * (own / 256 % 16) + own % 256
    match (b.gathE ge).streams with
    | [] => b
    | st :: _ => match st.reqs.find? fun r => r.slot = bits t 16 8 ∧ r.issued with
      | some r => if gKind st.desc.toNat = 2 then b.gathReturn ge r.elem pkt.payload else b
      | none => b

/-- CTRL_PACKET: delivered to the control cluster; what it says is a LINE notice, an OUTCOME query or its answer. -/
def ctrlPacketFx (pkt : RawPacket) : Blk → Blk := takePkt pkt fun b => b

def execPendingSetLatch (s : State) := onBlk s latchFx
def execScaleRebuildStop (n : Nat) (s : State) := onBlk s (stopRebuildFx n)
def execScaleRebuildComplete (s : State) := onBlk s endRebuildFx
def execVotePacket (p : Port) (x : RawPacket) (s : State) := onBlk s (votePacketFx p x)
def execOutcomeQuery (p : Port) (n : BitVec 32) (a : BitVec 8) (s : State) := onBlk s (outcomeQueryFx p n a)
def execOutcomeAnswer (p : Port) (n : BitVec 32) (a : BitVec 8) (r : BitVec 2) (s : State) :=
  onBlk s (outcomeAnswerFx p n a r)
def execOutcomeQuerySend (s : State) := onBlk s querySendFx
def execLineNotice (p : Port) (x : Fin 4) (k : BitVec 5) (t : BitVec 64) (s : State) := onBlk s (lineNoticeFx p x k t)
def execWritePacket (x : RawPacket) (s : State) := onBlk s (writePacketFx x)
def execReadReq (x : RawPacket) (s : State) := onBlk s (readReqFx x)
def execReadResp (x : RawPacket) (s : State) := onBlk s (readRespFx x)
def execCtrlPacket (x : RawPacket) (s : State) := onBlk s (ctrlPacketFx x)

end Sys2Proof.Machine
end

