-- ==== Sys2Proof/Machine/Context.lean ====
section
/-!
DEFINITION. Context records and swaps (07_core_sequencer.md, R155, R156), instruction-cache fills (R162, R163), and how a
core opens a segment at a release: ANCHOR, CONTEXT_SWAP_COMPLETE and ICACHE_FILL_COMPLETE.
-/
namespace Sys2Proof.Machine

/-! ### The context record (R156) -/

/-- Words of a context record. -/
def recWords (lee : Bool) : Nat := if lee then 525 else 267

/-- Fields laid side by side from bit 0 up, `w` bits each. -/
def packFields (w : Nat) (xs : List Nat) : Nat := xs.foldr (fun x acc => x + 2 ^ w * acc) 0

/-- Mask register n as a record stores it: K0 reads as all ones (R93). -/
def Ctx.maskBits (c : Ctx) (w n : Nat) : Nat := if n = 0 then 2 ^ w - 1 else Sp.get 0 c.k n

/-- Word `i` of a context's record; a word that holds a poisoned register is poisoned. -/
def Ctx.word (c : Ctx) (lee : Bool) (logical i : Nat) : MWord :=
  let kw := if lee then 4 else 2
  let vw := if lee then 16 else 8
  let at_ (n from_ : Nat) : List Nat := (List.range n).map (from_ + ·)
  if i = 0 then
    let ps := packFields 1 ((at_ 15 1).map fun n => b2n (c.getP n))
    ⟨BitVec.ofNat 256 (logical % 8 + c.vl % 256 * 8 + c.flags % 64 * 2 ^ 11 + ps * 2 ^ 17), c.pPoison ≠ []⟩
  else if i ≤ 8 then
    let ns := at_ 4 (4 * (i - 1))
    ⟨BitVec.ofNat 256 (packFields 64 (ns.map fun n => (c.getS n).toNat)), ns.any c.sPoison.contains⟩
  else if i ≤ 8 + kw then
    let per := if lee then 2 else 4
    let ns := at_ per (per * (i - 9))
    ⟨BitVec.ofNat 256 (packFields (256 / per) (ns.map (c.maskBits (256 / per)))), ns.any c.kPoison.contains⟩
  else
    let v := i - 9 - kw
    let keys := at_ 8 (128 * (v / vw) + 8 * (v % vw))
    ⟨BitVec.ofNat 256 (packFields 32 (keys.map fun key => (Sp.get 0 c.v key).toNat)), keys.any c.vPoison.contains⟩

def Ctx.record (c : Ctx) (lee : Bool) (logical : Nat) : List MWord :=
  (List.range (recWords lee)).map (c.word lee logical)

/-- Take word `i` of a record into a context. -/
def Ctx.takeWord (lee : Bool) (c : Ctx) (i : Nat) (m : MWord) : Ctx :=
  let kw := if lee then 4 else 2
  let vw := if lee then 16 else 8
  let x := m.data.toNat
  let bad (n : Nat) (l : List Nat) : List Nat := if m.poison then addNew l n else l
  if i = 0 then
    let c := (List.range 15).foldl (fun c n => c.setP (n + 1) (bit x (17 + n)) m.poison) c
    { c with vl := bits x 3 8, flags := bits x 11 6 }
  else if i ≤ 8 then
    (List.range 4).foldl (fun c n => c.setS (4 * (i - 1) + n) (BitVec.ofNat 64 (bits x (64 * n) 64)) m.poison) c
  else if i ≤ 8 + kw then
    let per := if lee then 2 else 4
    (List.range per).foldl (fun (c : Ctx) n =>
      let r := per * (i - 9) + n
      -- K0 discards what is written to it
      if r = 0 then c else { c with k := Sp.set 0 c.k r (bits x (256 / per * n) (256 / per)), kPoison := bad r c.kPoison }) c
  else
    let v := i - 9 - kw
    (List.range 8).foldl (fun (c : Ctx) n =>
      let key := 128 * (v / vw) + 8 * (v % vw) + n
      { c with v := Sp.set 0 c.v key (BitVec.ofNat 32 (bits x (32 * n) 32)), vPoison := bad key c.vPoison }) c

/-- The context that a record holds. -/
def Ctx.ofRecord (lee : Bool) (ws : List MWord) : Ctx :=
  (ws.zipIdx).foldl (fun c e => Ctx.takeWord lee c e.2 e.1) Ctx.init

/-! ### Swaps (R155) -/

/-- Place of the swap record of logical context `c` for core `k` (R154). -/
def Blk.swapKey (b : Blk) (k c : Nat) : Nat :=
  match b.run.job with
  | some j =>
    let w := j.part1.toNat
    bits w 0 48 + ((c * 12 + k / 32) * 36 + k % 32) * bits w 48 48
  | none => 0

/-- Place and words of a slot's partition at core `k`. -/
def Blk.partKey (b : Blk) (k slot : Nat) : Nat := sramKey k + b.partBase k slot
def Blk.partWords (b : Blk) (k slot : Nat) : Nat := b.partSize k slot / 32

/-- Clear a slot's partition to zero. -/
def Blk.clearPart (b : Blk) (k slot : Nat) : Blk :=
  let key := b.partKey k slot
  let out (m : Nat × Byte) : Bool := decide (m.1 < key) || decide (key + b.partSize k slot ≤ m.1)
  let outE (m : Nat × BitVec 32) : Bool := decide (m.1 < key) || decide (key + b.partSize k slot ≤ m.1)
  { b with mem := b.mem.filter out, err := b.err.filter outE }

/-- Slot `slot` of core `k` holds logical context `c` from now on. -/
def Blk.bindSlot (b : Blk) (k slot c : Nat) : Blk :=
  let cd := k / 32
  let s := k % 32
  ((b.wr (SEQ_CTX.logical cd s slot) c).wr (SEQ_CTX.bound cd s slot) 1).wr (SEQ_CTX.swapping cd s slot) 0

/-- A fresh context in a slot. -/
def Blk.freshSlot (b : Blk) (k slot c : Nat) : Blk :=
  ((b.updCore k fun x => x.updCtx slot fun _ => Ctx.init).clearPart k slot).bindSlot k slot c

/-- Start the binding of logical context `c` to a slot of every core, from a release: a swap, or, for a fresh context and a
slot that holds none, the context at once. -/
def Blk.startBind (b : Blk) (slot c : Nat) : Blk :=
  let fresh := ¬b.run.bound.contains c
  let b := allCores.foldl (fun b k =>
    let cd := k / 32
    let s := k % 32
    let held := b.on (SEQ_CTX.bound cd s slot)
    let cur := b.rd (SEQ_CTX.logical cd s slot)
    if held ∧ cur = c then b
    else if ¬held ∧ fresh then b.freshSlot k slot c
    else
      let sw : Swap := ⟨k, slot, if held then some cur else none, c, fresh, b.run.lastRel⟩
      (b.wr (SEQ_CTX.swapping cd s slot) 1).updRun fun r => { r with swaps := r.swaps ++ [sw] }) b
  b.updRun fun r => { r with bound := addNew r.bound c }

/-- What a segment's entry binds (R152): 0xF leaves a slot as it is. -/
def Blk.bindSeg (b : Blk) (g : Seg) : Blk :=
  let b := if g.c0 < 8 then b.startBind 0 g.c0 else b
  if g.c1 < 8 then b.startBind 1 g.c1 else b

/-- Move a slot's contexts: the outgoing record and partition to its swap area, then the incoming one's in. -/
def Blk.doSwap (b : Blk) (w : Swap) : Blk :=
  let lee := isLee w.core
  let n := recWords lee
  let pk := b.partKey w.core w.slot
  let pn := b.partWords w.core w.slot
  let b := match w.out with
    | none => b
    | some o =>
      let part := b.fetchWords pk pn
      let ctx := (part.2.core w.core).ctx w.slot
      let b := (part.2.perf (coreDie w.core) 0x02 (w.core % 32) (n + pn)).perf (coreDie w.core) 0x04 255 (n + pn)
      b.landWords (b.swapKey w.core o) (ctx.record lee o ++ part.1)
  if w.fresh then b.freshSlot w.core w.slot w.inc
  else
    let key := b.swapKey w.core w.inc
    let b := ((b.bursts false key (n + pn)).perf (coreDie w.core) 0x03 (w.core % 32) (n + pn)).perf (coreDie w.core) 0x05 255 (n + pn)
    let rec_ := b.fetchWords key n
    let part := rec_.2.fetchWords (key + 32 * n) pn
    let b := part.2.updCore w.core fun x => x.updCtx w.slot fun _ => Ctx.ofRecord lee rec_.1
    (b.writeWords pk part.1).bindSlot w.core w.slot w.inc

/-! ### Instruction cache (R162, R163) -/

def Blk.halfValid (b : Blk) (k h : Nat) : Bool :=
  b.on (if h = 0 then SEQ_ICACHE.half0_valid (k / 32) (k % 32) else SEQ_ICACHE.half1_valid (k / 32) (k % 32))
def Blk.halfBlock (b : Blk) (k h : Nat) : Nat :=
  b.rd (if h = 0 then SEQ_ICACHE.half0_block (k / 32) (k % 32) else SEQ_ICACHE.half1_block (k / 32) (k % 32))

/-- The half that holds block `x`, and whether a poisoned fill left it invalid. -/
def Blk.halfOf (b : Blk) (k x : Nat) : Option (Nat × Bool) :=
  match [0, 1].find? fun h => b.halfValid k h ∧ b.halfBlock k h = x with
  | some h => some (h, false)
  | none => match (b.core k).badHalves.find? fun h => b.halfBlock k h = x with
    | some h => some (h, true)
    | none => none

/-- Segments from table index `n` on, in the order they run, once round the step. -/
def Job.segsFrom (j : Job) : Nat → Nat → List Nat
  | 0, _ => []
  | fuel + 1, n => n :: j.segsFrom fuel (j.nextSeg n)

/-- The segment that core `k` runs next: the first one before T_start. -/
def Blk.nextOf (b : Blk) (j : Job) (k : Nat) : Nat :=
  match (b.core k).opening with
  | some o => o.1
  | none => if b.seqState k = 0 then 0 else j.nextSeg (b.segOf k)

/-- The block that the fill path loads next for core `k`: that of the next segment whose block no half holds (R162). -/
def Blk.fillWants (b : Blk) (j : Job) (k : Nat) : Option CodeDir :=
  let exec := b.rd (SEQ_ICACHE.exec_half (k / 32) (k % 32))
  let cur := if b.halfValid k exec then some (b.halfBlock k exec) else none
  let later := j.segsFrom j.segs.length (b.nextOf j k)
  match later.find? fun n => (j.codeFor n k).isSome ∧ cur ≠ some (j.seg n).block with
  | some n => if (b.halfOf k (j.seg n).block).isSome then none else j.codeFor n k
  | none => none

/-- The words of a code object arrive poisoned. -/
def Blk.codePoison (b : Blk) (j : Job) (d : CodeDir) : Bool :=
  (List.range d.len).any fun i => b.iwBad ⟨j.imageAddr, j.words⟩ (d.off + i)

/-! ### Opening a segment (R41, R155, R163, R302, R351) -/

/-- Instant of a segment's closing anchor: in this step, or, for a segment that this step has yet to reach, in the step
before. -/
def Blk.segInstant (b : Blk) (j : Job) (n : Nat) : Nat :=
  let g := j.seg n
  if g.prologue then j.tStart + g.anchorNs
  else if n ≤ b.run.seg then b.run.stepStart + g.anchorNs
  else b.run.stepStart - j.stepNs + g.anchorNs

/-- Release of a segment's closing anchor (R41), in whole nanoseconds (log entry 40). -/
def Blk.relOf (b : Blk) (j : Job) (n : Nat) : Nat := b.segInstant j n + 40

/-- A swap of one of core `k`'s slots is in progress. -/
def Blk.swapping (b : Blk) (k : Nat) : Bool := b.run.swaps.any fun w => w.core = k

/-- What holds a core's release at `rel` (R155, R163): a swap that began at an earlier release, or a fill of the block that
segment `n` needs. -/
def Blk.swapHolds (b : Blk) (k rel : Nat) : Bool := b.run.swaps.any fun w => w.core = k ∧ w.rel < rel
def Blk.fillHolds (b : Blk) (j : Job) (k n : Nat) : Bool :=
  (j.codeFor n k).isSome && (b.halfOf k (j.seg n).block).isNone

/-- Core `k` opens segment `n` at release `rel`, `late` ns late: a removed segment, and one without code for the site, issue
nothing and wait for the closing anchor; an unserved site with code, and a half left invalid, run under R161. -/
def Blk.openSeg (b : Blk) (j : Job) (k n rel late : Nat) : Blk :=
  let b := if late = 0 then b else b.lateArrival k late
  let b := b.beginSeg k n rel
  if (b.core k).draining then (b.updCore k fun c => { c with arrived := some 0 }).setSeqState k 6
  else
    let b := b.updCore k fun c => { c with cyc := b.cycOfNs late }
    if b.run.removed.contains n ∨ (j.codeFor n k).isNone then
      (b.updCore k fun c => { c with arrived := some c.cyc }).setSeqState k 2
    else if ¬b.served k then b.fetchFault k
    else
      match b.halfOf k (j.seg n).block with
      | some (h, bad) =>
        let b := b.wr (SEQ_ICACHE.exec_half (k / 32) (k % 32)) h
        if bad then b.fetchFault k else b
      | none => b

/-- The release of core `k` into segment `n`: held while a swap or a fill is not complete. -/
def Blk.releaseInto (b : Blk) (j : Job) (k n rel late : Nat) : Blk :=
  if b.swapHolds k rel ∨ (b.served k ∧ ¬b.run.removed.contains n ∧ b.fillHolds j k n) then
    (b.updCore k fun c => { c with opening := some (n, rel) }).setSeqState k 3
  else b.openSeg j k n rel late

/-- Note a wait of core `k` from one cycle to another under `cause`, for an operation outstanding across it (R164, R165). -/
def Blk.noteWait (b : Blk) (k from_ stop cause : Nat) : Blk :=
  if (b.core k).mats = [] ∨ stop ≤ from_ then b else b.updCore k fun c => { c with waits := c.waits ++ [(from_, stop, cause)] }

/-- A held core whose swap or fill has completed: the held cycles are counted under `cause` and are lateness (R42). -/
def Blk.unhold (b : Blk) (k cause : Nat) : Blk :=
  match b.run.job, (b.core k).opening with
  | some j, some (n, rel) =>
    if b.swapHolds k rel ∨ (b.served k ∧ ¬b.run.removed.contains n ∧ b.fillHolds j k n) then b
    else
      let late := b.now - rel
      let at_ := b.cycOfNs rel
      ((b.stall k 0 cause (b.cycOfNs late)).noteWait k at_ (at_ + b.cycOfNs late) cause).openSeg j k n rel late
  | _, _ => b

/-- Some crossbar window that `sel` picks has begun since its segment opened. -/
def Blk.xbarBegun (b : Blk) (sel : XbarEnt → Bool) : Bool :=
  b.xbarPlay.any fun e => e.2.kind = 1 ∧ sel e.2 ∧ e.1 ≤ b.now ∧ e.2.start * 1000 ≤ (b.now - e.1) * xbarMhz

/-- The control cluster's windows for a swap have begun: on the crossbar between the core's die and memory, and on a channel of the
swap area (R155); outside the image calendar its idle slot serves. -/
def Blk.swapWindow (b : Blk) (w : Swap) : Bool :=
  if b.idleCal then true
  else
    let cd := w.core / 32
    let ch := chanOf (b.swapKey w.core w.inc)
    b.xbarBegun (fun e => ownsAs ownCtl e.owner ∧ (e.src = cd ∨ e.dst = cd)) &&
      match b.run.job with
      | some j => j.windows.any fun x => ownsAs ownCtl x.owner ∧ x.names ch ∧ b.winStart x ≤ b.now
      | none => true

/-- The fill path's crossbar window into the core's die has begun (R162). -/
def Blk.fillWindow (b : Blk) (k : Nat) : Bool :=
  b.idleCal || b.xbarBegun fun e => ownsAs (ownFill k) e.owner ∧ e.dst = k / 32

/-- CONTEXT_SWAP_COMPLETE, not before the swap's windows. -/
def swapDoneFx (c : CoreId) (slot : Bool) (b : Blk) : Blk :=
  let k := coreKey c
  match b.run.swaps.find? fun w => w.core = k ∧ w.slot = b2n slot ∧ b.swapWindow w with
  | none => b
  | some w => ((b.doSwap w).updRun fun r => { r with swaps := r.swaps.erase w }).unhold k 12

/-- ICACHE_FILL_COMPLETE, not before the fill's window: the block goes into the half that is not executing. -/
def fillDoneFx (c : CoreId) (poisoned : Bool) (b : Blk) : Blk :=
  let k := coreKey c
  match b.run.job with
  | none => b
  | some j =>
    match if b.fillWindow k then b.fillWants j k else none with
    | none => b
    | some d =>
      let cd := k / 32
      let s := k % 32
      let h := 1 - b.rd (SEQ_ICACHE.exec_half cd s)
      let bad := poisoned || b.codePoison j d
      let b := if h = 0 then (b.wr (SEQ_ICACHE.half0_block cd s) d.block).wrB (SEQ_ICACHE.half0_valid cd s) !bad
        else (b.wr (SEQ_ICACHE.half1_block cd s) d.block).wrB (SEQ_ICACHE.half1_valid cd s) !bad
      let b := b.updCore k fun x =>
        { x with badHalves := if bad then addNew x.badHalves h else x.badHalves.erase h }
      b.unhold k 4

/-- ANCHOR (R149): wait for the release; past the release, the core goes on at once into its next segment (R42). -/
def anchorFx (i : Issue) : Blk → Blk :=
  issueCtl i true fun k b =>
    let f := b.fire 0x0A fun i => i.die = coreDie k ∧ i.unit = k % 32
    let b := match f.1 with
      | some a => f.2.updCore k fun c => { c with cyc := c.cyc + b.cycOfNs (a % 2 ^ 32), lateInj := true }
      | none => b
    let c := b.core k
    let wait (b : Blk) : Blk := (b.updCore k fun c => { c with arrived := some c.cyc }).setSeqState k 2
    match b.run.job with
    | some j =>
      let n := b.segOf k
      if n = b.run.seg then wait b
      else
        let rel := b.relOf j n
        let late := c.relNs + b.nsOfCyc c.cyc - rel
        b.releaseInto j k (j.nextSeg n) rel late
    | none => wait b

def execAnchor (i : Issue) (s : State) := onBlk s (anchorFx i)
def execContextSwapComplete (c : CoreId) (x : Bool) (s : State) := onBlk s (swapDoneFx c x)
def execIcacheFillComplete (c : CoreId) (p : Bool) (s : State) := onBlk s (fillDoneFx c p)

end Sys2Proof.Machine
end

