-- ==== Sys2Proof/Machine/Power.lean ====
section
/-!
DEFINITION. Operating modes and power (15_modes_power_emc.md): the limit in force (R350), the attempt's power plan, ballast
and removed segments (R351, R352, R356), spread (R361, R362), mode changes (R346 to R349), thermal levels and the trip
(R357 to R359), rails (R353, R354), and the reset of a die's registers (R373, R374).
-/
namespace Sys2Proof.Machine

/-! ### Reset of registers (R373, R374) -/

/-- Value of a register whose fields of the classes that `keep` refuses take their reset values. -/
def Blk.resetVal (b : Blk) (r : Reg) (keep : RstClass → Bool) : Nat :=
  let v := b.reg r
  let init := r.reset b.part
  r.fields.foldl (fun acc f => if keep f.cls then setBits acc f.lo f.w (bits v f.lo f.w) else acc) init

/-- Reset every register whose device address `sel` takes, but for the fields of classes that `keep` names. -/
def Blk.resetRegs (b : Blk) (sel : Nat → Bool) (keep : RstClass → Bool) : Blk :=
  (b.regs.map (·.1)).foldl (fun b a =>
    if sel a then
      match regOfAddr a with
      | some r => b.setReg r (b.resetVal r keep)
      | none => b
    else b) b

/-- A register of a compute die; one of the guest die does not exist. -/
def onComputeDie (a : Nat) : Bool := decide (1 ≤ dieOfAddr a) && decide (dieOfAddr a ≤ 12)

/-! ### The guest's interface in reset (R326, R365 note 3) -/

/-- A transaction completes aborted: a read with poisoned words, a write with an error. -/
def Blk.guestAbort (b : Blk) (t : GuestTxn) : Blk :=
  b.emit (.guest t.toAperture false (if t.write then [] else List.replicate t.words ⟨0, true⟩))

/-- Requests of the guest that memory holds, with their channels. -/
def Blk.guestHeld (b : Blk) : List (Nat × MemReq) :=
  b.heldFor fun r => r.serves = .guest

/-- The interface is held in reset: what the guest sent is dropped, what was on its way to it completes aborted. -/
def Blk.guestReset (b : Blk) : Blk :=
  let own := b.sec.waiting.filter fun w => w.txn.toAperture
  let b := b.guestHeld.foldl Blk.dropReq (b.updSec fun s => { s with waiting := [] })
  own.foldl (fun b w => b.guestAbort w.txn) b

/-- Compute-die rails go down: core SRAM and everything in the cores is lost, what they had under way ends, and the dies' W-class registers take their
reset values when the rails return (R346, R374). The site maps stay in the always-on domain. -/
def Blk.computeOff (b : Blk) : Blk :=
  let b := b.resetRegs onComputeDie fun k => k ≠ .w
  let low (k : Nat) : Bool := decide (k < 2 ^ 49)
  let mem := b.mem.filter fun e => low e.1
  let err := b.err.filter fun e => low e.1
  let moves (r : MemReq) : Bool := match r.serves with
    | .xfer _ => true
    | _ => false
  let held := b.heldFor moves
  let b := held.foldl Blk.dropReq b
  { b with
    cores := [], gath := [], ncache := [], xfers := [], checks := [], claims := [], mem := mem, err := err,
    regions := b.regions.foldl (fun m e => Sp.set ⟨0, 0⟩ m e.1 { e.2 with inFlight := 0 }) b.regions }

/-! ### Limit in force (R350) -/

def modeMax (m : Nat) : Nat := [5000, 3400, 240].getD m 240

/-- Show the limit in force. -/
def Blk.showLimit (b : Blk) : Blk :=
  b.wr PWR_LIMIT.in_force_w
    (min b.power.limitNow (min (b.rd PWR_LIMIT.phase_cap_w) (modeMax (b.rd PWR_MODE.mode))))

/-- A newly written limit takes effect at an anchor release (R20). -/
def Blk.applyLimit (b : Blk) : Blk :=
  let b := if b.power.limitPending then
      b.updPower fun p => { p with limitPending := false, limitNow := b.rd PWR_LIMIT.limit_w } else b
  b.showLimit

/-! ### Spread (R361, R362) -/

/-- The mode of a job that is armed: the mode that a change placed for it sets before it starts, else the one in force. -/
def Blk.jobMode (b : Blk) : Nat :=
  match (List.range 32).find? fun n => b.dstate = stArmed ∧ b.on (MTC_SCHED_ACT.valid n) ∧ b.rd (MTC_SCHED_ACT.action n) = 3 with
  | some n => b.rd (MTC_SCHED_ACT.arg n) % 4
  | none => if b.rd PWR_MODE.pending = 3 then b.rd PWR_MODE.mode else b.rd PWR_MODE.pending

/-- Turn spread on or off as the rules give it now: at an anchor release or the start of an idle cycle. -/
def Blk.setSpread (b : Blk) : Blk :=
  let inJob := b.locked || b.dstate = stDrain
  let margin := match b.run.job with
    | some j => decide (5000 ≤ j.spreadPpm)
    | none => false
  let mode := b.rd PWR_MODE.mode
  let core := b.on PWR_SPREAD.core_en && (if inJob then mode = 1 && b.jobMode = 1 && margin else mode ≠ 2)
  (b.wrB PWR_SPREAD.core_active core).wrB PWR_SPREAD.ctl_active (b.on PWR_SPREAD.ctl_en)

/-! ### The attempt's power plan (R351, R352, R356) -/

/-- The step's segments with the length of each one's anchor interval: table index, segment, ns (R152). -/
def Job.stepSegs (j : Job) : List (Nat × Seg × Nat) :=
  let all := (j.segs.zipIdx).filter fun e => ¬e.1.prologue
  let last := all.foldl (fun m e => max m e.1.anchorNs) 0
  let prev (i : Nat) : Nat := match all[i - 1]? with
    | some e => e.1.anchorNs
    | none => 0
  (all.zipIdx).map fun e =>
    let g := e.1.1
    (e.1.2, g, if e.2 = 0 then g.anchorNs + j.stepNs - last else g.anchorNs - prev e.2)

/-- Sum of power × time over segments, in W·ns. -/
def wattNs (f : Seg → Nat) (l : List (Nat × Seg × Nat)) : Nat := (l.map fun e => f e.2.1 * e.2.2).sum
def totalNs (l : List (Nat × Seg × Nat)) : Nat := (l.map fun e => e.2.2).sum

/-- P with ballast fraction `f` and some segments removed stays within the limit: k × mean of power_w, and the planned
ballast added (R351). A removed segment counts no power (log entry 41). -/
def Job.within (j : Job) (k limit f : Nat) (gone : List Nat) : Bool :=
  let l := j.stepSegs
  let on := l.filter fun e => ¬gone.contains e.1
  let base := wattNs (·.powerW) on * k
  let bal := wattNs (·.ballastW) (on.filter fun e => e.2.1.ballast) * f * 1000
  decide (16 * base + bal ≤ 16 * 1000 * limit * totalNs l)

/-- Ballast fraction `f` keeps every ballast-permitted segment at or below P_ref (R356). -/
def Job.ballastOk (j : Job) (f : Nat) : Bool :=
  let l := j.stepSegs
  let clear := l.filter fun e => ¬e.2.1.ballast
  let t := totalNs clear
  let ref := wattNs (·.powerW) clear
  (l.filter fun e => e.2.1.ballast).all fun e =>
    decide ((16 * e.2.1.powerW + f * e.2.1.ballastW) * t ≤ 16 * ref)

/-- The highest power_w among removable segments not yet removed. -/
def Job.nextRemoval (j : Job) (gone : List Nat) : Option Nat :=
  let c := j.stepSegs.filter fun e => e.2.1.removable ∧ ¬gone.contains e.1
  let top := c.foldl (fun m e => max m e.2.1.powerW) 0
  (c.find? fun e => e.2.1.powerW = top).map (·.1)

/-- Remove removable segments, highest power first, until P is within the limit or none is left: the segments removed, and
whether that suffices. -/
def Job.removals (j : Job) (k limit : Nat) : Nat → List Nat → List Nat × Bool
  | 0, gone => (gone, j.within k limit 0 gone)
  | fuel + 1, gone =>
    if j.within k limit 0 gone then (gone, true)
    else match j.nextRemoval gone with
      | some n => j.removals k limit fuel (gone ++ [n])
      | none => (gone, false)

/-- Every table index, and the removable ones. -/
def Job.allSegs (j : Job) : List Nat := List.range j.segs.length
def Job.removable (j : Job) : List Nat := j.allSegs.filter fun n => (j.seg n).removable

/-- Hold the attempt (R352): every segment from here to its end is removed, and every site's vote is fail with cause
0xFE. -/
def Blk.holdAttempt (b : Blk) (j : Job) : Blk :=
  let b := b.updRun fun r => { r with removed := j.allSegs, heldAttempt := true }
  let b := b.satBy PWR_THERM_STAT.held 1
  allCores.foldl (fun b k =>
    if b.vote.frozen then b.hwFail k else (b.wr (SEQ_VOTE.cause (k / 32) (k % 32)) 0xFE).hwFail k) b

/-- EV_POWER_CAPPED: segments removed, limit in force. -/
def Blk.powerCapped (b : Blk) (n : Nat) : Blk :=
  (b.satBy PWR_THERM_STAT.removed n).raise 0 uPower 0x0906 (n % 2 ^ 20 + b.rd PWR_LIMIT.in_force_w * 2 ^ 20)

/-- Before the first anchor release of an attempt: ballast fraction, removed segments, or a held attempt. -/
def Blk.powerPlan (b : Blk) (j : Job) : Blk :=
  let b := b.updRun fun r => { r with removed := [], heldAttempt := false }
  let limit := b.rd PWR_LIMIT.in_force_w
  let lvl := b.rd PWR_THERM_STAT.level
  let bal := b.on PWR_BALLAST.enable ∧ lvl = 0
  let fits := (List.range (b.rd PWR_BALLAST.max_frac + 1)).filter fun f =>
    bal ∧ j.ballastOk f ∧ j.within b.run.k limit f []
  let b := b.wr PWR_BALLAST.frac (fits.foldl max 0)
  if 2 ≤ lvl then b.holdAttempt j
  else
    let cut := j.removals b.run.k limit j.segs.length []
    let b := if cut.1 = [] then b else b.powerCapped cut.1.length
    if ¬cut.2 then b.holdAttempt j
    else
      let therm := if lvl = 0 then [] else j.removable.filter fun n => ¬cut.1.contains n
      let b := if therm = [] then b else b.satBy PWR_THERM_STAT.removed therm.length
      b.updRun fun r => { r with removed := cut.1 ++ therm }

/-- What a thermal level that rose within the attempt does from an anchor release on (R357). -/
def Blk.thermalActs (b : Blk) (j : Job) : Blk :=
  let lvl := b.rd PWR_THERM_STAT.level
  if lvl = 0 ∨ b.run.heldAttempt then b
  else if 2 ≤ lvl then b.holdAttempt j
  else
    let more := j.removable.filter fun n => ¬b.run.removed.contains n
    (if more = [] then b else b.satBy PWR_THERM_STAT.removed more.length).updRun fun r =>
      { r with removed := r.removed ++ more }

/-- Predicted W·ns over [t0, t1) of the segments of the prologue and of the steps that touch it (R351). -/
def Blk.predicted (b : Blk) (j : Job) (t0 t1 : Nat) : Nat :=
  let f := b.rd PWR_BALLAST.frac
  let overlap (s e : Nat) : Nat := min e t1 - max s t0
  let watt (n : Nat) (g : Seg) : Nat :=
    if b.run.removed.contains n then 0 else 16 * g.powerW + (if g.ballast then f * g.ballastW else 0)
  let base := j.tStart + j.prologueNs
  let steps := if j.stepNs = 0 then 0 else (t1 - t0) / j.stepNs + 2
  let pro := (j.segs.zipIdx).filter fun e => e.1.prologue
  let before (i : Nat) : Nat := if i = 0 then 0 else match pro[i - 1]? with
    | some e => e.1.anchorNs
    | none => 0
  let early := ((pro.zipIdx).map fun e =>
    watt e.1.2 e.1.1 * overlap (j.tStart + before e.2) (j.tStart + e.1.1.anchorNs)).sum
  (early + ((List.range steps).map fun i =>
    let s0 := b.run.stepStart - i * j.stepNs
    if s0 < base then 0
    else (j.stepSegs.map fun e =>
      let fin := s0 + e.2.1.anchorNs
      watt e.1 e.2.1 * overlap (fin - e.2.2) fin).sum).sum) / 16

/-- POWER_CALIBRATION: k is measured ÷ predicted over the last 10 ms, within 0.8 to 1.5 (R351); `measured` in W. -/
def powerCalibrationFx (measured : Nat) (b : Blk) : Blk :=
  match b.run.job with
  | none => b
  | some j =>
    if b.dstate ≠ stRun then b
    else
      let t := 10000000
      let p := b.predicted j (b.now - t) b.now
      if p = 0 then b
      else
        let k := max 800 (min 1500 (measured * t * 1000 / p))
        (b.updRun fun r => { r with k := k }).wr PWR_BALLAST.k_milli k

/-! ### Modes (R346 to R349) -/

/-- A die on the compute-die rails. -/
def onComputeRail (d : Nat) : Bool := decide (1 ≤ d ∧ d ≤ 12)

def Blk.setClocks (b : Blk) (mode : Nat) : Blk :=
  (b.wr GLB_CLOCKS.arith_mhz ([3600, 2700, 0].getD mode 0)).wr GLB_CLOCKS.xbar_mhz (if mode = 2 then 0 else 1800)

/-- Every channel enters or leaves self-refresh. -/
def Blk.selfRefresh (b : Blk) (v : Bool) : Blk :=
  (List.range 136).foldl (fun b c => b.wrB (CHAN_STATUS.self_refresh (c / 34) (c % 34)) v) b

/-- Axis number of a port, as R202 counts it. -/
def Blk.calmInstant (b : Blk) (t p : Nat) : Nat := t + 200000 * axisOf (b.logicalOf p)

/-- Send PORT_CTRL action 1 on the ports, with instants from `t` (R202); a port that is UP follows. -/
def Blk.calmPorts (b : Blk) (t : Nat) : Blk :=
  (List.range 10).foldl (fun b p =>
    if ¬b.pLive p then b
    else
      let at_ := b.calmInstant t p
      let b := b.sendPortCtrl p 1 at_
      if b.pstate p = psUp then
        b.updPort p fun s => { s with act := some ⟨1, at_⟩, ownLeave := none, peerLeave := none }
      else b) b

/-- Send action 2 on every port in CALM, with instants from `t`; the later instant of both ends stands (R349). -/
def Blk.uncalmPorts (b : Blk) (t : Nat) : Blk :=
  (List.range 10).foldl (fun b p =>
    if b.pstate p ≠ psCalm ∨ (b.port p).ownLeave.isSome then b
    else
      let at_ := b.calmInstant t p
      ((b.sendPortCtrl p 2 at_).updPort p fun s => { s with ownLeave := some at_ }).agreeLeave p) b

/-- A planned port that would refuse the Calm entry (R201). -/
def Blk.calmBlocked (b : Blk) : Option Nat :=
  (List.range 10).find? fun p => b.pstate p = psUp ∧ (b.dataQueued p ≠ [] ∨ (b.port p).replay ≠ [])

/-- The logic rails move to the values of mode `m`: the compute dies', and with avs_en clear every die's (R348, R354). In Calm the compute
dies' rails are off. -/
def Blk.setVolts (b : Blk) (m : Nat) : Blk :=
  (List.range 19).foldl (fun b d =>
    if m < 2 ∧ (onComputeRail d ∨ ¬b.on (PWR_AVS.avs_en d)) then b.wr (PWR_AVS.vout_mv d) (Config.nominalMv d m).toNat else b) b

/-- The target mode is in force. -/
def Blk.setMode (b : Blk) (m : Nat) : Blk :=
  ((((b.wr PWR_MODE.mode m).wr PWR_MODE.pending 3).setClocks m).setVolts m).showLimit

def Blk.modeRefused (b : Blk) (target : Nat) : Blk :=
  b.raise 0 uPower 0x0905 (b.rd PWR_MODE.mode + target * 4 + b.dstate * 16)

/-- Bound of a change in ns (R348). -/
def changeNs (from_ new : Nat) : Nat :=
  if new = 2 then 20000000 else if from_ = 2 then 400000000 else if new = 1 then 2000000 else 3000000

/-- Start a change to `m` at instant `t`: clocks stop, and the ports take their instants. -/
def Blk.startMode (b : Blk) (m t : Nat) : Blk :=
  let was := b.rd PWR_MODE.mode
  let b := b.wr PWR_MODE.pending m
  if m = 2 then (b.setClocks 2).calmPorts t
  else
    let b := b.wr GLB_CLOCKS.arith_mhz 0
    if was = 2 then b.uncalmPorts t else b

/-- Scheduled action 0x03 with target `m` (R347). A code that names no mode is refused (log entry 42). -/
def Blk.modeAction (b : Blk) (m t : Nat) : Blk :=
  let cur := b.rd PWR_MODE.mode
  let st := b.dstate
  let soon := b.rd CTL_ARM_START.t_start < b.now + changeNs cur m + 400000000
  if st = stRun ∨ st = stDrain ∨ (st = stArmed ∧ soon) ∨ (m = 2 ∧ st ≠ stReady) ∨ m = cur ∨ m = 3 then b.modeRefused m
  else if m = 2 then
    match b.calmBlocked with
    | some p => (b.linkDownEvent p 1 0 0).modeRefused m
    | none => b.startMode m t
  else b.startMode m t

/-- The always-on copy of the journal goes back to memory when the module leaves Calm (R359). -/
def Blk.journalBack (b : Blk) : Blk :=
  match b.coll.jcopy with
  | some _ => (b.updColl fun c => { c with jcopy := none }).writeJournal id
  | none => b

/-- Level 3 and what it latched end (R357). -/
def Blk.endTrip (b : Blk) : Blk :=
  let b := b.updPower fun p => { p with levels := p.levels.filter (· ≠ 3) }
  b.wr PWR_THERM_STAT.level (b.power.levels.foldl max 0)

/-- MODE_CHANGE_COMPLETE. -/
def modeDoneFx (b : Blk) : Blk :=
  let m := b.rd PWR_MODE.pending
  if m = 3 then b
  else
    let was := b.rd PWR_MODE.mode
    let b := b.setMode m
    if m = 2 then (b.computeOff.selfRefresh true).guestReset
    else if was = 2 then (b.selfRefresh false).journalBack.endTrip
    else b

/-! ### Thermal levels and the trip (R357 to R359) -/

/-- The trip ends every placed entry and queued data packet, and leaves the module in Calm with its memory in
self-refresh; a journal before its vote records own_vote fail. -/
def Blk.trip (b : Blk) (die sensor : Nat) (temp : Int) : Blk :=
  if b.dstate = stOff then b
  else if b.power.tripAt.isSome then b.wr PWR_THERM_STAT.trip_latched 1
  else
    let st := b.dstate
    let b := b.wr PWR_THERM_STAT.trip_latched 1
    if st = stStandby then b
    else
      let b := b.raise 0 uPower 0x0901 (3 + die * 4 + sensor % 16 * 2 ^ 7 + wrapInt 16 temp * 2 ^ 11)
      let b := b.updPower fun p => { p with tripAt := some b.now, tripFrom := st, levels := addNew p.levels 3 }
      let b := b.wr PWR_THERM_STAT.level 3
      let b := (List.range 32).foldl (fun b n => b.wr (MTC_SCHED_ACT.valid n) 0) b
      let b := b.updSched fun _ => ⟨[], []⟩
      let b := (List.range 10).foldl (fun b p =>
        let gone := b.dataQueued p
        let n := (gone.map fun x => RPkt.words x.pkt).sum
        let b := b.updPort (b.leader (p / 5) (b.logicalOf p)) fun s =>
          { s with queue := s.queue.filter fun x => ¬gone.contains x }
        b.satBy (PORT_REPLAY.discards p) n) b
      let b := b.calmPorts b.now
      let b := if st ≠ stArmed ∧ st ≠ stRun ∧ st ≠ stDrain then
          (if b.rd COLL_JOURNAL.addr ≠ 0 ∧ (st = stReady ∨ st = stFenced) then b.updColl fun c => { c with jcopy := some b.journal }
          else b)
        else
          let b := if b.journal.phase < 3 then b.writeJournal fun j => { j with ownVote := 2 } else b
          (b.updColl fun c => { c with jcopy := some b.journal, barrierOn := false }).enter stDrain
      ((((b.selfRefresh true).computeOff).setMode 2).guestReset).updColl fun c => { c with runs := [] }

/-- THERMAL_TRIP: a sensor comparator at trip_c. -/
def thermalTripFx (die sensor : Nat) (temp : Int) (b : Blk) : Blk := b.trip die sensor temp

/-- The job is over: nothing of it is left, and the idle calendar resumes. Spread is restored at the next cycle's start (R362). -/
def Blk.jobOver (b : Blk) : Blk :=
  let b := b.updRun fun r => { RunSt.init with k := r.k }
  let b := allCores.foldl (fun b k => b.setSeqState k 0) b
  (b.wr XBAR_STATUS.idle 1).wr CTL_ARM.phase 0

/-- TRIP_SETTLE: 1 ms after the trip the device state is settled. -/
def tripSettleFx (b : Blk) : Blk :=
  match b.power.tripAt with
  | none => b
  | some t =>
    if b.now < t + 1000000 then b
    else
      let st := b.power.tripFrom
      let b := b.updPower fun p => { p with tripAt := none }
      if st = stArmed ∨ st = stRun ∨ st = stDrain then b.jobOver.enter stReady
      else if stBoot ≤ st ∧ st ≤ stSync then
        let b := (List.range 10).foldl (fun b p => b.portDown p) b
        (b.enter stStandby).updRst fun r => { r with tripHold := true }
      else b

/-- Conditions of thermal levels 1 and 2: level, reading, threshold and hysteresis in eighths of a degree; flow against
its minimum. `clear` asks that the condition be clear by its hysteresis (3 °C, or 5 % of the minimum flow). -/
def Blk.thermalCond (b : Blk) (level : Nat) (hot inlet : Int) (flow : Nat) (clear : Bool) : Bool :=
  let mode := b.rd PWR_MODE.mode
  let h : Int := if clear then 8 * (b.rd PWR_THERM_CFG.hyst_c : Int) else 0
  let inMax : Int := 8 * ([40, 45, 50].getD mode 50 : Nat)
  let flowMin : Nat := [800, 600, 100].getD mode 100
  if level = 1 then
    decide (8 * (b.rd PWR_THERM_CFG.throttle_c : Int) - h ≤ hot) || decide (inMax - h < inlet)
  else
    decide (8 * (b.rd PWR_THERM_CFG.hold_c : Int) - h ≤ hot) || decide (inMax + 40 - h < inlet)
      || decide (flow * 100 < flowMin * (if clear then 85 else 80))

/-- One level's part of a sample: it enters, stays, or is left when clear for 10 ms. -/
def Blk.thermalLevel (b : Blk) (level : Nat) (hot inlet : Int) (flow detail : Nat) : Blk :=
  if b.power.levels.contains level then
    if b.thermalCond level hot inlet flow true then
      b.updPower fun p => { p with clear := Sp.set 0 p.clear level 0 }
    else
      let since := Sp.get 0 b.power.clear level
      if since = 0 then b.updPower fun p => { p with clear := Sp.set 0 p.clear level (b.now + 1) }
      else if since + 10000000 ≤ b.now + 1 then
        b.updPower fun p => { p with levels := p.levels.filter (· ≠ level), clear := Sp.set 0 p.clear level 0 }
      else b
  else if b.thermalCond level hot inlet flow false then
    (b.updPower fun p => { p with levels := p.levels ++ [level], clear := Sp.set 0 p.clear level 0 }).raise 0 uPower
      (if level = 1 then 0x0904 else 0x0901) (level + detail)
  else b

/-- A pair that differs by more than 5 °C (R300 row 10): the event when it begins to differ. -/
def Blk.pairCheck (b : Blk) (q : SensorPair) : Blk :=
  let id := (q.die.val, q.pair.val)
  let diff := decide (40 < (q.a - q.b).natAbs)
  if diff ∧ ¬b.power.mismatched.contains id then
    (b.raiseOpen 0 uPower 0x0903).updPower fun p => { p with mismatched := p.mismatched ++ [id] }
  else if ¬diff then b.updPower fun p => { p with mismatched := p.mismatched.filter (· ≠ id) }
  else b

/-- A sensor pair as it reads with an injection of detector 0x0F; a die whose rails are off offers it none (R365 note 2). -/
def Blk.pairRead (b : Blk) (q : SensorPair) : SensorPair × Blk :=
  let f := b.fire 0x0F fun i => i.die = q.die.val ∧ i.unit = q.pair.val ∧ ¬(onComputeRail i.die ∧ b.cdOff)
  (match f.1 with
    | some a => { q with a := q.a + sext 16 a }
    | none => q, f.2)

/-- THERMAL_SAMPLE (R357). -/
def thermalSampleFx (t : ThermalReading) (b : Blk) : Blk :=
  if b.dstate = stOff then b
  else
    let r := t.pairs.foldl (fun (x : List SensorPair × Blk) q =>
      let y := x.2.pairRead q
      (x.1 ++ [y.1], y.2.pairCheck y.1)) ([], b)
    let pairs := r.1
    let b := r.2
    let high (q : SensorPair) : Int := max q.a q.b
    let top : Option SensorPair := pairs.foldl (fun (m : Option SensorPair) q =>
      match m with
      | some x => if high x < high q then some q else some x
      | none => some q) none
    match top with
    | none => b
    | some q =>
      let hot := high q
      let inlet := max t.inletA t.inletB
      let b := (b.wr PWR_THERM_STAT.hottest (wrapInt 16 hot)).wr PWR_THERM_STAT.die q.die.val
      let b := (b.wr PWR_TELEM.inlet (wrapInt 16 inlet)).wr PWR_TELEM.outlet (wrapInt 16 t.outlet)
      let b := b.wr PWR_TELEM.flow (satur 16 t.flow)
      let d := q.die.val * 4 + q.pair.val * 2 ^ 7 + wrapInt 16 hot * 2 ^ 11
      let b := (b.thermalLevel 1 hot inlet t.flow d).thermalLevel 2 hot inlet t.flow d
      let b := b.wr PWR_THERM_STAT.level (b.power.levels.foldl max 0)
      if 8 * (b.rd PWR_THERM_CFG.trip_c : Int) ≤ hot ∨ t.regFault then b.trip q.die.val q.pair.val hot else b

/-! ### Rails (R353, R354) -/

/-- Range of a die's logic rail in mV: a compute die's VCORE, VHUB, or VMEM. -/
def railRange (d : Nat) : Nat × Nat := if 1 ≤ d ∧ d ≤ 12 then (600, 850) else (700, 850)

/-- AVS_ADJUST: one 5 mV step up at once when a monitor reports less than the guard, or down at most once per 1 ms. -/
def avsFx (die : Fin 19) (margin guard_ : Int) (b : Blk) : Blk :=
  let d := die.val
  let v := b.rd (PWR_AVS.vout_mv d)
  let rg := railRange d
  if ¬b.on (PWR_AVS.avs_en d) then b
  else if margin < guard_ then b.wr (PWR_AVS.vout_mv d) (if v + 5 ≤ rg.2 then v + 5 else v)
  else
    let last := Sp.get 0 b.power.avsDown d
    let low := max (b.rd (PWR_AVS.vmin_mv d)) rg.1
    if b.now < last ∨ v < low + 5 then b
    else (b.wr (PWR_AVS.vout_mv d) (v - 5)).updPower fun p => { p with avsDown := Sp.set 0 p.avsDown d (b.now + 1000000) }

/-- REGULATOR_POLL: the readings firmware takes from a regulator every 1 ms. -/
def regulatorPollFx (rail : Fin 40) (vout iout : Nat) (temp : Int) (b : Blk) : Blk :=
  if b.dstate ≤ stStandby then b
  else b.updPower fun p => { p with rails := Sp.set (0, 0, 0) p.rails rail.val (vout, iout, temp) }

def execModeChangeComplete (s : State) := onBlk s modeDoneFx
def execPowerCalibration (w : Nat) (s : State) := onBlk s (powerCalibrationFx w)
def execThermalSample (t : ThermalReading) (s : State) := onBlk s (thermalSampleFx t)
def execThermalTrip (d : BitVec 5) (n : BitVec 4) (t : Int) (s : State) := onBlk s (thermalTripFx d.toNat n.toNat t)
def execTripSettle (s : State) := onBlk s tripSettleFx
def execAvsAdjust (d : Fin 19) (m g : Int) (s : State) := onBlk s (avsFx d m g)
def execRegulatorPoll (r : Fin 40) (v i : Nat) (t : Int) (s : State) := onBlk s (regulatorPollFx r v i t)

end Sys2Proof.Machine
end

