-- ==== Sys2Proof/Machine/Ras.lean ====
section
/-!
DEFINITION. Reliability (12_reliability.md): fencing a core and remapping its site (R301, R302), targeted self-tests and
what a lasting fault is repaired with (R297 to R300), control cores, regulator phases, and the end of maintenance (R293).
Drains end in Drain.lean.
-/
namespace Sys2Proof.Machine

/-! ### Spares (R300) -/

/-- EV_SPARE_EXHAUSTED: row of the spares table and unit. -/
def Blk.exhausted (b : Blk) (die unit row : Nat) : Blk := b.raise die unit 0x0809 (row + unit * 2 ^ 8)

/-- Physical core in SPARE state of a kind (0 gust, 1 lee) on a compute die, that no fence has chosen. -/
def Blk.spareCore (b : Blk) (cd kind : Nat) : Option Nat :=
  (List.range 36).find? fun c =>
    b.rd (SITE_CORE.state cd c) = 1 ∧ b.rd (SITE_CORE.kind cd c) = kind ∧ ¬b.ras.fences.any fun f => f.cd = cd ∧ f.spare = c

/-- Some compute die has no spare core of a kind. -/
def Blk.coreSparesOut (b : Blk) : Bool :=
  (List.range 12).any fun cd => (b.spareCore cd 0).isNone || (b.spareCore cd 1).isNone

/-! ### Fencing (R301, R302) -/

def copyWords (k : Nat) : Nat := sramBytes k / 32 + 2 * recWords (isLee k)

/-- Copy time of a fence: network cycles at half the arithmetic clock. -/
def Blk.copyNs (b : Blk) (k : Nat) : Nat :=
  let cyc := sramBytes k / 128 + cdiv (2 * recWords (isLee k)) 4 + 48
  if b.mhz = 0 then 0 else cdiv (cyc * 2000) b.mhz

/-- Release that closes the lull window in progress, if the segment in progress lies in one. -/
def Blk.lullClose (b : Blk) : Option Nat :=
  match b.run.job with
  | none => none
  | some j =>
    if ¬(j.seg b.run.seg).lull then none
    else
      let run := (j.segsFrom j.segs.length b.run.seg).takeWhile fun n => (j.seg n).lull ∧ b.run.seg ≤ n
      (run.getLast?).map (b.relOf j)

/-- A fence of core `k` may start now: outside RUN, or inside a lull window that its copy fits. -/
def Blk.fenceFits (b : Blk) (k : Nat) : Bool :=
  if b.dstate ≠ stRun then true
  else match b.lullClose with
    | some t => decide (b.now + b.copyNs k < t)
    | none => false

/-- The core issues nothing and nothing of it is in flight. -/
def Blk.coreQuiet (b : Blk) (k : Nat) : Bool :=
  b.seqState k ≠ 1 && b.seqState k ≠ 4 && (b.core k).mats = [] && b.xfers.all (fun x => x.core ≠ k)

def Blk.updFence (b : Blk) (cd s : Nat) (f : Fence → Fence) : Blk :=
  b.updRas fun r => { r with fences := r.fences.map fun x => if x.cd = cd ∧ x.site = s then f x else x }

def Blk.endFence (b : Blk) (cd s : Nat) : Blk :=
  (b.updRas fun r => { r with fences := r.fences.filter fun x => ¬(x.cd = cd ∧ x.site = s) }).wr (SITE_FENCE.active cd) 0

def Blk.coreFenced (b : Blk) (f : Fence) (old spare : Nat) : Blk :=
  b.raise (f.cd + 1) f.site 0x0806 (f.site + old * 2 ^ 6 + spare * 2 ^ 12 + b2n f.ordered * 2 ^ 18)

/-- The drain is over: choose a spare and start the copy; without one the site is unserved. -/
def Blk.startCopy (b : Blk) (f : Fence) : Blk :=
  let k := f.cd * 32 + f.site
  let old := b.rd (SITE_MAP.phys f.cd f.site)
  match b.spareCore f.cd (b2n (isLee k)) with
  | some c =>
    let fin := b.now + b.copyNs k
    (b.updFence f.cd f.site fun x => { x with spare := c, stage := 1, copyEnd := fin }).wr (SITE_FENCE.spare f.cd) c
  | none =>
    let b := ((b.wr (SITE_MAP.unserved f.cd f.site) 1).wr (SITE_CORE.state f.cd old) 2).setSeqState k 6
    let b := (b.coreFenced f old 63).wr (SITE_FENCE.result f.cd) 2
    ((b.updCore k fun c => { c with draining := false }).endFence f.cd f.site).cause CTL_STATE.core_spares true

/-- End a running self-test of a core that is fenced (R302). -/
def Blk.endTest (b : Blk) (cd s : Nat) : Blk :=
  match Sp.get none b.ras.running (cd + 1) with
  | some t =>
    if t.unit.kind = 1 ∧ t.unit.unit = s then
      let b := b.updRas fun r => { r with running := Sp.set none r.running (cd + 1) none }
      ((b.wr (RAS_ST_LAST.aborted (cd + 1)) 1).wr (RAS_ST_LAST.kind (cd + 1)) 1).wr (RAS_ST_LAST.pass (cd + 1)) 0
    else b
  | none => b

/-- Fence logical site s of compute die cd (R301): at once, or in the next lull window that holds its copy. -/
def Blk.startFence (b : Blk) (cd s : Nat) (ordered : Bool) : Blk :=
  let k := cd * 32 + s
  if ¬b.served k ∨ b.ras.fences.any fun f => f.cd = cd ∧ f.site = s then b
  else if ¬b.fenceFits k then
    let f := Fence.mk cd s 36 ordered 0 0
    ((b.wr (SITE_FENCE.site cd) s).wr (SITE_FENCE.result cd) 3).updRas fun r => { r with deferred := addNew r.deferred f }
  else
    let f := Fence.mk cd s 36 ordered 0 0
    let b := (b.endTest cd s).updCore k fun c => { c with draining := true }
    let b := b.updRas fun r =>
      { r with fences := r.fences ++ [f], deferred := r.deferred.filter fun x => ¬(x.cd = cd ∧ x.site = s) }
    let b := ((b.wr (SITE_FENCE.site cd) s).wr (SITE_FENCE.active cd) 1).wr (SITE_FENCE.result cd) 0
    let b := b.wr (SITE_FENCE.copied cd) 0
    if b.coreQuiet k then b.startCopy f
    else b.updRas fun r => { r with drains := r.drains ++ [⟨0, k, b.now, 3⟩] }

/-- Deferred fences that fit now. -/
def Blk.retryFences (b : Blk) : Blk :=
  b.ras.deferred.foldl (fun b f => if b.fenceFits (f.cd * 32 + f.site) then b.startFence f.cd f.site f.ordered else b) b

/-- Copy a core's SRAM to the spare: each word as read, corrected if correctable, poisoned if not. -/
def Blk.scrubCore (b : Blk) (k : Nat) : Blk :=
  let keys := (b.err.map (·.1)).filter fun e => sramKey k ≤ e ∧ e < sramKey k + sramBytes k
  keys.foldl (fun b key => b.setRawWord key (b.readWord key).data (poisonErr (b.readWord key).poison)) b

/-- Switch the site to its spare (R301): the core's logic starts anew, its context slots go with it, and SEQ_FAULT and
SEQ_ICACHE are cleared (R166); VEC_NAN_LANES, which records lanes of the physical core, is cleared (R110). -/
def Blk.remap (b : Blk) (f : Fence) : Blk :=
  let k := f.cd * 32 + f.site
  let kind := b2n (isLee k)
  let old := b.rd (SITE_MAP.phys f.cd f.site)
  let b := b.wr (SITE_MAP.phys f.cd f.site) f.spare
  let b := ((b.wr (SITE_CORE.state f.cd f.spare) 0).wr (SITE_CORE.site f.cd f.spare) f.site).wr (SITE_CORE.state f.cd old) 2
  let b := (b.setReg (.seqFault f.cd f.site) 0).setReg (.seqIcache f.cd f.site) 0
  let b := (b.setReg (.vecNanLanes f.cd f.site 0) 0).setReg (.vecNanLanes f.cd f.site 1) 0
  let b := b.updCore k fun c => { c with draining := false, badHalves := [], mats := [], acc := [], loops := [], brs := [] }
  let b := ((b.coreFenced f old f.spare).wr (SITE_FENCE.result f.cd) 1).endFence f.cd f.site
  if (b.spareCore f.cd kind).isNone then (b.exhausted (f.cd + 1) f.site 1).cause CTL_STATE.core_spares true else b

/-- FENCE_COPY_COMPLETE: the copy ends; outside RUN the remap follows, in RUN it waits for the end of the lull window. -/
def fenceCopyFx (cd : Fin 12) (b : Blk) : Blk :=
  match b.ras.fences.find? fun f => f.cd = cd.val ∧ f.stage = 1 ∧ f.copyEnd ≤ b.now with
  | none => b
  | some f =>
    let k := f.cd * 32 + f.site
    let b := (b.scrubCore k).wr (SITE_FENCE.copied f.cd) (copyWords k)
    if b.dstate = stRun then b.updFence f.cd f.site fun x => { x with stage := 2 }
    else (b.remap f).setSeqState k 0

/-- Fences whose copies are complete are remapped at the release that closes a lull window. -/
def Blk.remapAll (b : Blk) : Blk := (b.ras.fences.filter fun f => f.stage = 2).foldl Blk.remap b

/-! ### Control cores (R300 row 7) -/

/-- Control cores of a die, and its spare: 8 and one in the hub, 3 and one on a compute die. -/
def ctlSpare (die : Nat) : Nat := if die = 0 then 8 else 3
def ctlUnit (die core : Nat) : Nat := if die = 0 then 5 + core else 42 + core

/-- A control core fails: the spare takes its tasks, if it is still free. -/
def Blk.ctlFail (b : Blk) (inj : Bool) (die core : Nat) : Blk :=
  let sp := ctlSpare die
  let free := ¬b.ras.ctlLost.any (fun x => x.1 = die) ∧ core ≠ sp
  let b := b.updRas fun r => { r with ctlLost := addNew r.ctlLost (die, core) }
  let b := b.raiseInj inj die (ctlUnit die core) 0x080D (core + (if free then sp else 15) * 16)
  if free then (b.exhausted die (ctlUnit die core) 7).cause CTL_STATE.other_spares true
  else b.cause CTL_STATE.other_spares true

/-- CTL_CORE_WATCHDOG: the core's watchdog expires; the core joins the self-test queue. -/
def ctlWatchdogFx (die : Fin 13) (core : Fin 9) (b : Blk) : Blk :=
  let d := die.val
  let c := core.val
  if b.dstate ≤ stStandby ∨ ctlSpare d < c ∨ b.ras.ctlLost.contains (d, c) ∨ (d ≠ 0 ∧ b.cdOff) then b
  else
    let f := b.fire 0x0D fun i => i.die = d ∧ i.unit = ctlUnit d c
    (f.2.ctlFail f.1.isSome d c).queueTest ⟨d, ctlUnit d c, 6, c, 1⟩

/-- REGULATOR_PHASE_FAIL: a rail sheds a phase; past its spare phase the cap falls by the rail's share (R300 row 8, R350). -/
def phaseFailFx (rail : Fin 40) (shareW : BitVec 16) (b : Blk) : Blk :=
  if b.dstate = stOff then b
  else
    let r := rail.val
    let n := Sp.get 0 b.power.phasesLost r + 1
    let f := b.fire 0x0E fun _ => true
    let b := f.2.updPower fun p => { p with phasesLost := Sp.set 0 p.phasesLost r n }
    let b := b.fresh.2.raiseInj f.1.isSome 0 uPower 0x0902 (b.fresh.1.toNat % 2 ^ 136)
    if n = 1 then (b.exhausted 0 uPower 8).cause CTL_STATE.other_spares true
    else (b.wr PWR_LIMIT.phase_cap_w (b.rd PWR_LIMIT.phase_cap_w - shareW.toNat)).showLimit

/-! ### Self-tests (R297 to R299) -/

/-- Duration of a test in ns, by kind (R298): row group, core, lane, granule, gather engine, Stavelink lane, control core. -/
def testNs (u : StUnit) : Nat :=
  [3000, if 28 ≤ u.unit then 150000 else 120000, 10000, 20000, 40000, 10000000, 5000000].getD u.kind 0

/-- The unit is idle enough to be tested; a granule in the intervals of R194 only. -/
def Blk.testable (b : Blk) (u : StUnit) : Bool :=
  let core := decide (1 ≤ u.die) && decide (u.die ≤ 12) && decide (u.unit < 32)
  let k := (u.die - 1) * 32 + u.unit
  if u.kind = 1 then b.coreQuiet k && !(b.swapping k) && b.served k
  else if u.kind = 0 ∧ core then !(b.swapping k)
  else if u.kind = 3 then b.mayCopy (chanOf u.arg)
  else if u.kind = 4 then (b.gathE (4 * (u.die - 1) + (u.unit - 36))).streams = []
  else true

/-- In RUN a test must fit in the open window (R297, R298). -/
def Blk.testFits (b : Blk) (u : StUnit) : Bool :=
  if b.dstate ≠ stRun then true
  else match b.ras.window with
    | some t => decide (b.now + testNs u ≤ t)
    | none => false

/-- UNIT_TEST_START: the first queued unit that is idle and whose test fits; it stays queued while it is tested. -/
def testStartFx (die : Fin 20) (b : Blk) : Blk :=
  let q := stQueue die.val
  if b.dstate ≤ stStandby ∨ (Sp.get none b.ras.running q).isSome ∨ (q ≠ 0 ∧ b.cdOff) then b
  else match (Sp.get [] b.ras.queues q).find? fun u => b.testable u ∧ b.testFits u with
    | none => b
    | some u =>
      let b := b.updRas fun r => { r with running := Sp.set none r.running q (some ⟨u, b.now⟩) }
      if u.kind = 1 then b.wr (SITE_CORE.state (u.die - 1) (b.rd (SITE_MAP.phys (u.die - 1) u.unit))) 3 else b

/-- The unit's transients within RAS_CFG.window_min. -/
def Blk.transientCount (b : Blk) (u : StUnit) : Nat :=
  let w := b.rd RAS_CFG.window_min * 60000000000
  (b.ras.transients.filter fun t =>
    t.die = u.die ∧ t.unit = u.unit ∧ t.kind = u.kind ∧ t.arg = u.arg ∧ b.now ≤ t.at_ + w).length

/-- Spare row group of a failed one, while its block has one left. -/
def Blk.spareRow (b : Blk) (u : StUnit) : Blk :=
  let core := decide (1 ≤ u.die) && decide (u.die ≤ 12) && decide (u.unit < 32)
  let bank := u.arg % 256
  let blk : RowBlock := ⟨u.die, u.unit, if core then bank else bank % 128, u.arg / 256 / 16⟩
  if b.ras.rowSpares.contains blk then
    if core then b.startFence (u.die - 1) u.unit false
    else (b.updRas fun r => { r with deadBlocks := addNew r.deadBlocks blk }).cause CTL_STATE.other_spares true
  else
    let b := b.updRas fun r => { r with rowSpares := r.rowSpares ++ [blk] }
    let b := b.raise u.die u.unit 0x0807 u.arg
    let b := b.exhausted u.die u.unit 2
    if core then b.satBy (SITE_CORE.rows_spared (u.die - 1) (b.rd (SITE_MAP.phys (u.die - 1) u.unit))) 1
    else b.cause CTL_STATE.other_spares true

/-- Spare die-to-die lane: 4 to an interface, which its die other than the hub names; both ends switch at the next anchor release, at once outside RUN. -/
def Blk.switchLane (b : Blk) (x : LaneSwap) : Blk :=
  b.raise x.die (d2dUnit x.die) 0x0808 (x.far + x.lane * 2 ^ 5 + x.spare * 2 ^ 12)
def Blk.spareLane (b : Blk) (u : StUnit) : Blk :=
  let far := u.arg / 128
  let face := max u.die far
  let used := Sp.get 0 b.ras.d2dSpares face
  if 4 ≤ used then b.cause CTL_STATE.other_spares true
  else
    let x : LaneSwap := ⟨u.die, far, u.arg % 128, 64 + used⟩
    let b := b.updRas fun r => { r with d2dSpares := Sp.set 0 r.d2dSpares face (used + 1) }
    let b := if b.dstate = stRun then b.updRas fun r => { r with d2dSwitch := r.d2dSwitch ++ [x] } else b.switchLane x
    if used = 3 then (b.exhausted u.die u.unit 3).cause CTL_STATE.other_spares true else b

/-- Repair a lasting fault with a spare of its kind (R299, R300); a lane of the on-die network has none. -/
def Blk.repair (b : Blk) (u : StUnit) : Blk :=
  if u.kind = 0 then b.spareRow u
  else if u.kind = 1 then (if b.on RAS_CFG.auto_fence then b.startFence (u.die - 1) u.unit false else b)
  else if u.kind = 2 then (if u.unit = d2dUnit u.die then b.spareLane u else b)
  else if u.kind = 3 then
    let md := u.die - 13
    match b.spareChan md with
    | some t =>
      match (List.range 32).find? fun l => b.rd (CHAN_MAP.phys md l) = u.unit with
      | some l => b.startMigration md l t
      | none => b
    | none => b.cause CTL_STATE.chan_spares true
  else if u.kind = 6 then (if b.ras.ctlLost.contains (u.die, u.arg) then b else b.ctlFail false u.die u.arg)
  else b

/-- UNIT_TEST_COMPLETE (R299): a pass is a transient, up to the limit that makes the fault lasting. -/
def testDoneFx (die : Fin 20) (passed : Bool) (b : Blk) : Blk :=
  let q := stQueue die.val
  match Sp.get none b.ras.running q with
  | none => b
  | some t =>
    let u := t.unit
    let b := b.updRas fun r =>
      { r with running := Sp.set none r.running q none,
               queues := Sp.set [] r.queues q ((Sp.get [] r.queues q).filter fun x =>
                 ¬(x.die = u.die ∧ x.unit = u.unit ∧ x.kind = u.kind ∧ x.arg = u.arg)) }
    let b := if u.kind = 1 then b.wr (SITE_CORE.state (u.die - 1) (b.rd (SITE_MAP.phys (u.die - 1) u.unit))) 0 else b
    let v := u.kind + (u.die + (u.unit % 2 ^ 11) * 2 ^ 5) * 2 ^ 8 + b2n passed * 2 ^ 24
      + satur 32 (b.now - t.started) * 2 ^ 32
    let b := b.setReg (.rasStLast q) v
    let b := if passed then
        b.updRas fun r => { r with transients := r.transients ++ [⟨u.die, u.unit, u.kind, u.arg, b.now⟩] } else b
    let n := b.transientCount u
    let core := decide (1 ≤ u.die) && decide (u.die ≤ 12) && decide (u.unit < 32)
    let b := if core ∧ u.kind = 1 then
        b.wr (SITE_CORE.transients (u.die - 1) (b.rd (SITE_MAP.phys (u.die - 1) u.unit))) (satur 8 n) else b
    let b := b.raise u.die u.unit (if passed then 0x0804 else 0x0805)
      (u.kind + (if u.kind = 2 then u.arg % 128 else u.arg) % 2 ^ 48 * 2 ^ 8 + satur 8 n * 2 ^ 56)
    if passed ∧ n < max 1 (b.rd RAS_CFG.transient_limit) then
      if u.kind = 5 then b.wr (PORT_LANE.state (u.unit + (u.die - 17) * 5) u.arg) 1
      else if u.kind = 6 then b.updRas fun r => { r with ctlLost := r.ctlLost.filter fun x => x ≠ (u.die, u.arg) }
      else b
    else b.repair u

/-! ### Maintenance (R293) -/

/-- Maintenance mode ends: every injection that has not fired is disarmed. -/
def Blk.endMaintenance (b : Blk) : Blk :=
  let b := (List.range 13).foldl (fun b d => b.wr (RAS_INJ_CTRL.armed d) 0) b
  let c := b.updRas fun r => { r with maintUntil := none, injects := [] }
  if b.ras.maintUntil.isSome then c.msix 5 else c

def maintExpiryFx (b : Blk) : Blk :=
  match b.ras.maintUntil with
  | some t => if t ≤ b.now then b.endMaintenance else b
  | none => b

def execFenceCopyComplete (c : Fin 12) (s : State) := onBlk s (fenceCopyFx c)
def execCtlCoreWatchdog (d : Fin 13) (c : Fin 9) (s : State) := onBlk s (ctlWatchdogFx d c)
def execRegulatorPhaseFail (r : Fin 40) (w : BitVec 16) (s : State) := onBlk s (phaseFailFx r w)
def execUnitTestStart (d : Fin 20) (s : State) := onBlk s (testStartFx d)
def execUnitTestComplete (d : Fin 20) (p : Bool) (s : State) := onBlk s (testDoneFx d p)
def execMaintenanceExpiry (s : State) := onBlk s maintExpiryFx

end Sys2Proof.Machine
end

