-- ==== Sys2Proof/Machine/Anchor.lean ====
section
/-!
DEFINITION. Scheduled events and anchors (02_machine_time.md, R41 to R45): entries that fall due, the image's entries, job
start, and the release of an anchor with all that takes effect there (R20, R152, R155, R178, R218, R236, R247, R253, R255,
R286, R301, R351). The start of an idle-calendar cycle stands in for an anchor outside RUN (R281).
-/
namespace Sys2Proof.Machine

/-! ### Entries that fall due (R43) -/

/-- Order in which due entries take effect: instant, action code, index. -/
def Blk.dueKey (b : Blk) (n : Nat) : Nat := (b.schedInst n * 256 + b.rd (MTC_SCHED_ACT.action n)) * 32 + n

/-- The entry that takes effect next: its instant lies 40 ns back or more. -/
def Blk.nextDue (b : Blk) : Option Nat :=
  let due := (List.range 32).filter fun n => b.on (MTC_SCHED_ACT.valid n) && decide (b.schedInst n + 40 ≤ b.now)
  due.find? fun n => due.all fun m => decide (b.dueKey n ≤ b.dueKey m)

/-- Entry `n` holds a placed disruptive command. -/
def Blk.holdsCmd (b : Blk) (n : Nat) : Bool := b.sched.placed.any fun p => p.entry = n ∧ p.inst = b.schedInst n

/-- Due entries of action 0x04 that hold no command take effect without one. -/
def Blk.dropOrphans (b : Blk) : Blk :=
  (List.range 32).foldl (fun b n =>
    if b.on (MTC_SCHED_ACT.valid n) ∧ b.rd (MTC_SCHED_ACT.action n) = 4 ∧ b.schedInst n + 40 ≤ b.now ∧ ¬b.holdsCmd n then
      b.wr (MTC_SCHED_ACT.valid n) 0 else b) b

/-- Take the next due entry if its action is `action`: the entry becomes invalid, and `f` acts on its index, argument and
instant. -/
def takeDue (action : Nat) (f : Nat → Nat → Nat → Blk → Blk) (b : Blk) : Blk :=
  let b := b.dropOrphans
  match b.nextDue with
  | none => b
  | some n =>
    if b.rd (MTC_SCHED_ACT.action n) ≠ action then b
    else f n (b.rd (MTC_SCHED_ACT.arg n)) (b.schedInst n) (b.wr (MTC_SCHED_ACT.valid n) 0)

def flipFx : Blk → Blk := takeDue 0x01 fun _ _ t b => b.flipAt t
def epochSwitchFx : Blk → Blk := takeDue 0x02 fun _ a _ b => ((b.switchEpoch (a % 2) 0).switchEpoch (a % 2) 1).closeOutputs
def modeChangeFx : Blk → Blk := takeDue 0x03 fun _ a t b => b.modeAction (a % 4) t

/-! ### The image's entries (R45) -/

/-- Instants of an image entry that lie from 10 µs to 1 ms ahead. DESIGN CHOICE (log entry 119): an entry with both prologue and
repeat set occurs once, counted from T_start; R45 gives the pair no meaning. -/
def Blk.imgInstants (b : Blk) (j : Job) (e : SchedImg) : List Nat :=
  let base := j.tStart + j.prologueNs
  let all := if e.prologue then [j.tStart + e.offset]
    else if ¬e.repeats ∨ j.stepNs = 0 then [base + e.offset]
    else
      let n0 := (b.now - base) / j.stepNs
      (List.range (1000000 / j.stepNs + 3)).map fun i => base + (n0 + i) * j.stepNs + e.offset
  all.filter fun t => b.now + 10000 ≤ t ∧ t ≤ b.now + 1000000

/-- Write the entries whose time has come into the table, each once. -/
def Blk.placeImage (b : Blk) : Blk :=
  match b.run.job with
  | none => b
  | some j =>
    if ¬b.locked then b
    else (j.sched.zipIdx).foldl (fun b e => (b.imgInstants j e.1).foldl (fun b t =>
      if b.run.imgPlaced.contains (e.2, t) then b
      else
        let old (x : Nat × Nat) : Bool := decide (b.now ≤ x.2)
        (b.placeSched e.1.action e.1.arg t).2.updRun fun r =>
          { r with imgPlaced := r.imgPlaced.filter old ++ [(e.2, t)] }) b) b

/-- A tick of machine time on an empty queue (log entry 4). -/
def Blk.passTime (b : Blk) : Blk := b.countTime.tick.placeImage.carryLinks

/-- Self-test windows (R297): the window ends at the next close that the image names, or at the entry in the table. -/
def Blk.windowEnd (b : Blk) (t : Nat) : Option Nat :=
  let table := ((List.range 32).filter fun n =>
    b.on (MTC_SCHED_ACT.valid n) ∧ b.rd (MTC_SCHED_ACT.action n) = 7 ∧ t ≤ b.schedInst n).map b.schedInst
  let img := match b.run.job with
    | some j => (j.sched.filter fun e => e.action = 7).flatMap (b.imgInstants j)
    | none => []
  match table ++ img with
  | [] => none
  | x :: xs => some (xs.foldl min x)

def windowOpenFx : Blk → Blk := takeDue 0x06 fun _ _ t b => b.updRas fun r => { r with window := b.windowEnd t }
def windowShutFx : Blk → Blk := takeDue 0x07 fun _ _ _ b => b.updRas fun r => { r with window := none }

/-! ### Collective channels (R236) -/

/-- A logical channel loses its physical channel: the hub saves its 16-word record, whose contents the spec does not lay
out (log entry 9), and a collective in progress is suspended. -/
def Blk.unbindChan (b : Blk) (j : Job) (c : Nat) : Blk :=
  if ¬b.on (COLL_CHAN.bound c) then b
  else
    let l := b.rd (COLL_CHAN.logical c)
    let rec_ := (List.range 16).foldl (fun (x : List MWord × Blk) _ =>
      (x.1 ++ [⟨x.2.fresh.1, false⟩], x.2.fresh.2)) ([], b)
    let b := rec_.2.writeDev (j.chanRec + 512 * l) rec_.1 0 uColl
    let b := b.wr (COLL_CHAN.bound c) 0
    match b.run? l with
    | some r => (b.setRun l (some { r with suspended := true })).wr (COLL_CHAN.suspended c) 1
    | none => b

/-- A logical channel takes physical channel `c`: a suspended collective resumes, with the packets it kept. -/
def Blk.bindChan (b : Blk) (j : Job) (l c : Nat) : Blk :=
  if b.pchanOf l = some c then b
  else
    let b := match b.pchanOf l with
      | some o => b.unbindChan j o
      | none => b
    let b := b.unbindChan j c
    let b := (List.range 16).foldl (fun b o =>
      if b.rd (COLL_CHAN.logical o) = l then (b.wr (COLL_CHAN.busy o) 0).wr (COLL_CHAN.suspended o) 0 else b) b
    let b := ((b.wr (COLL_CHAN.logical c) l).wr (COLL_CHAN.bound c) 1).wr (COLL_CHAN.suspended c) 0
    match b.run? l with
    | none => b.wr (COLL_CHAN.busy c) 0
    | some r =>
      let b := (b.wr (COLL_CHAN.busy c) 1).wr (COLL_CHAN.op c) r.op
      let r := { r with suspended := false }
      b.goOn r

/-- The bindings that take effect as segment `n` opens. -/
def Blk.bindColl (b : Blk) (j : Job) (n : Nat) : Blk :=
  let es := j.bindings.filter fun e => e.seg = n
  let b := (es.filter fun e => ¬e.bind).foldl (fun b e => b.unbindChan j e.pchan) b
  (es.filter fun e => e.bind).foldl (fun b e => b.bindChan j e.lchan e.pchan) b

/-! ### Port calendars (R218, R220) -/

/-- Segment `n`'s programs start on every port; a port that is not UP keeps the fixed program (R220). -/
def Blk.startCal (b : Blk) (j : Job) (n : Nat) : Blk :=
  let row := j.vcIndex.getD n []
  (List.range 10).foldl (fun b p =>
    let idx := if b.pstate p = psUp ∧ ¬(b.port p).deferAdmit then row.getD (b.logicalOf p) 0xFFFF else 0xFFFF
    (b.wr (PORT_CAL.program p) idx).restartCal p) b

/-- The idle program starts on every port. -/
def Blk.idleCalStart (b : Blk) : Blk :=
  (List.range 10).foldl (fun b p => (b.wr (PORT_CAL.program p) 0xFFFF).restartCal p) b

/-! ### What waits for an anchor, in any state -/

/-- A doubt is resolved (R256), a written limit applies (R20), spread is set (R361), die-to-die lanes switch (R300), gather
engines and collective channels return to service (R308), migrations advance (R194), and performance counters clear (R375, R164). -/
def Blk.anchorActs (b : Blk) : Blk :=
  let b := ((b.resolveAtAnchor.applyLimit).setSpread).copySome
  let lanes := b.ras.d2dSwitch
  let b := lanes.foldl Blk.switchLane (b.updRas fun r => { r with d2dSwitch := [] })
  let b := (List.range 48).foldl (fun b ge =>
    if (b.gathE ge).releaseAtAnchor then
      b.updGath ge fun g => { g with fenced := false, draining := false, releaseAtAnchor := false } else b) b
  let b := b.updColl fun c =>
    { c with fencedCh := c.fencedCh.filter fun x => ¬c.releaseCh.contains x, releaseCh := [] }
  let b := (List.range 20).foldl (fun b d => if b.on (PERF_CTRL.clear d) then b.perfClear d else b) b
  allCores.foldl (fun b k =>
    let cd := k / 32
    let s := k % 32
    if ¬b.on (SEQ_PERF_CTRL.clear cd s) then b
    else
      let b := (List.range 16).foldl (fun b c => (List.range 4).foldl (fun b e => b.wr (SEQ_STALL.count cd s e c) 0) b) b
      (b.wr (SEQ_ISSUED.count cd s) 0).wr (SEQ_PERF_CTRL.clear cd s) 0) b

/-! ### The phases of the commit (R253, R255) -/

/-- Every region of a shard has no write in flight, and no write into it was aborted. -/
def Blk.shardWhole (b : Blk) (j : Job) (i : Nat) (s : Shard) : Bool :=
  let r0 := b.inactiveSlot j / 2 ^ 21 + s.off
  (List.range s.len).all (fun r => decide ((b.region (r0 + r)).inFlight = 0)) && !(b.coll.abortedShard.contains i)

/-- Shard bits that the anchor of segment `n` sets. -/
def Blk.setShards (b : Blk) (j : Job) (n : Nat) : Blk :=
  let hit := (j.shards.zipIdx).filter fun e => j.stepSeg e.1.seg = n ∧ b.shardWhole j e.2 e.1
  if hit = [] then b
  else
    let new := hit.map (·.2)
    b.writeJournal fun x =>
      { x with bitmap := (List.range 1024).filter fun i => x.bitmap.contains i || new.contains i }

/-- The norm of the gradient (R135) at the end of REDUCE: the module's sum where no axis has a neighbour; the sum over the
axes that the image names is not laid out by the spec (log entry 9). -/
def Blk.gradNorm (b : Blk) : Blk :=
  if ¬b.on NUM_CTRL.hartoeg_norm then b
  else if (List.range 4).all fun x => b.axLen 0 x = 1 then b.setReg .numGnorm b.coll.normSum.toNat
  else b.fresh.2.setReg .numGnorm (b.fresh.1.toNat % 2 ^ 64)

/-- What the release of segment `n`'s closing anchor, at instant `t`, does for the attempt. -/
def Blk.commitPhase (b : Blk) (j : Job) (n t : Nat) : Blk :=
  if ¬j.commits ∨ (j.seg n).prologue then b
  else
    let live := b.attemptLive
    let b := if live ∧ n = j.stepSeg j.reduceSeg then b.writeJournal fun x => { x with phase := 1 } else b
    let b := if n = j.stepSeg j.prepareSeg then
        (if live then (b.writeJournal fun x => { x with phase := 2 }).updScale fun z => { z with boundary := some (t + 40) }
          else b).gradNorm else b
    let b := if live then b.setShards j n else b
    if n = j.stepSeg j.voteSeg then b.startVote j t else b

/-! ### The start of a step (R247, R255, R351) -/

/-- Crossbar calendars with those of a line variant (R258): its entries of the collective engine replace the image's entries of the same
owners. The image's entries keep their places, since transfer descriptors name them by number. -/
def Job.withXbar (j v : Job) : Job :=
  let rows := (List.range j.calRecs.length).map fun n =>
    let new := (v.xbarOf n).filter fun e => e.owner / 4096 = 3
    ((j.xbarOf n).map fun e => if new.any fun y => y.owner = e.owner then { e with len := 0 } else e) ++ new
  { j with
    xbar := rows.flatten,
    calRecs := (j.calRecs.zipIdx).map fun r =>
      { r.1 with xbar := ((rows.take r.2).map List.length).sum, xbarN := (rows.getD r.2 []).length } }

/-- VC calendars with those of a line variant on axis `x`'s ports (R246, R258). -/
def Job.withVc (j : Job) (x : Nat) (ws : List Word) : Job :=
  let at_ := j.vcPrograms.length
  let rows := Config.vcIndex ws
  let mix (n : Nat) (row : List Nat) : List Nat :=
    (List.range 10).map fun q => if axisOf q = x then (rows.getD n []).getD q 0xFFFF + at_ else row.getD q 0xFFFF
  { j with vcPrograms := j.vcPrograms ++ readPrograms ws, vcIndex := j.vcIndex.zipIdx.map fun e => mix e.2 e.1 }

/-- Put line variant `k` in force on axis `x` (R247, R258): the variant's calendars on that axis's ports, its step lists, and the crossbar
entries of its collectives. An image without one leaves the axis without a usable variant. -/
def Blk.applyVariant (b : Blk) (x k : Nat) : Blk :=
  let b := b.setReg .collFallback (setBits (b.reg .collFallback) (8 * x) 8 (k + 32))
  match b.run.job with
  | none => b
  | some j =>
    match j.lines.find? fun v => v.axis = x ∧ v.k = k with
    | none => b.cause CTL_STATE.no_variant true
    | some v =>
      let g : Img := ⟨j.imageAddr, j.words⟩
      let d := b.dirAt g v.off v.n
      let has (t : Nat) : Bool := d.any fun e => e.type = t
      let j := if has 0x0009 then j.withVc x (b.secWords g (secOf d 0x0009)) else j
      let j := if has 0x0007 then j.withXbar { j with xbar := b.readXbar g d, calRecs := b.readRecs g d } else j
      let ro := secOf d 0x0005
      let j := if has 0x0005 then { j with stepLists := j.stepLists ++ [(x, ro.off, ro.len)] } else j
      b.updRun fun r => { r with job := some j }

/-- The variants in force apply to the job that begins: they stay until a re-plan (R247). -/
def Blk.keepVariants (b : Blk) : Blk :=
  (List.range 4).foldl (fun b x => match b.lineOf x with
    | some k => b.applyVariant x k
    | none => b) b

/-- The line notices whose step start has come; an axis that has a variant keeps it. -/
def Blk.applyNotes (b : Blk) (start : Nat) : Blk :=
  let due := b.coll.notes.filter fun n => n.instant ≤ start
  let b := b.updColl fun c => { c with notes := c.notes.filter fun n => start < n.instant }
  due.foldl (fun b n => if (b.lineOf n.axis).isSome then b else b.applyVariant n.axis n.k) b

/-- A step starts: an attempt begins, and the near caches with it (R184). -/
def Blk.openStep (b : Blk) (j : Job) (start : Nat) : Blk :=
  let b := ((b.updRun fun r => { r with stepStart := start }).applyNotes start).clearAllNc
  let b := b.updColl fun c => { c with abortedShard := [], normSum := 0, normFlags := 0 }
  let b := b.updScale fun s => { s with rescaled := [], boundary := none }
  let b := (b.updRouter 0 fun r => { r with dropped := false }).updRouter 1 fun r => { r with dropped := false }
  let b := (b.cores.map (·.1)).foldl (fun b k => b.updCore k fun c => { c with consumed := [] }) b
  let b := if ¬j.commits then b
    else if b.journal.inDoubt then b.modFail
    else
      let st := b.rd NUM_STEP.step
      let at_ := b.rd NUM_STEP.attempt
      b.writeJournal fun x => { x with step := st, attempt := at_, phase := 0, bitmap := [], shards := j.shards.length }
  b.powerPlan j

/-! ### Opening a segment -/

/-- Longest that a calendar entry can still play after its segment opened, in nanoseconds: it starts by cycle 131,071 and lasts as many,
at 1.35 GHz (R171, R173). -/
def calNs : Nat := 200000

/-- What the hub does as segment `n` opens at release `rel`: calendars, bindings and swaps. -/
def Blk.openHub (b : Blk) (j : Job) (n rel : Nat) : Blk :=
  let b := b.updRun fun r =>
    { r with seg := n, lastRel := rel, rels := (r.rels.filter fun e => decide (rel < e.2 + calNs)) ++ [(n, rel)] }
  (((b.presentClaims rel).bindColl j n).startCal j n).bindSeg (j.seg n)

/-- Begin the job at T_start (R285). -/
def Blk.startJob (b : Blk) (j : Job) : Blk :=
  let b := ((b.enter stRun).wr CTL_ARM.phase (if b.run.stopAt.isSome then 6 else 5)).wr XBAR_STATUS.idle 0
  let b := b.updRun fun r => { r with stepStart := j.tStart + j.prologueNs }
  let rel := j.tStart + 40
  let b := b.placeImage.anchorActs.keepVariants
  let b := if (j.seg 0).prologue then b else b.openStep j (j.tStart + j.prologueNs)
  let j := b.run.job.getD j
  let b := b.openHub j 0 rel
  allCores.foldl (fun b k => b.releaseInto j k 0 rel 0) b

/-- JOB_START: scheduled action 0x05. -/
def jobStartFx : Blk → Blk := takeDue 0x05 fun _ _ _ b =>
  match b.run.job with
  | some j => if b.dstate = stArmed then b.startJob j else b
  | none => b

/-! ### The release of an anchor -/

/-- Cycles that core `k` waited for the release of segment `n`'s anchor, counted under its cause: 3 for the anchor, 11 in a
removed segment, 15 while it drains, for its vector engine too (R165). -/
def Blk.countWait (b : Blk) (k n rel : Nat) : Blk :=
  let c := b.core k
  let st := b.seqState k
  if b.segOf k ≠ n then b
  else
    let cyc := b.cycOfNs (rel - c.relNs)
    let wait := cyc - c.arrived.getD cyc
    let from_ := b.cycOfNs c.relNs + c.arrived.getD cyc
    if st = 2 then
      let x := if b.run.removed.contains n then 11 else 3
      (b.stall k 0 x wait).noteWait k from_ (from_ + wait) x
    else if st = 6 then ((b.stall k 0 15 wait).stall k 2 15 wait).noteWait k from_ (from_ + wait) 15
    else b

/-- Release core `k` from segment `n` into `next`: a core that has arrived, or faulted, or is draining; one that faulted while late
resumes at this release too (R161). A core still at work arrives late (R42). -/
def Blk.releaseCore (b : Blk) (j : Job) (k n next rel : Nat) : Blk :=
  let c := b.core k
  let st := b.seqState k
  if ¬((st = 2 ∧ b.segOf k = n) ∨ st = 5 ∨ st = 6) then b
  else
    let at_ := match c.arrived with
      | some a => c.relNs + b.nsOfCyc a
      | none => rel
    b.releaseInto j k next rel (if st = 2 then at_ - rel else 0)

/-- Collectives in progress are one anchor nearer to their deadline (R248). -/
def Blk.countDeadlines (b : Blk) : Blk :=
  (List.range 64).foldl (fun b l => match b.run? l with
    | some r => b.setRun l (some { r with anchorsLeft := r.anchorsLeft - 1 })
    | none => b) b

/-- Near-cache flushes asked for in RUN (R375). -/
def Blk.flushNc (b : Blk) : Blk :=
  (List.range 12).foldl (fun b cd =>
    if (b.nc cd).flushAtAnchor then (b.clearNc cd).wr (NCACHE_CTRL.flush cd) 0 else b) b

/-- The next segment after `n` starts a step. -/
def Job.startsStep (j : Job) (next : Nat) : Bool := decide (next = j.stepSeg 0)

/-- Start instant of the step that the anchor of segment `n` ends in front of. -/
def Blk.nextStart (b : Blk) (j : Job) (n : Nat) : Nat :=
  if (j.seg n).prologue then j.tStart + j.prologueNs else b.run.stepStart + j.stepNs

/-- An anchor release in RUN. -/
def Blk.runRelease (b : Blk) (j : Job) : Blk :=
  let n := b.run.seg
  let t := b.segInstant j n
  let rel := t + 40
  let next := j.nextSeg n
  let b := allCores.foldl (fun b k => b.countWait k n rel) b
  let b := b.anchorActs
  let b := ((b.commitPhase j n t).prefChecks).countDeadlines.flushNc
  let b := if (j.seg n).lull ∧ ¬(j.seg next).lull then b.remapAll else b
  let b := if j.startsStep next then ((if (j.seg n).prologue then b else b.expireStep).openStep j (b.nextStart j n)).placeImage
    else (b.thermalActs j).placeImage
  let j := b.run.job.getD j
  let b := b.openHub j next rel
  let b := if (j.seg next).lull then b.retryFences else b
  allCores.foldl (fun b k => b.releaseCore j k n next rel) b

/-! ### The end of a job (R286, R304) -/

/-- A drain of a function. A second request while one runs keeps its timer (R304). -/
def Blk.addDrain (b : Blk) (kind unit why : Nat) : Blk :=
  let same := b.ras.drains.filter fun d => d.kind = kind ∧ d.unit = unit
  if same.any fun d => d.why = why then b
  else
    let since := match same with
      | d :: _ => d.since
      | [] => b.now
    b.updRas fun r => { r with drains := r.drains ++ [⟨kind, unit, since, why⟩] }

/-- Drain every busy core, gather engine and collective channel. -/
def Blk.drainJob (b : Blk) (why : Nat) : Blk :=
  let b := allCores.foldl (fun b k =>
    if (b.core k).mats ≠ [] ∨ b.xfers.any (fun x => x.core = k) then b.addDrain 0 k why else b) b
  let b := (List.range 48).foldl (fun b ge =>
    if (b.gathE ge).streams = [] then b
    else (b.updGath ge fun g => { g with draining := true }).addDrain 1 ge why) b
  (List.range 16).foldl (fun b c =>
    if b.on (COLL_CHAN.bound c) ∧ (b.run? (b.rd (COLL_CHAN.logical c))).isSome then
      (b.updColl fun x => { x with drainCh := addNew x.drainCh c }).addDrain 3 c why
    else b) b

/-- An anchor release in DRAIN: at the first, issue stops, the idle calendar resumes (R174) and the drains begin; the hub's part goes
on. -/
def Blk.drainRelease (b : Blk) (j : Job) : Blk :=
  let n := b.run.seg
  let rel := b.relOf j n
  let next := j.nextSeg n
  let b := (b.anchorActs.prefChecks).countDeadlines.flushNc
  let b := if j.startsStep next then
      let t := b.nextStart j n
      b.updRun fun r => { r with stepStart := t } else b
  let b := b.updRun fun r => { r with seg := next, lastRel := rel }
  if b.run.stopped then b
  else
    let b := allCores.foldl (fun b k => if b.seqState k = 0 then b else b.setSeqState k 0) b
    let b := (b.wr XBAR_STATUS.idle 1).idleCalStart
    ((b.updRun fun r => { r with stopped := true }).wr CTL_ARM.phase 6).drainJob 1

/-- ANCHOR_RELEASE: 40 ns after the anchor's instant or later. -/
def anchorReleaseFx (b : Blk) : Blk :=
  match b.run.job with
  | none => b
  | some j =>
    if b.now < b.relOf j b.run.seg then b
    else if b.dstate = stRun then b.runRelease j
    else if b.dstate = stDrain ∧ b.power.tripAt.isNone then b.drainRelease j
    else b

/-! ### The end of DRAIN, and the idle calendar -/

/-- Nothing of the job is in flight. -/
def Blk.jobQuiet (b : Blk) : Bool :=
  b.xfers = [] && (b.cores.all fun e => e.2.mats = []) && (List.range 48).all (fun ge => (b.gathE ge).streams = [])
    && (List.range 64).all fun l => (b.run? l).isNone

/-- Ports admitted during the job leave the link-and-C3 program, and the port causes are evaluated (R278). -/
def Blk.endDefer (b : Blk) : Blk :=
  let b := (List.range 10).foldl (fun b p =>
    if (b.port p).deferAdmit then (b.updPort p fun s => { s with deferAdmit := false }).restartCal p else b) b
  b.portCauses

/-- DRAIN_STATE_EXIT (R260, R286): the drain is complete and the lull window is over. -/
def drainExitFx (b : Blk) : Blk :=
  let over_ : Bool := match b.run.lullEnd with
    | some t => decide (t + 40 ≤ b.now)
    | none => false
  if b.dstate ≠ stDrain ∨ b.power.tripAt.isSome ∨ ¬over_ ∨ ¬b.run.stopped ∨ ¬b.jobQuiet
      ∨ b.ras.drains.any (fun d => d.why = 1) then b
  else
    let b := b.updColl fun c => { c with drainCh := [] }
    let b := (List.range 48).foldl (fun b ge =>
      if (b.gathE ge).draining then b.updGath ge fun g => { g with draining := false } else b) b
    ((b.jobOver.idleCalStart).enter stReady).endDefer

/-- IDLE_CALENDAR_SLOT: the slot's class is shown; the first slot of a cycle stands in for an anchor (R281), and in ARMED the
image's entries are placed as their time comes. -/
def idleCalendarFx (b : Blk) : Blk :=
  if ¬b.idleCal then b
  else
    let b := idleSlotFx b
    if b.dstate = stDrain then b
    else
      let b := if b.now % 5000 < 1000 then
          let b := b.anchorActs.flushNc
          if b.locked then b else b.endDefer
        else b
      b.placeImage

def execAnchorRelease (s : State) := onBlk s anchorReleaseFx
def execFlip (s : State) := onBlk s flipFx
def execEpochSwitch (s : State) := onBlk s epochSwitchFx
def execModeChange (s : State) := onBlk s modeChangeFx
def execJobStart (s : State) := onBlk s jobStartFx
def execSelftestWindowOpen (s : State) := onBlk s windowOpenFx
def execSelftestWindowClose (s : State) := onBlk s windowShutFx
def execDrainStateExit (s : State) := onBlk s drainExitFx
def execIdleCalendarSlot (s : State) := onBlk s idleCalendarFx

end Sys2Proof.Machine
end

