-- ==== Sys2Proof/Machine/Keccak.lean ====
section
/-!
DEFINITION. SHAKE256 (FIPS 202), the digest that the spec names throughout (R2, R263, R312 to R329). The standard is the
spec's own reference; its tables are computed by FIPS 202's own rules. The state of 1,600 bits is one number: lane (x, y) is its bits from
64 (x + 5 y) on, and plane y its bits from 320 y on.
-/
namespace Sys2Proof.Machine

/-- Rotation offsets, by lane x + 5 y: the walk of FIPS 202's rho starts at (1, 0), takes (x, y) to (y, 2 x + 3 y), and turns
the lane of its step t by (t + 1) (t + 2) / 2. -/
def kWalk : Nat → Nat → Nat → Nat → Sp Nat
  | 0, _, _, _ => []
  | n + 1, x, y, t => (x + 5 * y, (t + 1) * (t + 2) / 2 % 64) :: kWalk n y ((2 * x + 3 * y) % 5) (t + 1)

def kTurnOf (lane : Nat) : Nat := Sp.get 0 (kWalk 24 1 0 0) lane

/-- The shift register behind iota, one step on; the seven bits that a round draws from it, bit j of them at place 2ʲ − 1 of
the round's constant; and the constants of `n` rounds from a register on. -/
def kShift (r : Nat) : Nat := if r < 128 then 2 * r else (2 * r) ^^^ 0x171

def kDraw (r : Nat) : Nat × Nat := (List.range 7).foldl (fun a j => (a.1 + a.2 % 2 * 2 ^ (2 ^ j - 1), kShift a.2)) (0, r)

def kIota : Nat → Nat → List Nat
  | 0, _ => []
  | n + 1, r => (kDraw r).1 :: kIota n (kDraw r).2

/-- Lane `i` and plane `y` of a state. -/
def kLane (s i : Nat) : Nat := (s >>> (64 * i)) % 2 ^ 64
def kPlane (s y : Nat) : Nat := (s >>> (320 * y)) % 2 ^ 320

/-- A lane rotated left by `n` bits. -/
def kRotl (v n : Nat) : Nat := (v <<< n) % 2 ^ 64 ||| v >>> (64 - n)

/-- A plane whose lane x is lane x + n of `c`. -/
def kTurn (c n : Nat) : Nat := c >>> (64 * n) ||| (c <<< (320 - 64 * n)) % 2 ^ 320

/-- One bit in each lane of a plane, and a state of five equal planes. -/
def kUnits : Nat := 1 + 2 ^ 64 + 2 ^ 128 + 2 ^ 192 + 2 ^ 256
def kFill (d : Nat) : Nat := d ||| d <<< 320 ||| d <<< 640 ||| d <<< 960 ||| d <<< 1280

/-- Every lane of a plane rotated left by one bit. -/
def kRotl1 (c : Nat) : Nat := ((c <<< 1) % 2 ^ 320 &&& (2 ^ 320 - 1 - kUnits)) ||| ((c >>> 63) &&& kUnits)

/-- For each lane of B, highest first, the lane of A that it comes from, and that lane's rotation: lane (x, y) of B is lane
(x + 3 y, x) of A. -/
def kFrom (j : Nat) : Nat := (j % 5 + 3 * (j / 5)) % 5 + 5 * (j % 5)
def kMoves : List (Nat × Nat) := (List.range 25).reverse.map fun j => (kFrom j, kTurnOf (kFrom j))

/-- Theta; rho and pi; chi; and one round, with iota. -/
def kTheta (s : Nat) : Nat :=
  let c := kPlane s 0 ^^^ kPlane s 1 ^^^ kPlane s 2 ^^^ kPlane s 3 ^^^ kPlane s 4
  s ^^^ kFill (kTurn c 4 ^^^ kTurn (kRotl1 c) 1)

def kRhoPi (s : Nat) : Nat := kMoves.foldl (fun r m => r <<< 64 ||| kRotl (kLane s m.1) m.2) 0

def kChi (p : Nat) : Nat := p ^^^ ((kTurn p 1 ^^^ (2 ^ 320 - 1)) &&& kTurn p 2)

def kStep (s rc : Nat) : Nat :=
  let r := kRhoPi (kTheta s)
  let f (y : Nat) : Nat := kChi (kPlane r y) <<< (320 * y)
  (f 0 ||| f 1 ||| f 2 ||| f 3 ||| f 4) ^^^ rc

def keccakF (s : Nat) : Nat := (kIota 24 1).foldl kStep s

/-- Bytes of one block. -/
def kRate : Nat := 136

def kAbsorb (s : Nat) (blk : List Byte) : Nat := keccakF (s ^^^ ofLeBytes blk)

/-- Absorb the last block, padded with the suffix of SHAKE and the pad10*1 rule. -/
def kFinish (s : Nat) (l : List Byte) : Nat :=
  let n := l.length
  let pad : List Byte := if n + 1 = kRate then [0x9F] else 0x1F :: (List.replicate (kRate - n - 2) 0 ++ [0x80])
  kAbsorb s (l ++ pad)

/-- Absorb a message, given as many units of fuel as it has blocks. -/
def kMessage : Nat → Nat → List Byte → Nat
  | 0, s, l => kFinish s l
  | fuel + 1, s, l => if l.length < kRate then kFinish s l else kMessage fuel (kAbsorb s (l.take kRate)) (l.drop kRate)

/-- Squeeze `n` blocks. -/
def kSqueeze : Nat → Nat → List Byte
  | 0, _ => []
  | n + 1, s => leBytes kRate s ++ kSqueeze n (keccakF s)

/-- `n` bytes of SHAKE256. -/
def shake256 (msg : List Byte) (n : Nat) : List Byte :=
  (kSqueeze (cdiv n kRate) (kMessage (msg.length / kRate) 0 msg)).take n

/-- The 256-bit digest, as a number of little-endian bytes (R5). -/
def digest (msg : List Byte) : Nat := ofLeBytes (shake256 msg 32)

end Sys2Proof.Machine
end

