-- ==== Sys2Proof/Machine/Discovery.lean ====
section
/-!
DEFINITION. Discovery (11_bring_up.md, R272 to R279): HELLO and the decision table, swapped cables, authentication of the
peer (13_security.md, R318, R319), the discovery timeout, and leaving DISCOVER and SYNC.
-/
namespace Sys2Proof.Machine

/-! ### Decisions (R273) -/

/-- EV_NEIGHBOUR_MISMATCH; the spec lays out no detail (log entry 9). -/
def Blk.mismatch (b : Blk) (p : Nat) : Blk := b.raiseOpen (portDie p) (portUnit p) 0x0703

/-- A port is not admitted: QUARANTINE with an outcome, and a hold where the table says so. -/
def Blk.shut (b : Blk) (p outcome : Nat) (hold : Bool) : Blk :=
  let b := ((b.quarantine p).wr (CTL_DISC.outcome p) outcome).wr (CTL_DISC.authenticated p) 0
  (b.updPort p fun s => { s with admitted := false, undecided := false, hold := hold }).portCauses

/-- A signature of the module over a message, 1,280 bytes. -/
def Blk.signature (b : Blk) (m : List Byte) : List Byte × Blk :=
  (leBytes 1280 (Config.falconSign (BitVec.ofNat 256 b.fpr) m b.fresh.1).toNat, b.fresh.2)

/-- First word of an AUTH payload: 1 CHALLENGE, 2 RESPONSE, and the sender's logical port (R318). -/
def authHead (kind lport : Nat) : Word := BitVec.ofNat 256 (kind + lport * 2 ^ 8)

def challengeWords (lport nonce : Nat) : List Word := [authHead 1 lport, BitVec.ofNat 256 nonce]

/-- Bytes as words, the last one zero-padded. -/
def wordsOfBytes (n : Nat) (l : List Byte) : List Word :=
  (List.range n).map fun i => BitVec.ofNat 256 (ofLeBytes ((l.drop (32 * i)).take 32))

/-- The ASCII bytes "STAVELINK-AUTH-1". -/
def authLabel : List Byte := [0x53, 0x54, 0x41, 0x56, 0x45, 0x4C, 0x49, 0x4E, 0x4B, 0x2D, 0x41, 0x55, 0x54, 0x48, 0x2D, 0x31]

/-- The 160 bytes that a RESPONSE on port `p` signs, for a verifier's nonce (R318). -/
def Blk.authMessage (b : Blk) (p nonce : Nat) : List Byte :=
  let peer := b.entryWord (b.planIndex (b.plannedPeer p (b.logicalOf p)).1) 0
  authLabel ++ leBytes 32 b.fpr ++ leBytes 32 peer ++ leBytes 32 ((b.port p).auth.nonce.getD 0) ++ leBytes 32 nonce
    ++ leBytes 3 (b.coord 0) ++ leBytes 1 (b.logicalOf p) ++ leBytes 12 0

/-- The payload of a RESPONSE (R318). -/
def Blk.responseWords (b : Blk) (p nonce : Nat) : List Word × Blk :=
  let s := b.signature (b.authMessage p nonce)
  ([authHead 2 (b.logicalOf p), BitVec.ofNat 256 nonce, BitVec.ofNat 256 ((b.port p).auth.nonce.getD 0)]
    ++ wordsOfBytes 57 (b.fbytes (fKey + 0x980) 1793) ++ wordsOfBytes 40 s.1, s.2)

/-- Send a CHALLENGE with a fresh nonce (R318). -/
def Blk.challenge (b : Blk) (p tries startAt : Nat) : Blk :=
  let n := b.fresh.1.toNat
  let b := b.fresh.2.updPort p fun s =>
    { s with auth := { s.auth with nonce := some n, sentAt := b.now, tries := tries, startAt := startAt } }
  b.emit (.auth p (challengeWords (b.logicalOf p) n))

/-- A FAILED axis port whose standby has just been admitted is covered at once. -/
def Blk.coverFailed (b : Blk) (s : Nat) : Blk :=
  if ¬b.idleStandby s then b
  else
    let hit := (servesPorts (b.rd (PORT_PLAN.serves s))).find? fun n =>
      b.pstate (b.physOf (s / 5) n) = psFailed ∧ b.dstate = stDiscover
    match hit with
    | some n => b.cover n (b.physOf (s / 5) n) s
    | none => b

/-- Discovery admits a port (R200, R203, R273, R278): UP or DEGRADED by its width, and its peer is challenged. A port that a standby has
replaced stays out of service (R210). -/
def Blk.takeIn (b : Blk) (p : Nat) (k : HelloKey) : Blk :=
  if (b.port p).retired then b.shut p 0 false else
  let st := b.pstate p
  let b := b.wr (PORT_STATE.level_minor p) (min 2 k.minor)
  let b := (b.wr (PORT_STATE.peer p) k.coord).wr (PORT_STATE.peer_port p) k.lport
  let b := if ¬(st = psTraining ∨ st = psQuar) then b
    else if 34 ≤ (b.port p).goodLanes then b.linkUp p psUp 34
    else (b.linkUp p psDegr 17).halve p
  let defer_ := b.locked || b.dstate = stDrain
  let b := b.wr (CTL_DISC.outcome p) (if (b.port p).permuted then 5 else 1)
  let was := (b.port p).admitted
  let b := b.updPort p fun s =>
    { s with admitted := true, undecided := false, hold := false, deferAdmit := s.deferAdmit || (defer_ && !was) }
  let b := if b.on (CTL_DISC.authenticated p) then b else b.challenge p 1 b.now
  (b.coverFailed p).portCauses

/-- Port r's settled peer, if three HELLOs agree. -/
def Blk.settled (b : Blk) (r : Nat) : Option HelloKey := if 3 ≤ b.rd (CTL_DISC.hellos r) then (b.port r).hello else none

/-- The planned ports other than `p` that should reach coordinate `c`; the one that also expects the peer's port first. -/
def Blk.wantedBy (b : Blk) (p : Nat) (k : HelloKey) : Option Nat :=
  let c := (List.range 10).filter fun r => r ≠ p ∧ b.planned r ∧ (b.plannedPeer r (b.logicalOf r)).1 = k.coord
  match c.find? fun r => (b.plannedPeer r (b.logicalOf r)).2 = k.lport with
  | some r => some r
  | none => c.head?

/-- Port r takes the swap row: its settled coordinate is the planned peer of another port, and not its own. -/
def Blk.swapped (b : Blk) (r : Nat) : Bool :=
  match b.settled r with
  | some k => b.planned r && !((b.port r).admitted) && decide (k.major = 1)
      && decide ((b.plannedPeer r (b.logicalOf r)).1 ≠ k.coord) && (b.wantedBy r k).isSome
  | none => false

/-- Planned asymmetry of port n in this module's entry (R268). -/
def Blk.planAsym (b : Blk) (n : Nat) : Nat := bits (b.entryWord (b.planIndex (b.coord 0)) 2) (16 * n) 16

/-- Serve logical `n` by physical `p`, with the asymmetry that the plan gives for `n` (R275). -/
def Blk.remapPort (b : Blk) (n p : Nat) : Blk :=
  ((b.mapPort n p).wr (MTC_PORT_CAL.asym p) (b.planAsym n)).updPort p fun s => { s with permuted := true, waitHellos := 0 }

/-- EV_NEIGHBOUR_PERMUTED; the spec lays out no detail. -/
def Blk.permutedEvent (b : Blk) (p : Nat) : Blk := b.raiseOpen (portDie p) (portUnit p) 0x0704

/-- R275: the set P of swapped ports is remapped when q is one-to-one on it, names no admitted port outside it, and widths agree, and is
refused where it cannot be. While a port that q names has no decision and has not settled, P may still grow, and the remap waits
(DEDUCED, log entry 135). -/
def Blk.trySwap (b : Blk) (p : Nat) : Blk :=
  let ps := (List.range 10).filter b.swapped
  let refuse (b : Blk) (l : List Nat) : Blk := l.foldl (fun b r => (b.mismatch r).shut r 7 true) b
  if ¬b.permuteOk then refuse b [p]
  else
    let q (r : Nat) : Nat := ((b.settled r).bind (b.wantedBy r)).getD r
    let qs := ps.map q
    let wide (r : Nat) : Bool := decide (34 ≤ (b.port r).goodLanes)
    let taken := qs.any fun r => (b.port r).admitted
    let once := qs.eraseDups.length = qs.length
    let even := ps.all fun r => wide r = wide (q r)
    if taken ∨ ¬once then refuse b ps
    else if qs.any (fun r => !ps.contains r && (b.settled r).isNone && b.rd (CTL_DISC.outcome r) = 0) then b
    else if ¬even then refuse b ps
    else
      let moves := ps.map fun r => (b.logicalOf (q r), r)
      (moves.foldl (fun b m => b.remapPort m.1 m.2) b).permutedEvent p

/-- The wrong logical port on the planned coordinate: the exchange of a length-2 axis (R275), then the wait of 10 HELLOs. -/
def Blk.wrongPort (b : Blk) (p : Nat) : Blk × Bool :=
  let n := b.logicalOf p
  let x := axisOf n
  let m := axisPort x (!isPlus n)
  if x < 4 ∧ b.axLen 0 x = 2 ∧ b.permuteOk ∧ coordAt (b.coord 0) x = 0 ∧ ¬(b.port p).permuted then
    let pm := b.physOf (p / 5) m
    (((b.remapPort m p).remapPort n pm).permutedEvent p, true)
  else
    let w := (b.port p).waitHellos
    if w < 10 then (b.updPort p fun s => { s with waitHellos := w + 1 }, false)
    else if (b.port p).permuted then
      let ps := (List.range 10).filter fun r => (b.port r).permuted
      (ps.foldl (fun b r => (b.mismatch r).shut r 7 true) b, false)
    else ((b.mismatch p).shut p 6 true, false)

/-- The decision on a settled port: the first matching row (R273). -/
def Blk.decidePort (b : Blk) (p : Nat) (k : HelloKey) : Blk :=
  let pl := b.plannedPeer p (b.logicalOf p)
  if k.major ≠ 1 then b.shut p 8 false
  else if ¬b.planned p then (b.raiseOpen (portDie p) (portUnit p) 0x0705).shut p 3 false
  else if k.coord = pl.1 ∧ k.fpr ≠ b.planFpr k.coord then (b.mismatch p).shut p 4 true
  else if k.coord = pl.1 ∧ (b.port p).authBad then b.shut p 9 true
  else if k.coord = pl.1 ∧ k.lport = pl.2 then b.takeIn p k
  else if k.coord = pl.1 then
    let r := b.wrongPort p
    let again := r.1.plannedPeer p (r.1.logicalOf p)
    if r.2 ∧ again.1 = k.coord ∧ again.2 = k.lport then r.1.takeIn p k else r.1
  else if (b.wantedBy p k).isSome then b.trySwap p
  else (b.mismatch p).shut p 6 true

/-- Evaluate a port: in QUARANTINE only in DISCOVER, and only where no decision stands (R200). -/
def Blk.evaluate (b : Blk) (p : Nat) : Blk :=
  let open_ := b.pstate p ≠ psQuar ∨ (b.dstate = stDiscover ∧ (b.port p).undecided)
  match b.settled p with
  | some k => if open_ ∧ b.rd (CTL_DISC.outcome p) = 0 then b.decidePort p k else b
  | none => b

/-- HELLO (R198, R273). -/
def helloFx (p : Port) (w : HelloWord) (b : Blk) : Blk :=
  let p := p.val
  let s := b.port p
  let final := b.pstate p = psTraining ∧ s.lockAt.isSome
  if ¬(final ∨ b.pLive p ∨ b.pstate p = psQuar) ∨ b.dstate < stDiscover ∨ b.dstate = stRecovery then b
  else
    let k : HelloKey := ⟨w.major.toNat, w.minor.toNat, w.coord.toNat, w.lport.toNat, w.fpr.toNat⟩
    if s.hello = some k then
      let n := b.rd (CTL_DISC.hellos p) + 1
      let b := b.wr (CTL_DISC.hellos p) (min 127 n)
      let b := if n ≠ 3 then b
        else
          let b := ((b.wr (CTL_DISC.peer p) k.coord).wr (CTL_DISC.peer_port p) k.lport).wr (CTL_DISC.outcome p) 0
          (b.wr (CTL_DISC.peer_major p) k.major).wr (CTL_DISC.peer_minor p) k.minor
      b.evaluate p
    else
      let newPeer := match s.hello with
        | some o => decide (o.fpr ≠ k.fpr)
        | none => false
      let b := b.updPort p fun s =>
        { s with hello := some k, waitHellos := 0, hold := false, undecided := s.undecided || b.pstate p = psQuar,
                 authBad := s.authBad && !newPeer }
      (b.wr (CTL_DISC.hellos p) 1).wr (CTL_DISC.outcome p) 0

/-! ### Authentication (R276, R318, R319) -/

/-- The CHALLENGE is answered with a RESPONSE while the module can sign (R315); it echoes the verifier's nonce and names the module's own,
which its admission of the port has made. -/
def authChallengeFx (p : Port) (_lport : BitVec 4) (nonce : BitVec 256) (b : Blk) : Blk :=
  let p := p.val
  if ¬(b.port p).admitted ∨ ¬b.on SEC_STATUS.key_ok ∨ ¬b.pLive p then b
  else
    let r := b.responseWords p nonce.toNat
    r.2.emit (.auth p r.1)

/-- Authentication fails: the port is disabled and retrained, and is not admitted again (R276). -/
def Blk.authFail (b : Blk) (p : Nat) : Blk :=
  let b := ((b.portDown p).startTraining p).mismatch p
  let b := b.wr (CTL_DISC.outcome p) 9
  b.updPort p fun s => { s with authBad := true, hold := true }

/-- AUTH_RESPONSE: discarded after success or for another nonce; else the three checks of R319. -/
def authResponseFx (p : Port) (echo : BitVec 256) (key : List Byte) (sigValid : Bool) (b : Blk) : Blk :=
  let p := p.val
  let s := b.port p
  if ¬s.admitted ∨ b.on (CTL_DISC.authenticated p) ∨ s.auth.nonce ≠ some echo.toNat then b
  else
    let want := b.entryWord (b.planIndex (b.plannedPeer p (b.logicalOf p)).1) 0
    if digest key = want ∧ key.length = 1793 ∧ sigValid then
      b.wr (CTL_DISC.authenticated p) 1
    else b.authFail p

def authRetryFx (p : Port) (b : Blk) : Blk :=
  let p := p.val
  let a := (b.port p).auth
  if (b.port p).admitted ∧ ¬b.on (CTL_DISC.authenticated p) ∧ a.nonce.isSome ∧ a.sentAt + 5000000 ≤ b.now ∧ a.tries < 3 then
    b.challenge p (a.tries + 1) a.startAt
  else b

def authTimeoutFx (p : Port) (b : Blk) : Blk :=
  let p := p.val
  let s := b.port p
  if s.admitted ∧ ¬b.on (CTL_DISC.authenticated p) ∧ s.auth.startAt + 20000000 ≤ b.now then b.authFail p else b

/-! ### Entering and leaving discovery (R273, R277, R279) -/

/-- Enter DISCOVER: every planned port is enabled and every port is evaluated anew. -/
def Blk.enterDiscover (b : Blk) : Blk :=
  (List.range 10).foldl (fun b p =>
    let b := b.wr (CTL_DISC.outcome p) 0
    let b := b.updPort p fun s =>
      { s with hold := false, permuted := false, waitHellos := 0, undecided := s.undecided || b.pstate p = psQuar }
    let b := if b.planned p then (b.wr (PORT_CTRL.enable p) 1).portEnabled p else b
    b.evaluate p) (b.enter stDiscover)

/-- DISCOVERY_TIMEOUT: planned ports that are unsettled or FAILED are disabled; a standby that is admitted covers them, else
the cause bit stands. -/
def discoveryTimeoutFx (b : Blk) : Blk :=
  if b.dstate ≠ stDiscover ∨ b.now < b.reg .ctlStateTime + b.discoverS * 1000000000 then b
  else (List.range 10).foldl (fun b p =>
    let failed := b.pstate p = psFailed ∧ b.rd (CTL_DISC.outcome p) ≠ 10
    if ¬b.planned p ∨ ¬(b.rd (CTL_DISC.outcome p) = 0 ∨ failed) then b
    else
      let n := b.logicalOf p
      let b := ((b.wr (PORT_CTRL.enable p) 0).portDisabled p).wr (CTL_DISC.outcome p) 2
      match b.standbyFor n with
      | some s => if axisOf n < 4 ∧ (b.port s).admitted ∧ b.idleStandby s then b.cover n p s else b.portCauses
      | none => b.portCauses) b

/-- A planned port no longer keeps the module in DISCOVER. -/
def Blk.portReady (b : Blk) (p : Nat) : Bool :=
  let o := b.rd (CTL_DISC.outcome p)
  ((b.port p).admitted && b.on (CTL_DISC.authenticated p) && (o = 1 || o = 5)) || o = 10 || o = 8 || (o = 2 && b.pstate p = psDown)

/-- The root role at the entry to SYNC with a counter that has kept counting, after a warm reset or a re-plan (DEDUCED, log entry 120,
for the re-plan): a module with root_enable set takes it unless a port advertises a root; every other module is a non-root
(R37, R279). -/
def Blk.rootAtSync (b : Blk) : Blk :=
  if ¬(b.rst.warmPath ∨ b.time.stepped) then b
  else if b.on MTC_CTRL.root_enable ∧ ¬b.rootAdvertised then b.takeRoot
  else b.wr MTC_STATUS.is_root 0

/-- DISCOVER_EXIT. -/
def discoverExitFx (b : Blk) : Blk :=
  let ok := (List.range 10).all fun p => (!(b.planned p) || b.portReady p) && !((b.port p).hold)
  if b.dstate ≠ stDiscover ∨ ¬ok then b
  else
    (b.enter stSync).rootAtSync

/-! ### Recovery of the journal (R257, R262) -/

/-- After a warm reset the journal at COLL_JOURNAL.addr, or the copy that a trip left in the always-on domain (R359), decides.
An address of 0, its reset value, names no journal. -/
def Blk.recoverJournal (b : Blk) : Blk :=
  let a := b.rd COLL_JOURNAL.addr
  if a = 0 ∨ b.memEnd < a + 256 then b
  else
    let ws := (List.range 8).map fun i => b.readWord (a + 32 * i)
    let j := b.coll.jcopy.getD (Journal.ofWords ws)
    let b := b.updColl fun c => { c with jcopy := none }
    let set (b : Blk) (f : Journal → Journal) : Blk :=
      let x := f j
      ((b.writeJournal fun _ => x).wr NUM_STEP.step x.step).wr NUM_STEP.attempt x.attempt
    let back : Journal := { j with phase := 5, attempt := (j.attempt + 1) % 256, inDoubt := false }
    if j.phase ≤ 2 ∨ (j.phase = 3 ∧ j.ownVote ≠ 0) then set b fun _ => { back with outcome := 3 }
    else if j.phase = 3 then set b fun j => { j with inDoubt := true }
    else if j.phase = 4 ∧ j.outcome = 1 then
      set b fun j =>
        { j with phase := 5, attempt := 0, step := (j.step + 1) % 2 ^ 32, active := 1 - j.active, inDoubt := false }
    else if j.phase = 4 then set b fun _ => back
    else set b id

/-- Entering READY from SYNC: the journal after a warm reset (R262), the rollback floor that the firmware asks for (R311), the
change to the default mode (R346, R348). -/
def Blk.enterReady (b : Blk) : Blk :=
  let b := b.enter stReady
  let b := if b.rst.warmPath then b.recoverJournal.updRst fun r => { r with warmPath := false } else b
  let b := match b.sec.burnFloor with
    | some f => (b.wr SEC_STATUS.floor (max f (b.rd SEC_STATUS.floor))).updSec fun s => { s with burnFloor := none }
    | none => b
  let m := b.rd PWR_MODE.default_mode
  if m = b.rd PWR_MODE.mode ∨ m = 3 then b else b.startMode m b.now

/-- SYNC_EXIT (R260, R279): READY, or FENCED for a module that is expelled. -/
def syncExitFx (b : Blk) : Blk :=
  let locked := b.on MTC_STATUS.locked
  let ok := locked && (b.on MTC_STATUS.is_root || decide (b.rd MTC_STATUS.hops < 63))
  if b.dstate ≠ stSync ∨ ¬ok then b
  else if b.rst.expelled then b.enter stFenced
  else b.enterReady

def execHello (p : Port) (w : HelloWord) (s : State) := onBlk s (helloFx p w)
def execAuthChallenge (p : Port) (l : BitVec 4) (n : BitVec 256) (s : State) := onBlk s (authChallengeFx p l n)
def execAuthResponse (p : Port) (e : BitVec 256) (k : List Byte) (v : Bool) (s : State) := onBlk s (authResponseFx p e k v)
def execAuthRetryTimeout (p : Port) (s : State) := onBlk s (authRetryFx p)
def execAuthTimeout (p : Port) (s : State) := onBlk s (authTimeoutFx p)
def execDiscoveryTimeout (s : State) := onBlk s discoveryTimeoutFx
def execDiscoverExit (s : State) := onBlk s discoverExitFx
def execSyncExit (s : State) := onBlk s syncExitFx

end Sys2Proof.Machine
end

