-- ==== Sys2Proof/Machine/Events.lean ====
section
/-!
DEFINITION. The event ring and what the module sends about it: committing held records, closing coalescing milliseconds,
pushes and status messages (12_reliability.md, R18, R295, R296, R307; 14_host_management.md, R339).
-/
namespace Sys2Proof.Machine

/-- Bytes as words, the last one filled with zeros. -/
def byteWords (l : List Byte) : List MWord :=
  (List.range (cdiv l.length 32)).map fun i => ⟨BitVec.ofNat 256 (ofLeBytes ((l.drop (32 * i)).take 32)), false⟩

/-- A segment's header (R338): type, status, auth, request, body length, segment, segments, and the relay word. -/
structure SegHead where
  mtype : Nat
  status : Nat
  auth : Nat
  requestId : Nat
  length : Nat
  seg : Nat
  segs : Nat
  relay : Nat
  deriving DecidableEq, Repr

def SegHead.bytes (h : SegHead) : List Byte :=
  leBytes 4 0x54584D47 ++ leBytes 1 1 ++ leBytes 1 h.mtype ++ leBytes 1 h.status ++ leBytes 1 h.auth ++ leBytes 8 h.requestId
    ++ leBytes 4 h.length ++ leBytes 2 h.seg ++ leBytes 2 h.segs ++ leBytes 4 h.relay ++ leBytes 4 0

/-- Body of a message of the module as it travels: signed but for the error reply, over header bytes 4 to 19, the fingerprint and the body
(R339). -/
def Blk.signedBody (b : Blk) (h : SegHead) (body : List Byte) : List Byte × Blk :=
  if h.mtype = 0x31 then (body, b)
  else
    let s := b.signature ((h.bytes.drop 4).take 16 ++ leBytes 32 b.fpr ++ body)
    (body ++ s.1, s.2)

/-- A reply goes back to the module that relayed its request, cut into the segments of MGMT packets (R338, R340). -/
def Blk.sendBack (b : Blk) (coord mtype requestId status : Nat) (body : List Byte) : Blk :=
  let len := body.length + (if mtype = 0x31 then 0 else 1280)
  let segs := max 1 (cdiv len 1408)
  let h : SegHead := ⟨mtype, status, 0xFF, requestId, len, 0, segs, coord + 2 ^ 31⟩
  let m := b.signedBody h body
  (List.range segs).foldl (fun b i =>
    let ws := byteWords ({ h with seg := i }.bytes ++ (m.1.drop (1408 * i)).take 1408)
    b.inject 0 ⟨BitVec.ofNat 256 (mkHdr 0x12 coord (b.coord 0) 3 ws.length), ws⟩) m.2

/-- Send a message, or the reply of a request that came relayed the way it came (R340). -/
def Blk.dispatchMsg (b : Blk) (dst mtype requestId status : Nat) (body : List Byte) : Blk :=
  match b.mgmt.relayFrom.find? fun r => 0x30 ≤ mtype ∧ r.auth.toNat = dst % 256 ∧ r.requestId.toNat = requestId with
  | some r => (b.updMgmt fun m => { m with relayFrom := m.relayFrom.erase r }).sendBack r.coord mtype requestId status body
  | none => b.emit (.message dst mtype requestId status body)

/-- A message of the module (R339): signed, so only while the device key is unwrapped; a reply that cannot be signed is the
unsigned error with status 7. Destination is an authority's index, or 0xFF for a requester that names none. -/
def Blk.send (b : Blk) (dst mtype requestId status : Nat) (body : List Byte) : Blk :=
  if b.on SEC_STATUS.key_ok then b.dispatchMsg dst mtype requestId status body
  else if mtype = 0x30 then b.dispatchMsg dst 0x31 requestId 7 []
  else b

/-- Send to every fault manager of the plan. -/
def Blk.sendFaultMgrs (b : Blk) (mtype : Nat) (body : List Byte) : Blk :=
  b.faultMgrs.foldl (fun b a => b.send a mtype 0 0 body) b

/-- Record `x` comes before `y` (R18). -/
def EvRec.before (x y : EvRec) : Bool :=
  decide (x.time < y.time) || (x.time = y.time && (decide (x.die < y.die) || (x.die = y.die && decide (x.unit ≤ y.unit))))

/-- The held record that the ring takes next. -/
def Blk.nextHeld (b : Blk) : Option EvRec := b.ev.held.find? fun x => b.ev.held.all fun y => x.before y

/-- Remember a record of severity 3 or higher among the last 32 (R295). -/
def Blk.keepRec (b : Blk) (x : EvRec) : Blk :=
  if x.severity < 3 then b
  else b.updEv fun e =>
    let l := e.kept ++ [x.pack]
    { e with kept := l.drop (l.length - 32) }

/-- Keep what is still held, in ring order. -/
def Blk.keepHeld (b : Blk) : Nat → Blk
  | 0 => b
  | n + 1 =>
    match b.nextHeld with
    | none => b
    | some x => ((b.updEv fun e => { e with held := e.held.erase x }).keepRec x).keepHeld n

/-- EVENT_RECORD_COMMIT: the next record enters the ring once its 2 µs have passed; it is pushed from severity 2 up, and
raises vector 0 from CXL_CFG.msix_min_sev up (R336). -/
def eventCommitFx (b : Blk) : Blk :=
  match b.nextHeld with
  | none => b
  | some x =>
    if b.now < x.time + 2000 then b
    else
      let n := b.rd CTL_EV_WR.index
      let b := (b.updEv fun e =>
        { e with held := e.held.erase x, ring := Sp.set 0 e.ring (n % 4096) x.pack }).keepRec x
      let b := b.incBy CTL_EV_WR.index 1
      let b := if x.severity < 2 then b else b.sendFaultMgrs 0x20 (leBytes 4 n ++ leBytes 32 x.pack.toNat)
      if b.rd CXL_CFG.msix_min_sev ≤ x.severity then b.msix 0 else b

/-- EVENT_COALESCE_FLUSH: a coalescing millisecond ends, with a follow-up record where occurrences were folded. -/
def coalesceFlushFx (b : Blk) : Blk :=
  match b.ev.coal.find? fun c => c.opened + 1000000 ≤ b.now with
  | none => b
  | some c =>
    let b := b.updEv fun e => { e with coal := e.coal.erase c }
    if c.count = 0 then b else b.hold c.followUp

/-- STATUS_MESSAGE: CTL_STATE, CTL_EV_WR, MTC_NOW and the plan's serial, every 1 s. -/
def statusFx (b : Blk) : Blk :=
  if b.dstate = stOff ∨ b.now < b.ras.lastStatus + 1000000000 then b
  else
    let body := leBytes 8 (b.reg .ctlState) ++ leBytes 8 (b.reg .ctlEvWr) ++ leBytes 8 b.now
      ++ leBytes 4 (b.rd CTL_BOOT.plan_serial)
    (b.updRas fun r => { r with lastStatus := b.now }).sendFaultMgrs 0x21 body

def execEventRecordCommit (s : State) := onBlk s eventCommitFx
def execEventCoalesceFlush (s : State) := onBlk s coalesceFlushFx
def execStatusMessage (s : State) := onBlk s statusFx

end Sys2Proof.Machine
end

