-- ==== Sys2Proof/Machine/Boot.lean ====
section
/-!
DEFINITION. Start-up and resets: BOOT with the checks of firmware, identity and plan (11_bring_up.md R260 to R271;
13_security.md R310 to R323), the self-test and training states, power and reset inputs (17_module_interface.md R389 to
R392), cold start and warm reset (12_reliability.md R305, R306).
-/
namespace Sys2Proof.Machine

/-! ### Measurement log (R312, R313) -/

/-- Append a log entry; a full log loses its oldest appended entry. -/
def Blk.appendLog (b : Blk) (kind d : Nat) : Blk :=
  let n := b.sec.logNext
  let e : LogEntry := ⟨kind, n, b.now, BitVec.ofNat 256 d⟩
  let chain := digest (leBytes 32 b.sec.chain.toNat ++ leBytes 1 kind ++ leBytes 4 n ++ leBytes 32 d)
  let b := b.updSec fun s =>
    let l := if 256 ≤ s.log.length then s.log.take 6 ++ s.log.drop 7 else s.log
    { s with log := l ++ [e], chain := BitVec.ofNat 256 chain, logNext := n + 1 }
  b.wr SEC_STATUS.log_entries b.sec.log.length

/-! ### Firmware (R265, R310) -/

def Blk.fwBytes (b : Blk) : Nat := bits b.layoutHdr 64 32
def Blk.planBytes (b : Blk) : Nat := bits b.layoutHdr 96 32
def Blk.certBytes (b : Blk) : Nat := bits b.layoutHdr 128 32
def Blk.defaults (b : Blk) : Nat := bits b.layoutHdr 160 16

/-- The layout header keeps the rules of R265. -/
def Blk.layoutOk (b : Blk) : Bool :=
  let h := b.layoutHdr
  decide (bits h 0 32 = 0x54584346) && decide (bits h 32 8 = 1) && decide (b.fwBytes ≤ 0x1800000)
    && decide (b.planBytes ≤ 0x700000) && decide (b.certBytes ≤ 0xE0000) && decide (b.defaults ≤ 3840)

/-- The firmware header, its security version and its floor bit. -/
def Blk.fwHdr (b : Blk) : Nat := ofLeBytes (b.fbytes fFw 32)
def Blk.fwSvn (b : Blk) : Nat := bits b.fwHdr 40 8

/-- The firmware header keeps the table of R310, and its version is not below the floor (R311). -/
def Blk.fwHdrOk (b : Blk) : Bool :=
  let h := b.fwHdr
  decide (bits h 0 32 = 0x46575458) && decide (bits h 32 8 = 1) && decide (b.fwSvn ≤ 63) && decide (bits h 49 15 = 0)
    && decide (bits h 64 32 + 1280 + 32 = b.fwBytes) && decide (bits h 96 160 = 0)
    && decide (b.rd SEC_STATUS.floor ≤ b.fwSvn)

/-- The boot-ROM key under which the firmware verifies: the first, or the second; a revoked key is skipped. -/
def Blk.fwKey (b : Blk) (sig0 sig1 : Bool) : Option Nat :=
  if ¬b.fwHdrOk then none
  else if sig0 ∧ ¬b.on SEC_STATUS.revoked0 then some 0
  else if sig1 ∧ ¬b.on SEC_STATUS.revoked1 then some 1
  else none

/-- The firmware fails: EV_FW_INVALID, whose detail the spec does not lay out, and RECOVERY with the result. -/
def Blk.fwFail (b : Blk) (result : Nat) : Blk := ((b.raiseOpen 0 uDie 0x0701).wr CTL_BOOT.result result).enter stRecovery

/-- The plan's length in words, held within its region. -/
def Blk.planLenWords (b : Blk) : Nat := min b.planWords 0x38000

/-- The six fixed entries (R312), the key that verified, and a floor to burn at READY (R311). -/
def Blk.takeFirmware (b : Blk) (key : Nat) : Blk :=
  let b := b.wr SEC_STATUS.fw_key key
  let b := b.updSec fun s => { s with burnFloor := if bit b.fwHdr 48 then some b.fwSvn else none }
  let b := b.appendLog 1 Config.bootRomDigest.toNat
  let b := b.appendLog 2 (digest (b.fbytes fFw b.fwBytes))
  let b := b.appendLog 3 (digest (b.fbytes 0 0x1000 ++ b.fbytes fDefaults (16 * b.defaults)))
  let b := b.appendLog 4 (digest (b.fbytes fPlan (32 * b.planLenWords)))
  let b := b.appendLog 5 (digest (b.fbytes fCert b.certBytes))
  b.appendLog 6 (digest (b.fbytes fKey 0x2000))

/-! ### Identity and the plan authority anchor (R314 to R316, R323) -/

/-- The ASCII bytes "TXWRAP" and "TXANCH". -/
def txWrap : List Byte := [0x54, 0x58, 0x57, 0x52, 0x41, 0x50]
def txAnch : List Byte := [0x54, 0x58, 0x41, 0x4E, 0x43, 0x48]

/-- The anchor region is all ones. -/
def Blk.anchorBlank (b : Blk) : Bool := (b.fbytes (fKey + 0x1100) 64).all fun x => x = 0xFF

/-- The anchor's tag holds under K_m. -/
def Blk.anchorTagOk (b : Blk) : Bool :=
  shake256 (leBytes 32 b.sec.km.toNat ++ b.fbytes (fKey + 0x1100) 32) 32 = b.fbytes (fKey + 0x1120) 32

def Blk.anchor (b : Blk) : Nat := ofLeBytes (b.fbytes (fKey + 0x1100) 32)

/-- Write an anchor with its tag. -/
def Blk.setAnchor (b : Blk) (d : Nat) : Blk :=
  let tag := shake256 (leBytes 32 b.sec.km.toNat ++ leBytes 32 d) 32
  (b.setFbytes (fKey + 0x1100) (leBytes 32 d ++ tag)).wr SEC_STATUS.anchor_set 1

/-- The device key is unwrapped, the fingerprint shown, the chain's result kept. -/
def Blk.identity (b : Blk) (x : BootInput) : Blk :=
  let secret := leBytes 32 x.pufSecret.toNat
  let kw := shake256 (secret ++ txWrap) 32
  let ok := shake256 (kw ++ b.fbytes (fKey + 0x20) 32 ++ b.fbytes (fKey + 0x40) 2305) 32 = b.fbytes (fKey + 0x960) 32
  let fpr := digest (b.fbytes (fKey + 0x980) 1793)
  let b := b.updSec fun s => { s with km := BitVec.ofNat 256 (digest (secret ++ txAnch)) }
  let b := (b.wrB SEC_STATUS.key_ok (ok && x.pubMatches)).wrB SEC_STATUS.cert_ok x.chainOk
  let b := (List.range 4).foldl (fun b h => b.wr (SEC_FPR.fpr h) (bits fpr (64 * h) 64)) b
  b.wrB SEC_STATUS.anchor_set (!b.anchorBlank && b.anchorTagOk)

/-! ### The plan's checks (R270) -/

/-- Signatures of a plan certificate whose words start at `off`: signer and result, one for each slot. -/
def Blk.planSlots (b : Blk) (sigs : List Bool) : List (Nat × Bool) :=
  (List.range (bits (b.planWord b.sigOff) 0 5)).map fun i =>
    (bits (b.planWord (b.sigOff + 1 + 41 * i)) 0 5, sigs.getD i false)

/-- Distinct signers that verify and that the plan's authority table holds. -/
def Blk.signers (b : Blk) (slots : List (Nat × Bool)) : List Nat :=
  (((slots.filter (·.2)).map (·.1)).filter fun a => a < b.planAuths).eraseDups

/-- At least k distinct fault managers of this plan's table among the signers. -/
def Blk.faultQuorum (b : Blk) (l : List Nat) : Bool := b.planK ≤ (l.filter b.isFaultMgr).length

/-- Digest of the authority table. -/
def Blk.tableDigest (b : Blk) : Nat := digest (b.fbytes (fPlan + 32 * b.authOff) (32 * 64 * b.planAuths))

/-- The certificate of check 0x02: checks 1, 6 and 7 of R322 under the plan's own table, and the anchor. -/
def Blk.planCertOk (b : Blk) (sigs : List Bool) : Bool :=
  let h := b.planWord b.sigOff
  decide (bits h 5 3 = 0) && decide (bits h 8 5 = 4) && decide (h / 2 ^ 13 = 0)
    && b.faultQuorum (b.signers (b.planSlots sigs))
    && (b.anchorBlank || (b.anchorTagOk && decide (b.anchor = b.tableDigest)))

/-- Role codes of the four axes. -/
def Blk.planRoles (b : Blk) : List Nat := (List.range 4).map fun x => bits (b.planWord 0) (112 + 3 * x) 3

/-- Check 0x04: no reserved role, and none but NONE twice. -/
def Blk.planRolesOk (b : Blk) : Bool :=
  let used := b.planRoles.filter (· ≠ 0)
  b.planRoles.all (fun r => decide (r ≤ 4)) && decide (used.eraseDups.length = used.length)

/-- Table positions that hold the module's fingerprint. -/
def Blk.ownEntries (b : Blk) : List Nat := (List.range b.planModules).filter fun i => b.entryWord i 0 = b.fpr

/-- Check 0x07: one root, and no backup rank twice. -/
def Blk.planRootsOk (b : Blk) : Bool :=
  let ws := (List.range b.planModules).map fun i => b.entryWord i 1
  decide ((ws.filter fun w => bit w 20).length = 1)
    && [1, 2, 3].all fun r => decide ((ws.filter fun w => bits w 21 2 = r).length ≤ 1)

/-- Check 0x08 for one port of an entry. -/
def Blk.planPortOk (b : Blk) (w p : Nat) : Bool :=
  let role := bits w (64 + 8 * p) 2
  let serves := bits w (66 + 8 * p) 4
  if p = 4 ∨ p = 9 then
    let names := servesPorts serves
    let len (n : Nat) : Nat := b.planLen (axisOf n)
    if role = 0 then false
    else if role = 1 then names ≠ [] && decide (1 < b.planLen (serves % 4)) && (names.length = 1 || decide (b.planLen (serves % 4) = 2))
    else if role = 2 then decide (serves < 10) && decide (axisOf serves < 4) && decide (1 < len serves)
    else true
  else if b.planLen (axisOf p) = 1 then role = 3
  else role = 0

def Blk.planPortsOk (b : Blk) : Bool :=
  (List.range b.planModules).all fun i => (List.range 10).all fun p => b.planPortOk (b.entryWord i 1) p

/-- Check 0x09. -/
def Blk.planQuorumOk (b : Blk) : Bool :=
  let n := b.faultMgrs.length
  decide (1 ≤ n) && decide (1 ≤ b.planK) && decide (b.planK ≤ n)
    && (List.range b.planAuths).all fun a => b.isFaultMgr a || b.isJobCtl a

/-- The first failing check. -/
def Blk.planCheck (b : Blk) (sigs : List Bool) : Option Nat :=
  if ¬b.planShape then some 1
  else if ¬b.planCertOk sigs then some 2
  else if b.planModules ≠ b.planLen 0 * b.planLen 1 * b.planLen 2 * b.planLen 3 then some 3
  else if ¬b.planRolesOk then some 4
  else if b.ownEntries.length ≠ 1 then some 5
  else if ¬(List.range b.planModules).all (fun i => b.planIndex (b.entryWord i 1 % 2 ^ 20) = i) then some 6
  else if ¬b.planRootsOk then some 7
  else if ¬b.planPortsOk then some 8
  else if ¬b.planQuorumOk then some 9
  else none

/-- A plan that fails: EV_PLAN_INVALID, whose detail the spec does not lay out, and RECOVERY. -/
def Blk.planFail (b : Blk) (c : Nat) : Blk :=
  let b := (b.raiseOpen 0 uDie 0x0702).wr CTL_BOOT.plan_check c
  (b.wr CTL_BOOT.result (if c = 5 then 4 else 3)).enter stRecovery

/-! ### Plan load and mode defaults (R266, R271) -/

/-- Load the fields of R271 from the plan and the module's own entry. -/
def Blk.loadPlan (b : Blk) : Blk :=
  let i := b.ownEntries.headD 0
  let w0 := b.planWord 0
  let w1 := b.entryWord i 1
  let w2 := b.entryWord i 2
  let b := [0, 1].foldl (fun b ld =>
    ((b.wr (ROUTE_CFG.coord ld) (bits w1 0 20)).wr (ROUTE_CFG.order ld) (bits w0 104 8)).wr
      (ROUTE_CFG.lengths ld) (bits w0 80 24)) b
  let b := b.wr COLL_AXIS_ROLE.roles (bits w0 112 12)
  let b := (List.range 10).foldl (fun b p =>
    ((b.wr (PORT_PLAN.role p) (bits w1 (64 + 8 * p) 2)).wr (PORT_PLAN.serves p) (bits w1 (66 + 8 * p) 4)).wr
      (MTC_PORT_CAL.asym p) (bits w2 (16 * p) 16)) b
  let b := (b.wrB MTC_CTRL.root_enable (bit w1 20)).wr MTC_CTRL.backup_rank (bits w1 21 2)
  let b := (b.wrB MTC_CTRL.pps_enable (bit w1 23)).setReg .mtcEpoch (bits w0 128 64)
  (b.wr CTL_PLAN_INDEX.index i).wr CTL_BOOT.plan_serial (bits w0 48 32)

/-- The control cluster skips a mode default: an address outside the register space, a register with only RO fields, or one
with an RWQ field. -/
def skipDefault (a : Nat) : Bool :=
  if ¬isRegAddr a then true
  else match regOfAddr a with
    | none => false
    | some r => r.fields.all (fun f => f.acc = .ro) || r.fields.any fun f => f.acc = .rwq

/-- Write the mode defaults in ascending order. -/
def Blk.modeDefaults (b : Blk) : Blk :=
  (List.range b.defaults).foldl (fun b i =>
    let e := ofLeBytes (b.fbytes (fDefaults + 16 * i) 16)
    let a := bits e 0 48
    if skipDefault a then b.satBy CTL_BOOT.defaults_skipped 1
    else (b.regWrite false .control a 8 (bits e 64 64)).2) b

/-- EV_WARM_RESET: cause, and the device state that the reset found. -/
def Blk.warmEvent (b : Blk) : Blk :=
  if b.rst.warmPath then b.raise 0 uDie 0x080B (b.rd GLB_RESETS.last_cause + b.rst.fromState * 16) else b

/-- BOOT_COMPLETE. -/
def bootFx (x : BootInput) (b : Blk) : Blk :=
  if b.dstate ≠ stBoot ∨ b.rst.warmHeld then b
  else if ¬b.layoutOk then b.fwFail 1
  else match b.fwKey x.fwSig0 x.fwSig1 with
    | none => b.fwFail 2
    | some key =>
      let b := ((b.takeFirmware key).identity x).setReg .secDbgNonce x.nonce.toNat
      match b.planCheck x.planSigs with
      | some c => b.planFail c
      | none =>
        let b := if b.anchorBlank then b.setAnchor b.tableDigest else b
        let b := ((b.loadPlan.setMode 1).modeDefaults).wr CTL_BOOT.result 0
        (b.warmEvent).enter stSelftest

/-! ### Self-test and training (R260) -/

/-- POST_COMPLETE; the detail of the failure is not laid out for a test of a whole die. -/
def postFx (hubFails : Bool) (b : Blk) : Blk :=
  if b.dstate ≠ stSelftest then b
  else if hubFails then b.raiseOpen 0 uDie 0x0805
  else b.enter stTrain

/-- A channel that failed to train is retired; a mapped one gives its logical channel to a spare. -/
def Blk.lostChannel (b : Blk) (c : Nat) : Blk :=
  let md := c / 34
  let i := c % 34
  let st := b.rd (CHAN_STATUS.state md i)
  let l := b.rd (CHAN_STATUS.logical md i)
  let b := b.wr (CHAN_STATUS.state md i) 4
  if st ≠ 0 then (if (b.spareChan md).isNone then b.cause CTL_STATE.chan_spares true else b)
  else match b.spareChan md with
    | none => b.cause CTL_STATE.chan_spares true
    | some n =>
      let b := ((b.wr (CHAN_MAP.phys md l) n).wr (CHAN_STATUS.state md n) 0).wr (CHAN_STATUS.logical md n) l
      if (b.spareChan md).isNone then b.cause CTL_STATE.chan_spares true else b

/-- TRAIN_COMPLETE: with the memory interfaces, the link to a guest site's partner is trained. -/
def trainFx (failed : List (Fin 136)) (b : Blk) : Blk :=
  if b.dstate ≠ stTrain then b
  else
    let b := failed.foldl (fun b c => b.lostChannel c.val) b
    let b := b.wrB GFW_STATUS.link_up b.part.guest
    (b.selfRefresh false).enterDiscover

/-! ### What a reset keeps (R295, R305) -/

/-- Ring, write index and read indices after a reset: the 32 kept records, which include those that the hub still held. -/
def Blk.restartRing (b : Blk) : Blk :=
  let b := b.keepHeld b.ev.held.length
  let ring := (b.ev.kept.zipIdx).foldl (fun (m : Sp Word) e => Sp.set 0 m e.2 e.1) []
  (b.updEv fun e => { EventSt.init with ring := ring, kept := e.kept }).wr CTL_EV_WR.index b.ev.kept.length

/-- The state behind the registers that a reset of the main domain keeps. -/
def Blk.volatileClear (b : Blk) : Blk :=
  let z := Blk.init b.part
  let outside (k : Nat) : Bool := decide (k < stageKey)
  let ports := (List.range 10).foldl (fun (m : Sp PortSt) p =>
    Sp.set PortSt.init m p { PortSt.init with present := (b.port p).present }) []
  let kept := (List.range 4).foldl (fun (m : Sp MdSt) i =>
    Sp.set MdSt.init m i { MdSt.init with repair := (b.md i).repair }) []
  { z with
    regs := b.regs, mem := b.mem.filter fun e => outside e.1, err := b.err.filter fun e => outside e.1,
    flash := b.flash, ev := b.ev, out := b.out, freeCtr := b.freeCtr, rst := b.rst, ports := ports, mds := kept,
    time := { TimeSt.init with
      mtc := b.time.mtc, integ := b.time.integ, stepped := b.time.stepped, otherOscBad := b.time.otherOscBad,
      everContrib := b.time.everContrib, ppsLast := b.time.ppsLast, ppsGood := b.time.ppsGood, ppsLost := b.time.ppsLost,
      ppsErr := b.time.ppsErr },
    coll := { CollSt.init with jcopy := b.coll.jcopy },
    ras := { RasSt.init with
      queues := b.ras.queues, transients := b.ras.transients, rowSpares := b.ras.rowSpares,
      deadBlocks := b.ras.deadBlocks, d2dSpares := b.ras.d2dSpares, ctlLost := b.ras.ctlLost },
    power := { PowerSt.init with phasesLost := b.power.phasesLost },
    host := { z.host with perst := b.host.perst },
    mgmt := { MgmtSt.init with i3cAddr := b.mgmt.i3cAddr } }

/-! ### Cold start (R305, R389 to R392) -/

/-- Everything but configuration memory and what is fixed at manufacture is lost; the cables stay mated. -/
def Blk.coldClear (b : Blk) : Blk :=
  let z := Blk.init b.part
  let fixed := (b.resetRegs (fun _ => true) fun k => k = .f).regs
  let ports := (List.range 10).foldl (fun (m : Sp PortSt) p =>
    Sp.set PortSt.init m p { PortSt.init with present := (b.port p).present }) []
  { z with
    regs := fixed, flash := b.flash, ports := ports, out := b.out, freeCtr := b.freeCtr,
    rst := { z.rst with holdN := b.rst.holdN, coldHeld := b.rst.coldHeld },
    host := { z.host with perst := b.host.perst } }

/-- Main rails come up: BOOT, on the cold path. The always-on domain goes on; memory starts with nothing in it. -/
def Blk.startBoot (b : Blk) : Blk :=
  let b := { b.volatileClear with mem := [], err := [], mds := [] }
  let b := ((b.resetRegs (fun _ => true) fun k => k = .f || k = .c).restartRing).updRst fun r =>
    { r with warmPath := false, fromState := 0 }
  b.enter stBoot

/-- Nothing but HOLD_N keeps the module in STANDBY. -/
def Blk.mayStart (b : Blk) : Bool := decide (b.dstate = stStandby) && !b.rst.coldHeld && !b.rst.tripHold

def powerGoodFx (b : Blk) : Blk := if b.dstate = stOff then b.enter stStandby else b

/-- Loss of the input: OFF, with everything but the configuration memory lost. -/
def powerLostFx (b : Blk) : Blk := b.coldClear.wr CTL_STATE.state stOff

/-- HOLD_RELEASE: HOLD_N is examined only in STANDBY. -/
def holdReleaseFx (b : Blk) : Blk :=
  let b := b.updRst fun r => { r with holdN := false }
  if b.mayStart then b.startBoot else b

/-- COLD_RESET: COLD_RST_N asserted. -/
def coldResetFx (b : Blk) : Blk :=
  if b.dstate = stOff then b.updRst fun r => { r with coldHeld := true }
  else (b.coldClear.updRst fun r => { r with coldHeld := true }).enter stStandby

def coldReleaseFx (b : Blk) : Blk :=
  let b := b.updRst fun r => { r with coldHeld := false }
  if b.mayStart ∧ ¬b.rst.holdN then b.startBoot else b

/-- TRIP_SENSORS_CLEAR (R358): every sensor reads below trip_c − hyst_c. -/
def tripClearFx (t : ThermalReading) (b : Blk) : Blk :=
  let lim : Int := 8 * ((b.rd PWR_THERM_CFG.trip_c : Int) - b.rd PWR_THERM_CFG.hyst_c)
  if b.dstate ≠ stStandby ∨ ¬b.rst.tripHold ∨ ¬t.pairs.all (fun q => decide (q.a < lim) && decide (q.b < lim)) then b
  else
    let b := b.updRst fun r => { r with tripHold := false }
    if b.mayStart ∧ ¬b.rst.holdN then b.startBoot else b

/-! ### Warm reset (R295, R305, R306, R392) -/

/-- Mark the running tests ended by the reset. -/
def Blk.abortTests (b : Blk) : Blk :=
  b.ras.running.foldl (fun b e => b.wr (RAS_ST_LAST.aborted e.1) 1) b

/-- Fenced cores being tested or copied stay fenced, and a control core's spare in use stays in use: the registers of class C
and F keep them. Causes: 0 sideband, 1 watchdog, 2 control-cluster fatal error. -/
def Blk.warmReset (b : Blk) (cause : Nat) : Blk :=
  if b.dstate < stBoot ∨ b.rst.coldHeld then b
  else
    let again := decide (b.dstate = stBoot) && b.rst.warmPath
    let from_ := if again then b.rst.fromState else b.dstate
    let expelled := b.rst.expelled || decide (b.dstate = stFenced)
    let b := b.abortTests
    let b := b.volatileClear.resetRegs (fun _ => true) fun k => k = .f || k = .c
    let b := (b.restartRing.satBy GLB_RESETS.warm 1).wr GLB_RESETS.last_cause cause
    let b := (b.selfRefresh true).wr CTL_STATE.warm 1
    (b.updRst fun r =>
      { r with warmPath := true, fromState := from_, expelled := expelled, warmHeld := decide (cause = 0) }).enter stBoot

def warmResetFx (b : Blk) : Blk := b.warmReset 0
def watchdogFx (b : Blk) : Blk := b.warmReset 1
def ctlFatalFx (b : Blk) : Blk := b.warmReset 2
def warmReleaseFx (b : Blk) : Blk := b.updRst fun r => { r with warmHeld := false }

def execBootComplete (x : BootInput) (s : State) := onBlk s (bootFx x)
def execPostComplete (h : Bool) (s : State) := onBlk s (postFx h)
def execTrainComplete (l : List (Fin 136)) (s : State) := onBlk s (trainFx l)
def execPowerInputGood (s : State) := onBlk s powerGoodFx
def execPowerInputLost (s : State) := onBlk s powerLostFx
def execHoldRelease (s : State) := onBlk s holdReleaseFx
def execColdReset (s : State) := onBlk s coldResetFx
def execColdRstNRelease (s : State) := onBlk s coldReleaseFx
def execTripSensorsClear (t : ThermalReading) (s : State) := onBlk s (tripClearFx t)
def execWarmReset (s : State) := onBlk s warmResetFx
def execHubWatchdogExpiry (s : State) := onBlk s watchdogFx
def execHubCtlFatal (s : State) := onBlk s ctlFatalFx
def execWarmRstNRelease (s : State) := onBlk s warmReleaseFx

end Sys2Proof.Machine
end

