-- ==== Sys2Proof/Machine/Validate.lean ====
section
/-!
DEFINITION. Image validation at arm (07_core_sequencer.md, R160): the checks of header, directory, code, segments and section
layouts. Trace.lean follows the code of each core and puts the whole together.
-/
namespace Sys2Proof.Machine

/-- A failing check: the offending word of the image, the code, compute die and site (63: none), instruction (all ones: none). -/
structure ImgErr where
  word : Nat
  code : Nat
  die : Nat
  site : Nat
  insn : Nat
  deriving DecidableEq, Repr

def noInsn : Nat := 2 ^ 32 - 1

/-- A failing check that names no site. -/
def errAt (word code : Nat) : ImgErr := ⟨word, code, 0, 63, noInsn⟩

/-- Report `e` if `bad`. -/
def failIf (bad : Bool) (e : ImgErr) : List ImgErr := if bad then [e] else []

/-- Detail of EV_IMAGE_INVALID (R160). -/
def ImgErr.detail (e : ImgErr) : Nat :=
  e.code + e.die % 32 * 2 ^ 8 + e.site % 64 * 2 ^ 13 + e.insn % 2 ^ 32 * 2 ^ 19 + e.word % 2 ^ 48 * 2 ^ 51

def ImgErr.ofDetail (d : Nat) : ImgErr := ⟨bits d 51 48, bits d 0 8, bits d 8 5, bits d 13 6, bits d 19 32⟩

/-! ### Header and directory (check 0x01) -/

/-- Directory entries at word `e.at_`, against the image's length and the words that hold header and directory. -/
def dirErrs (g : Img) (first : Nat) (d : List DirEnt) : List ImgErr :=
  d.flatMap fun e =>
    let rest := e.raw - bits e.raw 0 17 - bits e.raw 32 96 * 2 ^ 32
    let unknown := e.type = 0 ∨ 0x000F < e.type
    failIf (decide (rest ≠ 0) || (e.required && decide unknown) || decide (e.off < first ∨ g.words < e.off + e.len)) (errAt e.at_ 1)

def headErrs (b : Blk) (g : Img) (d : List DirEnt) : List ImgErr :=
  let h := b.iw g 0
  let v := secOf d 0x000D
  let n := if v.len = 0 then 0 else bits (b.iw g v.off) 0 16
  failIf (decide (hMagic h ≠ 0x504F524F ∨ hMajor h ≠ 1 ∨ hWords h ≠ g.words) || decide (hContexts h = 0 ∨ 8 < hContexts h)
    || decide (bits h 215 9 ≠ 0 ∨ bits h 240 16 ≠ 0 ∨ hVariants h ≠ n)) (errAt 0 1)

/-! ### Code (checks 0x02, 0x05, 0x06, 0x09, 0x0B, 0x0C) -/

/-- The planned path through a code object: the issue cycle reached, whether a WAITQ has issued, and what failed, as (code,
instruction). -/
structure Walk where
  t : Nat
  waited : Bool
  errs : List (Nat × Nat)

def Walk.fail (w : Walk) (bad : Bool) (code i : Nat) : Walk := if bad then { w with errs := w.errs ++ [(code, i)] } else w

/-- Instructions that use a resource shared with another core, and those that an arm of a branch must not issue. -/
def sharesFabric : Instr → Bool
  | .nxfer _ _ | .dma _ _ | .gstart _ _ | .coll _ _ | .pref _ _ => true
  | _ => false

def isMop : Instr → Bool
  | .mop _ _ => true
  | _ => false

def isMbal : Instr → Bool
  | .mbal _ _ => true
  | _ => false

/-- Control instructions that must name guard P0, not inverted (R143). -/
def mustBeUnguarded : Instr → Bool
  | .anchor _ | .loop _ _ _ | .brb _ _ _ _ _ | .csel _ _ | .waitq _ _ _ _ | .sloop _ _ _ => true
  | _ => false

def isVector : Instr → Bool
  | .vfp _ _ | .vfpd _ _ | .vint _ _ | .vcmp _ _ | .vcvt _ _ | .vfn _ _ | .vmove _ _ | .vred _ _ | .vld _ _ | .vst _ _
  | .vstr _ _ | .vrand _ _ | .vclrf _ _ | .setvl _ _ | .kop _ _ => true
  | _ => false

/-- Dataflow, accumulator, shape, formats and layouts of a matrix operation on its engine (R48, R72, R73). -/
def mopFits (lee : Bool) (o : MOp) : Bool :=
  let m := o.m.toNat
  let n := o.n.toNat
  let df := o.dataflow.toNat
  let resident := decide (o.accSrc.toNat = 1 ∨ o.accDst.toNat = 2)
  let shape := if lee ∨ df = 1 then decide (m ≤ 64 ∧ n ≤ 64) else if df = 0 then decide (n ≤ 64) else decide (m ≤ 64)
  (!lee || df = 1) && (!resident || lee || df = 1) && shape && decide (m ≤ 1024 ∧ n ≤ 1024 ∧ o.k.toNat ≤ 65536)
    && fmtLayoutOk o.aFmt.toNat o.aLayout.toNat && fmtLayoutOk o.bFmt.toNat o.bLayout.toNat

/-- Operands whose scale array lies at the next register name one that exists (R142, Format M). -/
def mopScaleRegs (o : MOp) : Bool :=
  (o.aLayout = 0 || decide (o.ra.toNat < 31)) && (o.bLayout = 0 || decide (o.rb.toNat < 31))

/-- What one instruction fails by itself, issued at cycle `w.t`. -/
def Walk.single (lee : Bool) (arm : Bool) (i : Nat) (ins : Instr) (w : Walk) : Walk :=
  let g := (issueOf ins).guard
  let w := w.fail (mustBeUnguarded ins && (g.pn ≠ 0 || g.neg)) 0x0C i
  let w := w.fail (arm && (sharesFabric ins || isMop ins)) 0x05 i
  let w := w.fail (w.waited && sharesFabric ins) 0x0B i
  let w := w.fail (isVector ins && decide (w.t % 2 = 1)) 0x06 i
  match ins with
  | .mop _ o => w.fail (!(mopFits lee o && mopScaleRegs o)) 0x03 i
  | .vld _ o => w.fail (!fmtLayoutOk o.fmt.toNat o.layout.toNat) 0x03 i
  | .vstr _ o => w.fail (decide (11 < o.fmt.toNat)) 0x03 i
  | _ => w

/-- Walk instructions `i` to `stop` − 1, with `ld` open loops and `bd` open branches; `bad` gives the check that a word which does
not decode fails. -/
def walk (lee : Bool) (code : List (Option Instr)) (bad : Nat → Nat) : Nat → Nat → Nat → Nat → Nat → Walk → Walk
  | 0, _, _, _, _, w => w
  | fuel + 1, i, stop, ld, bd, w =>
    if stop ≤ i then w
    else match code.getD i none with
      | none => walk lee code bad fuel (i + 1) stop ld bd (w.fail true (bad i) i)
      | some ins =>
        let w := w.single lee (decide (0 < bd)) i ins
        match ins with
        | .anchor _ => w.fail (decide (0 < ld + bd ∨ i + 1 ≠ code.length)) 0x09 i
        | .waitc _ n => walk lee code bad fuel (i + 1) stop ld bd { w with t := w.t + n.toNat + 1 }
        | .waitq _ _ _ d => walk lee code bad fuel (i + 1) stop ld bd { w with t := max (w.t + 1) d.toNat, waited := true }
        | .loop _ count len =>
          let fin := i + 1 + len.toNat
          let w := w.fail (decide (4 ≤ ld ∨ stop < fin)) 0x0C i
          let w := { w with t := w.t + 1 }
          let body (w : Walk) : Walk := walk lee code bad fuel (i + 1) (min fin stop) (ld + 1) bd w
          let n := count.toNat
          let w1 := if 1 ≤ n then body w else w
          let w2 := if 2 ≤ n then body w1 else w1
          let w3 := if 3 ≤ n then body w2 else w2
          walk lee code bad fuel fin stop ld bd { w3 with t := w3.t + (n - 3) * (w3.t - w2.t) }
        | .brb _ _ _ la lb =>
          let mid := i + 1 + la.toNat
          let fin := mid + lb.toNat
          let w := w.fail (decide (4 ≤ bd ∨ stop < fin)) 0x0C i
          let a := walk lee code bad fuel (i + 1) (min mid stop) ld (bd + 1) { w with t := w.t + 1 }
          let c := walk lee code bad fuel mid (min fin stop) ld (bd + 1) { w with t := w.t + 1, errs := a.errs }
          let w := c.fail (decide (a.t ≠ c.t)) 0x05 i
          walk lee code bad fuel fin stop ld bd { w with waited := a.waited || c.waited }
        | _ => walk lee code bad fuel (i + 1) stop ld bd { w with t := w.t + 1 }

/-- The core a code directory entry names. -/
def CodeDir.coreId (c : CodeDir) : CoreId := ⟨⟨c.cd % 12, by omega⟩, ⟨c.site % 32, by omega⟩⟩

/-- The word of instruction `i` of a code object. -/
def Blk.insnWord (b : Blk) (g : Img) (c : CodeDir) (i : Nat) : BitVec 128 :=
  BitVec.ofNat 128 (bits (b.iw g (c.off + i / 2)) (128 * (i % 2)) 128)

/-- The instructions of a code object, as they decode. -/
def Blk.codeOf (b : Blk) (g : Img) (c : CodeDir) : List (Option Instr) :=
  (List.range c.len).map fun i => decodeInsn c.coreId (b.insnWord g c i)

/-- Walk one code object. -/
def Blk.walkCode (b : Blk) (g : Img) (c : CodeDir) : Walk :=
  let code := b.codeOf g c
  let bad (i : Nat) : Nat := badWordCheck c.coreId (b.insnWord g c i)
  let w := walk (28 ≤ c.site) code bad (c.len + 1) 0 c.len 0 0 ⟨0, false, []⟩
  match code.getLast? with
  | some (some (.anchor _)) => w
  | _ => w.fail true 0x09 (c.len - 1)

/-- Errors of a code object, with the image word of the instruction that failed. -/
def CodeDir.errs (c : CodeDir) (l : List (Nat × Nat)) : List ImgErr :=
  l.map fun e => ⟨c.off + e.2 / 2, e.1, c.cd + 1, c.site, e.2⟩

/-! ### Segments (check 0x09) -/

/-- Anchor interval of segment `n` in ns (R152). -/
def segInterval (segs : List Seg) (stepNs n : Nat) : Nat :=
  let s := segs.getD n ⟨0, 0, 0, 0, 0, false, false, false, false, 0, 0, 0⟩
  let last := (segs.filter fun x => !x.prologue).foldl (fun m x => max m x.anchorNs) 0
  if n = 0 then (if s.prologue then s.anchorNs else s.anchorNs + stepNs - last)
  else
    let p := segs.getD (n - 1) s
    if p.prologue ∧ ¬s.prologue then s.anchorNs + stepNs - last else s.anchorNs - p.anchorNs

/-- The interval holds the segment's cycles at the nominal clock with the margins of R40, plus the guards. -/
def intervalOk (mhz spread interval cycles guard_ : Nat) : Bool :=
  decide (guard_ ≤ interval) && decide (cycles * 1000 * (1000000 + 250 + spread) ≤ (interval - guard_) * mhz * 1000000)

def Blk.segErrs (b : Blk) (g : Img) (d : List DirEnt) (mhz : Nat) (code : List (CodeDir × Walk)) : List ImgErr :=
  let s := secOf d 0x0001
  let segs := b.readSegs g d
  let h := b.iw g 0
  let none_ := failIf (segs.all fun x => x.prologue) (errAt s.off 9)
  none_ ++ (segs.zipIdx).flatMap fun e =>
    let w := b.iw g (s.off + e.2)
    let mine := code.filter fun c => c.1.block = e.1.block
    let clean : Bool := mine.all fun c => c.2.errs.isEmpty
    let longest : Nat := (mine.map fun c => c.2.t + 1).foldl max 0
    let prev := segs.getD (e.2 - 1) e.1
    let order := decide (e.2 ≠ 0) && ((!prev.prologue && e.1.prologue)
      || (prev.prologue == e.1.prologue && decide (e.1.anchorNs ≤ prev.anchorNs)))
    let bad := decide (bits w 82 14 ≠ 0 ∨ bits w 124 4 ≠ 0 ∨ bits w 176 80 ≠ 0) || decide (e.1.cycles = 0 ∨ 131072 < e.1.cycles) || order
      || (clean && !mine.isEmpty && decide (e.1.cycles ≠ longest))
      || !(intervalOk mhz (hSpread h) (segInterval segs (hStepNs h) e.2) e.1.cycles e.1.guardNs)
    let ballast := if e.1.ballast then [] else mine.flatMap fun c =>
      ((b.codeOf g c.1).zipIdx).filterMap fun i =>
        match i.1 with
        | some x => if isMbal x then some ⟨c.1.off + i.2 / 2, 9, c.1.cd + 1, c.1.site, i.2⟩ else none
        | none => none
    failIf bad (errAt (s.off + e.2) 9) ++ ballast

/-! ### Section layouts (check 0x15, with 0x04, 0x08, 0x0D and 0x12 where the rule names them) -/

/-- Code directory (R157), and a block larger than an instruction-cache half (R162). -/
def Blk.codeDirErrs (b : Blk) (g : Img) (d : List DirEnt) : List ImgErr :=
  let s := secOf d 0x0002
  let o := secOf d 0x0003
  ((b.readCode g d).zipIdx).flatMap fun e =>
    let w := b.iw g (s.off + e.2)
    let c := e.1
    let bad := decide (bits w 26 6 ≠ 0 ∨ bits w 96 160 ≠ 0 ∨ 11 < c.cd ∨ 31 < c.site ∨ c.len = 0)
      || decide (c.off < o.off ∨ o.off + o.len < c.off + cdiv c.len 2)
    failIf bad ⟨s.off + e.2, 0x15, c.cd + 1, c.site, noInsn⟩ ++ failIf (decide (2048 < c.len)) ⟨s.off + e.2, 0x12, c.cd + 1, c.site, noInsn⟩

/-- Two ranges [a, a + n) and [c, c + m) meet. -/
def meet (a n c m : Nat) : Bool := decide (0 < n ∧ 0 < m ∧ a < c + m ∧ c < a + n)

/-- Context declarations (R154). -/
def Blk.ctxErrs (b : Blk) (g : Img) (d : List DirEnt) : List ImgErr :=
  let s := secOf d 0x0006
  if s.len = 0 then []
  else
    let w0 := b.iw g s.off
    let w1 := b.iw g (s.off + 1)
    let f (n : Nat) : Nat := bits w0 (25 * n) 25
    let base := bits w1 0 48
    let stride := bits w1 48 48
    let need := max (267 * 32 + max (f 1) (f 3)) (525 * 32 + max (f 5) (f 7))
    let area := hContexts (b.iw g 0) * 12 * 36 * stride
    let layout := decide (s.len ≠ 2) || (List.range 8).any (fun n => decide (f n % 32 ≠ 0)) || decide (bits w0 200 56 ≠ 0)
    let layout1 := decide (bits w1 96 160 ≠ 0) || decide (base % 4096 ≠ 0 ∨ stride % 4096 ≠ 0 ∨ stride < need)
    let past := decide (0x400000 < f 0 + f 1 ∨ 0x400000 < f 2 + f 3 ∨ 0x1800000 < f 4 + f 5 ∨ 0x1800000 < f 6 + f 7)
    let overlap := meet (f 0) (f 1) (f 2) (f 3) || meet (f 4) (f 5) (f 6) (f 7)
    let hit := (b.readTensors g d).any fun t => meet base area t.elemAddr t.bytes || meet base area t.scaleAddr t.scaleBytes
    failIf layout (errAt s.off 0x15) ++ failIf (past || overlap) (errAt s.off 4) ++ failIf layout1 (errAt (s.off + 1) 0x15)
      ++ failIf hit (errAt (s.off + 1) 4)

/-- Lanes of a port of the on-die network (R167). -/
def netLanes (p : Nat) : Nat := if p = 36 then 32 else 4

/-- Layout of the network and crossbar calendars (R173, R171), with lanes outside a port (R172). Overlapping claims are Claims.lean's. -/
def Blk.calErrs (b : Blk) (g : Img) (d : List DirEnt) : List ImgErr :=
  let s := secOf d 0x0007
  if s.len = 0 then []
  else
    let l := b.calLayout g s
    let w0 := b.iw g s.off
    if bits w0 96 160 ≠ 0 ∨ 65536 < l.xbarN ∨ l.recsN ≠ (secOf d 0x0001).len ∨ s.off + s.len ≠ l.recs + cdiv l.recsN 2 then
      [errAt s.off 0x15]
    else
      -- 32 to 35 name no logical site (R14); 36 is the die's crossbar port
      let noSite (p : Nat) : Bool := decide (32 ≤ p ∧ p < 36)
      let ne := (((b.readNet g d).zip (b.ients g l.net l.netN 128)).zipIdx).flatMap fun x =>
        let e := x.1.1
        let at_ := l.net + x.2 / 2
        let port (p lane : Nat) : Bool := decide (36 < p ∨ netLanes p < lane + e.lanes)
        failIf (noSite e.src || noSite e.dst) (errAt at_ 4) ++
        failIf (decide (bits x.1.2 81 47 ≠ 0 ∨ e.kind = 3 ∨ 11 < e.die ∨ e.lanes = 0 ∨ 4 < e.lanes ∨ e.len = 0)
          || port e.src e.srcLane || port e.dst e.dstLane) (errAt at_ 0x15)
      let xe := (((b.readXbar g d).zip (b.ients g l.xbar l.xbarN 128)).zipIdx).flatMap fun x =>
        let e := x.1.1
        failIf (decide (bits x.1.2 83 45 ≠ 0 ∨ 2 ≤ e.kind ∨ e.lanes = 0 ∨ 72 < e.lanes ∨ e.len = 0)
          || decide (portLanes e.src < e.srcLane + e.lanes ∨ portLanes e.dst < e.dstLane + e.lanes)) (errAt (l.xbar + x.2 / 2) 0x15)
      let re := (b.readRecs g d).zipIdx.flatMap fun x =>
        failIf (decide (l.netN < x.1.net + x.1.netN ∨ l.xbarN < x.1.xbar + x.1.xbarN)) (errAt (l.recs + x.2 / 2) 0x15)
      ne ++ xe ++ re

/-- Two memory-channel windows name one channel in overlapping time in some steps (R191): prologue windows count from T_start, the
others from each step's beginning. -/
def windowsClash (prologue stepNs : Nat) (x y : Window) : Bool :=
  let start (w : Window) (k : Nat) : Nat := if w.prologue then w.start else prologue + k * stepNs + w.start
  let reach := max (x.start + x.len) (y.start + y.len) / max 1 stepNs + 2
  let steps (w : Window) : List Nat := if w.prologue then [0] else List.range reach
  meet x.first x.count y.first y.count
    && (steps x).any fun i => (steps y).any fun k => meet (start x i) x.len (start y k) y.len

/-- Memory-channel windows (R191): their layout, and two that name a channel in overlapping time. -/
def windowErrs (off prologue stepNs : Nat) (ws : List (Nat × Window)) : List ImgErr :=
  let bad (e : Nat × Window) : Bool :=
    decide (bits e.1 128 128 ≠ 0 ∨ e.2.len < 200 ∨ e.2.count = 0 ∨ 128 < e.2.first + e.2.count ∨ 9 < e.2.owner / 4096)
      || decide (11 < e.2.owner / 256 % 16)
  let lay := (ws.zipIdx).flatMap fun e => failIf (bad e.1) (errAt (off + e.2) 0x15)
  let over_ := (ws.zipIdx).flatMap fun e =>
    failIf ((ws.take e.2).any fun x => windowsClash prologue stepNs x.2 e.1.2) (errAt (off + e.2) 8)
  lay ++ over_

def Blk.winErrs (b : Blk) (g : Img) (d : List DirEnt) : List ImgErr :=
  let s := secOf d 0x0008
  windowErrs s.off (prologueLen (b.readSegs g d)) (hStepNs (b.iw g 0)) ((b.iws g s.off s.len).zip (b.readWindows g d))

/-- Scheduled-event entries (R45): codes that the image may place, and at most 24 entries within any 1 ms. -/
def Blk.schedErrs (b : Blk) (g : Img) (d : List DirEnt) : List ImgErr :=
  let s := secOf d 0x000B
  if s.len = 0 then []
  else
    let n := bits (b.iw g s.off) 0 16
    if b.iw g s.off / 2 ^ 16 ≠ 0 ∨ s.len ≠ 1 + cdiv n 2 then [errAt s.off 0x15]
    else
      let es := b.readSched g d
      let raw := b.ients g (s.off + 1) n 128
      let bad := ((es.zip raw).zipIdx).flatMap fun e =>
        let a := e.1.1.action
        failIf (decide (bits e.1.2 74 22 ≠ 0) || !(a = 2 || a = 6 || a = 7)) (errAt (s.off + 1 + e.2 / 2) 0x15)
      let step := hStepNs (b.iw g 0)
      let pro := prologueLen (b.readSegs g d)
      let reps := if step = 0 then 1 else 1000000 / step + 3
      let times (e : SchedImg) : List Nat :=
        if e.prologue then [e.offset]
        else if e.repeats then (List.range reps).map fun i => pro + i * step + e.offset
        else [pro + e.offset]
      let ts := (es.zipIdx).flatMap fun e => (times e.1).map fun t => (t, e.2)
      let crowded (x : Nat × Nat) : Bool :=
        decide (24 ≤ (ts.filter fun y => x.1 < y.1 + 1000000 ∧ (y.1 < x.1 ∨ (y.1 = x.1 ∧ y.2 < x.2))).length)
      bad ++ (ts.filter crowded).map fun x => errAt (s.off + 1 + x.2 / 2) 0x15

/-- Tensor declarations (R48, R158): format, layout and rank, and what is zero: reserved bits, extents beyond the rank, and the scale
array of layout 0. -/
def tensorErrs (off : Nat) : Nat → List Nat → List ImgErr
  | _, [] => []
  | i, w :: rest =>
    let rank := bits w 21 3
    let beyond (w : Nat) (n lo : Nat) : Bool := (List.range 3).any fun x => decide (n ≤ x ∧ bits w (lo + 32 * x) 32 ≠ 0)
    let bad := !fmtLayoutOk (bits w 14 4) (bits w 19 2) || decide (rank = 0 ∨ 6 < rank ∨ bits w 49 15 ≠ 0)
      || decide (bits w 19 2 = 0 ∧ bits w 112 48 ≠ 0) || beyond w rank 160
    failIf bad (errAt (off + i) 3) ++
      match rest with
      | w1 :: rest1 =>
        if 3 < rank then
          failIf (decide (w1 / 2 ^ 96 ≠ 0) || beyond w1 (rank - 3) 0) (errAt (off + i + 1) 3) ++ tensorErrs off (i + 2) rest1
        else tensorErrs off (i + 1) (w1 :: rest1)
      | [] => failIf (decide (3 < rank)) (errAt (off + i) 3)

def Blk.tensErrs (b : Blk) (g : Img) (d : List DirEnt) : List ImgErr :=
  let s := secOf d 0x0004
  tensorErrs s.off 0 (b.iws g s.off s.len)

/-- Entries of a calendar program with runs of one class joined. -/
def joinRuns : List (Nat × Nat) → List (Nat × Nat)
  | [] => []
  | e :: rest =>
    match joinRuns rest with
    | r :: l => if r.1 = e.1 then (e.1, e.2 + r.2) :: l else e :: r :: l
    | [] => [e]

/-- Word times from the end of one VC6 or VC7 run that can carry a two-word packet to the start of the next, at the longest;
none where no run can (R251). -/
def c3Gap (prog : List (Nat × Nat)) : Option Nat :=
  let runs := joinRuns prog
  let step (a : Nat × Option Nat × Nat) (e : Nat × Nat) : Nat × Option Nat × Nat :=
    let now := a.1
    let last := a.2.1
    let best := a.2.2
    if (e.1 = 6 ∨ e.1 = 7) ∧ 2 ≤ e.2 then
      (now + e.2, some (now + e.2), max best (match last with
        | some x => now - x
        | none => 0))
    else (now + e.2, last, best)
  let r := (runs ++ runs).foldl step (0, none, 0)
  r.2.1.map fun _ => r.2.2

/-- Segments in progress at some time of the vote window: from the anchor of `vote` on, into the next step where the window
reaches it. -/
def windowSegs (segs : List Seg) (stepNs vote window : Nat) : List Nat :=
  let p := (segs.filter (·.prologue)).length
  let t := (segs.getD (p + vote) ⟨0, 0, 0, 0, 0, false, false, false, false, 0, 0, 0⟩).anchorNs
  let ends := (segs.zipIdx).filter fun e => !e.1.prologue
  let starts : List (Nat × Nat × Nat) := ends.zipIdx.map fun e =>
    (e.1.2, (if e.2 = 0 then 0 else (ends.getD (e.2 - 1) e.1).1.anchorNs), e.1.1.anchorNs)
  ((starts.filter fun x => (t < x.2.2 ∧ x.2.1 < t + window) ∨ (t < x.2.2 + stepNs ∧ x.2.1 + stepNs < t + window))).map (·.1)

/-- The vote window holds Σ(L − 1) hops of 169 ns + g + 30 ns (R251). -/
def Blk.windowOk (b : Blk) (g : Img) (d : List DirEnt) (vote window : Nat) : Bool :=
  let hops := ((List.range 4).map fun x => b.planLen x - 1).sum
  let ws := b.secWords g (secOf d 0x0009)
  let rows := Config.vcIndex ws
  let progs := readPrograms ws
  let gaps := (windowSegs (b.readSegs g d) (hStepNs (b.iw g 0)) vote window).flatMap fun n =>
    ((List.range 10).filter fun p => axisOf p < 4 ∧ 1 < b.planLen (axisOf p)).filterMap fun p =>
      (progs[(rows.getD n []).getD p 0xFFFF]?).map c3Gap
  hops = 0 || (gaps.all (·.isSome) && decide (hops * (199 + (gaps.foldl (fun m x => max m (x.getD 0)) 0) * 40022 / 1000000) ≤ window))

/-- Collective section (R236, R246, R251, R252, R258). -/
def Blk.collErrs (b : Blk) (g : Img) (d : List DirEnt) : List ImgErr :=
  let s := secOf d 0x000A
  if s.len = 0 then []
  else
    let w0 := b.iw g s.off
    let w1 := b.iw g (s.off + 1)
    let ns := bits w0 0 11
    let nb := bits w0 16 16
    let nv := bits w0 40 8
    let mib := 2 ^ 21
    let steps := ((b.readSegs g d).filter fun x => !x.prologue).length
    let total := (b.readSegs g d).length
    let r := bits w0 64 16
    let p := bits w0 80 16
    let v := bits w0 96 16
    let slotLen := bits w1 96 48
    let bad0 := decide (ns = 0 ∨ 1024 < ns ∨ bits w0 11 5 ≠ 0 ∨ bits w0 32 7 = 0 ∨ 64 < bits w0 32 7 ∨ bits w0 39 1 ≠ 0 ∨ 128 < nv)
      || decide (bits w0 48 16 ≠ 0 ∨ bits w0 144 112 ≠ 0 ∨ steps ≤ r ∨ steps ≤ p ∨ steps ≤ v)
      || decide (s.len ≠ 2 + cdiv ns 2 + cdiv nb 4 + nv) || !(b.windowOk g d v (bits w0 112 32))
    let bad1 := decide (bits w1 0 48 % mib ≠ 0 ∨ bits w1 48 48 % mib ≠ 0 ∨ slotLen % mib ≠ 0 ∨ bits w1 144 48 % mib ≠ 0)
      || decide (bits w1 192 48 % 32 ≠ 0 ∨ bits w1 240 16 ≠ 0) || meet (bits w1 0 48) slotLen (bits w1 48 48) slotLen
      || decide (b.memEnd < bits w1 0 48 + slotLen ∨ b.memEnd < bits w1 48 48 + slotLen)
      || decide (bits w1 192 48 < Config.stagingBase.toNat ∨ Config.stagingBase.toNat + 2 ^ 28 < bits w1 192 48 + 32768)
    let sh := b.readShards g s
    let shRaw := b.ients g (s.off + 2) ns 128
    let bads := ((sh.zip shRaw).zipIdx).flatMap fun e =>
      let x := e.1.1
      let first := decide (e.2 = 0 ∧ (x.off ≠ bits w1 144 48 / mib ∨ x.len ≠ 3))
      let past := decide (slotLen < (x.off + x.len) * mib ∨ steps ≤ x.seg ∨ v < x.seg ∨ bits e.1.2 80 48 ≠ 0)
      let over_ := (sh.take e.2).any fun y => meet y.off y.len x.off x.len
      failIf (first || past || over_) (errAt (s.off + 2 + e.2 / 2) 0x15)
    let bs := b.readBindings g s
    let bRaw := b.ients g (b.bindOff g s) nb 64
    let badb := ((bs.zip bRaw).zipIdx).flatMap fun e =>
      failIf (decide (total ≤ e.1.1.seg ∨ bits w0 32 7 ≤ e.1.1.lchan ∨ bits e.1.2 27 37 ≠ 0)) (errAt (b.bindOff g s + e.2 / 4) 0x15)
    let badl := ((b.readLines g s).zipIdx).flatMap fun e =>
      let at_ := b.lineOff g s + e.2
      let dir := b.dirAt g e.1.off e.1.n
      failIf (decide (bits (b.iw g at_) 71 185 ≠ 0 ∨ b.planLen e.1.axis ≤ e.1.k) || dir.any fun x => !(x.type = 9 || x.type = 5 || x.type = 7)) (errAt at_ 0x15)
    failIf bad0 (errAt s.off 0x15) ++ failIf bad1 (errAt (s.off + 1) 0x15) ++ bads ++ badb ++ badl

/-- Topology section (R282). -/
def Blk.topoErrs (b : Blk) (g : Img) (d : List DirEnt) : List ImgErr :=
  let s := secOf d 0x000C
  if s.len = 0 then []
  else
    let w := b.iw g s.off
    let n := bits w 64 16
    let bad := decide (bits w 44 20 ≠ 0 ∨ w / 2 ^ 80 ≠ 0 ∨ 4095 < n ∨ s.len ≠ 1 + cdiv n 2)
    let ents := if bad then [] else (b.ients g (s.off + 1) n 128).zipIdx
    failIf bad (errAt s.off 0x15) ++ ents.flatMap fun e => failIf (decide (bits e.1 31 97 ≠ 0)) (errAt (s.off + 1 + e.2 / 2) 0x15)

/-- Spill-record list (R159): its layout and order, and readers that differ from their writer (check 0x0D). -/
def Blk.spillErrs (b : Blk) (g : Img) (d : List DirEnt) : List ImgErr :=
  let s := secOf d 0x000E
  if s.len = 0 then []
  else
    let w := b.iw g s.off
    let n := bits w 0 32
    if w / 2 ^ 32 ≠ 0 ∨ s.len ≠ 1 + cdiv n 2 then [errAt s.off 0x15]
    else
      let es := b.ients g (s.off + 1) n 128
      (es.zipIdx).flatMap fun e =>
        let x := e.1
        let prev := es.getD (e.2 - 1) x
        let rec_ := bits x 74 32
        let first := decide (e.2 = 0 ∨ bits prev 74 32 ≠ rec_)
        let order := decide (e.2 ≠ 0 ∧ rec_ < bits prev 74 32) || (first && bit x 58) || (!first && !bit x 58 && bit prev 58)
        let lay := decide (11 < bits x 16 4 ∨ 31 < bits x 20 6 ∨ 64 < bits x 60 7 ∨ 64 < bits x 67 7 ∨ bits x 106 22 ≠ 0)
        let writer := es.find? fun y => bits y 74 32 = rec_ ∧ ¬bit y 58
        let shape (y : Nat) : Nat := bits y 59 15
        let differs : Bool := match writer with
          | some y => bit x 58 && decide (shape y ≠ shape x)
          | none => true
        let site : ImgErr := ⟨s.off + 1 + e.2 / 2, 0x0D, bits x 16 4 + 1, bits x 20 6, bits x 26 32⟩
        failIf (order || lay) (errAt (s.off + 1 + e.2 / 2) 0x15) ++ failIf differs site

/-- Power and ballast profile (R350): one entry for each segment. -/
def Blk.profErrs (b : Blk) (g : Img) (d : List DirEnt) : List ImgErr :=
  let s := secOf d 0x000F
  if s.len = 0 then []
  else
    let w := b.iw g s.off
    let n := bits w 0 32
    failIf (decide (w / 2 ^ 32 ≠ 0 ∨ n ≠ (secOf d 0x0001).len ∨ s.len ≠ 1 + cdiv n 4)) (errAt s.off 0x15)

/-- Grid variants (R303). -/
def Blk.gridErrs (b : Blk) (g : Img) (d : List DirEnt) : List ImgErr :=
  let s := secOf d 0x000D
  if s.len = 0 then []
  else
    let w := b.iw g s.off
    let n := bits w 0 16
    let bad := decide (w / 2 ^ 16 ≠ 0 ∨ s.len ≠ 1 + 3 * n)
    let vs := if bad then [] else (b.readVariants g d).zipIdx
    failIf bad (errAt s.off 0x15) ++ vs.flatMap fun e =>
      let spare := (List.range 12).any fun cd => bits e.1.mask (36 * cd + 32) 4 ≠ 0
      failIf (decide (e.1.raw / 2 ^ 80 ≠ 0 ∨ e.1.number ≠ e.2 + 1 ∨ e.1.mask / 2 ^ 432 ≠ 0) || spare) (errAt (s.off + 1 + 3 * e.2) 0x15)

/-! ### The module's grid (check 0x13) -/

/-- Unserved logical sites. -/
def Blk.unserved (b : Blk) : List Nat := allCores.filter fun k => b.on (SITE_MAP.unserved (k / 32) (k % 32))

/-- Some logical memory channel has no working physical channel. -/
def Blk.channelOut (b : Blk) : Bool :=
  (List.range 128).any fun l => b.rd (CHAN_STATUS.state (l / 32) (b.rd (CHAN_MAP.phys (l / 32) (l % 32)))) = 4

/-- The directory that the module's grid uses: the main one, or that of the lowest variant whose mask holds every unserved
site. -/
def Blk.gridDir (b : Blk) (g : Img) (main : List DirEnt) : Option (List DirEnt) :=
  if b.channelOut then none
  else if b.unserved = [] then some main
  else
    let fits (v : GridVar) : Bool := b.unserved.all fun k => bit v.mask (36 * (k / 32) + k % 32)
    ((b.readVariants g main).find? fits).map fun v => replaceSecs main (b.dirAt g v.off v.n)

/-! ### Validation -/

/-- Every failing check of the image under directory `d`, for a job at `mhz`. -/
def Blk.imgErrs (b : Blk) (g : Img) (d : List DirEnt) (mhz : Nat) : List ImgErr :=
  let code := ((b.readCode g d).filter fun c => c.len ≤ 2048).map fun c => (c, b.walkCode g c)
  b.codeDirErrs g d ++ (code.flatMap fun c => c.1.errs c.2.errs) ++ b.segErrs g d mhz code ++ b.tensErrs g d ++ b.ctxErrs g d ++ b.calErrs g d
    ++ b.winErrs g d ++ b.schedErrs g d ++ b.collErrs g d ++ b.topoErrs g d ++ b.spillErrs g d ++ b.profErrs g d ++ b.gridErrs g d

/-- The first of some errors in image address order. -/
def firstErr (l : List ImgErr) : Option ImgErr := l.find? fun x => l.all fun y => decide (x.word ≤ y.word)

end Sys2Proof.Machine
end

