-- ==== Sys2Proof/Machine/Claims.lean ====
section
/-!
DEFINITION. The checks of R160 that hold an image's calendars against one another and against what its transfers, windows, swaps and
fills need (R22, R155, R162, R168, R172, R173, R175, R191), over the prologue and enough steps that every claim has met its followers.
Where these rules leave a rounding or an extent open, log entry 132 says how they are read (DEDUCED).
-/
namespace Sys2Proof.Machine

/-! ### When segments open (R152) -/

/-- Table index and opening instant, in ns from T_start, of the `q`-th segment that a job runs: the prologue once, then steps. -/
def opensAt (segs : List Seg) (stepNs q : Nat) : Nat × Nat :=
  let p := (segs.filter (·.prologue)).length
  let r := segs.length - p
  let anchor (n : Nat) : Nat := (segs[n]?.map (·.anchorNs)).getD 0
  let step (k : Nat) : Nat := prologueLen segs + k * stepNs
  if q < p ∨ r = 0 then (q, if q = 0 then 0 else anchor (q - 1))
  else
    let i := (q - p) % r
    let k := (q - p) / r
    (p + i, if i ≠ 0 then step k + anchor (p + i - 1) else if k = 0 then step 0 else step (k - 1) + anchor (p + r - 1))

/-- Segments that run over the prologue and `k` steps. -/
def runLength (segs : List Seg) (k : Nat) : Nat :=
  let p := (segs.filter (·.prologue)).length
  p + k * (segs.length - p)

/-- What the calendar checks read: the job, its clocks, and the image words where its sections begin. -/
structure CalEnv where
  j : Job
  mhz : Nat
  layout : CalLayout
  segOff : Nat
  codeOff : Nat
  winOff : Nat
  collOff : Nat

def Blk.calEnv (b : Blk) (g : Img) (d : List DirEnt) (mhz : Nat) : CalEnv :=
  ⟨b.readJob g d 0, mhz, b.calLayout g (secOf d 0x0007), (secOf d 0x0001).off, (secOf d 0x0002).off, (secOf d 0x0008).off, (secOf d 0x000A).off⟩

def CalEnv.netMhz (c : CalEnv) : Nat := c.mhz / 2
def CalEnv.opens (c : CalEnv) (q : Nat) : Nat × Nat := opensAt c.j.segs c.j.stepNs q

/-- Table index, opening and closing instant of each segment that can meet a claim of another: the longest claim lasts 146 µs. -/
def CalEnv.timeline (c : CalEnv) : List (Nat × Nat × Nat) :=
  (List.range (runLength c.j.segs (2 + 146000 / max 1 c.j.stepNs))).map fun q =>
    ((c.opens q).1, (c.opens q).2, (c.opens (q + 1)).2)

/-- The clocks' crossings in cycles from an opening (R168). -/
def CalEnv.toXbar (c : CalEnv) (n : Nat) : Nat := if c.netMhz = 0 then n else cdiv (n * xbarMhz) c.netMhz
def CalEnv.toNet (c : CalEnv) (x : Nat) : Nat := cdiv (x * c.netMhz) xbarMhz

/-! ### Claims of entries (R168, R172, R173) -/

/-- A claim of lanes of a port over cycles of its clock since T_start, made by an entry at an image word. -/
structure Claim where
  port : Nat
  start : Nat
  len : Nat
  lane : Nat
  lanes : Nat
  word : Nat

def Claim.meets (x y : Claim) : Bool :=
  x.port == y.port && meet x.start x.len y.start y.len && meet x.lane x.lanes y.lane y.lanes

/-- The later of two claims that meet is refused with check 0x08. -/
def claimErrs : List Claim → List ImgErr
  | [] => []
  | c :: rest => (rest.filter c.meets).map (fun r => errAt (max c.word r.word) 8) ++ claimErrs rest

/-- Claims of a network entry in a segment that opens at `o`: lanes of both its ports, 48 cycles apart; or its die's lookup port. -/
def CalEnv.netClaims (c : CalEnv) (o : Nat) (e : NetEnt) (word : Nat) : List Claim :=
  let at_ := o * c.netMhz / 1000 + e.start
  if e.kind = 2 then [⟨resNet e.die 63 0, at_, e.len, 0, 1, word⟩]
  else [⟨resNet e.die e.src 0, at_, e.len, e.srcLane, e.lanes, word⟩,
        ⟨resNet e.die e.dst 1, at_ + 48, e.len, e.dstLane, e.lanes, word⟩]

/-- Claims of a crossbar entry: lanes of both its ports, 32 cycles apart. -/
def xbarClaims (o : Nat) (e : XbarEnt) (word : Nat) : List Claim :=
  let at_ := o * xbarMhz / 1000 + e.start
  [⟨resXbar e.src 0, at_, e.len, e.srcLane, e.lanes, word⟩, ⟨resXbar e.dst 1, at_ + 32, e.len, e.dstLane, e.lanes, word⟩]

/-- Two entries claim a lane of a port in the same cycle (check 0x08), in one segment or across segments. -/
def CalEnv.entryErrs (c : CalEnv) : List ImgErr :=
  if c.j.calRecs = [] then []
  else
    let first (f : CalRec → Nat) (n : Nat) : Nat := (c.j.calRecs[n]?.map f).getD 0
    let nets := c.timeline.flatMap fun s =>
      ((c.j.netOf s.1).zipIdx).flatMap fun e => c.netClaims s.2.1 e.1 (c.layout.net + (first (·.net) s.1 + e.2) / 2)
    let xbars := c.timeline.flatMap fun s =>
      ((c.j.xbarOf s.1).zipIdx).flatMap fun e => xbarClaims s.2.1 e.1 (c.layout.xbar + (first (·.xbar) s.1 + e.2) / 2)
    claimErrs nets ++ claimErrs xbars

/-! ### Transfers in their entries (R168, R169, R173) -/

/-- Words that a transfer of the `q`-th segment moves: through a network of die `die`, or (`via`) through the crossbar entry that it names,
from port `src` to port `dst`, on `lanes` lanes for `len` cycles from `cyc` on. `err` names the transfer. -/
structure Leg where
  q : Nat
  seg : Nat
  via : Option Nat
  die : Nat
  src : Nat
  dst : Nat
  cyc : Nat
  len : Nat
  lanes : Nat
  err : ImgErr
  deriving DecidableEq, Repr

/-- Crossbar entry `n`, if it belongs to segment `seg`. -/
def Job.xbarEntry (j : Job) (seg n : Nat) : Option XbarEnt :=
  match j.calRecs[seg]? with
  | some r => if r.xbar ≤ n ∧ n < r.xbar + r.xbarN then j.xbar[n]? else none
  | none => none

/-- Lanes that transfer entries grant a leg in cycle `cyc`. -/
def Job.supply (j : Job) (f : Leg) (cyc : Nat) : Nat :=
  match f.via with
  | some n => match j.xbarEntry f.seg n with
    | some e => if e.kind = 0 ∧ e.src = f.src ∧ e.dst = f.dst ∧ e.start ≤ cyc ∧ cyc < e.start + e.len then e.lanes else 0
    | none => 0
  | none => (((j.netOf f.seg).filter fun e =>
      e.kind = 0 ∧ e.die = f.die ∧ e.src = f.src ∧ e.dst = f.dst ∧ e.start ≤ cyc ∧ cyc < e.start + e.len).map (·.lanes)).sum

/-- Two legs draw on the same entries. -/
def Leg.rivals (x y : Leg) : Bool :=
  x.q == y.q && x.via == y.via && x.die == y.die && x.src == y.src && x.dst == y.dst

/-- In some cycle of a leg, the legs on its path need more lanes than transfer entries grant them (check 0x08). -/
def Job.legErrs (j : Job) (fs : List Leg) : List ImgErr :=
  fs.flatMap fun f =>
    failIf ((List.range f.len).any fun i =>
      let c := f.cyc + i
      decide (j.supply f c < ((fs.filter fun x => f.rivals x && decide (x.cyc ≤ c ∧ c < x.cyc + x.len)).map (·.lanes)).sum)) f.err

/-! ### Staging banks (R175) -/

/-- A requester's range of addresses: its id, the first place, and the bytes. -/
structure Reach where
  owner : Nat
  key : Nat
  bytes : Nat
  deriving DecidableEq, Repr

/-- First bank and banks of a range of staging. -/
def Reach.banks (r : Reach) : Nat × Nat := ((r.key - stageKey) / 32 % 64, min 64 (cdiv r.bytes 32))

def Reach.inStage (r : Reach) : Bool := decide (stageKey ≤ r.key) && !isSram r.key

/-- Banks that window entries into staging reserve: those that the owner's ranges reach, or all. -/
def CalEnv.windowBanks (c : CalEnv) (reach : List Reach) : List (LaneUse × ImgErr) :=
  if c.j.calRecs = [] then []
  else c.timeline.flatMap fun s =>
    ((c.j.xbarOf s.1).zipIdx).flatMap fun e =>
      let x := e.1
      if x.kind ≠ 1 ∨ ¬(x.src = xStage ∨ x.dst = xStage) then []
      else
        let mine := (reach.filter fun r => ownsAs r.owner x.owner && r.inStage).map Reach.banks
        let word := c.layout.xbar + ((c.j.calRecs[s.1]?.map (·.xbar)).getD 0 + e.2) / 2
        let at_ := s.2.1 * xbarMhz + 1000 * (x.start + if x.dst = xStage then 32 else 0)
        (if mine = [] then [(0, 64)] else mine).map fun r =>
          (⟨resStage, r.1, r.2, 0, at_, at_ + 1000 * x.len, x.owner, word, 0, none⟩, errAt word 8)

/-- Two accesses, or windows, take one bank in one cycle (check 0x08). What one window entry reserves for its owner is one access. -/
def bankErrs : List (LaneUse × ImgErr) → List ImgErr
  | [] => []
  | u :: rest =>
    (rest.filter fun v => u.1.meets v.1 && !(u.1.core == v.1.core && u.1.place == v.1.place)).map
      (fun v => if u.2.word ≤ v.2.word then v.2 else u.2) ++ bankErrs rest

/-! ### Windows without requests (R191) -/

/-- A range of external memory touches a channel that a window names. -/
def Window.reaches (w : Window) (r : Reach) : Bool :=
  decide (r.key < stageKey) && (List.range (cdiv (r.key % 4096 + r.bytes) 4096)).any fun i => w.names (chanOf (r.key + 4096 * i))

/-- Check 0x08 on a window whose owner issues no request to it. The requests of link remote service, the host, CXL mastering, the control
cluster and guests are no part of the image (log entry 44). -/
def CalEnv.idleWindows (c : CalEnv) (reach : List Reach) (fills : List Nat) : List ImgErr :=
  (c.j.windows.zipIdx).flatMap fun e =>
    let o := e.1.owner
    let used := match o / 4096 with
      | 0 | 1 | 2 | 3 => reach.any fun r => ownsAs r.owner o && e.1.reaches r
      | 9 => fills.any fun k => ownFill k = o
      | _ => true
    failIf (!used) (errAt (c.winOff + e.2) 8)

/-! ### Collective channels (R236, R258) -/

/-- Physical channels bound after the bindings of segment `n`, from those bound before. -/
def Job.boundAfter (j : Job) (n : Nat) (bound : List Nat) : List Nat :=
  (j.bindings.filter fun e => e.seg = n).foldl (fun l e => if e.bind then addNew l e.pchan else l.filter fun c => c ≠ e.pchan) bound

/-- Check 0x15: a calendar entry or a memory-channel window of a channel that no logical channel is bound to, and one of a channel rebound at
the segment's opening that begins in the 2 µs after it. -/
def CalEnv.chanErrs (c : CalEnv) : List ImgErr :=
  let pro := prologueLen c.j.segs
  ((List.range (runLength c.j.segs 2)).foldl (fun (a : List Nat × List ImgErr) q =>
    let n := (c.opens q).1
    let o := (c.opens q).2
    let bound := c.j.boundAfter n a.1
    let moved := (c.j.bindings.filter fun e => e.seg = n).map (·.pchan)
    let early (owner : Nat) : Bool := owner / 4096 == 3 && moved.contains (owner % 4096)
    let cal := ((c.j.xbarOf n).zipIdx).flatMap fun e =>
      let free : Bool := decide (e.1.owner / 4096 = 3) && !bound.contains (e.1.owner % 4096)
      failIf (decide (e.1.kind = 1) && (free || (early e.1.owner && decide (e.1.start * 1000 < 2000 * xbarMhz))))
        (errAt (c.layout.xbar + ((c.j.calRecs[n]?.map (·.xbar)).getD 0 + e.2) / 2) 0x15)
    let mem := (c.j.windows.zipIdx).flatMap fun e =>
      let w := e.1
      let t := if w.prologue then w.start else pro + (o - pro) / max 1 c.j.stepNs * c.j.stepNs + w.start
      let z := (c.opens (q + 1)).2
      let here := decide (o ≤ t ∧ t < z ∧ (w.prologue ∨ pro ≤ o))
      let free : Bool := decide (w.owner / 4096 = 3) && !bound.contains (w.owner % 4096)
      failIf (here && (free || (early w.owner && decide (t < o + 2000)))) (errAt (c.winOff + e.2) 0x15)
    (bound, a.2 ++ cal ++ mem)) (([], []) : List Nat × List ImgErr)).2

/-- Check 0x15 on an access to the channel-record area, which is the hub's own. -/
def CalEnv.recordErrs (c : CalEnv) (reach : List Reach) : List ImgErr :=
  let key := stageKey + (c.j.chanRec - Config.stagingBase.toNat)
  failIf (c.j.commits && reach.any fun r => r.inStage && decide (r.key < key + 32768 ∧ key < r.key + r.bytes)) (errAt (c.collOff + 1) 0x15)

/-! ### Context swaps (R155) -/

/-- What a segment's binding moves: (slot, whether a context is saved, whether one is loaded). -/
abbrev SwapMove := Nat × Bool × Bool

/-- Bind a slot to logical context `n` (15: unchanged), given what it holds and the contexts seen: the move, if the control cluster swaps;
a context enters a slot that holds none, for the first time, without a swap. -/
def bindMove (slot : Nat) (held : Option Nat) (seen : List Nat) (n : Nat) : Option Nat × List Nat × List SwapMove :=
  if n = 15 ∨ held = some n then (held, seen, [])
  else
    let moved := if held.isNone ∧ ¬seen.contains n then [] else [(slot, held.isSome, seen.contains n)]
    (some n, addNew seen n, moved)

/-- The moves of each segment that runs, in order. -/
def swapMoves (segs : List (Nat × Seg)) : List (Nat × List SwapMove) :=
  (segs.foldl (fun (a : (Option Nat × Option Nat × List Nat) × List (Nat × List SwapMove)) s =>
    let x := bindMove 0 a.1.1 a.1.2.2 s.2.c0
    let y := bindMove 1 a.1.2.1 x.2.1 s.2.c1
    ((x.1, y.1, y.2.1), a.2 ++ [(s.1, x.2.2 ++ y.2.2)])) ((none, none, []), [])).2

/-- Words that a move carries at a core: the context record and the partition of the slot (R156). -/
def moveWords (part : Nat) (lee : Bool) (slot : Nat) : Nat :=
  recWords lee + bits part ((if lee then 125 else 25) + 50 * slot) 25 / 32

/-- Words that the windows of segment `n` that `sel` picks carry through the crossbar before the segment's closing anchor. -/
def CalEnv.windowWords (c : CalEnv) (n ns : Nat) (sel : XbarEnt → Bool) : Nat :=
  (((c.j.xbarOf n).filter fun e => e.kind = 1 && sel e).map fun e => (min (e.start + e.len) (ns * xbarMhz / 1000) - e.start) * e.lanes).sum

/-- Words that the control cluster's memory-channel windows carry within an interval of `ns` from `o` on (R186). -/
def CalEnv.channelWords (c : CalEnv) (o ns : Nat) : Nat :=
  let pro := prologueLen c.j.segs
  let within (w : Window) (t : Nat) : Nat := min (t + w.len) (o + ns) - max t o
  ((c.j.windows.filter fun w => ownsAs ownCtl w.owner).map fun w =>
    let t := if w.prologue then w.start else if o < pro then o + ns else pro + w.start + (o - pro - w.start) / max 1 c.j.stepNs * c.j.stepNs
    let t' := if w.prologue then t else t + c.j.stepNs
    (within w t + if t' = t then 0 else within w t') * w.count * 21334 / 36000).sum

/-- Check 0x11 on a segment whose swaps do not fit into the control cluster's windows on the crossbar, in either direction at any compute
die, or into its memory-channel windows. -/
def CalEnv.swapErrs (c : CalEnv) : List ImgErr :=
  let runs := (List.range (runLength c.j.segs 2)).filterMap fun q => (c.j.segs[(c.opens q).1]?).map fun s => (q, s)
  (swapMoves runs).flatMap fun m =>
    let n := (c.opens m.1).1
    let o := (c.opens m.1).2
    let ns := (c.opens (m.1 + 1)).2 - o
    let need (sel : SwapMove → Bool) : Nat :=
      ((m.2.filter sel).map fun x => 28 * moveWords c.j.part0.toNat false x.1 + 4 * moveWords c.j.part0.toNat true x.1).sum
    let out := need fun x => x.2.1
    let in_ := need fun x => x.2.2
    let short := (List.range 12).any fun cd =>
      decide (c.windowWords n ns (fun e => ownsAs ownCtl e.owner && e.src == cd) < out
        ∨ c.windowWords n ns (fun e => ownsAs ownCtl e.owner && e.dst == cd) < in_)
    failIf (short || decide (c.channelWords o ns < 12 * (out + in_))) (errAt (c.segOff + n) 0x11)

/-! ### Instruction-cache fills (R162) -/

/-- A fill that core `k` needs: of the code object at directory index `code`, in the segments from the `from_`-th to before the `until_`-th. -/
structure Fill where
  core : Nat
  code : Nat
  from_ : Nat
  until_ : Nat

/-- Fills of a core from the blocks that it runs, as (segment, block, directory index): the first block and the next other one are filled
before T_start; a block that the half not executing holds needs no fill. -/
def fillsOf (k : Nat) (runs : List (Nat × Nat × Nat)) : List Fill :=
  match runs with
  | [] => []
  | r :: _ =>
    let next := ((runs.find? fun x => x.2.1 ≠ r.2.1).map fun x => x.2.1)
    (runs.foldl (fun (a : (Nat × Option Nat × Nat) × List Fill) x =>
      if x.2.1 = a.1.1 then a
      else ((x.2.1, some a.1.1, x.1), if a.1.2.1 = some x.2.1 then a.2 else a.2 ++ [⟨k, x.2.2, a.1.2.2, x.1⟩])) ((r.2.1, next, r.1), [])).2

/-- The fills that an image needs. -/
def CalEnv.fills (c : CalEnv) : List Fill :=
  let runs (k : Nat) : List (Nat × Nat × Nat) := (List.range (runLength c.j.segs 3)).filterMap fun q =>
    let n := (c.opens q).1
    ((c.j.code.zipIdx).find? fun x => x.1.block = (c.j.seg n).block ∧ x.1.cd = k / 32 ∧ x.1.site = k % 32).map fun x => (q, x.1.block, x.2)
  (allCores.filter fun k => c.j.code.any fun x => x.cd = k / 32 ∧ x.site = k % 32).flatMap fun k => fillsOf k (runs k)

/-- Check 0x12 on a fill for which the fill path's windows in the earlier segments are too small. -/
def CalEnv.fillErrs (c : CalEnv) : List ImgErr :=
  c.fills.flatMap fun f =>
    let room := ((List.range (f.until_ - f.from_)).map fun i =>
      let q := f.from_ + i
      c.windowWords (c.opens q).1 ((c.opens (q + 1)).2 - (c.opens q).2) fun e => ownsAs (ownFill f.core) e.owner && e.dst == f.core / 32).sum
    let len := ((c.j.code[f.code]?).map (·.len)).getD 0
    failIf (decide (room < cdiv len 2)) ⟨c.codeOff + f.code, 0x12, f.core / 32 + 1, f.core % 32, noInsn⟩

/-! ### All of them -/

/-- The calendar checks, given the legs, staging accesses and ranges that the traces of the cores found. -/
def CalEnv.errs (c : CalEnv) (legs : List Leg) (banks : List (LaneUse × ImgErr)) (reach : List Reach) : List ImgErr :=
  c.entryErrs ++ c.j.legErrs legs ++ bankErrs (banks ++ c.windowBanks reach) ++ c.idleWindows reach (c.fills.map (·.core))
    ++ c.swapErrs ++ c.fillErrs ++ c.chanErrs ++ c.recordErrs reach

end Sys2Proof.Machine
end

