-- ==== Sys2Proof/Machine/Vector.lean ====
section
/-!
DEFINITION. The vector engine (05_vector_engine.md): registers, length and masks (R93 to R95), loads and stores (R96, R97),
arithmetic with its flags (R98, R99), reductions and summaries (R100, R101), compress and expand (R102), poison (R111).
-/
namespace Sys2Proof.Machine

/-! ### Vector and mask registers of a context -/

/-- Element i of Vn, and whether it is poisoned. -/
def Ctx.lane (c : Ctx) (n i : Nat) : Nat := (Sp.get 0 c.v (128 * n + i)).toNat
def Ctx.laneP (c : Ctx) (n i : Nat) : Bool := c.vPoison.contains (128 * n + i)

def Ctx.setLane (c : Ctx) (n i v : Nat) (p : Bool) : Ctx :=
  { c with v := Sp.set 0 c.v (128 * n + i) (BitVec.ofNat 32 v),
           vPoison := if p then addNew c.vPoison (128 * n + i) else c.vPoison.erase (128 * n + i) }

/-- The FP64 value of element i of the register pair that holds Vn (R105): the even register is the low half. -/
def Ctx.wide (c : Ctx) (n i : Nat) : Nat := c.lane (n / 2 * 2) i + c.lane (n / 2 * 2 + 1) i * 2 ^ 32
def Ctx.wideP (c : Ctx) (n i : Nat) : Bool := c.laneP (n / 2 * 2) i || c.laneP (n / 2 * 2 + 1) i
def Ctx.setWide (c : Ctx) (n i v : Nat) (p : Bool) : Ctx :=
  (c.setLane (n / 2 * 2) i (v % 2 ^ 32) p).setLane (n / 2 * 2 + 1) i (v / 2 ^ 32) p

/-- K0 reads as all ones and discards what is written to it (R93). -/
def Ctx.getK (c : Ctx) (n : Nat) : Nat := if n = 0 then 2 ^ 128 - 1 else Sp.get 0 c.k n
def Ctx.kP (c : Ctx) (n : Nat) : Bool := n ≠ 0 && c.kPoison.contains n
def Ctx.setK (c : Ctx) (n v : Nat) (p : Bool) : Ctx :=
  if n = 0 then c
  else { c with k := Sp.set 0 c.k n v, kPoison := if p then addNew c.kPoison n else c.kPoison.erase n }

/-- Element i is active (R93). -/
def Ctx.active (c : Ctx) (o : VOp) (i : Nat) : Bool := decide (i < c.vl) && bit (c.getK o.mask.toNat) i

def Ctx.activeIds (c : Ctx) (o : VOp) : List Nat := (List.range c.vl).filter (c.active o)

/-! ### Results -/

/-- What an instruction delivers to one element: value, flags, poison. -/
structure LaneRes where
  val : Nat
  flags : Nat
  poison : Bool
  deriving DecidableEq, Repr

/-- Write the results of the elements `act` to the destination; an inactive element keeps its value, or is zeroed under the
zeroing option (R95). With VL = 0 nothing is written. -/
def Ctx.writeLanes (c : Ctx) (k : Nat) (o : VOp) (wide : Bool) (act : Nat → Bool) (res : Nat → LaneRes) : Ctx :=
  if c.vl = 0 then c
  else (List.range (lanes k)).foldl (fun x i =>
    let put (v : Nat) (p : Bool) : Ctx := if wide then x.setWide o.vd.toNat i v p else x.setLane o.vd.toNat i v p
    if act i then put (res i).val (res i).poison else if o.zero then put 0 false else x) c

/-- OR flags into the context flag set and VEC_FLAGS (R99). -/
def Blk.vecFlag (b : Blk) (k fl : Nat) : Blk :=
  let r : Reg := .vecFlags (k / 32) (k % 32)
  (b.updCtx k fun c => { c with flags := c.flags ||| fl }).setReg r (b.reg r ||| fl)

/-- Record the lanes that produced a NaN (VEC_NAN_LANES). -/
def Blk.nanLanes (b : Blk) (k : Nat) (ids : List Nat) : Blk :=
  let m := ids.foldl (fun a i => a ||| 2 ^ i) 0
  let r0 : Reg := .vecNanLanes (k / 32) (k % 32) 0
  let r1 : Reg := .vecNanLanes (k / 32) (k % 32) 1
  let b := b.setReg r0 (b.reg r0 ||| m % 2 ^ 64)
  if isLee k then b.setReg r1 (b.reg r1 ||| m / 2 ^ 64) else b

/-- Issue a vector instruction: it occupies the engine for `occ` vector cycles whether or not its guard holds, and
completes if it does (R143, R145, R165). -/
def vecIssue (i : Issue) (wf : Bool) (occ : Nat) (effect : Nat → Blk → Blk) (b : Blk) : Blk :=
  let k := coreKey i.core
  let r := issue i wf (fun k b => (effect k b).incBy (VEC_OPS.count (k / 32) (k % 32)) 1) b
  if b.issuing k ∧ wf then r.stall k 2 0 occ else r

/-- An instruction that computes each active element of its destination from the context: results, their flags, and, for
a floating result, the lanes with NaN (`nan` tells a NaN code). -/
def lanewise (o : VOp) (wide : Bool) (nan : Nat → Bool) (res : Ctx → Nat → LaneRes) (k : Nat) (b : Blk) : Blk :=
  let c := b.ctx k
  let ids := c.activeIds o
  let rs := ids.map fun i => (i, res c i)
  let at_ (i : Nat) : LaneRes := ((rs.find? fun p => p.1 = i).map (·.2)).getD ⟨0, 0, false⟩
  let res := b.residue k 1
  let kp := c.kP o.mask.toNat || res.1
  let b := res.2.updCtx k fun c => c.writeLanes k o wide (fun i => ids.contains i) fun i =>
    ⟨(at_ i).val, 0, (at_ i).poison || kp⟩
  let b := b.vecFlag k (rs.foldl (fun f p => f ||| p.2.flags) 0)
  b.nanLanes k ((rs.filter fun p => nan p.2.val).map (·.1))

def isNan32 (x : Nat) : Bool := (f32.val x).isNan
def isNan64 (x : Nat) : Bool := (f64.val x).isNan

/-- A code with a NaN made canonical (R50). -/
def canon32 (x : Nat) : Nat := if isNan32 x then f32.nanCode else x
def neverNan (_ : Nat) : Bool := false

/-- A result and the poison of its sources. -/
def laneOf (r : Res) (p : Bool) : LaneRes := ⟨r.val, r.flags, p⟩

/-! ### Arithmetic -/

/-- Sources of a 32-bit and of an FP64 operation. -/
def Ctx.src3 (c : Ctx) (o : VOp) (f : Nat → Nat → Nat → Res) (i : Nat) (n : Nat) : LaneRes :=
  laneOf (f (c.lane o.vs1.toNat i) (c.lane o.vs2.toNat i) (c.lane o.vs3.toNat i))
    (c.laneP o.vs1.toNat i || (decide (2 ≤ n) && c.laneP o.vs2.toNat i) || (decide (3 ≤ n) && c.laneP o.vs3.toNat i))

def Ctx.src3d (c : Ctx) (o : VOp) (f : Nat → Nat → Nat → Res) (i : Nat) (n : Nat) : LaneRes :=
  laneOf (f (c.wide o.vs1.toNat i) (c.wide o.vs2.toNat i) (c.wide o.vs3.toNat i))
    (c.wideP o.vs1.toNat i || (decide (2 ≤ n) && c.wideP o.vs2.toNat i) || (decide (3 ≤ n) && c.wideP o.vs3.toNat i))

/-- Number of sources that function fn of VFP and VFPD reads. -/
def fpArity (fn : Nat) : Nat := if fn = 3 ∨ fn = 4 then 3 else if fn = 5 ∨ fn = 6 ∨ fn = 10 then 1 else 2

def vfpFx (i : Issue) (o : VOp) : Blk → Blk :=
  vecIssue i (WellFormed.vfp o) 1 fun k b =>
    lanewise o false isNan32 (fun c l => c.src3 o (fpOp f32 o.func.toNat) l (fpArity o.func.toNat)) k b

def vfpdFx (i : Issue) (o : VOp) : Blk → Blk :=
  vecIssue i (WellFormed.vfpd o) (if 9 ≤ o.func.toNat then 16 else 4) fun k b =>
    lanewise o true isNan64 (fun c l => c.src3d o (fpOp f64 o.func.toNat) l (fpArity o.func.toNat)) k b

def vintFx (i : Issue) (o : VOp) : Blk → Blk :=
  vecIssue i (WellFormed.vint o) 1 fun k b =>
    lanewise o false neverNan (fun c l => c.src3 o (fun x y _ => intOp o.func.toNat x y) l 2) k b

def vfnFx (i : Issue) (o : VOp) : Blk → Blk :=
  vecIssue i true (if 13 ≤ o.func.toNat then 12 else 4) fun k b =>
    lanewise o false isNan32
      (fun c l => c.src3 o (fun x y _ => vfnOp o.func.toNat x y) l (if o.func = 0 then 2 else 1)) k b

/-- VCVT: functions 2 and 4 write an FP64 pair, function 3 reads one. -/
def vcvtFx (i : Issue) (o : VOp) : Blk → Blk :=
  vecIssue i (WellFormed.vcvt o) 1 fun k b =>
    let fn := o.func.toNat
    let wide := fn = 2 ∨ fn = 4
    lanewise o wide (if fn = 1 then neverNan else if wide then isNan64 else isNan32) (fun c l =>
      if fn = 3 then laneOf (cvtOp fn false (c.wide o.vs1.toNat l)) (c.wideP o.vs1.toNat l)
      else laneOf (cvtOp fn (o.opt = 1) (c.lane o.vs1.toNat l)) (c.laneP o.vs1.toNat l)) k b

/-! ### Masks -/

/-- Write a mask: 0 for every inactive element (R95). -/
def Blk.writeMaskReg (b : Blk) (k : Nat) (o : VOp) (f : Ctx → Nat → Bool) (p : Ctx → Nat → Bool) : Blk :=
  b.updCtx k fun c =>
    if c.vl = 0 then c
    else
      let ids := c.activeIds o
      let v := ids.foldl (fun a i => if f c i then a ||| 2 ^ i else a) 0
      c.setK (o.vd.toNat % 8) v (ids.any (p c) || c.kP o.mask.toNat)

/-- nonfinite_input of the operands of a floating comparison. -/
def cmpFlags (o : VOp) (c : Ctx) (i : Nat) : Nat :=
  if o.opt = 0 then nfOf (f32.val (c.lane o.vs1.toNat i)) ||| nfOf (f32.val (c.lane o.vs2.toNat i))
  else if o.opt = 1 then nfOf (f64.val (c.wide o.vs1.toNat i)) ||| nfOf (f64.val (c.wide o.vs2.toNat i))
  else 0

def vcmpFx (i : Issue) (o : VOp) : Blk → Blk :=
  vecIssue i (WellFormed.vcmp o) (if o.opt = 1 then 4 else 1) fun k b =>
    let fn := o.func.toNat
    let x := o.vs1.toNat
    let y := o.vs2.toNat
    let c := b.ctx k
    let fl := (c.activeIds o).foldl (fun f l => f ||| cmpFlags o c l) 0
    (b.writeMaskReg k o (fun c l =>
      if o.opt = 0 then fpCmp fn (f32.val (c.lane x l)) (f32.val (c.lane y l))
      else if o.opt = 1 then fpCmp fn (f64.val (c.wide x l)) (f64.val (c.wide y l))
      else intCmp fn (sext 32 (c.lane x l)) (sext 32 (c.lane y l))) (fun c l =>
      if o.opt = 1 then c.wideP x l || c.wideP y l else c.laneP x l || c.laneP y l)).vecFlag k fl

/-- KOP: and, or, xor, not. -/
def kopFx (i : Issue) (o : VOp) : Blk → Blk :=
  vecIssue i (WellFormed.kop o) 1 fun k b =>
    let x := o.vs1.toNat % 8
    let y := o.vs2.toNat % 8
    b.writeMaskReg k o (fun c l =>
      let p := bit (c.getK x) l
      let q := bit (c.getK y) l
      match o.func.toNat with
      | 0 => p && q
      | 1 => p || q
      | 2 => xor p q
      | _ => !p) (fun c _ => c.kP x || (decide (o.func.toNat ≤ 2) && c.kP y))

/-! ### Selection and movement (R102) -/

/-- The elements that Kn selects among the active ones. -/
def Ctx.picked (c : Ctx) (o : VOp) (n : Nat) : List Nat := (c.activeIds o).filter fun i => bit (c.getK n) i

/-- vsel: element i from vs1 where the mask bit is 1, else from vs2, for every i below VL. -/
def vselFx (o : VOp) (k : Nat) (b : Blk) : Blk :=
  b.updCtx k fun c =>
    let from_ (i : Nat) : Nat := if bit (c.getK o.mask.toNat) i then o.vs1.toNat else o.vs2.toNat
    c.writeLanes k o false (fun i => decide (i < c.vl)) fun i =>
      ⟨c.lane (from_ i) i, 0, c.laneP (from_ i) i || c.kP o.mask.toNat⟩

def vcompressFx (o : VOp) (k : Nat) (b : Blk) : Blk :=
  b.updCtx k fun c =>
    let n := o.vs2.toNat % 8
    let ids := c.picked o n
    let p := c.kP n || c.kP o.mask.toNat
    let x := c.writeLanes k o false (fun i => decide (i < ids.length)) fun i =>
      ⟨c.lane o.vs1.toNat (ids.getD i 0), 0, p || c.laneP o.vs1.toNat (ids.getD i 0)⟩
    if c.vl = 0 then c else x.setS o.sd.toNat (BitVec.ofNat 64 ids.length) p

def vexpandFx (o : VOp) (k : Nat) (b : Blk) : Blk :=
  b.updCtx k fun c =>
    let n := o.vs2.toNat % 8
    let ids := c.picked o n
    let p := c.kP n || c.kP o.mask.toNat
    c.writeLanes k o false (fun i => ids.contains i) fun i =>
      ⟨c.lane o.vs1.toNat (ids.idxOf i), 0, p || c.laneP o.vs1.toNat (ids.idxOf i)⟩

/-- vtwosum: one step of comp_sum on (hi, lo, v) = (vs1, vs2, vs3); hi goes to Vd, lo to the register after it. -/
def twoSumStep (hi lo v : Nat) : Nat × Nat × Nat :=
  let t := twoSum hi v
  let l := addF lo t.2.1
  let ops := [f32.val hi, f32.val lo, f32.val v]
  let nan := !(ops.any Ex.isNan) && (isNan32 t.1 || isNan32 l.val)
  let nf := if ops.all Ex.finite then 0 else flNonfinite
  (t.1, l.val, (if nan then flInvalid else 0) ||| ((t.2.2 ||| l.flags) &&& flOverflow) ||| nf)

def vtwosumFx (o : VOp) (k : Nat) (b : Blk) : Blk :=
  let c := b.ctx k
  let st (i : Nat) : Nat × Nat × Nat :=
    twoSumStep (c.lane o.vs1.toNat i) (c.lane o.vs2.toNat i) (c.lane o.vs3.toNat i)
  let p (i : Nat) : Bool := c.laneP o.vs1.toNat i || c.laneP o.vs2.toNat i || c.laneP o.vs3.toNat i
  let b := lanewise o false isNan32 (fun _ i => ⟨(st i).1, (st i).2.2, p i⟩) k b
  lanewise { o with vd := o.vd + 1 } false isNan32 (fun _ i => ⟨(st i).2.1, 0, p i⟩) k b

/-- VMOVE. DESIGN CHOICE (log entry 123): vsel, vmov and vbcast copy bits and raise no flag, and a load raises none but R61's overflow; R99's
table speaks of any operand, and R102 exempts vcompress and vexpand by name. -/
def vmoveFx (i : Issue) (o : VOp) : Blk → Blk :=
  vecIssue i (WellFormed.vmove o) (if 3 ≤ o.func.toNat then 2 else 1) fun k b =>
    match o.func.toNat with
    | 0 => vselFx o k b
    | 1 => lanewise o false neverNan (fun c l => ⟨c.lane o.vs1.toNat l, 0, c.laneP o.vs1.toNat l⟩) k b
    | 2 => lanewise o false neverNan
        (fun c _ => ⟨(c.getS o.ra.toNat).toNat % 2 ^ 32, 0, c.sPoison.contains o.ra.toNat⟩) k b
    | 3 => vcompressFx o k b
    | 4 => vexpandFx o k b
    | _ => vtwosumFx o k b

/-! ### Reductions and summaries (R100, R101) -/

/-- Element list of a reduction: inactive elements are the identity. -/
def Ctx.redList (c : Ctx) (o : VOp) (id : Nat) (f : Nat → Nat) : List Nat :=
  (List.range c.vl).map fun i => if c.active o i then f (c.lane o.vs1.toNat i) else id

/-- Result, flags and poison of function fn of VRED; the result of a reduction of one element is canonical like every other (R98). -/
def Ctx.vred (c : Ctx) (o : VOp) : Nat × Nat × Bool :=
  let ids := c.activeIds o
  let p := ids.any (fun i => c.laneP o.vs1.toNat i) || c.kP o.mask.toNat
  let nf := ids.foldl (fun f i => f ||| nfOf (f32.val (c.lane o.vs1.toNat i))) 0
  let node (f : Nat) : Nat := f &&& (flInvalid ||| flOverflow)
  let n := o.vs1.toNat % 8
  let kp := c.kP n || c.kP o.mask.toNat
  let hit := ids.filter fun i => bit (c.getK n) i
  match o.func.toNat with
  | 0 =>
    let r := reduce addF (2 ^ 31) (c.redList o (2 ^ 31) id)
    (canon32 r.1, node r.2 ||| nf, p)
  | 1 =>
    let r := reduce (fun x y => fpOp f32 8 x y 0) (f32.infCode true) (c.redList o (f32.infCode true) id)
    (canon32 r.1, nf, p)
  | 2 =>
    let r := reduce (fun x y => fpOp f32 7 x y 0) (f32.infCode false) (c.redList o (f32.infCode false) id)
    (canon32 r.1, nf, p)
  | 3 =>
    let r := reduce (fun x y => sat32i (sext 32 x + sext 32 y)) 0 (c.redList o 0 id)
    (r.1, r.2, p)
  | 4 =>
    let sq (x : Nat) : Res := fpOp f32 2 x x 0
    let r := reduce addF (2 ^ 31) (c.redList o (2 ^ 31) fun x => (sq x).val)
    let fl := ids.foldl (fun f i => f ||| (sq (c.lane o.vs1.toNat i)).flags) 0
    (r.1, node r.2 ||| fl, p)
  | 5 => (b2n (hit ≠ []), 0, kp)
  | 6 => (b2n (hit.length = ids.length), 0, kp)
  | 7 => (hit.length, 0, kp)
  | 8 => (hit.headD c.vl, 0, kp)
  | _ => (c.flags, 0, false)

/-- VRED. DESIGN CHOICE (log entry 123): a 32-bit result fills the 64-bit scalar register zero-extended; R101 does not say. -/
def vredFx (i : Issue) (o : VOp) : Blk → Blk :=
  vecIssue i (WellFormed.vred o) 1 fun k b =>
    let r := (b.ctx k).vred o
    let fn := o.func.toNat
    let b := b.updCtx k fun c =>
      if fn = 5 ∨ fn = 6 then c.setP (o.sd.toNat % 16) (r.1 = 1) r.2.2
      else c.setS o.sd.toNat (BitVec.ofNat 64 r.1) r.2.2
    let b := b.vecFlag k r.2.1
    if r.2.2 then b.satBy (VEC_OPS.aborted (k / 32) (k % 32)) 1 else b

/-! ### Loads and stores (R96, R97) -/

/-- The register value a loaded element widens to (R54, R61, R96), with its flags. A NaN is delivered as the canonical one (R50); that an
FP64 load, which widens nothing, makes it canonical too is DEDUCED (log entry 123). -/
def widen (fmt : Nat) (sgn : Bool) (layout code sc sub : Nat) : Res :=
  if layout = 0 then
    if fmt = 11 then ⟨if isNan64 code then f64.nanCode else code, 0⟩
    else if isInt fmt then ⟨if sgn then wrapInt 32 (sext (fmtWidth fmt) code) else code, 0⟩
    else ⟨(f32.round (decodeElem fmt sgn code)).1, 0⟩
  else
    let r := f32.round (decodeScaled fmt sgn code sc sub)
    ⟨r.1, if r.2 then flOverflow else 0⟩

/-- VLD: the active elements from S(ra), the scale array of a block layout at S(ra + 1); a pad reads as +0 (R59). -/
def Blk.vload (b : Blk) (k : Nat) (o : VOp) : Blk :=
  let c := b.ctx k
  let ids := c.activeIds o
  let fmt := o.fmt.toNat
  let lay := o.layout.toNat
  let w := fmtWidth fmt
  let step := if lay = 2 then 16 else 8
  let die := coreDie k
  let unit := k % 32
  let poisonAll (b : Blk) : Blk := lanewise o (fmt = 11) neverNan (fun _ _ => ⟨0, 0, true⟩) k b
  if ids = [] then b.updCtx k fun c => c.writeLanes k o (fmt = 11) (fun _ => false) fun _ => ⟨0, 0, false⟩
  else match b.regPlace k o.ra.toNat o.rel, b.regPlace k (o.ra.toNat + 1) o.rel with
    | none, _ => poisonAll (b.addrRange die unit (b.sreg k o.ra.toNat))
    | some e, sc? =>
      let eo (i : Nat) : Nat := 8 * (e % 32) + w * i
      let es := b.fetchSet (e / 32 * 32) (coverWords (ids.map fun i => (eo i, w)))
      let sk := sc?.getD 0
      let so (i : Nat) : Nat := 8 * (sk % 32) + step * (i / 32)
      let ss := if lay = 0 then ([], es.2) else es.2.fetchSet (sk / 32 * 32) (coverWords (ids.map fun i => (so i, step)))
      let b := ss.2
      if lay ≠ 0 ∧ sc? = none then poisonAll (b.addrRange die unit (b.sreg k (o.ra.toNat + 1)))
      else
        let pad := b.padOf e fmt
        let el (i : Nat) : LaneRes :=
          let x := takeBits es.1 (eo i) w
          let s := if lay = 0 then (0, false) else takeBits ss.1 (so i) step
          laneOf (if pad i then ⟨0, 0⟩
            else widen fmt o.sgn lay x.1 (s.1 % 256) (if lay = 2 then bits (s.1 / 256) (2 * (i / 8 % 4)) 2 else 0)) (x.2 || s.2)
        let bad := ((es.1 ++ ss.1).filter (·.2.poison)).length
        let b := lanewise o (fmt = 11) neverNan (fun _ i => el i) k b
        if 0 < bad then b.consume k 2 die unit (b.sreg k o.ra.toNat) bad else b

def vldFx (i : Issue) (o : VOp) : Blk → Blk :=
  vecIssue i (WellFormed.vld o) 1 fun k b => b.vload k o

/-- VSTR: the contents of vs1 unchanged, 64-bit pairs where the format field names FP64; poisoned where the element or the mask is
(R111). -/
def vstrFx (i : Issue) (o : VOp) : Blk → Blk :=
  vecIssue i true 1 fun k b =>
    let c := b.ctx k
    let wide := o.fmt.toNat = 11
    let kp := c.kP o.mask.toNat
    match b.regPlace k o.ra.toNat o.rel with
    | none => if c.activeIds o = [] then b else b.addrRange (coreDie k) (k % 32) (b.sreg k o.ra.toNat)
    | some e =>
      let n := if wide then 64 else 32
      let b := b.openWords (e / 32 * 32) (coverWords ((c.activeIds o).map fun l => (8 * (e % 32) + n * l, n)))
      (c.activeIds o).foldl (fun b l =>
        if wide then
          b.writeBits (e / 32 * 32) (8 * (e % 32) + 64 * l) 64 (c.wide o.vs1.toNat l) (c.wideP o.vs1.toNat l || kp)
        else b.writeBits (e / 32 * 32) (8 * (e % 32) + 32 * l) 32 (c.lane o.vs1.toNat l) (c.laneP o.vs1.toNat l || kp)) b

/-- VST: the active elements are one tile of the output conversion (R96, R97, R119). -/
def Blk.vstore (b : Blk) (k : Nat) (o : VOp) : Blk :=
  let c := b.ctx k
  let ids := c.activeIds o
  let die := coreDie k
  let unit := k % 32
  let da := b.sreg k o.rdesc.toNat % 2 ^ 48
  let dw := b.readDev (da / 32 * 32) 1 die unit
  let w := dw.1.headD ⟨0, true⟩
  let d := w.data.toNat
  let b := dw.2
  let ok := !w.poison && b.descOk d true
  let b := if w.poison then b.consume k 3 die unit da 1 else if ok then b else b.badDesc k da
  match b.regPlace k o.ra.toNat o.rel with
  | none => b.addrRange die unit (b.sreg k o.ra.toNat)
  | some key =>
    let out := b.outAt d key 0
    let wide := dFmt d = 11
    let els : List ConvEl := ids.map fun i =>
      ConvEl.mk (if wide then f64.val (c.wide o.vs1.toNat i) else f32.val (c.lane o.vs1.toNat i)) i (out.i0 + i)
    if ¬ok then
      ifB (!w.poison) (fun b => b.satBy (VEC_OPS.aborted (k / 32) (k % 32)) 1) (b.poisonOut d out.key (els.map (·.i)))
    else
      let cover := if dLayout d = 0 then [] else (List.range (cdiv c.vl 32)).map (· + out.i0 / 32)
      let bias := b.fetchBias k d ids
      let b := bias.2
      let r := b.convTile d (fun j => (bias.1 j).1) els cover
      let poison (i : Nat) : Bool :=
        (if wide then c.wideP o.vs1.toNat i else c.laneP o.vs1.toNat i) || c.kP o.mask.toNat || (bias.1 i).2
      let bad := ids.filter poison
      let slot := b.recomputes d
      let cyc := cdiv ids.length 64
      let b := b.writeConv d out r fun e => bad.contains (e - out.i0)
      let b := ((b.countConv k d r).vecFlag k r.flags).stall k 3 0 cyc
      let b := b.writeTileByte d (b.sreg k o.rtile.toNat % 2 ^ 16) r.delta
      if slot then b.stall k 3 (if r.delta = 0 then 4 else 10) (cyc + 8) else b

def vstFx (i : Issue) (o : VOp) : Blk → Blk :=
  vecIssue i true 1 fun k b => if (b.ctx k).vl = 0 then b else b.vstore k o

/-! ### Generator words, flags and length -/

def vrandFx (i : Issue) (o : VOp) : Blk → Blk :=
  vecIssue i (WellFormed.vrand o) 2 fun k b =>
    lanewise o false neverNan (fun c l =>
      ⟨b.randWord o.tid.toNat o.draw.toNat o.purpose.toNat ((c.getS o.ra.toNat).toNat + l), 0,
        c.sPoison.contains o.ra.toNat⟩) k b

def vclrfFx (i : Issue) : Blk → Blk :=
  vecIssue i true 1 fun k b => b.updCtx k fun c => { c with flags := 0 }

def setvlFx (i : Issue) (o : VOp) : Blk → Blk :=
  vecIssue i true 1 fun k b => b.updCtx k fun c =>
    { c with vl := min (if o.ra = 0 then o.imm.toNat else (c.getS o.ra.toNat).toNat) (lanes k) }

def execVfp (i : Issue) (o : VOp) (s : State) := onBlk s (vfpFx i o)
def execVfpd (i : Issue) (o : VOp) (s : State) := onBlk s (vfpdFx i o)
def execVint (i : Issue) (o : VOp) (s : State) := onBlk s (vintFx i o)
def execVcmp (i : Issue) (o : VOp) (s : State) := onBlk s (vcmpFx i o)
def execVcvt (i : Issue) (o : VOp) (s : State) := onBlk s (vcvtFx i o)
def execVfn (i : Issue) (o : VOp) (s : State) := onBlk s (vfnFx i o)
def execVmove (i : Issue) (o : VOp) (s : State) := onBlk s (vmoveFx i o)
def execVred (i : Issue) (o : VOp) (s : State) := onBlk s (vredFx i o)
def execVld (i : Issue) (o : VOp) (s : State) := onBlk s (vldFx i o)
def execVst (i : Issue) (o : VOp) (s : State) := onBlk s (vstFx i o)
def execVstr (i : Issue) (o : VOp) (s : State) := onBlk s (vstrFx i o)
def execVrand (i : Issue) (o : VOp) (s : State) := onBlk s (vrandFx i o)
def execVclrf (i : Issue) (_ : VOp) (s : State) := onBlk s (vclrfFx i)
def execSetvl (i : Issue) (o : VOp) (s : State) := onBlk s (setvlFx i o)
def execKop (i : Issue) (o : VOp) (s : State) := onBlk s (kopFx i o)

end Sys2Proof.Machine
end

