-- ==== Sys2Proof/Machine/Procedures.lean ====
section
/-!
DEFINITION. The wide-precision procedures of the vector engine (05_vector_engine.md, R106 to R109): the two sums, the soft maximum, the
normalisations and the cross-entropy loss, on rows of FP32 codes, with the flags they raise on the core that runs them. They are
programs of library instructions, so no command of the table carries one out as a whole.
-/
namespace Sys2Proof.Machine

def vEmptyRow : Nat := 32

/-- FP32 codes: one, the canonical NaN, the infinities, and a natural number that FP32 holds exactly. -/
def one32 : Nat := 0x3F800000
def nan32 : Nat := f32.nanCode
def inf32 (neg : Bool) : Nat := f32.infCode neg
def nat32 (n : Nat) : Nat := (f32.round (.ofNat n)).1

/-! ### Sums (R106) -/

/-- tree_sum: the pairwise tree of R100 with identity −0. -/
def treeSum (v : List Nat) : Nat := canon32 (reduce addF (2 ^ 31) v).1

/-- An accumulator of comp_sum. -/
structure SumPair where
  hi : Nat
  lo : Nat
  deriving DecidableEq, Repr

/-- One element more, and two accumulators combined. -/
def SumPair.add (a : SumPair) (v : Nat) : SumPair :=
  let t := twoSum a.hi v
  ⟨t.1, (addF a.lo t.2.1).val⟩
def SumPair.combine (a c : SumPair) : SumPair :=
  let t := twoSum a.hi c.hi
  ⟨t.1, (addF (addF a.lo c.lo).val t.2.1).val⟩

/-- Accumulator j of 64 takes the active positions j, j + 64, … in ascending order. -/
def sumPairOf (v : List (Option Nat)) (j : Nat) : SumPair :=
  (v.zipIdx.filter fun e => e.2 % 64 = j).foldl (fun a e => match e.1 with
    | some x => a.add x
    | none => a) ⟨2 ^ 31, 0⟩

/-- Adjacent pairs combined, n times. -/
def pairLevels : Nat → List SumPair → List SumPair
  | 0, l => l
  | n + 1, l => pairLevels n ((List.range (l.length / 2)).map fun m => (l.getD (2 * m) ⟨0, 0⟩).combine (l.getD (2 * m + 1) ⟨0, 0⟩))

/-- comp_sum over the positions of a row; an inactive position is `none`. -/
def compSum (v : List (Option Nat)) : Nat :=
  let p := (pairLevels 6 ((List.range 64).map (sumPairOf v))).headD ⟨0, 0⟩
  (addF p.hi p.lo).val

/-- The sum of the soft maximum and of the normalisations: by the row's length, inactive positions counted. -/
def rowSum (v : List (Option Nat)) : Nat :=
  if v.length < 4096 then treeSum (v.map fun x => x.getD (2 ^ 31)) else compSum v

/-! ### Soft maximum (R107) -/

/-- What softmax_row gives: the row, its log-sum-exp, and the flags it raises, which are no others. -/
structure SoftRow where
  y : List Nat
  lse : Nat
  flags : Nat
  deriving DecidableEq, Repr

/-- softmax_row; position i is active where `mask` holds true at i. -/
def softmaxRow (x : List Nat) (mask : List Bool) : SoftRow :=
  let at_ : List (Nat × Bool) := x.zipIdx.map fun e => (e.1, mask.getD e.2 false)
  let act : List Nat := (at_.filter (·.2)).map (·.1)
  if act.any isNan32 then ⟨x.map fun _ => nan32, nan32, flNonfinite⟩
  else
    let top := (act.filter (· = inf32 false)).length
    if top ≠ 0 then
      let w := (f32.round (exDiv (.ofNat 1) (.ofNat top)).1).1
      ⟨at_.map fun e => if e.2 ∧ e.1 = inf32 false then w else 0, inf32 false, flNonfinite⟩
    else
      let fin (e : Nat × Bool) : Bool := e.2 && decide (e.1 ≠ inf32 true)
      match (at_.filter fin).map (·.1) with
      | [] => ⟨x.map fun _ => 0, inf32 true, vEmptyRow⟩
      | f :: fs =>
        let mx := fs.foldl (fun m v => (fpOp f32 8 m v 0).val) f
        let e := at_.map fun e => (e, if fin e then (vexpOp (subF e.1 mx).val).val else 2 ^ 31)
        let s := rowSum (e.map fun p => if p.1.2 then some p.2 else none)
        ⟨e.map fun p => if fin p.1 then (vdivOp p.2 s).val else 0, (addF mx (vlogOp s).val).val, 0⟩

/-! ### Normalisation (R108) -/

/-- An output row and the flags raised. -/
structure NormRow where
  y : List Nat
  flags : Nat
  deriving DecidableEq, Repr

/-- A row that holds a NaN or an infinity gives the canonical NaN throughout. -/
def normGuard (x y : List Nat) : NormRow :=
  if x.all fun v => (f32.val v).finite then ⟨y, 0⟩ else ⟨x.map fun _ => nan32, flNonfinite⟩

def mul32 (a c : Nat) : Nat := (fpOp f32 2 a c 0).val

/-- The sum of a row of active positions, over its length. -/
def rowMean (v : List Nat) : Nat := (vdivOp (rowSum (v.map some)) (nat32 v.length)).val

/-- Factor and addend of position i: 1 without gamma, −0 without beta. -/
def gammaAt (g : Option (List Nat)) (i : Nat) : Nat := (g.map fun l => l.getD i 0).getD one32
def betaAt (g : Option (List Nat)) (i : Nat) : Nat := (g.map fun l => l.getD i 0).getD (2 ^ 31)

def layerNorm (x : List Nat) (eps : Nat) (gamma beta : Option (List Nat)) : NormRow :=
  let mean := rowMean x
  let d := x.map fun v => (subF v mean).val
  let r := (vrsqrtOp (addF (rowMean (d.map fun v => mul32 v v)) eps).val).val
  normGuard x (d.zipIdx.map fun e => (fpOp f32 3 (mul32 e.1 r) (gammaAt gamma e.2) (betaAt beta e.2)).val)

def rmsNorm (x : List Nat) (eps : Nat) (gamma : Option (List Nat)) : NormRow :=
  let r := (vrsqrtOp (addF (rowMean (x.map fun v => mul32 v v)) eps).val).val
  normGuard x (x.zipIdx.map fun e => mul32 (mul32 e.1 r) (gammaAt gamma e.2))

/-- Parameters that validation check 0x10 refuses: an epsilon that is not positive and finite, and a length outside 1 to 2²⁴. -/
def normRejected (eps n : Nat) : Bool :=
  let v := f32.val eps
  !(v.finite && !v.isZero && !v.neg?) || decide (n = 0 ∨ 2 ^ 24 < n)

/-! ### Loss (R109) -/

/-- A row of logits with its mask and its target: `none` for −1, ignore. -/
structure LossRow where
  x : List Nat
  mask : List Bool
  target : Option Nat
  deriving DecidableEq, Repr

/-- The row counts: its target is an active position. -/
def LossRow.counts (r : LossRow) : Option Nat := r.target.filter fun t => decide (t < r.x.length) && r.mask.getD t false

/-- What the procedure gives: L, c, the gradient of each row that counts, and the flags raised. -/
structure Loss where
  loss : Nat
  count : Nat
  grads : List (Option (List Nat))
  flags : Nat
  deriving DecidableEq, Repr

/-- The cross-entropy procedure. DESIGN CHOICE (log entry 123): comp_sum has the rows as its positions, those that do not count being
inactive, and no flag is raised but those of the soft maxima and empty_row. -/
def crossEntropy (rows : List LossRow) : Loss :=
  let ss := rows.map fun r => (r, softmaxRow r.x r.mask)
  let ls : List (Option Nat) := ss.map fun p => p.1.counts.map fun t => (subF p.2.lse (p.1.x.getD t 0)).val
  let c := (ls.filter (·.isSome)).length
  let inv := (vdivOp one32 (nat32 c)).val
  let grad (p : LossRow × SoftRow) (t : Nat) : List Nat :=
    p.2.y.zipIdx.map fun e => mul32 (subF e.1 (if e.2 = t then one32 else 0)).val inv
  let fl := ss.foldl (fun f p => f ||| p.2.flags) 0
  ⟨if c = 0 then 0 else (vdivOp (compSum ls) (nat32 c)).val, c, ss.map fun p => p.1.counts.map (grad p),
    fl ||| (if c = 0 then vEmptyRow else 0)⟩

/-! ### Flags on the core that runs a procedure (R99) -/

/-- A procedure run on core k raises its flags there, in the context flag set and in VEC_FLAGS. -/
def Blk.softmaxOn (b : Blk) (k : Nat) (x : List Nat) (mask : List Bool) : SoftRow × Blk :=
  (softmaxRow x mask, b.vecFlag k (softmaxRow x mask).flags)
def Blk.layerNormOn (b : Blk) (k : Nat) (x : List Nat) (eps : Nat) (gamma beta : Option (List Nat)) : NormRow × Blk :=
  (layerNorm x eps gamma beta, b.vecFlag k (layerNorm x eps gamma beta).flags)
def Blk.rmsNormOn (b : Blk) (k : Nat) (x : List Nat) (eps : Nat) (gamma : Option (List Nat)) : NormRow × Blk :=
  (rmsNorm x eps gamma, b.vecFlag k (rmsNorm x eps gamma).flags)

/-- The loss also delivers c to scalar register `d` (R109). -/
def Blk.lossOn (b : Blk) (k d : Nat) (rows : List LossRow) : Loss × Blk :=
  (crossEntropy rows, (b.vecFlag k (crossEntropy rows).flags).setSreg k d (crossEntropy rows).count)

end Sys2Proof.Machine
end

