-- ==== Sys2Proof/Machine/Scalar.lean ====
section
/-!
DEFINITION. Scalar and predicate instructions (R140, R142): two's complement modulo 2⁶⁴.
-/
namespace Sys2Proof.Machine

/-- Second operand: the immediate or Sb (R142). -/
def sopSrc2 (o : SOp) (c : Ctx) : Quad := if o.immSel then o.imm else c.getS o.b.toNat
def popSrc2 (o : POp) (c : Ctx) : Quad := if o.immSel then o.imm else c.getS o.b.toNat

/-- A result computed from a poisoned scalar is poisoned (R111). -/
def scalarPoison (c : Ctx) (a b : BitVec 5) (immSel : Bool) : Bool :=
  c.sPoison.contains a.toNat || (!immSel && c.sPoison.contains b.toNat)

/-- Sd := f(Sa, second operand). -/
def scalarFx (i : Issue) (o : SOp) (f : Quad → Quad → Quad) : Blk → Blk :=
  issue i true fun k b =>
    b.updCtx k fun c => c.setS o.d.toNat (f (c.getS o.a.toNat) (sopSrc2 o c)) (scalarPoison c o.a o.b o.immSel)

/-- SLI writes the immediate (R142). -/
def sliFx (i : Issue) (o : SOp) : Blk → Blk := issue i true fun k b => b.updCtx k fun c => c.setS o.d.toNat o.imm

/-- Shift amounts use the low 6 bits (R140). -/
def shamt (x : Quad) : Nat := x.toNat % 64

def saddFx (i : Issue) (o : SOp) : Blk → Blk := scalarFx i o fun a b => a + b
def ssubFx (i : Issue) (o : SOp) : Blk → Blk := scalarFx i o fun a b => a - b
def smulFx (i : Issue) (o : SOp) : Blk → Blk := scalarFx i o fun a b => a * b
def sandFx (i : Issue) (o : SOp) : Blk → Blk := scalarFx i o fun a b => a &&& b
def sorFx (i : Issue) (o : SOp) : Blk → Blk := scalarFx i o fun a b => a ||| b
def sxorFx (i : Issue) (o : SOp) : Blk → Blk := scalarFx i o fun a b => a ^^^ b
def sshlFx (i : Issue) (o : SOp) : Blk → Blk := scalarFx i o fun a b => a <<< shamt b
def sshrFx (i : Issue) (o : SOp) : Blk → Blk := scalarFx i o fun a b => a >>> shamt b
def ssraFx (i : Issue) (o : SOp) : Blk → Blk := scalarFx i o fun a b => a.sshiftRight (shamt b)
def sminFx (i : Issue) (o : SOp) : Blk → Blk := scalarFx i o fun a b => if a.slt b then a else b
def smaxFx (i : Issue) (o : SOp) : Blk → Blk := scalarFx i o fun a b => if a.slt b then b else a

/-- SCMP conditions (R140). -/
def scmpCond (cond : BitVec 3) (a b : Quad) : Bool :=
  match cond.toNat with
  | 0 => a = b
  | 1 => a ≠ b
  | 2 => a.slt b
  | 3 => a.sle b
  | 4 => a.ult b
  | _ => a.ule b

def scmpFx (i : Issue) (o : POp) : Blk → Blk :=
  issue i (WellFormed.scmp o) fun k b =>
    b.updCtx k fun c => 
      c.setP o.pd.toNat (scmpCond o.cond (c.getS o.a.toNat) (popSrc2 o c)) (scalarPoison c o.a o.b o.immSel)

/-- PLOG: and, or, xor, not a; Pa and Pb are the low four bits of the source fields (R142). -/
def plogFn (f : BitVec 3) (x y : Bool) : Bool :=
  match f.toNat with
  | 0 => x && y
  | 1 => x || y
  | 2 => xor x y
  | _ => !x

def plogFx (i : Issue) (o : POp) : Blk → Blk :=
  issue i (WellFormed.plog o) fun k b =>
    b.updCtx k fun c =>
      let a := o.a.toNat % 16
      let x := o.b.toNat % 16
      c.setP o.pd.toNat (plogFn o.cond (c.getP a) (c.getP x))
        (c.pPoison.contains a || (decide (o.cond.toNat ≤ 2) && c.pPoison.contains x))

def execSli (i : Issue) (o : SOp) (s : State) := onBlk s (sliFx i o)
def execSadd (i : Issue) (o : SOp) (s : State) := onBlk s (saddFx i o)
def execSsub (i : Issue) (o : SOp) (s : State) := onBlk s (ssubFx i o)
def execSmul (i : Issue) (o : SOp) (s : State) := onBlk s (smulFx i o)
def execSand (i : Issue) (o : SOp) (s : State) := onBlk s (sandFx i o)
def execSor (i : Issue) (o : SOp) (s : State) := onBlk s (sorFx i o)
def execSxor (i : Issue) (o : SOp) (s : State) := onBlk s (sxorFx i o)
def execSshl (i : Issue) (o : SOp) (s : State) := onBlk s (sshlFx i o)
def execSshr (i : Issue) (o : SOp) (s : State) := onBlk s (sshrFx i o)
def execSsra (i : Issue) (o : SOp) (s : State) := onBlk s (ssraFx i o)
def execSmin (i : Issue) (o : SOp) (s : State) := onBlk s (sminFx i o)
def execSmax (i : Issue) (o : SOp) (s : State) := onBlk s (smaxFx i o)
def execScmp (i : Issue) (o : POp) (s : State) := onBlk s (scmpFx i o)
def execPlog (i : Issue) (o : POp) (s : State) := onBlk s (plogFx i o)

end Sys2Proof.Machine
end

