-- ==== Sys2Proof/Machine/Trace.lean ====
section
/-!
DEFINITION. The checks of R160 that follow a core's code along its planned path (R139 to R150, R153, R155): register values and
taint, ready cycles, unit occupancy, operand extents, descriptors, transfer claims. A core is traced over the prologue and over steps
until one step leaves its registers as an earlier one did; Claims.lean holds against one another what the cores' traces ask of the
calendars. What the spec gives no map for (log entry 44) is `Config.traceCheck`.
-/
namespace Sys2Proof.Machine

/-! ### What is traced -/

/-- The registers of a logical context as validation knows them: `none` is a tainted value (R141). -/
structure TCtx where
  s : Sp (Option Quad)
  p : Sp (Option Bool)
  vl : Option Nat
  deriving DecidableEq, Repr

/-- The first state of a context (R155). -/
def TCtx.init : TCtx := ⟨[], [], some 0⟩

def TCtx.getS (c : TCtx) (n : Nat) : Option Quad := if n = 0 then some 0 else Sp.get (some 0) c.s n
def TCtx.setS (c : TCtx) (n : Nat) (v : Option Quad) : TCtx := if n = 0 then c else { c with s := Sp.set (some 0) c.s n v }
def TCtx.getP (c : TCtx) (n : Nat) : Option Bool := if n = 0 then some true else Sp.get (some false) c.p n
def TCtx.setP (c : TCtx) (n : Nat) (v : Option Bool) : TCtx := if n = 0 then c else { c with p := Sp.set (some false) c.p n v }

/-- Two values that a tainted predicate chooses between: known only where they agree. -/
def joinVal {α : Type} [DecidableEq α] (x y : Option α) : Option α := if x = y then x else none

def joinSp {α : Type} [DecidableEq α] (d : α) (x y : Sp (Option α)) : Sp (Option α) :=
  (Sp.keys x ++ Sp.keys y).foldl (fun m k => Sp.set (some d) m k (joinVal (Sp.get (some d) x k) (Sp.get (some d) y k))) []

def TCtx.join (x y : TCtx) : TCtx := ⟨joinSp 0 x.s y.s, joinSp false x.p y.p, joinVal x.vl y.vl⟩

/-- Completions that a queue still expects: since an earlier segment or this one; by a cycle, or by an anchor this many anchors on. -/
structure Pend where
  queue : Nat
  old : Bool
  due : Nat
  anchors : Nat
  deriving DecidableEq, Repr

/-- Bytes from place `key` on that can be read from cycle `ready` on (R145). -/
structure Landing where
  key : Nat
  bytes : Nat
  ready : Nat
  deriving DecidableEq, Repr

/-- Where the trace of a core stands. `rdy` gives, for each resource of each slot, the cycle from which it can be read; `legs`, `banks`
and `ranges` are what its transfers ask of the calendars. -/
structure TSt where
  t : Nat
  waited : Bool
  ctxs : Sp TCtx
  bound : Nat × Nat
  slot : Nat
  swapping : List Nat
  rdy : Sp Nat
  vfree : Nat
  mfree : Nat
  drain : Sp Nat
  loops : List Nat
  seq : Nat
  seg : Nat
  writes : List Landing
  pend : List Pend
  colls : List (Nat × Nat × Nat × Nat)
  legs : List Leg
  banks : List (LaneUse × ImgErr)
  ranges : List Reach
  errs : List ImgErr
  deriving DecidableEq, Repr

/-- At T_start: both slots in their first state, no slot bound. -/
def TSt.init : TSt := ⟨0, false, [], (16, 17), 0, [], [], 0, 0, [], [], 0, 0, [], [], [], [], [], [], []⟩

/-- The logical context that a slot holds; 16 and 17 stand for what C0 and C1 hold before any binding. -/
def TSt.holds (x : TSt) (slot : Nat) : Nat := if slot = 0 then x.bound.1 else x.bound.2
def TSt.ctx (x : TSt) : TCtx := Sp.get TCtx.init x.ctxs (x.holds x.slot)
def TSt.setCtx (x : TSt) (c : TCtx) : TSt := { x with ctxs := Sp.set TCtx.init x.ctxs (x.holds x.slot) c }

/-- What one core's trace reads and never changes: the device and image, the core and its code object, the declarations, and the
calendars. -/
structure TEnv where
  b : Blk
  g : Img
  core : Nat
  code : CodeDir
  tensors : List Tensor
  part : Nat
  ro : DirEnt
  colds : Bool
  bf16 : Bool
  cal : CalEnv
  active : Nat

def TEnv.lee (e : TEnv) : Bool := isLee e.core

/-- The image word of instruction i. -/
def TEnv.insnWord (e : TEnv) (i : Nat) : Nat := e.code.off + i / 2

/-- Note a finding that names image word `w`, once. -/
def TSt.note (x : TSt) (e : TEnv) (bad : Bool) (w code i : Nat) : TSt :=
  if bad then { x with errs := addNew x.errs ⟨w, code, e.code.cd + 1, e.code.site, i⟩ } else x

def TSt.fail (x : TSt) (e : TEnv) (bad : Bool) (code i : Nat) : TSt := x.note e bad (e.insnWord i) code i

/-! ### Resources, latencies and occupancy (R145, R146) -/

/-- Resources: S0–S31, P0–P15, V0–V31, K0–K7, VL, the flag set. -/
def rP (n : Nat) : Nat := 32 + n
def rV (n : Nat) : Nat := 64 + n
def rK (n : Nat) : Nat := 96 + n
def rVL : Nat := 104
def rFlags : Nat := 105

/-- A register pair (R105). -/
def rPair (n : Nat) : List Nat := [rV (n / 2 * 2), rV (n / 2 * 2 + 1)]

/-- The registers an instruction reads and writes; its occupancy and latency in vector cycles (vector instructions). -/
structure Uses where
  reads : List Nat
  writes : List Nat
  occ : Nat
  lat : Nat

/-- Sources vs1 to vs3, as many as the function reads. -/
def vecSrc (o : VOp) (n : Nat) (wide : Bool) : List Nat :=
  let f (r : BitVec 5) : List Nat := if wide then rPair r.toNat else [rV r.toNat]
  f o.vs1 ++ (if 2 ≤ n then f o.vs2 else []) ++ (if 3 ≤ n then f o.vs3 else [])

/-- What a vector instruction reads (its mask and VL beside) and writes, with the figures of R145. DESIGN CHOICE (log entry 123): an INT32
comparison takes R145's 4 vector cycles, where R91's table says 2. -/
def vecUses (lee : Bool) (ins : Instr) : Option (VOp × Uses) :=
  let mk (o : VOp) (r w : List Nat) (occ lat : Nat) : Option (VOp × Uses) :=
    some (o, ⟨rK o.mask.toNat :: rVL :: r, w, occ, lat⟩)
  match ins with
  | .vfp _ o => mk o (vecSrc o (fpArity o.func.toNat) false) [rV o.vd.toNat, rFlags] 1 4
  | .vfpd _ o => mk o (vecSrc o (fpArity o.func.toNat) true) (rFlags :: rPair o.vd.toNat)
      (if 9 ≤ o.func.toNat then 16 else 4) (if 9 ≤ o.func.toNat then 24 else 8)
  | .vint _ o => mk o (vecSrc o 2 false) [rV o.vd.toNat, rFlags] 1 2
  | .vcmp _ o => mk o (vecSrc o 2 (o.opt = 1)) [rK (o.vd.toNat % 8), rFlags] (if o.opt = 1 then 4 else 1) (if o.opt = 1 then 8 else 4)
  | .vcvt _ o =>
    let fn := o.func.toNat
    mk o (vecSrc o 1 (fn = 3)) (rFlags :: (if fn = 2 ∨ fn = 4 then rPair o.vd.toNat else [rV o.vd.toNat])) 1 3
  | .vfn _ o => mk o (vecSrc o (if o.func = 0 then 2 else 1) false) [rV o.vd.toNat, rFlags]
      (if 13 ≤ o.func.toNat then 12 else 4) (if 13 ≤ o.func.toNat then 36 else 12)
  | .vmove _ o => match o.func.toNat with
    | 0 => mk o (vecSrc o 2 false) [rV o.vd.toNat] 1 2
    | 1 => mk o (vecSrc o 1 false) [rV o.vd.toNat] 1 2
    | 2 => mk o [o.ra.toNat] [rV o.vd.toNat] 1 2
    | 3 => mk o [rV o.vs1.toNat, rK (o.vs2.toNat % 8)] [rV o.vd.toNat, o.sd.toNat] 2 6
    | 4 => mk o [rV o.vs1.toNat, rK (o.vs2.toNat % 8)] [rV o.vd.toNat] 2 6
    | _ => mk o (vecSrc o 3 false) [rV o.vd.toNat, rV ((o.vd.toNat + 1) % 32), rFlags] 2 6
  | .vred _ o =>
    let fn := o.func.toNat
    mk o (if fn < 5 then [rV o.vs1.toNat] else if fn < 9 then [rK (o.vs1.toNat % 8)] else [rFlags])
      ((if fn = 5 ∨ fn = 6 then rP (o.sd.toNat % 16) else o.sd.toNat) :: (if fn < 5 then [rFlags] else [])) 1 (if lee then 11 else 10)
  | .vld _ o => mk o (o.ra.toNat :: (if o.layout = 0 then [] else [o.ra.toNat + 1]))
      (rFlags :: (if o.fmt = 11 then rPair o.vd.toNat else [rV o.vd.toNat])) 1 3
  | .vst _ o => mk o [o.ra.toNat, o.rdesc.toNat, o.rtile.toNat, rV o.vs1.toNat] [rFlags] 1 3
  | .vstr _ o => mk o (o.ra.toNat :: (if o.fmt = 11 then rPair o.vs1.toNat else [rV o.vs1.toNat])) [] 1 3
  | .vrand _ o => mk o [o.ra.toNat] [rV o.vd.toNat] 2 8
  | .vclrf _ o => mk o [] [rFlags] 1 2
  | .setvl _ o => some (o, ⟨if o.ra = 0 then [] else [o.ra.toNat], [rVL], 1, 2⟩)
  | .kop _ o => mk o (rK (o.vs1.toNat % 8) :: (if o.func.toNat ≤ 2 then [rK (o.vs2.toNat % 8)] else [])) [rK (o.vd.toNat % 8)] 1 2
  | _ => none

/-- Scalar arithmetic: its fields and function (R140). -/
def scalarOf : Instr → Option (SOp × (Quad → Quad → Quad))
  | .sadd _ o => some (o, fun a b => a + b)
  | .ssub _ o => some (o, fun a b => a - b)
  | .smul _ o => some (o, fun a b => a * b)
  | .sand _ o => some (o, fun a b => a &&& b)
  | .sor _ o => some (o, fun a b => a ||| b)
  | .sxor _ o => some (o, fun a b => a ^^^ b)
  | .sshl _ o => some (o, fun a b => a <<< shamt b)
  | .sshr _ o => some (o, fun a b => a >>> shamt b)
  | .ssra _ o => some (o, fun a b => a.sshiftRight (shamt b))
  | .smin _ o => some (o, fun a b => if a.slt b then a else b)
  | .smax _ o => some (o, fun a b => if a.slt b then b else a)
  | _ => none

/-- Scalar registers that a matrix operation names as an address or tile index. -/
def mopRegs (o : MOp) : List Nat :=
  [o.ra.toNat] ++ (if o.aLayout = 0 then [] else [o.ra.toNat + 1]) ++ [o.rb.toNat] ++ (if o.bLayout = 0 then [] else [o.rb.toNat + 1])
    ++ (if o.accDst.toNat < 2 ∨ o.accSrc = 2 then [o.rc.toNat] else []) ++ (if o.accDst = 0 then [o.rd.toNat, o.rt.toNat] else [])

/-- Scalar registers that an instruction names as an address or tile index (R141). -/
def addressRegs : Instr → List Nat
  | .mop _ o => mopRegs o
  | .vld _ o => o.ra.toNat :: (if o.layout = 0 then [] else [o.ra.toNat + 1])
  | .vst _ o => [o.ra.toNat, o.rdesc.toNat, o.rtile.toNat]
  | .vstr _ o => [o.ra.toNat]
  | .nxfer _ r | .dma _ r | .gstart _ r | .coll _ r | .pref _ r => [r.toNat]
  | _ => []

/-- Registers that an instruction outside the vector engine reads, and those it writes with their latency in arithmetic cycles. -/
def plainUses (ins : Instr) : List Nat × List (Nat × Nat) :=
  match scalarOf ins, ins with
  | some (o, _), .smul _ _ => (o.a.toNat :: (if o.immSel then [] else [o.b.toNat]), [(o.d.toNat, 3)])
  | some (o, _), _ => (o.a.toNat :: (if o.immSel then [] else [o.b.toNat]), [(o.d.toNat, 1)])
  | none, .sli _ o => ([], [(o.d.toNat, 1)])
  | none, .scmp _ o => (o.a.toNat :: (if o.immSel then [] else [o.b.toNat]), [(rP o.pd.toNat, 1)])
  | none, .plog _ o => (rP (o.a.toNat % 16) :: (if o.cond.toNat ≤ 2 then [rP (o.b.toNat % 16)] else []), [(rP o.pd.toNat, 1)])
  | none, .sloop _ d _ => ([], [(d.toNat, 1)])
  | none, .brb _ p _ _ _ => ([rP p.toNat], [])
  | none, x => (addressRegs x, [])

/-- Instructions that use the registers or the partition of the selected slot (R155). -/
def usesSlot : Instr → Bool
  | .nop _ | .waitc _ _ | .anchor _ | .waitq _ _ _ _ | .loop _ _ _ | .csel _ _ | .vote _ _ _ | .mbal _ _ => false
  | _ => true

/-! ### Register values (R140, R141) -/

/-- An operand of two sources: known where both are. -/
def bothKnown {α β γ : Type} (f : α → β → γ) (x : Option α) (y : Option β) : Option γ :=
  match x, y with
  | some a, some c => some (f a c)
  | _, _ => none

/-- What an instruction whose guard holds leaves in the registers of its context. -/
def TCtx.after (c : TCtx) (lanes_ : Nat) (loops : List Nat) (ins : Instr) : TCtx :=
  match scalarOf ins with
  | some (o, f) => c.setS o.d.toNat (bothKnown f (c.getS o.a.toNat) (if o.immSel then some o.imm else c.getS o.b.toNat))
  | none => match ins with
    | .sli _ o => c.setS o.d.toNat (some o.imm)
    | .scmp _ o => c.setP o.pd.toNat
        (bothKnown (scmpCond o.cond) (c.getS o.a.toNat) (if o.immSel then some o.imm else c.getS o.b.toNat))
    | .plog _ o => c.setP o.pd.toNat
        (bothKnown (plogFn o.cond) (c.getP (o.a.toNat % 16)) (if o.cond.toNat ≤ 2 then c.getP (o.b.toNat % 16) else some false))
    | .sloop _ d lv => c.setS d.toNat (some (BitVec.ofNat 64 (loops.getD lv.toNat 0)))
    | .vmove _ o => if o.func = 3 then c.setS o.sd.toNat none else c
    | .vred _ o => if o.func = 5 ∨ o.func = 6 then c.setP (o.sd.toNat % 16) none else c.setS o.sd.toNat none
    | .setvl _ o => { c with vl := if o.ra = 0 then some (min o.imm.toNat lanes_) else (c.getS o.ra.toNat).map fun v => min v.toNat lanes_ }
    | _ => c

/-- The guard's value: `none` where its predicate is tainted. -/
def TCtx.guard (c : TCtx) (g : Guard) : Option Bool := (c.getP g.pn.toNat).map fun v => xor v g.neg

/-! ### Operands (R153, R158, R141) -/

/-- Base and size of a slot's partition on a core of the given kind. -/
def partOf (part : Nat) (lee : Bool) (slot : Nat) : Nat × Nat :=
  let o := (if lee then 100 else 0) + 50 * slot
  (bits part o 25, bits part (o + 25) 25)

/-- Bytes [off, off + n) of a core's window meet one of its slot partitions. -/
def inParts (part core off n : Nat) : Bool :=
  [0, 1].any fun s => let p := partOf part (isLee core) s; meet p.1 p.2 off n

/-- Bytes [key, key + n) meet a slot partition of the core whose SRAM holds them. -/
def keyInParts (part key n : Nat) : Bool := isSram key && inParts part (sramCore key) ((key - 2 ^ 49) % 2 ^ 25) n

/-- Place of a register's address (R153). -/
def TEnv.key (e : TEnv) (slot a : Nat) (rel : Bool) : Option Nat :=
  if rel then some (sramKey e.core + (partOf e.part e.lee slot).1 + a) else e.b.place (a % 2 ^ 48)

/-- The declared tensor whose element array holds a place, and the place where the array begins. -/
def TEnv.tensorAt (e : TEnv) (key : Nat) : Option (Tensor × Nat) := e.b.holding e.tensors key

/-- A place lies in this core's own SRAM. -/
def TEnv.own (e : TEnv) (key : Nat) : Bool := decide (sramKey e.core ≤ key ∧ key < sramKey e.core + sramBytes e.core)

/-- Past the end of the declared element array, or scale array, that holds a place. -/
def TEnv.arrayEnd (e : TEnv) (key : Nat) : Option Nat := (e.tensorAt key).map fun t => t.2 + t.1.bytes
def TEnv.scaleEnd (e : TEnv) (key : Nat) : Option Nat :=
  e.tensors.findSome? fun t => (e.b.place t.scaleAddr).bind fun k0 =>
    if k0 ≤ key ∧ key < k0 + t.scaleBytes then some (k0 + t.scaleBytes) else none

/-- Check 0x04 on `n` bytes at an address: a context-relative operand ends within its partition; an absolute one lies in one memory,
meets no slot partition, and, where `ends` asks it, stays in its declared array, which in external memory it has. -/
def TEnv.outside (e : TEnv) (slot a n : Nat) (rel : Bool) (ends : Option (Nat → Option Nat)) : Bool :=
  if n = 0 then false
  else if rel then decide ((partOf e.part e.lee slot).2 < a + n)
  else match e.b.place (a % 2 ^ 48), e.b.place ((a + n - 1) % 2 ^ 48) with
    | some k0, some k1 =>
      decide (k1 ≠ k0 + n - 1) || keyInParts e.part k0 n
        || (match ends with
          | none => false
          | some f => (match f k0 with
            | some z => decide (z < k0 + n)
            | none => decide (k0 < stageKey)))
    | _, _ => true

/-- Check 0x03 on an operand whose first element lies at `key`, where it or its declared tensor is block-scaled: the tensor has its format
and layout, and the `k` elements begin on a block and end in the run they begin in (R71, R73, R97). -/
def TEnv.blockBad (e : TEnv) (key fmt layout k : Nat) : Bool :=
  match e.tensorAt key with
  | some (t, t0) =>
    let i := (key - t0) * 8 / fmtWidth fmt % max 1 t.run
    decide (layout ≠ 0 ∨ t.layout ≠ 0) && decide (t.fmt ≠ fmt ∨ t.layout ≠ layout ∨ t.run < i + k ∨ i % 32 ≠ 0)
  | none => false

/-- Past the last element of `n` runs of `k` elements, counted from the first. -/
def TEnv.runSpan (e : TEnv) (key : Nat) (layout k n : Nat) : Nat :=
  if n = 0 ∨ k = 0 then 0
  else (List.range n).foldl (fun m i => max m (runIndex (e.tensorAt key) key layout k i (k - 1))) 0 + 1

/-! ### Descriptors -/

/-- The image word that an address of the read-only region names. -/
def TEnv.roWord (e : TEnv) (a words : Nat) : Option Nat :=
  let w := (a - e.g.base) / 32
  if a % 32 = 0 ∧ e.g.base ≤ a ∧ e.ro.off ≤ w ∧ w + words ≤ e.ro.off + e.ro.len then some w else none

def TEnv.tensorId (e : TEnv) (t : Nat) : Option Tensor := e.tensors.find? fun x => x.tid = t

/-- Check 0x0F on a conversion descriptor: R48 and R113, tile_en where the image declares cold-scale support (R131), and SR without
grad for a BF16 master-weight store (R134). -/
def TEnv.convBad (e : TEnv) (d : Nat) (vector : Bool) : Bool :=
  let scaled (t : Nat) : Bool := match e.tensorId t with
    | some x => x.layout ≠ 0 || x.tileScaled
    | none => false
  let master := match e.tensorId (dTid d) with
    | some x => x.master
    | none => false
  !(descRules scaled d vector) || (e.colds && (dOutSrc d = 1 || dOutSrc d = 3) && !dTile d)
    || (e.bf16 && master && (dRnd d ≠ 2 || dGrad d))

/-- Note what is wrong with the conversion descriptor that address `a` names. -/
def TSt.conv (x : TSt) (e : TEnv) (i a : Nat) (vector : Bool) : TSt :=
  match e.roWord a 1 with
  | none => x.fail e true 0x0F i
  | some w => x.note e (e.convBad (e.b.iw e.g w) vector) w 0x0F i

/-- Check 0x14 on a rounding conversion of a `rows` × `cols` output at place `key`: its last element index in the tensor is below 2⁴⁰
(R122). -/
def TEnv.drawBad (e : TEnv) (a key rows cols : Nat) : Bool :=
  match e.roWord a 1 with
  | none => false
  | some w =>
    let d := e.b.iw e.g w
    let last := match e.tensorId (dTid d) with
      | some t => (match e.b.place t.elemAddr with
        | some k0 => if k0 ≤ key then (key - k0) * 8 / fmtWidth (dFmt d) + (rows - 1) * t.run + cols - 1 else 0
        | none => 0)
      | none => 0
    (dGrad d || decide (dRnd d = 2)) && decide (0 < rows ∧ 0 < cols ∧ 2 ^ 40 ≤ last)

/-- The format that a conversion descriptor names, and its layout. -/
def TEnv.convFmt (e : TEnv) (a : Nat) : Nat × Nat :=
  match e.roWord a 1 with
  | some w => (dFmt (e.b.iw e.g w), dLayout (e.b.iw e.g w))
  | none => (0, 0)

/-- Reserved fields of a transfer descriptor and the values of R169. -/
def xferShapeBad (d : Nat) : Bool :=
  decide (4 < tKind d ∨ bits d 20 12 ≠ 0 ∨ bits d 57 7 ≠ 0 ∨ bits d 89 7 ≠ 0 ∨ bits d 244 12 ≠ 0)
    || decide (tWords d = 0 ∨ bits d 4 3 = 0 ∨ 4 < bits d 4 3)
    || decide (tCoreOff d % 32 ≠ 0 ∨ tPeerOff d % 32 ≠ 0 ∨ tDev d % 32 ≠ 0 ∨ tDst d % 32 ≠ 0)
    || (tKind d = 0 && decide (11 < tPeerDie d ∨ 35 < tPeerSite d)) || (tKind d = 4 && decide (tChecks d = 0))

/-- Places that a transfer reads from and writes to, so far as its ports go (R168). -/
def TEnv.xferEnds (e : TEnv) (d : Nat) : Option (Nat × Nat) :=
  let home := sramKey e.core
  match tKind d with
  | 0 => some (home, sramKey (tPeerDie d * 32 + tPeerSite d))
  | 1 => (e.b.place (tDev d)).map fun k => (k, home)
  | 2 => (e.b.place (tDev d)).map fun k => (home, k)
  | _ => (e.b.place (tDev d)).bind fun k => (e.b.place (tDst d)).map fun z => (k, z)

/-- Legs and staging accesses of a transfer of `words` words on `lanes` lanes between two places, issued at the trace's cycle; and the
arithmetic cycle in which its last word has arrived (R168, R172, R175). -/
def TSt.carry (x : TSt) (e : TEnv) (err : ImgErr) (src dst entry words lanes : Nat) : TSt × Nat :=
  let c := e.cal
  let len := cdiv words lanes
  let sk := sramCore src
  let dk := sramCore dst
  -- the first words enter at the first network-clock edge at or after the issue
  let n0 := cdiv x.t 2
  let net (die s t cyc : Nat) : Leg := ⟨x.seq, x.seg, none, die, s, t, cyc, len, lanes, err⟩
  if isSram src ∧ isSram dst ∧ sk / 32 = dk / 32 then
    ({ x with legs := x.legs ++ [net (sk / 32) (sk % 32) (dk % 32) n0] }, 2 * (n0 + len + 48))
  else
    let first := ((c.j.xbarEntry x.seg entry).map (·.start)).getD 0
    let x0 := if isSram src then c.toXbar (n0 + 48) else max first (c.toXbar n0)
    let wide := if isSram src then c.toXbar (n0 + 47 + len) + 1 - x0 else if isSram dst then c.toXbar (len - 1) + 1 else len
    let n1 := c.toNet (x0 + 32)
    let legs := (if isSram src then [net (sk / 32) (sk % 32) 36 n0] else [])
      ++ [⟨x.seq, x.seg, some entry, 0, xPort src, xPort dst, x0, wide, lanes, err⟩]
      ++ (if isSram dst then [net (dk / 32) 36 (dk % 32) n1] else [])
    let at_ (n : Nat) : Nat := (c.opens x.seq).2 * xbarMhz + 1000 * n
    let bank (key cyc : Nat) : List (LaneUse × ImgErr) :=
      if stageKey ≤ key ∧ ¬isSram key then
        [(⟨resStage, (key - stageKey) / 32 % 64, lanes, lanes, at_ cyc, at_ (cyc + wide), e.core, err.word, x.t, none⟩, err)] else []
    ({ x with legs := x.legs ++ legs, banks := x.banks ++ bank src x0 ++ bank dst (x0 + 32) },
     if isSram dst then 2 * (n1 + len + 48) else cdiv ((x0 + wide + 32) * c.mhz) xbarMhz)

/-- Near-cache lookups that the network calendar grants the DMA reads of a die in a segment, from cycle `n0` on (R173, R184). -/
def CalEnv.lookups (c : CalEnv) (seg die n0 : Nat) : Nat :=
  (((c.j.netOf seg).filter fun e => e.kind = 2 ∧ e.die = die).map fun e => e.start + e.len - max e.start n0).sum

/-- A write of `n` bytes at device address `a` in the first step meets the slot that the job finds active (R252). What is active later depends
on the outcomes of the steps. -/
def TEnv.activeSlot (e : TEnv) (x : TSt) (a n : Nat) : Bool :=
  e.cal.j.commits && decide (runLength e.cal.j.segs 0 ≤ x.seq ∧ x.seq < runLength e.cal.j.segs 1) && meet e.active e.cal.j.slotLen a n

/-- R169 on the transfer descriptor `d` at image word `w`, issued at the trace's cycle: its shape (0x0F) and extents (0x04); what it asks of
the calendars, and the completion that it posts to queue 4. -/
def TSt.xfer (x : TSt) (e : TEnv) (i w d : Nat) : TSt :=
  let n := 32 * tWords d
  let far := tDev d
  let cached := tCached d && tKind d = 1
  let holding := e.tensors.any fun t => t.readOnly && decide (t.elemAddr ≤ far ∧ far + n ≤ t.elemAddr + t.bytes)
  let bad := xferShapeBad d || (tCached d && !(tKind d = 1 && holding)) || (tKind d = 4 && decide (far / 2 ^ 21 ≠ (far + n - 1) / 2 ^ 21))
  let x := x.note e bad w 0x0F i
  let size := if 3 ≤ tKind d then 32 else n
  let coreOut := if tCoreRel d then decide ((partOf e.part e.lee x.slot).2 < tCoreOff d + size)
    else decide (sramBytes e.core < tCoreOff d + size) || inParts e.part e.core (tCoreOff d) size
  let peer := tPeerDie d * 32 + tPeerSite d
  let peerOut := if tKind d ≠ 0 then false
    -- 32 to 35 name no logical site (R14)
    else if 31 < tPeerSite d then true
    else if tPeerRel d then decide ((partOf e.part (isLee peer) x.slot).2 < tPeerOff d + n)
    else decide (sramBytes peer < tPeerOff d + n) || inParts e.part peer (tPeerOff d) n
  let devOut := tKind d ≠ 0 && e.outside x.slot far n false none
  let dstOut := decide (3 ≤ tKind d) && e.outside x.slot (tDst d) n false none
  let x := x.note e (coreOut || peerOut || devOut || dstOut) w 4 i
  let x := x.note e (tKind d = 2 && e.activeSlot x far n) w 0x15 i
  match e.xferEnds d with
  | none => x
  | some (src, dst) =>
    let owner := if cached then ownNc e.code.cd else ownCore e.core
    let reach := ([src, dst].filter fun k => !isSram k).map fun k => (⟨owner, k, n⟩ : Reach)
    let x := { x with ranges := reach.foldl addNew x.ranges }
    if cached then
      let x := x.note e (decide (e.cal.lookups x.seg e.code.cd (cdiv x.t 2) < (linesOf far (tWords d)).length)) w 8 i
      { x with pend := x.pend ++ [⟨4, false, 0, 2 ^ 40⟩] }
    else
      let y := x.carry e ⟨w, 8, e.code.cd + 1, e.code.site, i⟩ src dst (bits d 212 16) (tWords d) (max 1 (bits d 4 3))
      if tKind d = 0 then y.1 else { y.1 with pend := y.1.pend ++ [⟨4, false, y.2, 0⟩] }

/-- Network windows of the engine hold the stream's receive lane in every cycle from its issue until its crossbar window has passed
(R179). -/
def TEnv.rxHeld (e : TEnv) (seg owner lane n0 : Nat) (q : XbarEnt) : Bool :=
  let z := e.cal.toNet (q.start + q.len + 32) + 48
  let ws := (e.cal.j.netOf seg).filter fun w =>
    w.kind = 1 ∧ w.owner = owner ∧ w.die = e.code.cd ∧ w.dst = e.code.site ∧ w.dstLane ≤ lane ∧ lane < w.dstLane + w.lanes
  (List.range (z - n0)).all fun k => ws.any fun w => decide (w.start + 48 ≤ n0 + k ∧ n0 + k < w.start + w.len + 48)

/-- R179 on a gather descriptor. -/
def TSt.gather (x : TSt) (e : TEnv) (i w d : Nat) : TSt :=
  let elem := 32 * gWords d
  let size := gLimit d * elem
  let owner := ownGath e.code.cd (gEngine d)
  let shape := decide (gKind d = 3 ∨ bits d 5 3 ≠ 0 ∨ bits d 12 4 ≠ 0 ∨ bits d 66 6 ≠ 0 ∨ bits d 220 36 ≠ 0)
    || decide (gWords d = 0 ∨ 8 < gWords d ∨ gCount d = 0)
  let holder := e.tensors.find? fun t => decide (t.elemAddr ≤ gBase d ∧ gBase d + size ≤ t.elemAddr + t.bytes)
  let src := match gKind d with
    | 0 => holder.isNone
    | 1 => e.outside x.slot (gBase d) size false none || (match e.b.place (gBase d) with
      | some k => !(decide (stageKey ≤ k ∧ k < 2 ^ 49))
      | none => true)
    | _ => false
  let cached := bit d 2 && !(match holder with
    | some t => t.readOnly
    | none => false)
  let window := match e.cal.j.xbarEntry x.seg (bits d 168 16) with
    | some q => q.kind = 1 && q.owner = owner && e.rxHeld x.seg owner (bits d 218 2) (cdiv x.t 2) q
    | none => false
  let tile := match holder with
    | some t => t.tileScaled
    | none => false
  let part := partOf e.part e.lee x.slot
  let base := sramKey e.core + (if gRel d then part.1 else 0)
  let room := if gRel d then part.2 else sramBytes e.core
  let dstN := gCount d * elem + (if bit d 3 then cdiv (gCount d) 8 else 0)
  let out (off n : Nat) : Bool := decide (room < off + n) || (!gRel d && inParts e.part e.core off n)
    || (match e.arrayEnd (base + off) with
      | some z => decide (z < base + off + n)
      | none => false)
  let x := x.note e (shape || cached) w 0x0F i
  let x := x.note e (src || out (gIdx d) (4 * gCount d) || out (gDst d) dstN) w 4 i
  let x := x.note e tile w 0x0E i
  let x := x.note e (!window) w 0x08 i
  let reach := match e.b.place (gBase d) with
    | some k => if gKind d < 2 then [(⟨if gCached d then ownNc e.code.cd else owner, k, size⟩ : Reach)] else []
    | none => []
  { x with ranges := reach.foldl addNew x.ranges, pend := x.pend ++ [⟨gEngine d, false, 0, 2 ^ 40⟩] }

/-- R235 on a collective descriptor; its channel and its span from issue to deadline are kept for the overlap check. -/
def TSt.collect (x : TSt) (e : TEnv) (i w d0 d1 : Nat) : TSt :=
  let op := bits d0 0 4
  let axes := bits d0 4 4
  let alg := bits d0 14 2
  let fmt := bits d0 20 4
  let lay := bits d0 25 2
  let count := bits d0 192 32
  let len := match (List.range 4).find? fun a => bit axes a with
    | some a => e.b.planLen a
    | none => 1
  let shape := decide (4 < op ∨ bit d0 19 ∨ bits d0 46 2 ≠ 0 ∨ bits d0 240 16 ≠ 0 ∨ d1 / 2 ^ 160 ≠ 0)
    || decide (count = 0 ∨ bits d0 224 16 = 0 ∨ bits d1 0 48 % 32 ≠ 0 ∨ fmt = 11) || !fmtLayoutOk fmt lay
  let tile := match e.b.place (bits d0 48 48) with
    | some k => (match e.tensorAt k with
      | some (t, _) => t.tileScaled
      | none => false)
    | none => true
  let conv := decide (op < 3) && (match e.roWord (bits d0 144 48) 1 with
    | some c => let d := e.b.iw e.g c; e.convBad d false || decide (dInSrc d ≠ 0 ∨ dSat d = 2)
    | none => true)
  let dst := (op = 3 || op = 4) && e.tensors.any fun t => t.elemAddr = bits d0 96 48 && (t.fmt ≠ fmt || t.layout ≠ lay)
  let more := (op = 3 || op = 4) && decide (1 < popcount 4 axes)
  let odd := op = 4 && decide (count % max 1 len ≠ 0)
  let direct := alg = 3 && (op ≠ 2 || decide (65536 < count))
  -- between stages lie the module's chunks of the stage before, as FP32, in staging (R243)
  let stages := (List.range 4).filter fun a => bit axes a && decide (1 < e.b.planLen a)
  let least := stages.foldl (fun m a => min m (e.b.planLen a)) 32
  let held := cdiv (4 * cdiv count least) 32 * 32
  let room := match e.b.place (bits d1 48 48), e.b.place (bits d1 48 48 + held - 1) with
    | some k0, some k1 => decide (stageKey ≤ k0 ∧ k1 < 2 ^ 49 ∧ k1 = k0 + held - 1)
    | _, _ => false
  let small := decide (op < 3 ∧ 1 < stages.length) && !room
  let x := x.note e (shape || tile || conv || dst || more || odd || direct || small) w 0x0F i
  let x := x.note e (e.activeSlot x (bits d0 96 48) (cdiv (count * fmtWidth fmt) 8)) w 0x15 i
  let owners := ((e.cal.j.bindings.filter fun y => y.lchan = bits d0 8 6).map fun y => ownColl y.pchan).foldl addNew []
  let reach := owners.flatMap fun o => [(bits d0 48 48), (bits d0 96 48)].filterMap fun a =>
    (e.b.place a).map fun k => (⟨o, k, cdiv (count * fmtWidth fmt) 8⟩ : Reach)
  { x with colls := x.colls ++ [(bits d0 8 6, x.seq, x.seq + bits d0 224 16, w)], ranges := reach.foldl addNew x.ranges,
           pend := x.pend ++ [⟨5, false, 0, bits d0 224 16⟩] }

/-- The descriptor that a transfer instruction names. -/
def TSt.descriptor (x : TSt) (e : TEnv) (i : Nat) (ins : Instr) : TSt :=
  let at_ (r : BitVec 5) (words : Nat) (f : TSt → Nat → TSt) : TSt :=
    match x.ctx.getS r.toNat with
    | none => x
    | some a => match e.roWord a.toNat words with
      | none => x.fail e true 0x0F i
      | some w => f x w
  let kinds (r : BitVec 5) (l : List Nat) : TSt := at_ r 1 fun x w =>
    let d := e.b.iw e.g w
    if l.contains (tKind d) then x.xfer e i w d else x.note e true w 0x0F i
  match ins with
  | .nxfer _ r => kinds r [0]
  | .dma _ r => kinds r [1, 2]
  | .pref _ r => kinds r [3, 4]
  | .gstart _ r => at_ r 1 fun x w => x.gather e i w (e.b.iw e.g w)
  | .coll _ r => at_ r 2 fun x w => x.collect e i w (e.b.iw e.g w) (e.b.iw e.g (w + 1))
  | _ => x

/-! ### Operands of matrix and vector instructions -/

/-- Bytes [key, key + n) are read in cycle `at_`, before a result has reached them (R145). -/
def TSt.early (x : TSt) (key n at_ : Nat) : Bool := x.writes.any fun w => meet key n w.key w.bytes && decide (at_ < w.ready)

def TSt.lands (x : TSt) (key n ready : Nat) : TSt := if n = 0 then x else { x with writes := x.writes ++ [⟨key, n, ready⟩] }

/-- Cycle, from issue, in which element `q` of run `i` of operand A (`first`) or B enters the engine; of a resident tile, in which the tile
begins to (R83 to R85). -/
def mopReadAt (o : MOp) (lee first : Bool) (i q : Nat) : Nat :=
  let c := mopClass o
  let P := classP c
  let s := classS c
  if lee then s * (q / P)
  else if o.dataflow = 1 then s * (q / P) + i
  else
    let D := max (s * (if o.dataflow = 0 then o.m.toNat else o.n.toNat)) 66
    let pass := q / (64 * P)
    if first = decide (o.dataflow = 0) then 64 + pass * D + s * i + q % (64 * P) / P else pass * D

/-- Cycle, from issue, in which sum (i, j) leaves the engine (R83 to R85, R89). -/
def mopOutAt (o : MOp) (lee : Bool) (i j : Nat) : Nat :=
  let first := (mopTime o lee).drain.1
  if lee ∨ o.dataflow = 1 then first + i
  else
    let s := classS (mopClass o)
    if o.k = 0 then (if o.dataflow = 0 then i else j)
    else if o.dataflow = 0 then first + s * i + j else first + s * j + i

/-- One operand of a matrix operation: extents of its elements and scales (0x04), blocks (0x03), tile scales (0x0E), results that have not
reached it (0x06), and shared use after WAITQ (0x0B). -/
def TSt.mopOperand (x : TSt) (e : TEnv) (i : Nat) (o : MOp) (first : Bool) : TSt :=
  let m := o.m.toNat
  let n := o.n.toNat
  let r := if first then o.ra.toNat else o.rb.toNat
  let rel := if first then o.aRel else o.bRel
  let fmt := if first then o.aFmt.toNat else o.bFmt.toNat
  let layout := if first then o.aLayout.toNat else o.bLayout.toNat
  let k := if m = 0 ∨ n = 0 then 0 else o.k.toNat
  let runs := if first then m else n
  if k = 0 ∨ runs = 0 then x
  else match x.ctx.getS r with
    | none => x
    | some a => match e.key x.slot a.toNat rel with
      | none => x.fail e true 4 i
      | some key =>
        let span := e.runSpan key layout k runs
        let scales := scaleStep layout * cdiv span 32
        let scale := if layout = 0 then none else x.ctx.getS (r + 1)
        let skey := scale.bind fun v => e.key x.slot v.toNat rel
        let x := x.fail e (e.outside x.slot a.toNat (cdiv (fmtWidth fmt * span) 8) rel (some e.arrayEnd)) 4 i
        let x := x.fail e (scale.any fun v => e.outside x.slot v.toNat scales rel (some e.scaleEnd)) 4 i
        let x := x.fail e (e.blockBad key fmt layout k) 3 i
        let x := x.fail e (match e.tensorAt key with
          | some (t, _) => t.tileScaled
          | none => false) 0x0E i
        let soon := !x.writes.isEmpty && (List.range runs).any fun u => (List.range k).any fun q =>
          let ix := runIndex (e.tensorAt key) key layout k u q
          let at_ := x.t + mopReadAt o e.lee first u q
          x.early (key + fmtWidth fmt * ix / 8) (cdiv (fmtWidth fmt) 8) at_
            || skey.any fun z => x.early (z + scaleStep layout * (ix / 32)) (scaleStep layout) at_
        let x := x.fail e soon 6 i
        x.fail e (x.waited && (!(e.own key) || skey.any fun z => !(e.own z))) 0x0B i

/-- A spill of a matrix operation at S(rc): its records, read at issue or written as the sums leave the engine. -/
def TSt.mopSpill (x : TSt) (e : TEnv) (i : Nat) (o : MOp) (key : Nat) : TSt :=
  let T := mopRecords o e.lee
  let x := x.fail e (decide (key % 32 ≠ 0)) 3 i
  let x := x.fail e (o.accSrc = 2 && x.early key (513 * 32 * T) x.t) 6 i
  if o.accDst = 1 then
    let last := mopOutAt o e.lee (o.m.toNat - 1) (o.n.toNat - 1)
    (List.range T).foldl (fun (x : TSt) r =>
      let base := key + 513 * 32 * r
      let x := (List.range 64).foldl (fun (x : TSt) u =>
        let row := if o.dataflow = 2 ∧ !e.lee then mopOutAt o e.lee u (64 * r + 63) else mopOutAt o e.lee (64 * r + u) 63
        x.lands (base + 256 * u) 256 (x.t + min row last + 1)) x
      x.lands (base + 512 * 32) 32 (x.t + last + 1)) x
  else x

/-- The converted output of a matrix operation at S(rc): the extents of its elements and scales (0x04), and when they reach memory: 12
cycles after they enter the conversion unit (R115), or after the RECOMPUTE slot (R120). -/
def TSt.mopOutput (x : TSt) (e : TEnv) (i : Nat) (o : MOp) (a d : Nat) : TSt :=
  let m := o.m.toNat
  let n := o.n.toNat
  let w := fmtWidth (dFmt d)
  let t := e.tensorId (dTid d)
  let stride := match t with
    | some t => if t.run = 0 then n else t.run
    | none => n
  match e.key x.slot a o.cRel with
  | none => x.fail e true 4 i
  | some key =>
    let x := x.fail e (e.outside x.slot a (cdiv (w * ((m - 1) * stride + n)) 8) o.cRel (some e.arrayEnd)) 4 i
    let skey := t.bind fun t => if t.layout = 0 then none else
      (e.b.place t.scaleAddr).bind fun z => (e.b.place t.elemAddr).map fun k0 => z + (key - k0) * 8 / w / 32 * scaleStep t.layout
    let again := dSat d = 2 || (dTile d && e.colds)
    let slot := if again then 8 + (if e.lee || o.dataflow = 1 then 64 else if o.dataflow = 0 then m else n) else 0
    let last := mopOutAt o e.lee (m - 1) (n - 1)
    (List.range m).foldl (fun (x : TSt) u => (List.range n).foldl (fun (x : TSt) v =>
      let ix := u * stride + v
      let ready := x.t + (if again then last + slot else mopOutAt o e.lee u v) + 12
      let x := x.lands (key + w * ix / 8) (cdiv w 8) ready
      match skey with
      | some z => x.lands (z + ix / 32 * scaleStep (dLayout d)) (scaleStep (dLayout d)) ready
      | none => x) x) x

/-- A matrix operation's operands, spill records, output and descriptor. -/
def TSt.mop (x : TSt) (e : TEnv) (i : Nat) (o : MOp) : TSt :=
  let m := o.m.toNat
  let n := o.n.toNat
  let x := x.mopOperand e i o true
  let x := x.mopOperand e i o false
  if m = 0 ∨ n = 0 then x
  else
    let spill := o.accDst = 1 || o.accSrc = 2
    let key := (x.ctx.getS o.rc.toNat).bind fun c => e.key x.slot c.toNat o.cRel
    let x := if o.accDst.toNat < 2 ∨ o.accSrc = 2 then
        match x.ctx.getS o.rc.toNat with
        | none => x
        | some a =>
          let x := x.fail e (spill && e.outside x.slot a.toNat (513 * 32 * mopRecords o e.lee) o.cRel none) 4 i
          let x := if spill then (match key with
            | some z => x.mopSpill e i o z
            | none => x) else x
          x.fail e (x.waited && (match key with
            | some z => !(e.own z)
            | none => true)) 0x0B i
      else x
    if o.accDst = 0 then
      match x.ctx.getS o.rd.toNat with
      | none => x
      | some a =>
        let da := a.toNat % 2 ^ 48
        let x := x.conv e i da false
        let x := x.fail e (key.any fun z => e.drawBad da z m n) 0x14 i
        match x.ctx.getS o.rc.toNat, e.roWord da 1 with
        | some c, some w =>
          let d := e.b.iw e.g w
          let row := sramKey e.core + bits d 208 25
          let x := x.fail e (bit d 13 && x.early row (4 * n) (x.t + mopOutAt o e.lee 0 0)) 6 i
          x.mopOutput e i o c.toNat d
        | _, _ => x
    else x

/-- A vector load or store of `n` bytes at S(ra): extents, shared use after WAITQ; a load before a result has reached its bytes (0x06), or
a store's bytes with the cycle in which they can be read. -/
def TSt.vecOperand (x : TSt) (e : TEnv) (i : Nat) (o : VOp) (n : Nat) (store : Option Nat) : TSt :=
  match x.ctx.getS o.ra.toNat with
  | none => x
  | some a =>
    let key := e.key x.slot a.toNat o.rel
    let away := match key with
      | some z => !(e.own z)
      | none => true
    let x := x.fail e (e.outside x.slot a.toNat n o.rel (store.map fun _ => e.arrayEnd) || (store.isNone && away && decide (0 < n))) 4 i
    let x := x.fail e (store.isSome && x.waited && away) 0x0B i
    match key, store with
    | some z, none => x.fail e (x.early z n x.t) 6 i
    | some z, some ready => x.lands z n ready
    | none, _ => x

/-- Elements that an instruction may reach: VL, or every lane where VL is tainted (R141). -/
def TSt.reach (x : TSt) (e : TEnv) : Nat := x.ctx.vl.getD (lanes e.core)

/-- Operands, descriptors and register pairs of a vector instruction (0x03, 0x04, 0x0F, 0x10, 0x14). -/
def TSt.vector (x : TSt) (e : TEnv) (i : Nat) (ins : Instr) : TSt :=
  let vl := x.reach e
  let odd (l : List (BitVec 5)) : Bool := l.any fun r => r.toNat % 2 = 1
  match ins with
  | .vfpd _ o =>
    let n := fpArity o.func.toNat
    x.fail e (odd ([o.vd, o.vs1] ++ (if 2 ≤ n then [o.vs2] else []) ++ (if 3 ≤ n then [o.vs3] else []))) 0x10 i
  | .vcmp _ o => x.fail e (o.opt = 1 && odd [o.vs1, o.vs2]) 0x10 i
  | .vcvt _ o => x.fail e (((o.func = 2 || o.func = 4) && odd [o.vd]) || (o.func = 3 && odd [o.vs1])) 0x10 i
  | .vld _ o =>
    let x := x.fail e (o.fmt = 11 && odd [o.vd]) 0x10 i
    let x := x.vecOperand e i o (cdiv (fmtWidth o.fmt.toNat * vl) 8) none
    -- the scale bytes of a block-scaled source lie at the next register
    if o.layout = 0 ∨ vl = 0 then x
    else match x.ctx.getS (o.ra.toNat + 1) with
      | none => x
      | some v =>
        let n := scaleStep o.layout.toNat * cdiv vl 32
        let x := x.fail e (e.outside x.slot v.toNat n o.rel (some e.scaleEnd)) 4 i
        x.fail e ((e.key x.slot v.toNat o.rel).any fun z => x.early z n x.t) 6 i
  | .vst _ o => match x.ctx.getS o.rdesc.toNat with
    | none => x
    | some d =>
      let f := e.convFmt (d.toNat % 2 ^ 48)
      let x := x.conv e i (d.toNat % 2 ^ 48) true
      let x := x.fail e (f.1 = 11 && odd [o.vs1]) 0x10 i
      let x := x.vecOperand e i o (cdiv (fmtWidth f.1 * (if f.2 = 0 then vl else cdiv vl 32 * 32)) 8) (some (x.t + 11 + cdiv vl 64))
      (match x.ctx.getS o.ra.toNat with
        | some a => (match e.key x.slot a.toNat o.rel with
          | some key =>
            (x.fail e (decide (0 < vl ∧ f.2 ≠ 0) && e.blockBad key f.1 f.2 0) 3 i).fail e (e.drawBad (d.toNat % 2 ^ 48) key 1 vl) 0x14 i
          | none => x)
        | none => x)
  | .vstr _ o =>
    let x := x.fail e (o.fmt = 11 && odd [o.vs1]) 0x10 i
    x.vecOperand e i o ((if o.fmt = 11 then 8 else 4) * vl) (some (x.t + 6))
  | .vrand _ o => match x.ctx.getS o.ra.toNat with
    | some a => x.fail e (decide (0 < vl ∧ 2 ^ 39 < a.toNat + vl)) 0x14 i
    | none => x
  | _ => x

/-! ### One instruction -/

/-- Cycles for which the engine accepts no other operation (R83 to R85, R89), and the cycles from issue until the drain of the
operation's set has finished (0: no drain). -/
def mopOccupancy (o : MOp) (lee : Bool) : Nat × Nat :=
  let c := mopClass o
  let P := classP c
  let s := classS c
  let m := o.m.toNat
  let n := o.n.toNat
  let k := o.k.toNat
  let os := lee || o.dataflow = 1
  let drains := os && decide (o.accDst.toNat < 2)
  if m = 0 ∨ n = 0 then (1, 0)
  else if k = 0 then
    if os then (1, if drains then 64 else 0) else (max 1 (if o.dataflow = 0 then m else n), 0)
  else if os then (max 1 (s * cdiv k P), if drains then s * (cdiv k P - 1) + (if lee then 72 else 195) else 0)
  else
    let rows := if o.dataflow = 0 then m else n
    ((cdiv k (64 * P) - 1) * max (s * rows) 66 + max 64 (s * rows), 0)

/-- Ready cycle of a resource of the selected slot; entry 256 + slot holds the last ready cycle of that slot's vector results. -/
def TSt.ready (x : TSt) (r : Nat) : Nat := Sp.get 0 x.rdy (128 * x.slot + r)

/-- Registers that always read the same are never waited for. -/
def constReg (r : Nat) : Bool := r = 0 || r = 32 || r = 96

def TSt.mark (x : TSt) (r at_ : Nat) : TSt := if constReg r then x else { x with rdy := Sp.set 0 x.rdy (128 * x.slot + r) at_ }

/-- Checks and effects of one instruction at the trace's cycle; the caller moves the cycle on. -/
def TSt.issue (x : TSt) (e : TEnv) (i : Nat) (ins : Instr) : TSt :=
  let g := (issueOf ins).guard
  let c := x.ctx
  let late (r : Nat) : Bool := !(constReg r) && decide (x.t < x.ready r)
  let x := x.fail e (usesSlot ins && x.swapping.contains x.slot) 0x11 i
  let x := x.fail e (late (rP g.pn.toNat)) 6 i
  let x := x.fail e ((addressRegs ins).any fun r => (c.getS r).isNone) 0x0A i
  let x := match vecUses e.lee ins with
    | some (_, u) =>
      let x := x.fail e (u.reads.any late) 6 i
      let x := x.fail e (decide (x.t < x.vfree)) 7 i
      let x := { x with vfree := x.t + 2 * u.occ }
      let x := u.writes.foldl (fun (x : TSt) (r : Nat) => x.mark r (x.t + 2 * u.lat)) x
      { x with rdy := Sp.set 0 x.rdy (256 + x.slot) (max (Sp.get 0 x.rdy (256 + x.slot)) (x.t + 2 * u.lat)) }
    | none =>
      let u := plainUses ins
      let x := x.fail e (u.1.any late) 6 i
      u.2.foldl (fun (x : TSt) (w : Nat × Nat) => x.mark w.1 (x.t + w.2)) x
  let x := match ins with
    | .mop _ o =>
      let z := mopOccupancy o e.lee
      let set := b2n o.accSet
      let holds_ := e.lee || o.dataflow = 1
      -- an operation with m or n of 0 accumulates into no set (R89)
      let holds_ := holds_ && decide (o.m ≠ 0 ∧ o.n ≠ 0)
      let x := x.fail e (decide (x.t < x.mfree) || (holds_ && decide (x.t < Sp.get 0 x.drain set))) 7 i
      let x := { x with mfree := x.t + z.1, drain := if z.2 = 0 then x.drain else Sp.set 0 x.drain set (x.t + z.2) }
      x.mop e i o
    | .mbal _ n =>
      let x := x.fail e (decide (x.t < x.mfree)) 7 i
      { x with mfree := x.t + n.toNat + 1 }
    | .waitq _ q n _ =>
      let mine : List Pend := x.pend.filter fun p => p.queue = q.toNat
      let x := x.fail e (mine.any fun p => p.old) 0x0B i
      if mine.length ≤ n.toNat then { x with pend := x.pend.filter fun (p : Pend) => p.queue ≠ q.toNat } else x
    | .csel _ s =>
      let x := x.fail e (decide (x.t < Sp.get 0 x.rdy (256 + (1 - b2n s)))) 6 i
      { x with slot := b2n s }
    | _ => x
  let x := x.vector e i ins
  let x := if c.guard g = some false then x else x.descriptor e i ins
  match c.guard g with
  | some false => x
  | some true => x.setCtx (x.ctx.after (lanes e.core) x.loops ins)
  | none => x.setCtx (x.ctx.join (x.ctx.after (lanes e.core) x.loops ins))

/-- After a branch: the arm that a known predicate takes, else what both agree on; every result ready at the later of its cycles
(R148). -/
def TSt.merge (p : Option Bool) (x y : TSt) : TSt :=
  let late (a c : Sp Nat) : Sp Nat := (Sp.keys a ++ Sp.keys c).foldl (fun m k => Sp.set 0 m k (max (Sp.get 0 a k) (Sp.get 0 c k))) []
  let keys := Sp.keys x.ctxs ++ Sp.keys y.ctxs
  let both : Sp TCtx := keys.foldl (fun m k =>
    Sp.set TCtx.init m k ((Sp.get TCtx.init x.ctxs k).join (Sp.get TCtx.init y.ctxs k))) []
  let z := if p = some false then y else x
  { z with ctxs := if p = none then both else z.ctxs, rdy := late x.rdy y.rdy, vfree := max x.vfree y.vfree,
           mfree := max x.mfree y.mfree, drain := late x.drain y.drain, waited := x.waited || y.waited,
           writes := y.writes.foldl addNew x.writes, errs := y.errs, pend := y.pend, colls := y.colls, legs := y.legs, banks := y.banks,
           ranges := y.ranges }

/-- Longest segment, in arithmetic cycles. -/
def maxCycles : Nat := 131072

/-- Trace instructions `i` to `stop` − 1. A trace that has passed the longest segment stops: that segment fails check 0x09. -/
def traceCode (e : TEnv) (code : List (Option Instr)) : Nat → Nat → Nat → TSt → TSt
  | 0, _, _, x => x
  | fuel + 1, i, stop, x =>
    if stop ≤ i ∨ maxCycles < x.t then x
    else match code.getD i none with
      | none => traceCode e code fuel (i + 1) stop { x with t := x.t + 1 }
      | some ins =>
        let x := x.issue e i ins
        match ins with
        | .anchor _ => { x with t := x.t + 1 }
        | .waitc _ n => traceCode e code fuel (i + 1) stop { x with t := x.t + n.toNat + 1 }
        | .waitq _ _ _ d => traceCode e code fuel (i + 1) stop { x with t := max (x.t + 1) d.toNat, waited := true }
        | .loop _ count len =>
          let fin := i + 1 + len.toNat
          let outer := x.loops
          let x := { x with t := x.t + 1 }
          -- a body of at least one cycle cannot run more often than the longest segment has cycles
          let x := (List.range (min count.toNat (maxCycles + 1))).foldl (fun x j =>
            if maxCycles < x.t then x else traceCode e code fuel (i + 1) (min fin stop) { x with loops := j :: outer }) x
          traceCode e code fuel fin stop { x with loops := outer }
        | .brb _ p inv la lb =>
          let mid := i + 1 + la.toNat
          let fin := mid + lb.toNat
          let v := (x.ctx.getP p.toNat).map fun q => xor q inv
          let x := { x with t := x.t + 1 }
          let y := traceCode e code fuel (i + 1) (min mid stop) x
          let z := traceCode e code fuel mid (min fin stop) { x with errs := y.errs }
          traceCode e code fuel fin stop (TSt.merge v y z)
        | _ => traceCode e code fuel (i + 1) stop { x with t := x.t + 1 }

/-! ### Segments, steps and cores -/

/-- Move every cycle back by `n`: the next segment counts from its own release. What queues still expect then is from an earlier segment
(R150). -/
def TSt.rebase (x : TSt) (n : Nat) : TSt :=
  let back (m : Sp Nat) : Sp Nat := m.foldl (fun a e => Sp.set 0 a e.1 (e.2 - n)) []
  let writes := (x.writes.map fun w => { w with ready := w.ready - n }).filter fun w => 0 < w.ready
  -- a gather completes by no anchor that the image names
  let sooner (p : Pend) : Pend := { p with old := true, due := p.due - n, anchors := if p.anchors = 2 ^ 40 then p.anchors else p.anchors - 1 }
  let pend := (x.pend.map sooner).filter fun p => 0 < p.due + p.anchors
  { x with t := 0, waited := false, loops := [], rdy := back x.rdy, drain := back x.drain, vfree := x.vfree - n, mfree := x.mfree - n,
           writes := writes, pend := pend }

/-- Bind the slots as a segment entry says; a slot that changes is swapped during the segment, but for the first binding at T_start
(R155). -/
def TSt.bind (x : TSt) (s : Seg) : TSt :=
  let c0 := if s.c0 = 15 then x.bound.1 else s.c0
  let c1 := if s.c1 = 15 then x.bound.2 else s.c1
  let moved := (if c0 ≠ x.bound.1 then [0] else []) ++ (if c1 ≠ x.bound.2 then [1] else [])
  { x with bound := (c0, c1), swapping := if x.seq = 0 then [] else moved }

/-- Trace core k over the next segment that runs, where it has code for the core. -/
def TEnv.segment (e : TEnv) (k : Nat) (x : TSt) : TSt :=
  let n := (e.cal.opens x.seq).1
  let cycles := ((e.cal.opens (x.seq + 1)).2 - (e.cal.opens x.seq).2) * e.cal.mhz / 1000
  let x := ({ x with seg := n }).bind (e.cal.j.seg n)
  let x := match e.cal.j.codeFor n k with
    | none => x
    | some c =>
      let e := { e with core := k, code := c }
      if 2048 < c.len then x else traceCode e (e.b.codeOf e.g c) (c.len + 1) 0 c.len x
  let x := x.rebase cycles
  { x with seq := x.seq + 1 }

/-- Trace `n` segments. -/
def TEnv.segments (e : TEnv) (k n : Nat) (x : TSt) : TSt := (List.range n).foldl (fun x _ => e.segment k x) x

/-- What a later step starts from. -/
def TSt.regs (x : TSt) : TSt := { x with seq := 0, seg := 0, colls := [], legs := [], banks := [], ranges := [], errs := [] }

/-- Trace steps of `n` segments until a state returns from which a step has been traced. Machine time has no room for 2⁶⁴ steps. -/
def TEnv.steps (e : TEnv) (k n : Nat) : Nat → List TSt → TSt → TSt
  | 0, _, x => x
  | fuel + 1, seen, x =>
    if seen.contains x.regs then x else TEnv.steps e k n fuel (x.regs :: seen) (e.segments k n x)

/-- Trace a core: the prologue and the steps. -/
def TEnv.trace (e : TEnv) (k : Nat) : TSt :=
  e.steps k (runLength e.cal.j.segs 1 - runLength e.cal.j.segs 0) (2 ^ 64) [] (e.segments k (runLength e.cal.j.segs 0) TSt.init)

/-- Two collectives of one logical channel whose times from issue to deadline overlap (R235). -/
def collOverlap : List (Nat × Nat × Nat × Nat) → List ImgErr
  | [] => []
  | c :: rest =>
    ((rest.filter fun q => q.1 = c.1 && decide (q.2.1 < c.2.2.1 ∧ c.2.1 < q.2.2.1)).map fun q => errAt (max c.2.2.2 q.2.2.2) 0x0F)
      ++ collOverlap rest

/-- The traced findings of an image under directory `d`, and what they ask of its calendars. -/
def Blk.traceErrs (b : Blk) (g : Img) (d : List DirEnt) (mhz slot : Nat) : List ImgErr :=
  let h := b.iw g 0
  let ctx := secOf d 0x0006
  let cal := b.calEnv g d mhz
  let env : TEnv :=
    { b := b, g := g, core := 0, code := ⟨0, 0, 0, 0, 0⟩, tensors := cal.j.tensors, part := if ctx.len = 0 then 0 else b.iw g ctx.off,
      ro := secOf d 0x0005, colds := hColdOk h, bf16 := hMwBf16 h, cal := cal,
      active := if slot = 0 then cal.j.slotA else cal.j.slotB }
  let cores := allCores.filter fun k => cal.j.code.any fun c => c.cd = k / 32 ∧ c.site = k % 32
  let ends := cores.map env.trace
  ends.flatMap (·.errs) ++ collOverlap (ends.flatMap (·.colls))
    ++ cal.errs (ends.flatMap (·.legs)) (ends.flatMap (·.banks)) (ends.flatMap (·.ranges))

/-! ### Spill records (R87, R159) -/

/-- What a code object's spills have against the spill-record list: a matrix operation lists each record it writes and each that it
reads, in order, with its kind and extent; and a listed instruction is such an operation (check 0x0D). -/
def Blk.spillUse (b : Blk) (g : Img) (d : List DirEnt) : List ImgErr :=
  let s := secOf d 0x000E
  let n := if s.len = 0 then 0 else bits (b.iw g s.off) 0 32
  let es := (b.ients g (s.off + 1) n 128).zipIdx
  let shape (y : Nat) : Nat × Nat × Nat := (bits y 59 1, bits y 60 7, bits y 67 7)
  ((b.readCode g d).filter fun c => c.len ≤ 2048).flatMap fun c =>
    let lee := decide (28 ≤ c.site)
    let mine := es.filter fun e => bits e.1 0 16 = c.block ∧ bits e.1 16 4 = c.cd ∧ bits e.1 20 6 = c.site
    let code := (b.codeOf g c).zipIdx
    let want (o : MOp) : List (Nat × Nat × Nat) :=
      if o.m = 0 ∨ o.n = 0 then [] else (List.range (mopRecords o lee)).map fun r => (b2n (mopInt o), recExtent o lee r)
    let bad := code.flatMap fun x =>
      let listed (role : Bool) : List (Nat × Nat × Nat) :=
        (mine.filter fun e => bits e.1 26 32 = x.2 ∧ bit e.1 58 = role).map fun e => shape e.1
      let wr := match x.1 with
        | some (.mop _ o) => if o.accDst = 1 then want o else []
        | _ => []
      let rd := match x.1 with
        | some (.mop _ o) => if o.accSrc = 2 then want o else []
        | _ => []
      failIf (decide (listed false ≠ wr ∨ listed true ≠ rd)) ⟨c.off + x.2 / 2, 0x0D, c.cd + 1, c.site, x.2⟩
    bad ++ (mine.filter fun e => c.len ≤ bits e.1 26 32).map fun e => ⟨s.off + 1 + e.2 / 2, 0x0D, c.cd + 1, c.site, bits e.1 26 32⟩

/-! ### VC calendars (R219) -/

/-- Word times since the last link entry, and the longest such run, as entries play for `k` word times from a run of `g`. -/
def playGaps : List (Nat × Nat) → Nat → Nat → Nat → Nat × Nat
  | [], _, g, m => (g, m)
  | e :: es, k, g, m =>
    let n := min e.2 k
    let g' := if e.1 = 8 ∧ 0 < n then 0 else g + n
    playGaps es (k - n) g' (max m g')

/-- The same for a repeating program that plays for `k` word times: from its third repetition on, each is as the second. -/
def programGaps (prog : List (Nat × Nat)) (k g m : Nat) : Nat × Nat :=
  let period := calPeriod prog
  if prog.all fun e => e.1 ≠ 8 then (g + k, max m (g + k))
  else if k ≤ 2 * period then playGaps (prog ++ prog) k g m
  else
    let a := playGaps (prog ++ prog) (2 * period) g m
    playGaps prog (k % period) a.1 a.2

/-- Port `p` is planned to carry packets: one that the plan leaves unused, or keeps as a standby, carries none (R210, R219). -/
def Blk.plannedData (b : Blk) (p : Nat) : Bool := b.planned p && b.role p ≠ 1

/-- R219: a planned port goes 1,025 consecutive word times without a link entry, over the repetitions and the segments of the prologue and
two steps; or an entry of a data VC stands on a port that is not planned to carry data. A reserved class or an empty entry breaks the
layout of R218. -/
def Blk.vcErrs (b : Blk) (g : Img) (d : List DirEnt) (mhz : Nat) : List ImgErr :=
  let s := secOf d 0x0009
  let c := b.calEnv g d mhz
  let rows := c.j.vcIndex
  let progOf (n p : Nat) : Option (List (Nat × Nat)) := c.j.vcPrograms[(rows.getD n []).getD p 0xFFFF]?
  let gap (p : Nat) : Nat := ((List.range (runLength c.j.segs 2)).foldl (fun a q =>
    let k := ((c.opens (q + 1)).2 - (c.opens q).2) * 1000000 / 40022
    match progOf (c.opens q).1 p with
    | some prog => programGaps prog k a.1 a.2
    | none => (0, a.2)) ((0, 0) : Nat × Nat)).2
  let long := (List.range 10).any fun p => b.planned p && decide (1025 ≤ gap p)
  let misplaced := (List.range 10).any fun p => !b.plannedData p && (List.range c.j.segs.length).any fun n =>
    (progOf n p).any fun prog => prog.any fun e => decide (e.1 < 6)
  let broken := c.j.vcPrograms.any fun prog => decide (1024 < prog.length) || prog.any fun e => decide (10 ≤ e.1 ∨ e.2 = 0)
  if s.len = 0 then []
  else failIf broken (errAt s.off 0x15) ++ failIf (long || misplaced) (errAt s.off 8)

/-! ### Normalisation parameters (R108) -/

/-- Check 0x10 on the parameters of the image's normalisations. -/
def normErrs (words : List (BitVec 256)) : List ImgErr :=
  (Config.normParams words).flatMap fun p => failIf (normRejected p.2.1.toNat p.2.2) (errAt p.1 0x10)

/-! ### Validation -/

/-- R160: the first failing check, or the directory that the job runs under; `slot` is the slot that the job finds active. -/
def Blk.validateImage (b : Blk) (g : Img) (mhz mode slot : Nat) : ImgErr ⊕ List DirEnt :=
  let main := b.mainDir g
  let n := 1 + main.length
  match firstErr (headErrs b g main ++ dirErrs g n main) with
  | some e => .inl e
  | none =>
    match b.gridDir g main with
    | none => .inl (errAt 0 0x13)
    | some d =>
      let words := (b.iws g 0 g.words).map (BitVec.ofNat 256)
      let plan := ((List.range b.planLenWords).map b.planWord).map (BitVec.ofNat 256)
      -- only code and calendars can be traced: an image that holds none fails no such check
      let traced := if (b.readCode g d).isEmpty && decide ((secOf d 0x0007).len = 0) then []
        else normErrs words ++ match Config.traceCheck words plan mode with
        | some x => [ImgErr.ofDetail x.toNat]
        | none => []
      match firstErr (dirErrs g n d ++ b.imgErrs g d mhz ++ b.traceErrs g d mhz slot ++ b.spillUse g d ++ b.vcErrs g d mhz ++ traced) with
      | some e => .inl e
      | none => .inr d

end Sys2Proof.Machine
end

