-- ==== Sys2Proof/Machine/Command.lean ====
section
/-!
DEFINITION. Management requests and disruptive commands: acceptance and replies (14_host_management.md, R339, R345), the checks
of a quorum certificate (13_security.md, R320 to R322), and the placement of a verified command at its instant (R19, R44).
-/
namespace Sys2Proof.Machine

/-! ### Accepting and refusing requests (R339) -/

/-- A request is rejected: the reply carries the status, EV_MGMT_REJECT is raised and the rejection counted. -/
def Blk.mgmtReject (b : Blk) (mtype auth requestId status : Nat) (body : List Byte) : Blk :=
  let b := b.satBy MGMT_COUNT.rejected 1
  let b := b.raise 0 uMgmt 0x0B03 (mtype % 256 + status * 2 ^ 8 + auth % 256 * 2 ^ 16)
  b.send auth 0x30 requestId status body

/-- A request is accepted: it is counted, and the reply carries its data. -/
def Blk.mgmtReply (b : Blk) (auth requestId status : Nat) (body : List Byte) : Blk :=
  (b.satBy MGMT_COUNT.accepted 1).send auth 0x30 requestId status body

/-- A request of a type marked "authority": accepted only under R339, and in RECOVERY only where the type is served there,
without a signature. -/
def authRequest (mtype : Nat) (inRecovery : Bool) (r : MgmtReq) (f : Blk → Blk) (b : Blk) : Blk :=
  let a := r.auth.toNat
  let id := r.requestId.toNat
  if b.dstate = stOff then b
  else if b.dstate = stRecovery then (if inRecovery then f b else b.mgmtReject mtype a id 3 [])
  else if ¬b.auths.contains a ∨ ¬r.sigValid then b.mgmtReject mtype a id 1 []
  else if id ≤ b.rd (MGMT_AUTH_SEQ.last a) then b.mgmtReject mtype a id 2 []
  else f (b.wr (MGMT_AUTH_SEQ.last a) id)

/-! ### Quorum certificates (R320 to R322) -/

/-- The bytes of a staging buffer of R342 that LOAD_COMMIT marked ready. -/
def bufBytes (m : Sp Byte) (n : Nat) : List Byte := (List.range n).map fun i => Sp.get 0 m i

/-- The payload of a command: the ready buffer for a re-plan or a firmware install (R342), else what the message carries. -/
def Blk.cmdPayload (b : Blk) (e : Envelope) : Option (List Byte) :=
  if e.cmdType = 4 then b.mgmt.planReady.map (bufBytes b.mgmt.planBuf)
  else if e.cmdType = 5 then b.mgmt.fwReady.map (bufBytes b.mgmt.fwBuf)
  else some e.payload

/-- Distinct signers of the plan's table whose signatures verify. -/
def Blk.certSigners (b : Blk) (e : Envelope) : List Nat :=
  (((e.slots.filter (·.valid)).map (·.signer.val)).filter b.auths.contains).eraseDups

def Blk.faultCount (b : Blk) (l : List Nat) : Nat := (l.filter b.isFaultMgr).length

/-- Check 1: the certificate's header agrees with the envelope and its slots. -/
def certHeaderOk (e : Envelope) : Bool :=
  decide (e.hdrType.toNat = e.cmdType.toNat) && decide (e.hdrSlots.toNat = e.slots.length) && !e.hdrRest
    && decide (1 ≤ e.cmdType.toNat ∧ e.cmdType.toNat ≤ 8)

/-- The first failing check of R322, or the payload of a command that passes. A signer counts in one role only (R321). -/
def Blk.certCheck (b : Blk) (e : Envelope) : Nat ⊕ List Byte :=
  let l := b.certSigners e
  let job (a : Nat) : Bool := b.isJobCtl a && decide (b.planK ≤ b.faultCount (l.filter fun x => x ≠ a))
  if ¬certHeaderOk e then .inl 1
  else if e.serial.toNat ≠ b.rd CTL_BOOT.plan_serial then .inl 2
  else if ¬(e.target = 0 ∨ e.target.toNat = b.fpr) then .inl 3
  else if e.seq.toNat ≤ b.rd SEC_CMD_SEQ.seq then .inl 4
  else if e.expiry.toNat ≤ b.now then .inl 5
  else match b.cmdPayload e with
    | none => .inl 6
    | some p =>
      if digest p ≠ e.digest.toNat then .inl 6
      else if b.faultCount l < b.planK then .inl 7
      else if e.cmdType = 1 ∧ ¬l.any job then .inl 8
      else .inr p

/-! ### The instant of a command (R19) -/

/-- The first anchor at or after `t`: of the image in RUN and DRAIN, else the start of an idle-calendar cycle (R281). -/
def Blk.nextAnchor (b : Blk) (t : Nat) : Nat :=
  let idle := cdiv t 5000 * 5000
  match b.run.job with
  | none => idle
  | some j =>
    if b.dstate ≠ stRun ∧ b.dstate ≠ stDrain then idle
    else
      let pro := (j.segs.filter (·.prologue)).map fun s => j.tStart + s.anchorNs
      let n := (t - b.run.stepStart) / j.stepNs
      let near := (List.range 3).flatMap fun i =>
        (j.segs.filter fun s => !s.prologue).map fun s => b.run.stepStart + (n + i - 1) * j.stepNs + s.anchorNs
      match (pro ++ near).filter (t ≤ ·) with
      | [] => idle
      | x :: xs => xs.foldl min x

/-- The record of an arm or stop, and a fence payload, as numbers. -/
def armWord (p : List Byte) (i : Nat) : Nat := ofLeBytes ((p.drop (32 * i)).take 32)

/-- A stop is an arm record whose digest is zero (R286). -/
def isStop (p : List Byte) : Bool := armWord p 0 = 0

/-- The instant that a command names; a stop's record names none, since only its t_start is read (R286). -/
def namedInst (ctype : Nat) (p : List Byte) : Nat :=
  if ctype = 1 then (if isStop p then 0 else bits (armWord p 1) 192 64)
  else if ctype = 2 then bits (armWord p 0) 64 64
  else 0

/-- Commands whose states R284 gives itself: in the states in which the table takes no entry, an arm, an expel and a re-plan are
held beside the table, and R284 accepts or refuses them at their instant (DEDUCED, log entry 121). -/
def ownStates (ctype : Nat) : Bool := ctype = 1 ∨ ctype = 3 ∨ ctype = 4

/-- Place a verified command: in the scheduled-event table where the state lets it take entries. The entry of another command is
refused there (R44), as where no entry is free, and the command is lost. -/
def Blk.placeCmd (b : Blk) (ctype seq : Nat) (p : List Byte) (auth reqId : Nat) : Blk :=
  let named := namedInst ctype p
  let t := if named < b.now + 1000 then b.nextAnchor (b.now + 1000) else named
  let put (b : Blk) (n : Nat) : Blk :=
    b.updSched fun s =>
      { s with placed := s.placed.filter (fun x => n = 32 ∨ x.entry ≠ n) ++ [⟨n, t, seq, b.now, ctype, p, auth, reqId⟩] }
  if ¬b.schedState ∧ ownStates ctype then put b 32
  else
    let r := b.placeSched 0x04 0 t
    match r.1 with
    | some n => put r.2 n
    | none => r.2

/-- COMMAND: verified by the security block and placed, or rejected with the reason. The control cluster's firmware must
run. The reply of a register write that is placed waits for its writes, whose lock violations it reports (R8; DESIGN CHOICE, log
entry 122); every other command is answered at once. -/
def commandFx (r : MgmtReq) (e : Envelope) (b : Blk) : Blk :=
  let id := r.requestId.toNat
  let a := r.auth.toNat
  if b.dstate = stOff then b
  else if b.dstate < stSelftest ∨ b.dstate = stRecovery then b.mgmtReject 0x04 a id 3 []
  else
    let c := b.certCheck e
    let b := b.wr SEC_QC_STAT.last_type e.cmdType.toNat
    match c with
    | .inl reason =>
      let b := (b.wr SEC_QC_STAT.last_reason reason).satBy SEC_QC_STAT.rejects 1
      (b.quorumReject reason e.seq.toNat).mgmtReject 0x04 a id 5 [BitVec.ofNat 8 reason]
    | .inr p =>
      let b := (b.wr SEC_CMD_SEQ.seq e.seq.toNat).placeCmd e.cmdType.toNat e.seq.toNat p a id
      if e.cmdType = 7 ∧ b.sched.placed.any (fun x => x.seq = e.seq.toNat) then b.satBy MGMT_COUNT.accepted 1 else b.mgmtReply a id 0 []

/-! ### The command that is due -/

/-- A placed command still holds its place. -/
def Blk.cmdHeld (b : Blk) (p : Placed) : Bool :=
  p.entry = 32 || (b.on (MTC_SCHED_ACT.valid p.entry) && decide (b.rd (MTC_SCHED_ACT.action p.entry) = 4)
    && decide (b.schedInst p.entry = p.inst))

/-- Commands that fall due now: they take effect in the order of their sequence numbers, in the place of their entries among the
scheduled events. -/
def Blk.dueCmds (b : Blk) : List Placed :=
  let next := b.nextDue
  b.sched.placed.filter fun p =>
    b.cmdHeld p && decide (p.inst + 40 ≤ b.now) && (p.entry = 32 || (match next with
      | some n => decide (b.rd (MTC_SCHED_ACT.action n) = 4 ∧ b.schedInst n = p.inst)
      | none => false))

def Placed.before (x y : Placed) : Bool := decide (x.inst < y.inst) || (x.inst = y.inst && decide (x.seq ≤ y.seq))

/-- Take the due command if `sel` accepts it: it leaves its place, and `f` acts on it. -/
def takeCmd (sel : Placed → Bool) (f : Placed → Blk → Blk) (b : Blk) : Blk :=
  let b := b.dropOrphans
  let b := b.updSched fun s => { s with placed := s.placed.filter b.cmdHeld }
  let due := b.dueCmds
  match due.find? fun x => due.all x.before with
  | none => b
  | some x =>
    if sel x then
      let b := b.updSched fun s => { s with placed := s.placed.erase x }
      f x (if x.entry = 32 then b else b.wr (MTC_SCHED_ACT.valid x.entry) 0)
    else b

/-- A refused command (R284): the device state stays. -/
def Blk.refuse (b : Blk) (code : Nat) : Blk :=
  let b := b.raise 0 uDie 0x0706 code
  (b.wr CTL_ARM.refusal code).satBy CTL_ARM.refusals 1

def execCommand (r : MgmtReq) (e : Envelope) (s : State) := onBlk s (commandFx r e)

end Sys2Proof.Machine
end

