-- ==== Sys2Proof/Machine/Arm.lean ====
section
/-!
DEFINITION. Arming and stopping a job (11_bring_up.md, R280 to R286): the arm's order of work, the topology check, restore of
step, journal and scale table (06_training_numerics.md, R130, R131), entry to ARMED, and the stop.
-/
namespace Sys2Proof.Machine

/-! ### The arm record (R280) -/

def aStart (p : List Byte) : Nat := bits (armWord p 1) 0 64
def aSeed (p : List Byte) : Nat := bits (armWord p 1) 64 128
def aImage (p : List Byte) : Img := ⟨bits (armWord p 2) 0 48, bits (armWord p 2) 48 48⟩
def aSource (p : List Byte) : Nat := bits (armWord p 2) 96 2
def aRestore (p : List Byte) : Nat := bits (armWord p 2) 98 2
def aResolve (p : List Byte) : Nat := bits (armWord p 2) 100 2
def aReplay (p : List Byte) : Bool := bit (armWord p 2) 102
def aCold (p : List Byte) : Bool := bit (armWord p 2) 103
def aMode (p : List Byte) : Nat := bits (armWord p 2) 104 1
def aJournal (p : List Byte) : Nat := bits (armWord p 2) 112 48
def aCkpt (p : List Byte) : Nat := bits (armWord p 2) 160 48
def aHost (p : List Byte) : Nat := bits (armWord p 3) 0 64

/-- A refused arm leaves no arm in progress. -/
def Blk.armRefuse (b : Blk) (code : Nat) : Blk :=
  ((b.updRun fun r => { r with pulling := none }).wr CTL_ARM.phase 0).refuse code

/-! ### Checks -/

/-- The image as the arm names it: word-aligned in external memory, no word poisoned, its digest and its length. -/
def Blk.imageFits (b : Blk) (p : List Byte) : Bool :=
  let g := aImage p
  decide (g.base % 32 = 0) && decide (0 < g.words) && decide (g.base + 32 * g.words ≤ b.memEnd)
    && (List.range g.words).all (fun i => !(b.iwBad g i)) && decide (digest (b.bytes g.base (32 * g.words)) = armWord p 0)
    && decide (hWords (b.iw g 0) = g.words)

/-- R282, with R349 for a port that its peer holds in CALM: the refusal code, if any. An image with no topology section
tolerates nothing and is held to the plan. -/
def Blk.topologyCode (b : Blk) (g : Img) (d : List DirEnt) : Option Nat :=
  let sec := (secOf d 0x000C).len ≠ 0
  let t := b.readTopo g d
  let w := t.1
  let tol (n : Nat) : Bool := sec && t.2.any fun e => (e.any || e.coord = b.coord 0) && bit e.mask n
  let held (p : Nat) : Bool := b.planned p && b.pstate p = psCalm && decide (b.rd PWR_MODE.mode ≠ 2)
  let short (f : Nat → Bool) : Bool := (List.range 10).any fun p => f p && !(tol (b.logicalOf p))
  let differs := decide (bits w 0 24 ≠ b.rd (ROUTE_CFG.lengths 0) ∨ bits w 24 8 ≠ b.rd (ROUTE_CFG.order 0)
    ∨ bits w 32 12 ≠ b.rd COLL_AXIS_ROLE.roles)
  if sec && differs then some 4
  else if short fun p => b.portOut p || held p then some 5
  else if short b.mgmtOnly then some 6
  else none

/-- The two link dies hold the same configuration, port map and active routing bank (R232). -/
def Blk.linksAgree (b : Blk) : Bool :=
  let k0 := b.rd (ROUTE_EPOCH.active 0)
  let k1 := b.rd (ROUTE_EPOCH.active 1)
  b.reg (.routeCfg 0) = b.reg (.routeCfg 1) && b.reg (.routePortMap 0) = b.reg (.routePortMap 1) && k0 = k1
    && (List.range 4).all (fun x => (List.range 32).all fun t => b.reg (.routeNext 0 k0 x t) = b.reg (.routeNext 1 k1 x t))
    && (List.range 256).all fun e => b.reg (.routeExc 0 k0 e) = b.reg (.routeExc 1 k1 e)

/-! ### Restore (R283, R130, R131) -/

/-- What an arm restores: the journal, the scale table, and whether the table starts cold. -/
structure Restored where
  journal : Journal
  table : Sp ScaleEnt
  cold : Bool
  deriving DecidableEq, Repr

/-- The slot that an arm finds active: its journal's, or slot A of a fresh start (R283). -/
def Blk.armSlot (b : Blk) (p : List Byte) : Nat :=
  if aRestore p = 1 then (Journal.ofWords ((List.range 8).map fun i => b.readWord (aJournal p + 32 * i))).active else 0

/-- The entry of a declared tensor (R158), with x from the declaration or 0. -/
def Tensor.entry (t : Tensor) (zero : Bool) : ScaleEnt :=
  { ScaleEnt.init with
    fmt := t.fmt, sgn := t.sgn, valid := true, hist := t.histLen, margin := t.margin, grad := t.grad,
    x := if zero then 0 else sext 10 t.xInit }

def declared (j : Job) (zero : Bool) : Sp ScaleEnt :=
  (j.tensors.filter (·.scaleEntry)).foldl (fun m t => Sp.set ScaleEnt.init m t.tid (t.entry zero)) []

/-- The scale section at device address `a` for committed step `step`, if its header holds (R130). -/
def Blk.readScale (b : Blk) (a step : Nat) : Option (Sp ScaleEnt) :=
  if b.memEnd < a + 32 * scaleWords then none
  else
    let word (i : Nat) : Nat := (b.readWord (a + 32 * i)).data.toNat
    let es := (List.range 16384).map fun t => (t, ScaleEnt.ofWords ((List.range 9).map fun i => word (1 + 9 * t + i)))
    let n := (es.filter fun e => e.2.valid).length
    let bad := (List.range scaleWords).any fun i => (b.readWord (a + 32 * i)).poison
    let hdr := 0x5CA1E5EC + step * 2 ^ 32 + n * 2 ^ 64
    if bad ∨ word 0 ≠ hdr then none else some (es.filter fun e => e.2 ≠ ScaleEnt.init)

def Blk.restoreFor (b : Blk) (j : Job) (p : List Byte) : Option Restored :=
  let fresh (step : Nat) : Journal := { Journal.init with step := step, phase := 5, shards := j.shards.length }
  if aRestore p = 0 then some ⟨fresh 0, declared j false, aCold p⟩
  else if aRestore p = 1 then
    let a := aJournal p
    let ws := (List.range 8).map fun i => b.readWord (a + 32 * i)
    let x := Journal.ofWords ws
    if b.memEnd < a + 256 ∨ (ws.any fun w => w.poison) ∨ x.phase ≠ 5 then none
    else if ¬j.commits then some ⟨x, declared j false, aCold p⟩
    else (b.readScale ((if x.active = 0 then j.slotA else j.slotB) + j.scaleOff) x.step).map fun m => ⟨x, m, aCold p⟩
  else if aRestore p = 2 then
    let w := b.readWord (aCkpt p)
    let h := w.data.toNat
    let step := bits h 32 32
    if b.memEnd < aCkpt p + 32 ∨ w.poison ∨ bits h 0 32 ≠ 0x434B5054 then none
    else if bits h 64 48 = 0 then some ⟨fresh step, declared j true, true⟩
    else (b.readScale (bits h 64 48) step).map fun m =>
      ⟨fresh step, m.map fun e => (e.1, { e.2 with coldLeft := 0 }), aCold p || (m.all fun e => !e.2.valid || decide (e.2.count = 0))⟩
  else none

/-- Load both banks; a cold start forces RECOMPUTE for H steps of every entry, and a countdown that a warm reset finds unfinished goes on
(R130, R131). -/
def Blk.loadScale (b : Blk) (r : Restored) : Blk :=
  let m := if r.cold then r.table.map fun e => (e.1, { e.2 with coldLeft := e.2.hist }) else r.table
  (b.updScale fun _ => { ScaleSt.init with bank0 := m, bank1 := m }).wrB NUM_CTRL.cold_scale
    (r.cold || m.any fun e => e.2.valid && decide (e.2.coldLeft ≠ 0))

/-! ### Entering ARMED -/

/-- The arm comes too late, or the table has no room for its entries (R281, R44). -/
def Blk.armLate (b : Blk) (p : List Byte) : Bool :=
  let change := decide (aMode p ≠ b.rd PWR_MODE.mode)
  let free := ((List.range 32).filter fun n => ¬b.on (MTC_SCHED_ACT.valid n)).length
  decide (aStart p < b.now + 100000) || (change && decide (aStart p < b.now + 100 + 400000000))
    || decide (free < 1 + b2n change)

/-- The slots of every core hold a context's first state, and no block of an earlier image stays cached (R155, R162). -/
def Blk.clearCores (b : Blk) : Blk :=
  allCores.foldl (fun b k =>
    let cd := k / 32
    let s := k % 32
    let b := b.updCore k fun c => { c with ctx0 := Ctx.init, ctx1 := Ctx.init, badHalves := [] }
    let b := (b.clearPart k 0).clearPart k 1
    ((b.setReg (.seqCtx cd s 0) 0).setReg (.seqCtx cd s 1) 0).setReg (.seqIcache cd s) 0) b

/-- Bytes of the guest firewall's rules (R312, kind 9). -/
def Blk.ruleBytes (b : Blk) : List Byte :=
  (List.range 64).flatMap fun n => leBytes 8 (b.reg (.gfwRuleLo n)) ++ leBytes 8 (b.reg (.gfwRuleHi n))

/-- A level-2 debug unlock drops to level 1 (R328). -/
def Blk.dropDebug (b : Blk) : Blk := if b.rd SEC_DBG.level = 2 then b.wr SEC_DBG.level 1 else b

/-- Every check has passed: the arm's registers and tables are written and the module is ARMED (R281, R283). -/
def Blk.armAccept (b : Blk) (p : List Byte) (h : Nat) (j : Job) (r : Restored) : Blk :=
  let change := decide (aMode p ≠ b.rd PWR_MODE.mode)
  let b := (b.wr NUM_STEP.step r.journal.step).wr NUM_STEP.attempt r.journal.attempt
  let b := (b.wr (NUM_SEED.seed 0) (aSeed p)).wr (NUM_SEED.seed 1) (aSeed p / 2 ^ 64)
  let b := ((b.wrB NUM_CTRL.replay (aReplay p)).wrB NUM_CTRL.mw_bf16 (hMwBf16 h)).wrB NUM_CTRL.hartoeg_norm (hHartoeg h)
  let b := b.wr MTC_ANCHOR_TOL.tol_ns (if hTolNs h = 0 then 2000 else hTolNs h)
  let b := (b.wr COLL_JOURNAL.addr (aJournal p)).loadScale r
  let b := b.writeJournal fun _ => r.journal
  let b := b.updRun fun x => { RunSt.init with job := some j, k := x.k }
  let b := b.updColl fun c => { c with votes := [], early := [], barrierOn := false, complete := false, notes := [] }
  let b := (b.clearVotes.updVote fun _ => VoteSt.init).clearCores
  let b := (b.appendLog 8 (armWord p 0)).appendLog 9 (digest b.ruleBytes)
  let b := if change then (b.placeSched 0x03 (aMode p) (b.now + 100)).2 else b
  let b := (b.placeSched 0x05 0 (aStart p)).2
  let b := b.setReg .ctlArmStart (aStart p)
  let b := (List.range 4).foldl (fun b i => b.setReg (.ctlArmDigest i) (bits (armWord p 0) (64 * i) 64)) b
  ((b.wr CTL_ARM.phase 4).dropDebug.enter stArmed).placeImage

/-- The arm from the check of the loaded image on. -/
def Blk.armImage (b : Blk) (p : List Byte) : Blk :=
  let g := aImage p
  -- R160 counts the digest and the length among its checks, R281 gives the refusal its own code
  if ¬b.imageFits p then (b.raise 0 uDie 0x0302 (errAt 0 1).detail).armRefuse 2
  else match b.validateImage g (if aMode p = 0 then 3600 else 2700) (aMode p) (b.armSlot p) with
    | .inl e => (b.raise 0 uDie 0x0302 e.detail).armRefuse 3
    | .inr d =>
      let h := b.iw g 0
      let j := b.readJob g d (aStart p)
      match b.topologyCode g d with
      | some c => b.armRefuse c
      | none =>
        if ¬b.linksAgree then b.armRefuse 0x0C
        else if aCold p ∧ ¬hColdOk h then b.armRefuse 7
        else match b.restoreFor j p with
          | none => b.armRefuse 9
          | some r => if b.armLate p then b.armRefuse 8 else b.armAccept p h j r

/-- The arm in READY: a doubt is resolved, and the image is resident or is pulled over CXL.io. -/
def Blk.armBegin (b : Blk) (p : List Byte) : Blk :=
  let doubt := b.journal.inDoubt
  if doubt ∧ ¬(aResolve p = 1 ∨ aResolve p = 2) then b.armRefuse 0x0A
  else
    let b := if doubt then b.resolve (aResolve p) else b
    if aSource p = 0 then b.armImage p
    else if aSource p = 1 ∧ ¬b.cxlClosed ∧ b.on CXL_STATUS.link_up then
      let b := (b.wr CTL_ARM.phase 2).updRun fun r => { r with pulling := some (b.now, p) }
      b.emit (.pullRead (aHost p) (aImage p).words)
    else b.armRefuse 0x0B

/-- ARM (R281, R284). -/
def armFx : Blk → Blk := takeCmd (fun c => c.ctype = 1 && !(isStop c.payload)) fun c b =>
  if b.dstate ≠ stReady ∨ b.run.pulling.isSome then b.refuse 1 else b.armBegin c.payload

/-- The job-start entry, while it can still be cancelled (R44). -/
def Blk.startEntry (b : Blk) : Option Nat :=
  (List.range 32).find? fun n =>
    b.on (MTC_SCHED_ACT.valid n) ∧ b.rd (MTC_SCHED_ACT.action n) = 5 ∧ b.now + 100 ≤ b.schedInst n

/-- STOP (R286): in ARMED the start is cancelled; in RUN, or past cancelling, it waits for a flip. -/
def stopFx : Blk → Blk := takeCmd (fun c => c.ctype = 1 && isStop c.payload) fun c b =>
  let st := b.dstate
  let wait (b : Blk) : Blk := (b.updRun fun r => { r with stopAt := some (aStart c.payload) }).wr CTL_ARM.phase 6
  if st = stArmed then
    match b.startEntry with
    | some n => ((b.wr (MTC_SCHED_ACT.valid n) 0).jobOver).enter stReady
    | none => wait b
  else if st = stRun then wait b
  else if st = stDrain then b
  else b.refuse 1

def execArm (s : State) := onBlk s armFx
def execStop (s : State) := onBlk s stopFx

end Sys2Proof.Machine
end

