-- ==== Sys2Proof/Machine/Host.lean ====
section
/-!
DEFINITION. The host link (14_host_management.md, R330 to R336; 17_module_interface.md, R385): the CXL.mem window and its held
requests, the mailbox, the descriptor ring and the pull of an image, MSI-X, PERST_N; and the sideband outputs (R387).
-/
namespace Sys2Proof.Machine

/-! ### Sideband outputs (R387) -/

/-- READY is high. -/
def Blk.outReady (b : Blk) : Bool := decide (stReady ≤ b.dstate ∧ b.dstate ≤ stDrain)

/-- ALERT_N is low. -/
def Blk.outAlert (b : Blk) : Bool :=
  b.dstate ≠ stOff && (b.on CTL_STATE.degraded || b.dstate = stFenced || b.dstate = stRecovery)

/-- THERM_N is low. -/
def Blk.outTherm (b : Blk) : Bool :=
  b.dstate ≠ stOff && (b.power.levels.any (fun l => decide (2 ≤ l)) || b.on PWR_THERM_STAT.trip_latched)

/-! ### The link -/

/-- The host can reach the module. -/
def Blk.hostUp (b : Blk) : Bool := b.on CXL_STATUS.link_up && !b.host.perst

/-- Set the link's registers; a change of `up` raises EV_CXL_LINK (R345). -/
def Blk.setCxlLink (b : Blk) (up : Bool) (speed width : Nat) : Blk :=
  let was := b.on CXL_STATUS.link_up
  let b := ((b.wrB CXL_STATUS.link_up up).wr CXL_STATUS.speed speed).wr CXL_STATUS.width width
  if was = up then b else b.raise 0 uCxl 0x0B04 (b2n up + speed % 4 * 2 + width % 16 * 8)

/-- Configuration space (R332). -/
structure PciConfig where
  vendor : Nat
  device : Nat
  revision : Nat
  classCode : Nat
  subsystem : Nat
  headerType : Nat
  bar0Bytes : Nat
  bar2Bytes : Nat
  msixVectors : Nat
  dvsecs : List Nat
  range1Bytes : Nat
  deriving DecidableEq, Repr

def Blk.pciConfig (b : Blk) : PciConfig :=
  { vendor := 0x1F2D, device := 0x0020, revision := b.rd GLB_PART.stepping, classCode := 0x050210,
    subsystem := b.rd GLB_PART.subsystem, headerType := 0, bar0Bytes := 0x20000000, bar2Bytes := 0x20000, msixVectors := 16,
    dvsecs := [0x0000, 0x0007, 0x0008], range1Bytes := b.host.range1 }

/-- The speeds and widths that the link trains to: 32 or 64 GT/s, four or eight lanes (R330). -/
def linkShape (speed : BitVec 2) (width : BitVec 4) : Bool := decide (speed.toNat = 1 ∨ speed.toNat = 2) && decide (width.toNat = 4 ∨ width.toNat = 8)

/-- CXL_LINK_CHANGE: the link does not come up without power, in the host's reset, or while a fence holds it down. Range 1 Size is read
as it comes up (R332). -/
def cxlLinkFx (up : Bool) (speed : BitVec 2) (width : BitVec 4) (b : Blk) : Blk :=
  if b.dstate ≤ stStandby then b
  else if up then
    (if b.host.perst ∨ b.host.fenced ∨ ¬linkShape speed width then b
    else
      let b := b.updHost fun h => { h with range1 := b.rd CXL_WIN.size * 2 ^ 28 }
      (b.setCxlLink true speed.toNat width.toNat).pullIssue)
  else b.setCxlLink false 0 0

/-- HDM_DECODER_COMMIT: the host sets the decoder's base. -/
def hdmCommitFx (base : BitVec 64) (b : Blk) : Blk :=
  if ¬b.hostUp then b
  else (b.updHost fun h => { h with hdmBase := base.toNat }).wr CXL_STATUS.hdm_committed 1

/-! ### Host requests (R333, R334) -/

/-- Host requests that the module holds, with their channels. -/
def Blk.hostHeld (b : Blk) : List (Nat × MemReq) :=
  b.heldFor fun r => r.serves = .host

/-- Device address of a host address (R333), inside the committed decoder's window. -/
def Blk.hostDev (b : Blk) (h : Nat) : Option Nat :=
  let base := b.host.hdmBase
  if b.on CXL_STATUS.hdm_committed ∧ base ≤ h ∧ h < base + b.rd CXL_WIN.size * 2 ^ 28 then
    some (b.rd CXL_WIN.dev_base * 2 ^ 28 + (h - base))
  else none

/-- HOST_MEM_REQUEST: held on its channel for a class-5 window; with 256 held the host has no credit to send one. -/
def hostRequestFx (r : HostReq) (b : Blk) : Blk :=
  if ¬b.hostUp ∨ 256 ≤ b.hostHeld.length then b
  else if b.cxlClosed then b.emit .hostUr
  else match b.hostDev r.addr.toNat with
    | none => b.emit .hostUr
    | some a =>
      let a := a / 32 * 32
      if b.memEnd ≤ a then
        let b := b.addrRange 0 uCxl a
        if r.write then b else b.emit (.host true 0)
      else b.holdReqs ownHost a 1 r.write .host (if r.write then [r.data] else [])

/-- HOST_REQUEST_SERVE: the channel's oldest host request is served, if class-5 windows are open on it and on the crossbar, and no
refresh is in the way. -/
def hostServeFx (ch : Fin 128) (b : Blk) : Blk :=
  let ch := ch.val
  match (Sp.get [] b.memReqs ch).find? fun r => r.serves = .host with
  | none => b
  | some r => if b.reqWindow ch r ∧ ¬b.refreshWait ch r.words then (b.dropReq (ch, r)).serveReq ch r else b

/-- The hold of R334 has run out. -/
def Blk.holdOver (b : Blk) (r : MemReq) : Bool := decide (r.heldAt + max 1 (b.rd CXL_CFG.hold_us) * 1000 ≤ b.now)

/-- HOST_HOLD_EXPIRY: reads complete poisoned; writes are discarded, counted, and reported once in a step. -/
def hostExpiryFx (b : Blk) : Blk :=
  let due := b.hostHeld.filter fun x => b.holdOver x.2
  let b := due.foldl (fun b x => (b.dropReq x).abortReq x.2) b
  match due.filter fun x => x.2.write with
  | [] => b
  | x :: rest =>
    let n := rest.length + 1
    let b := b.satBy CXL_STAT.discards n
    let step := b.run.job.map fun _ => b.run.stepStart
    if step.isSome ∧ b.host.holdReport = step then b
    else (b.raise 0 uCxl 0x0B01 (x.2.addr % 2 ^ 48 + satur 32 n * 2 ^ 48)).updHost fun h => { h with holdReport := step }

/-! ### Mailbox and DOE (R330) -/

/-- A completed mailbox command: code 0 success, 1 Unsupported (the model's numbering). -/
def Blk.mailbox (b : Blk) (code : Nat) (body : List Byte) : Blk := (b.emit (.mailbox code body)).msix 6

/-- A supported mailbox command: its response is laid out by the CXL specification, not by this one (log entry 9). -/
def mailboxFx (b : Blk) : Blk :=
  if b.hostUp then b.fresh.2.mailbox 0 (leBytes 32 b.fresh.1.toNat) else b
def mailboxNoFx (b : Blk) : Blk := if b.hostUp then b.mailbox 1 [] else b
def getLogFx (uuid : BitVec 128) (b : Blk) : Blk := if uuid = Config.celUuid then mailboxFx b else mailboxNoFx b

/-- CDAT_DOE_REQUEST: entry 0 is the DSMAS, entry 1 the DSLBIS; there is no other. -/
def doeFx (index : BitVec 16) (b : Blk) : Blk :=
  if ¬b.hostUp then b
  else if index.toNat < 2 then b.fresh.2.emit (.doe index.toNat (leBytes 32 b.fresh.1.toNat))
  else b.emit (.doe index.toNat [])

/-! ### Pulls and pushes (R335) -/

/-- Write a descriptor's status, bits [215:208]. -/
def Blk.pullStatus (b : Blk) (w : Word) (st : Nat) : Blk :=
  b.writeDev (b.pullAddr (b.rd CXL_PULL_IDX.tail)) [⟨BitVec.ofNat 256 (setBits w.toNat 208 8 st), false⟩] 0 uCxl

/-- The descriptor in progress ends with a status: done, the ring goes on; else it stops there. -/
def Blk.pullEnd (b : Blk) (st : Nat) : Blk :=
  let t := b.rd CXL_PULL_IDX.tail
  let d := b.readDev (b.pullAddr t) 1 0 uCxl
  let w := (d.1.headD ⟨0, true⟩).data
  let b := ((d.2.pullStatus w st).updHost fun h => { h with pullBusy := none }).msix 2
  if st = 1 then (b.wr CXL_PULL_IDX.tail (t + 1)).pullIssue
  else
    let b := (b.wr CXL_PULL_IDX.stopped 1).satBy CXL_STAT.pull_fails 1
    let b := b.raise 0 uCxl 0x0B02 (t + st % 256 * 2 ^ 10 + bits w.toNat 216 16 * 2 ^ 18)
    if b.dstate = stRun ∧ ¬bit w.toNat 0 then b.modFail else b

/-- The ring's descriptor completes; a pull's words are written, poison with them. -/
def Blk.ringDone (b : Blk) (st : Nat) (data : List MWord) : Blk :=
  let d := b.readDev (b.pullAddr (b.rd CXL_PULL_IDX.tail)) 1 0 uCxl
  let w := (d.1.headD ⟨0, true⟩).data.toNat
  let b := d.2
  let ok := decide (st = 1 ∨ st = 5)
  let b := if ok ∧ ¬bit w 0 then b.writeDev (bits w 128 48) (data.take (bits w 176 32 / 32)) 0 uCxl else b
  b.pullEnd (if ok ∧ data.any (·.poison) then 5 else st)

/-- The image pulled for an arm has arrived, or its pull failed (R281, R284). -/
def Blk.armPulled (b : Blk) (p : List Byte) (st : Nat) (data : List MWord) : Blk :=
  if b.dstate ≠ stReady then b.armRefuse 1
  else if st ≠ 1 ∨ data.any (·.poison) then b.armRefuse 0x0B
  else
    let b := b.updRun fun r => { r with pulling := none }
    (b.writeDev (aImage p).base (data.take (aImage p).words) 0 uCxl).armImage p

/-- CXL mastering may move words now: its idle slot, or a class-6 window out of the CXL controller's crossbar port (R172, R174). -/
def Blk.pullWindow (b : Blk) : Bool :=
  if b.idleCal then b.idleClass == 6
  else b.xbarPlay.any fun e =>
    e.2.kind = 1 ∧ ownsAs ownPull e.2.owner ∧ (e.2.src = xCxl ∨ e.2.dst = xCxl) ∧ b.inCycles xbarMhz e.1 e.2.start e.2.len

/-- PULL_DESCRIPTOR_COMPLETE: what the module waits for completes, in CXL mastering's windows: an arm's pull, else the ring's
descriptor. -/
def pullDoneFx (status : BitVec 8) (data : List MWord) (b : Blk) : Blk :=
  let st := status.toNat
  if ¬(st = 1 ∨ st = 2 ∨ st = 3 ∨ st = 5) ∨ ¬b.hostUp ∨ ¬b.pullWindow then b
  else match b.run.pulling with
    | some x => b.armPulled x.2 st data
    | none => if b.host.pullBusy.isSome then b.ringDone st data else b

/-- PULL_COMPLETION_TIMEOUT: no completion for 50 ms. -/
def pullTimeoutFx (b : Blk) : Blk :=
  match b.run.pulling with
  | some x => if x.1 + 50000000 ≤ b.now then b.armPulled x.2 4 [] else b
  | none => match b.host.pullBusy with
    | some t => if t + 50000000 ≤ b.now then b.pullEnd 4 else b
    | none => b

/-- Everything that the module mastered on the link ends with status 4. -/
def Blk.pullsFail (b : Blk) : Blk :=
  let b := match b.run.pulling with
    | some x => b.armPulled x.2 4 []
    | none => b
  if b.host.pullBusy.isSome then b.pullEnd 4 else b

/-! ### PERST_N (R385) and MSI-X (R336) -/

def perstOnFx (b : Blk) : Blk :=
  let b := b.updHost fun h => { h with perst := true, hdmBase := 0, msixPending := [] }
  let b := (b.setCxlLink false 0 0).wr CXL_STATUS.hdm_committed 0
  let b := b.hostHeld.foldl (fun b x => (b.dropReq x).abortReq x.2) b
  b.pullsFail

/-- The link retrains: CXL_LINK_CHANGE tells when it is up. -/
def perstOffFx (b : Blk) : Blk := (b.updHost fun h => { h with perst := false }).pullIssue

/-- MSIX_SEND: a vector that has a cause is sent, at most once in the gap. -/
def msixFx (v : Fin 16) (b : Blk) : Blk :=
  let gap := b.rd CXL_CFG.msix_gap_us * 1000
  let free : Bool := match Sp.get none b.host.msixSent v.val with
    | some t => decide (t + gap ≤ b.now)
    | none => true
  if ¬b.hostUp ∨ ¬b.host.msixPending.contains v.val ∨ ¬free then b
  else (b.emit (.msix v.val)).updHost fun h =>
    { h with msixPending := h.msixPending.filter (· ≠ v.val), msixSent := Sp.set none h.msixSent v.val (some b.now) }

def execHostMemRequest (r : HostReq) (s : State) := onBlk s (hostRequestFx r)
def execHostRequestServe (c : Fin 128) (s : State) := onBlk s (hostServeFx c)
def execHostHoldExpiry (s : State) := onBlk s hostExpiryFx
def execIdentifyMemoryDevice (s : State) := onBlk s mailboxFx
def execGetSupportedLogs (s : State) := onBlk s mailboxFx
def execGetLog (u : BitVec 128) (_o _l : BitVec 32) (s : State) := onBlk s (getLogFx u)
def execGetHealthInfo (s : State) := onBlk s mailboxFx
def execMailboxUnsupported (_o : BitVec 16) (s : State) := onBlk s mailboxNoFx
def execCdatDoeRequest (i : BitVec 16) (s : State) := onBlk s (doeFx i)
def execPerstAssert (s : State) := onBlk s perstOnFx
def execPerstDeassert (s : State) := onBlk s perstOffFx
def execCxlLinkChange (u : Bool) (v : BitVec 2) (w : BitVec 4) (s : State) := onBlk s (cxlLinkFx u v w)
def execPullDescriptorComplete (v : BitVec 8) (d : List MWord) (s : State) := onBlk s (pullDoneFx v d)
def execPullCompletionTimeout (s : State) := onBlk s pullTimeoutFx
def execMsixSend (v : Fin 16) (s : State) := onBlk s (msixFx v)
def execHdmDecoderCommit (a : BitVec 64) (s : State) := onBlk s (hdmCommitFx a)

end Sys2Proof.Machine
end

