-- ==== Sys2Proof/Machine/Security.lean ====
section
/-!
DEFINITION. Attestation, the guest firewall and the debug lock (13_security.md, R317, R324 to R329).
-/
namespace Sys2Proof.Machine

/-! ### Attestation (R317) -/

/-- Bytes of the evidence before its signature. -/
def Blk.evidence (b : Blk) (nonce : Nat) : List Byte :=
  let l := b.sec.log
  let w0 := 0x41545354 + 2 ^ 32 + l.length * 2 ^ 40 + b.now % 2 ^ 64 * 2 ^ 49 + b.rd CTL_BOOT.plan_serial * 2 ^ 113
    + b.dstate * 2 ^ 145
  let entry (e : LogEntry) : List Byte :=
    leBytes 32 (e.kind + e.seq * 2 ^ 8 + e.mtc % 2 ^ 64 * 2 ^ 40) ++ leBytes 32 e.digest.toNat
  leBytes 32 w0 ++ leBytes 32 nonce ++ leBytes 32 b.fpr ++ leBytes 32 b.sec.chain.toNat ++ l.flatMap entry

/-- ATTEST: refused without the device key; the evidence is signed over every word before its signature. -/
def attestFx (r : MgmtReq) (nonce : BitVec 256) : Blk → Blk :=
  authRequest 0x06 false r fun b =>
    if ¬b.on SEC_STATUS.key_ok then b.mgmtReject 0x06 r.auth.toNat r.requestId.toNat 7 []
    else
      let e := b.evidence nonce.toNat
      let s := b.signature e
      s.2.mgmtReply r.auth.toNat r.requestId.toNat 0 (e ++ s.1)

/-! ### The guest firewall (R324 to R327) -/

/-- Rule `n` admits a transaction: its whole byte range lies between base and limit (R325). -/
def Blk.ruleAdmits (b : Blk) (t : GuestTxn) (n : Nat) : Bool :=
  let a := t.addr.toNat
  b.on (GFW_RULE_LO.valid n) && decide (b.rd (GFW_RULE_LO.dir n) = b2n t.toAperture)
    && decide (b.rd (GFW_RULE_LO.base n) ≤ a / 4096)
    && decide ((a + 32 * t.words - 1) / 4096 ≤ b.rd (GFW_RULE_HI.limit n))
    && (if t.write then b.on (GFW_RULE_LO.write n) else b.on (GFW_RULE_LO.read n))

/-- Into the hub's SEC or GFW block: denied to the guest whatever the rules say. -/
def intoSecurity (t : GuestTxn) : Bool :=
  let a := t.addr.toNat
  let z := a + 32 * t.words - 1
  !t.toAperture && (decide (a ≤ 0x7F000008FFFF ∧ 0x7F0000080000 ≤ z) || decide (a ≤ 0x7F00000BFFFF ∧ 0x7F00000B0000 ≤ z))

def Blk.guestRule (b : Blk) (t : GuestTxn) : Option Nat :=
  if intoSecurity t then none else (List.range 64).find? (b.ruleAdmits t)

/-- The guest is isolated: the interface is held in reset. -/
def Blk.isolate (b : Blk) : Blk := (b.guestReset.wr GFW_STATUS.isolated 1).raiseOpen 0 uGfw 0x0A03

/-- A denial: event, count, and isolation at the limit (R326). -/
def Blk.guestDeny (b : Blk) (inj : Bool) (t : GuestTxn) : Blk :=
  let b := (b.guestAbort t).satBy GFW_STATUS.denials 1
  let b := b.raiseInj inj 0 uGfw 0x0A02 (t.addr.toNat + b2n t.toAperture * 2 ^ 48)
  let w := b.rd GFW_CFG.deny_window_us * 1000
  let recent := (b.sec.denials.filter fun d => b.now ≤ d + w) ++ [b.now]
  let b := b.updSec fun s => { s with denials := recent }
  if max 1 (b.rd GFW_CFG.deny_limit) ≤ recent.length then b.isolate else b

/-- Tokens of rule `n` now, in thousandths of a word (R327). -/
def Blk.bucket (b : Blk) (n : Nat) : Nat :=
  let k := Sp.get ⟨512000, 0⟩ b.sec.buckets n
  min 512000 (k.tokens + (b.now - k.at_) * b.rd (GFW_RULE_HI.rate n))

/-- The rule's bucket holds the transaction's words. -/
def Blk.hasTokens (b : Blk) (n words : Nat) : Bool := !b.on (GFW_RULE_HI.rate n) || decide (1000 * words ≤ b.bucket n)

def Blk.takeTokens (b : Blk) (n words : Nat) : Blk :=
  if b.on (GFW_RULE_HI.rate n) then
    let left := b.bucket n - 1000 * words
    b.updSec fun s => { s with buckets := Sp.set ⟨512000, 0⟩ s.buckets n ⟨left, b.now⟩ }
  else b

/-- `n` free words: what the guest's own die answers. -/
def Blk.freeWords (b : Blk) : Nat → List MWord × Blk
  | 0 => ([], b)
  | n + 1 =>
    let r := b.fresh.2.freeWords n
    (⟨b.fresh.1, false⟩ :: r.1, r.2)

/-- Where the guest's admitted requests to staging wait: beside the 128 channels. -/
def stageHold : Nat := 128

/-- The guest's first held request to staging is served, if its class-8 crossbar window is open (R172, R174). -/
def Blk.guestStage (b : Blk) : Blk :=
  match Sp.get [] b.memReqs stageHold with
  | [] => b
  | r :: rest => match b.place r.addr with
    | none => b
    | some key =>
      if ¬b.wayWindow ownGuest xGuest key r.write then b
      else
        let b := { b with memReqs := Sp.set [] b.memReqs stageHold rest }
        if r.write then (b.landWords key r.data).emit (.guest false true [])
        else
          let ws := b.fetchWords key r.words
          ws.2.emit (.guest false true ws.1)

/-- An admitted transaction proceeds: the guest's into external memory or staging waits for class-8 windows. -/
def Blk.guestRun (b : Blk) (t : GuestTxn) : Blk :=
  let a := t.addr.toNat / 32 * 32
  let n := t.words
  if t.toAperture then
    if t.write then b.emit (.guest true true t.data)
    else
      let r := b.freeWords n
      r.2.emit (.guest true true r.1)
  else match b.place a with
    | none => (b.addrRange 0 uGfw a).guestAbort t
    | some key =>
      let data := if t.write then t.data else []
      if key < stageKey then b.holdReqs ownGuest a n t.write .guest data
      else
        let r : MemReq := ⟨ownGuest, a, n, t.write, data, .guest, 0, b.now⟩
        ({ b with memReqs := Sp.set [] b.memReqs stageHold (Sp.get [] b.memReqs stageHold ++ [r]) }).guestStage

/-- The guest's interface is held in reset: isolated (R326), or in Calm (R365 note 3). -/
def Blk.guestOff (b : Blk) : Bool := b.on GFW_STATUS.isolated || b.rd PWR_MODE.mode == 2

/-- Judge one transaction (R325). -/
def Blk.guestJudge (b : Blk) (inj : Bool) (t : GuestTxn) : Blk :=
  if b.guestOff then (if t.toAperture then b.guestAbort t else b)
  else if b.ras.drains.any fun d => d.kind = 4 then b.guestAbort t
  else match b.guestRule t with
    | none => b.guestDeny inj t
    | some n =>
      let behind := b.sec.waiting.any fun w => w.rule = n
      if ¬behind ∧ b.hasTokens n t.words then (b.takeTokens n t.words).guestRun t
      else b.updSec fun s => { s with waiting := s.waiting ++ [⟨t, n⟩] }

/-- A transaction that the link can carry: 1 to 8 words, and device addresses of the aperture for the module's own. -/
def guestShape (t : GuestTxn) : Bool :=
  let a := t.addr.toNat
  decide (1 ≤ t.words ∧ t.words ≤ 8) && (!t.write || decide (t.data.length = t.words))
    && (!t.toAperture || decide (0x600000000000 ≤ a ∧ a + 32 * t.words ≤ 0x601000000000))

/-- GUEST_TRANSACTION, on a part with a guest whose link is trained; an armed injection (detector 0x10) presents its own
transaction first, unless the interface is held in reset (R365 note 2). -/
def guestTxnFx (t : GuestTxn) (b : Blk) : Blk :=
  if ¬b.part.guest ∨ ¬b.on GFW_STATUS.link_up ∨ ¬guestShape t then b
  else
    let f := b.fire 0x10 fun _ => !b.guestOff
    let b := match f.1 with
      | some a => f.2.guestJudge true ⟨false, false, BitVec.ofNat 48 a, 1, []⟩
      | none => f.2
    b.guestJudge false t

/-- GUEST_ADMIT: the first transaction that is first of its rule and finds its tokens; and what waits for staging goes on. -/
def guestAdmitFx (b : Blk) : Blk :=
  let b := b.guestStage
  let first (w : GuestWait) : Bool := b.sec.waiting.find? (fun x => x.rule = w.rule) = some w
  match b.sec.waiting.find? fun w => first w ∧ b.hasTokens w.rule w.txn.words with
  | none => b
  | some w =>
    let b := b.updSec fun s => { s with waiting := s.waiting.erase w }
    (b.takeTokens w.rule w.txn.words).guestRun w.txn

/-! ### The debug lock (R328, R329) -/

/-- A debug certificate is valid now; level 2 is refused in ARMED and RUN. -/
def Blk.debugOk (b : Blk) (c : DebugCert) : Bool :=
  let w := c.w1.toNat
  let level := bits w 128 2
  c.sigValid && decide (c.w0.toNat = b.fpr) && decide (bits w 0 64 = b.rd SEC_DBG_NONCE.nonce)
    && decide (b.now < bits w 64 64) && decide (level = 1 ∨ level = 2) && !(decide (level = 2) && b.locked)
    && decide (w / 2 ^ 131 = 0) && decide (c.w2 = 0)

/-- Every submission replaces the nonce; a valid one unlocks and is logged (kind 7). -/
def Blk.debugSubmit (b : Blk) (c : DebugCert) : Blk :=
  let ok := b.debugOk c
  let b := b.wr SEC_DBG_NONCE.nonce c.newNonce.toNat
  if ¬ok then b
  else
    let b := b.wr SEC_DBG.level (bits c.w1.toNat 128 2)
    let b := b.updSec fun s => { s with dbgExpiry := bits c.w1.toNat 64 64 }
    let words := leBytes 32 c.w0.toNat ++ leBytes 32 c.w1.toNat ++ leBytes 32 c.w2.toNat
    (b.appendLog 7 (digest words)).msix 5

def debugSubmitFx (c : DebugCert) (b : Blk) : Blk := if b.dstate = stOff then b else b.debugSubmit c

/-- DEBUG_UNLOCK_QUORUM: a verified command of type 8, whose payload is words 0 to 2 with the signer bit set. -/
def debugQuorumFx (newNonce : BitVec 64) : Blk → Blk := takeCmd (fun c => c.ctype = 8) fun c b =>
  let w (i : Nat) : Word := BitVec.ofNat 256 (armWord c.payload i)
  b.debugSubmit ⟨w 0, w 1, w 2, (w 1).getLsbD 130, newNonce⟩

/-- DEBUG_UNLOCK_EXPIRY. -/
def debugExpiryFx (b : Blk) : Blk :=
  if b.rd SEC_DBG.level ≠ 0 ∧ b.sec.dbgExpiry ≤ b.now then b.debugLock else b

/-- DEBUG_TAP_INSTRUCTION: the data register that the instruction selects; what the lock does not offer acts as BYPASS. -/
def tapFx (ir : BitVec 8) (b : Blk) : Blk :=
  if b.dstate = stOff then b
  else
    let k := (Config.tapDecode ir.toNat).val
    let k := if 4 ≤ k ∧ b.rd SEC_DBG.level < 2 then 0 else k
    let b := b.updSec fun s => { s with tapIr := k }
    if k = 1 then b.emit (.tap Config.tapIdcode.toNat)
    else if k = 2 ∨ 4 ≤ k then b.fresh.2.emit (.tap b.fresh.1.toNat)
    else b.emit (.tap 0)

def execAttest (r : MgmtReq) (n : BitVec 256) (s : State) := onBlk s (attestFx r n)
def execGuestTransaction (t : GuestTxn) (s : State) := onBlk s (guestTxnFx t)
def execGuestAdmit (s : State) := onBlk s guestAdmitFx
def execDebugUnlockQuorum (n : BitVec 64) (s : State) := onBlk s (debugQuorumFx n)
def execDebugCertSubmit (c : DebugCert) (s : State) := onBlk s (debugSubmitFx c)
def execDebugUnlockExpiry (s : State) := onBlk s debugExpiryFx
def execDebugTapInstruction (ir : BitVec 8) (s : State) := onBlk s (tapFx ir)

end Sys2Proof.Machine
end

