-- ==== Sys2Proof/Machine/Drain.lean ====
section
/-!
DEFINITION. Drains and their forced end (12_reliability.md, R304), fence and release commands (R301, R302, R308), and the
expel (R260, R284).
-/
namespace Sys2Proof.Machine

/-! ### The function of a drain

Kinds are those of the fence payload. Units: 0 core key, 1 gather engine 4 cd + e, 2 physical port, 3 physical collective channel,
4 and 5 zero. Why: 0 fence command, 1 stop, 2 expel, 3 fence of a core. -/

/-- The port has nothing queued for it and nothing to replay. -/
def Blk.portQuiet (b : Blk) (p : Nat) : Bool :=
  let n := b.logicalOf p
  ((b.port (b.leader (p / 5) n)).queue.all fun x => x.outLogical ≠ n) && (b.port p).replay = []

/-- A channel's collective in progress. -/
def Blk.chanRun (b : Blk) (c : Nat) : Option CollRun :=
  if b.on (COLL_CHAN.bound c) then b.run? (b.rd (COLL_CHAN.logical c)) else none

/-- Nothing of the function is in flight. -/
def Blk.drainQuiet (b : Blk) (kind u : Nat) : Bool :=
  if kind = 0 then b.coreQuiet u
  else if kind = 1 then (b.gathE u).streams = []
  else if kind = 2 then b.portQuiet u
  else if kind = 3 then (b.chanRun u).isNone
  else if kind = 4 then b.sec.waiting = [] && b.guestHeld = []
  else b.host.pullBusy.isNone && b.run.pulling.isNone

/-- The function's time-out, in ns. -/
def Blk.drainLimit (b : Blk) (kind : Nat) : Nat :=
  1000 * b.rd (if kind = 0 then RAS_DRAIN_TMO0.core_us else if kind = 1 then RAS_DRAIN_TMO0.gather_us
    else if kind = 2 then RAS_DRAIN_TMO0.port_us else if kind = 3 then RAS_DRAIN_TMO0.coll_us
    else if kind = 4 then RAS_DRAIN_TMO1.guest_us else RAS_DRAIN_TMO1.cxl_us)

/-- The die and unit that report it, and its unit as the fence payload numbers it. -/
def Blk.drainName (b : Blk) (kind u : Nat) : Nat × Nat × Nat :=
  if kind = 0 then (coreDie u, u % 32, u % 32)
  else if kind = 1 then (u / 4 + 1, 36 + u % 4, u % 4)
  else if kind = 2 then (portDie u, portUnit u, b.logicalOf u)
  else if kind = 3 then (0, uColl, u)
  else if kind = 4 then (0, uGfw, 0)
  else (0, uCxl, 0)

/-! ### What follows a drain -/

/-- A fenced port: disabled, and a standby takes over (R210). -/
def Blk.fencePortEnd (b : Blk) (p : Nat) : Blk :=
  let b := if b.pLive p then b.portLost p else b
  ((b.wr (PORT_CTRL.enable p) 0).portDisabled p).updPort p fun s => { s with draining := false }

/-- The end of one reason to drain. -/
def Blk.drainEnd (b : Blk) (d : Drain) : Blk :=
  let u := d.unit
  if d.kind = 0 then
    match b.ras.fences.find? fun f => d.why = 3 ∧ f.cd * 32 + f.site = u ∧ f.stage = 0 with
    | some f => b.startCopy f
    | none => b
  else if d.kind = 1 then (if d.why = 1 then b else b.updGath u fun g => { g with draining := false })
  else if d.kind = 2 then
    (if d.why = 0 then b.fencePortEnd u else b.updPort u fun s => { s with draining := false })
  else if d.kind = 3 then
    (if d.why = 1 then b else b.updColl fun c => { c with drainCh := c.drainCh.filter (· ≠ u) })
  else if d.kind = 4 then (if d.why = 0 ∧ ¬b.on GFW_STATUS.isolated then b.isolate else b)
  else if d.why = 0 then (b.updHost fun h => { h with fenced := true }).setCxlLink false 0 0
  else b.pullIssue

/-- An expelled module's job is over when its cores, gather engines and channels are drained. -/
def Blk.expelOver (b : Blk) : Blk :=
  if b.dstate ≠ stFenced ∨ b.run.job.isNone ∨ b.ras.drains.any (fun d => d.why = 2 ∧ (d.kind = 0 ∨ d.kind = 1 ∨ d.kind = 3)) then b
  else b.jobOver.idleCalStart

/-- The drain of a function ends. -/
def Blk.drainDone (b : Blk) (kind u : Nat) : Blk :=
  let ds := b.ras.drains.filter fun d => d.kind = kind ∧ d.unit = u
  let b := b.updRas fun r => { r with drains := r.drains.filter fun d => ¬(d.kind = kind ∧ d.unit = u) }
  (ds.foldl Blk.drainEnd b).expelOver

def Blk.drainOn (b : Blk) (kind u : Nat) : Bool := b.ras.drains.any fun d => d.kind = kind ∧ d.unit = u

/-- DRAIN_COMPLETE. -/
def drainCompleteFx (kind : BitVec 4) (unit : BitVec 9) (b : Blk) : Blk :=
  let k := kind.toNat
  let u := unit.toNat
  if b.drainOn k u ∧ b.drainQuiet k u then b.drainDone k u else b

/-! ### The forced end (R304) -/

/-- The core that a key names. -/
def coreOf (k : Nat) : CoreId := ⟨Fin.ofNat 12 (k / 32), Fin.ofNat 32 k⟩

/-- A core's matrix operations complete aborted, their tiles poisoned. -/
def Blk.forceMats (b : Blk) (k : Nat) : Blk :=
  let n := (b.core k).mats.length
  let b := b.updCore k fun c =>
    { c with mats := c.mats.map fun j => { j with aborted := true, sums := { j.sums with poison := true } } }
  (List.range n).foldl (fun b _ => matrixCompleteFx (coreOf k) b) b

/-- A core's transfers complete aborted: what is not yet delivered is poisoned. -/
def Blk.forceXfers (b : Blk) (k : Nat) : Blk :=
  let mine := b.xfers.filter fun x => x.core = k
  let held := b.heldFor fun r => mine.any fun x => r.serves = .xfer x.id
  let b := held.foldl (fun b x => (b.dropReq x).abortReq x.2) b
  let whole (x : Xfer) : Bool := x.cached || match b.place x.dev with
    | some key => decide (stageKey ≤ key)
    | none => false
  let b := (mine.filter fun x => !x.aborted && whole x).foldl (fun b x => b.abortXfer x.id) b
  let b := { b with xfers := b.xfers.map fun x => if x.core = k then { x with due := 0 } else x }
  mine.foldl (fun b _ => dmaCompleteFx (coreOf k) b) b

/-- Every element that the engine's streams have not written is written poisoned. -/
def Blk.forceGather (b : Blk) (ge : Nat) : Blk :=
  (b.gathE ge).streams.foldl (fun b st =>
    let d := st.desc.toNat
    let left := st.reqs.map (·.elem) ++ (List.range (gCount d)).filter fun i => st.next ≤ i
    left.foldl (fun b i => b.gathWrite ge i (List.replicate (gWords d) ⟨0, true⟩) true true) b) b

/-- What a port still holds is discarded. -/
def Blk.forcePort (b : Blk) (p : Nat) : Blk :=
  let n := b.logicalOf p
  let b := b.discard p
  b.updPort (b.leader (p / 5) n) fun s => { s with queue := s.queue.filter fun x => x.outLogical ≠ n }

/-- Complete aborted everything that a draining function holds, and count it. -/
def Blk.force (b : Blk) (kind u : Nat) : Nat × Blk :=
  if kind = 0 then
    ((b.core u).mats.length + (b.xfers.filter fun x => x.core = u).length, (b.forceMats u).forceXfers u)
  else if kind = 1 then ((b.gathE u).streams.length, b.forceGather u)
  else if kind = 2 then
    let n := b.logicalOf u
    (((b.port (b.leader (u / 5) n)).queue.filter fun x => x.outLogical = n).length, b.forcePort u)
  else if kind = 3 then
    match b.chanRun u with
    | some r =>
      let m := b.missing r
      (1, b.collFail r m.1 m.2.1 m.2.2)
    | none => (0, b)
  else if kind = 4 then
    let c := b.guestHeld.foldl (fun b x => (b.dropReq x).abortReq x.2) b
    let c := b.sec.waiting.foldl (fun b w => b.guestAbort w.txn) (c.updSec fun s => { s with waiting := [] })
    (b.sec.waiting.length + b.guestHeld.length, c)
  else (b2n b.host.pullBusy.isSome + b2n b.run.pulling.isSome, b.pullsFail)

/-- DRAIN_TIMEOUT. -/
def drainTimeoutFx (kind : BitVec 4) (unit : BitVec 9) (b : Blk) : Blk :=
  let k := kind.toNat
  let u := unit.toNat
  match b.ras.drains.find? fun d => d.kind = k ∧ d.unit = u with
  | none => b
  | some d =>
    if b.now < d.since + b.drainLimit k then b
    else
      let id := b.drainName k u
      let f := b.force k u
      let b := f.2.raise id.1 id.2.1 0x080A (k + id.2.2 * 2 ^ 4 + satur 32 f.1 * 2 ^ 12)
      b.drainDone k u

/-! ### Fence and release commands (R308) -/

def fKind (w : Nat) : Nat := bits w 0 4
def fRelease (w : Nat) : Bool := bit w 4
def fDie (w : Nat) : Nat := bits w 5 5
def fUnit (w : Nat) : Nat := bits w 10 8

/-- The unit that the payload names exists. -/
def fenceUnitOk (w : Nat) : Bool :=
  let die := decide (1 ≤ fDie w ∧ fDie w ≤ 12)
  let k := fKind w
  if k = 0 then die && decide (fUnit w < (if fRelease w then 36 else 32))
  else if k = 1 then die && decide (fUnit w < 4)
  else if k = 2 then decide (fUnit w < 10)
  else if k = 3 then decide (fUnit w < 16)
  else if k = 6 then decide (fUnit w < 128)
  else decide (fUnit w = 0)

/-- Take a fence or release command of a kind that falls due. -/
def fenceCmd (sel : Nat → Bool) (f : Nat → Blk → Blk) : Blk → Blk :=
  takeCmd (fun c => c.ctype = 2 && sel (armWord c.payload 0)) fun c b =>
    let w := armWord c.payload 0
    if 7 ≤ fKind w ∨ ¬fenceUnitOk w then b.refuse 1 else f w b

def fencing (kind : Nat) (w : Nat) : Bool := decide (fKind w = kind) && !fRelease w
def releasing (kind : Nat) (w : Nat) : Bool := decide (fKind w = kind) && fRelease w

/-- A release ends a fence whose drain still runs. -/
def Blk.unfence (b : Blk) (kind u : Nat) : Blk :=
  b.updRas fun r => { r with drains := r.drains.filter fun d => ¬(d.kind = kind ∧ d.unit = u ∧ d.why = 0) }

/-- FENCE_CORE; a reserved kind is refused here. -/
def fenceCoreFx : Blk → Blk := fenceCmd (fun w => fencing 0 w || decide (7 ≤ fKind w)) fun w b =>
  b.startFence (fDie w - 1) (fUnit w) true

def fenceGatherFx : Blk → Blk := fenceCmd (fencing 1) fun w b =>
  let ge := 4 * (fDie w - 1) + fUnit w
  (b.updGath ge fun g => { g with fenced := true, draining := true, releaseAtAnchor := false }).addDrain 1 ge 0

def fencePortFx : Blk → Blk := fenceCmd (fencing 2) fun w b =>
  let p := b.physOf (fUnit w / 5) (fUnit w)
  (b.updPort p fun s => { s with draining := true }).addDrain 2 p 0

def fenceCollFx : Blk → Blk := fenceCmd (fencing 3) fun w b =>
  let c := fUnit w
  (b.updColl fun x =>
    { x with fencedCh := addNew x.fencedCh c, releaseCh := x.releaseCh.filter (· ≠ c) }).addDrain 3 c 0

/-- While the guest is isolated the fence has no further effect (R326). -/
def fenceGuestFx : Blk → Blk := fenceCmd (fencing 4) fun _ b =>
  if b.on GFW_STATUS.isolated then b else b.addDrain 4 0 0

def fenceCxlFx : Blk → Blk := fenceCmd (fencing 5) fun _ b => b.addDrain 5 0 0

/-- The logical channel migrates to a spare of its die; without one the cause of R261 stands. -/
def fenceMemFx : Blk → Blk := fenceCmd (fencing 6) fun w b =>
  let md := fUnit w / 32
  match b.spareChan md with
  | some t => b.startMigration md (fUnit w % 32) t
  | none => b.cause CTL_STATE.chan_spares true

/-- RELEASE_CORE (R302): a FENCED physical core that passes its self-test returns to SPARE. -/
def releaseCoreFx (passed : Bool) : Blk → Blk := fenceCmd (releasing 0) fun w b =>
  let cd := fDie w - 1
  if b.rd (SITE_CORE.state cd (fUnit w)) ≠ 2 ∨ ¬passed then b
  else
    let b := b.wr (SITE_CORE.state cd (fUnit w)) 1
    b.cause CTL_STATE.core_spares b.coreSparesOut

def releaseGatherFx : Blk → Blk := fenceCmd (releasing 1) fun w b =>
  let ge := 4 * (fDie w - 1) + fUnit w
  (b.unfence 1 ge).updGath ge fun g => { g with releaseAtAnchor := true }

/-- RELEASE_PORT: the fenced physical port, the one that served the logical port or the one of its own number, retrains. -/
def releasePortFx : Blk → Blk := fenceCmd (releasing 2) fun w b =>
  let n := fUnit w
  let q := b.physOf (n / 5) n
  let p := if b.on (PORT_CTRL.enable q) ∧ ¬b.on (PORT_CTRL.enable n) then n else q
  let b := (b.unfence 2 p).updPort p fun s => { s with draining := false }
  ((b.wr (PORT_CTRL.enable p) 1).portEnabled p).portRetrained p

def releaseCollFx : Blk → Blk := fenceCmd (releasing 3) fun w b =>
  (b.unfence 3 (fUnit w)).updColl fun c => { c with releaseCh := addNew c.releaseCh (fUnit w) }

def releaseGuestFx : Blk → Blk := fenceCmd (releasing 4) fun _ b => (b.unfence 4 0).wr GFW_STATUS.isolated 0

def releaseCxlFx : Blk → Blk := fenceCmd (releasing 5) fun _ b =>
  ((b.unfence 5 0).updHost fun h => { h with fenced := false }).pullIssue

/-- RELEASE_MEM_CHANNEL has no effect. -/
def releaseMemFx : Blk → Blk := fenceCmd (releasing 6) fun _ b => b

/-! ### Expel (R260, R284, R308) -/

/-- Every function drains: what the job has in flight, the live ports, the guest, and the CXL side. -/
def Blk.expel (b : Blk) : Blk :=
  let b := allCores.foldl (fun b k => if b.seqState k = 0 then b else b.setSeqState k 0) b
  let b := b.drainJob 2
  let b := (List.range 10).foldl (fun b p =>
    if b.pLive p then (b.updPort p fun s => { s with draining := true }).addDrain 2 p 2 else b) b
  let b := (b.addDrain 4 0 2).addDrain 5 0 2
  ((b.updRst fun r => { r with expelled := true }).enter stFenced).expelOver

def expelFx : Blk → Blk := takeCmd (fun c => c.ctype = 3) fun _ b =>
  let st := b.dstate
  if st = stReady ∨ st = stArmed ∨ st = stRun ∨ st = stDrain then b.expel else b.refuse 1

def execDrainComplete (k : BitVec 4) (u : BitVec 9) (s : State) := onBlk s (drainCompleteFx k u)
def execDrainTimeout (k : BitVec 4) (u : BitVec 9) (s : State) := onBlk s (drainTimeoutFx k u)
def execFenceCore (s : State) := onBlk s fenceCoreFx
def execFenceGather (s : State) := onBlk s fenceGatherFx
def execFencePort (s : State) := onBlk s fencePortFx
def execFenceCollChannel (s : State) := onBlk s fenceCollFx
def execFenceGuest (s : State) := onBlk s fenceGuestFx
def execFenceCxl (s : State) := onBlk s fenceCxlFx
def execFenceMemChannel (s : State) := onBlk s fenceMemFx
def execReleaseCore (p : Bool) (s : State) := onBlk s (releaseCoreFx p)
def execReleaseGather (s : State) := onBlk s releaseGatherFx
def execReleasePort (s : State) := onBlk s releasePortFx
def execReleaseCollChannel (s : State) := onBlk s releaseCollFx
def execReleaseGuest (s : State) := onBlk s releaseGuestFx
def execReleaseCxl (s : State) := onBlk s releaseCxlFx
def execReleaseMemChannel (s : State) := onBlk s releaseMemFx
def execExpel (s : State) := onBlk s expelFx

end Sys2Proof.Machine
end

