-- ==== Sys2Proof/Machine/Install.lean ====
section
/-!
DEFINITION. New plans and firmware: the staging buffers (14_host_management.md, R342), the replacement in RECOVERY
(11_bring_up.md, R264, R270), and the commands of types 4 to 7: re-plan (R271, R323), firmware install (R264, R316), injection
unlock (R293) and register writes (R8).
-/
namespace Sys2Proof.Machine

/-! ### Writing the regions -/

/-- Set a length field of the layout header (R265): at bit `lo`. -/
def Blk.setLayout (b : Blk) (lo len : Nat) : Blk := b.setFbytes 0 (leBytes 32 (setBits b.layoutHdr lo 32 len))

/-- Write a plan, and its length. -/
def Blk.writePlan (b : Blk) (p : List Byte) : Blk := (b.setFbytes fPlan p).setLayout 96 p.length

/-- Write a firmware image, and its length. -/
def Blk.writeFw (b : Blk) (p : List Byte) : Blk := (b.setFbytes fFw p).setLayout 64 p.length

/-- EV_FW_INVALID or EV_PLAN_INVALID for a replacement that fails; the details are not laid out. -/
def Blk.replaceFail (b : Blk) (plan : Bool) : Blk :=
  (b.raiseOpen 0 uDie (if plan then 0x0702 else 0x0701)).wr CTL_BOOT.result 5

/-! ### Re-plan -/

/-- The port map is the identity again (R222). -/
def Blk.plainMap (b : Blk) : Blk := (List.range 10).foldl (fun b n => b.mapPort n n) b

/-- A re-plan ends the line variants in force (R247). -/
def Blk.closeLines (b : Blk) : Blk :=
  ((b.setReg .collFallback 0).cause CTL_STATE.no_variant false).updColl fun c => { c with notes := [], failedLinks := [] }

/-- REPLAN: the plan is written, and its table becomes the anchor; where it names the module, its fields are loaded and
discovery starts again. -/
def replanFx : Blk → Blk := takeCmd (fun c => c.ctype = 4) fun c b =>
  if ¬(b.dstate = stReady ∨ b.dstate = stFenced) then b.refuse 1
  else
    let b := b.writePlan c.payload
    let b := if b.planShape then b.setAnchor b.tableDigest else b
    if ¬b.planShape ∨ b.ownEntries.length ≠ 1 then b
    else
      let b := if b.run.job.isSome then b.jobOver.idleCalStart else b
      let b := b.loadPlan.plainMap.resetEpochs.closeLines.updRst fun r => { r with expelled := false }
      let b := (List.range 10).foldl (fun b p => b.updPort p fun s => { s with retired := false }) b
      b.enterDiscover

/-! ### Firmware install -/

/-- Length of the firmware at the front of a payload: its body, header and signature. -/
def fwLength (p : List Byte) : Nat := min (bits (ofLeBytes (p.take 32)) 64 32 + 1312) (min p.length 0x1800000)

/-- FIRMWARE_INSTALL: the image, and the certificate chain that may follow it, are written and checked; the image takes effect
at the next start. -/
def firmwareFx (sigOk chainOk : Bool) : Blk → Blk := takeCmd (fun c => c.ctype = 5) fun c b =>
  let n := fwLength c.payload
  let chain := c.payload.drop n
  let b := b.writeFw (c.payload.take n)
  let b := if chain = [] then b
    else ((b.setFbytes fCert chain).setLayout 128 chain.length).wrB SEC_STATUS.cert_ok chainOk
  if b.fwHdrOk ∧ sigOk then b else b.replaceFail false

/-! ### Injection unlock and register writes -/

/-- INJECTION_UNLOCK: maintenance mode until the expiry, at most 24 h after verification; 0 ends it. -/
def injectionFx : Blk → Blk := takeCmd (fun c => c.ctype = 6) fun c b =>
  let e := bits (armWord c.payload 0) 0 64
  if e = 0 then b.endMaintenance
  else
    let d := b.updRas fun r => { r with maintUntil := some (min e (c.verified + 86400000000000)) }
    if b.ras.maintUntil.isSome then d else d.msix 5

/-- Address and value pairs of a payload, 16 bytes each. -/
def regPairs (p : List Byte) : List (Nat × Nat) :=
  (List.range (p.length / 16)).map fun i =>
    (ofLeBytes ((p.drop (16 * i)).take 8), ofLeBytes ((p.drop (16 * i + 8)).take 8))

/-- Accesses applied in order, with their statuses (R369). -/
def Blk.regWrites (b : Blk) (q : Bool) (p : Path) (l : List (Nat × Nat)) : List Nat × Blk :=
  l.foldl (fun (x : List Nat × Blk) w =>
    let v := x.2.regWrite q p w.1 8 w.2
    (x.1 ++ [v.1], v.2)) ([], b)

/-- Reply status of a list of accesses, by their statuses (R369): done, malformed, or not accepted. -/
def replyStatus (l : List Nat) : Nat := if l.all (· = 0) then 0 else if l.contains stError then 4 else 3

/-- RWQ_WRITE: the writes of a verified command reach RWQ fields; RWL fields stay locked in ARMED and RUN (R7), and the reply reports
it (R8). -/
def rwqFx : Blk → Blk := takeCmd (fun c => c.ctype = 7) fun c b =>
  let x := b.regWrites true .control (regPairs c.payload)
  x.2.send c.auth 0x30 c.reqId (replyStatus x.1) (x.1.map fun st => BitVec.ofNat 8 st)

/-! ### Staging buffers and RECOVERY (R342, R264) -/

/-- Size of the staging buffer of a region: false firmware, true plan. -/
def bufSize (plan : Bool) : Nat := if plan then 0x700000 else 0x1800000

def putBytes (m : Sp Byte) (off : Nat) : List Byte → Sp Byte
  | [] => m
  | v :: vs => putBytes (Sp.set 0 m off v) (off + 1) vs

/-- The main domain's firmware or boot ROM can take a load: not in STANDBY. -/
def Blk.loadBusy (b : Blk) (plan : Bool) : Bool :=
  decide (b.dstate ≤ stStandby) || (match b.mgmt.writing with
    | some w => w.1 = plan
    | none => false)

/-- LOAD_CHUNK: bytes into the region's staging buffer. -/
def loadChunkFx (r : MgmtReq) (plan : Bool) (off : Nat) (bs : List Byte) : Blk → Blk :=
  authRequest 0x05 true r fun b =>
    let a := r.auth.toNat
    let id := r.requestId.toNat
    if b.loadBusy plan then b.mgmtReject 0x05 a id 3 []
    else if bufSize plan < off + bs.length then b.mgmtReject 0x05 a id 4 []
    else
      let b := b.updMgmt fun m =>
        if plan then { m with planBuf := putBytes m.planBuf off bs } else { m with fwBuf := putBytes m.fwBuf off bs }
      b.mgmtReply a id 0 []

/-- LOAD_COMMIT: in RECOVERY the write begins; elsewhere the buffer is marked ready. -/
def loadCommitFx (r : MgmtReq) (plan : Bool) (len : Nat) : Blk → Blk :=
  authRequest 0x0A true r fun b =>
    let a := r.auth.toNat
    let id := r.requestId.toNat
    if b.loadBusy plan then b.mgmtReject 0x0A a id 3 []
    else if bufSize plan < len then b.mgmtReject 0x0A a id 4 []
    else
      let b := b.updMgmt fun m =>
        if b.dstate = stRecovery then { m with writing := some (plan, len) }
        else if plan then { m with planReady := some len } else { m with fwReady := some len }
      b.mgmtReply a id 0 []

/-- RECOVERY_WRITE_COMPLETE: the replacement is in its region and is verified; if it verifies the module makes a cold start. -/
def recoveryDoneFx (x : BootInput) (b : Blk) : Blk :=
  match b.mgmt.writing with
  | none => b
  | some w =>
    if b.dstate ≠ stRecovery then b
    else
      let b := if w.1 then b.writePlan (bufBytes b.mgmt.planBuf w.2) else b.writeFw (bufBytes b.mgmt.fwBuf w.2)
      let b := b.updMgmt fun m => { m with writing := none }
      if w.1 then
        let b := b.identity x
        match b.planCheck x.planSigs with
        | none => b.coldClear.startBoot
        | some c => (b.wr CTL_BOOT.plan_check c).replaceFail true
      else match b.fwKey x.fwSig0 x.fwSig1 with
        | some _ => b.coldClear.startBoot
        | none => b.replaceFail false

def execReplan (s : State) := onBlk s replanFx
def execFirmwareInstall (g c : Bool) (s : State) := onBlk s (firmwareFx g c)
def execInjectionUnlock (s : State) := onBlk s injectionFx
def execRwqWrite (s : State) := onBlk s rwqFx
def execLoadChunk (r : MgmtReq) (g : Bool) (o : BitVec 32) (l : List Byte) (s : State) :=
  onBlk s (loadChunkFx r g o.toNat l)
def execLoadCommit (r : MgmtReq) (g : Bool) (n : BitVec 32) (s : State) := onBlk s (loadCommitFx r g n.toNat)
def execRecoveryWriteComplete (x : BootInput) (s : State) := onBlk s (recoveryDoneFx x)

end Sys2Proof.Machine
end

