-- ==== Sys2Proof/Machine/Mgmt.lean ====
section
/-!
DEFINITION. The management port and the I3C target (14_host_management.md, R337 to R343): segments and their reassembly, relayed
messages, register and memory requests, time of day, start, power limit, ICMPv6, I3C.
-/
namespace Sys2Proof.Machine

/-! ### Segments (R338, R340) -/

/-- Bytes of a segment: its header and its part of the body. -/
def segBytes (s : Segment) : List Byte :=
  (⟨s.mtype.toNat, 0, s.auth.toNat, s.requestId.toNat, s.length.toNat, s.seg.toNat, s.segs.toNat,
    s.target.toNat + b2n s.relay * 2 ^ 31⟩ : SegHead).bytes ++ s.body

/-- The segment that a MGMT packet carries: its part of the body ends where the message does, and its sender stands for the
packet's source. -/
def segOfPkt (pkt : RawPacket) : Segment :=
  let l := pkt.payload.flatMap fun w => leBytes 32 w.data.toNat
  let num (o n : Nat) : Nat := ofLeBytes ((l.drop o).take n)
  let left := num 16 4 - 1408 * num 20 2
  { sender := BitVec.ofNat 128 (hSrc pkt.hdr.toNat), magic := BitVec.ofNat 32 (num 0 4),
    version := BitVec.ofNat 8 (num 4 1), mtype := BitVec.ofNat 8 (num 5 1), auth := BitVec.ofNat 8 (num 7 1),
    requestId := BitVec.ofNat 64 (num 8 8), length := BitVec.ofNat 32 (num 16 4), seg := BitVec.ofNat 16 (num 20 2),
    segs := BitVec.ofNat 16 (num 22 2), relay := bit (num 24 4) 31, target := BitVec.ofNat 20 (num 24 4),
    body := (l.drop 32).take (min 1408 left) }

def Blk.dropMsg (b : Blk) : Blk := b.satBy MGMT_COUNT.dropped 1

/-- The message of `m` with segment `s` taken in: kept, or whole. A whole message of a type that is not a request of R339, or
whose parts do not make up its length, is malformed; every other one is then acted on by the command of its type. -/
def Blk.putSegment (b : Blk) (m : Reasm) (s : Segment) : Blk :=
  let m : Reasm := { m with parts := Sp.set [] m.parts s.seg.toNat s.body }
  let others (l : List Reasm) : List Reasm :=
    l.filter fun x => ¬(x.sender = s.sender ∧ x.requestId = s.requestId)
  let got : Nat := (m.parts.map fun e => e.2.length).sum
  if m.parts.length < m.segs ∧ got < m.length then b.updMgmt fun g => { g with reasm := others g.reasm ++ [m] }
  else
    let b := b.updMgmt fun g => { g with reasm := others g.reasm }
    let t := m.mtype
    if got = m.length ∧ 1 ≤ t ∧ t ≤ 0x0A then b else b.mgmtReject t s.auth.toNat s.requestId.toNat 4 []

/-- A segment at the management port, or out of a relayed packet. -/
def Blk.segIn (b : Blk) (s : Segment) : Blk :=
  let own := s.target.toNat = b.coord 0
  let n := s.seg.toNat
  if s.magic ≠ 0x54584D47 ∨ s.version ≠ 1 ∨ s.segs.toNat ≤ n ∨ 262144 < s.length.toNat ∨ ¬WellFormed.segment s then b.dropMsg
  else if s.relay ∧ ¬own then
    let ws := byteWords (segBytes s)
    let b := b.updMgmt fun m => { m with relays := addNew m.relays (s.requestId, s.sender) }
    b.inject 0 ⟨BitVec.ofNat 256 (mkHdr 0x12 s.target.toNat (b.coord 0) 3 ws.length), ws⟩
  else match b.mgmt.reasm.find? fun x => x.sender = s.sender ∧ x.requestId = s.requestId with
    | some m => b.putSegment m s
    | none =>
      if 8 ≤ b.mgmt.reasm.length then b.dropMsg.send s.auth.toNat 0x30 s.requestId.toNat 6 []
      else b.putSegment ⟨s.sender, s.requestId, s.mtype.toNat, s.length.toNat, s.segs.toNat, b.now, []⟩ s

def mgmtSegmentFx (s : Segment) (b : Blk) : Blk :=
  if b.dstate = stOff then b else (b.wr MGMT_STATUS.link_up 1).segIn s

/-- A segment of a reply to a request that the module relayed: it goes on to the requester; after the last one the request is forgotten. -/
def Blk.relayReply (b : Blk) (s : Segment) (bytes : List Byte) (peer : BitVec 128) : Blk :=
  let b := if s.seg.toNat + 1 < s.segs.toNat then b
    else b.updMgmt fun m => { m with relays := m.relays.filter fun r => r.1 ≠ s.requestId }
  b.emit (.relayed peer bytes)

/-- MGMT_PACKET: a relayed message is handled as if the module's own port had received it, and its reply returns by the same route
(R340). -/
def mgmtPacketFx (pkt : RawPacket) : Blk → Blk := takePkt pkt fun b =>
  let s := segOfPkt pkt
  let reply := s.mtype = 0x30 ∨ s.mtype = 0x31
  match b.mgmt.relays.find? fun r => reply ∧ r.1 = s.requestId with
  | some r => b.relayReply s ((pkt.payload.flatMap fun w => leBytes 32 w.data.toNat).take (32 + s.body.length)) r.2
  | none =>
    let e : RelayEnd := ⟨s.auth, s.requestId, hSrc pkt.hdr.toNat⟩
    (if reply then b else b.updMgmt fun m => { m with relayFrom := addNew m.relayFrom e }).segIn s

/-- MGMT_REASSEMBLY_TIMEOUT: 100 ms from the first segment. -/
def reassemblyFx (sender : BitVec 128) (id : BitVec 64) (b : Blk) : Blk :=
  match b.mgmt.reasm.find? fun x => x.sender = sender ∧ x.requestId = id ∧ x.since + 100000000 ≤ b.now with
  | none => b
  | some m => (b.updMgmt fun g => { g with reasm := g.reasm.erase m }).dropMsg

/-! ### Register and memory requests (R339, R344) -/

/-- READ_REG: values in order, 8 bytes each. -/
def readRegFx (r : MgmtReq) (addrs : List (BitVec 48)) : Blk → Blk :=
  authRequest 0x01 false r fun b =>
    let a := r.auth.toNat
    let id := r.requestId.toNat
    if addrs = [] ∨ 64 < addrs.length then b.mgmtReject 0x01 a id 4 []
    else
      let x := addrs.foldl (fun (x : List Nat × List Byte × Blk) ad =>
        let v := x.2.2.regRead .management ad.toNat 8
        (x.1 ++ [v.1], x.2.1 ++ leBytes 8 v.2.1, v.2.2)) ([], [], b)
      x.2.2.mgmtReply a id (replyStatus x.1) x.2.1

/-- WRITE_REG: writes applied in order; the reply carries each access's status. -/
def writeRegFx (r : MgmtReq) (pairs : List (BitVec 48 × BitVec 64)) : Blk → Blk :=
  authRequest 0x02 false r fun b =>
    let a := r.auth.toNat
    let id := r.requestId.toNat
    if pairs = [] ∨ 64 < pairs.length then b.mgmtReject 0x02 a id 4 []
    else
      let x := b.regWrites false .management (pairs.map fun q => (q.1.toNat, q.2.toNat))
      x.2.mgmtReply a id (replyStatus x.1) (x.1.map fun st => BitVec.ofNat 8 st)

/-- READ_MEM: a word-aligned range of up to 65,536 bytes. -/
def readMemFx (r : MgmtReq) (addr len : Nat) : Blk → Blk :=
  authRequest 0x03 false r fun b =>
    let a := r.auth.toNat
    let id := r.requestId.toNat
    if addr % 32 ≠ 0 ∨ len % 32 ≠ 0 ∨ len = 0 ∨ 65536 < len then b.mgmtReject 0x03 a id 4 []
    else if b.dstate ≤ stStandby then b.mgmtReject 0x03 a id 3 []
    else
      let ws := b.readMem addr (len / 32) 0 uMgmt
      ws.2.mgmtReply a id 0 (ws.1.flatMap fun w => leBytes 32 w.data.toNat)

/-! ### Time of day, start, power limit (R341, R260, R344) -/

/-- TIME_OF_DAY: only in SYNC, at a module with root_enable; a time before the machine's epoch names none. -/
def timeOfDayFx (r : MgmtReq) (tai : Nat) (pps : Bool) : Blk → Blk :=
  authRequest 0x07 false r fun b =>
    let a := r.auth.toNat
    let id := r.requestId.toNat
    let epoch := b.rd MTC_EPOCH.tai_s * 1000000000
    if b.dstate ≠ stSync ∨ ¬b.on MTC_CTRL.root_enable then b.mgmtReject 0x07 a id 3 []
    else if tai < epoch then b.mgmtReject 0x07 a id 4 []
    else
      let b := b.mgmtReply a id 0 []
      if pps then b.updTime fun t => { t with pendingTod := some (tai - epoch) } else b.todStep (tai - epoch)

/-- START: STANDBY to BOOT. -/
def startFx (r : MgmtReq) : Blk → Blk :=
  authRequest 0x08 false r fun b =>
    let a := r.auth.toNat
    let id := r.requestId.toNat
    if b.mayStart then (b.mgmtReply a id 0 []).startBoot else b.mgmtReject 0x08 a id 3 []

/-- POWER_LIMIT: a write of PWR_LIMIT.limit_w on the management path, held as written and capped at use (R350). -/
def powerLimitFx (r : MgmtReq) (watts : Nat) : Blk → Blk :=
  authRequest 0x09 false r fun b =>
    let a := r.auth.toNat
    let id := r.requestId.toNat
    let v := setBits (b.reg .pwrLimit) 0 16 (satur 16 watts)
    let x := b.regWrite false .management (Reg.addr .pwrLimit) 8 v
    if x.1 = stDone then x.2.mgmtReply a id 0 [] else b.mgmtReject 0x09 a id 3 []

/-! ### ICMPv6 (R337) -/

/-- The module's address: MGMT_ADDR, or the one derived from the fingerprint. -/
def Blk.mgmtAddr (b : Blk) : BitVec 128 :=
  let a := b.rd (MGMT_ADDR.addr 0) + b.rd (MGMT_ADDR.addr 1) * 2 ^ 64
  BitVec.ofNat 128 (if a = 0 then b.rd (SEC_FPR.fpr 0) + 0xFE80 * 2 ^ 112 else a)

def icmpFx (m : Icmp) (b : Blk) : Blk :=
  if b.dstate = stOff then b
  else match m with
    | .neighbourSolicit t => if t = b.mgmtAddr then b.emit (.neighbourAdvert t) else b
    | .echoRequest d i n x => if d = b.mgmtAddr then b.emit (.echoReply i n x) else b

/-! ### I3C (R343) -/

/-- I3C_ENTDAA: the provisioned ID is shown, and the dynamic address taken. -/
def entdaaFx (addr : BitVec 7) (b : Blk) : Blk :=
  if b.dstate = stOff then b
  else (b.updMgmt fun m => { m with i3cAddr := some addr.toNat }).emit (.i3c (leBytes 6 (b.fpr % 2 ^ 48)))

/-- The map's 64 bytes. Voltage and current stand in no register, and the map leaves gaps: `free` fills those (log entry 9). -/
def Blk.i3cMap (b : Blk) (free : Word) : List Byte :=
  let gap (n o : Nat) : List Byte := leBytes n (bits free.toNat (8 * o) (8 * n))
  leBytes 2 (b.rd GLB_PART.subsystem) ++ leBytes 1 (b.rd GLB_PART.stepping) ++ leBytes 3 (b.reg .ctlState % 2 ^ 12)
    ++ gap 2 0 ++ gap 2 3 ++ gap 2 5 ++ leBytes 2 (b.rd PWR_TELEM.input_w) ++ leBytes 2 (b.rd PWR_TELEM.inlet)
    ++ leBytes 2 (b.rd PWR_THERM_STAT.hottest) ++ leBytes 2 (b.rd PWR_LIMIT.in_force_w) ++ gap 12 7 ++ leBytes 32 b.fpr

/-- I3C_PRIVATE_READ: bytes of the map from an offset; what lies past it is free. -/
def i3cReadFx (off n : Nat) (b : Blk) : Blk :=
  if b.dstate = stOff ∨ b.mgmt.i3cAddr.isNone then b
  else
    let f := b.fresh
    let m := b.i3cMap f.1
    let past (i : Nat) : Byte := BitVec.ofNat 8 (bits f.1.toNat (160 + i % 12 * 8) 8)
    f.2.emit (.i3c ((List.range n).map fun i => (m[off + i]?).getD (past (off + i))))

/-- I3C_PRIVATE_WRITE is ignored. -/
def i3cWriteFx (b : Blk) : Blk := b

def execMgmtSegment (x : Segment) (s : State) := onBlk s (mgmtSegmentFx x)
def execMgmtPacket (x : RawPacket) (s : State) := onBlk s (mgmtPacketFx x)
def execMgmtReassemblyTimeout (a : BitVec 128) (i : BitVec 64) (s : State) := onBlk s (reassemblyFx a i)
def execReadReg (r : MgmtReq) (l : List (BitVec 48)) (s : State) := onBlk s (readRegFx r l)
def execWriteReg (r : MgmtReq) (l : List (BitVec 48 × BitVec 64)) (s : State) := onBlk s (writeRegFx r l)
def execReadMem (r : MgmtReq) (a : BitVec 48) (n : BitVec 32) (s : State) := onBlk s (readMemFx r a.toNat n.toNat)
def execTimeOfDay (r : MgmtReq) (t : BitVec 64) (p : Bool) (s : State) := onBlk s (timeOfDayFx r t.toNat p)
def execStart (r : MgmtReq) (s : State) := onBlk s (startFx r)
def execPowerLimit (r : MgmtReq) (w : BitVec 32) (s : State) := onBlk s (powerLimitFx r w.toNat)
def execIcmpv6Message (m : Icmp) (s : State) := onBlk s (icmpFx m)
def execI3cEntdaa (a : BitVec 7) (s : State) := onBlk s (entdaaFx a)
def execI3cPrivateRead (o n : Nat) (s : State) := onBlk s (i3cReadFx o n)
def execI3cPrivateWrite (_o : Nat) (_l : List Byte) (s : State) := onBlk s i3cWriteFx

end Sys2Proof.Machine
end

