-- ==== Sys2Proof/Machine/Dispatch.lean ====
section
/-!
DEFINITION. The meaning of every command: one arm per row of the table, one direct call each.
-/
namespace Sys2Proof.Machine

def exec (i : Instr) (s : State) : Host.Outcome State Fault Refusal :=
  match i with
  | .registerWrite x0 => Sys2Proof.Machine.execRegisterWrite x0 s
  | .mtcNowRead x0 => Sys2Proof.Machine.execMtcNowRead x0 s
  | .controlLawUpdate => Sys2Proof.Machine.execControlLawUpdate s
  | .oscillatorCheck x0 => Sys2Proof.Machine.execOscillatorCheck x0 s
  | .timestampReceive x0 x1 => Sys2Proof.Machine.execTimestampReceive x0 x1 s
  | .ppsEdge x0 => Sys2Proof.Machine.execPpsEdge x0 s
  | .ppsLossTimeout => Sys2Proof.Machine.execPpsLossTimeout s
  | .backupRootTakeover => Sys2Proof.Machine.execBackupRootTakeover s
  | .anchorRelease => Sys2Proof.Machine.execAnchorRelease s
  | .schedEntryWrite x0 x1 x2 => Sys2Proof.Machine.execSchedEntryWrite x0 x1 x2 s
  | .flip => Sys2Proof.Machine.execFlip s
  | .epochSwitch => Sys2Proof.Machine.execEpochSwitch s
  | .modeChange => Sys2Proof.Machine.execModeChange s
  | .modeChangeComplete => Sys2Proof.Machine.execModeChangeComplete s
  | .jobStart => Sys2Proof.Machine.execJobStart s
  | .selftestWindowOpen => Sys2Proof.Machine.execSelftestWindowOpen s
  | .selftestWindowClose => Sys2Proof.Machine.execSelftestWindowClose s
  | .nop x0 => Sys2Proof.Machine.execNop x0 s
  | .waitc x0 x1 => Sys2Proof.Machine.execWaitc x0 x1 s
  | .anchor x0 => Sys2Proof.Machine.execAnchor x0 s
  | .waitq x0 x1 x2 x3 => Sys2Proof.Machine.execWaitq x0 x1 x2 x3 s
  | .loop x0 x1 x2 => Sys2Proof.Machine.execLoop x0 x1 x2 s
  | .brb x0 x1 x2 x3 x4 => Sys2Proof.Machine.execBrb x0 x1 x2 x3 x4 s
  | .csel x0 x1 => Sys2Proof.Machine.execCsel x0 x1 s
  | .vote x0 x1 x2 => Sys2Proof.Machine.execVote x0 x1 x2 s
  | .sloop x0 x1 x2 => Sys2Proof.Machine.execSloop x0 x1 x2 s
  | .sli x0 x1 => Sys2Proof.Machine.execSli x0 x1 s
  | .sadd x0 x1 => Sys2Proof.Machine.execSadd x0 x1 s
  | .ssub x0 x1 => Sys2Proof.Machine.execSsub x0 x1 s
  | .smul x0 x1 => Sys2Proof.Machine.execSmul x0 x1 s
  | .sand x0 x1 => Sys2Proof.Machine.execSand x0 x1 s
  | .sor x0 x1 => Sys2Proof.Machine.execSor x0 x1 s
  | .sxor x0 x1 => Sys2Proof.Machine.execSxor x0 x1 s
  | .sshl x0 x1 => Sys2Proof.Machine.execSshl x0 x1 s
  | .sshr x0 x1 => Sys2Proof.Machine.execSshr x0 x1 s
  | .ssra x0 x1 => Sys2Proof.Machine.execSsra x0 x1 s
  | .smin x0 x1 => Sys2Proof.Machine.execSmin x0 x1 s
  | .smax x0 x1 => Sys2Proof.Machine.execSmax x0 x1 s
  | .scmp x0 x1 => Sys2Proof.Machine.execScmp x0 x1 s
  | .plog x0 x1 => Sys2Proof.Machine.execPlog x0 x1 s
  | .mop x0 x1 => Sys2Proof.Machine.execMop x0 x1 s
  | .matrixOpComplete x0 => Sys2Proof.Machine.execMatrixOpComplete x0 s
  | .mbal x0 x1 => Sys2Proof.Machine.execMbal x0 x1 s
  | .vfp x0 x1 => Sys2Proof.Machine.execVfp x0 x1 s
  | .vfpd x0 x1 => Sys2Proof.Machine.execVfpd x0 x1 s
  | .vint x0 x1 => Sys2Proof.Machine.execVint x0 x1 s
  | .vcmp x0 x1 => Sys2Proof.Machine.execVcmp x0 x1 s
  | .vcvt x0 x1 => Sys2Proof.Machine.execVcvt x0 x1 s
  | .vfn x0 x1 => Sys2Proof.Machine.execVfn x0 x1 s
  | .vmove x0 x1 => Sys2Proof.Machine.execVmove x0 x1 s
  | .vred x0 x1 => Sys2Proof.Machine.execVred x0 x1 s
  | .vld x0 x1 => Sys2Proof.Machine.execVld x0 x1 s
  | .vst x0 x1 => Sys2Proof.Machine.execVst x0 x1 s
  | .vstr x0 x1 => Sys2Proof.Machine.execVstr x0 x1 s
  | .vrand x0 x1 => Sys2Proof.Machine.execVrand x0 x1 s
  | .vclrf x0 x1 => Sys2Proof.Machine.execVclrf x0 x1 s
  | .setvl x0 x1 => Sys2Proof.Machine.execSetvl x0 x1 s
  | .kop x0 x1 => Sys2Proof.Machine.execKop x0 x1 s
  | .nxfer x0 x1 => Sys2Proof.Machine.execNxfer x0 x1 s
  | .dma x0 x1 => Sys2Proof.Machine.execDma x0 x1 s
  | .dmaComplete x0 => Sys2Proof.Machine.execDmaComplete x0 s
  | .gstart x0 x1 => Sys2Proof.Machine.execGstart x0 x1 s
  | .coll x0 x1 => Sys2Proof.Machine.execColl x0 x1 s
  | .pref x0 x1 => Sys2Proof.Machine.execPref x0 x1 s
  | .instructionFetchFault x0 => Sys2Proof.Machine.execInstructionFetchFault x0 s
  | .contextSwapComplete x0 x1 => Sys2Proof.Machine.execContextSwapComplete x0 x1 s
  | .icacheFillComplete x0 x1 => Sys2Proof.Machine.execIcacheFillComplete x0 x1 s
  | .seqPerfClear x0 x1 x2 => Sys2Proof.Machine.execSeqPerfClear x0 x1 x2 s
  | .conversionReport => Sys2Proof.Machine.execConversionReport s
  | .pendingSetLatch => Sys2Proof.Machine.execPendingSetLatch s
  | .scaleRebuildStop x0 => Sys2Proof.Machine.execScaleRebuildStop x0 s
  | .numEntryCfgWrite x0 x1 => Sys2Proof.Machine.execNumEntryCfgWrite x0 x1 s
  | .regionWriteComplete x0 x1 => Sys2Proof.Machine.execRegionWriteComplete x0 x1 s
  | .gatherRequestIssue x0 x1 => Sys2Proof.Machine.execGatherRequestIssue x0 x1 s
  | .gatherElementReturn x0 x1 x2 => Sys2Proof.Machine.execGatherElementReturn x0 x1 x2 s
  | .gatherRemoteTimeout x0 x1 x2 => Sys2Proof.Machine.execGatherRemoteTimeout x0 x1 x2 s
  | .ncacheLookup x0 x1 x2 => Sys2Proof.Machine.execNcacheLookup x0 x1 x2 s
  | .ncacheFillComplete x0 x1 => Sys2Proof.Machine.execNcacheFillComplete x0 x1 s
  | .ncacheFlush x0 x1 => Sys2Proof.Machine.execNcacheFlush x0 x1 s
  | .idleCalendarSlot => Sys2Proof.Machine.execIdleCalendarSlot s
  | .memoryRequest x0 => Sys2Proof.Machine.execMemoryRequest x0 s
  | .windowClose x0 => Sys2Proof.Machine.execWindowClose x0 s
  | .refreshSlot x0 => Sys2Proof.Machine.execRefreshSlot x0 s
  | .channelMigrationStart x0 x1 x2 => Sys2Proof.Machine.execChannelMigrationStart x0 x1 x2 s
  | .channelMigrationComplete x0 => Sys2Proof.Machine.execChannelMigrationComplete x0 s
  | .eccRepairRewrite x0 => Sys2Proof.Machine.execEccRepairRewrite x0 s
  | .linkWordSend x0 => Sys2Proof.Machine.execLinkWordSend x0 s
  | .takeover x0 x1 x2 => Sys2Proof.Machine.execTakeover x0 x1 x2 s
  | .portTakeover x0 => Sys2Proof.Machine.execPortTakeover x0 s
  | .spareRequest x0 x1 x2 => Sys2Proof.Machine.execSpareRequest x0 x1 x2 s
  | .spareAcknowledge x0 x1 x2 x3 => Sys2Proof.Machine.execSpareAcknowledge x0 x1 x2 x3 s
  | .laneSpareSwitch x0 => Sys2Proof.Machine.execLaneSpareSwitch x0 s
  | .laneFailure x0 x1 x2 x3 => Sys2Proof.Machine.execLaneFailure x0 x1 x2 x3 s
  | .portCtrlEnterCalm x0 x1 => Sys2Proof.Machine.execPortCtrlEnterCalm x0 x1 s
  | .portCtrlLeaveCalm x0 x1 => Sys2Proof.Machine.execPortCtrlLeaveCalm x0 x1 s
  | .portCtrlHalveWidth x0 x1 => Sys2Proof.Machine.execPortCtrlHalveWidth x0 x1 s
  | .portCtrlActionInstant x0 => Sys2Proof.Machine.execPortCtrlActionInstant x0 s
  | .epochMark x0 x1 x2 => Sys2Proof.Machine.execEpochMark x0 x1 x2 s
  | .epochBankRelease x0 => Sys2Proof.Machine.execEpochBankRelease x0 s
  | .epochShadowReady x0 x1 => Sys2Proof.Machine.execEpochShadowReady x0 x1 s
  | .hello x0 x1 => Sys2Proof.Machine.execHello x0 x1 s
  | .creditAck x0 x1 => Sys2Proof.Machine.execCreditAck x0 x1 s
  | .nak x0 x1 => Sys2Proof.Machine.execNak x0 x1 s
  | .uncorrectableLinkWord x0 => Sys2Proof.Machine.execUncorrectableLinkWord x0 s
  | .outageEnd x0 => Sys2Proof.Machine.execOutageEnd x0 s
  | .outageLimitExpiry x0 x1 => Sys2Proof.Machine.execOutageLimitExpiry x0 x1 s
  | .portEnable x0 x1 => Sys2Proof.Machine.execPortEnable x0 x1 s
  | .portDisable x0 x1 => Sys2Proof.Machine.execPortDisable x0 x1 s
  | .portRetrain x0 x1 => Sys2Proof.Machine.execPortRetrain x0 x1 s
  | .cableMate x0 => Sys2Proof.Machine.execCableMate x0 s
  | .cableUnmate x0 => Sys2Proof.Machine.execCableUnmate x0 s
  | .cableOvercurrent x0 => Sys2Proof.Machine.execCableOvercurrent x0 s
  | .farEndSignal x0 => Sys2Proof.Machine.execFarEndSignal x0 s
  | .trainingLock x0 x1 => Sys2Proof.Machine.execTrainingLock x0 x1 s
  | .trainingLockTimeout x0 => Sys2Proof.Machine.execTrainingLockTimeout x0 s
  | .trainingSettleTimeout x0 => Sys2Proof.Machine.execTrainingSettleTimeout x0 s
  | .packetSend x0 x1 => Sys2Proof.Machine.execPacketSend x0 x1 s
  | .packetRoute x0 x1 x2 => Sys2Proof.Machine.execPacketRoute x0 x1 x2 s
  | .writePacket x0 => Sys2Proof.Machine.execWritePacket x0 s
  | .readReq x0 => Sys2Proof.Machine.execReadReq x0 s
  | .readResp x0 => Sys2Proof.Machine.execReadResp x0 s
  | .collData x0 => Sys2Proof.Machine.execCollData x0 s
  | .collSignal x0 => Sys2Proof.Machine.execCollSignal x0 s
  | .collectiveComplete x0 => Sys2Proof.Machine.execCollectiveComplete x0 s
  | .collectiveDeadlineExpiry x0 => Sys2Proof.Machine.execCollectiveDeadlineExpiry x0 s
  | .ctrlPacket x0 => Sys2Proof.Machine.execCtrlPacket x0 s
  | .outcomeQuery x0 x1 x2 => Sys2Proof.Machine.execOutcomeQuery x0 x1 x2 s
  | .outcomeAnswer x0 x1 x2 x3 => Sys2Proof.Machine.execOutcomeAnswer x0 x1 x2 x3 s
  | .outcomeQuerySend => Sys2Proof.Machine.execOutcomeQuerySend s
  | .lineNotice x0 x1 x2 x3 => Sys2Proof.Machine.execLineNotice x0 x1 x2 x3 s
  | .votePacket x0 x1 => Sys2Proof.Machine.execVotePacket x0 x1 s
  | .mgmtPacket x0 => Sys2Proof.Machine.execMgmtPacket x0 s
  | .authChallenge x0 x1 x2 => Sys2Proof.Machine.execAuthChallenge x0 x1 x2 s
  | .authResponse x0 x1 x2 x3 => Sys2Proof.Machine.execAuthResponse x0 x1 x2 x3 s
  | .authRetryTimeout x0 => Sys2Proof.Machine.execAuthRetryTimeout x0 s
  | .authTimeout x0 => Sys2Proof.Machine.execAuthTimeout x0 s
  | .echo x0 x1 => Sys2Proof.Machine.execEcho x0 x1 s
  | .headwindRecovery x0 => Sys2Proof.Machine.execHeadwindRecovery x0 s
  | .powerInputGood => Sys2Proof.Machine.execPowerInputGood s
  | .powerInputLost => Sys2Proof.Machine.execPowerInputLost s
  | .holdRelease => Sys2Proof.Machine.execHoldRelease s
  | .bootComplete x0 => Sys2Proof.Machine.execBootComplete x0 s
  | .postComplete x0 => Sys2Proof.Machine.execPostComplete x0 s
  | .trainComplete x0 => Sys2Proof.Machine.execTrainComplete x0 s
  | .discoveryTimeout => Sys2Proof.Machine.execDiscoveryTimeout s
  | .discoverExit => Sys2Proof.Machine.execDiscoverExit s
  | .syncExit => Sys2Proof.Machine.execSyncExit s
  | .drainStateExit => Sys2Proof.Machine.execDrainStateExit s
  | .command x0 x1 => Sys2Proof.Machine.execCommand x0 x1 s
  | .arm => Sys2Proof.Machine.execArm s
  | .stop => Sys2Proof.Machine.execStop s
  | .fenceCore => Sys2Proof.Machine.execFenceCore s
  | .fenceGather => Sys2Proof.Machine.execFenceGather s
  | .fencePort => Sys2Proof.Machine.execFencePort s
  | .fenceCollChannel => Sys2Proof.Machine.execFenceCollChannel s
  | .fenceGuest => Sys2Proof.Machine.execFenceGuest s
  | .fenceCxl => Sys2Proof.Machine.execFenceCxl s
  | .fenceMemChannel => Sys2Proof.Machine.execFenceMemChannel s
  | .releaseCore x0 => Sys2Proof.Machine.execReleaseCore x0 s
  | .releaseGather => Sys2Proof.Machine.execReleaseGather s
  | .releasePort => Sys2Proof.Machine.execReleasePort s
  | .releaseCollChannel => Sys2Proof.Machine.execReleaseCollChannel s
  | .releaseGuest => Sys2Proof.Machine.execReleaseGuest s
  | .releaseCxl => Sys2Proof.Machine.execReleaseCxl s
  | .releaseMemChannel => Sys2Proof.Machine.execReleaseMemChannel s
  | .expel => Sys2Proof.Machine.execExpel s
  | .replan => Sys2Proof.Machine.execReplan s
  | .firmwareInstall x0 x1 => Sys2Proof.Machine.execFirmwareInstall x0 x1 s
  | .injectionUnlock => Sys2Proof.Machine.execInjectionUnlock s
  | .rwqWrite => Sys2Proof.Machine.execRwqWrite s
  | .debugUnlockQuorum x0 => Sys2Proof.Machine.execDebugUnlockQuorum x0 s
  | .debugCertSubmit x0 => Sys2Proof.Machine.execDebugCertSubmit x0 s
  | .debugRelock x0 => Sys2Proof.Machine.execDebugRelock x0 s
  | .debugUnlockExpiry => Sys2Proof.Machine.execDebugUnlockExpiry s
  | .unitTestStart x0 => Sys2Proof.Machine.execUnitTestStart x0 s
  | .unitTestComplete x0 x1 => Sys2Proof.Machine.execUnitTestComplete x0 x1 s
  | .fenceCopyComplete x0 => Sys2Proof.Machine.execFenceCopyComplete x0 s
  | .drainComplete x0 x1 => Sys2Proof.Machine.execDrainComplete x0 x1 s
  | .drainTimeout x0 x1 => Sys2Proof.Machine.execDrainTimeout x0 x1 s
  | .ctlCoreWatchdog x0 x1 => Sys2Proof.Machine.execCtlCoreWatchdog x0 x1 s
  | .hubWatchdogExpiry => Sys2Proof.Machine.execHubWatchdogExpiry s
  | .hubCtlFatal => Sys2Proof.Machine.execHubCtlFatal s
  | .warmReset => Sys2Proof.Machine.execWarmReset s
  | .coldReset => Sys2Proof.Machine.execColdReset s
  | .regulatorPhaseFail x0 x1 => Sys2Proof.Machine.execRegulatorPhaseFail x0 x1 s
  | .eventRecordCommit => Sys2Proof.Machine.execEventRecordCommit s
  | .eventCoalesceFlush => Sys2Proof.Machine.execEventCoalesceFlush s
  | .eventRingRead x0 x1 x2 => Sys2Proof.Machine.execEventRingRead x0 x1 x2 s
  | .statusMessage => Sys2Proof.Machine.execStatusMessage s
  | .injectionArm x0 x1 x2 => Sys2Proof.Machine.execInjectionArm x0 x1 x2 s
  | .maintenanceExpiry => Sys2Proof.Machine.execMaintenanceExpiry s
  | .attest x0 x1 => Sys2Proof.Machine.execAttest x0 x1 s
  | .guestTransaction x0 => Sys2Proof.Machine.execGuestTransaction x0 s
  | .guestAdmit => Sys2Proof.Machine.execGuestAdmit s
  | .hostMemRequest x0 => Sys2Proof.Machine.execHostMemRequest x0 s
  | .hostRequestServe x0 => Sys2Proof.Machine.execHostRequestServe x0 s
  | .hostHoldExpiry => Sys2Proof.Machine.execHostHoldExpiry s
  | .identifyMemoryDevice => Sys2Proof.Machine.execIdentifyMemoryDevice s
  | .getSupportedLogs => Sys2Proof.Machine.execGetSupportedLogs s
  | .getLog x0 x1 x2 => Sys2Proof.Machine.execGetLog x0 x1 x2 s
  | .getHealthInfo => Sys2Proof.Machine.execGetHealthInfo s
  | .mailboxUnsupported x0 => Sys2Proof.Machine.execMailboxUnsupported x0 s
  | .cdatDoeRequest x0 => Sys2Proof.Machine.execCdatDoeRequest x0 s
  | .perstAssert => Sys2Proof.Machine.execPerstAssert s
  | .perstDeassert => Sys2Proof.Machine.execPerstDeassert s
  | .cxlLinkChange x0 x1 x2 => Sys2Proof.Machine.execCxlLinkChange x0 x1 x2 s
  | .pullRingStart x0 x1 => Sys2Proof.Machine.execPullRingStart x0 x1 s
  | .pullRingResume x0 => Sys2Proof.Machine.execPullRingResume x0 s
  | .pullDescriptorComplete x0 x1 => Sys2Proof.Machine.execPullDescriptorComplete x0 x1 s
  | .pullCompletionTimeout => Sys2Proof.Machine.execPullCompletionTimeout s
  | .msixSend x0 => Sys2Proof.Machine.execMsixSend x0 s
  | .mgmtSegment x0 => Sys2Proof.Machine.execMgmtSegment x0 s
  | .mgmtReassemblyTimeout x0 x1 => Sys2Proof.Machine.execMgmtReassemblyTimeout x0 x1 s
  | .readReg x0 x1 => Sys2Proof.Machine.execReadReg x0 x1 s
  | .writeReg x0 x1 => Sys2Proof.Machine.execWriteReg x0 x1 s
  | .readMem x0 x1 x2 => Sys2Proof.Machine.execReadMem x0 x1 x2 s
  | .loadChunk x0 x1 x2 x3 => Sys2Proof.Machine.execLoadChunk x0 x1 x2 x3 s
  | .loadCommit x0 x1 x2 => Sys2Proof.Machine.execLoadCommit x0 x1 x2 s
  | .recoveryWriteComplete x0 => Sys2Proof.Machine.execRecoveryWriteComplete x0 s
  | .timeOfDay x0 x1 x2 => Sys2Proof.Machine.execTimeOfDay x0 x1 x2 s
  | .start x0 => Sys2Proof.Machine.execStart x0 s
  | .powerLimit x0 x1 => Sys2Proof.Machine.execPowerLimit x0 x1 s
  | .i3cEntdaa x0 => Sys2Proof.Machine.execI3cEntdaa x0 s
  | .i3cPrivateRead x0 x1 => Sys2Proof.Machine.execI3cPrivateRead x0 x1 s
  | .i3cPrivateWrite x0 x1 => Sys2Proof.Machine.execI3cPrivateWrite x0 x1 s
  | .thermalSample x0 => Sys2Proof.Machine.execThermalSample x0 s
  | .thermalTrip x0 x1 x2 => Sys2Proof.Machine.execThermalTrip x0 x1 x2 s
  | .tripSettle => Sys2Proof.Machine.execTripSettle s
  | .powerCalibration x0 => Sys2Proof.Machine.execPowerCalibration x0 s
  | .avsAdjust x0 x1 x2 => Sys2Proof.Machine.execAvsAdjust x0 x1 x2 s
  | .regulatorPoll x0 x1 x2 x3 => Sys2Proof.Machine.execRegulatorPoll x0 x1 x2 x3 s
  | .perfClear x0 x1 x2 => Sys2Proof.Machine.execPerfClear x0 x1 x2 s
  | .perfSelWrite x0 x1 x2 x3 => Sys2Proof.Machine.execPerfSelWrite x0 x1 x2 x3 s
  | .warmRstNRelease => Sys2Proof.Machine.execWarmRstNRelease s
  | .coldRstNRelease => Sys2Proof.Machine.execColdRstNRelease s
  | .tripSensorsClear x0 => Sys2Proof.Machine.execTripSensorsClear x0 s
  | .scaleRebuildComplete => Sys2Proof.Machine.execScaleRebuildComplete s
  | .hdmDecoderCommit x0 => Sys2Proof.Machine.execHdmDecoderCommit x0 s
  | .icmpv6Message x0 => Sys2Proof.Machine.execIcmpv6Message x0 s
  | .debugTapInstruction x0 => Sys2Proof.Machine.execDebugTapInstruction x0 s

end Sys2Proof.Machine
end

