-- ==== Sys2Proof/Machine/Step.lean ====
section
/-!
DEFINITION. One step: the command at the front of the queue runs on the rest of the queue; on an empty queue one 1 GHz
tick of machine time passes, and the control cluster writes the image's entries whose time has come (log entry 4).
-/
namespace Sys2Proof.Machine

def step (s : State) : Host.Outcome State Fault Refusal :=
  match s.pending with
  | [] => onBlk s Blk.passTime
  | c :: rest => exec c { s with pending := rest }

/-- `s` with the command that a table word spells at the front of its queue (the table gives its rows no bits). -/
def State.withFetchWord (s : State) (nbits w : Nat) : State :=
  match Sys2Proof.decodeTableWord nbits w with
  | some c => { s with pending := c :: s.pending }
  | none => s

end Sys2Proof.Machine
end

