-- ==== Sys2Proof/Safety.lean ====
section
/-!
DEFINITION. What counts as a safe state: the stores of the block are in their canonical form, so that equal stores are
equal data.
-/
namespace Sys2Proof.Safety
open Sys2Proof.Machine

/-- The byte memory lists its bytes at strictly rising places, and lists no zero (an unlisted byte reads zero). -/
def memWf (b : Blk) : Bool := Sp.wf 0 b.mem

/-- The configuration memory lists its bytes at strictly rising offsets, and lists no erased byte. -/
def flashWf (b : Blk) : Bool := Sp.wf 0xFF b.flash

end Sys2Proof.Safety
end

