-- ==== Sys2Proof/Certificates/Slice0/Obligations.lean ====
section
/-!
DEFINITION. The statements for the provers. `Says.Does c s P`: command `c` answers a next state at `s`, with the queue as it is
and a block that satisfies `P`. Where a statement gives the new block as the old one with some parts replaced by their own new
value, all other parts of the state are unchanged.
-/
open Sys2Proof Sys2Proof.Machine

namespace Sys2Proof.Says

/-- Command `c` runs at `s`: it answers a next state with the same queue, whose block satisfies `P`. -/
def Does (c : Instr) (s : State) (P : Blk → Prop) : Prop := ∃ b : Blk, exec c s = .next { s with blk := b } ∧ P b

/-- Every register outside the list reads as before. -/
def RegsKeep (l : List Reg) (b b' : Blk) : Prop := ∀ r : Reg, r.addr ∉ l.map Reg.addr → b'.reg r = b.reg r

/-! ### Core sequencer -/

/-- The core of `i` may issue, and no armed injection poisons the word it fetches (R138, R161, R302). -/
def CanIssue (i : Issue) (b : Blk) : Prop :=
  b.issuing (coreKey i.core) = true ∧ (b.fireFetch (coreKey i.core)).1 = false

/-- The guard of `i` holds (R143). -/
def GuardHolds (i : Issue) (b : Blk) : Prop := b.guardOn (coreKey i.core) i.guard = true

/-- The instruction counters of core `k` after one more issue (R165): held while frozen. -/
def Counted (k : Nat) (b b' : Blk) : Prop :=
  b'.rd (SEQ_ISSUED.count (k / 32) (k % 32)) =
    if b.on (SEQ_PERF_CTRL.freeze (k / 32) (k % 32)) then b.rd (SEQ_ISSUED.count (k / 32) (k % 32))
    else (b.rd (SEQ_ISSUED.count (k / 32) (k % 32)) + 1) % 2 ^ 48

/-- `b'` is `b` after core `k` has issued one instruction that turns the core into `c`, all of it but its counters: every
other core, every register but SEQ_STATUS, SEQ_ISSUED, the issue cycles of SEQ_STALL and those listed, and every other part of
the state but the model's own counter of free values (log entry 9) are as before. -/
def Core (k : Nat) (regs : List Reg) (c : CoreSt) (b b' : Blk) : Prop :=
  b'.core k = c ∧ Counted k b b' ∧ (∀ j, j ≠ k → b'.core j = b.core j)
    ∧ RegsKeep ([.seqStatus (k / 32) (k % 32), .seqIssued (k / 32) (k % 32), .seqStall (k / 32) (k % 32) 0 0] ++ regs) b b'
    ∧ b' = { b with regs := b'.regs, cores := b'.cores, freeCtr := b'.freeCtr }

/-- `Core`, for an instruction that costs `cost` cycles and changes the core by `f`: control moves to the next instruction,
closing the loops and arms that end there (R147, R148). -/
def Issued (k cost : Nat) (regs : List Reg) (f : CoreSt → CoreSt) (b b' : Blk) : Prop :=
  let c := b.core k
  let r := closeAt 16 c.loops c.brs (b.pc k + 1)
  Core k regs { f c with cyc := c.cyc + cost, loops := r.1, brs := r.2.1 } b b' ∧ b'.pc k = r.2.2 % 2 ^ 11
    ∧ b'.seqState k = b.seqState k

/-- The scalar instruction `mk` writes `v`, of its first source and its second operand, to Sd of the active context: S0 discards
it, a write replaces the poison of Sd, and the other slot, the vector registers and everything outside the core stay. -/
def ScalarOp (mk : Issue → SOp → Instr) (v : SOp → Quad → Quad → Quad) : Prop :=
  ∀ (i : Issue) (o : SOp) (s : State), CanIssue i s.blk → GuardHolds i s.blk →
    Does (mk i o) s fun b =>
      let k := coreKey i.core
      let c := s.blk.ctx k
      Issued k 1 [] (fun x => x.updCtx (s.blk.slot k) fun _ => (b.ctx k)) s.blk b
        ∧ (o.d ≠ 0 → (b.ctx k).getS o.d.toNat = v o (c.getS o.a.toNat) (if o.immSel then o.imm else c.getS o.b.toNat))
        ∧ (b.ctx k).getS 0 = 0
        ∧ (∀ n, n ≠ o.d.toNat → (b.ctx k).getS n = c.getS n)
        ∧ b.ctx k = { c with s := (b.ctx k).s, sPoison := (b.ctx k).sPoison }

/-- The predicate instruction `mk` writes `v` to Pd of the active context; P0 discards it (R138). -/
def PredOp (mk : Issue → POp → Instr) (ok : POp → Bool) (v : POp → Ctx → Bool) : Prop :=
  ∀ (i : Issue) (o : POp) (s : State), CanIssue i s.blk → GuardHolds i s.blk → ok o = true →
    Does (mk i o) s fun b =>
      let k := coreKey i.core
      let c := s.blk.ctx k
      Issued k 1 [] (fun x => x.updCtx (s.blk.slot k) fun _ => (b.ctx k)) s.blk b
        ∧ (o.pd ≠ 0 → (b.ctx k).getP o.pd.toNat = v o c)
        ∧ (b.ctx k).getP 0 = true
        ∧ (∀ n, n ≠ o.pd.toNat → (b.ctx k).getP n = c.getP n)
        ∧ b.ctx k = { c with p := (b.ctx k).p, pPoison := (b.ctx k).pPoison }

/-- R140's conditions, by code. -/
def scmpHolds (cond : Nat) (x y : Quad) : Bool :=
  match cond with
  | 0 => x = y
  | 1 => x ≠ y
  | 2 => x.toInt < y.toInt
  | 3 => x.toInt ≤ y.toInt
  | 4 => x.toNat < y.toNat
  | _ => x.toNat ≤ y.toNat

/-- R142's PLOG functions, by code. -/
def plogOf (f : Nat) (x y : Bool) : Bool :=
  match f with
  | 0 => x && y
  | 1 => x || y
  | 2 => x != y
  | _ => !x

/-- An event record of code `code` from unit `unit` of die `die` has been detected now, and nothing else (R294). -/
def Raised (die unit code detail : Nat) (b b' : Blk) : Prop :=
  ∃ ctx, b'.ev = { b.ev with held := b.ev.held ++ [⟨b.now, die, unit, code, severity code, ctx, detail % 2 ^ 152⟩] }

/-- Core `k` has stopped under R161: EV_IMAGE_INVALID with check 0x02, the first fault recorded, the vote fail; no other core,
no memory and no other register changes. -/
def Stopped (k : Nat) (b b' : Blk) : Prop :=
  let cd := k / 32
  let s := k % 32
  b'.seqState k = 5 ∧ b'.pc k = b.pc k ∧ b'.slot k = b.slot k ∧ b'.segOf k = b.segOf k
    ∧ b'.on (SEQ_FAULT.valid cd s) = true
    ∧ (b.on (SEQ_FAULT.valid cd s) = false →
        b'.rd (SEQ_FAULT.check cd s) = 2 ∧ b'.rd (SEQ_FAULT.pc cd s) = b.pc k ∧ b'.rd (SEQ_FAULT.segment cd s) = b.segOf k)
    ∧ (b.on (SEQ_FAULT.valid cd s) = true → b'.reg (.seqFault cd s) = b.reg (.seqFault cd s))
    ∧ (b.vote.frozen = false → b'.rd (SEQ_VOTE.hw_fail cd s) = 1)
    ∧ (b.vote.frozen = true → k ∈ b'.vote.heldHw)
    ∧ (∃ detail, Raised (cd + 1) s 0x0302 (0x02 + (cd + 1) * 2 ^ 8 + s * 2 ^ 13 + b.pc k * 2 ^ 19 + detail * 2 ^ 51) b b')
    ∧ RegsKeep [.seqStatus cd s, .seqFault cd s, .seqVote cd s] b b'
    ∧ b' = { b with regs := b'.regs, ev := b'.ev, vote := b'.vote }

/-- A word whose encoding R144 does not admit stops its core. -/
def BadStops (mk : Instr) (i : Issue) : Prop :=
  ∀ s : State, CanIssue i s.blk → WellFormed.instr mk = false → Does mk s (Stopped (coreKey i.core) s.blk)

end Sys2Proof.Says
open Sys2Proof.Says

/-- R140, R142: the scalar instructions, two's complement modulo 2⁶⁴, the second operand Sb or the immediate; shifts by the low six
bits of the shift operand; SMUL keeps the low 64 bits; SMIN and SMAX are signed; SLI writes its immediate. -/
def Sys2Proof.Says.ScalarInstructionsComputeTheirResult : Prop :=
  ScalarOp .sli (fun o _ _ => o.imm)
    ∧ ScalarOp .sadd (fun _ x y => BitVec.ofNat 64 (x.toNat + y.toNat))
    ∧ ScalarOp .ssub (fun _ x y => BitVec.ofInt 64 (x.toInt - y.toInt))
    ∧ ScalarOp .smul (fun _ x y => BitVec.ofNat 64 (x.toNat * y.toNat))
    ∧ ScalarOp .sand (fun _ x y => x &&& y)
    ∧ ScalarOp .sor (fun _ x y => x ||| y)
    ∧ ScalarOp .sxor (fun _ x y => x ^^^ y)
    ∧ ScalarOp .sshl (fun _ x y => BitVec.ofNat 64 (x.toNat * 2 ^ (y.toNat % 64)))
    ∧ ScalarOp .sshr (fun _ x y => BitVec.ofNat 64 (x.toNat / 2 ^ (y.toNat % 64)))
    ∧ ScalarOp .ssra (fun _ x y => BitVec.ofInt 64 (x.toInt / 2 ^ (y.toNat % 64)))
    ∧ ScalarOp .smin (fun _ x y => if x.toInt < y.toInt then x else y)
    ∧ ScalarOp .smax (fun _ x y => if x.toInt < y.toInt then y else x)

/-- R140, R142: SCMP's six conditions and PLOG's four functions; Pa and Pb are the low four bits of the source fields. -/
def Sys2Proof.Says.PredicateInstructionsComputeTheirResult : Prop :=
  PredOp .scmp (fun o => o.cond.toNat ≤ 5)
      (fun o c => scmpHolds o.cond.toNat (c.getS o.a.toNat) (if o.immSel then o.imm else c.getS o.b.toNat))
    ∧ PredOp .plog (fun o => o.cond.toNat ≤ 3)
      (fun o c => plogOf o.cond.toNat (c.getP (o.a.toNat % 16)) (c.getP (o.b.toNat % 16)))

/-- R144, R150, R151, R142, R147: NOP does nothing but issue; WAITC delays the next issue by its cycle count, counted under
cause 4; CSEL selects the slot; VOTE sets the core's vote and cause, or after the freeze leaves SEQ_VOTE alone and
is held for the next attempt; SLOOP reads the index of the named level. -/
def Sys2Proof.Says.ControlInstructionsDoAsNamed : Prop :=
  ∀ (i : Issue) (s : State), CanIssue i s.blk →
    let k := coreKey i.core
    let cd := k / 32
    let x := k % 32
    Does (.nop i) s (Issued k 1 [] id s.blk)
    ∧ (∀ n : BitVec 17, Does (.waitc i n) s fun b =>
        Issued k (n.toNat + 1) [.seqStall cd x 0 4] id s.blk b
          ∧ (s.blk.on (SEQ_PERF_CTRL.freeze cd x) = false →
              b.rd (SEQ_STALL.count cd x 0 4) = (s.blk.rd (SEQ_STALL.count cd x 0 4) + n.toNat) % 2 ^ 48))
    ∧ (∀ slot : Bool, Does (.csel i slot) s fun b => Issued k 1 [] id s.blk b ∧ b.slot k = b2n slot)
    ∧ (∀ (v : BitVec 2) (cause : BitVec 8), v.toNat ≤ 2 → GuardHolds i s.blk → s.blk.vote.frozen = false →
        Does (.vote i v cause) s fun b => Issued k 1 [.seqVote cd x] id s.blk b
          ∧ b.rd (SEQ_VOTE.vote cd x) = v.toNat ∧ b.rd (SEQ_VOTE.cause cd x) = cause.toNat
          ∧ b.rd (SEQ_VOTE.hw_fail cd x) = s.blk.rd (SEQ_VOTE.hw_fail cd x))
    ∧ (∀ (v : BitVec 2) (cause : BitVec 8), v.toNat ≤ 2 → GuardHolds i s.blk → s.blk.vote.frozen = true →
        Does (.vote i v cause) s fun b => b.reg (.seqVote cd x) = s.blk.reg (.seqVote cd x)
          ∧ Sp.get 0 b.vote.heldVote k = v.toNat + cause.toNat * 4 + 1024)
    ∧ (∀ (d : BitVec 5) (level : BitVec 2) (l : LoopFrame), (s.blk.core k).loops[level.toNat]? = some l →
        Does (.sloop i d level) s fun b =>
          Issued k 1 [] (fun c => c.updCtx (s.blk.slot k) fun _ => (b.ctx k)) s.blk b
            ∧ (d ≠ 0 → (b.ctx k).getS d.toNat = BitVec.ofNat 64 l.idx) ∧ (b.ctx k).getS 0 = 0
            ∧ (∀ n, n ≠ d.toNat → (b.ctx k).getS n = (s.blk.ctx k).getS n))

/-- R147, R148: LOOP opens its body, a count of 0 skips it, and the LOOP costs its one cycle; BRB enters arm A if its predicate,
inverted if invert is set, is 1, and otherwise goes on at arm B, with nothing paid for the arm not taken. -/
def Sys2Proof.Says.LoopsAndBranchesMoveControl : Prop :=
  ∀ (i : Issue) (s : State), CanIssue i s.blk →
    let k := coreKey i.core
    let c := s.blk.core k
    let pc := s.blk.pc k
    (∀ (count : BitVec 32) (len : BitVec 12), 1 ≤ len.toNat → len.toNat ≤ 2047 →
      Does (.loop i count len) s fun b =>
        let frames := if count = 0 then c.loops else ⟨pc + 1, len.toNat, count.toNat, 0⟩ :: c.loops
        let r := closeAt 16 frames c.brs (if count = 0 then pc + 1 + len.toNat else pc + 1)
        Core k [] { c with cyc := c.cyc + 1, loops := r.1, brs := r.2.1 } s.blk b ∧ b.pc k = r.2.2 % 2 ^ 11
          ∧ b.seqState k = s.blk.seqState k)
    ∧ (∀ (pn : BitVec 4) (invert : Bool) (lenA lenB : BitVec 11), lenA.toNat ≤ 2046 → lenB.toNat ≤ 2046 →
      pn.toNat ∉ (s.blk.ctx k).pPoison →
      Does (.brb i pn invert lenA lenB) s fun b =>
        let take := (s.blk.ctx k).getP pn.toNat != invert
        let endA := pc + 1 + lenA.toNat
        let arms := if take then ⟨pc + 1, endA, endA + lenB.toNat⟩ :: c.brs else c.brs
        let r := closeAt 16 c.loops arms (if take then pc + 1 else endA)
        Core k [] { c with cyc := c.cyc + 1, loops := r.1, brs := r.2.1 } s.blk b ∧ b.pc k = r.2.2 % 2 ^ 11
          ∧ b.seqState k = s.blk.seqState k)

/-- R147, R148: at the end of its body a loop with iterations left goes back to the first instruction with the next index, one
that has none left goes on behind it; at the end of arm A control goes to the join; elsewhere control goes on in sequence. -/
def Sys2Proof.Says.BodiesAndArmsCloseWhereTheyEnd : Prop :=
  ∀ (i : Issue) (s : State), CanIssue i s.blk →
    let k := coreKey i.core
    let c := s.blk.core k
    let next := s.blk.pc k + 1
    (∀ l rest, c.loops = l :: rest → c.brs = [] → next = l.start + l.len → l.idx + 1 < l.count → l.start < 2 ^ 11 →
      Does (.nop i) s fun b => b.pc k = l.start ∧ (b.core k).loops = { l with idx := l.idx + 1 } :: rest ∧ (b.core k).brs = [])
    ∧ (∀ l, c.loops = [l] → c.brs = [] → next = l.start + l.len → l.count ≤ l.idx + 1 → next < 2 ^ 11 →
      Does (.nop i) s fun b => b.pc k = next ∧ (b.core k).loops = [] ∧ (b.core k).brs = [])
    ∧ (∀ r, c.loops = [] → c.brs = [r] → next = r.endA → r.join < 2 ^ 11 →
      Does (.nop i) s fun b => b.pc k = r.join ∧ (b.core k).loops = [] ∧ (b.core k).brs = [])
    ∧ ((∀ l ∈ c.loops, next ≠ l.start + l.len) → (∀ r ∈ c.brs, next ≠ r.endA) → next < 2 ^ 11 →
      Does (.nop i) s fun b => b.pc k = next ∧ (b.core k).loops = c.loops ∧ (b.core k).brs = c.brs)

/-- R150: WAITQ on a queue whose count is reached delays the next issue until its deadline; otherwise the core waits in state 4 for
the count. -/
def Sys2Proof.Says.WaitqWaitsForDeadlineAndCount : Prop :=
  ∀ (i : Issue) (q : BitVec 4) (count deadline : BitVec 32) (s : State), CanIssue i s.blk → q.toNat ≤ 5 →
    let k := coreKey i.core
    let c := s.blk.core k
    let r := closeAt 16 c.loops c.brs (s.blk.pc k + 1)
    let reached := count.toNat ≤ Sp.get 0 c.qcnt q.toNat
    Does (.waitq i q count deadline) s fun b =>
      (reached → Core k [.seqStall (k / 32) (k % 32) 0 4]
        { c with cyc := max (c.cyc + 1) deadline.toNat, loops := r.1, brs := r.2.1 } s.blk b ∧ b.seqState k = s.blk.seqState k)
      ∧ (¬reached → Core k [.seqStall (k / 32) (k % 32) 0 4]
        { c with cyc := c.cyc + 1, loops := r.1, brs := r.2.1, waitq := some ⟨q.toNat, count.toNat, deadline.toNat, 0⟩ } s.blk b
          ∧ b.seqState k = 4)
      ∧ b.pc k = r.2.2 % 2 ^ 11

/-- R161: an instruction whose encoding check 0x02 would refuse, and a word that the fetch finds not valid, stop the core. -/
def Sys2Proof.Says.InvalidWordsStopTheCore : Prop :=
  (∀ i q n d, BadStops (.waitq i q n d) i) ∧ (∀ i n l, BadStops (.loop i n l) i) ∧ (∀ i p v x y, BadStops (.brb i p v x y) i)
    ∧ (∀ i v c, BadStops (.vote i v c) i) ∧ (∀ i o, BadStops (.scmp i o) i) ∧ (∀ i o, BadStops (.plog i o) i)
    ∧ (∀ i o, BadStops (.mop i o) i) ∧ (∀ i o, BadStops (.vfp i o) i) ∧ (∀ i o, BadStops (.vfpd i o) i)
    ∧ (∀ i o, BadStops (.vint i o) i) ∧ (∀ i o, BadStops (.vcmp i o) i) ∧ (∀ i o, BadStops (.vcvt i o) i)
    ∧ (∀ i o, BadStops (.vmove i o) i) ∧ (∀ i o, BadStops (.vred i o) i) ∧ (∀ i o, BadStops (.vld i o) i)
    ∧ (∀ i o, BadStops (.vrand i o) i) ∧ (∀ i o, BadStops (.kop i o) i)
    ∧ (∀ (c : CoreId) (s : State), s.blk.issuing (coreKey c) = true →
        Does (.instructionFetchFault c) s (Stopped (coreKey c) s.blk))

/-! ### Vector engine -/
namespace Sys2Proof.Says

/-- The vector instruction `i` runs: its core may issue, its guard holds and no injection is armed. -/
def VecRuns (i : Issue) (b : Blk) : Prop := CanIssue i b ∧ GuardHolds i b ∧ b.ras.injects = []

/-- Registers of core `k` that a vector instruction may write: VEC_FLAGS, VEC_OPS, VEC_NAN_LANES and the vector engine's stall
counter of cause 0. -/
def vecRegs (k : Nat) : List Reg :=
  let cd := k / 32
  let x := k % 32
  [.vecFlags cd x, .vecOps cd x, .vecNanLanes cd x 0, .vecNanLanes cd x 1, .seqStall cd x 2 0]

/-- Element `l` of the destination of `o`: of the pair that holds Vd for FP64 results (R105). -/
def dst (o : VOp) (wide : Bool) (c : Ctx) (l : Nat) : Nat := if wide then c.wide o.vd.toNat l else c.lane o.vd.toNat l

/-- A vector instruction has written `val` to the elements that `act` selects; any other element of the destination keeps its
value, or reads as zero under the zeroing option; no other vector register changes (R93, R95); the flags `fl` are
set in the context flag set and in VEC_FLAGS (R99); the rest of the context and everything outside the core stay. -/
def Wrote (i : Issue) (o : VOp) (wide : Bool) (act : Ctx → Nat → Bool) (val : Ctx → Nat → Nat) (fl : Ctx → Nat) (b b' : Blk) : Prop :=
  let k := coreKey i.core
  let c := b.ctx k
  let c' := b'.ctx k
  Issued k 1 (vecRegs k) (fun x => x.updCtx (b.slot k) fun _ => c') b b'
    ∧ (c.vl ≠ 0 → ∀ l, l < lanes k → act c l = true → dst o wide c' l = val c l % 2 ^ (if wide then 64 else 32))
    ∧ (∀ l, l < lanes k → (c.vl = 0 ∨ act c l = false) → dst o wide c' l = if o.zero ∧ c.vl ≠ 0 then 0 else dst o wide c l)
    ∧ (∀ n l, l < 128 → (if wide then n / 2 ≠ o.vd.toNat / 2 else n ≠ o.vd.toNat) → c'.lane n l = c.lane n l)
    ∧ c'.flags = c.flags ||| fl c
    ∧ b'.reg (.vecFlags (k / 32) (k % 32)) = (b.reg (.vecFlags (k / 32) (k % 32)) ||| fl c) % 2 ^ 64
    ∧ c' = { c with v := c'.v, vPoison := c'.vPoison, flags := c'.flags }

/-- The vector instruction `mk` computes each active element of Vd from the context (R93, R95, R99). -/
def Elementwise (mk : Issue → VOp → Instr) (ok : VOp → Bool) (wide : Bool) (res : Blk → VOp → Ctx → Nat → Res) : Prop :=
  ∀ (i : Issue) (o : VOp) (s : State), VecRuns i s.blk → ok o = true →
    Does (mk i o) s (Wrote i o wide (fun c l => c.active o l) (fun c l => (res s.blk o c l).val)
      (fun c => (c.activeIds o).foldl (fun f l => f ||| (res s.blk o c l).flags) 0) s.blk)

/-- Lane `l` of a source as a 32-bit code and as an FP64 code. -/
def n32 (f : VOp → BitVec 5) (o : VOp) (c : Ctx) (l : Nat) : Nat := c.lane (f o).toNat l
def n64 (f : VOp → BitVec 5) (o : VOp) (c : Ctx) (l : Nat) : Nat := c.wide (f o).toNat l

/-- The INT32 result of VINT's functions 0 to 12 (R98's class table); a shift by 32 or more has no stated result. -/
def intResult (fn : Nat) (x y : Nat) (r : Nat) : Prop :=
  let a := sext 32 x
  let b := sext 32 y
  let sat (v : Int) : Int := max (-2 ^ 31) (min (2 ^ 31 - 1) v)
  match fn with
  | 0 => r = (x + y) % 2 ^ 32
  | 1 => r = (x + 2 ^ 32 - y) % 2 ^ 32
  | 2 => r = x * y % 2 ^ 32
  | 3 => sext 32 r = sat (a + b)
  | 4 => sext 32 r = sat (a - b)
  | 5 => sext 32 r = min a b
  | 6 => sext 32 r = max a b
  | 7 => r = x &&& y
  | 8 => r = x ||| y
  | 9 => r = x ^^^ y
  | 10 => y < 32 → r = x * 2 ^ y % 2 ^ 32
  | 11 => y < 32 → r = x / 2 ^ y
  | _ => y < 32 → sext 32 r = a / 2 ^ y

/-- A mask instruction has written Kd = vd[2:0]: `f` at each active element and 0 at every other; K0 discards it, and with VL = 0
nothing is written (R93, R95). -/
def WroteMask (i : Issue) (o : VOp) (f : Ctx → Nat → Bool) (b b' : Blk) : Prop :=
  let k := coreKey i.core
  let c := b.ctx k
  let c' := b'.ctx k
  let d := o.vd.toNat % 8
  Issued k 1 (vecRegs k) (fun x => x.updCtx (b.slot k) fun _ => c') b b'
    ∧ (d ≠ 0 → c.vl ≠ 0 → ∀ l, bit (c'.getK d) l = (c.active o l && f c l))
    ∧ (c.vl = 0 → c'.getK d = c.getK d) ∧ c'.getK 0 = 2 ^ 128 - 1
    ∧ (∀ n, n ≠ d → c'.getK n = c.getK n)
    ∧ c' = { c with k := c'.k, kPoison := c'.kPoison, flags := c'.flags }

/-- A word of memory holds no error and no injection waits. -/
def Clean (b : Blk) : Prop := b.err = [] ∧ b.ras.deadBlocks = [] ∧ b.ras.injects = []

end Sys2Proof.Says

/-- R93, R95, R98, R99, R103: FP32 and FP64 arithmetic, the functions, the conversions of VCVT, moves, broadcasts and generator words write
the result of the operation to each active element and raise its flags; inactive elements keep their values or are zeroed. -/
def Sys2Proof.Says.VectorOperationsActOnActiveElements : Prop :=
  Elementwise .vfp (fun o => o.func.toNat ≤ 8) false
      (fun _ o c l => fpOp f32 o.func.toNat (n32 VOp.vs1 o c l) (n32 VOp.vs2 o c l) (n32 VOp.vs3 o c l))
    ∧ Elementwise .vfpd (fun o => o.func.toNat ≤ 10) true
      (fun _ o c l => fpOp f64 o.func.toNat (n64 VOp.vs1 o c l) (n64 VOp.vs2 o c l) (n64 VOp.vs3 o c l))
    ∧ Elementwise .vfn (fun _ => true) false (fun _ o c l => vfnOp o.func.toNat (n32 VOp.vs1 o c l) (n32 VOp.vs2 o c l))
    ∧ Elementwise .vcvt (fun o => (o.func = 0 || o.func = 1) && o.opt.toNat ≤ 1) false
      (fun _ o c l => cvtOp o.func.toNat (o.opt = 1) (n32 VOp.vs1 o c l))
    ∧ Elementwise .vcvt (fun o => (o.func = 2 || o.func = 4) && o.opt.toNat ≤ 1) true
      (fun _ o c l => cvtOp o.func.toNat (o.opt = 1) (n32 VOp.vs1 o c l))
    ∧ Elementwise .vcvt (fun o => o.func = 3 && o.opt.toNat ≤ 1) false
      (fun _ o c l => cvtOp 3 false (n64 VOp.vs1 o c l))
    ∧ Elementwise .vmove (fun o => o.func = 1) false (fun _ o c l => ⟨n32 VOp.vs1 o c l, 0⟩)
    ∧ Elementwise .vmove (fun o => o.func = 2) false (fun _ o c _ => ⟨(c.getS o.ra.toNat).toNat % 2 ^ 32, 0⟩)
    ∧ Elementwise .vrand (fun o => o.purpose = 0 || o.purpose = 2) false
      (fun b o c l => ⟨b.randWord o.tid.toNat o.draw.toNat o.purpose.toNat ((c.getS o.ra.toNat).toNat + l), 0⟩)

/-- R98: VINT wraps modulo 2³², saturates in functions 3 and 4, and computes minimum, maximum, logic and shifts by less than 32
of each active element; a larger shift completes with a value that nothing is said of (log entry 9). -/
def Sys2Proof.Says.VintComputesInt32 : Prop :=
  ∀ (i : Issue) (o : VOp) (s : State), VecRuns i s.blk → o.func.toNat ≤ 12 →
    Does (.vint i o) s fun b => ∃ val fl, Wrote i o false (fun c l => c.active o l) val fl s.blk b
      ∧ (∀ l, let c := s.blk.ctx (coreKey i.core)
          intResult o.func.toNat (n32 VOp.vs1 o c l) (n32 VOp.vs2 o c l) (val c l))
      ∧ ((∀ l, n32 VOp.vs2 o (s.blk.ctx (coreKey i.core)) l < 32) → 5 ≤ o.func.toNat → fl (s.blk.ctx (coreKey i.core)) = 0)

/-- R99, R106 to R109: the soft maximum, the normalisations and the loss treat the rows that their rules single out as these say, and
raise the flags of the result on the core that runs them: an active NaN makes all of a soft maximum the canonical NaN; an active +∞
shares the row; a row with no active finite element is +0 with log-sum-exp −∞ and empty_row; a nonfinite element makes a normalised
row the canonical NaN; a loss without a row that counts is +0 with empty_row, and delivers 0 to its scalar register. -/
def Sys2Proof.Says.WideRowsTreatTheirCorners : Prop :=
  (∀ (x : List Nat) (mask : List Bool), let r := softmaxRow x mask
    let active (i : Nat) : Prop := i < x.length ∧ mask.getD i false = true
    let infs := (List.range x.length).filter fun i => mask.getD i false && decide (x.getD i 0 = inf32 false)
    r.y.length = x.length
      ∧ ((∃ i, active i ∧ isNan32 (x.getD i 0) = true) →
          (∀ i, i < x.length → r.y.getD i 0 = nan32) ∧ r.lse = nan32 ∧ r.flags = flNonfinite)
      ∧ ((∀ i, active i → isNan32 (x.getD i 0) = false) → infs ≠ [] →
          (∀ i, i < x.length → r.y.getD i 0 = if i ∈ infs then (f32.round (exDiv (.ofNat 1) (.ofNat infs.length)).1).1 else 0)
            ∧ r.lse = inf32 false ∧ r.flags = flNonfinite)
      ∧ ((∀ i, active i → x.getD i 0 = inf32 true) →
          (∀ i, i < x.length → r.y.getD i 0 = 0) ∧ r.lse = inf32 true ∧ r.flags = vEmptyRow)
      ∧ ((∀ i, active i → (f32.val (x.getD i 0)).finite = true ∨ x.getD i 0 = inf32 true) → (∃ i, active i ∧ x.getD i 0 ≠ inf32 true) →
          r.flags = 0 ∧ ∀ i, i < x.length → (¬active i ∨ x.getD i 0 = inf32 true) → r.y.getD i 0 = 0))
    ∧ (∀ (x : List Nat) (eps i : Nat) (gamma beta : Option (List Nat)), i < x.length → (f32.val (x.getD i 0)).finite = false →
        layerNorm x eps gamma beta = ⟨x.map fun _ => nan32, flNonfinite⟩ ∧ rmsNorm x eps gamma = ⟨x.map fun _ => nan32, flNonfinite⟩)
    ∧ (∀ rows : List LossRow, (∀ r ∈ rows, r.target = none ∨ ∃ t, r.target = some t ∧ r.mask.getD t false = false) →
        (crossEntropy rows).loss = 0 ∧ (crossEntropy rows).count = 0 ∧ bit (crossEntropy rows).flags 5 = true
          ∧ ∀ g ∈ (crossEntropy rows).grads, g = none)
    ∧ ∀ (b : Blk) (k d : Nat) (x : List Nat) (mask : List Bool) (rows : List LossRow), k < 384 →
        ((b.softmaxOn k x mask).2.ctx k).flags = (b.ctx k).flags ||| (softmaxRow x mask).flags
          ∧ (d ≠ 0 → (b.lossOn k d rows).2.sreg k d = (crossEntropy rows).count % 2 ^ 64)

/-- R102 and the selection class: vsel takes each element from vs1 or vs2 by its mask bit; vcompress packs the selected elements and
writes their number to S(sd); vexpand does the reverse; vtwosum writes the sum to Vd and the compensation to the register
after it. The model's readings and choices here: log entry 22. -/
def Obligations.VectorMovesPlaceElements : Prop :=
  ∀ (i : Issue) (o : VOp) (s : State), VecRuns i s.blk →
    let k := coreKey i.core
    let c := s.blk.ctx k
    let sel := c.picked o (o.vs2.toNat % 8)
    (o.func = 0 → Does (.vmove i o) s (Wrote i o false (fun c l => decide (l < c.vl))
      (fun c l => if bit (c.getK o.mask.toNat) l then n32 VOp.vs1 o c l else n32 VOp.vs2 o c l) (fun _ => 0) s.blk))
    ∧ (o.func = 3 → c.vl ≠ 0 → c.vl ≤ lanes k → Does (.vmove i o) s fun b =>
        (∀ l, l < sel.length → (b.ctx k).lane o.vd.toNat l = c.lane o.vs1.toNat (sel.getD l 0))
          ∧ (∀ l, sel.length ≤ l → l < lanes k →
              (b.ctx k).lane o.vd.toNat l = if o.zero then 0 else c.lane o.vd.toNat l)
          ∧ (o.sd ≠ 0 → (b.ctx k).getS o.sd.toNat = BitVec.ofNat 64 sel.length)
          ∧ b = { s.blk with regs := b.regs, cores := b.cores })
    ∧ (o.func = 4 → c.vl ≠ 0 → c.vl ≤ lanes k → Does (.vmove i o) s fun b =>
        (∀ n, n < sel.length → (b.ctx k).lane o.vd.toNat (sel.getD n 0) = c.lane o.vs1.toNat n)
          ∧ (∀ l, l ∉ sel → l < lanes k → (b.ctx k).lane o.vd.toNat l = if o.zero then 0 else c.lane o.vd.toNat l)
          ∧ b = { s.blk with regs := b.regs, cores := b.cores })
    ∧ (o.func = 5 → Does (.vmove i o) s fun b =>
        (∀ l, l < lanes k → c.active o l = true →
          let t := twoSumStep (c.lane o.vs1.toNat l) (c.lane o.vs2.toNat l) (c.lane o.vs3.toNat l)
          (b.ctx k).lane o.vd.toNat l = t.1 % 2 ^ 32 ∧ (b.ctx k).lane (o.vd + 1).toNat l = t.2.1 % 2 ^ 32)
          ∧ b = { s.blk with regs := b.regs, cores := b.cores })

/-- R95, R98, R142: VCMP and KOP write a mask, 0 for every inactive element. -/
def Obligations.MaskInstructionsWriteMasks : Prop :=
  ∀ (i : Issue) (o : VOp) (s : State), VecRuns i s.blk →
    (o.func.toNat ≤ 5 → o.opt.toNat ≤ 2 → Does (.vcmp i o) s (WroteMask i o (fun c l =>
      if o.opt = 0 then fpCmp o.func.toNat (f32.val (n32 VOp.vs1 o c l)) (f32.val (n32 VOp.vs2 o c l))
      else if o.opt = 1 then fpCmp o.func.toNat (f64.val (n64 VOp.vs1 o c l)) (f64.val (n64 VOp.vs2 o c l))
      else intCmp o.func.toNat (sext 32 (n32 VOp.vs1 o c l)) (sext 32 (n32 VOp.vs2 o c l))) s.blk))
    ∧ (o.func.toNat ≤ 3 → Does (.kop i o) s (WroteMask i o (fun c l =>
      plogOf o.func.toNat (bit (c.getK (o.vs1.toNat % 8)) l) (bit (c.getK (o.vs2.toNat % 8)) l)) s.blk))

/-- R94, R99, R100, R101: SETVL writes the smaller of its value and the lane count; VCLRF clears the context flag set; VRED writes a
reduction to a scalar register and a vany or vall summary to a predicate, P0 and S0 discarding it. -/
def Sys2Proof.Says.LengthFlagsAndSummaries : Prop :=
  ∀ (i : Issue) (o : VOp) (s : State), VecRuns i s.blk →
    let k := coreKey i.core
    let c := s.blk.ctx k
    let up (f : Ctx) : CoreSt → CoreSt := fun x => x.updCtx (s.blk.slot k) fun _ => f
    let hits := (c.activeIds o).filter fun l => bit (c.getK (o.vs1.toNat % 8)) l
    Does (.setvl i o) s (Issued k 1 (vecRegs k)
      (up { c with vl := min (if o.ra = 0 then o.imm.toNat else (c.getS o.ra.toNat).toNat) (lanes k) }) s.blk)
    ∧ Does (.vclrf i o) s (Issued k 1 (vecRegs k) (up { c with flags := 0 }) s.blk)
    ∧ (o.func.toNat ≤ 9 → Does (.vred i o) s fun b =>
        Issued k 1 (vecRegs k) (up (b.ctx k)) s.blk b
          ∧ (o.func ≠ 5 → o.func ≠ 6 → o.sd ≠ 0 → (b.ctx k).getS o.sd.toNat = BitVec.ofNat 64 (c.vred o).1)
          ∧ (o.func = 7 → o.sd ≠ 0 → (b.ctx k).getS o.sd.toNat = BitVec.ofNat 64 hits.length)
          ∧ (o.func = 8 → o.sd ≠ 0 → (b.ctx k).getS o.sd.toNat = BitVec.ofNat 64 (hits.headD c.vl))
          ∧ (o.func = 9 → o.sd ≠ 0 → (b.ctx k).getS o.sd.toNat = BitVec.ofNat 64 c.flags)
          ∧ (o.func = 5 → o.sd.toNat % 16 ≠ 0 → (b.ctx k).getP (o.sd.toNat % 16) = !hits.isEmpty)
          ∧ (o.func = 6 → o.sd.toNat % 16 ≠ 0 →
              (b.ctx k).getP (o.sd.toNat % 16) = (c.activeIds o).all fun l => bit (c.getK (o.vs1.toNat % 8)) l)
          ∧ (b.ctx k).flags = c.flags ||| (c.vred o).2.1
          ∧ (b.ctx k).v = c.v ∧ (b.ctx k).k = c.k ∧ (b.ctx k).vl = c.vl)

/-! ### Vector memory instructions, matrix engine, transfers -/
namespace Sys2Proof.Says

/-- Every byte of memory outside the `n` bytes from `key` up reads as before. -/
def BytesKeep (key n : Nat) (b b' : Blk) : Prop := ∀ a, (a < key ∨ key + n ≤ a) → b'.byte a = b.byte a

/-- Register `r` of core `k` names a descriptor word that reads as `x` (R142). -/
def Describes (k : Nat) (r : BitVec 5) (b : Blk) (x : Nat) : Prop :=
  ∃ key, b.place (b.sreg k r.toNat / 32 * 32) = some key ∧ x = (b.rawWord key).1.toNat

/-- The counters of die `die`'s performance block (R361). -/
def perfRegs (die : Nat) : List Reg := (List.range 8).map (Reg.perfCnt die)

/-- What a store of a core leaves unchanged: everything but the core, its registers and those that count accesses (R190, R378), memory, and,
for a place outside the cores' SRAM, the regions' generations and in-flight counts and the near caches' lines (R176, R185). -/
def Stores (key : Nat) (b b' : Blk) : Prop :=
  b = { b' with regs := b.regs, cores := b.cores, mem := b.mem, regions := b.regions, ncache := b.ncache }
    ∧ (isSram key = true → b.regions = b'.regions ∧ b.ncache = b'.ncache)

/-- Element `j` of the bias row of descriptor `d` in core `k`'s SRAM (R114). -/
def biasAt (b : Blk) (k d j : Nat) : Ex :=
  f32.val (elemBits (fun n => b.byte (sramKey k + (dBiasOff d + 4 * j) % sramBytes k + n)) 32 0)

/-- A guarded-off MOP occupies its engine for the operation's full duration without a valid product, writes nothing and counts nothing
(R143). -/
def MopOff (i : Issue) (o : MOp) : Prop :=
  ∀ s : State, CanIssue i s.blk → s.blk.guardOn (coreKey i.core) i.guard = false → WellFormed.mop o = true →
    let k := coreKey i.core
    Does (.mop i o) s fun b => ∃ j : MatJob,
      Issued k 1 [.matStatus (k / 32) (k % 32)] (fun c => { c with mats := c.mats ++ [j] }) s.blk b
        ∧ j.written = false ∧ j.counted = false ∧ j.aborted = false ∧ j.macs = 0 ∧ j.runs = []
        ∧ j.start = s.blk.absCyc k ∧ j.total = (mopTime o (isLee k)).total
        ∧ b.on (MAT_STATUS.busy (k / 32) (k % 32)) = true

/-- Guard off: instruction `c` costs its issue and its unit occupancy and does nothing else (R143). -/
def GuardedOff (c : Instr) (i : Issue) (regs : Nat → List Reg) : Prop :=
  ∀ s : State, CanIssue i s.blk → s.blk.guardOn (coreKey i.core) i.guard = false → WellFormed.instr c = true →
    Does c s (Issued (coreKey i.core) 1 (regs (coreKey i.core)) id s.blk)

end Sys2Proof.Says

/-- R59, R61, R96: VLD reads each active element of a per-tensor or unscaled array from the place that its address register names and widens
it, a pad as +0; VSTR writes the contents of each active lane there unchanged, 64-bit pairs where its format field names FP64; no other byte
changes. -/
def Sys2Proof.Says.VectorLoadsAndRawStores : Prop :=
  ∀ (i : Issue) (o : VOp) (s : State) (e : Nat), VecRuns i s.blk → Clean s.blk →
    s.blk.regPlace (coreKey i.core) o.ra.toNat o.rel = some e →
    let k := coreKey i.core
    let c := s.blk.ctx k
    let mem (j : Nat) : Byte := s.blk.byte (e + j)
    (o.fmt.toNat ≤ 11 → o.layout = 0 → Does (.vld i o) s
      (Wrote i o (o.fmt.toNat = 11) (fun c l => c.active o l)
        (fun _ l => if s.blk.padOf e o.fmt.toNat l then 0 else (widen o.fmt.toNat o.sgn 0 (elemBits mem (fmtWidth o.fmt.toNat) l) 0 0).val)
        (fun _ => 0) s.blk))
    ∧ (o.fmt.toNat ≠ 11 → c.kP o.mask.toNat = false → (∀ l, c.laneP o.vs1.toNat l = false) → Does (.vstr i o) s fun b =>
        (∀ l j, c.active o l = true → j < 4 →
          b.byte (e + 4 * l + j) = BitVec.ofNat 8 (c.lane o.vs1.toNat l / 2 ^ (8 * j)))
          ∧ (∀ a, (∀ l, c.active o l = true → a < e + 4 * l ∨ e + 4 * l + 4 ≤ a) → b.byte a = s.blk.byte a)
          ∧ Stores e b s.blk)
    ∧ (o.fmt.toNat = 11 → c.kP o.mask.toNat = false → (∀ l, c.wideP o.vs1.toNat l = false) → Does (.vstr i o) s fun b =>
        (∀ l j, c.active o l = true → j < 8 →
          b.byte (e + 8 * l + j) = BitVec.ofNat 8 (c.wide o.vs1.toNat l / 2 ^ (8 * j)))
          ∧ (∀ a, (∀ l, c.active o l = true → a < e + 8 * l ∨ e + 8 * l + 8 ≤ a) → b.byte a = s.blk.byte a)
          ∧ Stores e b s.blk)

/-- The code that the output conversion of descriptor `d` gives element `el` of a per-tensor or unscaled output, outside RECOMPUTE
(R114 to R119). -/
def Sys2Proof.Says.codeOf (b : Blk) (k d : Nat) (el : ConvEl) : Nat :=
  (encodeValue (dFmt d) (dSgn d) (b.rndOf d el.i) (if dSat d = 1 then .inf else .limit) (b.pipe d (biasAt b k d) el).out).code

/-- Descriptor `d` asks for no block, no tile scale and no RECOMPUTE, in codes of whole bytes. -/
def Sys2Proof.Says.plainDesc (d : Nat) : Bool :=
  decide (dLayout d = 0) && decide (dSat d ≠ 2) && !dTile d && decide (fmtWidth (dFmt d) % 8 = 0)

/-- R96, R114, R119: VST passes its active elements through the output conversion of the descriptor it names: each element's code is
the encoding of the piped value, and no byte outside the active elements changes. -/
def Sys2Proof.Says.VectorStoreConverts : Prop :=
  ∀ (i : Issue) (o : VOp) (s : State) (d e : Nat), VecRuns i s.blk → Clean s.blk →
    let k := coreKey i.core
    let c := s.blk.ctx k
    Describes k o.rdesc s.blk d → s.blk.sreg k o.rdesc.toNat < 2 ^ 48 → s.blk.descOk d true = true →
    plainDesc d = true →
    s.blk.regPlace k o.ra.toNat o.rel = some e → c.vl ≠ 0 →
    (∀ l, c.laneP o.vs1.toNat l = false ∧ c.wideP o.vs1.toNat l = false) → c.kP o.mask.toNat = false →
    let w := fmtWidth (dFmt d) / 8
    let out := s.blk.outAt d e 0
    let el (l : Nat) : ConvEl :=
      ⟨if dFmt d = 11 then f64.val (c.wide o.vs1.toNat l) else f32.val (c.lane o.vs1.toNat l), l, out.i0 + l⟩
    Does (.vst i o) s fun b =>
      (∀ l j, c.active o l = true → j < w →
        b.byte (out.key + w * (out.i0 + l) + j) = BitVec.ofNat 8 (codeOf s.blk k d (el l) / 2 ^ (8 * j)))
        ∧ (∀ a, (∀ l, c.active o l = true → a < out.key + w * (out.i0 + l) ∨ out.key + w * (out.i0 + l) + w ≤ a) →
            b.byte a = s.blk.byte a)
        ∧ b.scale = { s.blk.scale with reports := b.scale.reports }
        ∧ b.scale.reports.length = s.blk.scale.reports.length + 1
        ∧ Stores out.key b { s.blk with scale := b.scale }

/-- R114, R115, R119: MATRIX_OP_COMPLETE of an operation bound for the output conversion: each sum's code is the encoding of the piped value,
at its row's and column's place in the tensor, and no byte outside the tile's elements changes; the operation and its products are
counted. -/
def Sys2Proof.Says.MatrixOutputConverts : Prop :=
  ∀ (c : CoreId) (s : State) (j : MatJob) (rest : List MatJob) (d dk e : Nat), Clean s.blk →
    let k := coreKey c
    let cd := k / 32
    let x := k % 32
    (s.blk.core k).mats = j :: rest → j.aborted = false → j.written = true → j.counted = true → j.dst = 0 → j.sums.poison = false →
    j.sums.vals.length = j.sums.rows → (∀ r ∈ j.sums.vals, r.length = j.sums.cols) →
    s.blk.place (j.desc / 32 * 32) = some dk → d = (s.blk.rawWord dk).1.toNat → s.blk.descOk d false = true → plainDesc d = true →
    j.out = some e →
    let w := fmtWidth (dFmt d) / 8
    let out := s.blk.outAt d e j.sums.cols
    let ix (r q : Nat) : Nat := out.i0 + r * out.stride + q
    let el (r q : Nat) : ConvEl :=
      ⟨if j.sums.int then .ofInt (sext 32 (j.sums.at_ r q)) else f32.val (j.sums.at_ r q), q, ix r q⟩
    j.sums.cols ≤ out.stride →
    Does (.matrixOpComplete c) s fun b =>
      (∀ r q n, r < j.sums.rows → q < j.sums.cols → n < w →
        b.byte (out.key + w * ix r q + n) = BitVec.ofNat 8 (codeOf s.blk k d (el r q) / 2 ^ (8 * n)))
        ∧ (∀ a, (∀ r q, r < j.sums.rows → q < j.sums.cols → a < out.key + w * ix r q ∨ out.key + w * ix r q + w ≤ a) →
            b.byte a = s.blk.byte a)
        ∧ (b.core k).mats = rest
        ∧ b.rd (MAT_OPS.count cd x) = (s.blk.rd (MAT_OPS.count cd x) + 1) % 2 ^ 48
        ∧ b.rd (MAT_MACS.count cd x) = (s.blk.rd (MAT_MACS.count cd x) + j.macs) % 2 ^ 64
        ∧ b.scale = { s.blk.scale with reports := b.scale.reports }
        ∧ b.scale.reports.length = s.blk.scale.reports.length + 1
        ∧ Stores out.key b { s.blk with scale := b.scale, freeCtr := b.freeCtr }

/-- R72, R81, R85, R143: MOP starts an operation on its engine with the operands and starting sums read at issue; an operation with
m or n of 0 delivers nothing. -/
def Sys2Proof.Says.MopStartsAnOperation : Prop :=
  ∀ (i : Issue) (o : MOp) (s : State), CanIssue i s.blk → GuardHolds i s.blk → WellFormed.mop o = true →
    let k := coreKey i.core
    let empty := o.m = 0 ∨ o.n = 0
    let r := (s.blk.countIssue k).mopRun k o
    (empty ∨ r.1.2 = false) → Does (.mop i o) s fun b => ∃ j : MatJob,
      (b.core k).mats = ((if empty then s.blk.core k else r.2.core k)).mats ++ [j]
        ∧ j.written = !decide empty ∧ j.counted = true ∧ j.aborted = false ∧ j.dst = o.accDst.toNat ∧ j.set = b2n o.accSet
        ∧ j.macs = o.m.toNat * o.n.toNat * o.k.toNat
        ∧ (¬empty → j.sums = r.1.1 ∧ j.sums.rows = o.m.toNat ∧ j.sums.cols = o.n.toNat)
        ∧ b.on (MAT_STATUS.busy (k / 32) (k % 32)) = true
        ∧ b.mem = s.blk.mem

namespace Sys2Proof.Says

/-- The exact sums of the groups of `g` products, in order. -/
def groupSums (g : Nat) (l : List (Ex × Ex)) : List Int :=
  (List.range (cdiv l.length g)).map fun i => (((l.drop (g * i)).take g).map fun t => exInt t.1 * exInt t.2).sum

/-- The running value after one more group, and whether a limit has replaced a result (R79). -/
def clampStep (a : Int × Bool) (s : Int) : Int × Bool :=
  if a.1 + s < -(2 ^ 31) then (-(2 ^ 31), true) else if 2 ^ 31 - 1 < a.1 + s then (2 ^ 31 - 1, true) else (a.1 + s, a.2)

end Sys2Proof.Says

/-- R79: an INT32 accumulation adds the exact sum of each group of products to the running value; a result outside the range of INT32
is replaced by the limit on that side, with the overflow flag and the int_sat flag, and later groups are added to the clamped value. -/
def Obligations.IntegerAccumulationClampsEachGroup : Prop :=
  ∀ (g n fl : Nat) (start : Int) (l : List (Ex × Ex)), 0 < g → l.length ≤ n → -(2 ^ 31) ≤ start → start < 2 ^ 31 →
    let r := accumulate true g n ⟨wrapInt 32 start, fl⟩ l
    let x := (Says.groupSums g l).foldl Says.clampStep (start, false)
    sext 32 r.v = x.1 ∧ r.fl = if x.2 then fl ||| 2 ||| 8 else fl

/-- R81, R82, R86, R89: MATRIX_OP_COMPLETE counts the oldest operation and its products, ORs its flags into MAT_FLAGS, and leaves resident
sums in their set, whose other rows and columns keep what they held, or the words of the spill record in memory. -/
def Sys2Proof.Says.MatrixOperationDelivers : Prop :=
  ∀ (c : CoreId) (s : State) (j : MatJob) (rest : List MatJob), s.blk.ras.injects = [] →
    let k := coreKey c
    let cd := k / 32
    let x := k % 32
    (s.blk.core k).mats = j :: rest → j.aborted = false → j.written = true → j.counted = true →
    (j.dst = 2 → j.dataflow = 1 → j.sums.poison = false → j.sums.rows ≤ 64 → j.sums.cols ≤ 64 → Does (.matrixOpComplete c) s fun b =>
      let set := Sp.get AccSet.init (b.core k).acc j.set
      let old := Sp.get AccSet.init (s.blk.core k).acc j.set
      (b.core k).mats = rest
        ∧ (∀ r q, r < 64 → q < 64 →
            set.at_ r q = if r < j.sums.rows ∧ q < j.sums.cols then j.sums.at_ r q else old.at_ r q)
        ∧ set.flags = j.sums.flags ∧ set.poisoned j.sums.rows j.sums.cols = false
        ∧ (∀ n, n ≠ j.set → Sp.get AccSet.init (b.core k).acc n = Sp.get AccSet.init (s.blk.core k).acc n)
        ∧ b.on (if j.set = 0 then MAT_STATUS.set0_held cd x else MAT_STATUS.set1_held cd x) = true
        ∧ b.rd (MAT_OPS.count cd x) = (s.blk.rd (MAT_OPS.count cd x) + 1) % 2 ^ 48
        ∧ b.rd (MAT_OPS.aborted cd x) = s.blk.rd (MAT_OPS.aborted cd x)
        ∧ b.rd (MAT_MACS.count cd x) = (s.blk.rd (MAT_MACS.count cd x) + j.macs) % 2 ^ 64
        ∧ b.reg (.matFlags cd x) = (s.blk.reg (.matFlags cd x) ||| j.sums.flags) % 2 ^ 64
        ∧ (∀ i, i ≠ k → b.core i = s.blk.core i) ∧ b = { s.blk with regs := b.regs, cores := b.cores })
    ∧ (∀ key, j.dst = 1 → j.out = some key → 32 ∣ key → Does (.matrixOpComplete c) s fun b =>
      let ws := spillWords j.sums j.shape (isLee k)
      (b.core k).mats = rest
        ∧ (∀ n, n < ws.length → b.rawWord (key + 32 * n) = (BitVec.ofNat 256 (ws.getD n 0), poisonErr j.sums.poison))
        ∧ BytesKeep key (32 * ws.length) s.blk b
        ∧ b.rd (MAT_OPS.count cd x) = (s.blk.rd (MAT_OPS.count cd x) + 1) % 2 ^ 48
        ∧ Stores key b { s.blk with err := b.err, freeCtr := b.freeCtr })

/-- R143: an instruction whose guard does not hold has its issue cost and unit occupancy, writes no register of the context,
memory or flag, and starts no transfer. -/
def Sys2Proof.Says.GuardedOffInstructionsDoNothing : Prop :=
  (∀ i, GuardedOff (.nop i) i fun _ => []) ∧ (∀ i v c, GuardedOff (.vote i v c) i fun _ => [])
    ∧ (∀ i o, GuardedOff (.sli i o) i fun _ => []) ∧ (∀ i o, GuardedOff (.sadd i o) i fun _ => [])
    ∧ (∀ i o, GuardedOff (.ssub i o) i fun _ => []) ∧ (∀ i o, GuardedOff (.smul i o) i fun _ => [])
    ∧ (∀ i o, GuardedOff (.sand i o) i fun _ => []) ∧ (∀ i o, GuardedOff (.sor i o) i fun _ => [])
    ∧ (∀ i o, GuardedOff (.sxor i o) i fun _ => []) ∧ (∀ i o, GuardedOff (.sshl i o) i fun _ => [])
    ∧ (∀ i o, GuardedOff (.sshr i o) i fun _ => []) ∧ (∀ i o, GuardedOff (.ssra i o) i fun _ => [])
    ∧ (∀ i o, GuardedOff (.smin i o) i fun _ => []) ∧ (∀ i o, GuardedOff (.smax i o) i fun _ => [])
    ∧ (∀ i o, GuardedOff (.scmp i o) i fun _ => []) ∧ (∀ i o, GuardedOff (.plog i o) i fun _ => [])
    ∧ (∀ i o, MopOff i o)
    ∧ (∀ i o, GuardedOff (.vfp i o) i vecRegs) ∧ (∀ i o, GuardedOff (.vfpd i o) i vecRegs)
    ∧ (∀ i o, GuardedOff (.vint i o) i vecRegs) ∧ (∀ i o, GuardedOff (.vcmp i o) i vecRegs)
    ∧ (∀ i o, GuardedOff (.vcvt i o) i vecRegs) ∧ (∀ i o, GuardedOff (.vfn i o) i vecRegs)
    ∧ (∀ i o, GuardedOff (.vmove i o) i vecRegs) ∧ (∀ i o, GuardedOff (.vred i o) i vecRegs)
    ∧ (∀ i o, GuardedOff (.vld i o) i vecRegs) ∧ (∀ i o, GuardedOff (.vst i o) i vecRegs)
    ∧ (∀ i o, GuardedOff (.vstr i o) i vecRegs) ∧ (∀ i o, GuardedOff (.vrand i o) i vecRegs)
    ∧ (∀ i o, GuardedOff (.vclrf i o) i vecRegs) ∧ (∀ i o, GuardedOff (.setvl i o) i vecRegs)
    ∧ (∀ i o, GuardedOff (.kop i o) i vecRegs)
    ∧ (∀ i r, GuardedOff (.nxfer i r) i fun _ => []) ∧ (∀ i r, GuardedOff (.dma i r) i fun _ => [])
    ∧ (∀ i r, GuardedOff (.gstart i r) i fun _ => []) ∧ (∀ i r, GuardedOff (.coll i r) i fun _ => [])
    ∧ (∀ i r, GuardedOff (.pref i r) i fun _ => [])

/-- R168, R169, R176, R178, R184: NXFER moves its words from the issuing core's SRAM to the peer's; DMA and PREF start a transfer of the words
that their descriptor names, which holds a request on each channel of external memory that it touches, but for a read through the near
cache; a write raises its regions' generations and in-flight counts, and a checked prefetch takes its first sample. No other claim is on the
lanes. -/
def Sys2Proof.Says.TransfersStartFromTheirDescriptor : Prop :=
  ∀ (i : Issue) (r : BitVec 5) (s : State) (x : Nat), CanIssue i s.blk → GuardHolds i s.blk → Clean s.blk → s.blk.claims = [] →
    let k := coreKey i.core
    Describes k r s.blk x →
    let home := s.blk.coreKeyOf k (tCoreOff x) (tCoreRel x)
    let peer := tPeerDie x * 32 + tPeerSite x
    let far := sramKey peer
      + (tPeerOff x + if tPeerRel x then s.blk.partBase peer (s.blk.slot k) else 0) % sramBytes peer
    (tKind x = 0 → tPeerDie x < 12 → tPeerSite x < 32 → Does (.nxfer i r) s fun b =>
      (∀ j, j < 32 * tWords x → b.byte (far / 32 * 32 + j) = s.blk.byte (home / 32 * 32 + j))
        ∧ BytesKeep (far / 32 * 32) (32 * tWords x) s.blk b
        ∧ b.pc k = (closeAt 16 (s.blk.core k).loops (s.blk.core k).brs (s.blk.pc k + 1)).2.2 % 2 ^ 11
        ∧ b = { s.blk with regs := b.regs, cores := b.cores, mem := b.mem, claims := b.claims })
    ∧ (∀ mk : Issue → BitVec 5 → Instr, ∀ key,
      (mk = .dma ∧ (tKind x = 1 ∨ tKind x = 2) ∨ mk = .pref ∧ (tKind x = 3 ∨ tKind x = 4)) →
      s.blk.placeRun (tDev x) (tWords x) = some key → 0 < tWords x → Does (mk i r) s fun b =>
      (∃ t : Xfer, b.xfers = s.blk.xfers ++ [t] ∧ t.id = s.blk.nextXfer ∧ t.core = k ∧ t.kind = tKind x ∧ t.home = home
          ∧ t.dev = tDev x ∧ t.dst = tDst x ∧ t.words = tWords x ∧ t.cached = (tCached x && tKind x == 1) ∧ t.aborted = false)
        ∧ b.nextXfer = s.blk.nextXfer + 1
        ∧ (stageKey ≤ key ∨ (tCached x = true ∧ tKind x = 1) → b.memReqs = s.blk.memReqs)
        ∧ (key < stageKey → ¬(tCached x = true ∧ tKind x = 1) → tDev x % 4096 + 32 * tWords x ≤ 4096 →
          ∃ q : MemReq, Sp.get [] b.memReqs (chanOf (tDev x)) = Sp.get [] s.blk.memReqs (chanOf (tDev x)) ++ [q]
            ∧ q.owner = ownCore k ∧ q.addr = tDev x ∧ q.words = tWords x ∧ q.write = decide (tKind x = 2)
            ∧ q.serves = .xfer s.blk.nextXfer ∧ q.heldAt = s.blk.now)
        ∧ (tKind x = 2 → ∀ g, b.region g = if g ∈ regionsOf key (tWords x) then
            { gen := (s.blk.region g).gen + 1, inFlight := (s.blk.region g).inFlight + 1 } else s.blk.region g)
        ∧ (tKind x = 1 → b.regions = s.blk.regions)
        ∧ (tKind x = 4 → ∃ p : PrefCheck, b.checks = s.blk.checks ++ [p] ∧ p.id = s.blk.nextXfer ∧ p.core = k ∧ p.status = home
            ∧ p.gen1 = none ∧ p.anchors = tChecks x)
        ∧ (tKind x ≠ 4 → b.checks = s.blk.checks)
        ∧ b.mem = s.blk.mem ∧ b.flash = s.blk.flash ∧ b.ports = s.blk.ports)

/-- R150, R169, R176: DMA_COMPLETE ends the core's oldest transfer that has no request left and posts to queue 4; where it read from staging, its
words are in the core's SRAM; REGION_WRITE_COMPLETE takes one write off the region's in-flight count, while it is above the transfers that
have words to come there, and keeps its generation. -/
def Sys2Proof.Says.TransfersCompleteAndPost : Prop :=
  ∀ (c : CoreId) (s : State) (x : Xfer) (rest : List Xfer), s.blk.xfers = x :: rest → Clean s.blk →
    let k := coreKey c
    x.core = k → (∀ y ∈ rest, y.id ≠ x.id) → s.blk.memReqs = [] → x.aborted = false → x.cached = false →
    x.due ≤ s.blk.now → (s.blk.core k).waitq = none →
    (x.kind = 1 → ∀ key, s.blk.placeRun x.dev x.words = some key → 0 < x.words → Does (.dmaComplete c) s fun b =>
      b.xfers = rest ∧ Sp.get 0 (b.core k).qcnt 4 = Sp.get 0 (s.blk.core k).qcnt 4 + 1
        ∧ (stageKey ≤ key → (∀ j, j < 32 * x.words → b.byte (x.home / 32 * 32 + j) = s.blk.byte (key / 32 * 32 + j))
            ∧ BytesKeep (x.home / 32 * 32) (32 * x.words) s.blk b)
        ∧ (key < stageKey → b.mem = s.blk.mem)
        ∧ b = { s.blk with regs := b.regs, cores := b.cores, mem := b.mem, xfers := b.xfers, checks := b.checks })
    ∧ (∀ staging region, let r := (if staging then 2 ^ 20 else 0) + region.toNat
      Does (.regionWriteComplete staging region) s fun b =>
        b.region r = { s.blk.region r with inFlight :=
            (s.blk.region r).inFlight - if s.blk.writersIn r < (s.blk.region r).inFlight then 1 else 0 }
          ∧ (∀ q, q ≠ r → b.region q = s.blk.region q) ∧ b = { s.blk with regions := b.regions })

/-- R355: MBAL issues for one cycle and occupies the matrix engine for its count of cycles, of which the ballast duty's share counts as work
and the rest as bubbles. -/
def Sys2Proof.Says.BallastOccupiesTheEngine : Prop :=
  ∀ (i : Issue) (n : BitVec 17) (s : State), CanIssue i s.blk →
    let k := coreKey i.core
    let cd := k / 32
    let x := k % 32
    let cyc := n.toNat + 1
    let duty := if s.blk.guardOn k i.guard then s.blk.ballastFrac k else 0
    let busy := cyc / 16 * duty + min duty (cyc % 16)
    s.blk.on (SEQ_PERF_CTRL.freeze cd x) = false →
    Does (.mbal i n) s fun b => Issued k 1 [.seqStall cd x 1 0, .seqStall cd x 1 1] 
        (fun c => { c with matCounted := max c.matCounted (s.blk.absCyc k + cyc) }) s.blk b
      ∧ b.rd (SEQ_STALL.count cd x 1 0) = (s.blk.rd (SEQ_STALL.count cd x 1 0) + busy) % 2 ^ 48
      ∧ b.rd (SEQ_STALL.count cd x 1 1) = (s.blk.rd (SEQ_STALL.count cd x 1 1) + (cyc - busy)) % 2 ^ 48

/-! ### Machine time -/
namespace Sys2Proof.Says

/-- No injection is armed (R292). -/
def NoInj (b : Blk) : Prop := b.ras.injects = []

/-- Only registers of the list, the time block's own state, the events and the votes may differ from `b`. -/
def TimeOnly (l : List Reg) (b b' : Blk) : Prop :=
  RegsKeep l b b' ∧ b' = { b with regs := b'.regs, time := b'.time, ev := b'.ev, vote := b'.vote }

/-- What the law of R31 makes of an offset `e` (2⁻³² ns): the integral term it leaves and the rate adjustment (R25), with r = e
over 64 µs in units of 2⁻⁶⁴ per ns. -/
def lawInteg (b : Blk) (e : Int) : Int := b.time.integ + e * 2 ^ 32 / 64000 / (2 : Int) ^ b.rd MTC_LOOP.ki_shift
def lawAdj (b : Blk) (e : Int) : Int :=
  max (-219902325) (min 219902325 ((lawInteg b e + e * 2 ^ 32 / 64000 / (2 : Int) ^ b.rd MTC_LOOP.kp_shift) / 2 ^ 24))

def portStats : List Reg := (List.range 10).map Reg.mtcPortStat

/-- Port `p` received the accepted set `x` now: what R28 and R29 compute from it and the set of its own that it answers, in
2⁻³² ns. -/
def offsetOf (b : Blk) (p x : Nat) (at16 : Nat) : Int :=
  let rt : Int := (b.now16 : Int) - at16 - bits x 112 32
  (((bits x 48 64 * 2 ^ 16 + bits x 32 16 : Nat) : Int) - b.now16) * 2 ^ 16 + rt * 2 ^ 15
    + b.rdI (MTC_PORT_CAL.asym p) * 2 ^ 32 / 1000

end Sys2Proof.Says

/-- R30, R31, R36: a module with one parent takes that parent's hop count plus one, steers its integral term and its rate by the
parent's offset and starts a new period; the counter itself does not step. -/
def Sys2Proof.Says.ChildFollowsItsParent : Prop :=
  ∀ (s : State) (p : Nat) (e : Int), s.blk.dstate ≠ stOff → s.blk.dstate ≠ stSync → s.blk.time.stepped = true →
    s.blk.on MTC_STATUS.is_root = false → s.blk.contributors = [p] → (s.blk.ptime p).samples = [e] →
    (s.blk.ptime p).nbHoldover = false → (s.blk.ptime p).nbHops < 62 → s.blk.halved p = false →
    Does .controlLawUpdate s fun b =>
      b.rd MTC_STATUS.hops = (s.blk.ptime p).nbHops + 1 ∧ b.rd MTC_STATUS.holdover = 0 ∧ b.time.holdSince = none
        ∧ b.time.integ = lawInteg s.blk e ∧ b.rdI MTC_RATE.adj = lawAdj s.blk e
        ∧ b.rd (MTC_PORT_STAT.role p) = 1 ∧ b.rd (MTC_PORT_STAT.valid p) = 1
        ∧ b.rdI (MTC_PORT_STAT.offset p) = max (-(2 ^ 31)) (min (2 ^ 31 - 1) (e / 2 ^ 16))
        ∧ (∀ q, q < 10 → (b.ptime q).samples = []) ∧ b.time.mtc = s.blk.time.mtc
        ∧ TimeOnly (.mtcStatus :: .mtcRate :: portStats) s.blk b

/-- R34, R36: a root without 1PPS discipline runs at its trim with hop count 0, its rate moving by at most 1 ppm a second; a module without a contributing port that has had
one enters holdover: it keeps its rate, advertises 63 hops and raises EV_TIME_HOLDOVER. -/
def Sys2Proof.Says.RootTrimAndHoldover : Prop :=
  (∀ s : State, s.blk.dstate ≠ stOff → s.blk.on MTC_STATUS.is_root = true → s.blk.on MTC_CTRL.pps_enable = false →
    s.blk.time.stepped = true → Does .controlLawUpdate s fun b =>
      let old := s.blk.rdI MTC_RATE.adj
      let trim := max (-219902325) (min 219902325 (s.blk.rdI MTC_ROOT_TRIM.trim))
      b.rd MTC_STATUS.hops = 0 ∧ b.rdI MTC_RATE.adj = max (-219902325) (min 219902325 (max (old - 70) (min (old + 70) trim)))
        ∧ b.rd MTC_STATUS.locked = s.blk.rd MTC_STATUS.locked ∧ b.rd MTC_STATUS.is_root = 1 ∧ b.ev = s.blk.ev
        ∧ b.time.mtc = s.blk.time.mtc ∧ b.time.integ = s.blk.time.integ
        ∧ TimeOnly (.mtcStatus :: .mtcRate :: portStats) s.blk b)
    ∧ ∀ s : State, s.blk.dstate ≠ stOff → s.blk.on MTC_STATUS.is_root = false → s.blk.contributors = [] →
      s.blk.time.everContrib = true → s.blk.time.holdSince = none →
      Does .controlLawUpdate s fun b =>
        b.rd MTC_STATUS.hops = 63 ∧ b.rd MTC_STATUS.holdover = 1 ∧ b.time.holdSince = some s.blk.now
          ∧ Raised 0 4 0x0104 (s.blk.rd MTC_STATUS.hops + s.blk.time.lastContrib * 2 ^ 6) s.blk b
          ∧ b.reg .mtcRate = s.blk.reg .mtcRate ∧ b.time.mtc = s.blk.time.mtc ∧ b.time.integ = s.blk.time.integ
          ∧ TimeOnly (.mtcStatus :: portStats) s.blk b

/-- R28, R29: an arriving set that answers one of the port's own adds its offset to the period; one that answers none, or whose
round trip is out of range, is counted as discarded and adds none. -/
def Sys2Proof.Says.TimestampsGiveOffsets : Prop :=
  ∀ (p : Port) (set : BitVec 160) (s : State), s.blk.pLive p.val = true → bits set.toNat 0 8 = 0x5A → NoInj s.blk →
    let x := set.toNat
    let pt := s.blk.ptime p.val
    let found := pt.sent.find? fun t => t.seq = bits x 16 8 ∧ s.blk.now16 < t.at16 + 64000 * 2 ^ 16
    Does (.timestampReceive p set) s fun b =>
      let near := b.ptime p.val
      near.nbHops = bits x 24 6 ∧ near.nbRoot = bit x 30 ∧ near.nbHoldover = bit x 31 ∧ near.lastRxSeq = bits x 8 8
        ∧ near.lastRxAt = s.blk.now16 ∧ b.rd (MTC_PORT_STAT.hops p.val) = bits x 24 6
        ∧ (∀ q, q ≠ p.val → b.ptime q = s.blk.ptime q) ∧ b.time.mtc = s.blk.time.mtc
        ∧ (∀ t, found = some t → 0 ≤ (s.blk.now16 : Int) - t.at16 - bits x 112 32 →
            (s.blk.now16 : Int) - t.at16 - bits x 112 32 ≤ 50000 * 2 ^ 16 →
            near.samples = pt.samples ++ [offsetOf s.blk p.val x t.at16]
              ∧ b.rd (MTC_PORT_STAT.discards p.val) = s.blk.rd (MTC_PORT_STAT.discards p.val))
        ∧ ((found = none ∨ ∃ t, found = some t ∧ ((s.blk.now16 : Int) - t.at16 - bits x 112 32 < 0
              ∨ 50000 * 2 ^ 16 < (s.blk.now16 : Int) - t.at16 - bits x 112 32)) →
            near.samples = pt.samples
              ∧ b.rd (MTC_PORT_STAT.discards p.val) = min (s.blk.rd (MTC_PORT_STAT.discards p.val) + 1) (2 ^ 16 - 1))
        ∧ TimeOnly [.mtcStatus, .mtcPortStat p.val] s.blk b

/-- R34, R35: at a disciplined root an edge of a pulse of legal width leaves its capture, less 52 ns, from the nearest second in
MTC_PPS_STAT, in the sense that log entry 119 chooses, and counts; 1.1 s after the last edge the root gives 1PPS up, with EV_PPS_LOSS, and keeps its rate. -/
def Sys2Proof.Says.PulsesDisciplineTheRoot : Prop :=
  (∀ (high : Nat) (s : State), 1000 ≤ high → high ≤ 500000000 → s.blk.on MTC_CTRL.pps_enable = true →
    s.blk.time.pendingTod = none → s.blk.on MTC_STATUS.is_root = true → s.blk.time.ppsLost = false →
    52 * 2 ^ 16 ≤ s.blk.now16 →
    Does (.ppsEdge high) s fun b =>
      let cap : Nat := s.blk.now16 - 52 * 2 ^ 16
      b.rd MTC_STATUS.pps_valid = 1 ∧ b.rd MTC_PPS_STAT.edges = (s.blk.rd MTC_PPS_STAT.edges + 1) % 2 ^ 32
        ∧ (∀ (sec : Nat) (err : Int), err = (sec : Int) * 1000000000 * 2 ^ 16 - (cap : Int) → err.natAbs < 500000000 * 2 ^ 16 →
            b.rdI MTC_PPS_STAT.last_error = max (-(2 ^ 31)) (min (2 ^ 31 - 1) err))
        ∧ b.time.ppsLast = some (cap / 2 ^ 16) ∧ b.time.mtc = s.blk.time.mtc ∧ b.ev = s.blk.ev
        ∧ TimeOnly [.mtcStatus, .mtcPpsStat] s.blk b)
    ∧ ∀ (s : State) (l : Nat), s.blk.time.ppsLast = some l → s.blk.on MTC_STATUS.is_root = true →
      s.blk.on MTC_STATUS.pps_valid = true → l + 1100000000 ≤ s.blk.now →
      Does .ppsLossTimeout s fun b =>
        b.rd MTC_STATUS.pps_valid = 0 ∧ Raised 0 4 0x0103 (min ((s.blk.now - l) / 1000) (2 ^ 32 - 1)) s.blk b
          ∧ b.reg .mtcRate = s.blk.reg .mtcRate ∧ b.time.mtc = s.blk.time.mtc ∧ TimeOnly [.mtcStatus] s.blk b

/-- R27, R37: a stopped or drifting oscillator gives way to the other one, with EV_MTO_SWITCH and the loss of lock of a module that is
no root; the backup root of rank r takes the role 1 + 5 (r − 1) ms after the last advertised root, locked, with its rate as trim. -/
def Sys2Proof.Says.OscillatorAndBackupRootTakeOver : Prop :=
  (∀ (m : OscMeasure) (s : State), NoInj s.blk → (m.stopped = true ∨ 10000 < m.drift.natAbs) → m.otherOk = true →
    s.blk.time.otherOscBad = false →
    Does (.oscillatorCheck m) s fun b =>
      b.rd MTC_STATUS.mto_sel = 1 - s.blk.rd MTC_STATUS.mto_sel
        ∧ Raised 0 4 0x0102 (1 - s.blk.rd MTC_STATUS.mto_sel + 2 * b2n (!m.stopped) + wrapInt 32 m.drift * 4) s.blk b
        ∧ b.rd MTC_STATUS.locked = (if s.blk.on MTC_STATUS.is_root then s.blk.rd MTC_STATUS.locked else 0)
        ∧ b.time.mtc = s.blk.time.mtc ∧ TimeOnly [.mtcStatus] s.blk b)
    ∧ ∀ s : State, s.blk.rd MTC_CTRL.backup_rank ≠ 0 → s.blk.dstate = stReady ∨ s.blk.dstate = stArmed ∨ s.blk.dstate = stRun →
      s.blk.on MTC_STATUS.is_root = false →
      s.blk.time.noRootSince + (1 + 5 * (s.blk.rd MTC_CTRL.backup_rank - 1)) * 1000000 ≤ s.blk.now →
      Does .backupRootTakeover s fun b =>
        b.rd MTC_STATUS.is_root = 1 ∧ b.rd MTC_STATUS.locked = 1 ∧ b.rd MTC_STATUS.hops = 0 ∧ b.rd MTC_STATUS.holdover = 0
          ∧ b.rd MTC_ROOT_TRIM.trim = s.blk.rd MTC_RATE.adj ∧ b.reg .mtcRate = s.blk.reg .mtcRate
          ∧ b.time.mtc = s.blk.time.mtc ∧ b.time.holdSince = none ∧ TimeOnly [.mtcStatus, .mtcRootTrim] s.blk b
/-! ### Scheduled actions and anchors -/
namespace Sys2Proof.Says

/-- Entry `n` of the scheduled-event table holds `action`, its instant lies 40 ns back or more, and no other valid entry is due. -/
def Due (n action : Nat) (b : Blk) : Prop :=
  n < 32 ∧ b.on (MTC_SCHED_ACT.valid n) = true ∧ b.rd (MTC_SCHED_ACT.action n) = action ∧ b.schedInst n + 40 ≤ b.now
    ∧ ∀ m, m < 32 → m ≠ n → b.on (MTC_SCHED_ACT.valid m) = true → b.now < b.schedInst m + 40

/-- The entry's argument. -/
def argOf (n : Nat) (b : Blk) : Nat := b.rd (MTC_SCHED_ACT.arg n)

/-- What a core does as segment `n` opens: without code for its site, or in a removed segment, it waits for the closing anchor; with
code in a half of its instruction cache it starts at the first instruction; while no half holds the block it is
held. -/
def Opens (j : Job) (n k : Nat) (b b' : Blk) : Prop :=
  ((b.run.removed.contains n = true ∨ j.codeFor n k = none) → b'.seqState k = 2 ∧ b'.segOf k = n)
    ∧ (∀ h, b.run.removed.contains n = false → (j.codeFor n k).isSome = true → b.served k = true →
        b.halfOf k (j.seg n).block = some (h, false) → b'.seqState k = 1 ∧ b'.pc k = 0 ∧ b'.segOf k = n
          ∧ b'.rd (SEQ_ICACHE.exec_half (k / 32) (k % 32)) = h)
    ∧ (b.run.removed.contains n = false → (j.codeFor n k).isSome = true → b.served k = true →
        b.halfOf k (j.seg n).block = none → b'.seqState k = 3)

/-- Nothing but the release itself happens at an anchor: no doubt is answered, no lane switches, no core drains or swaps, and the image
names no bindings and no scheduled entries. -/
def QuietJob (j : Job) (b : Blk) : Prop :=
  b.run.job = some j ∧ j.sched = [] ∧ j.bindings = [] ∧ j.commits = false ∧ j.segs.length ≤ 4096 ∧ b.coll.answer = none
    ∧ b.ras.d2dSwitch = [] ∧ b.run.swaps = [] ∧ b.checks = [] ∧ ∀ k, (b.core k).draining = false

/-- Segment `n` binds no context. -/
def BindsNone (j : Job) (n : Nat) : Prop := 8 ≤ (j.seg n).c0 ∧ 8 ≤ (j.seg n).c1

end Sys2Proof.Says

/-- R43, R45, R297: a due entry of action 0x06 opens the self-test window until the earliest later close in the table, one of action 0x07
shuts it; either entry becomes invalid and nothing else changes. -/
def Sys2Proof.Says.SelftestWindowsOpenAndClose : Prop :=
  (∀ (s : State) (n : Nat), Due n 6 s.blk → s.blk.run.job = none →
    Does .selftestWindowOpen s fun b =>
      let later (m : Nat) : Prop := m < 32 ∧ s.blk.on (MTC_SCHED_ACT.valid m) = true ∧ s.blk.rd (MTC_SCHED_ACT.action m) = 7
        ∧ s.blk.schedInst n ≤ s.blk.schedInst m
      b.on (MTC_SCHED_ACT.valid n) = false
        ∧ (∀ m, later m → ∃ e, b.ras.window = some e ∧ e ≤ s.blk.schedInst m)
        ∧ (∀ e, b.ras.window = some e → ∃ m, later m ∧ s.blk.schedInst m = e)
        ∧ RegsKeep [.mtcSchedAct n] s.blk b
        ∧ b = { s.blk with regs := b.regs, ras := { s.blk.ras with window := b.ras.window } })
    ∧ ∀ (s : State) (n : Nat), Due n 7 s.blk →
      Does .selftestWindowClose s fun b => b.on (MTC_SCHED_ACT.valid n) = false ∧ b.ras.window = none
        ∧ RegsKeep [.mtcSchedAct n] s.blk b
        ∧ b = { s.blk with regs := b.regs, ras := { s.blk.ras with window := none } }

/-- R224 to R226: a switch whose bank differs, released and ready on both routers makes the new bank active, opens the old epoch's channels of
the live ports and asks for release and readiness anew; a mark closes the channels it names; a router whose
channels are closed and that holds no old-epoch packet is released. -/
def Sys2Proof.Says.EpochsSwitchDrainAndRelease : Prop :=
  (∀ (s : State) (n : Nat), Due n 2 s.blk →
    (∀ ld, ld < 2 → s.blk.rd (ROUTE_EPOCH.active ld) ≠ argOf n s.blk % 2 ∧ s.blk.on (ROUTE_EPOCH.released ld) = true
      ∧ s.blk.on (ROUTE_EPOCH.shadow_ready ld) = true ∧ (s.blk.router ld).refusedSwitch = false) →
    Does .epochSwitch s fun b =>
      (∀ ld, ld < 2 → b.rd (ROUTE_EPOCH.active ld) = argOf n s.blk % 2 ∧ b.rd (ROUTE_EPOCH.released ld) = 0
        ∧ b.rd (ROUTE_EPOCH.shadow_ready ld) = 0 ∧ b.rd (ROUTE_EPOCH.refused ld) = s.blk.rd (ROUTE_EPOCH.refused ld)
        ∧ ∀ i, i < 5 → b.rd (ROUTE_DRAIN.open_ ld i) = if s.blk.pLive (ld * 5 + i) then 255 else 0)
      ∧ b.ev = s.blk.ev ∧ b = { s.blk with regs := b.regs, ports := b.ports })
    ∧ (∀ (s : State) (n : Nat), Due n 2 s.blk → (∀ ld, ld < 2 → s.blk.on (ROUTE_EPOCH.released ld) = false) →
      Does .epochSwitch s fun b => ∀ ld, ld < 2 → b.rd (ROUTE_EPOCH.active ld) = s.blk.rd (ROUTE_EPOCH.active ld)
        ∧ b.rd (ROUTE_EPOCH.refused ld) = min (s.blk.rd (ROUTE_EPOCH.refused ld) + 1) (2 ^ 32 - 1)
        ∧ ∃ r ∈ b.ev.held, r.code = 0x0506 ∧ r.die = 17 + ld ∧ r.unit = 5)
    ∧ (∀ (p : Port) (e : Bool) (vcs : BitVec 8) (s : State), s.blk.on (ROUTE_EPOCH.released (p.val / 5)) = false →
      b2n e = s.blk.rd (ROUTE_EPOCH.active (p.val / 5)) →
      Does (.epochMark p e vcs) s fun b => ∀ v, v < 8 →
        bit (b.rd (ROUTE_DRAIN.open_ (p.val / 5) (p.val % 5))) v
          = (bit (s.blk.rd (ROUTE_DRAIN.open_ (p.val / 5) (p.val % 5))) v && !bit vcs.toNat v))
    ∧ ∀ (ld : Fin 2) (s : State), s.blk.on (ROUTE_EPOCH.released ld.val) = false →
      (∀ i, i < 6 → s.blk.rd (ROUTE_DRAIN.open_ ld.val i) = 0 ∧ s.blk.oldPackets ld.val i = 0) →
      Does (.epochBankRelease ld) s fun b => b.rd (ROUTE_EPOCH.released ld.val) = 1
        ∧ RegsKeep [.routeEpoch ld.val] s.blk b ∧ b = { s.blk with regs := b.regs }

/-- R346 to R348, R354: in READY a scheduled change between Gale and Breeze stops the arithmetic clock and is pending; its
completion puts the mode, its clocks, its voltages and its power limit in force. A change into Calm ends the cores and their SRAM and puts the
memory channels into self-refresh; the change out of it ends self-refresh. -/
def Sys2Proof.Says.ModeChangesStartAndComplete : Prop :=
  (∀ (s : State) (n : Nat), Due n 3 s.blk → s.blk.dstate = stReady → argOf n s.blk % 4 < 2 →
    s.blk.rd PWR_MODE.mode < 2 → argOf n s.blk % 4 ≠ s.blk.rd PWR_MODE.mode →
    Does .modeChange s fun b =>
      b.on (MTC_SCHED_ACT.valid n) = false ∧ b.rd PWR_MODE.pending = argOf n s.blk % 4
        ∧ b.rd PWR_MODE.mode = s.blk.rd PWR_MODE.mode ∧ b.rd GLB_CLOCKS.arith_mhz = 0
        ∧ RegsKeep [.mtcSchedAct n, .pwrMode, .glbClocks] s.blk b ∧ b = { s.blk with regs := b.regs })
    ∧ (∀ (s : State) (n : Nat), Due n 3 s.blk → s.blk.dstate = stRun →
      Does .modeChange s fun b => b.on (MTC_SCHED_ACT.valid n) = false
        ∧ Raised 0 18 0x0905 (s.blk.rd PWR_MODE.mode + argOf n s.blk % 4 * 4 + stRun * 16) s.blk b
        ∧ RegsKeep [.mtcSchedAct n] s.blk b ∧ b = { s.blk with regs := b.regs, ev := b.ev })
    ∧ (∀ s : State, s.blk.rd PWR_MODE.pending < 2 → s.blk.rd PWR_MODE.mode < 2 →
      Does .modeChangeComplete s fun b =>
        let m := s.blk.rd PWR_MODE.pending
        b.rd PWR_MODE.mode = m ∧ b.rd PWR_MODE.pending = 3 ∧ b.rd GLB_CLOCKS.arith_mhz = (if m = 0 then 3600 else 2700)
          ∧ b.rd GLB_CLOCKS.xbar_mhz = 1800 ∧ b.rd PWR_LIMIT.in_force_w
            = min s.blk.power.limitNow (min (s.blk.rd PWR_LIMIT.phase_cap_w) (if m = 0 then 5000 else 3400))
          ∧ (∀ d, d < 19 → (onComputeRail d = true ∨ s.blk.on (PWR_AVS.avs_en d) = false) →
            b.rd (PWR_AVS.vout_mv d) = (Config.nominalMv d m).toNat)
          ∧ RegsKeep ([.pwrMode, .glbClocks, .pwrLimit] ++ (List.range 19).map Reg.pwrAvs) s.blk b ∧ b = { s.blk with regs := b.regs })
    ∧ (∀ s : State, s.blk.rd PWR_MODE.pending = 2 → s.blk.rd PWR_MODE.mode < 2 →
      Does .modeChangeComplete s fun b =>
        b.rd PWR_MODE.mode = 2 ∧ b.rd PWR_MODE.pending = 3 ∧ b.rd GLB_CLOCKS.arith_mhz = 0 ∧ b.rd GLB_CLOCKS.xbar_mhz = 0
          ∧ (∀ c, c < 136 → b.rd (CHAN_STATUS.self_refresh (c / 34) (c % 34)) = 1) ∧ (∀ k, b.core k = CoreSt.init)
          ∧ (∀ a, a < 2 ^ 49 → b.byte a = s.blk.byte a) ∧ ∀ a, 2 ^ 49 ≤ a → b.byte a = 0)
    ∧ ∀ s : State, s.blk.rd PWR_MODE.pending < 2 → s.blk.rd PWR_MODE.mode = 2 → s.blk.coll.jcopy = none →
      Does .modeChangeComplete s fun b =>
        b.rd PWR_MODE.mode = s.blk.rd PWR_MODE.pending ∧ b.rd PWR_MODE.pending = 3
          ∧ (∀ c, c < 136 → b.rd (CHAN_STATUS.self_refresh (c / 34) (c % 34)) = 0)
          ∧ b.power.levels = s.blk.power.levels.filter (· ≠ 3) ∧ b.mem = s.blk.mem ∧ b.cores = s.blk.cores

/-- R285, R41, R149, R152, R163: the due job start takes an armed module to RUN and opens segment 0; an anchor is released 40 ns after its
instant, not before, and every core that waits for it opens the next segment; ANCHOR makes a core wait for the release of its
segment's closing anchor. The model's readings and choices here: log entries 40, 54. -/
def Obligations.AnchorsStartAndReleaseTheJob : Prop :=
  (∀ (s : State) (n : Nat) (j : Job), Due n 5 s.blk → s.blk.dstate = stArmed → QuietJob j s.blk → s.blk.run.stopAt = none →
    (j.seg 0).prologue = true → BindsNone j 0 → (∀ x, x < 4 → s.blk.lineOf x = none) →
    Does .jobStart s fun b =>
      b.dstate = stRun ∧ b.on (MTC_SCHED_ACT.valid n) = false ∧ b.rd CTL_ARM.phase = 5 ∧ b.rd XBAR_STATUS.idle = 0
        ∧ b.run.seg = 0 ∧ b.run.lastRel = j.tStart + 40 ∧ b.run.stepStart = j.tStart + j.prologueNs
        ∧ ∀ k, k < 384 → Opens j 0 k s.blk b)
    ∧ (∀ (s : State) (j : Job), s.blk.run.job = some j → s.blk.now < s.blk.relOf j s.blk.run.seg →
      Does .anchorRelease s fun b => b = s.blk)
    ∧ (∀ (s : State) (j : Job), s.blk.dstate = stRun → QuietJob j s.blk → s.blk.relOf j s.blk.run.seg ≤ s.blk.now →
      let n := s.blk.run.seg
      let next := j.nextSeg n
      j.startsStep next = false → BindsNone j next → (j.seg n).lull = false → (j.seg next).lull = false →
      s.blk.rd PWR_THERM_STAT.level = 0 →
      Does .anchorRelease s fun b =>
        b.dstate = stRun ∧ b.run.seg = next ∧ b.run.lastRel = s.blk.relOf j n ∧ b.run.stepStart = s.blk.run.stepStart
          ∧ b.time = s.blk.time
          ∧ ∀ k, k < 384 → s.blk.segOf k = n →
            (s.blk.seqState k = 2 → Opens j next k s.blk b)
              ∧ (s.blk.seqState k = 1 → b.seqState k = 1 ∧ b.segOf k = n ∧ b.pc k = s.blk.pc k))
    ∧ ∀ (i : Issue) (s : State) (j : Job), CanIssue i s.blk → NoInj s.blk → s.blk.run.job = some j →
      s.blk.segOf (coreKey i.core) = s.blk.run.seg →
      Does (.anchor i) s fun b =>
        let k := coreKey i.core
        let c := s.blk.core k
        Core k [] { c with arrived := some c.cyc } s.blk b ∧ b.seqState k = 2 ∧ b.pc k = s.blk.pc k
          ∧ b.slot k = s.blk.slot k ∧ b.segOf k = s.blk.segOf k

/-- R155, R156, R162: in the windows reserved for it, a fresh context's swap saves the outgoing one's record and leaves the first state; a swap into a slot that holds
none takes the context and the partition from its area; either way the slot is bound and no longer swapping. A fill
puts the next block into the half that does not execute, valid unless its words are poisoned. -/
def Sys2Proof.Says.SwapsAndFillsServeTheNextRelease : Prop :=
  (∀ (c : CoreId) (x : Bool) (s : State) (w : Swap) (o : Nat), (s.blk.run.swaps.find? fun w => w.core = coreKey c ∧ w.slot = b2n x ∧ s.blk.swapWindow w) = some w →
    w.out = some o → w.fresh = true → w.inc < 8 → (s.blk.core (coreKey c)).opening = none → Clean s.blk →
    let k := coreKey c
    let lee := isLee k
    let key := s.blk.swapKey k o
    32 ∣ key → key + 32 * (recWords lee + s.blk.partWords k w.slot) ≤ 2 ^ 48 →
    Does (.contextSwapComplete c x) s fun b =>
      b.rd (SEQ_CTX.logical (k / 32) (k % 32) w.slot) = w.inc ∧ b.rd (SEQ_CTX.bound (k / 32) (k % 32) w.slot) = 1
        ∧ b.rd (SEQ_CTX.swapping (k / 32) (k % 32) w.slot) = 0 ∧ (b.core k).ctx w.slot = Ctx.init
        ∧ (b.core k).ctx (1 - w.slot) = (s.blk.core k).ctx (1 - w.slot) ∧ b.run.swaps = s.blk.run.swaps.erase w
        ∧ (∀ i, i < recWords lee → b.readWord (key + 32 * i) = ((s.blk.core k).ctx w.slot).word lee o i)
        ∧ (∀ i, i < s.blk.partWords k w.slot →
          b.readWord (key + 32 * (recWords lee + i)) = s.blk.readWord (s.blk.partKey k w.slot + 32 * i))
        ∧ ∀ j, j ≠ k → b.core j = s.blk.core j)
    ∧ (∀ (c : CoreId) (x : Bool) (s : State) (w : Swap), (s.blk.run.swaps.find? fun w => w.core = coreKey c ∧ w.slot = b2n x ∧ s.blk.swapWindow w) = some w →
      w.out = none → w.fresh = false → w.inc < 8 → (s.blk.core (coreKey c)).opening = none → Clean s.blk →
      let k := coreKey c
      let lee := isLee k
      let key := s.blk.swapKey k w.inc
      32 ∣ key → key + 32 * (recWords lee + s.blk.partWords k w.slot) ≤ 2 ^ 48 →
      Does (.contextSwapComplete c x) s fun b =>
        b.rd (SEQ_CTX.logical (k / 32) (k % 32) w.slot) = w.inc ∧ b.rd (SEQ_CTX.bound (k / 32) (k % 32) w.slot) = 1
          ∧ b.rd (SEQ_CTX.swapping (k / 32) (k % 32) w.slot) = 0 ∧ b.run.swaps = s.blk.run.swaps.erase w
          ∧ (b.core k).ctx w.slot = Ctx.ofRecord lee ((List.range (recWords lee)).map fun i => s.blk.readWord (key + 32 * i))
          ∧ (∀ i, i < s.blk.partWords k w.slot →
            b.readWord (s.blk.partKey k w.slot + 32 * i) = s.blk.readWord (key + 32 * (recWords lee + i)))
          ∧ ∀ j, j ≠ k → b.core j = s.blk.core j)
    ∧ ∀ (c : CoreId) (bad : Bool) (s : State) (j : Job) (d : CodeDir), s.blk.run.job = some j →
      s.blk.fillWants j (coreKey c) = some d → (bad || s.blk.codePoison j d) = false → d.block < 2 ^ 16 →
      (s.blk.core (coreKey c)).opening = none → s.blk.fillWindow (coreKey c) = true →
      Does (.icacheFillComplete c bad) s fun b =>
        let k := coreKey c
        let exec := s.blk.rd (SEQ_ICACHE.exec_half (k / 32) (k % 32))
        b.halfValid k (1 - exec) = true ∧ b.halfBlock k (1 - exec) = d.block ∧ b.halfValid k exec = s.blk.halfValid k exec
          ∧ b.halfBlock k exec = s.blk.halfBlock k exec ∧ b.rd (SEQ_ICACHE.exec_half (k / 32) (k % 32)) = exec
          ∧ RegsKeep [.seqIcache (k / 32) (k % 32)] s.blk b ∧ b = { s.blk with regs := b.regs, cores := b.cores }

/-- R156: the record of a context whose registers are not poisoned holds its header, scalars, masks and vector lanes at their places, and
the context comes back from it as it was. -/
def Sys2Proof.Says.ContextRecordsRoundTrip : Prop :=
  ∀ (lee : Bool) (c : Ctx) (l : Nat), l < 8 → c.sPoison = [] → c.pPoison = [] → c.vPoison = [] → c.kPoison = [] →
    c.vl < 256 → c.flags < 64 →
    let n := if lee then 128 else 64
    (∀ r, 1 ≤ r → r < 8 → Sp.get 0 c.k r < 2 ^ n) →
    let ws := c.record lee l
    let x (i : Nat) : Nat := (ws.getD i ⟨0, true⟩).data.toNat
    let c' := Ctx.ofRecord lee ws
    ws.length = (if lee then 525 else 267) ∧ (∀ w ∈ ws, w.poison = false)
      ∧ (bits (x 0) 0 3 = l ∧ bits (x 0) 3 8 = c.vl ∧ bits (x 0) 11 6 = c.flags
        ∧ (∀ r, 1 ≤ r → r < 16 → bit (x 0) (16 + r) = c.getP r) ∧ bits (x 0) 32 224 = 0)
      ∧ (∀ r, r < 32 → bits (x (1 + r / 4)) (64 * (r % 4)) 64 = (c.getS r).toNat)
      ∧ (∀ r, r < 8 → (if lee then bits (x (9 + r / 2)) (128 * (r % 2)) 128 else bits (x (9 + r / 4)) (64 * (r % 4)) 64) = c.getK r % 2 ^ n)
      ∧ (∀ r e, r < 32 → e < n →
        bits (x (if lee then 13 + 16 * r + e / 8 else 11 + 8 * r + e / 8)) (32 * (e % 8)) 32 = (Sp.get 0 c.v (128 * r + e)).toNat)
      ∧ (∀ r, r < 32 → c'.getS r = c.getS r) ∧ (∀ r, r < 16 → c'.getP r = c.getP r) ∧ (∀ r, r < 8 → c'.getK r = c.getK r)
      ∧ (∀ r e, r < 32 → e < n → Sp.get 0 c'.v (128 * r + e) = Sp.get 0 c.v (128 * r + e))
      ∧ c'.vl = c.vl ∧ c'.flags = c.flags ∧ c'.sPoison = [] ∧ c'.pPoison = [] ∧ c'.vPoison = [] ∧ c'.kPoison = []
/-! ### The step commit -/
namespace Sys2Proof.Says

/-- No vote or failure is held for the next attempt (R151, R249). -/
def NoneHeld (b : Blk) : Prop := b.vote.heldVote = [] ∧ b.vote.heldHw = [] ∧ b.vote.heldModFail = false

/-- `pkt` waits for the hub as `x`, the first of its copies that link remote service can carry on the way `way`, and has no congestion
mark. -/
def WaitsBy (way : Blk → InPkt → Bool) (x : InPkt) (pkt : RawPacket) (b : Blk) : Prop :=
  (b.inbox.find? fun y => y.pkt = pkt ∧ way b y) = some x ∧ hMark pkt.hdr.toNat = false

/-- It waits, and the way from its router to the hub is open (R197). -/
def Waits (x : InPkt) (pkt : RawPacket) (b : Blk) : Prop := WaitsBy (fun b y => b.linkOut y.ld) x pkt b

/-- The packet has left the inbox and its words their input buffer (R216), and nothing else has changed. -/
def Taken (x : InPkt) (pkt : RawPacket) (b : Blk) : Blk :=
  ({ b with inbox := b.inbox.erase x }).freeCredit (x.inPort / 8) (x.inPort % 8) (RPkt.words pkt)

/-- The registers that count the accesses of external memory (R190, R378). -/
def accessRegs : List Reg := (List.range 4).flatMap fun md => .eccRmw md :: (List.range 8).map (Reg.perfCnt (13 + md))

/-- R395: what the words of a stage combine to: bit by bit AND below bit 32, OR from it up. -/
def Combined (l : Nat) (f : Nat → Nat) (w : Nat) : Prop :=
  w < 2 ^ 64 ∧ ∀ i, i < 64 → (bit w i = true ↔ if i < 32 then ∀ q, q < l → bit (f q) i = true else ∃ q, q < l ∧ bit (f q) i = true)

end Sys2Proof.Says

/-- R184, R255, R395: at the flip the near caches are cleared and a complete barrier's outcome applies: a commit advances the step, restarts the attempt and
exchanges the slots; a skip or fail counts an attempt; the votes clear and a stop that waits for the flip takes the module to DRAIN. -/
def Sys2Proof.Says.FlipAppliesTheOutcome : Prop :=
  ∀ (s : State) (n : Nat), Due n 1 s.blk → s.blk.journal.inDoubt = false → s.blk.coll.complete = true → NoneHeld s.blk →
    let j := s.blk.journal
    1 ≤ j.outcome → j.outcome ≤ 3 → j.active ≤ 1 →
    Does .flip s fun b =>
      let commit : Bool := j.outcome = 1
      b.journal = { j with step := (if commit then (j.step + 1) % 2 ^ 32 else j.step), phase := 5, inDoubt := false,
                           attempt := (if commit then 0 else (j.attempt + 1) % 256),
                           active := (if commit then 1 - j.active else j.active) }
        ∧ b.rd NUM_STEP.step = b.journal.step % 2 ^ 32 ∧ b.rd NUM_STEP.attempt = b.journal.attempt
        ∧ b.rd NUM_TABLE_STAT.active_bank
          = (if j.outcome = 3 then s.blk.rd NUM_TABLE_STAT.active_bank else 1 - s.blk.rd NUM_TABLE_STAT.active_bank)
        ∧ b.rd NUM_TABLE_STAT.rebuilding = 0 ∧ b.scale.latched = none
        ∧ (∀ k, k < 384 → b.reg (.seqVote (k / 32) (k % 32)) = 0) ∧ b.vote.modFail = false ∧ b.vote.frozen = false
        ∧ b.coll.complete = false ∧ b.coll.barrierOn = false ∧ (∀ cd, cd < 12 → (b.nc cd).lines = [])
        ∧ (s.blk.run.stopAt = none → b.dstate = s.blk.dstate)
        ∧ (∀ t, s.blk.run.stopAt = some t → s.blk.dstate = stRun → t ≤ s.blk.schedInst n → b.dstate = stDrain)

/-- R256, R395: a flip without an outcome leaves the module in doubt, with step, attempt and slot as they were, and it asks for the outcome on
every live port; a definite answer for its step and attempt is kept; a query is answered from the journal; and a line notice is
recorded and passed on away from the break until the line ends. The model's readings and choices here: log entries 60, 61. -/
def Obligations.DoubtIsAskedAndAnswered : Prop :=
  (∀ (s : State) (n : Nat), Due n 1 s.blk → s.blk.journal.inDoubt = false → s.blk.coll.complete = false → NoneHeld s.blk →
    Does .flip s fun b => b.journal = { s.blk.journal with inDoubt := true } ∧ b.reg .numStep = s.blk.reg .numStep
      ∧ b.rd COLL_STATUS.in_doubt = 1 ∧ b.vote.frozen = false ∧ b.scale = s.blk.scale)
    ∧ (∀ s : State, s.blk.journal.inDoubt = true → (s.blk.coll.lastQuery = 0 ∨ s.blk.coll.lastQuery + 20000 ≤ s.blk.now) →
      Does .outcomeQuerySend s fun b =>
        b.out = s.blk.out ++ ((List.range 10).filter s.blk.pLive).map (fun p => Out.ctrl p 2 [s.blk.journal.step, s.blk.journal.attempt])
          ∧ b = { s.blk with out := b.out, coll := { s.blk.coll with lastQuery := s.blk.now } })
    ∧ (∀ (p : Port) (st : BitVec 32) (att : BitVec 8) (a : BitVec 2) (s : State), s.blk.pLive p.val = true →
      s.blk.journal.inDoubt = true → s.blk.coll.answer = none → s.blk.journal.step = st.toNat →
      s.blk.journal.attempt = att.toNat → (a = 1 ∨ a = 2) →
      Does (.outcomeAnswer p st att a) s fun b => b = { s.blk with coll := { s.blk.coll with answer := some a.toNat } })
    ∧ (∀ (p : Port) (st : BitVec 32) (att : BitVec 8) (s : State), s.blk.pLive p.val = true → s.blk.coll.jcopy = none →
      let j := s.blk.journal
      Does (.outcomeQuery p st att) s fun b => ∃ a, b = s.blk.emit (.ctrl p.val 3 [st.toNat, att.toNat, a])
        ∧ (j.step = st.toNat → j.attempt = att.toNat → j.phase = 4 → j.outcome = 1 → a = 1)
        ∧ (j.step = st.toNat → j.attempt = att.toNat → j.phase ≤ 2 → a = 2)
        ∧ (j.step = st.toNat → j.attempt = att.toNat → j.phase = 3 → j.ownVote = 0 → a = 0)
        ∧ (j.step = st.toNat → j.attempt ≠ att.toNat → a = 2)
        ∧ (j.step ≠ st.toNat → j.step = (st.toNat + 1) % 2 ^ 32 → a = 1))
    ∧ ∀ (p : Port) (x : Fin 4) (k : BitVec 5) (t : BitVec 64) (s : State), s.blk.pLive p.val = true →
      axisOf (s.blk.logicalOf p.val) = x.val → k.toNat < s.blk.axLen 0 x.val → s.blk.otherBreak x.val k.toNat = false →
      s.blk.locked = false →
      Does (.lineNotice p x k t) s fun b =>
        let n := s.blk.logicalOf p.val
        let q := lineQ (coordAt (s.blk.coord 0) x.val) k.toNat (s.blk.axLen 0 x.val)
        ⟨x.val, k.toNat, t.toNat⟩ ∈ b.coll.notes
          ∧ b.out = s.blk.out ++ (if (if isPlus n then q = 0 else q + 1 = s.blk.axLen 0 x.val) then []
            else [.ctrl (axisPort x.val (!isPlus n)) 1 [x.val, k.toNat, t.toNat]])
          ∧ b = { s.blk with out := b.out, coll := { s.blk.coll with notes := b.coll.notes } }

/-- R249, R250: a vote for the stage in progress is kept, a second one for the same stage and position is discarded, and when the
last stage holds every position's word they combine to the machine's word, whose outcome the journal records. -/
def Sys2Proof.Says.VotesCombineToTheOutcome : Prop :=
  (∀ (p : Port) (pkt : RawPacket) (v : BitVec 256) (s : State) (x : InPkt),
    WaitsBy (fun b y => b.linkOut y.ld && y.inPort / 8 == p.val) x pkt s.blk → pkt.payload = [⟨v, false⟩] →
    hMcHops pkt.hdr.toNat ≤ 1 → s.blk.coll.barrierOn = true →
    let st := bits v.toNat 104 2
    let pos := bits v.toNat 106 5
    (s.blk.coll.stage = st → s.blk.coll.voteOf st pos = none →
      Does (.votePacket p pkt) s fun b => (st, pos, bits v.toNat 0 64) ∈ b.coll.votes)
    ∧ (s.blk.coll.voteOf st pos ≠ none → Does (.votePacket p pkt) s fun b => b = Taken x pkt s.blk)
    ∧ (st = 3 → s.blk.coll.stage = 3 → s.blk.journal.inDoubt = false → ∀ f : Nat → Nat,
      let l := s.blk.axLen 0 ((s.blk.order 0).getD 3 0)
      pos < l → s.blk.coll.voteOf 3 pos = none → f pos = bits v.toNat 0 64 →
      (∀ q, q < l → q ≠ pos → s.blk.coll.voteOf 3 q = some (f q)) →
      Does (.votePacket p pkt) s fun b => ∃ w, Combined l f w ∧ b.coll.value = w ∧ b.rd COLL_VOTE.combined = w
        ∧ b.coll.complete = true ∧ b.journal.phase = 4
        ∧ b.journal.outcome = (if bit w 33 ∨ ¬bit w 0 then 3 else if bit w 32 then 2 else 1)))

/-- R126 to R128, R125: the oldest report joins its tensor's pending set; 1 µs into PREPARE the pending sets are latched and cleared and the
shadow bank starts as a copy; each entry that the rebuild reaches, in time for shard 0, is the rebuilding of the active one with its
latched set, the others stay copies; and a stop after n entries, once that time has come, ends it there. The model's readings and choices here: log entry 27. -/
def Obligations.ScaleTableLatchesAndRebuilds : Prop :=
  (∀ (s : State) (r : ScaleReport) (rest : List ScaleReport), s.blk.scale.reports = r :: rest →
    Does .conversionReport s fun b =>
      let p := s.blk.pendSet r.tid
      b.pendSet r.tid = ⟨p.captured || r.captured, max p.amax r.amax, p.nonfinite || r.nonfinite, p.vanished + r.vanished,
        p.nonzero + r.nonzero⟩
        ∧ (∀ t, t ≠ r.tid → b.pendSet t = s.blk.pendSet t) ∧ b.scale.reports = rest
        ∧ b = { s.blk with scale := { s.blk.scale with pending := b.scale.pending, reports := rest } })
    ∧ (∀ s : State, s.blk.latchDue = true → s.blk.scale.latched = none →
      Does .pendingSetLatch s fun b =>
        b.scale.latched = some (latchOver [] s.blk.scale.pending) ∧ b.scale.pending = [] ∧ b.scale.boundary = none ∧ b.scale.rebuilt = []
          ∧ b.rd NUM_TABLE_STAT.rebuilding = 1 ∧ b.rd NUM_TABLE_STAT.done = 0
          ∧ b.rd NUM_TABLE_STAT.active_bank = s.blk.rd NUM_TABLE_STAT.active_bank
          ∧ b.bank false = s.blk.bank false ∧ b.bank true = s.blk.bank false)
    ∧ ∀ (s : State) (l : Sp PendSet), s.blk.on NUM_TABLE_STAT.rebuilding = true → s.blk.scale.latched = some l →
      s.blk.validIds.length ≤ 16384 → s.blk.validIds.Nodup →
      let reached (n : Nat) (b : Blk) : Prop :=
        b.rd NUM_TABLE_STAT.rebuilding = 0 ∧ b.rd NUM_TABLE_STAT.done = (s.blk.validIds.take n).length
          ∧ b.scale.rebuilt = s.blk.validIds.take n ∧ b.bank false = s.blk.bank false
          ∧ (∀ t ∈ s.blk.validIds.take n, Sp.get ScaleEnt.init (b.bank true) t = (s.blk.entry t).rebuild (Sp.get PendSet.init l t))
          ∧ ∀ t, t ∉ s.blk.validIds.take n → Sp.get ScaleEnt.init (b.bank true) t = Sp.get ScaleEnt.init (s.blk.bank true) t
      ((∀ t, s.blk.rebuildLimit = some t → s.blk.now ≤ t) → Does .scaleRebuildComplete s (reached s.blk.validIds.length))
        ∧ ∀ n t, s.blk.rebuildLimit = some t → t ≤ s.blk.now → Does (.scaleRebuildStop n) s (reached n)

/-- R213, R180, R197: where link remote service has the way, a WRITE's payload lands at its device address; a READ_REQ is answered with the words at its address in a READ_RESP to its
source that echoes tag and address; a READ_RESP without a request of this module, and a CTRL packet, leave the inbox for
their unit and change nothing else. -/
def Obligations.DeliveredPacketsReachTheirUnit : Prop :=
  (∀ (pkt : RawPacket) (s : State) (x : InPkt) (key : Nat),
    WaitsBy (fun b y => b.serviceOpen (hDev pkt.hdr.toNat) pkt.payload.length true y.ld) x pkt s.blk → NoInj s.blk →
    s.blk.placeRun (hDev pkt.hdr.toNat) pkt.payload.length = some key → 32 ∣ key → pkt.payload ≠ [] → (∀ w ∈ pkt.payload, w.poison = false) →
    Does (.writePacket pkt) s fun b =>
      (∀ i j, i < pkt.payload.length → j < 32 →
          b.byte (key + 32 * i + j) = BitVec.ofNat 8 ((pkt.payload.getD i ⟨0, false⟩).data.toNat / 2 ^ (8 * j)))
        ∧ BytesKeep key (32 * pkt.payload.length) s.blk b
        ∧ RegsKeep accessRegs s.blk b
        ∧ b = { Taken x pkt s.blk with regs := b.regs, mem := b.mem, err := b.err, regions := b.regions, ncache := b.ncache })
    ∧ (∀ (pkt : RawPacket) (s : State) (x : InPkt) (key : Nat) (w : MWord),
      let len := bits w.data.toNat 0 8 + 1
      WaitsBy (fun b y => b.serviceOpen (hDev pkt.hdr.toNat) len false y.ld) x pkt s.blk → Clean s.blk → pkt.payload = [w] →
      w.poison = false → s.blk.placeRun (hDev pkt.hdr.toNat) len = some key → 32 ∣ key →
      Does (.readReq pkt) s fun b =>
        let h := pkt.hdr.toNat
        let n := bits w.data.toNat 0 8 + 1
        b = ((Taken x pkt s.blk).bursts false key n).inject 0 ⟨BitVec.ofNat 256
          (mkHdr 0x03 (hSrc h) (s.blk.coord 0) 2 n (hDev h * 2 ^ 104 + hTag h * 2 ^ 154)),
          (List.range n).map fun i => s.blk.readWord (key + 32 * i)⟩)
    ∧ (∀ (pkt : RawPacket) (s : State) (x : InPkt), Waits x pkt s.blk → bits (hTag pkt.hdr.toNat) 12 4 ≠ 1 →
      Does (.readResp pkt) s fun b => b = Taken x pkt s.blk)
    ∧ ∀ (pkt : RawPacket) (s : State) (x : InPkt), Waits x pkt s.blk → Does (.ctrlPacket pkt) s fun b => b = Taken x pkt s.blk
/-! ### Links and ports -/
namespace Sys2Proof.Says

/-- A record of this kind detected now is among the records held since. -/
def Logged (die unit code detail : Nat) (b b' : Blk) : Prop :=
  ∃ l, b'.ev.held = b.ev.held ++ l ∧ ∃ r ∈ l, r.time = b.now ∧ r.die = die ∧ r.unit = unit ∧ r.code = code
    ∧ r.severity = severity code ∧ r.detail = detail % 2 ^ 152

/-- Only the listed registers, port `p`'s own state and the events may differ. -/
def PortOnly (l : List Reg) (p : Nat) (b b' : Blk) : Prop :=
  RegsKeep l b b' ∧ (∀ q, q ≠ p → b'.port q = b.port q)
    ∧ b' = { b with regs := b'.regs, ports := b'.ports, ev := b'.ev, ras := b'.ras, freeCtr := b'.freeCtr }

/-- Path `q` carries accesses, its level admits them, and the module is past STANDBY. -/
def OpenPath (q : Path) (b : Blk) : Prop :=
  b.pathOpen q = true ∧ b.debugRefuses q true = false ∧ b.debugRefuses q false = false ∧ stStandby < b.dstate

/-- Port `p`'s loss opens its line at once: no standby is planned for it, and the module is in no job. -/
def LosesLine (p : Nat) (b : Blk) : Prop := b.locked = false ∧ b.dstate ≠ stDrain ∧ b.standbyFor (b.logicalOf p) = none

end Sys2Proof.Says

/-- R198, R28, R206, R216: in a word time that a link entry has open, an even link-word position carries CREDIT_ACK with the next word expected, the nak and the freed counts; an
odd one the timestamp set while this 8 µs slot has sent none; an arriving CREDIT_ACK frees the acknowledged words of the
replay buffer and adds its new credits; a NAK has the rest resent in order, and their word times occupy the port. -/
def Sys2Proof.Says.LinkWordsAcknowledgeAndResend : Prop :=
  (∀ (p : Port) (s : State) (k : Nat) (ks : List Nat), s.blk.pLive p.val = true → s.blk.openTimes p.val 8 = k :: ks →
    (s.blk.port p.val).linkCount % 2 = 0 → (s.blk.port p.val).rxSeq < 2 ^ 24 → (∀ v, Sp.get 0 (s.blk.port p.val).vcFreed v < 2 ^ 20) →
    Does (.linkWordSend p) s fun b => ∃ w : Word, b.out = s.blk.out ++ [.link p.val w]
      ∧ bits w.toNat 0 8 = 0x51 ∧ bits w.toNat 8 24 = (s.blk.port p.val).rxSeq ∧ bit w.toNat 32 = (s.blk.port p.val).nakPending
      ∧ (∀ v, v < 8 → bits w.toNat (64 + 20 * v) 20 = Sp.get 0 (s.blk.port p.val).vcFreed v)
      ∧ b.port p.val = { s.blk.port p.val with linkCount := (s.blk.port p.val).linkCount + 1, nakPending := false, txEnd := s.blk.wordStart p.val (k + 1) })
    ∧ (∀ (p : Port) (s : State), s.blk.pLive p.val = true → s.blk.openTimes p.val 8 ≠ [] → (s.blk.port p.val).linkCount % 2 = 1 →
      (s.blk.ptime p.val).lastSetSlot ≠ s.blk.now / 8000 → (s.blk.ptime p.val).nextSeq < 256 → (s.blk.ptime p.val).lastRxSeq < 256 →
      Does (.linkWordSend p) s fun b => ∃ w : Word, b.out = s.blk.out ++ [.link p.val w]
        ∧ bits w.toNat 0 8 = 0x5A ∧ bits w.toNat 8 8 = (s.blk.ptime p.val).nextSeq
        ∧ bits w.toNat 16 8 = (s.blk.ptime p.val).lastRxSeq ∧ bits w.toNat 24 6 = s.blk.rd MTC_STATUS.hops
        ∧ bits w.toNat 32 16 = s.blk.now16 % 2 ^ 16 ∧ bits w.toNat 48 64 = s.blk.now16 / 2 ^ 16 % 2 ^ 64
        ∧ bits w.toNat 112 32 = (s.blk.now16 - (s.blk.ptime p.val).lastRxAt) % 2 ^ 32
        ∧ ⟨(s.blk.ptime p.val).nextSeq, s.blk.now16⟩ ∈ (b.ptime p.val).sent
        ∧ (b.ptime p.val).nextSeq = ((s.blk.ptime p.val).nextSeq + 1) % 256)
    ∧ (∀ (p : Port) (w : CreditWord) (s : State), s.blk.pLive p.val = true →
      let n := (w.ackSeq.toNat + 2 ^ 24 - (s.blk.port p.val).ackSeq) % 2 ^ 24
      n ≤ (s.blk.port p.val).replay.length →
      Does (.creditAck p w) s fun b =>
        (b.port p.val).replay = (s.blk.port p.val).replay.drop n ∧ (b.port p.val).ackSeq = w.ackSeq.toNat
          ∧ (∀ v, v < 8 → b.rd (PORT_CREDIT.avail p.val v) = min (2 ^ 16 - 1) (s.blk.rd (PORT_CREDIT.avail p.val v)
              + (w.credits.getD v 0 % 2 ^ 20 + 2 ^ 20 - Sp.get 0 (s.blk.port p.val).vcReturned v) % 2 ^ 20))
          ∧ PortOnly ((List.range 8).map (Reg.portCredit p.val)) p.val s.blk b)
    ∧ ∀ (p : Port) (w : CreditWord) (s : State), s.blk.pLive p.val = true →
      let n := (w.ackSeq.toNat + 2 ^ 24 - (s.blk.port p.val).ackSeq) % 2 ^ 24
      n < (s.blk.port p.val).replay.length →
      Does (.nak p w) s fun b =>
        b.out = s.blk.out ++ ((s.blk.port p.val).replay.drop n).map (Out.resend p.val)
          ∧ (b.port p.val).txEnd = max (s.blk.port p.val).txEnd (s.blk.now * 1000000)
            + ((s.blk.port p.val).replay.length - n) * s.blk.wordFs p.val
          ∧ b.rd (PORT_REPLAY.naks p.val) = min (s.blk.rd (PORT_REPLAY.naks p.val) + 1) (2 ^ 32 - 1)

/-- R204, R205, R207: a failed lane's receiver asks for a spare that no other replacement has, and a lost lock begins an outage; the
transmitter answers with a codeword; the receiver takes it; and at the switch the spare carries the failed lane's symbols at either
end, at the receiver with EV_LANE_SPARED. Without a spare lane the port agrees to halve. -/
def Sys2Proof.Says.SpareLanesReplaceFailedOnes : Prop :=
  (∀ (p : Port) (l : Fin 36) (lost : Bool) (n : Nat) (s : State) (sp : Nat) (rest : List Nat), NoInj s.blk → s.blk.pLive p.val = true →
    s.blk.rd (PORT_LANE.state p.val l.val) = 0 → (lost = true ∨ s.blk.rd (PORT_CFG.lane_err_limit p.val) < n) →
    (∀ x ∈ (s.blk.port p.val).rxSpares, x.failed ≠ l.val) → s.blk.freeSpares p.val = sp :: rest →
    Does (.laneFailure p l lost n) s fun b =>
      (b.port p.val).rxSpares = (s.blk.port p.val).rxSpares ++ [⟨l.val, sp, b2n (!lost), none⟩]
        ∧ b.rd (PORT_LANE.state p.val l.val) = 0
        ∧ (b.port p.val).outage = (if lost then some ((s.blk.port p.val).outage.getD s.blk.now) else (s.blk.port p.val).outage)
        ∧ (b.port p.val).pendLink = (s.blk.port p.val).pendLink ++ [(0x52, 0x52 + l.val * 2 ^ 8 + sp * 2 ^ 14)]
        ∧ PortOnly [.portLane p.val l.val] p.val s.blk b)
    ∧ (∀ (p : Port) (l : Fin 36) (lost : Bool) (n : Nat) (s : State), NoInj s.blk → s.blk.pstate p.val = psUp →
      s.blk.rd (PORT_LANE.state p.val l.val) = 0 → (lost = true ∨ s.blk.rd (PORT_CFG.lane_err_limit p.val) < n) →
      (∀ x ∈ (s.blk.port p.val).rxSpares, x.failed ≠ l.val) → s.blk.freeSpares p.val = [] →
      Does (.laneFailure p l lost n) s fun b =>
        b.rd (PORT_LANE.state p.val l.val) = 2
          ∧ (∃ t, (b.port p.val).act = some ⟨3, t⟩ ∧ s.blk.now ≤ t ∧ t < s.blk.now + 5000000
            ∧ (b.port p.val).pendLink = (s.blk.port p.val).pendLink ++ [(0x55, 0x55 + 3 * 2 ^ 8 + t * 2 ^ 64)])
          ∧ PortOnly [.portLane p.val l.val] p.val s.blk b)
    ∧ (∀ (p : Port) (f x : BitVec 6) (s : State), s.blk.pLive p.val = true → f.toNat < 36 → x.toNat < 36 →
      Does (.spareRequest p f x) s fun b => ∃ cw, cw < 2 ^ 32 ∧ (b.port p.val).txSpares = (s.blk.port p.val).txSpares ++ [⟨f.toNat, x.toNat, 0, some cw⟩]
        ∧ (b.port p.val).pendLink = (s.blk.port p.val).pendLink
          ++ [(0x52, 0x52 + f.toNat * 2 ^ 8 + x.toNat * 2 ^ 14 + 2 ^ 20 + cw * 2 ^ 32)]
        ∧ PortOnly [] p.val s.blk b)
    ∧ (∀ (p : Port) (f x : BitVec 6) (cw : BitVec 32) (s : State),
      Does (.spareAcknowledge p f x cw) s fun b =>
        (∃ l, b.port p.val = { s.blk.port p.val with rxSpares := l } ∧ l.length = (s.blk.port p.val).rxSpares.length
          ∧ ∀ (i : Nat) (y : Sparing), (s.blk.port p.val).rxSpares[i]? = some y → l[i]? = some { y with
              cw := if y.failed = f.toNat ∧ y.spare = x.toNat ∧ y.cw = none then some cw.toNat else y.cw })
          ∧ PortOnly [] p.val s.blk b)
    ∧ (∀ (p : Port) (s : State) (y : Sparing) (ys : List Sparing), (∀ z ∈ (s.blk.port p.val).rxSpares, z.cw = none) →
      (s.blk.port p.val).txSpares = y :: ys →
      Does (.laneSpareSwitch p) s fun b =>
        b.port p.val = { s.blk.port p.val with txSpares := ys, txLanes := (s.blk.port p.val).txLanes.map fun n =>
            if n = y.failed then y.spare else n }
          ∧ PortOnly [] p.val s.blk b)
    ∧ ∀ (p : Port) (s : State) (f x cause : Nat) (cw : Option Nat),
      ((s.blk.port p.val).rxSpares.find? fun y => y.cw.isSome) = some ⟨f, x, cause, cw⟩ → f < 36 → x < 36 → f ≠ x →
      Does (.laneSpareSwitch p) s fun b =>
        b.rd (PORT_LANE.state p.val f) = 2 ∧ b.rd (PORT_LANE.state p.val x) = 0 ∧ b.rd (PORT_LANE.lock p.val x) = 1
          ∧ b.rd (PORT_LANE.logical p.val x) = s.blk.rd (PORT_LANE.logical p.val f)
          ∧ (b.port p.val).rxSpares = (s.blk.port p.val).rxSpares.erase ⟨f, x, cause, cw⟩
          ∧ Logged (portDie p.val) (portUnit p.val) 0x0502
            (p.val + f * 2 ^ 4 + x * 2 ^ 10 + cause * 2 ^ 16) s.blk b

/-- R201, R202, R205, R349: an agreed PORT_CTRL action waits for its instant: CALM with two lanes, back to full or half width by
the lanes that are active, or DEGRADED on the 17 lowest good lanes; leaving CALM takes the later instant of both ends. -/
def Sys2Proof.Says.PortActionsWaitForTheirInstant : Prop :=
  (∀ (p : Port) (t : BitVec 64) (s : State), s.blk.pstate p.val = psUp → s.blk.dataQueued p.val = [] →
    (s.blk.port p.val).replay = [] →
    Does (.portCtrlEnterCalm p t) s fun b =>
      b.port p.val = { s.blk.port p.val with act := some ⟨1, t.toNat⟩, ownLeave := none, peerLeave := none } ∧ PortOnly [] p.val s.blk b)
    ∧ (∀ (p : Port) (t : BitVec 64) (s : State) (o : Nat), s.blk.pstate p.val = psCalm → (s.blk.port p.val).ownLeave = some o →
      Does (.portCtrlLeaveCalm p t) s fun b =>
        b.port p.val = { s.blk.port p.val with peerLeave := some t.toNat, act := some ⟨2, max o t.toNat⟩ } ∧ PortOnly [] p.val s.blk b)
    ∧ (∀ (p : Port) (t : BitVec 64) (s : State), s.blk.pstate p.val = psUp →
      Does (.portCtrlHalveWidth p t) s fun b =>
        b.port p.val = { s.blk.port p.val with act := some ⟨3, t.toNat⟩ } ∧ PortOnly [] p.val s.blk b)
    ∧ ∀ (p : Port) (s : State) (a : CtrlAct), (s.blk.port p.val).act = some a → a.instant ≤ s.blk.now →
      Does (.portCtrlActionInstant p) s fun b =>
        (b.port p.val).act = none
          ∧ (a.action = 1 → b.pstate p.val = psCalm ∧ b.rd (PORT_STATE.width p.val) = 2)
          ∧ (a.action = 2 → 34 ≤ (s.blk.lanesIn p.val 0).length → b.pstate p.val = psUp ∧ b.rd (PORT_STATE.width p.val) = 34)
          ∧ (a.action = 2 → (s.blk.lanesIn p.val 0).length < 34 → b.pstate p.val = psDegr ∧ b.rd (PORT_STATE.width p.val) = 17)
          ∧ (a.action = 3 → b.pstate p.val = psDegr ∧ b.rd (PORT_STATE.width p.val) = 17
            ∧ ∀ l, l < 36 → (b.rd (PORT_LANE.state p.val l) = 0
              ↔ (s.blk.rd (PORT_LANE.state p.val l) ≠ 2 ∧ ((s.blk.lanesIn p.val 0 ++ s.blk.lanesIn p.val 1 ++ s.blk.lanesIn p.val 3).filter
                  (· < l)).length < 17)))

/-- R206 to R209: an uncorrectable word asks for a resend and opens an outage; one that ends within the limit is recorded and loses
nothing; beyond the limit the port discards, records EV_LINK_DOWN and trains again. -/
def Sys2Proof.Says.OutagesEndOrLoseTheLink : Prop :=
  (∀ (p : Port) (s : State), NoInj s.blk → s.blk.pLive p.val = true →
    Does (.uncorrectableLinkWord p) s fun b =>
      b.port p.val = { s.blk.port p.val with nakPending := true, nakWait := true, outage := some ((s.blk.port p.val).outage.getD s.blk.now) }
        ∧ b.rd (PORT_ERR.uncorrected p.val) = min (s.blk.rd (PORT_ERR.uncorrected p.val) + 1) (2 ^ 32 - 1)
        ∧ PortOnly [.portErr p.val] p.val s.blk b)
    ∧ (∀ (p : Port) (s : State) (t : Nat), (s.blk.port p.val).outage = some t →
      s.blk.now - t ≤ s.blk.rd (PORT_CFG.outage_limit_us p.val) * 1000 →
      Does (.outageEnd p) s fun b =>
        b.port p.val = { s.blk.port p.val with outage := none, nakWait := false }
          ∧ b.rd (PORT_OUTAGE.count p.val) = min (s.blk.rd (PORT_OUTAGE.count p.val) + 1) (2 ^ 16 - 1)
          ∧ b.rd (PORT_OUTAGE.last_ns p.val) = min (s.blk.now - t) (2 ^ 24 - 1)
          ∧ b.rd (PORT_OUTAGE.max_ns p.val) = max (s.blk.rd (PORT_OUTAGE.max_ns p.val)) (min (s.blk.now - t) (2 ^ 24 - 1))
          ∧ PortOnly [.portOutage p.val] p.val s.blk b)
    ∧ ∀ (p : Port) (all : Bool) (s : State) (t : Nat), (s.blk.port p.val).outage = some t → LosesLine p.val s.blk →
      s.blk.rd (PORT_CFG.outage_limit_us p.val) * 1000 < s.blk.now - t →
      Does (.outageLimitExpiry p all) s fun b =>
        b.pstate p.val = psTraining ∧ b.rd (PORT_STATE.width p.val) = 0 ∧ (b.port p.val).replay = [] ∧ (b.port p.val).outage = none
          ∧ (b.port p.val).admitted = false
          ∧ b.rd (PORT_OUTAGE.count p.val) = min (s.blk.rd (PORT_OUTAGE.count p.val) + 1) (2 ^ 16 - 1)
          ∧ Logged (portDie p.val) (portUnit p.val) 0x0501 ((if all then 2 else 0) + s.blk.logicalOf p.val * 2 ^ 4 + p.val * 2 ^ 8
            + min ((s.blk.now - t) / 1000) (2 ^ 24 - 1) * 2 ^ 12 + min (s.blk.discardWords p.val) (2 ^ 32 - 1) * 2 ^ 36) s.blk b

/-- R200, R382, R396: enabling a DOWN port with a cable, retraining a FAILED one and mating a cable start TRAINING; the far end and the
codeword lock are noted, the lock with its lanes: the 34 lowest good ones active, the others spare. -/
def Sys2Proof.Says.PortsTrainAndLock : Prop :=
  (∀ (q : Path) (p : Port) (s : State), OpenPath q s.blk → s.blk.locked = false → s.blk.on (PORT_CTRL.enable p.val) = false →
    s.blk.pstate p.val = psDown → (s.blk.port p.val).present = true →
    Does (.portEnable q p) s fun b => b.rd (PORT_CTRL.enable p.val) = 1 ∧ b.pstate p.val = psTraining ∧ (b.port p.val).powered = true
      ∧ b.out = s.blk.out ++ [.access q 0 0])
    ∧ (∀ (q : Path) (p : Port) (s : State), OpenPath q s.blk → s.blk.locked = false → s.blk.on (PORT_CTRL.enable p.val) = true →
      s.blk.pstate p.val = psFailed → (s.blk.port p.val).present = true →
      Does (.portRetrain q p) s fun b => b.rd (PORT_CTRL.enable p.val) = 1 ∧ b.pstate p.val = psTraining
        ∧ b.rd (PORT_CTRL.retrain p.val) = 0 ∧ b.out = s.blk.out ++ [.access q 0 0])
    ∧ (∀ (p : Port) (s : State), s.blk.on (PORT_CTRL.enable p.val) = true → s.blk.pstate p.val = psDown →
      Does (.cableMate p) s fun b => (b.port p.val).present = true ∧ b.pstate p.val = psTraining ∧ (b.port p.val).hello = none
        ∧ (s.blk.on (ROUTE_EPOCH.released (p.val / 5)) = true → PortOnly [.portState p.val, .ctlDisc p.val] p.val s.blk b))
    ∧ (∀ (p : Port) (s : State), s.blk.pstate p.val = psTraining → (s.blk.port p.val).farEnd = none →
      Does (.farEndSignal p) s fun b => b.port p.val = { s.blk.port p.val with farEnd := some s.blk.now } ∧ PortOnly [] p.val s.blk b)
    ∧ ∀ (p : Port) (r : TrainResult) (s : State), s.blk.pstate p.val = psTraining → (s.blk.port p.val).lockAt = none →
      let good := (List.range 36).filter fun l => r.good.getLsbD l
      17 ≤ good.length → ((r.cablePs.toNat : Int) - r.nominalPs).natAbs ≤ 2000 →
      Does (.trainingLock p r) s fun b =>
        (b.port p.val).lockAt = some s.blk.now ∧ (b.port p.val).goodLanes = good.length ∧ b.pstate p.val = psTraining
          ∧ b.rd (PORT_LAT.cable_ps p.val) = r.cablePs.toNat ∧ (b.port p.val).txLanes = good.take 34
          ∧ (∀ l, l < 36 → b.rd (PORT_LANE.state p.val l) = if l ∉ good then 2 else if l ∈ good.take 34 then 0 else 1)
          ∧ PortOnly (.portLat p.val :: (List.range 36).map (Reg.portLane p.val)) p.val s.blk b

/-- R200, R382, R396: a port whose enable is cleared, or whose cable is pulled, is DOWN and its supply off; an overcurrent and a lock that
does not come within 100 ms fail the port, too few lanes or a wrong cable delay too; a port undecided 20 ms after lock is in
QUARANTINE. -/
def Sys2Proof.Says.PortsGoDownOrFail : Prop :=
  (∀ (q : Path) (p : Port) (s : State), OpenPath q s.blk → s.blk.locked = false → s.blk.on (PORT_CTRL.enable p.val) = true →
    Does (.portDisable q p) s fun b => b.rd (PORT_CTRL.enable p.val) = 0 ∧ b.pstate p.val = psDown ∧ (b.port p.val).powered = false
      ∧ b.out = s.blk.out ++ [.access q 0 0])
    ∧ (∀ (p : Port) (s : State), s.blk.pstate p.val ≠ psDown →
      Does (.cableUnmate p) s fun b => b.pstate p.val = psDown ∧ (b.port p.val).present = false ∧ (b.port p.val).powered = false)
    ∧ (∀ (p : Port) (s : State), (s.blk.port p.val).present = true → s.blk.pstate p.val ≠ psDown → LosesLine p.val s.blk →
      Does (.cableOvercurrent p) s fun b => b.pstate p.val = psFailed ∧ (b.port p.val).powered = false
        ∧ b.rd (PORT_STATE.width p.val) = 0)
    ∧ (∀ (p : Port) (s : State) (t : Nat), (s.blk.port p.val).farEnd = some t → s.blk.pstate p.val = psTraining →
      (s.blk.port p.val).lockAt = none → t + 100000000 ≤ s.blk.now → LosesLine p.val s.blk →
      Does (.trainingLockTimeout p) s fun b => b.pstate p.val = psFailed ∧ b.rd (PORT_STATE.width p.val) = 0)
    ∧ (∀ (p : Port) (r : TrainResult) (s : State), s.blk.pstate p.val = psTraining → (s.blk.port p.val).lockAt = none →
      LosesLine p.val s.blk →
      (((List.range 36).filter fun l => r.good.getLsbD l).length < 17 ∨ 2000 < ((r.cablePs.toNat : Int) - r.nominalPs).natAbs) →
      Does (.trainingLock p r) s fun b => b.pstate p.val = psFailed)
    ∧ ∀ (p : Port) (s : State) (t : Nat), (s.blk.port p.val).lockAt = some t → s.blk.pstate p.val = psTraining →
      t + 20000000 ≤ s.blk.now →
      Does (.trainingSettleTimeout p) s fun b => b.pstate p.val = psQuar ∧ (b.port p.val).undecided = true
        ∧ b.rd (PORT_STATE.width p.val) = min 34 (s.blk.port p.val).goodLanes % 64
        ∧ (b.port p.val).rxSeq = 0 ∧ (b.port p.val).txSeq = 0
        ∧ (∀ v, v < 8 → b.rd (PORT_CREDIT.avail p.val v)
          = if s.blk.on (PORT_VC_BUF.enable p.val v) then s.blk.rd (PORT_VC_BUF.words p.val v) else 0)
        ∧ (s.blk.on (ROUTE_EPOCH.released (p.val / 5)) = true →
          (s.blk.port (s.blk.leader (p.val / 5) (s.blk.logicalOf p.val))).queue = [] →
          PortOnly (.portState p.val :: .portCal p.val :: (List.range 8).map (Reg.portCredit p.val)) p.val s.blk b)

/-- R210, R232: a TAKEOVER on the standby notes the instant, the later one where both ends named one; from then the standby serves the
logical port with the failed port's VC buffers, all of them free, and its calendar program, with EV_PORT_TAKEOVER; the failed port
stays out of service. -/
def Obligations.StandbysTakeOver : Prop :=
  (∀ (p : Port) (l : BitVec 4) (t : BitVec 64) (s : State), s.blk.role p.val = 1 → 2 ≤ s.blk.rd (PORT_STATE.level_minor p.val) →
    l.toNat < 10 → axisOf l.toNat ≠ 4 → l.toNat ∈ servesPorts (s.blk.rd (PORT_PLAN.serves p.val)) →
    Does (.takeover p l t) s fun b =>
      ((∀ x ∈ s.blk.takes, x.logical ≠ l.toNat) →
          b = { s.blk with takes := s.blk.takes ++ [⟨l.toNat, s.blk.physOf (p.val / 5) l.toNat, p.val, t.toNat⟩] })
        ∧ ((∃ x ∈ s.blk.takes, x.logical = l.toNat) →
          b = { s.blk with takes := s.blk.takes.map fun x => if x.logical = l.toNat then { x with at_ := max x.at_ t.toNat } else x }))
    ∧ ∀ (l : Fin 10) (s : State) (t : Take), (s.blk.takes.find? fun x => x.logical = l.val ∧ x.at_ ≤ s.blk.now) = some t →
      t.standby < 10 → t.failed < 10 → t.failed ≠ t.standby →
      Does (.portTakeover l) s fun b =>
        b.physOf 0 l.val = t.standby ∧ b.physOf 1 l.val = t.standby ∧ t ∉ b.takes
          ∧ (∀ v, v < 8 → b.reg (.portVcBuf t.standby v) = s.blk.reg (.portVcBuf t.failed v)
            ∧ b.rd (PORT_CREDIT.avail t.standby v)
              = if s.blk.on (PORT_VC_BUF.enable t.failed v) then s.blk.rd (PORT_VC_BUF.words t.failed v) else 0)
          ∧ b.rd (PORT_CAL.program t.standby) = s.blk.rd (PORT_CAL.program t.failed) ∧ (b.port t.failed).retired = true
          ∧ Logged (portDie t.standby) (portUnit t.standby) 0x0503
            (l.val + t.failed * 2 ^ 4 + t.standby * 2 ^ 8 + t.at_ * 2 ^ 12) s.blk b
/-! ### Packets, and the admission of peers -/
namespace Sys2Proof.Says

/-- A header the router accepts (R213, R214, R221): a known type on a class it admits, coordinates inside the axes, no reserved bit. -/
def HeaderOk (ld h : Nat) (b : Blk) : Prop :=
  hCls h ∈ typeClasses (hType h) ∧ b.inTorus ld (hDst h) = true ∧ b.inTorus ld (hSrc h) = true ∧ hdrReserved h = false

/-- The peer that has just sent its third equal HELLO is the one that the plan expects at port `p` (R273). -/
def Expected (p : Nat) (w : HelloWord) (b : Blk) : Prop :=
  w.major = 1 ∧ b.planned p = true ∧ b.plannedPeer p (b.logicalOf p) = (w.coord.toNat, w.lport.toNat)
    ∧ w.fpr.toNat = b.planFpr w.coord.toNat ∧ (b.port p).authBad = false
    ∧ (b.port p).hello = some ⟨w.major.toNat, w.minor.toNat, w.coord.toNat, w.lport.toNat, w.fpr.toNat⟩
    ∧ b.rd (CTL_DISC.hellos p) = 2

end Sys2Proof.Says

/-- R197, R213, R215, R221, R223: the router delivers a packet whose destination is this module towards the hub, and queues any other one
behind those that wait at the port of the first axis in order that differs, on the class's VC with the dateline bit of the hop; one
for a group of the other link die waits for link remote service; with no way on it is dropped and counted. -/
def Sys2Proof.Says.RouterDeliversForwardsOrDrops : Prop :=
  ∀ (ld : Fin 2) (pkt : RawPacket) (s : State),
    let h := pkt.hdr.toNat
    HeaderOk ld.val h s.blk → s.blk.dstate ≠ stDiscover → hMc h = false →
    (hDst h = s.blk.coord ld.val →
      Does (.packetRoute ld .other pkt) s fun b => b = { s.blk with inbox := s.blk.inbox ++ [⟨ld.val, 88 + hVc h, pkt⟩] })
    ∧ (∀ (x d : Nat), hDst h ≠ s.blk.coord ld.val → (s.blk.router ld.val).refusedSwitch = false →
      (∀ e, e < 256 → s.blk.excHit ld.val (hEpoch h) h e = false) →
      ((s.blk.order ld.val).find? fun y => coordAt (hDst h) y ≠ coordAt (s.blk.coord ld.val) y) = some x →
      s.blk.rd (ROUTE_NEXT.dir ld.val (hEpoch h) x (coordAt (hDst h) x)) = d →
      let n := axisPort x (d = 1)
      let c := coordAt (s.blk.coord ld.val) x
      (x < 4 → (d = 1 ∨ d = 2) → (s.blk.groupOf ld.val n).any (fun m => s.blk.admits (s.blk.physOf ld.val m)
          (setVc h (2 * hCls h + s.blk.dateline ld.val h n 4))) = true →
        s.blk.physOf ld.val (s.blk.leader ld.val n) / 5 = ld.val →
        (∀ y ∈ (s.blk.port (s.blk.leader ld.val n)).queue, y.at_ ≠ s.blk.now) →
        Does (.packetRoute ld .other pkt) s fun b => ∃ (l : List QPkt) (q : QPkt),
          (b.port (s.blk.leader ld.val n)).queue = l ++ [q]
            ∧ l.map (·.pkt) = (s.blk.port (s.blk.leader ld.val n)).queue.map (·.pkt)
            ∧ q.outLogical = n ∧ q.at_ = s.blk.now ∧ q.inPort = 88 + hVc h ∧ q.pkt.payload = pkt.payload ∧ hDst q.pkt.hdr.toNat = hDst h ∧ hSrc q.pkt.hdr.toNat = hSrc h
            ∧ q.vc = 2 * hCls h + (if (if d = 1 then c + 1 = s.blk.axLen ld.val x else c = 0) then 1 else 0)
            ∧ b = { s.blk with ports := b.ports })
      ∧ (x < 4 → (d = 1 ∨ d = 2) →
        let home := s.blk.physOf ld.val (s.blk.leader ld.val n) / 5
        home ≠ ld.val → s.blk.linkAcross home = false →
        Does (.packetRoute ld .other pkt) s fun b => ∃ z : CrossPkt, b = { s.blk with crossing := s.blk.crossing ++ [z] }
          ∧ z.ld = home ∧ z.hub = false ∧ z.out = some n ∧ z.pkt.payload = pkt.payload ∧ hDst z.pkt.hdr.toNat = hDst h)
      ∧ ((d = 0 ∨ d = 3) → Does (.packetRoute ld .other pkt) s fun b =>
        b.rd (ROUTE_STAT.drops ld.val) = min (s.blk.rd (ROUTE_STAT.drops ld.val) + 1) (2 ^ 32 - 1)
          ∧ b.inbox = s.blk.inbox ∧ b.ports = s.blk.ports))

/-- R216, R206, R211, R219, R223: the head packet of a group and VC leaves on a port that carries it and holds the credits, in the first word
time free for it whose run of entries of its VC holds it, unless another member of the group starts it first: it is put out and kept
for replay, its words taken from the credits, its input buffer freed, and the port is busy until its last word has left. -/
def Sys2Proof.Says.PacketsLeaveAgainstCredits : Prop :=
  ∀ (p : Port) (vc : Fin 8) (s : State) (x : QPkt) (k : Nat),
    let lead := s.blk.leader (p.val / 5) (s.blk.logicalOf p.val)
    let n := x.pkt.payload.length + 1
    ((s.blk.port lead).queue.find? fun y => y.vc = vc.val) = some x → s.blk.carries p.val x.pkt.hdr.toNat = true →
    ((s.blk.openTimes p.val x.vc).find? fun k => n ≤ runLeft (s.blk.program p.val) x.vc k) = some k →
    s.blk.otherFirst p.val (s.blk.wordStart p.val k) x = false →
    n ≤ s.blk.rd (PORT_CREDIT.avail p.val vc.val) → (s.blk.port p.val).replay.length + n ≤ 16384 →
    x.injected = false → x.due = none →
    Does (.packetSend p vc) s fun b =>
      b.out = s.blk.out ++ [.packet p.val x.pkt]
        ∧ b.rd (PORT_CREDIT.avail p.val vc.val) = s.blk.rd (PORT_CREDIT.avail p.val vc.val) - n
        ∧ (b.port p.val).replay = (s.blk.port p.val).replay ++ ⟨x.pkt.hdr, false⟩ :: x.pkt.payload
        ∧ (b.port p.val).txEnd = s.blk.wordStart p.val (k + n)
        ∧ (b.port p.val).txSeq = ((s.blk.port p.val).txSeq + n) % 2 ^ 24
        ∧ (b.port lead).queue.map (·.pkt) = ((s.blk.port lead).queue.erase x).map (·.pkt)
        ∧ (x.inPort < 80 → Sp.get 0 (b.port (x.inPort / 8)).vcFreed (x.inPort % 8)
            = (Sp.get 0 (s.blk.port (x.inPort / 8)).vcFreed (x.inPort % 8) + n) % 2 ^ 20)

/-- R229, R230: an ECHO halves the limiter of its class and axis, not below the floor, unless a halving is in hold; every step time without a
halving adds the step, up to 64 sixty-fourths. -/
def Obligations.HeadwindLimitersHalveAndRecover : Prop :=
  (∀ (ld : Fin 2) (pkt : RawPacket) (v : Word) (s : State) (y : InPkt), WellFormed.packet pkt = true → hType pkt.hdr.toNat = 0x14 →
    hCls pkt.hdr.toNat = 3 → pkt.payload = [⟨v, false⟩] →
    WaitsBy (fun b z => z.ld == ld.val || b.linkAcross ld.val) y pkt s.blk →
    let c := v.toNat % 4
    let x := v.toNat / 4 % 4
    let f := s.blk.rd (HW_RATE.f (x / 2) c (x % 2))
    c < 3 → (∀ t, (s.blk.limiter c x).halvedAt = some t → t + s.blk.rd (HW_CFG.hold_ns (x / 2)) ≤ s.blk.now) →
    Does (.echo ld pkt) s fun b =>
      b.rd (HW_RATE.f (x / 2) c (x % 2)) = max (s.blk.rd (HW_CFG2.floor (x / 2))) (f / 2)
        ∧ b.rd (HW_RATE.halvings (x / 2) c (x % 2)) = min (s.blk.rd (HW_RATE.halvings (x / 2) c (x % 2)) + 1) (2 ^ 32 - 1)
        ∧ (b.limiter c x).halvedAt = some s.blk.now)
    ∧ ∀ (ld : Fin 2) (s : State), Does (.headwindRecovery ld) s fun b => ∀ c j, c < 3 → j < 2 →
      let x := 2 * ld.val + j
      let l := s.blk.limiter c x
      let ready : Bool := max l.steppedAt (l.halvedAt.getD 0) + s.blk.rd (HW_CFG.step_ns ld.val) ≤ s.blk.now
      b.rd (HW_RATE.f ld.val c j) = (if ready then min 64 (s.blk.rd (HW_RATE.f ld.val c j) + s.blk.rd (HW_CFG2.step ld.val))
        else s.blk.rd (HW_RATE.f ld.val c j))
        ∧ (ready = true → (b.limiter c x).steppedAt = s.blk.now)

/-- R273, R276, R318, R319: the third equal HELLO of the planned peer admits the port, full width with 34 good lanes, half with fewer, and
challenges the peer; a challenge is answered with its nonce; a good response authenticates, a bad one takes the port out; an
unanswered challenge is sent again after 5 ms, up to three, and 20 ms without success fail. -/
def Sys2Proof.Says.PeersAreAdmittedAndAuthenticated : Prop :=
  (∀ (p : Port) (w : HelloWord) (s : State), Expected p.val w s.blk → s.blk.pstate p.val = psTraining →
    (s.blk.port p.val).lockAt.isSome = true → s.blk.dstate = stDiscover → (s.blk.port p.val).permuted = false →
    (s.blk.port p.val).retired = false →
    s.blk.idleStandby p.val = false → s.blk.on (CTL_DISC.authenticated p.val) = false →
    Does (.hello p w) s fun b =>
      (b.port p.val).admitted = true ∧ b.rd (CTL_DISC.outcome p.val) = 1 ∧ b.rd (CTL_DISC.hellos p.val) = 3
        ∧ b.pstate p.val = (if 34 ≤ (s.blk.port p.val).goodLanes then psUp else psDegr)
        ∧ b.rd (PORT_STATE.peer p.val) = w.coord.toNat ∧ b.rd (PORT_STATE.peer_port p.val) = w.lport.toNat
        ∧ ∃ n, (b.port p.val).auth.nonce = some n ∧ (b.port p.val).auth.tries = 1
          ∧ b.out = s.blk.out ++ [.auth p.val (challengeWords (s.blk.logicalOf p.val) n)])
    ∧ (∀ (p : Port) (l : BitVec 4) (n : BitVec 256) (s : State), (s.blk.port p.val).admitted = true →
      s.blk.on SEC_STATUS.key_ok = true → s.blk.pLive p.val = true →
      Does (.authChallenge p l n) s fun b => ∃ w, b.out = s.blk.out ++ [.auth p.val w] ∧ w.length = 100
        ∧ w.take 3 = [authHead 2 (s.blk.logicalOf p.val), n, BitVec.ofNat 256 ((s.blk.port p.val).auth.nonce.getD 0)]
        ∧ (w.drop 3).take 57 = wordsOfBytes 57 (s.blk.fbytes (fKey + 0x980) 1793)
        ∧ w.drop 60 = wordsOfBytes 40 (s.blk.signature (s.blk.authMessage p.val n.toNat)).1
        ∧ b.port p.val = s.blk.port p.val)
    ∧ (∀ (p : Port) (e : BitVec 256) (key : List Byte) (ok : Bool) (s : State), (s.blk.port p.val).admitted = true →
      s.blk.on (CTL_DISC.authenticated p.val) = false → (s.blk.port p.val).auth.nonce = some e.toNat →
      let want := s.blk.entryWord (s.blk.planIndex (s.blk.plannedPeer p.val (s.blk.logicalOf p.val)).1) 0
      (digest key = want → key.length = 1793 → ok = true →
        Does (.authResponse p e key ok) s fun b => b.rd (CTL_DISC.authenticated p.val) = 1
          ∧ b.ports = s.blk.ports ∧ RegsKeep [.ctlDisc p.val] s.blk b)
      ∧ ((digest key ≠ want ∨ key.length ≠ 1793 ∨ ok = false) → Does (.authResponse p e key ok) s fun b => b.rd (CTL_DISC.authenticated p.val) = 0
          ∧ b.rd (CTL_DISC.outcome p.val) = 9 ∧ b.pstate p.val = psTraining ∧ (b.port p.val).authBad = true
          ∧ (b.port p.val).admitted = false))
    ∧ (∀ (p : Port) (s : State), (s.blk.port p.val).admitted = true → s.blk.on (CTL_DISC.authenticated p.val) = false →
      let a := (s.blk.port p.val).auth
      a.nonce.isSome = true → a.sentAt + 5000000 ≤ s.blk.now → a.tries < 3 →
      Does (.authRetryTimeout p) s fun b => ∃ n, b.out = s.blk.out ++ [.auth p.val (challengeWords (s.blk.logicalOf p.val) n)]
        ∧ (b.port p.val).auth = { a with nonce := some n, sentAt := s.blk.now, tries := a.tries + 1 })
    ∧ ∀ (p : Port) (s : State), (s.blk.port p.val).admitted = true → s.blk.on (CTL_DISC.authenticated p.val) = false →
      (s.blk.port p.val).auth.startAt + 20000000 ≤ s.blk.now →
      Does (.authTimeout p) s fun b => b.rd (CTL_DISC.outcome p.val) = 9 ∧ b.pstate p.val = psTraining
        ∧ (b.port p.val).authBad = true ∧ (b.port p.val).admitted = false

/-- R260, R273, R277, R279: at the discovery timeout a planned port that is not settled is disabled; discovery ends when every planned port is
ready and none is held, and a module whose counter has kept counting takes the root role or leaves it; SYNC ends when time is locked to a root, in READY, or in FENCED for an expelled module. -/
def Sys2Proof.Says.DiscoveryAndSyncEnd : Prop :=
  (∀ (s : State) (p : Nat), s.blk.dstate = stDiscover →
    s.blk.reg .ctlStateTime + s.blk.discoverS * 1000000000 ≤ s.blk.now → p < 10 → s.blk.planned p = true →
    s.blk.rd (CTL_DISC.outcome p) = 0 → (∀ n, n < 10 → s.blk.standbyFor n = none) →
    Does .discoveryTimeout s fun b => b.pstate p = psDown ∧ b.rd (PORT_CTRL.enable p) = 0 ∧ b.rd (CTL_DISC.outcome p) = 2
      ∧ (b.port p).powered = false)
    ∧ (∀ s : State, s.blk.dstate = stDiscover → s.blk.rst.warmPath = false → s.blk.time.stepped = false →
      (∀ p, p < 10 → (s.blk.planned p = true → s.blk.portReady p = true) ∧ (s.blk.port p).hold = false) →
      Does .discoverExit s fun b => b.dstate = stSync ∧ b.reg .ctlStateTime = s.blk.now % 2 ^ 64 ∧ b.ports = s.blk.ports
        ∧ b.time = s.blk.time ∧ RegsKeep [.ctlState, .ctlStateTime] s.blk b)
    ∧ (∀ s : State, s.blk.dstate = stDiscover → (s.blk.rst.warmPath = true ∨ s.blk.time.stepped = true) →
      (∀ p, p < 10 → (s.blk.planned p = true → s.blk.portReady p = true) ∧ (s.blk.port p).hold = false) →
      Does .discoverExit s fun b => b.dstate = stSync ∧ b.on MTC_STATUS.is_root = (s.blk.on MTC_CTRL.root_enable && !s.blk.rootAdvertised)
        ∧ RegsKeep [.ctlState, .ctlStateTime, .mtcStatus] s.blk b)
    ∧ ∀ s : State, s.blk.dstate = stSync → s.blk.on MTC_STATUS.locked = true →
      (s.blk.on MTC_STATUS.is_root = true ∨ s.blk.rd MTC_STATUS.hops < 63) → s.blk.rst.warmPath = false →
      Does .syncExit s fun b => b.dstate = (if s.blk.rst.expelled then stFenced else stReady) ∧ b.time = s.blk.time
        ∧ b.reg .ctlStateTime = s.blk.now % 2 ^ 64
/-! ### Register accesses -/
namespace Sys2Proof.Says

/-- A write of `r` has no further effect than on its fields, and none of its values is put into range. -/
def Plain (r : Reg) : Prop :=
  (∀ (b : Blk) (old v : Nat), b.afterWrite r old v = b) ∧ (∀ v, clampReg r v = v) ∧ (∀ (b : Blk) v, b.discards r v = false)
    ∧ (∀ b : Blk, b.injLocked r = false) ∧ ∀ n, r ≠ .mtcSchedAct n

/-- What a write of `v` leaves in field `f`, which held `old` (R6, R7, R8, R10). -/
def fieldAfter (locked : Bool) (f : FieldSpec) (old v : Nat) : Nat :=
  match f.acc with
  | .ro | .rwq => old
  | .rw => v
  | .rwl => if locked then old else v
  | .w1s => old ||| v
  | .w1c => old &&& (2 ^ f.w - 1 - v)

/-- The completion status of a write that reaches `r` (R369). -/
def writeStatus (r : Reg) (locked : Bool) : Nat :=
  if r.fields.any (fun f => f.acc = .rwq) then 4 else if r.fields.any (fun f => f.acc = .rwl) && locked then 1 else 0

/-- Path `q` may access die `d`. -/
def Reaches (q : Path) (d : Nat) (b : Blk) : Prop := OpenPath q b ∧ (1 ≤ d ∧ d ≤ 12 → b.cdOff = false)

/-- The next completion on path `q`. -/
def Completes (q : Path) (status : Nat) (v : Quad) (b b' : Blk) : Prop := b'.out = b.out ++ [.access q status v]

end Sys2Proof.Says

/-- R6 to R8, R10, R369: a write of a register without further effect changes each field by its access code and nothing else, and
completes with its status; one that writes a quorum field is turned away with EV_QUORUM_REJECT. -/
def Sys2Proof.Says.WritesFollowAccessCodes : Prop :=
  ∀ (a : Access) (s : State) (r : Reg), regOfAddr a.addr.toNat = some r → Plain r → a.bytes = 8 → a.addr.toNat % 8 = 0 →
    isRegAddr a.addr.toNat = true → s.blk.pathOpen a.path = true → s.blk.debugRefuses a.path true = false →
    s.blk.poweredOff a.addr.toNat true = false →
    Does (.registerWrite a) s fun b =>
      (∀ f ∈ r.fields, bits (b.reg r) f.lo f.w = fieldAfter s.blk.locked f (bits (s.blk.reg r) f.lo f.w)
          (bits a.value.toNat f.lo f.w))
        ∧ Completes a.path (writeStatus r s.blk.locked) 0 s.blk b ∧ RegsKeep [r] s.blk b
        ∧ (writeStatus r s.blk.locked ≠ 4 → b = { s.blk with regs := b.regs, out := b.out })
        ∧ (writeStatus r s.blk.locked = 4 → Raised 0 14 0x0A01 0 s.blk b ∧ b = { s.blk with regs := b.regs, out := b.out, ev := b.ev })

/-- R367 to R369: accesses that reach no register: a wrong size, alignment or address is an access error, a die without power answers
Powered off, the debug port below its level Debug locked; each changes nothing but its completion. -/
def Sys2Proof.Says.AccessesOutsideTheMapComplete : Prop :=
  ∀ (a : Access) (s : State), s.blk.pathOpen a.path = true →
    let legal := a.bytes = 8 ∧ a.addr.toNat % 8 = 0 ∧ isRegAddr a.addr.toNat = true
    let refused := s.blk.debugRefuses a.path true
    let off := s.blk.poweredOff a.addr.toNat true
    (¬legal → Does (.registerWrite a) s fun b => b = s.blk.emit (.access a.path 2 0))
    ∧ (legal → refused = true → Does (.registerWrite a) s fun b => b = s.blk.emit (.access a.path 5 0))
    ∧ (legal → refused = false → off = true → Does (.registerWrite a) s fun b => b = s.blk.emit (.access a.path 3 0))
    ∧ (legal → refused = false → off = false → regOfAddr a.addr.toNat = none →
        Does (.registerWrite a) s fun b => b = s.blk.emit (.access a.path 0 0))

/-- R24, R309, R43, R44, R226: MTC_NOW reads whole nanoseconds and latches the fraction; an event port reads a word of the record at its index and
moves on with the last word; an accepted entry of the scheduled-event table is latched with its instant, a late one raises
EV_SCHED_LATE and leaves the table as it is; late for an epoch switch it is a refused switch on both dies. -/
def Obligations.TimeEventAndScheduleAccesses : Prop :=
  (∀ (q : Path) (s : State), OpenPath q s.blk →
    Does (.mtcNowRead q) s fun b => Completes q 0 (BitVec.ofNat 64 s.blk.now) s.blk b
      ∧ b.rd MTC_NOW_FRAC.frac = s.blk.now16 % 2 ^ 16 ∧ RegsKeep [.mtcNowFrac] s.blk b
      ∧ b = { s.blk with regs := b.regs, out := b.out })
    ∧ (∀ (q : Path) (r w : Fin 4) (s : State), OpenPath q s.blk →
      let i := s.blk.rd (CTL_EV_RD.index r.val)
      i ≠ s.blk.rd CTL_EV_WR.index → (s.blk.rd CTL_EV_WR.index + 2 ^ 32 - i) % 2 ^ 32 ≤ 4096 →
      Does (.eventRingRead q r w) s fun b =>
        Completes q 0 (BitVec.ofNat 64 ((s.blk.ringRec i).toNat / 2 ^ (64 * w.val))) s.blk b
          ∧ b.rd (CTL_EV_RD.index r.val) = (if w.val = 3 then (i + 1) % 2 ^ 32 else i)
          ∧ RegsKeep [.ctlEvRd r.val] s.blk b ∧ b = { s.blk with regs := b.regs, out := b.out })
    ∧ ∀ (q : Path) (n : Fin 32) (v : BitVec 64) (s : State), OpenPath q s.blk → s.blk.on (MTC_SCHED_ACT.valid n.val) = false →
      bit v.toNat 8 = true → 1 ≤ bits v.toNat 0 8 → bits v.toNat 0 8 ≤ 7 →
      let t := s.blk.rd (MTC_SCHED_TIME.instant n.val)
      (stReady ≤ s.blk.dstate → s.blk.dstate ≤ stDrain → s.blk.now + 100 ≤ t →
        Does (.schedEntryWrite q n v) s fun b =>
          b.on (MTC_SCHED_ACT.valid n.val) = true ∧ b.rd (MTC_SCHED_ACT.action n.val) = bits v.toNat 0 8
            ∧ b.rd (MTC_SCHED_ACT.arg n.val) = bits v.toNat 32 32 ∧ b.schedInst n.val = t
            ∧ (∀ m, m ≠ n.val → b.schedInst m = s.blk.schedInst m) ∧ Completes q 0 0 s.blk b
            ∧ RegsKeep [.mtcSchedAct n.val] s.blk b ∧ b = { s.blk with regs := b.regs, out := b.out, sched := b.sched })
      ∧ (t < s.blk.now + 100 → Does (.schedEntryWrite q n v) s fun b =>
          Raised 0 4 0x0105 (bits v.toNat 0 8 + n.val * 2 ^ 8 + t * 2 ^ 13 + s.blk.now % 2 ^ 64 * 2 ^ 77) s.blk b
            ∧ (bits v.toNat 0 8 ≠ 2 → b.regs = s.blk.regs)
            ∧ (bits v.toNat 0 8 = 2 → RegsKeep [.routeEpoch 0, .routeEpoch 1] s.blk b
              ∧ ∀ ld, ld < 2 → (b.router ld).refusedSwitch = true
                ∧ b.rd (ROUTE_EPOCH.refused ld) = min (s.blk.rd (ROUTE_EPOCH.refused ld) + 1) (2 ^ 32 - 1))
            ∧ b.sched = s.blk.sched ∧ Completes q 0 0 s.blk b)

/-- R125, R164, R375, R378, R225, R328, R292: the writes that start something: an entry of both scale banks; the clear of a core's counters at
the next anchor; the clear and the selection of performance counters; readiness of a shadow route bank; the end of
a debug unlock; the arming of an injection in maintenance mode. The model's readings and choices here: log entry 85. -/
def Obligations.WritesThatActAtOnce : Prop :=
  (∀ (q : Path) (v : BitVec 64) (s : State), OpenPath q s.blk → s.blk.locked = false →
    Does (.numEntryCfgWrite q v) s fun b =>
      let t := s.blk.rd NUM_ENTRY_SEL.tensor_id
      (∀ sh : Bool, let e := Sp.get ScaleEnt.init (b.bank sh) t
        let o := Sp.get ScaleEnt.init (s.blk.bank sh) t
        e.fmt = bits v.toNat 0 4 ∧ e.sgn = bit v.toNat 4 ∧ e.valid = bit v.toNat 5 ∧ e.hist = bits v.toNat 6 6 + 1
          ∧ e.margin = bits v.toNat 12 4 ∧ e.grad = bit v.toNat 16 ∧ e.x = sext 10 (bits v.toNat 17 10)
          ∧ (o.hist = e.hist → e.ring = o.ring ∧ e.count = o.count) ∧ (o.hist ≠ e.hist → e.count = 0)
          ∧ ∀ u, u ≠ t → Sp.get ScaleEnt.init (b.bank sh) u = Sp.get ScaleEnt.init (s.blk.bank sh) u)
        ∧ Completes q 0 0 s.blk b ∧ RegsKeep [.numEntryCfg] s.blk b)
    ∧ (∀ (q : Path) (c : CoreId) (v : BitVec 64) (s : State), Reaches q (c.cd.val + 1) s.blk →
      Does (.seqPerfClear q c v) s fun b => b.rd (SEQ_PERF_CTRL.clear c.cd.val c.site.val) = 1
        ∧ b.rd (SEQ_PERF_CTRL.freeze c.cd.val c.site.val) = bits v.toNat 1 1 ∧ Completes q 0 0 s.blk b
        ∧ RegsKeep [.seqPerfCtrl c.cd.val c.site.val] s.blk b ∧ b = { s.blk with regs := b.regs, out := b.out })
    ∧ (∀ (q : Path) (d : Fin 20) (v : BitVec 64) (s : State), 1 ≤ d.val → d.val ≤ 18 → Reaches q d.val s.blk → s.blk.dstate ≠ stRun →
      Does (.perfClear q d v) s fun b => (∀ n, n < 8 → b.rd (PERF_CNT.count d.val n) = 0)
        ∧ b.rd (PERF_CTRL.clear d.val) = 0 ∧ b.rd (PERF_CTRL.freeze d.val) = bits v.toNat 1 1
        ∧ Completes q 0 0 s.blk b ∧ RegsKeep (.perfCtrl d.val :: perfRegs d.val) s.blk b)
    ∧ (∀ (q : Path) (d : Fin 20) (n : Fin 8) (v : BitVec 64) (s : State), 1 ≤ d.val → d.val ≤ 18 → Reaches q d.val s.blk →
      bits v.toNat 0 16 ≠ bits (s.blk.reg (.perfSel d.val n.val)) 0 16 →
      Does (.perfSelWrite q d n v) s fun b => b.rd (PERF_SEL.event d.val n.val) = bits v.toNat 0 8
        ∧ b.rd (PERF_SEL.unit d.val n.val) = bits v.toNat 8 8 ∧ b.rd (PERF_CNT.count d.val n.val) = 0 ∧ Completes q 0 0 s.blk b
        ∧ RegsKeep [.perfSel d.val n.val, .perfCnt d.val n.val] s.blk b)
    ∧ (∀ (q : Path) (ld : Fin 2) (s : State), OpenPath q s.blk →
      Does (.epochShadowReady q ld) s fun b => b.rd (ROUTE_EPOCH.shadow_ready ld.val) = 1 ∧ Completes q 0 0 s.blk b
        ∧ b.rd (ROUTE_EPOCH.active ld.val) = s.blk.rd (ROUTE_EPOCH.active ld.val) ∧ RegsKeep [.routeEpoch ld.val] s.blk b)
    ∧ (∀ (q : Path) (s : State), OpenPath q s.blk →
      Does (.debugRelock q) s fun b => b.rd SEC_DBG.level = 0 ∧ b.rd SEC_DBG.relock = 0 ∧ b.sec.dbgExpiry = 0 ∧ Completes q 0 0 s.blk b
        ∧ RegsKeep [.secDbg] s.blk b)
    ∧ ∀ (q : Path) (d : Fin 13) (v : BitVec 64) (s : State) (t : Nat), Reaches q d.val s.blk → s.blk.ras.maintUntil = some t →
      Does (.injectionArm q d v) s fun b =>
        let i : Inject := ⟨d.val, bits v.toNat 0 8, if d.val = 0 then bits v.toNat 8 5 else d.val, bits v.toNat 13 11,
          max 1 (bits v.toNat 24 8), s.blk.rd (RAS_INJ_ARG.arg d.val)⟩
        b.ras.injects = s.blk.ras.injects.filter (fun j => j.block ≠ d.val) ++ [i] ∧ b.rd (RAS_INJ_CTRL.armed d.val) = 1
          ∧ b.rd (RAS_INJ_CTRL.fired d.val) = 0 ∧ Completes q 0 0 s.blk b ∧ RegsKeep [.rasInjCtrl d.val] s.blk b

/-- R335: a write of the pull ring's head, or of a one to its stop bit, starts the descriptor at the tail: a pull asks the host for its
words, and the block remembers when the descriptor began. -/
def Sys2Proof.Says.PullRingStartsItsDescriptor : Prop :=
  ∀ (q : Path) (s : State) (key x : Nat), OpenPath q s.blk → Clean s.blk → s.blk.cxlClosed = false → s.blk.host.pullBusy = none →
    s.blk.place (s.blk.rd CXL_PULL_BASE.addr + 32 * s.blk.rd CXL_PULL_IDX.tail) = some key →
    x = (s.blk.rawWord key).1.toNat → bit x 0 = false →
    let starts (b : Blk) : Prop :=
      b.out = s.blk.out ++ [.pullRead (bits x 64 64) (bits x 176 32 / 32), .access q 0 0] ∧ b.host.pullBusy = some s.blk.now
        ∧ b.rd CXL_PULL_IDX.stopped = 0 ∧ b.rd CXL_PULL_IDX.tail = s.blk.rd CXL_PULL_IDX.tail
        ∧ RegsKeep [.cxlPullIdx] s.blk b ∧ b = { s.blk with regs := b.regs, out := b.out, host := b.host }
    (∀ h : BitVec 10, h.toNat ≠ s.blk.rd CXL_PULL_IDX.tail → s.blk.on CXL_PULL_IDX.stopped = false →
      Does (.pullRingStart q h) s fun b => starts b ∧ b.rd CXL_PULL_IDX.head = h.toNat)
    ∧ (s.blk.rd CXL_PULL_IDX.head ≠ s.blk.rd CXL_PULL_IDX.tail →
      Does (.pullRingResume q) s fun b => starts b ∧ b.rd CXL_PULL_IDX.head = s.blk.rd CXL_PULL_IDX.head)

/-! ### Memory and gather engines -/

/-- R172, R174, R191 to R193: the first held request whose requester's windows are open is served and leaves the queue, unless it waits for
refresh; one that its owner's last window of the step leaves unserved expires with EV_WINDOW_EXPIRED; a refresh slot counts. -/
def Sys2Proof.Says.MemoryRequestsUseTheirWindows : Prop :=
  (∀ (ch : Fin 128) (s : State), s.blk.coll.runs = [] →
    (∀ r ∈ Sp.get [] s.blk.memReqs ch.val, s.blk.reqWindow ch.val r = false ∨ s.blk.refreshWait ch.val r.words = true) →
    Does (.memoryRequest ch) s fun b => b = s.blk)
    ∧ (∀ (ch : Fin 128) (s : State) (r : MemReq), s.blk.coll.runs = [] → s.blk.refreshWait ch.val r.words = false → Clean s.blk →
      ((Sp.get [] s.blk.memReqs ch.val).find? fun r => s.blk.reqWindow ch.val r) = some r → r.serves = .host → r.write = true →
      32 ∣ r.addr → (∀ w ∈ r.data, w.poison = false) →
      Does (.memoryRequest ch) s fun b =>
        Sp.get [] b.memReqs ch.val = (Sp.get [] s.blk.memReqs ch.val).erase r
          ∧ (∀ i j, i < r.data.length → j < 32 →
            b.byte (r.addr + 32 * i + j) = BitVec.ofNat 8 ((r.data.getD i ⟨0, false⟩).data.toNat / 2 ^ (8 * j)))
          ∧ BytesKeep r.addr (32 * r.data.length) s.blk b ∧ b.out = s.blk.out)
    ∧ (∀ (ch : Fin 128) (s : State) (r : MemReq), s.blk.coll.runs = [] → s.blk.refreshWait ch.val r.words = false → Clean s.blk →
      ((Sp.get [] s.blk.memReqs ch.val).find? fun r => s.blk.reqWindow ch.val r) = some r → r.serves = .host → r.write = false →
      r.words = 1 →
      Does (.memoryRequest ch) s fun b =>
        Sp.get [] b.memReqs ch.val = (Sp.get [] s.blk.memReqs ch.val).erase r ∧ b.mem = s.blk.mem
          ∧ b.out = s.blk.out ++ [.host (s.blk.readWord r.addr).poison (s.blk.readWord r.addr).data])
    ∧ (∀ (ch : Fin 128) (s : State) (j : Job) (w : Window) (r : MemReq), s.blk.run.job = some j → j.windows = [w] →
      w.first ≤ ch.val → ch.val < w.first + w.count → s.blk.winStart w + w.len ≤ s.blk.now + 40 →
      s.blk.now < s.blk.winStart w + w.len + 40 → 40 < w.len → Sp.get [] s.blk.memReqs ch.val = [r] → r.owner = ownGuest → w.owner = ownGuest →
      r.serves = .guest → s.blk.vote.frozen = false →
      Does (.windowClose ch) s fun b =>
        Sp.get [] b.memReqs ch.val = [] ∧ b.vote.modFail = true ∧ b.mem = s.blk.mem
          ∧ Logged (13 + chanOf r.addr / 32) (s.blk.chanPhys r.addr) 0x0403 (r.addr % 2 ^ 48) s.blk b
          ∧ b.out = s.blk.out ++ [.guest false false (if r.write then [] else List.replicate r.words ⟨0, true⟩)])
    ∧ ∀ (ch : Fin 128) (s : State), let d := 13 + ch.val / 32
      let phys := s.blk.rd (CHAN_MAP.phys (ch.val / 32) (ch.val % 32))
      s.blk.now % 1952 = ch.val % 16 * 122 → s.blk.on (CHAN_STATUS.self_refresh (ch.val / 32) phys) = false →
      s.blk.on (PERF_CTRL.freeze d) = false →
      Does (.refreshSlot ch) s fun b => RegsKeep (perfRegs d) s.blk b ∧ b = { s.blk with regs := b.regs }
        ∧ ∀ n, n < 8 → b.rd (PERF_CNT.count d n) = (s.blk.rd (PERF_CNT.count d n)
          + if s.blk.rd (PERF_SEL.event d n) = 6 ∧ s.blk.rd (PERF_SEL.unit d n) = phys then 1 else 0) % 2 ^ 48

/-- R194, R291: a migration to a spare channel starts at once; when it is over, in an interval in which it may copy, the logical channel is served by the target and the old channel
is out of use, with EV_CHANNEL_MIGRATED; in such an interval a word on the repair list is rewritten corrected. -/
def Sys2Proof.Says.ChannelsMigrateAndWordsAreRepaired : Prop :=
  (∀ (q : Path) (md : Fin 4) (v : BitVec 64) (s : State), OpenPath q s.blk → s.blk.on (CHAN_MIGRATE.active md.val) = false →
    let l := bits v.toNat 0 5
    let t := bits v.toNat 5 6
    let old := s.blk.rd (CHAN_MAP.phys md.val l)
    t < 34 → old < 34 → old ≠ t → s.blk.rd (CHAN_STATUS.state md.val t) = 1 →
    Does (.channelMigrationStart q md v) s fun b =>
      (b.md md.val).migrating = some (l, old, t) ∧ b.rd (CHAN_MIGRATE.active md.val) = 1 ∧ b.rd (CHAN_MIGRATE.start md.val) = 0
        ∧ b.rd (CHAN_STATUS.state md.val old) = 2 ∧ b.rd (CHAN_STATUS.state md.val t) = 3
        ∧ b.rd (CHAN_MAP.phys md.val l) = old ∧ Completes q 0 0 s.blk b)
    ∧ (∀ (md : Fin 4) (s : State) (l old new : Nat), (s.blk.md md.val).migrating = some (l, old, new) →
      s.blk.mayCopy (32 * md.val + l) = true → l < 32 → old < 34 → new < 34 → old ≠ new →
      Does (.channelMigrationComplete md) s fun b =>
        (b.md md.val).migrating = none ∧ b.rd (CHAN_MAP.phys md.val l) = new ∧ b.rd (CHAN_STATUS.state md.val old) = 4
          ∧ b.rd (CHAN_STATUS.state md.val new) = 0 ∧ b.rd (CHAN_STATUS.logical md.val new) = l
          ∧ b.rd (CHAN_MIGRATE.active md.val) = 0 ∧ b.mem = s.blk.mem
          ∧ Logged (13 + md.val) new 0x0404 (34 * md.val + old + (34 * md.val + new) * 2 ^ 8 + (32 * md.val + l) * 2 ^ 16) s.blk b)
    ∧ ∀ (md : Fin 4) (s : State) (a : Nat) (rest : List Nat) (pos v : Nat), (s.blk.md md.val).repair = a :: rest → 32 ∣ a →
      s.blk.mayCopy (chanOf a) = true →
      classify (Sp.get 0 s.blk.err a) = .correctable pos v →
      Does (.eccRepairRewrite md) s fun b =>
        (b.md md.val).repair = rest ∧ b.readWord a = ⟨(checked (s.blk.rawWord a).1 (s.blk.rawWord a).2).data, s.blk.deadWord a⟩
          ∧ Sp.get 0 b.err a = 0 ∧ BytesKeep a 32 s.blk b ∧ b.regs = s.blk.regs

/-- R184, R185, R375: a lookup of a line held answers at once and counts a hit; a miss waits for its fill; the lookup port of the DMA reads
looks up only in its entries of the network calendar. The oldest miss whose region is not under write is filled from memory, in the fill
requester's windows; a flush outside RUN empties the cache, in RUN it waits for the anchor. -/
def Sys2Proof.Says.NearCacheHitsFillsAndFlushes : Prop :=
  (∀ (cd : Fin 12) (p : Fin 5) (a : BitVec 48) (s : State), s.blk.on (NCACHE_CTRL.enable cd.val) = true →
    (p.val = 4 → s.blk.lookupOpen cd.val = true) → (∃ l ∈ (s.blk.nc cd.val).lines, l.line = a.toNat / 256) →
    Does (.ncacheLookup cd p a) s fun b => b.out = s.blk.out ++ [.ncache cd.val p.val true]
      ∧ b.rd (NCACHE_HITS.count cd.val) = (s.blk.rd (NCACHE_HITS.count cd.val) + 1) % 2 ^ 48
      ∧ (b.nc cd.val).lines.map (fun l => (l.line, l.words)) = (s.blk.nc cd.val).lines.map (fun l => (l.line, l.words))
      ∧ (∃ bad, (p.val, a.toNat / 256, bad) ∈ (b.nc cd.val).served
        ∧ (bad = true ↔ ∃ l ∈ (s.blk.nc cd.val).lines, l.line = a.toNat / 256 ∧ ∃ w ∈ l.words, w.poison = true))
      ∧ RegsKeep [.ncacheHits cd.val] s.blk b)
    ∧ (∀ (cd : Fin 12) (a : BitVec 48) (s : State), s.blk.lookupOpen cd.val = false →
      Does (.ncacheLookup cd 4 a) s fun b => b = s.blk)
    ∧ (∀ (cd : Fin 12) (p : Fin 5) (a : BitVec 48) (s : State), (p.val = 4 → s.blk.lookupOpen cd.val = true) →
      (s.blk.on (NCACHE_CTRL.enable cd.val) = false ∨ ∀ l ∈ (s.blk.nc cd.val).lines, l.line ≠ a.toNat / 256) →
      Does (.ncacheLookup cd p a) s fun b => b.out = s.blk.out ∧ (b.nc cd.val).lines = (s.blk.nc cd.val).lines
        ∧ b.rd (NCACHE_MISSES.count cd.val) = (s.blk.rd (NCACHE_MISSES.count cd.val) + 1) % 2 ^ 48
        ∧ (∃ m ∈ (b.nc cd.val).misses, m.line = a.toNat / 256 ∧ p.val ∈ m.ports)
        ∧ RegsKeep (.ncacheMisses cd.val :: perfRegs (cd.val + 1)) s.blk b)
    ∧ (∀ (cd : Fin 12) (line : BitVec 40) (s : State) (m : NcMiss) (key : Nat), Clean s.blk → s.blk.on (NCACHE_CTRL.enable cd.val) = true →
      ((s.blk.nc cd.val).misses.find? fun m => (s.blk.region (s.blk.lineRegion m.line)).inFlight = 0) = some m → m.line = line.toNat →
      s.blk.fillOpen cd.val line.toNat = true → s.blk.placeRun (line.toNat * 256) 8 = some key →
      (((s.blk.nc cd.val).lines.filter fun l => l.line % 2048 = line.toNat % 2048).length < 16) →
      Does (.ncacheFillComplete cd line) s fun b =>
        (∃ l, (b.nc cd.val).lines = (s.blk.nc cd.val).lines ++ [l] ∧ l.line = line.toNat
            ∧ l.words = (List.range 8).map fun i => s.blk.readWord (key + 32 * i))
          ∧ (b.nc cd.val).misses = (s.blk.nc cd.val).misses.erase m
          ∧ b.out = (s.blk.out ++ m.ports.map fun p => Out.ncache cd.val p false) ∧ b.mem = s.blk.mem)
    ∧ ∀ (q : Path) (cd : Fin 12) (s : State), Reaches q (cd.val + 1) s.blk →
      Does (.ncacheFlush q cd) s fun b => b.rd (NCACHE_CTRL.enable cd.val) = s.blk.rd (NCACHE_CTRL.enable cd.val)
        ∧ (s.blk.dstate ≠ stRun → (b.nc cd.val).lines = [] ∧ b.rd (NCACHE_CTRL.flush cd.val) = 0)
        ∧ (s.blk.dstate = stRun → (b.nc cd.val).lines = (s.blk.nc cd.val).lines ∧ (b.nc cd.val).flushAtAnchor = true)

/-- R179 to R182: GSTART queues its stream at its engine; an index in range takes a slot, and its request issues when its windows are open
and no refresh is in the way, or else is held; an invalid index takes none and its element is zeros; a returned element, a cached one
once its lines have been looked up, lands in its core's SRAM; a remote one that does not come in time lands poisoned and makes the
core's vote fail. The last element of a stream ends it and posts to its queue. -/
def Sys2Proof.Says.GatherEnginesDeliverElements : Prop :=
  (∀ (i : Issue) (r : BitVec 5) (s : State) (x : Nat), CanIssue i s.blk → GuardHolds i s.blk → Clean s.blk →
    let k := coreKey i.core
    let ge := 4 * (k / 32) + gEngine x
    Describes k r s.blk x → gCount x ≠ 0 → (s.blk.gathE ge).fenced = false → (s.blk.gathE ge).draining = false →
    (s.blk.gathE ge).streams.length < 9 →
    Does (.gstart i r) s fun b =>
      (b.gathE ge).streams = (s.blk.gathE ge).streams ++ [⟨k, s.blk.slot k, BitVec.ofNat 256 x, 0, 0, false, []⟩]
        ∧ (∀ g, g ≠ ge → b.gathE g = s.blk.gathE g) ∧ b.rd (GATH_STATUS.busy (ge / 4) (ge % 4)) = 1
        ∧ Counted k s.blk b ∧ (b.core k).cyc = (s.blk.core k).cyc + 1)
    ∧ (∀ (cd : Fin 12) (e : Fin 4) (s : State) (st : Stream) (rest : List Stream) (sl : Nat), Clean s.blk →
      let ge := 4 * cd.val + e.val
      let d := st.desc.toNat
      (s.blk.gathE ge).streams = st :: rest → gKind d ≤ 1 → st.next < gCount d → (∀ r ∈ st.reqs, r.issued = true) →
      let v := (s.blk.gathIndex st st.next).1
      let a := gBase d + v * gWords d * 32
      freeSlot st.reqs = some sl → v ≠ 0xFFFFFFFF → v < gLimit d → (∀ r ∈ st.reqs, r.elem ≠ st.next) →
      let bank := if gKind d = 0 then chanOf a * 16 + bankOf a else 4096 + a / 32 % 64
      (st.reqs.filter fun r => r.bank = bank).length < s.blk.gathQuota cd.val d →
      let go : Bool := s.blk.gathWindow ge d a && !s.blk.gathRefresh d a
      Does (.gatherRequestIssue cd e) s fun b =>
        (b.gathE ge).streams = { st with next := st.next + 1,
                                         reqs := st.reqs ++ [⟨sl, st.next, a, bank, go, if go then s.blk.now else 0⟩] } :: rest
          ∧ b.rd (GATH_STATUS.slots_used cd.val e.val) = (st.reqs.length + 1) % 2 ^ 9 ∧ b.mem = s.blk.mem ∧ b.out = s.blk.out)
    ∧ (∀ (cd : Fin 12) (e : Fin 4) (s : State) (st : Stream), Clean s.blk →
      let ge := 4 * cd.val + e.val
      let d := st.desc.toNat
      let dst := s.blk.streamKey st (gDst d + st.next * gWords d * 32)
      (s.blk.gathE ge).streams = [st] → st.next < gCount d → (∀ r ∈ st.reqs, r.issued = true ∧ r.elem ≠ st.next) →
      (s.blk.gathIndex st st.next).1 = 0xFFFFFFFF → gMask d = false → 32 ∣ dst →
      Does (.gatherRequestIssue cd e) s fun b =>
        (∀ j, j < 32 * gWords d → b.byte (dst + j) = 0) ∧ BytesKeep dst (32 * gWords d) s.blk b
          ∧ (st.done + 1 < gCount d → (b.gathE ge).streams = [{ st with next := st.next + 1, done := st.done + 1 }])
          ∧ (gCount d ≤ st.done + 1 → (b.gathE ge).streams = []))
    ∧ (∀ (cd : Fin 12) (e : Fin 4) (elem : BitVec 20) (s : State) (st : Stream) (r : GathReq) (key : Nat), Clean s.blk →
      let ge := 4 * cd.val + e.val
      let d := st.desc.toNat
      let dst := s.blk.streamKey st (gDst d + elem.toNat * gWords d * 32)
      (s.blk.gathE ge).streams = [st] → gKind d ≠ 2 → gMask d = false →
      (st.reqs.find? fun r => r.elem = elem.toNat ∧ r.issued) = some r → s.blk.placeRun r.addr (gWords d) = some key → 32 ∣ key →
      32 ∣ dst →
      (gCached d = true → s.blk.linesServed cd.val e.val (linesOf r.addr (gWords d)) = true
        ∧ ∀ z ∈ (s.blk.nc cd.val).served, z.2.2 = false) →
      Does (.gatherElementReturn cd e elem) s fun b =>
        (∀ j, j < 32 * gWords d → b.byte (dst + j) = s.blk.byte (key + j)) ∧ BytesKeep dst (32 * gWords d) s.blk b
          ∧ (st.done + 1 < gCount d → ∃ st', (b.gathE ge).streams = [st'] ∧ st'.done = st.done + 1
            ∧ st'.reqs = st.reqs.filter fun r => r.elem ≠ elem.toNat)
          ∧ (gCount d ≤ st.done + 1 → (b.gathE ge).streams = [])
          ∧ (gCount d ≤ st.done + 1 → (s.blk.core st.core).waitq = none →
            Sp.get 0 (b.core st.core).qcnt e.val = Sp.get 0 (s.blk.core st.core).qcnt e.val + 1))
    ∧ ∀ (cd : Fin 12) (e : Fin 4) (elem : BitVec 20) (s : State) (st : Stream) (r : GathReq), NoInj s.blk →
      let ge := 4 * cd.val + e.val
      let d := st.desc.toNat
      let dst := s.blk.streamKey st (gDst d + elem.toNat * gWords d * 32)
      (s.blk.gathE ge).streams = [st] → gKind d = 2 → gMask d = false → (st.core < 384) → s.blk.vote.frozen = false →
      (st.reqs.find? fun r => r.elem = elem.toNat ∧ r.issued) = some r →
      r.issuedAt + s.blk.rd (GATH_CTRL.remote_timeout_us cd.val) * 1000 ≤ s.blk.now → 32 ∣ dst →
      Does (.gatherRemoteTimeout cd e elem) s fun b => (∀ i, i < gWords d → (b.readWord (dst + 32 * i)).poison = true)
        ∧ BytesKeep dst (32 * gWords d) s.blk b ∧ b.rd (SEQ_VOTE.hw_fail (st.core / 32) (st.core % 32)) = 1
/-! ### Collectives -/
namespace Sys2Proof.Says

/-- `r` is a broadcast of FP32 elements along one axis to this module, which is not its root; it has started, no packet waits for it, and
the engine's windows for it are open (R192). -/
def ReceivesBroadcast (r : CollRun) (x : Nat) (b : Blk) : Prop :=
  r.op = 3 ∧ b.runAxes r = [x] ∧ coordAt (b.coord 0) x ≠ r.root ∧ r.srcFmt = 0 ∧ r.srcLayout = 0 ∧ r.count ≠ 0
    ∧ r.started = true ∧ r.held = [] ∧ b.collOpen r = true

/-- `pkt` is a packet of type `t` of half `h` of the run's only stage (R241). -/
def OfRun (pkt : RawPacket) (r : CollRun) (t h : Nat) : Prop :=
  hType pkt.hdr.toNat = t ∧ hCollId pkt.hdr.toNat = r.lchan + r.invocation % 1024 * 64 ∧ hChunk pkt.hdr.toNat = h

end Sys2Proof.Says

/-- R234, R236, R241, R244: COLL starts its run, suspended on an unbound channel, and numbers it; a broadcast's elements are written to the
receiver's destination as they arrive, and its signal is noted. -/
def Sys2Proof.Says.CollectivesStartAndReceive : Prop :=
  (∀ (i : Issue) (rg : BitVec 5) (s : State) (key : Nat), CanIssue i s.blk → GuardHolds i s.blk → Clean s.blk →
    let k := coreKey i.core
    s.blk.stepList (s.blk.sreg k rg.toNat / 32 * 32) = s.blk.sreg k rg.toNat / 32 * 32 →
    s.blk.placeRun (s.blk.sreg k rg.toNat / 32 * 32) 2 = some key → 32 ∣ key →
    let d0 := (s.blk.rawWord key).1
    let d1 := (s.blk.rawWord (key + 32)).1
    let l := bits d0.toNat 8 6
    bits d0.toNat 0 4 < 5 → s.blk.run? l = none → s.blk.pchanOf l = none →
    Does (.coll i rg) s fun b => (∃ r, b.run? l = some r ∧ r.desc0 = d0 ∧ r.desc1 = d1 ∧ r.core = k ∧ r.suspended = true
        ∧ r.started = false ∧ r.invocation = Sp.get 0 s.blk.coll.invoc l ∧ r.anchorsLeft = bits d0.toNat 224 16)
      ∧ Sp.get 0 b.coll.invoc l = (Sp.get 0 s.blk.coll.invoc l + 1) % 1024 ∧ (∀ m, m ≠ l → b.run? m = s.blk.run? m)
      ∧ Counted k s.blk b ∧ b.mem = s.blk.mem)
    ∧ (∀ (pkt : RawPacket) (y : InPkt) (s : State) (r : CollRun) (x h k : Nat), Waits y pkt s.blk → Clean s.blk → h < 2 →
      s.blk.run? r.lchan = some r → r.suspended = false → ReceivesBroadcast r x s.blk → OfRun pkt r 0x04 h →
      (∀ w ∈ pkt.payload, w.poison = false) → s.blk.place r.dstAddr = some k →
      let e0 := hDev pkt.hdr.toNat
      e0 < 2 ^ 47 →
      Does (.collData pkt) s fun b =>
        (∀ i j, i < 8 * pkt.payload.length → e0 + i < r.count → j < 4 → b.byte (k + 4 * (e0 + i) + j)
            = BitVec.ofNat 8 ((pkt.payload.getD (i / 8) ⟨0, false⟩).data.toNat / 2 ^ (32 * (i % 8) + 8 * j)))
          ∧ BytesKeep (k + 4 * e0) (32 * pkt.payload.length) s.blk b ∧ (b.run? r.lchan).isSome = true)
    ∧ ∀ (pkt : RawPacket) (y : InPkt) (s : State) (r : CollRun) (x h : Nat) (w : Word), Waits y pkt s.blk → NoInj s.blk → h < 2 →
      s.blk.run? r.lchan = some r → r.suspended = false → ReceivesBroadcast r x s.blk → OfRun pkt r 0x05 h →
      pkt.payload = [⟨w, false⟩] →
      Does (.collSignal pkt) s fun b => b.mem = s.blk.mem ∧ ∃ r', b.run? r.lchan = some r'
        ∧ Sp.get none r'.sigs (flowKey 0 0 h 0 0 0) = some (bits w.toNat 0 32)

/-- R237, R248: a collective whose words have all come writes its status word, done, posts its completion to queue 5 of its core and frees
its channel; one not complete at its deadline fails: aborted status, EV_COLLECTIVE_FAIL, and the core's vote. -/
def Sys2Proof.Says.CollectivesCompleteOrFail : Prop :=
  ∀ (ch : Fin 16) (s : State) (r : CollRun) (key : Nat), s.blk.on (COLL_CHAN.bound ch.val) = true → NoInj s.blk →
    s.blk.run? (s.blk.rd (COLL_CHAN.logical ch.val)) = some r → r.lchan = s.blk.rd (COLL_CHAN.logical ch.val) →
    s.blk.pchanOf r.lchan = some ch.val → s.blk.place r.statusAddr = some key → s.blk.ras.deadBlocks = [] →
    (s.blk.core r.core).waitq = none → r.core < 384 →
    let ends (b : Blk) : Prop := b.run? r.lchan = none ∧ b.rd (COLL_CHAN.busy ch.val) = 0
      ∧ Sp.get 0 (b.core r.core).qcnt 5 = Sp.get 0 (s.blk.core r.core).qcnt 5 + 1 ∧ (b.readWord key).poison = false
      ∧ BytesKeep (key / 32 * 32) 32 s.blk b
    (s.blk.collDone r = true → r.suspended = false →
      Does (.collectiveComplete ch) s fun b => ends b ∧ bits (b.readWord key).data.toNat 0 2 = 1 ∧ b.ev = s.blk.ev)
    ∧ (s.blk.collDone r = false → r.anchorsLeft = 0 → s.blk.vote.frozen = false →
      Does (.collectiveDeadlineExpiry ch) s fun b => ends b ∧ bits (b.readWord key).data.toNat 0 2 = 2
        ∧ b.rd (SEQ_VOTE.hw_fail (r.core / 32) (r.core % 32)) = 1
        ∧ ∃ d, Logged 0 2 0x0601 d s.blk b ∧ bits d 0 6 = r.lchan)
/-! ### Start-up, resets and power -/
namespace Sys2Proof.Says

/-- The block has entered device state `st` now (R259). -/
def Entered (st : Nat) (b b' : Blk) : Prop := b'.dstate = st ∧ b'.reg .ctlStateTime = b.now % 2 ^ 64

/-- Everything of the main domain but the cables' state and what a cold start keeps is lost (R305, R389). -/
def AllLost (b b' : Blk) : Prop :=
  b'.mem = [] ∧ b'.err = [] ∧ b'.cores = [] ∧ b'.xfers = [] ∧ b'.flash = b.flash ∧ b'.run = RunSt.init ∧ b'.sched = ⟨[], []⟩
    ∧ ∀ p, p < 10 → b'.port p = { PortSt.init with present := (b.port p).present }

/-- Every sensor of the reading is below the trip temperature less its hysteresis (R358). -/
def AllClear (t : ThermalReading) (b : Blk) : Prop :=
  ∀ q ∈ t.pairs, q.a < 8 * ((b.rd PWR_THERM_CFG.trip_c : Int) - b.rd PWR_THERM_CFG.hyst_c)
    ∧ q.b < 8 * ((b.rd PWR_THERM_CFG.trip_c : Int) - b.rd PWR_THERM_CFG.hyst_c)

/-- A warm reset: external memory and flash are kept, the reset is counted with its cause, and BOOT is entered on the warm path. -/
def WarmReset (c : Instr) (cause : Nat) (held : Bool) : Prop :=
  ∀ s : State, stBoot ≤ s.blk.dstate → s.blk.rst.coldHeld = false →
    Does c s fun b => Entered stBoot s.blk b ∧ b.rd CTL_STATE.warm = 1 ∧ b.rst.warmPath = true ∧ b.rst.warmHeld = held
      ∧ b.rd GLB_RESETS.last_cause = cause ∧ b.rd GLB_RESETS.warm = min (s.blk.rd GLB_RESETS.warm + 1) (2 ^ GLB_RESETS.warm.w - 1)
      ∧ (∀ a, a < stageKey → b.byte a = s.blk.byte a) ∧ b.flash = s.blk.flash ∧ b.cores = [] ∧ b.xfers = [] ∧ b.run = RunSt.init

end Sys2Proof.Says

/-- R260, R305, R358, R389 to R392: input power leads to STANDBY and its loss to OFF with everything volatile lost; the release of
HOLD_N or COLD_RST_N, or the cooling after a start-up trip, starts BOOT; a cold reset returns to STANDBY; a warm reset, the
hub watchdog and a fatal control error restart from BOOT with memory kept. The model's readings and choices here: log entries
1, 75. -/
def Obligations.PowerAndResetsMoveTheModule : Prop :=
  (∀ s : State, s.blk.dstate = stOff →
    Does .powerInputGood s fun b => Entered stStandby s.blk b ∧ RegsKeep [.ctlState, .ctlStateTime] s.blk b ∧ b.mem = s.blk.mem)
    ∧ (∀ s : State, Does .powerInputLost s fun b => b.dstate = stOff ∧ AllLost s.blk b)
    ∧ (∀ s : State, s.blk.dstate = stStandby → s.blk.rst.coldHeld = false → s.blk.rst.tripHold = false →
      Does .holdRelease s fun b => Entered stBoot s.blk b ∧ AllLost s.blk b ∧ b.rst.holdN = false ∧ b.rst.warmPath = false)
    ∧ (∀ s : State, s.blk.dstate ≠ stOff →
      Does .coldReset s fun b => b.dstate = stStandby ∧ AllLost s.blk b ∧ b.rst.coldHeld = true)
    ∧ (∀ s : State, s.blk.dstate = stStandby → s.blk.rst.tripHold = false → s.blk.rst.holdN = false →
      Does .coldRstNRelease s fun b => Entered stBoot s.blk b ∧ AllLost s.blk b ∧ b.rst.coldHeld = false)
    ∧ (∀ (t : ThermalReading) (s : State), s.blk.dstate = stStandby → s.blk.rst.tripHold = true → s.blk.rst.coldHeld = false →
      s.blk.rst.holdN = false → AllClear t s.blk →
      Does (.tripSensorsClear t) s fun b => Entered stBoot s.blk b ∧ AllLost s.blk b ∧ b.rst.tripHold = false)
    ∧ WarmReset .warmReset 0 true ∧ WarmReset .hubWatchdogExpiry 1 false ∧ WarmReset .hubCtlFatal 2 false
    ∧ ∀ s : State, Does .warmRstNRelease s fun b => b = { s.blk with rst := { s.blk.rst with warmHeld := false } }

/-- R260, R265, R270, R310: BOOT ends in RECOVERY for firmware or a plan that fails, with the result and the failing check, and in
SELFTEST otherwise; the self-test and the training of the memory follow, and then DISCOVER. The model's readings and choices
here: log entries 72, 73. -/
def Obligations.StartUpReachesDiscovery : Prop :=
  (∀ (x : BootInput) (s : State), s.blk.dstate = stBoot → s.blk.rst.warmHeld = false → s.blk.layoutOk = true →
    s.blk.fwKey x.fwSig0 x.fwSig1 = none →
    Does (.bootComplete x) s fun b => Entered stRecovery s.blk b ∧ b.rd CTL_BOOT.result = 2)
    ∧ (∀ (x : BootInput) (s : State) (key : Nat), s.blk.dstate = stBoot → s.blk.rst.warmHeld = false → s.blk.layoutOk = true →
      s.blk.fwKey x.fwSig0 x.fwSig1 = some key →
      let b1 := ((s.blk.takeFirmware key).identity x).setReg .secDbgNonce x.nonce.toNat
      (∀ c, b1.planCheck x.planSigs = some c →
        Does (.bootComplete x) s fun b => Entered stRecovery s.blk b ∧ b.rd CTL_BOOT.plan_check = c
          ∧ b.rd CTL_BOOT.result = if c = 5 then 4 else 3)
      ∧ (b1.planCheck x.planSigs = none →
        Does (.bootComplete x) s fun b => Entered stSelftest s.blk b ∧ b.rd CTL_BOOT.result = 0))
    ∧ (∀ s : State, s.blk.dstate = stSelftest →
      (Does (.postComplete false) s fun b => Entered stTrain s.blk b ∧ RegsKeep [.ctlState, .ctlStateTime] s.blk b)
        ∧ Does (.postComplete true) s fun b => b.dstate = stSelftest ∧ ∃ d, Logged 0 20 0x0805 d s.blk b)
    ∧ ∀ (l : List (Fin 136)) (s : State), s.blk.dstate = stTrain → (∀ p, p < 10 → (s.blk.port p).hello = none) →
      Does (.trainComplete l) s fun b => b.dstate = stDiscover
        ∧ (∀ c : Fin 136, b.rd (CHAN_STATUS.self_refresh (c.val / 34) (c.val % 34)) = 0)
        ∧ ∀ c ∈ l, s.blk.rd (CHAN_STATUS.state (c.val / 34) (c.val % 34)) ≠ 0 → l = [c] →
          b.rd (CHAN_STATUS.state (c.val / 34) (c.val % 34)) = 4

/-! ### Thermal levels, rails and the idle calendar -/
namespace Sys2Proof.Says

/-- Only the listed registers, the power block's own state, the events, MSI-X causes and outputs may differ. -/
def PowerOnly (l : List Reg) (b b' : Blk) : Prop :=
  RegsKeep l b b' ∧ b' = { b with regs := b'.regs, power := b'.power, ev := b'.ev, vote := b'.vote, out := b'.out, run := b'.run }

/-- A sample of one pair that agrees, with no injection armed. -/
def OnePair (t : ThermalReading) (q : SensorPair) (b : Blk) : Prop :=
  b.dstate ≠ stOff ∧ t.pairs = [q] ∧ NoInj b ∧ (q.a - q.b).natAbs ≤ 40 ∧ t.regFault = false
    ∧ max q.a q.b < 8 * (b.rd PWR_THERM_CFG.trip_c : Int)

/-- What a sample shows (R357). -/
def Shows (t : ThermalReading) (q : SensorPair) (b : Blk) : Prop :=
  b.rd PWR_THERM_STAT.hottest = wrapInt 16 (max q.a q.b) ∧ b.rd PWR_THERM_STAT.die = q.die.val
    ∧ b.rd PWR_TELEM.inlet = wrapInt 16 (max t.inletA t.inletB) ∧ b.rd PWR_TELEM.outlet = wrapInt 16 t.outlet
    ∧ b.rd PWR_TELEM.flow = min t.flow (2 ^ 16 - 1)

end Sys2Proof.Says

/-- R357 to R359: a sample shows its readings; level 1 begins at throttle_c or above the mode's inlet limit, level 2 at hold_c, 5 °C more
inlet or a flow below 80 % of the mode's minimum, with the events; the trip latches level 3, invalidates the scheduled events
and puts the module in Calm with its memory in self-refresh; 1 ms later the job is over, or start-up is back in STANDBY. The
model's readings and choices here: log entry 78. -/
def Obligations.ThermalLevelsAndTheTrip : Prop :=
  (∀ (t : ThermalReading) (q : SensorPair) (s : State), OnePair t q s.blk → s.blk.power.levels = [] →
    let hot := max q.a q.b
    let inlet := max t.inletA t.inletB
    let m := s.blk.rd PWR_MODE.mode
    let inMax : Int := if m = 0 then 320 else if m = 1 then 360 else 400
    let flowMin : Nat := if m = 0 then 800 else if m = 1 then 600 else 100
    let one : Prop := 8 * (s.blk.rd PWR_THERM_CFG.throttle_c : Int) ≤ hot ∨ inMax < inlet
    let two : Prop := 8 * (s.blk.rd PWR_THERM_CFG.hold_c : Int) ≤ hot ∨ inMax + 40 < inlet ∨ 100 * t.flow < 80 * flowMin
    Does (.thermalSample t) s fun b => Shows t q b
      ∧ (1 ∈ b.power.levels ↔ one) ∧ (2 ∈ b.power.levels ↔ two)
      ∧ ((¬one ∧ ¬two → b.rd PWR_THERM_STAT.level = 0) ∧ (one ∧ ¬two → b.rd PWR_THERM_STAT.level = 1)
        ∧ (two → b.rd PWR_THERM_STAT.level = 2))
      ∧ (one → Logged 0 18 0x0904 (1 + q.die.val * 4 + q.pair.val * 2 ^ 7 + wrapInt 16 hot * 2 ^ 11) s.blk b)
      ∧ (two → Logged 0 18 0x0901 (2 + q.die.val * 4 + q.pair.val * 2 ^ 7 + wrapInt 16 hot * 2 ^ 11) s.blk b)
      ∧ PowerOnly [.pwrThermStat, .pwrTelem] s.blk b)
    ∧ (∀ (die : BitVec 5) (n : BitVec 4) (temp : Int) (s : State), s.blk.dstate = stReady → s.blk.power.tripAt = none →
      Does (.thermalTrip die n temp) s fun b =>
        b.rd PWR_THERM_STAT.trip_latched = 1 ∧ b.rd PWR_THERM_STAT.level = 3 ∧ b.power.tripAt = some s.blk.now ∧ b.rd PWR_MODE.mode = 2
          ∧ b.dstate = stReady ∧ (∀ i, i < 32 → b.on (MTC_SCHED_ACT.valid i) = false) ∧ b.sched = ⟨[], []⟩
          ∧ (∀ c, c < 136 → b.rd (CHAN_STATUS.self_refresh (c / 34) (c % 34)) = 1) ∧ b.cores = [] ∧ b.xfers = []
          ∧ (∀ a, a < 2 ^ 49 → b.byte a = s.blk.byte a) ∧ (∀ a, 2 ^ 49 ≤ a → b.byte a = 0)
          ∧ Logged 0 18 0x0901 (3 + die.toNat * 4 + n.toNat * 2 ^ 7 + wrapInt 16 temp * 2 ^ 11) s.blk b)
    ∧ ∀ (s : State) (t : Nat), s.blk.power.tripAt = some t → t + 1000000 ≤ s.blk.now →
      Does .tripSettle s fun b => b.power.tripAt = none
        ∧ (stArmed ≤ s.blk.power.tripFrom ∧ s.blk.power.tripFrom ≤ stDrain → Entered stReady s.blk b ∧ b.run.job = none
          ∧ b.rd XBAR_STATUS.idle = 1 ∧ ∀ k, k < 384 → b.seqState k = 0)
        ∧ (stBoot ≤ s.blk.power.tripFrom ∧ s.blk.power.tripFrom ≤ stSync → Entered stStandby s.blk b ∧ b.rst.tripHold = true)

/-- R350, R351, R353: k follows measured ÷ predicted power within 0.8 to 1.5; a rail that adapts rises 5 mV at once while its monitor is
below the guard, and falls 5 mV at most once per ms, within its range; a regulator's readings are kept. -/
def Sys2Proof.Says.PowerCalibrationAndRails : Prop :=
  (∀ (w : Nat) (s : State) (j : Job), s.blk.run.job = some j → s.blk.dstate = stRun →
    let p := s.blk.predicted j (s.blk.now - 10000000) s.blk.now
    p ≠ 0 →
    Does (.powerCalibration w) s fun b =>
      b.run = { s.blk.run with k := max 800 (min 1500 (w * 10000000 * 1000 / p)) }
        ∧ b.rd PWR_BALLAST.k_milli = max 800 (min 1500 (w * 10000000 * 1000 / p)) ∧ PowerOnly [.pwrBallast] s.blk b)
    ∧ (∀ (d : Fin 19) (margin guard_ : Int) (s : State), s.blk.on (PWR_AVS.avs_en d.val) = true →
      let v := s.blk.rd (PWR_AVS.vout_mv d.val)
      let compute := 1 ≤ d.val ∧ d.val ≤ 12
      (margin < guard_ → v + 5 ≤ 850 →
        Does (.avsAdjust d margin guard_) s fun b => b.rd (PWR_AVS.vout_mv d.val) = v + 5
          ∧ b.power = s.blk.power ∧ PowerOnly [.pwrAvs d.val] s.blk b)
      ∧ (guard_ ≤ margin → Sp.get 0 s.blk.power.avsDown d.val ≤ s.blk.now → s.blk.rd (PWR_AVS.vmin_mv d.val) + 5 ≤ v →
        (if compute then 605 else 705) ≤ v →
        Does (.avsAdjust d margin guard_) s fun b => b.rd (PWR_AVS.vout_mv d.val) = v - 5
          ∧ Sp.get 0 b.power.avsDown d.val = s.blk.now + 1000000 ∧ PowerOnly [.pwrAvs d.val] s.blk b))
    ∧ ∀ (r : Fin 40) (v i : Nat) (temp : Int) (s : State), stStandby < s.blk.dstate →
      Does (.regulatorPoll r v i temp) s fun b =>
        b = { s.blk with power := { s.blk.power with rails := Sp.set (0, 0, 0) s.blk.power.rails r.val (v, i, temp) } }

/-- R260, R281, R286, R350: the idle calendar shows its slot's class, and its first slot puts a waiting power limit in force; when the drain
is complete and the lull window over, DRAIN ends in READY, with no job and the idle calendar running. -/
def Sys2Proof.Says.IdleCalendarAndTheEndOfDrain : Prop :=
  (∀ s : State, s.blk.on XBAR_STATUS.idle = true → s.blk.run.job = none → s.blk.coll.answer = none → s.blk.dstate ≠ stDrain →
    (∀ md, md < 4 → (s.blk.md md).migrating = none) →
    Does .idleCalendarSlot s fun b => b.rd XBAR_STATUS.idle_class = s.blk.now % 5000 / 1000
      ∧ (1000 ≤ s.blk.now % 5000 → RegsKeep [.xbarStatus] s.blk b ∧ b = { s.blk with regs := b.regs })
      ∧ (s.blk.now % 5000 < 1000 → s.blk.power.limitPending = true →
        b.power.limitPending = false ∧ b.rd PWR_LIMIT.in_force_w =
          min (s.blk.rd PWR_LIMIT.limit_w) (min (s.blk.rd PWR_LIMIT.phase_cap_w)
            (if s.blk.rd PWR_MODE.mode = 0 then 5000 else if s.blk.rd PWR_MODE.mode = 1 then 3400 else 240))))
    ∧ ∀ (s : State) (t : Nat), s.blk.dstate = stDrain → s.blk.power.tripAt = none → s.blk.run.lullEnd = some t →
      t + 40 ≤ s.blk.now → s.blk.run.stopped = true → s.blk.jobQuiet = true → (∀ d ∈ s.blk.ras.drains, d.why ≠ 1) →
      Does .drainStateExit s fun b => Entered stReady s.blk b ∧ b.run.job = none ∧ b.rd XBAR_STATUS.idle = 1
        ∧ b.rd CTL_ARM.phase = 0 ∧ b.coll.drainCh = [] ∧ (∀ k, k < 384 → b.seqState k = 0) ∧ b.mem = s.blk.mem

/-! ### Commands, arming and stopping -/
namespace Sys2Proof.Says

/-- `x` is the one placed command, and it is due: beside the table, which is empty; or in an entry of action 0x04 that is the
only one due. -/
def OneDue (x : Placed) (b : Blk) : Prop :=
  b.sched.placed = [x] ∧ x.inst + 40 ≤ b.now
    ∧ ((x.entry = 32 ∧ ∀ n, n < 32 → b.on (MTC_SCHED_ACT.valid n) = false) ∨ (Due x.entry 4 b ∧ b.schedInst x.entry = x.inst))

/-- `b` once `x` has left its place. -/
def leave (x : Placed) (b : Blk) : Blk :=
  let c := { b with sched := { b.sched with placed := [] } }
  if x.entry = 32 then c else c.wr (MTC_SCHED_ACT.valid x.entry) 0

/-- No request of this authority and number was taken in from a relaying module: its reply leaves by the module's own port (R340). -/
def Direct (auth id : Nat) (b : Blk) : Prop := ∀ e ∈ b.mgmt.relayFrom, ¬(e.auth.toNat = auth % 256 ∧ e.requestId.toNat = id)

/-- A request that R339 accepts: signed by an authority of the plan, numbered above its last; the device key is unwrapped. -/
def Accepted (r : MgmtReq) (b : Blk) : Prop :=
  b.dstate ≠ stOff ∧ b.dstate ≠ stRecovery ∧ b.auths.contains r.auth.toNat = true ∧ r.sigValid = true
    ∧ b.rd (MGMT_AUTH_SEQ.last r.auth.toNat) < r.requestId.toNat ∧ b.on SEC_STATUS.key_ok = true ∧ Direct r.auth.toNat r.requestId.toNat b

/-- What the module answers to `r` is signed and leaves by its own port. -/
def Answers (r : MgmtReq) (b : Blk) : Prop := b.on SEC_STATUS.key_ok = true ∧ Direct r.auth.toNat r.requestId.toNat b

/-- The reply to `r` with a status and data, as the next output. -/
def Replies (r : MgmtReq) (status : Nat) (body : List Byte) (b b' : Blk) : Prop :=
  b'.out = b.out ++ [.message r.auth.toNat 0x30 r.requestId.toNat status body]

/-- The numbers that a request's acceptance writes: its number, and the count of R345. -/
def Numbered (r : MgmtReq) (b b' : Blk) : Prop :=
  b'.rd (MGMT_AUTH_SEQ.last r.auth.toNat) = r.requestId.toNat
    ∧ b'.rd MGMT_COUNT.accepted = min (b.rd MGMT_COUNT.accepted + 1) (2 ^ MGMT_COUNT.accepted.w - 1)

/-- The arm `p` at `b` passes every check of R281 to R283, and restores `r` for the job `j`. -/
def Arms (p : List Byte) (d : List DirEnt) (r : Restored) (b : Blk) : Prop :=
  b.dstate = stReady ∧ b.run.pulling = none ∧ b.journal.inDoubt = false ∧ aSource p = 0 ∧ b.imageFits p = true
    ∧ b.validateImage (aImage p) (if aMode p = 0 then 3600 else 2700) (aMode p) (b.armSlot p) = .inr d
    ∧ b.topologyCode (aImage p) d = none ∧ b.linksAgree = true ∧ (aCold p = true → hColdOk (b.iw (aImage p) 0) = true)
    ∧ b.restoreFor (b.readJob (aImage p) d (aStart p)) p = some r ∧ b.armLate p = false

end Sys2Proof.Says

/-- R8, R19, R44, R320 to R322, R339: a verified command is numbered, placed for its instant, and answered, a register write only once its
writes are made; where the table takes no entry an arm, an expel and a re-plan are held and any other command is lost; one whose certificate fails a check is
rejected with the reason. R260: a start request takes the module from STANDBY to BOOT. The model's readings and choices here:
log entries 47, 48, 74, 121, 122. -/
def Obligations.CommandsAreVerifiedAndPlaced : Prop :=
  (∀ (r : MgmtReq) (e : Envelope) (s : State) (p : List Byte), stSelftest ≤ s.blk.dstate → s.blk.dstate < stReady →
    (e.cmdType = 1 ∨ e.cmdType = 3 ∨ e.cmdType = 4) → Answers r s.blk → s.blk.certCheck e = .inr p →
    Does (.command r e) s fun b => b.rd SEC_CMD_SEQ.seq = e.seq.toNat ∧ b.rd SEC_QC_STAT.last_type = e.cmdType.toNat
      ∧ Replies r 0 [] s.blk b
      ∧ ∃ t, b.sched.placed = s.blk.sched.placed ++ [⟨32, t, e.seq.toNat, s.blk.now, e.cmdType.toNat, p, r.auth.toNat, r.requestId.toNat⟩]
        ∧ (s.blk.now + 1000 ≤ namedInst e.cmdType.toNat p → t = namedInst e.cmdType.toNat p)
        ∧ (namedInst e.cmdType.toNat p < s.blk.now + 1000 → t = (s.blk.now + 1000 + 4999) / 5000 * 5000))
    ∧ (∀ (r : MgmtReq) (e : Envelope) (s : State) (p : List Byte), stSelftest ≤ s.blk.dstate → s.blk.dstate < stReady →
      (e.cmdType ≠ 1 ∧ e.cmdType ≠ 3 ∧ e.cmdType ≠ 4) → Answers r s.blk → s.blk.certCheck e = .inr p →
      (∀ x ∈ s.blk.sched.placed, x.seq ≠ e.seq.toNat) →
      Does (.command r e) s fun b => b.rd SEC_CMD_SEQ.seq = e.seq.toNat ∧ Replies r 0 [] s.blk b ∧ b.sched = s.blk.sched
        ∧ ∃ d, Logged 0 4 0x0105 d s.blk b ∧ bits d 0 8 = 4)
    ∧ (∀ (r : MgmtReq) (e : Envelope) (s : State) (p : List Byte) (n : Fin 32), stReady ≤ s.blk.dstate → s.blk.dstate ≤ stDrain →
      Answers r s.blk → s.blk.certCheck e = .inr p → s.blk.now + 1000 ≤ namedInst e.cmdType.toNat p →
      s.blk.on (MTC_SCHED_ACT.valid n.val) = false → (∀ m, m < n.val → s.blk.on (MTC_SCHED_ACT.valid m) = true) →
      Does (.command r e) s fun b => b.rd SEC_CMD_SEQ.seq = e.seq.toNat ∧ (e.cmdType ≠ 7 → Replies r 0 [] s.blk b)
        ∧ (e.cmdType = 7 → b.out = s.blk.out)
        ∧ b.on (MTC_SCHED_ACT.valid n.val) = true ∧ b.rd (MTC_SCHED_ACT.action n.val) = 4
        ∧ b.schedInst n.val = namedInst e.cmdType.toNat p
        ∧ ⟨n.val, namedInst e.cmdType.toNat p, e.seq.toNat, s.blk.now, e.cmdType.toNat, p, r.auth.toNat,
          r.requestId.toNat⟩ ∈ b.sched.placed)
    ∧ (∀ (r : MgmtReq) (e : Envelope) (s : State) (reason : Nat), stSelftest ≤ s.blk.dstate → s.blk.dstate ≠ stRecovery →
      Answers r s.blk → s.blk.certCheck e = .inl reason →
      Does (.command r e) s fun b => Replies r 5 [BitVec.ofNat 8 reason] s.blk b ∧ b.rd SEC_QC_STAT.last_reason = reason
        ∧ b.rd SEC_QC_STAT.rejects = min (s.blk.rd SEC_QC_STAT.rejects + 1) (2 ^ SEC_QC_STAT.rejects.w - 1)
        ∧ b.sched = s.blk.sched ∧ Logged 0 14 0x0A01 (reason + e.seq.toNat * 2 ^ 8) s.blk b)
    ∧ ∀ (r : MgmtReq) (s : State), Accepted r s.blk → s.blk.dstate = stStandby → s.blk.rst.coldHeld = false →
      s.blk.rst.tripHold = false →
      Does (.start r) s fun b => Entered stBoot s.blk b ∧ AllLost s.blk b

/-- R280 to R286: an arm that passes every check writes step, seed, journal and tables, places the job's start and leaves the module ARMED;
a stop returns an armed module to READY, and in RUN waits for a flip. The model's readings and choices here: log entries 49,
50, 51. -/
def Obligations.ArmAndStopChangeTheJob : Prop :=
  (∀ (s : State) (x : Placed) (d : List DirEnt) (r : Restored), OneDue x s.blk → x.ctype = 1 → isStop x.payload = false →
    Arms x.payload d r (leave x s.blk) →
    Does .arm s fun b =>
      let p := x.payload
      b.dstate = stArmed ∧ b.rd NUM_STEP.step = r.journal.step % 2 ^ NUM_STEP.step.w
        ∧ b.rd (NUM_SEED.seed 0) = aSeed p % 2 ^ 64 ∧ b.rd (NUM_SEED.seed 1) = aSeed p / 2 ^ 64
        ∧ b.rd COLL_JOURNAL.addr = aJournal p ∧ b.on NUM_CTRL.replay = aReplay p 
        ∧ b.on NUM_CTRL.cold_scale = (r.cold || r.table.any fun e => e.2.valid && decide (e.2.coldLeft ≠ 0))
        ∧ b.reg .ctlArmStart = aStart p ∧ b.rd CTL_ARM.phase = 4
        ∧ b.run.job = some ((leave x s.blk).readJob (aImage p) d (aStart p))
        ∧ b.coll.votes = [] ∧ b.vote = VoteSt.init)
    ∧ (∀ (s : State) (x : Placed) (n : Nat), OneDue x s.blk → x.ctype = 1 → isStop x.payload = true → s.blk.dstate = stArmed →
      (leave x s.blk).startEntry = some n →
      Does .stop s fun b => Entered stReady s.blk b ∧ b.on (MTC_SCHED_ACT.valid n) = false ∧ b.run.job = none
        ∧ b.rd XBAR_STATUS.idle = 1 ∧ b.rd CTL_ARM.phase = 0)
    ∧ ∀ (s : State) (x : Placed), OneDue x s.blk → x.ctype = 1 → isStop x.payload = true → s.blk.dstate = stRun →
      Does .stop s fun b => b = { leave x s.blk with run := { s.blk.run with stopAt := some (aStart x.payload) }, regs := b.regs }
        ∧ b.rd CTL_ARM.phase = 6 ∧ RegsKeep [.ctlArm, .mtcSchedAct x.entry] s.blk b

/-! ### Fences, releases and drains -/
namespace Sys2Proof.Says

/-- A fence or release command of `kind` is the one that is due, and it names a unit that exists. -/
def FenceDue (x : Placed) (kind : Nat) (rel : Bool) (b : Blk) : Prop :=
  OneDue x b ∧ x.ctype = 2 ∧ fKind (armWord x.payload 0) = kind ∧ fRelease (armWord x.payload 0) = rel
    ∧ fenceUnitOk (armWord x.payload 0) = true

/-- The drains, fences and other RAS state with one more drain, of a unit that has none. -/
def withDrain (kind u why : Nat) (b : Blk) : RasSt := { b.ras with drains := b.ras.drains ++ [⟨kind, u, b.now, why⟩] }

/-- No drain of this unit is in progress. -/
def NoDrain (kind u : Nat) (b : Blk) : Prop := ∀ d ∈ b.ras.drains, d.kind = kind → d.unit ≠ u

/-- The drains of a unit's fence are over. -/
def unfenced (kind u : Nat) (b : Blk) : RasSt :=
  { b.ras with drains := b.ras.drains.filter fun d => ¬(d.kind = kind ∧ d.unit = u ∧ d.why = 0) }

/-- The RAS state without the drains of a unit. -/
def drained (kind u : Nat) (b : Blk) : RasSt := { b.ras with drains := b.ras.drains.filter fun d => ¬(d.kind = kind ∧ d.unit = u) }

end Sys2Proof.Says

/-- R210, R301, R304, R308: a fence command has its function drain; a core outside RUN gets a spare once quiet, and a memory channel migrates
to a spare channel. -/
def Sys2Proof.Says.FenceCommandsDrainTheirFunction : Prop :=
  (∀ (s : State) (x : Placed), FenceDue x 0 false s.blk →
    let w := armWord x.payload 0
    let cd := fDie w - 1
    let k := cd * 32 + fUnit w
    s.blk.served k = true → s.blk.ras.fences = [] → s.blk.dstate ≠ stRun →
    (∀ c, s.blk.coreQuiet k = true → (leave x s.blk).spareCore cd (b2n (isLee k)) = some c → Sp.get none s.blk.ras.running (cd + 1) = none →
      Does .fenceCore s fun b => (b.core k).draining = true ∧ b.rd (SITE_FENCE.active cd) = 1 ∧ b.rd (SITE_FENCE.site cd) = fUnit w
        ∧ b.rd (SITE_FENCE.spare cd) = c ∧ b.ras.fences = [⟨cd, fUnit w, c, true, 1, s.blk.now + s.blk.copyNs k⟩]
        ∧ RegsKeep [.siteFence cd, .mtcSchedAct x.entry] s.blk b)
    ∧ (s.blk.coreQuiet k = false →
      Does .fenceCore s fun b => (b.core k).draining = true ∧ b.rd (SITE_FENCE.active cd) = 1
        ∧ b.ras.drains = s.blk.ras.drains ++ [⟨0, k, s.blk.now, 3⟩] ∧ b.ras.fences = [⟨cd, fUnit w, 36, true, 0, 0⟩]))
    ∧ (∀ (s : State) (x : Placed), FenceDue x 1 false s.blk →
      let ge := 4 * (fDie (armWord x.payload 0) - 1) + fUnit (armWord x.payload 0)
      NoDrain 1 ge s.blk →
      Does .fenceGather s fun b => b = { leave x s.blk with gath := b.gath, ras := withDrain 1 ge 0 s.blk }
        ∧ b.gathE ge = { s.blk.gathE ge with fenced := true, draining := true, releaseAtAnchor := false }
        ∧ ∀ g, g ≠ ge → b.gathE g = s.blk.gathE g)
    ∧ (∀ (s : State) (x : Placed), FenceDue x 2 false s.blk →
      let n := fUnit (armWord x.payload 0)
      let p := s.blk.physOf (n / 5) n
      NoDrain 2 p s.blk →
      Does .fencePort s fun b => b = { leave x s.blk with ports := b.ports, ras := withDrain 2 p 0 s.blk }
        ∧ b.port p = { s.blk.port p with draining := true } ∧ ∀ q, q ≠ p → b.port q = s.blk.port q)
    ∧ (∀ (s : State) (x : Placed), FenceDue x 3 false s.blk →
      let c := fUnit (armWord x.payload 0)
      NoDrain 3 c s.blk → c ∉ s.blk.coll.fencedCh →
      Does .fenceCollChannel s fun b => b = { leave x s.blk with ras := withDrain 3 c 0 s.blk, coll := b.coll }
        ∧ b.coll = { s.blk.coll with fencedCh := s.blk.coll.fencedCh ++ [c], releaseCh := s.blk.coll.releaseCh.filter (· ≠ c) })
    ∧ (∀ (s : State) (x : Placed), FenceDue x 4 false s.blk → s.blk.on GFW_STATUS.isolated = false → NoDrain 4 0 s.blk →
      Does .fenceGuest s fun b => b = { leave x s.blk with ras := withDrain 4 0 0 s.blk })
    ∧ (∀ (s : State) (x : Placed), FenceDue x 5 false s.blk → NoDrain 5 0 s.blk →
      Does .fenceCxl s fun b => b = { leave x s.blk with ras := withDrain 5 0 0 s.blk })
    ∧ ∀ (s : State) (x : Placed) (t : Nat), FenceDue x 6 false s.blk →
      let u := fUnit (armWord x.payload 0)
      let md := u / 32
      let old := s.blk.rd (CHAN_MAP.phys md (u % 32))
      s.blk.spareChan md = some t → s.blk.on (CHAN_MIGRATE.active md) = false → old < 34 → old ≠ t →
      Does .fenceMemChannel s fun b => b.rd (CHAN_MIGRATE.active md) = 1 ∧ b.rd (CHAN_MIGRATE.logical md) = u % 32
        ∧ b.rd (CHAN_MIGRATE.target md) = t ∧ b.rd (CHAN_STATUS.state md old) = 2 ∧ b.rd (CHAN_STATUS.state md t) = 3
        ∧ (b.md md).migrating = some (u % 32, old, t) ∧ b.mem = s.blk.mem

/-- R302, R308: a release ends its fence: a tested core becomes a spare, a gather engine and a collective channel return at the next anchor
release, a port retrains, the guest's isolation ends, the CXL side masters again; on a memory channel it does nothing. -/
def Sys2Proof.Says.ReleaseCommandsEndTheirFence : Prop :=
  (∀ (s : State) (x : Placed), FenceDue x 0 true s.blk →
    let cd := fDie (armWord x.payload 0) - 1
    let c := fUnit (armWord x.payload 0)
    s.blk.rd (SITE_CORE.state cd c) = 2 →
    Does (.releaseCore true) s fun b => b.rd (SITE_CORE.state cd c) = 1
      ∧ RegsKeep [.siteCore cd c, .ctlState, .mtcSchedAct x.entry] s.blk b)
    ∧ (∀ (s : State) (x : Placed), FenceDue x 1 true s.blk →
      let ge := 4 * (fDie (armWord x.payload 0) - 1) + fUnit (armWord x.payload 0)
      Does .releaseGather s fun b => b = { leave x s.blk with gath := b.gath, ras := unfenced 1 ge s.blk }
        ∧ b.gathE ge = { s.blk.gathE ge with releaseAtAnchor := true } ∧ ∀ g, g ≠ ge → b.gathE g = s.blk.gathE g)
    ∧ (∀ (s : State) (x : Placed), FenceDue x 2 true s.blk →
      let n := fUnit (armWord x.payload 0)
      s.blk.physOf (n / 5) n = n → (s.blk.port n).present = true → s.blk.pstate n = psDown →
      Does .releasePort s fun b => b.rd (PORT_CTRL.enable n) = 1 ∧ b.pstate n = psTraining ∧ (b.port n).draining = false
        ∧ b.ras = unfenced 2 n s.blk)
    ∧ (∀ (s : State) (x : Placed), FenceDue x 3 true s.blk →
      let c := fUnit (armWord x.payload 0)
      c ∉ s.blk.coll.releaseCh →
      Does .releaseCollChannel s fun b => b = { leave x s.blk with ras := unfenced 3 c s.blk, coll := b.coll }
        ∧ b.coll = { s.blk.coll with releaseCh := s.blk.coll.releaseCh ++ [c] })
    ∧ (∀ (s : State) (x : Placed), FenceDue x 4 true s.blk →
      Does .releaseGuest s fun b => b.on GFW_STATUS.isolated = false ∧ b.ras = unfenced 4 0 s.blk
        ∧ RegsKeep [.gfwStatus, .mtcSchedAct x.entry] s.blk b ∧ b.sec = s.blk.sec)
    ∧ (∀ (s : State) (x : Placed), FenceDue x 5 true s.blk → s.blk.rd CXL_PULL_IDX.head = s.blk.rd CXL_PULL_IDX.tail →
      Does .releaseCxl s fun b => b = { leave x s.blk with ras := unfenced 5 0 s.blk, host := { s.blk.host with fenced := false } })
    ∧ ∀ (s : State) (x : Placed), FenceDue x 6 true s.blk → Does .releaseMemChannel s fun b => b = leave x s.blk

/-- R260, R284, R304: a drain ends when its function is quiet, and its fence then acts; past its time-out what is left ends aborted with
EV_DRAIN_TIMEOUT; an expel enters FENCED with every function draining. The model's readings and choices here: log entry 81. -/
def Obligations.DrainsEndAndExpelsFence : Prop :=
  (∀ (u : BitVec 9) (s : State), s.blk.ras.drains = [⟨4, u.toNat, s.blk.now, 0⟩] → s.blk.dstate ≠ stFenced →
    s.blk.on GFW_STATUS.isolated = false → s.blk.sec.waiting = [] → s.blk.guestHeld = [] →
    Does (.drainComplete 4 u) s fun b => b.ras.drains = [] ∧ b.on GFW_STATUS.isolated = true ∧ (∃ d, Logged 0 17 0x0A03 d s.blk b)
      ∧ RegsKeep [.gfwStatus] s.blk b)
    ∧ (∀ (u : BitVec 9) (s : State) (why : Nat), s.blk.ras.drains = [⟨1, u.toNat, s.blk.now, why⟩] → why ≠ 1 →
      s.blk.dstate ≠ stFenced → (s.blk.gathE u.toNat).streams = [] →
      Does (.drainComplete 1 u) s fun b => b.ras = drained 1 u.toNat s.blk
        ∧ b.gathE u.toNat = { s.blk.gathE u.toNat with draining := false })
    ∧ (∀ (u : BitVec 9) (s : State) (t : Nat), s.blk.ras.drains = [⟨5, u.toNat, t, 0⟩] → s.blk.dstate ≠ stFenced →
      s.blk.host.pullBusy = none → s.blk.run.pulling = none → t + 1000 * s.blk.rd RAS_DRAIN_TMO1.cxl_us ≤ s.blk.now →
      Does (.drainTimeout 5 u) s fun b => b.ras.drains = [] ∧ b.host.fenced = true ∧ b.on CXL_STATUS.link_up = false
        ∧ Logged 0 15 0x080A 5 s.blk b)
    ∧ ∀ (s : State) (x : Placed), OneDue x s.blk → x.ctype = 3 →
      (s.blk.dstate = stReady ∨ s.blk.dstate = stArmed ∨ s.blk.dstate = stRun ∨ s.blk.dstate = stDrain) →
      Does .expel s fun b => Entered stFenced s.blk b ∧ b.rst.expelled = true
        ∧ (∀ p, p < 10 → s.blk.pLive p = true → (b.port p).draining = true)
        ∧ ((4, 0) ∈ b.ras.drains.map fun d => (d.kind, d.unit)) ∧ ((5, 0) ∈ b.ras.drains.map fun d => (d.kind, d.unit))
        ∧ ∀ k, k < 384 → b.seqState k = 0

/-! ### New plans and firmware; debug, attestation and the guest -/
namespace Sys2Proof.Says

/-- Memory of the staging buffer `m'` after bytes `l` at offset `off`. -/
def Filled (m m' : Sp Byte) (off : Nat) (l : List Byte) : Prop :=
  ∀ i, Sp.get 0 m' i = if off ≤ i ∧ i < off + l.length then l.getD (i - off) 0 else Sp.get 0 m i

/-- The staging buffer of a region. -/
def bufOf (plan : Bool) (m : MgmtSt) : Sp Byte := if plan then m.planBuf else m.fwBuf

/-- Maintenance mode is over: nothing stays armed (R293). -/
def MaintenanceOver (b b' : Blk) : Prop :=
  b'.ras = { b.ras with maintUntil := none, injects := [] } ∧ ∀ d, d < 13 → b'.rd (RAS_INJ_CTRL.armed d) = 0

/-- The unlock that a valid debug certificate gives (R328): its level until its expiry, logged, and a new nonce. -/
def Unlocks (c : DebugCert) (b b' : Blk) : Prop :=
  b'.rd SEC_DBG.level = bits c.w1.toNat 128 2 ∧ b'.sec.dbgExpiry = bits c.w1.toNat 64 64 ∧ b'.rd SEC_DBG_NONCE.nonce = c.newNonce.toNat
    ∧ (∃ e, b'.sec.log.getLast? = some e ∧ e.kind = 7 ∧ e.seq = b.sec.logNext ∧ e.mtc = b.now) ∧ b'.sec.logNext = b.sec.logNext + 1

/-- The certificate that a quorum command of type 8 carries. -/
def quorumCert (x : Placed) (n : BitVec 64) : DebugCert :=
  let w (i : Nat) : Word := BitVec.ofNat 256 (armWord x.payload i)
  ⟨w 0, w 1, w 2, (w 1).getLsbD 130, n⟩

/-- A transaction that the firewall judges: the guest's link is trained, nothing isolates or drains it, the module is not in
Calm, nothing waits. -/
def Judged (t : GuestTxn) (b : Blk) : Prop :=
  b.part.guest = true ∧ b.on GFW_STATUS.link_up = true ∧ guestShape t = true ∧ NoInj b ∧ b.on GFW_STATUS.isolated = false
    ∧ (∀ d ∈ b.ras.drains, d.kind ≠ 4) ∧ b.sec.waiting = [] ∧ b.rd PWR_MODE.mode ≠ 2

end Sys2Proof.Says

/-- R264, R271, R293, R323: a re-plan in READY or FENCED is written with its anchor, its fields are loaded and discovery starts again; a firmware
image that verifies is written; an injection unlock opens maintenance mode until its expiry and 0 ends it, as its expiry does; a
register write of a quorum reaches its register, and its reply follows. The model's readings and choices here: log entries 74, 83, 84, 85, 122. -/
def Obligations.QuorumCommandsInstallAndUnlock : Prop :=
  (∀ (s : State) (x : Placed), OneDue x s.blk → x.ctype = 4 → (s.blk.dstate = stReady ∨ s.blk.dstate = stFenced) →
    (∀ p, p < 10 → s.blk.settled p = none) →
    let b1 := (leave x s.blk).writePlan x.payload
    let b2 := b1.setAnchor b1.tableDigest
    b1.planShape = true → b2.planShape = true → b2.ownEntries.length = 1 →
    Does .replan s fun b => b.dstate = stDiscover ∧ b.rst.expelled = false ∧ b.run.job = none ∧ b.flash = b2.flash
      ∧ b.rd CTL_BOOT.plan_serial = bits (b2.planWord 0) 48 32 ∧ b.rd COLL_AXIS_ROLE.roles = bits (b2.planWord 0) 112 12)
    ∧ (∀ (ok : Bool) (s : State) (x : Placed), OneDue x s.blk → x.ctype = 5 → fwLength x.payload = x.payload.length →
      ((leave x s.blk).writeFw x.payload).fwHdrOk = true →
      Does (.firmwareInstall true ok) s fun b => b = (leave x s.blk).writeFw x.payload)
    ∧ (∀ (s : State) (x : Placed), OneDue x s.blk → x.ctype = 6 →
      let e := bits (armWord x.payload 0) 0 64
      (e ≠ 0 → Does .injectionUnlock s fun b =>
        b.ras = { s.blk.ras with maintUntil := some (min e (x.verified + 86400000000000)) } ∧ RegsKeep [.mtcSchedAct x.entry] s.blk b)
      ∧ (e = 0 → Does .injectionUnlock s fun b => MaintenanceOver s.blk b))
    ∧ (∀ (s : State) (t : Nat), s.blk.ras.maintUntil = some t → t ≤ s.blk.now →
      Does .maintenanceExpiry s fun b => MaintenanceOver s.blk b)
    ∧ ∀ (s : State) (x : Placed) (v : Nat), OneDue x s.blk → x.ctype = 7 → stStandby < s.blk.dstate → v < 2 ^ 64 →
      s.blk.on SEC_STATUS.key_ok = true → Direct x.auth x.reqId s.blk →
      regPairs x.payload = [(Reg.addr .mtcEpoch, v)] →
      Does .rwqWrite s fun b => b.reg .mtcEpoch = v ∧ b.out = s.blk.out ++ [.message x.auth 0x30 x.reqId 0 [0]]
        ∧ RegsKeep [.mtcEpoch, .mtcSchedAct x.entry] s.blk b ∧ b.mem = s.blk.mem

/-- R264, R342: bytes loaded into a staging buffer, a commit that marks it ready or in RECOVERY starts the write, and the cold start that
follows a replacement that verifies. The model's readings and choices here: log entry 92. -/
def Obligations.RegionsAreLoadedAndReplaced : Prop :=
  (∀ (r : MgmtReq) (plan : Bool) (off : BitVec 32) (l : List Byte) (s : State), Accepted r s.blk → stStandby < s.blk.dstate →
    s.blk.mgmt.writing = none → off.toNat + l.length ≤ (if plan then 0x700000 else 0x1800000) →
    Does (.loadChunk r plan off l) s fun b => Filled (bufOf plan s.blk.mgmt) (bufOf plan b.mgmt) off.toNat l
      ∧ bufOf (!plan) b.mgmt = bufOf (!plan) s.blk.mgmt ∧ Replies r 0 [] s.blk b ∧ Numbered r s.blk b)
    ∧ (∀ (r : MgmtReq) (plan : Bool) (n : BitVec 32) (s : State), Accepted r s.blk → stStandby < s.blk.dstate →
      s.blk.mgmt.writing = none → n.toNat ≤ (if plan then 0x700000 else 0x1800000) →
      Does (.loadCommit r plan n) s fun b => (if plan then b.mgmt.planReady else b.mgmt.fwReady) = some n.toNat
        ∧ Replies r 0 [] s.blk b ∧ Numbered r s.blk b)
    ∧ (∀ (r : MgmtReq) (plan : Bool) (n : BitVec 32) (s : State), s.blk.dstate = stRecovery →
      s.blk.mgmt.writing = none → n.toNat ≤ (if plan then 0x700000 else 0x1800000) →
      Does (.loadCommit r plan n) s fun b => b.mgmt.writing = some (plan, n.toNat))
    ∧ (∀ (x : BootInput) (s : State) (n : Nat), s.blk.dstate = stRecovery → s.blk.mgmt.writing = some (true, n) →
      let b1 := s.blk.writePlan (bufBytes s.blk.mgmt.planBuf n)
      (({ b1 with mgmt := { b1.mgmt with writing := none } }).identity x).planCheck x.planSigs = none →
      Does (.recoveryWriteComplete x) s fun b => b.dstate = stBoot ∧ b.rst.warmPath = false ∧ b.mem = [] ∧ b.flash = b1.flash)
    ∧ ∀ (x : BootInput) (s : State) (n k : Nat), s.blk.dstate = stRecovery → s.blk.mgmt.writing = some (false, n) →
      let b1 := s.blk.writeFw (bufBytes s.blk.mgmt.fwBuf n)
      b1.fwKey x.fwSig0 x.fwSig1 = some k →
      Does (.recoveryWriteComplete x) s fun b => b.dstate = stBoot ∧ b.rst.warmPath = false ∧ b.mem = [] ∧ b.flash = b1.flash

/-- R317, R328, R329: a debug certificate, its own or a quorum's, unlocks a level until its expiry, and any submission replaces the nonce; the
expiry locks; a TAP instruction selects a data register; attestation answers with the evidence and its signature. The model's readings and
choices here: log entries 74, 85, 135. -/
def Obligations.DebugUnlocksAndAttestation : Prop :=
  (∀ (c : DebugCert) (s : State), s.blk.dstate ≠ stOff →
    (s.blk.debugOk c = true → Does (.debugCertSubmit c) s fun b => Unlocks c s.blk b)
    ∧ (s.blk.debugOk c = false → Does (.debugCertSubmit c) s fun b =>
        b.rd SEC_DBG_NONCE.nonce = c.newNonce.toNat ∧ b = { s.blk with regs := b.regs } ∧ RegsKeep [.secDbgNonce] s.blk b))
    ∧ (∀ (n : BitVec 64) (s : State) (x : Placed), OneDue x s.blk → x.ctype = 8 →
      (leave x s.blk).debugOk (quorumCert x n) = true →
      Does (.debugUnlockQuorum n) s fun b => Unlocks (quorumCert x n) s.blk b)
    ∧ (∀ s : State, s.blk.rd SEC_DBG.level ≠ 0 → s.blk.sec.dbgExpiry ≤ s.blk.now →
      Does .debugUnlockExpiry s fun b => b.rd SEC_DBG.level = 0 ∧ b.sec = { s.blk.sec with dbgExpiry := 0 } ∧ RegsKeep [.secDbg] s.blk b)
    ∧ (∀ (ir : BitVec 8) (s : State), s.blk.dstate ≠ stOff →
      Does (.debugTapInstruction ir) s fun b => b.regs = s.blk.regs
        ∧ ((Config.tapDecode ir.toNat).val = 1 → b.out = s.blk.out ++ [.tap Config.tapIdcode.toNat] ∧ b.sec.tapIr = 1)
        ∧ (4 ≤ (Config.tapDecode ir.toNat).val → s.blk.rd SEC_DBG.level < 2 → b.out = s.blk.out ++ [.tap 0] ∧ b.sec.tapIr = 0))
    ∧ ∀ (r : MgmtReq) (nonce : BitVec 256) (s : State), Accepted r s.blk →
      let e := s.blk.evidence nonce.toNat
      Does (.attest r nonce) s fun b => Replies r 0 (e ++ (s.blk.signature e).1) s.blk b ∧ Numbered r s.blk b ∧ b.sec = s.blk.sec

/-- R325 to R327, R365: a transaction that a rule admits proceeds once the rule's tokens allow it, and waits until then; one that no rule
admits completes aborted, counted as a denial; in Calm the interface is held in reset, and no denial is counted. The model's readings and choices here: log entry 86. -/
def Obligations.GuestTransactionsAreJudged : Prop :=
  (∀ (t : GuestTxn) (s : State) (n : Nat), Judged t s.blk → s.blk.guestRule t = some n → t.toAperture = true → t.write = true →
    (s.blk.hasTokens n t.words = true → Does (.guestTransaction t) s fun b => b.out = s.blk.out ++ [.guest true true t.data]
      ∧ b.sec.waiting = [] ∧ b.regs = s.blk.regs ∧ b.mem = s.blk.mem)
    ∧ (s.blk.hasTokens n t.words = false → Does (.guestTransaction t) s fun b =>
      b = { s.blk with sec := { s.blk.sec with waiting := [⟨t, n⟩] } }))
    ∧ (∀ (t : GuestTxn) (s : State), Judged t s.blk → s.blk.guestRule t = none → s.blk.sec.denials = [] →
      2 ≤ s.blk.rd GFW_CFG.deny_limit →
      Does (.guestTransaction t) s fun b =>
        b.out = s.blk.out ++ [.guest t.toAperture false (if t.write then [] else List.replicate t.words ⟨0, true⟩)]
          ∧ b.rd GFW_STATUS.denials = min (s.blk.rd GFW_STATUS.denials + 1) (2 ^ GFW_STATUS.denials.w - 1)
          ∧ b.sec.denials = [s.blk.now] ∧ RegsKeep [.gfwStatus] s.blk b ∧ b.mem = s.blk.mem)
    ∧ (∀ (t : GuestTxn) (s : State), s.blk.part.guest = true → s.blk.on GFW_STATUS.link_up = true → guestShape t = true →
      s.blk.rd PWR_MODE.mode = 2 →
      Does (.guestTransaction t) s fun b => b = { s.blk with out := b.out }
        ∧ (t.toAperture = false → b.out = s.blk.out)
        ∧ (t.toAperture = true → b.out = s.blk.out ++ [.guest true false (if t.write then [] else List.replicate t.words ⟨0, true⟩)]))
    ∧ ∀ (t : GuestTxn) (s : State) (n : Nat), Sp.get [] s.blk.memReqs stageHold = [] → s.blk.sec.waiting = [⟨t, n⟩] → s.blk.hasTokens n t.words = true → t.toAperture = true →
      t.write = true →
      Does .guestAdmit s fun b => b.out = s.blk.out ++ [.guest true true t.data] ∧ b.sec.waiting = [] ∧ b.regs = s.blk.regs

/-! ### Self-tests, failures and events -/
namespace Sys2Proof.Says

/-- The row of the self-test queue that `die` keeps starts with `u`, and no test of it runs. -/
def Queued (die : Fin 20) (u : StUnit) (rest : List StUnit) (b : Blk) : Prop :=
  stStandby < b.dstate ∧ Sp.get none b.ras.running (stQueue die.val) = none ∧ (stQueue die.val = 0 ∨ b.cdOff = false)
    ∧ Sp.get [] b.ras.queues (stQueue die.val) = u :: rest

end Sys2Proof.Says

/-- R297 to R299: the first queued unit that can be tested is tested; the result leaves the queue, is shown and recorded: a pass as a
transient, a failure as EV_SELFTEST_FAIL. -/
def Sys2Proof.Says.SelfTestsRunAndReport : Prop :=
  (∀ (die : Fin 20) (s : State) (u : StUnit) (rest : List StUnit), Queued die u rest s.blk → s.blk.testable u = true →
    s.blk.testFits u = true →
    Does (.unitTestStart die) s fun b => Sp.get none b.ras.running (stQueue die.val) = some ⟨u, s.blk.now⟩
      ∧ b.ras.queues = s.blk.ras.queues
      ∧ (u.kind ≠ 1 → b.regs = s.blk.regs)
      ∧ (u.kind = 1 → let c := s.blk.rd (SITE_MAP.phys (u.die - 1) u.unit)
          b.rd (SITE_CORE.state (u.die - 1) c) = 3 ∧ RegsKeep [.siteCore (u.die - 1) c] s.blk b))
    ∧ ∀ (die : Fin 20) (pass : Bool) (s : State) (u : StUnit) (t : Nat), u.kind = 4 → 36 ≤ u.unit → u.unit < 2 ^ 11 → u.die < 32 →
      Sp.get none s.blk.ras.running (stQueue die.val) = some ⟨u, t⟩ → t ≤ s.blk.now →
      s.blk.transientCount u + 1 < s.blk.rd RAS_CFG.transient_limit →
      Does (.unitTestComplete die pass) s fun b =>
        let n := s.blk.transientCount u + if pass then 1 else 0
        Sp.get none b.ras.running (stQueue die.val) = none
          ∧ (∀ v ∈ Sp.get [] b.ras.queues (stQueue die.val), ¬(v.die = u.die ∧ v.unit = u.unit ∧ v.kind = u.kind ∧ v.arg = u.arg))
          ∧ b.ras.transients = s.blk.ras.transients ++ (if pass then [⟨u.die, u.unit, u.kind, u.arg, s.blk.now⟩] else [])
          ∧ b.rd (RAS_ST_LAST.kind (stQueue die.val)) = u.kind
          ∧ b.rd (RAS_ST_LAST.pass (stQueue die.val)) = (if pass then 1 else 0)
          ∧ Logged u.die u.unit (if pass then 0x0804 else 0x0805) (u.kind + u.arg % 2 ^ 48 * 2 ^ 8 + min n (2 ^ 8 - 1) * 2 ^ 56) s.blk b
          ∧ RegsKeep [.rasStLast (stQueue die.val)] s.blk b

/-- R300 to R302, R350: the end of a fence's copy hands the site to the spare; a control core whose watchdog expires gives its tasks to the
die's spare; a rail's first lost phase uses its spare, and a further one lowers the cap. The model's readings and choices
here: log entries 80, 103. -/
def Obligations.SparesReplaceWhatFails : Prop :=
  (∀ (cd : Fin 12) (s : State) (f : Fence), s.blk.ras.fences = [f] → f.cd = cd.val → f.stage = 1 → f.copyEnd ≤ s.blk.now →
    f.site < 32 → f.spare < 36 → s.blk.err = [] → s.blk.dstate ≠ stRun →
    let old := s.blk.rd (SITE_MAP.phys cd.val f.site)
    old ≠ f.spare → old < 36 →
    Does (.fenceCopyComplete cd) s fun b => b.rd (SITE_MAP.phys cd.val f.site) = f.spare
      ∧ b.rd (SITE_CORE.state cd.val f.spare) = 0 ∧ b.rd (SITE_CORE.site cd.val f.spare) = f.site
      ∧ b.rd (SITE_CORE.state cd.val old) = 2 ∧ b.rd (SITE_FENCE.result cd.val) = 1 ∧ b.rd (SITE_FENCE.active cd.val) = 0
      ∧ b.ras.fences = [] ∧ b.seqState (cd.val * 32 + f.site) = 0 ∧ (b.core (cd.val * 32 + f.site)).draining = false
      ∧ Logged (cd.val + 1) f.site 0x0806 (f.site + old * 2 ^ 6 + f.spare * 2 ^ 12 + (if f.ordered then 2 ^ 18 else 0)) s.blk b
      ∧ b.mem = s.blk.mem)
    ∧ (∀ (die : Fin 13) (core : Fin 9) (s : State), stStandby < s.blk.dstate → NoInj s.blk → s.blk.ras.ctlLost = [] →
      (die.val = 0 ∨ s.blk.cdOff = false) → core.val < (if die.val = 0 then 8 else 3) → Sp.get [] s.blk.ras.queues die.val = [] →
      let unit := if die.val = 0 then 5 + core.val else 42 + core.val
      let spare := if die.val = 0 then 8 else 3
      Does (.ctlCoreWatchdog die core) s fun b => b.ras.ctlLost = [(die.val, core.val)]
        ∧ Logged die.val unit 0x080D (core.val + spare * 16) s.blk b ∧ Logged die.val unit 0x0809 (7 + unit * 2 ^ 8) s.blk b
        ∧ Sp.get [] b.ras.queues die.val = [⟨die.val, unit, 6, core.val, 1⟩] ∧ b.rd CTL_STATE.other_spares = 1
        ∧ b.on CTL_STATE.degraded = true ∧ RegsKeep [.ctlState] s.blk b)
    ∧ ∀ (rail : Fin 40) (share : BitVec 16) (s : State), s.blk.dstate ≠ stOff → NoInj s.blk →
      let n := Sp.get 0 s.blk.power.phasesLost rail.val
      (n = 0 → Does (.regulatorPhaseFail rail share) s fun b => Sp.get 0 b.power.phasesLost rail.val = 1
        ∧ b.rd CTL_STATE.other_spares = 1 ∧ (∃ d, Logged 0 18 0x0902 d s.blk b) ∧ Logged 0 18 0x0809 (8 + 18 * 2 ^ 8) s.blk b
        ∧ RegsKeep [.ctlState] s.blk b)
      ∧ (n ≠ 0 → Does (.regulatorPhaseFail rail share) s fun b => Sp.get 0 b.power.phasesLost rail.val = n + 1
        ∧ b.rd PWR_LIMIT.phase_cap_w = s.blk.rd PWR_LIMIT.phase_cap_w - share.toNat ∧ RegsKeep [.pwrLimit] s.blk b)

/-- R18, R295, R296, R307: a record enters the ring 2 µs after its time, in order, at the write index; a coalescing millisecond ends with a
follow-up record of what it folded; the status goes to the fault managers every second. The model's readings and choices
here: log entry 19. -/
def Obligations.EventsEnterTheRingAndAreReported : Prop :=
  (∀ (s : State) (x : EvRec), s.blk.nextHeld = some x →
    (∀ y ∈ s.blk.ev.held, x.time < y.time ∨ x.time = y.time ∧ (x.die < y.die ∨ x.die = y.die ∧ x.unit ≤ y.unit))
      ∧ ∀ l m, s.blk.ev.held = l ++ m → x ∉ l → ∀ y ∈ l, ¬(y.time = x.time ∧ y.die = x.die ∧ y.unit = x.unit))
    ∧ (∀ (s : State) (x : EvRec), s.blk.nextHeld = some x → x.time + 2000 ≤ s.blk.now →
    Does .eventRecordCommit s fun b =>
      Sp.get 0 b.ev.ring (s.blk.rd CTL_EV_WR.index % 4096) = x.pack ∧ b.ev.held = s.blk.ev.held.erase x
        ∧ (∀ i, i ≠ s.blk.rd CTL_EV_WR.index % 4096 → Sp.get 0 b.ev.ring i = Sp.get 0 s.blk.ev.ring i)
        ∧ b.rd CTL_EV_WR.index = (s.blk.rd CTL_EV_WR.index + 1) % 2 ^ CTL_EV_WR.index.w
        ∧ (x.severity < 3 → b.ev.kept = s.blk.ev.kept)
        ∧ (3 ≤ x.severity → s.blk.ev.kept.length < 32 → b.ev.kept = s.blk.ev.kept ++ [x.pack])
        ∧ RegsKeep [.ctlEvWr] s.blk b)
    ∧ (∀ (s : State) (c : Coal), s.blk.ev.coal = [c] → c.opened + 1000000 ≤ s.blk.now →
      Does .eventCoalesceFlush s fun b => b = { s.blk with ev := { s.blk.ev with
        coal := [], held := s.blk.ev.held ++ if c.count = 0 then [] else [c.followUp] } })
    ∧ ∀ (s : State) (a : Nat), s.blk.dstate ≠ stOff → s.blk.ras.lastStatus + 1000000000 ≤ s.blk.now → s.blk.faultMgrs = [a] →
      s.blk.on SEC_STATUS.key_ok = true →
      Does .statusMessage s fun b => b.ras = { s.blk.ras with lastStatus := s.blk.now }
        ∧ b.out = s.blk.out ++ [.message a 0x21 0 0 (leBytes 8 (s.blk.reg .ctlState) ++ leBytes 8 (s.blk.reg .ctlEvWr)
          ++ leBytes 8 s.blk.now ++ leBytes 4 (s.blk.rd CTL_BOOT.plan_serial))] ∧ b.regs = s.blk.regs

/-! ### Management -/
namespace Sys2Proof.Says

/-- A segment of R338 that the port takes in for this module. -/
def ForUs (g : Segment) (b : Blk) : Prop :=
  b.dstate ≠ stOff ∧ g.magic = 0x54584D47 ∧ g.version = 1 ∧ g.seg.toNat < g.segs.toNat ∧ g.length.toNat ≤ 262144 ∧ g.body.length ≤ 1408
    ∧ (g.relay = false ∨ g.target.toNat = b.coord 0)

/-- No message of the sender and request of `g` is in reassembly, and there is room for one. -/
def FirstOf (g : Segment) (b : Blk) : Prop :=
  (∀ m ∈ b.mgmt.reasm, ¬(m.sender = g.sender ∧ m.requestId = g.requestId)) ∧ b.mgmt.reasm.length < 8

/-- A segment that keeps R338's bounds. -/
def Travels (g : Segment) : Prop :=
  g.magic = 0x54584D47 ∧ g.version = 1 ∧ g.seg.toNat < g.segs.toNat ∧ g.length.toNat ≤ 262144 ∧ g.body.length ≤ 1408

/-- The first segment `g` of a longer message is kept for reassembly. -/
def Kept (g : Segment) (b b' : Blk) : Prop :=
  b'.mgmt.reasm = b.mgmt.reasm ++ [⟨g.sender, g.requestId, g.mtype.toNat, g.length.toNat, g.segs.toNat, b.now,
    Sp.set [] [] g.seg.toNat g.body⟩]

end Sys2Proof.Says

/-- R338, R340: a segment of a longer message is kept, from the port or out of a relayed packet, and a message for another module goes on
in MGMT packets; the reply of a request that came relayed goes back to its module, and one that comes back goes on to the requester; a
segment that is malformed, and a message not complete in 100 ms, are dropped and counted. R337: the module's address answers ICMPv6. -/
def Sys2Proof.Says.SegmentsAreReassembled : Prop :=
  (∀ (g : Segment) (s : State), ForUs g s.blk → FirstOf g s.blk → 1 < g.segs.toNat → g.body.length < g.length.toNat → g.body ≠ [] →
    Does (.mgmtSegment g) s fun b => Kept g s.blk b ∧ b.rd MGMT_STATUS.link_up = 1 ∧ RegsKeep [.mgmtStatus] s.blk b ∧ b.out = s.blk.out)
    ∧ (∀ (g : Segment) (s : State), s.blk.dstate ≠ stOff → g.magic ≠ 0x54584D47 ∨ g.version ≠ 1 ∨ 262144 < g.length.toNat →
      Does (.mgmtSegment g) s fun b => b.mgmt = s.blk.mgmt ∧ b.out = s.blk.out
        ∧ b.rd MGMT_COUNT.dropped = min (s.blk.rd MGMT_COUNT.dropped + 1) (2 ^ MGMT_COUNT.dropped.w - 1)
        ∧ RegsKeep [.mgmtStatus, .mgmtCount] s.blk b)
    ∧ (∀ (g : Segment) (s : State), Travels g → s.blk.dstate ≠ stOff → g.relay = true → g.target.toNat ≠ s.blk.coord 0 →
      Does (.mgmtSegment g) s fun b => ∃ m, b = ({ s.blk.wr MGMT_STATUS.link_up 1 with mgmt := m }).inject 0
          ⟨BitVec.ofNat 256 (mkHdr 0x12 g.target.toNat (s.blk.coord 0) 3 (byteWords (segBytes g)).length), byteWords (segBytes g)⟩
        ∧ m = { s.blk.mgmt with relays := m.relays } ∧ (g.requestId, g.sender) ∈ m.relays ∧ ∀ e ∈ s.blk.mgmt.relays, e ∈ m.relays)
    ∧ (∀ (pkt : RawPacket) (y : InPkt) (s : State), Waits y pkt s.blk →
      let g := segOfPkt pkt
      (g.mtype ≠ 0x30 ∧ g.mtype ≠ 0x31 →
        ForUs g s.blk → FirstOf g s.blk → 1 < g.segs.toNat → g.body.length < g.length.toNat → g.body ≠ [] →
        Does (.mgmtPacket pkt) s fun b => Kept g s.blk b ∧ ⟨g.auth, g.requestId, hSrc pkt.hdr.toNat⟩ ∈ b.mgmt.relayFrom
          ∧ b.inbox = s.blk.inbox.erase y ∧ b.regs = s.blk.regs)
      ∧ ∀ peer : BitVec 128, g.mtype = 0x30 ∨ g.mtype = 0x31 → s.blk.mgmt.relays = [(g.requestId, peer)] →
        Does (.mgmtPacket pkt) s fun b => b.out = s.blk.out
            ++ [.relayed peer ((pkt.payload.flatMap fun w => leBytes 32 w.data.toNat).take (32 + g.body.length))]
          ∧ b.mgmt = { s.blk.mgmt with relays := if g.seg.toNat + 1 < g.segs.toNat then s.blk.mgmt.relays else [] }
          ∧ b.inbox = s.blk.inbox.erase y ∧ b.regs = s.blk.regs)
    ∧ (∀ (r : MgmtReq) (w : BitVec 32) (coord : Nat) (s : State), stStandby < s.blk.dstate → s.blk.dstate ≠ stRecovery →
      s.blk.auths.contains r.auth.toNat = true → r.sigValid = true → s.blk.rd (MGMT_AUTH_SEQ.last r.auth.toNat) < r.requestId.toNat →
      s.blk.on SEC_STATUS.key_ok = true → s.blk.mgmt.relayFrom = [⟨r.auth, r.requestId, coord⟩] →
      Does (.powerLimit r w) s fun b => ∃ c : Blk, b = c.sendBack coord 0x30 r.requestId.toNat 0 [] ∧ c.mgmt.relayFrom = []
        ∧ c.rd PWR_LIMIT.limit_w = min w.toNat (2 ^ 16 - 1) ∧ c.out = s.blk.out)
    ∧ (∀ (sender : BitVec 128) (id : BitVec 64) (s : State) (m : Reasm), s.blk.mgmt.reasm = [m] → m.sender = sender → m.requestId = id →
      m.since + 100000000 ≤ s.blk.now →
      Does (.mgmtReassemblyTimeout sender id) s fun b => b.mgmt.reasm = []
        ∧ b.rd MGMT_COUNT.dropped = min (s.blk.rd MGMT_COUNT.dropped + 1) (2 ^ MGMT_COUNT.dropped.w - 1)
        ∧ RegsKeep [.mgmtCount] s.blk b)
    ∧ ∀ s : State, s.blk.dstate ≠ stOff →
      let own : BitVec 128 := s.blk.mgmtAddr
      (Does (.icmpv6Message (.neighbourSolicit own)) s fun b => b = s.blk.emit (.neighbourAdvert own))
        ∧ (∀ (i n : BitVec 16) (l : List Byte), Does (.icmpv6Message (.echoRequest own i n l)) s fun b => b = s.blk.emit (.echoReply i n l))
        ∧ ∀ (a : BitVec 128) (i n : BitVec 16) (l : List Byte), a ≠ own →
          (Does (.icmpv6Message (.neighbourSolicit a)) s fun b => b = s.blk)
            ∧ Does (.icmpv6Message (.echoRequest a i n l)) s fun b => b = s.blk

/-- R339, R341, R344, R350: an accepted request is numbered, counted and answered: registers read and written, memory read, the time of day
taken in SYNC, with the root role where no root is advertised, the power limit set. The model's readings and choices here: log entry 90. -/
def Obligations.ManagementRequestsAreServed : Prop :=
  (∀ (r : MgmtReq) (a : BitVec 48) (reg : Reg) (s : State), Accepted r s.blk → stStandby < s.blk.dstate →
    regOfAddr a.toNat = some reg → a.toNat % 8 = 0 → isRegAddr a.toNat = true → s.blk.poweredOff a.toNat false = false →
    Does (.readReg r [a]) s fun b =>
      Replies r 0 (leBytes 8 ((s.blk.wr (MGMT_AUTH_SEQ.last r.auth.toNat) r.requestId.toNat).view reg)) s.blk b
        ∧ b.rd MGMT_COUNT.accepted = min (s.blk.rd MGMT_COUNT.accepted + 1) (2 ^ MGMT_COUNT.accepted.w - 1))
    ∧ (∀ (r : MgmtReq) (a : BitVec 48) (v : BitVec 64) (reg : Reg) (s : State), Accepted r s.blk →
      regOfAddr a.toNat = some reg → Plain reg → (∀ f ∈ reg.fields, f.acc = .rw) → a.toNat % 8 = 0 → isRegAddr a.toNat = true →
      s.blk.poweredOff a.toNat true = false →
      Does (.writeReg r [(a, v)]) s fun b => Replies r 0 [0] s.blk b ∧ Numbered r s.blk b
        ∧ (∀ f ∈ reg.fields, bits (b.reg reg) f.lo f.w = bits v.toNat f.lo f.w)
        ∧ RegsKeep [reg, .mgmtAuthSeq r.auth.toNat, .mgmtCount] s.blk b)
    ∧ (∀ (r : MgmtReq) (a : BitVec 48) (n : BitVec 32) (s : State) (key : Nat), Accepted r s.blk → stStandby < s.blk.dstate →
      a.toNat % 32 = 0 → n.toNat % 32 = 0 → 0 < n.toNat → n.toNat ≤ 65536 → s.blk.placeRun a.toNat (n.toNat / 32) = some key →
      key % 32 = 0 → Clean s.blk →
      Does (.readMem r a n) s fun b => Replies r 0 (s.blk.bytes key n.toNat) s.blk b ∧ Numbered r s.blk b ∧ b.mem = s.blk.mem)
    ∧ (∀ (r : MgmtReq) (tai : BitVec 64) (s : State), Accepted r s.blk → s.blk.dstate = stSync → s.blk.on MTC_CTRL.root_enable = true →
      s.blk.rd MTC_EPOCH.tai_s * 1000000000 ≤ tai.toNat →
      let t := tai.toNat - s.blk.rd MTC_EPOCH.tai_s * 1000000000
      (Does (.timeOfDay r tai false) s fun b => b.now = t ∧ b.now16 = t * 2 ^ 16 ∧ b.time.integ = 0 ∧ b.time.stepped = true
        ∧ ((∀ p, p < 10 → 63 ≤ (s.blk.ptime p).nbHops) → b.on MTC_STATUS.is_root = true ∧ b.on MTC_STATUS.locked = true)
        ∧ Replies r 0 [] s.blk b)
      ∧ Does (.timeOfDay r tai true) s fun b => b.time = { s.blk.time with pendingTod := some t } ∧ Replies r 0 [] s.blk b
        ∧ Numbered r s.blk b)
    ∧ ∀ (r : MgmtReq) (w : BitVec 32) (s : State), Accepted r s.blk → stStandby < s.blk.dstate →
      Does (.powerLimit r w) s fun b => b.rd PWR_LIMIT.limit_w = min w.toNat (2 ^ 16 - 1)
        ∧ b.rd PWR_LIMIT.in_force_w = s.blk.rd PWR_LIMIT.in_force_w ∧ b.power.limitPending = true ∧ Replies r 0 [] s.blk b
        ∧ Numbered r s.blk b ∧ RegsKeep [.pwrLimit, .mgmtAuthSeq r.auth.toNat, .mgmtCount] s.blk b

/-- R343: ENTDAA gives the I3C target its address and shows the low 48 bits of the fingerprint; a private read shows the map, which begins
with the part number, the stepping and the state; a private write is ignored. -/
def Sys2Proof.Says.I3cTargetAnswers : Prop :=
  (∀ (a : BitVec 7) (s : State), s.blk.dstate ≠ stOff →
    Does (.i3cEntdaa a) s fun b => b = { s.blk with
      mgmt := { s.blk.mgmt with i3cAddr := some a.toNat }, out := s.blk.out ++ [.i3c (leBytes 6 (s.blk.fpr % 2 ^ 48))] })
    ∧ (∀ (s : State) (a : Nat), s.blk.dstate ≠ stOff → s.blk.mgmt.i3cAddr = some a →
      Does (.i3cPrivateRead 0 6) s fun b => b.out = s.blk.out ++ [.i3c (leBytes 2 (s.blk.rd GLB_PART.subsystem)
        ++ leBytes 1 (s.blk.rd GLB_PART.stepping) ++ leBytes 3 (s.blk.reg .ctlState % 2 ^ 12))]
        ∧ b = { s.blk with out := b.out, freeCtr := b.freeCtr })
    ∧ ∀ (o : Nat) (l : List Byte) (s : State), Does (.i3cPrivateWrite o l) s fun b => b = s.blk

/-! ### The host link -/
namespace Sys2Proof.Says

/-- A mailbox command completes with a code, and vector 6 has a cause. -/
def MailboxDone (code : Nat) (body : List Byte) (b b' : Blk) : Prop :=
  b'.out = b.out ++ [.mailbox code body] ∧ 6 ∈ b'.host.msixPending ∧ b'.regs = b.regs ∧ b'.mem = b.mem

/-- A supported mailbox command completes with success and some body. -/
def Supported (c : Instr) : Prop :=
  ∀ s : State, s.blk.hostUp = true → Does c s fun b => ∃ body, body.length = 32 ∧ MailboxDone 0 body s.blk b

/-- The ring does not stand open: a change of the link starts no descriptor. -/
def RingEmpty (b : Blk) : Prop := b.rd CXL_PULL_IDX.head = b.rd CXL_PULL_IDX.tail

/-- The descriptor ends with a failure (R335): the ring stops there, counted and recorded. -/
def PullFailed (t status user : Nat) (b b' : Blk) : Prop :=
  b'.rd CXL_PULL_IDX.stopped = 1 ∧ b'.rd CXL_PULL_IDX.tail = t ∧ b'.host.pullBusy = none ∧ 2 ∈ b'.host.msixPending
    ∧ b'.rd CXL_STAT.pull_fails = min (b.rd CXL_STAT.pull_fails + 1) (2 ^ CXL_STAT.pull_fails.w - 1)
    ∧ Logged 0 15 0x0B02 (t + status * 2 ^ 10 + user * 2 ^ 18) b b'

/-- The descriptor at the tail stands at place `key`, and its word reads as `x`. -/
def AtTail (key x : Nat) (b : Blk) : Prop :=
  b.place (b.rd CXL_PULL_BASE.addr + 32 * b.rd CXL_PULL_IDX.tail) = some key ∧ key % 32 = 0 ∧ x = (b.rawWord key).1.toNat ∧ Clean b
    ∧ b.run.pulling = none

end Sys2Proof.Says

/-- R330, R333, R334: a host request inside the committed window is held on its channel, one outside it is answered as unsupported; a held one
is served in class-5 windows, clear of refresh, and expires after hold_us; the mailbox and DOE answer. The model's readings and choices here:
log entries 87, 88. -/
def Obligations.HostRequestsAndMailboxAreAnswered : Prop :=
  (∀ (r : HostReq) (s : State) (a : Nat), s.blk.hostUp = true → s.blk.hostHeld.length < 256 → s.blk.cxlClosed = false →
    s.blk.hostDev r.addr.toNat = some a → a / 32 * 32 < s.blk.memEnd →
    let w := a / 32 * 32
    Does (.hostMemRequest r) s fun b => b = { s.blk with memReqs := b.memReqs }
      ∧ Sp.get [] b.memReqs (chanOf w) = Sp.get [] s.blk.memReqs (chanOf w)
        ++ [⟨ownHost, w, 1, r.write, if r.write then [r.data] else [], .host, 0, s.blk.now⟩]
      ∧ ∀ c, c ≠ chanOf w → Sp.get [] b.memReqs c = Sp.get [] s.blk.memReqs c)
    ∧ (∀ (r : HostReq) (s : State), s.blk.hostUp = true → s.blk.hostHeld.length < 256 →
      (s.blk.cxlClosed = true ∨ s.blk.hostDev r.addr.toNat = none) → Does (.hostMemRequest r) s fun b => b = s.blk.emit .hostUr)
    ∧ (∀ (ch : Fin 128) (s : State) (r : MemReq), (Sp.get [] s.blk.memReqs ch.val).find? (fun r => r.serves = .host) = some r →
      s.blk.reqWindow ch.val r = true → s.blk.refreshWait ch.val r.words = false → r.write = false → r.words = 1 → Clean s.blk →
      Does (.hostRequestServe ch) s fun b => Sp.get [] b.memReqs ch.val = (Sp.get [] s.blk.memReqs ch.val).erase r ∧ b.mem = s.blk.mem
        ∧ RegsKeep accessRegs s.blk b
        ∧ b.out = s.blk.out ++ [.host (s.blk.readWord r.addr).poison (s.blk.readWord r.addr).data])
    ∧ (∀ (s : State) (c : Nat) (r : MemReq), s.blk.hostHeld = [(c, r)] → r.serves = .host → r.write = false →
      r.heldAt + max 1 (s.blk.rd CXL_CFG.hold_us) * 1000 ≤ s.blk.now →
      Does .hostHoldExpiry s fun b => b.out = s.blk.out ++ [.host true 0] ∧ b.regs = s.blk.regs
        ∧ Sp.get [] b.memReqs c = (Sp.get [] s.blk.memReqs c).erase r)
    ∧ (∀ (s : State) (c : Nat) (r : MemReq), s.blk.hostHeld = [(c, r)] → r.serves = .host → r.write = true → s.blk.run.job = none →
      r.heldAt + max 1 (s.blk.rd CXL_CFG.hold_us) * 1000 ≤ s.blk.now →
      Does .hostHoldExpiry s fun b => b.rd CXL_STAT.discards = min (s.blk.rd CXL_STAT.discards + 1) (2 ^ CXL_STAT.discards.w - 1)
        ∧ Logged 0 15 0x0B01 (r.addr % 2 ^ 48 + 2 ^ 48) s.blk b ∧ b.mem = s.blk.mem ∧ b.out = s.blk.out)
    ∧ Supported .identifyMemoryDevice ∧ Supported .getSupportedLogs ∧ Supported .getHealthInfo
    ∧ (∀ o l : BitVec 32, Supported (.getLog Config.celUuid o l))
    ∧ (∀ (u : BitVec 128) (o l : BitVec 32) (s : State), s.blk.hostUp = true → u ≠ Config.celUuid →
      Does (.getLog u o l) s (MailboxDone 1 [] s.blk))
    ∧ (∀ (o : BitVec 16) (s : State), s.blk.hostUp = true → Does (.mailboxUnsupported o) s (MailboxDone 1 [] s.blk))
    ∧ ∀ (i : BitVec 16) (s : State), s.blk.hostUp = true →
      Does (.cdatDoeRequest i) s fun b => ∃ body : List Byte, b.out = s.blk.out ++ [.doe i.toNat body]
        ∧ body.length = (if i.toNat < 2 then 32 else 0) ∧ b.regs = s.blk.regs

/-- R330, R332, R333, R335, R336, R385: the link comes up at 32 or 64 GT/s on four or eight lanes, and goes down, with EV_CXL_LINK, PERST_N ends what the host set, a committed decoder is shown; a
descriptor's completion moves the ring on or stops it, as no completion in 50 ms does; a vector with a cause is sent once in its gap. -/
def Sys2Proof.Says.HostLinkRingAndVectors : Prop :=
  (∀ (v : BitVec 2) (w : BitVec 4) (s : State), stStandby < s.blk.dstate → s.blk.on CXL_STATUS.link_up = false →
    s.blk.host.perst = false → s.blk.host.fenced = false → RingEmpty s.blk →
    (¬((v.toNat = 1 ∨ v.toNat = 2) ∧ (w.toNat = 4 ∨ w.toNat = 8)) → Does (.cxlLinkChange true v w) s fun b => b = s.blk)
    ∧ ((v.toNat = 1 ∨ v.toNat = 2) → (w.toNat = 4 ∨ w.toNat = 8) →
    Does (.cxlLinkChange true v w) s fun b => b.host = { s.blk.host with range1 := s.blk.rd CXL_WIN.size * 2 ^ 28 } ∧ b.rd CXL_STATUS.link_up = 1 ∧ b.rd CXL_STATUS.speed = v.toNat
      ∧ b.rd CXL_STATUS.width = w.toNat ∧ Logged 0 15 0x0B04 (1 + v.toNat * 2 + w.toNat * 8) s.blk b ∧ RegsKeep [.cxlStatus] s.blk b))
    ∧ (∀ (v : BitVec 2) (w : BitVec 4) (s : State), stStandby < s.blk.dstate → s.blk.on CXL_STATUS.link_up = true →
      Does (.cxlLinkChange false v w) s fun b => b.rd CXL_STATUS.link_up = 0 ∧ Logged 0 15 0x0B04 0 s.blk b
        ∧ RegsKeep [.cxlStatus] s.blk b)
    ∧ (∀ s : State, s.blk.hostHeld = [] → s.blk.run.pulling = none → s.blk.host.pullBusy = none →
      Does .perstAssert s fun b => b.rd CXL_STATUS.link_up = 0 ∧ b.rd CXL_STATUS.hdm_committed = 0
        ∧ b.host = { s.blk.host with perst := true, hdmBase := 0, msixPending := [] } ∧ RegsKeep [.cxlStatus] s.blk b)
    ∧ (∀ s : State, RingEmpty s.blk →
      Does .perstDeassert s fun b => b = { s.blk with host := { s.blk.host with perst := false } })
    ∧ (∀ (base : BitVec 64) (s : State), s.blk.hostUp = true →
      Does (.hdmDecoderCommit base) s fun b => b.rd CXL_STATUS.hdm_committed = 1 ∧ RegsKeep [.cxlStatus] s.blk b
        ∧ b = { s.blk with regs := b.regs, host := { s.blk.host with hdmBase := base.toNat } })
    ∧ (∀ (s : State) (key x : Nat), AtTail key x s.blk → s.blk.hostUp = true → s.blk.host.pullBusy.isSome = true → s.blk.pullWindow = true → bit x 0 = true →
      let t := s.blk.rd CXL_PULL_IDX.tail
      s.blk.rd CXL_PULL_IDX.head = (t + 1) % 1024 → s.blk.rd CXL_PULL_IDX.stopped = 0 →
      Does (.pullDescriptorComplete 1 []) s fun b => b.rd CXL_PULL_IDX.tail = (t + 1) % 1024 ∧ b.host.pullBusy = none
        ∧ b.rd CXL_PULL_IDX.stopped = 0 ∧ 2 ∈ b.host.msixPending ∧ (b.rawWord key).1.toNat = setBits x 208 8 1
        ∧ BytesKeep key 32 s.blk b)
    ∧ (∀ (s : State) (key x : Nat), AtTail key x s.blk → s.blk.hostUp = true → s.blk.host.pullBusy.isSome = true → s.blk.pullWindow = true → s.blk.dstate ≠ stRun →
      Does (.pullDescriptorComplete 2 []) s fun b => PullFailed (s.blk.rd CXL_PULL_IDX.tail) 2 (bits x 216 16) s.blk b
        ∧ (b.rawWord key).1.toNat = setBits x 208 8 2 ∧ BytesKeep key 32 s.blk b)
    ∧ (∀ (s : State) (key x at0 : Nat), AtTail key x s.blk → s.blk.host.pullBusy = some at0 → at0 + 50000000 ≤ s.blk.now →
      s.blk.dstate ≠ stRun →
      Does .pullCompletionTimeout s fun b => PullFailed (s.blk.rd CXL_PULL_IDX.tail) 4 (bits x 216 16) s.blk b
        ∧ (b.rawWord key).1.toNat = setBits x 208 8 4)
    ∧ ∀ (v : Fin 16) (s : State), s.blk.hostUp = true → v.val ∈ s.blk.host.msixPending →
      (∀ t, Sp.get none s.blk.host.msixSent v.val = some t → t + s.blk.rd CXL_CFG.msix_gap_us * 1000 ≤ s.blk.now) →
      Does (.msixSend v) s fun b => b.out = s.blk.out ++ [.msix v.val] ∧ v.val ∉ b.host.msixPending
        ∧ Sp.get none b.host.msixSent v.val = some s.blk.now ∧ b.regs = s.blk.regs

/-! ### The whole block -/

/-- The command at the front of the queue runs, with the rest of the queue. On an empty queue machine time advances by one nanosecond
and the rate adjustment, and past STANDBY the performance counters count what time alone brings about; with no entry of an image to
write and no packet between router and hub to carry, nothing else happens; in OFF, nothing (the model's choice, log entry 4). -/
def Obligations.StepRunsTheCommandInFront : Prop :=
  (∀ (c : Instr) (rest : List Instr) (s : State), s.pending = c :: rest → step s = exec c { s with pending := rest })
    ∧ ∀ s : State, s.pending = [] → s.blk.locked = false → s.blk.crossing = [] →
      (s.blk.dstate = stOff → step s = .next s)
      ∧ (s.blk.dstate ≠ stOff → ∃ b : Blk, step s = .next { s with blk := b } ∧ b = { s.blk with regs := b.regs, time := { s.blk.time with
          mtc := s.blk.time.mtc + BitVec.ofInt 104 ((2 : Int) ^ 40 + sext 32 (s.blk.rd MTC_RATE.adj)) } }
          ∧ Says.RegsKeep ((List.range 19).flatMap Says.perfRegs) s.blk b ∧ (s.blk.dstate = stStandby → b.regs = s.blk.regs))

/-- R259, R263, R373: after reset the module is in STANDBY, every register reads its reset value, nothing waits, the queue and the event
stores are empty; no byte of memory is listed, and the configuration memory is erased (the last two: log entries 1 and 2). -/
def Obligations.ResetLeavesTheResetValues : Prop :=
  State.reset.pending = [] ∧ State.reset.blk.dstate = stStandby
    ∧ (∀ r : Reg, State.reset.blk.reg r = r.reset State.reset.blk.part % 2 ^ 64)
    ∧ (∀ a, State.reset.blk.byte a = 0) ∧ (∀ a, State.reset.blk.fbyte a = 0xFF)
    ∧ State.reset.blk.ev.held = [] ∧ State.reset.blk.sched.placed = [] ∧ State.reset.blk.run.job = none ∧ State.reset.blk.out = []

/-- The byte stores are in canonical form after reset. -/
def Obligations.StoresAreCanonicalAtReset : Prop :=
  Safety.memWf State.reset.blk = true ∧ Safety.flashWf State.reset.blk = true

/-- Every step keeps the byte stores canonical: bytes at strictly rising places, none that equals what an unlisted place reads as. -/
def Obligations.StepsKeepTheStoresCanonical : Prop :=
  ∀ s s' : State, Safety.memWf s.blk = true → Safety.flashWf s.blk = true → step s = .next s' →
    Safety.memWf s'.blk = true ∧ Safety.flashWf s'.blk = true

/-- R367: an address names at most one register, and that register stands at the address. -/
def Obligations.RegisterAddressesAreExact : Prop :=
  ∀ (a : Nat) (r : Reg), regOfAddr a = some r → r.addr = a

/-- R142, R144: decoding the word of a well-formed core instruction gives the instruction back, with every operand at every value. -/
def Obligations.InstructionWordsRoundTrip : Prop :=
  ∀ i : Instr, (opcodeOf i).isSome = true → WellFormed.instr i = true →
    ∃ w, encodeInsn i = some w ∧ decodeInsn (issueOf i).core w = some i

/-- R142 to R144: words written out from the format tables decode to the instruction they stand for; a reserved opcode and a reserved bit
that is set are refused. -/
def Obligations.InstructionWordsDecodeByTheTables : Prop :=
  ∀ c : CoreId,
    let i : Issue := ⟨c, ⟨0, false⟩⟩
    decodeInsn c 0 = some (.nop i)
      ∧ decodeInsn c (0x04 <<< 120 ||| 2 <<< 32 ||| 3) = some (.loop i 3 2)
      ∧ decodeInsn c (0x03 <<< 120 ||| 4 <<< 111 ||| 2 <<< 32 ||| 0x100) = some (.waitq i 4 2 0x100)
      ∧ decodeInsn c (0x11 <<< 120 ||| 0xA <<< 116 ||| 1 <<< 115 ||| 3 <<< 110 ||| 1 <<< 105 ||| 1 <<< 99 ||| 5)
        = some (.sadd ⟨c, ⟨0xA, true⟩⟩ ⟨3, 1, 0, true, 5⟩)
      ∧ decodeInsn c (0x61 <<< 120 ||| 7 <<< 110) = some (.dma i 7)
      ∧ decodeInsn c (0x09 <<< 120) = none ∧ decodeInsn c 1 = none

/-! ### The word code -/
namespace Sys2Proof.Says

/-- A word of data `d` with the symbol at `pos` altered by `val`: its data, and the difference of its check bits from those of that data. -/
def altered (d : Word) (pos val : Nat) : Word × BitVec 32 :=
  if pos < 4 then (d, BitVec.ofNat 32 (val * 2 ^ (8 * pos)))
  else
    let x := BitVec.ofNat 256 (val * 2 ^ (8 * (pos - 4)))
    (d ^^^ x, checkBits x)

end Sys2Proof.Says

/-- R288 to R290: a word with its check bits is a codeword of the Reed-Solomon code; an altered symbol of a word is corrected, of a
poisoned word leaves it poisoned; a clean word passes, a poisoned and an uncorrectable one are forwarded poisoned with their data; and a
word written without an injection is stored with its own check bits, or with all of them inverted if it is poisoned. -/
def Obligations.WordsAreCorrectedOrStayPoisoned : Prop :=
  (∀ (d : Word) (k : Nat), k < 4 →
    (List.range 32).foldl (fun a i => a ^^^ gfMul (sym d.toNat i) (gfPow (k * (i + 4)))) 0
      = (List.range 4).foldl (fun a j => a ^^^ gfMul (sym (checkBits d).toNat j) (gfPow (k * j))) 0)
    ∧ (∀ (d : Word) (pos val : Nat), pos < 36 → 0 < val → val < 256 →
      let w := Says.altered d pos val
      checked w.1 w.2 = ⟨d, false⟩ ∧ classify (w.2 ^^^ 0xFFFFFFFF) = .uncorrectable)
    ∧ (∀ (d : Word), checked d 0 = ⟨d, false⟩ ∧ checked d 0xFFFFFFFF = ⟨d, true⟩)
    ∧ syndrome 0xFFFFFFFF 0 = 0
    ∧ (∀ (d : Word) (e : BitVec 32), classify e = .uncorrectable → checked d e = ⟨d, true⟩)
    ∧ ∀ (b : Blk) (key : Nat) (w : MWord), b.ras.injects = [] →
      (b.writeWord key w).rawWord key = (w.data, if w.poison then 0xFFFFFFFF else 0)

/-! ### Statements of several families together -/

/-- R140, R142: the scalar instructions, two's complement modulo 2⁶⁴, the second operand Sb or the immediate; shifts by the low six
bits of the shift operand; SMUL keeps the low 64 bits; SMIN and SMAX are signed; SLI writes its immediate. R140, R142: SCMP's six
conditions and PLOG's four functions; Pa and Pb are the low four bits of the source fields. R94, R99, R100, R101: SETVL writes the
smaller of its value and the lane count; VCLRF clears the context flag set; VRED writes a reduction to a scalar register and a vany or
vall summary to a predicate, P0 and S0 discarding it. The model's readings and choices here: log entries 22, 123. -/
def Obligations.ScalarPredicateAndSummaryInstructions : Prop :=
  Says.ScalarInstructionsComputeTheirResult ∧ Says.PredicateInstructionsComputeTheirResult ∧ Says.LengthFlagsAndSummaries

/-- R144, R150, R151, R142, R147: NOP does nothing but issue; WAITC delays the next issue by its cycle count, counted under cause 4;
CSEL selects the slot; VOTE sets the core's vote and cause, or after the freeze leaves SEQ_VOTE alone and is held for the next
attempt; SLOOP reads the index of the named level. R150: WAITQ on a queue whose count is reached delays the next issue until its
deadline; otherwise the core waits in state 4 for the count. -/
def Obligations.ControlAndWaitInstructions : Prop :=
  Says.ControlInstructionsDoAsNamed ∧ Says.WaitqWaitsForDeadlineAndCount

/-- R147, R148: LOOP opens its body, a count of 0 skips it, and the LOOP costs its one cycle; BRB enters arm A if its predicate,
inverted if invert is set, is 1, and otherwise goes on at arm B, with nothing paid for the arm not taken. R147, R148: at the end of
its body a loop with iterations left goes back to the first instruction with the next index, one that has none left goes on behind it;
at the end of arm A control goes to the join; elsewhere control goes on in sequence. -/
def Obligations.LoopsAndBranches : Prop :=
  Says.LoopsAndBranchesMoveControl ∧ Says.BodiesAndArmsCloseWhereTheyEnd

/-- R161: an instruction whose encoding check 0x02 would refuse, and a word that the fetch finds not valid, stop the core. R143: an
instruction whose guard does not hold has its issue cost and unit occupancy, writes no register of the context, memory or flag, and
starts no transfer. -/
def Obligations.InvalidAndGuardedOffInstructions : Prop :=
  Says.InvalidWordsStopTheCore ∧ Says.GuardedOffInstructionsDoNothing

/-- R93, R95, R98, R99, R103: FP32 and FP64 arithmetic, the functions, the conversions of VCVT, moves, broadcasts and generator words
write the result of the operation to each active element and raise its flags; inactive elements keep their values or are zeroed. R98:
VINT wraps modulo 2³², saturates in functions 3 and 4, and computes minimum, maximum, logic and shifts by less than 32 of each active
element; a larger shift completes with a value that nothing is said of (log entry 9). R99, R106 to R109: the soft maximum, the
normalisations and the loss treat the rows that their rules single out as these say, and raise the flags of the result on the core
that runs them: an active NaN makes all of a soft maximum the canonical NaN; an active +∞ shares the row; a row with no active finite
element is +0 with log-sum-exp −∞ and empty_row; a nonfinite element makes a normalised row the canonical NaN; a loss without a row
that counts is +0 with empty_row, and delivers 0 to its scalar register. The model's readings and choices here: log entries 21, 123.
-/
def Obligations.VectorArithmetic : Prop :=
  Says.VectorOperationsActOnActiveElements ∧ Says.VintComputesInt32 ∧ Says.WideRowsTreatTheirCorners

/-- R59, R61, R96: VLD reads each active element of a per-tensor or unscaled array from the place that its address register names and
widens it, a pad as +0; VSTR writes the contents of each active lane there unchanged, 64-bit pairs where its format field names FP64;
no other byte changes. R96, R114, R119: VST passes its active elements through the output conversion of the descriptor it names: each
element's code is the encoding of the piped value, and no byte outside the active elements changes. The model's readings and choices
here: log entries 23, 125. -/
def Obligations.VectorLoadsAndStores : Prop :=
  Says.VectorLoadsAndRawStores ∧ Says.VectorStoreConverts

/-- R72, R81, R85, R143: MOP starts an operation on its engine with the operands and starting sums read at issue; an operation with m
or n of 0 delivers nothing. R81, R82, R86, R89: MATRIX_OP_COMPLETE counts the oldest operation and its products, ORs its flags into
MAT_FLAGS, and leaves resident sums in their set, whose other rows and columns keep what they held, or the words of the spill record
in memory. R114, R115, R119: MATRIX_OP_COMPLETE of an operation bound for the output conversion: each sum's code is the encoding of
the piped value, at its row's and column's place in the tensor, and no byte outside the tile's elements changes; the operation and its
products are counted. The model's readings and choices here: log entries 26, 124, 125. -/
def Obligations.MatrixOperationsRunAndDeliver : Prop :=
  Says.MopStartsAnOperation ∧ Says.MatrixOperationDelivers ∧ Says.MatrixOutputConverts

/-- R168, R169, R176, R178, R184: NXFER moves its words from the issuing core's SRAM to the peer's; DMA and PREF start a transfer of
the words that their descriptor names, which holds a request on each channel of external memory that it touches, but for a read
through the near cache; a write raises its regions' generations and in-flight counts, and a checked prefetch takes its first sample.
No other claim is on the lanes. R150, R169, R176: DMA_COMPLETE ends the core's oldest transfer that has no request left and posts to
queue 4; where it read from staging, its words are in the core's SRAM; REGION_WRITE_COMPLETE takes one write off the region's
in-flight count, while it is above the transfers that have words to come there, and keeps its generation. R355: MBAL issues for one
cycle and occupies the matrix engine for its count of cycles, of which the ballast duty's share counts as work and the rest as
bubbles. The model's readings and choices here: log entries 31, 32, 129. -/
def Obligations.TransfersAndBallast : Prop :=
  Says.TransfersStartFromTheirDescriptor ∧ Says.TransfersCompleteAndPost ∧ Says.BallastOccupiesTheEngine

/-- R28, R29: an arriving set that answers one of the port's own adds its offset to the period; one that answers none, or whose round
trip is out of range, is counted as discarded and adds none. R30, R31, R36: a module with one parent takes that parent's hop count
plus one, steers its integral term and its rate by the parent's offset and starts a new period; the counter itself does not step. -/
def Obligations.TimestampsAndFollowing : Prop :=
  Says.TimestampsGiveOffsets ∧ Says.ChildFollowsItsParent

/-- R34, R36: a root without 1PPS discipline runs at its trim with hop count 0, its rate moving by at most 1 ppm a second; a module
without a contributing port that has had one enters holdover: it keeps its rate, advertises 63 hops and raises EV_TIME_HOLDOVER. R34,
R35: at a disciplined root an edge of a pulse of legal width leaves its capture, less 52 ns, from the nearest second in MTC_PPS_STAT,
in the sense that log entry 119 chooses, and counts; 1.1 s after the last edge the root gives 1PPS up, with EV_PPS_LOSS, and keeps its
rate. R27, R37: a stopped or drifting oscillator gives way to the other one, with EV_MTO_SWITCH and the loss of lock of a module that
is no root; the backup root of rank r takes the role 1 + 5 (r − 1) ms after the last advertised root, locked, with its rate as trim.
The model's readings and choices here: log entries 17, 119, 120. -/
def Obligations.RootTimeAndItsTakeover : Prop :=
  Says.RootTrimAndHoldover ∧ Says.PulsesDisciplineTheRoot ∧ Says.OscillatorAndBackupRootTakeOver

/-- R43, R45, R297: a due entry of action 0x06 opens the self-test window until the earliest later close in the table, one of action
0x07 shuts it; either entry becomes invalid and nothing else changes. R297 to R299: the first queued unit that can be tested is
tested; the result leaves the queue, is shown and recorded: a pass as a transient, a failure as EV_SELFTEST_FAIL. -/
def Obligations.SelfTestsAndTheirWindows : Prop :=
  Says.SelftestWindowsOpenAndClose ∧ Says.SelfTestsRunAndReport

/-- R224 to R226: a switch whose bank differs, released and ready on both routers makes the new bank active, opens the old epoch's
channels of the live ports and asks for release and readiness anew; a mark closes the channels it names; a router whose channels are
closed and that holds no old-epoch packet is released. R346 to R348, R354: in READY a scheduled change between Gale and Breeze stops
the arithmetic clock and is pending; its completion puts the mode, its clocks, its voltages and its power limit in force. A change
into Calm ends the cores and their SRAM and puts the memory channels into self-refresh; the change out of it ends self-refresh. The
model's readings and choices here: log entries 67, 68, 77, 133. -/
def Obligations.EpochAndModeChanges : Prop :=
  Says.EpochsSwitchDrainAndRelease ∧ Says.ModeChangesStartAndComplete

/-- R155, R156, R162: in the windows reserved for it, a fresh context's swap saves the outgoing one's record and leaves the first
state; a swap into a slot that holds none takes the context and the partition from its area; either way the slot is bound and no
longer swapping. A fill puts the next block into the half that does not execute, valid unless its words are poisoned. R156: the record
of a context whose registers are not poisoned holds its header, scalars, masks and vector lanes at their places, and the context comes
back from it as it was. -/
def Obligations.ContextSwapsRecordsAndFills : Prop :=
  Says.SwapsAndFillsServeTheNextRelease ∧ Says.ContextRecordsRoundTrip

/-- R184, R255, R395: at the flip the near caches are cleared and a complete barrier's outcome applies: a commit advances the step,
restarts the attempt and exchanges the slots; a skip or fail counts an attempt; the votes clear and a stop that waits for the flip
takes the module to DRAIN. R249, R250: a vote for the stage in progress is kept, a second one for the same stage and position is
discarded, and when the last stage holds every position's word they combine to the machine's word, whose outcome the journal records.
The model's readings and choices here: log entries 56, 58, 59. -/
def Obligations.VotesAndTheFlip : Prop :=
  Says.FlipAppliesTheOutcome ∧ Says.VotesCombineToTheOutcome

/-- R198, R28, R206, R216: in a word time that a link entry has open, an even link-word position carries CREDIT_ACK with the next word
expected, the nak and the freed counts; an odd one the timestamp set while this 8 µs slot has sent none; an arriving CREDIT_ACK frees
the acknowledged words of the replay buffer and adds its new credits; a NAK has the rest resent in order, and their word times occupy
the port. R204, R205, R207: a failed lane's receiver asks for a spare that no other replacement has, and a lost lock begins an outage;
the transmitter answers with a codeword; the receiver takes it; and at the switch the spare carries the failed lane's symbols at
either end, at the receiver with EV_LANE_SPARED. Without a spare lane the port agrees to halve. The model's readings and choices here:
log entries 65, 66, 133. -/
def Obligations.LinkWordsAndSpareLanes : Prop :=
  Says.LinkWordsAcknowledgeAndResend ∧ Says.SpareLanesReplaceFailedOnes

/-- R201, R202, R205, R349: an agreed PORT_CTRL action waits for its instant: CALM with two lanes, back to full or half width by the
lanes that are active, or DEGRADED on the 17 lowest good lanes; leaving CALM takes the later instant of both ends. R206 to R209: an
uncorrectable word asks for a resend and opens an outage; one that ends within the limit is recorded and loses nothing; beyond the
limit the port discards, records EV_LINK_DOWN and trains again. The model's readings and choices here: log entries 66, 133. -/
def Obligations.PortActionsAndOutages : Prop :=
  Says.PortActionsWaitForTheirInstant ∧ Says.OutagesEndOrLoseTheLink

/-- R200, R382, R396: enabling a DOWN port with a cable, retraining a FAILED one and mating a cable start TRAINING; the far end and
the codeword lock are noted, the lock with its lanes: the 34 lowest good ones active, the others spare. R200, R382, R396: a port whose
enable is cleared, or whose cable is pulled, is DOWN and its supply off; an overcurrent and a lock that does not come within 100 ms
fail the port, too few lanes or a wrong cable delay too; a port undecided 20 ms after lock is in QUARANTINE. The model's readings and
choices here: log entries 66, 133. -/
def Obligations.PortsTrainLockAndGoDown : Prop :=
  Says.PortsTrainAndLock ∧ Says.PortsGoDownOrFail

/-- R197, R213, R215, R221, R223: the router delivers a packet whose destination is this module towards the hub, and queues any other
one behind those that wait at the port of the first axis in order that differs, on the class's VC with the dateline bit of the hop;
one for a group of the other link die waits for link remote service; with no way on it is dropped and counted. R216, R206, R211, R219,
R223: the head packet of a group and VC leaves on a port that carries it and holds the credits, in the first word time free for it
whose run of entries of its VC holds it, unless another member of the group starts it first: it is put out and kept for replay, its
words taken from the credits, its input buffer freed, and the port is busy until its last word has left. The model's readings and
choices here: log entries 110, 133. -/
def Obligations.PacketsAreRoutedAndSent : Prop :=
  Says.RouterDeliversForwardsOrDrops ∧ Says.PacketsLeaveAgainstCredits

/-- R273, R276, R318, R319: the third equal HELLO of the planned peer admits the port, full width with 34 good lanes, half with fewer,
and challenges the peer; a challenge is answered with its nonce; a good response authenticates, a bad one takes the port out; an
unanswered challenge is sent again after 5 ms, up to three, and 20 ms without success fail. R260, R273, R277, R279: at the discovery
timeout a planned port that is not settled is disabled; discovery ends when every planned port is ready and none is held, and a module
whose counter has kept counting takes the root role or leaves it; SYNC ends when time is locked to a root, in READY, or in FENCED for
an expelled module. The model's readings and choices here: log entries 69, 70, 120. -/
def Obligations.DiscoveryAdmitsAndEnds : Prop :=
  Says.PeersAreAdmittedAndAuthenticated ∧ Says.DiscoveryAndSyncEnd

/-- R6 to R8, R10, R369: a write of a register without further effect changes each field by its access code and nothing else, and
completes with its status; one that writes a quorum field is turned away with EV_QUORUM_REJECT. R367 to R369: accesses that reach no
register: a wrong size, alignment or address is an access error, a die without power answers Powered off, the debug port below its
level Debug locked; each changes nothing but its completion. The model's readings and choices here: log entries 14, 20. -/
def Obligations.RegisterWrites : Prop :=
  Says.WritesFollowAccessCodes ∧ Says.AccessesOutsideTheMapComplete

/-- R335: a write of the pull ring's head, or of a one to its stop bit, starts the descriptor at the tail: a pull asks the host for
its words, and the block remembers when the descriptor began. R330, R332, R333, R335, R336, R385: the link comes up at 32 or 64 GT/s
on four or eight lanes, and goes down, with EV_CXL_LINK, PERST_N ends what the host set, a committed decoder is shown; a descriptor's
completion moves the ring on or stops it, as no completion in 50 ms does; a vector with a cause is sent once in its gap. The model's
readings and choices here: log entry 89. -/
def Obligations.RingsLinkAndVectors : Prop :=
  Says.PullRingStartsItsDescriptor ∧ Says.HostLinkRingAndVectors

/-- R172, R174, R191 to R193: the first held request whose requester's windows are open is served and leaves the queue, unless it
waits for refresh; one that its owner's last window of the step leaves unserved expires with EV_WINDOW_EXPIRED; a refresh slot counts.
R194, R291: a migration to a spare channel starts at once; when it is over, in an interval in which it may copy, the logical channel
is served by the target and the old channel is out of use, with EV_CHANNEL_MIGRATED; in such an interval a word on the repair list is
rewritten corrected. The model's readings and choices here: log entries 34, 128. -/
def Obligations.MemoryRequestsAndChannels : Prop :=
  Says.MemoryRequestsUseTheirWindows ∧ Says.ChannelsMigrateAndWordsAreRepaired

/-- R184, R185, R375: a lookup of a line held answers at once and counts a hit; a miss waits for its fill; the lookup port of the DMA
reads looks up only in its entries of the network calendar. The oldest miss whose region is not under write is filled from memory, in
the fill requester's windows; a flush outside RUN empties the cache, in RUN it waits for the anchor. R179 to R182: GSTART queues its
stream at its engine; an index in range takes a slot, and its request issues when its windows are open and no refresh is in the way,
or else is held; an invalid index takes none and its element is zeros; a returned element, a cached one once its lines have been
looked up, lands in its core's SRAM; a remote one that does not come in time lands poisoned and makes the core's vote fail. The last
element of a stream ends it and posts to its queue. The model's readings and choices here: log entries 33, 64, 128, 131. -/
def Obligations.NearCacheAndGatherEngines : Prop :=
  Says.NearCacheHitsFillsAndFlushes ∧ Says.GatherEnginesDeliverElements

/-- R234, R236, R241, R244: COLL starts its run, suspended on an unbound channel, and numbers it; a broadcast's elements are written
to the receiver's destination as they arrive, and its signal is noted. R237, R248: a collective whose words have all come writes its
status word, done, posts its completion to queue 5 of its core and frees its channel; one not complete at its deadline fails: aborted
status, EV_COLLECTIVE_FAIL, and the core's vote. The model's readings and choices here: log entries 62, 63, 127. -/
def Obligations.CollectivesRunAndEnd : Prop :=
  Says.CollectivesStartAndReceive ∧ Says.CollectivesCompleteOrFail

/-- R350, R351, R353: k follows measured ÷ predicted power within 0.8 to 1.5; a rail that adapts rises 5 mV at once while its monitor
is below the guard, and falls 5 mV at most once per ms, within its range; a regulator's readings are kept. R260, R281, R286, R350: the
idle calendar shows its slot's class, and its first slot puts a waiting power limit in force; when the drain is complete and the lull
window over, DRAIN ends in READY, with no job and the idle calendar running. The model's readings and choices here: log entries 76,
97, 104. -/
def Obligations.PowerRailsAndTheIdleCalendar : Prop :=
  Says.PowerCalibrationAndRails ∧ Says.IdleCalendarAndTheEndOfDrain

/-- R210, R301, R304, R308: a fence command has its function drain; a core outside RUN gets a spare once quiet, and a memory channel
migrates to a spare channel. R302, R308: a release ends its fence: a tested core becomes a spare, a gather engine and a collective
channel return at the next anchor release, a port retrains, the guest's isolation ends, the CXL side masters again; on a memory
channel it does nothing. The model's readings and choices here: log entries 79, 80, 82. -/
def Obligations.FenceAndReleaseCommands : Prop :=
  Says.FenceCommandsDrainTheirFunction ∧ Says.ReleaseCommandsEndTheirFence

/-- R338, R340: a segment of a longer message is kept, from the port or out of a relayed packet, and a message for another module goes
on in MGMT packets; the reply of a request that came relayed goes back to its module, and one that comes back goes on to the
requester; a segment that is malformed, and a message not complete in 100 ms, are dropped and counted. R337: the module's address
answers ICMPv6. R343: ENTDAA gives the I3C target its address and shows the low 48 bits of the fingerprint; a private read shows the
map, which begins with the part number, the stepping and the state; a private write is ignored. The model's readings and choices here:
log entries 91, 135. -/
def Obligations.SegmentsAndTheI3cTarget : Prop :=
  Says.SegmentsAreReassembled ∧ Says.I3cTargetAnswers
end

