-- ==== Sys2Proof/Laws/Bits.lean ====
section
/-!
SUPPORT. Laws of bit fields: reading a field after writing it, and writing a field next to it.
-/
namespace Sys2Proof.Machine

theorem bits_lt (x lo w : Nat) : bits x lo w < 2 ^ w := Nat.mod_lt _ (Nat.two_pow_pos w)

theorem testBit_bits (x lo w i : Nat) : (bits x lo w).testBit i = (decide (i < w) && x.testBit (lo + i)) := by
  simp [bits, Nat.testBit_mod_two_pow, Nat.testBit_shiftRight]

/-- A number is its low part, a field and what lies above. -/
theorem field_split (x lo w : Nat) : x = x % 2 ^ lo + 2 ^ lo * (bits x lo w + 2 ^ w * (x / 2 ^ (lo + w))) := by
  have h1 := Nat.mod_add_div x (2 ^ lo)
  have h2 := Nat.mod_add_div (x / 2 ^ lo) (2 ^ w)
  rw [Nat.div_div_eq_div_mul, ← Nat.pow_add] at h2
  rw [bits, Nat.shiftRight_eq_div_pow, h2, h1]

theorem setBits_eq (x lo w v : Nat) :
    setBits x lo w v = x % 2 ^ lo + 2 ^ lo * (v % 2 ^ w + 2 ^ w * (x / 2 ^ (lo + w))) := by
  unfold setBits
  have h := field_split x lo w
  generalize bits x lo w = f at *
  generalize x % 2 ^ lo = a at *
  generalize x / 2 ^ (lo + w) = d at *
  subst h
  rw [Nat.mul_add, Nat.mul_add, Nat.mul_comm f, Nat.mul_comm (v % 2 ^ w)]
  omega

theorem testBit_setBits (x lo w v i : Nat) :
    (setBits x lo w v).testBit i =
      if i < lo then x.testBit i else if i < lo + w then v.testBit (i - lo) else x.testBit i := by
  rw [setBits_eq, Nat.add_comm, Nat.testBit_two_pow_mul_add _ (Nat.mod_lt _ (Nat.two_pow_pos lo)), Nat.add_comm,
    Nat.testBit_two_pow_mul_add _ (Nat.mod_lt _ (Nat.two_pow_pos w))]
  split
  · simp [Nat.testBit_mod_two_pow, *]
  · rename_i h
    split
    · simp only [Nat.testBit_mod_two_pow]
      rw [if_pos (by omega)]
      simp [*]
    · rw [if_neg (by omega), Nat.testBit_div_two_pow]
      congr 1; omega

/-- A field reads as the low bits of what was written to it. -/
theorem bits_setBits_same (x lo w v : Nat) : bits (setBits x lo w v) lo w = v % 2 ^ w := by
  apply Nat.eq_of_testBit_eq; intro i
  rw [testBit_bits, testBit_setBits, Nat.testBit_mod_two_pow]
  by_cases h : i < w <;> simp [h]

/-- A field beside the one written keeps its value. -/
theorem bits_setBits_ne (x lo w v lo' w' : Nat) (h : lo' + w' ≤ lo ∨ lo + w ≤ lo') :
    bits (setBits x lo w v) lo' w' = bits x lo' w' := by
  apply Nat.eq_of_testBit_eq; intro i
  rw [testBit_bits, testBit_bits, testBit_setBits]
  by_cases hi : i < w'
  · simp only [hi, decide_true, Bool.true_and]
    split
    · rfl
    · rw [if_neg (by omega)]
  · simp [hi]

theorem setBits_lt (x lo w v n : Nat) (hx : x < 2 ^ n) (hf : lo + w ≤ n) : setBits x lo w v < 2 ^ n := by
  apply Nat.lt_pow_two_of_testBit; intro i hi
  rw [testBit_setBits, if_neg (by omega), if_neg (by omega)]
  exact Nat.testBit_lt_two_pow (Nat.lt_of_lt_of_le hx (Nat.pow_le_pow_right (by omega) hi))

theorem bits_mod (x lo w n : Nat) (h : lo + w ≤ n) : bits (x % 2 ^ n) lo w = bits x lo w := by
  apply Nat.eq_of_testBit_eq; intro i
  rw [testBit_bits, testBit_bits, Nat.testBit_mod_two_pow]
  by_cases hi : i < w
  · simp [hi, show lo + i < n by omega]
  · simp [hi]

theorem bits_zero_of_lt (x w : Nat) (h : x < 2 ^ w) : bits x 0 w = x := by simp [bits, Nat.mod_eq_of_lt h]

@[simp] theorem b2n_true : b2n true = 1 := rfl
@[simp] theorem b2n_false : b2n false = 0 := rfl
theorem b2n_lt (c : Bool) : b2n c < 2 := by cases c <;> decide

theorem satur_lt (w x : Nat) : satur w x < 2 ^ w := by
  have := Nat.two_pow_pos w; unfold satur; omega

end Sys2Proof.Machine
end

