-- ==== Sys2Proof/Laws/Sparse.lean ====
section
/-!
SUPPORT. Laws of sparse maps: a key reads as what was last set at it, other keys are unchanged, and the canonical form is kept.
-/
namespace Sys2Proof.Machine
variable {α : Type}

@[simp] theorem Sp.get_nil (d : α) (k : Nat) : Sp.get d [] k = d := rfl

theorem Sp.get_erase_same (d : α) (m : Sp α) (k : Nat) : Sp.get d (Sp.erase m k) k = d := by
  induction m with
  | nil => rfl
  | cons e m ih =>
    obtain ⟨k', v⟩ := e
    by_cases h : k' = k
    · subst h; simpa [Sp.erase] using ih
    · have : Sp.erase ((k', v) :: m) k = (k', v) :: Sp.erase m k := by simp [Sp.erase, h]
      rw [this, Sp.get, if_neg h, ih]

theorem Sp.get_erase_ne (d : α) (m : Sp α) (k j : Nat) (hj : j ≠ k) : Sp.get d (Sp.erase m k) j = Sp.get d m j := by
  induction m with
  | nil => rfl
  | cons e m ih =>
    obtain ⟨k', v⟩ := e
    by_cases h : k' = k
    · subst h
      have : Sp.erase ((k', v) :: m) k' = Sp.erase m k' := by simp [Sp.erase]
      rw [this, ih, Sp.get, if_neg (Ne.symm hj)]
    · have : Sp.erase ((k', v) :: m) k = (k', v) :: Sp.erase m k := by simp [Sp.erase, h]
      rw [this, Sp.get, Sp.get, ih]

theorem Sp.get_ins (d : α) (m : Sp α) (k : Nat) (v : α) (j : Nat) (hm : k ∉ m.map Prod.fst) :
    Sp.get d (Sp.ins k v m) j = if k = j then v else Sp.get d m j := by
  induction m with
  | nil => rfl
  | cons e m ih =>
    obtain ⟨k', v'⟩ := e
    simp only [List.map_cons, List.mem_cons, not_or] at hm
    unfold Sp.ins
    split
    · rfl
    · rw [Sp.get, ih hm.2, Sp.get]
      by_cases h : k' = j
      · subst h; rw [if_pos rfl, if_neg hm.1, if_pos rfl]
      · rw [if_neg h, if_neg h]

theorem Sp.notMem_erase (m : Sp α) (k : Nat) : k ∉ (Sp.erase m k).map Prod.fst := by
  simp [Sp.erase]

theorem Sp.pairwise_ins (k : Nat) (v : α) (m : Sp α) (hm : k ∉ m.map Prod.fst)
    (h : m.Pairwise (fun x y => x.1 < y.1)) : (Sp.ins k v m).Pairwise (fun x y => x.1 < y.1) := by
  induction m with
  | nil => simp [Sp.ins]
  | cons e m ih =>
    obtain ⟨k', v'⟩ := e
    simp only [List.map_cons, List.mem_cons, not_or] at hm
    rw [List.pairwise_cons] at h
    unfold Sp.ins
    split
    · rename_i hlt
      refine List.pairwise_cons.2 ⟨?_, List.pairwise_cons.2 h⟩
      intro a ha
      rcases List.mem_cons.1 ha with rfl | ha
      · exact hlt
      · exact Nat.lt_trans hlt (h.1 a ha)
    · rename_i hge
      refine List.pairwise_cons.2 ⟨?_, ih hm.2 h.2⟩
      intro a ha
      have : a = (k, v) ∨ a ∈ m := by
        clear ih h hm
        induction m with
        | nil => simpa [Sp.ins] using ha
        | cons e' m' ih' =>
          obtain ⟨k2, v2⟩ := e'
          unfold Sp.ins at ha
          split at ha
          · simpa using ha
          · rcases List.mem_cons.1 ha with rfl | ha
            · exact .inr (by simp)
            · rcases ih' ha with rfl | h'
              · exact .inl rfl
              · exact .inr (List.mem_cons_of_mem _ h')
      rcases this with rfl | h'
      · exact Nat.lt_of_le_of_ne (Nat.not_lt.1 hge) (Ne.symm hm.1)
      · exact h.1 a h'

theorem Sp.mem_ins (k : Nat) (v : α) (m : Sp α) (e : Nat × α) : e ∈ Sp.ins k v m → e = (k, v) ∨ e ∈ m := by
  induction m with
  | nil => intro h; simpa [Sp.ins] using h
  | cons e' m ih =>
    obtain ⟨k', v'⟩ := e'
    intro h
    unfold Sp.ins at h
    split at h
    · simpa using h
    · rcases List.mem_cons.1 h with rfl | h
      · exact .inr (by simp)
      · rcases ih h with rfl | h
        · exact .inl rfl
        · exact .inr (List.mem_cons_of_mem _ h)

variable [DecidableEq α]

/-- A key reads as what was set at it. -/
@[simp] theorem Sp.get_set_same (d : α) (m : Sp α) (k : Nat) (v : α) : Sp.get d (Sp.set d m k v) k = v := by
  unfold Sp.set
  split
  · rename_i h; rw [Sp.get_erase_same, h]
  · rw [Sp.get_ins _ _ _ _ _ (Sp.notMem_erase m k), if_pos rfl]

/-- Other keys are unchanged. -/
theorem Sp.get_set_ne (d : α) (m : Sp α) (k : Nat) (v : α) (j : Nat) (h : j ≠ k) :
    Sp.get d (Sp.set d m k v) j = Sp.get d m j := by
  unfold Sp.set
  split
  · exact Sp.get_erase_ne d m k j h
  · rw [Sp.get_ins _ _ _ _ _ (Sp.notMem_erase m k), if_neg (Ne.symm h), Sp.get_erase_ne d m k j h]

/-- The same, where the two keys have defaults of their own. -/
theorem Sp.get_set_ne' (d e : α) (m : Sp α) (k : Nat) (v : α) (j : Nat) (h : j ≠ k) :
    Sp.get e (Sp.set d m k v) j = Sp.get e m j := by
  unfold Sp.set
  split
  · exact Sp.get_erase_ne e m k j h
  · rw [Sp.get_ins _ _ _ _ _ (Sp.notMem_erase m k), if_neg (Ne.symm h), Sp.get_erase_ne e m k j h]

/-- The canonical form in terms of the whole list. -/
theorem Sp.wf_iff (d : α) (m : Sp α) :
    Sp.wf d m = true ↔ m.Pairwise (fun x y => x.1 < y.1) ∧ ∀ e ∈ m, e.2 ≠ d := by
  induction m with
  | nil => simp [Sp.wf]
  | cons e m ih =>
    obtain ⟨k, v⟩ := e
    cases m with
    | nil => simp [Sp.wf]
    | cons e' m' =>
      obtain ⟨k', v'⟩ := e'
      simp only [Sp.wf, Bool.and_eq_true, decide_eq_true_eq, ih, List.pairwise_cons, List.mem_cons, forall_eq_or_imp]
      constructor
      · rintro ⟨⟨hk, hv⟩, ⟨h1, h2⟩, h3, h4⟩
        exact ⟨⟨⟨hk, fun a ha => Nat.lt_trans hk (h1 a ha)⟩, h1, h2⟩, hv, h3, h4⟩
      · rintro ⟨⟨⟨hk, _⟩, h1, h2⟩, hv, h3, h4⟩
        exact ⟨⟨hk, hv⟩, ⟨h1, h2⟩, h3, h4⟩

/-- Setting a key keeps the canonical form. -/
theorem Sp.wf_set (d : α) (m : Sp α) (k : Nat) (v : α) (h : Sp.wf d m = true) : Sp.wf d (Sp.set d m k v) = true := by
  rw [Sp.wf_iff] at h ⊢
  have he : (Sp.erase m k).Pairwise (fun x y => x.1 < y.1) := h.1.filter _
  have hd : ∀ e ∈ Sp.erase m k, e.2 ≠ d := fun e hm => h.2 e (List.mem_of_mem_filter hm)
  unfold Sp.set
  split
  · exact ⟨he, hd⟩
  · rename_i hv
    refine ⟨Sp.pairwise_ins k v _ (Sp.notMem_erase m k) he, fun e hm => ?_⟩
    rcases Sp.mem_ins k v _ e hm with rfl | hm
    · exact hv
    · exact hd e hm

end Sys2Proof.Machine
end

