-- ==== Sys2Proof/Laws/State.lean ====
section
/-!
SUPPORT. What each named update of the block leaves alone, field by field, and what it sets: every lemma is true by unfolding
once, so that no later proof unfolds a record update.
-/
namespace Sys2Proof.Machine
variable (b : Blk)

@[simp] theorem updEv_part (f : EventSt → EventSt) : (b.updEv f).part = b.part := rfl
@[simp] theorem updEv_regs (f : EventSt → EventSt) : (b.updEv f).regs = b.regs := rfl
@[simp] theorem updEv_mem (f : EventSt → EventSt) : (b.updEv f).mem = b.mem := rfl
@[simp] theorem updEv_err (f : EventSt → EventSt) : (b.updEv f).err = b.err := rfl
@[simp] theorem updEv_flash (f : EventSt → EventSt) : (b.updEv f).flash = b.flash := rfl
@[simp] theorem updEv_ev (f : EventSt → EventSt) : (b.updEv f).ev = f b.ev := rfl
@[simp] theorem updEv_time (f : EventSt → EventSt) : (b.updEv f).time = b.time := rfl
@[simp] theorem updEv_sched (f : EventSt → EventSt) : (b.updEv f).sched = b.sched := rfl
@[simp] theorem updEv_cores (f : EventSt → EventSt) : (b.updEv f).cores = b.cores := rfl
@[simp] theorem updEv_vote (f : EventSt → EventSt) : (b.updEv f).vote = b.vote := rfl
@[simp] theorem updEv_regions (f : EventSt → EventSt) : (b.updEv f).regions = b.regions := rfl
@[simp] theorem updEv_xfers (f : EventSt → EventSt) : (b.updEv f).xfers = b.xfers := rfl
@[simp] theorem updEv_nextXfer (f : EventSt → EventSt) : (b.updEv f).nextXfer = b.nextXfer := rfl
@[simp] theorem updEv_claims (f : EventSt → EventSt) : (b.updEv f).claims = b.claims := rfl
@[simp] theorem updEv_checks (f : EventSt → EventSt) : (b.updEv f).checks = b.checks := rfl
@[simp] theorem updEv_gath (f : EventSt → EventSt) : (b.updEv f).gath = b.gath := rfl
@[simp] theorem updEv_ncache (f : EventSt → EventSt) : (b.updEv f).ncache = b.ncache := rfl
@[simp] theorem updEv_memReqs (f : EventSt → EventSt) : (b.updEv f).memReqs = b.memReqs := rfl
@[simp] theorem updEv_mds (f : EventSt → EventSt) : (b.updEv f).mds = b.mds := rfl
@[simp] theorem updEv_ports (f : EventSt → EventSt) : (b.updEv f).ports = b.ports := rfl
@[simp] theorem updEv_takes (f : EventSt → EventSt) : (b.updEv f).takes = b.takes := rfl
@[simp] theorem updEv_routers (f : EventSt → EventSt) : (b.updEv f).routers = b.routers := rfl
@[simp] theorem updEv_inbox (f : EventSt → EventSt) : (b.updEv f).inbox = b.inbox := rfl
@[simp] theorem updEv_crossing (f : EventSt → EventSt) : (b.updEv f).crossing = b.crossing := rfl
@[simp] theorem updEv_coll (f : EventSt → EventSt) : (b.updEv f).coll = b.coll := rfl
@[simp] theorem updEv_journal (f : EventSt → EventSt) : (b.updEv f).journal = b.journal := rfl
@[simp] theorem updEv_run (f : EventSt → EventSt) : (b.updEv f).run = b.run := rfl
@[simp] theorem updEv_scale (f : EventSt → EventSt) : (b.updEv f).scale = b.scale := rfl
@[simp] theorem updEv_ras (f : EventSt → EventSt) : (b.updEv f).ras = b.ras := rfl
@[simp] theorem updEv_power (f : EventSt → EventSt) : (b.updEv f).power = b.power := rfl
@[simp] theorem updEv_sec (f : EventSt → EventSt) : (b.updEv f).sec = b.sec := rfl
@[simp] theorem updEv_host (f : EventSt → EventSt) : (b.updEv f).host = b.host := rfl
@[simp] theorem updEv_mgmt (f : EventSt → EventSt) : (b.updEv f).mgmt = b.mgmt := rfl
@[simp] theorem updEv_rst (f : EventSt → EventSt) : (b.updEv f).rst = b.rst := rfl
@[simp] theorem updEv_out (f : EventSt → EventSt) : (b.updEv f).out = b.out := rfl
@[simp] theorem updEv_freeCtr (f : EventSt → EventSt) : (b.updEv f).freeCtr = b.freeCtr := rfl
@[simp] theorem updEv_reg (f : EventSt → EventSt) (r : Reg) : (b.updEv f).reg r = b.reg r := rfl
@[simp] theorem updEv_rd (f : EventSt → EventSt) (x : Fld) : (b.updEv f).rd x = b.rd x := rfl
@[simp] theorem updEv_on (f : EventSt → EventSt) (x : Fld) : (b.updEv f).on x = b.on x := rfl
@[simp] theorem updEv_rdI (f : EventSt → EventSt) (x : Fld) : (b.updEv f).rdI x = b.rdI x := rfl
@[simp] theorem updEv_byte (f : EventSt → EventSt) (a : Nat) : (b.updEv f).byte a = b.byte a := rfl
@[simp] theorem updEv_core (f : EventSt → EventSt) (c : Nat) : (b.updEv f).core c = b.core c := rfl
@[simp] theorem updEv_port (f : EventSt → EventSt) (q : Nat) : (b.updEv f).port q = b.port q := rfl
@[simp] theorem updEv_now (f : EventSt → EventSt) : (b.updEv f).now = b.now := rfl

@[simp] theorem updTime_part (f : TimeSt → TimeSt) : (b.updTime f).part = b.part := rfl
@[simp] theorem updTime_regs (f : TimeSt → TimeSt) : (b.updTime f).regs = b.regs := rfl
@[simp] theorem updTime_mem (f : TimeSt → TimeSt) : (b.updTime f).mem = b.mem := rfl
@[simp] theorem updTime_err (f : TimeSt → TimeSt) : (b.updTime f).err = b.err := rfl
@[simp] theorem updTime_flash (f : TimeSt → TimeSt) : (b.updTime f).flash = b.flash := rfl
@[simp] theorem updTime_ev (f : TimeSt → TimeSt) : (b.updTime f).ev = b.ev := rfl
@[simp] theorem updTime_time (f : TimeSt → TimeSt) : (b.updTime f).time = f b.time := rfl
@[simp] theorem updTime_sched (f : TimeSt → TimeSt) : (b.updTime f).sched = b.sched := rfl
@[simp] theorem updTime_cores (f : TimeSt → TimeSt) : (b.updTime f).cores = b.cores := rfl
@[simp] theorem updTime_vote (f : TimeSt → TimeSt) : (b.updTime f).vote = b.vote := rfl
@[simp] theorem updTime_regions (f : TimeSt → TimeSt) : (b.updTime f).regions = b.regions := rfl
@[simp] theorem updTime_xfers (f : TimeSt → TimeSt) : (b.updTime f).xfers = b.xfers := rfl
@[simp] theorem updTime_nextXfer (f : TimeSt → TimeSt) : (b.updTime f).nextXfer = b.nextXfer := rfl
@[simp] theorem updTime_claims (f : TimeSt → TimeSt) : (b.updTime f).claims = b.claims := rfl
@[simp] theorem updTime_checks (f : TimeSt → TimeSt) : (b.updTime f).checks = b.checks := rfl
@[simp] theorem updTime_gath (f : TimeSt → TimeSt) : (b.updTime f).gath = b.gath := rfl
@[simp] theorem updTime_ncache (f : TimeSt → TimeSt) : (b.updTime f).ncache = b.ncache := rfl
@[simp] theorem updTime_memReqs (f : TimeSt → TimeSt) : (b.updTime f).memReqs = b.memReqs := rfl
@[simp] theorem updTime_mds (f : TimeSt → TimeSt) : (b.updTime f).mds = b.mds := rfl
@[simp] theorem updTime_ports (f : TimeSt → TimeSt) : (b.updTime f).ports = b.ports := rfl
@[simp] theorem updTime_takes (f : TimeSt → TimeSt) : (b.updTime f).takes = b.takes := rfl
@[simp] theorem updTime_routers (f : TimeSt → TimeSt) : (b.updTime f).routers = b.routers := rfl
@[simp] theorem updTime_inbox (f : TimeSt → TimeSt) : (b.updTime f).inbox = b.inbox := rfl
@[simp] theorem updTime_crossing (f : TimeSt → TimeSt) : (b.updTime f).crossing = b.crossing := rfl
@[simp] theorem updTime_coll (f : TimeSt → TimeSt) : (b.updTime f).coll = b.coll := rfl
@[simp] theorem updTime_journal (f : TimeSt → TimeSt) : (b.updTime f).journal = b.journal := rfl
@[simp] theorem updTime_run (f : TimeSt → TimeSt) : (b.updTime f).run = b.run := rfl
@[simp] theorem updTime_scale (f : TimeSt → TimeSt) : (b.updTime f).scale = b.scale := rfl
@[simp] theorem updTime_ras (f : TimeSt → TimeSt) : (b.updTime f).ras = b.ras := rfl
@[simp] theorem updTime_power (f : TimeSt → TimeSt) : (b.updTime f).power = b.power := rfl
@[simp] theorem updTime_sec (f : TimeSt → TimeSt) : (b.updTime f).sec = b.sec := rfl
@[simp] theorem updTime_host (f : TimeSt → TimeSt) : (b.updTime f).host = b.host := rfl
@[simp] theorem updTime_mgmt (f : TimeSt → TimeSt) : (b.updTime f).mgmt = b.mgmt := rfl
@[simp] theorem updTime_rst (f : TimeSt → TimeSt) : (b.updTime f).rst = b.rst := rfl
@[simp] theorem updTime_out (f : TimeSt → TimeSt) : (b.updTime f).out = b.out := rfl
@[simp] theorem updTime_freeCtr (f : TimeSt → TimeSt) : (b.updTime f).freeCtr = b.freeCtr := rfl
@[simp] theorem updTime_reg (f : TimeSt → TimeSt) (r : Reg) : (b.updTime f).reg r = b.reg r := rfl
@[simp] theorem updTime_rd (f : TimeSt → TimeSt) (x : Fld) : (b.updTime f).rd x = b.rd x := rfl
@[simp] theorem updTime_on (f : TimeSt → TimeSt) (x : Fld) : (b.updTime f).on x = b.on x := rfl
@[simp] theorem updTime_rdI (f : TimeSt → TimeSt) (x : Fld) : (b.updTime f).rdI x = b.rdI x := rfl
@[simp] theorem updTime_byte (f : TimeSt → TimeSt) (a : Nat) : (b.updTime f).byte a = b.byte a := rfl
@[simp] theorem updTime_core (f : TimeSt → TimeSt) (c : Nat) : (b.updTime f).core c = b.core c := rfl
@[simp] theorem updTime_port (f : TimeSt → TimeSt) (q : Nat) : (b.updTime f).port q = b.port q := rfl

@[simp] theorem updSched_part (f : SchedSt → SchedSt) : (b.updSched f).part = b.part := rfl
@[simp] theorem updSched_regs (f : SchedSt → SchedSt) : (b.updSched f).regs = b.regs := rfl
@[simp] theorem updSched_mem (f : SchedSt → SchedSt) : (b.updSched f).mem = b.mem := rfl
@[simp] theorem updSched_err (f : SchedSt → SchedSt) : (b.updSched f).err = b.err := rfl
@[simp] theorem updSched_flash (f : SchedSt → SchedSt) : (b.updSched f).flash = b.flash := rfl
@[simp] theorem updSched_ev (f : SchedSt → SchedSt) : (b.updSched f).ev = b.ev := rfl
@[simp] theorem updSched_time (f : SchedSt → SchedSt) : (b.updSched f).time = b.time := rfl
@[simp] theorem updSched_sched (f : SchedSt → SchedSt) : (b.updSched f).sched = f b.sched := rfl
@[simp] theorem updSched_cores (f : SchedSt → SchedSt) : (b.updSched f).cores = b.cores := rfl
@[simp] theorem updSched_vote (f : SchedSt → SchedSt) : (b.updSched f).vote = b.vote := rfl
@[simp] theorem updSched_regions (f : SchedSt → SchedSt) : (b.updSched f).regions = b.regions := rfl
@[simp] theorem updSched_xfers (f : SchedSt → SchedSt) : (b.updSched f).xfers = b.xfers := rfl
@[simp] theorem updSched_nextXfer (f : SchedSt → SchedSt) : (b.updSched f).nextXfer = b.nextXfer := rfl
@[simp] theorem updSched_claims (f : SchedSt → SchedSt) : (b.updSched f).claims = b.claims := rfl
@[simp] theorem updSched_checks (f : SchedSt → SchedSt) : (b.updSched f).checks = b.checks := rfl
@[simp] theorem updSched_gath (f : SchedSt → SchedSt) : (b.updSched f).gath = b.gath := rfl
@[simp] theorem updSched_ncache (f : SchedSt → SchedSt) : (b.updSched f).ncache = b.ncache := rfl
@[simp] theorem updSched_memReqs (f : SchedSt → SchedSt) : (b.updSched f).memReqs = b.memReqs := rfl
@[simp] theorem updSched_mds (f : SchedSt → SchedSt) : (b.updSched f).mds = b.mds := rfl
@[simp] theorem updSched_ports (f : SchedSt → SchedSt) : (b.updSched f).ports = b.ports := rfl
@[simp] theorem updSched_takes (f : SchedSt → SchedSt) : (b.updSched f).takes = b.takes := rfl
@[simp] theorem updSched_routers (f : SchedSt → SchedSt) : (b.updSched f).routers = b.routers := rfl
@[simp] theorem updSched_inbox (f : SchedSt → SchedSt) : (b.updSched f).inbox = b.inbox := rfl
@[simp] theorem updSched_crossing (f : SchedSt → SchedSt) : (b.updSched f).crossing = b.crossing := rfl
@[simp] theorem updSched_coll (f : SchedSt → SchedSt) : (b.updSched f).coll = b.coll := rfl
@[simp] theorem updSched_journal (f : SchedSt → SchedSt) : (b.updSched f).journal = b.journal := rfl
@[simp] theorem updSched_run (f : SchedSt → SchedSt) : (b.updSched f).run = b.run := rfl
@[simp] theorem updSched_scale (f : SchedSt → SchedSt) : (b.updSched f).scale = b.scale := rfl
@[simp] theorem updSched_ras (f : SchedSt → SchedSt) : (b.updSched f).ras = b.ras := rfl
@[simp] theorem updSched_power (f : SchedSt → SchedSt) : (b.updSched f).power = b.power := rfl
@[simp] theorem updSched_sec (f : SchedSt → SchedSt) : (b.updSched f).sec = b.sec := rfl
@[simp] theorem updSched_host (f : SchedSt → SchedSt) : (b.updSched f).host = b.host := rfl
@[simp] theorem updSched_mgmt (f : SchedSt → SchedSt) : (b.updSched f).mgmt = b.mgmt := rfl
@[simp] theorem updSched_rst (f : SchedSt → SchedSt) : (b.updSched f).rst = b.rst := rfl
@[simp] theorem updSched_out (f : SchedSt → SchedSt) : (b.updSched f).out = b.out := rfl
@[simp] theorem updSched_freeCtr (f : SchedSt → SchedSt) : (b.updSched f).freeCtr = b.freeCtr := rfl
@[simp] theorem updSched_reg (f : SchedSt → SchedSt) (r : Reg) : (b.updSched f).reg r = b.reg r := rfl
@[simp] theorem updSched_rd (f : SchedSt → SchedSt) (x : Fld) : (b.updSched f).rd x = b.rd x := rfl
@[simp] theorem updSched_on (f : SchedSt → SchedSt) (x : Fld) : (b.updSched f).on x = b.on x := rfl
@[simp] theorem updSched_rdI (f : SchedSt → SchedSt) (x : Fld) : (b.updSched f).rdI x = b.rdI x := rfl
@[simp] theorem updSched_byte (f : SchedSt → SchedSt) (a : Nat) : (b.updSched f).byte a = b.byte a := rfl
@[simp] theorem updSched_core (f : SchedSt → SchedSt) (c : Nat) : (b.updSched f).core c = b.core c := rfl
@[simp] theorem updSched_port (f : SchedSt → SchedSt) (q : Nat) : (b.updSched f).port q = b.port q := rfl
@[simp] theorem updSched_now (f : SchedSt → SchedSt) : (b.updSched f).now = b.now := rfl

@[simp] theorem updVote_part (f : VoteSt → VoteSt) : (b.updVote f).part = b.part := rfl
@[simp] theorem updVote_regs (f : VoteSt → VoteSt) : (b.updVote f).regs = b.regs := rfl
@[simp] theorem updVote_mem (f : VoteSt → VoteSt) : (b.updVote f).mem = b.mem := rfl
@[simp] theorem updVote_err (f : VoteSt → VoteSt) : (b.updVote f).err = b.err := rfl
@[simp] theorem updVote_flash (f : VoteSt → VoteSt) : (b.updVote f).flash = b.flash := rfl
@[simp] theorem updVote_ev (f : VoteSt → VoteSt) : (b.updVote f).ev = b.ev := rfl
@[simp] theorem updVote_time (f : VoteSt → VoteSt) : (b.updVote f).time = b.time := rfl
@[simp] theorem updVote_sched (f : VoteSt → VoteSt) : (b.updVote f).sched = b.sched := rfl
@[simp] theorem updVote_cores (f : VoteSt → VoteSt) : (b.updVote f).cores = b.cores := rfl
@[simp] theorem updVote_vote (f : VoteSt → VoteSt) : (b.updVote f).vote = f b.vote := rfl
@[simp] theorem updVote_regions (f : VoteSt → VoteSt) : (b.updVote f).regions = b.regions := rfl
@[simp] theorem updVote_xfers (f : VoteSt → VoteSt) : (b.updVote f).xfers = b.xfers := rfl
@[simp] theorem updVote_nextXfer (f : VoteSt → VoteSt) : (b.updVote f).nextXfer = b.nextXfer := rfl
@[simp] theorem updVote_claims (f : VoteSt → VoteSt) : (b.updVote f).claims = b.claims := rfl
@[simp] theorem updVote_checks (f : VoteSt → VoteSt) : (b.updVote f).checks = b.checks := rfl
@[simp] theorem updVote_gath (f : VoteSt → VoteSt) : (b.updVote f).gath = b.gath := rfl
@[simp] theorem updVote_ncache (f : VoteSt → VoteSt) : (b.updVote f).ncache = b.ncache := rfl
@[simp] theorem updVote_memReqs (f : VoteSt → VoteSt) : (b.updVote f).memReqs = b.memReqs := rfl
@[simp] theorem updVote_mds (f : VoteSt → VoteSt) : (b.updVote f).mds = b.mds := rfl
@[simp] theorem updVote_ports (f : VoteSt → VoteSt) : (b.updVote f).ports = b.ports := rfl
@[simp] theorem updVote_takes (f : VoteSt → VoteSt) : (b.updVote f).takes = b.takes := rfl
@[simp] theorem updVote_routers (f : VoteSt → VoteSt) : (b.updVote f).routers = b.routers := rfl
@[simp] theorem updVote_inbox (f : VoteSt → VoteSt) : (b.updVote f).inbox = b.inbox := rfl
@[simp] theorem updVote_crossing (f : VoteSt → VoteSt) : (b.updVote f).crossing = b.crossing := rfl
@[simp] theorem updVote_coll (f : VoteSt → VoteSt) : (b.updVote f).coll = b.coll := rfl
@[simp] theorem updVote_journal (f : VoteSt → VoteSt) : (b.updVote f).journal = b.journal := rfl
@[simp] theorem updVote_run (f : VoteSt → VoteSt) : (b.updVote f).run = b.run := rfl
@[simp] theorem updVote_scale (f : VoteSt → VoteSt) : (b.updVote f).scale = b.scale := rfl
@[simp] theorem updVote_ras (f : VoteSt → VoteSt) : (b.updVote f).ras = b.ras := rfl
@[simp] theorem updVote_power (f : VoteSt → VoteSt) : (b.updVote f).power = b.power := rfl
@[simp] theorem updVote_sec (f : VoteSt → VoteSt) : (b.updVote f).sec = b.sec := rfl
@[simp] theorem updVote_host (f : VoteSt → VoteSt) : (b.updVote f).host = b.host := rfl
@[simp] theorem updVote_mgmt (f : VoteSt → VoteSt) : (b.updVote f).mgmt = b.mgmt := rfl
@[simp] theorem updVote_rst (f : VoteSt → VoteSt) : (b.updVote f).rst = b.rst := rfl
@[simp] theorem updVote_out (f : VoteSt → VoteSt) : (b.updVote f).out = b.out := rfl
@[simp] theorem updVote_freeCtr (f : VoteSt → VoteSt) : (b.updVote f).freeCtr = b.freeCtr := rfl
@[simp] theorem updVote_reg (f : VoteSt → VoteSt) (r : Reg) : (b.updVote f).reg r = b.reg r := rfl
@[simp] theorem updVote_rd (f : VoteSt → VoteSt) (x : Fld) : (b.updVote f).rd x = b.rd x := rfl
@[simp] theorem updVote_on (f : VoteSt → VoteSt) (x : Fld) : (b.updVote f).on x = b.on x := rfl
@[simp] theorem updVote_rdI (f : VoteSt → VoteSt) (x : Fld) : (b.updVote f).rdI x = b.rdI x := rfl
@[simp] theorem updVote_byte (f : VoteSt → VoteSt) (a : Nat) : (b.updVote f).byte a = b.byte a := rfl
@[simp] theorem updVote_core (f : VoteSt → VoteSt) (c : Nat) : (b.updVote f).core c = b.core c := rfl
@[simp] theorem updVote_port (f : VoteSt → VoteSt) (q : Nat) : (b.updVote f).port q = b.port q := rfl
@[simp] theorem updVote_now (f : VoteSt → VoteSt) : (b.updVote f).now = b.now := rfl

@[simp] theorem updColl_part (f : CollSt → CollSt) : (b.updColl f).part = b.part := rfl
@[simp] theorem updColl_regs (f : CollSt → CollSt) : (b.updColl f).regs = b.regs := rfl
@[simp] theorem updColl_mem (f : CollSt → CollSt) : (b.updColl f).mem = b.mem := rfl
@[simp] theorem updColl_err (f : CollSt → CollSt) : (b.updColl f).err = b.err := rfl
@[simp] theorem updColl_flash (f : CollSt → CollSt) : (b.updColl f).flash = b.flash := rfl
@[simp] theorem updColl_ev (f : CollSt → CollSt) : (b.updColl f).ev = b.ev := rfl
@[simp] theorem updColl_time (f : CollSt → CollSt) : (b.updColl f).time = b.time := rfl
@[simp] theorem updColl_sched (f : CollSt → CollSt) : (b.updColl f).sched = b.sched := rfl
@[simp] theorem updColl_cores (f : CollSt → CollSt) : (b.updColl f).cores = b.cores := rfl
@[simp] theorem updColl_vote (f : CollSt → CollSt) : (b.updColl f).vote = b.vote := rfl
@[simp] theorem updColl_regions (f : CollSt → CollSt) : (b.updColl f).regions = b.regions := rfl
@[simp] theorem updColl_xfers (f : CollSt → CollSt) : (b.updColl f).xfers = b.xfers := rfl
@[simp] theorem updColl_nextXfer (f : CollSt → CollSt) : (b.updColl f).nextXfer = b.nextXfer := rfl
@[simp] theorem updColl_claims (f : CollSt → CollSt) : (b.updColl f).claims = b.claims := rfl
@[simp] theorem updColl_checks (f : CollSt → CollSt) : (b.updColl f).checks = b.checks := rfl
@[simp] theorem updColl_gath (f : CollSt → CollSt) : (b.updColl f).gath = b.gath := rfl
@[simp] theorem updColl_ncache (f : CollSt → CollSt) : (b.updColl f).ncache = b.ncache := rfl
@[simp] theorem updColl_memReqs (f : CollSt → CollSt) : (b.updColl f).memReqs = b.memReqs := rfl
@[simp] theorem updColl_mds (f : CollSt → CollSt) : (b.updColl f).mds = b.mds := rfl
@[simp] theorem updColl_ports (f : CollSt → CollSt) : (b.updColl f).ports = b.ports := rfl
@[simp] theorem updColl_takes (f : CollSt → CollSt) : (b.updColl f).takes = b.takes := rfl
@[simp] theorem updColl_routers (f : CollSt → CollSt) : (b.updColl f).routers = b.routers := rfl
@[simp] theorem updColl_inbox (f : CollSt → CollSt) : (b.updColl f).inbox = b.inbox := rfl
@[simp] theorem updColl_crossing (f : CollSt → CollSt) : (b.updColl f).crossing = b.crossing := rfl
@[simp] theorem updColl_coll (f : CollSt → CollSt) : (b.updColl f).coll = f b.coll := rfl
@[simp] theorem updColl_journal (f : CollSt → CollSt) : (b.updColl f).journal = b.journal := rfl
@[simp] theorem updColl_run (f : CollSt → CollSt) : (b.updColl f).run = b.run := rfl
@[simp] theorem updColl_scale (f : CollSt → CollSt) : (b.updColl f).scale = b.scale := rfl
@[simp] theorem updColl_ras (f : CollSt → CollSt) : (b.updColl f).ras = b.ras := rfl
@[simp] theorem updColl_power (f : CollSt → CollSt) : (b.updColl f).power = b.power := rfl
@[simp] theorem updColl_sec (f : CollSt → CollSt) : (b.updColl f).sec = b.sec := rfl
@[simp] theorem updColl_host (f : CollSt → CollSt) : (b.updColl f).host = b.host := rfl
@[simp] theorem updColl_mgmt (f : CollSt → CollSt) : (b.updColl f).mgmt = b.mgmt := rfl
@[simp] theorem updColl_rst (f : CollSt → CollSt) : (b.updColl f).rst = b.rst := rfl
@[simp] theorem updColl_out (f : CollSt → CollSt) : (b.updColl f).out = b.out := rfl
@[simp] theorem updColl_freeCtr (f : CollSt → CollSt) : (b.updColl f).freeCtr = b.freeCtr := rfl
@[simp] theorem updColl_reg (f : CollSt → CollSt) (r : Reg) : (b.updColl f).reg r = b.reg r := rfl
@[simp] theorem updColl_rd (f : CollSt → CollSt) (x : Fld) : (b.updColl f).rd x = b.rd x := rfl
@[simp] theorem updColl_on (f : CollSt → CollSt) (x : Fld) : (b.updColl f).on x = b.on x := rfl
@[simp] theorem updColl_rdI (f : CollSt → CollSt) (x : Fld) : (b.updColl f).rdI x = b.rdI x := rfl
@[simp] theorem updColl_byte (f : CollSt → CollSt) (a : Nat) : (b.updColl f).byte a = b.byte a := rfl
@[simp] theorem updColl_core (f : CollSt → CollSt) (c : Nat) : (b.updColl f).core c = b.core c := rfl
@[simp] theorem updColl_port (f : CollSt → CollSt) (q : Nat) : (b.updColl f).port q = b.port q := rfl
@[simp] theorem updColl_now (f : CollSt → CollSt) : (b.updColl f).now = b.now := rfl

@[simp] theorem updRun_part (f : RunSt → RunSt) : (b.updRun f).part = b.part := rfl
@[simp] theorem updRun_regs (f : RunSt → RunSt) : (b.updRun f).regs = b.regs := rfl
@[simp] theorem updRun_mem (f : RunSt → RunSt) : (b.updRun f).mem = b.mem := rfl
@[simp] theorem updRun_err (f : RunSt → RunSt) : (b.updRun f).err = b.err := rfl
@[simp] theorem updRun_flash (f : RunSt → RunSt) : (b.updRun f).flash = b.flash := rfl
@[simp] theorem updRun_ev (f : RunSt → RunSt) : (b.updRun f).ev = b.ev := rfl
@[simp] theorem updRun_time (f : RunSt → RunSt) : (b.updRun f).time = b.time := rfl
@[simp] theorem updRun_sched (f : RunSt → RunSt) : (b.updRun f).sched = b.sched := rfl
@[simp] theorem updRun_cores (f : RunSt → RunSt) : (b.updRun f).cores = b.cores := rfl
@[simp] theorem updRun_vote (f : RunSt → RunSt) : (b.updRun f).vote = b.vote := rfl
@[simp] theorem updRun_regions (f : RunSt → RunSt) : (b.updRun f).regions = b.regions := rfl
@[simp] theorem updRun_xfers (f : RunSt → RunSt) : (b.updRun f).xfers = b.xfers := rfl
@[simp] theorem updRun_nextXfer (f : RunSt → RunSt) : (b.updRun f).nextXfer = b.nextXfer := rfl
@[simp] theorem updRun_claims (f : RunSt → RunSt) : (b.updRun f).claims = b.claims := rfl
@[simp] theorem updRun_checks (f : RunSt → RunSt) : (b.updRun f).checks = b.checks := rfl
@[simp] theorem updRun_gath (f : RunSt → RunSt) : (b.updRun f).gath = b.gath := rfl
@[simp] theorem updRun_ncache (f : RunSt → RunSt) : (b.updRun f).ncache = b.ncache := rfl
@[simp] theorem updRun_memReqs (f : RunSt → RunSt) : (b.updRun f).memReqs = b.memReqs := rfl
@[simp] theorem updRun_mds (f : RunSt → RunSt) : (b.updRun f).mds = b.mds := rfl
@[simp] theorem updRun_ports (f : RunSt → RunSt) : (b.updRun f).ports = b.ports := rfl
@[simp] theorem updRun_takes (f : RunSt → RunSt) : (b.updRun f).takes = b.takes := rfl
@[simp] theorem updRun_routers (f : RunSt → RunSt) : (b.updRun f).routers = b.routers := rfl
@[simp] theorem updRun_inbox (f : RunSt → RunSt) : (b.updRun f).inbox = b.inbox := rfl
@[simp] theorem updRun_crossing (f : RunSt → RunSt) : (b.updRun f).crossing = b.crossing := rfl
@[simp] theorem updRun_coll (f : RunSt → RunSt) : (b.updRun f).coll = b.coll := rfl
@[simp] theorem updRun_journal (f : RunSt → RunSt) : (b.updRun f).journal = b.journal := rfl
@[simp] theorem updRun_run (f : RunSt → RunSt) : (b.updRun f).run = f b.run := rfl
@[simp] theorem updRun_scale (f : RunSt → RunSt) : (b.updRun f).scale = b.scale := rfl
@[simp] theorem updRun_ras (f : RunSt → RunSt) : (b.updRun f).ras = b.ras := rfl
@[simp] theorem updRun_power (f : RunSt → RunSt) : (b.updRun f).power = b.power := rfl
@[simp] theorem updRun_sec (f : RunSt → RunSt) : (b.updRun f).sec = b.sec := rfl
@[simp] theorem updRun_host (f : RunSt → RunSt) : (b.updRun f).host = b.host := rfl
@[simp] theorem updRun_mgmt (f : RunSt → RunSt) : (b.updRun f).mgmt = b.mgmt := rfl
@[simp] theorem updRun_rst (f : RunSt → RunSt) : (b.updRun f).rst = b.rst := rfl
@[simp] theorem updRun_out (f : RunSt → RunSt) : (b.updRun f).out = b.out := rfl
@[simp] theorem updRun_freeCtr (f : RunSt → RunSt) : (b.updRun f).freeCtr = b.freeCtr := rfl
@[simp] theorem updRun_reg (f : RunSt → RunSt) (r : Reg) : (b.updRun f).reg r = b.reg r := rfl
@[simp] theorem updRun_rd (f : RunSt → RunSt) (x : Fld) : (b.updRun f).rd x = b.rd x := rfl
@[simp] theorem updRun_on (f : RunSt → RunSt) (x : Fld) : (b.updRun f).on x = b.on x := rfl
@[simp] theorem updRun_rdI (f : RunSt → RunSt) (x : Fld) : (b.updRun f).rdI x = b.rdI x := rfl
@[simp] theorem updRun_byte (f : RunSt → RunSt) (a : Nat) : (b.updRun f).byte a = b.byte a := rfl
@[simp] theorem updRun_core (f : RunSt → RunSt) (c : Nat) : (b.updRun f).core c = b.core c := rfl
@[simp] theorem updRun_port (f : RunSt → RunSt) (q : Nat) : (b.updRun f).port q = b.port q := rfl
@[simp] theorem updRun_now (f : RunSt → RunSt) : (b.updRun f).now = b.now := rfl

@[simp] theorem updScale_part (f : ScaleSt → ScaleSt) : (b.updScale f).part = b.part := rfl
@[simp] theorem updScale_regs (f : ScaleSt → ScaleSt) : (b.updScale f).regs = b.regs := rfl
@[simp] theorem updScale_mem (f : ScaleSt → ScaleSt) : (b.updScale f).mem = b.mem := rfl
@[simp] theorem updScale_err (f : ScaleSt → ScaleSt) : (b.updScale f).err = b.err := rfl
@[simp] theorem updScale_flash (f : ScaleSt → ScaleSt) : (b.updScale f).flash = b.flash := rfl
@[simp] theorem updScale_ev (f : ScaleSt → ScaleSt) : (b.updScale f).ev = b.ev := rfl
@[simp] theorem updScale_time (f : ScaleSt → ScaleSt) : (b.updScale f).time = b.time := rfl
@[simp] theorem updScale_sched (f : ScaleSt → ScaleSt) : (b.updScale f).sched = b.sched := rfl
@[simp] theorem updScale_cores (f : ScaleSt → ScaleSt) : (b.updScale f).cores = b.cores := rfl
@[simp] theorem updScale_vote (f : ScaleSt → ScaleSt) : (b.updScale f).vote = b.vote := rfl
@[simp] theorem updScale_regions (f : ScaleSt → ScaleSt) : (b.updScale f).regions = b.regions := rfl
@[simp] theorem updScale_xfers (f : ScaleSt → ScaleSt) : (b.updScale f).xfers = b.xfers := rfl
@[simp] theorem updScale_nextXfer (f : ScaleSt → ScaleSt) : (b.updScale f).nextXfer = b.nextXfer := rfl
@[simp] theorem updScale_claims (f : ScaleSt → ScaleSt) : (b.updScale f).claims = b.claims := rfl
@[simp] theorem updScale_checks (f : ScaleSt → ScaleSt) : (b.updScale f).checks = b.checks := rfl
@[simp] theorem updScale_gath (f : ScaleSt → ScaleSt) : (b.updScale f).gath = b.gath := rfl
@[simp] theorem updScale_ncache (f : ScaleSt → ScaleSt) : (b.updScale f).ncache = b.ncache := rfl
@[simp] theorem updScale_memReqs (f : ScaleSt → ScaleSt) : (b.updScale f).memReqs = b.memReqs := rfl
@[simp] theorem updScale_mds (f : ScaleSt → ScaleSt) : (b.updScale f).mds = b.mds := rfl
@[simp] theorem updScale_ports (f : ScaleSt → ScaleSt) : (b.updScale f).ports = b.ports := rfl
@[simp] theorem updScale_takes (f : ScaleSt → ScaleSt) : (b.updScale f).takes = b.takes := rfl
@[simp] theorem updScale_routers (f : ScaleSt → ScaleSt) : (b.updScale f).routers = b.routers := rfl
@[simp] theorem updScale_inbox (f : ScaleSt → ScaleSt) : (b.updScale f).inbox = b.inbox := rfl
@[simp] theorem updScale_crossing (f : ScaleSt → ScaleSt) : (b.updScale f).crossing = b.crossing := rfl
@[simp] theorem updScale_coll (f : ScaleSt → ScaleSt) : (b.updScale f).coll = b.coll := rfl
@[simp] theorem updScale_journal (f : ScaleSt → ScaleSt) : (b.updScale f).journal = b.journal := rfl
@[simp] theorem updScale_run (f : ScaleSt → ScaleSt) : (b.updScale f).run = b.run := rfl
@[simp] theorem updScale_scale (f : ScaleSt → ScaleSt) : (b.updScale f).scale = f b.scale := rfl
@[simp] theorem updScale_ras (f : ScaleSt → ScaleSt) : (b.updScale f).ras = b.ras := rfl
@[simp] theorem updScale_power (f : ScaleSt → ScaleSt) : (b.updScale f).power = b.power := rfl
@[simp] theorem updScale_sec (f : ScaleSt → ScaleSt) : (b.updScale f).sec = b.sec := rfl
@[simp] theorem updScale_host (f : ScaleSt → ScaleSt) : (b.updScale f).host = b.host := rfl
@[simp] theorem updScale_mgmt (f : ScaleSt → ScaleSt) : (b.updScale f).mgmt = b.mgmt := rfl
@[simp] theorem updScale_rst (f : ScaleSt → ScaleSt) : (b.updScale f).rst = b.rst := rfl
@[simp] theorem updScale_out (f : ScaleSt → ScaleSt) : (b.updScale f).out = b.out := rfl
@[simp] theorem updScale_freeCtr (f : ScaleSt → ScaleSt) : (b.updScale f).freeCtr = b.freeCtr := rfl
@[simp] theorem updScale_reg (f : ScaleSt → ScaleSt) (r : Reg) : (b.updScale f).reg r = b.reg r := rfl
@[simp] theorem updScale_rd (f : ScaleSt → ScaleSt) (x : Fld) : (b.updScale f).rd x = b.rd x := rfl
@[simp] theorem updScale_on (f : ScaleSt → ScaleSt) (x : Fld) : (b.updScale f).on x = b.on x := rfl
@[simp] theorem updScale_rdI (f : ScaleSt → ScaleSt) (x : Fld) : (b.updScale f).rdI x = b.rdI x := rfl
@[simp] theorem updScale_byte (f : ScaleSt → ScaleSt) (a : Nat) : (b.updScale f).byte a = b.byte a := rfl
@[simp] theorem updScale_core (f : ScaleSt → ScaleSt) (c : Nat) : (b.updScale f).core c = b.core c := rfl
@[simp] theorem updScale_port (f : ScaleSt → ScaleSt) (q : Nat) : (b.updScale f).port q = b.port q := rfl
@[simp] theorem updScale_now (f : ScaleSt → ScaleSt) : (b.updScale f).now = b.now := rfl

@[simp] theorem updRas_part (f : RasSt → RasSt) : (b.updRas f).part = b.part := rfl
@[simp] theorem updRas_regs (f : RasSt → RasSt) : (b.updRas f).regs = b.regs := rfl
@[simp] theorem updRas_mem (f : RasSt → RasSt) : (b.updRas f).mem = b.mem := rfl
@[simp] theorem updRas_err (f : RasSt → RasSt) : (b.updRas f).err = b.err := rfl
@[simp] theorem updRas_flash (f : RasSt → RasSt) : (b.updRas f).flash = b.flash := rfl
@[simp] theorem updRas_ev (f : RasSt → RasSt) : (b.updRas f).ev = b.ev := rfl
@[simp] theorem updRas_time (f : RasSt → RasSt) : (b.updRas f).time = b.time := rfl
@[simp] theorem updRas_sched (f : RasSt → RasSt) : (b.updRas f).sched = b.sched := rfl
@[simp] theorem updRas_cores (f : RasSt → RasSt) : (b.updRas f).cores = b.cores := rfl
@[simp] theorem updRas_vote (f : RasSt → RasSt) : (b.updRas f).vote = b.vote := rfl
@[simp] theorem updRas_regions (f : RasSt → RasSt) : (b.updRas f).regions = b.regions := rfl
@[simp] theorem updRas_xfers (f : RasSt → RasSt) : (b.updRas f).xfers = b.xfers := rfl
@[simp] theorem updRas_nextXfer (f : RasSt → RasSt) : (b.updRas f).nextXfer = b.nextXfer := rfl
@[simp] theorem updRas_claims (f : RasSt → RasSt) : (b.updRas f).claims = b.claims := rfl
@[simp] theorem updRas_checks (f : RasSt → RasSt) : (b.updRas f).checks = b.checks := rfl
@[simp] theorem updRas_gath (f : RasSt → RasSt) : (b.updRas f).gath = b.gath := rfl
@[simp] theorem updRas_ncache (f : RasSt → RasSt) : (b.updRas f).ncache = b.ncache := rfl
@[simp] theorem updRas_memReqs (f : RasSt → RasSt) : (b.updRas f).memReqs = b.memReqs := rfl
@[simp] theorem updRas_mds (f : RasSt → RasSt) : (b.updRas f).mds = b.mds := rfl
@[simp] theorem updRas_ports (f : RasSt → RasSt) : (b.updRas f).ports = b.ports := rfl
@[simp] theorem updRas_takes (f : RasSt → RasSt) : (b.updRas f).takes = b.takes := rfl
@[simp] theorem updRas_routers (f : RasSt → RasSt) : (b.updRas f).routers = b.routers := rfl
@[simp] theorem updRas_inbox (f : RasSt → RasSt) : (b.updRas f).inbox = b.inbox := rfl
@[simp] theorem updRas_crossing (f : RasSt → RasSt) : (b.updRas f).crossing = b.crossing := rfl
@[simp] theorem updRas_coll (f : RasSt → RasSt) : (b.updRas f).coll = b.coll := rfl
@[simp] theorem updRas_journal (f : RasSt → RasSt) : (b.updRas f).journal = b.journal := rfl
@[simp] theorem updRas_run (f : RasSt → RasSt) : (b.updRas f).run = b.run := rfl
@[simp] theorem updRas_scale (f : RasSt → RasSt) : (b.updRas f).scale = b.scale := rfl
@[simp] theorem updRas_ras (f : RasSt → RasSt) : (b.updRas f).ras = f b.ras := rfl
@[simp] theorem updRas_power (f : RasSt → RasSt) : (b.updRas f).power = b.power := rfl
@[simp] theorem updRas_sec (f : RasSt → RasSt) : (b.updRas f).sec = b.sec := rfl
@[simp] theorem updRas_host (f : RasSt → RasSt) : (b.updRas f).host = b.host := rfl
@[simp] theorem updRas_mgmt (f : RasSt → RasSt) : (b.updRas f).mgmt = b.mgmt := rfl
@[simp] theorem updRas_rst (f : RasSt → RasSt) : (b.updRas f).rst = b.rst := rfl
@[simp] theorem updRas_out (f : RasSt → RasSt) : (b.updRas f).out = b.out := rfl
@[simp] theorem updRas_freeCtr (f : RasSt → RasSt) : (b.updRas f).freeCtr = b.freeCtr := rfl
@[simp] theorem updRas_reg (f : RasSt → RasSt) (r : Reg) : (b.updRas f).reg r = b.reg r := rfl
@[simp] theorem updRas_rd (f : RasSt → RasSt) (x : Fld) : (b.updRas f).rd x = b.rd x := rfl
@[simp] theorem updRas_on (f : RasSt → RasSt) (x : Fld) : (b.updRas f).on x = b.on x := rfl
@[simp] theorem updRas_rdI (f : RasSt → RasSt) (x : Fld) : (b.updRas f).rdI x = b.rdI x := rfl
@[simp] theorem updRas_byte (f : RasSt → RasSt) (a : Nat) : (b.updRas f).byte a = b.byte a := rfl
@[simp] theorem updRas_core (f : RasSt → RasSt) (c : Nat) : (b.updRas f).core c = b.core c := rfl
@[simp] theorem updRas_port (f : RasSt → RasSt) (q : Nat) : (b.updRas f).port q = b.port q := rfl
@[simp] theorem updRas_now (f : RasSt → RasSt) : (b.updRas f).now = b.now := rfl

@[simp] theorem updPower_part (f : PowerSt → PowerSt) : (b.updPower f).part = b.part := rfl
@[simp] theorem updPower_regs (f : PowerSt → PowerSt) : (b.updPower f).regs = b.regs := rfl
@[simp] theorem updPower_mem (f : PowerSt → PowerSt) : (b.updPower f).mem = b.mem := rfl
@[simp] theorem updPower_err (f : PowerSt → PowerSt) : (b.updPower f).err = b.err := rfl
@[simp] theorem updPower_flash (f : PowerSt → PowerSt) : (b.updPower f).flash = b.flash := rfl
@[simp] theorem updPower_ev (f : PowerSt → PowerSt) : (b.updPower f).ev = b.ev := rfl
@[simp] theorem updPower_time (f : PowerSt → PowerSt) : (b.updPower f).time = b.time := rfl
@[simp] theorem updPower_sched (f : PowerSt → PowerSt) : (b.updPower f).sched = b.sched := rfl
@[simp] theorem updPower_cores (f : PowerSt → PowerSt) : (b.updPower f).cores = b.cores := rfl
@[simp] theorem updPower_vote (f : PowerSt → PowerSt) : (b.updPower f).vote = b.vote := rfl
@[simp] theorem updPower_regions (f : PowerSt → PowerSt) : (b.updPower f).regions = b.regions := rfl
@[simp] theorem updPower_xfers (f : PowerSt → PowerSt) : (b.updPower f).xfers = b.xfers := rfl
@[simp] theorem updPower_nextXfer (f : PowerSt → PowerSt) : (b.updPower f).nextXfer = b.nextXfer := rfl
@[simp] theorem updPower_claims (f : PowerSt → PowerSt) : (b.updPower f).claims = b.claims := rfl
@[simp] theorem updPower_checks (f : PowerSt → PowerSt) : (b.updPower f).checks = b.checks := rfl
@[simp] theorem updPower_gath (f : PowerSt → PowerSt) : (b.updPower f).gath = b.gath := rfl
@[simp] theorem updPower_ncache (f : PowerSt → PowerSt) : (b.updPower f).ncache = b.ncache := rfl
@[simp] theorem updPower_memReqs (f : PowerSt → PowerSt) : (b.updPower f).memReqs = b.memReqs := rfl
@[simp] theorem updPower_mds (f : PowerSt → PowerSt) : (b.updPower f).mds = b.mds := rfl
@[simp] theorem updPower_ports (f : PowerSt → PowerSt) : (b.updPower f).ports = b.ports := rfl
@[simp] theorem updPower_takes (f : PowerSt → PowerSt) : (b.updPower f).takes = b.takes := rfl
@[simp] theorem updPower_routers (f : PowerSt → PowerSt) : (b.updPower f).routers = b.routers := rfl
@[simp] theorem updPower_inbox (f : PowerSt → PowerSt) : (b.updPower f).inbox = b.inbox := rfl
@[simp] theorem updPower_crossing (f : PowerSt → PowerSt) : (b.updPower f).crossing = b.crossing := rfl
@[simp] theorem updPower_coll (f : PowerSt → PowerSt) : (b.updPower f).coll = b.coll := rfl
@[simp] theorem updPower_journal (f : PowerSt → PowerSt) : (b.updPower f).journal = b.journal := rfl
@[simp] theorem updPower_run (f : PowerSt → PowerSt) : (b.updPower f).run = b.run := rfl
@[simp] theorem updPower_scale (f : PowerSt → PowerSt) : (b.updPower f).scale = b.scale := rfl
@[simp] theorem updPower_ras (f : PowerSt → PowerSt) : (b.updPower f).ras = b.ras := rfl
@[simp] theorem updPower_power (f : PowerSt → PowerSt) : (b.updPower f).power = f b.power := rfl
@[simp] theorem updPower_sec (f : PowerSt → PowerSt) : (b.updPower f).sec = b.sec := rfl
@[simp] theorem updPower_host (f : PowerSt → PowerSt) : (b.updPower f).host = b.host := rfl
@[simp] theorem updPower_mgmt (f : PowerSt → PowerSt) : (b.updPower f).mgmt = b.mgmt := rfl
@[simp] theorem updPower_rst (f : PowerSt → PowerSt) : (b.updPower f).rst = b.rst := rfl
@[simp] theorem updPower_out (f : PowerSt → PowerSt) : (b.updPower f).out = b.out := rfl
@[simp] theorem updPower_freeCtr (f : PowerSt → PowerSt) : (b.updPower f).freeCtr = b.freeCtr := rfl
@[simp] theorem updPower_reg (f : PowerSt → PowerSt) (r : Reg) : (b.updPower f).reg r = b.reg r := rfl
@[simp] theorem updPower_rd (f : PowerSt → PowerSt) (x : Fld) : (b.updPower f).rd x = b.rd x := rfl
@[simp] theorem updPower_on (f : PowerSt → PowerSt) (x : Fld) : (b.updPower f).on x = b.on x := rfl
@[simp] theorem updPower_rdI (f : PowerSt → PowerSt) (x : Fld) : (b.updPower f).rdI x = b.rdI x := rfl
@[simp] theorem updPower_byte (f : PowerSt → PowerSt) (a : Nat) : (b.updPower f).byte a = b.byte a := rfl
@[simp] theorem updPower_core (f : PowerSt → PowerSt) (c : Nat) : (b.updPower f).core c = b.core c := rfl
@[simp] theorem updPower_port (f : PowerSt → PowerSt) (q : Nat) : (b.updPower f).port q = b.port q := rfl
@[simp] theorem updPower_now (f : PowerSt → PowerSt) : (b.updPower f).now = b.now := rfl

@[simp] theorem updSec_part (f : SecSt → SecSt) : (b.updSec f).part = b.part := rfl
@[simp] theorem updSec_regs (f : SecSt → SecSt) : (b.updSec f).regs = b.regs := rfl
@[simp] theorem updSec_mem (f : SecSt → SecSt) : (b.updSec f).mem = b.mem := rfl
@[simp] theorem updSec_err (f : SecSt → SecSt) : (b.updSec f).err = b.err := rfl
@[simp] theorem updSec_flash (f : SecSt → SecSt) : (b.updSec f).flash = b.flash := rfl
@[simp] theorem updSec_ev (f : SecSt → SecSt) : (b.updSec f).ev = b.ev := rfl
@[simp] theorem updSec_time (f : SecSt → SecSt) : (b.updSec f).time = b.time := rfl
@[simp] theorem updSec_sched (f : SecSt → SecSt) : (b.updSec f).sched = b.sched := rfl
@[simp] theorem updSec_cores (f : SecSt → SecSt) : (b.updSec f).cores = b.cores := rfl
@[simp] theorem updSec_vote (f : SecSt → SecSt) : (b.updSec f).vote = b.vote := rfl
@[simp] theorem updSec_regions (f : SecSt → SecSt) : (b.updSec f).regions = b.regions := rfl
@[simp] theorem updSec_xfers (f : SecSt → SecSt) : (b.updSec f).xfers = b.xfers := rfl
@[simp] theorem updSec_nextXfer (f : SecSt → SecSt) : (b.updSec f).nextXfer = b.nextXfer := rfl
@[simp] theorem updSec_claims (f : SecSt → SecSt) : (b.updSec f).claims = b.claims := rfl
@[simp] theorem updSec_checks (f : SecSt → SecSt) : (b.updSec f).checks = b.checks := rfl
@[simp] theorem updSec_gath (f : SecSt → SecSt) : (b.updSec f).gath = b.gath := rfl
@[simp] theorem updSec_ncache (f : SecSt → SecSt) : (b.updSec f).ncache = b.ncache := rfl
@[simp] theorem updSec_memReqs (f : SecSt → SecSt) : (b.updSec f).memReqs = b.memReqs := rfl
@[simp] theorem updSec_mds (f : SecSt → SecSt) : (b.updSec f).mds = b.mds := rfl
@[simp] theorem updSec_ports (f : SecSt → SecSt) : (b.updSec f).ports = b.ports := rfl
@[simp] theorem updSec_takes (f : SecSt → SecSt) : (b.updSec f).takes = b.takes := rfl
@[simp] theorem updSec_routers (f : SecSt → SecSt) : (b.updSec f).routers = b.routers := rfl
@[simp] theorem updSec_inbox (f : SecSt → SecSt) : (b.updSec f).inbox = b.inbox := rfl
@[simp] theorem updSec_crossing (f : SecSt → SecSt) : (b.updSec f).crossing = b.crossing := rfl
@[simp] theorem updSec_coll (f : SecSt → SecSt) : (b.updSec f).coll = b.coll := rfl
@[simp] theorem updSec_journal (f : SecSt → SecSt) : (b.updSec f).journal = b.journal := rfl
@[simp] theorem updSec_run (f : SecSt → SecSt) : (b.updSec f).run = b.run := rfl
@[simp] theorem updSec_scale (f : SecSt → SecSt) : (b.updSec f).scale = b.scale := rfl
@[simp] theorem updSec_ras (f : SecSt → SecSt) : (b.updSec f).ras = b.ras := rfl
@[simp] theorem updSec_power (f : SecSt → SecSt) : (b.updSec f).power = b.power := rfl
@[simp] theorem updSec_sec (f : SecSt → SecSt) : (b.updSec f).sec = f b.sec := rfl
@[simp] theorem updSec_host (f : SecSt → SecSt) : (b.updSec f).host = b.host := rfl
@[simp] theorem updSec_mgmt (f : SecSt → SecSt) : (b.updSec f).mgmt = b.mgmt := rfl
@[simp] theorem updSec_rst (f : SecSt → SecSt) : (b.updSec f).rst = b.rst := rfl
@[simp] theorem updSec_out (f : SecSt → SecSt) : (b.updSec f).out = b.out := rfl
@[simp] theorem updSec_freeCtr (f : SecSt → SecSt) : (b.updSec f).freeCtr = b.freeCtr := rfl
@[simp] theorem updSec_reg (f : SecSt → SecSt) (r : Reg) : (b.updSec f).reg r = b.reg r := rfl
@[simp] theorem updSec_rd (f : SecSt → SecSt) (x : Fld) : (b.updSec f).rd x = b.rd x := rfl
@[simp] theorem updSec_on (f : SecSt → SecSt) (x : Fld) : (b.updSec f).on x = b.on x := rfl
@[simp] theorem updSec_rdI (f : SecSt → SecSt) (x : Fld) : (b.updSec f).rdI x = b.rdI x := rfl
@[simp] theorem updSec_byte (f : SecSt → SecSt) (a : Nat) : (b.updSec f).byte a = b.byte a := rfl
@[simp] theorem updSec_core (f : SecSt → SecSt) (c : Nat) : (b.updSec f).core c = b.core c := rfl
@[simp] theorem updSec_port (f : SecSt → SecSt) (q : Nat) : (b.updSec f).port q = b.port q := rfl
@[simp] theorem updSec_now (f : SecSt → SecSt) : (b.updSec f).now = b.now := rfl

@[simp] theorem updHost_part (f : HostSt → HostSt) : (b.updHost f).part = b.part := rfl
@[simp] theorem updHost_regs (f : HostSt → HostSt) : (b.updHost f).regs = b.regs := rfl
@[simp] theorem updHost_mem (f : HostSt → HostSt) : (b.updHost f).mem = b.mem := rfl
@[simp] theorem updHost_err (f : HostSt → HostSt) : (b.updHost f).err = b.err := rfl
@[simp] theorem updHost_flash (f : HostSt → HostSt) : (b.updHost f).flash = b.flash := rfl
@[simp] theorem updHost_ev (f : HostSt → HostSt) : (b.updHost f).ev = b.ev := rfl
@[simp] theorem updHost_time (f : HostSt → HostSt) : (b.updHost f).time = b.time := rfl
@[simp] theorem updHost_sched (f : HostSt → HostSt) : (b.updHost f).sched = b.sched := rfl
@[simp] theorem updHost_cores (f : HostSt → HostSt) : (b.updHost f).cores = b.cores := rfl
@[simp] theorem updHost_vote (f : HostSt → HostSt) : (b.updHost f).vote = b.vote := rfl
@[simp] theorem updHost_regions (f : HostSt → HostSt) : (b.updHost f).regions = b.regions := rfl
@[simp] theorem updHost_xfers (f : HostSt → HostSt) : (b.updHost f).xfers = b.xfers := rfl
@[simp] theorem updHost_nextXfer (f : HostSt → HostSt) : (b.updHost f).nextXfer = b.nextXfer := rfl
@[simp] theorem updHost_claims (f : HostSt → HostSt) : (b.updHost f).claims = b.claims := rfl
@[simp] theorem updHost_checks (f : HostSt → HostSt) : (b.updHost f).checks = b.checks := rfl
@[simp] theorem updHost_gath (f : HostSt → HostSt) : (b.updHost f).gath = b.gath := rfl
@[simp] theorem updHost_ncache (f : HostSt → HostSt) : (b.updHost f).ncache = b.ncache := rfl
@[simp] theorem updHost_memReqs (f : HostSt → HostSt) : (b.updHost f).memReqs = b.memReqs := rfl
@[simp] theorem updHost_mds (f : HostSt → HostSt) : (b.updHost f).mds = b.mds := rfl
@[simp] theorem updHost_ports (f : HostSt → HostSt) : (b.updHost f).ports = b.ports := rfl
@[simp] theorem updHost_takes (f : HostSt → HostSt) : (b.updHost f).takes = b.takes := rfl
@[simp] theorem updHost_routers (f : HostSt → HostSt) : (b.updHost f).routers = b.routers := rfl
@[simp] theorem updHost_inbox (f : HostSt → HostSt) : (b.updHost f).inbox = b.inbox := rfl
@[simp] theorem updHost_crossing (f : HostSt → HostSt) : (b.updHost f).crossing = b.crossing := rfl
@[simp] theorem updHost_coll (f : HostSt → HostSt) : (b.updHost f).coll = b.coll := rfl
@[simp] theorem updHost_journal (f : HostSt → HostSt) : (b.updHost f).journal = b.journal := rfl
@[simp] theorem updHost_run (f : HostSt → HostSt) : (b.updHost f).run = b.run := rfl
@[simp] theorem updHost_scale (f : HostSt → HostSt) : (b.updHost f).scale = b.scale := rfl
@[simp] theorem updHost_ras (f : HostSt → HostSt) : (b.updHost f).ras = b.ras := rfl
@[simp] theorem updHost_power (f : HostSt → HostSt) : (b.updHost f).power = b.power := rfl
@[simp] theorem updHost_sec (f : HostSt → HostSt) : (b.updHost f).sec = b.sec := rfl
@[simp] theorem updHost_host (f : HostSt → HostSt) : (b.updHost f).host = f b.host := rfl
@[simp] theorem updHost_mgmt (f : HostSt → HostSt) : (b.updHost f).mgmt = b.mgmt := rfl
@[simp] theorem updHost_rst (f : HostSt → HostSt) : (b.updHost f).rst = b.rst := rfl
@[simp] theorem updHost_out (f : HostSt → HostSt) : (b.updHost f).out = b.out := rfl
@[simp] theorem updHost_freeCtr (f : HostSt → HostSt) : (b.updHost f).freeCtr = b.freeCtr := rfl
@[simp] theorem updHost_reg (f : HostSt → HostSt) (r : Reg) : (b.updHost f).reg r = b.reg r := rfl
@[simp] theorem updHost_rd (f : HostSt → HostSt) (x : Fld) : (b.updHost f).rd x = b.rd x := rfl
@[simp] theorem updHost_on (f : HostSt → HostSt) (x : Fld) : (b.updHost f).on x = b.on x := rfl
@[simp] theorem updHost_rdI (f : HostSt → HostSt) (x : Fld) : (b.updHost f).rdI x = b.rdI x := rfl
@[simp] theorem updHost_byte (f : HostSt → HostSt) (a : Nat) : (b.updHost f).byte a = b.byte a := rfl
@[simp] theorem updHost_core (f : HostSt → HostSt) (c : Nat) : (b.updHost f).core c = b.core c := rfl
@[simp] theorem updHost_port (f : HostSt → HostSt) (q : Nat) : (b.updHost f).port q = b.port q := rfl
@[simp] theorem updHost_now (f : HostSt → HostSt) : (b.updHost f).now = b.now := rfl

@[simp] theorem updMgmt_part (f : MgmtSt → MgmtSt) : (b.updMgmt f).part = b.part := rfl
@[simp] theorem updMgmt_regs (f : MgmtSt → MgmtSt) : (b.updMgmt f).regs = b.regs := rfl
@[simp] theorem updMgmt_mem (f : MgmtSt → MgmtSt) : (b.updMgmt f).mem = b.mem := rfl
@[simp] theorem updMgmt_err (f : MgmtSt → MgmtSt) : (b.updMgmt f).err = b.err := rfl
@[simp] theorem updMgmt_flash (f : MgmtSt → MgmtSt) : (b.updMgmt f).flash = b.flash := rfl
@[simp] theorem updMgmt_ev (f : MgmtSt → MgmtSt) : (b.updMgmt f).ev = b.ev := rfl
@[simp] theorem updMgmt_time (f : MgmtSt → MgmtSt) : (b.updMgmt f).time = b.time := rfl
@[simp] theorem updMgmt_sched (f : MgmtSt → MgmtSt) : (b.updMgmt f).sched = b.sched := rfl
@[simp] theorem updMgmt_cores (f : MgmtSt → MgmtSt) : (b.updMgmt f).cores = b.cores := rfl
@[simp] theorem updMgmt_vote (f : MgmtSt → MgmtSt) : (b.updMgmt f).vote = b.vote := rfl
@[simp] theorem updMgmt_regions (f : MgmtSt → MgmtSt) : (b.updMgmt f).regions = b.regions := rfl
@[simp] theorem updMgmt_xfers (f : MgmtSt → MgmtSt) : (b.updMgmt f).xfers = b.xfers := rfl
@[simp] theorem updMgmt_nextXfer (f : MgmtSt → MgmtSt) : (b.updMgmt f).nextXfer = b.nextXfer := rfl
@[simp] theorem updMgmt_claims (f : MgmtSt → MgmtSt) : (b.updMgmt f).claims = b.claims := rfl
@[simp] theorem updMgmt_checks (f : MgmtSt → MgmtSt) : (b.updMgmt f).checks = b.checks := rfl
@[simp] theorem updMgmt_gath (f : MgmtSt → MgmtSt) : (b.updMgmt f).gath = b.gath := rfl
@[simp] theorem updMgmt_ncache (f : MgmtSt → MgmtSt) : (b.updMgmt f).ncache = b.ncache := rfl
@[simp] theorem updMgmt_memReqs (f : MgmtSt → MgmtSt) : (b.updMgmt f).memReqs = b.memReqs := rfl
@[simp] theorem updMgmt_mds (f : MgmtSt → MgmtSt) : (b.updMgmt f).mds = b.mds := rfl
@[simp] theorem updMgmt_ports (f : MgmtSt → MgmtSt) : (b.updMgmt f).ports = b.ports := rfl
@[simp] theorem updMgmt_takes (f : MgmtSt → MgmtSt) : (b.updMgmt f).takes = b.takes := rfl
@[simp] theorem updMgmt_routers (f : MgmtSt → MgmtSt) : (b.updMgmt f).routers = b.routers := rfl
@[simp] theorem updMgmt_inbox (f : MgmtSt → MgmtSt) : (b.updMgmt f).inbox = b.inbox := rfl
@[simp] theorem updMgmt_crossing (f : MgmtSt → MgmtSt) : (b.updMgmt f).crossing = b.crossing := rfl
@[simp] theorem updMgmt_coll (f : MgmtSt → MgmtSt) : (b.updMgmt f).coll = b.coll := rfl
@[simp] theorem updMgmt_journal (f : MgmtSt → MgmtSt) : (b.updMgmt f).journal = b.journal := rfl
@[simp] theorem updMgmt_run (f : MgmtSt → MgmtSt) : (b.updMgmt f).run = b.run := rfl
@[simp] theorem updMgmt_scale (f : MgmtSt → MgmtSt) : (b.updMgmt f).scale = b.scale := rfl
@[simp] theorem updMgmt_ras (f : MgmtSt → MgmtSt) : (b.updMgmt f).ras = b.ras := rfl
@[simp] theorem updMgmt_power (f : MgmtSt → MgmtSt) : (b.updMgmt f).power = b.power := rfl
@[simp] theorem updMgmt_sec (f : MgmtSt → MgmtSt) : (b.updMgmt f).sec = b.sec := rfl
@[simp] theorem updMgmt_host (f : MgmtSt → MgmtSt) : (b.updMgmt f).host = b.host := rfl
@[simp] theorem updMgmt_mgmt (f : MgmtSt → MgmtSt) : (b.updMgmt f).mgmt = f b.mgmt := rfl
@[simp] theorem updMgmt_rst (f : MgmtSt → MgmtSt) : (b.updMgmt f).rst = b.rst := rfl
@[simp] theorem updMgmt_out (f : MgmtSt → MgmtSt) : (b.updMgmt f).out = b.out := rfl
@[simp] theorem updMgmt_freeCtr (f : MgmtSt → MgmtSt) : (b.updMgmt f).freeCtr = b.freeCtr := rfl
@[simp] theorem updMgmt_reg (f : MgmtSt → MgmtSt) (r : Reg) : (b.updMgmt f).reg r = b.reg r := rfl
@[simp] theorem updMgmt_rd (f : MgmtSt → MgmtSt) (x : Fld) : (b.updMgmt f).rd x = b.rd x := rfl
@[simp] theorem updMgmt_on (f : MgmtSt → MgmtSt) (x : Fld) : (b.updMgmt f).on x = b.on x := rfl
@[simp] theorem updMgmt_rdI (f : MgmtSt → MgmtSt) (x : Fld) : (b.updMgmt f).rdI x = b.rdI x := rfl
@[simp] theorem updMgmt_byte (f : MgmtSt → MgmtSt) (a : Nat) : (b.updMgmt f).byte a = b.byte a := rfl
@[simp] theorem updMgmt_core (f : MgmtSt → MgmtSt) (c : Nat) : (b.updMgmt f).core c = b.core c := rfl
@[simp] theorem updMgmt_port (f : MgmtSt → MgmtSt) (q : Nat) : (b.updMgmt f).port q = b.port q := rfl
@[simp] theorem updMgmt_now (f : MgmtSt → MgmtSt) : (b.updMgmt f).now = b.now := rfl

@[simp] theorem updRst_part (f : RstSt → RstSt) : (b.updRst f).part = b.part := rfl
@[simp] theorem updRst_regs (f : RstSt → RstSt) : (b.updRst f).regs = b.regs := rfl
@[simp] theorem updRst_mem (f : RstSt → RstSt) : (b.updRst f).mem = b.mem := rfl
@[simp] theorem updRst_err (f : RstSt → RstSt) : (b.updRst f).err = b.err := rfl
@[simp] theorem updRst_flash (f : RstSt → RstSt) : (b.updRst f).flash = b.flash := rfl
@[simp] theorem updRst_ev (f : RstSt → RstSt) : (b.updRst f).ev = b.ev := rfl
@[simp] theorem updRst_time (f : RstSt → RstSt) : (b.updRst f).time = b.time := rfl
@[simp] theorem updRst_sched (f : RstSt → RstSt) : (b.updRst f).sched = b.sched := rfl
@[simp] theorem updRst_cores (f : RstSt → RstSt) : (b.updRst f).cores = b.cores := rfl
@[simp] theorem updRst_vote (f : RstSt → RstSt) : (b.updRst f).vote = b.vote := rfl
@[simp] theorem updRst_regions (f : RstSt → RstSt) : (b.updRst f).regions = b.regions := rfl
@[simp] theorem updRst_xfers (f : RstSt → RstSt) : (b.updRst f).xfers = b.xfers := rfl
@[simp] theorem updRst_nextXfer (f : RstSt → RstSt) : (b.updRst f).nextXfer = b.nextXfer := rfl
@[simp] theorem updRst_claims (f : RstSt → RstSt) : (b.updRst f).claims = b.claims := rfl
@[simp] theorem updRst_checks (f : RstSt → RstSt) : (b.updRst f).checks = b.checks := rfl
@[simp] theorem updRst_gath (f : RstSt → RstSt) : (b.updRst f).gath = b.gath := rfl
@[simp] theorem updRst_ncache (f : RstSt → RstSt) : (b.updRst f).ncache = b.ncache := rfl
@[simp] theorem updRst_memReqs (f : RstSt → RstSt) : (b.updRst f).memReqs = b.memReqs := rfl
@[simp] theorem updRst_mds (f : RstSt → RstSt) : (b.updRst f).mds = b.mds := rfl
@[simp] theorem updRst_ports (f : RstSt → RstSt) : (b.updRst f).ports = b.ports := rfl
@[simp] theorem updRst_takes (f : RstSt → RstSt) : (b.updRst f).takes = b.takes := rfl
@[simp] theorem updRst_routers (f : RstSt → RstSt) : (b.updRst f).routers = b.routers := rfl
@[simp] theorem updRst_inbox (f : RstSt → RstSt) : (b.updRst f).inbox = b.inbox := rfl
@[simp] theorem updRst_crossing (f : RstSt → RstSt) : (b.updRst f).crossing = b.crossing := rfl
@[simp] theorem updRst_coll (f : RstSt → RstSt) : (b.updRst f).coll = b.coll := rfl
@[simp] theorem updRst_journal (f : RstSt → RstSt) : (b.updRst f).journal = b.journal := rfl
@[simp] theorem updRst_run (f : RstSt → RstSt) : (b.updRst f).run = b.run := rfl
@[simp] theorem updRst_scale (f : RstSt → RstSt) : (b.updRst f).scale = b.scale := rfl
@[simp] theorem updRst_ras (f : RstSt → RstSt) : (b.updRst f).ras = b.ras := rfl
@[simp] theorem updRst_power (f : RstSt → RstSt) : (b.updRst f).power = b.power := rfl
@[simp] theorem updRst_sec (f : RstSt → RstSt) : (b.updRst f).sec = b.sec := rfl
@[simp] theorem updRst_host (f : RstSt → RstSt) : (b.updRst f).host = b.host := rfl
@[simp] theorem updRst_mgmt (f : RstSt → RstSt) : (b.updRst f).mgmt = b.mgmt := rfl
@[simp] theorem updRst_rst (f : RstSt → RstSt) : (b.updRst f).rst = f b.rst := rfl
@[simp] theorem updRst_out (f : RstSt → RstSt) : (b.updRst f).out = b.out := rfl
@[simp] theorem updRst_freeCtr (f : RstSt → RstSt) : (b.updRst f).freeCtr = b.freeCtr := rfl
@[simp] theorem updRst_reg (f : RstSt → RstSt) (r : Reg) : (b.updRst f).reg r = b.reg r := rfl
@[simp] theorem updRst_rd (f : RstSt → RstSt) (x : Fld) : (b.updRst f).rd x = b.rd x := rfl
@[simp] theorem updRst_on (f : RstSt → RstSt) (x : Fld) : (b.updRst f).on x = b.on x := rfl
@[simp] theorem updRst_rdI (f : RstSt → RstSt) (x : Fld) : (b.updRst f).rdI x = b.rdI x := rfl
@[simp] theorem updRst_byte (f : RstSt → RstSt) (a : Nat) : (b.updRst f).byte a = b.byte a := rfl
@[simp] theorem updRst_core (f : RstSt → RstSt) (c : Nat) : (b.updRst f).core c = b.core c := rfl
@[simp] theorem updRst_port (f : RstSt → RstSt) (q : Nat) : (b.updRst f).port q = b.port q := rfl
@[simp] theorem updRst_now (f : RstSt → RstSt) : (b.updRst f).now = b.now := rfl

@[simp] theorem updJournal_part (f : Journal → Journal) : (b.updJournal f).part = b.part := rfl
@[simp] theorem updJournal_regs (f : Journal → Journal) : (b.updJournal f).regs = b.regs := rfl
@[simp] theorem updJournal_mem (f : Journal → Journal) : (b.updJournal f).mem = b.mem := rfl
@[simp] theorem updJournal_err (f : Journal → Journal) : (b.updJournal f).err = b.err := rfl
@[simp] theorem updJournal_flash (f : Journal → Journal) : (b.updJournal f).flash = b.flash := rfl
@[simp] theorem updJournal_ev (f : Journal → Journal) : (b.updJournal f).ev = b.ev := rfl
@[simp] theorem updJournal_time (f : Journal → Journal) : (b.updJournal f).time = b.time := rfl
@[simp] theorem updJournal_sched (f : Journal → Journal) : (b.updJournal f).sched = b.sched := rfl
@[simp] theorem updJournal_cores (f : Journal → Journal) : (b.updJournal f).cores = b.cores := rfl
@[simp] theorem updJournal_vote (f : Journal → Journal) : (b.updJournal f).vote = b.vote := rfl
@[simp] theorem updJournal_regions (f : Journal → Journal) : (b.updJournal f).regions = b.regions := rfl
@[simp] theorem updJournal_xfers (f : Journal → Journal) : (b.updJournal f).xfers = b.xfers := rfl
@[simp] theorem updJournal_nextXfer (f : Journal → Journal) : (b.updJournal f).nextXfer = b.nextXfer := rfl
@[simp] theorem updJournal_claims (f : Journal → Journal) : (b.updJournal f).claims = b.claims := rfl
@[simp] theorem updJournal_checks (f : Journal → Journal) : (b.updJournal f).checks = b.checks := rfl
@[simp] theorem updJournal_gath (f : Journal → Journal) : (b.updJournal f).gath = b.gath := rfl
@[simp] theorem updJournal_ncache (f : Journal → Journal) : (b.updJournal f).ncache = b.ncache := rfl
@[simp] theorem updJournal_memReqs (f : Journal → Journal) : (b.updJournal f).memReqs = b.memReqs := rfl
@[simp] theorem updJournal_mds (f : Journal → Journal) : (b.updJournal f).mds = b.mds := rfl
@[simp] theorem updJournal_ports (f : Journal → Journal) : (b.updJournal f).ports = b.ports := rfl
@[simp] theorem updJournal_takes (f : Journal → Journal) : (b.updJournal f).takes = b.takes := rfl
@[simp] theorem updJournal_routers (f : Journal → Journal) : (b.updJournal f).routers = b.routers := rfl
@[simp] theorem updJournal_inbox (f : Journal → Journal) : (b.updJournal f).inbox = b.inbox := rfl
@[simp] theorem updJournal_crossing (f : Journal → Journal) : (b.updJournal f).crossing = b.crossing := rfl
@[simp] theorem updJournal_coll (f : Journal → Journal) : (b.updJournal f).coll = b.coll := rfl
@[simp] theorem updJournal_journal (f : Journal → Journal) : (b.updJournal f).journal = f b.journal := rfl
@[simp] theorem updJournal_run (f : Journal → Journal) : (b.updJournal f).run = b.run := rfl
@[simp] theorem updJournal_scale (f : Journal → Journal) : (b.updJournal f).scale = b.scale := rfl
@[simp] theorem updJournal_ras (f : Journal → Journal) : (b.updJournal f).ras = b.ras := rfl
@[simp] theorem updJournal_power (f : Journal → Journal) : (b.updJournal f).power = b.power := rfl
@[simp] theorem updJournal_sec (f : Journal → Journal) : (b.updJournal f).sec = b.sec := rfl
@[simp] theorem updJournal_host (f : Journal → Journal) : (b.updJournal f).host = b.host := rfl
@[simp] theorem updJournal_mgmt (f : Journal → Journal) : (b.updJournal f).mgmt = b.mgmt := rfl
@[simp] theorem updJournal_rst (f : Journal → Journal) : (b.updJournal f).rst = b.rst := rfl
@[simp] theorem updJournal_out (f : Journal → Journal) : (b.updJournal f).out = b.out := rfl
@[simp] theorem updJournal_freeCtr (f : Journal → Journal) : (b.updJournal f).freeCtr = b.freeCtr := rfl
@[simp] theorem updJournal_reg (f : Journal → Journal) (r : Reg) : (b.updJournal f).reg r = b.reg r := rfl
@[simp] theorem updJournal_rd (f : Journal → Journal) (x : Fld) : (b.updJournal f).rd x = b.rd x := rfl
@[simp] theorem updJournal_on (f : Journal → Journal) (x : Fld) : (b.updJournal f).on x = b.on x := rfl
@[simp] theorem updJournal_rdI (f : Journal → Journal) (x : Fld) : (b.updJournal f).rdI x = b.rdI x := rfl
@[simp] theorem updJournal_byte (f : Journal → Journal) (a : Nat) : (b.updJournal f).byte a = b.byte a := rfl
@[simp] theorem updJournal_core (f : Journal → Journal) (c : Nat) : (b.updJournal f).core c = b.core c := rfl
@[simp] theorem updJournal_port (f : Journal → Journal) (q : Nat) : (b.updJournal f).port q = b.port q := rfl
@[simp] theorem updJournal_now (f : Journal → Journal) : (b.updJournal f).now = b.now := rfl

@[simp] theorem updPort_part (p : Nat) (f : PortSt → PortSt) : (b.updPort p f).part = b.part := rfl
@[simp] theorem updPort_regs (p : Nat) (f : PortSt → PortSt) : (b.updPort p f).regs = b.regs := rfl
@[simp] theorem updPort_mem (p : Nat) (f : PortSt → PortSt) : (b.updPort p f).mem = b.mem := rfl
@[simp] theorem updPort_err (p : Nat) (f : PortSt → PortSt) : (b.updPort p f).err = b.err := rfl
@[simp] theorem updPort_flash (p : Nat) (f : PortSt → PortSt) : (b.updPort p f).flash = b.flash := rfl
@[simp] theorem updPort_ev (p : Nat) (f : PortSt → PortSt) : (b.updPort p f).ev = b.ev := rfl
@[simp] theorem updPort_time (p : Nat) (f : PortSt → PortSt) : (b.updPort p f).time = b.time := rfl
@[simp] theorem updPort_sched (p : Nat) (f : PortSt → PortSt) : (b.updPort p f).sched = b.sched := rfl
@[simp] theorem updPort_cores (p : Nat) (f : PortSt → PortSt) : (b.updPort p f).cores = b.cores := rfl
@[simp] theorem updPort_vote (p : Nat) (f : PortSt → PortSt) : (b.updPort p f).vote = b.vote := rfl
@[simp] theorem updPort_regions (p : Nat) (f : PortSt → PortSt) : (b.updPort p f).regions = b.regions := rfl
@[simp] theorem updPort_xfers (p : Nat) (f : PortSt → PortSt) : (b.updPort p f).xfers = b.xfers := rfl
@[simp] theorem updPort_nextXfer (p : Nat) (f : PortSt → PortSt) : (b.updPort p f).nextXfer = b.nextXfer := rfl
@[simp] theorem updPort_claims (p : Nat) (f : PortSt → PortSt) : (b.updPort p f).claims = b.claims := rfl
@[simp] theorem updPort_checks (p : Nat) (f : PortSt → PortSt) : (b.updPort p f).checks = b.checks := rfl
@[simp] theorem updPort_gath (p : Nat) (f : PortSt → PortSt) : (b.updPort p f).gath = b.gath := rfl
@[simp] theorem updPort_ncache (p : Nat) (f : PortSt → PortSt) : (b.updPort p f).ncache = b.ncache := rfl
@[simp] theorem updPort_memReqs (p : Nat) (f : PortSt → PortSt) : (b.updPort p f).memReqs = b.memReqs := rfl
@[simp] theorem updPort_mds (p : Nat) (f : PortSt → PortSt) : (b.updPort p f).mds = b.mds := rfl
@[simp] theorem updPort_takes (p : Nat) (f : PortSt → PortSt) : (b.updPort p f).takes = b.takes := rfl
@[simp] theorem updPort_routers (p : Nat) (f : PortSt → PortSt) : (b.updPort p f).routers = b.routers := rfl
@[simp] theorem updPort_inbox (p : Nat) (f : PortSt → PortSt) : (b.updPort p f).inbox = b.inbox := rfl
@[simp] theorem updPort_crossing (p : Nat) (f : PortSt → PortSt) : (b.updPort p f).crossing = b.crossing := rfl
@[simp] theorem updPort_coll (p : Nat) (f : PortSt → PortSt) : (b.updPort p f).coll = b.coll := rfl
@[simp] theorem updPort_journal (p : Nat) (f : PortSt → PortSt) : (b.updPort p f).journal = b.journal := rfl
@[simp] theorem updPort_run (p : Nat) (f : PortSt → PortSt) : (b.updPort p f).run = b.run := rfl
@[simp] theorem updPort_scale (p : Nat) (f : PortSt → PortSt) : (b.updPort p f).scale = b.scale := rfl
@[simp] theorem updPort_ras (p : Nat) (f : PortSt → PortSt) : (b.updPort p f).ras = b.ras := rfl
@[simp] theorem updPort_power (p : Nat) (f : PortSt → PortSt) : (b.updPort p f).power = b.power := rfl
@[simp] theorem updPort_sec (p : Nat) (f : PortSt → PortSt) : (b.updPort p f).sec = b.sec := rfl
@[simp] theorem updPort_host (p : Nat) (f : PortSt → PortSt) : (b.updPort p f).host = b.host := rfl
@[simp] theorem updPort_mgmt (p : Nat) (f : PortSt → PortSt) : (b.updPort p f).mgmt = b.mgmt := rfl
@[simp] theorem updPort_rst (p : Nat) (f : PortSt → PortSt) : (b.updPort p f).rst = b.rst := rfl
@[simp] theorem updPort_out (p : Nat) (f : PortSt → PortSt) : (b.updPort p f).out = b.out := rfl
@[simp] theorem updPort_freeCtr (p : Nat) (f : PortSt → PortSt) : (b.updPort p f).freeCtr = b.freeCtr := rfl
@[simp] theorem updPort_reg (p : Nat) (f : PortSt → PortSt) (r : Reg) : (b.updPort p f).reg r = b.reg r := rfl
@[simp] theorem updPort_rd (p : Nat) (f : PortSt → PortSt) (x : Fld) : (b.updPort p f).rd x = b.rd x := rfl
@[simp] theorem updPort_on (p : Nat) (f : PortSt → PortSt) (x : Fld) : (b.updPort p f).on x = b.on x := rfl
@[simp] theorem updPort_rdI (p : Nat) (f : PortSt → PortSt) (x : Fld) : (b.updPort p f).rdI x = b.rdI x := rfl
@[simp] theorem updPort_byte (p : Nat) (f : PortSt → PortSt) (a : Nat) : (b.updPort p f).byte a = b.byte a := rfl
@[simp] theorem updPort_core (p : Nat) (f : PortSt → PortSt) (c : Nat) : (b.updPort p f).core c = b.core c := rfl
@[simp] theorem updPort_now (p : Nat) (f : PortSt → PortSt) : (b.updPort p f).now = b.now := rfl

@[simp] theorem updPtime_part (p : Nat) (f : PortTime → PortTime) : (b.updPtime p f).part = b.part := rfl
@[simp] theorem updPtime_regs (p : Nat) (f : PortTime → PortTime) : (b.updPtime p f).regs = b.regs := rfl
@[simp] theorem updPtime_mem (p : Nat) (f : PortTime → PortTime) : (b.updPtime p f).mem = b.mem := rfl
@[simp] theorem updPtime_err (p : Nat) (f : PortTime → PortTime) : (b.updPtime p f).err = b.err := rfl
@[simp] theorem updPtime_flash (p : Nat) (f : PortTime → PortTime) : (b.updPtime p f).flash = b.flash := rfl
@[simp] theorem updPtime_ev (p : Nat) (f : PortTime → PortTime) : (b.updPtime p f).ev = b.ev := rfl
@[simp] theorem updPtime_sched (p : Nat) (f : PortTime → PortTime) : (b.updPtime p f).sched = b.sched := rfl
@[simp] theorem updPtime_cores (p : Nat) (f : PortTime → PortTime) : (b.updPtime p f).cores = b.cores := rfl
@[simp] theorem updPtime_vote (p : Nat) (f : PortTime → PortTime) : (b.updPtime p f).vote = b.vote := rfl
@[simp] theorem updPtime_regions (p : Nat) (f : PortTime → PortTime) : (b.updPtime p f).regions = b.regions := rfl
@[simp] theorem updPtime_xfers (p : Nat) (f : PortTime → PortTime) : (b.updPtime p f).xfers = b.xfers := rfl
@[simp] theorem updPtime_nextXfer (p : Nat) (f : PortTime → PortTime) : (b.updPtime p f).nextXfer = b.nextXfer := rfl
@[simp] theorem updPtime_claims (p : Nat) (f : PortTime → PortTime) : (b.updPtime p f).claims = b.claims := rfl
@[simp] theorem updPtime_checks (p : Nat) (f : PortTime → PortTime) : (b.updPtime p f).checks = b.checks := rfl
@[simp] theorem updPtime_gath (p : Nat) (f : PortTime → PortTime) : (b.updPtime p f).gath = b.gath := rfl
@[simp] theorem updPtime_ncache (p : Nat) (f : PortTime → PortTime) : (b.updPtime p f).ncache = b.ncache := rfl
@[simp] theorem updPtime_memReqs (p : Nat) (f : PortTime → PortTime) : (b.updPtime p f).memReqs = b.memReqs := rfl
@[simp] theorem updPtime_mds (p : Nat) (f : PortTime → PortTime) : (b.updPtime p f).mds = b.mds := rfl
@[simp] theorem updPtime_ports (p : Nat) (f : PortTime → PortTime) : (b.updPtime p f).ports = b.ports := rfl
@[simp] theorem updPtime_takes (p : Nat) (f : PortTime → PortTime) : (b.updPtime p f).takes = b.takes := rfl
@[simp] theorem updPtime_routers (p : Nat) (f : PortTime → PortTime) : (b.updPtime p f).routers = b.routers := rfl
@[simp] theorem updPtime_inbox (p : Nat) (f : PortTime → PortTime) : (b.updPtime p f).inbox = b.inbox := rfl
@[simp] theorem updPtime_crossing (p : Nat) (f : PortTime → PortTime) : (b.updPtime p f).crossing = b.crossing := rfl
@[simp] theorem updPtime_coll (p : Nat) (f : PortTime → PortTime) : (b.updPtime p f).coll = b.coll := rfl
@[simp] theorem updPtime_journal (p : Nat) (f : PortTime → PortTime) : (b.updPtime p f).journal = b.journal := rfl
@[simp] theorem updPtime_run (p : Nat) (f : PortTime → PortTime) : (b.updPtime p f).run = b.run := rfl
@[simp] theorem updPtime_scale (p : Nat) (f : PortTime → PortTime) : (b.updPtime p f).scale = b.scale := rfl
@[simp] theorem updPtime_ras (p : Nat) (f : PortTime → PortTime) : (b.updPtime p f).ras = b.ras := rfl
@[simp] theorem updPtime_power (p : Nat) (f : PortTime → PortTime) : (b.updPtime p f).power = b.power := rfl
@[simp] theorem updPtime_sec (p : Nat) (f : PortTime → PortTime) : (b.updPtime p f).sec = b.sec := rfl
@[simp] theorem updPtime_host (p : Nat) (f : PortTime → PortTime) : (b.updPtime p f).host = b.host := rfl
@[simp] theorem updPtime_mgmt (p : Nat) (f : PortTime → PortTime) : (b.updPtime p f).mgmt = b.mgmt := rfl
@[simp] theorem updPtime_rst (p : Nat) (f : PortTime → PortTime) : (b.updPtime p f).rst = b.rst := rfl
@[simp] theorem updPtime_out (p : Nat) (f : PortTime → PortTime) : (b.updPtime p f).out = b.out := rfl
@[simp] theorem updPtime_freeCtr (p : Nat) (f : PortTime → PortTime) : (b.updPtime p f).freeCtr = b.freeCtr := rfl
@[simp] theorem updPtime_reg (p : Nat) (f : PortTime → PortTime) (r : Reg) : (b.updPtime p f).reg r = b.reg r := rfl
@[simp] theorem updPtime_rd (p : Nat) (f : PortTime → PortTime) (x : Fld) : (b.updPtime p f).rd x = b.rd x := rfl
@[simp] theorem updPtime_on (p : Nat) (f : PortTime → PortTime) (x : Fld) : (b.updPtime p f).on x = b.on x := rfl
@[simp] theorem updPtime_rdI (p : Nat) (f : PortTime → PortTime) (x : Fld) : (b.updPtime p f).rdI x = b.rdI x := rfl
@[simp] theorem updPtime_byte (p : Nat) (f : PortTime → PortTime) (a : Nat) : (b.updPtime p f).byte a = b.byte a := rfl
@[simp] theorem updPtime_core (p : Nat) (f : PortTime → PortTime) (c : Nat) : (b.updPtime p f).core c = b.core c := rfl
@[simp] theorem updPtime_port (p : Nat) (f : PortTime → PortTime) (q : Nat) : (b.updPtime p f).port q = b.port q := rfl

@[simp] theorem updRouter_part (n : Nat) (f : RouterSt → RouterSt) : (b.updRouter n f).part = b.part := rfl
@[simp] theorem updRouter_regs (n : Nat) (f : RouterSt → RouterSt) : (b.updRouter n f).regs = b.regs := rfl
@[simp] theorem updRouter_mem (n : Nat) (f : RouterSt → RouterSt) : (b.updRouter n f).mem = b.mem := rfl
@[simp] theorem updRouter_err (n : Nat) (f : RouterSt → RouterSt) : (b.updRouter n f).err = b.err := rfl
@[simp] theorem updRouter_flash (n : Nat) (f : RouterSt → RouterSt) : (b.updRouter n f).flash = b.flash := rfl
@[simp] theorem updRouter_ev (n : Nat) (f : RouterSt → RouterSt) : (b.updRouter n f).ev = b.ev := rfl
@[simp] theorem updRouter_time (n : Nat) (f : RouterSt → RouterSt) : (b.updRouter n f).time = b.time := rfl
@[simp] theorem updRouter_sched (n : Nat) (f : RouterSt → RouterSt) : (b.updRouter n f).sched = b.sched := rfl
@[simp] theorem updRouter_cores (n : Nat) (f : RouterSt → RouterSt) : (b.updRouter n f).cores = b.cores := rfl
@[simp] theorem updRouter_vote (n : Nat) (f : RouterSt → RouterSt) : (b.updRouter n f).vote = b.vote := rfl
@[simp] theorem updRouter_regions (n : Nat) (f : RouterSt → RouterSt) : (b.updRouter n f).regions = b.regions := rfl
@[simp] theorem updRouter_xfers (n : Nat) (f : RouterSt → RouterSt) : (b.updRouter n f).xfers = b.xfers := rfl
@[simp] theorem updRouter_nextXfer (n : Nat) (f : RouterSt → RouterSt) : (b.updRouter n f).nextXfer = b.nextXfer := rfl
@[simp] theorem updRouter_claims (n : Nat) (f : RouterSt → RouterSt) : (b.updRouter n f).claims = b.claims := rfl
@[simp] theorem updRouter_checks (n : Nat) (f : RouterSt → RouterSt) : (b.updRouter n f).checks = b.checks := rfl
@[simp] theorem updRouter_gath (n : Nat) (f : RouterSt → RouterSt) : (b.updRouter n f).gath = b.gath := rfl
@[simp] theorem updRouter_ncache (n : Nat) (f : RouterSt → RouterSt) : (b.updRouter n f).ncache = b.ncache := rfl
@[simp] theorem updRouter_memReqs (n : Nat) (f : RouterSt → RouterSt) : (b.updRouter n f).memReqs = b.memReqs := rfl
@[simp] theorem updRouter_mds (n : Nat) (f : RouterSt → RouterSt) : (b.updRouter n f).mds = b.mds := rfl
@[simp] theorem updRouter_ports (n : Nat) (f : RouterSt → RouterSt) : (b.updRouter n f).ports = b.ports := rfl
@[simp] theorem updRouter_takes (n : Nat) (f : RouterSt → RouterSt) : (b.updRouter n f).takes = b.takes := rfl
@[simp] theorem updRouter_inbox (n : Nat) (f : RouterSt → RouterSt) : (b.updRouter n f).inbox = b.inbox := rfl
@[simp] theorem updRouter_crossing (n : Nat) (f : RouterSt → RouterSt) : (b.updRouter n f).crossing = b.crossing := rfl
@[simp] theorem updRouter_coll (n : Nat) (f : RouterSt → RouterSt) : (b.updRouter n f).coll = b.coll := rfl
@[simp] theorem updRouter_journal (n : Nat) (f : RouterSt → RouterSt) : (b.updRouter n f).journal = b.journal := rfl
@[simp] theorem updRouter_run (n : Nat) (f : RouterSt → RouterSt) : (b.updRouter n f).run = b.run := rfl
@[simp] theorem updRouter_scale (n : Nat) (f : RouterSt → RouterSt) : (b.updRouter n f).scale = b.scale := rfl
@[simp] theorem updRouter_ras (n : Nat) (f : RouterSt → RouterSt) : (b.updRouter n f).ras = b.ras := rfl
@[simp] theorem updRouter_power (n : Nat) (f : RouterSt → RouterSt) : (b.updRouter n f).power = b.power := rfl
@[simp] theorem updRouter_sec (n : Nat) (f : RouterSt → RouterSt) : (b.updRouter n f).sec = b.sec := rfl
@[simp] theorem updRouter_host (n : Nat) (f : RouterSt → RouterSt) : (b.updRouter n f).host = b.host := rfl
@[simp] theorem updRouter_mgmt (n : Nat) (f : RouterSt → RouterSt) : (b.updRouter n f).mgmt = b.mgmt := rfl
@[simp] theorem updRouter_rst (n : Nat) (f : RouterSt → RouterSt) : (b.updRouter n f).rst = b.rst := rfl
@[simp] theorem updRouter_out (n : Nat) (f : RouterSt → RouterSt) : (b.updRouter n f).out = b.out := rfl
@[simp] theorem updRouter_freeCtr (n : Nat) (f : RouterSt → RouterSt) : (b.updRouter n f).freeCtr = b.freeCtr := rfl
@[simp] theorem updRouter_reg (n : Nat) (f : RouterSt → RouterSt) (r : Reg) : (b.updRouter n f).reg r = b.reg r := rfl
@[simp] theorem updRouter_rd (n : Nat) (f : RouterSt → RouterSt) (x : Fld) : (b.updRouter n f).rd x = b.rd x := rfl
@[simp] theorem updRouter_on (n : Nat) (f : RouterSt → RouterSt) (x : Fld) : (b.updRouter n f).on x = b.on x := rfl
@[simp] theorem updRouter_rdI (n : Nat) (f : RouterSt → RouterSt) (x : Fld) : (b.updRouter n f).rdI x = b.rdI x := rfl
@[simp] theorem updRouter_byte (n : Nat) (f : RouterSt → RouterSt) (a : Nat) : (b.updRouter n f).byte a = b.byte a := rfl
@[simp] theorem updRouter_core (n : Nat) (f : RouterSt → RouterSt) (c : Nat) : (b.updRouter n f).core c = b.core c := rfl
@[simp] theorem updRouter_port (n : Nat) (f : RouterSt → RouterSt) (q : Nat) : (b.updRouter n f).port q = b.port q := rfl
@[simp] theorem updRouter_now (n : Nat) (f : RouterSt → RouterSt) : (b.updRouter n f).now = b.now := rfl

@[simp] theorem updMd_part (n : Nat) (f : MdSt → MdSt) : (b.updMd n f).part = b.part := rfl
@[simp] theorem updMd_regs (n : Nat) (f : MdSt → MdSt) : (b.updMd n f).regs = b.regs := rfl
@[simp] theorem updMd_mem (n : Nat) (f : MdSt → MdSt) : (b.updMd n f).mem = b.mem := rfl
@[simp] theorem updMd_err (n : Nat) (f : MdSt → MdSt) : (b.updMd n f).err = b.err := rfl
@[simp] theorem updMd_flash (n : Nat) (f : MdSt → MdSt) : (b.updMd n f).flash = b.flash := rfl
@[simp] theorem updMd_ev (n : Nat) (f : MdSt → MdSt) : (b.updMd n f).ev = b.ev := rfl
@[simp] theorem updMd_time (n : Nat) (f : MdSt → MdSt) : (b.updMd n f).time = b.time := rfl
@[simp] theorem updMd_sched (n : Nat) (f : MdSt → MdSt) : (b.updMd n f).sched = b.sched := rfl
@[simp] theorem updMd_cores (n : Nat) (f : MdSt → MdSt) : (b.updMd n f).cores = b.cores := rfl
@[simp] theorem updMd_vote (n : Nat) (f : MdSt → MdSt) : (b.updMd n f).vote = b.vote := rfl
@[simp] theorem updMd_regions (n : Nat) (f : MdSt → MdSt) : (b.updMd n f).regions = b.regions := rfl
@[simp] theorem updMd_xfers (n : Nat) (f : MdSt → MdSt) : (b.updMd n f).xfers = b.xfers := rfl
@[simp] theorem updMd_nextXfer (n : Nat) (f : MdSt → MdSt) : (b.updMd n f).nextXfer = b.nextXfer := rfl
@[simp] theorem updMd_claims (n : Nat) (f : MdSt → MdSt) : (b.updMd n f).claims = b.claims := rfl
@[simp] theorem updMd_checks (n : Nat) (f : MdSt → MdSt) : (b.updMd n f).checks = b.checks := rfl
@[simp] theorem updMd_gath (n : Nat) (f : MdSt → MdSt) : (b.updMd n f).gath = b.gath := rfl
@[simp] theorem updMd_ncache (n : Nat) (f : MdSt → MdSt) : (b.updMd n f).ncache = b.ncache := rfl
@[simp] theorem updMd_memReqs (n : Nat) (f : MdSt → MdSt) : (b.updMd n f).memReqs = b.memReqs := rfl
@[simp] theorem updMd_ports (n : Nat) (f : MdSt → MdSt) : (b.updMd n f).ports = b.ports := rfl
@[simp] theorem updMd_takes (n : Nat) (f : MdSt → MdSt) : (b.updMd n f).takes = b.takes := rfl
@[simp] theorem updMd_routers (n : Nat) (f : MdSt → MdSt) : (b.updMd n f).routers = b.routers := rfl
@[simp] theorem updMd_inbox (n : Nat) (f : MdSt → MdSt) : (b.updMd n f).inbox = b.inbox := rfl
@[simp] theorem updMd_crossing (n : Nat) (f : MdSt → MdSt) : (b.updMd n f).crossing = b.crossing := rfl
@[simp] theorem updMd_coll (n : Nat) (f : MdSt → MdSt) : (b.updMd n f).coll = b.coll := rfl
@[simp] theorem updMd_journal (n : Nat) (f : MdSt → MdSt) : (b.updMd n f).journal = b.journal := rfl
@[simp] theorem updMd_run (n : Nat) (f : MdSt → MdSt) : (b.updMd n f).run = b.run := rfl
@[simp] theorem updMd_scale (n : Nat) (f : MdSt → MdSt) : (b.updMd n f).scale = b.scale := rfl
@[simp] theorem updMd_ras (n : Nat) (f : MdSt → MdSt) : (b.updMd n f).ras = b.ras := rfl
@[simp] theorem updMd_power (n : Nat) (f : MdSt → MdSt) : (b.updMd n f).power = b.power := rfl
@[simp] theorem updMd_sec (n : Nat) (f : MdSt → MdSt) : (b.updMd n f).sec = b.sec := rfl
@[simp] theorem updMd_host (n : Nat) (f : MdSt → MdSt) : (b.updMd n f).host = b.host := rfl
@[simp] theorem updMd_mgmt (n : Nat) (f : MdSt → MdSt) : (b.updMd n f).mgmt = b.mgmt := rfl
@[simp] theorem updMd_rst (n : Nat) (f : MdSt → MdSt) : (b.updMd n f).rst = b.rst := rfl
@[simp] theorem updMd_out (n : Nat) (f : MdSt → MdSt) : (b.updMd n f).out = b.out := rfl
@[simp] theorem updMd_freeCtr (n : Nat) (f : MdSt → MdSt) : (b.updMd n f).freeCtr = b.freeCtr := rfl
@[simp] theorem updMd_reg (n : Nat) (f : MdSt → MdSt) (r : Reg) : (b.updMd n f).reg r = b.reg r := rfl
@[simp] theorem updMd_rd (n : Nat) (f : MdSt → MdSt) (x : Fld) : (b.updMd n f).rd x = b.rd x := rfl
@[simp] theorem updMd_on (n : Nat) (f : MdSt → MdSt) (x : Fld) : (b.updMd n f).on x = b.on x := rfl
@[simp] theorem updMd_rdI (n : Nat) (f : MdSt → MdSt) (x : Fld) : (b.updMd n f).rdI x = b.rdI x := rfl
@[simp] theorem updMd_byte (n : Nat) (f : MdSt → MdSt) (a : Nat) : (b.updMd n f).byte a = b.byte a := rfl
@[simp] theorem updMd_core (n : Nat) (f : MdSt → MdSt) (c : Nat) : (b.updMd n f).core c = b.core c := rfl
@[simp] theorem updMd_port (n : Nat) (f : MdSt → MdSt) (q : Nat) : (b.updMd n f).port q = b.port q := rfl
@[simp] theorem updMd_now (n : Nat) (f : MdSt → MdSt) : (b.updMd n f).now = b.now := rfl

@[simp] theorem updGath_part (n : Nat) (f : GathSt → GathSt) : (b.updGath n f).part = b.part := rfl
@[simp] theorem updGath_regs (n : Nat) (f : GathSt → GathSt) : (b.updGath n f).regs = b.regs := rfl
@[simp] theorem updGath_mem (n : Nat) (f : GathSt → GathSt) : (b.updGath n f).mem = b.mem := rfl
@[simp] theorem updGath_err (n : Nat) (f : GathSt → GathSt) : (b.updGath n f).err = b.err := rfl
@[simp] theorem updGath_flash (n : Nat) (f : GathSt → GathSt) : (b.updGath n f).flash = b.flash := rfl
@[simp] theorem updGath_ev (n : Nat) (f : GathSt → GathSt) : (b.updGath n f).ev = b.ev := rfl
@[simp] theorem updGath_time (n : Nat) (f : GathSt → GathSt) : (b.updGath n f).time = b.time := rfl
@[simp] theorem updGath_sched (n : Nat) (f : GathSt → GathSt) : (b.updGath n f).sched = b.sched := rfl
@[simp] theorem updGath_cores (n : Nat) (f : GathSt → GathSt) : (b.updGath n f).cores = b.cores := rfl
@[simp] theorem updGath_vote (n : Nat) (f : GathSt → GathSt) : (b.updGath n f).vote = b.vote := rfl
@[simp] theorem updGath_regions (n : Nat) (f : GathSt → GathSt) : (b.updGath n f).regions = b.regions := rfl
@[simp] theorem updGath_xfers (n : Nat) (f : GathSt → GathSt) : (b.updGath n f).xfers = b.xfers := rfl
@[simp] theorem updGath_nextXfer (n : Nat) (f : GathSt → GathSt) : (b.updGath n f).nextXfer = b.nextXfer := rfl
@[simp] theorem updGath_claims (n : Nat) (f : GathSt → GathSt) : (b.updGath n f).claims = b.claims := rfl
@[simp] theorem updGath_checks (n : Nat) (f : GathSt → GathSt) : (b.updGath n f).checks = b.checks := rfl
@[simp] theorem updGath_ncache (n : Nat) (f : GathSt → GathSt) : (b.updGath n f).ncache = b.ncache := rfl
@[simp] theorem updGath_memReqs (n : Nat) (f : GathSt → GathSt) : (b.updGath n f).memReqs = b.memReqs := rfl
@[simp] theorem updGath_mds (n : Nat) (f : GathSt → GathSt) : (b.updGath n f).mds = b.mds := rfl
@[simp] theorem updGath_ports (n : Nat) (f : GathSt → GathSt) : (b.updGath n f).ports = b.ports := rfl
@[simp] theorem updGath_takes (n : Nat) (f : GathSt → GathSt) : (b.updGath n f).takes = b.takes := rfl
@[simp] theorem updGath_routers (n : Nat) (f : GathSt → GathSt) : (b.updGath n f).routers = b.routers := rfl
@[simp] theorem updGath_inbox (n : Nat) (f : GathSt → GathSt) : (b.updGath n f).inbox = b.inbox := rfl
@[simp] theorem updGath_crossing (n : Nat) (f : GathSt → GathSt) : (b.updGath n f).crossing = b.crossing := rfl
@[simp] theorem updGath_coll (n : Nat) (f : GathSt → GathSt) : (b.updGath n f).coll = b.coll := rfl
@[simp] theorem updGath_journal (n : Nat) (f : GathSt → GathSt) : (b.updGath n f).journal = b.journal := rfl
@[simp] theorem updGath_run (n : Nat) (f : GathSt → GathSt) : (b.updGath n f).run = b.run := rfl
@[simp] theorem updGath_scale (n : Nat) (f : GathSt → GathSt) : (b.updGath n f).scale = b.scale := rfl
@[simp] theorem updGath_ras (n : Nat) (f : GathSt → GathSt) : (b.updGath n f).ras = b.ras := rfl
@[simp] theorem updGath_power (n : Nat) (f : GathSt → GathSt) : (b.updGath n f).power = b.power := rfl
@[simp] theorem updGath_sec (n : Nat) (f : GathSt → GathSt) : (b.updGath n f).sec = b.sec := rfl
@[simp] theorem updGath_host (n : Nat) (f : GathSt → GathSt) : (b.updGath n f).host = b.host := rfl
@[simp] theorem updGath_mgmt (n : Nat) (f : GathSt → GathSt) : (b.updGath n f).mgmt = b.mgmt := rfl
@[simp] theorem updGath_rst (n : Nat) (f : GathSt → GathSt) : (b.updGath n f).rst = b.rst := rfl
@[simp] theorem updGath_out (n : Nat) (f : GathSt → GathSt) : (b.updGath n f).out = b.out := rfl
@[simp] theorem updGath_freeCtr (n : Nat) (f : GathSt → GathSt) : (b.updGath n f).freeCtr = b.freeCtr := rfl
@[simp] theorem updGath_reg (n : Nat) (f : GathSt → GathSt) (r : Reg) : (b.updGath n f).reg r = b.reg r := rfl
@[simp] theorem updGath_rd (n : Nat) (f : GathSt → GathSt) (x : Fld) : (b.updGath n f).rd x = b.rd x := rfl
@[simp] theorem updGath_on (n : Nat) (f : GathSt → GathSt) (x : Fld) : (b.updGath n f).on x = b.on x := rfl
@[simp] theorem updGath_rdI (n : Nat) (f : GathSt → GathSt) (x : Fld) : (b.updGath n f).rdI x = b.rdI x := rfl
@[simp] theorem updGath_byte (n : Nat) (f : GathSt → GathSt) (a : Nat) : (b.updGath n f).byte a = b.byte a := rfl
@[simp] theorem updGath_core (n : Nat) (f : GathSt → GathSt) (c : Nat) : (b.updGath n f).core c = b.core c := rfl
@[simp] theorem updGath_port (n : Nat) (f : GathSt → GathSt) (q : Nat) : (b.updGath n f).port q = b.port q := rfl
@[simp] theorem updGath_now (n : Nat) (f : GathSt → GathSt) : (b.updGath n f).now = b.now := rfl

@[simp] theorem updNc_part (n : Nat) (f : NCacheSt → NCacheSt) : (b.updNc n f).part = b.part := rfl
@[simp] theorem updNc_regs (n : Nat) (f : NCacheSt → NCacheSt) : (b.updNc n f).regs = b.regs := rfl
@[simp] theorem updNc_mem (n : Nat) (f : NCacheSt → NCacheSt) : (b.updNc n f).mem = b.mem := rfl
@[simp] theorem updNc_err (n : Nat) (f : NCacheSt → NCacheSt) : (b.updNc n f).err = b.err := rfl
@[simp] theorem updNc_flash (n : Nat) (f : NCacheSt → NCacheSt) : (b.updNc n f).flash = b.flash := rfl
@[simp] theorem updNc_ev (n : Nat) (f : NCacheSt → NCacheSt) : (b.updNc n f).ev = b.ev := rfl
@[simp] theorem updNc_time (n : Nat) (f : NCacheSt → NCacheSt) : (b.updNc n f).time = b.time := rfl
@[simp] theorem updNc_sched (n : Nat) (f : NCacheSt → NCacheSt) : (b.updNc n f).sched = b.sched := rfl
@[simp] theorem updNc_cores (n : Nat) (f : NCacheSt → NCacheSt) : (b.updNc n f).cores = b.cores := rfl
@[simp] theorem updNc_vote (n : Nat) (f : NCacheSt → NCacheSt) : (b.updNc n f).vote = b.vote := rfl
@[simp] theorem updNc_regions (n : Nat) (f : NCacheSt → NCacheSt) : (b.updNc n f).regions = b.regions := rfl
@[simp] theorem updNc_xfers (n : Nat) (f : NCacheSt → NCacheSt) : (b.updNc n f).xfers = b.xfers := rfl
@[simp] theorem updNc_nextXfer (n : Nat) (f : NCacheSt → NCacheSt) : (b.updNc n f).nextXfer = b.nextXfer := rfl
@[simp] theorem updNc_claims (n : Nat) (f : NCacheSt → NCacheSt) : (b.updNc n f).claims = b.claims := rfl
@[simp] theorem updNc_checks (n : Nat) (f : NCacheSt → NCacheSt) : (b.updNc n f).checks = b.checks := rfl
@[simp] theorem updNc_gath (n : Nat) (f : NCacheSt → NCacheSt) : (b.updNc n f).gath = b.gath := rfl
@[simp] theorem updNc_memReqs (n : Nat) (f : NCacheSt → NCacheSt) : (b.updNc n f).memReqs = b.memReqs := rfl
@[simp] theorem updNc_mds (n : Nat) (f : NCacheSt → NCacheSt) : (b.updNc n f).mds = b.mds := rfl
@[simp] theorem updNc_ports (n : Nat) (f : NCacheSt → NCacheSt) : (b.updNc n f).ports = b.ports := rfl
@[simp] theorem updNc_takes (n : Nat) (f : NCacheSt → NCacheSt) : (b.updNc n f).takes = b.takes := rfl
@[simp] theorem updNc_routers (n : Nat) (f : NCacheSt → NCacheSt) : (b.updNc n f).routers = b.routers := rfl
@[simp] theorem updNc_inbox (n : Nat) (f : NCacheSt → NCacheSt) : (b.updNc n f).inbox = b.inbox := rfl
@[simp] theorem updNc_crossing (n : Nat) (f : NCacheSt → NCacheSt) : (b.updNc n f).crossing = b.crossing := rfl
@[simp] theorem updNc_coll (n : Nat) (f : NCacheSt → NCacheSt) : (b.updNc n f).coll = b.coll := rfl
@[simp] theorem updNc_journal (n : Nat) (f : NCacheSt → NCacheSt) : (b.updNc n f).journal = b.journal := rfl
@[simp] theorem updNc_run (n : Nat) (f : NCacheSt → NCacheSt) : (b.updNc n f).run = b.run := rfl
@[simp] theorem updNc_scale (n : Nat) (f : NCacheSt → NCacheSt) : (b.updNc n f).scale = b.scale := rfl
@[simp] theorem updNc_ras (n : Nat) (f : NCacheSt → NCacheSt) : (b.updNc n f).ras = b.ras := rfl
@[simp] theorem updNc_power (n : Nat) (f : NCacheSt → NCacheSt) : (b.updNc n f).power = b.power := rfl
@[simp] theorem updNc_sec (n : Nat) (f : NCacheSt → NCacheSt) : (b.updNc n f).sec = b.sec := rfl
@[simp] theorem updNc_host (n : Nat) (f : NCacheSt → NCacheSt) : (b.updNc n f).host = b.host := rfl
@[simp] theorem updNc_mgmt (n : Nat) (f : NCacheSt → NCacheSt) : (b.updNc n f).mgmt = b.mgmt := rfl
@[simp] theorem updNc_rst (n : Nat) (f : NCacheSt → NCacheSt) : (b.updNc n f).rst = b.rst := rfl
@[simp] theorem updNc_out (n : Nat) (f : NCacheSt → NCacheSt) : (b.updNc n f).out = b.out := rfl
@[simp] theorem updNc_freeCtr (n : Nat) (f : NCacheSt → NCacheSt) : (b.updNc n f).freeCtr = b.freeCtr := rfl
@[simp] theorem updNc_reg (n : Nat) (f : NCacheSt → NCacheSt) (r : Reg) : (b.updNc n f).reg r = b.reg r := rfl
@[simp] theorem updNc_rd (n : Nat) (f : NCacheSt → NCacheSt) (x : Fld) : (b.updNc n f).rd x = b.rd x := rfl
@[simp] theorem updNc_on (n : Nat) (f : NCacheSt → NCacheSt) (x : Fld) : (b.updNc n f).on x = b.on x := rfl
@[simp] theorem updNc_rdI (n : Nat) (f : NCacheSt → NCacheSt) (x : Fld) : (b.updNc n f).rdI x = b.rdI x := rfl
@[simp] theorem updNc_byte (n : Nat) (f : NCacheSt → NCacheSt) (a : Nat) : (b.updNc n f).byte a = b.byte a := rfl
@[simp] theorem updNc_core (n : Nat) (f : NCacheSt → NCacheSt) (c : Nat) : (b.updNc n f).core c = b.core c := rfl
@[simp] theorem updNc_port (n : Nat) (f : NCacheSt → NCacheSt) (q : Nat) : (b.updNc n f).port q = b.port q := rfl
@[simp] theorem updNc_now (n : Nat) (f : NCacheSt → NCacheSt) : (b.updNc n f).now = b.now := rfl

@[simp] theorem updRegion_part (n : Nat) (f : RegionSt → RegionSt) : (b.updRegion n f).part = b.part := rfl
@[simp] theorem updRegion_regs (n : Nat) (f : RegionSt → RegionSt) : (b.updRegion n f).regs = b.regs := rfl
@[simp] theorem updRegion_mem (n : Nat) (f : RegionSt → RegionSt) : (b.updRegion n f).mem = b.mem := rfl
@[simp] theorem updRegion_err (n : Nat) (f : RegionSt → RegionSt) : (b.updRegion n f).err = b.err := rfl
@[simp] theorem updRegion_flash (n : Nat) (f : RegionSt → RegionSt) : (b.updRegion n f).flash = b.flash := rfl
@[simp] theorem updRegion_ev (n : Nat) (f : RegionSt → RegionSt) : (b.updRegion n f).ev = b.ev := rfl
@[simp] theorem updRegion_time (n : Nat) (f : RegionSt → RegionSt) : (b.updRegion n f).time = b.time := rfl
@[simp] theorem updRegion_sched (n : Nat) (f : RegionSt → RegionSt) : (b.updRegion n f).sched = b.sched := rfl
@[simp] theorem updRegion_cores (n : Nat) (f : RegionSt → RegionSt) : (b.updRegion n f).cores = b.cores := rfl
@[simp] theorem updRegion_vote (n : Nat) (f : RegionSt → RegionSt) : (b.updRegion n f).vote = b.vote := rfl
@[simp] theorem updRegion_xfers (n : Nat) (f : RegionSt → RegionSt) : (b.updRegion n f).xfers = b.xfers := rfl
@[simp] theorem updRegion_nextXfer (n : Nat) (f : RegionSt → RegionSt) : (b.updRegion n f).nextXfer = b.nextXfer := rfl
@[simp] theorem updRegion_claims (n : Nat) (f : RegionSt → RegionSt) : (b.updRegion n f).claims = b.claims := rfl
@[simp] theorem updRegion_checks (n : Nat) (f : RegionSt → RegionSt) : (b.updRegion n f).checks = b.checks := rfl
@[simp] theorem updRegion_gath (n : Nat) (f : RegionSt → RegionSt) : (b.updRegion n f).gath = b.gath := rfl
@[simp] theorem updRegion_ncache (n : Nat) (f : RegionSt → RegionSt) : (b.updRegion n f).ncache = b.ncache := rfl
@[simp] theorem updRegion_memReqs (n : Nat) (f : RegionSt → RegionSt) : (b.updRegion n f).memReqs = b.memReqs := rfl
@[simp] theorem updRegion_mds (n : Nat) (f : RegionSt → RegionSt) : (b.updRegion n f).mds = b.mds := rfl
@[simp] theorem updRegion_ports (n : Nat) (f : RegionSt → RegionSt) : (b.updRegion n f).ports = b.ports := rfl
@[simp] theorem updRegion_takes (n : Nat) (f : RegionSt → RegionSt) : (b.updRegion n f).takes = b.takes := rfl
@[simp] theorem updRegion_routers (n : Nat) (f : RegionSt → RegionSt) : (b.updRegion n f).routers = b.routers := rfl
@[simp] theorem updRegion_inbox (n : Nat) (f : RegionSt → RegionSt) : (b.updRegion n f).inbox = b.inbox := rfl
@[simp] theorem updRegion_crossing (n : Nat) (f : RegionSt → RegionSt) : (b.updRegion n f).crossing = b.crossing := rfl
@[simp] theorem updRegion_coll (n : Nat) (f : RegionSt → RegionSt) : (b.updRegion n f).coll = b.coll := rfl
@[simp] theorem updRegion_journal (n : Nat) (f : RegionSt → RegionSt) : (b.updRegion n f).journal = b.journal := rfl
@[simp] theorem updRegion_run (n : Nat) (f : RegionSt → RegionSt) : (b.updRegion n f).run = b.run := rfl
@[simp] theorem updRegion_scale (n : Nat) (f : RegionSt → RegionSt) : (b.updRegion n f).scale = b.scale := rfl
@[simp] theorem updRegion_ras (n : Nat) (f : RegionSt → RegionSt) : (b.updRegion n f).ras = b.ras := rfl
@[simp] theorem updRegion_power (n : Nat) (f : RegionSt → RegionSt) : (b.updRegion n f).power = b.power := rfl
@[simp] theorem updRegion_sec (n : Nat) (f : RegionSt → RegionSt) : (b.updRegion n f).sec = b.sec := rfl
@[simp] theorem updRegion_host (n : Nat) (f : RegionSt → RegionSt) : (b.updRegion n f).host = b.host := rfl
@[simp] theorem updRegion_mgmt (n : Nat) (f : RegionSt → RegionSt) : (b.updRegion n f).mgmt = b.mgmt := rfl
@[simp] theorem updRegion_rst (n : Nat) (f : RegionSt → RegionSt) : (b.updRegion n f).rst = b.rst := rfl
@[simp] theorem updRegion_out (n : Nat) (f : RegionSt → RegionSt) : (b.updRegion n f).out = b.out := rfl
@[simp] theorem updRegion_freeCtr (n : Nat) (f : RegionSt → RegionSt) : (b.updRegion n f).freeCtr = b.freeCtr := rfl
@[simp] theorem updRegion_reg (n : Nat) (f : RegionSt → RegionSt) (r : Reg) : (b.updRegion n f).reg r = b.reg r := rfl
@[simp] theorem updRegion_rd (n : Nat) (f : RegionSt → RegionSt) (x : Fld) : (b.updRegion n f).rd x = b.rd x := rfl
@[simp] theorem updRegion_on (n : Nat) (f : RegionSt → RegionSt) (x : Fld) : (b.updRegion n f).on x = b.on x := rfl
@[simp] theorem updRegion_rdI (n : Nat) (f : RegionSt → RegionSt) (x : Fld) : (b.updRegion n f).rdI x = b.rdI x := rfl
@[simp] theorem updRegion_byte (n : Nat) (f : RegionSt → RegionSt) (a : Nat) : (b.updRegion n f).byte a = b.byte a := rfl
@[simp] theorem updRegion_core (n : Nat) (f : RegionSt → RegionSt) (c : Nat) : (b.updRegion n f).core c = b.core c := rfl
@[simp] theorem updRegion_port (n : Nat) (f : RegionSt → RegionSt) (q : Nat) : (b.updRegion n f).port q = b.port q := rfl
@[simp] theorem updRegion_now (n : Nat) (f : RegionSt → RegionSt) : (b.updRegion n f).now = b.now := rfl

@[simp] theorem setCore_part (k : Nat) (c : CoreSt) : (b.setCore k c).part = b.part := rfl
@[simp] theorem setCore_regs (k : Nat) (c : CoreSt) : (b.setCore k c).regs = b.regs := rfl
@[simp] theorem setCore_mem (k : Nat) (c : CoreSt) : (b.setCore k c).mem = b.mem := rfl
@[simp] theorem setCore_err (k : Nat) (c : CoreSt) : (b.setCore k c).err = b.err := rfl
@[simp] theorem setCore_flash (k : Nat) (c : CoreSt) : (b.setCore k c).flash = b.flash := rfl
@[simp] theorem setCore_ev (k : Nat) (c : CoreSt) : (b.setCore k c).ev = b.ev := rfl
@[simp] theorem setCore_time (k : Nat) (c : CoreSt) : (b.setCore k c).time = b.time := rfl
@[simp] theorem setCore_sched (k : Nat) (c : CoreSt) : (b.setCore k c).sched = b.sched := rfl
@[simp] theorem setCore_vote (k : Nat) (c : CoreSt) : (b.setCore k c).vote = b.vote := rfl
@[simp] theorem setCore_regions (k : Nat) (c : CoreSt) : (b.setCore k c).regions = b.regions := rfl
@[simp] theorem setCore_xfers (k : Nat) (c : CoreSt) : (b.setCore k c).xfers = b.xfers := rfl
@[simp] theorem setCore_nextXfer (k : Nat) (c : CoreSt) : (b.setCore k c).nextXfer = b.nextXfer := rfl
@[simp] theorem setCore_claims (k : Nat) (c : CoreSt) : (b.setCore k c).claims = b.claims := rfl
@[simp] theorem setCore_checks (k : Nat) (c : CoreSt) : (b.setCore k c).checks = b.checks := rfl
@[simp] theorem setCore_gath (k : Nat) (c : CoreSt) : (b.setCore k c).gath = b.gath := rfl
@[simp] theorem setCore_ncache (k : Nat) (c : CoreSt) : (b.setCore k c).ncache = b.ncache := rfl
@[simp] theorem setCore_memReqs (k : Nat) (c : CoreSt) : (b.setCore k c).memReqs = b.memReqs := rfl
@[simp] theorem setCore_mds (k : Nat) (c : CoreSt) : (b.setCore k c).mds = b.mds := rfl
@[simp] theorem setCore_ports (k : Nat) (c : CoreSt) : (b.setCore k c).ports = b.ports := rfl
@[simp] theorem setCore_takes (k : Nat) (c : CoreSt) : (b.setCore k c).takes = b.takes := rfl
@[simp] theorem setCore_routers (k : Nat) (c : CoreSt) : (b.setCore k c).routers = b.routers := rfl
@[simp] theorem setCore_inbox (k : Nat) (c : CoreSt) : (b.setCore k c).inbox = b.inbox := rfl
@[simp] theorem setCore_crossing (k : Nat) (c : CoreSt) : (b.setCore k c).crossing = b.crossing := rfl
@[simp] theorem setCore_coll (k : Nat) (c : CoreSt) : (b.setCore k c).coll = b.coll := rfl
@[simp] theorem setCore_journal (k : Nat) (c : CoreSt) : (b.setCore k c).journal = b.journal := rfl
@[simp] theorem setCore_run (k : Nat) (c : CoreSt) : (b.setCore k c).run = b.run := rfl
@[simp] theorem setCore_scale (k : Nat) (c : CoreSt) : (b.setCore k c).scale = b.scale := rfl
@[simp] theorem setCore_ras (k : Nat) (c : CoreSt) : (b.setCore k c).ras = b.ras := rfl
@[simp] theorem setCore_power (k : Nat) (c : CoreSt) : (b.setCore k c).power = b.power := rfl
@[simp] theorem setCore_sec (k : Nat) (c : CoreSt) : (b.setCore k c).sec = b.sec := rfl
@[simp] theorem setCore_host (k : Nat) (c : CoreSt) : (b.setCore k c).host = b.host := rfl
@[simp] theorem setCore_mgmt (k : Nat) (c : CoreSt) : (b.setCore k c).mgmt = b.mgmt := rfl
@[simp] theorem setCore_rst (k : Nat) (c : CoreSt) : (b.setCore k c).rst = b.rst := rfl
@[simp] theorem setCore_out (k : Nat) (c : CoreSt) : (b.setCore k c).out = b.out := rfl
@[simp] theorem setCore_freeCtr (k : Nat) (c : CoreSt) : (b.setCore k c).freeCtr = b.freeCtr := rfl
@[simp] theorem setCore_reg (k : Nat) (c : CoreSt) (r : Reg) : (b.setCore k c).reg r = b.reg r := rfl
@[simp] theorem setCore_rd (k : Nat) (c : CoreSt) (x : Fld) : (b.setCore k c).rd x = b.rd x := rfl
@[simp] theorem setCore_on (k : Nat) (c : CoreSt) (x : Fld) : (b.setCore k c).on x = b.on x := rfl
@[simp] theorem setCore_rdI (k : Nat) (c : CoreSt) (x : Fld) : (b.setCore k c).rdI x = b.rdI x := rfl
@[simp] theorem setCore_byte (k : Nat) (c : CoreSt) (a : Nat) : (b.setCore k c).byte a = b.byte a := rfl
@[simp] theorem setCore_port (k : Nat) (c : CoreSt) (q : Nat) : (b.setCore k c).port q = b.port q := rfl
@[simp] theorem setCore_now (k : Nat) (c : CoreSt) : (b.setCore k c).now = b.now := rfl

@[simp] theorem updCore_part (k : Nat) (f : CoreSt → CoreSt) : (b.updCore k f).part = b.part := rfl
@[simp] theorem updCore_regs (k : Nat) (f : CoreSt → CoreSt) : (b.updCore k f).regs = b.regs := rfl
@[simp] theorem updCore_mem (k : Nat) (f : CoreSt → CoreSt) : (b.updCore k f).mem = b.mem := rfl
@[simp] theorem updCore_err (k : Nat) (f : CoreSt → CoreSt) : (b.updCore k f).err = b.err := rfl
@[simp] theorem updCore_flash (k : Nat) (f : CoreSt → CoreSt) : (b.updCore k f).flash = b.flash := rfl
@[simp] theorem updCore_ev (k : Nat) (f : CoreSt → CoreSt) : (b.updCore k f).ev = b.ev := rfl
@[simp] theorem updCore_time (k : Nat) (f : CoreSt → CoreSt) : (b.updCore k f).time = b.time := rfl
@[simp] theorem updCore_sched (k : Nat) (f : CoreSt → CoreSt) : (b.updCore k f).sched = b.sched := rfl
@[simp] theorem updCore_vote (k : Nat) (f : CoreSt → CoreSt) : (b.updCore k f).vote = b.vote := rfl
@[simp] theorem updCore_regions (k : Nat) (f : CoreSt → CoreSt) : (b.updCore k f).regions = b.regions := rfl
@[simp] theorem updCore_xfers (k : Nat) (f : CoreSt → CoreSt) : (b.updCore k f).xfers = b.xfers := rfl
@[simp] theorem updCore_nextXfer (k : Nat) (f : CoreSt → CoreSt) : (b.updCore k f).nextXfer = b.nextXfer := rfl
@[simp] theorem updCore_claims (k : Nat) (f : CoreSt → CoreSt) : (b.updCore k f).claims = b.claims := rfl
@[simp] theorem updCore_checks (k : Nat) (f : CoreSt → CoreSt) : (b.updCore k f).checks = b.checks := rfl
@[simp] theorem updCore_gath (k : Nat) (f : CoreSt → CoreSt) : (b.updCore k f).gath = b.gath := rfl
@[simp] theorem updCore_ncache (k : Nat) (f : CoreSt → CoreSt) : (b.updCore k f).ncache = b.ncache := rfl
@[simp] theorem updCore_memReqs (k : Nat) (f : CoreSt → CoreSt) : (b.updCore k f).memReqs = b.memReqs := rfl
@[simp] theorem updCore_mds (k : Nat) (f : CoreSt → CoreSt) : (b.updCore k f).mds = b.mds := rfl
@[simp] theorem updCore_ports (k : Nat) (f : CoreSt → CoreSt) : (b.updCore k f).ports = b.ports := rfl
@[simp] theorem updCore_takes (k : Nat) (f : CoreSt → CoreSt) : (b.updCore k f).takes = b.takes := rfl
@[simp] theorem updCore_routers (k : Nat) (f : CoreSt → CoreSt) : (b.updCore k f).routers = b.routers := rfl
@[simp] theorem updCore_inbox (k : Nat) (f : CoreSt → CoreSt) : (b.updCore k f).inbox = b.inbox := rfl
@[simp] theorem updCore_crossing (k : Nat) (f : CoreSt → CoreSt) : (b.updCore k f).crossing = b.crossing := rfl
@[simp] theorem updCore_coll (k : Nat) (f : CoreSt → CoreSt) : (b.updCore k f).coll = b.coll := rfl
@[simp] theorem updCore_journal (k : Nat) (f : CoreSt → CoreSt) : (b.updCore k f).journal = b.journal := rfl
@[simp] theorem updCore_run (k : Nat) (f : CoreSt → CoreSt) : (b.updCore k f).run = b.run := rfl
@[simp] theorem updCore_scale (k : Nat) (f : CoreSt → CoreSt) : (b.updCore k f).scale = b.scale := rfl
@[simp] theorem updCore_ras (k : Nat) (f : CoreSt → CoreSt) : (b.updCore k f).ras = b.ras := rfl
@[simp] theorem updCore_power (k : Nat) (f : CoreSt → CoreSt) : (b.updCore k f).power = b.power := rfl
@[simp] theorem updCore_sec (k : Nat) (f : CoreSt → CoreSt) : (b.updCore k f).sec = b.sec := rfl
@[simp] theorem updCore_host (k : Nat) (f : CoreSt → CoreSt) : (b.updCore k f).host = b.host := rfl
@[simp] theorem updCore_mgmt (k : Nat) (f : CoreSt → CoreSt) : (b.updCore k f).mgmt = b.mgmt := rfl
@[simp] theorem updCore_rst (k : Nat) (f : CoreSt → CoreSt) : (b.updCore k f).rst = b.rst := rfl
@[simp] theorem updCore_out (k : Nat) (f : CoreSt → CoreSt) : (b.updCore k f).out = b.out := rfl
@[simp] theorem updCore_freeCtr (k : Nat) (f : CoreSt → CoreSt) : (b.updCore k f).freeCtr = b.freeCtr := rfl
@[simp] theorem updCore_reg (k : Nat) (f : CoreSt → CoreSt) (r : Reg) : (b.updCore k f).reg r = b.reg r := rfl
@[simp] theorem updCore_rd (k : Nat) (f : CoreSt → CoreSt) (x : Fld) : (b.updCore k f).rd x = b.rd x := rfl
@[simp] theorem updCore_on (k : Nat) (f : CoreSt → CoreSt) (x : Fld) : (b.updCore k f).on x = b.on x := rfl
@[simp] theorem updCore_rdI (k : Nat) (f : CoreSt → CoreSt) (x : Fld) : (b.updCore k f).rdI x = b.rdI x := rfl
@[simp] theorem updCore_byte (k : Nat) (f : CoreSt → CoreSt) (a : Nat) : (b.updCore k f).byte a = b.byte a := rfl
@[simp] theorem updCore_port (k : Nat) (f : CoreSt → CoreSt) (q : Nat) : (b.updCore k f).port q = b.port q := rfl
@[simp] theorem updCore_now (k : Nat) (f : CoreSt → CoreSt) : (b.updCore k f).now = b.now := rfl

@[simp] theorem emit_part (o : Out) : (b.emit o).part = b.part := rfl
@[simp] theorem emit_regs (o : Out) : (b.emit o).regs = b.regs := rfl
@[simp] theorem emit_mem (o : Out) : (b.emit o).mem = b.mem := rfl
@[simp] theorem emit_err (o : Out) : (b.emit o).err = b.err := rfl
@[simp] theorem emit_flash (o : Out) : (b.emit o).flash = b.flash := rfl
@[simp] theorem emit_ev (o : Out) : (b.emit o).ev = b.ev := rfl
@[simp] theorem emit_time (o : Out) : (b.emit o).time = b.time := rfl
@[simp] theorem emit_sched (o : Out) : (b.emit o).sched = b.sched := rfl
@[simp] theorem emit_cores (o : Out) : (b.emit o).cores = b.cores := rfl
@[simp] theorem emit_vote (o : Out) : (b.emit o).vote = b.vote := rfl
@[simp] theorem emit_regions (o : Out) : (b.emit o).regions = b.regions := rfl
@[simp] theorem emit_xfers (o : Out) : (b.emit o).xfers = b.xfers := rfl
@[simp] theorem emit_nextXfer (o : Out) : (b.emit o).nextXfer = b.nextXfer := rfl
@[simp] theorem emit_claims (o : Out) : (b.emit o).claims = b.claims := rfl
@[simp] theorem emit_checks (o : Out) : (b.emit o).checks = b.checks := rfl
@[simp] theorem emit_gath (o : Out) : (b.emit o).gath = b.gath := rfl
@[simp] theorem emit_ncache (o : Out) : (b.emit o).ncache = b.ncache := rfl
@[simp] theorem emit_memReqs (o : Out) : (b.emit o).memReqs = b.memReqs := rfl
@[simp] theorem emit_mds (o : Out) : (b.emit o).mds = b.mds := rfl
@[simp] theorem emit_ports (o : Out) : (b.emit o).ports = b.ports := rfl
@[simp] theorem emit_takes (o : Out) : (b.emit o).takes = b.takes := rfl
@[simp] theorem emit_routers (o : Out) : (b.emit o).routers = b.routers := rfl
@[simp] theorem emit_inbox (o : Out) : (b.emit o).inbox = b.inbox := rfl
@[simp] theorem emit_crossing (o : Out) : (b.emit o).crossing = b.crossing := rfl
@[simp] theorem emit_coll (o : Out) : (b.emit o).coll = b.coll := rfl
@[simp] theorem emit_journal (o : Out) : (b.emit o).journal = b.journal := rfl
@[simp] theorem emit_run (o : Out) : (b.emit o).run = b.run := rfl
@[simp] theorem emit_scale (o : Out) : (b.emit o).scale = b.scale := rfl
@[simp] theorem emit_ras (o : Out) : (b.emit o).ras = b.ras := rfl
@[simp] theorem emit_power (o : Out) : (b.emit o).power = b.power := rfl
@[simp] theorem emit_sec (o : Out) : (b.emit o).sec = b.sec := rfl
@[simp] theorem emit_host (o : Out) : (b.emit o).host = b.host := rfl
@[simp] theorem emit_mgmt (o : Out) : (b.emit o).mgmt = b.mgmt := rfl
@[simp] theorem emit_rst (o : Out) : (b.emit o).rst = b.rst := rfl
@[simp] theorem emit_out (o : Out) : (b.emit o).out = b.out ++ [o] := rfl
@[simp] theorem emit_freeCtr (o : Out) : (b.emit o).freeCtr = b.freeCtr := rfl
@[simp] theorem emit_reg (o : Out) (r : Reg) : (b.emit o).reg r = b.reg r := rfl
@[simp] theorem emit_rd (o : Out) (x : Fld) : (b.emit o).rd x = b.rd x := rfl
@[simp] theorem emit_on (o : Out) (x : Fld) : (b.emit o).on x = b.on x := rfl
@[simp] theorem emit_rdI (o : Out) (x : Fld) : (b.emit o).rdI x = b.rdI x := rfl
@[simp] theorem emit_byte (o : Out) (a : Nat) : (b.emit o).byte a = b.byte a := rfl
@[simp] theorem emit_core (o : Out) (c : Nat) : (b.emit o).core c = b.core c := rfl
@[simp] theorem emit_port (o : Out) (q : Nat) : (b.emit o).port q = b.port q := rfl
@[simp] theorem emit_now (o : Out) : (b.emit o).now = b.now := rfl

@[simp] theorem setReg_part (r : Reg) (v : Nat) : (b.setReg r v).part = b.part := rfl
@[simp] theorem setReg_mem (r : Reg) (v : Nat) : (b.setReg r v).mem = b.mem := rfl
@[simp] theorem setReg_err (r : Reg) (v : Nat) : (b.setReg r v).err = b.err := rfl
@[simp] theorem setReg_flash (r : Reg) (v : Nat) : (b.setReg r v).flash = b.flash := rfl
@[simp] theorem setReg_ev (r : Reg) (v : Nat) : (b.setReg r v).ev = b.ev := rfl
@[simp] theorem setReg_time (r : Reg) (v : Nat) : (b.setReg r v).time = b.time := rfl
@[simp] theorem setReg_sched (r : Reg) (v : Nat) : (b.setReg r v).sched = b.sched := rfl
@[simp] theorem setReg_cores (r : Reg) (v : Nat) : (b.setReg r v).cores = b.cores := rfl
@[simp] theorem setReg_vote (r : Reg) (v : Nat) : (b.setReg r v).vote = b.vote := rfl
@[simp] theorem setReg_regions (r : Reg) (v : Nat) : (b.setReg r v).regions = b.regions := rfl
@[simp] theorem setReg_xfers (r : Reg) (v : Nat) : (b.setReg r v).xfers = b.xfers := rfl
@[simp] theorem setReg_nextXfer (r : Reg) (v : Nat) : (b.setReg r v).nextXfer = b.nextXfer := rfl
@[simp] theorem setReg_claims (r : Reg) (v : Nat) : (b.setReg r v).claims = b.claims := rfl
@[simp] theorem setReg_checks (r : Reg) (v : Nat) : (b.setReg r v).checks = b.checks := rfl
@[simp] theorem setReg_gath (r : Reg) (v : Nat) : (b.setReg r v).gath = b.gath := rfl
@[simp] theorem setReg_ncache (r : Reg) (v : Nat) : (b.setReg r v).ncache = b.ncache := rfl
@[simp] theorem setReg_memReqs (r : Reg) (v : Nat) : (b.setReg r v).memReqs = b.memReqs := rfl
@[simp] theorem setReg_mds (r : Reg) (v : Nat) : (b.setReg r v).mds = b.mds := rfl
@[simp] theorem setReg_ports (r : Reg) (v : Nat) : (b.setReg r v).ports = b.ports := rfl
@[simp] theorem setReg_takes (r : Reg) (v : Nat) : (b.setReg r v).takes = b.takes := rfl
@[simp] theorem setReg_routers (r : Reg) (v : Nat) : (b.setReg r v).routers = b.routers := rfl
@[simp] theorem setReg_inbox (r : Reg) (v : Nat) : (b.setReg r v).inbox = b.inbox := rfl
@[simp] theorem setReg_crossing (r : Reg) (v : Nat) : (b.setReg r v).crossing = b.crossing := rfl
@[simp] theorem setReg_coll (r : Reg) (v : Nat) : (b.setReg r v).coll = b.coll := rfl
@[simp] theorem setReg_journal (r : Reg) (v : Nat) : (b.setReg r v).journal = b.journal := rfl
@[simp] theorem setReg_run (r : Reg) (v : Nat) : (b.setReg r v).run = b.run := rfl
@[simp] theorem setReg_scale (r : Reg) (v : Nat) : (b.setReg r v).scale = b.scale := rfl
@[simp] theorem setReg_ras (r : Reg) (v : Nat) : (b.setReg r v).ras = b.ras := rfl
@[simp] theorem setReg_power (r : Reg) (v : Nat) : (b.setReg r v).power = b.power := rfl
@[simp] theorem setReg_sec (r : Reg) (v : Nat) : (b.setReg r v).sec = b.sec := rfl
@[simp] theorem setReg_host (r : Reg) (v : Nat) : (b.setReg r v).host = b.host := rfl
@[simp] theorem setReg_mgmt (r : Reg) (v : Nat) : (b.setReg r v).mgmt = b.mgmt := rfl
@[simp] theorem setReg_rst (r : Reg) (v : Nat) : (b.setReg r v).rst = b.rst := rfl
@[simp] theorem setReg_out (r : Reg) (v : Nat) : (b.setReg r v).out = b.out := rfl
@[simp] theorem setReg_freeCtr (r : Reg) (v : Nat) : (b.setReg r v).freeCtr = b.freeCtr := rfl
@[simp] theorem setReg_byte (r : Reg) (v : Nat) (a : Nat) : (b.setReg r v).byte a = b.byte a := rfl
@[simp] theorem setReg_core (r : Reg) (v : Nat) (c : Nat) : (b.setReg r v).core c = b.core c := rfl
@[simp] theorem setReg_port (r : Reg) (v : Nat) (q : Nat) : (b.setReg r v).port q = b.port q := rfl
@[simp] theorem setReg_now (r : Reg) (v : Nat) : (b.setReg r v).now = b.now := rfl

@[simp] theorem wr_part (x : Fld) (v : Nat) : (b.wr x v).part = b.part := rfl
@[simp] theorem wr_mem (x : Fld) (v : Nat) : (b.wr x v).mem = b.mem := rfl
@[simp] theorem wr_err (x : Fld) (v : Nat) : (b.wr x v).err = b.err := rfl
@[simp] theorem wr_flash (x : Fld) (v : Nat) : (b.wr x v).flash = b.flash := rfl
@[simp] theorem wr_ev (x : Fld) (v : Nat) : (b.wr x v).ev = b.ev := rfl
@[simp] theorem wr_time (x : Fld) (v : Nat) : (b.wr x v).time = b.time := rfl
@[simp] theorem wr_sched (x : Fld) (v : Nat) : (b.wr x v).sched = b.sched := rfl
@[simp] theorem wr_cores (x : Fld) (v : Nat) : (b.wr x v).cores = b.cores := rfl
@[simp] theorem wr_vote (x : Fld) (v : Nat) : (b.wr x v).vote = b.vote := rfl
@[simp] theorem wr_regions (x : Fld) (v : Nat) : (b.wr x v).regions = b.regions := rfl
@[simp] theorem wr_xfers (x : Fld) (v : Nat) : (b.wr x v).xfers = b.xfers := rfl
@[simp] theorem wr_nextXfer (x : Fld) (v : Nat) : (b.wr x v).nextXfer = b.nextXfer := rfl
@[simp] theorem wr_claims (x : Fld) (v : Nat) : (b.wr x v).claims = b.claims := rfl
@[simp] theorem wr_checks (x : Fld) (v : Nat) : (b.wr x v).checks = b.checks := rfl
@[simp] theorem wr_gath (x : Fld) (v : Nat) : (b.wr x v).gath = b.gath := rfl
@[simp] theorem wr_ncache (x : Fld) (v : Nat) : (b.wr x v).ncache = b.ncache := rfl
@[simp] theorem wr_memReqs (x : Fld) (v : Nat) : (b.wr x v).memReqs = b.memReqs := rfl
@[simp] theorem wr_mds (x : Fld) (v : Nat) : (b.wr x v).mds = b.mds := rfl
@[simp] theorem wr_ports (x : Fld) (v : Nat) : (b.wr x v).ports = b.ports := rfl
@[simp] theorem wr_takes (x : Fld) (v : Nat) : (b.wr x v).takes = b.takes := rfl
@[simp] theorem wr_routers (x : Fld) (v : Nat) : (b.wr x v).routers = b.routers := rfl
@[simp] theorem wr_inbox (x : Fld) (v : Nat) : (b.wr x v).inbox = b.inbox := rfl
@[simp] theorem wr_crossing (x : Fld) (v : Nat) : (b.wr x v).crossing = b.crossing := rfl
@[simp] theorem wr_coll (x : Fld) (v : Nat) : (b.wr x v).coll = b.coll := rfl
@[simp] theorem wr_journal (x : Fld) (v : Nat) : (b.wr x v).journal = b.journal := rfl
@[simp] theorem wr_run (x : Fld) (v : Nat) : (b.wr x v).run = b.run := rfl
@[simp] theorem wr_scale (x : Fld) (v : Nat) : (b.wr x v).scale = b.scale := rfl
@[simp] theorem wr_ras (x : Fld) (v : Nat) : (b.wr x v).ras = b.ras := rfl
@[simp] theorem wr_power (x : Fld) (v : Nat) : (b.wr x v).power = b.power := rfl
@[simp] theorem wr_sec (x : Fld) (v : Nat) : (b.wr x v).sec = b.sec := rfl
@[simp] theorem wr_host (x : Fld) (v : Nat) : (b.wr x v).host = b.host := rfl
@[simp] theorem wr_mgmt (x : Fld) (v : Nat) : (b.wr x v).mgmt = b.mgmt := rfl
@[simp] theorem wr_rst (x : Fld) (v : Nat) : (b.wr x v).rst = b.rst := rfl
@[simp] theorem wr_out (x : Fld) (v : Nat) : (b.wr x v).out = b.out := rfl
@[simp] theorem wr_freeCtr (x : Fld) (v : Nat) : (b.wr x v).freeCtr = b.freeCtr := rfl
@[simp] theorem wr_byte (x : Fld) (v : Nat) (a : Nat) : (b.wr x v).byte a = b.byte a := rfl
@[simp] theorem wr_core (x : Fld) (v : Nat) (c : Nat) : (b.wr x v).core c = b.core c := rfl
@[simp] theorem wr_port (x : Fld) (v : Nat) (q : Nat) : (b.wr x v).port q = b.port q := rfl
@[simp] theorem wr_now (x : Fld) (v : Nat) : (b.wr x v).now = b.now := rfl

@[simp] theorem setByte_part (k : Nat) (v : Byte) : (b.setByte k v).part = b.part := rfl
@[simp] theorem setByte_regs (k : Nat) (v : Byte) : (b.setByte k v).regs = b.regs := rfl
@[simp] theorem setByte_err (k : Nat) (v : Byte) : (b.setByte k v).err = b.err := rfl
@[simp] theorem setByte_flash (k : Nat) (v : Byte) : (b.setByte k v).flash = b.flash := rfl
@[simp] theorem setByte_ev (k : Nat) (v : Byte) : (b.setByte k v).ev = b.ev := rfl
@[simp] theorem setByte_time (k : Nat) (v : Byte) : (b.setByte k v).time = b.time := rfl
@[simp] theorem setByte_sched (k : Nat) (v : Byte) : (b.setByte k v).sched = b.sched := rfl
@[simp] theorem setByte_cores (k : Nat) (v : Byte) : (b.setByte k v).cores = b.cores := rfl
@[simp] theorem setByte_vote (k : Nat) (v : Byte) : (b.setByte k v).vote = b.vote := rfl
@[simp] theorem setByte_regions (k : Nat) (v : Byte) : (b.setByte k v).regions = b.regions := rfl
@[simp] theorem setByte_xfers (k : Nat) (v : Byte) : (b.setByte k v).xfers = b.xfers := rfl
@[simp] theorem setByte_nextXfer (k : Nat) (v : Byte) : (b.setByte k v).nextXfer = b.nextXfer := rfl
@[simp] theorem setByte_claims (k : Nat) (v : Byte) : (b.setByte k v).claims = b.claims := rfl
@[simp] theorem setByte_checks (k : Nat) (v : Byte) : (b.setByte k v).checks = b.checks := rfl
@[simp] theorem setByte_gath (k : Nat) (v : Byte) : (b.setByte k v).gath = b.gath := rfl
@[simp] theorem setByte_ncache (k : Nat) (v : Byte) : (b.setByte k v).ncache = b.ncache := rfl
@[simp] theorem setByte_memReqs (k : Nat) (v : Byte) : (b.setByte k v).memReqs = b.memReqs := rfl
@[simp] theorem setByte_mds (k : Nat) (v : Byte) : (b.setByte k v).mds = b.mds := rfl
@[simp] theorem setByte_ports (k : Nat) (v : Byte) : (b.setByte k v).ports = b.ports := rfl
@[simp] theorem setByte_takes (k : Nat) (v : Byte) : (b.setByte k v).takes = b.takes := rfl
@[simp] theorem setByte_routers (k : Nat) (v : Byte) : (b.setByte k v).routers = b.routers := rfl
@[simp] theorem setByte_inbox (k : Nat) (v : Byte) : (b.setByte k v).inbox = b.inbox := rfl
@[simp] theorem setByte_crossing (k : Nat) (v : Byte) : (b.setByte k v).crossing = b.crossing := rfl
@[simp] theorem setByte_coll (k : Nat) (v : Byte) : (b.setByte k v).coll = b.coll := rfl
@[simp] theorem setByte_journal (k : Nat) (v : Byte) : (b.setByte k v).journal = b.journal := rfl
@[simp] theorem setByte_run (k : Nat) (v : Byte) : (b.setByte k v).run = b.run := rfl
@[simp] theorem setByte_scale (k : Nat) (v : Byte) : (b.setByte k v).scale = b.scale := rfl
@[simp] theorem setByte_ras (k : Nat) (v : Byte) : (b.setByte k v).ras = b.ras := rfl
@[simp] theorem setByte_power (k : Nat) (v : Byte) : (b.setByte k v).power = b.power := rfl
@[simp] theorem setByte_sec (k : Nat) (v : Byte) : (b.setByte k v).sec = b.sec := rfl
@[simp] theorem setByte_host (k : Nat) (v : Byte) : (b.setByte k v).host = b.host := rfl
@[simp] theorem setByte_mgmt (k : Nat) (v : Byte) : (b.setByte k v).mgmt = b.mgmt := rfl
@[simp] theorem setByte_rst (k : Nat) (v : Byte) : (b.setByte k v).rst = b.rst := rfl
@[simp] theorem setByte_out (k : Nat) (v : Byte) : (b.setByte k v).out = b.out := rfl
@[simp] theorem setByte_freeCtr (k : Nat) (v : Byte) : (b.setByte k v).freeCtr = b.freeCtr := rfl
@[simp] theorem setByte_reg (k : Nat) (v : Byte) (r : Reg) : (b.setByte k v).reg r = b.reg r := rfl
@[simp] theorem setByte_rd (k : Nat) (v : Byte) (x : Fld) : (b.setByte k v).rd x = b.rd x := rfl
@[simp] theorem setByte_on (k : Nat) (v : Byte) (x : Fld) : (b.setByte k v).on x = b.on x := rfl
@[simp] theorem setByte_rdI (k : Nat) (v : Byte) (x : Fld) : (b.setByte k v).rdI x = b.rdI x := rfl
@[simp] theorem setByte_core (k : Nat) (v : Byte) (c : Nat) : (b.setByte k v).core c = b.core c := rfl
@[simp] theorem setByte_port (k : Nat) (v : Byte) (q : Nat) : (b.setByte k v).port q = b.port q := rfl
@[simp] theorem setByte_now (k : Nat) (v : Byte) : (b.setByte k v).now = b.now := rfl

@[simp] theorem setCore_core_same (k : Nat) (c : CoreSt) : (b.setCore k c).core k = c := Sp.get_set_same _ _ _ _
theorem setCore_core_ne (k j : Nat) (c : CoreSt) (h : j ≠ k) : (b.setCore k c).core j = b.core j := Sp.get_set_ne _ _ _ _ _ h
@[simp] theorem updCore_core_same (k : Nat) (f : CoreSt → CoreSt) : (b.updCore k f).core k = f (b.core k) :=
  Sp.get_set_same _ _ _ _
theorem updCore_core_ne (k j : Nat) (f : CoreSt → CoreSt) (h : j ≠ k) : (b.updCore k f).core j = b.core j :=
  Sp.get_set_ne _ _ _ _ _ h
@[simp] theorem updPort_port_same (p : Nat) (f : PortSt → PortSt) : (b.updPort p f).port p = f (b.port p) :=
  Sp.get_set_same _ _ _ _
theorem updPort_port_ne (p q : Nat) (f : PortSt → PortSt) (h : q ≠ p) : (b.updPort p f).port q = b.port q :=
  Sp.get_set_ne _ _ _ _ _ h
@[simp] theorem setByte_byte_same (k : Nat) (v : Byte) : (b.setByte k v).byte k = v := Sp.get_set_same _ _ _ _
theorem setByte_byte_ne (k j : Nat) (v : Byte) (h : j ≠ k) : (b.setByte k v).byte j = b.byte j := Sp.get_set_ne _ _ _ _ _ h

end Sys2Proof.Machine
end

