-- ==== Sys2Proof/Laws/Regs.lean ====
section
/-!
SUPPORT. Laws of registers: a field reads as what was written to it; other fields and other registers are unchanged.
-/
namespace Sys2Proof.Machine
variable (b : Blk)

/-- A register write replaces the register store and nothing else. -/
theorem setReg_eq (r : Reg) (v : Nat) : b.setReg r v = { b with regs := (b.setReg r v).regs } := rfl
theorem wr_eq (f : Fld) (v : Nat) : b.wr f v = { b with regs := (b.wr f v).regs } := rfl

theorem reg_lt (r : Reg) : b.reg r < 2 ^ 64 := BitVec.isLt _

@[simp] theorem setReg_reg_same (r : Reg) (v : Nat) : (b.setReg r v).reg r = v % 2 ^ 64 := by
  simp [Blk.reg, Blk.setReg]

/-- Registers at different device addresses do not share a value. -/
theorem setReg_reg_ne (r s : Reg) (v : Nat) (h : s.addr ≠ r.addr) : (b.setReg r v).reg s = b.reg s := by
  unfold Blk.reg Blk.setReg
  exact congrArg BitVec.toNat (Sp.get_set_ne' _ _ _ _ _ _ h)

theorem setReg_rd_ne (r : Reg) (f : Fld) (v : Nat) (h : f.reg.addr ≠ r.addr) : (b.setReg r v).rd f = b.rd f := by
  simp only [Blk.rd, setReg_reg_ne b r f.reg v h]

/-- A field of a register that was written whole. -/
theorem setReg_rd_same (f : Fld) (v : Nat) (h : f.lo + f.w ≤ 64) : (b.setReg f.reg v).rd f = bits v f.lo f.w := by
  rw [Blk.rd, setReg_reg_same, bits_mod _ _ _ _ h]

theorem rd_lt (f : Fld) : b.rd f < 2 ^ f.w := bits_lt _ _ _

/-- A written field reads as the low bits of the value. -/
theorem wr_rd_same (f : Fld) (v : Nat) (h : f.lo + f.w ≤ 64) : (b.wr f v).rd f = v % 2 ^ f.w := by
  rw [Blk.rd, Blk.wr, setReg_reg_same, bits_mod _ _ _ _ h, bits_setBits_same]

/-- A field of another register keeps its value. -/
theorem wr_rd_ne (f g : Fld) (v : Nat) (h : g.reg.addr ≠ f.reg.addr) : (b.wr f v).rd g = b.rd g := setReg_rd_ne b _ _ _ h

theorem wr_reg_ne (f : Fld) (r : Reg) (v : Nat) (h : r.addr ≠ f.reg.addr) : (b.wr f v).reg r = b.reg r :=
  setReg_reg_ne b _ _ _ h

/-- The same, with the written field's register named. -/
theorem wr_reg_of (f : Fld) (q r : Reg) (v : Nat) (hq : f.reg = q) (h : r.addr ≠ q.addr) : (b.wr f v).reg r = b.reg r :=
  wr_reg_ne b f r v (hq ▸ h)
theorem wr_rd_of (f g : Fld) (q r : Reg) (v : Nat) (hq : f.reg = q) (hr : g.reg = r) (h : r.addr ≠ q.addr) :
    (b.wr f v).rd g = b.rd g := wr_rd_ne b f g v (hq ▸ hr ▸ h)

/-- Another field of the same register keeps its value. -/
theorem wr_rd_disj (f g : Fld) (v : Nat) (hr : g.reg = f.reg) (h : g.lo + g.w ≤ f.lo ∨ f.lo + f.w ≤ g.lo)
    (h64 : g.lo + g.w ≤ 64) : (b.wr f v).rd g = b.rd g := by
  rw [Blk.rd, Blk.wr, hr, setReg_reg_same, bits_mod _ _ _ _ h64, bits_setBits_ne _ _ _ _ _ _ h, Blk.rd, hr]

theorem wr_on_same (f : Fld) (v : Nat) (h : f.lo + f.w ≤ 64) : (b.wr f v).on f = decide (v % 2 ^ f.w ≠ 0) := by
  rw [Blk.on, wr_rd_same b f v h]

theorem wr_on_ne (f g : Fld) (v : Nat) (h : g.reg.addr ≠ f.reg.addr) : (b.wr f v).on g = b.on g := by
  rw [Blk.on, Blk.on, wr_rd_ne b f g v h]

theorem wr_on_disj (f g : Fld) (v : Nat) (hr : g.reg = f.reg) (h : g.lo + g.w ≤ f.lo ∨ f.lo + f.w ≤ g.lo)
    (h64 : g.lo + g.w ≤ 64) : (b.wr f v).on g = b.on g := by
  rw [Blk.on, Blk.on, wr_rd_disj b f g v hr h h64]

theorem wrB_eq (f : Fld) (v : Bool) : b.wrB f v = b.wr f (b2n v) := rfl
theorem incBy_eq (f : Fld) (n : Nat) : b.incBy f n = b.wr f (b.rd f + n) := rfl
theorem satBy_eq (f : Fld) (n : Nat) : b.satBy f n = b.wr f (satur f.w (b.rd f + n)) := rfl

/-- A saturating counter reads as the saturated sum. -/
theorem satBy_rd_same (f : Fld) (n : Nat) (h : f.lo + f.w ≤ 64) : (b.satBy f n).rd f = satur f.w (b.rd f + n) := by
  rw [satBy_eq, wr_rd_same _ _ _ h, Nat.mod_eq_of_lt (satur_lt _ _)]

theorem ifB_rd (c : Bool) (f : Blk → Blk) (x : Fld) (h : (f b).rd x = b.rd x) : (ifB c f b).rd x = b.rd x := by
  cases c <;> simp [ifB, h]

/-- A fold of updates that each keep a value keeps it. -/
theorem foldl_keep {α β γ : Type} (f : β → α → β) (q : β → γ) (l : List α) (s : β) (h : ∀ s, ∀ a ∈ l, q (f s a) = q s) :
    q (l.foldl f s) = q s := by
  induction l generalizing s with
  | nil => rfl
  | cons a l ih =>
    rw [List.foldl_cons, ih (f s a) fun s' a' ha => h s' a' (List.mem_cons_of_mem _ ha), h s a (List.mem_cons_self ..)]

/-- A fold of updates that each keep an invariant keeps it. -/
theorem foldl_inv {α β : Type} (f : β → α → β) (q : β → Prop) (l : List α) (s : β) (h0 : q s)
    (h : ∀ s, ∀ a ∈ l, q s → q (f s a)) : q (l.foldl f s) := by
  induction l generalizing s with
  | nil => exact h0
  | cons a l ih =>
    exact ih (f s a) (h s a (List.mem_cons_self ..) h0) fun s' a' ha => h s' a' (List.mem_cons_of_mem _ ha)

end Sys2Proof.Machine
end

