-- ==== Sys2Proof/Laws/Core.lean ====
section
/-!
SUPPORT. Laws of the core sequencer: what issuing an instruction does to the core that issues it, and that it leaves every
other core, every register outside the core's block and everything else alone.
-/
namespace Sys2Proof.Machine
variable (b : Blk)

@[simp] theorem coreKey_div (c : CoreId) : coreKey c / 32 = c.cd.val := by
  have := c.site.isLt
  unfold coreKey; omega
@[simp] theorem coreKey_mod (c : CoreId) : coreKey c % 32 = c.site.val := by
  have := c.site.isLt
  unfold coreKey; omega
theorem coreKey_lt (c : CoreId) : coreKey c < 384 := by
  have := c.site.isLt
  have := c.cd.isLt
  unfold coreKey; omega

/-! ### Scalars and predicates of a context (R93, R138) -/

@[simp] theorem getS_zero (c : Ctx) : c.getS 0 = 0 := rfl
@[simp] theorem getP_zero (c : Ctx) : c.getP 0 = true := rfl
@[simp] theorem setS_zero (c : Ctx) (v : Quad) (p : Bool) : c.setS 0 v p = c := rfl
@[simp] theorem setP_zero (c : Ctx) (v p : Bool) : c.setP 0 v p = c := rfl
theorem getS_setS_same (c : Ctx) (n : Nat) (v : Quad) (p : Bool) (h : n ≠ 0) : (c.setS n v p).getS n = v := by
  simp [Ctx.setS, Ctx.getS, h]
theorem getS_setS_ne (c : Ctx) (n m : Nat) (v : Quad) (p : Bool) (h : m ≠ n) : (c.setS n v p).getS m = c.getS m := by
  unfold Ctx.setS
  split
  · rfl
  · unfold Ctx.getS
    split
    · rfl
    · exact Sp.get_set_ne _ _ _ _ _ h
theorem getP_setP_same (c : Ctx) (n : Nat) (v p : Bool) (h : n ≠ 0) : (c.setP n v p).getP n = v := by
  simp [Ctx.setP, Ctx.getP, h]
theorem getP_setP_ne (c : Ctx) (n m : Nat) (v p : Bool) (h : m ≠ n) : (c.setP n v p).getP m = c.getP m := by
  unfold Ctx.setP
  split
  · rfl
  · unfold Ctx.getP
    split
    · rfl
    · exact Sp.get_set_ne _ _ _ _ _ h
@[simp] theorem getP_setS (c : Ctx) (n m : Nat) (v : Quad) (p : Bool) : (c.setS n v p).getP m = c.getP m := by
  unfold Ctx.setS; split <;> rfl
@[simp] theorem getS_setP (c : Ctx) (n m : Nat) (v p : Bool) : (c.setP n v p).getS m = c.getS m := by
  unfold Ctx.setP; split <;> rfl

/-! ### Slots -/

@[simp] theorem ctx_updCtx_same (c : CoreSt) (s : Nat) (f : Ctx → Ctx) : (c.updCtx s f).ctx s = f (c.ctx s) := by
  unfold CoreSt.ctx CoreSt.updCtx; split <;> rfl
theorem ctx_updCtx_ne (c : CoreSt) (s t : Nat) (f : Ctx → Ctx) (h : (s = 0) ≠ (t = 0)) : (c.updCtx s f).ctx t = c.ctx t := by
  unfold CoreSt.ctx CoreSt.updCtx
  by_cases hs : s = 0 <;> by_cases ht : t = 0 <;> simp_all
@[simp] theorem updCtx_cyc (c : CoreSt) (s : Nat) (f : Ctx → Ctx) : (c.updCtx s f).cyc = c.cyc := by
  unfold CoreSt.updCtx; split <;> rfl
@[simp] theorem updCtx_loops (c : CoreSt) (s : Nat) (f : Ctx → Ctx) : (c.updCtx s f).loops = c.loops := by
  unfold CoreSt.updCtx; split <;> rfl
@[simp] theorem updCtx_brs (c : CoreSt) (s : Nat) (f : Ctx → Ctx) : (c.updCtx s f).brs = c.brs := by
  unfold CoreSt.updCtx; split <;> rfl

theorem ctx_of (x y : Blk) (k : Nat) (hc : x.core k = y.core k) (hs : x.slot k = y.slot k) : x.ctx k = y.ctx k := by
  unfold Blk.ctx; rw [hc, hs]
@[simp] theorem updCore_slot (k j : Nat) (f : CoreSt → CoreSt) : (b.updCore k f).slot j = b.slot j := rfl
@[simp] theorem updCtx_slot (k j : Nat) (f : Ctx → Ctx) : (b.updCtx k f).slot j = b.slot j := rfl
@[simp] theorem updCtx_pc (k j : Nat) (f : Ctx → Ctx) : (b.updCtx k f).pc j = b.pc j := rfl
@[simp] theorem updCtx_reg (k : Nat) (f : Ctx → Ctx) (r : Reg) : (b.updCtx k f).reg r = b.reg r := rfl
theorem updCtx_core_ne (k j : Nat) (f : Ctx → Ctx) (h : j ≠ k) : (b.updCtx k f).core j = b.core j := updCore_core_ne _ _ _ _ h
@[simp] theorem updCtx_core (k : Nat) (f : Ctx → Ctx) : (b.updCtx k f).core k = (b.core k).updCtx (b.slot k) f :=
  updCore_core_same _ _ _
@[simp] theorem updCtx_ctx (k : Nat) (f : Ctx → Ctx) : (b.updCtx k f).ctx k = f (b.ctx k) := by
  simp [Blk.ctx]

/-! ### Counting, spending, moving on -/

theorem seqStatus_addr (cd x : Nat) : (Reg.seqStatus cd x).addr = coreBase cd x + 0x8 := rfl
theorem seqIssued_addr (cd x : Nat) : (Reg.seqIssued cd x).addr = coreBase cd x + 0x48 := rfl
theorem seqStall_addr (cd x e c : Nat) : (Reg.seqStall cd x e c).addr = coreBase cd x + 0x1000 + e * 128 + c * 8 := rfl
theorem seqPerfCtrl_addr (cd x : Nat) : (Reg.seqPerfCtrl cd x).addr = coreBase cd x + 0x38 := rfl

theorem seqStatus_ne_seqIssued (k : Nat) : (Reg.seqStatus (k / 32) (k % 32)).addr ≠ (Reg.seqIssued (k / 32) (k % 32)).addr := by
  rw [seqStatus_addr, seqIssued_addr]; omega
theorem seqStatus_ne_seqStall (k e c : Nat) : (Reg.seqStatus (k / 32) (k % 32)).addr ≠ (Reg.seqStall (k / 32) (k % 32) e c).addr := by
  rw [seqStatus_addr, seqStall_addr]; omega

/-- A stall count writes one register. -/
theorem stall_reg_ne (k e c n : Nat) (r : Reg) (h : r.addr ≠ (Reg.seqStall (k / 32) (k % 32) e c).addr) :
    (b.stall k e c n).reg r = b.reg r := by
  unfold Blk.stall
  split
  · rfl
  · exact wr_reg_ne _ _ _ _ h
theorem stall_eq (k e c n : Nat) : b.stall k e c n = { b with regs := (b.stall k e c n).regs } := by
  unfold Blk.stall; split <;> rfl
@[simp] theorem stall_core (k e c n j : Nat) : (b.stall k e c n).core j = b.core j := by rw [stall_eq]; rfl
@[simp] theorem stall_pc (k e c n : Nat) : (b.stall k e c n).pc k = b.pc k := by
  simp only [Blk.pc, Blk.rd, stall_reg_ne b k e c n _ (seqStatus_ne_seqStall k e c), SEQ_STATUS.pc]
@[simp] theorem stall_slot (k e c n : Nat) : (b.stall k e c n).slot k = b.slot k := by
  simp only [Blk.slot, Blk.rd, stall_reg_ne b k e c n _ (seqStatus_ne_seqStall k e c), SEQ_STATUS.ctx]
@[simp] theorem stall_seqState (k e c n : Nat) : (b.stall k e c n).seqState k = b.seqState k := by
  simp only [Blk.seqState, Blk.rd, stall_reg_ne b k e c n _ (seqStatus_ne_seqStall k e c), SEQ_STATUS.state]
@[simp] theorem stall_ctx (k e c n : Nat) : (b.stall k e c n).ctx k = b.ctx k := ctx_of _ _ _ (by simp) (by simp)

theorem countIssue_reg_ne (k : Nat) (r : Reg) (h0 : r.addr ≠ (Reg.seqStall (k / 32) (k % 32) 0 0).addr)
    (h1 : r.addr ≠ (Reg.seqIssued (k / 32) (k % 32)).addr) : (b.countIssue k).reg r = b.reg r := by
  unfold Blk.countIssue
  dsimp only
  split
  · exact stall_reg_ne _ _ _ _ _ _ h0
  · exact (wr_reg_ne _ _ _ _ h1).trans (stall_reg_ne _ _ _ _ _ _ h0)
theorem countIssue_eq (k : Nat) : b.countIssue k = { b with regs := (b.countIssue k).regs } := by
  unfold Blk.countIssue
  dsimp only
  rw [stall_eq]
  split <;> rfl
@[simp] theorem countIssue_core (k j : Nat) : (b.countIssue k).core j = b.core j := by rw [countIssue_eq]; rfl
theorem countIssue_status (k : Nat) : (b.countIssue k).reg (.seqStatus (k / 32) (k % 32)) = b.reg (.seqStatus (k / 32) (k % 32)) :=
  countIssue_reg_ne _ _ _ (seqStatus_ne_seqStall k 0 0) (seqStatus_ne_seqIssued k)
@[simp] theorem countIssue_pc (k : Nat) : (b.countIssue k).pc k = b.pc k := by
  simp only [Blk.pc, Blk.rd, SEQ_STATUS.pc, countIssue_status]
@[simp] theorem countIssue_slot (k : Nat) : (b.countIssue k).slot k = b.slot k := by
  simp only [Blk.slot, Blk.rd, SEQ_STATUS.ctx, countIssue_status]
@[simp] theorem countIssue_ctx (k : Nat) : (b.countIssue k).ctx k = b.ctx k := ctx_of _ _ _ (by simp) (by simp)

@[simp] theorem spend_pc (k n j : Nat) : (b.spend k n).pc j = b.pc j := rfl
@[simp] theorem spend_slot (k n j : Nat) : (b.spend k n).slot j = b.slot j := rfl
@[simp] theorem spend_reg (k n : Nat) (r : Reg) : (b.spend k n).reg r = b.reg r := rfl
@[simp] theorem spend_core (k n : Nat) : (b.spend k n).core k = { b.core k with cyc := (b.core k).cyc + n } := updCore_core_same _ _ _
theorem spend_core_ne (k n j : Nat) (h : j ≠ k) : (b.spend k n).core j = b.core j := updCore_core_ne _ _ _ _ h
@[simp] theorem spend_ctx (k n : Nat) : (b.spend k n).ctx k = b.ctx k := by simp [Blk.ctx, CoreSt.ctx]

theorem jump_eq (k p : Nat) : b.jump k p = { b with regs := (b.jump k p).regs, cores := (b.jump k p).cores } := rfl
theorem jump_reg_ne (k p : Nat) (r : Reg) (h : r.addr ≠ (Reg.seqStatus (k / 32) (k % 32)).addr) : (b.jump k p).reg r = b.reg r :=
  (wr_reg_ne _ (SEQ_STATUS.pc (k / 32) (k % 32)) r _ h).trans (setCore_reg ..)
theorem jump_core_ne (k p j : Nat) (h : j ≠ k) : (b.jump k p).core j = b.core j :=
  (wr_core ..).trans (setCore_core_ne _ _ _ _ h)
@[simp] theorem jump_core (k p : Nat) : (b.jump k p).core k =
    { b.core k with loops := (closeAt 16 (b.core k).loops (b.core k).brs p).1,
                    brs := (closeAt 16 (b.core k).loops (b.core k).brs p).2.1 } :=
  (wr_core ..).trans (setCore_core_same _ _ _)
@[simp] theorem jump_pc (k p : Nat) : (b.jump k p).pc k = (closeAt 16 (b.core k).loops (b.core k).brs p).2.2 % 2 ^ 11 :=
  wr_rd_same _ _ _ (by simp [SEQ_STATUS.pc])
@[simp] theorem jump_slot (k p : Nat) : (b.jump k p).slot k = b.slot k :=
  wr_rd_disj _ _ _ _ rfl (by simp [SEQ_STATUS.pc, SEQ_STATUS.ctx]) (by simp [SEQ_STATUS.ctx])
@[simp] theorem jump_seqState (k p : Nat) : (b.jump k p).seqState k = b.seqState k :=
  wr_rd_disj _ _ _ _ rfl (by simp [SEQ_STATUS.pc, SEQ_STATUS.state]) (by simp [SEQ_STATUS.state])
@[simp] theorem jump_ctx (k p : Nat) : (b.jump k p).ctx k = b.ctx k := by simp [Blk.ctx, CoreSt.ctx]

@[simp] theorem countIssue_guardOn (k : Nat) (g : Guard) : (b.countIssue k).guardOn k g = b.guardOn k g := by
  unfold Blk.guardOn; rw [countIssue_ctx]

/-! ### Issue -/

/-- An instruction that may issue and whose guard holds has its effect, costs one cycle, and control moves on. -/
theorem issue_runs (i : Issue) (wf : Bool) (e : Nat → Blk → Blk) (h : b.issuing (coreKey i.core) = true)
    (hf : (b.fireFetch (coreKey i.core)).1 = false) (hw : wf = true) (hg : b.guardOn (coreKey i.core) i.guard = true) :
    issue i wf e b =
      ((e (coreKey i.core) (b.countIssue (coreKey i.core))).spend (coreKey i.core) 1).jump (coreKey i.core)
        (b.pc (coreKey i.core) + 1) := by
  simp [issue, h, hf, hw, hg]

/-- A guard that does not hold leaves the cost and the advance. -/
theorem issue_off (i : Issue) (e : Nat → Blk → Blk) (h : b.issuing (coreKey i.core) = true)
    (hf : (b.fireFetch (coreKey i.core)).1 = false) (hg : b.guardOn (coreKey i.core) i.guard = false) :
    issue i true e b =
      ((b.countIssue (coreKey i.core)).spend (coreKey i.core) 1).jump (coreKey i.core) (b.pc (coreKey i.core) + 1) := by
  simp [issue, h, hf, hg]

/-- A core that does not issue: nothing happens. -/
theorem issue_idle (i : Issue) (wf : Bool) (e : Nat → Blk → Blk) (h : b.issuing (coreKey i.core) = false) : issue i wf e b = b := by
  simp [issue, h]
theorem issueCtl_idle (i : Issue) (wf : Bool) (e : Nat → Blk → Blk) (h : b.issuing (coreKey i.core) = false) :
    issueCtl i wf e b = b := by simp [issueCtl, h]

/-- An encoding that check 0x02 refuses is a fault under R161. -/
theorem issue_bad (i : Issue) (e : Nat → Blk → Blk) (h : b.issuing (coreKey i.core) = true)
    (hf : (b.fireFetch (coreKey i.core)).1 = false) : issue i false e b = b.fetchFault (coreKey i.core) := by
  simp [issue, h, hf]

theorem issueCtl_runs (i : Issue) (wf : Bool) (e : Nat → Blk → Blk) (h : b.issuing (coreKey i.core) = true)
    (hf : (b.fireFetch (coreKey i.core)).1 = false) (hw : wf = true) :
    issueCtl i wf e b = e (coreKey i.core) (b.countIssue (coreKey i.core)) := by
  simp [issueCtl, h, hf, hw]

end Sys2Proof.Machine
end

