-- ==== Sys2Proof/Laws/Calendar.lean ====
section
/-!
SUPPORT. What the shared operations of calendars, windows and counters change: performance counts move registers alone, the start
of a write moves regions, near caches and counts, claims and lookups move their own lists; and what a tick is where nothing waits.
-/
namespace Sys2Proof.Machine
variable (b : Blk)

/-- A fold of updates that each move registers alone moves registers alone. -/
theorem foldl_regs {α : Type} (f : Blk → α → Blk) (l : List α) (h : ∀ c a, f c a = { c with regs := (f c a).regs }) :
    l.foldl f b = { b with regs := (l.foldl f b).regs } :=
  foldl_inv f (fun c => c = { b with regs := c.regs }) l b rfl fun c a _ hc => by rw [h c a]; rw [hc]

/-! ### Performance events (R378) -/

theorem perf_eq (die ev u n : Nat) : b.perf die ev u n = { b with regs := (b.perf die ev u n).regs } := by
  unfold Blk.perf
  split
  · rfl
  · exact foldl_regs b _ _ fun c i => by split <;> rfl

@[simp] theorem perf_mem (die ev u n : Nat) : (b.perf die ev u n).mem = b.mem := by rw [perf_eq]
@[simp] theorem perf_err (die ev u n : Nat) : (b.perf die ev u n).err = b.err := by rw [perf_eq]
@[simp] theorem perf_core (die ev u n k : Nat) : (b.perf die ev u n).core k = b.core k := by rw [perf_eq]; rfl
@[simp] theorem perf_port (die ev u n p : Nat) : (b.perf die ev u n).port p = b.port p := by rw [perf_eq]; rfl
@[simp] theorem perf_now (die ev u n : Nat) : (b.perf die ev u n).now = b.now := by rw [perf_eq]; rfl

/-- A frozen block of counters counts nothing. -/
theorem perf_frozen (die ev u n : Nat) (h : b.on (PERF_CTRL.freeze die) = true) : b.perf die ev u n = b := by
  simp [Blk.perf, h]

theorem bursts_eq (write : Bool) (key n : Nat) : b.bursts write key n = { b with regs := (b.bursts write key n).regs } := by
  unfold Blk.bursts
  split
  · rfl
  · refine foldl_regs b _ _ fun c i => ?_
    dsimp only
    split
    · split
      · rw [perf_eq, perf_eq c]
      · rw [perf_eq]
    · rw [perf_eq]

/-- The bursts of staging and core SRAM count on no channel. -/
theorem bursts_far (write : Bool) (key n : Nat) (h : stageKey ≤ key) : b.bursts write key n = b := by simp [Blk.bursts, h]

theorem countGroup_eq (g : Nat) : b.countGroup g = { b with regs := (b.countGroup g).regs } := by
  unfold Blk.countGroup
  rw [perf_eq, incBy_eq, wr_eq]

theorem countRmw_eq (key n : Nat) : b.countRmw key n = { b with regs := (b.countRmw key n).regs } := by
  have two (c : Blk) (x y : Nat) : (c.countGroup x).countGroup y = { c with regs := ((c.countGroup x).countGroup y).regs } := by
    rw [countGroup_eq (c.countGroup x), countGroup_eq c]
  have all (c : Blk) (hc : c = { b with regs := c.regs }) (f : Blk → Blk) (hf : f c = { c with regs := (f c).regs }) :
      f c = { b with regs := (f c).regs } := by rw [hf]; rw [hc]
  have h := bursts_eq b true key n
  unfold Blk.countRmw
  dsimp only
  split
  · exact h
  · split
    · split
      · exact h
      · exact all _ h (·.countGroup _) (countGroup_eq _ _)
    · split <;> split
      · exact h
      · exact all _ h (·.countGroup _) (countGroup_eq _ _)
      · exact all _ h (·.countGroup _) (countGroup_eq _ _)
      · exact all _ h (fun c => (c.countGroup _).countGroup _) (two _ _ _)

theorem countTime_eq : b.countTime = { b with regs := b.countTime.regs } := by
  have all (f : Blk → Blk) (hf : ∀ c, f c = { c with regs := (f c).regs }) (c : Blk) (hc : c = { b with regs := c.regs }) :
      f c = { b with regs := (f c).regs } := by rw [hf c]; rw [hc]
  have fold (g : Blk → Nat → Blk) (n : Nat) (hg : ∀ c i, g c i = { c with regs := (g c i).regs }) (c : Blk) :
      (List.range n).foldl g c = { c with regs := ((List.range n).foldl g c).regs } := foldl_regs c g _ hg
  unfold Blk.countTime
  dsimp only
  generalize 12 = twelve, 4 = four, 10 = ten
  split
  · rfl
  · apply all (fun c => (List.range ten).foldl _ c) (fold _ _ fun d p => ?_)
    · apply all (fun c => (List.range four).foldl _ c) (fold _ _ fun d m => perf_eq d ..)
      split
      · rfl
      · exact fold _ _ (fun d m => perf_eq d ..) b
    · split
      · rfl
      · rw [perf_eq, perf_eq d]

/-! ### The start of a write transfer (R176, R185, R190) -/

theorem openRegions_eq (rs : List Nat) :
    b.openRegions rs = { b with regions := (b.openRegions rs).regions, ncache := (b.openRegions rs).ncache } := by
  have h : ∀ c : Blk, c = { b with regions := c.regions } →
      rs.foldl (fun b r => b.updRegion r fun x => { gen := x.gen + 1, inFlight := x.inFlight + 1 }) c
        = { b with regions := (rs.foldl (fun b r => b.updRegion r fun x => { gen := x.gen + 1, inFlight := x.inFlight + 1 }) c).regions } :=
    fun c hc => foldl_inv _ (fun d => d = { b with regions := d.regions }) rs c hc fun d r _ hd => by rw [hd]; rfl
  unfold Blk.openRegions
  dsimp only
  rw [h b rfl]

theorem beginWrite_eq (key n : Nat) :
    b.beginWrite key n = { b with regions := (b.beginWrite key n).regions, ncache := (b.beginWrite key n).ncache } := by
  unfold Blk.beginWrite
  split
  · rfl
  · exact openRegions_eq ..

/-- The start of a write moves registers, regions and near caches, and no byte. -/
theorem openWrite_eq (key n : Nat) :
    b.openWrite key n =
      { b with regs := (b.openWrite key n).regs, regions := (b.openWrite key n).regions, ncache := (b.openWrite key n).ncache } := by
  unfold Blk.openWrite
  rw [countRmw_eq, beginWrite_eq]

@[simp] theorem openWrite_mem (key n : Nat) : (b.openWrite key n).mem = b.mem := by rw [openWrite_eq]
@[simp] theorem openWrite_err (key n : Nat) : (b.openWrite key n).err = b.err := by rw [openWrite_eq]

/-! ### Claims and lookups (R172, R184) -/

/-- A transfer inside one core claims nothing. -/
@[simp] theorem claimLanes_nil : b.claimLanes [] = (false, b) := rfl

/-- Claims that meet no other requester's are noted, and nothing else happens. -/
theorem claimLanes_alone (us : List LaneUse) (h : ∀ u ∈ us, ∀ v ∈ b.claims, v.core ≠ u.core → v.meets u = false) :
    b.claimLanes us = (false, if us = [] then b else { b with claims := b.liveClaims ++ us }) := by
  have hits : us.flatMap (fun u => (b.claims.filter fun v => v.core ≠ u.core ∧ v.meets u).map fun v => (u, v)) = [] := by
    rw [List.flatMap_eq_nil_iff]
    intro u hu
    rw [List.map_eq_nil_iff, List.filter_eq_nil_iff]
    intro v hv
    by_cases hc : v.core = u.core
    · simp [hc]
    · simp [h u hu v hv hc]
  unfold Blk.claimLanes
  split
  · rfl
  · simp only [hits, List.foldl_nil, ne_eq, not_true_eq_false, decide_false]

theorem takeServed_eq (cd p : Nat) (ls : List Nat) :
    (b.takeServed cd p ls).2 = { b with ncache := (b.takeServed cd p ls).2.ncache } := rfl

/-! ### Waits (R165, R183) -/

theorem settleWait_eq (k : Nat) :
    b.settleWait k = { b with regs := (b.settleWait k).regs, cores := (b.settleWait k).cores } := by
  unfold Blk.settleWait
  split
  · dsimp only
    rw [stall_eq]
    rfl
  · rfl

/-- Counting what an engine and the cores that wait for it have waited moves registers, cores and the engine. -/
theorem gathSettle_eq (ge : Nat) :
    b.gathSettle ge = { b with regs := (b.gathSettle ge).regs, cores := (b.gathSettle ge).cores, gath := (b.gathSettle ge).gath } := by
  unfold Blk.gathSettle
  dsimp only
  split
  · rfl
  · have last (c : Blk) (hc : c = { b with regs := c.regs, cores := c.cores }) (x : Fld) (n : Nat) (f : GathSt → GathSt) :
        (c.incBy x n).updGath ge f =
          { b with regs := ((c.incBy x n).updGath ge f).regs, cores := ((c.incBy x n).updGath ge f).cores,
                   gath := ((c.incBy x n).updGath ge f).gath } := by rw [hc]; rfl
    refine last _ (foldl_inv _ (fun d => d = { b with regs := d.regs, cores := d.cores }) _ b rfl fun d s _ hd => ?_) _ _ _
    split
    · split
      · rw [settleWait_eq, hd]
      · exact hd
    · exact hd

/-! ### A tick of machine time (R24, R45, R197) -/

theorem tick_eq : b.tick = { b with time := b.tick.time } := by
  unfold Blk.tick; split <;> rfl

theorem placeImage_none (h : b.run.job = none) : b.placeImage = b := by simp [Blk.placeImage, h]
theorem placeImage_unlocked (h : b.locked = false) : b.placeImage = b := by
  unfold Blk.placeImage; split <;> simp [h]

theorem carryLinks_none (h : b.crossing = []) : b.carryLinks = b := by
  have e : { b with crossing := [] } = b := by rw [← h]
  simp [Blk.carryLinks, h, ifB, e]

/-- Where no job is armed and nothing waits to cross, a tick moves registers and time alone. -/
theorem passTime_quiet (hj : b.run.job = none) (hc : b.crossing = []) : b.passTime = b.countTime.tick := by
  have ht := countTime_eq b
  have h1 : b.countTime.tick.run.job = none := by rw [tick_eq, ht]; exact hj
  have h2 : b.countTime.tick.crossing = [] := by rw [tick_eq, ht]; exact hc
  unfold Blk.passTime
  rw [placeImage_none _ h1, carryLinks_none _ h2]

/-- What the hub sends waits where link remote service has no way, or where something of its waits already. -/
theorem fromHub_waits (ld : Nat) (out : Option Nat) (pkt : RawPacket)
    (h : b.linkIn ld = false ∨ (b.crossing.any fun y => y.ld = ld ∧ y.hub) = true) :
    b.fromHub ld out pkt = { b with crossing := b.crossing ++ [⟨ld, true, out, pkt, 80, true⟩] } := by
  unfold Blk.fromHub
  rcases h with h | h
  · simp [h]
  · rw [if_neg]
    rintro ⟨_, hn⟩
    exact hn (by simpa using h)

theorem fromHub_goes (ld : Nat) (out : Option Nat) (pkt : RawPacket) (h : b.linkIn ld = true) (hc : b.crossing = []) :
    b.fromHub ld out pkt = b.launch ld out pkt := by simp [Blk.fromHub, h, hc]

end Sys2Proof.Machine
end

