-- ==== Sys2Proof/Laws/Events.lean ====
section
/-!
SUPPORT. What detecting an event does (R294, R296): a record is held, the attempt's vote may be marked fail, and nothing else of
the block changes.
-/
namespace Sys2Proof.Machine
variable (b : Blk)

theorem modFail_eq : b.modFail = { b with vote := b.modFail.vote } := by
  unfold Blk.modFail; split <;> rfl

theorem ifModFail_eq (c : Bool) : ifB c Blk.modFail b = { b with vote := (ifB c Blk.modFail b).vote } := by
  cases c
  · rfl
  · exact modFail_eq b

/-- An event that is not coalesced: one record, held. -/
theorem raiseInj_plain (inj : Bool) (die unit code detail : Nat) (hc : coalesced code = false) (h9 : code ≠ 0x0901) :
    b.raiseInj inj die unit code detail =
      (ifB (severity code = 3 && b.locked && code ≠ 0x0204) Blk.modFail b).hold
        ⟨b.now, die, unit, code, severity code, b.evContext die unit inj, detail % 2 ^ 152⟩ := by
  simp only [Blk.raiseInj, hc, h9, if_false, Bool.false_eq_true]

theorem raiseInj_eq (inj : Bool) (die unit code detail : Nat) :
    b.raiseInj inj die unit code detail =
      { b with ev := (b.raiseInj inj die unit code detail).ev, vote := (b.raiseInj inj die unit code detail).vote,
               out := (b.raiseInj inj die unit code detail).out } := by
  unfold Blk.raiseInj
  dsimp only
  rw [ifModFail_eq]
  split
  · split
    · split
      · rfl
      · unfold ifB; split <;> rfl
    · rfl
  · split
    · unfold Blk.ibi; split <;> rfl
    · rfl

theorem raise_eq (die unit code detail : Nat) :
    b.raise die unit code detail =
      { b with ev := (b.raise die unit code detail).ev, vote := (b.raise die unit code detail).vote,
               out := (b.raise die unit code detail).out } := raiseInj_eq b false die unit code detail

@[simp] theorem raiseInj_reg (inj : Bool) (die unit code detail : Nat) (r : Reg) :
    (b.raiseInj inj die unit code detail).reg r = b.reg r := by rw [raiseInj_eq]; rfl
@[simp] theorem raiseInj_rd (inj : Bool) (die unit code detail : Nat) (f : Fld) :
    (b.raiseInj inj die unit code detail).rd f = b.rd f := by rw [raiseInj_eq]; rfl
@[simp] theorem raiseInj_on (inj : Bool) (die unit code detail : Nat) (f : Fld) :
    (b.raiseInj inj die unit code detail).on f = b.on f := by rw [raiseInj_eq]; rfl
@[simp] theorem raise_reg (die unit code detail : Nat) (r : Reg) : (b.raise die unit code detail).reg r = b.reg r := raiseInj_reg ..
@[simp] theorem raise_rd (die unit code detail : Nat) (f : Fld) : (b.raise die unit code detail).rd f = b.rd f := raiseInj_rd ..
@[simp] theorem raise_on (die unit code detail : Nat) (f : Fld) : (b.raise die unit code detail).on f = b.on f := raiseInj_on ..
@[simp] theorem raise_core (die unit code detail k : Nat) : (b.raise die unit code detail).core k = b.core k := by
  rw [raise_eq]; rfl
@[simp] theorem raise_mem (die unit code detail : Nat) : (b.raise die unit code detail).mem = b.mem := by rw [raise_eq]
@[simp] theorem raise_regs (die unit code detail : Nat) : (b.raise die unit code detail).regs = b.regs := by rw [raise_eq]
@[simp] theorem raise_now (die unit code detail : Nat) : (b.raise die unit code detail).now = b.now := by rw [raise_eq]; rfl
@[simp] theorem raise_run (die unit code detail : Nat) : (b.raise die unit code detail).run = b.run := by rw [raise_eq]
@[simp] theorem raise_ras (die unit code detail : Nat) : (b.raise die unit code detail).ras = b.ras := by rw [raise_eq]

@[simp] theorem ifModFail_ev (c : Bool) : (ifB c Blk.modFail b).ev = b.ev := by rw [ifModFail_eq]
@[simp] theorem ifModFail_out (c : Bool) : (ifB c Blk.modFail b).out = b.out := by rw [ifModFail_eq]

/-- What is held after an event that is not coalesced. -/
theorem raiseInj_ev (inj : Bool) (die unit code detail : Nat) (hc : coalesced code = false) (h9 : code ≠ 0x0901) :
    (b.raiseInj inj die unit code detail).ev =
      { b.ev with held := b.ev.held ++
          [⟨b.now, die, unit, code, severity code, b.evContext die unit inj, detail % 2 ^ 152⟩] } := by
  rw [raiseInj_plain b inj die unit code detail hc h9]
  simp [Blk.hold]
theorem raiseInj_out (inj : Bool) (die unit code detail : Nat) (hc : coalesced code = false) (h9 : code ≠ 0x0901) :
    (b.raiseInj inj die unit code detail).out = b.out := by
  rw [raiseInj_plain b inj die unit code detail hc h9]
  simp [Blk.hold]
/-- An event of a severity other than 3 leaves the vote alone. -/
theorem raiseInj_vote (inj : Bool) (die unit code detail : Nat) (hc : coalesced code = false) (h9 : code ≠ 0x0901)
    (hs : severity code ≠ 3) : (b.raiseInj inj die unit code detail).vote = b.vote := by
  rw [raiseInj_plain b inj die unit code detail hc h9]
  simp [Blk.hold, ifB, hs]

theorem hwFail_frozen (k : Nat) (h : b.vote.frozen = true) :
    b.hwFail k = b.updVote fun v => { v with heldHw := addNew v.heldHw k } := by simp [Blk.hwFail, h]
theorem hwFail_open (k : Nat) (h : b.vote.frozen = false) : b.hwFail k = b.wr (SEQ_VOTE.hw_fail (k / 32) (k % 32)) 1 := by
  simp [Blk.hwFail, h]
theorem hwFail_eq (k : Nat) : b.hwFail k = { b with regs := (b.hwFail k).regs, vote := (b.hwFail k).vote } := by
  cases h : b.vote.frozen
  · rw [hwFail_open b k h, wr_eq]
  · rw [hwFail_frozen b k h]; rfl
theorem hwFail_reg_ne (k : Nat) (r : Reg) (h : r.addr ≠ (Reg.seqVote (k / 32) (k % 32)).addr) : (b.hwFail k).reg r = b.reg r := by
  unfold Blk.hwFail
  split
  · rfl
  · exact wr_reg_of _ _ _ _ _ rfl h

end Sys2Proof.Machine
end

