-- ==== Sys2Proof/Laws/Memory.lean ====
section
/-!
SUPPORT. The byte stores: a read after a write of the same byte gives what was written, a write leaves every other byte
alone, and every memory operation keeps the stores canonical.
-/
namespace Sys2Proof.Machine

variable (b : Blk)

/-! ### Bytes -/

theorem setBytes_eq (k : Nat) (l : List Byte) : b.setBytes k l = { b with mem := (b.setBytes k l).mem } := by
  induction l generalizing b k with
  | nil => rfl
  | cons v l ih => exact (ih (b.setByte k v) (k + 1)).trans rfl

/-- A run of bytes reads back, and every other byte is as it was. -/
theorem setBytes_byte (k j : Nat) (l : List Byte) :
    (b.setBytes k l).byte j = if k ≤ j ∧ j < k + l.length then l.getD (j - k) 0 else b.byte j := by
  induction l generalizing b k with
  | nil => rw [if_neg (by simp only [List.length_nil]; omega)]; rfl
  | cons v l ih =>
    show ((b.setByte k v).setBytes (k + 1) l).byte j = _
    rw [ih]
    by_cases hj : j = k
    · subst hj
      rw [if_neg (by omega), if_pos (by simp), setByte_byte_same, Nat.sub_self]; rfl
    · rw [setByte_byte_ne _ _ _ _ hj]
      by_cases h : k + 1 ≤ j ∧ j < k + 1 + l.length
      · rw [if_pos h, if_pos (by simp; omega), show j - k = (j - (k + 1)) + 1 by omega]; simp
      · rw [if_neg h, if_neg (by simp; omega)]

theorem setBytes_byte_out (k j : Nat) (l : List Byte) (h : j < k ∨ k + l.length ≤ j) : (b.setBytes k l).byte j = b.byte j := by
  rw [setBytes_byte, if_neg (by omega)]

/-! ### Words -/

theorem leBytes_length (n x : Nat) : (leBytes n x).length = n := by
  induction n generalizing x with
  | zero => rfl
  | succ n ih => simp [leBytes, ih]

theorem setRawWord_err (k : Nat) (d : Word) (e : BitVec 32) (w : Nat) :
    Sp.get 0 (b.setRawWord k d e).err w = if w = k / 32 * 32 then e else Sp.get 0 b.err w := by
  unfold Blk.setRawWord
  dsimp only
  split
  · rename_i h; rw [h]; exact Sp.get_set_same ..
  · rename_i h
    rw [Sp.get_set_ne _ _ _ _ _ h, setBytes_eq]

/-- A word is stored in the 32 bytes that hold its place, and nowhere else. -/
theorem setRawWord_byte_out (k j : Nat) (d : Word) (e : BitVec 32) (h : j / 32 ≠ k / 32) :
    (b.setRawWord k d e).byte j = b.byte j := by
  have : (b.setRawWord k d e).byte j = (b.setBytes (k / 32 * 32) (leBytes 32 d.toNat)).byte j := rfl
  rw [this, setBytes_byte_out _ _ _ _ (by rw [leBytes_length]; omega)]

theorem setRawWord_eq (k : Nat) (d : Word) (e : BitVec 32) :
    b.setRawWord k d e = { b with mem := (b.setRawWord k d e).mem, err := (b.setRawWord k d e).err } := by
  unfold Blk.setRawWord; dsimp only; rw [setBytes_eq]

/-- The bytes of a number give the number back. -/
theorem ofLe_leBytes (n x : Nat) : ofLeBytes (leBytes n x) = x % 2 ^ (8 * n) := by
  induction n generalizing x with
  | zero => simp [leBytes, ofLeBytes, Nat.mod_one]
  | succ n ih =>
    rw [leBytes, ofLeBytes, ih, BitVec.toNat_ofNat, show 8 * (n + 1) = 8 + 8 * n by omega, Nat.pow_add, Nat.mod_mul]

theorem bytes_congr (c : Blk) (k n : Nat) (h : ∀ j, k ≤ j → j < k + n → b.byte j = c.byte j) : b.bytes k n = c.bytes k n := by
  induction n generalizing k with
  | zero => rfl
  | succ n ih =>
    show b.byte k :: _ = c.byte k :: _
    rw [h k (by omega) (by omega), ih (k + 1) fun j h1 h2 => h j (by omega) (by omega)]

/-- Bytes within a write read as the bytes written. -/
theorem setBytes_bytes_in (k d n : Nat) (l : List Byte) (h : d + n ≤ l.length) :
    (b.setBytes k l).bytes (k + d) n = (l.drop d).take n := by
  induction n generalizing d with
  | zero => simp [Blk.bytes]
  | succ n ih =>
    show _ :: (b.setBytes k l).bytes (k + (d + 1)) n = _
    rw [ih (d + 1) (by omega), setBytes_byte, if_pos (by omega), show k + d - k = d by omega,
      List.drop_eq_getElem_cons (by omega : d < l.length), List.take_succ_cons]
    simp [List.getD_eq_getElem?_getD, List.getElem?_eq_getElem (by omega : d < l.length)]

/-- A word reads back as it was written, with its check-bit difference. -/
theorem rawWord_same (k j : Nat) (d : Word) (e : BitVec 32) (h : j / 32 = k / 32) : (b.setRawWord k d e).rawWord j = (d, e) := by
  have h1 : (b.setRawWord k d e).bytes (j / 32 * 32) 32 = leBytes 32 d.toNat := by
    have := setBytes_bytes_in b (k / 32 * 32) 0 32 (leBytes 32 d.toNat) (by rw [leBytes_length])
    rw [h]
    refine Eq.trans ?_ (this.trans (by rw [List.drop_zero, List.take_of_length_le (by rw [leBytes_length])]))
    exact bytes_congr _ _ _ _ fun _ _ _ => rfl
  unfold Blk.rawWord
  dsimp only
  rw [h1, ofLe_leBytes, setRawWord_err, if_pos (by rw [h]), Nat.mod_eq_of_lt d.isLt, BitVec.ofNat_toNat, BitVec.setWidth_eq]

/-- Another word reads as before. -/
theorem rawWord_ne (k j : Nat) (d : Word) (e : BitVec 32) (h : j / 32 ≠ k / 32) : (b.setRawWord k d e).rawWord j = b.rawWord j := by
  unfold Blk.rawWord
  dsimp only
  rw [setRawWord_err, if_neg (by omega), bytes_congr _ b _ _ fun i h1 h2 => setRawWord_byte_out b k i d e (by omega)]

/-- Where no injection is armed, a word is written as it is, with its own check bits or poisoned. -/
theorem writeWord_plain (k : Nat) (w : MWord) (h : b.ras.injects = []) :
    b.writeWord k w = b.setRawWord k w.data (poisonErr w.poison) := by
  rw [Blk.writeWord, if_pos h]

/-! ### The canonical form -/

theorem setByte_wf (k : Nat) (v : Byte) (h : Safety.memWf b = true) : Safety.memWf (b.setByte k v) = true := Sp.wf_set _ _ _ _ h

theorem setBytes_wf (k : Nat) (l : List Byte) (h : Safety.memWf b = true) : Safety.memWf (b.setBytes k l) = true := by
  induction l generalizing b k with
  | nil => exact h
  | cons v l ih => exact ih _ _ (setByte_wf b k v h)

theorem setRawWord_wf (k : Nat) (d : Word) (e : BitVec 32) (h : Safety.memWf b = true) : Safety.memWf (b.setRawWord k d e) = true :=
  setBytes_wf b (k / 32 * 32) _ h

theorem fire_mem (det : Nat) (sel : Inject → Bool) : (b.fire det sel).2.mem = b.mem := by
  unfold Blk.fire
  split
  · rfl
  · rename_i i hi
    have hw : ∀ (c : Blk) (f : Fld) (v : Nat), (c.wr f v).mem = c.mem := fun _ _ _ => rfl
    dsimp only
    generalize (if i.left - 1 = 0 then _ else _ : List Inject) = l
    split
    · rw [hw]; exact hw _ _ _
    · exact hw _ _ _

theorem fireWrite_mem (k : Nat) : (b.fireWrite k).2.mem = b.mem := by
  unfold Blk.fireWrite
  dsimp only
  split
  · exact fire_mem ..
  · split <;> exact fire_mem ..

/-- Writing a word keeps the memory canonical, whatever an armed injection does to it. -/
theorem writeWord_wf (k : Nat) (w : MWord) (h : Safety.memWf b = true) : Safety.memWf (b.writeWord k w) = true := by
  have hf : Safety.memWf (b.fireWrite k).2 = true := by unfold Safety.memWf; rw [fireWrite_mem]; exact h
  unfold Blk.writeWord
  split
  · exact setRawWord_wf _ _ _ _ h
  · dsimp only
    split
    · exact setRawWord_wf _ _ _ _ hf
    · have h2 : Safety.memWf (b.fireWrite k).2.fresh.2 = true := hf
      have hu : ∀ (c : Blk) (f : RasSt → RasSt), Safety.memWf (c.updRas f) = Safety.memWf c := fun _ _ => rfl
      rw [hu]
      exact setRawWord_wf _ _ _ _ h2

/-- Dropping entries keeps a store canonical. -/
theorem Sp.wf_filter {α : Type} [DecidableEq α] (d : α) (m : Sp α) (p : Nat × α → Bool) (h : Sp.wf d m = true) :
    Sp.wf d (m.filter p) = true := by
  rw [Sp.wf_iff] at h ⊢
  exact ⟨h.1.filter _, fun e he => h.2 e (List.mem_of_mem_filter he)⟩

theorem clearPart_wf (k slot : Nat) (h : Safety.memWf b = true) : Safety.memWf (b.clearPart k slot) = true := Sp.wf_filter _ _ _ h

theorem volatileClear_wf (h : Safety.memWf b = true) : Safety.memWf b.volatileClear = true := Sp.wf_filter _ _ _ h

theorem reset_memWf : Safety.memWf State.reset.blk = true := rfl

/-! ### Configuration memory -/

theorem setFbytes_eq (k : Nat) (l : List Byte) : b.setFbytes k l = { b with flash := (b.setFbytes k l).flash } := by
  induction l generalizing b k with
  | nil => rfl
  | cons v l ih => exact (ih { b with flash := Sp.set 0xFF b.flash k v } (k + 1)).trans rfl

theorem setFbytes_fbyte (k j : Nat) (l : List Byte) :
    (b.setFbytes k l).fbyte j = if k ≤ j ∧ j < k + l.length then l.getD (j - k) 0 else b.fbyte j := by
  induction l generalizing b k with
  | nil => rw [if_neg (by simp only [List.length_nil]; omega)]; rfl
  | cons v l ih =>
    show ({ b with flash := Sp.set 0xFF b.flash k v }.setFbytes (k + 1) l).fbyte j = _
    rw [ih]
    by_cases hj : j = k
    · subst hj
      rw [if_neg (by omega), if_pos (by simp)]
      rw [Nat.sub_self]
      exact Sp.get_set_same _ b.flash j v
    · have hb : ({ b with flash := Sp.set 0xFF b.flash k v } : Blk).fbyte j = b.fbyte j := Sp.get_set_ne _ _ _ _ _ hj
      rw [hb]
      by_cases h : k + 1 ≤ j ∧ j < k + 1 + l.length
      · rw [if_pos h, if_pos (by simp; omega), show j - k = (j - (k + 1)) + 1 by omega]; simp
      · rw [if_neg h, if_neg (by simp; omega)]

theorem fbytes_congr (c : Blk) (off n : Nat) (h : ∀ j, off ≤ j → j < off + n → b.fbyte j = c.fbyte j) : b.fbytes off n = c.fbytes off n := by
  induction n generalizing off with
  | zero => rfl
  | succ n ih =>
    show b.fbyte off :: _ = c.fbyte off :: _
    rw [h off (by omega) (by omega), ih (off + 1) fun j h1 h2 => h j (by omega) (by omega)]

/-- Bytes outside a write read as before it. -/
theorem setFbytes_fbytes_out (k off n : Nat) (l : List Byte) (h : off + n ≤ k ∨ k + l.length ≤ off) :
    (b.setFbytes k l).fbytes off n = b.fbytes off n :=
  fbytes_congr _ _ _ _ fun j h1 h2 => by rw [setFbytes_fbyte, if_neg (by omega)]

/-- Bytes within a write read as the bytes written. -/
theorem setFbytes_fbytes_in (k d n : Nat) (l : List Byte) (h : d + n ≤ l.length) :
    (b.setFbytes k l).fbytes (k + d) n = (l.drop d).take n := by
  induction n generalizing d with
  | zero => simp [Blk.fbytes]
  | succ n ih =>
    show _ :: (b.setFbytes k l).fbytes (k + (d + 1)) n = _
    rw [ih (d + 1) (by omega), setFbytes_fbyte, if_pos (by omega), show k + d - k = d by omega,
      List.drop_eq_getElem_cons (by omega : d < l.length), List.take_succ_cons]
    simp [List.getD_eq_getElem?_getD, List.getElem?_eq_getElem (by omega : d < l.length)]

theorem setFbytes_wf (k : Nat) (l : List Byte) (h : Safety.flashWf b = true) : Safety.flashWf (b.setFbytes k l) = true := by
  induction l generalizing b k with
  | nil => exact h
  | cons v l ih => exact ih { b with flash := Sp.set 0xFF b.flash k v } (k + 1) (Sp.wf_set _ _ _ _ h)

/-! ### The regions that a command writes -/

theorem setLayout_layoutHdr (lo len : Nat) : (b.setLayout lo len).layoutHdr = setBits b.layoutHdr lo 32 len % 2 ^ 256 := by
  have h := setFbytes_fbytes_in b 0 0 32 (leBytes 32 (setBits b.layoutHdr lo 32 len)) (by rw [leBytes_length])
  rw [Nat.zero_add, List.drop_zero, List.take_of_length_le (by rw [leBytes_length])] at h
  unfold Blk.layoutHdr Blk.setLayout
  rw [h, ofLe_leBytes]; rfl

theorem setLayout_fbytes (lo len off n : Nat) (h : 32 ≤ off) : (b.setLayout lo len).fbytes off n = b.fbytes off n :=
  setFbytes_fbytes_out _ _ _ _ _ (.inr (by rw [leBytes_length]; omega))

theorem writePlan_eq (p : List Byte) : b.writePlan p = { b with flash := (b.writePlan p).flash } := by
  unfold Blk.writePlan Blk.setLayout; rw [setFbytes_eq, setFbytes_eq]

theorem writeFw_eq (p : List Byte) : b.writeFw p = { b with flash := (b.writeFw p).flash } := by
  unfold Blk.writeFw Blk.setLayout; rw [setFbytes_eq, setFbytes_eq]

/-- A plan that was written reads word by word as its bytes. -/
theorem writePlan_planWord (p : List Byte) (i : Nat) (h : 32 * i + 32 ≤ p.length) :
    (b.writePlan p).planWord i = ofLeBytes ((p.drop (32 * i)).take 32) := by
  unfold Blk.planWord Blk.writePlan
  rw [setLayout_fbytes _ _ _ _ _ (by unfold fPlan; omega), setFbytes_fbytes_in _ _ _ _ _ h]

/-- A firmware image that was written has the header of its bytes, and the layout header its length. -/
theorem writeFw_fwHdr (p : List Byte) (h : 32 ≤ p.length) : (b.writeFw p).fwHdr = ofLeBytes (p.take 32) := by
  have := setFbytes_fbytes_in b fFw 0 32 p (by omega)
  unfold Blk.fwHdr Blk.writeFw
  rw [setLayout_fbytes _ _ _ _ _ (by unfold fFw; omega)]
  exact congrArg ofLeBytes (this.trans (by rw [List.drop_zero]))

theorem writeFw_layoutHdr (p : List Byte) : (b.writeFw p).layoutHdr = setBits b.layoutHdr 64 32 p.length % 2 ^ 256 := by
  unfold Blk.writeFw
  rw [setLayout_layoutHdr]
  have : (b.setFbytes fFw p).layoutHdr = b.layoutHdr := by
    unfold Blk.layoutHdr
    rw [setFbytes_fbytes_out _ _ _ _ _ (.inl (by unfold fFw; omega))]
  rw [this]

end Sys2Proof.Machine
end

