-- ==== Sys2Proof/Laws/Plan.lean ====
section
/-!
SUPPORT. Start-up: what the checks of a plan read, and what taking the firmware and the identity leave alone.
-/
namespace Sys2Proof.Machine

/-- A run of configuration memory that lists nothing reads as ones. -/
theorem fbytes_blank (b : Blk) (off n : Nat) (h : (b.flash.all fun e => e.1 < off || off + n ≤ e.1) = true) :
    b.fbytes off n = List.replicate n 0xFF := by
  induction n generalizing off with
  | zero => rfl
  | succ n ih =>
    have hm : ∀ m : Sp Byte, (m.all fun e => e.1 < off || off + (n + 1) ≤ e.1) = true → Sp.get 0xFF m off = 0xFF := by
      intro m hm
      induction m with
      | nil => rfl
      | cons e m im =>
        simp only [List.all_cons, Bool.and_eq_true, Bool.or_eq_true, decide_eq_true_eq] at hm
        obtain ⟨k, v⟩ := e
        rw [Sp.get, if_neg (by omega)]
        exact im hm.2
    show Sp.get 0xFF b.flash off :: b.fbytes (off + 1) n = _
    rw [hm _ h, ih, List.replicate_succ]
    rw [List.all_eq_true] at h ⊢
    intro e he
    have := h e he
    simp only [Bool.or_eq_true, decide_eq_true_eq] at this ⊢
    omega

/-- The checks of a plan read nothing but its words, the anchor (here blank) and the module's fingerprint. -/
theorem planCheck_congr (b c : Blk) (s : List Bool) (hw : b.planWord = c.planWord) (ha : b.anchorBlank = true) (hb : c.anchorBlank = true)
    (hf : b.fpr = c.fpr) : b.planCheck s = c.planCheck s := by
  have h1 : b.isFaultMgr = c.isFaultMgr := by funext a; simp only [Blk.isFaultMgr, Blk.authWord, Blk.authOff, hw]
  have h2 : b.isJobCtl = c.isJobCtl := by funext a; simp only [Blk.isJobCtl, Blk.authWord, Blk.authOff, hw]
  have hl : b.planLen = c.planLen := by funext a; simp only [Blk.planLen, hw]
  have he : b.entryWord = c.entryWord := by funext i j; simp only [Blk.entryWord, Blk.moduleOff, hw]
  have hm : b.planModules = c.planModules := by simp only [Blk.planModules, hw]
  have hs : b.planShape = c.planShape := by
    unfold Blk.planShape Blk.sigOff Blk.planWords Blk.moduleOff Blk.authOff Blk.planAuths; rw [hm, hw]
  have hk : b.planK = c.planK := by unfold Blk.planK; rw [hw]
  have hn : b.planAuths = c.planAuths := by unfold Blk.planAuths; rw [hw]
  have hg : b.signers (b.planSlots s) = c.signers (c.planSlots s) := by unfold Blk.signers Blk.planSlots Blk.sigOff; rw [hn, hw]
  have hc : b.planCertOk s = c.planCertOk s := by
    unfold Blk.planCertOk Blk.faultQuorum Blk.sigOff; rw [hg, hk, h1, ha, hb, hw, Bool.true_or, Bool.true_or]
  have hr : b.planRolesOk = c.planRolesOk := by unfold Blk.planRolesOk Blk.planRoles; rw [hw]
  have ho : b.ownEntries = c.ownEntries := by unfold Blk.ownEntries; rw [hm, he, hf]
  have hi : b.planIndex = c.planIndex := by funext x; unfold Blk.planIndex; rw [hl]
  have ht : b.planRootsOk = c.planRootsOk := by unfold Blk.planRootsOk; rw [hm, he]
  have hp : b.planPortOk = c.planPortOk := by funext w p; unfold Blk.planPortOk; rw [hl]
  have hq : b.planPortsOk = c.planPortsOk := by unfold Blk.planPortsOk; rw [hm, he, hp]
  have hx : b.auths = c.auths := by unfold Blk.auths; rw [hs, hn]
  have hy : b.planQuorumOk = c.planQuorumOk := by unfold Blk.planQuorumOk Blk.faultMgrs; rw [hx, h1, h2, hk, hn]
  unfold Blk.planCheck
  rw [hs, hc, hm, hl, hr, ho, hi, he, ht, hq, hy]

theorem secFpr_addr (h : Nat) : (Reg.secFpr h).addr = hubBase + 0x80000 + 0x8 + h * 8 := rfl

theorem secDbgNonce_addr : Reg.secDbgNonce.addr = hubBase + 0x80000 + 0x40 := rfl

theorem secStatus_addr : Reg.secStatus.addr = hubBase + 0x80000 + 0x0 := rfl

/-- SEC_FPR shows the digest of the public key (R314). -/
theorem identity_fpr (b : Blk) (x : BootInput) (i : Nat) (hi : i < 4) :
    (b.identity x).rd (SEC_FPR.fpr i) = bits (digest (b.fbytes (fKey + 0x980) 1793)) (64 * i) 64 := by
  have ha : ∀ j, (SEC_FPR.fpr j).reg = Reg.secFpr j := fun _ => rfl
  have hne : ∀ (c : Blk) (j v : Nat), i ≠ j → (c.wr (SEC_FPR.fpr j) v).rd (SEC_FPR.fpr i) = c.rd (SEC_FPR.fpr i) := fun c j v h =>
    wr_rd_of c _ _ _ _ v (ha j) (ha i) (by rw [secFpr_addr, secFpr_addr]; omega)
  have heq : ∀ (c : Blk) (v : Nat), (c.wr (SEC_FPR.fpr i) v).rd (SEC_FPR.fpr i) = v % 2 ^ 64 := fun c v => wr_rd_same c _ v (Nat.le_refl 64)
  unfold Blk.identity
  dsimp only
  generalize digest (b.fbytes (fKey + 0x980) 1793) = d
  rw [wrB_eq,
    wr_rd_of _ _ _ .secStatus (.secFpr i) _ rfl rfl (by rw [secFpr_addr, secStatus_addr]; omega)]
  simp only [show List.range 4 = [0, 1, 2, 3] from rfl, List.foldl_cons, List.foldl_nil]
  have hd : ∀ v, bits d v 64 % 2 ^ 64 = bits d v 64 := fun v => Nat.mod_eq_of_lt (bits_lt _ _ _)
  rcases (by omega : i = 0 ∨ i = 1 ∨ i = 2 ∨ i = 3) with rfl | rfl | rfl | rfl
  · rw [hne _ 3 _ (by decide), hne _ 2 _ (by decide), hne _ 1 _ (by decide), heq, hd]
  · rw [hne _ 3 _ (by decide), hne _ 2 _ (by decide), heq, hd]
  · rw [hne _ 3 _ (by decide), heq, hd]
  · rw [heq, hd]

theorem fpr_congr (b c : Blk) (h : ∀ i, i < 4 → b.rd (SEC_FPR.fpr i) = c.rd (SEC_FPR.fpr i)) : b.fpr = c.fpr := by
  unfold Blk.fpr
  simp only [show List.range 4 = [0, 1, 2, 3] from rfl, List.map_cons, List.map_nil]
  rw [h 0 (by decide), h 1 (by decide), h 2 (by decide), h 3 (by decide)]

/-- Equal configuration memories hold equal plans. -/
theorem planWord_flash (b c : Blk) (h : b.flash = c.flash) : b.planWord = c.planWord := by
  funext i
  unfold Blk.planWord
  rw [fbytes_congr b c _ _ fun j _ _ => by unfold Blk.fbyte; rw [h]]

theorem identity_flash (b : Blk) (x : BootInput) : (b.identity x).flash = b.flash := by
  have h : ∀ (c : Blk) (l : List Nat) (d : Nat), (l.foldl (fun b h => b.wr (SEC_FPR.fpr h) (bits d (64 * h) 64)) c).flash = c.flash :=
    fun c l d => foldl_keep _ Blk.flash l c fun _ _ _ => wr_flash _ _ _
  unfold Blk.identity
  dsimp only
  rw [wrB_eq, wr_flash, h, wrB_eq, wr_flash, wrB_eq, wr_flash, updSec_flash]

theorem appendLog_flash (b : Blk) (k d : Nat) : (b.appendLog k d).flash = b.flash := by
  unfold Blk.appendLog
  rfl

/-- Taking the firmware leaves configuration memory alone. -/
theorem takeFirmware_flash (b : Blk) (k : Nat) : (b.takeFirmware k).flash = b.flash := by
  unfold Blk.takeFirmware
  dsimp only
  simp only [appendLog_flash]
  rfl

theorem planShape_congr (b c : Blk) (hw : b.planWord = c.planWord) : b.planShape = c.planShape := by
  unfold Blk.planShape Blk.sigOff Blk.planWords Blk.moduleOff Blk.authOff Blk.planAuths Blk.planModules; rw [hw]

theorem ownEntries_congr (b c : Blk) (hw : b.planWord = c.planWord) (hf : b.fpr = c.fpr) : b.ownEntries = c.ownEntries := by
  unfold Blk.ownEntries Blk.entryWord Blk.moduleOff Blk.planModules; rw [hw, hf]

theorem writePlan_rd (b : Blk) (p : List Byte) (f : Fld) : (b.writePlan p).rd f = b.rd f := by
  have h : (b.writePlan p).reg f.reg = b.reg f.reg := by unfold Blk.reg; rw [writePlan_eq]
  exact congrArg (fun x => bits x _ _) h

theorem setAnchor_rd (b : Blk) (d i : Nat) : (b.setAnchor d).rd (SEC_FPR.fpr i) = b.rd (SEC_FPR.fpr i) := by
  unfold Blk.setAnchor
  dsimp only
  rw [wr_rd_of _ _ _ .secStatus (.secFpr i) _ rfl rfl (by rw [secFpr_addr, secStatus_addr]; omega), setFbytes_eq]
  unfold Blk.rd Blk.reg
  rfl

theorem secFpr_ne_nonce (i : Nat) (hi : i < 4) : (SEC_FPR.fpr i).reg.addr ≠ Reg.secDbgNonce.addr := by
  rw [show (SEC_FPR.fpr i).reg = Reg.secFpr i from rfl, secFpr_addr, secDbgNonce_addr]; omega

end Sys2Proof.Machine
end

