-- ==== Sys2Proof/Machine/Fec.lean ====
section
/-!
DEFINITION. The words of a port on the wire (09_stavelink.md, R195, R196): 288-bit units packed into 10-bit symbols, the RS(544,514)
code, and the striping of symbols over the active lanes. The commands of a port carry words; `Blk.onWire` says what its lanes carry for
them from a codeword's first symbol on.

The spec takes the code from IEEE 802.3 clause 91 and does not repeat it. PRESUMED (log entry 133): the field GF(2¹⁰) of
x¹⁰ + x³ + 1, the generator with roots α⁰ to α²⁹, the message before its check symbols with its highest coefficient first, and the
lowest bit of a symbol first.
-/
namespace Sys2Proof.Machine

/-! ### GF(2¹⁰) -/

/-- Multiplication by α. -/
def feX (a : Nat) : Nat := if a < 512 then 2 * a else (2 * a) ^^^ 0x409

/-- Product over `n` bits of the second factor. -/
def feMulN : Nat → Nat → Nat → Nat
  | 0, _, _ => 0
  | n + 1, a, b => (if b % 2 = 1 then a else 0) ^^^ feMulN n (feX a) (b / 2)

def feMul (a b : Nat) : Nat := feMulN 10 a b

/-- α^i. -/
def fePow : Nat → Nat
  | 0 => 1
  | n + 1 => feX (fePow n)

/-! ### RS(544,514) -/

/-- Symbols of a message, and the check symbols behind it. -/
def fecMsg : Nat := 514
def fecCheck : Nat := 30

/-- A polynomial, low coefficient first, times (x + r). -/
def feTimes (p : List Nat) (r : Nat) : List Nat := List.zipWith (· ^^^ ·) (0 :: p) (p.map (feMul r) ++ [0])

/-- The generator without its leading coefficient, low coefficient first. -/
def fecGen : List Nat := ((List.range fecCheck).foldl (fun p j => feTimes p (fePow j)) [1]).take fecCheck

/-- One step of the division by the generator `g`: `r` holds the remainder, low coefficient first; `d` is the next symbol down. -/
def fecStep (g r : List Nat) (d : Nat) : List Nat :=
  let top := r.getLastD 0 ^^^ d
  List.zipWith (fun a c => a ^^^ feMul top c) (0 :: r.dropLast) g

/-- The codeword of a message, in the order sent. -/
def fecCode (msg : List Nat) : List Nat :=
  msg ++ (msg.foldl (fecStep fecGen) (List.replicate fecCheck 0)).reverse

/-! ### Units and symbols (R196) -/

/-- The 288 bits of a unit, lowest first: the word, then its check bits as its producer made them. -/
def unitBits (w : MWord) : List Bool :=
  let v := w.data.toNat + (checkBits w.data ^^^ poisonErr w.poison).toNat * 2 ^ 256
  (List.range 288).map v.testBit

/-- Whole groups of `n` elements of a list, over at most `k` groups. -/
def groupsOf {α : Type} (n : Nat) : Nat → List α → List (List α)
  | 0, _ => []
  | k + 1, l => if l.length < n then [] else l.take n :: groupsOf n k (l.drop n)

/-- A symbol from its bits. -/
def symbolOf (bs : List Bool) : Nat := bs.foldr (fun x n => b2n x + 2 * n) 0

/-- The message symbols of a stream of units, packed without gaps across codeword boundaries. -/
def fecSymbols (ws : List MWord) : List Nat :=
  let bs := ws.flatMap unitBits
  (groupsOf 10 (bs.length / 10) bs).map symbolOf

/-- The codewords that a stream of units fills. -/
def fecStream (ws : List MWord) : List (List Nat) :=
  let s := fecSymbols ws
  (groupsOf fecMsg (s.length / fecMsg) s).map fecCode

/-! ### Striping (R195, R202) -/

/-- Lanes on which a port sends, in ascending logical order: two of them in CALM. -/
def Blk.sendLanes (b : Blk) (p : Nat) : List Nat :=
  let l := (b.port p).txLanes
  if b.pstate p = psCalm then l.filter fun x => decide ((l.filter fun y => decide (y < x)).length < 2) else l

/-- Symbols go round-robin over the lanes: the lane of each. -/
def stripe (lanes : List Nat) (syms : List Nat) : List (Nat × Nat) :=
  syms.zipIdx.map fun e => (lanes.getD (e.2 % lanes.length) 0, e.1)

/-- The lane and value of each symbol that port `p` sends for a stream of units. -/
def Blk.onWire (b : Blk) (p : Nat) (ws : List MWord) : List (Nat × Nat) := stripe (b.sendLanes p) (fecStream ws).flatten

end Sys2Proof.Machine
end

