-- ==== Sys2Proof/Machine/Pins.lean ====
section
/-!
DEFINITION. The contacts of the link, host and management connectors (17_module_interface.md, R380, R383, R386): what each carries.
-/
namespace Sys2Proof.Machine

/-- What a contact carries: a half of a lane's pair towards or from the module, a reference half, a named signal, ground, or nothing. -/
inductive Contact where
  | ground
  | transmit (lane : Nat) (positive : Bool)
  | receive (lane : Nat) (positive : Bool)
  | signal (name : String)
  | unused
  deriving DecidableEq, Repr

/-- Row E of a link connector (R380). -/
def linkRowE (col : Nat) : Contact :=
  if col ≤ 4 then .signal "CAB_3V3"
  else if col ≤ 8 then .ground
  else if col = 9 then .signal "CAB_PRSNT_N"
  else if col = 10 then .signal "CAB_SCL"
  else if col = 11 then .signal "CAB_SDA"
  else .unused

/-- Contact of a link connector: rows A to E are 0 to 4, with columns 1 to 55, and 1 to 12 in row E (R380). -/
def linkContact (row col : Nat) : Option Contact :=
  if row = 4 then (if 1 ≤ col ∧ col ≤ 12 then some (linkRowE col) else none)
  else if 4 < row ∨ col < 1 ∨ 55 < col then none
  else if col % 3 = 1 then some .ground
  else
    let lane := (col - 2) / 3 + 18 * (row % 2)
    some (if row < 2 then .transmit lane (col % 3 = 2) else .receive lane (col % 3 = 2))

/-- The contacts of the host connector beside its lanes, by row (A 0, B 1) and column (R383). -/
def hostOther (row col : Nat) : Contact :=
  if col = 1 ∨ col = 4 ∨ col = 31 ∨ col = 32 then .ground
  else if row = 1 then .unused
  else if col = 2 then .signal "REFCLK_P"
  else if col = 3 then .signal "REFCLK_N"
  else if col = 29 then .signal "PERST_N"
  else .signal "PRSNT_N"

/-- Contact of the host connector: columns 5 to 28 hold the lanes, three columns a lane (R383). -/
def hostContact (row col : Nat) : Option Contact :=
  if 1 < row ∨ col < 1 ∨ 32 < col then none
  else if col < 5 ∨ 28 < col then some (hostOther row col)
  else if col % 3 = 1 then some .ground
  else
    let lane := (col - 5) / 3
    some (if row = 0 then .transmit lane (col % 3 = 2) else .receive lane (col % 3 = 2))

/-- Signals of the management connector's rows A and B that are neither ground nor reserved (R386). -/
def mgmtSignals : Nat → List (Nat × String)
  | 0 => [(2, "SGMII_TX_P"), (3, "SGMII_TX_N"), (5, "I3C_SCL"), (6, "I3C_SDA"), (8, "PPS_IN"), (9, "HOLD_N"), (10, "WARM_RST_N"),
      (11, "COLD_RST_N"), (12, "READY"), (13, "ALERT_N"), (14, "THERM_N")]
  | 1 => [(2, "SGMII_RX_P"), (3, "SGMII_RX_N"), (8, "TCK"), (9, "TMS"), (10, "TDI"), (11, "TDO"), (12, "TRST_N")]
  | _ => []

/-- Contact of the management connector: rows A and B, columns 1 to 20 (R386). -/
def mgmtContact (row col : Nat) : Option Contact :=
  if 1 < row ∨ col < 1 ∨ 20 < col then none
  else if col = 1 ∨ col = 4 ∨ col = 7 ∨ col = 20 then some .ground
  else match (mgmtSignals row).find? fun s => s.1 = col with
    | some s => some (.signal s.2)
    | none => some .unused

end Sys2Proof.Machine
end

