-- ==== Sys2Proof/Tests/Slice0.lean ====
section
/-!
SUPPORT. The model's own tests: what the well-formedness checks refuse, words decoded bit by bit from the tables of
04_instruction_set.md, and for each clause of the statements a state and operands that meet its hypotheses.
-/
namespace Sys2Proof.Tests
open Sys2Proof Sys2Proof.Machine Sys2Proof.Says
set_option Elab.async false

/-! ### States and operands of the witnesses -/

/-- A state from the reset state. -/
def st (f : Blk → Blk) : Machine.State := { Machine.State.reset with blk := f Machine.State.reset.blk }
/-- A block in device state `n`. -/
def inSt (n : Nat) (b : Blk) : Blk := b.wr CTL_STATE.state n
/-- A state in device state `n`. -/
def stIn (n : Nat) (f : Blk → Blk) : Machine.State := st fun b => f (inSt n b)
/-- Machine time of `t` ns. -/
def atNs (t : Nat) (b : Blk) : Blk := b.updTime fun x => { x with mtc := BitVec.ofNat 104 (t * 2 ^ 40) }
/-- One segment of 1 ms and 3,000 W, with code block 3 and no context bound. -/
def oneSeg : Seg := ⟨1000000, 3000000, 3, 8, 8, false, false, false, false, 10, 3000, 0⟩
/-- A job of one segment, whose step is 1 ms, from 1 ms on. -/
def oneJob : Job :=
  { imageAddr := 0, words := 0, stepNs := 1000000, prologueNs := 0, tStart := 1000000, segs := [oneSeg], code := [], tensors := [],
    windows := [], net := [], xbar := [], calRecs := [], sched := [], shards := [], bindings := [], lines := [], reduceSeg := 0, prepareSeg := 0, voteSeg := 0,
    voteWindow := 0, slotA := 0, slotB := 0, slotLen := 0, scaleOff := 0, chanRec := 0, part0 := 0, part1 := 0, spreadPpm := 0,
    vcPrograms := [], vcIndex := [], roOff := 0, stepLists := [] }
/-- `b` with job `j` in its step that started at `t`. -/
def withJob (j : Job) (t : Nat) (b : Blk) : Blk := b.updRun fun r => { r with job := some j, stepStart := t }
/-- Link remote service's slot of the idle calendar, at 3.5 µs of one of its cycles. -/
def linked (b : Blk) : Blk := (atNs 903500 b).wr XBAR_STATUS.idle 1
/-- A packet that router 0 has delivered. -/
def inPkt (p : RawPacket) : InPkt := ⟨0, 0, p⟩
def wOff : Machine.State := st (inSt stOff)
def wColdHeld : Machine.State := st fun b => b.updRst fun r => { r with coldHeld := true, holdN := false }
def wTrip : Machine.State := st fun b => b.updRst fun r => { r with tripHold := true, holdN := false }
def cool : ThermalReading := ⟨[⟨1, 0, 160, 168⟩], 200, 200, 240, 900, false⟩
def wMem (n : Nat) : Machine.State := st fun b => (inSt n b).setByte 0x1000 7
def wReady : Machine.State := stIn stReady id
def oneReading (a inlet : Int) (flow : Nat) : ThermalReading := ⟨[⟨3, 1, a, a + 8⟩], inlet, inlet, 300, flow, false⟩
def wTripped : Machine.State := stIn stDrain fun b => atNs 2000000 (b.updPower fun p => { p with tripAt := some 1000000, tripFrom := stRun })
def wTrippedBoot : Machine.State := stIn stTrain fun b => atNs 2000000 (b.updPower fun p => { p with tripAt := some 1000000, tripFrom := stTrain })
def wRun : Machine.State := stIn stRun fun b => atNs 30000000 (withJob oneJob 29500000 b)
/-- Rail of die 2 at 700 mV, at least 610 mV, adapting (its reset value is an open constant of the configuration). -/
def wAvs : Machine.State := stIn stReady fun b => { b with regs := b.regs ++ [(Reg.addr (.pwrAvs 2), BitVec.ofNat 64 (700 + 610 * 2 ^ 12 + 2 ^ 24))] }
def wIdle (t : Nat) : Machine.State := stIn stReady fun b => atNs t ((b.wr XBAR_STATUS.idle 1).updPower fun p => { p with limitPending := true })
def wDrained : Machine.State := stIn stDrain fun b => atNs 5000 (b.updRun fun r => { r with job := some oneJob, lullEnd := some 4000, stopped := true })
/-- A plan whose quorum is 0 (one that no check has passed): commands need no signer. -/
def noQuorum (b : Blk) : Blk := { b with flash := [(0x10001C, 0), (0x10001D, 0)] }
def okCmd (t : BitVec 8) (h : BitVec 5) : Envelope :=
  { cmdType := t, serial := 0, seq := 5, target := 0, expiry := 9000000,
    digest := 21468664885170662639985957090336418708702569955620632736621138429888230701382, hdrType := h, hdrSlots := 0,
    hdrRest := false, slots := [], payload := [] }
def req1 : MgmtReq := ⟨0, 7, true⟩
def keyOk (b : Blk) : Blk := b.wr SEC_STATUS.key_ok 1
def wVerify (n : Nat) : Machine.State := stIn n fun b => atNs 40000 (noQuorum (keyOk b))
/-- A fence command of 2 words that names `t`. -/
def atPayload (t : Nat) : List Byte := leBytes 8 0 ++ leBytes 8 t ++ leBytes 16 0
/-- Placed beside the table, due. -/
def dueCmd (ctype : Nat) (p : List Byte) : Placed := ⟨32, 1000, 3, 0, ctype, p, 0, 9⟩
def wDue (n : Nat) (x : Placed) (f : Blk → Blk) : Machine.State := stIn n fun b => atNs 2000 (f (b.updSched fun s => { s with placed := [x] }))
/-- The payload of a fence or release command. -/
def fencePl (kind : Nat) (rel : Bool) (die unit : Nat) : List Byte := leBytes 32 (kind + (if rel then 16 else 0) + die * 32 + unit * 1024)
/-- A fence command in entry 4 of the table, due. -/
def tabCmd (ctype : Nat) (p : List Byte) : Placed := ⟨4, 1000, 3, 0, ctype, p, 0, 9⟩
def wTab (n : Nat) (x : Placed) (f : Blk → Blk) : Machine.State :=
  stIn n fun b => atNs 2000 (f (((b.wr (MTC_SCHED_ACT.valid 4) 1).wr (MTC_SCHED_ACT.action 4) 4).updSched fun _ => ⟨[(4, 1000)], [x]⟩))
/-- The command payload of a stop and of an arm. -/
def stopPl : List Byte := leBytes 32 0 ++ leBytes 32 77
def startAt (b : Blk) : Blk := ((b.wr (MTC_SCHED_ACT.valid 9) 1).wr (MTC_SCHED_ACT.action 9) 5).updSched fun s => { s with inst := s.inst ++ [(9, 900000)] }
def isolatedB (v : Nat) (b : Blk) : Blk := b.wr GFW_STATUS.isolated v
def drains (l : List Drain) (b : Blk) : Blk := b.updRas fun r => { r with drains := l }
def stoppedCore (b : Blk) : Blk := b.wr (SEQ_STATUS.state 0 3) 1
def y_command_entry0 := { okCmd 2 2 with payload := atPayload 90000 , digest := BitVec.ofNat 256 (digest (atPayload 90000))}
def x_release_core0 := wDue stReady (dueCmd 2 (fencePl 0 true 12 35)) fun b => b.wr (SITE_CORE.state 11 35) 2
def x_release_port0 := wDue stReady (dueCmd 2 (fencePl 2 true 0 7)) fun b => b.updPort 7 fun p => { p with present := true, draining := true }
def x_drain_guest0 := stIn stReady fun b => atNs 900 (drains [⟨4, 0, 900, 0⟩] b)
def x_drain_gather0 := stIn stReady fun b => atNs 900 (drains [⟨1, 9, 900, 0⟩] b)
def x_drain_timeout0 := stIn stReady fun b => atNs 90000000 (drains [⟨5, 0, 900, 0⟩] b)
def x_expel0 := wTab stRun (tabCmd 3 []) fun b => b.setPstate 3 psUp
/-- Bytes `l` from address `a` on, in a store that reads `d` where it lists nothing. -/
def cells (a : Nat) (d : Byte) (l : List Byte) : Sp Byte := (l.zipIdx.filter fun e => e.1 ≠ d).map fun e => (a + e.2, e.1)
/-- A plan whose first check passes, with one authority. -/
def planFlash : Sp Byte := cells fPlan 0xFF (leBytes 32 (0x504C414E + 2 ^ 32) ++ leBytes 32 (1000 * 2 ^ 96))
def withPlan (b : Blk) : Blk := { b with flash := planFlash }
def okReq : MgmtReq := ⟨0, 7, true⟩
/-- A module in state `n` that takes requests of authority 0. -/
def served (n : Nat) (f : Blk → Blk) : Machine.State := stIn n fun b => atNs 40000 (f ((withPlan b).wr SEC_STATUS.key_ok 1))
/-- An image of a header, one directory entry and one segment, at address 4096. -/
def imgBytes : List Byte :=
  leBytes 32 (0x504F524F + 2 ^ 32 + 2 ^ 48 + 3 * 2 ^ 64 + 1000000 * 2 ^ 112 + 2 ^ 208)
    ++ leBytes 32 (1 + 2 ^ 16 + 2 * 2 ^ 32 + 2 ^ 80) ++ leBytes 32 (1000000 + 8 * 2 ^ 64 + 0xFF * 2 ^ 112)
def armRec : List Byte := leBytes 32 (digest imgBytes) ++ leBytes 32 900000 ++ leBytes 32 (4096 + 3 * 2 ^ 48) ++ leBytes 32 0
def wArm : Machine.State := stIn stReady fun b => { atNs 2000 ((b.wr PWR_MODE.mode 0).updSched fun s => { s with placed := [⟨32, 1000, 3, 0, 1, armRec, 0, 9⟩] }) with mem := cells 4096 0 imgBytes }
/-- A placed command of type `ct` beside the table, due in state `n`. -/
def cmdIn (n ct : Nat) (p : List Byte) (f : Blk → Blk) : Machine.State :=
  stIn n fun b => atNs 2000 (f (b.updSched fun s => { s with placed := [⟨32, 1000, 3, 0, ct, p, 0, 9⟩] }))
/-- A plan of one module, whose fingerprint is 0. -/
def planBytes1 : List Byte :=
  leBytes 32 (0x504C414E + 2 ^ 32 + 9 * 2 ^ 48 + 2 ^ 208) ++ leBytes 32 (10 + 20 * 2 ^ 32 + 1000 * 2 ^ 96)
    ++ List.replicate (32 * 10) 0
def fwBytes1 : List Byte := leBytes 32 (0x46575458 + 2 ^ 32 + (64 - 32) * 2 ^ 64 * 0 + 32 * 2 ^ 64) ++ List.replicate 1312 0
def wReplan (n : Nat) : Machine.State := cmdIn n 4 planBytes1 fun b => (List.range 4).foldl (fun b h => b.wr (SEC_FPR.fpr h) 0) b
def regPl : List Byte := leBytes 8 (Reg.addr .mtcEpoch) ++ leBytes 8 (2 ^ 64 - 1)
def maint (t : Nat) (b : Blk) : Blk := b.updRas fun r => { r with maintUntil := some t }
def guestIn (f : Blk → Blk) : Machine.State := stIn stReady fun b => f ((atNs 9000 { b with part := .g18 }).wr GFW_STATUS.link_up 1)
def gw (up : Bool) (a : BitVec 48) : GuestTxn := ⟨up, true, a, 1, [⟨7, false⟩]⟩
def ruled (rate : Nat) (b : Blk) : Blk :=
  let b := ((b.wr (GFW_RULE_LO.valid 63) 1).wr (GFW_RULE_LO.dir 63) 1).wr (GFW_RULE_LO.write 63) 1
  ((b.wr (GFW_RULE_LO.base 63) 0x600000000).wr (GFW_RULE_HI.limit 63) 0x600000000).wr (GFW_RULE_HI.rate 63) rate
def dryRule (b : Blk) : Blk := (ruled 1 b).updSec fun s => { s with buckets := [(63, ⟨0, 9000⟩)] }
def dbg1 (sig : Bool) : DebugCert := ⟨0, BitVec.ofNat 256 (5 + 90000 * 2 ^ 64 + 2 ^ 128), 0, sig, 77⟩
def nonceIs (v : Nat) (b : Blk) : Blk := (List.range 4).foldl (fun b h => b.wr (SEC_FPR.fpr h) 0) (b.wr SEC_DBG_NONCE.nonce v)
def dbgPl : List Byte := leBytes 32 0 ++ leBytes 32 (5 + 90000 * 2 ^ 64 + 2 ^ 128 + 2 ^ 130) ++ leBytes 32 0
def wUnlocked : Machine.State := stIn stReady fun b => atNs 90000 ((b.wr SEC_DBG.level 2).updSec fun s => { s with dbgExpiry := 90000 })
def keyed (b : Blk) : Blk := b.wr SEC_STATUS.key_ok 1
def x_maint_over0 := stIn stReady fun b => maint 40 (atNs 40 b)
def calmed (b : Blk) : Blk := b.wr PWR_MODE.mode 2
def x_guest_admit0 := guestIn fun b => (ruled 0 b).updSec fun s => { s with waiting := [⟨gw true 0x600000000FE0, 63⟩] }
/-- The fingerprint of a module whose key region is blank. -/
def blankFpr : Nat := 66243274288041648610968917765763687543217550066374869517167583323834438283696
/-- The words of a plan of one module, this one, with one authority, a fault manager, whose signature the plan carries. -/
def goodPlan : List (Nat × Nat) :=
  [(0, 0x504C414E + 2 ^ 32 + 2 ^ 208 + 2 ^ 230), (1, 2 + 5 * 2 ^ 32 + 69 * 2 ^ 64 + 111 * 2 ^ 96), (2, blankFpr),
   (3, 2 ^ 20 + 0x03030303030303030303 * 2 ^ 64), (4, 0), (5, 2 ^ 128), (69, 4 * 2 ^ 8 + 1), (70, 0)]
def layoutWord : Nat := 0x54584346 + 2 ^ 32 + 1312 * 2 ^ 64
/-- Configuration memory with a layout header, plan words and a firmware header. -/
def flashOf (plan : List (Nat × Nat)) (fw : Nat) : Sp Byte :=
  cells 0 0xFF (leBytes 32 layoutWord) ++ (plan.flatMap fun e => cells (fPlan + 32 * e.1) 0xFF (leBytes 32 e.2)) ++ cells fFw 0xFF (leBytes 32 fw)
def fwWord : Nat := 0x46575458 + 2 ^ 32
def bootX : BootInput := ⟨3, false, true, [true], true, true, 99⟩
def wBoot (plan : List (Nat × Nat)) (fw : Nat) : Machine.State := stIn stBoot fun b => { b with flash := flashOf plan fw }
def wRecover (plan : Bool) (f : MgmtSt → MgmtSt) : Machine.State :=
  stIn stRecovery fun b => { b with mgmt := f { b.mgmt with writing := some (plan, 3552) }, flash := cells 0 0xFF (leBytes 32 layoutWord) }
def fwBuf1 : Sp Byte := cells 0 0 (leBytes 32 (fwWord + (3552 - 1312) * 2 ^ 64))
def x_recover_fw0 := wRecover false fun m => { m with fwBuf := fwBuf1 }
def queued (q : Nat) (u : StUnit) (b : Blk) : Blk := b.updRas fun r => { r with queues := Sp.set [] r.queues q [u] }
def running (q : Nat) (u : StUnit) (t : Nat) (b : Blk) : Blk := (queued q u b).updRas fun r => { r with running := Sp.set none r.running q (some ⟨u, t⟩) }
def uGath : StUnit := ⟨9, 39, 4, 0, 1⟩
def uCore : StUnit := ⟨3, 31, 1, 0, 1⟩
def fence1 : Fence := ⟨4, 31, 35, true, 1, 5000⟩
def wFence : Machine.State := stIn stReady fun b => atNs 5000 (b.updRas fun r => { r with fences := [fence1] })
def evRec (t sev : Nat) : EvRec := ⟨t, 0, 20, 0x0803, sev, 0, 7⟩
def evHeld (x : EvRec) (b : Blk) : Blk := (atNs 9000 b).updEv fun e => { e with held := [x] }
def coal1 (n : Nat) : Coal := ⟨0x0803, 1, 20, 8000, n, 7, 0⟩
def wCoal (n : Nat) : Machine.State := stIn stReady fun b => (atNs 1008000 b).updEv fun e => { e with coal := [coal1 n] }
/-- A module with the good plan, whose one authority is a fault manager. -/
def managed (b : Blk) : Blk := { b with flash := flashOf goodPlan fwWord }
def wStatus : Machine.State := stIn stReady fun b => atNs 1000000000 ((managed b).wr SEC_STATUS.key_ok 1)
def seg1 (g : BitVec 16) (len : BitVec 32) : Segment :=
  ⟨9, 0x54584D47, 1, 0x13, 0, 44, len, g, 2, false, 0, List.replicate 1408 1⟩
def seg2 : Segment := { seg1 0 1409 with relay := true, target := 0 }
def relayPkt : RawPacket :=
  ⟨0, [⟨BitVec.ofNat 256 (0x54584D47 + 2 ^ 32 + 0x13 * 2 ^ 40 + 44 * 2 ^ 64 + 1409 * 2 ^ 128 + 2 * 2 ^ 176 + 2 ^ 31 * 2 ^ 192), false⟩]
    ++ List.replicate 44 ⟨1, false⟩⟩
def seg3 : Segment := { seg1 0 1409 with relay := true, target := 6 }
/-- A segment of a reply to request 44, in a packet: number `n` of 2. -/
def replySeg (n : Nat) : RawPacket :=
  ⟨0, [⟨BitVec.ofNat 256 (0x54584D47 + 2 ^ 32 + 0x30 * 2 ^ 40 + 44 * 2 ^ 64 + 1409 * 2 ^ 128 + n * 2 ^ 160 + 2 * 2 ^ 176 + 2 ^ 31 * 2 ^ 192), false⟩]
    ++ List.replicate 44 ⟨1, false⟩⟩
def replyPkt : RawPacket := replySeg 0
def lastPkt : RawPacket := replySeg 1
def wReply (id : BitVec 64) : Machine.State := stIn stReady fun b =>
  { linked b with inbox := [inPkt replyPkt, inPkt lastPkt], mgmt := { b.mgmt with relays := [(id, 9)] } }
/-- Its request came from module 5. -/
def wRelayed : Machine.State := served stReady fun b => { b with mgmt := { b.mgmt with relayFrom := [⟨0, 7, 5⟩] } }
def wReasm : Machine.State := stIn stReady fun b => atNs 100000500 { b with mgmt := { b.mgmt with reasm := [⟨9, 44, 0x13, 1409, 2, 500, []⟩] } }
def wSync : Machine.State := served stSync fun b => b.wr MTC_CTRL.root_enable 1
def x_selftest_pass0 := stIn stReady fun b => running 9 uGath 100 (atNs 200 b)
def x_selftest_fail0 := stIn stReady fun b => running 9 uGath 100 (atNs 200 b)
def x_phase20 := stIn stReady fun b => b.updPower fun p => { p with phasesLost := [(39, 1)] }
def x_ring_high0 := stIn stReady fun b => evHeld (evRec 7000 3) (b.wr CTL_EV_WR.index (2 ^ 48 - 1))
def y_segment_bad0 := { seg1 1 1409 with length := 262145 }
def x_segment_pkt0 := stIn stReady fun b => { linked b with inbox := [inPkt relayPkt] }
def x_read_mem0 := served stReady fun b => { b with mem := cells 4096 0 imgBytes }
def x_i3c_read0 := stIn stReady fun b => { b with mgmt := { b.mgmt with i3cAddr := some 127 } }
def linkUp (b : Blk) : Blk := b.wr CXL_STATUS.link_up 1
def hdm (b : Blk) : Blk := ((((linkUp b).wr CXL_STATUS.hdm_committed 1).wr CXL_WIN.size 2).wr CXL_WIN.dev_base 1).updHost fun h => { h with hdmBase := 2 ^ 40 }
def hostReq (w : Bool) (at_ : Nat) : MemReq := ⟨ownHost, at_, 1, w, if w then [⟨9, false⟩] else [], .host, 0, 500⟩
def wHost : Machine.State := stIn stReady hdm
def wServe : Machine.State := stIn stReady fun b => atNs 6500 ({ b with memReqs := [(127, [hostReq false 8160])] }.wr XBAR_STATUS.idle 1)
def wHeld (w : Bool) : Machine.State := stIn stReady fun b => atNs 90000000 { b with memReqs := [(5, [hostReq w 96])] }
/-- CXL mastering has its slot of the idle calendar. -/
def mastering (b : Blk) : Blk := (atNs 902500 b).wr XBAR_STATUS.idle 1
/-- A ring with one descriptor, at the top of the ring, whose word is at 4096 + 32 × 1023. -/
def ringAt (tail head x : Nat) (b : Blk) : Blk :=
  let b := (((linkUp b).wr CXL_PULL_BASE.addr 4096).wr CXL_PULL_IDX.tail tail).wr CXL_PULL_IDX.head head
  { b with mem := cells (4096 + 32 * tail) 0 (leBytes 32 x), host := { b.host with pullBusy := some 700 } }
def wRing (f : Blk → Blk) : Machine.State := stIn stReady fun b => f (ringAt 1023 0 (1 + 7 * 2 ^ 216) (mastering b))
def wVector : Machine.State := stIn stReady fun b => atNs 900000 ((linkUp b).updHost fun h => { h with msixPending := [15], msixSent := [(15, some 100)] })
/-- Core 31 of the last compute die, issuing with its guard P1 inverted. -/
def lastCore : CoreId := ⟨11, 31⟩
def iss : Issue := ⟨lastCore, ⟨1, true⟩⟩
def issuingAt (pc : Nat) (f : CoreSt → CoreSt) (b : Blk) : Blk :=
  ((b.wr (SEQ_STATUS.state 11 31) 1).wr (SEQ_STATUS.pc 11 31) pc).updCore 383 f
/-- A module in RUN whose last core issues. -/
def wCore (f : CoreSt → CoreSt) : Machine.State := stIn stRun (issuingAt 40 f)
def withCtx (f : Ctx → Ctx) (c : CoreSt) : CoreSt := { c with ctx0 := f c.ctx0 }
def regs3 : CoreSt → CoreSt := withCtx fun x => { x with s := [(1, 2 ^ 64 - 1), (31, 65)] }
def sop : SOp := ⟨31, 1, 31, false, 0⟩
def wLoop (l : List LoopFrame) (r : List BrFrame) : Machine.State := wCore fun c => { c with loops := l, brs := r }
def frozen (b : Blk) : Blk := b.updVote fun v => { v with frozen := true }
def y_scalar_max00 := { sop with d := 0 }
def x_vote_late0 := stIn stRun fun b => frozen (issuingAt 40 id b)
def x_waitq0 := wCore fun c => { c with qcnt := [(5, 3)] }
def x_waitq_short0 := wCore fun c => { c with qcnt := [(5, 3)] }
/-- Registers V1 and V2 hold small floating-point numbers in lanes 0 to 3, V4 and V5 doubles, K1 the even lanes. -/
def vecs (vl : Nat) : CoreSt → CoreSt := withCtx fun x => { x with
  s := [(1, 4096), (2, 8192), (3, 127)],
  v := [(128, 0x3F800000), (129, 0x40000000), (130, 0xC0400000), (131, 0x7F800001), (256, 0x3F800000), (257, 5), (258, 31), (259, 3),
    (513, 0x3FF00000), (515, 0x40000000), (641, 0x3FF00000), (643, 0x3FF00000)],
  k := [(1, 0x55555555)], vl := vl }
def wVec (vl : Nat) : Machine.State := wCore (vecs vl)
def vop (f : BitVec 4) (m : BitVec 3) : VOp :=
  { vd := 6, vs1 := 1, vs2 := 2, vs3 := 1, mask := m, zero := false, func := f, opt := 0, sd := 31, ra := 1, rel := false, fmt := 10, sgn := false,
    layout := 0, rdesc := 2, rtile := 0, tid := 0, draw := 0, purpose := 0, imm := 0 }
def vop64 (f : BitVec 4) (m : BitVec 3) : VOp := { vop f m with vs1 := 4, vs2 := 5, vs3 := 4 }
def vopZ (f : BitVec 4) (m : BitVec 3) : VOp := { vop f m with zero := true }
def y_vrand0 := { vop 2 1 with purpose := 2 }
def y_vcompress0 := { vop 3 0 with vs2 := 1 }
def y_vcompress310 := { vop 3 0 with vs2 := 1, zero := true }
def y_vexpand0 := { vop 4 0 with vs2 := 1 }
def y_vcmp0 := { vop 5 1 with opt := 2, vd := 7 }
def y_vcmp00 := { vop 5 1 with opt := 0, vd := 8 }
def y_kop0 := { vop 3 0 with vd := 7 }
def y_setvl0 := { vop 0 0 with ra := 3 }
def wVecMem (d : Nat) (data : List Byte) : Machine.State :=
  stIn stRun fun b => { issuingAt 40 (vecs 4) b with mem := cells 4096 0 data ++ cells 8192 0 (leBytes 32 d) }
/-- A conversion to BF16 (format 8), round to nearest, limits to the largest value. -/
def convD (fmt : Nat) : Nat := fmt + 5 * 2 ^ 16
def mopA : MOp :=
  { aFmt := 0, bFmt := 0, aSign := true, bSign := true, aLayout := 0, bLayout := 0, dataflow := 1, accSrc := 0, accDst := 2, accSet := true,
    m := 2, n := 2, k := 4, ra := 1, rb := 2, rc := 0, rd := 0, rt := 0, aRel := false, bRel := false, cRel := false }
def mopE : MOp := { mopA with m := 0 }
def sumTile : AccTile := ⟨true, 2, 2, [[1, 2], [3, 2 ^ 32 - 1]], 1, false⟩
def matJob (dst : Nat) : MatJob := ⟨sumTile, false, true, dst, 1, some (2 ^ 49 + 383 * 2 ^ 25 + 64), 64, 0, 0, 16, 0, 16, [(0, 16)], (0, 0), 1, 0, true⟩
def wMat (dst : Nat) : Machine.State := wCore fun c => { c with mats := [matJob dst] }
def xferD (kind words dev off die site poff : Nat) : Nat := kind + die * 2 ^ 10 + site * 2 ^ 14 + off * 2 ^ 32 + poff * 2 ^ 64 + dev * 2 ^ 96 + words * 2 ^ 192
def wXfer (d : Nat) : Machine.State :=
  stIn stRun fun b => { issuingAt 40 (withCtx fun x => { x with s := [(3, 8192)] }) b with mem := cells 8192 0 (leBytes 32 d) ++ [(2 ^ 49 + 383 * 2 ^ 25 + 65, 7)] }
def issN : Issue := ⟨lastCore, ⟨1, true⟩⟩
def issOff : Issue := ⟨lastCore, ⟨1, false⟩⟩
def xfer1 (kind dev : Nat) : Xfer := ⟨5, 383, kind, false, 2 ^ 49 + 383 * 2 ^ 25 + 64, dev, 0, 2, 0, false⟩
def wDone (x : Xfer) : Machine.State := stIn stRun fun b => { b with xfers := [x], mem := [(4100, 9)] }
def y_vld110 := { vop 0 1 with vd := 6, fmt := 11, ra := 1 }
def y_vld00 := { vop 0 1 with vd := 6, fmt := 0, ra := 1 }
def y_vstr0 := { vop 0 1 with fmt := 10 }
def y_vstr640 := { vop 0 1 with fmt := 11, vs1 := 4 }
/-- A tile of two by two sums bound for the conversion to BF16. -/
def jobOut : MatJob := { matJob 0 with desc := 8192 }
def wMatOut : Machine.State := stIn stRun fun b =>
  { issuingAt 40 (fun c => { c with mats := [jobOut] }) b with mem := cells 8192 0 (leBytes 32 (convD 8)) }
def portUp (p : Nat) (b : Blk) : Blk := b.setPstate p psUp
/-- Port 9 lives, is authenticated and has one offset of this period. -/
def child (e : Int) (b : Blk) : Blk :=
  (((portUp 8 (atNs 640000 b)).wr (CTL_DISC.authenticated 8) 1).updPtime 8 fun t => { t with samples := [e], nbHops := 61, nbRoot := true }).updTime
    fun t => { t with stepped := true }
def wChild (e : Int) : Machine.State := stIn stReady (child e)
def wRoot : Machine.State := stIn stReady fun b => ((b.updTime fun m => { m with stepped := true }).wr MTC_STATUS.is_root 1).wr MTC_ROOT_TRIM.trim (2 ^ 31)
def wHoldover : Machine.State := stIn stRun fun b => (atNs 640000 b).updTime fun t => { t with everContrib := true, lastContrib := 9 }
/-- A set that answers set 5, turned round in 200 ns. -/
def tsSet (echo : Nat) : BitVec 160 :=
  BitVec.ofNat 160 (0x5A + 7 * 2 ^ 8 + echo * 2 ^ 16 + 62 * 2 ^ 24 + 2 ^ 30 + 640000 * 2 ^ 48 + 200 * 2 ^ 16 * 2 ^ 112)
def wStamp : Machine.State := stIn stReady fun b => (portUp 9 (atNs 640000 b)).updPtime 9 fun t => { t with sent := [⟨5, 639000 * 2 ^ 16⟩] }
def wPps : Machine.State := stIn stReady fun b => (((atNs 1100000999 b).wr MTC_CTRL.pps_enable 1).wr MTC_STATUS.is_root 1).wr MTC_STATUS.pps_valid 1
def wPpsLost : Machine.State := st fun _ => wPps.blk.updTime fun t => { t with ppsLast := some 999 }
def osc (stopped : Bool) (d : Int) : OscMeasure := ⟨stopped, d, true⟩
def wBackup (f : Blk → Blk) : Machine.State := stIn stRun fun b => f ((atNs 11000000 b).wr MTC_CTRL.backup_rank 3)
/-- Entry 31 of the table is due with action `a` and argument `v`. -/
def dueIn (n a v : Nat) (f : Blk → Blk) : Machine.State := stIn n fun b =>
  f ((((atNs 2000 b).wr (MTC_SCHED_ACT.valid 31) 1).wr (MTC_SCHED_ACT.action 31) a).wr (MTC_SCHED_ACT.arg 31) v
    |>.updSched fun s => { s with inst := [(31, 1960)] })
def closeAt9 (b : Blk) : Blk := ((b.wr (MTC_SCHED_ACT.valid 9) 1).wr (MTC_SCHED_ACT.action 9) 7).updSched fun s => { s with inst := [(9, 5000), (31, 1960)] }
def bothRouters (f : Nat → Blk → Blk) (b : Blk) : Blk := f 1 (f 0 b)
def readyBank (b : Blk) : Blk := bothRouters (fun ld b => (b.wr (ROUTE_EPOCH.released ld) 1).wr (ROUTE_EPOCH.shadow_ready ld) 1) (portUp 9 b)
def unreleased (b : Blk) : Blk := bothRouters (fun ld b => b.wr (ROUTE_EPOCH.released ld) 0) b
def wMark : Machine.State := stIn stRun fun b => (unreleased b).wr (ROUTE_DRAIN.open_ 1 4) 255
def inMode (m : Nat) (b : Blk) : Blk := b.wr PWR_MODE.mode m
def changing (m p : Nat) : Machine.State := stIn stReady fun b => (inMode m b).wr PWR_MODE.pending p
/-- A job of a prologue segment and a step segment, with code for the last core in block 3. -/
def proSeg : Seg := { oneSeg with prologue := true, anchorNs := 500000 }
def twoJob : Job := { oneJob with segs := [proSeg, oneSeg, { oneSeg with anchorNs := 2000000, block := 4 }], prologueNs := 500000, stepNs := 2000000, code := [⟨3, 11, 31, 5, 8⟩, ⟨4, 11, 31, 9, 8⟩] }
def wStart : Machine.State := dueIn stArmed 5 0 fun b => withJob twoJob 0 b
def wRelease (t : Nat) : Machine.State := stIn stRun fun b => (atNs t (withJob twoJob 1500000 b)).updRun fun r => { r with seg := 1 }
def arrivedAll (b : Blk) : Blk := ((b.wr (SEQ_STATUS.state 11 31) 2).wr (SEQ_STATUS.segment 11 31) 1)
def cached3 (b : Blk) : Blk := ((b.wr (SEQ_ICACHE.half0_valid 11 31) 1).wr (SEQ_ICACHE.half0_block 11 31) 3)
def wArrive : Machine.State := stIn stRun fun b => (withJob oneJob 0 (issuingAt 40 id b))
def swapOut : Swap := ⟨383, 1, some 7, 3, true, 100⟩
def swapIn : Swap := ⟨383, 0, none, 3, false, 100⟩
def wSwap (w : Swap) : Machine.State := stIn stRun fun b => (issuingAt 40 regs3 b).updRun fun r => { r with swaps := [w] }
def wFill : Machine.State := stIn stRun fun b => withJob twoJob 0 (issuingAt 40 id b)
def someCtx : Ctx := ⟨[(31, 5)], [], [(15, true)], [], [(128 * 31 + 127, 7)], [], [(7, 2 ^ 127)], [], 128, 63⟩
def x_anchor_rel0 := st fun _ => cached3 (arrivedAll (wRelease 2500040).blk)
def x_anchor_rel20 := st fun _ => ((cached3 (arrivedAll (wRelease 2500040).blk)).wr (SEQ_ICACHE.half1_valid 11 31) 1).wr (SEQ_ICACHE.half1_block 11 31) 4
def jr (f : Journal → Journal) (b : Blk) : Blk := b.updJournal f
def wFlip (o : Nat) (stop : Option Nat) : Machine.State := dueIn stRun 1 0 fun b =>
  (jr (fun j => { j with step := 2 ^ 32 - 1, attempt := 255, phase := 4, outcome := o, active := 1 }) b).updColl (fun c => { c with complete := true })
    |>.updRun fun r => { r with stopAt := stop }
def wFlipDoubt : Machine.State := dueIn stRun 1 0 (jr fun j => { j with step := 8, phase := 3 })
def wDoubt (f : Blk → Blk) : Machine.State := stIn stRun fun b => f (jr (fun j => { j with step := 8, attempt := 2, inDoubt := true }) (portUp 9 (atNs 90000 b)))
def wJournal (j : Journal) : Machine.State := stIn stRun fun b => portUp 9 { b with journal := j }
def jrn (step att phase own out : Nat) : Journal := { Journal.init with step := step, attempt := att, phase := phase, ownVote := own, outcome := out }
/-- Axis A of three modules, this one in the middle. -/
def wLine : Machine.State := stIn stReady fun b => portUp 0 ((b.wr (ROUTE_CFG.lengths 0) 2).wr (ROUTE_CFG.coord 0) 1)
def hdrOf (t : Nat) (dev tag n : Nat) : BitVec 256 := BitVec.ofNat 256 (mkHdr t 0 5 3 n (dev * 2 ^ 104 + tag * 2 ^ 154))
def votePkt (st pos : Nat) : RawPacket := ⟨hdrOf 9 0 0 1, [⟨BitVec.ofNat 256 (1 + 2 ^ 33 + st * 2 ^ 104 + pos * 2 ^ 106), false⟩]⟩
def wVote (stage : Nat) (l : List (Nat × Nat × Nat)) (p : RawPacket) : Machine.State :=
  stIn stRun fun b => ({ linked b with inbox := [inPkt p] }.updColl fun c => { c with barrierOn := true, stage := stage, votes := l })
    |>.wr (ROUTE_CFG.lengths 0) (1 * 2 ^ 18) |>.wr (ROUTE_CFG.order 0) 0xE4
def report1 : ScaleReport := ⟨16383, true, 77, false, 3, 4⟩
def wReports : Machine.State := stIn stRun fun b => b.updScale fun s => { s with reports := [report1], pending := [(16383, ⟨false, 99, true, 1, 1⟩)] }
def wLatch : Machine.State := st fun _ => jr (fun j => { j with phase := 2 }) ((atNs 5000 wReports.blk).updScale fun s => { s with boundary := some 4000 })
def scEnt (v : Bool) : ScaleEnt := { ScaleEnt.init with valid := v, fmt := 3, hist := 4, ring := [(0, 100)], count := 1, head := 1 }
def wRebuild : Machine.State := stIn stRun fun b =>
  (b.wr NUM_TABLE_STAT.rebuilding 1).updScale fun s => { s with
    bank0 := [(3, scEnt true), (16383, scEnt true)], bank1 := [(3, scEnt true), (16383, scEnt true)], latched := some [(16383, ⟨true, 200, false, 0, 9⟩)] }
/-- The same, 40 ns before shard 0's anchor at 1.5 ms less 2 µs. -/
def wStopAt : Machine.State := st fun _ => jr (fun j => { j with phase := 2 })
  (atNs 1498040 (withJob { oneJob with shards := [⟨0, 0, 0⟩] } 500000 wRebuild.blk))
def rdPkt (t dev tag : Nat) (l : List MWord) : RawPacket := ⟨hdrOf t dev tag l.length, l⟩
def inboxed (p : RawPacket) : Machine.State := stIn stReady fun b => { linked b with inbox := [inPkt p], mem := [(4097, 9)] }
/-- The same at 3.1 µs of the cycle, when 256 words still go before the channel's next refresh. -/
def early (p : RawPacket) : Machine.State := st fun _ => atNs 903100 (inboxed p).blk
def x_doubt_ask0 := wDoubt fun b => b.updColl fun c => { c with lastQuery := 70000 }
/-- Port `p` in state `st`, changed by `f`, at 900 µs. -/
def portIn (p st : Nat) (f : PortSt → PortSt) : Machine.State := stIn stReady fun b => ((atNs 900000 b).setPstate p st).updPort p f
/-- The same at an instant in which the idle program's link entry plays. -/
def atLink (s : Machine.State) : Machine.State := st fun _ => atNs 900017 s.blk
def spareLane (p : Nat) (s : Machine.State) : Machine.State := { s with blk := s.blk.wr (PORT_LANE.state p 35) 1 }
def noSpare (p : Nat) (s : Machine.State) : Machine.State := { s with blk := (List.range 36).foldl (fun b l => b.wr (PORT_LANE.state p l) (if l < 34 then 0 else 2)) s.blk }
def credW (n : BitVec 24) : CreditWord := ⟨n, [2 ^ 20, 3, 4, 5, 6, 7, 8, 2 ^ 19]⟩
def withReplay (l : List MWord) (x : PortSt) : PortSt := { x with replay := l, ackSeq := 2 ^ 24 - 1, vcReturned := [(1, 4)] }
def enabled (p : Nat) (s : Machine.State) : Machine.State := { s with blk := s.blk.wr (PORT_CTRL.enable p) 1 }
def cabled (x : PortSt) : PortSt := { x with present := true }
def wPortEnable : Machine.State := { (portIn 9 psDown cabled) with blk := ((portIn 9 psDown cabled).blk.wr (PORT_CTRL.enable 9) 0) }
def goodTrain : TrainResult := ⟨BitVec.ofNat 36 (2 ^ 36 - 1), 5000, 7000⟩
def poorTrain : TrainResult := ⟨BitVec.ofNat 36 (2 ^ 16 - 1), 5000, 5000⟩
def halfTrain : TrainResult := ⟨BitVec.ofNat 36 (2 ^ 36 - 2 ^ 19), 5000, 3000⟩
def spareRole (f : Blk → Blk) : Machine.State := stIn stReady fun b =>
  f ((((atNs 900000 b).wr (PORT_PLAN.role 9) 1).wr (PORT_PLAN.serves 9) 6).wr (PORT_STATE.level_minor 9) 2)
def take1 : Take := ⟨5, 5, 9, 800000⟩
def outSince (p t : Nat) : Machine.State := portIn p psUp fun x => { x with outage := some t, nakWait := true, replay := [⟨1, false⟩, ⟨2, true⟩] }
def x_credit_send0 := atLink (portIn 9 psUp fun x => { x with rxSeq := 2 ^ 24 - 1, nakPending := true, vcFreed := [(7, 2 ^ 20 - 1)] })
def x_stamp_send0 := atLink (portIn 9 psUp fun x => { x with linkCount := 1 })
def x_spare_ack0 := portIn 9 psUp fun x => { x with rxSpares := [⟨4, 34, 1, none⟩, ⟨3, 35, 0, none⟩] }
def x_spare_switch0 := portIn 9 psUp fun x => { x with rxSpares := [⟨4, 34, 0, none⟩, ⟨3, 35, 1, some 99⟩], txSpares := [⟨6, 34, 0, some 7⟩] }
def x_spare_tx0 := portIn 9 psUp fun x => { x with rxSpares := [⟨4, 34, 0, none⟩], txSpares := [⟨3, 35, 0, some 99⟩, ⟨4, 34, 0, some 8⟩], txLanes := List.range 34 }
def x_calm_leave0 := portIn 9 psCalm fun x => { x with ownLeave := some 99 }
def x_act10 := portIn 9 psUp fun x => { x with act := some ⟨1, 900000⟩ }
def x_act20 := noSpare 9 (portIn 9 psCalm fun x => { x with act := some ⟨2, 900000⟩ })
def x_act2h0 := { (noSpare 9 (portIn 9 psCalm fun x => { x with act := some ⟨2, 900000⟩ })) with blk := ((noSpare 9 (portIn 9 psCalm fun x => { x with act := some ⟨2, 900000⟩ })).blk.wr (PORT_LANE.state 9 33) 2) }
def x_act30 := noSpare 9 (portIn 9 psUp fun x => { x with act := some ⟨3, 900000⟩ })
def x_lock_timeout0 := stIn stReady fun b => ((atNs 100000007 b).setPstate 9 psTraining).updPort 9 fun x => { x with farEnd := some 7 }
def x_settle0 := stIn stReady fun b => ((atNs 20000007 b).setPstate 9 psTraining).updPort 9 fun x => { x with lockAt := some 7, goodLanes := 36 }
def x_takeover_more0 := spareRole fun b => { b with takes := [take1] }
def x_takeover_at0 := spareRole fun b => { b with takes := [take1] }
/-- Axes A and S of three modules on both routers, this module the last of axis A. -/
def torus (b : Blk) : Blk := bothRouters (fun ld b =>
  ((b.wr (ROUTE_CFG.lengths ld) (2 + 2 * 2 ^ 12)).wr (ROUTE_CFG.coord ld) 2).wr (ROUTE_CFG.order ld) 0xE4) b
def dataPkt (dst cls : Nat) : RawPacket := ⟨BitVec.ofNat 256 (mkHdr 1 dst 1 cls 1), [⟨7, false⟩]⟩
def wRoute (f : Blk → Blk) : Machine.State := stIn stReady fun b => f (portUp 1 (portUp 0 (torus b)))
def dirTo (x t d : Nat) (b : Blk) : Blk := b.wr (ROUTE_NEXT.dir 0 0 x t) d
def qpk (n vc port : Nat) : QPkt := ⟨⟨0, List.replicate n ⟨7, false⟩⟩, 9, vc, none, false, port, 899000⟩
def wSend (x : QPkt) : Machine.State := atLink { (portIn 9 psUp fun p => { p with queue := [qpk 3 1 8, x], txSeq := 2 ^ 24 - 1 }) with
  blk := (portIn 9 psUp fun p => { p with queue := [qpk 3 1 8, x], txSeq := 2 ^ 24 - 1 }).blk.wr (PORT_CREDIT.avail 9 6) 5 }
def echoPkt (v : Nat) : RawPacket := ⟨BitVec.ofNat 256 (mkHdr 0x14 0 5 3 1), [⟨BitVec.ofNat 256 v, false⟩]⟩
def wRate (f : Nat) : Machine.State := stIn stRun fun b => { (linked b).wr (HW_RATE.f 1 2 1) f with inbox := [⟨0, 0, echoPkt (2 + 3 * 4)⟩] }
def meetBase : Blk := (stIn stDiscover fun b => { torus (atNs 900000 b) with flash := planFlash }).blk
def helloW : HelloWord := ⟨1, 0, 0, 1, 5642142030⟩
def keyOf (w : HelloWord) : HelloKey := ⟨w.major.toNat, w.minor.toNat, w.coord.toNat, w.lport.toNat, w.fpr.toNat⟩
def wMeet (g : Nat) : Machine.State := st fun _ => ((meetBase.setPstate 0 psTraining).wr (CTL_DISC.hellos 0) 2).updPort 0 fun p =>
  { p with lockAt := some 7, goodLanes := g, hello := some (keyOf helloW) }
def admitted (a : AuthSt) (f : Blk → Blk) : Machine.State :=
  stIn stReady fun b => f ((portUp 0 { torus (atNs 30000000 b) with flash := planFlash }).updPort 0 fun p => { p with admitted := true, auth := a })
def auth1 (n : Option Nat) (tries : Nat) : AuthSt := { AuthSt.init with nonce := n, tries := tries, startAt := 10000000, sentAt := 25000000 }
def wDisc (t : Nat) : Machine.State := stIn stDiscover fun b => torus { atNs t b with flash := planFlash }
def noPlan (b : Blk) : Blk := [4, 9].foldl (fun b p => b.wr (PORT_PLAN.role p) 3) b
def x_challenge0 := admitted (auth1 none 0) fun b => b.wr SEC_STATUS.key_ok 1
/-- The counter has kept counting through a reset, the module was root, and no other root is advertised. -/
def x_disc_root0 := stIn stDiscover fun b => ((noPlan b).updTime fun t => { t with stepped := true }).wr MTC_STATUS.is_root 1 |>.wr MTC_CTRL.root_enable 1
def x_disc_warm0 := stIn stDiscover fun b => (noPlan b).updRst (fun r => { r with warmPath := true }) |>.wr MTC_STATUS.is_root 1
def x_sync_exit0 := stIn stSync fun b => (b.wr MTC_STATUS.locked 1).wr MTC_STATUS.is_root 1
def x_sync_fenced0 := stIn stSync fun b => ((b.wr MTC_STATUS.locked 1).wr MTC_STATUS.hops 62).updRst fun r => { r with expelled := true }
def wr8 (r : Reg) (v : BitVec 64) : Access := ⟨.control, BitVec.ofNat 48 r.addr, 8, v⟩
def wPort (f : Blk → Blk) : Machine.State := stIn stReady fun b => f (atNs 900000 b)
def evPort (i w : Nat) (b : Blk) : Blk := ((b.wr (CTL_EV_RD.index 3) i).wr CTL_EV_WR.index w).updEv fun e => { e with ring := [(4095, 2 ^ 200 + 7)] }
def schedAt (t : Nat) (b : Blk) : Blk := b.setReg (.mtcSchedTime 31) t
def pullBlk (tail head stop x : Nat) (b : Blk) : Blk :=
  { ((((linkUp b).wr CXL_PULL_BASE.addr 4096).wr CXL_PULL_IDX.tail tail).wr CXL_PULL_IDX.head head).wr CXL_PULL_IDX.stopped stop with
    mem := cells (4096 + 32 * tail) 0 (leBytes 32 x) }
def pullX : Nat := 2 ^ 40 * 2 ^ 64 + 8192 * 2 ^ 128 + 64 * 2 ^ 176
def idleAt (t : Nat) (l : List MemReq) : Machine.State := stIn stReady fun b => ({ atNs t b with memReqs := [(127, l)], mem := [(8161, 5)] }.wr XBAR_STATUS.idle 1)
def gReq : MemReq := ⟨0x8000, 8160, 1, false, [], .guest, 0, 500⟩
def win127 : Window := ⟨1000, 4000, 127, 1, false, 0x8000⟩
def wExpire : Machine.State := stIn stRun fun b => { atNs 1005000 (withJob { oneJob with windows := [win127] } 1000000 b) with memReqs := [(127, [gReq])] }
def wMig : Machine.State := stIn stReady fun b => b.updMd 3 fun m => { m with migrating := some (31, 31, 33) }
def wRepair : Machine.State := stIn stReady fun b => { b.updMd 3 (fun m => { m with repair := [96] }) with mem := [(97, 5)], err := [(96, 2)] }
def repairAt : Nat × Nat := match classify 2 with | .correctable p v => (p, v) | _ => (0, 0)
def ncLine : NcLine := ⟨16, 4, List.replicate 8 ⟨7, false⟩⟩
def ncOn (f : NCacheSt → NCacheSt) (n : Nat) : Machine.State := stIn n fun b =>
  ({ b with mem := [(4097, 5)] }.wr (NCACHE_CTRL.enable 11) 1).updNc 11 f
def gDesc (kind count : Nat) : Nat := kind + 2 * 2 ^ 8 + 512 * 2 ^ 16 + 1024 * 2 ^ 41 + 4096 * 2 ^ 72 + count * 2 ^ 120 + 100 * 2 ^ 184 + 3 * 2 ^ 216
def wGstart : Machine.State := wXfer (gDesc 0 2)
def strm (kind count next done : Nat) (l : List GathReq) : Stream := ⟨383, 0, BitVec.ofNat 256 (gDesc kind count), next, done, false, l⟩
def wStream (x : Stream) : Machine.State := stIn stRun fun b =>
  { atNs 90000000 (b.updGath 47 fun g => { g with streams := [x] }) with mem := [(4100, 9), (2 ^ 49 + 383 * 2 ^ 25 + 512, 3)] }
/-- A job whose only segment has an entry of the lookup port of die 11, and window entries and memory windows of its near cache and of its
gather engine 3, which have been open for 1 µs. -/
def gJob : Job := { oneJob with
  net := [⟨0, 4096, 11, 0, 0, 0, 0, 1, 2, 0⟩], calRecs := [⟨0, 1, 0, 3⟩],
  xbar := [⟨0, 4096, 12, 11, 0, 0, 9, 1, ownNc 11⟩, ⟨0, 4096, 18, 11, 0, 0, 9, 1, ownGath 11 3⟩, ⟨0, 4096, 12, 11, 9, 9, 9, 1, ownGath 11 3⟩],
  windows := [⟨99000, 10000, 0, 128, false, ownNc 11⟩, ⟨99000, 10000, 0, 128, false, ownGath 11 3⟩] }
def playing9 (s : Machine.State) : Machine.State := st fun _ =>
  ((withJob gJob 89900000 (atNs 90000000 s.blk)).wr XBAR_STATUS.idle 0).updRun fun r => { r with rels := [(0, 89999000)] }
def gReq1 (a t : Nat) : GathReq := ⟨0, 1, a, 4097, true, t⟩
def req0 : GathReq := ⟨0, 0, 4288, 4097, true, 0⟩
/-- The stream's index 1 is invalid, and its element's place holds something. -/
def invalidIdx (s : Machine.State) : Machine.State := st fun _ => { s.blk with
  mem := cells (2 ^ 49 + 383 * 2 ^ 25 + 512) 0 ([3, 0, 0, 0, 255, 255, 255, 255]) ++ [(2 ^ 49 + 383 * 2 ^ 25 + 1090, 7)] }
def cachedStrm (l : List GathReq) : Stream := ⟨383, 0, BitVec.ofNat 256 (gDesc 0 2 + 4), 2, 1, false, l⟩
def servedLine (s : Machine.State) : Machine.State := st fun _ => s.blk.updNc 11 fun n => { n with served := [(0, 16, false), (3, 16, false)] }
def x_write_w1c0 := wPort fun b => b.setReg (.vecNanLanes 11 31 1) 7
def y_acc_bad0 := { wr8 .glbPart 0 with bytes := 4 }
def y_acc_locked0 := { wr8 .glbPart 0 with path := .debug }
def x_entry_write0 := wPort fun b => wRebuild.blk.wr CTL_STATE.state (b.dstate)
def x_perf_die0 := wPort fun b => b.wr (PERF_CNT.count 18 7) 99
def x_perf_sel0 := wPort fun b => b.wr (PERF_CNT.count 18 7) 99
def x_relock0 := wPort fun b => b.wr SEC_DBG.level 2
def y_win_close0 := { oneJob with windows := [win127] }
def x_refresh0 := stIn stReady fun b => (atNs (1952 * 9 + 15 * 122) b).wr (PERF_SEL.event 16 7) 6 |>.wr (PERF_SEL.unit 16 7) 31
def x_nc_hit0 := playing9 (ncOn (fun n => { n with lines := [ncLine] }) stRun)
def x_nc_miss0 := playing9 (ncOn (fun n => { n with lines := [ncLine] }) stRun)
def x_nc_fill0 := playing9 (ncOn (fun n => { n with misses := [⟨16, [0, 4]⟩] }) stRun)
def x_nc_flush0 := ncOn (fun n => { n with lines := [ncLine] }) stRun
def x_nc_flush_r0 := ncOn (fun n => { n with lines := [ncLine] }) stReady
/-- Descriptor of a broadcast of `n` FP32 elements along axis A from root 1 to address 2 ^ 20, on logical channel 63. -/
def bcast (n : Nat) : Nat := 3 + 2 ^ 4 + 63 * 2 ^ 8 + 1 * 2 ^ 27 + 2 ^ 20 * 2 ^ 96 + n * 2 ^ 192 + 3 * 2 ^ 224
def bcastRun (d : Nat) : CollRun := ⟨383, BitVec.ofNat 256 d, BitVec.ofNat 256 (2 ^ 21 + 32), 1023, 0, 0, [], [], [], [], [], [], [], 0, false, false, true⟩
def wCollIss : Machine.State := stIn stRun fun b =>
  { issuingAt 40 (withCtx fun x => { x with s := [(1, 2 ^ 64 - 1), (31, 8192)] }) b with mem := cells 8192 0 (leBytes 32 (bcast 20) ++ leBytes 32 (2 ^ 21 + 32)), coll := { b.coll with invoc := [(63, 1023)] } }
/-- A job whose only segment has window entries of link die 0's service and of the engine of channel 15, and a memory window of the
engine. -/
def collJob : Job := { oneJob with
  calRecs := [⟨0, 0, 0, 3⟩],
  xbar := [⟨0, 4096, 16, 19, 0, 0, 9, 1, ownLink 0⟩, ⟨0, 4096, 12, 19, 0, 9, 9, 1, ownColl 15⟩, ⟨0, 4096, 19, 12, 0, 0, 9, 1, ownColl 15⟩],
  windows := [⟨99000, 10000, 0, 128, false, ownColl 15⟩] }
/-- Physical channel 15 bound to logical channel 63, with a run. -/
def wCollRun (d : Nat) (p : RawPacket) : Machine.State := stIn stRun fun b =>
  ({ ((((torus (withJob collJob 89900000 (atNs 90000000 b))).wr (COLL_CHAN.bound 15) 1).wr (COLL_CHAN.logical 15) 63).wr (COLL_CHAN.busy 15) 1).wr XBAR_STATUS.idle 0 with
      inbox := [inPkt p], mem := [(2 ^ 20 + 64, 9)] }.updRun fun r => { r with rels := [(0, 89999000)] }).setRun 63 (some (bcastRun d))
def collPkt4 : RawPacket := ⟨BitVec.ofNat 256 (mkHdr 4 2 1 0 2 ((63 + 1023 * 64) * 2 ^ 72 + 8 * 2 ^ 104)), [⟨BitVec.ofNat 256 (2 ^ 255 + 77), false⟩, ⟨BitVec.ofNat 256 (2 ^ 200 + 78), false⟩]⟩
def collPkt5 : RawPacket := ⟨BitVec.ofNat 256 (mkHdr 5 2 1 0 1 ((63 + 1023 * 64) * 2 ^ 72 + 2 ^ 88)), [⟨2, false⟩]⟩

/-! ### Well-formedness: an ill-formed term for each check, which the check refuses -/

def pop (c : BitVec 3) : POp := ⟨15, 1, 31, false, c, 0⟩
theorem test_wf_scmp : WellFormed.instr (.scmp iss (pop 6)) = false := by decide
theorem test_wf_plog : WellFormed.instr (.plog iss (pop 4)) = false := by decide
theorem test_wf_mop : (∀ o ∈ [{ mopA with aFmt := 11 }, { mopA with bFmt := 11 }, { mopA with aLayout := 3 }, { mopA with bLayout := 3 },
    { mopA with dataflow := 3 }, { mopA with accSrc := 3 }, { mopA with accDst := 3 }], WellFormed.instr (.mop iss o) = false)
    ∧ WellFormed.instr (.mop iss mopA) = true := by decide
theorem test_wf_vld : WellFormed.instr (.vld iss { vop 0 1 with fmt := 12 }) = false ∧ WellFormed.instr (.vld iss { vop 0 1 with layout := 3 }) = false := by
  decide
theorem test_wf_vfp : WellFormed.instr (.vfp iss (vop 9 1)) = false ∧ WellFormed.instr (.vfpd iss (vop 11 1)) = false := by decide
theorem test_wf_vint : WellFormed.instr (.vint iss (vop 13 1)) = false := by decide
theorem test_wf_vcmp : WellFormed.instr (.vcmp iss (vop 6 1)) = false ∧ WellFormed.instr (.vcmp iss { vop 0 1 with opt := 3 }) = false := by decide
theorem test_wf_vcvt : WellFormed.instr (.vcvt iss (vop 5 1)) = false ∧ WellFormed.instr (.vcvt iss { vop 0 1 with opt := 2 }) = false := by decide
theorem test_wf_vmove : WellFormed.instr (.vmove iss (vop 6 1)) = false ∧ WellFormed.instr (.vred iss (vop 10 1)) = false := by decide
theorem test_wf_vrand : WellFormed.instr (.vrand iss { vop 0 1 with purpose := 1 }) = false ∧ WellFormed.instr (.kop iss (vop 4 1)) = false := by decide
theorem test_wf_waitq : WellFormed.instr (.waitq iss 6 0 0) = false ∧ WellFormed.instr (.vote iss 3 0) = false := by decide
theorem test_wf_loop : WellFormed.instr (.loop iss 1 0) = false ∧ WellFormed.instr (.loop iss 1 2048) = false
    ∧ WellFormed.instr (.loop iss 1 2047) = true := by decide
theorem test_wf_brb : WellFormed.instr (.brb iss 1 false 2047 0) = false ∧ WellFormed.instr (.brb iss 1 false 0 2047) = false := by decide
/-- A packet of two payload words whose header says one. -/
def wrongPkt : RawPacket := ⟨0, [⟨0, false⟩, ⟨0, false⟩]⟩
theorem test_wf_packet : WellFormed.instr (.packetRoute 0 .hub wrongPkt) = false ∧ WellFormed.instr (.writePacket wrongPkt) = false
    ∧ WellFormed.instr (.mgmtPacket relayPkt) = WellFormed.packet relayPkt := by decide
theorem test_wf_segment : WellFormed.instr (.mgmtSegment { seg1 0 1409 with body := List.replicate 1409 0 }) = false := by decide +kernel
theorem test_wf_read_reg : WellFormed.instr (.readReg okReq (List.replicate 65 0)) = false
    ∧ WellFormed.instr (.writeReg okReq (List.replicate 65 (0, 0))) = false := by decide +kernel

/-! ### Words written out from the format tables (R142 to R144) -/

/-- SMUL under not P5: opcode 0x13, guard 5 inverted, Sd = 31, Sa = 1, Sb = 2. -/
theorem test_word_smul : decodeInsn lastCore (0x13 <<< 120 ||| 5 <<< 116 ||| 1 <<< 115 ||| 31 <<< 110 ||| 1 <<< 105 ||| 2 <<< 100)
    = some (.smul ⟨lastCore, ⟨5, true⟩⟩ ⟨31, 1, 2, false, 0⟩) := by decide +kernel
/-- WAITC 7, and an opcode of no instruction. -/
theorem test_word_waitc : decodeInsn lastCore (0x01 <<< 120 ||| 7) = some (.waitc ⟨lastCore, ⟨0, false⟩⟩ 7) ∧ decodeInsn lastCore (0xFF <<< 120) = none := by
  decide +kernel

/-! ### Witnesses of the statements about every command, address or instruction -/

/-- ResetLeavesTheResetValues, StepsKeepTheStoresCanonical: the reset state has canonical stores, and steps. -/
theorem test_canon : Safety.memWf State.reset.blk = true ∧ Safety.flashWf State.reset.blk = true ∧ ∃ s', step State.reset = .next s' :=
  ⟨rfl, rfl, _, rfl⟩
/-- StepRunsTheCommandInFront: the front command runs and leaves the queue. -/
theorem test_step : ∃ b, step { State.reset with pending := [.powerInputLost, .perstAssert] } = .next ⟨b, [.perstAssert]⟩ := ⟨_, rfl⟩
/-- RegisterAddressesAreExact: the last core's status register stands at its address. -/
theorem test_addr : regOfAddr (Reg.seqStatus 11 31).addr = some (.seqStatus 11 31) := by decide +kernel
/-- InstructionWordsRoundTrip: a well-formed MOP with every field at a value of its own. -/
theorem test_words : (opcodeOf (.mop iss mopA)).isSome = true ∧ WellFormed.instr (.mop iss mopA) = true := by decide
/-- IntegerAccumulationClampsEachGroup: three products in groups of two from the largest value. -/
theorem test_int_groups : 0 < 2 ∧ [(Ex.fin false 3 0, Ex.fin true 5 0), (.fin false 1 0, .fin false 1 0), (.fin false 2 0, .fin false 7 0)].length ≤ 3
    ∧ (-(2 ^ 31) ≤ (2 ^ 31 - 1 : Int) ∧ (2 ^ 31 - 1 : Int) < 2 ^ 31) := by decide
/-- WordsAreCorrectedOrStayPoisoned: a symbol and a value at the ends of their ranges, a word with two altered symbols, a write from reset. -/
theorem test_word_code : (35 < 36 ∧ 0 < 255 ∧ 255 < 256) ∧ classify 0x0101 = .uncorrectable ∧ State.reset.blk.ras.injects = [] := by decide +kernel

/-! ### The wide procedures (R106 to R109), DRAM layout (R186 to R190), connectors and codewords, at values worked out by hand -/

/-- 1.0, a signalling NaN and +∞ in FP32. -/
def nanRow : List Nat := [0x3F800000, 0x7F800001, 0x7F800000]
/-- An active NaN makes the whole row the canonical NaN. -/
theorem test_soft_nan : softmaxRow nanRow [true, true, true] = ⟨[0x7FC00000, 0x7FC00000, 0x7FC00000], 0x7FC00000, flNonfinite⟩ := by decide +kernel
/-- Two active +∞ share the row: a half each; the NaN is not active. -/
theorem test_soft_inf : softmaxRow [0x7F800000, 0x7F800001, 0x7F800000, 0x3F800000] [true, false, true, true]
    = ⟨[0x3F000000, 0, 0x3F000000, 0], 0x7F800000, flNonfinite⟩ := by decide +kernel
/-- A row of −∞ raises empty_row alone. -/
theorem test_soft_none : softmaxRow [0xFF800000, 0x3F800000] [true] = ⟨[0, 0], 0xFF800000, vEmptyRow⟩ := by decide +kernel
/-- Elements of a row that raises no flag: finite, and −∞. -/
theorem test_soft_fin : (f32.val 0x3F800000).finite = true ∧ isNan32 0xFF800000 = false ∧ inf32 true = 0xFF800000 := by decide +kernel
/-- two_sum keeps what the rounded sum of 1 and 2⁻³⁰ loses; tree_sum of 1 and −1 is +0 (R106). -/
theorem test_comp_sum : twoSum 0x3F800000 0x30800000 = (0x3F800000, 0x30800000, 0) ∧ treeSum [0x3F800000, 0xBF800000] = 0 := by decide +kernel
/-- 08_package_fabric_memory.md, locating one word: word 37 of the granule at 0x0001_2345_6000. -/
theorem test_dram_at : chanOf 0x123456000 = 118 ∧ bankOf 0x123456000 = 8 ∧ localOf 0x123456000 = 9320
    ∧ dramAt (0x123456000 + 32 * 37) = (42946560 + 1312, 42946560 + 32 * 44 + 20) := by decide +kernel
/-- A codeword vanishes at α⁰ to α²⁹, and keeps its message (R195). -/
theorem test_fec_code : (fecCode [1, 1023, 0x155]).take 3 = [1, 1023, 0x155] ∧ (fecCode [1, 1023, 0x155]).length = 33
    ∧ ∀ j, j < 30 → (fecCode [1, 1023, 0x155]).foldl (fun a x => feMul a (fePow j) ^^^ x) 0 = 0 := by decide +kernel
/-- Symbols go round-robin over the lanes (R195), ten bits a symbol with the lowest first (R196). -/
theorem test_stripe : stripe [0, 2, 35] [7, 8, 9, 10] = [(0, 7), (2, 8), (35, 9), (0, 10)]
    ∧ (fecSymbols [⟨5 + 3 * 2 ^ 10, false⟩]).take 2 = [5, 3] := by decide +kernel
/-- The last lane's pairs of a link and of the host connector, and a contact that a connector does not have (R380, R383, R386). -/
theorem test_contacts : linkContact 1 54 = some (.transmit 35 false) ∧ linkContact 4 9 = some (.signal "CAB_PRSNT_N") ∧ linkContact 0 56 = none
    ∧ hostContact 1 26 = some (.receive 7 true) ∧ mgmtContact 1 12 = some (.signal "TRST_N") ∧ mgmtContact 0 21 = none := by decide +kernel

/-! ### Lemmas of the witnesses -/

/-- What holds of every listed value and of the default holds of every value read. -/
theorem Sp.get_all {α : Type} (p : α → Prop) (d : α) (m : Sp α) (h0 : p d) (h : ∀ e ∈ m, p e.2) (k : Nat) : p (Sp.get d m k) := by
  induction m with
  | nil => exact h0
  | cons e m ih =>
    obtain ⟨k', v⟩ := e
    rw [Sp.get]
    split
    · exact h (k', v) (List.mem_cons_self ..)
    · exact ih fun e he => h e (List.mem_cons_of_mem _ he)
theorem laneP_nil {c : Ctx} (h : c.vPoison = []) (n l : Nat) : c.laneP n l = false := by simp [Ctx.laneP, h]
theorem wideP_nil {c : Ctx} (h : c.vPoison = []) (n l : Nat) : c.wideP n l = false := by simp [Ctx.wideP, Ctx.laneP, h]
def armC : Placed := ⟨32, 1000, 3, 0, 1, armRec, 0, 9⟩
def armD : List DirEnt := wArm.blk.mainDir (aImage armRec)
def armR : Restored := ⟨{ Journal.init with phase := 5 }, [], false⟩
def armB : Blk := leave armC wArm.blk
def fwCmd : Placed := ⟨32, 1000, 3, 0, 5, fwBytes1, 0, 9⟩
theorem fwBytes_written (b : Blk) (p : List Byte) (hl : p.length < 2 ^ 32) : (b.writeFw p).fwBytes = p.length := by
  unfold Blk.fwBytes
  rw [writeFw_layoutHdr, bits_mod _ _ _ _ (by decide), bits_setBits_same]
  exact Nat.mod_eq_of_lt hl
theorem fwFloor_written (b : Blk) (p : List Byte) : (b.writeFw p).rd SEC_STATUS.floor = b.rd SEC_STATUS.floor := by
  have h : (b.writeFw p).reg .secStatus = b.reg .secStatus := by
    unfold Blk.reg; rw [writeFw_eq]
  exact congrArg (fun x => bits x _ _) h
theorem fwHdrOk_eq (b : Blk) (h n : Nat) (hh : b.fwHdr = h) (hn : b.fwBytes = n) : b.fwHdrOk =
    (decide (bits h 0 32 = 0x46575458) && decide (bits h 32 8 = 1) && decide (bits h 40 8 ≤ 63) && decide (bits h 49 15 = 0)
        && decide (bits h 64 32 + 1280 + 32 = n) && decide (bits h 96 160 = 0) && decide (b.rd SEC_STATUS.floor ≤ bits h 40 8)) := by
  subst hh; subst hn; rfl
theorem fwHdrOk_written (b : Blk) (p : List Byte) (h : 32 ≤ p.length) (hl : p.length < 2 ^ 32) (x n : Nat)
    (hx : ofLeBytes (p.take 32) = x) (hp : p.length = n)
    (ho : (decide (bits x 0 32 = 0x46575458) && decide (bits x 32 8 = 1) && decide (bits x 40 8 ≤ 63) && decide (bits x 49 15 = 0)
        && decide (bits x 64 32 + 1280 + 32 = n) && decide (bits x 96 160 = 0) && decide (b.rd SEC_STATUS.floor ≤ bits x 40 8)) = true) :
    (b.writeFw p).fwHdrOk = true := by
  rw [fwHdrOk_eq _ x n ((writeFw_fwHdr _ _ h).trans hx) ((fwBytes_written _ _ hl).trans hp), fwFloor_written]
  exact ho
theorem blank_digest : digest (List.replicate 1793 0xFF) = blankFpr := by decide +kernel
/-- A module whose configuration memory is `flash` and whose fingerprint is that of a blank key region. -/
def blankModule (flash : Sp Byte) : Blk :=
  (List.range 4).foldl (fun b h => b.wr (SEC_FPR.fpr h) (bits blankFpr (64 * h) 64)) { State.reset.blk with flash := flash }
theorem blankModule_rd (flash : Sp Byte) (i : Nat) (hi : i < 4) : (blankModule flash).rd (SEC_FPR.fpr i) = bits blankFpr (64 * i) 64 :=
  (by decide +kernel : ∀ i, i < 4 → (blankModule []).rd (SEC_FPR.fpr i) = bits blankFpr (64 * i) 64) i hi
/-- The key region, or the whole of a flash from `lo` to `hi`, is blank. -/
def BlankIn (b : Blk) (lo hi : Nat) : Prop := ∀ j, lo ≤ j → j < hi → b.fbyte j = 0xFF
theorem blankIn_of (b : Blk) (lo hi : Nat) (h : (b.flash.all fun e => e.1 < lo || hi ≤ e.1) = true) : BlankIn b lo hi := by
  intro j h1 h2
  have := fbytes_blank b j 1 (by
    rw [List.all_eq_true] at h ⊢
    intro e he
    have := h e he
    simp only [Bool.or_eq_true, decide_eq_true_eq] at this ⊢
    omega)
  simpa [Blk.fbytes] using this
theorem blankIn_bytes (b : Blk) (lo hi off n : Nat) (h : BlankIn b lo hi) (h1 : lo ≤ off) (h2 : off + n ≤ hi) : b.fbytes off n = List.replicate n 0xFF := by
  induction n generalizing off with
  | zero => rfl
  | succ n ih =>
    show b.fbyte off :: b.fbytes (off + 1) n = _
    rw [h off h1 (by omega), ih (off + 1) (by omega) (by omega), List.replicate_succ]
theorem keyRegion_blank (b : Blk) (h : BlankIn b fKey (fKey + 0x2000)) :
    b.anchorBlank = true ∧ digest (b.fbytes (fKey + 0x980) 1793) = blankFpr := by
  constructor
  · unfold Blk.anchorBlank
    rw [blankIn_bytes _ _ _ _ _ h (by omega) (by omega)]; decide +kernel
  · rw [blankIn_bytes _ _ _ _ _ h (by omega) (by omega), blank_digest]
theorem blankModule_flash (f : Sp Byte) : (blankModule f).flash = f := by
  have h : ∀ (c : Blk) (l : List Nat), (l.foldl (fun b h => b.wr (SEC_FPR.fpr h) (bits blankFpr (64 * h) 64)) c).flash = c.flash :=
    fun c l => foldl_keep _ Blk.flash l c fun _ _ _ => wr_flash _ _ _
  unfold blankModule
  rw [h]
/-- The plan is checked after the identity as the plan of a module with the same plan words, whose key region is blank. -/
theorem planCheck_blank (b c : Blk) (f : Sp Byte) (x : BootInput) (s : List Bool) (hw : b.planWord = (blankModule f).planWord)
    (hb : BlankIn b fKey (fKey + 0x2000)) (hf : (f.all fun e => e.1 < fKey || fKey + 0x2000 ≤ e.1) = true)
    (hc : c.flash = b.flash) (hr : ∀ i, i < 4 → c.rd (SEC_FPR.fpr i) = (b.identity x).rd (SEC_FPR.fpr i)) :
    c.planCheck s = (blankModule f).planCheck s := by
  have hbc : BlankIn c fKey (fKey + 0x2000) := fun j h1 h2 => by
    have := hb j h1 h2
    unfold Blk.fbyte at this ⊢
    rw [hc]; exact this
  refine planCheck_congr _ _ _ ((planWord_flash _ _ hc).trans hw) (keyRegion_blank _ hbc).1
    (keyRegion_blank _ (blankIn_of _ _ _ ((blankModule_flash f).symm ▸ hf))).1 (fpr_congr _ _ fun i hi => ?_)
  rw [hr i hi, identity_fpr _ _ _ hi, (keyRegion_blank b hb).2, blankModule_rd _ _ hi]
theorem cells_get (a : Nat) (d : Byte) (l : List Byte) (j : Nat) :
    Sp.get d (cells a d l) j = if a ≤ j ∧ j < a + l.length then l.getD (j - a) d else d := by
  have h : ∀ (n : Nat), Sp.get d (((l.zipIdx n).filter fun e => e.1 ≠ d).map fun e => (a + e.2, e.1)) j
      = if a + n ≤ j ∧ j < a + n + l.length then l.getD (j - (a + n)) d else d := by
    induction l with
    | nil => intro n; simp
    | cons v l ih =>
      intro n
      rw [List.zipIdx_cons, List.filter_cons]
      have ih := ih (n + 1)
      by_cases hv : v = d
      · rw [if_neg (by simp [hv]), ih]
        by_cases hj : j = a + n
        · rw [if_neg (by omega), if_pos (by simp; omega), hj, Nat.sub_self]; simp [hv]
        · by_cases h2 : a + (n + 1) ≤ j ∧ j < a + (n + 1) + l.length
          · rw [if_pos h2, if_pos (by simp; omega), show j - (a + n) = (j - (a + (n + 1))) + 1 by omega]; simp
          · rw [if_neg h2, if_neg (by simp; omega)]
      · rw [if_pos (by simp [hv]), List.map_cons, Sp.get]
        by_cases hj : a + n = j
        · rw [if_pos hj, if_pos (by simp; omega), ← hj, Nat.sub_self]; rfl
        · rw [if_neg hj, ih]
          by_cases h2 : a + (n + 1) ≤ j ∧ j < a + (n + 1) + l.length
          · rw [if_pos h2, if_pos (by simp; omega), show j - (a + n) = (j - (a + (n + 1))) + 1 by omega]; simp
          · rw [if_neg h2, if_neg (by simp; omega)]
  simpa [cells] using h 0
/-- A plan written over blank configuration memory reads as the bytes of the plan. -/
theorem planWord_cells (b : Blk) (p : List Byte) (hb : ∀ j, fPlan ≤ j → b.fbyte j = 0xFF) :
    (b.writePlan p).planWord = (blankModule (cells fPlan 0xFF p)).planWord := by
  funext i
  unfold Blk.planWord Blk.writePlan
  rw [setLayout_fbytes _ _ _ _ _ (by unfold fPlan; omega)]
  refine congrArg ofLeBytes (fbytes_congr _ _ _ _ fun j h1 _ => ?_)
  have hp : fPlan ≤ j := by omega
  rw [setFbytes_fbyte]
  unfold Blk.fbyte
  rw [blankModule_flash, cells_get]
  by_cases h : fPlan ≤ j ∧ j < fPlan + p.length
  · rw [if_pos h, if_pos h]
    simp [List.getD_eq_getElem?_getD, List.getElem?_eq_getElem (by omega : j - fPlan < p.length)]
  · rw [if_neg h, if_neg h]; exact hb j hp
/-- A plan whose seven listed words hold what its checks read; its authority entry, past them, reads as ones. -/
def shortPlan : List Byte :=
  leBytes 32 (0x504C414E + 2 ^ 32 + 2 ^ 208 + 2 ^ 230) ++ leBytes 32 (2 + 7 * 2 ^ 32 + 5 * 2 ^ 64 + 111 * 2 ^ 96) ++ leBytes 32 blankFpr
    ++ leBytes 32 (2 ^ 20 + 0x03030303030303030303 * 2 ^ 64) ++ leBytes 32 0 ++ leBytes 32 (4 * 2 ^ 8 + 1) ++ leBytes 32 0
def wNewPlan : Machine.State :=
  stIn stRecovery fun b => { b with mgmt := { b.mgmt with writing := some (true, 224), planBuf := cells 0 0 shortPlan } }
/-- The plan of `wNewPlan` as it is written in RECOVERY. -/
def newPlan : Blk := { wNewPlan.blk.writePlan (bufBytes wNewPlan.blk.mgmt.planBuf 224) with mgmt := { wNewPlan.blk.mgmt with writing := none } }
theorem wNewPlan_bytes : bufBytes wNewPlan.blk.mgmt.planBuf 224 = shortPlan := by decide +kernel
theorem setAt_blank (b : Blk) (p : List Byte) (hb : b.flash = []) (lo hi : Nat) (h0 : 32 ≤ lo) (h : hi ≤ fPlan) : BlankIn (b.writePlan p) lo hi := by
  intro j h1 h2
  have hj : (b.writePlan p).fbyte j = b.fbyte j := by
    unfold Blk.writePlan Blk.setLayout
    rw [setFbytes_fbyte, if_neg (by rw [leBytes_length]; omega), setFbytes_fbyte, if_neg (by omega)]
  rw [hj]; unfold Blk.fbyte; rw [hb]; rfl
def planCmd : Placed := ⟨32, 1000, 3, 0, 4, planBytes1, 0, 9⟩
/-- The plan of `planCmd` as it is written, and with its anchor. -/
def replan1 : Blk := (leave planCmd (wReplan stFenced).blk).writePlan planBytes1
def replan2 : Blk := replan1.setAnchor replan1.tableDigest
theorem replan_words : replan2.planWord = (blankModule (cells fPlan 0xFF planBytes1)).planWord ∧ replan1.planWord = (blankModule (cells fPlan 0xFF planBytes1)).planWord := by
  have h1 : replan1.planWord = (blankModule (cells fPlan 0xFF planBytes1)).planWord := planWord_cells _ _ fun j _ => rfl
  refine ⟨Eq.trans ?_ h1, h1⟩
  funext i
  unfold replan2 Blk.planWord Blk.setAnchor
  dsimp only
  refine congrArg ofLeBytes ((fbytes_congr _ _ _ _ fun j h2 _ => ?_))
  have : ∀ (c : Blk) (f : Fld) (v : Nat), (c.wr f v).fbyte j = c.fbyte j := fun c f v => by unfold Blk.fbyte; rw [wr_flash]
  rw [this, setFbytes_fbyte, if_neg (by rw [List.length_append, leBytes_length]; unfold shake256 fKey; rw [List.length_take]; unfold fPlan at h2; omega)]

/-! ### Witnesses: the hypotheses of each clause hold together at these states and operands -/

/-! ScalarInstructionsComputeTheirResult -/
theorem test_scalar_add : (wCore regs3).blk.issuing (coreKey iss.core) = true ∧ ((wCore regs3).blk.fireFetch (coreKey
    iss.core)).fst = false ∧ (wCore regs3).blk.guardOn (coreKey iss.core) iss.guard = true := by decide +kernel
theorem test_scalar_li : (wCore regs3).blk.issuing (coreKey iss.core) = true ∧ ((wCore regs3).blk.fireFetch (coreKey
    iss.core)).fst = false ∧ (wCore regs3).blk.guardOn (coreKey iss.core) iss.guard = true := by decide +kernel
theorem test_scalar_sub : (wCore regs3).blk.issuing (coreKey iss.core) = true ∧ ((wCore regs3).blk.fireFetch (coreKey
    iss.core)).fst = false ∧ (wCore regs3).blk.guardOn (coreKey iss.core) iss.guard = true := by decide +kernel
theorem test_scalar_mul : (wCore regs3).blk.issuing (coreKey iss.core) = true ∧ ((wCore regs3).blk.fireFetch (coreKey
    iss.core)).fst = false ∧ (wCore regs3).blk.guardOn (coreKey iss.core) iss.guard = true := by decide +kernel
theorem test_scalar_and : (wCore regs3).blk.issuing (coreKey iss.core) = true ∧ ((wCore regs3).blk.fireFetch (coreKey
    iss.core)).fst = false ∧ (wCore regs3).blk.guardOn (coreKey iss.core) iss.guard = true := by decide +kernel
theorem test_scalar_or : (wCore regs3).blk.issuing (coreKey iss.core) = true ∧ ((wCore regs3).blk.fireFetch (coreKey
    iss.core)).fst = false ∧ (wCore regs3).blk.guardOn (coreKey iss.core) iss.guard = true := by decide +kernel
theorem test_scalar_xor : (wCore regs3).blk.issuing (coreKey iss.core) = true ∧ ((wCore regs3).blk.fireFetch (coreKey
    iss.core)).fst = false ∧ (wCore regs3).blk.guardOn (coreKey iss.core) iss.guard = true := by decide +kernel
theorem test_scalar_shl : (wCore regs3).blk.issuing (coreKey iss.core) = true ∧ ((wCore regs3).blk.fireFetch (coreKey
    iss.core)).fst = false ∧ (wCore regs3).blk.guardOn (coreKey iss.core) iss.guard = true := by decide +kernel
theorem test_scalar_shr : (wCore regs3).blk.issuing (coreKey iss.core) = true ∧ ((wCore regs3).blk.fireFetch (coreKey
    iss.core)).fst = false ∧ (wCore regs3).blk.guardOn (coreKey iss.core) iss.guard = true := by decide +kernel
theorem test_scalar_sra : (wCore regs3).blk.issuing (coreKey iss.core) = true ∧ ((wCore regs3).blk.fireFetch (coreKey
    iss.core)).fst = false ∧ (wCore regs3).blk.guardOn (coreKey iss.core) iss.guard = true := by decide +kernel
theorem test_scalar_min : (wCore regs3).blk.issuing (coreKey iss.core) = true ∧ ((wCore regs3).blk.fireFetch (coreKey
    iss.core)).fst = false ∧ (wCore regs3).blk.guardOn (coreKey iss.core) iss.guard = true := by decide +kernel
theorem test_scalar_max : (wCore regs3).blk.issuing (coreKey iss.core) = true ∧ ((wCore regs3).blk.fireFetch (coreKey
    iss.core)).fst = false ∧ (wCore regs3).blk.guardOn (coreKey iss.core) iss.guard = true := by decide +kernel
theorem test_scalar_max0 : (wCore regs3).blk.issuing (coreKey iss.core) = true ∧ ((wCore regs3).blk.fireFetch (coreKey
    iss.core)).fst = false ∧ (wCore regs3).blk.guardOn (coreKey iss.core) iss.guard = true := by decide +kernel
/-! PredicateInstructionsComputeTheirResult -/
theorem test_pred_cmp : (wCore regs3).blk.issuing (coreKey iss.core) = true ∧ ((wCore regs3).blk.fireFetch (coreKey
    iss.core)).fst = false ∧ (wCore regs3).blk.guardOn (coreKey iss.core) iss.guard = true ∧ (fun (o : POp) => decide
    (o.cond.toNat ≤ 5)) { pd := 15, a := 1, b := 31, immSel := false, cond := 5, imm := 0 } = true := by decide +kernel
theorem test_pred_log : (wCore regs3).blk.issuing (coreKey iss.core) = true ∧ ((wCore regs3).blk.fireFetch (coreKey
    iss.core)).fst = false ∧ (wCore regs3).blk.guardOn (coreKey iss.core) iss.guard = true ∧ (fun (o : POp) => decide
    (o.cond.toNat ≤ 3)) { pd := 15, a := 1, b := 31, immSel := false, cond := 3, imm := 0 } = true := by decide +kernel
/-! ControlInstructionsDoAsNamed -/
theorem test_nop : (wCore id).blk.issuing (coreKey iss.core) = true ∧ ((wCore id).blk.fireFetch (coreKey iss.core)).fst = false
    := by decide +kernel
theorem test_waitc : (wCore id).blk.issuing (coreKey iss.core) = true ∧ ((wCore id).blk.fireFetch (coreKey iss.core)).fst =
    false := by decide +kernel
theorem test_csel : (wCore id).blk.issuing (coreKey iss.core) = true ∧ ((wCore id).blk.fireFetch (coreKey iss.core)).fst = false
    := by decide +kernel
theorem test_vote : (wCore id).blk.issuing (coreKey iss.core) = true ∧ ((wCore id).blk.fireFetch (coreKey iss.core)).fst = false
    ∧ 2 ≤ 2 ∧ (wCore id).blk.guardOn (coreKey iss.core) iss.guard = true ∧ (wCore id).blk.vote.frozen = false := by
    decide +kernel
theorem test_vote_late : x_vote_late0.blk.issuing (coreKey iss.core) = true ∧ (x_vote_late0.blk.fireFetch (coreKey
    iss.core)).fst = false ∧ 2 ≤ 2 ∧ x_vote_late0.blk.guardOn (coreKey iss.core) iss.guard = true ∧ x_vote_late0.blk.vote.frozen
    = true := by decide +kernel
theorem test_sloop : (wLoop [{ start := 9, len := 3, count := 5, idx := 4 }] []).blk.issuing (coreKey iss.core) = true ∧ ((wLoop
    [{ start := 9, len := 3, count := 5, idx := 4 }] []).blk.fireFetch (coreKey iss.core)).fst = false ∧ ((wLoop [{ start := 9, len := 3, count := 5, idx := 4 }]
    []).blk.core (coreKey iss.core)).loops[0]? = some { start := 9, len := 3, count := 5, idx := 4 } := by decide +kernel
/-! LoopsAndBranchesMoveControl -/
theorem test_loop : (wCore id).blk.issuing (coreKey iss.core) = true ∧ ((wCore id).blk.fireFetch (coreKey iss.core)).fst = false
    ∧ 1 ≤ 2047 ∧ 2047 ≤ 2047 := by decide +kernel
theorem test_loop0 : (wCore id).blk.issuing (coreKey iss.core) = true ∧ ((wCore id).blk.fireFetch (coreKey iss.core)).fst =
    false ∧ 1 ≤ 1 ∧ 1 ≤ 2047 := by decide +kernel
theorem test_brb : (wCore id).blk.issuing (coreKey iss.core) = true ∧ ((wCore id).blk.fireFetch (coreKey iss.core)).fst = false
    ∧ 2046 ≤ 2046 ∧ 2046 ≤ 2046 ∧ ¬0 ∈ ((wCore id).blk.ctx (coreKey iss.core)).pPoison := by decide +kernel
theorem test_brb_b : (wCore id).blk.issuing (coreKey iss.core) = true ∧ ((wCore id).blk.fireFetch (coreKey iss.core)).fst =
    false ∧ 0 ≤ 2046 ∧ 3 ≤ 2046 ∧ ¬0 ∈ ((wCore id).blk.ctx (coreKey iss.core)).pPoison := by decide +kernel
/-! BodiesAndArmsCloseWhereTheyEnd -/
theorem test_close_again : (wLoop [{ start := 38, len := 3, count := 5, idx := 3 }] []).blk.issuing (coreKey iss.core) = true ∧
    ((wLoop [{ start := 38, len := 3, count := 5, idx := 3 }] []).blk.fireFetch (coreKey iss.core)).fst = false ∧ ((wLoop [{ start := 38, len := 3, count := 5, idx := 3 }]
    []).blk.core (coreKey iss.core)).loops = [{ start := 38, len := 3, count := 5, idx := 3 }] ∧ ((wLoop [{ start := 38, len := 3, count := 5, idx := 3 }]
    []).blk.core (coreKey iss.core)).brs = [] ∧ (wLoop [{ start := 38, len := 3, count := 5, idx := 3 }] []).blk.pc (coreKey
    iss.core) + 1 = 38 + 3 ∧ 3 + 1 < 5 ∧ 38 < 2 ^ 11 := by decide +kernel
theorem test_close_last : (wLoop [{ start := 38, len := 3, count := 5, idx := 4 }] []).blk.issuing (coreKey iss.core) = true ∧
    ((wLoop [{ start := 38, len := 3, count := 5, idx := 4 }] []).blk.fireFetch (coreKey iss.core)).fst = false ∧ ((wLoop [{ start := 38, len := 3, count := 5, idx := 4 }]
    []).blk.core (coreKey iss.core)).loops = [{ start := 38, len := 3, count := 5, idx := 4 }] ∧ ((wLoop [{ start := 38, len := 3, count := 5, idx := 4 }]
    []).blk.core (coreKey iss.core)).brs = [] ∧ (wLoop [{ start := 38, len := 3, count := 5, idx := 4 }] []).blk.pc (coreKey
    iss.core) + 1 = 38 + 3 ∧ 5 ≤ 4 + 1 ∧ (wLoop [{ start := 38, len := 3, count := 5, idx := 4 }] []).blk.pc (coreKey iss.core) +
    1 < 2 ^ 11 := by decide +kernel
theorem test_close_arm : (wLoop [] [{ start := 38, endA := 41, join := 50 }]).blk.issuing (coreKey iss.core) = true ∧ ((wLoop []
    [{ start := 38, endA := 41, join := 50 }]).blk.fireFetch (coreKey iss.core)).fst = false ∧ ((wLoop [] [{ start := 38, endA := 41, join := 50 }]).blk.core
    (coreKey iss.core)).loops = [] ∧ ((wLoop [] [{ start := 38, endA := 41, join := 50 }]).blk.core (coreKey iss.core)).brs = [{ start := 38, endA := 41, join := 50 }]
    ∧ (wLoop [] [{ start := 38, endA := 41, join := 50 }]).blk.pc (coreKey iss.core) + 1 = 41 ∧ 50 < 2 ^ 11 := by decide +kernel
theorem test_close_none : (wLoop [{ start := 38, len := 4, count := 5, idx := 4 }] [{ start := 37, endA := 42, join := 50 }]).blk.issuing
    (coreKey iss.core) = true ∧ ((wLoop [{ start := 38, len := 4, count := 5, idx := 4 }] [{ start := 37, endA := 42, join := 50 }]).blk.fireFetch
    (coreKey iss.core)).fst = false ∧ (∀ (l : LoopFrame), l ∈ ((wLoop [{ start := 38, len := 4, count := 5, idx := 4 }] [{ start := 37, endA := 42, join := 50 }]).blk.core
    (coreKey iss.core)).loops → (wLoop [{ start := 38, len := 4, count := 5, idx := 4 }] [{ start := 37, endA := 42, join := 50 }]).blk.pc
    (coreKey iss.core) + 1 ≠ l.start + l.len) ∧ (∀ (r : BrFrame), r ∈ ((wLoop [{ start := 38, len := 4, count := 5, idx := 4 }]
    [{ start := 37, endA := 42, join := 50 }]).blk.core (coreKey iss.core)).brs → (wLoop [{ start := 38, len := 4, count := 5, idx := 4 }]
    [{ start := 37, endA := 42, join := 50 }]).blk.pc (coreKey iss.core) + 1 ≠ r.endA) ∧ (wLoop [{ start := 38, len := 4, count := 5, idx := 4 }]
    [{ start := 37, endA := 42, join := 50 }]).blk.pc (coreKey iss.core) + 1 < 2 ^ 11 := by decide +kernel
/-! WaitqWaitsForDeadlineAndCount -/
theorem test_waitq : x_waitq0.blk.issuing (coreKey iss.core) = true ∧ (x_waitq0.blk.fireFetch (coreKey iss.core)).fst = false ∧
    5 ≤ 5 := by decide +kernel
theorem test_waitq_short : x_waitq_short0.blk.issuing (coreKey iss.core) = true ∧ (x_waitq_short0.blk.fireFetch (coreKey
    iss.core)).fst = false ∧ 5 ≤ 5 := by decide +kernel
/-! InvalidWordsStopTheCore -/
theorem test_bad_waitq : (wCore id).blk.issuing (coreKey iss.core) = true ∧ ((wCore id).blk.fireFetch (coreKey iss.core)).fst =
    false ∧ WellFormed.instr (Instr.waitq iss 6 0 0) = false := by decide +kernel
theorem test_bad_scmp : (wCore id).blk.issuing (coreKey iss.core) = true ∧ ((wCore id).blk.fireFetch (coreKey iss.core)).fst =
    false ∧ WellFormed.instr (Instr.scmp iss { pd := 15, a := 1, b := 31, immSel := false, cond := 6, imm := 0 }) = false := by
    decide +kernel
theorem test_fetch_fault : (wCore id).blk.issuing (coreKey lastCore) = true := by decide +kernel
/-! VectorOperationsActOnActiveElements -/
theorem test_vfp : (wVec 4).blk.issuing (coreKey iss.core) = true ∧ ((wVec 4).blk.fireFetch (coreKey iss.core)).fst = false ∧
    (wVec 4).blk.guardOn (coreKey iss.core) iss.guard = true ∧ (wVec 4).blk.ras.injects = [] ∧ (fun o => decide (o.func.toNat ≤
    8)) (vop 8 1) = true := by decide +kernel
theorem test_vfp0 : (wVec 0).blk.issuing (coreKey iss.core) = true ∧ ((wVec 0).blk.fireFetch (coreKey iss.core)).fst = false ∧
    (wVec 0).blk.guardOn (coreKey iss.core) iss.guard = true ∧ (wVec 0).blk.ras.injects = [] ∧ (fun o => decide (o.func.toNat ≤
    8)) (vopZ 0 1) = true := by decide +kernel
theorem test_vfpz : (wVec 4).blk.issuing (coreKey iss.core) = true ∧ ((wVec 4).blk.fireFetch (coreKey iss.core)).fst = false ∧
    (wVec 4).blk.guardOn (coreKey iss.core) iss.guard = true ∧ (wVec 4).blk.ras.injects = [] ∧ (fun o => decide (o.func.toNat ≤
    8)) (vopZ 0 1) = true := by decide +kernel
theorem test_vfp32 : (wVec 128).blk.issuing (coreKey iss.core) = true ∧ ((wVec 128).blk.fireFetch (coreKey iss.core)).fst =
    false ∧ (wVec 128).blk.guardOn (coreKey iss.core) iss.guard = true ∧ (wVec 128).blk.ras.injects = [] ∧ (fun o => decide
    (o.func.toNat ≤ 8)) (vop 1 0) = true := by decide +kernel
theorem test_vfpd : (wVec 2).blk.issuing (coreKey iss.core) = true ∧ ((wVec 2).blk.fireFetch (coreKey iss.core)).fst = false ∧
    (wVec 2).blk.guardOn (coreKey iss.core) iss.guard = true ∧ (wVec 2).blk.ras.injects = [] ∧ (fun o => decide (o.func.toNat ≤
    10)) (vop64 10 1) = true := by decide +kernel
theorem test_vfpd2 : (wVec 2).blk.issuing (coreKey iss.core) = true ∧ ((wVec 2).blk.fireFetch (coreKey iss.core)).fst = false ∧
    (wVec 2).blk.guardOn (coreKey iss.core) iss.guard = true ∧ (wVec 2).blk.ras.injects = [] ∧ (fun o => decide (o.func.toNat ≤
    10)) (vop64 0 0) = true := by decide +kernel
theorem test_vfn : (wVec 4).blk.issuing (coreKey iss.core) = true ∧ ((wVec 4).blk.fireFetch (coreKey iss.core)).fst = false ∧
    (wVec 4).blk.guardOn (coreKey iss.core) iss.guard = true ∧ (wVec 4).blk.ras.injects = [] ∧ (fun x => true) (vop 15 1) = true
    := by decide +kernel
theorem test_vfn0 : (wVec 4).blk.issuing (coreKey iss.core) = true ∧ ((wVec 4).blk.fireFetch (coreKey iss.core)).fst = false ∧
    (wVec 4).blk.guardOn (coreKey iss.core) iss.guard = true ∧ (wVec 4).blk.ras.injects = [] ∧ (fun x => true) (vop 0 0) = true
    := by decide +kernel
theorem test_vcvt0 : (wVec 4).blk.issuing (coreKey iss.core) = true ∧ ((wVec 4).blk.fireFetch (coreKey iss.core)).fst = false ∧
    (wVec 4).blk.guardOn (coreKey iss.core) iss.guard = true ∧ (wVec 4).blk.ras.injects = [] ∧ (fun o => (decide (o.func = 0) ||
    decide (o.func = 1)) && decide (o.opt.toNat ≤ 1)) (vop 1 1) = true := by decide +kernel
theorem test_vcvt2 : (wVec 4).blk.issuing (coreKey iss.core) = true ∧ ((wVec 4).blk.fireFetch (coreKey iss.core)).fst = false ∧
    (wVec 4).blk.guardOn (coreKey iss.core) iss.guard = true ∧ (wVec 4).blk.ras.injects = [] ∧ (fun o => (decide (o.func = 2) ||
    decide (o.func = 4)) && decide (o.opt.toNat ≤ 1)) (vop 4 1) = true := by decide +kernel
theorem test_vcvt3 : (wVec 2).blk.issuing (coreKey iss.core) = true ∧ ((wVec 2).blk.fireFetch (coreKey iss.core)).fst = false ∧
    (wVec 2).blk.guardOn (coreKey iss.core) iss.guard = true ∧ (wVec 2).blk.ras.injects = [] ∧ (fun o => decide (o.func = 3) &&
    decide (o.opt.toNat ≤ 1)) (vop64 3 1) = true := by decide +kernel
theorem test_vmove1 : (wVec 4).blk.issuing (coreKey iss.core) = true ∧ ((wVec 4).blk.fireFetch (coreKey iss.core)).fst = false ∧
    (wVec 4).blk.guardOn (coreKey iss.core) iss.guard = true ∧ (wVec 4).blk.ras.injects = [] ∧ (fun o => decide (o.func = 1))
    (vop 1 1) = true := by decide +kernel
theorem test_vmove2 : (wVec 4).blk.issuing (coreKey iss.core) = true ∧ ((wVec 4).blk.fireFetch (coreKey iss.core)).fst = false ∧
    (wVec 4).blk.guardOn (coreKey iss.core) iss.guard = true ∧ (wVec 4).blk.ras.injects = [] ∧ (fun o => decide (o.func = 2))
    (vop 2 1) = true := by decide +kernel
theorem test_vrand : (wVec 4).blk.issuing (coreKey iss.core) = true ∧ ((wVec 4).blk.fireFetch (coreKey iss.core)).fst = false ∧
    (wVec 4).blk.guardOn (coreKey iss.core) iss.guard = true ∧ (wVec 4).blk.ras.injects = [] ∧ (fun o => decide (o.purpose = 0)
    || decide (o.purpose = 2)) y_vrand0 = true := by decide +kernel
/-! VintComputesInt32 -/
theorem test_vint3 : (wVec 4).blk.issuing (coreKey iss.core) = true ∧ ((wVec 4).blk.fireFetch (coreKey iss.core)).fst = false ∧
    (wVec 4).blk.guardOn (coreKey iss.core) iss.guard = true ∧ (wVec 4).blk.ras.injects = [] ∧ (vop 3 1).func.toNat ≤ 12 := by
    decide +kernel
theorem test_vint12 : (wVec 4).blk.issuing (coreKey iss.core) = true ∧ ((wVec 4).blk.fireFetch (coreKey iss.core)).fst = false ∧
    (wVec 4).blk.guardOn (coreKey iss.core) iss.guard = true ∧ (wVec 4).blk.ras.injects = [] ∧ (vop 12 1).func.toNat ≤ 12 := by
    decide +kernel
/-! VectorMovesPlaceElements -/
theorem test_vsel : (wVec 4).blk.issuing (coreKey iss.core) = true ∧ ((wVec 4).blk.fireFetch (coreKey iss.core)).fst = false ∧
    (wVec 4).blk.guardOn (coreKey iss.core) iss.guard = true ∧ (wVec 4).blk.ras.injects = [] ∧ (vop 0 1).func = 0 := by
    decide +kernel
theorem test_vcompress : (wVec 128).blk.issuing (coreKey iss.core) = true ∧ ((wVec 128).blk.fireFetch (coreKey iss.core)).fst =
    false ∧ (wVec 128).blk.guardOn (coreKey iss.core) iss.guard = true ∧ (wVec 128).blk.ras.injects = [] ∧ y_vcompress0.func = 3
    ∧ ((wVec 128).blk.ctx (coreKey iss.core)).vl ≠ 0 ∧ ((wVec 128).blk.ctx (coreKey iss.core)).vl ≤ lanes (coreKey iss.core) :=
    by decide +kernel
theorem test_vcompress31 : (wVec 4).blk.issuing (coreKey iss.core) = true ∧ ((wVec 4).blk.fireFetch (coreKey iss.core)).fst =
    false ∧ (wVec 4).blk.guardOn (coreKey iss.core) iss.guard = true ∧ (wVec 4).blk.ras.injects = [] ∧ y_vcompress310.func = 3 ∧
    ((wVec 4).blk.ctx (coreKey iss.core)).vl ≠ 0 ∧ ((wVec 4).blk.ctx (coreKey iss.core)).vl ≤ lanes (coreKey iss.core) := by
    decide +kernel
theorem test_vexpand : (wVec 4).blk.issuing (coreKey iss.core) = true ∧ ((wVec 4).blk.fireFetch (coreKey iss.core)).fst = false
    ∧ (wVec 4).blk.guardOn (coreKey iss.core) iss.guard = true ∧ (wVec 4).blk.ras.injects = [] ∧ y_vexpand0.func = 4 ∧ ((wVec
    4).blk.ctx (coreKey iss.core)).vl ≠ 0 ∧ ((wVec 4).blk.ctx (coreKey iss.core)).vl ≤ lanes (coreKey iss.core) := by
    decide +kernel
theorem test_vtwosum : (wVec 4).blk.issuing (coreKey iss.core) = true ∧ ((wVec 4).blk.fireFetch (coreKey iss.core)).fst = false
    ∧ (wVec 4).blk.guardOn (coreKey iss.core) iss.guard = true ∧ (wVec 4).blk.ras.injects = [] ∧ (vop 5 1).func = 5 := by
    decide +kernel
/-! MaskInstructionsWriteMasks -/
theorem test_vcmp : (wVec 4).blk.issuing (coreKey iss.core) = true ∧ ((wVec 4).blk.fireFetch (coreKey iss.core)).fst = false ∧
    (wVec 4).blk.guardOn (coreKey iss.core) iss.guard = true ∧ (wVec 4).blk.ras.injects = [] ∧ y_vcmp0.func.toNat ≤ 5 ∧
    y_vcmp0.opt.toNat ≤ 2 := by decide +kernel
theorem test_vcmp0 : (wVec 4).blk.issuing (coreKey iss.core) = true ∧ ((wVec 4).blk.fireFetch (coreKey iss.core)).fst = false ∧
    (wVec 4).blk.guardOn (coreKey iss.core) iss.guard = true ∧ (wVec 4).blk.ras.injects = [] ∧ y_vcmp00.func.toNat ≤ 5 ∧
    y_vcmp00.opt.toNat ≤ 2 := by decide +kernel
theorem test_kop : (wVec 4).blk.issuing (coreKey iss.core) = true ∧ ((wVec 4).blk.fireFetch (coreKey iss.core)).fst = false ∧
    (wVec 4).blk.guardOn (coreKey iss.core) iss.guard = true ∧ (wVec 4).blk.ras.injects = [] ∧ y_kop0.func.toNat ≤ 3 := by
    decide +kernel
/-! LengthFlagsAndSummaries -/
theorem test_setvl : (wVec 4).blk.issuing (coreKey iss.core) = true ∧ ((wVec 4).blk.fireFetch (coreKey iss.core)).fst = false ∧
    (wVec 4).blk.guardOn (coreKey iss.core) iss.guard = true ∧ (wVec 4).blk.ras.injects = [] := by decide +kernel
theorem test_vclrf : (wVec 4).blk.issuing (coreKey iss.core) = true ∧ ((wVec 4).blk.fireFetch (coreKey iss.core)).fst = false ∧
    (wVec 4).blk.guardOn (coreKey iss.core) iss.guard = true ∧ (wVec 4).blk.ras.injects = [] := by decide +kernel
theorem test_vred9 : (wVec 4).blk.issuing (coreKey iss.core) = true ∧ ((wVec 4).blk.fireFetch (coreKey iss.core)).fst = false ∧
    (wVec 4).blk.guardOn (coreKey iss.core) iss.guard = true ∧ (wVec 4).blk.ras.injects = [] ∧ (vop 9 0).func.toNat ≤ 9 := by
    decide +kernel
theorem test_vred0 : (wVec 4).blk.issuing (coreKey iss.core) = true ∧ ((wVec 4).blk.fireFetch (coreKey iss.core)).fst = false ∧
    (wVec 4).blk.guardOn (coreKey iss.core) iss.guard = true ∧ (wVec 4).blk.ras.injects = [] ∧ (vop 0 1).func.toNat ≤ 9 := by
    decide +kernel
theorem test_vred7 : (wVec 4).blk.issuing (coreKey iss.core) = true ∧ ((wVec 4).blk.fireFetch (coreKey iss.core)).fst = false ∧
    (wVec 4).blk.guardOn (coreKey iss.core) iss.guard = true ∧ (wVec 4).blk.ras.injects = [] ∧ (vop 7 0).func.toNat ≤ 9 := by
    decide +kernel
theorem test_vred8 : (wVec 4).blk.issuing (coreKey iss.core) = true ∧ ((wVec 4).blk.fireFetch (coreKey iss.core)).fst = false ∧
    (wVec 4).blk.guardOn (coreKey iss.core) iss.guard = true ∧ (wVec 4).blk.ras.injects = [] ∧ (vop 8 0).func.toNat ≤ 9 := by
    decide +kernel
theorem test_vred5 : (wVec 4).blk.issuing (coreKey iss.core) = true ∧ ((wVec 4).blk.fireFetch (coreKey iss.core)).fst = false ∧
    (wVec 4).blk.guardOn (coreKey iss.core) iss.guard = true ∧ (wVec 4).blk.ras.injects = [] ∧ (vop 5 0).func.toNat ≤ 9 := by
    decide +kernel
theorem test_vred6 : (wVec 4).blk.issuing (coreKey iss.core) = true ∧ ((wVec 4).blk.fireFetch (coreKey iss.core)).fst = false ∧
    (wVec 4).blk.guardOn (coreKey iss.core) iss.guard = true ∧ (wVec 4).blk.ras.injects = [] ∧ (vop 6 0).func.toNat ≤ 9 := by
    decide +kernel
/-! WideRowsTreatTheirCorners -/
theorem test_norm_inf : 1 < [1065353216, 4286578688].length ∧ (f32.val ([1065353216, 4286578688].getD 1 0)).finite = false := by
    decide +kernel
theorem test_loss_none : (∀ (r : LossRow), r ∈ [{ x := [0, 0], mask := [true, true], target := none }, { x := [0, 0], mask := [true, false], target := some 1 }]
    → r.target = none ∨ ∃ t, r.target = some t ∧ r.mask.getD t false = false) := by decide +kernel
theorem test_wide_flags : 383 < 384 := by decide +kernel
/-! VectorLoadsAndRawStores -/
theorem test_vld11 : (wVecMem 0 (List.replicate 64 65)).blk.issuing (coreKey iss.core) = true ∧ ((wVecMem 0 (List.replicate 64
    65)).blk.fireFetch (coreKey iss.core)).fst = false ∧ (wVecMem 0 (List.replicate 64 65)).blk.guardOn (coreKey iss.core)
    iss.guard = true ∧ (wVecMem 0 (List.replicate 64 65)).blk.ras.injects = [] ∧ (wVecMem 0 (List.replicate 64 65)).blk.err = []
    ∧ (wVecMem 0 (List.replicate 64 65)).blk.ras.deadBlocks = [] ∧ (wVecMem 0 (List.replicate 64 65)).blk.ras.injects = [] ∧
    (wVecMem 0 (List.replicate 64 65)).blk.regPlace (coreKey iss.core) y_vld110.ra.toNat y_vld110.rel = some 4096 ∧
    y_vld110.fmt.toNat ≤ 11 ∧ y_vld110.layout = 0 := by decide +kernel
theorem test_vld0 : (wVecMem 0 (List.replicate 64 65)).blk.issuing (coreKey iss.core) = true ∧ ((wVecMem 0 (List.replicate 64
    65)).blk.fireFetch (coreKey iss.core)).fst = false ∧ (wVecMem 0 (List.replicate 64 65)).blk.guardOn (coreKey iss.core)
    iss.guard = true ∧ (wVecMem 0 (List.replicate 64 65)).blk.ras.injects = [] ∧ (wVecMem 0 (List.replicate 64 65)).blk.err = []
    ∧ (wVecMem 0 (List.replicate 64 65)).blk.ras.deadBlocks = [] ∧ (wVecMem 0 (List.replicate 64 65)).blk.ras.injects = [] ∧
    (wVecMem 0 (List.replicate 64 65)).blk.regPlace (coreKey iss.core) y_vld00.ra.toNat y_vld00.rel = some 4096 ∧
    y_vld00.fmt.toNat ≤ 11 ∧ y_vld00.layout = 0 := by decide +kernel
theorem test_vstr : (wVecMem 0 (List.replicate 64 65)).blk.issuing (coreKey iss.core) = true ∧ ((wVecMem 0 (List.replicate 64
    65)).blk.fireFetch (coreKey iss.core)).fst = false ∧ (wVecMem 0 (List.replicate 64 65)).blk.guardOn (coreKey iss.core)
    iss.guard = true ∧ (wVecMem 0 (List.replicate 64 65)).blk.ras.injects = [] ∧ (wVecMem 0 (List.replicate 64 65)).blk.err = []
    ∧ (wVecMem 0 (List.replicate 64 65)).blk.ras.deadBlocks = [] ∧ (wVecMem 0 (List.replicate 64 65)).blk.ras.injects = [] ∧
    (wVecMem 0 (List.replicate 64 65)).blk.regPlace (coreKey iss.core) y_vstr0.ra.toNat y_vstr0.rel = some 4096 ∧
    y_vstr0.fmt.toNat ≠ 11 ∧ ((wVecMem 0 (List.replicate 64 65)).blk.ctx (coreKey iss.core)).kP y_vstr0.mask.toNat = false ∧ (∀
    (l : Nat), ((wVecMem 0 (List.replicate 64 65)).blk.ctx (coreKey iss.core)).laneP y_vstr0.vs1.toNat l = false) := by
  and_intros
  all_goals first | decide +kernel | exact fun _ => laneP_nil (by decide +kernel) _ _
theorem test_vstr64 : (wVecMem 0 (List.replicate 64 65)).blk.issuing (coreKey iss.core) = true ∧ ((wVecMem 0 (List.replicate 64
    65)).blk.fireFetch (coreKey iss.core)).fst = false ∧ (wVecMem 0 (List.replicate 64 65)).blk.guardOn (coreKey iss.core)
    iss.guard = true ∧ (wVecMem 0 (List.replicate 64 65)).blk.ras.injects = [] ∧ (wVecMem 0 (List.replicate 64 65)).blk.err = []
    ∧ (wVecMem 0 (List.replicate 64 65)).blk.ras.deadBlocks = [] ∧ (wVecMem 0 (List.replicate 64 65)).blk.ras.injects = [] ∧
    (wVecMem 0 (List.replicate 64 65)).blk.regPlace (coreKey iss.core) y_vstr640.ra.toNat y_vstr640.rel = some 4096 ∧
    y_vstr640.fmt.toNat = 11 ∧ ((wVecMem 0 (List.replicate 64 65)).blk.ctx (coreKey iss.core)).kP y_vstr640.mask.toNat = false ∧
    (∀ (l : Nat), ((wVecMem 0 (List.replicate 64 65)).blk.ctx (coreKey iss.core)).wideP y_vstr640.vs1.toNat l = false) := by
  and_intros
  all_goals first | decide +kernel | exact fun _ => wideP_nil (by decide +kernel) _ _
/-! VectorStoreConverts -/
theorem test_vst8 : (wVecMem (convD 8) (List.replicate 64 65)).blk.issuing (coreKey iss.core) = true ∧ ((wVecMem (convD 8)
    (List.replicate 64 65)).blk.fireFetch (coreKey iss.core)).fst = false ∧ (wVecMem (convD 8) (List.replicate 64
    65)).blk.guardOn (coreKey iss.core) iss.guard = true ∧ (wVecMem (convD 8) (List.replicate 64 65)).blk.ras.injects = [] ∧
    (wVecMem (convD 8) (List.replicate 64 65)).blk.err = [] ∧ (wVecMem (convD 8) (List.replicate 64 65)).blk.ras.deadBlocks = []
    ∧ (wVecMem (convD 8) (List.replicate 64 65)).blk.ras.injects = [] ∧ (∃ key, (wVecMem (convD 8) (List.replicate 64
    65)).blk.place ((wVecMem (convD 8) (List.replicate 64 65)).blk.sreg (coreKey iss.core) (vop 0 1).rdesc.toNat / 32 * 32) =
    some key ∧ convD 8 = BitVec.toNat ((wVecMem (convD 8) (List.replicate 64 65)).blk.rawWord key).fst) ∧ (wVecMem (convD 8)
    (List.replicate 64 65)).blk.sreg (coreKey iss.core) (vop 0 1).rdesc.toNat < 2 ^ 48 ∧ (wVecMem (convD 8) (List.replicate 64
    65)).blk.descOk (convD 8) true = true ∧ plainDesc (convD 8) = true ∧ (wVecMem (convD 8) (List.replicate 64 65)).blk.regPlace
    (coreKey iss.core) (vop 0 1).ra.toNat (vop 0 1).rel = some 4096 ∧ ((wVecMem (convD 8) (List.replicate 64 65)).blk.ctx
    (coreKey iss.core)).vl ≠ 0 ∧ (∀ (l : Nat), ((wVecMem (convD 8) (List.replicate 64 65)).blk.ctx (coreKey iss.core)).laneP
    (vop 0 1).vs1.toNat l = false ∧ ((wVecMem (convD 8) (List.replicate 64 65)).blk.ctx (coreKey iss.core)).wideP (vop 0
    1).vs1.toNat l = false) ∧ ((wVecMem (convD 8) (List.replicate 64 65)).blk.ctx (coreKey iss.core)).kP (vop 0 1).mask.toNat =
    false := by
  and_intros
  all_goals first | decide +kernel | exact fun _ => ⟨laneP_nil (by decide +kernel) _ _, wideP_nil (by decide +kernel) _ _⟩
theorem test_vst11 : (wVecMem (convD 11) (List.replicate 64 65)).blk.issuing (coreKey iss.core) = true ∧ ((wVecMem (convD 11)
    (List.replicate 64 65)).blk.fireFetch (coreKey iss.core)).fst = false ∧ (wVecMem (convD 11) (List.replicate 64
    65)).blk.guardOn (coreKey iss.core) iss.guard = true ∧ (wVecMem (convD 11) (List.replicate 64 65)).blk.ras.injects = [] ∧
    (wVecMem (convD 11) (List.replicate 64 65)).blk.err = [] ∧ (wVecMem (convD 11) (List.replicate 64 65)).blk.ras.deadBlocks =
    [] ∧ (wVecMem (convD 11) (List.replicate 64 65)).blk.ras.injects = [] ∧ (∃ key, (wVecMem (convD 11) (List.replicate 64
    65)).blk.place ((wVecMem (convD 11) (List.replicate 64 65)).blk.sreg (coreKey iss.core) (vop64 0 1).rdesc.toNat / 32 * 32) =
    some key ∧ convD 11 = BitVec.toNat ((wVecMem (convD 11) (List.replicate 64 65)).blk.rawWord key).fst) ∧ (wVecMem (convD 11)
    (List.replicate 64 65)).blk.sreg (coreKey iss.core) (vop64 0 1).rdesc.toNat < 2 ^ 48 ∧ (wVecMem (convD 11) (List.replicate
    64 65)).blk.descOk (convD 11) true = true ∧ plainDesc (convD 11) = true ∧ (wVecMem (convD 11) (List.replicate 64
    65)).blk.regPlace (coreKey iss.core) (vop64 0 1).ra.toNat (vop64 0 1).rel = some 4096 ∧ ((wVecMem (convD 11) (List.replicate
    64 65)).blk.ctx (coreKey iss.core)).vl ≠ 0 ∧ (∀ (l : Nat), ((wVecMem (convD 11) (List.replicate 64 65)).blk.ctx (coreKey
    iss.core)).laneP (vop64 0 1).vs1.toNat l = false ∧ ((wVecMem (convD 11) (List.replicate 64 65)).blk.ctx (coreKey
    iss.core)).wideP (vop64 0 1).vs1.toNat l = false) ∧ ((wVecMem (convD 11) (List.replicate 64 65)).blk.ctx (coreKey
    iss.core)).kP (vop64 0 1).mask.toNat = false := by
  and_intros
  all_goals first | decide +kernel | exact fun _ => ⟨laneP_nil (by decide +kernel) _ _, wideP_nil (by decide +kernel) _ _⟩
/-! MopStartsAnOperation -/
theorem test_mop : (wVecMem 0 (List.replicate 64 65)).blk.issuing (coreKey iss.core) = true ∧ ((wVecMem 0 (List.replicate 64
    65)).blk.fireFetch (coreKey iss.core)).fst = false ∧ (wVecMem 0 (List.replicate 64 65)).blk.guardOn (coreKey iss.core)
    iss.guard = true ∧ WellFormed.mop mopA = true ∧ (((wVecMem 0 (List.replicate 64 65)).blk.countIssue (coreKey
    iss.core)).mopRun (coreKey iss.core) mopA).fst.snd = false := by decide +kernel
theorem test_mop_empty : (wVecMem 0 (List.replicate 64 65)).blk.issuing (coreKey iss.core) = true ∧ ((wVecMem 0 (List.replicate
    64 65)).blk.fireFetch (coreKey iss.core)).fst = false ∧ (wVecMem 0 (List.replicate 64 65)).blk.guardOn (coreKey iss.core)
    iss.guard = true ∧ WellFormed.mop mopE = true ∧ mopE.m = 0 := by decide +kernel
/-! MatrixOperationDelivers -/
theorem test_mop_res : (wMat 2).blk.ras.injects = [] ∧ ((wMat 2).blk.core (coreKey lastCore)).mats = [matJob 2] ∧ (matJob
    2).aborted = false ∧ (matJob 2).written = true ∧ (matJob 2).counted = true ∧ (matJob 2).dst = 2 ∧ (matJob 2).dataflow = 1 ∧
    (matJob 2).sums.poison = false ∧ (matJob 2).sums.rows ≤ 64 ∧ (matJob 2).sums.cols ≤ 64 := by decide +kernel
theorem test_mop_spill : (wMat 1).blk.ras.injects = [] ∧ ((wMat 1).blk.core (coreKey lastCore)).mats = [matJob 1] ∧ (matJob
    1).aborted = false ∧ (matJob 1).written = true ∧ (matJob 1).counted = true ∧ (matJob 1).dst = 1 ∧ (matJob 1).out = some (2 ^
    49 + 383 * 2 ^ 25 + 64) ∧ 32 ∣ 2 ^ 49 + 383 * 2 ^ 25 + 64 := by decide +kernel
/-! MatrixOutputConverts -/
theorem test_mop_out : wMatOut.blk.err = [] ∧ wMatOut.blk.ras.deadBlocks = [] ∧ wMatOut.blk.ras.injects = [] ∧ (wMatOut.blk.core
    (coreKey lastCore)).mats = [jobOut] ∧ jobOut.aborted = false ∧ jobOut.written = true ∧ jobOut.counted = true ∧ jobOut.dst =
    0 ∧ jobOut.sums.poison = false ∧ jobOut.sums.vals.length = jobOut.sums.rows ∧ (∀ (r : List Nat), r ∈ jobOut.sums.vals →
    r.length = jobOut.sums.cols) ∧ wMatOut.blk.place (jobOut.desc / 32 * 32) = some 8192 ∧ convD 8 = BitVec.toNat
    (wMatOut.blk.rawWord 8192).fst ∧ wMatOut.blk.descOk (convD 8) false = true ∧ plainDesc (convD 8) = true ∧ jobOut.out = some
    (2 ^ 49 + 383 * 2 ^ 25 + 64) ∧ jobOut.sums.cols ≤ (wMatOut.blk.outAt (convD 8) (2 ^ 49 + 383 * 2 ^ 25 + 64)
    jobOut.sums.cols).stride := by decide +kernel
/-! GuardedOffInstructionsDoNothing -/
theorem test_off_nop : (wCore id).blk.issuing (coreKey issOff.core) = true ∧ ((wCore id).blk.fireFetch (coreKey
    issOff.core)).fst = false ∧ (wCore id).blk.guardOn (coreKey issOff.core) issOff.guard = false ∧ WellFormed.instr (Instr.nop
    issOff) = true := by decide +kernel
theorem test_off_mop : (wCore id).blk.issuing (coreKey issOff.core) = true ∧ ((wCore id).blk.fireFetch (coreKey
    issOff.core)).fst = false ∧ (wCore id).blk.guardOn (coreKey issOff.core) issOff.guard = false ∧ WellFormed.mop mopA = true
    := by decide +kernel
theorem test_off_vfp : (wCore id).blk.issuing (coreKey issOff.core) = true ∧ ((wCore id).blk.fireFetch (coreKey
    issOff.core)).fst = false ∧ (wCore id).blk.guardOn (coreKey issOff.core) issOff.guard = false ∧ WellFormed.instr (Instr.vfp
    issOff (vop 0 0)) = true := by decide +kernel
theorem test_off_pref : (wCore id).blk.issuing (coreKey issOff.core) = true ∧ ((wCore id).blk.fireFetch (coreKey
    issOff.core)).fst = false ∧ (wCore id).blk.guardOn (coreKey issOff.core) issOff.guard = false ∧ WellFormed.instr (Instr.pref
    issOff 3) = true := by decide +kernel
/-! TransfersStartFromTheirDescriptor -/
theorem test_nxfer : (wXfer (xferD 0 2 0 64 0 1 96)).blk.issuing (coreKey issN.core) = true ∧ ((wXfer (xferD 0 2 0 64 0 1
    96)).blk.fireFetch (coreKey issN.core)).fst = false ∧ (wXfer (xferD 0 2 0 64 0 1 96)).blk.guardOn (coreKey issN.core)
    issN.guard = true ∧ (wXfer (xferD 0 2 0 64 0 1 96)).blk.err = [] ∧ (wXfer (xferD 0 2 0 64 0 1 96)).blk.ras.deadBlocks = [] ∧
    (wXfer (xferD 0 2 0 64 0 1 96)).blk.ras.injects = [] ∧ (wXfer (xferD 0 2 0 64 0 1 96)).blk.claims = [] ∧ (∃ key, (wXfer
    (xferD 0 2 0 64 0 1 96)).blk.place ((wXfer (xferD 0 2 0 64 0 1 96)).blk.sreg (coreKey issN.core) 3 / 32 * 32) = some key ∧
    xferD 0 2 0 64 0 1 96 = BitVec.toNat ((wXfer (xferD 0 2 0 64 0 1 96)).blk.rawWord key).fst) ∧ tKind (xferD 0 2 0 64 0 1 96)
    = 0 ∧ tPeerDie (xferD 0 2 0 64 0 1 96) < 12 ∧ tPeerSite (xferD 0 2 0 64 0 1 96) < 32 := by decide +kernel
theorem test_dma : (wXfer (xferD 2 128 4096 64 0 1 96)).blk.issuing (coreKey issN.core) = true ∧ ((wXfer (xferD 2 128 4096 64 0
    1 96)).blk.fireFetch (coreKey issN.core)).fst = false ∧ (wXfer (xferD 2 128 4096 64 0 1 96)).blk.guardOn (coreKey issN.core)
    issN.guard = true ∧ (wXfer (xferD 2 128 4096 64 0 1 96)).blk.err = [] ∧ (wXfer (xferD 2 128 4096 64 0 1
    96)).blk.ras.deadBlocks = [] ∧ (wXfer (xferD 2 128 4096 64 0 1 96)).blk.ras.injects = [] ∧ (wXfer (xferD 2 128 4096 64 0 1
    96)).blk.claims = [] ∧ (∃ key, (wXfer (xferD 2 128 4096 64 0 1 96)).blk.place ((wXfer (xferD 2 128 4096 64 0 1 96)).blk.sreg
    (coreKey issN.core) 3 / 32 * 32) = some key ∧ xferD 2 128 4096 64 0 1 96 = BitVec.toNat ((wXfer (xferD 2 128 4096 64 0 1
    96)).blk.rawWord key).fst) ∧ Instr.dma = Instr.dma ∧ tKind (xferD 2 128 4096 64 0 1 96) = 2 ∧ (wXfer (xferD 2 128 4096 64 0
    1 96)).blk.placeRun (tDev (xferD 2 128 4096 64 0 1 96)) (tWords (xferD 2 128 4096 64 0 1 96)) = some 4096 ∧ 0 < tWords
    (xferD 2 128 4096 64 0 1 96) := by
  and_intros
  all_goals first | decide +kernel | rfl
theorem test_pref : (wXfer (xferD 3 128 4096 64 0 1 96)).blk.issuing (coreKey issN.core) = true ∧ ((wXfer (xferD 3 128 4096 64 0
    1 96)).blk.fireFetch (coreKey issN.core)).fst = false ∧ (wXfer (xferD 3 128 4096 64 0 1 96)).blk.guardOn (coreKey issN.core)
    issN.guard = true ∧ (wXfer (xferD 3 128 4096 64 0 1 96)).blk.err = [] ∧ (wXfer (xferD 3 128 4096 64 0 1
    96)).blk.ras.deadBlocks = [] ∧ (wXfer (xferD 3 128 4096 64 0 1 96)).blk.ras.injects = [] ∧ (wXfer (xferD 3 128 4096 64 0 1
    96)).blk.claims = [] ∧ (∃ key, (wXfer (xferD 3 128 4096 64 0 1 96)).blk.place ((wXfer (xferD 3 128 4096 64 0 1 96)).blk.sreg
    (coreKey issN.core) 3 / 32 * 32) = some key ∧ xferD 3 128 4096 64 0 1 96 = BitVec.toNat ((wXfer (xferD 3 128 4096 64 0 1
    96)).blk.rawWord key).fst) ∧ Instr.pref = Instr.pref ∧ tKind (xferD 3 128 4096 64 0 1 96) = 3 ∧ (wXfer (xferD 3 128 4096 64
    0 1 96)).blk.placeRun (tDev (xferD 3 128 4096 64 0 1 96)) (tWords (xferD 3 128 4096 64 0 1 96)) = some 4096 ∧ 0 < tWords
    (xferD 3 128 4096 64 0 1 96) := by
  and_intros
  all_goals first | decide +kernel | rfl
/-! TransfersCompleteAndPost -/
theorem test_dma_done : (wDone (xfer1 1 4096)).blk.xfers = [xfer1 1 4096] ∧ (wDone (xfer1 1 4096)).blk.err = [] ∧ (wDone (xfer1
    1 4096)).blk.ras.deadBlocks = [] ∧ (wDone (xfer1 1 4096)).blk.ras.injects = [] ∧ (xfer1 1 4096).core = coreKey lastCore ∧ (∀
    (y : Xfer), y ∈ [] → y.id ≠ (xfer1 1 4096).id) ∧ (wDone (xfer1 1 4096)).blk.memReqs = [] ∧ (xfer1 1 4096).aborted = false ∧
    (xfer1 1 4096).cached = false ∧ (xfer1 1 4096).due ≤ (wDone (xfer1 1 4096)).blk.now ∧ ((wDone (xfer1 1 4096)).blk.core
    (coreKey lastCore)).waitq = none ∧ (xfer1 1 4096).kind = 1 ∧ (wDone (xfer1 1 4096)).blk.placeRun (xfer1 1 4096).dev (xfer1 1
    4096).words = some 4096 ∧ 0 < (xfer1 1 4096).words := by decide +kernel
theorem test_region_done : (wDone (xfer1 1 4096)).blk.xfers = [xfer1 1 4096] ∧ (wDone (xfer1 1 4096)).blk.err = [] ∧ (wDone
    (xfer1 1 4096)).blk.ras.deadBlocks = [] ∧ (wDone (xfer1 1 4096)).blk.ras.injects = [] ∧ (xfer1 1 4096).core = coreKey
    lastCore ∧ (∀ (y : Xfer), y ∈ [] → y.id ≠ (xfer1 1 4096).id) ∧ (wDone (xfer1 1 4096)).blk.memReqs = [] ∧ (xfer1 1
    4096).aborted = false ∧ (xfer1 1 4096).cached = false ∧ (xfer1 1 4096).due ≤ (wDone (xfer1 1 4096)).blk.now ∧ ((wDone (xfer1
    1 4096)).blk.core (coreKey lastCore)).waitq = none := by decide +kernel
/-! BallastOccupiesTheEngine -/
theorem test_ballast : (wCore id).blk.issuing (coreKey issN.core) = true ∧ ((wCore id).blk.fireFetch (coreKey issN.core)).fst =
    false ∧ (wCore id).blk.on (SEQ_PERF_CTRL.freeze (coreKey issN.core / 32) (coreKey issN.core % 32)) = false := by
    decide +kernel
/-! ChildFollowsItsParent -/
theorem test_law_child : (wChild (-5000000)).blk.dstate ≠ stOff ∧ (wChild (-5000000)).blk.dstate ≠ stSync ∧ (wChild
    (-5000000)).blk.time.stepped = true ∧ (wChild (-5000000)).blk.on MTC_STATUS.is_root = false ∧ (wChild
    (-5000000)).blk.contributors = [8] ∧ ((wChild (-5000000)).blk.ptime 8).samples = [-5000000] ∧ ((wChild (-5000000)).blk.ptime
    8).nbHoldover = false ∧ ((wChild (-5000000)).blk.ptime 8).nbHops < 62 ∧ (wChild (-5000000)).blk.halved 8 = false := by
    decide +kernel
theorem test_law_child2 : (wChild (2 ^ 50)).blk.dstate ≠ stOff ∧ (wChild (2 ^ 50)).blk.dstate ≠ stSync ∧ (wChild (2 ^
    50)).blk.time.stepped = true ∧ (wChild (2 ^ 50)).blk.on MTC_STATUS.is_root = false ∧ (wChild (2 ^ 50)).blk.contributors =
    [8] ∧ ((wChild (2 ^ 50)).blk.ptime 8).samples = [2 ^ 50] ∧ ((wChild (2 ^ 50)).blk.ptime 8).nbHoldover = false ∧ ((wChild (2
    ^ 50)).blk.ptime 8).nbHops < 62 ∧ (wChild (2 ^ 50)).blk.halved 8 = false := by decide +kernel
/-! RootTrimAndHoldover -/
theorem test_law_root : wRoot.blk.dstate ≠ stOff ∧ wRoot.blk.on MTC_STATUS.is_root = true ∧ wRoot.blk.on MTC_CTRL.pps_enable =
    false ∧ wRoot.blk.time.stepped = true := by decide +kernel
theorem test_law_holdover : wHoldover.blk.dstate ≠ stOff ∧ wHoldover.blk.on MTC_STATUS.is_root = false ∧
    wHoldover.blk.contributors = [] ∧ wHoldover.blk.time.everContrib = true ∧ wHoldover.blk.time.holdSince = none := by
    decide +kernel
/-! TimestampsGiveOffsets -/
theorem test_stamp : wStamp.blk.pLive 9 = true ∧ bits (tsSet 5).toNat 0 8 = 90 ∧ wStamp.blk.ras.injects = [] := by decide +kernel
theorem test_stamp_other : wStamp.blk.pLive 9 = true ∧ bits (tsSet 6).toNat 0 8 = 90 ∧ wStamp.blk.ras.injects = [] := by
    decide +kernel
/-! PulsesDisciplineTheRoot -/
theorem test_pps : 1000 ≤ 1000 ∧ 1000 ≤ 500000000 ∧ wPps.blk.on MTC_CTRL.pps_enable = true ∧ wPps.blk.time.pendingTod = none ∧
    wPps.blk.on MTC_STATUS.is_root = true ∧ wPps.blk.time.ppsLost = false ∧ 52 * 2 ^ 16 ≤ wPps.blk.now16 := by decide +kernel
theorem test_pps_lost : wPpsLost.blk.time.ppsLast = some 999 ∧ wPpsLost.blk.on MTC_STATUS.is_root = true ∧ wPpsLost.blk.on
    MTC_STATUS.pps_valid = true ∧ 999 + 1100000000 ≤ wPpsLost.blk.now := by decide +kernel
/-! OscillatorAndBackupRootTakeOver -/
theorem test_osc_stop : (stIn stReady id).blk.ras.injects = [] ∧ (osc true 0).stopped = true ∧ (osc true 0).otherOk = true ∧
    (stIn stReady id).blk.time.otherOscBad = false := by decide +kernel
theorem test_osc_drift : wRoot.blk.ras.injects = [] ∧ 10000 < (osc false (-10001)).drift.natAbs ∧ (osc false (-10001)).otherOk =
    true ∧ wRoot.blk.time.otherOscBad = false := by decide +kernel
theorem test_backup : (wBackup id).blk.rd MTC_CTRL.backup_rank ≠ 0 ∧ (wBackup id).blk.dstate = stRun ∧ (wBackup id).blk.on
    MTC_STATUS.is_root = false ∧ (wBackup id).blk.time.noRootSince + (1 + 5 * ((wBackup id).blk.rd MTC_CTRL.backup_rank - 1)) *
    1000000 ≤ (wBackup id).blk.now := by decide +kernel
/-! SelftestWindowsOpenAndClose -/
theorem test_st_open : 31 < 32 ∧ (dueIn stReady 6 0 closeAt9).blk.on (MTC_SCHED_ACT.valid 31) = true ∧ (dueIn stReady 6 0
    closeAt9).blk.rd (MTC_SCHED_ACT.action 31) = 6 ∧ (dueIn stReady 6 0 closeAt9).blk.schedInst 31 + 40 ≤ (dueIn stReady 6 0
    closeAt9).blk.now ∧ (∀ (m : Nat), m < 32 → m ≠ 31 → (dueIn stReady 6 0 closeAt9).blk.on (MTC_SCHED_ACT.valid m) = true →
    (dueIn stReady 6 0 closeAt9).blk.now < (dueIn stReady 6 0 closeAt9).blk.schedInst m + 40) ∧ (dueIn stReady 6 0
    closeAt9).blk.run.job = none := by decide +kernel
theorem test_st_close : 31 < 32 ∧ (dueIn stReady 7 0 id).blk.on (MTC_SCHED_ACT.valid 31) = true ∧ (dueIn stReady 7 0 id).blk.rd
    (MTC_SCHED_ACT.action 31) = 7 ∧ (dueIn stReady 7 0 id).blk.schedInst 31 + 40 ≤ (dueIn stReady 7 0 id).blk.now ∧ (∀ (m :
    Nat), m < 32 → m ≠ 31 → (dueIn stReady 7 0 id).blk.on (MTC_SCHED_ACT.valid m) = true → (dueIn stReady 7 0 id).blk.now <
    (dueIn stReady 7 0 id).blk.schedInst m + 40) := by decide +kernel
/-! EpochsSwitchDrainAndRelease -/
theorem test_epoch_go : 31 < 32 ∧ (dueIn stRun 2 1 readyBank).blk.on (MTC_SCHED_ACT.valid 31) = true ∧ (dueIn stRun 2 1
    readyBank).blk.rd (MTC_SCHED_ACT.action 31) = 2 ∧ (dueIn stRun 2 1 readyBank).blk.schedInst 31 + 40 ≤ (dueIn stRun 2 1
    readyBank).blk.now ∧ (∀ (m : Nat), m < 32 → m ≠ 31 → (dueIn stRun 2 1 readyBank).blk.on (MTC_SCHED_ACT.valid m) = true →
    (dueIn stRun 2 1 readyBank).blk.now < (dueIn stRun 2 1 readyBank).blk.schedInst m + 40) ∧ (∀ (ld : Nat), ld < 2 → (dueIn
    stRun 2 1 readyBank).blk.rd (ROUTE_EPOCH.active ld) ≠ argOf 31 (dueIn stRun 2 1 readyBank).blk % 2 ∧ (dueIn stRun 2 1
    readyBank).blk.on (ROUTE_EPOCH.released ld) = true ∧ (dueIn stRun 2 1 readyBank).blk.on (ROUTE_EPOCH.shadow_ready ld) = true
    ∧ ((dueIn stRun 2 1 readyBank).blk.router ld).refusedSwitch = false) := by decide +kernel
theorem test_epoch_no : 31 < 32 ∧ (dueIn stRun 2 1 unreleased).blk.on (MTC_SCHED_ACT.valid 31) = true ∧ (dueIn stRun 2 1
    unreleased).blk.rd (MTC_SCHED_ACT.action 31) = 2 ∧ (dueIn stRun 2 1 unreleased).blk.schedInst 31 + 40 ≤ (dueIn stRun 2 1
    unreleased).blk.now ∧ (∀ (m : Nat), m < 32 → m ≠ 31 → (dueIn stRun 2 1 unreleased).blk.on (MTC_SCHED_ACT.valid m) = true →
    (dueIn stRun 2 1 unreleased).blk.now < (dueIn stRun 2 1 unreleased).blk.schedInst m + 40) ∧ (∀ (ld : Nat), ld < 2 → (dueIn
    stRun 2 1 unreleased).blk.on (ROUTE_EPOCH.released ld) = false) := by decide +kernel
theorem test_epoch_mark : wMark.blk.on (ROUTE_EPOCH.released (9 / 5)) = false ∧ b2n false = wMark.blk.rd (ROUTE_EPOCH.active (9
    / 5)) := by decide +kernel
theorem test_epoch_free : (stIn stRun unreleased).blk.on (ROUTE_EPOCH.released 1) = false ∧ (∀ (i : Nat), i < 6 → (stIn stRun
    unreleased).blk.rd (ROUTE_DRAIN.open_ 1 i) = 0 ∧ (stIn stRun unreleased).blk.oldPackets 1 i = 0) := by decide +kernel
/-! ModeChangesStartAndComplete -/
theorem test_mode_start : 31 < 32 ∧ (dueIn stReady 3 1 (inMode 0)).blk.on (MTC_SCHED_ACT.valid 31) = true ∧ (dueIn stReady 3 1
    (inMode 0)).blk.rd (MTC_SCHED_ACT.action 31) = 3 ∧ (dueIn stReady 3 1 (inMode 0)).blk.schedInst 31 + 40 ≤ (dueIn stReady 3 1
    (inMode 0)).blk.now ∧ (∀ (m : Nat), m < 32 → m ≠ 31 → (dueIn stReady 3 1 (inMode 0)).blk.on (MTC_SCHED_ACT.valid m) = true →
    (dueIn stReady 3 1 (inMode 0)).blk.now < (dueIn stReady 3 1 (inMode 0)).blk.schedInst m + 40) ∧ (dueIn stReady 3 1 (inMode
    0)).blk.dstate = stReady ∧ argOf 31 (dueIn stReady 3 1 (inMode 0)).blk % 4 < 2 ∧ (dueIn stReady 3 1 (inMode 0)).blk.rd
    PWR_MODE.mode < 2 ∧ argOf 31 (dueIn stReady 3 1 (inMode 0)).blk % 4 ≠ (dueIn stReady 3 1 (inMode 0)).blk.rd PWR_MODE.mode :=
    by decide +kernel
theorem test_mode_refused : 31 < 32 ∧ (dueIn stRun 3 1 (inMode 0)).blk.on (MTC_SCHED_ACT.valid 31) = true ∧ (dueIn stRun 3 1
    (inMode 0)).blk.rd (MTC_SCHED_ACT.action 31) = 3 ∧ (dueIn stRun 3 1 (inMode 0)).blk.schedInst 31 + 40 ≤ (dueIn stRun 3 1
    (inMode 0)).blk.now ∧ (∀ (m : Nat), m < 32 → m ≠ 31 → (dueIn stRun 3 1 (inMode 0)).blk.on (MTC_SCHED_ACT.valid m) = true →
    (dueIn stRun 3 1 (inMode 0)).blk.now < (dueIn stRun 3 1 (inMode 0)).blk.schedInst m + 40) ∧ (dueIn stRun 3 1 (inMode
    0)).blk.dstate = stRun := by decide +kernel
theorem test_mode_done : (changing 1 0).blk.rd PWR_MODE.pending < 2 ∧ (changing 1 0).blk.rd PWR_MODE.mode < 2 := by decide +kernel
theorem test_mode_calm : (changing 0 2).blk.rd PWR_MODE.pending = 2 ∧ (changing 0 2).blk.rd PWR_MODE.mode < 2 := by decide +kernel
theorem test_mode_wake : (changing 2 1).blk.rd PWR_MODE.pending < 2 ∧ (changing 2 1).blk.rd PWR_MODE.mode = 2 ∧ (changing 2
    1).blk.coll.jcopy = none := by decide +kernel
/-! AnchorsStartAndReleaseTheJob -/
theorem test_job_start : 31 < 32 ∧ wStart.blk.on (MTC_SCHED_ACT.valid 31) = true ∧ wStart.blk.rd (MTC_SCHED_ACT.action 31) = 5 ∧
    wStart.blk.schedInst 31 + 40 ≤ wStart.blk.now ∧ (∀ (m : Nat), m < 32 → m ≠ 31 → wStart.blk.on (MTC_SCHED_ACT.valid m) = true
    → wStart.blk.now < wStart.blk.schedInst m + 40) ∧ wStart.blk.dstate = stArmed ∧ wStart.blk.run.job = some twoJob ∧
    twoJob.sched = [] ∧ twoJob.bindings = [] ∧ twoJob.commits = false ∧ twoJob.segs.length ≤ 4096 ∧ wStart.blk.coll.answer =
    none ∧ wStart.blk.ras.d2dSwitch = [] ∧ wStart.blk.run.swaps = [] ∧ wStart.blk.checks = [] ∧ (∀ (k : Nat), (wStart.blk.core
    k).draining = false) ∧ wStart.blk.run.stopAt = none ∧ (twoJob.seg 0).prologue = true ∧ 8 ≤ (twoJob.seg 0).c0 ∧ 8 ≤
    (twoJob.seg 0).c1 ∧ (∀ (x : Nat), x < 4 → wStart.blk.lineOf x = none) := by
  and_intros
  all_goals first | decide +kernel | exact fun k => Sp.get_all (fun (c : CoreSt) => c.draining = false) _ _ rfl (by decide +kernel) k
theorem test_anchor_early : (wRelease 2500039).blk.run.job = some twoJob ∧ (wRelease 2500039).blk.now < (wRelease
    2500039).blk.relOf twoJob (wRelease 2500039).blk.run.seg := by decide +kernel
theorem test_anchor_rel : x_anchor_rel0.blk.dstate = stRun ∧ x_anchor_rel0.blk.run.job = some twoJob ∧ twoJob.sched = [] ∧
    twoJob.bindings = [] ∧ twoJob.commits = false ∧ twoJob.segs.length ≤ 4096 ∧ x_anchor_rel0.blk.coll.answer = none ∧
    x_anchor_rel0.blk.ras.d2dSwitch = [] ∧ x_anchor_rel0.blk.run.swaps = [] ∧ x_anchor_rel0.blk.checks = [] ∧ (∀ (k : Nat),
    (x_anchor_rel0.blk.core k).draining = false) ∧ x_anchor_rel0.blk.relOf twoJob x_anchor_rel0.blk.run.seg ≤
    x_anchor_rel0.blk.now ∧ twoJob.startsStep (twoJob.nextSeg x_anchor_rel0.blk.run.seg) = false ∧ 8 ≤ (twoJob.seg
    (twoJob.nextSeg x_anchor_rel0.blk.run.seg)).c0 ∧ 8 ≤ (twoJob.seg (twoJob.nextSeg x_anchor_rel0.blk.run.seg)).c1 ∧
    (twoJob.seg x_anchor_rel0.blk.run.seg).lull = false ∧ (twoJob.seg (twoJob.nextSeg x_anchor_rel0.blk.run.seg)).lull = false ∧
    x_anchor_rel0.blk.rd PWR_THERM_STAT.level = 0 := by
  and_intros
  all_goals first | decide +kernel | exact fun k => Sp.get_all (fun (c : CoreSt) => c.draining = false) _ _ rfl (by decide +kernel) k
theorem test_anchor_rel2 : x_anchor_rel20.blk.dstate = stRun ∧ x_anchor_rel20.blk.run.job = some twoJob ∧ twoJob.sched = [] ∧
    twoJob.bindings = [] ∧ twoJob.commits = false ∧ twoJob.segs.length ≤ 4096 ∧ x_anchor_rel20.blk.coll.answer = none ∧
    x_anchor_rel20.blk.ras.d2dSwitch = [] ∧ x_anchor_rel20.blk.run.swaps = [] ∧ x_anchor_rel20.blk.checks = [] ∧ (∀ (k : Nat),
    (x_anchor_rel20.blk.core k).draining = false) ∧ x_anchor_rel20.blk.relOf twoJob x_anchor_rel20.blk.run.seg ≤
    x_anchor_rel20.blk.now ∧ twoJob.startsStep (twoJob.nextSeg x_anchor_rel20.blk.run.seg) = false ∧ 8 ≤ (twoJob.seg
    (twoJob.nextSeg x_anchor_rel20.blk.run.seg)).c0 ∧ 8 ≤ (twoJob.seg (twoJob.nextSeg x_anchor_rel20.blk.run.seg)).c1 ∧
    (twoJob.seg x_anchor_rel20.blk.run.seg).lull = false ∧ (twoJob.seg (twoJob.nextSeg x_anchor_rel20.blk.run.seg)).lull = false
    ∧ x_anchor_rel20.blk.rd PWR_THERM_STAT.level = 0 := by
  and_intros
  all_goals first | decide +kernel | exact fun k => Sp.get_all (fun (c : CoreSt) => c.draining = false) _ _ rfl (by decide +kernel) k
theorem test_anchor_insn : wArrive.blk.issuing (coreKey iss.core) = true ∧ (wArrive.blk.fireFetch (coreKey iss.core)).fst =
    false ∧ wArrive.blk.ras.injects = [] ∧ wArrive.blk.run.job = some oneJob ∧ wArrive.blk.segOf (coreKey iss.core) =
    wArrive.blk.run.seg := by decide +kernel
/-! SwapsAndFillsServeTheNextRelease -/
theorem test_swap_fresh : List.find? (fun w => decide (w.core = coreKey lastCore ∧ w.slot = b2n true ∧ (wSwap
    swapOut).blk.swapWindow w = true)) (wSwap swapOut).blk.run.swaps = some swapOut ∧ swapOut.out = some 7 ∧ swapOut.fresh =
    true ∧ swapOut.inc < 8 ∧ ((wSwap swapOut).blk.core (coreKey lastCore)).opening = none ∧ (wSwap swapOut).blk.err = [] ∧
    (wSwap swapOut).blk.ras.deadBlocks = [] ∧ (wSwap swapOut).blk.ras.injects = [] ∧ 32 ∣ (wSwap swapOut).blk.swapKey (coreKey
    lastCore) 7 ∧ (wSwap swapOut).blk.swapKey (coreKey lastCore) 7 + 32 * (recWords (isLee (coreKey lastCore)) + (wSwap
    swapOut).blk.partWords (coreKey lastCore) swapOut.slot) ≤ 2 ^ 48 := by decide +kernel
theorem test_swap_in : List.find? (fun w => decide (w.core = coreKey lastCore ∧ w.slot = b2n false ∧ (wSwap
    swapIn).blk.swapWindow w = true)) (wSwap swapIn).blk.run.swaps = some swapIn ∧ swapIn.out = none ∧ swapIn.fresh = false ∧
    swapIn.inc < 8 ∧ ((wSwap swapIn).blk.core (coreKey lastCore)).opening = none ∧ (wSwap swapIn).blk.err = [] ∧ (wSwap
    swapIn).blk.ras.deadBlocks = [] ∧ (wSwap swapIn).blk.ras.injects = [] ∧ 32 ∣ (wSwap swapIn).blk.swapKey (coreKey lastCore)
    swapIn.inc ∧ (wSwap swapIn).blk.swapKey (coreKey lastCore) swapIn.inc + 32 * (recWords (isLee (coreKey lastCore)) + (wSwap
    swapIn).blk.partWords (coreKey lastCore) swapIn.slot) ≤ 2 ^ 48 := by decide +kernel
theorem test_fill : wFill.blk.run.job = some twoJob ∧ wFill.blk.fillWants twoJob (coreKey lastCore) = some { block := 3, cd := 11, site := 31, off := 5, len := 8 }
    ∧ (false || wFill.blk.codePoison twoJob { block := 3, cd := 11, site := 31, off := 5, len := 8 }) = false ∧ 3 < 2 ^ 16 ∧
    (wFill.blk.core (coreKey lastCore)).opening = none ∧ wFill.blk.fillWindow (coreKey lastCore) = true := by decide +kernel
/-! ContextRecordsRoundTrip -/
theorem test_ctx_round : 7 < 8 ∧ someCtx.sPoison = [] ∧ someCtx.pPoison = [] ∧ someCtx.vPoison = [] ∧ someCtx.kPoison = [] ∧
    someCtx.vl < 256 ∧ someCtx.flags < 64 ∧ (∀ (r : Nat), 1 ≤ r → r < 8 → Sp.get 0 someCtx.k r < 2 ^ if true = true then 128
    else 64) := by
  and_intros
  all_goals first | decide +kernel
/-! FlipAppliesTheOutcome -/
theorem test_flip_commit : 31 < 32 ∧ (wFlip 1 none).blk.on (MTC_SCHED_ACT.valid 31) = true ∧ (wFlip 1 none).blk.rd
    (MTC_SCHED_ACT.action 31) = 1 ∧ (wFlip 1 none).blk.schedInst 31 + 40 ≤ (wFlip 1 none).blk.now ∧ (∀ (m : Nat), m < 32 → m ≠
    31 → (wFlip 1 none).blk.on (MTC_SCHED_ACT.valid m) = true → (wFlip 1 none).blk.now < (wFlip 1 none).blk.schedInst m + 40) ∧
    (wFlip 1 none).blk.journal.inDoubt = false ∧ (wFlip 1 none).blk.coll.complete = true ∧ (wFlip 1 none).blk.vote.heldVote = []
    ∧ (wFlip 1 none).blk.vote.heldHw = [] ∧ (wFlip 1 none).blk.vote.heldModFail = false ∧ 1 ≤ (wFlip 1 none).blk.journal.outcome
    ∧ (wFlip 1 none).blk.journal.outcome ≤ 3 ∧ (wFlip 1 none).blk.journal.active ≤ 1 := by decide +kernel
theorem test_flip_skip : 31 < 32 ∧ (wFlip 2 (some 1960)).blk.on (MTC_SCHED_ACT.valid 31) = true ∧ (wFlip 2 (some 1960)).blk.rd
    (MTC_SCHED_ACT.action 31) = 1 ∧ (wFlip 2 (some 1960)).blk.schedInst 31 + 40 ≤ (wFlip 2 (some 1960)).blk.now ∧ (∀ (m : Nat),
    m < 32 → m ≠ 31 → (wFlip 2 (some 1960)).blk.on (MTC_SCHED_ACT.valid m) = true → (wFlip 2 (some 1960)).blk.now < (wFlip 2
    (some 1960)).blk.schedInst m + 40) ∧ (wFlip 2 (some 1960)).blk.journal.inDoubt = false ∧ (wFlip 2 (some
    1960)).blk.coll.complete = true ∧ (wFlip 2 (some 1960)).blk.vote.heldVote = [] ∧ (wFlip 2 (some 1960)).blk.vote.heldHw = []
    ∧ (wFlip 2 (some 1960)).blk.vote.heldModFail = false ∧ 1 ≤ (wFlip 2 (some 1960)).blk.journal.outcome ∧ (wFlip 2 (some
    1960)).blk.journal.outcome ≤ 3 ∧ (wFlip 2 (some 1960)).blk.journal.active ≤ 1 := by decide +kernel
theorem test_flip_fail : 31 < 32 ∧ (wFlip 3 (some 1961)).blk.on (MTC_SCHED_ACT.valid 31) = true ∧ (wFlip 3 (some 1961)).blk.rd
    (MTC_SCHED_ACT.action 31) = 1 ∧ (wFlip 3 (some 1961)).blk.schedInst 31 + 40 ≤ (wFlip 3 (some 1961)).blk.now ∧ (∀ (m : Nat),
    m < 32 → m ≠ 31 → (wFlip 3 (some 1961)).blk.on (MTC_SCHED_ACT.valid m) = true → (wFlip 3 (some 1961)).blk.now < (wFlip 3
    (some 1961)).blk.schedInst m + 40) ∧ (wFlip 3 (some 1961)).blk.journal.inDoubt = false ∧ (wFlip 3 (some
    1961)).blk.coll.complete = true ∧ (wFlip 3 (some 1961)).blk.vote.heldVote = [] ∧ (wFlip 3 (some 1961)).blk.vote.heldHw = []
    ∧ (wFlip 3 (some 1961)).blk.vote.heldModFail = false ∧ 1 ≤ (wFlip 3 (some 1961)).blk.journal.outcome ∧ (wFlip 3 (some
    1961)).blk.journal.outcome ≤ 3 ∧ (wFlip 3 (some 1961)).blk.journal.active ≤ 1 := by decide +kernel
/-! DoubtIsAskedAndAnswered -/
theorem test_doubt_flip : 31 < 32 ∧ wFlipDoubt.blk.on (MTC_SCHED_ACT.valid 31) = true ∧ wFlipDoubt.blk.rd (MTC_SCHED_ACT.action
    31) = 1 ∧ wFlipDoubt.blk.schedInst 31 + 40 ≤ wFlipDoubt.blk.now ∧ (∀ (m : Nat), m < 32 → m ≠ 31 → wFlipDoubt.blk.on
    (MTC_SCHED_ACT.valid m) = true → wFlipDoubt.blk.now < wFlipDoubt.blk.schedInst m + 40) ∧ wFlipDoubt.blk.journal.inDoubt =
    false ∧ wFlipDoubt.blk.coll.complete = false ∧ wFlipDoubt.blk.vote.heldVote = [] ∧ wFlipDoubt.blk.vote.heldHw = [] ∧
    wFlipDoubt.blk.vote.heldModFail = false := by decide +kernel
theorem test_doubt_ask : x_doubt_ask0.blk.journal.inDoubt = true ∧ x_doubt_ask0.blk.coll.lastQuery + 20000 ≤
    x_doubt_ask0.blk.now := by decide +kernel
theorem test_doubt_answer : (wDoubt id).blk.pLive 9 = true ∧ (wDoubt id).blk.journal.inDoubt = true ∧ (wDoubt
    id).blk.coll.answer = none ∧ (wDoubt id).blk.journal.step = 8 ∧ (wDoubt id).blk.journal.attempt = 2 ∧ 2 = 2 := by
    decide +kernel
theorem test_doubt_query1 : (wJournal (jrn 8 2 4 0 1)).blk.pLive 9 = true ∧ (wJournal (jrn 8 2 4 0 1)).blk.coll.jcopy = none :=
    by decide +kernel
theorem test_doubt_query2 : (wJournal (jrn 8 2 2 0 0)).blk.pLive 9 = true ∧ (wJournal (jrn 8 2 2 0 0)).blk.coll.jcopy = none :=
    by decide +kernel
theorem test_doubt_query3 : (wJournal (jrn 8 2 3 0 0)).blk.pLive 9 = true ∧ (wJournal (jrn 8 2 3 0 0)).blk.coll.jcopy = none :=
    by decide +kernel
theorem test_doubt_query4 : (wJournal (jrn 8 2 1 0 0)).blk.pLive 9 = true ∧ (wJournal (jrn 8 2 1 0 0)).blk.coll.jcopy = none :=
    by decide +kernel
theorem test_doubt_query5 : (wJournal (jrn 0 2 1 0 0)).blk.pLive 9 = true ∧ (wJournal (jrn 0 2 1 0 0)).blk.coll.jcopy = none :=
    by decide +kernel
theorem test_line_notice : wLine.blk.pLive 0 = true ∧ axisOf (wLine.blk.logicalOf 0) = 0 ∧ 2 < wLine.blk.axLen 0 0 ∧
    wLine.blk.otherBreak 0 2 = false ∧ wLine.blk.locked = false := by decide +kernel
theorem test_line_notice_end : wLine.blk.pLive 0 = true ∧ axisOf (wLine.blk.logicalOf 0) = 0 ∧ 0 < wLine.blk.axLen 0 0 ∧
    wLine.blk.otherBreak 0 0 = false ∧ wLine.blk.locked = false := by decide +kernel
/-! VotesCombineToTheOutcome -/
theorem test_vote_kept : List.find? (fun y => decide (y.pkt = votePkt 1 0 ∧ (fun b y => b.linkOut y.ld && y.inPort / 8 == 0)
    (wVote 1 [] (votePkt 1 0)).blk y = true)) (wVote 1 [] (votePkt 1 0)).blk.inbox = some (inPkt (votePkt 1 0)) ∧ hMark
    (BitVec.toNat (votePkt 1 0).hdr) = false ∧ (votePkt 1 0).payload = [{ data := BitVec.ofNat 256 (1 + 2 ^ 33 + 2 ^ 104), poison := false }]
    ∧ hMcHops (BitVec.toNat (votePkt 1 0).hdr) ≤ 1 ∧ (wVote 1 [] (votePkt 1 0)).blk.coll.barrierOn = true ∧ (wVote 1 [] (votePkt
    1 0)).blk.coll.stage = bits (BitVec.ofNat 256 (1 + 2 ^ 33 + 2 ^ 104)).toNat 104 2 ∧ (wVote 1 [] (votePkt 1
    0)).blk.coll.voteOf (bits (BitVec.ofNat 256 (1 + 2 ^ 33 + 2 ^ 104)).toNat 104 2) (bits (BitVec.ofNat 256 (1 + 2 ^ 33 + 2 ^
    104)).toNat 106 5) = none := by decide +kernel
theorem test_vote_twice : List.find? (fun y => decide (y.pkt = votePkt 1 0 ∧ (fun b y => b.linkOut y.ld && y.inPort / 8 == 0)
    (wVote 1 [(1, 0, 3)] (votePkt 1 0)).blk y = true)) (wVote 1 [(1, 0, 3)] (votePkt 1 0)).blk.inbox = some (inPkt (votePkt 1
    0)) ∧ hMark (BitVec.toNat (votePkt 1 0).hdr) = false ∧ (votePkt 1 0).payload = [{ data := BitVec.ofNat 256 (1 + 2 ^ 33 + 2 ^ 104), poison := false }]
    ∧ hMcHops (BitVec.toNat (votePkt 1 0).hdr) ≤ 1 ∧ (wVote 1 [(1, 0, 3)] (votePkt 1 0)).blk.coll.barrierOn = true ∧ (wVote 1
    [(1, 0, 3)] (votePkt 1 0)).blk.coll.voteOf (bits (BitVec.ofNat 256 (1 + 2 ^ 33 + 2 ^ 104)).toNat 104 2) (bits (BitVec.ofNat
    256 (1 + 2 ^ 33 + 2 ^ 104)).toNat 106 5) ≠ none := by decide +kernel
theorem test_vote_last : List.find? (fun y => decide (y.pkt = votePkt 3 1 ∧ (fun b y => b.linkOut y.ld && y.inPort / 8 == 0)
    (wVote 3 [(3, 0, 2 ^ 70 + 3)] (votePkt 3 1)).blk y = true)) (wVote 3 [(3, 0, 2 ^ 70 + 3)] (votePkt 3 1)).blk.inbox = some
    (inPkt (votePkt 3 1)) ∧ hMark (BitVec.toNat (votePkt 3 1).hdr) = false ∧ (votePkt 3 1).payload = [{ data := BitVec.ofNat 256 (1 + 2 ^ 33 + 3 * 2 ^ 104 + 2 ^ 106), poison := false }]
    ∧ hMcHops (BitVec.toNat (votePkt 3 1).hdr) ≤ 1 ∧ (wVote 3 [(3, 0, 2 ^ 70 + 3)] (votePkt 3 1)).blk.coll.barrierOn = true ∧
    bits (BitVec.ofNat 256 (1 + 2 ^ 33 + 3 * 2 ^ 104 + 2 ^ 106)).toNat 104 2 = 3 ∧ (wVote 3 [(3, 0, 2 ^ 70 + 3)] (votePkt 3
    1)).blk.coll.stage = 3 ∧ (wVote 3 [(3, 0, 2 ^ 70 + 3)] (votePkt 3 1)).blk.journal.inDoubt = false ∧ bits (BitVec.ofNat 256
    (1 + 2 ^ 33 + 3 * 2 ^ 104 + 2 ^ 106)).toNat 106 5 < (wVote 3 [(3, 0, 2 ^ 70 + 3)] (votePkt 3 1)).blk.axLen 0 (((wVote 3 [(3,
    0, 2 ^ 70 + 3)] (votePkt 3 1)).blk.order 0).getD 3 0) ∧ (wVote 3 [(3, 0, 2 ^ 70 + 3)] (votePkt 3 1)).blk.coll.voteOf 3 (bits
    (BitVec.ofNat 256 (1 + 2 ^ 33 + 3 * 2 ^ 104 + 2 ^ 106)).toNat 106 5) = none ∧ (if bits (BitVec.ofNat 256 (1 + 2 ^ 33 + 3 * 2
    ^ 104 + 2 ^ 106)).toNat 106 5 = 0 then 2 ^ 70 + 3 else 1 + 2 ^ 33) = bits (BitVec.ofNat 256 (1 + 2 ^ 33 + 3 * 2 ^ 104 + 2 ^
    106)).toNat 0 64 ∧ (∀ (q : Nat), q < (wVote 3 [(3, 0, 2 ^ 70 + 3)] (votePkt 3 1)).blk.axLen 0 (((wVote 3 [(3, 0, 2 ^ 70 +
    3)] (votePkt 3 1)).blk.order 0).getD 3 0) → q ≠ bits (BitVec.ofNat 256 (1 + 2 ^ 33 + 3 * 2 ^ 104 + 2 ^ 106)).toNat 106 5 →
    (wVote 3 [(3, 0, 2 ^ 70 + 3)] (votePkt 3 1)).blk.coll.voteOf 3 q = some (if q = 0 then 2 ^ 70 + 3 else 1 + 2 ^ 33)) := by
    decide +kernel
/-! ScaleTableLatchesAndRebuilds -/
theorem test_report : wReports.blk.scale.reports = [report1] := by decide +kernel
theorem test_latch : wLatch.blk.latchDue = true ∧ wLatch.blk.scale.latched = none := by decide +kernel
theorem test_rebuild : wRebuild.blk.on NUM_TABLE_STAT.rebuilding = true ∧ wRebuild.blk.scale.latched = some [(16383, { captured := true, amax := 200, nonfinite := false, vanished := 0, nonzero := 9 })]
    ∧ wRebuild.blk.validIds.length ≤ 16384 ∧ wRebuild.blk.validIds.Nodup ∧ (∀ (t : Nat), wRebuild.blk.rebuildLimit = some t →
    wRebuild.blk.now ≤ t) := by decide +kernel
theorem test_rebuild_stop : wStopAt.blk.on NUM_TABLE_STAT.rebuilding = true ∧ wStopAt.blk.scale.latched = some [(16383, { captured := true, amax := 200, nonfinite := false, vanished := 0, nonzero := 9 })]
    ∧ wStopAt.blk.validIds.length ≤ 16384 ∧ wStopAt.blk.validIds.Nodup ∧ wStopAt.blk.rebuildLimit = some 1498040 ∧ 1498040 ≤
    wStopAt.blk.now := by decide +kernel
/-! DeliveredPacketsReachTheirUnit -/
theorem test_write_pkt : List.find? (fun y => decide (y.pkt = rdPkt 1 4096 0 [{ data := 5, poison := false }, { data := 2 ^ 255, poison := false }]
    ∧ (fun b y => b.serviceOpen (hDev (BitVec.toNat (rdPkt 1 4096 0 [{ data := 5, poison := false }, { data := 2 ^ 255, poison := false }]).hdr))
    (rdPkt 1 4096 0 [{ data := 5, poison := false }, { data := 2 ^ 255, poison := false }]).payload.length true y.ld) (inboxed
    (rdPkt 1 4096 0 [{ data := 5, poison := false }, { data := 2 ^ 255, poison := false }])).blk y = true)) (inboxed (rdPkt 1
    4096 0 [{ data := 5, poison := false }, { data := 2 ^ 255, poison := false }])).blk.inbox = some (inPkt (rdPkt 1 4096 0 [{ data := 5, poison := false },
    { data := 2 ^ 255, poison := false }])) ∧ hMark (BitVec.toNat (rdPkt 1 4096 0 [{ data := 5, poison := false }, { data := 2 ^ 255, poison := false }]).hdr)
    = false ∧ (inboxed (rdPkt 1 4096 0 [{ data := 5, poison := false }, { data := 2 ^ 255, poison := false }])).blk.ras.injects
    = [] ∧ (inboxed (rdPkt 1 4096 0 [{ data := 5, poison := false }, { data := 2 ^ 255, poison := false }])).blk.placeRun (hDev
    (BitVec.toNat (rdPkt 1 4096 0 [{ data := 5, poison := false }, { data := 2 ^ 255, poison := false }]).hdr)) (rdPkt 1 4096 0
    [{ data := 5, poison := false }, { data := 2 ^ 255, poison := false }]).payload.length = some 4096 ∧ 32 ∣ 4096 ∧ (rdPkt 1
    4096 0 [{ data := 5, poison := false }, { data := 2 ^ 255, poison := false }]).payload ≠ [] ∧ (∀ (w : MWord), w ∈ (rdPkt 1
    4096 0 [{ data := 5, poison := false }, { data := 2 ^ 255, poison := false }]).payload → w.poison = false) := by
    decide +kernel
theorem test_read_pkt : List.find? (fun y => decide (y.pkt = rdPkt 2 4096 7 [{ data := 255, poison := false }] ∧ (fun b y =>
    b.serviceOpen (hDev (BitVec.toNat (rdPkt 2 4096 7 [{ data := 255, poison := false }]).hdr)) (bits 255 0 8 + 1) false y.ld)
    (early (rdPkt 2 4096 7 [{ data := 255, poison := false }])).blk y = true)) (early (rdPkt 2 4096 7 [{ data := 255, poison := false }])).blk.inbox
    = some (inPkt (rdPkt 2 4096 7 [{ data := 255, poison := false }])) ∧ hMark (BitVec.toNat (rdPkt 2 4096 7 [{ data := 255, poison := false }]).hdr)
    = false ∧ (early (rdPkt 2 4096 7 [{ data := 255, poison := false }])).blk.err = [] ∧ (early (rdPkt 2 4096 7 [{ data := 255, poison := false }])).blk.ras.deadBlocks
    = [] ∧ (early (rdPkt 2 4096 7 [{ data := 255, poison := false }])).blk.ras.injects = [] ∧ (rdPkt 2 4096 7 [{ data := 255, poison := false }]).payload
    = [{ data := 255, poison := false }] ∧ false = false ∧ (early (rdPkt 2 4096 7 [{ data := 255, poison := false }])).blk.placeRun
    (hDev (BitVec.toNat (rdPkt 2 4096 7 [{ data := 255, poison := false }]).hdr)) (bits 255 0 8 + 1) = some 4096 ∧ 32 ∣ 4096 :=
    by decide +kernel
theorem test_resp_pkt : List.find? (fun y => decide (y.pkt = rdPkt 3 4096 7 [{ data := 255, poison := false }] ∧ (fun b y =>
    b.linkOut y.ld) (inboxed (rdPkt 3 4096 7 [{ data := 255, poison := false }])).blk y = true)) (inboxed (rdPkt 3 4096 7 [{ data := 255, poison := false }])).blk.inbox
    = some (inPkt (rdPkt 3 4096 7 [{ data := 255, poison := false }])) ∧ hMark (BitVec.toNat (rdPkt 3 4096 7 [{ data := 255, poison := false }]).hdr)
    = false ∧ bits (hTag (BitVec.toNat (rdPkt 3 4096 7 [{ data := 255, poison := false }]).hdr)) 12 4 ≠ 1 := by decide +kernel
theorem test_ctrl_pkt : List.find? (fun y => decide (y.pkt = rdPkt 10 4096 7 [{ data := 255, poison := false }] ∧ (fun b y =>
    b.linkOut y.ld) (inboxed (rdPkt 10 4096 7 [{ data := 255, poison := false }])).blk y = true)) (inboxed (rdPkt 10 4096 7 [{ data := 255, poison := false }])).blk.inbox
    = some (inPkt (rdPkt 10 4096 7 [{ data := 255, poison := false }])) ∧ hMark (BitVec.toNat (rdPkt 10 4096 7 [{ data := 255, poison := false }]).hdr)
    = false := by decide +kernel
/-! LinkWordsAcknowledgeAndResend -/
theorem test_credit_send : x_credit_send0.blk.pLive 9 = true ∧ x_credit_send0.blk.openTimes 9 8 = [22488064] ∧
    (x_credit_send0.blk.port 9).linkCount % 2 = 0 ∧ (x_credit_send0.blk.port 9).rxSeq < 2 ^ 24 ∧ (∀ (v : Nat), Sp.get 0
    (x_credit_send0.blk.port 9).vcFreed v < 2 ^ 20) := by
  and_intros
  all_goals first | decide +kernel | exact fun k => Sp.get_all (fun (c : Nat) => c < 2 ^ 20) _ _ (by decide) (by decide +kernel) k
theorem test_stamp_send : x_stamp_send0.blk.pLive 9 = true ∧ x_stamp_send0.blk.openTimes 9 8 ≠ [] ∧ (x_stamp_send0.blk.port
    9).linkCount % 2 = 1 ∧ (x_stamp_send0.blk.ptime 9).lastSetSlot ≠ x_stamp_send0.blk.now / 8000 ∧ (x_stamp_send0.blk.ptime
    9).nextSeq < 256 ∧ (x_stamp_send0.blk.ptime 9).lastRxSeq < 256 := by decide +kernel
theorem test_credit_ack : (portIn 9 psUp (withReplay [{ data := 1, poison := false }, { data := 2, poison := true }, { data := 3, poison := false }])).blk.pLive
    9 = true ∧ ((credW 1).ackSeq.toNat + 2 ^ 24 - ((portIn 9 psUp (withReplay [{ data := 1, poison := false }, { data := 2, poison := true },
    { data := 3, poison := false }])).blk.port 9).ackSeq) % 2 ^ 24 ≤ ((portIn 9 psUp (withReplay [{ data := 1, poison := false },
    { data := 2, poison := true }, { data := 3, poison := false }])).blk.port 9).replay.length := by decide +kernel
theorem test_nak : (portIn 9 psUp (withReplay [{ data := 1, poison := false }, { data := 2, poison := true }, { data := 3, poison := false }])).blk.pLive
    9 = true ∧ ((credW 0).ackSeq.toNat + 2 ^ 24 - ((portIn 9 psUp (withReplay [{ data := 1, poison := false }, { data := 2, poison := true },
    { data := 3, poison := false }])).blk.port 9).ackSeq) % 2 ^ 24 < ((portIn 9 psUp (withReplay [{ data := 1, poison := false },
    { data := 2, poison := true }, { data := 3, poison := false }])).blk.port 9).replay.length := by decide +kernel
/-! SpareLanesReplaceFailedOnes -/
theorem test_lane_spare : (spareLane 9 (noSpare 9 (portIn 9 psUp id))).blk.ras.injects = [] ∧ (spareLane 9 (noSpare 9 (portIn 9
    psUp id))).blk.pLive 9 = true ∧ (spareLane 9 (noSpare 9 (portIn 9 psUp id))).blk.rd (PORT_LANE.state 9 0) = 0 ∧ true = true
    ∧ (∀ (x : Sparing), x ∈ ((spareLane 9 (noSpare 9 (portIn 9 psUp id))).blk.port 9).rxSpares → x.failed ≠ 0) ∧ (spareLane 9
    (noSpare 9 (portIn 9 psUp id))).blk.freeSpares 9 = [35] := by decide +kernel
theorem test_lane_none : (noSpare 9 (portIn 9 psUp id)).blk.ras.injects = [] ∧ (noSpare 9 (portIn 9 psUp id)).blk.pstate 9 =
    psUp ∧ (noSpare 9 (portIn 9 psUp id)).blk.rd (PORT_LANE.state 9 33) = 0 ∧ (noSpare 9 (portIn 9 psUp id)).blk.rd
    (PORT_CFG.lane_err_limit 9) < 2 ^ 40 ∧ (∀ (x : Sparing), x ∈ ((noSpare 9 (portIn 9 psUp id)).blk.port 9).rxSpares → x.failed
    ≠ 33) ∧ (noSpare 9 (portIn 9 psUp id)).blk.freeSpares 9 = [] := by decide +kernel
theorem test_spare_req : (portIn 9 psDegr id).blk.pLive 9 = true ∧ 35 < 36 ∧ 0 < 36 := by decide +kernel
theorem test_spare_switch : List.find? (fun y => y.cw.isSome) (x_spare_switch0.blk.port 9).rxSpares = some { failed := 3, spare := 35, cause := 1, cw := some 99 }
    ∧ 3 < 36 ∧ 35 < 36 ∧ 3 ≠ 35 := by decide +kernel
theorem test_spare_switch_tx : (∀ (z : Sparing), z ∈ (x_spare_tx0.blk.port 9).rxSpares → z.cw = none) ∧ (x_spare_tx0.blk.port
    9).txSpares = [{ failed := 3, spare := 35, cause := 0, cw := some 99 }, { failed := 4, spare := 34, cause := 0, cw := some 8 }]
    := by decide +kernel
/-! PortActionsWaitForTheirInstant -/
theorem test_calm_enter : (portIn 9 psUp id).blk.pstate 9 = psUp ∧ (portIn 9 psUp id).blk.dataQueued 9 = [] ∧ ((portIn 9 psUp
    id).blk.port 9).replay = [] := by decide +kernel
theorem test_calm_leave : x_calm_leave0.blk.pstate 9 = psCalm ∧ (x_calm_leave0.blk.port 9).ownLeave = some 99 := by decide +kernel
theorem test_halve : (portIn 9 psUp id).blk.pstate 9 = psUp := by decide +kernel
theorem test_act1 : (x_act10.blk.port 9).act = some { action := 1, instant := 900000 } ∧ 900000 ≤ x_act10.blk.now := by
    decide +kernel
theorem test_act2 : (x_act20.blk.port 9).act = some { action := 2, instant := 900000 } ∧ 900000 ≤ x_act20.blk.now := by
    decide +kernel
theorem test_act2h : (x_act2h0.blk.port 9).act = some { action := 2, instant := 900000 } ∧ 900000 ≤ x_act2h0.blk.now := by
    decide +kernel
theorem test_act3 : (x_act30.blk.port 9).act = some { action := 3, instant := 900000 } ∧ 900000 ≤ x_act30.blk.now := by
    decide +kernel
/-! OutagesEndOrLoseTheLink -/
theorem test_uncorr : (portIn 9 psUp id).blk.ras.injects = [] ∧ (portIn 9 psUp id).blk.pLive 9 = true := by decide +kernel
theorem test_outage_end : ((outSince 9 899000).blk.port 9).outage = some 899000 ∧ (outSince 9 899000).blk.now - 899000 ≤
    (outSince 9 899000).blk.rd (PORT_CFG.outage_limit_us 9) * 1000 := by decide +kernel
theorem test_outage_limit : ((outSince 9 0).blk.port 9).outage = some 0 ∧ (outSince 9 0).blk.locked = false ∧ (outSince 9
    0).blk.dstate ≠ stDrain ∧ (outSince 9 0).blk.standbyFor ((outSince 9 0).blk.logicalOf 9) = none ∧ (outSince 9 0).blk.rd
    (PORT_CFG.outage_limit_us 9) * 1000 < (outSince 9 0).blk.now - 0 := by decide +kernel
/-! PortsTrainAndLock -/
theorem test_port_enable : wPortEnable.blk.pathOpen Path.control = true ∧ wPortEnable.blk.debugRefuses Path.control true = false
    ∧ wPortEnable.blk.debugRefuses Path.control false = false ∧ stStandby < wPortEnable.blk.dstate ∧ wPortEnable.blk.locked =
    false ∧ wPortEnable.blk.on (PORT_CTRL.enable 9) = false ∧ wPortEnable.blk.pstate 9 = psDown ∧ (wPortEnable.blk.port
    9).present = true := by decide +kernel
theorem test_port_retrain : (enabled 9 (portIn 9 psFailed cabled)).blk.pathOpen Path.management = true ∧ (enabled 9 (portIn 9
    psFailed cabled)).blk.debugRefuses Path.management true = false ∧ (enabled 9 (portIn 9 psFailed cabled)).blk.debugRefuses
    Path.management false = false ∧ stStandby < (enabled 9 (portIn 9 psFailed cabled)).blk.dstate ∧ (enabled 9 (portIn 9
    psFailed cabled)).blk.locked = false ∧ (enabled 9 (portIn 9 psFailed cabled)).blk.on (PORT_CTRL.enable 9) = true ∧ (enabled
    9 (portIn 9 psFailed cabled)).blk.pstate 9 = psFailed ∧ ((enabled 9 (portIn 9 psFailed cabled)).blk.port 9).present = true
    := by decide +kernel
theorem test_mate : (enabled 9 (portIn 9 psDown id)).blk.on (PORT_CTRL.enable 9) = true ∧ (enabled 9 (portIn 9 psDown
    id)).blk.pstate 9 = psDown := by decide +kernel
theorem test_far_end : (portIn 9 psTraining id).blk.pstate 9 = psTraining ∧ ((portIn 9 psTraining id).blk.port 9).farEnd = none
    := by decide +kernel
theorem test_lock : (portIn 9 psTraining cabled).blk.pstate 9 = psTraining ∧ ((portIn 9 psTraining cabled).blk.port 9).lockAt =
    none ∧ 17 ≤ (List.filter (fun l => goodTrain.good.getLsbD l) (List.range 36)).length ∧ ((goodTrain.cablePs.toNat : Int) -
    goodTrain.nominalPs).natAbs ≤ 2000 := by decide +kernel
theorem test_lock17 : (portIn 9 psTraining cabled).blk.pstate 9 = psTraining ∧ ((portIn 9 psTraining cabled).blk.port 9).lockAt
    = none ∧ 17 ≤ (List.filter (fun l => halfTrain.good.getLsbD l) (List.range 36)).length ∧ ((halfTrain.cablePs.toNat : Int) -
    halfTrain.nominalPs).natAbs ≤ 2000 := by decide +kernel
/-! PortsGoDownOrFail -/
theorem test_port_disable : (enabled 9 (portIn 9 psUp cabled)).blk.pathOpen Path.cxl = true ∧ (enabled 9 (portIn 9 psUp
    cabled)).blk.debugRefuses Path.cxl true = false ∧ (enabled 9 (portIn 9 psUp cabled)).blk.debugRefuses Path.cxl false = false
    ∧ stStandby < (enabled 9 (portIn 9 psUp cabled)).blk.dstate ∧ (enabled 9 (portIn 9 psUp cabled)).blk.locked = false ∧
    (enabled 9 (portIn 9 psUp cabled)).blk.on (PORT_CTRL.enable 9) = true := by decide +kernel
theorem test_unmate : (portIn 9 psFailed cabled).blk.pstate 9 ≠ psDown := by decide +kernel
theorem test_overcurrent : ((portIn 9 psUp cabled).blk.port 9).present = true ∧ (portIn 9 psUp cabled).blk.pstate 9 ≠ psDown ∧
    (portIn 9 psUp cabled).blk.locked = false ∧ (portIn 9 psUp cabled).blk.dstate ≠ stDrain ∧ (portIn 9 psUp
    cabled).blk.standbyFor ((portIn 9 psUp cabled).blk.logicalOf 9) = none := by decide +kernel
theorem test_lock_timeout : (x_lock_timeout0.blk.port 9).farEnd = some 7 ∧ x_lock_timeout0.blk.pstate 9 = psTraining ∧
    (x_lock_timeout0.blk.port 9).lockAt = none ∧ 7 + 100000000 ≤ x_lock_timeout0.blk.now ∧ x_lock_timeout0.blk.locked = false ∧
    x_lock_timeout0.blk.dstate ≠ stDrain ∧ x_lock_timeout0.blk.standbyFor (x_lock_timeout0.blk.logicalOf 9) = none := by
    decide +kernel
theorem test_lock_poor : (portIn 9 psTraining cabled).blk.pstate 9 = psTraining ∧ ((portIn 9 psTraining cabled).blk.port
    9).lockAt = none ∧ (portIn 9 psTraining cabled).blk.locked = false ∧ (portIn 9 psTraining cabled).blk.dstate ≠ stDrain ∧
    (portIn 9 psTraining cabled).blk.standbyFor ((portIn 9 psTraining cabled).blk.logicalOf 9) = none ∧ (List.filter (fun l =>
    poorTrain.good.getLsbD l) (List.range 36)).length < 17 := by decide +kernel
theorem test_settle : (x_settle0.blk.port 9).lockAt = some 7 ∧ x_settle0.blk.pstate 9 = psTraining ∧ 7 + 20000000 ≤
    x_settle0.blk.now := by decide +kernel
/-! StandbysTakeOver -/
theorem test_takeover_new : (spareRole id).blk.role 9 = 1 ∧ 2 ≤ (spareRole id).blk.rd (PORT_STATE.level_minor 9) ∧ 5 < 10 ∧
    axisOf 5 ≠ 4 ∧ 5 ∈ servesPorts ((spareRole id).blk.rd (PORT_PLAN.serves 9)) := by decide +kernel
theorem test_takeover_more : x_takeover_more0.blk.role 9 = 1 ∧ 2 ≤ x_takeover_more0.blk.rd (PORT_STATE.level_minor 9) ∧ 5 < 10 ∧
    axisOf 5 ≠ 4 ∧ 5 ∈ servesPorts (x_takeover_more0.blk.rd (PORT_PLAN.serves 9)) := by decide +kernel
theorem test_takeover_at : List.find? (fun x => decide (x.logical = 5 ∧ x.at_ ≤ x_takeover_at0.blk.now))
    x_takeover_at0.blk.takes = some take1 ∧ take1.standby < 10 ∧ take1.failed < 10 ∧ take1.failed ≠ take1.standby := by
    decide +kernel
/-! RouterDeliversForwardsOrDrops -/
theorem test_route_own : hCls (BitVec.toNat (dataPkt 2 1).hdr) ∈ typeClasses (hType (BitVec.toNat (dataPkt 2 1).hdr)) ∧ (wRoute
    id).blk.inTorus 0 (hDst (BitVec.toNat (dataPkt 2 1).hdr)) = true ∧ (wRoute id).blk.inTorus 0 (hSrc (BitVec.toNat (dataPkt 2
    1).hdr)) = true ∧ hdrReserved (BitVec.toNat (dataPkt 2 1).hdr) = false ∧ (wRoute id).blk.dstate ≠ stDiscover ∧ hMc
    (BitVec.toNat (dataPkt 2 1).hdr) = false ∧ hDst (BitVec.toNat (dataPkt 2 1).hdr) = (wRoute id).blk.coord 0 := by
    decide +kernel
theorem test_route_on : hCls (BitVec.toNat (dataPkt 0 1).hdr) ∈ typeClasses (hType (BitVec.toNat (dataPkt 0 1).hdr)) ∧ (wRoute
    (dirTo 0 0 1)).blk.inTorus 0 (hDst (BitVec.toNat (dataPkt 0 1).hdr)) = true ∧ (wRoute (dirTo 0 0 1)).blk.inTorus 0 (hSrc
    (BitVec.toNat (dataPkt 0 1).hdr)) = true ∧ hdrReserved (BitVec.toNat (dataPkt 0 1).hdr) = false ∧ (wRoute (dirTo 0 0
    1)).blk.dstate ≠ stDiscover ∧ hMc (BitVec.toNat (dataPkt 0 1).hdr) = false ∧ hDst (BitVec.toNat (dataPkt 0 1).hdr) ≠ (wRoute
    (dirTo 0 0 1)).blk.coord 0 ∧ ((wRoute (dirTo 0 0 1)).blk.router 0).refusedSwitch = false ∧ (∀ (e : Nat), e < 256 → (wRoute
    (dirTo 0 0 1)).blk.excHit 0 (hEpoch (BitVec.toNat (dataPkt 0 1).hdr)) (BitVec.toNat (dataPkt 0 1).hdr) e = false) ∧
    List.find? (fun y => decide (coordAt (hDst (BitVec.toNat (dataPkt 0 1).hdr)) y ≠ coordAt ((wRoute (dirTo 0 0 1)).blk.coord
    0) y)) ((wRoute (dirTo 0 0 1)).blk.order 0) = some 0 ∧ (wRoute (dirTo 0 0 1)).blk.rd (ROUTE_NEXT.dir 0 (hEpoch (BitVec.toNat
    (dataPkt 0 1).hdr)) 0 (coordAt (hDst (BitVec.toNat (dataPkt 0 1).hdr)) 0)) = 1 ∧ 0 < 4 ∧ 1 = 1 ∧ (((wRoute (dirTo 0 0
    1)).blk.groupOf 0 (axisPort 0 (decide (1 = 1)))).any fun m => (wRoute (dirTo 0 0 1)).blk.admits ((wRoute (dirTo 0 0
    1)).blk.physOf 0 m) (setVc (BitVec.toNat (dataPkt 0 1).hdr) (2 * hCls (BitVec.toNat (dataPkt 0 1).hdr) + (wRoute (dirTo 0 0
    1)).blk.dateline 0 (BitVec.toNat (dataPkt 0 1).hdr) (axisPort 0 (decide (1 = 1))) 4))) = true ∧ (wRoute (dirTo 0 0
    1)).blk.physOf 0 ((wRoute (dirTo 0 0 1)).blk.leader 0 (axisPort 0 (decide (1 = 1)))) / 5 = 0 ∧ (∀ (y : QPkt), y ∈ ((wRoute
    (dirTo 0 0 1)).blk.port ((wRoute (dirTo 0 0 1)).blk.leader 0 (axisPort 0 (decide (1 = 1))))).queue → y.at_ ≠ (wRoute (dirTo
    0 0 1)).blk.now) := by decide +kernel
theorem test_route_minus : hCls (BitVec.toNat (dataPkt 0 1).hdr) ∈ typeClasses (hType (BitVec.toNat (dataPkt 0 1).hdr)) ∧
    (wRoute (dirTo 0 0 2)).blk.inTorus 0 (hDst (BitVec.toNat (dataPkt 0 1).hdr)) = true ∧ (wRoute (dirTo 0 0 2)).blk.inTorus 0
    (hSrc (BitVec.toNat (dataPkt 0 1).hdr)) = true ∧ hdrReserved (BitVec.toNat (dataPkt 0 1).hdr) = false ∧ (wRoute (dirTo 0 0
    2)).blk.dstate ≠ stDiscover ∧ hMc (BitVec.toNat (dataPkt 0 1).hdr) = false ∧ hDst (BitVec.toNat (dataPkt 0 1).hdr) ≠ (wRoute
    (dirTo 0 0 2)).blk.coord 0 ∧ ((wRoute (dirTo 0 0 2)).blk.router 0).refusedSwitch = false ∧ (∀ (e : Nat), e < 256 → (wRoute
    (dirTo 0 0 2)).blk.excHit 0 (hEpoch (BitVec.toNat (dataPkt 0 1).hdr)) (BitVec.toNat (dataPkt 0 1).hdr) e = false) ∧
    List.find? (fun y => decide (coordAt (hDst (BitVec.toNat (dataPkt 0 1).hdr)) y ≠ coordAt ((wRoute (dirTo 0 0 2)).blk.coord
    0) y)) ((wRoute (dirTo 0 0 2)).blk.order 0) = some 0 ∧ (wRoute (dirTo 0 0 2)).blk.rd (ROUTE_NEXT.dir 0 (hEpoch (BitVec.toNat
    (dataPkt 0 1).hdr)) 0 (coordAt (hDst (BitVec.toNat (dataPkt 0 1).hdr)) 0)) = 2 ∧ 0 < 4 ∧ 2 = 2 ∧ (((wRoute (dirTo 0 0
    2)).blk.groupOf 0 (axisPort 0 (decide (2 = 1)))).any fun m => (wRoute (dirTo 0 0 2)).blk.admits ((wRoute (dirTo 0 0
    2)).blk.physOf 0 m) (setVc (BitVec.toNat (dataPkt 0 1).hdr) (2 * hCls (BitVec.toNat (dataPkt 0 1).hdr) + (wRoute (dirTo 0 0
    2)).blk.dateline 0 (BitVec.toNat (dataPkt 0 1).hdr) (axisPort 0 (decide (2 = 1))) 4))) = true ∧ (wRoute (dirTo 0 0
    2)).blk.physOf 0 ((wRoute (dirTo 0 0 2)).blk.leader 0 (axisPort 0 (decide (2 = 1)))) / 5 = 0 ∧ (∀ (y : QPkt), y ∈ ((wRoute
    (dirTo 0 0 2)).blk.port ((wRoute (dirTo 0 0 2)).blk.leader 0 (axisPort 0 (decide (2 = 1))))).queue → y.at_ ≠ (wRoute (dirTo
    0 0 2)).blk.now) := by decide +kernel
theorem test_route_drop : hCls (BitVec.toNat (dataPkt 0 1).hdr) ∈ typeClasses (hType (BitVec.toNat (dataPkt 0 1).hdr)) ∧ (wRoute
    (dirTo 0 0 0)).blk.inTorus 0 (hDst (BitVec.toNat (dataPkt 0 1).hdr)) = true ∧ (wRoute (dirTo 0 0 0)).blk.inTorus 0 (hSrc
    (BitVec.toNat (dataPkt 0 1).hdr)) = true ∧ hdrReserved (BitVec.toNat (dataPkt 0 1).hdr) = false ∧ (wRoute (dirTo 0 0
    0)).blk.dstate ≠ stDiscover ∧ hMc (BitVec.toNat (dataPkt 0 1).hdr) = false ∧ hDst (BitVec.toNat (dataPkt 0 1).hdr) ≠ (wRoute
    (dirTo 0 0 0)).blk.coord 0 ∧ ((wRoute (dirTo 0 0 0)).blk.router 0).refusedSwitch = false ∧ (∀ (e : Nat), e < 256 → (wRoute
    (dirTo 0 0 0)).blk.excHit 0 (hEpoch (BitVec.toNat (dataPkt 0 1).hdr)) (BitVec.toNat (dataPkt 0 1).hdr) e = false) ∧
    List.find? (fun y => decide (coordAt (hDst (BitVec.toNat (dataPkt 0 1).hdr)) y ≠ coordAt ((wRoute (dirTo 0 0 0)).blk.coord
    0) y)) ((wRoute (dirTo 0 0 0)).blk.order 0) = some 0 ∧ (wRoute (dirTo 0 0 0)).blk.rd (ROUTE_NEXT.dir 0 (hEpoch (BitVec.toNat
    (dataPkt 0 1).hdr)) 0 (coordAt (hDst (BitVec.toNat (dataPkt 0 1).hdr)) 0)) = 0 ∧ 0 = 0 := by decide +kernel
theorem test_route_drop3 : hCls (BitVec.toNat (dataPkt 0 1).hdr) ∈ typeClasses (hType (BitVec.toNat (dataPkt 0 1).hdr)) ∧
    (wRoute (dirTo 0 0 3)).blk.inTorus 0 (hDst (BitVec.toNat (dataPkt 0 1).hdr)) = true ∧ (wRoute (dirTo 0 0 3)).blk.inTorus 0
    (hSrc (BitVec.toNat (dataPkt 0 1).hdr)) = true ∧ hdrReserved (BitVec.toNat (dataPkt 0 1).hdr) = false ∧ (wRoute (dirTo 0 0
    3)).blk.dstate ≠ stDiscover ∧ hMc (BitVec.toNat (dataPkt 0 1).hdr) = false ∧ hDst (BitVec.toNat (dataPkt 0 1).hdr) ≠ (wRoute
    (dirTo 0 0 3)).blk.coord 0 ∧ ((wRoute (dirTo 0 0 3)).blk.router 0).refusedSwitch = false ∧ (∀ (e : Nat), e < 256 → (wRoute
    (dirTo 0 0 3)).blk.excHit 0 (hEpoch (BitVec.toNat (dataPkt 0 1).hdr)) (BitVec.toNat (dataPkt 0 1).hdr) e = false) ∧
    List.find? (fun y => decide (coordAt (hDst (BitVec.toNat (dataPkt 0 1).hdr)) y ≠ coordAt ((wRoute (dirTo 0 0 3)).blk.coord
    0) y)) ((wRoute (dirTo 0 0 3)).blk.order 0) = some 0 ∧ (wRoute (dirTo 0 0 3)).blk.rd (ROUTE_NEXT.dir 0 (hEpoch (BitVec.toNat
    (dataPkt 0 1).hdr)) 0 (coordAt (hDst (BitVec.toNat (dataPkt 0 1).hdr)) 0)) = 3 ∧ 3 = 3 := by decide +kernel
theorem test_route_across : hCls (BitVec.toNat (dataPkt 0 1).hdr) ∈ typeClasses (hType (BitVec.toNat (dataPkt 0 1).hdr)) ∧
    (wRoute fun b => b.wr (ROUTE_NEXT.dir 1 0 0 0) 1).blk.inTorus 1 (hDst (BitVec.toNat (dataPkt 0 1).hdr)) = true ∧ (wRoute fun
    b => b.wr (ROUTE_NEXT.dir 1 0 0 0) 1).blk.inTorus 1 (hSrc (BitVec.toNat (dataPkt 0 1).hdr)) = true ∧ hdrReserved
    (BitVec.toNat (dataPkt 0 1).hdr) = false ∧ (wRoute fun b => b.wr (ROUTE_NEXT.dir 1 0 0 0) 1).blk.dstate ≠ stDiscover ∧ hMc
    (BitVec.toNat (dataPkt 0 1).hdr) = false ∧ hDst (BitVec.toNat (dataPkt 0 1).hdr) ≠ (wRoute fun b => b.wr (ROUTE_NEXT.dir 1 0
    0 0) 1).blk.coord 1 ∧ ((wRoute fun b => b.wr (ROUTE_NEXT.dir 1 0 0 0) 1).blk.router 1).refusedSwitch = false ∧ (∀ (e : Nat),
    e < 256 → (wRoute fun b => b.wr (ROUTE_NEXT.dir 1 0 0 0) 1).blk.excHit 1 (hEpoch (BitVec.toNat (dataPkt 0 1).hdr))
    (BitVec.toNat (dataPkt 0 1).hdr) e = false) ∧ List.find? (fun y => decide (coordAt (hDst (BitVec.toNat (dataPkt 0 1).hdr)) y
    ≠ coordAt ((wRoute fun b => b.wr (ROUTE_NEXT.dir 1 0 0 0) 1).blk.coord 1) y)) ((wRoute fun b => b.wr (ROUTE_NEXT.dir 1 0 0
    0) 1).blk.order 1) = some 0 ∧ (wRoute fun b => b.wr (ROUTE_NEXT.dir 1 0 0 0) 1).blk.rd (ROUTE_NEXT.dir 1 (hEpoch
    (BitVec.toNat (dataPkt 0 1).hdr)) 0 (coordAt (hDst (BitVec.toNat (dataPkt 0 1).hdr)) 0)) = 1 ∧ 0 < 4 ∧ 1 = 1 ∧ (wRoute fun b
    => b.wr (ROUTE_NEXT.dir 1 0 0 0) 1).blk.physOf 1 ((wRoute fun b => b.wr (ROUTE_NEXT.dir 1 0 0 0) 1).blk.leader 1 (axisPort 0
    (decide (1 = 1)))) / 5 ≠ 1 ∧ (wRoute fun b => b.wr (ROUTE_NEXT.dir 1 0 0 0) 1).blk.linkAcross ((wRoute fun b => b.wr
    (ROUTE_NEXT.dir 1 0 0 0) 1).blk.physOf 1 ((wRoute fun b => b.wr (ROUTE_NEXT.dir 1 0 0 0) 1).blk.leader 1 (axisPort 0 (decide
    (1 = 1)))) / 5) = false := by decide +kernel
/-! PacketsLeaveAgainstCredits -/
theorem test_send : List.find? (fun y => decide (y.vc = 6)) ((wSend (qpk 4 6 79)).blk.port ((wSend (qpk 4 6 79)).blk.leader (9 /
    5) ((wSend (qpk 4 6 79)).blk.logicalOf 9))).queue = some (qpk 4 6 79) ∧ (wSend (qpk 4 6 79)).blk.carries 9 (BitVec.toNat
    (qpk 4 6 79).pkt.hdr) = true ∧ List.find? (fun k => decide ((qpk 4 6 79).pkt.payload.length + 1 ≤ runLeft ((wSend (qpk 4 6
    79)).blk.program 9) (qpk 4 6 79).vc k)) ((wSend (qpk 4 6 79)).blk.openTimes 9 (qpk 4 6 79).vc) = some 22488065 ∧ (wSend (qpk
    4 6 79)).blk.otherFirst 9 ((wSend (qpk 4 6 79)).blk.wordStart 9 22488065) (qpk 4 6 79) = false ∧ (qpk 4 6
    79).pkt.payload.length + 1 ≤ (wSend (qpk 4 6 79)).blk.rd (PORT_CREDIT.avail 9 6) ∧ ((wSend (qpk 4 6 79)).blk.port
    9).replay.length + ((qpk 4 6 79).pkt.payload.length + 1) ≤ 16384 ∧ (qpk 4 6 79).injected = false ∧ (qpk 4 6 79).due = none
    := by decide +kernel
theorem test_send_hub : List.find? (fun y => decide (y.vc = 6)) ((wSend (qpk 4 6 80)).blk.port ((wSend (qpk 4 6 80)).blk.leader
    (9 / 5) ((wSend (qpk 4 6 80)).blk.logicalOf 9))).queue = some (qpk 4 6 80) ∧ (wSend (qpk 4 6 80)).blk.carries 9
    (BitVec.toNat (qpk 4 6 80).pkt.hdr) = true ∧ List.find? (fun k => decide ((qpk 4 6 80).pkt.payload.length + 1 ≤ runLeft
    ((wSend (qpk 4 6 80)).blk.program 9) (qpk 4 6 80).vc k)) ((wSend (qpk 4 6 80)).blk.openTimes 9 (qpk 4 6 80).vc) = some
    22488065 ∧ (wSend (qpk 4 6 80)).blk.otherFirst 9 ((wSend (qpk 4 6 80)).blk.wordStart 9 22488065) (qpk 4 6 80) = false ∧ (qpk
    4 6 80).pkt.payload.length + 1 ≤ (wSend (qpk 4 6 80)).blk.rd (PORT_CREDIT.avail 9 6) ∧ ((wSend (qpk 4 6 80)).blk.port
    9).replay.length + ((qpk 4 6 80).pkt.payload.length + 1) ≤ 16384 ∧ (qpk 4 6 80).injected = false ∧ (qpk 4 6 80).due = none
    := by decide +kernel
/-! HeadwindLimitersHalveAndRecover -/
theorem test_echo : WellFormed.packet (echoPkt (2 + 3 * 4)) = true ∧ hType (BitVec.toNat (echoPkt (2 + 3 * 4)).hdr) = 20 ∧ hCls
    (BitVec.toNat (echoPkt (2 + 3 * 4)).hdr) = 3 ∧ (echoPkt (2 + 3 * 4)).payload = [{ data := BitVec.ofNat 256 (2 + 3 * 4), poison := false }]
    ∧ List.find? (fun y => decide (y.pkt = echoPkt (2 + 3 * 4) ∧ (fun b z => z.ld == 1 || b.linkAcross 1) (wRate 64).blk y =
    true)) (wRate 64).blk.inbox = some { ld := 0, inPort := 0, pkt := echoPkt (2 + 3 * 4) } ∧ hMark (BitVec.toNat (echoPkt (2 +
    3 * 4)).hdr) = false ∧ (BitVec.ofNat 256 (2 + 3 * 4)).toNat % 4 < 3 ∧ (∀ (t : Nat), ((wRate 64).blk.limiter ((BitVec.ofNat
    256 (2 + 3 * 4)).toNat % 4) ((BitVec.ofNat 256 (2 + 3 * 4)).toNat / 4 % 4)).halvedAt = some t → t + (wRate 64).blk.rd
    (HW_CFG.hold_ns ((BitVec.ofNat 256 (2 + 3 * 4)).toNat / 4 % 4 / 2)) ≤ (wRate 64).blk.now) := by decide +kernel
theorem test_echo_low : WellFormed.packet (echoPkt (2 + 3 * 4)) = true ∧ hType (BitVec.toNat (echoPkt (2 + 3 * 4)).hdr) = 20 ∧
    hCls (BitVec.toNat (echoPkt (2 + 3 * 4)).hdr) = 3 ∧ (echoPkt (2 + 3 * 4)).payload = [{ data := BitVec.ofNat 256 (2 + 3 * 4), poison := false }]
    ∧ List.find? (fun y => decide (y.pkt = echoPkt (2 + 3 * 4) ∧ (fun b z => z.ld == 1 || b.linkAcross 1) (wRate 1).blk y =
    true)) (wRate 1).blk.inbox = some { ld := 0, inPort := 0, pkt := echoPkt (2 + 3 * 4) } ∧ hMark (BitVec.toNat (echoPkt (2 + 3
    * 4)).hdr) = false ∧ (BitVec.ofNat 256 (2 + 3 * 4)).toNat % 4 < 3 ∧ (∀ (t : Nat), ((wRate 1).blk.limiter ((BitVec.ofNat 256
    (2 + 3 * 4)).toNat % 4) ((BitVec.ofNat 256 (2 + 3 * 4)).toNat / 4 % 4)).halvedAt = some t → t + (wRate 1).blk.rd
    (HW_CFG.hold_ns ((BitVec.ofNat 256 (2 + 3 * 4)).toNat / 4 % 4 / 2)) ≤ (wRate 1).blk.now) := by decide +kernel
/-! PeersAreAdmittedAndAuthenticated -/
theorem test_hello_full : helloW.major = 1 ∧ (wMeet 34).blk.planned 0 = true ∧ (wMeet 34).blk.plannedPeer 0 ((wMeet
    34).blk.logicalOf 0) = (helloW.coord.toNat, helloW.lport.toNat) ∧ helloW.fpr.toNat = (wMeet 34).blk.planFpr
    helloW.coord.toNat ∧ ((wMeet 34).blk.port 0).authBad = false ∧ ((wMeet 34).blk.port 0).hello = some { major := helloW.major.toNat, minor := helloW.minor.toNat, coord := helloW.coord.toNat, lport := helloW.lport.toNat, fpr := helloW.fpr.toNat }
    ∧ (wMeet 34).blk.rd (CTL_DISC.hellos 0) = 2 ∧ (wMeet 34).blk.pstate 0 = psTraining ∧ ((wMeet 34).blk.port 0).lockAt.isSome =
    true ∧ (wMeet 34).blk.dstate = stDiscover ∧ ((wMeet 34).blk.port 0).permuted = false ∧ ((wMeet 34).blk.port 0).retired =
    false ∧ (wMeet 34).blk.idleStandby 0 = false ∧ (wMeet 34).blk.on (CTL_DISC.authenticated 0) = false := by decide +kernel
theorem test_hello_half : helloW.major = 1 ∧ (wMeet 33).blk.planned 0 = true ∧ (wMeet 33).blk.plannedPeer 0 ((wMeet
    33).blk.logicalOf 0) = (helloW.coord.toNat, helloW.lport.toNat) ∧ helloW.fpr.toNat = (wMeet 33).blk.planFpr
    helloW.coord.toNat ∧ ((wMeet 33).blk.port 0).authBad = false ∧ ((wMeet 33).blk.port 0).hello = some { major := helloW.major.toNat, minor := helloW.minor.toNat, coord := helloW.coord.toNat, lport := helloW.lport.toNat, fpr := helloW.fpr.toNat }
    ∧ (wMeet 33).blk.rd (CTL_DISC.hellos 0) = 2 ∧ (wMeet 33).blk.pstate 0 = psTraining ∧ ((wMeet 33).blk.port 0).lockAt.isSome =
    true ∧ (wMeet 33).blk.dstate = stDiscover ∧ ((wMeet 33).blk.port 0).permuted = false ∧ ((wMeet 33).blk.port 0).retired =
    false ∧ (wMeet 33).blk.idleStandby 0 = false ∧ (wMeet 33).blk.on (CTL_DISC.authenticated 0) = false := by decide +kernel
theorem test_challenge : (x_challenge0.blk.port 0).admitted = true ∧ x_challenge0.blk.on SEC_STATUS.key_ok = true ∧
    x_challenge0.blk.pLive 0 = true := by decide +kernel
theorem test_response_bad : ((admitted (auth1 (some 77) 1) id).blk.port 0).admitted = true ∧ (admitted (auth1 (some 77) 1)
    id).blk.on (CTL_DISC.authenticated 0) = false ∧ ((admitted (auth1 (some 77) 1) id).blk.port 0).auth.nonce = some 77 ∧ digest
    [] ≠ (admitted (auth1 (some 77) 1) id).blk.entryWord ((admitted (auth1 (some 77) 1) id).blk.planIndex ((admitted (auth1
    (some 77) 1) id).blk.plannedPeer 0 ((admitted (auth1 (some 77) 1) id).blk.logicalOf 0)).fst) 0 := by decide +kernel
theorem test_auth_again : ((admitted (auth1 (some 77) 2) id).blk.port 0).admitted = true ∧ (admitted (auth1 (some 77) 2)
    id).blk.on (CTL_DISC.authenticated 0) = false ∧ ((admitted (auth1 (some 77) 2) id).blk.port 0).auth.nonce.isSome = true ∧
    ((admitted (auth1 (some 77) 2) id).blk.port 0).auth.sentAt + 5000000 ≤ (admitted (auth1 (some 77) 2) id).blk.now ∧
    ((admitted (auth1 (some 77) 2) id).blk.port 0).auth.tries < 3 := by decide +kernel
theorem test_auth_over : ((admitted (auth1 (some 77) 3) id).blk.port 0).admitted = true ∧ (admitted (auth1 (some 77) 3)
    id).blk.on (CTL_DISC.authenticated 0) = false ∧ ((admitted (auth1 (some 77) 3) id).blk.port 0).auth.startAt + 20000000 ≤
    (admitted (auth1 (some 77) 3) id).blk.now := by decide +kernel
/-! DiscoveryAndSyncEnd -/
theorem test_disc_timeout : (wDisc 65535000000000).blk.dstate = stDiscover ∧ (wDisc 65535000000000).blk.reg Reg.ctlStateTime +
    (wDisc 65535000000000).blk.discoverS * 1000000000 ≤ (wDisc 65535000000000).blk.now ∧ 0 < 10 ∧ (wDisc
    65535000000000).blk.planned 0 = true ∧ (wDisc 65535000000000).blk.rd (CTL_DISC.outcome 0) = 0 ∧ (∀ (n : Nat), n < 10 →
    (wDisc 65535000000000).blk.standbyFor n = none) := by decide +kernel
theorem test_disc_exit : (stIn stDiscover noPlan).blk.dstate = stDiscover ∧ (stIn stDiscover noPlan).blk.rst.warmPath = false ∧
    (stIn stDiscover noPlan).blk.time.stepped = false ∧ (∀ (p : Nat), p < 10 → ((stIn stDiscover noPlan).blk.planned p = true →
    (stIn stDiscover noPlan).blk.portReady p = true) ∧ ((stIn stDiscover noPlan).blk.port p).hold = false) := by decide +kernel
theorem test_disc_root : x_disc_root0.blk.dstate = stDiscover ∧ x_disc_root0.blk.time.stepped = true ∧ (∀ (p : Nat), p < 10 →
    (x_disc_root0.blk.planned p = true → x_disc_root0.blk.portReady p = true) ∧ (x_disc_root0.blk.port p).hold = false) := by
    decide +kernel
theorem test_disc_warm : x_disc_warm0.blk.dstate = stDiscover ∧ x_disc_warm0.blk.rst.warmPath = true ∧ (∀ (p : Nat), p < 10 →
    (x_disc_warm0.blk.planned p = true → x_disc_warm0.blk.portReady p = true) ∧ (x_disc_warm0.blk.port p).hold = false) := by
    decide +kernel
theorem test_sync_exit : x_sync_exit0.blk.dstate = stSync ∧ x_sync_exit0.blk.on MTC_STATUS.locked = true ∧ x_sync_exit0.blk.on
    MTC_STATUS.is_root = true ∧ x_sync_exit0.blk.rst.warmPath = false := by decide +kernel
theorem test_sync_fenced : x_sync_fenced0.blk.dstate = stSync ∧ x_sync_fenced0.blk.on MTC_STATUS.locked = true ∧
    x_sync_fenced0.blk.rd MTC_STATUS.hops < 63 ∧ x_sync_fenced0.blk.rst.warmPath = false := by decide +kernel
/-! PeersAreAdmittedAndAuthenticated -/
theorem test_response_good : ((admitted (auth1 (some 77) 1) managed).blk.port 0).admitted = true ∧ (admitted (auth1 (some 77) 1)
    managed).blk.on (CTL_DISC.authenticated 0) = false ∧ ((admitted (auth1 (some 77) 1) managed).blk.port 0).auth.nonce = some
    77 ∧ digest (List.replicate 1793 255) = (admitted (auth1 (some 77) 1) managed).blk.entryWord ((admitted (auth1 (some 77) 1)
    managed).blk.planIndex ((admitted (auth1 (some 77) 1) managed).blk.plannedPeer 0 ((admitted (auth1 (some 77) 1)
    managed).blk.logicalOf 0)).fst) 0 ∧ (List.replicate 1793 255).length = 1793 ∧ true = true := by decide +kernel
/-! WritesFollowAccessCodes -/
theorem test_write_ctl : regOfAddr (wr8 (Reg.idScratch 18) (2 ^ 64 - 1)).addr.toNat = some (Reg.idScratch 18) ∧ (∀ (b : Blk)
    (old v : Nat), b.afterWrite (Reg.idScratch 18) old v = b) ∧ (∀ (v : Nat), clampReg (Reg.idScratch 18) v = v) ∧ (∀ (b : Blk)
    (v : Nat), b.discards (Reg.idScratch 18) v = false) ∧ (∀ (b : Blk), b.injLocked (Reg.idScratch 18) = false) ∧ (∀ (n : Nat),
    Reg.idScratch 18 ≠ Reg.mtcSchedAct n) ∧ (wr8 (Reg.idScratch 18) (2 ^ 64 - 1)).bytes = 8 ∧ (wr8 (Reg.idScratch 18) (2 ^ 64 -
    1)).addr.toNat % 8 = 0 ∧ isRegAddr (wr8 (Reg.idScratch 18) (2 ^ 64 - 1)).addr.toNat = true ∧ (wPort id).blk.pathOpen (wr8
    (Reg.idScratch 18) (2 ^ 64 - 1)).path = true ∧ (wPort id).blk.debugRefuses (wr8 (Reg.idScratch 18) (2 ^ 64 - 1)).path true =
    false ∧ (wPort id).blk.poweredOff (wr8 (Reg.idScratch 18) (2 ^ 64 - 1)).addr.toNat true = false := by
  and_intros
  all_goals first | decide +kernel | exact fun _ _ _ => rfl | exact fun _ _ => rfl | exact fun _ => rfl | exact fun _ => Reg.noConfusion
theorem test_write_rwq : regOfAddr (wr8 (Reg.mtcPortCal 9) (2 ^ 64 - 1)).addr.toNat = some (Reg.mtcPortCal 9) ∧ (∀ (b : Blk)
    (old v : Nat), b.afterWrite (Reg.mtcPortCal 9) old v = b) ∧ (∀ (v : Nat), clampReg (Reg.mtcPortCal 9) v = v) ∧ (∀ (b : Blk)
    (v : Nat), b.discards (Reg.mtcPortCal 9) v = false) ∧ (∀ (b : Blk), b.injLocked (Reg.mtcPortCal 9) = false) ∧ (∀ (n : Nat),
    Reg.mtcPortCal 9 ≠ Reg.mtcSchedAct n) ∧ (wr8 (Reg.mtcPortCal 9) (2 ^ 64 - 1)).bytes = 8 ∧ (wr8 (Reg.mtcPortCal 9) (2 ^ 64 -
    1)).addr.toNat % 8 = 0 ∧ isRegAddr (wr8 (Reg.mtcPortCal 9) (2 ^ 64 - 1)).addr.toNat = true ∧ (stIn stRun id).blk.pathOpen
    (wr8 (Reg.mtcPortCal 9) (2 ^ 64 - 1)).path = true ∧ (stIn stRun id).blk.debugRefuses (wr8 (Reg.mtcPortCal 9) (2 ^ 64 -
    1)).path true = false ∧ (stIn stRun id).blk.poweredOff (wr8 (Reg.mtcPortCal 9) (2 ^ 64 - 1)).addr.toNat true = false := by
  and_intros
  all_goals first | decide +kernel | exact fun _ _ _ => rfl | exact fun _ _ => rfl | exact fun _ => rfl | exact fun _ => Reg.noConfusion
theorem test_write_quorum : regOfAddr (wr8 Reg.mtcEpoch (2 ^ 64 - 1)).addr.toNat = some Reg.mtcEpoch ∧ (∀ (b : Blk) (old v :
    Nat), b.afterWrite Reg.mtcEpoch old v = b) ∧ (∀ (v : Nat), clampReg Reg.mtcEpoch v = v) ∧ (∀ (b : Blk) (v : Nat), b.discards
    Reg.mtcEpoch v = false) ∧ (∀ (b : Blk), b.injLocked Reg.mtcEpoch = false) ∧ (∀ (n : Nat), Reg.mtcEpoch ≠ Reg.mtcSchedAct n)
    ∧ (wr8 Reg.mtcEpoch (2 ^ 64 - 1)).bytes = 8 ∧ (wr8 Reg.mtcEpoch (2 ^ 64 - 1)).addr.toNat % 8 = 0 ∧ isRegAddr (wr8
    Reg.mtcEpoch (2 ^ 64 - 1)).addr.toNat = true ∧ (wPort id).blk.pathOpen (wr8 Reg.mtcEpoch (2 ^ 64 - 1)).path = true ∧ (wPort
    id).blk.debugRefuses (wr8 Reg.mtcEpoch (2 ^ 64 - 1)).path true = false ∧ (wPort id).blk.poweredOff (wr8 Reg.mtcEpoch (2 ^ 64
    - 1)).addr.toNat true = false := by
  and_intros
  all_goals first | decide +kernel | exact fun _ _ _ => rfl | exact fun _ _ => rfl | exact fun _ => rfl | exact fun _ => Reg.noConfusion
theorem test_write_w1c : regOfAddr (wr8 (Reg.vecNanLanes 11 31 1) 5).addr.toNat = some (Reg.vecNanLanes 11 31 1) ∧ (∀ (b : Blk)
    (old v : Nat), b.afterWrite (Reg.vecNanLanes 11 31 1) old v = b) ∧ (∀ (v : Nat), clampReg (Reg.vecNanLanes 11 31 1) v = v) ∧
    (∀ (b : Blk) (v : Nat), b.discards (Reg.vecNanLanes 11 31 1) v = false) ∧ (∀ (b : Blk), b.injLocked (Reg.vecNanLanes 11 31
    1) = false) ∧ (∀ (n : Nat), Reg.vecNanLanes 11 31 1 ≠ Reg.mtcSchedAct n) ∧ (wr8 (Reg.vecNanLanes 11 31 1) 5).bytes = 8 ∧
    (wr8 (Reg.vecNanLanes 11 31 1) 5).addr.toNat % 8 = 0 ∧ isRegAddr (wr8 (Reg.vecNanLanes 11 31 1) 5).addr.toNat = true ∧
    x_write_w1c0.blk.pathOpen (wr8 (Reg.vecNanLanes 11 31 1) 5).path = true ∧ x_write_w1c0.blk.debugRefuses (wr8
    (Reg.vecNanLanes 11 31 1) 5).path true = false ∧ x_write_w1c0.blk.poweredOff (wr8 (Reg.vecNanLanes 11 31 1) 5).addr.toNat
    true = false := by
  and_intros
  all_goals first | decide +kernel | exact fun _ _ _ => rfl | exact fun _ _ => rfl | exact fun _ => rfl | exact fun _ => Reg.noConfusion
/-! AccessesOutsideTheMapComplete -/
theorem test_acc_bad : (wPort id).blk.pathOpen y_acc_bad0.path = true ∧ ¬(y_acc_bad0.bytes = 8 ∧ y_acc_bad0.addr.toNat % 8 = 0 ∧
    isRegAddr y_acc_bad0.addr.toNat = true) := by decide +kernel
theorem test_acc_locked : (wPort id).blk.pathOpen y_acc_locked0.path = true ∧ y_acc_locked0.bytes = 8 ∧ y_acc_locked0.addr.toNat
    % 8 = 0 ∧ isRegAddr y_acc_locked0.addr.toNat = true ∧ (wPort id).blk.debugRefuses y_acc_locked0.path true = true := by
    decide +kernel
theorem test_acc_off : (wPort (inMode 2)).blk.pathOpen (wr8 (Reg.seqStatus 11 31) 0).path = true ∧ (wr8 (Reg.seqStatus 11 31)
    0).bytes = 8 ∧ (wr8 (Reg.seqStatus 11 31) 0).addr.toNat % 8 = 0 ∧ isRegAddr (wr8 (Reg.seqStatus 11 31) 0).addr.toNat = true
    ∧ (wPort (inMode 2)).blk.debugRefuses (wr8 (Reg.seqStatus 11 31) 0).path true = false ∧ (wPort (inMode 2)).blk.poweredOff
    (wr8 (Reg.seqStatus 11 31) 0).addr.toNat true = true := by decide +kernel
theorem test_acc_hole : (wPort id).blk.pathOpen Path.control = true ∧ 8 = 8 ∧ 139638296543224 % 8 = 0 ∧ isRegAddr
    139638296543224 = true ∧ (wPort id).blk.debugRefuses Path.control true = false ∧ (wPort id).blk.poweredOff 139638296543224
    true = false ∧ regOfAddr 139638296543224 = none := by decide +kernel
/-! TimeEventAndScheduleAccesses -/
theorem test_now_read : (wPort id).blk.pathOpen Path.cxl = true ∧ (wPort id).blk.debugRefuses Path.cxl true = false ∧ (wPort
    id).blk.debugRefuses Path.cxl false = false ∧ stStandby < (wPort id).blk.dstate := by decide +kernel
theorem test_ev_read : (wPort (evPort (2 ^ 32 - 1) 7)).blk.pathOpen Path.management = true ∧ (wPort (evPort (2 ^ 32 - 1)
    7)).blk.debugRefuses Path.management true = false ∧ (wPort (evPort (2 ^ 32 - 1) 7)).blk.debugRefuses Path.management false =
    false ∧ stStandby < (wPort (evPort (2 ^ 32 - 1) 7)).blk.dstate ∧ (wPort (evPort (2 ^ 32 - 1) 7)).blk.rd (CTL_EV_RD.index 3)
    ≠ (wPort (evPort (2 ^ 32 - 1) 7)).blk.rd CTL_EV_WR.index ∧ ((wPort (evPort (2 ^ 32 - 1) 7)).blk.rd CTL_EV_WR.index + 2 ^ 32
    - (wPort (evPort (2 ^ 32 - 1) 7)).blk.rd (CTL_EV_RD.index 3)) % 2 ^ 32 ≤ 4096 := by decide +kernel
theorem test_ev_read0 : (wPort (evPort 4095 8191)).blk.pathOpen Path.management = true ∧ (wPort (evPort 4095
    8191)).blk.debugRefuses Path.management true = false ∧ (wPort (evPort 4095 8191)).blk.debugRefuses Path.management false =
    false ∧ stStandby < (wPort (evPort 4095 8191)).blk.dstate ∧ (wPort (evPort 4095 8191)).blk.rd (CTL_EV_RD.index 3) ≠ (wPort
    (evPort 4095 8191)).blk.rd CTL_EV_WR.index ∧ ((wPort (evPort 4095 8191)).blk.rd CTL_EV_WR.index + 2 ^ 32 - (wPort (evPort
    4095 8191)).blk.rd (CTL_EV_RD.index 3)) % 2 ^ 32 ≤ 4096 := by decide +kernel
theorem test_sched_ok : (wPort (schedAt 900100)).blk.pathOpen Path.control = true ∧ (wPort (schedAt 900100)).blk.debugRefuses
    Path.control true = false ∧ (wPort (schedAt 900100)).blk.debugRefuses Path.control false = false ∧ stStandby < (wPort
    (schedAt 900100)).blk.dstate ∧ (wPort (schedAt 900100)).blk.on (MTC_SCHED_ACT.valid 31) = false ∧ bit 38654705927 8 = true ∧
    1 ≤ bits 38654705927 0 8 ∧ bits 38654705927 0 8 ≤ 7 ∧ stReady ≤ (wPort (schedAt 900100)).blk.dstate ∧ (wPort (schedAt
    900100)).blk.dstate ≤ stDrain ∧ (wPort (schedAt 900100)).blk.now + 100 ≤ (wPort (schedAt 900100)).blk.rd
    (MTC_SCHED_TIME.instant 31) := by decide +kernel
theorem test_sched_late : (wPort (schedAt 900099)).blk.pathOpen Path.control = true ∧ (wPort (schedAt 900099)).blk.debugRefuses
    Path.control true = false ∧ (wPort (schedAt 900099)).blk.debugRefuses Path.control false = false ∧ stStandby < (wPort
    (schedAt 900099)).blk.dstate ∧ (wPort (schedAt 900099)).blk.on (MTC_SCHED_ACT.valid 31) = false ∧ bit 38654705927 8 = true ∧
    1 ≤ bits 38654705927 0 8 ∧ bits 38654705927 0 8 ≤ 7 ∧ (wPort (schedAt 900099)).blk.rd (MTC_SCHED_TIME.instant 31) < (wPort
    (schedAt 900099)).blk.now + 100 := by decide +kernel
theorem test_sched_late_epoch : (wPort (schedAt 900099)).blk.pathOpen Path.control = true ∧ (wPort (schedAt
    900099)).blk.debugRefuses Path.control true = false ∧ (wPort (schedAt 900099)).blk.debugRefuses Path.control false = false ∧
    stStandby < (wPort (schedAt 900099)).blk.dstate ∧ (wPort (schedAt 900099)).blk.on (MTC_SCHED_ACT.valid 31) = false ∧ bit
    38654705922 8 = true ∧ 1 ≤ bits 38654705922 0 8 ∧ bits 38654705922 0 8 ≤ 7 ∧ (wPort (schedAt 900099)).blk.rd
    (MTC_SCHED_TIME.instant 31) < (wPort (schedAt 900099)).blk.now + 100 := by decide +kernel
/-! WritesThatActAtOnce -/
theorem test_entry_write : x_entry_write0.blk.pathOpen Path.control = true ∧ x_entry_write0.blk.debugRefuses Path.control true =
    false ∧ x_entry_write0.blk.debugRefuses Path.control false = false ∧ stStandby < x_entry_write0.blk.dstate ∧
    x_entry_write0.blk.locked = false := by decide +kernel
theorem test_perf_core : (wPort id).blk.pathOpen Path.control = true ∧ (wPort id).blk.debugRefuses Path.control true = false ∧
    (wPort id).blk.debugRefuses Path.control false = false ∧ stStandby < (wPort id).blk.dstate ∧ 1 ≤ ↑lastCore.cd + 1 ∧
    ↑lastCore.cd + 1 ≤ 12 → (wPort id).blk.cdOff = false := by decide +kernel
theorem test_perf_die : 1 ≤ 18 ∧ 18 ≤ 18 ∧ x_perf_die0.blk.pathOpen Path.control = true ∧ x_perf_die0.blk.debugRefuses
    Path.control true = false ∧ x_perf_die0.blk.debugRefuses Path.control false = false ∧ stStandby < x_perf_die0.blk.dstate ∧ 1
    ≤ 18 ∧ 18 ≤ 12 → x_perf_die0.blk.cdOff = false ∧ x_perf_die0.blk.dstate ≠ stRun := by decide +kernel
theorem test_perf_sel : 1 ≤ 18 ∧ 18 ≤ 18 ∧ x_perf_sel0.blk.pathOpen Path.control = true ∧ x_perf_sel0.blk.debugRefuses
    Path.control true = false ∧ x_perf_sel0.blk.debugRefuses Path.control false = false ∧ stStandby < x_perf_sel0.blk.dstate ∧ 1
    ≤ 18 ∧ 18 ≤ 12 → x_perf_sel0.blk.cdOff = false ∧ bits 263 0 16 ≠ bits (x_perf_sel0.blk.reg (Reg.perfSel 18 7)) 0 16 := by
    decide +kernel
theorem test_shadow : (wPort id).blk.pathOpen Path.control = true ∧ (wPort id).blk.debugRefuses Path.control true = false ∧
    (wPort id).blk.debugRefuses Path.control false = false ∧ stStandby < (wPort id).blk.dstate := by decide +kernel
theorem test_relock : x_relock0.blk.pathOpen Path.control = true ∧ x_relock0.blk.debugRefuses Path.control true = false ∧
    x_relock0.blk.debugRefuses Path.control false = false ∧ stStandby < x_relock0.blk.dstate := by decide +kernel
theorem test_inj_arm : (wPort (maint 90000)).blk.pathOpen Path.control = true ∧ (wPort (maint 90000)).blk.debugRefuses
    Path.control true = false ∧ (wPort (maint 90000)).blk.debugRefuses Path.control false = false ∧ stStandby < (wPort (maint
    90000)).blk.dstate ∧ 1 ≤ 12 ∧ 12 ≤ 12 → (wPort (maint 90000)).blk.cdOff = false ∧ (wPort (maint 90000)).blk.ras.maintUntil =
    some 90000 := by decide +kernel
/-! PullRingStartsItsDescriptor -/
theorem test_ring_start : (wPort (pullBlk 1023 1023 0 pullX)).blk.pathOpen Path.control = true ∧ (wPort (pullBlk 1023 1023 0
    pullX)).blk.debugRefuses Path.control true = false ∧ (wPort (pullBlk 1023 1023 0 pullX)).blk.debugRefuses Path.control false
    = false ∧ stStandby < (wPort (pullBlk 1023 1023 0 pullX)).blk.dstate ∧ (wPort (pullBlk 1023 1023 0 pullX)).blk.err = [] ∧
    (wPort (pullBlk 1023 1023 0 pullX)).blk.ras.deadBlocks = [] ∧ (wPort (pullBlk 1023 1023 0 pullX)).blk.ras.injects = [] ∧
    (wPort (pullBlk 1023 1023 0 pullX)).blk.cxlClosed = false ∧ (wPort (pullBlk 1023 1023 0 pullX)).blk.host.pullBusy = none ∧
    (wPort (pullBlk 1023 1023 0 pullX)).blk.place ((wPort (pullBlk 1023 1023 0 pullX)).blk.rd CXL_PULL_BASE.addr + 32 * (wPort
    (pullBlk 1023 1023 0 pullX)).blk.rd CXL_PULL_IDX.tail) = some (4096 + 32 * 1023) ∧ pullX = BitVec.toNat ((wPort (pullBlk
    1023 1023 0 pullX)).blk.rawWord (4096 + 32 * 1023)).fst ∧ bit pullX 0 = false ∧ 0 ≠ (wPort (pullBlk 1023 1023 0
    pullX)).blk.rd CXL_PULL_IDX.tail ∧ (wPort (pullBlk 1023 1023 0 pullX)).blk.on CXL_PULL_IDX.stopped = false := by
    decide +kernel
theorem test_ring_resume : (wPort (pullBlk 1023 0 1 pullX)).blk.pathOpen Path.control = true ∧ (wPort (pullBlk 1023 0 1
    pullX)).blk.debugRefuses Path.control true = false ∧ (wPort (pullBlk 1023 0 1 pullX)).blk.debugRefuses Path.control false =
    false ∧ stStandby < (wPort (pullBlk 1023 0 1 pullX)).blk.dstate ∧ (wPort (pullBlk 1023 0 1 pullX)).blk.err = [] ∧ (wPort
    (pullBlk 1023 0 1 pullX)).blk.ras.deadBlocks = [] ∧ (wPort (pullBlk 1023 0 1 pullX)).blk.ras.injects = [] ∧ (wPort (pullBlk
    1023 0 1 pullX)).blk.cxlClosed = false ∧ (wPort (pullBlk 1023 0 1 pullX)).blk.host.pullBusy = none ∧ (wPort (pullBlk 1023 0
    1 pullX)).blk.place ((wPort (pullBlk 1023 0 1 pullX)).blk.rd CXL_PULL_BASE.addr + 32 * (wPort (pullBlk 1023 0 1
    pullX)).blk.rd CXL_PULL_IDX.tail) = some (4096 + 32 * 1023) ∧ pullX = BitVec.toNat ((wPort (pullBlk 1023 0 1
    pullX)).blk.rawWord (4096 + 32 * 1023)).fst ∧ bit pullX 0 = false ∧ (wPort (pullBlk 1023 0 1 pullX)).blk.rd
    CXL_PULL_IDX.head ≠ (wPort (pullBlk 1023 0 1 pullX)).blk.rd CXL_PULL_IDX.tail := by decide +kernel
/-! MemoryRequestsUseTheirWindows -/
theorem test_refresh_wait : (stIn stReady (atNs (1952 * 9 + 15 * 122))).blk.coll.runs = [] ∧ (∀ (r : MemReq), r ∈ Sp.get []
    (stIn stReady (atNs (1952 * 9 + 15 * 122))).blk.memReqs 127 → (stIn stReady (atNs (1952 * 9 + 15 * 122))).blk.reqWindow 127
    r = false ∨ (stIn stReady (atNs (1952 * 9 + 15 * 122))).blk.refreshWait 127 r.words = true) := by decide +kernel
theorem test_window_wait : (idleAt 5500 [hostReq true 8160]).blk.coll.runs = [] ∧ (∀ (r : MemReq), r ∈ Sp.get [] (idleAt 5500
    [hostReq true 8160]).blk.memReqs 127 → (idleAt 5500 [hostReq true 8160]).blk.reqWindow 127 r = false ∨ (idleAt 5500 [hostReq
    true 8160]).blk.refreshWait 127 r.words = true) := by decide +kernel
theorem test_host_write : (idleAt 6500 [hostReq true 8160]).blk.coll.runs = [] ∧ (idleAt 6500 [hostReq true
    8160]).blk.refreshWait 127 (hostReq true 8160).words = false ∧ (idleAt 6500 [hostReq true 8160]).blk.err = [] ∧ (idleAt 6500
    [hostReq true 8160]).blk.ras.deadBlocks = [] ∧ (idleAt 6500 [hostReq true 8160]).blk.ras.injects = [] ∧ List.find? (fun r =>
    (idleAt 6500 [hostReq true 8160]).blk.reqWindow 127 r) (Sp.get [] (idleAt 6500 [hostReq true 8160]).blk.memReqs 127) = some
    (hostReq true 8160) ∧ (hostReq true 8160).serves = MemFor.host ∧ (hostReq true 8160).write = true ∧ 32 ∣ (hostReq true
    8160).addr ∧ (∀ (w : MWord), w ∈ (hostReq true 8160).data → w.poison = false) := by decide +kernel
theorem test_host_read : (idleAt 6500 [hostReq false 8160]).blk.coll.runs = [] ∧ (idleAt 6500 [hostReq false
    8160]).blk.refreshWait 127 (hostReq false 8160).words = false ∧ (idleAt 6500 [hostReq false 8160]).blk.err = [] ∧ (idleAt
    6500 [hostReq false 8160]).blk.ras.deadBlocks = [] ∧ (idleAt 6500 [hostReq false 8160]).blk.ras.injects = [] ∧ List.find?
    (fun r => (idleAt 6500 [hostReq false 8160]).blk.reqWindow 127 r) (Sp.get [] (idleAt 6500 [hostReq false 8160]).blk.memReqs
    127) = some (hostReq false 8160) ∧ (hostReq false 8160).serves = MemFor.host ∧ (hostReq false 8160).write = false ∧ (hostReq
    false 8160).words = 1 := by decide +kernel
theorem test_win_close : wExpire.blk.run.job = some y_win_close0 ∧ y_win_close0.windows = [win127] ∧ win127.first ≤ 127 ∧ 127 <
    win127.first + win127.count ∧ wExpire.blk.winStart win127 + win127.len ≤ wExpire.blk.now + 40 ∧ wExpire.blk.now <
    wExpire.blk.winStart win127 + win127.len + 40 ∧ 40 < win127.len ∧ Sp.get [] wExpire.blk.memReqs 127 = [gReq] ∧ gReq.owner =
    ownGuest ∧ win127.owner = ownGuest ∧ gReq.serves = MemFor.guest ∧ wExpire.blk.vote.frozen = false := by decide +kernel
theorem test_refresh : x_refresh0.blk.now % 1952 = 127 % 16 * 122 ∧ x_refresh0.blk.on (CHAN_STATUS.self_refresh (127 / 32)
    (x_refresh0.blk.rd (CHAN_MAP.phys (127 / 32) (127 % 32)))) = false ∧ x_refresh0.blk.on (PERF_CTRL.freeze (13 + 127 / 32)) =
    false := by decide +kernel
/-! ChannelsMigrateAndWordsAreRepaired -/
theorem test_mig_start : (wPort id).blk.pathOpen Path.control = true ∧ (wPort id).blk.debugRefuses Path.control true = false ∧
    (wPort id).blk.debugRefuses Path.control false = false ∧ stStandby < (wPort id).blk.dstate ∧ (wPort id).blk.on
    (CHAN_MIGRATE.active 3) = false ∧ bits (31 + 33 * 32 + 2 ^ 63 : BitVec 64).toNat 5 6 < 34 ∧ (wPort id).blk.rd (CHAN_MAP.phys
    3 (bits (31 + 33 * 32 + 2 ^ 63 : BitVec 64).toNat 0 5)) < 34 ∧ (wPort id).blk.rd (CHAN_MAP.phys 3 (bits (31 + 33 * 32 + 2 ^
    63 : BitVec 64).toNat 0 5)) ≠ bits (31 + 33 * 32 + 2 ^ 63 : BitVec 64).toNat 5 6 ∧ (wPort id).blk.rd (CHAN_STATUS.state 3
    (bits (31 + 33 * 32 + 2 ^ 63 : BitVec 64).toNat 5 6)) = 1 := by decide +kernel
theorem test_mig_done : (wMig.blk.md 3).migrating = some (31, 31, 33) ∧ wMig.blk.mayCopy (32 * 3 + 31) = true ∧ 31 < 32 ∧ 31 <
    34 ∧ 33 < 34 ∧ 31 ≠ 33 := by decide +kernel
theorem test_repair : (wRepair.blk.md 3).repair = [96] ∧ 32 ∣ 96 ∧ wRepair.blk.mayCopy (chanOf 96) = true ∧ classify (Sp.get 0
    wRepair.blk.err 96) = WClass.correctable repairAt.fst repairAt.snd := by decide +kernel
/-! NearCacheHitsFillsAndFlushes -/
theorem test_nc_hit : x_nc_hit0.blk.on (NCACHE_CTRL.enable 11) = true ∧ 4 = 4 → x_nc_hit0.blk.lookupOpen 11 = true ∧ (∃ l, l ∈
    (x_nc_hit0.blk.nc 11).lines ∧ l.line = 4351 / 256) := by decide +kernel
theorem test_nc_miss : 4 = 4 → x_nc_miss0.blk.lookupOpen 11 = true ∧ (∀ (l : NcLine), l ∈ (x_nc_miss0.blk.nc 11).lines → l.line
    ≠ 4352 / 256) := by decide +kernel
theorem test_nc_closed : (ncOn (fun n => { lines := [ncLine], misses := n.misses, served := n.served, clock := n.clock, flushAtAnchor := n.flushAtAnchor })
    stRun).blk.lookupOpen 11 = false := by decide +kernel
theorem test_nc_off : 0 = 4 → (stIn stRun fun b => (b.wr (NCACHE_CTRL.enable 11) 0).updNc 11 fun n => { lines := [ncLine], misses := n.misses, served := n.served, clock := n.clock, flushAtAnchor := n.flushAtAnchor }).blk.lookupOpen
    11 = true ∧ (stIn stRun fun b => (b.wr (NCACHE_CTRL.enable 11) 0).updNc 11 fun n => { lines := [ncLine], misses := n.misses, served := n.served, clock := n.clock, flushAtAnchor := n.flushAtAnchor }).blk.on
    (NCACHE_CTRL.enable 11) = false := by decide +kernel
theorem test_nc_fill : x_nc_fill0.blk.err = [] ∧ x_nc_fill0.blk.ras.deadBlocks = [] ∧ x_nc_fill0.blk.ras.injects = [] ∧
    x_nc_fill0.blk.on (NCACHE_CTRL.enable 11) = true ∧ List.find? (fun m => decide ((x_nc_fill0.blk.region
    (x_nc_fill0.blk.lineRegion m.line)).inFlight = 0)) (x_nc_fill0.blk.nc 11).misses = some { line := 16, ports := [0, 4] } ∧ 16
    = 16 ∧ x_nc_fill0.blk.fillOpen 11 16 = true ∧ x_nc_fill0.blk.placeRun (16 * 256) 8 = some 4096 ∧ (List.filter (fun l =>
    decide (l.line % 2048 = 16 % 2048)) (x_nc_fill0.blk.nc 11).lines).length < 16 := by decide +kernel
theorem test_nc_flush : x_nc_flush0.blk.pathOpen Path.control = true ∧ x_nc_flush0.blk.debugRefuses Path.control true = false ∧
    x_nc_flush0.blk.debugRefuses Path.control false = false ∧ stStandby < x_nc_flush0.blk.dstate ∧ 1 ≤ 11 + 1 ∧ 11 + 1 ≤ 12 →
    x_nc_flush0.blk.cdOff = false := by decide +kernel
theorem test_nc_flush_r : x_nc_flush_r0.blk.pathOpen Path.control = true ∧ x_nc_flush_r0.blk.debugRefuses Path.control true =
    false ∧ x_nc_flush_r0.blk.debugRefuses Path.control false = false ∧ stStandby < x_nc_flush_r0.blk.dstate ∧ 1 ≤ 11 + 1 ∧ 11 +
    1 ≤ 12 → x_nc_flush_r0.blk.cdOff = false := by decide +kernel
/-! GatherEnginesDeliverElements -/
theorem test_gstart : wGstart.blk.issuing (coreKey issN.core) = true ∧ (wGstart.blk.fireFetch (coreKey issN.core)).fst = false ∧
    wGstart.blk.guardOn (coreKey issN.core) issN.guard = true ∧ wGstart.blk.err = [] ∧ wGstart.blk.ras.deadBlocks = [] ∧
    wGstart.blk.ras.injects = [] ∧ (∃ key, wGstart.blk.place (wGstart.blk.sreg (coreKey issN.core) 3 / 32 * 32) = some key ∧
    gDesc 0 2 = BitVec.toNat (wGstart.blk.rawWord key).fst) ∧ gCount (gDesc 0 2) ≠ 0 ∧ (wGstart.blk.gathE (4 * (coreKey
    issN.core / 32) + gEngine (gDesc 0 2))).fenced = false ∧ (wGstart.blk.gathE (4 * (coreKey issN.core / 32) + gEngine (gDesc 0
    2))).draining = false ∧ (wGstart.blk.gathE (4 * (coreKey issN.core / 32) + gEngine (gDesc 0 2))).streams.length < 9 := by
    decide +kernel
theorem test_gissue : (playing9 (wStream (strm 1 2 0 0 []))).blk.err = [] ∧ (playing9 (wStream (strm 1 2 0 0
    []))).blk.ras.deadBlocks = [] ∧ (playing9 (wStream (strm 1 2 0 0 []))).blk.ras.injects = [] ∧ ((playing9 (wStream (strm 1 2
    0 0 []))).blk.gathE (4 * 11 + 3)).streams = [strm 1 2 0 0 []] ∧ gKind (BitVec.toNat (strm 1 2 0 0 []).desc) ≤ 1 ∧ (strm 1 2
    0 0 []).next < gCount (BitVec.toNat (strm 1 2 0 0 []).desc) ∧ (∀ (r : GathReq), r ∈ (strm 1 2 0 0 []).reqs → r.issued =
    true) ∧ freeSlot (strm 1 2 0 0 []).reqs = some 0 ∧ ((playing9 (wStream (strm 1 2 0 0 []))).blk.gathIndex (strm 1 2 0 0 [])
    (strm 1 2 0 0 []).next).fst ≠ 4294967295 ∧ ((playing9 (wStream (strm 1 2 0 0 []))).blk.gathIndex (strm 1 2 0 0 []) (strm 1 2
    0 0 []).next).fst < gLimit (BitVec.toNat (strm 1 2 0 0 []).desc) ∧ (∀ (r : GathReq), r ∈ (strm 1 2 0 0 []).reqs → r.elem ≠
    (strm 1 2 0 0 []).next) ∧ (List.filter (fun r => decide (r.bank = if gKind (BitVec.toNat (strm 1 2 0 0 []).desc) = 0 then
    chanOf (gBase (BitVec.toNat (strm 1 2 0 0 []).desc) + ((playing9 (wStream (strm 1 2 0 0 []))).blk.gathIndex (strm 1 2 0 0
    []) (strm 1 2 0 0 []).next).fst * gWords (BitVec.toNat (strm 1 2 0 0 []).desc) * 32) * 16 + bankOf (gBase (BitVec.toNat
    (strm 1 2 0 0 []).desc) + ((playing9 (wStream (strm 1 2 0 0 []))).blk.gathIndex (strm 1 2 0 0 []) (strm 1 2 0 0
    []).next).fst * gWords (BitVec.toNat (strm 1 2 0 0 []).desc) * 32) else 4096 + (gBase (BitVec.toNat (strm 1 2 0 0 []).desc) +
    ((playing9 (wStream (strm 1 2 0 0 []))).blk.gathIndex (strm 1 2 0 0 []) (strm 1 2 0 0 []).next).fst * gWords (BitVec.toNat
    (strm 1 2 0 0 []).desc) * 32) / 32 % 64)) (strm 1 2 0 0 []).reqs).length < (playing9 (wStream (strm 1 2 0 0
    []))).blk.gathQuota 11 (BitVec.toNat (strm 1 2 0 0 []).desc) := by decide +kernel
theorem test_gissue_mem : (playing9 (wStream (strm 0 3 1 0 [req0]))).blk.err = [] ∧ (playing9 (wStream (strm 0 3 1 0
    [req0]))).blk.ras.deadBlocks = [] ∧ (playing9 (wStream (strm 0 3 1 0 [req0]))).blk.ras.injects = [] ∧ ((playing9 (wStream
    (strm 0 3 1 0 [req0]))).blk.gathE (4 * 11 + 3)).streams = [strm 0 3 1 0 [req0]] ∧ gKind (BitVec.toNat (strm 0 3 1 0
    [req0]).desc) ≤ 1 ∧ (strm 0 3 1 0 [req0]).next < gCount (BitVec.toNat (strm 0 3 1 0 [req0]).desc) ∧ (∀ (r : GathReq), r ∈
    (strm 0 3 1 0 [req0]).reqs → r.issued = true) ∧ freeSlot (strm 0 3 1 0 [req0]).reqs = some 1 ∧ ((playing9 (wStream (strm 0 3
    1 0 [req0]))).blk.gathIndex (strm 0 3 1 0 [req0]) (strm 0 3 1 0 [req0]).next).fst ≠ 4294967295 ∧ ((playing9 (wStream (strm 0
    3 1 0 [req0]))).blk.gathIndex (strm 0 3 1 0 [req0]) (strm 0 3 1 0 [req0]).next).fst < gLimit (BitVec.toNat (strm 0 3 1 0
    [req0]).desc) ∧ (∀ (r : GathReq), r ∈ (strm 0 3 1 0 [req0]).reqs → r.elem ≠ (strm 0 3 1 0 [req0]).next) ∧ (List.filter (fun
    r => decide (r.bank = if gKind (BitVec.toNat (strm 0 3 1 0 [req0]).desc) = 0 then chanOf (gBase (BitVec.toNat (strm 0 3 1 0
    [req0]).desc) + ((playing9 (wStream (strm 0 3 1 0 [req0]))).blk.gathIndex (strm 0 3 1 0 [req0]) (strm 0 3 1 0
    [req0]).next).fst * gWords (BitVec.toNat (strm 0 3 1 0 [req0]).desc) * 32) * 16 + bankOf (gBase (BitVec.toNat (strm 0 3 1 0
    [req0]).desc) + ((playing9 (wStream (strm 0 3 1 0 [req0]))).blk.gathIndex (strm 0 3 1 0 [req0]) (strm 0 3 1 0
    [req0]).next).fst * gWords (BitVec.toNat (strm 0 3 1 0 [req0]).desc) * 32) else 4096 + (gBase (BitVec.toNat (strm 0 3 1 0
    [req0]).desc) + ((playing9 (wStream (strm 0 3 1 0 [req0]))).blk.gathIndex (strm 0 3 1 0 [req0]) (strm 0 3 1 0
    [req0]).next).fst * gWords (BitVec.toNat (strm 0 3 1 0 [req0]).desc) * 32) / 32 % 64)) (strm 0 3 1 0 [req0]).reqs).length <
    (playing9 (wStream (strm 0 3 1 0 [req0]))).blk.gathQuota 11 (BitVec.toNat (strm 0 3 1 0 [req0]).desc) := by decide +kernel
theorem test_gissue_held : (wStream (strm 1 2 0 0 [])).blk.err = [] ∧ (wStream (strm 1 2 0 0 [])).blk.ras.deadBlocks = [] ∧
    (wStream (strm 1 2 0 0 [])).blk.ras.injects = [] ∧ ((wStream (strm 1 2 0 0 [])).blk.gathE (4 * 11 + 3)).streams = [strm 1 2
    0 0 []] ∧ gKind (BitVec.toNat (strm 1 2 0 0 []).desc) ≤ 1 ∧ (strm 1 2 0 0 []).next < gCount (BitVec.toNat (strm 1 2 0 0
    []).desc) ∧ (∀ (r : GathReq), r ∈ (strm 1 2 0 0 []).reqs → r.issued = true) ∧ freeSlot (strm 1 2 0 0 []).reqs = some 0 ∧
    ((wStream (strm 1 2 0 0 [])).blk.gathIndex (strm 1 2 0 0 []) (strm 1 2 0 0 []).next).fst ≠ 4294967295 ∧ ((wStream (strm 1 2
    0 0 [])).blk.gathIndex (strm 1 2 0 0 []) (strm 1 2 0 0 []).next).fst < gLimit (BitVec.toNat (strm 1 2 0 0 []).desc) ∧ (∀ (r
    : GathReq), r ∈ (strm 1 2 0 0 []).reqs → r.elem ≠ (strm 1 2 0 0 []).next) ∧ (List.filter (fun r => decide (r.bank = if gKind
    (BitVec.toNat (strm 1 2 0 0 []).desc) = 0 then chanOf (gBase (BitVec.toNat (strm 1 2 0 0 []).desc) + ((wStream (strm 1 2 0 0
    [])).blk.gathIndex (strm 1 2 0 0 []) (strm 1 2 0 0 []).next).fst * gWords (BitVec.toNat (strm 1 2 0 0 []).desc) * 32) * 16 +
    bankOf (gBase (BitVec.toNat (strm 1 2 0 0 []).desc) + ((wStream (strm 1 2 0 0 [])).blk.gathIndex (strm 1 2 0 0 []) (strm 1 2
    0 0 []).next).fst * gWords (BitVec.toNat (strm 1 2 0 0 []).desc) * 32) else 4096 + (gBase (BitVec.toNat (strm 1 2 0 0
    []).desc) + ((wStream (strm 1 2 0 0 [])).blk.gathIndex (strm 1 2 0 0 []) (strm 1 2 0 0 []).next).fst * gWords (BitVec.toNat
    (strm 1 2 0 0 []).desc) * 32) / 32 % 64)) (strm 1 2 0 0 []).reqs).length < (wStream (strm 1 2 0 0 [])).blk.gathQuota 11
    (BitVec.toNat (strm 1 2 0 0 []).desc) := by decide +kernel
theorem test_gzero : (invalidIdx (wStream (strm 1 2 1 0 [req0]))).blk.err = [] ∧ (invalidIdx (wStream (strm 1 2 1 0
    [req0]))).blk.ras.deadBlocks = [] ∧ (invalidIdx (wStream (strm 1 2 1 0 [req0]))).blk.ras.injects = [] ∧ ((invalidIdx
    (wStream (strm 1 2 1 0 [req0]))).blk.gathE (4 * 11 + 3)).streams = [strm 1 2 1 0 [req0]] ∧ (strm 1 2 1 0 [req0]).next <
    gCount (BitVec.toNat (strm 1 2 1 0 [req0]).desc) ∧ (∀ (r : GathReq), r ∈ (strm 1 2 1 0 [req0]).reqs → r.issued = true ∧
    r.elem ≠ (strm 1 2 1 0 [req0]).next) ∧ ((invalidIdx (wStream (strm 1 2 1 0 [req0]))).blk.gathIndex (strm 1 2 1 0 [req0])
    (strm 1 2 1 0 [req0]).next).fst = 4294967295 ∧ gMask (BitVec.toNat (strm 1 2 1 0 [req0]).desc) = false ∧ 32 ∣ (invalidIdx
    (wStream (strm 1 2 1 0 [req0]))).blk.streamKey (strm 1 2 1 0 [req0]) (gDst (BitVec.toNat (strm 1 2 1 0 [req0]).desc) + (strm
    1 2 1 0 [req0]).next * gWords (BitVec.toNat (strm 1 2 1 0 [req0]).desc) * 32) := by decide +kernel
theorem test_gzero_last : (invalidIdx (wStream (strm 1 2 1 1 []))).blk.err = [] ∧ (invalidIdx (wStream (strm 1 2 1 1
    []))).blk.ras.deadBlocks = [] ∧ (invalidIdx (wStream (strm 1 2 1 1 []))).blk.ras.injects = [] ∧ ((invalidIdx (wStream (strm
    1 2 1 1 []))).blk.gathE (4 * 11 + 3)).streams = [strm 1 2 1 1 []] ∧ (strm 1 2 1 1 []).next < gCount (BitVec.toNat (strm 1 2
    1 1 []).desc) ∧ (∀ (r : GathReq), r ∈ (strm 1 2 1 1 []).reqs → r.issued = true ∧ r.elem ≠ (strm 1 2 1 1 []).next) ∧
    ((invalidIdx (wStream (strm 1 2 1 1 []))).blk.gathIndex (strm 1 2 1 1 []) (strm 1 2 1 1 []).next).fst = 4294967295 ∧ gMask
    (BitVec.toNat (strm 1 2 1 1 []).desc) = false ∧ 32 ∣ (invalidIdx (wStream (strm 1 2 1 1 []))).blk.streamKey (strm 1 2 1 1
    []) (gDst (BitVec.toNat (strm 1 2 1 1 []).desc) + (strm 1 2 1 1 []).next * gWords (BitVec.toNat (strm 1 2 1 1 []).desc) *
    32) := by decide +kernel
theorem test_gret : (wStream (strm 0 2 2 1 [gReq1 4096 0])).blk.err = [] ∧ (wStream (strm 0 2 2 1 [gReq1 4096
    0])).blk.ras.deadBlocks = [] ∧ (wStream (strm 0 2 2 1 [gReq1 4096 0])).blk.ras.injects = [] ∧ ((wStream (strm 0 2 2 1 [gReq1
    4096 0])).blk.gathE (4 * 11 + 3)).streams = [strm 0 2 2 1 [gReq1 4096 0]] ∧ gKind (BitVec.toNat (strm 0 2 2 1 [gReq1 4096
    0]).desc) ≠ 2 ∧ gMask (BitVec.toNat (strm 0 2 2 1 [gReq1 4096 0]).desc) = false ∧ List.find? (fun r => decide (r.elem = 1 ∧
    r.issued = true)) (strm 0 2 2 1 [gReq1 4096 0]).reqs = some (gReq1 4096 0) ∧ (wStream (strm 0 2 2 1 [gReq1 4096
    0])).blk.placeRun (gReq1 4096 0).addr (gWords (BitVec.toNat (strm 0 2 2 1 [gReq1 4096 0]).desc)) = some 4096 ∧ 32 ∣ 4096 ∧
    32 ∣ (wStream (strm 0 2 2 1 [gReq1 4096 0])).blk.streamKey (strm 0 2 2 1 [gReq1 4096 0]) (gDst (BitVec.toNat (strm 0 2 2 1
    [gReq1 4096 0]).desc) + 1 * gWords (BitVec.toNat (strm 0 2 2 1 [gReq1 4096 0]).desc) * 32) ∧ gCached (BitVec.toNat (strm 0 2
    2 1 [gReq1 4096 0]).desc) = true → (wStream (strm 0 2 2 1 [gReq1 4096 0])).blk.linesServed 11 3 (linesOf (gReq1 4096 0).addr
    (gWords (BitVec.toNat (strm 0 2 2 1 [gReq1 4096 0]).desc))) = true ∧ ∀ (z : Nat × Nat × Bool), z ∈ ((wStream (strm 0 2 2 1
    [gReq1 4096 0])).blk.nc 11).served → z.snd.snd = false := by decide +kernel
theorem test_gret_more : (wStream (strm 0 3 2 1 [gReq1 4096 0])).blk.err = [] ∧ (wStream (strm 0 3 2 1 [gReq1 4096
    0])).blk.ras.deadBlocks = [] ∧ (wStream (strm 0 3 2 1 [gReq1 4096 0])).blk.ras.injects = [] ∧ ((wStream (strm 0 3 2 1 [gReq1
    4096 0])).blk.gathE (4 * 11 + 3)).streams = [strm 0 3 2 1 [gReq1 4096 0]] ∧ gKind (BitVec.toNat (strm 0 3 2 1 [gReq1 4096
    0]).desc) ≠ 2 ∧ gMask (BitVec.toNat (strm 0 3 2 1 [gReq1 4096 0]).desc) = false ∧ List.find? (fun r => decide (r.elem = 1 ∧
    r.issued = true)) (strm 0 3 2 1 [gReq1 4096 0]).reqs = some (gReq1 4096 0) ∧ (wStream (strm 0 3 2 1 [gReq1 4096
    0])).blk.placeRun (gReq1 4096 0).addr (gWords (BitVec.toNat (strm 0 3 2 1 [gReq1 4096 0]).desc)) = some 4096 ∧ 32 ∣ 4096 ∧
    32 ∣ (wStream (strm 0 3 2 1 [gReq1 4096 0])).blk.streamKey (strm 0 3 2 1 [gReq1 4096 0]) (gDst (BitVec.toNat (strm 0 3 2 1
    [gReq1 4096 0]).desc) + 1 * gWords (BitVec.toNat (strm 0 3 2 1 [gReq1 4096 0]).desc) * 32) ∧ gCached (BitVec.toNat (strm 0 3
    2 1 [gReq1 4096 0]).desc) = true → (wStream (strm 0 3 2 1 [gReq1 4096 0])).blk.linesServed 11 3 (linesOf (gReq1 4096 0).addr
    (gWords (BitVec.toNat (strm 0 3 2 1 [gReq1 4096 0]).desc))) = true ∧ ∀ (z : Nat × Nat × Bool), z ∈ ((wStream (strm 0 3 2 1
    [gReq1 4096 0])).blk.nc 11).served → z.snd.snd = false := by decide +kernel
theorem test_gret_cached : (servedLine (wStream (cachedStrm [gReq1 4096 0]))).blk.err = [] ∧ (servedLine (wStream (cachedStrm
    [gReq1 4096 0]))).blk.ras.deadBlocks = [] ∧ (servedLine (wStream (cachedStrm [gReq1 4096 0]))).blk.ras.injects = [] ∧
    ((servedLine (wStream (cachedStrm [gReq1 4096 0]))).blk.gathE (4 * 11 + 3)).streams = [cachedStrm [gReq1 4096 0]] ∧ gKind
    (BitVec.toNat (cachedStrm [gReq1 4096 0]).desc) ≠ 2 ∧ gMask (BitVec.toNat (cachedStrm [gReq1 4096 0]).desc) = false ∧
    List.find? (fun r => decide (r.elem = 1 ∧ r.issued = true)) (cachedStrm [gReq1 4096 0]).reqs = some (gReq1 4096 0) ∧
    (servedLine (wStream (cachedStrm [gReq1 4096 0]))).blk.placeRun (gReq1 4096 0).addr (gWords (BitVec.toNat (cachedStrm [gReq1
    4096 0]).desc)) = some 4096 ∧ 32 ∣ 4096 ∧ 32 ∣ (servedLine (wStream (cachedStrm [gReq1 4096 0]))).blk.streamKey (cachedStrm
    [gReq1 4096 0]) (gDst (BitVec.toNat (cachedStrm [gReq1 4096 0]).desc) + 1 * gWords (BitVec.toNat (cachedStrm [gReq1 4096
    0]).desc) * 32) ∧ gCached (BitVec.toNat (cachedStrm [gReq1 4096 0]).desc) = true → (servedLine (wStream (cachedStrm [gReq1
    4096 0]))).blk.linesServed 11 3 (linesOf (gReq1 4096 0).addr (gWords (BitVec.toNat (cachedStrm [gReq1 4096 0]).desc))) =
    true ∧ ∀ (z : Nat × Nat × Bool), z ∈ ((servedLine (wStream (cachedStrm [gReq1 4096 0]))).blk.nc 11).served → z.snd.snd =
    false := by decide +kernel
theorem test_gremote : (wStream (strm 2 2 2 1 [gReq1 4096 0])).blk.ras.injects = [] ∧ ((wStream (strm 2 2 2 1 [gReq1 4096
    0])).blk.gathE (4 * 11 + 3)).streams = [strm 2 2 2 1 [gReq1 4096 0]] ∧ gKind (BitVec.toNat (strm 2 2 2 1 [gReq1 4096
    0]).desc) = 2 ∧ gMask (BitVec.toNat (strm 2 2 2 1 [gReq1 4096 0]).desc) = false ∧ (strm 2 2 2 1 [gReq1 4096 0]).core < 384 ∧
    (wStream (strm 2 2 2 1 [gReq1 4096 0])).blk.vote.frozen = false ∧ List.find? (fun r => decide (r.elem = 1 ∧ r.issued =
    true)) (strm 2 2 2 1 [gReq1 4096 0]).reqs = some (gReq1 4096 0) ∧ (gReq1 4096 0).issuedAt + (wStream (strm 2 2 2 1 [gReq1
    4096 0])).blk.rd (GATH_CTRL.remote_timeout_us 11) * 1000 ≤ (wStream (strm 2 2 2 1 [gReq1 4096 0])).blk.now ∧ 32 ∣ (wStream
    (strm 2 2 2 1 [gReq1 4096 0])).blk.streamKey (strm 2 2 2 1 [gReq1 4096 0]) (gDst (BitVec.toNat (strm 2 2 2 1 [gReq1 4096
    0]).desc) + 1 * gWords (BitVec.toNat (strm 2 2 2 1 [gReq1 4096 0]).desc) * 32) := by decide +kernel
/-! CollectivesStartAndReceive -/
theorem test_coll : wCollIss.blk.issuing (coreKey issN.core) = true ∧ (wCollIss.blk.fireFetch (coreKey issN.core)).fst = false ∧
    wCollIss.blk.guardOn (coreKey issN.core) issN.guard = true ∧ wCollIss.blk.err = [] ∧ wCollIss.blk.ras.deadBlocks = [] ∧
    wCollIss.blk.ras.injects = [] ∧ wCollIss.blk.stepList (wCollIss.blk.sreg (coreKey issN.core) 31 / 32 * 32) =
    wCollIss.blk.sreg (coreKey issN.core) 31 / 32 * 32 ∧ wCollIss.blk.placeRun (wCollIss.blk.sreg (coreKey issN.core) 31 / 32 *
    32) 2 = some 8192 ∧ 32 ∣ 8192 ∧ bits (BitVec.toNat (wCollIss.blk.rawWord 8192).fst) 0 4 < 5 ∧ wCollIss.blk.run? (bits
    (BitVec.toNat (wCollIss.blk.rawWord 8192).fst) 8 6) = none ∧ wCollIss.blk.pchanOf (bits (BitVec.toNat (wCollIss.blk.rawWord
    8192).fst) 8 6) = none := by decide +kernel
theorem test_coll_data : List.find? (fun y => decide (y.pkt = collPkt4 ∧ (fun b y => b.linkOut y.ld) (wCollRun (bcast 20)
    collPkt4).blk y = true)) (wCollRun (bcast 20) collPkt4).blk.inbox = some (inPkt collPkt4) ∧ hMark (BitVec.toNat
    collPkt4.hdr) = false ∧ (wCollRun (bcast 20) collPkt4).blk.err = [] ∧ (wCollRun (bcast 20) collPkt4).blk.ras.deadBlocks = []
    ∧ (wCollRun (bcast 20) collPkt4).blk.ras.injects = [] ∧ 0 < 2 ∧ (wCollRun (bcast 20) collPkt4).blk.run? (bcastRun (bcast
    20)).lchan = some (bcastRun (bcast 20)) ∧ (bcastRun (bcast 20)).suspended = false ∧ (bcastRun (bcast 20)).op = 3 ∧ (wCollRun
    (bcast 20) collPkt4).blk.runAxes (bcastRun (bcast 20)) = [0] ∧ coordAt ((wCollRun (bcast 20) collPkt4).blk.coord 0) 0 ≠
    (bcastRun (bcast 20)).root ∧ (bcastRun (bcast 20)).srcFmt = 0 ∧ (bcastRun (bcast 20)).srcLayout = 0 ∧ (bcastRun (bcast
    20)).count ≠ 0 ∧ (bcastRun (bcast 20)).started = true ∧ (bcastRun (bcast 20)).held = [] ∧ (wCollRun (bcast 20)
    collPkt4).blk.collOpen (bcastRun (bcast 20)) = true ∧ hType (BitVec.toNat collPkt4.hdr) = 4 ∧ hCollId (BitVec.toNat
    collPkt4.hdr) = (bcastRun (bcast 20)).lchan + (bcastRun (bcast 20)).invocation % 1024 * 64 ∧ hChunk (BitVec.toNat
    collPkt4.hdr) = 0 ∧ (∀ (w : MWord), w ∈ collPkt4.payload → w.poison = false) ∧ (wCollRun (bcast 20) collPkt4).blk.place
    (bcastRun (bcast 20)).dstAddr = some (2 ^ 20) ∧ hDev (BitVec.toNat collPkt4.hdr) < 2 ^ 47 := by decide +kernel
theorem test_coll_signal : List.find? (fun y => decide (y.pkt = collPkt5 ∧ (fun b y => b.linkOut y.ld) (wCollRun (bcast 20)
    collPkt5).blk y = true)) (wCollRun (bcast 20) collPkt5).blk.inbox = some (inPkt collPkt5) ∧ hMark (BitVec.toNat
    collPkt5.hdr) = false ∧ (wCollRun (bcast 20) collPkt5).blk.ras.injects = [] ∧ 1 < 2 ∧ (wCollRun (bcast 20)
    collPkt5).blk.run? (bcastRun (bcast 20)).lchan = some (bcastRun (bcast 20)) ∧ (bcastRun (bcast 20)).suspended = false ∧
    (bcastRun (bcast 20)).op = 3 ∧ (wCollRun (bcast 20) collPkt5).blk.runAxes (bcastRun (bcast 20)) = [0] ∧ coordAt ((wCollRun
    (bcast 20) collPkt5).blk.coord 0) 0 ≠ (bcastRun (bcast 20)).root ∧ (bcastRun (bcast 20)).srcFmt = 0 ∧ (bcastRun (bcast
    20)).srcLayout = 0 ∧ (bcastRun (bcast 20)).count ≠ 0 ∧ (bcastRun (bcast 20)).started = true ∧ (bcastRun (bcast 20)).held =
    [] ∧ (wCollRun (bcast 20) collPkt5).blk.collOpen (bcastRun (bcast 20)) = true ∧ hType (BitVec.toNat collPkt5.hdr) = 5 ∧
    hCollId (BitVec.toNat collPkt5.hdr) = (bcastRun (bcast 20)).lchan + (bcastRun (bcast 20)).invocation % 1024 * 64 ∧ hChunk
    (BitVec.toNat collPkt5.hdr) = 1 ∧ collPkt5.payload = [{ data := 2, poison := false }] := by decide +kernel
/-! CollectivesCompleteOrFail -/
theorem test_coll_done : (wCollRun (bcast 20 - 2 ^ 4) collPkt4).blk.on (COLL_CHAN.bound 15) = true ∧ (wCollRun (bcast 20 - 2 ^
    4) collPkt4).blk.ras.injects = [] ∧ (wCollRun (bcast 20 - 2 ^ 4) collPkt4).blk.run? ((wCollRun (bcast 20 - 2 ^ 4)
    collPkt4).blk.rd (COLL_CHAN.logical 15)) = some (bcastRun (bcast 20 - 2 ^ 4)) ∧ (bcastRun (bcast 20 - 2 ^ 4)).lchan =
    (wCollRun (bcast 20 - 2 ^ 4) collPkt4).blk.rd (COLL_CHAN.logical 15) ∧ (wCollRun (bcast 20 - 2 ^ 4) collPkt4).blk.pchanOf
    (bcastRun (bcast 20 - 2 ^ 4)).lchan = some 15 ∧ (wCollRun (bcast 20 - 2 ^ 4) collPkt4).blk.place (bcastRun (bcast 20 - 2 ^
    4)).statusAddr = some (2 ^ 21 + 32) ∧ (wCollRun (bcast 20 - 2 ^ 4) collPkt4).blk.ras.deadBlocks = [] ∧ ((wCollRun (bcast 20
    - 2 ^ 4) collPkt4).blk.core (bcastRun (bcast 20 - 2 ^ 4)).core).waitq = none ∧ (bcastRun (bcast 20 - 2 ^ 4)).core < 384 ∧
    (wCollRun (bcast 20 - 2 ^ 4) collPkt4).blk.collDone (bcastRun (bcast 20 - 2 ^ 4)) = true ∧ (bcastRun (bcast 20 - 2 ^
    4)).suspended = false := by decide +kernel
theorem test_coll_late : (wCollRun (bcast 20) collPkt4).blk.on (COLL_CHAN.bound 15) = true ∧ (wCollRun (bcast 20)
    collPkt4).blk.ras.injects = [] ∧ (wCollRun (bcast 20) collPkt4).blk.run? ((wCollRun (bcast 20) collPkt4).blk.rd
    (COLL_CHAN.logical 15)) = some (bcastRun (bcast 20)) ∧ (bcastRun (bcast 20)).lchan = (wCollRun (bcast 20) collPkt4).blk.rd
    (COLL_CHAN.logical 15) ∧ (wCollRun (bcast 20) collPkt4).blk.pchanOf (bcastRun (bcast 20)).lchan = some 15 ∧ (wCollRun (bcast
    20) collPkt4).blk.place (bcastRun (bcast 20)).statusAddr = some (2 ^ 21 + 32) ∧ (wCollRun (bcast 20)
    collPkt4).blk.ras.deadBlocks = [] ∧ ((wCollRun (bcast 20) collPkt4).blk.core (bcastRun (bcast 20)).core).waitq = none ∧
    (bcastRun (bcast 20)).core < 384 ∧ (wCollRun (bcast 20) collPkt4).blk.collDone (bcastRun (bcast 20)) = false ∧ (bcastRun
    (bcast 20)).anchorsLeft = 0 ∧ (wCollRun (bcast 20) collPkt4).blk.vote.frozen = false := by decide +kernel
/-! PowerAndResetsMoveTheModule -/
theorem test_power_input_good : wOff.blk.dstate = stOff := by decide +kernel
theorem test_hold_release : State.reset.blk.dstate = stStandby ∧ State.reset.blk.rst.coldHeld = false ∧
    State.reset.blk.rst.tripHold = false := by decide +kernel
theorem test_cold_reset : (wMem 7).blk.dstate ≠ stOff := by decide +kernel
theorem test_cold_release : wColdHeld.blk.dstate = stStandby ∧ wColdHeld.blk.rst.tripHold = false ∧ wColdHeld.blk.rst.holdN =
    false := by decide +kernel
theorem test_trip_clear : wTrip.blk.dstate = stStandby ∧ wTrip.blk.rst.tripHold = true ∧ wTrip.blk.rst.coldHeld = false ∧
    wTrip.blk.rst.holdN = false ∧ (∀ (q : SensorPair), q ∈ cool.pairs → q.a < 8 * (↑(wTrip.blk.rd PWR_THERM_CFG.trip_c) -
    ↑(wTrip.blk.rd PWR_THERM_CFG.hyst_c)) ∧ q.b < 8 * (↑(wTrip.blk.rd PWR_THERM_CFG.trip_c) - ↑(wTrip.blk.rd
    PWR_THERM_CFG.hyst_c))) := by decide +kernel
theorem test_warm_reset : stBoot ≤ (wMem 9).blk.dstate ∧ (wMem 9).blk.rst.coldHeld = false := by decide +kernel
theorem test_watchdog_pin : stBoot ≤ (wMem 7).blk.dstate ∧ (wMem 7).blk.rst.coldHeld = false := by decide +kernel
theorem test_ctl_fatal : stBoot ≤ (wMem 7).blk.dstate ∧ (wMem 7).blk.rst.coldHeld = false := by decide +kernel
/-! ThermalLevelsAndTheTrip -/
theorem test_thermal_quiet : wReady.blk.dstate ≠ stOff ∧ (oneReading 300 200 900).pairs = [{ die := 3, pair := 1, a := 300, b := 308 }]
    ∧ wReady.blk.ras.injects = [] ∧ ((300 : Int) - 308).natAbs ≤ 40 ∧ (oneReading 300 200 900).regFault = false ∧ max (300 :
    Int) 308 < 8 * ↑(wReady.blk.rd PWR_THERM_CFG.trip_c) ∧ wReady.blk.power.levels = [] := by decide +kernel
theorem test_thermal_one : wReady.blk.dstate ≠ stOff ∧ (oneReading 300 401 900).pairs = [{ die := 3, pair := 1, a := 300, b := 308 }]
    ∧ wReady.blk.ras.injects = [] ∧ ((300 : Int) - 308).natAbs ≤ 40 ∧ (oneReading 300 401 900).regFault = false ∧ max (300 :
    Int) 308 < 8 * ↑(wReady.blk.rd PWR_THERM_CFG.trip_c) ∧ wReady.blk.power.levels = [] := by decide +kernel
theorem test_thermal_hot : wReady.blk.dstate ≠ stOff ∧ (oneReading 770 200 900).pairs = [{ die := 3, pair := 1, a := 770, b := 778 }]
    ∧ wReady.blk.ras.injects = [] ∧ ((770 : Int) - 778).natAbs ≤ 40 ∧ (oneReading 770 200 900).regFault = false ∧ max (770 :
    Int) 778 < 8 * ↑(wReady.blk.rd PWR_THERM_CFG.trip_c) ∧ wReady.blk.power.levels = [] := by decide +kernel
theorem test_thermal_flow : wReady.blk.dstate ≠ stOff ∧ (oneReading (-80) 200 300).pairs = [{ die := 3, pair := 1, a := -80, b := -72 }]
    ∧ wReady.blk.ras.injects = [] ∧ ((-80 : Int) - -72).natAbs ≤ 40 ∧ (oneReading (-80) 200 300).regFault = false ∧ max (-80 :
    Int) (-72) < 8 * ↑(wReady.blk.rd PWR_THERM_CFG.trip_c) ∧ wReady.blk.power.levels = [] := by decide +kernel
theorem test_thermal_trip : wReady.blk.dstate = stReady ∧ wReady.blk.power.tripAt = none := by decide +kernel
theorem test_trip_settle : wTripped.blk.power.tripAt = some 1000000 ∧ 1000000 + 1000000 ≤ wTripped.blk.now := by decide +kernel
theorem test_trip_settle_boot : wTrippedBoot.blk.power.tripAt = some 1000000 ∧ 1000000 + 1000000 ≤ wTrippedBoot.blk.now := by
    decide +kernel
/-! PowerCalibrationAndRails -/
theorem test_calibration : wRun.blk.run.job = some oneJob ∧ wRun.blk.dstate = stRun ∧ wRun.blk.predicted oneJob (wRun.blk.now -
    10000000) wRun.blk.now ≠ 0 := by decide +kernel
theorem test_avs_up : -1 < 3 ∧ wAvs.blk.rd (PWR_AVS.vout_mv 2) + 5 ≤ 850 := by decide +kernel
theorem test_avs_down : 3 ≤ 5 ∧ Sp.get 0 wAvs.blk.power.avsDown 2 ≤ wAvs.blk.now ∧ wAvs.blk.rd (PWR_AVS.vmin_mv 2) + 5 ≤
    wAvs.blk.rd (PWR_AVS.vout_mv 2) ∧ (if 1 ≤ 2 ∧ 2 ≤ 12 then 605 else 705) ≤ wAvs.blk.rd (PWR_AVS.vout_mv 2) := by
    decide +kernel
theorem test_regulator : stStandby < wReady.blk.dstate := by decide +kernel
/-! IdleCalendarAndTheEndOfDrain -/
theorem test_idle_other : (wIdle 13000).blk.on XBAR_STATUS.idle = true ∧ (wIdle 13000).blk.run.job = none ∧ (wIdle
    13000).blk.coll.answer = none ∧ (wIdle 13000).blk.dstate ≠ stDrain ∧ (∀ (md : Nat), md < 4 → ((wIdle 13000).blk.md
    md).migrating = none) := by decide +kernel
theorem test_idle_first : (wIdle 15300).blk.on XBAR_STATUS.idle = true ∧ (wIdle 15300).blk.run.job = none ∧ (wIdle
    15300).blk.coll.answer = none ∧ (wIdle 15300).blk.dstate ≠ stDrain ∧ (∀ (md : Nat), md < 4 → ((wIdle 15300).blk.md
    md).migrating = none) := by decide +kernel
theorem test_drain_exit : wDrained.blk.dstate = stDrain ∧ wDrained.blk.power.tripAt = none ∧ wDrained.blk.run.lullEnd = some
    4000 ∧ 4000 + 40 ≤ wDrained.blk.now ∧ wDrained.blk.run.stopped = true ∧ wDrained.blk.jobQuiet = true ∧ (∀ (d : Drain), d ∈
    wDrained.blk.ras.drains → d.why ≠ 1) := by decide +kernel
/-! CommandsAreVerifiedAndPlaced -/
theorem test_command_beside : stSelftest ≤ (wVerify stSync).blk.dstate ∧ (wVerify stSync).blk.dstate < stReady ∧ (okCmd 3
    3).cmdType = 3 ∧ (wVerify stSync).blk.on SEC_STATUS.key_ok = true ∧ (∀ (e : RelayEnd), e ∈ (wVerify
    stSync).blk.mgmt.relayFrom → ¬(e.auth.toNat = req1.auth.toNat % 256 ∧ e.requestId.toNat = req1.requestId.toNat)) ∧ (wVerify
    stSync).blk.certCheck (okCmd 3 3) = Sum.inr [] := by decide +kernel
theorem test_command_lost : stSelftest ≤ (wVerify stSync).blk.dstate ∧ (wVerify stSync).blk.dstate < stReady ∧ (okCmd 6
    6).cmdType ≠ 1 ∧ (okCmd 6 6).cmdType ≠ 3 ∧ (okCmd 6 6).cmdType ≠ 4 ∧ (wVerify stSync).blk.on SEC_STATUS.key_ok = true ∧ (∀
    (e : RelayEnd), e ∈ (wVerify stSync).blk.mgmt.relayFrom → ¬(e.auth.toNat = req1.auth.toNat % 256 ∧ e.requestId.toNat =
    req1.requestId.toNat)) ∧ (wVerify stSync).blk.certCheck (okCmd 6 6) = Sum.inr [] ∧ (∀ (x : Placed), x ∈ (wVerify
    stSync).blk.sched.placed → x.seq ≠ (okCmd 6 6).seq.toNat) := by decide +kernel
theorem test_command_entry : stReady ≤ (wVerify stReady).blk.dstate ∧ (wVerify stReady).blk.dstate ≤ stDrain ∧ (wVerify
    stReady).blk.on SEC_STATUS.key_ok = true ∧ (∀ (e : RelayEnd), e ∈ (wVerify stReady).blk.mgmt.relayFrom → ¬(e.auth.toNat =
    req1.auth.toNat % 256 ∧ e.requestId.toNat = req1.requestId.toNat)) ∧ (wVerify stReady).blk.certCheck y_command_entry0 =
    Sum.inr (atPayload 90000) ∧ (wVerify stReady).blk.now + 1000 ≤ namedInst y_command_entry0.cmdType.toNat (atPayload 90000) ∧
    (wVerify stReady).blk.on (MTC_SCHED_ACT.valid 0) = false ∧ (∀ (m : Nat), m < 0 → (wVerify stReady).blk.on
    (MTC_SCHED_ACT.valid m) = true) := by decide +kernel
theorem test_command_rejected : stSelftest ≤ (wVerify stReady).blk.dstate ∧ (wVerify stReady).blk.dstate ≠ stRecovery ∧ (wVerify
    stReady).blk.on SEC_STATUS.key_ok = true ∧ (∀ (e : RelayEnd), e ∈ (wVerify stReady).blk.mgmt.relayFrom → ¬(e.auth.toNat =
    req1.auth.toNat % 256 ∧ e.requestId.toNat = req1.requestId.toNat)) ∧ (wVerify stReady).blk.certCheck (okCmd 3 4) = Sum.inl 1
    := by decide +kernel
/-! ArmAndStopChangeTheJob -/
theorem test_stop_armed_entry : (wTab stArmed (tabCmd 1 stopPl) startAt).blk.sched.placed = [tabCmd 1 stopPl] ∧ (tabCmd 1
    stopPl).inst + 40 ≤ (wTab stArmed (tabCmd 1 stopPl) startAt).blk.now ∧ (tabCmd 1 stopPl).entry < 32 ∧ (wTab stArmed (tabCmd
    1 stopPl) startAt).blk.on (MTC_SCHED_ACT.valid (tabCmd 1 stopPl).entry) = true ∧ (wTab stArmed (tabCmd 1 stopPl)
    startAt).blk.rd (MTC_SCHED_ACT.action (tabCmd 1 stopPl).entry) = 4 ∧ (wTab stArmed (tabCmd 1 stopPl) startAt).blk.schedInst
    (tabCmd 1 stopPl).entry + 40 ≤ (wTab stArmed (tabCmd 1 stopPl) startAt).blk.now ∧ (∀ (m : Nat), m < 32 → m ≠ (tabCmd 1
    stopPl).entry → (wTab stArmed (tabCmd 1 stopPl) startAt).blk.on (MTC_SCHED_ACT.valid m) = true → (wTab stArmed (tabCmd 1
    stopPl) startAt).blk.now < (wTab stArmed (tabCmd 1 stopPl) startAt).blk.schedInst m + 40) ∧ (wTab stArmed (tabCmd 1 stopPl)
    startAt).blk.schedInst (tabCmd 1 stopPl).entry = (tabCmd 1 stopPl).inst ∧ (tabCmd 1 stopPl).ctype = 1 ∧ isStop (tabCmd 1
    stopPl).payload = true ∧ (wTab stArmed (tabCmd 1 stopPl) startAt).blk.dstate = stArmed ∧ (leave (tabCmd 1 stopPl) (wTab
    stArmed (tabCmd 1 stopPl) startAt).blk).startEntry = some 9 := by decide +kernel
theorem test_stop_run : (wTab stRun (tabCmd 1 stopPl) id).blk.sched.placed = [tabCmd 1 stopPl] ∧ (tabCmd 1 stopPl).inst + 40 ≤
    (wTab stRun (tabCmd 1 stopPl) id).blk.now ∧ (tabCmd 1 stopPl).entry < 32 ∧ (wTab stRun (tabCmd 1 stopPl) id).blk.on
    (MTC_SCHED_ACT.valid (tabCmd 1 stopPl).entry) = true ∧ (wTab stRun (tabCmd 1 stopPl) id).blk.rd (MTC_SCHED_ACT.action
    (tabCmd 1 stopPl).entry) = 4 ∧ (wTab stRun (tabCmd 1 stopPl) id).blk.schedInst (tabCmd 1 stopPl).entry + 40 ≤ (wTab stRun
    (tabCmd 1 stopPl) id).blk.now ∧ (∀ (m : Nat), m < 32 → m ≠ (tabCmd 1 stopPl).entry → (wTab stRun (tabCmd 1 stopPl)
    id).blk.on (MTC_SCHED_ACT.valid m) = true → (wTab stRun (tabCmd 1 stopPl) id).blk.now < (wTab stRun (tabCmd 1 stopPl)
    id).blk.schedInst m + 40) ∧ (wTab stRun (tabCmd 1 stopPl) id).blk.schedInst (tabCmd 1 stopPl).entry = (tabCmd 1 stopPl).inst
    ∧ (tabCmd 1 stopPl).ctype = 1 ∧ isStop (tabCmd 1 stopPl).payload = true ∧ (wTab stRun (tabCmd 1 stopPl) id).blk.dstate =
    stRun := by decide +kernel
/-! FenceCommandsDrainTheirFunction -/
theorem test_fence_core : (wTab stReady (tabCmd 2 (fencePl 0 false 3 5)) id).blk.sched.placed = [tabCmd 2 (fencePl 0 false 3 5)]
    ∧ (tabCmd 2 (fencePl 0 false 3 5)).inst + 40 ≤ (wTab stReady (tabCmd 2 (fencePl 0 false 3 5)) id).blk.now ∧ (tabCmd 2
    (fencePl 0 false 3 5)).entry < 32 ∧ (wTab stReady (tabCmd 2 (fencePl 0 false 3 5)) id).blk.on (MTC_SCHED_ACT.valid (tabCmd 2
    (fencePl 0 false 3 5)).entry) = true ∧ (wTab stReady (tabCmd 2 (fencePl 0 false 3 5)) id).blk.rd (MTC_SCHED_ACT.action
    (tabCmd 2 (fencePl 0 false 3 5)).entry) = 4 ∧ (wTab stReady (tabCmd 2 (fencePl 0 false 3 5)) id).blk.schedInst (tabCmd 2
    (fencePl 0 false 3 5)).entry + 40 ≤ (wTab stReady (tabCmd 2 (fencePl 0 false 3 5)) id).blk.now ∧ (∀ (m : Nat), m < 32 → m ≠
    (tabCmd 2 (fencePl 0 false 3 5)).entry → (wTab stReady (tabCmd 2 (fencePl 0 false 3 5)) id).blk.on (MTC_SCHED_ACT.valid m) =
    true → (wTab stReady (tabCmd 2 (fencePl 0 false 3 5)) id).blk.now < (wTab stReady (tabCmd 2 (fencePl 0 false 3 5))
    id).blk.schedInst m + 40) ∧ (wTab stReady (tabCmd 2 (fencePl 0 false 3 5)) id).blk.schedInst (tabCmd 2 (fencePl 0 false 3
    5)).entry = (tabCmd 2 (fencePl 0 false 3 5)).inst ∧ (tabCmd 2 (fencePl 0 false 3 5)).ctype = 2 ∧ fKind (armWord (tabCmd 2
    (fencePl 0 false 3 5)).payload 0) = 0 ∧ fRelease (armWord (tabCmd 2 (fencePl 0 false 3 5)).payload 0) = false ∧ fenceUnitOk
    (armWord (tabCmd 2 (fencePl 0 false 3 5)).payload 0) = true ∧ (wTab stReady (tabCmd 2 (fencePl 0 false 3 5)) id).blk.served
    ((fDie (armWord (tabCmd 2 (fencePl 0 false 3 5)).payload 0) - 1) * 32 + fUnit (armWord (tabCmd 2 (fencePl 0 false 3
    5)).payload 0)) = true ∧ (wTab stReady (tabCmd 2 (fencePl 0 false 3 5)) id).blk.ras.fences = [] ∧ (wTab stReady (tabCmd 2
    (fencePl 0 false 3 5)) id).blk.dstate ≠ stRun ∧ (wTab stReady (tabCmd 2 (fencePl 0 false 3 5)) id).blk.coreQuiet ((fDie
    (armWord (tabCmd 2 (fencePl 0 false 3 5)).payload 0) - 1) * 32 + fUnit (armWord (tabCmd 2 (fencePl 0 false 3 5)).payload 0))
    = true ∧ (leave (tabCmd 2 (fencePl 0 false 3 5)) (wTab stReady (tabCmd 2 (fencePl 0 false 3 5)) id).blk).spareCore (fDie
    (armWord (tabCmd 2 (fencePl 0 false 3 5)).payload 0) - 1) (b2n (isLee ((fDie (armWord (tabCmd 2 (fencePl 0 false 3
    5)).payload 0) - 1) * 32 + fUnit (armWord (tabCmd 2 (fencePl 0 false 3 5)).payload 0)))) = some 28 ∧ Sp.get none (wTab
    stReady (tabCmd 2 (fencePl 0 false 3 5)) id).blk.ras.running (fDie (armWord (tabCmd 2 (fencePl 0 false 3 5)).payload 0) - 1 +
    1) = none := by decide +kernel
theorem test_fence_core_busy : (wTab stReady (tabCmd 2 (fencePl 0 false 1 3)) stoppedCore).blk.sched.placed = [tabCmd 2 (fencePl
    0 false 1 3)] ∧ (tabCmd 2 (fencePl 0 false 1 3)).inst + 40 ≤ (wTab stReady (tabCmd 2 (fencePl 0 false 1 3))
    stoppedCore).blk.now ∧ (tabCmd 2 (fencePl 0 false 1 3)).entry < 32 ∧ (wTab stReady (tabCmd 2 (fencePl 0 false 1 3))
    stoppedCore).blk.on (MTC_SCHED_ACT.valid (tabCmd 2 (fencePl 0 false 1 3)).entry) = true ∧ (wTab stReady (tabCmd 2 (fencePl 0
    false 1 3)) stoppedCore).blk.rd (MTC_SCHED_ACT.action (tabCmd 2 (fencePl 0 false 1 3)).entry) = 4 ∧ (wTab stReady (tabCmd 2
    (fencePl 0 false 1 3)) stoppedCore).blk.schedInst (tabCmd 2 (fencePl 0 false 1 3)).entry + 40 ≤ (wTab stReady (tabCmd 2
    (fencePl 0 false 1 3)) stoppedCore).blk.now ∧ (∀ (m : Nat), m < 32 → m ≠ (tabCmd 2 (fencePl 0 false 1 3)).entry → (wTab
    stReady (tabCmd 2 (fencePl 0 false 1 3)) stoppedCore).blk.on (MTC_SCHED_ACT.valid m) = true → (wTab stReady (tabCmd 2
    (fencePl 0 false 1 3)) stoppedCore).blk.now < (wTab stReady (tabCmd 2 (fencePl 0 false 1 3)) stoppedCore).blk.schedInst m +
    40) ∧ (wTab stReady (tabCmd 2 (fencePl 0 false 1 3)) stoppedCore).blk.schedInst (tabCmd 2 (fencePl 0 false 1 3)).entry =
    (tabCmd 2 (fencePl 0 false 1 3)).inst ∧ (tabCmd 2 (fencePl 0 false 1 3)).ctype = 2 ∧ fKind (armWord (tabCmd 2 (fencePl 0
    false 1 3)).payload 0) = 0 ∧ fRelease (armWord (tabCmd 2 (fencePl 0 false 1 3)).payload 0) = false ∧ fenceUnitOk (armWord
    (tabCmd 2 (fencePl 0 false 1 3)).payload 0) = true ∧ (wTab stReady (tabCmd 2 (fencePl 0 false 1 3)) stoppedCore).blk.served
    ((fDie (armWord (tabCmd 2 (fencePl 0 false 1 3)).payload 0) - 1) * 32 + fUnit (armWord (tabCmd 2 (fencePl 0 false 1
    3)).payload 0)) = true ∧ (wTab stReady (tabCmd 2 (fencePl 0 false 1 3)) stoppedCore).blk.ras.fences = [] ∧ (wTab stReady
    (tabCmd 2 (fencePl 0 false 1 3)) stoppedCore).blk.dstate ≠ stRun ∧ (wTab stReady (tabCmd 2 (fencePl 0 false 1 3))
    stoppedCore).blk.coreQuiet ((fDie (armWord (tabCmd 2 (fencePl 0 false 1 3)).payload 0) - 1) * 32 + fUnit (armWord (tabCmd 2
    (fencePl 0 false 1 3)).payload 0)) = false := by decide +kernel
theorem test_fence_gather : (wDue stReady (dueCmd 2 (fencePl 1 false 3 2)) id).blk.sched.placed = [dueCmd 2 (fencePl 1 false 3
    2)] ∧ (dueCmd 2 (fencePl 1 false 3 2)).inst + 40 ≤ (wDue stReady (dueCmd 2 (fencePl 1 false 3 2)) id).blk.now ∧ (dueCmd 2
    (fencePl 1 false 3 2)).entry = 32 ∧ (∀ (n : Nat), n < 32 → (wDue stReady (dueCmd 2 (fencePl 1 false 3 2)) id).blk.on
    (MTC_SCHED_ACT.valid n) = false) ∧ (dueCmd 2 (fencePl 1 false 3 2)).ctype = 2 ∧ fKind (armWord (dueCmd 2 (fencePl 1 false 3
    2)).payload 0) = 1 ∧ fRelease (armWord (dueCmd 2 (fencePl 1 false 3 2)).payload 0) = false ∧ fenceUnitOk (armWord (dueCmd 2
    (fencePl 1 false 3 2)).payload 0) = true ∧ (∀ (d : Drain), d ∈ (wDue stReady (dueCmd 2 (fencePl 1 false 3 2))
    id).blk.ras.drains → d.kind = 1 → d.unit ≠ 4 * (fDie (armWord (dueCmd 2 (fencePl 1 false 3 2)).payload 0) - 1) + fUnit
    (armWord (dueCmd 2 (fencePl 1 false 3 2)).payload 0)) := by decide +kernel
theorem test_fence_port : (wDue stReady (dueCmd 2 (fencePl 2 false 0 7)) id).blk.sched.placed = [dueCmd 2 (fencePl 2 false 0 7)]
    ∧ (dueCmd 2 (fencePl 2 false 0 7)).inst + 40 ≤ (wDue stReady (dueCmd 2 (fencePl 2 false 0 7)) id).blk.now ∧ (dueCmd 2
    (fencePl 2 false 0 7)).entry = 32 ∧ (∀ (n : Nat), n < 32 → (wDue stReady (dueCmd 2 (fencePl 2 false 0 7)) id).blk.on
    (MTC_SCHED_ACT.valid n) = false) ∧ (dueCmd 2 (fencePl 2 false 0 7)).ctype = 2 ∧ fKind (armWord (dueCmd 2 (fencePl 2 false 0
    7)).payload 0) = 2 ∧ fRelease (armWord (dueCmd 2 (fencePl 2 false 0 7)).payload 0) = false ∧ fenceUnitOk (armWord (dueCmd 2
    (fencePl 2 false 0 7)).payload 0) = true ∧ (∀ (d : Drain), d ∈ (wDue stReady (dueCmd 2 (fencePl 2 false 0 7))
    id).blk.ras.drains → d.kind = 2 → d.unit ≠ (wDue stReady (dueCmd 2 (fencePl 2 false 0 7)) id).blk.physOf (fUnit (armWord
    (dueCmd 2 (fencePl 2 false 0 7)).payload 0) / 5) (fUnit (armWord (dueCmd 2 (fencePl 2 false 0 7)).payload 0))) := by
    decide +kernel
theorem test_fence_coll : (wDue stReady (dueCmd 2 (fencePl 3 false 0 15)) id).blk.sched.placed = [dueCmd 2 (fencePl 3 false 0
    15)] ∧ (dueCmd 2 (fencePl 3 false 0 15)).inst + 40 ≤ (wDue stReady (dueCmd 2 (fencePl 3 false 0 15)) id).blk.now ∧ (dueCmd 2
    (fencePl 3 false 0 15)).entry = 32 ∧ (∀ (n : Nat), n < 32 → (wDue stReady (dueCmd 2 (fencePl 3 false 0 15)) id).blk.on
    (MTC_SCHED_ACT.valid n) = false) ∧ (dueCmd 2 (fencePl 3 false 0 15)).ctype = 2 ∧ fKind (armWord (dueCmd 2 (fencePl 3 false 0
    15)).payload 0) = 3 ∧ fRelease (armWord (dueCmd 2 (fencePl 3 false 0 15)).payload 0) = false ∧ fenceUnitOk (armWord (dueCmd
    2 (fencePl 3 false 0 15)).payload 0) = true ∧ (∀ (d : Drain), d ∈ (wDue stReady (dueCmd 2 (fencePl 3 false 0 15))
    id).blk.ras.drains → d.kind = 3 → d.unit ≠ fUnit (armWord (dueCmd 2 (fencePl 3 false 0 15)).payload 0)) ∧ ¬fUnit (armWord
    (dueCmd 2 (fencePl 3 false 0 15)).payload 0) ∈ (wDue stReady (dueCmd 2 (fencePl 3 false 0 15)) id).blk.coll.fencedCh := by
    decide +kernel
theorem test_fence_guest : (wDue stReady (dueCmd 2 (fencePl 4 false 0 0)) id).blk.sched.placed = [dueCmd 2 (fencePl 4 false 0
    0)] ∧ (dueCmd 2 (fencePl 4 false 0 0)).inst + 40 ≤ (wDue stReady (dueCmd 2 (fencePl 4 false 0 0)) id).blk.now ∧ (dueCmd 2
    (fencePl 4 false 0 0)).entry = 32 ∧ (∀ (n : Nat), n < 32 → (wDue stReady (dueCmd 2 (fencePl 4 false 0 0)) id).blk.on
    (MTC_SCHED_ACT.valid n) = false) ∧ (dueCmd 2 (fencePl 4 false 0 0)).ctype = 2 ∧ fKind (armWord (dueCmd 2 (fencePl 4 false 0
    0)).payload 0) = 4 ∧ fRelease (armWord (dueCmd 2 (fencePl 4 false 0 0)).payload 0) = false ∧ fenceUnitOk (armWord (dueCmd 2
    (fencePl 4 false 0 0)).payload 0) = true ∧ (wDue stReady (dueCmd 2 (fencePl 4 false 0 0)) id).blk.on GFW_STATUS.isolated =
    false ∧ (∀ (d : Drain), d ∈ (wDue stReady (dueCmd 2 (fencePl 4 false 0 0)) id).blk.ras.drains → d.kind = 4 → d.unit ≠ 0) :=
    by decide +kernel
theorem test_fence_cxl : (wDue stReady (dueCmd 2 (fencePl 5 false 0 0)) id).blk.sched.placed = [dueCmd 2 (fencePl 5 false 0 0)]
    ∧ (dueCmd 2 (fencePl 5 false 0 0)).inst + 40 ≤ (wDue stReady (dueCmd 2 (fencePl 5 false 0 0)) id).blk.now ∧ (dueCmd 2
    (fencePl 5 false 0 0)).entry = 32 ∧ (∀ (n : Nat), n < 32 → (wDue stReady (dueCmd 2 (fencePl 5 false 0 0)) id).blk.on
    (MTC_SCHED_ACT.valid n) = false) ∧ (dueCmd 2 (fencePl 5 false 0 0)).ctype = 2 ∧ fKind (armWord (dueCmd 2 (fencePl 5 false 0
    0)).payload 0) = 5 ∧ fRelease (armWord (dueCmd 2 (fencePl 5 false 0 0)).payload 0) = false ∧ fenceUnitOk (armWord (dueCmd 2
    (fencePl 5 false 0 0)).payload 0) = true ∧ (∀ (d : Drain), d ∈ (wDue stReady (dueCmd 2 (fencePl 5 false 0 0))
    id).blk.ras.drains → d.kind = 5 → d.unit ≠ 0) := by decide +kernel
theorem test_fence_mem : (wDue stReady (dueCmd 2 (fencePl 6 false 0 127)) id).blk.sched.placed = [dueCmd 2 (fencePl 6 false 0
    127)] ∧ (dueCmd 2 (fencePl 6 false 0 127)).inst + 40 ≤ (wDue stReady (dueCmd 2 (fencePl 6 false 0 127)) id).blk.now ∧
    (dueCmd 2 (fencePl 6 false 0 127)).entry = 32 ∧ (∀ (n : Nat), n < 32 → (wDue stReady (dueCmd 2 (fencePl 6 false 0 127))
    id).blk.on (MTC_SCHED_ACT.valid n) = false) ∧ (dueCmd 2 (fencePl 6 false 0 127)).ctype = 2 ∧ fKind (armWord (dueCmd 2
    (fencePl 6 false 0 127)).payload 0) = 6 ∧ fRelease (armWord (dueCmd 2 (fencePl 6 false 0 127)).payload 0) = false ∧
    fenceUnitOk (armWord (dueCmd 2 (fencePl 6 false 0 127)).payload 0) = true ∧ (wDue stReady (dueCmd 2 (fencePl 6 false 0 127))
    id).blk.spareChan (fUnit (armWord (dueCmd 2 (fencePl 6 false 0 127)).payload 0) / 32) = some 32 ∧ (wDue stReady (dueCmd 2
    (fencePl 6 false 0 127)) id).blk.on (CHAN_MIGRATE.active (fUnit (armWord (dueCmd 2 (fencePl 6 false 0 127)).payload 0) /
    32)) = false ∧ (wDue stReady (dueCmd 2 (fencePl 6 false 0 127)) id).blk.rd (CHAN_MAP.phys (fUnit (armWord (dueCmd 2 (fencePl
    6 false 0 127)).payload 0) / 32) (fUnit (armWord (dueCmd 2 (fencePl 6 false 0 127)).payload 0) % 32)) < 34 ∧ (wDue stReady
    (dueCmd 2 (fencePl 6 false 0 127)) id).blk.rd (CHAN_MAP.phys (fUnit (armWord (dueCmd 2 (fencePl 6 false 0 127)).payload 0) /
    32) (fUnit (armWord (dueCmd 2 (fencePl 6 false 0 127)).payload 0) % 32)) ≠ 32 := by decide +kernel
/-! ReleaseCommandsEndTheirFence -/
theorem test_release_core : x_release_core0.blk.sched.placed = [dueCmd 2 (fencePl 0 true 12 35)] ∧ (dueCmd 2 (fencePl 0 true 12
    35)).inst + 40 ≤ x_release_core0.blk.now ∧ (dueCmd 2 (fencePl 0 true 12 35)).entry = 32 ∧ (∀ (n : Nat), n < 32 →
    x_release_core0.blk.on (MTC_SCHED_ACT.valid n) = false) ∧ (dueCmd 2 (fencePl 0 true 12 35)).ctype = 2 ∧ fKind (armWord
    (dueCmd 2 (fencePl 0 true 12 35)).payload 0) = 0 ∧ fRelease (armWord (dueCmd 2 (fencePl 0 true 12 35)).payload 0) = true ∧
    fenceUnitOk (armWord (dueCmd 2 (fencePl 0 true 12 35)).payload 0) = true ∧ x_release_core0.blk.rd (SITE_CORE.state (fDie
    (armWord (dueCmd 2 (fencePl 0 true 12 35)).payload 0) - 1) (fUnit (armWord (dueCmd 2 (fencePl 0 true 12 35)).payload 0))) =
    2 := by decide +kernel
theorem test_release_gather : (wDue stReady (dueCmd 2 (fencePl 1 true 3 2)) (drains [{ kind := 1, unit := 10, since := 500, why := 0 }])).blk.sched.placed
    = [dueCmd 2 (fencePl 1 true 3 2)] ∧ (dueCmd 2 (fencePl 1 true 3 2)).inst + 40 ≤ (wDue stReady (dueCmd 2 (fencePl 1 true 3
    2)) (drains [{ kind := 1, unit := 10, since := 500, why := 0 }])).blk.now ∧ (dueCmd 2 (fencePl 1 true 3 2)).entry = 32 ∧ (∀
    (n : Nat), n < 32 → (wDue stReady (dueCmd 2 (fencePl 1 true 3 2)) (drains [{ kind := 1, unit := 10, since := 500, why := 0 }])).blk.on
    (MTC_SCHED_ACT.valid n) = false) ∧ (dueCmd 2 (fencePl 1 true 3 2)).ctype = 2 ∧ fKind (armWord (dueCmd 2 (fencePl 1 true 3
    2)).payload 0) = 1 ∧ fRelease (armWord (dueCmd 2 (fencePl 1 true 3 2)).payload 0) = true ∧ fenceUnitOk (armWord (dueCmd 2
    (fencePl 1 true 3 2)).payload 0) = true := by decide +kernel
theorem test_release_port : x_release_port0.blk.sched.placed = [dueCmd 2 (fencePl 2 true 0 7)] ∧ (dueCmd 2 (fencePl 2 true 0
    7)).inst + 40 ≤ x_release_port0.blk.now ∧ (dueCmd 2 (fencePl 2 true 0 7)).entry = 32 ∧ (∀ (n : Nat), n < 32 →
    x_release_port0.blk.on (MTC_SCHED_ACT.valid n) = false) ∧ (dueCmd 2 (fencePl 2 true 0 7)).ctype = 2 ∧ fKind (armWord (dueCmd
    2 (fencePl 2 true 0 7)).payload 0) = 2 ∧ fRelease (armWord (dueCmd 2 (fencePl 2 true 0 7)).payload 0) = true ∧ fenceUnitOk
    (armWord (dueCmd 2 (fencePl 2 true 0 7)).payload 0) = true ∧ x_release_port0.blk.physOf (fUnit (armWord (dueCmd 2 (fencePl 2
    true 0 7)).payload 0) / 5) (fUnit (armWord (dueCmd 2 (fencePl 2 true 0 7)).payload 0)) = fUnit (armWord (dueCmd 2 (fencePl 2
    true 0 7)).payload 0) ∧ (x_release_port0.blk.port (fUnit (armWord (dueCmd 2 (fencePl 2 true 0 7)).payload 0))).present =
    true ∧ x_release_port0.blk.pstate (fUnit (armWord (dueCmd 2 (fencePl 2 true 0 7)).payload 0)) = psDown := by decide +kernel
theorem test_release_coll : (wDue stReady (dueCmd 2 (fencePl 3 true 0 4)) id).blk.sched.placed = [dueCmd 2 (fencePl 3 true 0 4)]
    ∧ (dueCmd 2 (fencePl 3 true 0 4)).inst + 40 ≤ (wDue stReady (dueCmd 2 (fencePl 3 true 0 4)) id).blk.now ∧ (dueCmd 2 (fencePl
    3 true 0 4)).entry = 32 ∧ (∀ (n : Nat), n < 32 → (wDue stReady (dueCmd 2 (fencePl 3 true 0 4)) id).blk.on
    (MTC_SCHED_ACT.valid n) = false) ∧ (dueCmd 2 (fencePl 3 true 0 4)).ctype = 2 ∧ fKind (armWord (dueCmd 2 (fencePl 3 true 0
    4)).payload 0) = 3 ∧ fRelease (armWord (dueCmd 2 (fencePl 3 true 0 4)).payload 0) = true ∧ fenceUnitOk (armWord (dueCmd 2
    (fencePl 3 true 0 4)).payload 0) = true ∧ ¬fUnit (armWord (dueCmd 2 (fencePl 3 true 0 4)).payload 0) ∈ (wDue stReady (dueCmd
    2 (fencePl 3 true 0 4)) id).blk.coll.releaseCh := by decide +kernel
theorem test_release_guest : (wDue stReady (dueCmd 2 (fencePl 4 true 0 0)) (isolatedB 1)).blk.sched.placed = [dueCmd 2 (fencePl
    4 true 0 0)] ∧ (dueCmd 2 (fencePl 4 true 0 0)).inst + 40 ≤ (wDue stReady (dueCmd 2 (fencePl 4 true 0 0)) (isolatedB
    1)).blk.now ∧ (dueCmd 2 (fencePl 4 true 0 0)).entry = 32 ∧ (∀ (n : Nat), n < 32 → (wDue stReady (dueCmd 2 (fencePl 4 true 0
    0)) (isolatedB 1)).blk.on (MTC_SCHED_ACT.valid n) = false) ∧ (dueCmd 2 (fencePl 4 true 0 0)).ctype = 2 ∧ fKind (armWord
    (dueCmd 2 (fencePl 4 true 0 0)).payload 0) = 4 ∧ fRelease (armWord (dueCmd 2 (fencePl 4 true 0 0)).payload 0) = true ∧
    fenceUnitOk (armWord (dueCmd 2 (fencePl 4 true 0 0)).payload 0) = true := by decide +kernel
theorem test_release_cxl : (wDue stReady (dueCmd 2 (fencePl 5 true 0 0)) id).blk.sched.placed = [dueCmd 2 (fencePl 5 true 0 0)]
    ∧ (dueCmd 2 (fencePl 5 true 0 0)).inst + 40 ≤ (wDue stReady (dueCmd 2 (fencePl 5 true 0 0)) id).blk.now ∧ (dueCmd 2 (fencePl
    5 true 0 0)).entry = 32 ∧ (∀ (n : Nat), n < 32 → (wDue stReady (dueCmd 2 (fencePl 5 true 0 0)) id).blk.on
    (MTC_SCHED_ACT.valid n) = false) ∧ (dueCmd 2 (fencePl 5 true 0 0)).ctype = 2 ∧ fKind (armWord (dueCmd 2 (fencePl 5 true 0
    0)).payload 0) = 5 ∧ fRelease (armWord (dueCmd 2 (fencePl 5 true 0 0)).payload 0) = true ∧ fenceUnitOk (armWord (dueCmd 2
    (fencePl 5 true 0 0)).payload 0) = true ∧ (wDue stReady (dueCmd 2 (fencePl 5 true 0 0)) id).blk.rd CXL_PULL_IDX.head = (wDue
    stReady (dueCmd 2 (fencePl 5 true 0 0)) id).blk.rd CXL_PULL_IDX.tail := by decide +kernel
theorem test_release_mem : (wDue stReady (dueCmd 2 (fencePl 6 true 0 3)) id).blk.sched.placed = [dueCmd 2 (fencePl 6 true 0 3)]
    ∧ (dueCmd 2 (fencePl 6 true 0 3)).inst + 40 ≤ (wDue stReady (dueCmd 2 (fencePl 6 true 0 3)) id).blk.now ∧ (dueCmd 2 (fencePl
    6 true 0 3)).entry = 32 ∧ (∀ (n : Nat), n < 32 → (wDue stReady (dueCmd 2 (fencePl 6 true 0 3)) id).blk.on
    (MTC_SCHED_ACT.valid n) = false) ∧ (dueCmd 2 (fencePl 6 true 0 3)).ctype = 2 ∧ fKind (armWord (dueCmd 2 (fencePl 6 true 0
    3)).payload 0) = 6 ∧ fRelease (armWord (dueCmd 2 (fencePl 6 true 0 3)).payload 0) = true ∧ fenceUnitOk (armWord (dueCmd 2
    (fencePl 6 true 0 3)).payload 0) = true := by decide +kernel
/-! DrainsEndAndExpelsFence -/
theorem test_drain_guest : x_drain_guest0.blk.ras.drains = [{ kind := 4, unit := 0, since := x_drain_guest0.blk.now, why := 0 }]
    ∧ x_drain_guest0.blk.dstate ≠ stFenced ∧ x_drain_guest0.blk.on GFW_STATUS.isolated = false ∧ x_drain_guest0.blk.sec.waiting
    = [] ∧ x_drain_guest0.blk.guestHeld = [] := by decide +kernel
theorem test_drain_gather : x_drain_gather0.blk.ras.drains = [{ kind := 1, unit := 9, since := x_drain_gather0.blk.now, why := 0 }]
    ∧ 0 ≠ 1 ∧ x_drain_gather0.blk.dstate ≠ stFenced ∧ (x_drain_gather0.blk.gathE 9).streams = [] := by decide +kernel
theorem test_drain_timeout : x_drain_timeout0.blk.ras.drains = [{ kind := 5, unit := 0, since := 900, why := 0 }] ∧
    x_drain_timeout0.blk.dstate ≠ stFenced ∧ x_drain_timeout0.blk.host.pullBusy = none ∧ x_drain_timeout0.blk.run.pulling = none
    ∧ 900 + 1000 * x_drain_timeout0.blk.rd RAS_DRAIN_TMO1.cxl_us ≤ x_drain_timeout0.blk.now := by decide +kernel
theorem test_expel : x_expel0.blk.sched.placed = [tabCmd 3 []] ∧ (tabCmd 3 []).inst + 40 ≤ x_expel0.blk.now ∧ (tabCmd 3
    []).entry < 32 ∧ x_expel0.blk.on (MTC_SCHED_ACT.valid (tabCmd 3 []).entry) = true ∧ x_expel0.blk.rd (MTC_SCHED_ACT.action
    (tabCmd 3 []).entry) = 4 ∧ x_expel0.blk.schedInst (tabCmd 3 []).entry + 40 ≤ x_expel0.blk.now ∧ (∀ (m : Nat), m < 32 → m ≠
    (tabCmd 3 []).entry → x_expel0.blk.on (MTC_SCHED_ACT.valid m) = true → x_expel0.blk.now < x_expel0.blk.schedInst m + 40) ∧
    x_expel0.blk.schedInst (tabCmd 3 []).entry = (tabCmd 3 []).inst ∧ (tabCmd 3 []).ctype = 3 ∧ x_expel0.blk.dstate = stRun :=
    by decide +kernel
/-! CommandsAreVerifiedAndPlaced -/
theorem test_start_request : (served stStandby id).blk.dstate ≠ stOff ∧ (served stStandby id).blk.dstate ≠ stRecovery ∧ (served
    stStandby id).blk.auths.contains okReq.auth.toNat = true ∧ okReq.sigValid = true ∧ (served stStandby id).blk.rd
    (MGMT_AUTH_SEQ.last okReq.auth.toNat) < okReq.requestId.toNat ∧ (served stStandby id).blk.on SEC_STATUS.key_ok = true ∧ (∀
    (e : RelayEnd), e ∈ (served stStandby id).blk.mgmt.relayFrom → ¬(e.auth.toNat = okReq.auth.toNat % 256 ∧ e.requestId.toNat =
    okReq.requestId.toNat)) ∧ (served stStandby id).blk.dstate = stStandby ∧ (served stStandby id).blk.rst.coldHeld = false ∧
    (served stStandby id).blk.rst.tripHold = false := by decide +kernel
/-! ArmAndStopChangeTheJob -/
theorem test_arm : wArm.blk.sched.placed = [armC] ∧ 1000 + 40 ≤ wArm.blk.now ∧ 32 = 32 ∧ (∀ (n : Nat), n < 32 → wArm.blk.on
    (MTC_SCHED_ACT.valid n) = false) ∧ 1 = 1 ∧ isStop armRec = false ∧ armB.dstate = stReady ∧ armB.run.pulling = none ∧
    armB.journal.inDoubt = false ∧ aSource armRec = 0 ∧ armB.imageFits armRec = true ∧ armB.validateImage (aImage armRec) (if
    aMode armRec = 0 then 3600 else 2700) (aMode armRec) (armB.armSlot armRec) = Sum.inr armD ∧ armB.topologyCode (aImage
    armRec) armD = none ∧ armB.linksAgree = true ∧ (aCold armRec = true → hColdOk (armB.iw (aImage armRec) 0) = true) ∧
    armB.restoreFor (armB.readJob (aImage armRec) armD (aStart armRec)) armRec = some armR ∧ armB.armLate armRec = false := by
    decide +kernel
/-! QuorumCommandsInstallAndUnlock -/
theorem test_replan : (wReplan stFenced).blk.sched.placed = [planCmd] ∧ 1000 + 40 ≤ (wReplan stFenced).blk.now ∧ 32 = 32 ∧ (∀ (n
    : Nat), n < 32 → (wReplan stFenced).blk.on (MTC_SCHED_ACT.valid n) = false) ∧ 4 = 4 ∧ (wReplan stFenced).blk.dstate =
    stFenced ∧ (∀ (p : Nat), p < 10 → (wReplan stFenced).blk.settled p = none) ∧ replan1.planShape = true ∧ replan2.planShape =
    true ∧ replan2.ownEntries.length = 1 := by
  refine ⟨by decide +kernel, by decide +kernel, by decide +kernel, by decide +kernel, by decide +kernel, by decide +kernel, by decide +kernel, ?_, ?_, ?_⟩
  · rw [planShape_congr _ _ replan_words.2]; decide +kernel
  · rw [planShape_congr _ _ replan_words.1]; decide +kernel
  · have hf : replan2.fpr = ({ State.reset.blk with flash := cells fPlan 0xFF planBytes1 } : Blk).fpr := fpr_congr _ _ fun i hi => by
      unfold replan2; rw [setAnchor_rd]
      unfold replan1; rw [writePlan_rd]
      exact (by decide +kernel : ∀ i, i < 4 → (leave planCmd (wReplan stFenced).blk).rd (SEC_FPR.fpr i) = State.reset.blk.rd (SEC_FPR.fpr i)) i hi
    have hw : replan2.planWord = ({ State.reset.blk with flash := cells fPlan 0xFF planBytes1 } : Blk).planWord :=
      replan_words.1.trans (planWord_flash _ _ (blankModule_flash _))
    rw [ownEntries_congr _ _ hw hf]; decide +kernel
theorem test_firmware_install : (cmdIn stReady 5 fwBytes1 id).blk.sched.placed = [fwCmd] ∧ 1000 + 40 ≤ (cmdIn stReady 5 fwBytes1
    id).blk.now ∧ 32 = 32 ∧ (∀ (n : Nat), n < 32 → (cmdIn stReady 5 fwBytes1 id).blk.on (MTC_SCHED_ACT.valid n) = false) ∧ 5 = 5
    ∧ fwLength fwBytes1 = fwBytes1.length ∧ ((leave fwCmd (cmdIn stReady 5 fwBytes1 id).blk).writeFw fwBytes1).fwHdrOk = true :=
    by
  and_intros
  iterate 6 exact (by decide +kernel)
  exact fwHdrOk_written _ _ (by decide +kernel) (by decide +kernel) (fwWord + 32 * 2 ^ 64) 1344 (by decide +kernel) (by decide +kernel) (by decide +kernel)
theorem test_inj_unlock : (cmdIn stRun 6 (leBytes 32 90000) id).blk.sched.placed = [{ entry := 32, inst := 1000, seq := 3, verified := 0, ctype := 6, payload := leBytes 32 90000, auth := 0, reqId := 9 }]
    ∧ 1000 + 40 ≤ (cmdIn stRun 6 (leBytes 32 90000) id).blk.now ∧ 32 = 32 ∧ (∀ (n : Nat), n < 32 → (cmdIn stRun 6 (leBytes 32
    90000) id).blk.on (MTC_SCHED_ACT.valid n) = false) ∧ 6 = 6 ∧ bits (armWord (leBytes 32 90000) 0) 0 64 ≠ 0 := by
    decide +kernel
theorem test_inj_lock : (cmdIn stRun 6 (leBytes 32 0) id).blk.sched.placed = [{ entry := 32, inst := 1000, seq := 3, verified := 0, ctype := 6, payload := leBytes 32 0, auth := 0, reqId := 9 }]
    ∧ 1000 + 40 ≤ (cmdIn stRun 6 (leBytes 32 0) id).blk.now ∧ 32 = 32 ∧ (∀ (n : Nat), n < 32 → (cmdIn stRun 6 (leBytes 32 0)
    id).blk.on (MTC_SCHED_ACT.valid n) = false) ∧ 6 = 6 ∧ bits (armWord (leBytes 32 0) 0) 0 64 = 0 := by decide +kernel
theorem test_maint_over : x_maint_over0.blk.ras.maintUntil = some 40 ∧ 40 ≤ x_maint_over0.blk.now := by decide +kernel
theorem test_rwq : (cmdIn stReady 7 regPl keyed).blk.sched.placed = [{ entry := 32, inst := 1000, seq := 3, verified := 0, ctype := 7, payload := regPl, auth := 0, reqId := 9 }]
    ∧ 1000 + 40 ≤ (cmdIn stReady 7 regPl keyed).blk.now ∧ 32 = 32 ∧ (∀ (n : Nat), n < 32 → (cmdIn stReady 7 regPl keyed).blk.on
    (MTC_SCHED_ACT.valid n) = false) ∧ 7 = 7 ∧ stStandby < (cmdIn stReady 7 regPl keyed).blk.dstate ∧ 2 ^ 64 - 1 < 2 ^ 64 ∧
    (cmdIn stReady 7 regPl keyed).blk.on SEC_STATUS.key_ok = true ∧ (∀ (e : RelayEnd), e ∈ (cmdIn stReady 7 regPl
    keyed).blk.mgmt.relayFrom → ¬(e.auth.toNat = 0 % 256 ∧ e.requestId.toNat = 9)) ∧ regPairs regPl = [(Reg.mtcEpoch.addr, 2 ^
    64 - 1)] := by decide +kernel
/-! RegionsAreLoadedAndReplaced -/
theorem test_load_chunk : (served stReady id).blk.dstate ≠ stOff ∧ (served stReady id).blk.dstate ≠ stRecovery ∧ (served stReady
    id).blk.auths.contains okReq.auth.toNat = true ∧ okReq.sigValid = true ∧ (served stReady id).blk.rd (MGMT_AUTH_SEQ.last
    okReq.auth.toNat) < okReq.requestId.toNat ∧ (served stReady id).blk.on SEC_STATUS.key_ok = true ∧ (∀ (e : RelayEnd), e ∈
    (served stReady id).blk.mgmt.relayFrom → ¬(e.auth.toNat = okReq.auth.toNat % 256 ∧ e.requestId.toNat =
    okReq.requestId.toNat)) ∧ stStandby < (served stReady id).blk.dstate ∧ (served stReady id).blk.mgmt.writing = none ∧ 7340030 +
    [1, 2].length ≤ if true = true then 7340032 else 25165824 := by decide +kernel
theorem test_load_chunk_fw : (served stReady id).blk.dstate ≠ stOff ∧ (served stReady id).blk.dstate ≠ stRecovery ∧ (served
    stReady id).blk.auths.contains okReq.auth.toNat = true ∧ okReq.sigValid = true ∧ (served stReady id).blk.rd
    (MGMT_AUTH_SEQ.last okReq.auth.toNat) < okReq.requestId.toNat ∧ (served stReady id).blk.on SEC_STATUS.key_ok = true ∧ (∀ (e
    : RelayEnd), e ∈ (served stReady id).blk.mgmt.relayFrom → ¬(e.auth.toNat = okReq.auth.toNat % 256 ∧ e.requestId.toNat =
    okReq.requestId.toNat)) ∧ stStandby < (served stReady id).blk.dstate ∧ (served stReady id).blk.mgmt.writing = none ∧
    25165822 + [1, 2].length ≤ if false = true then 7340032 else 25165824 := by decide +kernel
theorem test_load_commit : (served stSync id).blk.dstate ≠ stOff ∧ (served stSync id).blk.dstate ≠ stRecovery ∧ (served stSync
    id).blk.auths.contains okReq.auth.toNat = true ∧ okReq.sigValid = true ∧ (served stSync id).blk.rd (MGMT_AUTH_SEQ.last
    okReq.auth.toNat) < okReq.requestId.toNat ∧ (served stSync id).blk.on SEC_STATUS.key_ok = true ∧ (∀ (e : RelayEnd), e ∈
    (served stSync id).blk.mgmt.relayFrom → ¬(e.auth.toNat = okReq.auth.toNat % 256 ∧ e.requestId.toNat =
    okReq.requestId.toNat)) ∧ stStandby < (served stSync id).blk.dstate ∧ (served stSync id).blk.mgmt.writing = none ∧ 7340032 ≤
    if true = true then 7340032 else 25165824 := by decide +kernel
theorem test_load_recovery : (served stRecovery id).blk.dstate = stRecovery ∧ (served stRecovery id).blk.mgmt.writing = none ∧
    64 ≤ if true = true then 7340032 else 25165824 := by decide +kernel
/-! DebugUnlocksAndAttestation -/
theorem test_debug_cert : (stIn stReady (nonceIs 5)).blk.dstate ≠ stOff ∧ (stIn stReady (nonceIs 5)).blk.debugOk (dbg1 true) =
    true := by decide +kernel
theorem test_debug_cert_bad : (stIn stReady (nonceIs 5)).blk.dstate ≠ stOff ∧ (stIn stReady (nonceIs 5)).blk.debugOk (dbg1
    false) = false := by decide +kernel
theorem test_debug_quorum : (cmdIn stReady 8 dbgPl (nonceIs 5)).blk.sched.placed = [{ entry := 32, inst := 1000, seq := 3, verified := 0, ctype := 8, payload := dbgPl, auth := 0, reqId := 9 }]
    ∧ 1000 + 40 ≤ (cmdIn stReady 8 dbgPl (nonceIs 5)).blk.now ∧ 32 = 32 ∧ (∀ (n : Nat), n < 32 → (cmdIn stReady 8 dbgPl (nonceIs
    5)).blk.on (MTC_SCHED_ACT.valid n) = false) ∧ 8 = 8 ∧ (leave { entry := 32, inst := 1000, seq := 3, verified := 0, ctype := 8, payload := dbgPl, auth := 0, reqId := 9 }
    (cmdIn stReady 8 dbgPl (nonceIs 5)).blk).debugOk (quorumCert { entry := 32, inst := 1000, seq := 3, verified := 0, ctype := 8, payload := dbgPl, auth := 0, reqId := 9 }
    77) = true := by decide +kernel
theorem test_debug_expiry : wUnlocked.blk.rd SEC_DBG.level ≠ 0 ∧ wUnlocked.blk.sec.dbgExpiry ≤ wUnlocked.blk.now := by
    decide +kernel
theorem test_tap : (stIn stReady id).blk.dstate ≠ stOff := by decide +kernel
theorem test_attest : (served stRun id).blk.dstate ≠ stOff ∧ (served stRun id).blk.dstate ≠ stRecovery ∧ (served stRun
    id).blk.auths.contains okReq.auth.toNat = true ∧ okReq.sigValid = true ∧ (served stRun id).blk.rd (MGMT_AUTH_SEQ.last
    okReq.auth.toNat) < okReq.requestId.toNat ∧ (served stRun id).blk.on SEC_STATUS.key_ok = true ∧ (∀ (e : RelayEnd), e ∈
    (served stRun id).blk.mgmt.relayFrom → ¬(e.auth.toNat = okReq.auth.toNat % 256 ∧ e.requestId.toNat = okReq.requestId.toNat))
    := by decide +kernel
/-! GuestTransactionsAreJudged -/
theorem test_guest_ok : (guestIn (ruled 0)).blk.part.guest = true ∧ (guestIn (ruled 0)).blk.on GFW_STATUS.link_up = true ∧
    guestShape (gw true 105553116270560) = true ∧ (guestIn (ruled 0)).blk.ras.injects = [] ∧ (guestIn (ruled 0)).blk.on
    GFW_STATUS.isolated = false ∧ (∀ (d : Drain), d ∈ (guestIn (ruled 0)).blk.ras.drains → d.kind ≠ 4) ∧ (guestIn (ruled
    0)).blk.sec.waiting = [] ∧ (guestIn (ruled 0)).blk.rd PWR_MODE.mode ≠ 2 ∧ (guestIn (ruled 0)).blk.guestRule (gw true
    105553116270560) = some 63 ∧ (gw true 105553116270560).toAperture = true ∧ (gw true 105553116270560).write = true ∧ (guestIn
    (ruled 0)).blk.hasTokens 63 (gw true 105553116270560).words = true := by decide +kernel
theorem test_guest_wait : (guestIn dryRule).blk.part.guest = true ∧ (guestIn dryRule).blk.on GFW_STATUS.link_up = true ∧
    guestShape (gw true 105553116270560) = true ∧ (guestIn dryRule).blk.ras.injects = [] ∧ (guestIn dryRule).blk.on
    GFW_STATUS.isolated = false ∧ (∀ (d : Drain), d ∈ (guestIn dryRule).blk.ras.drains → d.kind ≠ 4) ∧ (guestIn
    dryRule).blk.sec.waiting = [] ∧ (guestIn dryRule).blk.rd PWR_MODE.mode ≠ 2 ∧ (guestIn dryRule).blk.guestRule (gw true
    105553116270560) = some 63 ∧ (gw true 105553116270560).toAperture = true ∧ (gw true 105553116270560).write = true ∧ (guestIn
    dryRule).blk.hasTokens 63 (gw true 105553116270560).words = false := by decide +kernel
theorem test_guest_calm_in : (guestIn calmed).blk.part.guest = true ∧ (guestIn calmed).blk.on GFW_STATUS.link_up = true ∧
    guestShape (gw true 105553116270560) = true ∧ (guestIn calmed).blk.rd PWR_MODE.mode = 2 := by decide +kernel
theorem test_guest_calm_out : (guestIn calmed).blk.part.guest = true ∧ (guestIn calmed).blk.on GFW_STATUS.link_up = true ∧
    guestShape (gw false 105553116270560) = true ∧ (guestIn calmed).blk.rd PWR_MODE.mode = 2 := by decide +kernel
theorem test_guest_denied : (guestIn id).blk.part.guest = true ∧ (guestIn id).blk.on GFW_STATUS.link_up = true ∧ guestShape (gw
    true 105553116270560) = true ∧ (guestIn id).blk.ras.injects = [] ∧ (guestIn id).blk.on GFW_STATUS.isolated = false ∧ (∀ (d :
    Drain), d ∈ (guestIn id).blk.ras.drains → d.kind ≠ 4) ∧ (guestIn id).blk.sec.waiting = [] ∧ (guestIn id).blk.rd
    PWR_MODE.mode ≠ 2 ∧ (guestIn id).blk.guestRule (gw true 105553116270560) = none ∧ (guestIn id).blk.sec.denials = [] ∧ 2 ≤
    (guestIn id).blk.rd GFW_CFG.deny_limit := by decide +kernel
theorem test_guest_admit : Sp.get [] x_guest_admit0.blk.memReqs stageHold = [] ∧ x_guest_admit0.blk.sec.waiting = [{ txn := gw true 105553116270560, rule := 63 }]
    ∧ x_guest_admit0.blk.hasTokens 63 (gw true 105553116270560).words = true ∧ (gw true 105553116270560).toAperture = true ∧ (gw
    true 105553116270560).write = true := by decide +kernel
/-! StartUpReachesDiscovery -/
theorem test_boot_fw : (wBoot goodPlan 0).blk.dstate = stBoot ∧ (wBoot goodPlan 0).blk.rst.warmHeld = false ∧ (wBoot goodPlan
    0).blk.layoutOk = true ∧ (wBoot goodPlan 0).blk.fwKey bootX.fwSig0 bootX.fwSig1 = none := by decide +kernel
theorem test_boot_plan_bad : (wBoot (List.take 6 goodPlan) fwWord).blk.dstate = stBoot ∧ (wBoot (List.take 6 goodPlan)
    fwWord).blk.rst.warmHeld = false ∧ (wBoot (List.take 6 goodPlan) fwWord).blk.layoutOk = true ∧ (wBoot (List.take 6 goodPlan)
    fwWord).blk.fwKey bootX.fwSig0 bootX.fwSig1 = some 1 ∧ ((((wBoot (List.take 6 goodPlan) fwWord).blk.takeFirmware 1).identity
    bootX).setReg Reg.secDbgNonce bootX.nonce.toNat).planCheck bootX.planSigs = some 1 := by decide +kernel
theorem test_boot_good : (wBoot goodPlan fwWord).blk.dstate = stBoot ∧ (wBoot goodPlan fwWord).blk.rst.warmHeld = false ∧ (wBoot
    goodPlan fwWord).blk.layoutOk = true ∧ (wBoot goodPlan fwWord).blk.fwKey bootX.fwSig0 bootX.fwSig1 = some 1 ∧ ((((wBoot
    goodPlan fwWord).blk.takeFirmware 1).identity bootX).setReg Reg.secDbgNonce bootX.nonce.toNat).planCheck bootX.planSigs =
    none := by
  refine ⟨by decide +kernel, by decide +kernel, by decide +kernel, by decide +kernel, ?_⟩
  have hf : ((wBoot goodPlan fwWord).blk.takeFirmware 1).flash = flashOf goodPlan fwWord := takeFirmware_flash _ _
  rw [planCheck_blank ((wBoot goodPlan fwWord).blk.takeFirmware 1) _ (flashOf goodPlan fwWord) bootX _
    (planWord_flash _ _ (hf.trans (blankModule_flash _).symm)) (blankIn_of _ _ _ (hf ▸ (by decide +kernel))) (by decide +kernel)
    ((setReg_flash _ _ _).trans (identity_flash _ _)) (fun i hi => setReg_rd_ne _ _ _ _ (secFpr_ne_nonce i hi))]
  decide +kernel
theorem test_post : (stIn stSelftest id).blk.dstate = stSelftest := by decide +kernel
theorem test_train : (stIn stTrain id).blk.dstate = stTrain ∧ (∀ (p : Nat), p < 10 → ((stIn stTrain id).blk.port p).hello =
    none) := by decide +kernel
theorem test_train0 : (stIn stTrain id).blk.dstate = stTrain ∧ (∀ (p : Nat), p < 10 → ((stIn stTrain id).blk.port p).hello =
    none) := by decide +kernel
/-! RegionsAreLoadedAndReplaced -/
theorem test_recover_plan : wNewPlan.blk.dstate = stRecovery ∧ wNewPlan.blk.mgmt.writing = some (true, 224)
    ∧ (newPlan.identity bootX).planCheck bootX.planSigs = none := by
  refine ⟨by decide +kernel, by decide +kernel, ?_⟩
  have hf : newPlan.flash = (wNewPlan.blk.writePlan shortPlan).flash := by unfold newPlan; rw [wNewPlan_bytes]
  have hk : BlankIn newPlan fKey (fKey + 0x2000) := fun j h1 h2 => by
    have := setAt_blank wNewPlan.blk shortPlan rfl _ _ (by decide) (by decide) j h1 h2
    unfold Blk.fbyte at this ⊢
    rw [hf]; exact this
  have hw : newPlan.planWord = (blankModule (cells fPlan 0xFF shortPlan)).planWord :=
    (planWord_flash _ _ hf).trans (planWord_cells _ _ fun j _ => rfl)
  rw [planCheck_blank newPlan _ (cells fPlan 0xFF shortPlan) bootX _ hw hk (by decide +kernel) (identity_flash _ _) (fun _ _ => rfl)]
  decide +kernel
theorem test_recover_fw : x_recover_fw0.blk.dstate = stRecovery ∧ x_recover_fw0.blk.mgmt.writing = some (false, 3552) ∧
    (x_recover_fw0.blk.writeFw (bufBytes x_recover_fw0.blk.mgmt.fwBuf 3552)).fwKey bootX.fwSig0 bootX.fwSig1 = some 1 := by
  refine ⟨by decide +kernel, by decide +kernel, ?_⟩
  have h : (x_recover_fw0.blk.writeFw (bufBytes x_recover_fw0.blk.mgmt.fwBuf 3552)).fwHdrOk = true :=
    fwHdrOk_written _ _ (by decide +kernel) (by decide +kernel) (fwWord + 2240 * 2 ^ 64) 3552 (by decide +kernel) (by decide +kernel) (by decide +kernel)
  unfold Blk.fwKey
  rw [if_neg (by simp [h]), writeFw_eq]
  decide +kernel
/-! SelfTestsRunAndReport -/
theorem test_selftest_start : stStandby < (stIn stReady (queued 9 uGath)).blk.dstate ∧ Sp.get none (stIn stReady (queued 9
    uGath)).blk.ras.running (stQueue 9) = none ∧ (stIn stReady (queued 9 uGath)).blk.cdOff = false ∧ Sp.get [] (stIn stReady
    (queued 9 uGath)).blk.ras.queues (stQueue 9) = [uGath] ∧ (stIn stReady (queued 9 uGath)).blk.testable uGath = true ∧ (stIn
    stReady (queued 9 uGath)).blk.testFits uGath = true := by decide +kernel
theorem test_selftest_core : stStandby < (stIn stReady (queued 3 uCore)).blk.dstate ∧ Sp.get none (stIn stReady (queued 3
    uCore)).blk.ras.running (stQueue 3) = none ∧ (stIn stReady (queued 3 uCore)).blk.cdOff = false ∧ Sp.get [] (stIn stReady
    (queued 3 uCore)).blk.ras.queues (stQueue 3) = [uCore] ∧ (stIn stReady (queued 3 uCore)).blk.testable uCore = true ∧ (stIn
    stReady (queued 3 uCore)).blk.testFits uCore = true := by decide +kernel
theorem test_selftest_pass : uGath.kind = 4 ∧ 36 ≤ uGath.unit ∧ uGath.unit < 2 ^ 11 ∧ uGath.die < 32 ∧ Sp.get none
    x_selftest_pass0.blk.ras.running (stQueue 9) = some { unit := uGath, started := 100 } ∧ 100 ≤ x_selftest_pass0.blk.now ∧
    x_selftest_pass0.blk.transientCount uGath + 1 < x_selftest_pass0.blk.rd RAS_CFG.transient_limit := by decide +kernel
theorem test_selftest_fail : uGath.kind = 4 ∧ 36 ≤ uGath.unit ∧ uGath.unit < 2 ^ 11 ∧ uGath.die < 32 ∧ Sp.get none
    x_selftest_fail0.blk.ras.running (stQueue 9) = some { unit := uGath, started := 100 } ∧ 100 ≤ x_selftest_fail0.blk.now ∧
    x_selftest_fail0.blk.transientCount uGath + 1 < x_selftest_fail0.blk.rd RAS_CFG.transient_limit := by decide +kernel
/-! SparesReplaceWhatFails -/
theorem test_fence_copy : wFence.blk.ras.fences = [fence1] ∧ fence1.cd = 4 ∧ fence1.stage = 1 ∧ fence1.copyEnd ≤ wFence.blk.now
    ∧ fence1.site < 32 ∧ fence1.spare < 36 ∧ wFence.blk.err = [] ∧ wFence.blk.dstate ≠ stRun ∧ wFence.blk.rd (SITE_MAP.phys 4
    fence1.site) ≠ fence1.spare ∧ wFence.blk.rd (SITE_MAP.phys 4 fence1.site) < 36 := by decide +kernel
theorem test_watchdog : stStandby < (stIn stReady id).blk.dstate ∧ (stIn stReady id).blk.ras.injects = [] ∧ (stIn stReady
    id).blk.ras.ctlLost = [] ∧ 0 = 0 ∧ 7 < (if 0 = 0 then 8 else 3) ∧ Sp.get [] (stIn stReady id).blk.ras.queues 0 = [] := by
    decide +kernel
theorem test_watchdog_cd : stStandby < (stIn stReady id).blk.dstate ∧ (stIn stReady id).blk.ras.injects = [] ∧ (stIn stReady
    id).blk.ras.ctlLost = [] ∧ (stIn stReady id).blk.cdOff = false ∧ 2 < (if 12 = 0 then 8 else 3) ∧ Sp.get [] (stIn stReady
    id).blk.ras.queues 12 = [] := by decide +kernel
theorem test_phase1 : (stIn stReady id).blk.dstate ≠ stOff ∧ (stIn stReady id).blk.ras.injects = [] ∧ Sp.get 0 (stIn stReady
    id).blk.power.phasesLost 39 = 0 := by decide +kernel
theorem test_phase2 : x_phase20.blk.dstate ≠ stOff ∧ x_phase20.blk.ras.injects = [] ∧ Sp.get 0 x_phase20.blk.power.phasesLost 39
    ≠ 0 := by decide +kernel
/-! EventsEnterTheRingAndAreReported -/
theorem test_ring_low : (stIn stReady (evHeld (evRec 7000 2))).blk.nextHeld = some (evRec 7000 2) ∧ (evRec 7000 2).time + 2000 ≤
    (stIn stReady (evHeld (evRec 7000 2))).blk.now := by decide +kernel
theorem test_ring_high : x_ring_high0.blk.nextHeld = some (evRec 7000 3) ∧ (evRec 7000 3).time + 2000 ≤ x_ring_high0.blk.now :=
    by decide +kernel
theorem test_coalesce0 : (wCoal 0).blk.ev.coal = [coal1 0] ∧ (coal1 0).opened + 1000000 ≤ (wCoal 0).blk.now := by decide +kernel
theorem test_coalesce3 : (wCoal 3).blk.ev.coal = [coal1 3] ∧ (coal1 3).opened + 1000000 ≤ (wCoal 3).blk.now := by decide +kernel
theorem test_status_msg : wStatus.blk.dstate ≠ stOff ∧ wStatus.blk.ras.lastStatus + 1000000000 ≤ wStatus.blk.now ∧
    wStatus.blk.faultMgrs = [0] ∧ wStatus.blk.on SEC_STATUS.key_ok = true := by decide +kernel
/-! SegmentsAreReassembled -/
theorem test_segment_kept : (stIn stReady id).blk.dstate ≠ stOff ∧ (seg1 1 1409).magic = 1415073095 ∧ (seg1 1 1409).version = 1
    ∧ (seg1 1 1409).seg.toNat < (seg1 1 1409).segs.toNat ∧ (seg1 1 1409).length.toNat ≤ 262144 ∧ (seg1 1 1409).body.length ≤
    1408 ∧ (seg1 1 1409).relay = false ∧ (∀ (m : Reasm), m ∈ (stIn stReady id).blk.mgmt.reasm → ¬(m.sender = (seg1 1
    1409).sender ∧ m.requestId = (seg1 1 1409).requestId)) ∧ (stIn stReady id).blk.mgmt.reasm.length < 8 ∧ 1 < (seg1 1
    1409).segs.toNat ∧ (seg1 1 1409).body.length < (seg1 1 1409).length.toNat ∧ (seg1 1 1409).body ≠ [] := by decide +kernel
theorem test_segment_bad : (stIn stReady id).blk.dstate ≠ stOff ∧ 262144 < y_segment_bad0.length.toNat := by decide +kernel
theorem test_segment_on : seg3.magic = 1415073095 ∧ seg3.version = 1 ∧ seg3.seg.toNat < seg3.segs.toNat ∧ seg3.length.toNat ≤
    262144 ∧ seg3.body.length ≤ 1408 ∧ (stIn stReady id).blk.dstate ≠ stOff ∧ seg3.relay = true ∧ seg3.target.toNat ≠ (stIn
    stReady id).blk.coord 0 := by decide +kernel
theorem test_segment_pkt : List.find? (fun y => decide (y.pkt = relayPkt ∧ (fun b y => b.linkOut y.ld) x_segment_pkt0.blk y =
    true)) x_segment_pkt0.blk.inbox = some (inPkt relayPkt) ∧ hMark (BitVec.toNat relayPkt.hdr) = false ∧ (segOfPkt
    relayPkt).mtype ≠ 48 ∧ (segOfPkt relayPkt).mtype ≠ 49 ∧ x_segment_pkt0.blk.dstate ≠ stOff ∧ (segOfPkt relayPkt).magic =
    1415073095 ∧ (segOfPkt relayPkt).version = 1 ∧ (segOfPkt relayPkt).seg.toNat < (segOfPkt relayPkt).segs.toNat ∧ (segOfPkt
    relayPkt).length.toNat ≤ 262144 ∧ (segOfPkt relayPkt).body.length ≤ 1408 ∧ (segOfPkt relayPkt).target.toNat =
    x_segment_pkt0.blk.coord 0 ∧ (∀ (m : Reasm), m ∈ x_segment_pkt0.blk.mgmt.reasm → ¬(m.sender = (segOfPkt relayPkt).sender ∧
    m.requestId = (segOfPkt relayPkt).requestId)) ∧ x_segment_pkt0.blk.mgmt.reasm.length < 8 ∧ 1 < (segOfPkt
    relayPkt).segs.toNat ∧ (segOfPkt relayPkt).body.length < (segOfPkt relayPkt).length.toNat ∧ (segOfPkt relayPkt).body ≠ [] :=
    by decide +kernel
theorem test_reply_pkt : List.find? (fun y => decide (y.pkt = replyPkt ∧ (fun b y => b.linkOut y.ld) (wReply 44).blk y = true))
    (wReply 44).blk.inbox = some (inPkt replyPkt) ∧ hMark (BitVec.toNat replyPkt.hdr) = false ∧ (segOfPkt replyPkt).mtype = 48 ∧
    (wReply 44).blk.mgmt.relays = [((segOfPkt replyPkt).requestId, 9)] := by decide +kernel
theorem test_reply_last : List.find? (fun y => decide (y.pkt = lastPkt ∧ (fun b y => b.linkOut y.ld) (wReply 44).blk y = true))
    (wReply 44).blk.inbox = some (inPkt lastPkt) ∧ hMark (BitVec.toNat lastPkt.hdr) = false ∧ (segOfPkt lastPkt).mtype = 48 ∧
    (wReply 44).blk.mgmt.relays = [((segOfPkt lastPkt).requestId, 9)] := by decide +kernel
theorem test_reply_back : stStandby < wRelayed.blk.dstate ∧ wRelayed.blk.dstate ≠ stRecovery ∧ wRelayed.blk.auths.contains
    okReq.auth.toNat = true ∧ okReq.sigValid = true ∧ wRelayed.blk.rd (MGMT_AUTH_SEQ.last okReq.auth.toNat) <
    okReq.requestId.toNat ∧ wRelayed.blk.on SEC_STATUS.key_ok = true ∧ wRelayed.blk.mgmt.relayFrom = [{ auth := okReq.auth, requestId := okReq.requestId, coord := 5 }]
    := by decide +kernel
theorem test_segment_timeout : wReasm.blk.mgmt.reasm = [{ sender := 9, requestId := 44, mtype := 19, length := 1409, segs := 2, since := 500, parts := [] }]
    ∧ 9 = 9 ∧ 44 = 44 ∧ 500 + 100000000 ≤ wReasm.blk.now := by decide +kernel
theorem test_icmp_own : (stIn stReady id).blk.dstate ≠ stOff := by decide +kernel
theorem test_icmp_echo : (stIn stReady id).blk.dstate ≠ stOff := by decide +kernel
theorem test_icmp_other : (stIn stReady id).blk.dstate ≠ stOff ∧ 0 ≠ (stIn stReady id).blk.mgmtAddr := by decide +kernel
theorem test_icmp_other2 : (stIn stReady id).blk.dstate ≠ stOff ∧ 0 ≠ (stIn stReady id).blk.mgmtAddr := by decide +kernel
/-! ManagementRequestsAreServed -/
theorem test_read_reg : (served stReady id).blk.dstate ≠ stOff ∧ (served stReady id).blk.dstate ≠ stRecovery ∧ (served stReady
    id).blk.auths.contains okReq.auth.toNat = true ∧ okReq.sigValid = true ∧ (served stReady id).blk.rd (MGMT_AUTH_SEQ.last
    okReq.auth.toNat) < okReq.requestId.toNat ∧ (served stReady id).blk.on SEC_STATUS.key_ok = true ∧ (∀ (e : RelayEnd), e ∈
    (served stReady id).blk.mgmt.relayFrom → ¬(e.auth.toNat = okReq.auth.toNat % 256 ∧ e.requestId.toNat =
    okReq.requestId.toNat)) ∧ stStandby < (served stReady id).blk.dstate ∧ regOfAddr (BitVec.ofNat 48 Reg.glbPart.addr).toNat =
    some Reg.glbPart ∧ (BitVec.ofNat 48 Reg.glbPart.addr).toNat % 8 = 0 ∧ isRegAddr (BitVec.ofNat 48 Reg.glbPart.addr).toNat =
    true ∧ (served stReady id).blk.poweredOff (BitVec.ofNat 48 Reg.glbPart.addr).toNat false = false := by decide +kernel
theorem test_write_reg : (served stReady id).blk.dstate ≠ stOff ∧ (served stReady id).blk.dstate ≠ stRecovery ∧ (served stReady
    id).blk.auths.contains okReq.auth.toNat = true ∧ okReq.sigValid = true ∧ (served stReady id).blk.rd (MGMT_AUTH_SEQ.last
    okReq.auth.toNat) < okReq.requestId.toNat ∧ (served stReady id).blk.on SEC_STATUS.key_ok = true ∧ (∀ (e : RelayEnd), e ∈
    (served stReady id).blk.mgmt.relayFrom → ¬(e.auth.toNat = okReq.auth.toNat % 256 ∧ e.requestId.toNat =
    okReq.requestId.toNat)) ∧ regOfAddr (BitVec.ofNat 48 (Reg.idScratch 18).addr).toNat = some (Reg.idScratch 18) ∧ Plain
    (Reg.idScratch 18) ∧ (∀ (f : FieldSpec), f ∈ (Reg.idScratch 18).fields → f.acc = Acc.rw) ∧ (BitVec.ofNat 48 (Reg.idScratch
    18).addr).toNat % 8 = 0 ∧ isRegAddr (BitVec.ofNat 48 (Reg.idScratch 18).addr).toNat = true ∧ (served stReady
    id).blk.poweredOff (BitVec.ofNat 48 (Reg.idScratch 18).addr).toNat true = false := by
  refine ⟨by decide +kernel, by decide +kernel, by decide +kernel, by decide +kernel, by decide +kernel, by decide +kernel, by decide +kernel, by decide +kernel, ?_, by decide +kernel, by decide +kernel, by decide +kernel, by decide +kernel⟩
  exact ⟨fun _ _ _ => rfl, fun _ => rfl, fun _ _ => rfl, fun _ => rfl, fun _ => Reg.noConfusion⟩
theorem test_read_mem : x_read_mem0.blk.dstate ≠ stOff ∧ x_read_mem0.blk.dstate ≠ stRecovery ∧ x_read_mem0.blk.auths.contains
    okReq.auth.toNat = true ∧ okReq.sigValid = true ∧ x_read_mem0.blk.rd (MGMT_AUTH_SEQ.last okReq.auth.toNat) <
    okReq.requestId.toNat ∧ x_read_mem0.blk.on SEC_STATUS.key_ok = true ∧ (∀ (e : RelayEnd), e ∈ x_read_mem0.blk.mgmt.relayFrom
    → ¬(e.auth.toNat = okReq.auth.toNat % 256 ∧ e.requestId.toNat = okReq.requestId.toNat)) ∧ stStandby < x_read_mem0.blk.dstate
    ∧ 4096 % 32 = 0 ∧ 96 % 32 = 0 ∧ 0 < 96 ∧ 96 ≤ 65536 ∧ x_read_mem0.blk.placeRun 4096 (96 / 32) = some 4096 ∧ 4096 % 32 = 0 ∧
    x_read_mem0.blk.err = [] ∧ x_read_mem0.blk.ras.deadBlocks = [] ∧ x_read_mem0.blk.ras.injects = [] := by decide +kernel
theorem test_read_mem_max : (served stReady id).blk.dstate ≠ stOff ∧ (served stReady id).blk.dstate ≠ stRecovery ∧ (served
    stReady id).blk.auths.contains okReq.auth.toNat = true ∧ okReq.sigValid = true ∧ (served stReady id).blk.rd
    (MGMT_AUTH_SEQ.last okReq.auth.toNat) < okReq.requestId.toNat ∧ (served stReady id).blk.on SEC_STATUS.key_ok = true ∧ (∀ (e
    : RelayEnd), e ∈ (served stReady id).blk.mgmt.relayFrom → ¬(e.auth.toNat = okReq.auth.toNat % 256 ∧ e.requestId.toNat =
    okReq.requestId.toNat)) ∧ stStandby < (served stReady id).blk.dstate ∧ 0 % 32 = 0 ∧ 65536 % 32 = 0 ∧ 0 < 65536 ∧ 65536 ≤
    65536 ∧ (served stReady id).blk.placeRun 0 (65536 / 32) = some 0 ∧ 0 % 32 = 0 ∧ (served stReady id).blk.err = [] ∧ (served
    stReady id).blk.ras.deadBlocks = [] ∧ (served stReady id).blk.ras.injects = [] := by decide +kernel
theorem test_tod_now : wSync.blk.dstate ≠ stOff ∧ wSync.blk.dstate ≠ stRecovery ∧ wSync.blk.auths.contains okReq.auth.toNat =
    true ∧ okReq.sigValid = true ∧ wSync.blk.rd (MGMT_AUTH_SEQ.last okReq.auth.toNat) < okReq.requestId.toNat ∧ wSync.blk.on
    SEC_STATUS.key_ok = true ∧ (∀ (e : RelayEnd), e ∈ wSync.blk.mgmt.relayFrom → ¬(e.auth.toNat = okReq.auth.toNat % 256 ∧
    e.requestId.toNat = okReq.requestId.toNat)) ∧ wSync.blk.dstate = stSync ∧ wSync.blk.on MTC_CTRL.root_enable = true ∧
    wSync.blk.rd MTC_EPOCH.tai_s * 1000000000 ≤ 9000000000 := by decide +kernel
theorem test_tod_pps : wSync.blk.dstate ≠ stOff ∧ wSync.blk.dstate ≠ stRecovery ∧ wSync.blk.auths.contains okReq.auth.toNat =
    true ∧ okReq.sigValid = true ∧ wSync.blk.rd (MGMT_AUTH_SEQ.last okReq.auth.toNat) < okReq.requestId.toNat ∧ wSync.blk.on
    SEC_STATUS.key_ok = true ∧ (∀ (e : RelayEnd), e ∈ wSync.blk.mgmt.relayFrom → ¬(e.auth.toNat = okReq.auth.toNat % 256 ∧
    e.requestId.toNat = okReq.requestId.toNat)) ∧ wSync.blk.dstate = stSync ∧ wSync.blk.on MTC_CTRL.root_enable = true ∧
    wSync.blk.rd MTC_EPOCH.tai_s * 1000000000 ≤ 9000000000 := by decide +kernel
theorem test_power_limit : (served stRun id).blk.dstate ≠ stOff ∧ (served stRun id).blk.dstate ≠ stRecovery ∧ (served stRun
    id).blk.auths.contains okReq.auth.toNat = true ∧ okReq.sigValid = true ∧ (served stRun id).blk.rd (MGMT_AUTH_SEQ.last
    okReq.auth.toNat) < okReq.requestId.toNat ∧ (served stRun id).blk.on SEC_STATUS.key_ok = true ∧ (∀ (e : RelayEnd), e ∈
    (served stRun id).blk.mgmt.relayFrom → ¬(e.auth.toNat = okReq.auth.toNat % 256 ∧ e.requestId.toNat = okReq.requestId.toNat))
    ∧ stStandby < (served stRun id).blk.dstate := by decide +kernel
/-! I3cTargetAnswers -/
theorem test_i3c_addr : (stIn stReady id).blk.dstate ≠ stOff := by decide +kernel
theorem test_i3c_read : x_i3c_read0.blk.dstate ≠ stOff ∧ x_i3c_read0.blk.mgmt.i3cAddr = some 127 := by decide +kernel
/-! HostRequestsAndMailboxAreAnswered -/
theorem test_host_req : wHost.blk.hostUp = true ∧ wHost.blk.hostHeld.length < 256 ∧ wHost.blk.cxlClosed = false ∧
    wHost.blk.hostDev (2 ^ 40 + 33 : BitVec 64).toNat = some (2 ^ 28 + 33) ∧ (2 ^ 28 + 33) / 32 * 32 < wHost.blk.memEnd := by
    decide +kernel
theorem test_host_ur : wHost.blk.hostUp = true ∧ wHost.blk.hostHeld.length < 256 ∧ wHost.blk.hostDev (2 ^ 40 + 2 ^ 29 : BitVec
    64).toNat = none := by decide +kernel
theorem test_host_closed : (st fun x => wHost.blk.updHost fun x => { hdmBase := x.hdmBase, perst := x.perst, holdReport := x.holdReport, msixPending := x.msixPending, msixSent := x.msixSent, pullBusy := x.pullBusy, fenced := true, range1 := x.range1 }).blk.hostUp
    = true ∧ (st fun x => wHost.blk.updHost fun x => { hdmBase := x.hdmBase, perst := x.perst, holdReport := x.holdReport, msixPending := x.msixPending, msixSent := x.msixSent, pullBusy := x.pullBusy, fenced := true, range1 := x.range1 }).blk.hostHeld.length
    < 256 ∧ (st fun x => wHost.blk.updHost fun x => { hdmBase := x.hdmBase, perst := x.perst, holdReport := x.holdReport, msixPending := x.msixPending, msixSent := x.msixSent, pullBusy := x.pullBusy, fenced := true, range1 := x.range1 }).blk.cxlClosed
    = true := by decide +kernel
theorem test_host_serve : List.find? (fun r => decide (r.serves = MemFor.host)) (Sp.get [] wServe.blk.memReqs 127) = some
    (hostReq false 8160) ∧ wServe.blk.reqWindow 127 (hostReq false 8160) = true ∧ wServe.blk.refreshWait 127 (hostReq false
    8160).words = false ∧ (hostReq false 8160).write = false ∧ (hostReq false 8160).words = 1 ∧ wServe.blk.err = [] ∧
    wServe.blk.ras.deadBlocks = [] ∧ wServe.blk.ras.injects = [] := by decide +kernel
theorem test_host_expire : (wHeld false).blk.hostHeld = [(5, hostReq false 96)] ∧ (hostReq false 96).serves = MemFor.host ∧
    (hostReq false 96).write = false ∧ (hostReq false 96).heldAt + max 1 ((wHeld false).blk.rd CXL_CFG.hold_us) * 1000 ≤ (wHeld
    false).blk.now := by decide +kernel
theorem test_host_discard : (wHeld true).blk.hostHeld = [(5, hostReq true 96)] ∧ (hostReq true 96).serves = MemFor.host ∧
    (hostReq true 96).write = true ∧ (wHeld true).blk.run.job = none ∧ (hostReq true 96).heldAt + max 1 ((wHeld true).blk.rd
    CXL_CFG.hold_us) * 1000 ≤ (wHeld true).blk.now := by decide +kernel
theorem test_identify : wHost.blk.hostUp = true := by decide +kernel
theorem test_logs : wHost.blk.hostUp = true := by decide +kernel
theorem test_health : wHost.blk.hostUp = true := by decide +kernel
theorem test_getlog : wHost.blk.hostUp = true := by decide +kernel
theorem test_getlog_other : wHost.blk.hostUp = true ∧ Config.celUuid + 1 ≠ Config.celUuid :=
  ⟨by decide +kernel, by
    intro h
    have := congrArg (fun x => x - Config.celUuid) h
    simp at this⟩
theorem test_mailbox_other : wHost.blk.hostUp = true := by decide +kernel
theorem test_doe : wHost.blk.hostUp = true := by decide +kernel
theorem test_doe_none : wHost.blk.hostUp = true := by decide +kernel
/-! HostLinkRingAndVectors -/
theorem test_cxl_up : stStandby < (stIn stReady id).blk.dstate ∧ (stIn stReady id).blk.on CXL_STATUS.link_up = false ∧ (stIn
    stReady id).blk.host.perst = false ∧ (stIn stReady id).blk.host.fenced = false ∧ (stIn stReady id).blk.rd CXL_PULL_IDX.head
    = (stIn stReady id).blk.rd CXL_PULL_IDX.tail ∧ 2 = 2 ∧ 8 = 8 := by decide +kernel
theorem test_cxl_shape : stStandby < (stIn stReady id).blk.dstate ∧ (stIn stReady id).blk.on CXL_STATUS.link_up = false ∧ (stIn
    stReady id).blk.host.perst = false ∧ (stIn stReady id).blk.host.fenced = false ∧ (stIn stReady id).blk.rd CXL_PULL_IDX.head
    = (stIn stReady id).blk.rd CXL_PULL_IDX.tail ∧ ¬((3 = 1 ∨ 3 = 2) ∧ (15 = 4 ∨ 15 = 8)) := by decide +kernel
theorem test_cxl_down : stStandby < wHost.blk.dstate ∧ wHost.blk.on CXL_STATUS.link_up = true := by decide +kernel
theorem test_perst : wHost.blk.hostHeld = [] ∧ wHost.blk.run.pulling = none ∧ wHost.blk.host.pullBusy = none := by decide +kernel
theorem test_perst_end : wHost.blk.rd CXL_PULL_IDX.head = wHost.blk.rd CXL_PULL_IDX.tail := by decide +kernel
theorem test_decoder : wHost.blk.hostUp = true := by decide +kernel
theorem test_pull_done : (wRing id).blk.place ((wRing id).blk.rd CXL_PULL_BASE.addr + 32 * (wRing id).blk.rd CXL_PULL_IDX.tail)
    = some (4096 + 32 * 1023) ∧ (4096 + 32 * 1023) % 32 = 0 ∧ 1 + 7 * 2 ^ 216 = BitVec.toNat ((wRing id).blk.rawWord (4096 + 32
    * 1023)).fst ∧ (wRing id).blk.err = [] ∧ (wRing id).blk.ras.deadBlocks = [] ∧ (wRing id).blk.ras.injects = [] ∧ (wRing
    id).blk.run.pulling = none ∧ (wRing id).blk.hostUp = true ∧ (wRing id).blk.host.pullBusy.isSome = true ∧ (wRing
    id).blk.pullWindow = true ∧ bit (1 + 7 * 2 ^ 216) 0 = true ∧ (wRing id).blk.rd CXL_PULL_IDX.head = ((wRing id).blk.rd
    CXL_PULL_IDX.tail + 1) % 1024 ∧ (wRing id).blk.rd CXL_PULL_IDX.stopped = 0 := by decide +kernel
theorem test_pull_fail : (wRing id).blk.place ((wRing id).blk.rd CXL_PULL_BASE.addr + 32 * (wRing id).blk.rd CXL_PULL_IDX.tail)
    = some (4096 + 32 * 1023) ∧ (4096 + 32 * 1023) % 32 = 0 ∧ 1 + 7 * 2 ^ 216 = BitVec.toNat ((wRing id).blk.rawWord (4096 + 32
    * 1023)).fst ∧ (wRing id).blk.err = [] ∧ (wRing id).blk.ras.deadBlocks = [] ∧ (wRing id).blk.ras.injects = [] ∧ (wRing
    id).blk.run.pulling = none ∧ (wRing id).blk.hostUp = true ∧ (wRing id).blk.host.pullBusy.isSome = true ∧ (wRing
    id).blk.pullWindow = true ∧ (wRing id).blk.dstate ≠ stRun := by decide +kernel
theorem test_pull_late : (wRing (atNs 50000700)).blk.place ((wRing (atNs 50000700)).blk.rd CXL_PULL_BASE.addr + 32 * (wRing
    (atNs 50000700)).blk.rd CXL_PULL_IDX.tail) = some (4096 + 32 * 1023) ∧ (4096 + 32 * 1023) % 32 = 0 ∧ 1 + 7 * 2 ^ 216 =
    BitVec.toNat ((wRing (atNs 50000700)).blk.rawWord (4096 + 32 * 1023)).fst ∧ (wRing (atNs 50000700)).blk.err = [] ∧ (wRing
    (atNs 50000700)).blk.ras.deadBlocks = [] ∧ (wRing (atNs 50000700)).blk.ras.injects = [] ∧ (wRing (atNs
    50000700)).blk.run.pulling = none ∧ (wRing (atNs 50000700)).blk.host.pullBusy = some 700 ∧ 700 + 50000000 ≤ (wRing (atNs
    50000700)).blk.now ∧ (wRing (atNs 50000700)).blk.dstate ≠ stRun := by decide +kernel
theorem test_vector : wVector.blk.hostUp = true ∧ 15 ∈ wVector.blk.host.msixPending ∧ (∀ (t : Nat), Sp.get none
    wVector.blk.host.msixSent 15 = some t → t + wVector.blk.rd CXL_CFG.msix_gap_us * 1000 ≤ wVector.blk.now) := by
    decide +kernel
/-! StepRunsTheCommandInFront -/
theorem test_step_idle : (stIn stReady id).pending = [] ∧ (stIn stReady id).blk.locked = false ∧ (stIn stReady id).blk.crossing
    = [] ∧ (stIn stReady id).blk.dstate ≠ stOff := by decide +kernel

end Sys2Proof.Tests
end

section
/-!
PROOFS. Rules that several statements share: a command's effect on the block, what an event leaves alone (R294), a reply that
leaves by the module's own port (R339, R340), and the entry of a device state (R259).
-/
namespace Sys2Proof.Proofs
open Sys2Proof Sys2Proof.Machine Sys2Proof.Says

/-- A command whose meaning is an effect on the block does what the effect's result satisfies. -/
theorem does_of_onBlk {c : Instr} {s : State} {f : Blk → Blk} {P : Blk → Prop} (hc : exec c s = onBlk s f) (h : P (f s.blk)) :
    Does c s P := ⟨f s.blk, hc, h⟩

/-! ### Events -/

@[simp] theorem raise_sched (b : Blk) (die unit code detail : Nat) : (b.raise die unit code detail).sched = b.sched := by
  rw [raise_eq]
@[simp] theorem raise_mgmt (b : Blk) (die unit code detail : Nat) : (b.raise die unit code detail).mgmt = b.mgmt := by
  rw [raise_eq]
@[simp] theorem setCoal_out (b : Blk) (c : Coal) : (b.setCoal c).out = b.out := rfl
@[simp] theorem setCoal_held (b : Blk) (c : Coal) : (b.setCoal c).ev.held = b.ev.held := rfl
@[simp] theorem hold_out (b : Blk) (e : EvRec) : (b.hold e).out = b.out := rfl
@[simp] theorem hold_held (b : Blk) (e : EvRec) : (b.hold e).ev.held = b.ev.held ++ [e] := rfl
@[simp] theorem ibi_held (b : Blk) (m : Nat) : (b.ibi m).ev.held = b.ev.held := by
  unfold Blk.ibi; split <;> rfl

/-- Detecting an event only adds to the records held, and only EV_THERMAL (0x0901) sends something (R343). -/
theorem raise_appends (b : Blk) (die unit code detail : Nat) :
    (∃ l, (b.raise die unit code detail).ev.held = b.ev.held ++ l)
      ∧ (code ≠ 0x0901 → (b.raise die unit code detail).out = b.out) := by
  unfold Blk.raise Blk.raiseInj
  rw [← ifModFail_ev b (severity code = 3 && b.locked && code ≠ 0x0204),
    ← ifModFail_out b (severity code = 3 && b.locked && code ≠ 0x0204)]
  generalize ifB (severity code = 3 && b.locked && code ≠ 0x0204) Blk.modFail b = c
  dsimp only
  generalize EvRec.mk b.now die unit code (severity code) (b.evContext die unit false) (detail % 2 ^ 152) = x
  split
  · split
    · next k _ =>
      split
      · exact ⟨⟨[], by simp⟩, fun _ => rfl⟩
      · by_cases hk : 0 < k.count
        · exact ⟨⟨[k.followUp, x], by simp [ifB, hk]⟩, fun _ => by simp [ifB, hk]⟩
        · exact ⟨⟨[x], by simp [ifB, hk]⟩, fun _ => by simp [ifB, hk]⟩
    · exact ⟨⟨[x], rfl⟩, fun _ => rfl⟩
  · split
    · next h9 => exact ⟨⟨[x], by simp⟩, fun h => absurd h9 h⟩
    · exact ⟨⟨[x], rfl⟩, fun _ => rfl⟩

theorem raise_held_append (b : Blk) (die unit code detail : Nat) :
    ∃ l, (b.raise die unit code detail).ev.held = b.ev.held ++ l := (raise_appends b die unit code detail).1

theorem raise_out (b : Blk) (die unit code detail : Nat) (h9 : code ≠ 0x0901) : (b.raise die unit code detail).out = b.out :=
  (raise_appends b die unit code detail).2 h9

/-- An event that is not coalesced is logged with its detail (R294). -/
theorem raise_logged (b : Blk) (die unit code detail : Nat) (hc : coalesced code = false) (h9 : code ≠ 0x0901) :
    Logged die unit code detail b (b.raise die unit code detail) := by
  refine ⟨[⟨b.now, die, unit, code, severity code, b.evContext die unit false, detail % 2 ^ 152⟩], ?_, _,
    List.mem_singleton_self _, rfl, rfl, rfl, rfl, rfl, rfl⟩
  rw [Blk.raise, raiseInj_ev b false die unit code detail hc h9]

/-- Only the events and the time of the block before matter to what has been logged since. -/
theorem logged_since {die unit code detail : Nat} {b b' c : Blk} (hev : b.ev = b'.ev) (hnow : b.now = b'.now)
    (h : Logged die unit code detail b c) : Logged die unit code detail b' c := by
  unfold Logged at *
  rwa [← hev, ← hnow]

/-- A record that is logged stays so while others join it. -/
theorem logged_append {die unit code detail : Nat} {b c c' : Blk} (h : Logged die unit code detail b c)
    (hl : ∃ l, c'.ev.held = c.ev.held ++ l) : Logged die unit code detail b c' := by
  obtain ⟨l, hc, x, hx, hrec⟩ := h
  obtain ⟨l', hc'⟩ := hl
  exact ⟨l ++ l', by rw [hc', hc, List.append_assoc], x, List.mem_append_left _ hx, hrec⟩

/-- EV_QUORUM_REJECT adds its record to the events and changes nothing else. -/
theorem quorumReject_eq (b : Blk) (reason seq : Nat) :
    b.quorumReject reason seq = { b with ev := (b.quorumReject reason seq).ev } := by
  have hc : coalesced 0x0A01 = false := by decide
  have h := raise_eq b 0 uSec 0x0A01 (reason + seq % 2 ^ 64 * 2 ^ 8)
  rw [Blk.raise, raiseInj_vote b false _ _ _ _ hc (by decide) (by decide), raiseInj_out b false _ _ _ _ hc (by decide)] at h
  exact h

theorem quorumReject_raised (b : Blk) (reason seq : Nat) :
    Raised 0 14 0x0A01 (reason + seq % 2 ^ 64 * 2 ^ 8) b (b.quorumReject reason seq) :=
  ⟨_, raiseInj_ev b false 0 uSec 0x0A01 _ (by decide) (by decide)⟩

theorem quorumReject_logged (b : Blk) (reason seq : Nat) :
    Logged 0 14 0x0A01 (reason + seq % 2 ^ 64 * 2 ^ 8) b (b.quorumReject reason seq) :=
  raise_logged b 0 uSec 0x0A01 _ (by decide) (by decide)

@[simp] theorem quorumReject_rd (b : Blk) (reason seq : Nat) (f : Fld) : (b.quorumReject reason seq).rd f = b.rd f := raise_rd ..

/-! ### Replies -/

theorem dispatchMsg_direct (b : Blk) (auth mtype id status : Nat) (body : List Byte) (h : Direct auth id b) :
    b.dispatchMsg auth mtype id status body = b.emit (.message auth mtype id status body) := by
  have hnone : b.mgmt.relayFrom.find? (fun r => 0x30 ≤ mtype ∧ r.auth.toNat = auth % 256 ∧ r.requestId.toNat = id) = none :=
    List.find?_eq_none.2 fun e he hx => h e he (by simpa using (of_decide_eq_true hx).2)
  unfold Blk.dispatchMsg
  rw [hnone]

/-- What the module answers leaves signed, by its own port, as the next output. -/
theorem send_reply (b : Blk) (r : MgmtReq) (status : Nat) (body : List Byte) (h : Answers r b) :
    b.send r.auth.toNat 0x30 r.requestId.toNat status body
      = b.emit (.message r.auth.toNat 0x30 r.requestId.toNat status body) := by
  obtain ⟨hkey, hdirect⟩ := h
  rw [Blk.send, if_pos hkey, dispatchMsg_direct _ _ _ _ _ _ hdirect]

theorem answers_congr {r : MgmtReq} {b b' : Blk} (hkey : b'.on SEC_STATUS.key_ok = b.on SEC_STATUS.key_ok)
    (hmgmt : b'.mgmt = b.mgmt) (h : Answers r b) : Answers r b' := by
  obtain ⟨hk, hd⟩ := h
  exact ⟨hkey.trans hk, fun e he => hd e (hmgmt ▸ he)⟩

/-- Writing a register other than SEC_STATUS leaves the module able to answer. -/
theorem answers_wr {r : MgmtReq} {b : Blk} (f : Fld) (v : Nat) (hf : Reg.secStatus.addr ≠ f.reg.addr) (h : Answers r b) :
    Answers r (b.wr f v) := answers_congr (wr_on_ne b f SEC_STATUS.key_ok v hf) rfl h

/-- An accepted request's reply: counted, and the next output (R345). -/
theorem mgmtReply_eq (b : Blk) (r : MgmtReq) (status : Nat) (body : List Byte) (h : Answers r b) :
    b.mgmtReply r.auth.toNat r.requestId.toNat status body
      = (b.satBy MGMT_COUNT.accepted 1).emit (.message r.auth.toNat 0x30 r.requestId.toNat status body) :=
  send_reply _ r status body (answers_wr _ _ (by decide) h)

/-- A rejected request's reply: counted, with EV_MGMT_REJECT, and the next output (R345). -/
theorem mgmtReject_eq (b : Blk) (r : MgmtReq) (mtype status : Nat) (body : List Byte) (h : Answers r b) :
    b.mgmtReject mtype r.auth.toNat r.requestId.toNat status body
      = ((b.satBy MGMT_COUNT.rejected 1).raise 0 uMgmt 0x0B03
          (mtype % 256 + status * 2 ^ 8 + r.auth.toNat % 256 * 2 ^ 16)).emit
          (.message r.auth.toNat 0x30 r.requestId.toNat status body) :=
  send_reply _ r status body (answers_congr (raise_on ..) (raise_mgmt ..) (answers_wr MGMT_COUNT.rejected _ (by decide) h))

/-- R339: a request that is accepted is numbered, and its type's own meaning follows. -/
theorem authRequest_accepted (mtype : Nat) (inRecovery : Bool) (r : MgmtReq) (f : Blk → Blk) (b : Blk) (h : Accepted r b) :
    authRequest mtype inRecovery r f b = f (b.wr (MGMT_AUTH_SEQ.last r.auth.toNat) r.requestId.toNat) := by
  obtain ⟨hoff, hrecovery, hauth, hsig, hseq, -, -⟩ := h
  simp [authRequest, hoff, hrecovery, List.contains_iff_mem.1 hauth, hsig, hseq]

/-! ### Device states -/

theorem ibi_eq (b : Blk) (m : Nat) : b.ibi m = { b with out := (b.ibi m).out } := by
  unfold Blk.ibi; split <;> rfl

/-- Entering a state writes CTL_STATE and the time of entry, and may raise a vector and an interrupt (R259). -/
theorem enter_eq (b : Blk) (st : Nat) :
    b.enter st = { b with regs := (b.enter st).regs, host := (b.enter st).host, out := (b.enter st).out } := by
  unfold Blk.enter
  split
  · rfl
  · rw [ibi_eq]; rfl

theorem enter_reg (b : Blk) (st : Nat) (r : Reg) :
    (b.enter st).reg r = ((b.wr CTL_STATE.state st).setReg .ctlStateTime b.now).reg r := by
  unfold Blk.enter
  split
  · rfl
  · rw [ibi_eq]; rfl

theorem enter_entered (b : Blk) (st : Nat) (h : st < 16) : Entered st b (b.enter st) := by
  constructor
  · have hne : CTL_STATE.state.reg.addr ≠ Reg.ctlStateTime.addr := by decide
    rw [Blk.dstate, Blk.rd, enter_reg, setReg_reg_ne _ _ _ _ hne, ← Blk.rd, wr_rd_same _ _ _ (by decide)]
    exact Nat.mod_eq_of_lt h
  · rw [enter_reg, setReg_reg_same]

end Sys2Proof.Proofs
end

section
/-!
PROOFS. Register writes: what a write leaves in each field (R6 to R10), its completion status (R369), and the accesses that
reach no register (R367, R368).
-/
namespace Sys2Proof.Proofs
open Sys2Proof Sys2Proof.Machine Sys2Proof.Says

/-! ### Fields of a register -/

theorem setBits_bits_self (x lo w : Nat) : setBits x lo w (bits x lo w) = x := by
  apply Nat.eq_of_testBit_eq; intro i
  rw [testBit_setBits, testBit_bits]
  split
  · rfl
  · split
    · have h : lo + (i - lo) = i := by omega
      simp [h, show i - lo < w by omega]
    · rfl

/-- Fields listed in rising order from bit `n` on, without overlap, within a 64-bit word. -/
def inOrder : Nat → List FieldSpec → Bool
  | n, [] => decide (n ≤ 64)
  | n, f :: l => decide (n ≤ f.lo) && inOrder (f.lo + f.w) l

/-- Every register's table lists its fields so (R6). -/
theorem fields_inOrder (r : Reg) : inOrder 0 r.fields = true := by
  cases r <;> rfl

theorem inOrder_cons {n : Nat} {f : FieldSpec} {l : List FieldSpec} (h : inOrder n (f :: l) = true) :
    n ≤ f.lo ∧ inOrder (f.lo + f.w) l = true := by
  simpa [inOrder] using h

theorem inOrder_le {n : Nat} {l : List FieldSpec} (h : inOrder n l = true) : n ≤ 64 := by
  induction l generalizing n with
  | nil => simpa [inOrder] using h
  | cons f l ih =>
    obtain ⟨hlo, hl⟩ := inOrder_cons h
    have := ih hl
    omega

theorem inOrder_mem {n : Nat} {l : List FieldSpec} (h : inOrder n l = true) {f : FieldSpec} (hf : f ∈ l) :
    n ≤ f.lo ∧ f.lo + f.w ≤ 64 := by
  induction l generalizing n with
  | nil => cases hf
  | cons e l ih =>
    obtain ⟨hlo, hl⟩ := inOrder_cons h
    rcases List.mem_cons.1 hf with rfl | hf
    · exact ⟨hlo, inOrder_le hl⟩
    · have := ih hl hf
      omega

theorem field_in_word {r : Reg} {f : FieldSpec} (hf : f ∈ r.fields) : f.lo + f.w ≤ 64 :=
  (inOrder_mem (fields_inOrder r) hf).2

/-- `x` with each of the fields `l` replaced by `g` of the field and what it held. -/
def setFields (g : FieldSpec → Nat → Nat) (l : List FieldSpec) (x : Nat) : Nat :=
  l.foldl (fun acc f => setBits acc f.lo f.w (g f (bits acc f.lo f.w))) x

theorem bits_setFields_below (g : FieldSpec → Nat → Nat) {n : Nat} {l : List FieldSpec} (x : Nat) {lo w : Nat}
    (hl : inOrder n l = true) (h : lo + w ≤ n) : bits (setFields g l x) lo w = bits x lo w :=
  foldl_keep _ (fun y => bits y lo w) l x fun y f hf =>
    bits_setBits_ne y f.lo f.w _ lo w (.inl (Nat.le_trans h (inOrder_mem hl hf).1))

/-- Fields in order are each set from what they held at first. -/
theorem bits_setFields (g : FieldSpec → Nat → Nat) {n : Nat} {l : List FieldSpec} (x : Nat) (hl : inOrder n l = true)
    {f : FieldSpec} (hf : f ∈ l) : bits (setFields g l x) f.lo f.w = g f (bits x f.lo f.w) % 2 ^ f.w := by
  induction l generalizing n x with
  | nil => cases hf
  | cons e l ih =>
    obtain ⟨-, hl⟩ := inOrder_cons hl
    have hstep : setFields g (e :: l) x = setFields g l (setBits x e.lo e.w (g e (bits x e.lo e.w))) := rfl
    rw [hstep]
    rcases List.mem_cons.1 hf with rfl | hf
    · rw [bits_setFields_below g _ hl (Nat.le_refl _), bits_setBits_same]
    · rw [ih _ hl hf, bits_setBits_ne _ _ _ _ _ _ (.inr (inOrder_mem hl hf).1)]

/-! ### What a write leaves -/

theorem fieldAfter_lt (locked : Bool) (f : FieldSpec) (old v : Nat) (ho : old < 2 ^ f.w) (hv : v < 2 ^ f.w) :
    fieldAfter locked f old v < 2 ^ f.w := by
  obtain ⟨lo, w, acc, cls, rst⟩ := f
  cases acc with
  | ro | rwq => exact ho
  | rw => exact hv
  | rwl => cases locked <;> assumption
  | w1s => exact Nat.or_lt_two_pow ho hv
  | w1c => exact Nat.lt_of_le_of_lt Nat.and_le_left ho

/-- A write that is no verified command sets each field by its access code (R6). -/
theorem mergeWrite_eq_setFields (b : Blk) (r : Reg) (v : Nat) :
    b.mergeWrite false r v = setFields (fun f old => fieldAfter b.locked f old (bits v f.lo f.w)) r.fields (b.reg r) := by
  unfold Blk.mergeWrite setFields
  congr 1
  funext x f
  obtain ⟨lo, w, acc, cls, rst⟩ := f
  cases acc with
  | ro | rwq => exact (setBits_bits_self x lo w).symm
  | rw | w1c | w1s => rfl
  | rwl => cases b.locked <;> simp [fieldAfter, setBits_bits_self]

theorem bits_mergeWrite (b : Blk) (r : Reg) (v : Nat) (f : FieldSpec) (hf : f ∈ r.fields) :
    bits (b.mergeWrite false r v) f.lo f.w = fieldAfter b.locked f (bits (b.reg r) f.lo f.w) (bits v f.lo f.w) := by
  rw [mergeWrite_eq_setFields, bits_setFields _ _ (fields_inOrder r) hf,
    Nat.mod_eq_of_lt (fieldAfter_lt _ _ _ _ (bits_lt ..) (bits_lt ..))]

/-- A plain register takes the merged value; the block's only other answer to the write is EV_QUORUM_REJECT (R8). -/
theorem writeReg_plain (b : Blk) (r : Reg) (v : Nat) (hr : Plain r) :
    b.writeReg false r v = (writeStatus r b.locked,
      if writeStatus r b.locked = 4 then (b.setReg r (b.mergeWrite false r v)).quorumReject 0 0
      else b.setReg r (b.mergeWrite false r v)) := by
  obtain ⟨hafter, hclamp, hdiscards, hinj, hsched⟩ := hr
  have hstatus : (if (r.fields.any fun f => f.acc = .rwq) && !false then stQuorum
      else if (r.fields.any fun f => f.acc = .rwl) && b.locked then stLock else stDone) = writeStatus r b.locked := by
    simp [writeStatus, stQuorum, stLock, stDone]
  simp only [Blk.writeReg, hinj, hdiscards, hclamp, hafter, Bool.false_eq_true, if_false]
  rw [hstatus]
  rfl

/-- A write that its path admits, of a register that has power, reaches the register (R367 to R369). -/
theorem regWrite_reaches (b : Blk) (a : Access) (r : Reg) (hr : regOfAddr a.addr.toNat = some r) (h8 : a.bytes = 8)
    (hal : a.addr.toNat % 8 = 0) (hreg : isRegAddr a.addr.toNat = true) (hdbg : b.debugRefuses a.path true = false)
    (hoff : b.poweredOff a.addr.toNat true = false) :
    b.regWrite false a.path a.addr.toNat a.bytes a.value.toNat = b.writeReg false r a.value.toNat := by
  simp [Blk.regWrite, h8, hal, hreg, hdbg, hoff, hr]

theorem writeFx_open (b : Blk) (q : Path) (a n v : Nat) (h : b.pathOpen q = true) :
    writeFx q a n v b = (b.regWrite false q a n v).2.emit (.access q (b.regWrite false q a n v).1 0) := by
  simp [writeFx, h]

theorem writesFollowAccessCodes : WritesFollowAccessCodes := by
  intro a s r hr hplain h8 hal hreg hopen hdbg hoff
  refine does_of_onBlk (f := writeFx a.path a.addr.toNat a.bytes a.value.toNat) rfl ?_
  rw [writeFx_open _ _ _ _ _ hopen, regWrite_reaches s.blk a r hr h8 hal hreg hdbg hoff, writeReg_plain _ _ _ hplain]
  let b1 := s.blk.setReg r (s.blk.mergeWrite false r a.value.toNat)
  have hfield : ∀ f ∈ r.fields, bits (b1.reg r) f.lo f.w =
      fieldAfter s.blk.locked f (bits (s.blk.reg r) f.lo f.w) (bits a.value.toNat f.lo f.w) := fun f hf => by
    rw [setReg_reg_same, bits_mod _ _ _ _ (field_in_word hf), bits_mergeWrite _ _ _ _ hf]
  have hkeep : RegsKeep [r] s.blk b1 := fun q hq => setReg_reg_ne _ _ _ _ (by simpa using hq)
  by_cases h4 : writeStatus r s.blk.locked = 4
  · simp only [h4, if_true]
    have hq := quorumReject_eq b1 0 0
    refine ⟨fun f hf => ?_, ?_, fun q hq => ?_, fun h => absurd rfl h, fun _ => ⟨?_, ?_⟩⟩
    · rw [emit_reg, ← hfield f hf, hq]; rfl
    · rw [Completes, emit_out, hq]; rfl
    · rw [← hkeep q hq, emit_reg, quorumReject_eq]; rfl
    · exact quorumReject_raised b1 0 0
    · rw [hq]; rfl
  · simp only [h4, if_false]
    exact ⟨hfield, rfl, hkeep, fun _ => rfl, fun h => h.elim⟩

/-! ### Accesses that reach no register -/

/-- A write that no register takes completes with status `st` and changes nothing else. -/
theorem does_registerWrite_status (a : Access) (s : State) (st : Nat) (hopen : s.blk.pathOpen a.path = true)
    (h : s.blk.regWrite false a.path a.addr.toNat a.bytes a.value.toNat = (st, s.blk)) :
    Does (.registerWrite a) s fun b => b = s.blk.emit (.access a.path st 0) := by
  refine does_of_onBlk (f := writeFx a.path a.addr.toNat a.bytes a.value.toNat) rfl ?_
  rw [writeFx_open _ _ _ _ _ hopen, h]

theorem accessesOutsideTheMapComplete : AccessesOutsideTheMapComplete := by
  intro a s hopen
  refine ⟨fun hl => ?_, ?_, ?_, ?_⟩
  · refine does_registerWrite_status a s 2 hopen (if_pos ?_)
    exact (not_and_or.1 hl).imp_right not_and_or.1
  · rintro ⟨h8, hal, hreg⟩ hdbg
    exact does_registerWrite_status a s 5 hopen (by simp [Blk.regWrite, h8, hal, hreg, hdbg, stDebugLocked])
  · rintro ⟨h8, hal, hreg⟩ hdbg hoff
    exact does_registerWrite_status a s 3 hopen (by simp [Blk.regWrite, h8, hal, hreg, hdbg, hoff, stPowerOff])
  · rintro ⟨h8, hal, hreg⟩ hdbg hoff hnone
    exact does_registerWrite_status a s 0 hopen (by simp [Blk.regWrite, h8, hal, hreg, hdbg, hoff, hnone, stDone])

/-- Settles O53: the access codes by the fold over a register's fields, which its table lists in order; the accesses that reach
no register by the order of the checks. -/
theorem registerWrites : Obligations.RegisterWrites := ⟨writesFollowAccessCodes, accessesOutsideTheMapComplete⟩

end Sys2Proof.Proofs
end

section
/-!
PROOFS. The cold start (R260, R305, R389): what resetting the registers and restarting the ring leave alone, and what BOOT finds.
-/
namespace Sys2Proof.Proofs
open Sys2Proof Sys2Proof.Machine Sys2Proof.Says

/-- A map built by setting each key of a list reads as what was set there. -/
theorem get_foldl_set {α : Type} [DecidableEq α] (d : α) (f : Nat → α) (l : List Nat) (m : Sp α) (k : Nat) (hk : k ∈ l) :
    Sp.get d (l.foldl (fun m p => Sp.set d m p (f p)) m) k = f k := by
  induction l using List.reverseRecOn with
  | nil => cases hk
  | append_singleton l j ih =>
    rw [List.foldl_append, List.foldl_cons, List.foldl_nil]
    by_cases h : k = j
    · rw [h, Sp.get_set_same]
    · rw [Sp.get_set_ne _ _ _ _ _ h]
      exact ih (by simpa [h] using hk)

theorem volatileClear_port (b : Blk) (p : Nat) (hp : p < 10) :
    b.volatileClear.port p = { PortSt.init with present := (b.port p).present } :=
  get_foldl_set PortSt.init (fun p => { PortSt.init with present := (b.port p).present }) (List.range 10) [] p
    (List.mem_range.2 hp)

/-- `c` is `b` but for registers, events, reset inputs, the host's side and outputs. -/
def SameStores (b c : Blk) : Prop := c = { b with regs := c.regs, ev := c.ev, rst := c.rst, host := c.host, out := c.out }

theorem SameStores.trans {a b c : Blk} (hab : SameStores a b) (hbc : SameStores b c) : SameStores a c := by
  unfold SameStores at *
  rw [hbc, hab]

theorem sameStores_resetRegs (b : Blk) (sel : Nat → Bool) (keep : RstClass → Bool) : SameStores b (b.resetRegs sel keep) := by
  refine foldl_inv _ (SameStores b) _ b rfl fun c a _ hc => ?_
  split
  · split
    · exact hc.trans (setReg_eq ..)
    · exact hc
  · exact hc

theorem sameStores_keepHeld (b : Blk) (n : Nat) : SameStores b (b.keepHeld n) := by
  induction n generalizing b with
  | zero => rfl
  | succ n ih =>
    unfold Blk.keepHeld
    split
    · rfl
    · refine SameStores.trans ?_ (ih _)
      unfold Blk.keepRec
      split <;> rfl

theorem sameStores_restartRing (b : Blk) : SameStores b b.restartRing :=
  (sameStores_keepHeld b b.ev.held.length).trans rfl

/-- The block with all that a cold start loses cleared (R305), its registers and events still as they were. -/
def emptied (b : Blk) : Blk := { b.volatileClear with mem := [], err := [], mds := [] }

/-- The block as BOOT is entered: registers reset but for classes F and C, and the ring restarted. -/
def bootBlk (b : Blk) : Blk :=
  (((emptied b).resetRegs (fun _ => true) fun k => k = .f || k = .c).restartRing).updRst fun r =>
    { r with warmPath := false, fromState := 0 }

theorem startBoot_eq_enter (b : Blk) : b.startBoot = (bootBlk b).enter stBoot := rfl

theorem sameStores_bootBlk (b : Blk) : SameStores (emptied b) (bootBlk b) :=
  (sameStores_resetRegs ..).trans ((sameStores_restartRing _).trans rfl)

theorem sameStores_enter (b : Blk) (st : Nat) : SameStores b (b.enter st) := by
  have h := enter_eq b st
  generalize b.enter st = c at h
  rw [SameStores, h]

theorem sameStores_startBoot (b : Blk) : SameStores (emptied b) b.startBoot := by
  rw [startBoot_eq_enter]
  exact (sameStores_bootBlk b).trans (sameStores_enter ..)

theorem startBoot_entered (b : Blk) : Entered stBoot b b.startBoot := by
  have hnow : (bootBlk b).now = b.now := by rw [sameStores_bootBlk b]; rfl
  have h := enter_entered (bootBlk b) stBoot (by decide)
  rwa [Entered, hnow, ← startBoot_eq_enter] at h

theorem startBoot_allLost (b : Blk) : AllLost b b.startBoot := by
  have h := sameStores_startBoot b
  generalize b.startBoot = c at h
  rw [h]
  exact ⟨rfl, rfl, rfl, rfl, rfl, rfl, rfl, volatileClear_port b⟩

/-- Of the block before, only the time, the flash and the cables matter to a start. -/
theorem entered_since {st : Nat} {b b' c : Blk} (hnow : b.now = b'.now) (h : Entered st b c) : Entered st b' c := by
  unfold Entered at *
  rwa [← hnow]

theorem allLost_since {b b' c : Blk} (hflash : b.flash = b'.flash) (hport : ∀ p, b.port p = b'.port p) (h : AllLost b c) :
    AllLost b' c := by
  unfold AllLost at *
  simpa only [← hflash, ← hport] using h

end Sys2Proof.Proofs
end

section
/-!
PROOFS. Quorum commands: the checks of the certificate (R320 to R322), the place a verified command takes (R19, R44), and the
start request (R260, R339).
-/
namespace Sys2Proof.Proofs
open Sys2Proof Sys2Proof.Machine Sys2Proof.Says

/-! ### The scheduled-event table -/

/-- Outside RUN and DRAIN the next anchor is the start of an idle-calendar cycle of 5 µs (R281). -/
theorem nextAnchor_idle (b : Blk) (t : Nat) (hrun : b.dstate ≠ stRun) (hdrain : b.dstate ≠ stDrain) :
    b.nextAnchor t = (t + 4999) / 5000 * 5000 := by
  unfold Blk.nextAnchor
  cases b.run.job with
  | none => rfl
  | some j => simp [hrun, hdrain, cdiv]

/-- A refused entry that is not an epoch switch raises EV_SCHED_LATE and nothing else; its detail begins with the action. -/
theorem schedLate_eq (b : Blk) (action entry inst why : Nat) (ha : action < 256) (h2 : action ≠ 2) :
    ∃ d, bits d 0 8 = action ∧ b.schedLate action entry inst why = b.raise 0 uMtc 0x0105 d := by
  refine ⟨action % 256 + entry * 2 ^ 8 + inst % 2 ^ 64 * 2 ^ 13 + b.now % 2 ^ 64 * 2 ^ 77 + why * 2 ^ 141, ?_, ?_⟩
  · simp only [bits, Nat.shiftRight_zero]
    omega
  · rw [Blk.schedLate, Nat.mod_eq_of_lt ha, ifB, if_neg (by simpa using h2)]

/-- In a state that takes no entries the table refuses every one (R44). -/
theorem placeSched_closed (b : Blk) (action arg inst : Nat) (ha : action < 256) (h2 : action ≠ 2) (h : b.schedState = false) :
    ∃ d, bits d 0 8 = action ∧ b.placeSched action arg inst = (none, b.raise 0 uMtc 0x0105 d) := by
  have hok : b.schedOk inst = false := by simp [Blk.schedOk, h]
  unfold Blk.placeSched
  split
  · obtain ⟨d, hd, hlate⟩ := schedLate_eq b action 0 inst 1 ha h2
    exact ⟨d, hd, by rw [hlate]⟩
  · next n _ =>
    obtain ⟨d, hd, hlate⟩ := schedLate_eq b action n inst 0 ha h2
    exact ⟨d, hd, by simp [hok, hlate]⟩

/-- Entry `n` is the first free one of the table. -/
def FirstFree (n : Nat) (b : Blk) : Prop :=
  n < 32 ∧ b.on (MTC_SCHED_ACT.valid n) = false ∧ ∀ m, m < n → b.on (MTC_SCHED_ACT.valid m) = true

/-- An entry that meets R44 goes to the first free place. -/
theorem placeSched_free (b : Blk) (action arg inst n : Nat) (hn : FirstFree n b) (hok : b.schedOk inst = true) :
    b.placeSched action arg inst = (some n, (b.setReg (.mtcSchedTime n) inst).setEntry n action arg inst) := by
  obtain ⟨h32, hfree, hheld⟩ := hn
  have hfind : (List.range 32).find? (fun n => ¬b.on (MTC_SCHED_ACT.valid n)) = some n :=
    List.find?_range_eq_some.2 ⟨by simp [hfree], by simpa using h32, fun m hm => by simp [hheld m hm]⟩
  unfold Blk.placeSched
  rw [hfind]
  simp [hok]

theorem setEntry_reg_same (b : Blk) (n action arg inst : Nat) :
    (b.setEntry n action arg inst).reg (.mtcSchedAct n) = (action % 256 + 256 + arg % 2 ^ 32 * 2 ^ 32) % 2 ^ 64 := by
  rw [Blk.setEntry, updSched_reg, setReg_reg_same]

theorem setEntry_valid (b : Blk) (n action arg inst : Nat) :
    (b.setEntry n action arg inst).on (MTC_SCHED_ACT.valid n) = true := by
  have hbit : bits ((action % 256 + 256 + arg % 2 ^ 32 * 2 ^ 32) % 2 ^ 64) 8 1 = 1 := by
    simp only [bits, Nat.shiftRight_eq_div_pow]
    omega
  rw [Blk.on, Blk.rd, MTC_SCHED_ACT.valid, setEntry_reg_same, hbit]
  rfl

theorem setEntry_action (b : Blk) (n action arg inst : Nat) :
    (b.setEntry n action arg inst).rd (MTC_SCHED_ACT.action n) = action % 256 := by
  simp only [Blk.rd, MTC_SCHED_ACT.action, setEntry_reg_same, bits, Nat.shiftRight_zero]
  omega

theorem setEntry_sched (b : Blk) (n action arg inst : Nat) :
    (b.setEntry n action arg inst).sched = { b.sched with inst := Sp.set 0 b.sched.inst n inst } := by
  rw [Blk.setEntry, updSched_sched, setReg_sched]

theorem setEntry_schedInst (b : Blk) (n action arg inst : Nat) : (b.setEntry n action arg inst).schedInst n = inst := by
  rw [Blk.schedInst, setEntry_sched, Sp.get_set_same]

theorem setEntry_out (b : Blk) (n action arg inst : Nat) : (b.setEntry n action arg inst).out = b.out := by
  rw [Blk.setEntry, updSched_out, setReg_out]

theorem setEntry_mgmt (b : Blk) (n action arg inst : Nat) : (b.setEntry n action arg inst).mgmt = b.mgmt := by
  rw [Blk.setEntry, updSched_mgmt, setReg_mgmt]

theorem setEntry_rd_ne (b : Blk) (n action arg inst : Nat) (f : Fld) (hf : f.reg.addr ≠ (Reg.mtcSchedAct n).addr) :
    (b.setEntry n action arg inst).rd f = b.rd f := by
  rw [Blk.setEntry, updSched_rd, setReg_rd_ne _ _ _ _ hf]

/-- The table's registers lie below this offset of the hub (R43). -/
theorem mtcSched_addr_ne {n : Nat} (hn : n < 32) {q : Reg} (hq : hubBase + 0x10400 ≤ q.addr) :
    (Reg.mtcSchedAct n).addr ≠ q.addr ∧ (Reg.mtcSchedTime n).addr ≠ q.addr := by
  have haddr : (Reg.mtcSchedAct n).addr = hubBase + 0x10208 + n * 16 ∧ (Reg.mtcSchedTime n).addr = hubBase + 0x10200 + n * 16 :=
    ⟨rfl, rfl⟩
  omega

/-! ### Where a verified command goes -/

/-- The instant of a command (R19): the one it names, or the first anchor 1 µs from now where that is too near. -/
def cmdInst (b : Blk) (ctype : Nat) (p : List Byte) : Nat :=
  if namedInst ctype p < b.now + 1000 then b.nextAnchor (b.now + 1000) else namedInst ctype p

/-- R284 gives the command's states itself, so it is held beside a table that takes no entry. -/
theorem placeCmd_beside (b : Blk) (ctype seq : Nat) (p : List Byte) (auth id : Nat) (hs : b.schedState = false)
    (ho : ownStates ctype = true) :
    b.placeCmd ctype seq p auth id = b.updSched fun s =>
      { s with placed := s.placed ++ [⟨32, cmdInst b ctype p, seq, b.now, ctype, p, auth, id⟩] } := by
  simp [Blk.placeCmd, hs, ho, cmdInst]

/-- Any other command is lost there, with EV_SCHED_LATE (R44). -/
theorem placeCmd_lost (b : Blk) (ctype seq : Nat) (p : List Byte) (auth id : Nat) (hs : b.schedState = false)
    (ho : ownStates ctype = false) :
    ∃ d, bits d 0 8 = 4 ∧ b.placeCmd ctype seq p auth id = b.raise 0 uMtc 0x0105 d := by
  obtain ⟨d, hd, hplace⟩ := placeSched_closed b 4 0 (cmdInst b ctype p) (by decide) (by decide) hs
  refine ⟨d, hd, ?_⟩
  rw [cmdInst] at hplace
  simp [Blk.placeCmd, ho, hplace]

/-- The block with the command `x` in entry `n` of the table, with action 4. -/
def inEntry (n : Nat) (x : Placed) (b : Blk) : Blk :=
  ((b.setReg (.mtcSchedTime n) x.inst).setEntry n 4 0 x.inst).updSched fun s =>
    { s with placed := s.placed.filter (fun y => n = 32 ∨ y.entry ≠ n) ++ [x] }

/-- A command that names an instant far enough ahead takes the first free entry. -/
theorem placeCmd_entry (b : Blk) (ctype seq : Nat) (p : List Byte) (auth id n : Nat) (hs : b.schedState = true)
    (hfar : b.now + 1000 ≤ namedInst ctype p) (hn : FirstFree n b) :
    b.placeCmd ctype seq p auth id = inEntry n ⟨n, namedInst ctype p, seq, b.now, ctype, p, auth, id⟩ b := by
  have hok : b.schedOk (namedInst ctype p) = true := by
    rw [Blk.schedOk, hs, Bool.true_and, decide_eq_true_eq]
    omega
  have hplace := placeSched_free b 4 0 (namedInst ctype p) n hn hok
  simp only [Blk.placeCmd, hs, Nat.not_lt.2 hfar, hplace, if_false, not_true, false_and]
  rfl

theorem inEntry_valid (n : Nat) (x : Placed) (b : Blk) : (inEntry n x b).on (MTC_SCHED_ACT.valid n) = true := by
  rw [inEntry, updSched_on, setEntry_valid]

theorem inEntry_action (n : Nat) (x : Placed) (b : Blk) : (inEntry n x b).rd (MTC_SCHED_ACT.action n) = 4 := by
  rw [inEntry, updSched_rd, setEntry_action]

theorem inEntry_schedInst (n : Nat) (x : Placed) (b : Blk) : (inEntry n x b).schedInst n = x.inst := by
  rw [Blk.schedInst, inEntry, updSched_sched]
  exact setEntry_schedInst ..

theorem mem_inEntry_placed (n : Nat) (x : Placed) (b : Blk) : x ∈ (inEntry n x b).sched.placed := by
  rw [inEntry, updSched_sched]
  exact List.mem_append_right _ (List.mem_singleton_self x)

theorem inEntry_out (n : Nat) (x : Placed) (b : Blk) : (inEntry n x b).out = b.out := by
  rw [inEntry, updSched_out, setEntry_out, setReg_out]

theorem inEntry_mgmt (n : Nat) (x : Placed) (b : Blk) : (inEntry n x b).mgmt = b.mgmt := by
  rw [inEntry, updSched_mgmt, setEntry_mgmt, setReg_mgmt]

/-- Placing a command writes no register past the table's. -/
theorem inEntry_rd {n : Nat} (hn : n < 32) (x : Placed) (b : Blk) (f : Fld) (hf : hubBase + 0x10400 ≤ f.reg.addr) :
    (inEntry n x b).rd f = b.rd f := by
  obtain ⟨hact, htime⟩ := mtcSched_addr_ne hn hf
  rw [inEntry, updSched_rd, setEntry_rd_ne _ _ _ _ _ _ hact.symm, setReg_rd_ne _ _ _ _ htime.symm]

/-! ### COMMAND -/

/-- The block with a verified command's type and sequence number shown. -/
def noted (e : Envelope) (b : Blk) : Blk :=
  (b.wr SEC_QC_STAT.last_type e.cmdType.toNat).wr SEC_CMD_SEQ.seq e.seq.toNat

/-- The block with a verified command noted and placed. -/
def taken (r : MgmtReq) (e : Envelope) (p : List Byte) (b : Blk) : Blk :=
  (noted e b).placeCmd e.cmdType.toNat e.seq.toNat p r.auth.toNat r.requestId.toNat

theorem commandFx_verified (r : MgmtReq) (e : Envelope) (b : Blk) (p : List Byte) (hst : stSelftest ≤ b.dstate)
    (hrec : b.dstate ≠ stRecovery) (hc : b.certCheck e = .inr p) :
    commandFx r e b =
      if e.cmdType = 7 ∧ (taken r e p b).sched.placed.any (fun x => x.seq = e.seq.toNat) then
        (taken r e p b).satBy MGMT_COUNT.accepted 1
      else (taken r e p b).mgmtReply r.auth.toNat r.requestId.toNat 0 [] := by
  have hoff : b.dstate ≠ stOff := by unfold stOff stSelftest at *; omega
  simp only [commandFx, hoff, hrec, Nat.not_lt.2 hst, hc, if_false, or_false]
  rfl

theorem noted_reg_ne (e : Envelope) (b : Blk) (q : Reg) (hstat : q.addr ≠ Reg.secQcStat.addr)
    (hseq : q.addr ≠ Reg.secCmdSeq.addr) : (noted e b).reg q = b.reg q := by
  rw [noted, wr_reg_of _ _ .secCmdSeq _ _ rfl hseq, wr_reg_of _ _ .secQcStat _ _ rfl hstat]

theorem noted_on_ne (e : Envelope) (b : Blk) (f : Fld) (hstat : f.reg.addr ≠ Reg.secQcStat.addr)
    (hseq : f.reg.addr ≠ Reg.secCmdSeq.addr) : (noted e b).on f = b.on f := by
  rw [Blk.on, Blk.rd, noted_reg_ne _ _ _ hstat hseq]; rfl

theorem noted_dstate (e : Envelope) (b : Blk) : (noted e b).dstate = b.dstate := by
  rw [Blk.dstate, Blk.rd, noted_reg_ne _ _ _ (by decide) (by decide)]; rfl

theorem noted_seq (e : Envelope) (b : Blk) : (noted e b).rd SEC_CMD_SEQ.seq = e.seq.toNat := by
  rw [noted, wr_rd_same _ _ _ (by decide)]
  exact Nat.mod_eq_of_lt e.seq.isLt

theorem noted_last_type (e : Envelope) (b : Blk) : (noted e b).rd SEC_QC_STAT.last_type = e.cmdType.toNat := by
  rw [noted, wr_rd_ne _ _ _ _ (by decide), wr_rd_same _ _ _ (by decide)]
  exact Nat.mod_eq_of_lt e.cmdType.isLt

theorem noted_sched (e : Envelope) (b : Blk) : (noted e b).sched = b.sched := by rw [noted, wr_sched, wr_sched]
theorem noted_now (e : Envelope) (b : Blk) : (noted e b).now = b.now := by rw [noted, wr_now, wr_now]
theorem noted_out (e : Envelope) (b : Blk) : (noted e b).out = b.out := by rw [noted, wr_out, wr_out]
theorem noted_ev (e : Envelope) (b : Blk) : (noted e b).ev = b.ev := by rw [noted, wr_ev, wr_ev]

theorem noted_schedState (e : Envelope) (b : Blk) : (noted e b).schedState = b.schedState := by
  rw [Blk.schedState, noted_dstate]; rfl

theorem noted_answers {r : MgmtReq} {e : Envelope} {b : Blk} (h : Answers r b) : Answers r (noted e b) :=
  answers_wr _ _ (by decide) (answers_wr _ _ (by decide) h)

/-- The reply to a verified command is sent at once, but for a register write that has been placed (log entry 122). -/
theorem commandFx_replies (r : MgmtReq) (e : Envelope) (b : Blk) (p : List Byte) (hst : stSelftest ≤ b.dstate)
    (hrec : b.dstate ≠ stRecovery) (hc : b.certCheck e = .inr p) (hans : Answers r (taken r e p b))
    (h : ¬(e.cmdType = 7 ∧ (taken r e p b).sched.placed.any (fun x => x.seq = e.seq.toNat))) :
    commandFx r e b = ((taken r e p b).satBy MGMT_COUNT.accepted 1).emit
      (.message r.auth.toNat 0x30 r.requestId.toNat 0 []) := by
  rw [commandFx_verified r e b p hst hrec hc, if_neg h, mgmtReply_eq _ _ _ _ hans]

theorem ownStates_toNat (t : BitVec 8) : ownStates t.toNat = decide (t = 1 ∨ t = 3 ∨ t = 4) := by
  simp [ownStates, BitVec.toNat_eq]

/-- Before READY the table takes no entry (R44). -/
theorem schedState_before_ready (b : Blk) (h : b.dstate < stReady) : b.schedState = false := by
  simp [Blk.schedState, Nat.not_le.2 h]

theorem ne_recovery_of_lt {n : Nat} (h : n < stReady) : n ≠ stRecovery := by
  unfold stReady stRecovery at *; omega

/-! ### A certificate that fails a check -/

/-- A check that fails with reason `k`, before the checks `x`. -/
theorem reason_le_of_check {α : Type} {c : Prop} [Decidable c] {k n m : Nat} {x : Nat ⊕ α} (hk : k ≤ m)
    (hx : x = .inl n → n ≤ m) (h : (if c then .inl k else x) = .inl n) : n ≤ m := by
  split at h
  · exact Sum.inl.inj h ▸ hk
  · exact hx h

/-- R322's reasons are those of its eight checks. -/
theorem certCheck_reason_le (b : Blk) (e : Envelope) (reason : Nat) (h : b.certCheck e = .inl reason) : reason ≤ 8 := by
  revert h
  unfold Blk.certCheck
  iterate 5 refine reason_le_of_check (by decide) ?_
  cases b.cmdPayload e with
  | none => exact fun h => Sum.inl.inj h ▸ by decide
  | some p =>
    iterate 3 refine reason_le_of_check (by decide) ?_
    exact fun h => nomatch h

/-- The block with a bad certificate's type and reason shown, and the rejection counted (R322). -/
def refused (e : Envelope) (reason : Nat) (b : Blk) : Blk :=
  ((b.wr SEC_QC_STAT.last_type e.cmdType.toNat).wr SEC_QC_STAT.last_reason reason).satBy SEC_QC_STAT.rejects 1

theorem commandFx_rejected (r : MgmtReq) (e : Envelope) (b : Blk) (reason : Nat) (hst : stSelftest ≤ b.dstate)
    (hrec : b.dstate ≠ stRecovery) (hc : b.certCheck e = .inl reason) :
    commandFx r e b = ((refused e reason b).quorumReject reason e.seq.toNat).mgmtReject 0x04 r.auth.toNat r.requestId.toNat 5
      [BitVec.ofNat 8 reason] := by
  have hoff : b.dstate ≠ stOff := by unfold stOff stSelftest at *; omega
  simp only [commandFx, hoff, hrec, Nat.not_lt.2 hst, hc, if_false, or_false]
  rfl

theorem refused_last_reason (e : Envelope) (reason : Nat) (b : Blk) (h : reason < 2 ^ 8) :
    (refused e reason b).rd SEC_QC_STAT.last_reason = reason := by
  rw [refused, satBy_eq, wr_rd_disj _ SEC_QC_STAT.rejects SEC_QC_STAT.last_reason _ rfl (by decide) (by decide),
    wr_rd_same _ _ _ (by decide)]
  exact Nat.mod_eq_of_lt h

theorem refused_rejects (e : Envelope) (reason : Nat) (b : Blk) :
    (refused e reason b).rd SEC_QC_STAT.rejects = satur 32 (b.rd SEC_QC_STAT.rejects + 1) := by
  rw [refused, satBy_rd_same _ _ _ (by decide),
    wr_rd_disj _ SEC_QC_STAT.last_reason SEC_QC_STAT.rejects _ rfl (by decide) (by decide),
    wr_rd_disj _ SEC_QC_STAT.last_type SEC_QC_STAT.rejects _ rfl (by decide) (by decide)]
  rfl

theorem refused_out (e : Envelope) (reason : Nat) (b : Blk) : (refused e reason b).out = b.out := by
  rw [refused, satBy_eq, wr_out, wr_out, wr_out]
theorem refused_sched (e : Envelope) (reason : Nat) (b : Blk) : (refused e reason b).sched = b.sched := by
  rw [refused, satBy_eq, wr_sched, wr_sched, wr_sched]
theorem refused_ev (e : Envelope) (reason : Nat) (b : Blk) : (refused e reason b).ev = b.ev := by
  rw [refused, satBy_eq, wr_ev, wr_ev, wr_ev]
theorem refused_now (e : Envelope) (reason : Nat) (b : Blk) : (refused e reason b).now = b.now := by
  rw [refused, satBy_eq, wr_now, wr_now, wr_now]

theorem refused_answers {r : MgmtReq} {e : Envelope} {reason : Nat} {b : Blk} (h : Answers r b) :
    Answers r ((refused e reason b).quorumReject reason e.seq.toNat) :=
  answers_congr (raise_on ..) (raise_mgmt ..)
    (answers_wr _ _ (by decide) (answers_wr _ _ (by decide) (answers_wr _ _ (by decide) h)))

/-! ### Where each command ends up -/

theorem command_held_beside (r : MgmtReq) (e : Envelope) (s : State) (p : List Byte) (hlo : stSelftest ≤ s.blk.dstate)
    (hhi : s.blk.dstate < stReady) (htype : e.cmdType = 1 ∨ e.cmdType = 3 ∨ e.cmdType = 4) (hans : Answers r s.blk)
    (hc : s.blk.certCheck e = .inr p) :
    Does (.command r e) s fun b => b.rd SEC_CMD_SEQ.seq = e.seq.toNat ∧ b.rd SEC_QC_STAT.last_type = e.cmdType.toNat
      ∧ Replies r 0 [] s.blk b
      ∧ ∃ t, b.sched.placed = s.blk.sched.placed
          ++ [⟨32, t, e.seq.toNat, s.blk.now, e.cmdType.toNat, p, r.auth.toNat, r.requestId.toNat⟩]
        ∧ (s.blk.now + 1000 ≤ namedInst e.cmdType.toNat p → t = namedInst e.cmdType.toNat p)
        ∧ (namedInst e.cmdType.toNat p < s.blk.now + 1000 → t = (s.blk.now + 1000 + 4999) / 5000 * 5000) := by
  have hclosed : (noted e s.blk).schedState = false := by rw [noted_schedState, schedState_before_ready _ hhi]
  have hown : ownStates e.cmdType.toNat = true := by rw [ownStates_toNat, decide_eq_true htype]
  have h7 : e.cmdType ≠ 7 := by rcases htype with h | h | h <;> rw [h] <;> decide
  have htaken : taken r e p s.blk = _ :=
    placeCmd_beside (noted e s.blk) e.cmdType.toNat e.seq.toNat p r.auth.toNat r.requestId.toNat hclosed hown
  have hans' : Answers r (taken r e p s.blk) := by
    rw [htaken]; exact answers_congr (updSched_on ..) rfl (noted_answers hans)
  refine does_of_onBlk (f := commandFx r e) rfl ?_
  rw [commandFx_replies r e s.blk p hlo (ne_recovery_of_lt hhi) hc hans' fun h => h7 h.1, htaken]
  refine ⟨?_, ?_, ?_, cmdInst (noted e s.blk) e.cmdType.toNat p, ?_, fun hfar => ?_, fun hnear => ?_⟩
  · rw [emit_rd, satBy_eq, wr_rd_ne _ _ _ _ (by decide), updSched_rd, noted_seq]
  · rw [emit_rd, satBy_eq, wr_rd_ne _ _ _ _ (by decide), updSched_rd, noted_last_type]
  · rw [Replies, emit_out, satBy_eq, wr_out, updSched_out, noted_out]
  · rw [emit_sched, satBy_eq, wr_sched, updSched_sched, noted_sched, noted_now]
  · rw [cmdInst, noted_now, if_neg (Nat.not_lt.2 hfar)]
  · have hrun : (noted e s.blk).dstate ≠ stRun ∧ (noted e s.blk).dstate ≠ stDrain := by
      rw [noted_dstate]; unfold stReady stRun stDrain at *; omega
    rw [cmdInst, noted_now, if_pos hnear, nextAnchor_idle _ _ hrun.1 hrun.2]

theorem command_lost (r : MgmtReq) (e : Envelope) (s : State) (p : List Byte) (hlo : stSelftest ≤ s.blk.dstate)
    (hhi : s.blk.dstate < stReady) (htype : e.cmdType ≠ 1 ∧ e.cmdType ≠ 3 ∧ e.cmdType ≠ 4) (hans : Answers r s.blk)
    (hc : s.blk.certCheck e = .inr p) (hseq : ∀ x ∈ s.blk.sched.placed, x.seq ≠ e.seq.toNat) :
    Does (.command r e) s fun b => b.rd SEC_CMD_SEQ.seq = e.seq.toNat ∧ Replies r 0 [] s.blk b ∧ b.sched = s.blk.sched
      ∧ ∃ d, Logged 0 4 0x0105 d s.blk b ∧ bits d 0 8 = 4 := by
  have hclosed : (noted e s.blk).schedState = false := by rw [noted_schedState, schedState_before_ready _ hhi]
  have hown : ownStates e.cmdType.toNat = false := by
    rw [ownStates_toNat, decide_eq_false_iff_not]; simpa using htype
  obtain ⟨d, hd, htaken⟩ :=
    placeCmd_lost (noted e s.blk) e.cmdType.toNat e.seq.toNat p r.auth.toNat r.requestId.toNat hclosed hown
  change taken r e p s.blk = _ at htaken
  have hans' : Answers r (taken r e p s.blk) := by
    rw [htaken]; exact answers_congr (raise_on ..) (raise_mgmt ..) (noted_answers hans)
  have hsched : (taken r e p s.blk).sched = s.blk.sched := by rw [htaken, raise_sched, noted_sched]
  have hany : ¬(e.cmdType = 7 ∧ (taken r e p s.blk).sched.placed.any (fun x => x.seq = e.seq.toNat)) := by
    rw [hsched]; simpa using fun _ => hseq
  refine does_of_onBlk (f := commandFx r e) rfl ?_
  rw [commandFx_replies r e s.blk p hlo (ne_recovery_of_lt hhi) hc hans' hany]
  refine ⟨?_, ?_, ?_, d, ?_, hd⟩
  · rw [emit_rd, satBy_eq, wr_rd_ne _ _ _ _ (by decide), htaken, raise_rd, noted_seq]
  · rw [Replies, emit_out, satBy_eq, wr_out, htaken, raise_out _ _ _ _ _ (by decide), noted_out]
  · rw [emit_sched, satBy_eq, wr_sched, hsched]
  · have hev : (((taken r e p s.blk).satBy MGMT_COUNT.accepted 1).emit
        (.message r.auth.toNat 0x30 r.requestId.toNat 0 [])).ev = (taken r e p s.blk).ev := by
      rw [emit_ev, satBy_eq, wr_ev]
    have hlog : Logged 0 4 0x0105 d (noted e s.blk) (taken r e p s.blk) := by
      rw [htaken]; exact raise_logged _ 0 uMtc 0x0105 d (by decide) (by decide)
    exact logged_append (logged_since (noted_ev e s.blk) (noted_now e s.blk) hlog) ⟨[], by rw [hev, List.append_nil]⟩

theorem command_takes_entry (r : MgmtReq) (e : Envelope) (s : State) (p : List Byte) (n : Fin 32) (hlo : stReady ≤ s.blk.dstate)
    (hhi : s.blk.dstate ≤ stDrain) (hans : Answers r s.blk) (hc : s.blk.certCheck e = .inr p)
    (hfar : s.blk.now + 1000 ≤ namedInst e.cmdType.toNat p) (hfree : s.blk.on (MTC_SCHED_ACT.valid n.val) = false)
    (hheld : ∀ m, m < n.val → s.blk.on (MTC_SCHED_ACT.valid m) = true) :
    Does (.command r e) s fun b => b.rd SEC_CMD_SEQ.seq = e.seq.toNat ∧ (e.cmdType ≠ 7 → Replies r 0 [] s.blk b)
      ∧ (e.cmdType = 7 → b.out = s.blk.out)
      ∧ b.on (MTC_SCHED_ACT.valid n.val) = true ∧ b.rd (MTC_SCHED_ACT.action n.val) = 4
      ∧ b.schedInst n.val = namedInst e.cmdType.toNat p
      ∧ ⟨n.val, namedInst e.cmdType.toNat p, e.seq.toNat, s.blk.now, e.cmdType.toNat, p, r.auth.toNat,
        r.requestId.toNat⟩ ∈ b.sched.placed := by
  have hfirst : FirstFree n (noted e s.blk) := by
    have hon : ∀ m, m < 32 → (noted e s.blk).on (MTC_SCHED_ACT.valid m) = s.blk.on (MTC_SCHED_ACT.valid m) := fun m hm =>
      noted_on_ne e s.blk _ (mtcSched_addr_ne hm (by decide)).1 (mtcSched_addr_ne hm (by decide)).1
    exact ⟨n.isLt, by rw [hon _ n.isLt, hfree], fun m hm => by rw [hon _ (hm.trans n.isLt), hheld m hm]⟩
  have hopen : (noted e s.blk).schedState = true := by rw [noted_schedState, Blk.schedState, decide_eq_true ⟨hlo, hhi⟩]
  have htaken : taken r e p s.blk = inEntry n ⟨n, namedInst e.cmdType.toNat p, e.seq.toNat, s.blk.now, e.cmdType.toNat, p,
      r.auth.toNat, r.requestId.toNat⟩ (noted e s.blk) := by
    rw [taken, placeCmd_entry (noted e s.blk) e.cmdType.toNat e.seq.toNat p r.auth.toNat r.requestId.toNat n hopen
      (by rwa [noted_now]) hfirst, noted_now]
  have hans' : Answers r (taken r e p s.blk) := by
    rw [htaken]
    refine answers_congr ?_ (inEntry_mgmt ..) (noted_answers (e := e) hans)
    rw [Blk.on, inEntry_rd n.isLt _ _ _ (by decide), Blk.on]
  -- A register write names no instant, so it never names one far enough ahead.
  have h7 : e.cmdType ≠ 7 := by
    intro h
    rw [h] at hfar
    exact absurd hfar (by simp [namedInst])
  have hcount : (Reg.mtcSchedAct n).addr ≠ Reg.mgmtCount.addr := (mtcSched_addr_ne n.isLt (by decide)).1
  have hst : stSelftest ≤ s.blk.dstate := le_trans (by decide) hlo
  have hrec : s.blk.dstate ≠ stRecovery := by unfold stDrain stRecovery at *; omega
  refine does_of_onBlk (f := commandFx r e) rfl ?_
  rw [commandFx_replies r e s.blk p hst hrec hc hans' fun h => h7 h.1, htaken, satBy_eq]
  refine ⟨?_, fun _ => ?_, fun h => absurd h h7, ?_, ?_, ?_, ?_⟩
  · rw [emit_rd, wr_rd_ne _ _ _ _ (by decide), inEntry_rd n.isLt _ _ _ (by decide), noted_seq]
  · rw [Replies, emit_out, wr_out, inEntry_out, noted_out]
  · rw [emit_on, wr_on_ne _ _ _ _ hcount, inEntry_valid]
  · rw [emit_rd, wr_rd_ne _ _ _ _ hcount, inEntry_action]
  · rw [Blk.schedInst, emit_sched, wr_sched]
    exact inEntry_schedInst ..
  · rw [emit_sched, wr_sched]
    exact mem_inEntry_placed ..

theorem command_rejected (r : MgmtReq) (e : Envelope) (s : State) (reason : Nat) (hst : stSelftest ≤ s.blk.dstate)
    (hrec : s.blk.dstate ≠ stRecovery) (hans : Answers r s.blk) (hc : s.blk.certCheck e = .inl reason) :
    Does (.command r e) s fun b => Replies r 5 [BitVec.ofNat 8 reason] s.blk b ∧ b.rd SEC_QC_STAT.last_reason = reason
      ∧ b.rd SEC_QC_STAT.rejects = min (s.blk.rd SEC_QC_STAT.rejects + 1) (2 ^ SEC_QC_STAT.rejects.w - 1)
      ∧ b.sched = s.blk.sched ∧ Logged 0 14 0x0A01 (reason + e.seq.toNat * 2 ^ 8) s.blk b := by
  have hreason : reason < 2 ^ 8 := Nat.lt_of_le_of_lt (certCheck_reason_le _ _ _ hc) (by decide)
  refine does_of_onBlk (f := commandFx r e) rfl ?_
  rw [commandFx_rejected r e s.blk reason hst hrec hc, mgmtReject_eq _ r _ _ _ (refused_answers hans), satBy_eq]
  refine ⟨?_, ?_, ?_, ?_, ?_⟩
  · rw [Replies, emit_out, raise_out _ _ _ _ _ (by decide), wr_out, quorumReject_eq, refused_out]
  · rw [emit_rd, raise_rd, wr_rd_ne _ _ _ _ (by decide), quorumReject_rd, refused_last_reason _ _ _ hreason]
  · rw [emit_rd, raise_rd, wr_rd_ne _ _ _ _ (by decide), quorumReject_rd, refused_rejects]
    rfl
  · rw [emit_sched, raise_sched, wr_sched, quorumReject_eq, refused_sched]
  · have hlog : Logged 0 14 0x0A01 (reason + e.seq.toNat * 2 ^ 8) s.blk
        ((refused e reason s.blk).quorumReject reason e.seq.toNat) := by
      have h := quorumReject_logged (refused e reason s.blk) reason e.seq.toNat
      rw [Nat.mod_eq_of_lt e.seq.isLt] at h
      exact logged_since (refused_ev ..) (refused_now ..) h
    refine logged_append hlog ?_
    rw [emit_ev]
    exact raise_held_append ..

/-! ### START -/

/-- The numbers of the authorities' last requests lie below this offset of the hub. -/
theorem addr_ne_mgmtAuthSeq (a : BitVec 8) {q : Reg} (hq : hubBase + 0x71000 ≤ q.addr) :
    q.addr ≠ (Reg.mgmtAuthSeq a.toNat).addr := by
  have haddr : (Reg.mgmtAuthSeq a.toNat).addr = hubBase + 0x70100 + a.toNat * 8 := rfl
  have := a.isLt
  omega

theorem start_boots (r : MgmtReq) (s : State) (hacc : Accepted r s.blk) (hst : s.blk.dstate = stStandby)
    (hcold : s.blk.rst.coldHeld = false) (htrip : s.blk.rst.tripHold = false) :
    Does (.start r) s fun b => Entered stBoot s.blk b ∧ AllLost s.blk b := by
  refine does_of_onBlk (f := startFx r) rfl ?_
  have hmay : (s.blk.wr (MGMT_AUTH_SEQ.last r.auth.toNat) r.requestId.toNat).mayStart = true := by
    rw [Blk.mayStart, Blk.dstate, wr_rd_ne _ _ _ _ (addr_ne_mgmtAuthSeq r.auth (by decide)), ← Blk.dstate, wr_rst, hst,
      hcold, htrip]
    rfl
  have hans : Answers r (s.blk.wr (MGMT_AUTH_SEQ.last r.auth.toNat) r.requestId.toNat) := by
    obtain ⟨-, -, -, -, -, hkey, hdirect⟩ := hacc
    exact answers_wr _ _ (addr_ne_mgmtAuthSeq r.auth (by decide)) ⟨hkey, hdirect⟩
  rw [startFx, authRequest_accepted _ _ _ _ _ hacc, if_pos hmay, mgmtReply_eq _ _ _ _ hans, satBy_eq]
  refine ⟨entered_since ?_ (startBoot_entered _), allLost_since ?_ (fun p => ?_) (startBoot_allLost _)⟩
  · rw [emit_now, wr_now, wr_now]
  · rw [emit_flash, wr_flash, wr_flash]
  · rw [emit_port, wr_port, wr_port]

/-- Settles O15: the certificate's check decides between rejection and placement, and the state and the table decide where a
verified command goes; an accepted start request boots the module. -/
theorem commandsAreVerifiedAndPlaced : Obligations.CommandsAreVerifiedAndPlaced :=
  ⟨command_held_beside, command_lost, command_takes_entry, command_rejected, start_boots⟩

end Sys2Proof.Proofs
end

section
/-!
PROOFS. The functions of the model that leave the two byte stores (memory and configuration memory) alone: one rule for each, in
the order of the model's files, so that a rule rests on the rules of the functions that its own function calls.
-/
namespace Sys2Proof.Proofs
open Sys2Proof Sys2Proof.Machine Sys2Proof.Says

/-- The two byte stores of a block: memory and configuration memory. -/
def byteStores (b : Blk) : Sp Byte × Sp Byte := (b.mem, b.flash)

theorem byteStores_congr {b c : Blk} (hmem : b.mem = c.mem) (hflash : b.flash = c.flash) :
    byteStores b = byteStores c := Prod.ext hmem hflash

@[simp] theorem byteStores_ite (c : Prop) [Decidable c] (x y : Blk) :
    byteStores (if c then x else y) = if c then byteStores x else byteStores y := apply_ite ..
@[simp] theorem byteStores_snd_ite {α : Type} (c : Prop) [Decidable c] (x y : α × Blk) :
    byteStores (if c then x else y).2 = if c then byteStores x.2 else byteStores y.2 := by split <;> rfl

/-! Parts of the block that the model replaces in place. -/

@[simp] theorem withMemReqs_stores (b : Blk) (x : Sp (List MemReq)) : byteStores { b with memReqs := x } = byteStores b :=
  byteStores_congr rfl rfl
@[simp] theorem withXfers_stores (b : Blk) (x : List Xfer) : byteStores { b with xfers := x } = byteStores b :=
  byteStores_congr rfl rfl
@[simp] theorem withNextXfer_stores (b : Blk) (x : Nat) : byteStores { b with nextXfer := x } = byteStores b :=
  byteStores_congr rfl rfl
@[simp] theorem withChecks_stores (b : Blk) (x : List PrefCheck) : byteStores { b with checks := x } = byteStores b :=
  byteStores_congr rfl rfl
@[simp] theorem withClaims_stores (b : Blk) (x : List LaneUse) : byteStores { b with claims := x } = byteStores b :=
  byteStores_congr rfl rfl
@[simp] theorem withNcache_stores (b : Blk) (x : Sp NCacheSt) : byteStores { b with ncache := x } = byteStores b :=
  byteStores_congr rfl rfl
@[simp] theorem withCrossing_stores (b : Blk) (x : List CrossPkt) : byteStores { b with crossing := x } = byteStores b :=
  byteStores_congr rfl rfl
@[simp] theorem withInbox_stores (b : Blk) (x : List InPkt) : byteStores { b with inbox := x } = byteStores b :=
  byteStores_congr rfl rfl
@[simp] theorem withTakes_stores (b : Blk) (x : List Take) : byteStores { b with takes := x } = byteStores b :=
  byteStores_congr rfl rfl
@[simp] theorem withFreeCtr_stores (b : Blk) (x : Nat) : byteStores { b with freeCtr := x } = byteStores b :=
  byteStores_congr rfl rfl

@[simp] theorem ifB_stores (c : Bool) (f : Blk → Blk) (b : Blk) (h : ∀ b, byteStores (f b) = byteStores b) :
    byteStores (ifB c f b) = byteStores b := by
  cases c
  · rfl
  · exact h b

@[simp] theorem foldl_stores {α : Type} (f : Blk → α → Blk) (l : List α) (b : Blk)
    (h : ∀ b x, byteStores (f b x) = byteStores b) : byteStores (l.foldl f b) = byteStores b :=
  foldl_keep f byteStores l b fun b x _ => h b x

@[simp] theorem foldl_snd_stores {α β : Type} (f : β × Blk → α → β × Blk) (l : List α) (p : β × Blk)
    (h : ∀ p x, byteStores (f p x).2 = byteStores p.2) : byteStores (l.foldl f p).2 = byteStores p.2 :=
  foldl_keep f (fun p => byteStores p.2) l p fun p x _ => h p x

/-! ### Machine/Ops -/

@[simp] theorem setReg_stores (b : Blk) (r : Reg) (v : Nat) : byteStores (b.setReg r v) = byteStores b :=
  byteStores_congr (setReg_mem ..) (setReg_flash ..)
@[simp] theorem wr_stores (b : Blk) (f : Fld) (v : Nat) : byteStores (b.wr f v) = byteStores b :=
  byteStores_congr (wr_mem ..) (wr_flash ..)
@[simp] theorem wrB_stores (b : Blk) (f : Fld) (v : Bool) : byteStores (b.wrB f v) = byteStores b := wr_stores ..
@[simp] theorem incBy_stores (b : Blk) (f : Fld) (n : Nat) : byteStores (b.incBy f n) = byteStores b := wr_stores ..
@[simp] theorem satBy_stores (b : Blk) (f : Fld) (n : Nat) : byteStores (b.satBy f n) = byteStores b := wr_stores ..
@[simp] theorem updEv_stores (b : Blk) (f : EventSt → EventSt) : byteStores (b.updEv f) = byteStores b :=
  byteStores_congr (updEv_mem ..) (updEv_flash ..)
@[simp] theorem updTime_stores (b : Blk) (f : TimeSt → TimeSt) : byteStores (b.updTime f) = byteStores b :=
  byteStores_congr (updTime_mem ..) (updTime_flash ..)
@[simp] theorem updSched_stores (b : Blk) (f : SchedSt → SchedSt) : byteStores (b.updSched f) = byteStores b :=
  byteStores_congr (updSched_mem ..) (updSched_flash ..)
@[simp] theorem updVote_stores (b : Blk) (f : VoteSt → VoteSt) : byteStores (b.updVote f) = byteStores b :=
  byteStores_congr (updVote_mem ..) (updVote_flash ..)
@[simp] theorem updColl_stores (b : Blk) (f : CollSt → CollSt) : byteStores (b.updColl f) = byteStores b :=
  byteStores_congr (updColl_mem ..) (updColl_flash ..)
@[simp] theorem updRun_stores (b : Blk) (f : RunSt → RunSt) : byteStores (b.updRun f) = byteStores b :=
  byteStores_congr (updRun_mem ..) (updRun_flash ..)
@[simp] theorem updScale_stores (b : Blk) (f : ScaleSt → ScaleSt) : byteStores (b.updScale f) = byteStores b :=
  byteStores_congr (updScale_mem ..) (updScale_flash ..)
@[simp] theorem updRas_stores (b : Blk) (f : RasSt → RasSt) : byteStores (b.updRas f) = byteStores b :=
  byteStores_congr (updRas_mem ..) (updRas_flash ..)
@[simp] theorem updPower_stores (b : Blk) (f : PowerSt → PowerSt) : byteStores (b.updPower f) = byteStores b :=
  byteStores_congr (updPower_mem ..) (updPower_flash ..)
@[simp] theorem updSec_stores (b : Blk) (f : SecSt → SecSt) : byteStores (b.updSec f) = byteStores b :=
  byteStores_congr (updSec_mem ..) (updSec_flash ..)
@[simp] theorem updHost_stores (b : Blk) (f : HostSt → HostSt) : byteStores (b.updHost f) = byteStores b :=
  byteStores_congr (updHost_mem ..) (updHost_flash ..)
@[simp] theorem updMgmt_stores (b : Blk) (f : MgmtSt → MgmtSt) : byteStores (b.updMgmt f) = byteStores b :=
  byteStores_congr (updMgmt_mem ..) (updMgmt_flash ..)
@[simp] theorem updRst_stores (b : Blk) (f : RstSt → RstSt) : byteStores (b.updRst f) = byteStores b :=
  byteStores_congr (updRst_mem ..) (updRst_flash ..)
@[simp] theorem updJournal_stores (b : Blk) (f : Journal → Journal) : byteStores (b.updJournal f) = byteStores b :=
  byteStores_congr (updJournal_mem ..) (updJournal_flash ..)
@[simp] theorem updPort_stores (b : Blk) (p : Nat) (f : PortSt → PortSt) :
    byteStores (b.updPort p f) = byteStores b := byteStores_congr (updPort_mem ..) (updPort_flash ..)
@[simp] theorem updPtime_stores (b : Blk) (p : Nat) (f : PortTime → PortTime) :
    byteStores (b.updPtime p f) = byteStores b := byteStores_congr (updPtime_mem ..) (updPtime_flash ..)
@[simp] theorem updRouter_stores (b : Blk) (ld : Nat) (f : RouterSt → RouterSt) :
    byteStores (b.updRouter ld f) = byteStores b := byteStores_congr (updRouter_mem ..) (updRouter_flash ..)
@[simp] theorem updMd_stores (b : Blk) (md : Nat) (f : MdSt → MdSt) : byteStores (b.updMd md f) = byteStores b :=
  byteStores_congr (updMd_mem ..) (updMd_flash ..)
@[simp] theorem updGath_stores (b : Blk) (ge : Nat) (f : GathSt → GathSt) :
    byteStores (b.updGath ge f) = byteStores b := byteStores_congr (updGath_mem ..) (updGath_flash ..)
@[simp] theorem updNc_stores (b : Blk) (cd : Nat) (f : NCacheSt → NCacheSt) :
    byteStores (b.updNc cd f) = byteStores b := byteStores_congr (updNc_mem ..) (updNc_flash ..)
@[simp] theorem updRegion_stores (b : Blk) (r : Nat) (f : RegionSt → RegionSt) :
    byteStores (b.updRegion r f) = byteStores b := byteStores_congr (updRegion_mem ..) (updRegion_flash ..)
@[simp] theorem emit_stores (b : Blk) (o : Out) : byteStores (b.emit o) = byteStores b :=
  byteStores_congr (emit_mem ..) (emit_flash ..)
@[simp] theorem msix_stores (b : Blk) (v : Nat) : byteStores (b.msix v) = byteStores b := by simp [Blk.msix]
@[simp] theorem ibi_stores (b : Blk) (m : Nat) : byteStores (b.ibi m) = byteStores b := by simp [Blk.ibi]
@[simp] theorem enter_stores (b : Blk) (st : Nat) : byteStores (b.enter st) = byteStores b := by simp [Blk.enter]
@[simp] theorem degrade_stores (b : Blk) : byteStores b.degrade = byteStores b := by simp [Blk.degrade]
@[simp] theorem cause_stores (b : Blk) (f : Fld) (v : Bool) : byteStores (b.cause f v) = byteStores b := by simp [Blk.cause]
@[simp] theorem fresh_stores (b : Blk) : byteStores b.fresh.2 = byteStores b := byteStores_congr rfl rfl
@[simp] theorem hwFail_stores (b : Blk) (core : Nat) : byteStores (b.hwFail core) = byteStores b := by simp [Blk.hwFail]
@[simp] theorem modFail_stores (b : Blk) : byteStores b.modFail = byteStores b := by simp [Blk.modFail]
@[simp] theorem hold_stores (b : Blk) (e : EvRec) : byteStores (b.hold e) = byteStores b := by simp [Blk.hold]
@[simp] theorem setCoal_stores (b : Blk) (c : Coal) : byteStores (b.setCoal c) = byteStores b := by simp [Blk.setCoal]

@[simp] theorem raiseInj_stores (b : Blk) (inj : Bool) (die unit code detail : Nat) :
    byteStores (b.raiseInj inj die unit code detail) = byteStores b := by
  unfold Blk.raiseInj
  dsimp only
  (repeat' split) <;> simp

@[simp] theorem raise_stores (b : Blk) (die unit code detail : Nat) :
    byteStores (b.raise die unit code detail) = byteStores b := by simp [Blk.raise]
@[simp] theorem raiseOpen_stores (b : Blk) (die unit code : Nat) :
    byteStores (b.raiseOpen die unit code) = byteStores b := by simp [Blk.raiseOpen]
@[simp] theorem queueTest_stores (b : Blk) (u : StUnit) : byteStores (b.queueTest u) = byteStores b := by
  simp [Blk.queueTest]
@[simp] theorem setCore_stores (b : Blk) (k : Nat) (c : CoreSt) : byteStores (b.setCore k c) = byteStores b :=
  byteStores_congr (setCore_mem ..) (setCore_flash ..)
@[simp] theorem updCore_stores (b : Blk) (k : Nat) (f : CoreSt → CoreSt) :
    byteStores (b.updCore k f) = byteStores b := byteStores_congr (updCore_mem ..) (updCore_flash ..)

@[simp] theorem fire_stores (b : Blk) (det : Nat) (sel : Inject → Bool) :
    byteStores (b.fire det sel).2 = byteStores b := by
  unfold Blk.fire
  split <;> simp

@[simp] theorem fireWrite_stores (b : Blk) (key : Nat) : byteStores (b.fireWrite key).2 = byteStores b := by
  simp [Blk.fireWrite]

@[simp] theorem residue_stores (b : Blk) (k engine : Nat) : byteStores (b.residue k engine).2 = byteStores b := by
  unfold Blk.residue
  dsimp only
  (repeat' split) <;> simp

@[simp] theorem report_stores (b : Blk) (e : BitVec 32) (c : ChkAt) : byteStores (b.report e c) = byteStores b := by
  unfold Blk.report
  split <;> simp

@[simp] theorem fetchWord_stores (b : Blk) (key : Nat) : byteStores (b.fetchWord key).2 = byteStores b := by
  unfold Blk.fetchWord
  dsimp only
  (repeat' split) <;> simp

@[simp] theorem fetchWords_stores (b : Blk) (key n : Nat) : byteStores (b.fetchWords key n).2 = byteStores b := by
  induction n generalizing b key with
  | zero => rfl
  | succ n ih => exact (ih _ _).trans (fetchWord_stores b key)

@[simp] theorem fetchSet_stores (b : Blk) (key : Nat) (ids : List Nat) :
    byteStores (b.fetchSet key ids).2 = byteStores b := by simp [Blk.fetchSet]
@[simp] theorem consume_stores (b : Blk) (core consumer die unit addr words : Nat) :
    byteStores (b.consume core consumer die unit addr words) = byteStores b := by simp [Blk.consume]

/-! ### Machine/Sequencer -/

@[simp] theorem updCtx_stores (b : Blk) (k : Nat) (f : Ctx → Ctx) : byteStores (b.updCtx k f) = byteStores b := by
  simp [Blk.updCtx]
@[simp] theorem setSreg_stores (b : Blk) (k n v : Nat) : byteStores (b.setSreg k n v) = byteStores b := by
  simp [Blk.setSreg]
@[simp] theorem setSeqState_stores (b : Blk) (k v : Nat) : byteStores (b.setSeqState k v) = byteStores b := by
  simp [Blk.setSeqState]
@[simp] theorem stall_stores (b : Blk) (k e c n : Nat) : byteStores (b.stall k e c n) = byteStores b := by simp [Blk.stall]
@[simp] theorem countIssue_stores (b : Blk) (k : Nat) : byteStores (b.countIssue k) = byteStores b := by
  simp [Blk.countIssue]
@[simp] theorem jump_stores (b : Blk) (k pc : Nat) : byteStores (b.jump k pc) = byteStores b := by simp [Blk.jump]
@[simp] theorem spend_stores (b : Blk) (k cost : Nat) : byteStores (b.spend k cost) = byteStores b := by simp [Blk.spend]
@[simp] theorem fetchFault_stores (b : Blk) (k : Nat) (inj : Bool) :
    byteStores (b.fetchFault k inj) = byteStores b := by simp [Blk.fetchFault]
@[simp] theorem fireFetch_stores (b : Blk) (k : Nat) : byteStores (b.fireFetch k).2 = byteStores b := by
  simp [Blk.fireFetch]

@[simp] theorem issue_stores (i : Issue) (wf : Bool) (effect : Nat → Blk → Blk) (b : Blk)
    (h : ∀ k b, byteStores (effect k b) = byteStores b) : byteStores (issue i wf effect b) = byteStores b := by
  simp [issue, h]

@[simp] theorem issueCtl_stores (i : Issue) (wf : Bool) (effect : Nat → Blk → Blk) (b : Blk)
    (h : ∀ k b, byteStores (effect k b) = byteStores b) : byteStores (issueCtl i wf effect b) = byteStores b := by
  simp [issueCtl, h]

@[simp] theorem settleWait_stores (b : Blk) (k : Nat) : byteStores (b.settleWait k) = byteStores b := by
  unfold Blk.settleWait
  split <;> simp

@[simp] theorem waitqDone_stores (b : Blk) (k : Nat) (w : WaitQ) : byteStores (b.waitqDone k w) = byteStores b := by
  simp [Blk.waitqDone]

@[simp] theorem post_stores (b : Blk) (k q : Nat) (aborted : Bool) :
    byteStores (b.post k q aborted) = byteStores b := by
  unfold Blk.post
  dsimp only
  (repeat' split) <;> simp

@[simp] theorem nopFx_stores (i : Issue) (b : Blk) : byteStores (nopFx i b) = byteStores b := by simp [nopFx]
@[simp] theorem waitcFx_stores (i : Issue) (n : BitVec 17) (b : Blk) : byteStores (waitcFx i n b) = byteStores b := by
  simp [waitcFx]
@[simp] theorem waitqFx_stores (i : Issue) (q : BitVec 4) (count deadline : BitVec 32) (b : Blk) :
    byteStores (waitqFx i q count deadline b) = byteStores b := by simp [waitqFx]
@[simp] theorem loopFx_stores (i : Issue) (count : BitVec 32) (len : BitVec 12) (b : Blk) :
    byteStores (loopFx i count len b) = byteStores b := by simp [loopFx]
@[simp] theorem brbFx_stores (i : Issue) (pn : BitVec 4) (invert : Bool) (lenA lenB : BitVec 11) (b : Blk) :
    byteStores (brbFx i pn invert lenA lenB b) = byteStores b := by simp [brbFx]
@[simp] theorem cselFx_stores (i : Issue) (slot : Bool) (b : Blk) : byteStores (cselFx i slot b) = byteStores b := by
  simp [cselFx]
@[simp] theorem setVote_stores (b : Blk) (k vote cause : Nat) : byteStores (b.setVote k vote cause) = byteStores b := by
  simp [Blk.setVote]
@[simp] theorem voteFx_stores (i : Issue) (v : BitVec 2) (cause : BitVec 8) (b : Blk) :
    byteStores (voteFx i v cause b) = byteStores b := by simp [voteFx]
@[simp] theorem sloopFx_stores (i : Issue) (d : BitVec 5) (level : BitVec 2) (b : Blk) :
    byteStores (sloopFx i d level b) = byteStores b := by simp [sloopFx]
@[simp] theorem lateArrival_stores (b : Blk) (k lateNs : Nat) : byteStores (b.lateArrival k lateNs) = byteStores b := by
  simp [Blk.lateArrival]
@[simp] theorem beginSeg_stores (b : Blk) (k seg relNs : Nat) : byteStores (b.beginSeg k seg relNs) = byteStores b := by
  simp [Blk.beginSeg]
@[simp] theorem fetchFaultFx_stores (c : CoreId) (b : Blk) : byteStores (fetchFaultFx c b) = byteStores b := by
  simp [fetchFaultFx]

/-! ### Machine/Calendar -/

@[simp] theorem perf_stores (b : Blk) (die ev u n : Nat) : byteStores (b.perf die ev u n) = byteStores b := by
  simp [Blk.perf]

@[simp] theorem bursts_stores (b : Blk) (write : Bool) (key n : Nat) :
    byteStores (b.bursts write key n) = byteStores b := by
  unfold Blk.bursts
  split
  · rfl
  · refine foldl_stores _ _ _ fun b i => ?_
    dsimp only
    split
    · split <;> simp
    · simp

@[simp] theorem refreshAll_stores (b : Blk) : byteStores b.refreshAll = byteStores b := by simp [Blk.refreshAll]
@[simp] theorem openRegions_stores (b : Blk) (rs : List Nat) : byteStores (b.openRegions rs) = byteStores b :=
  foldl_stores (fun b r => b.updRegion r _) rs b (by simp)
@[simp] theorem beginWrite_stores (b : Blk) (key n : Nat) : byteStores (b.beginWrite key n) = byteStores b := by
  simp [Blk.beginWrite]
@[simp] theorem countGroup_stores (b : Blk) (g : Nat) : byteStores (b.countGroup g) = byteStores b := by
  simp [Blk.countGroup]
@[simp] theorem countRmw_stores (b : Blk) (key n : Nat) : byteStores (b.countRmw key n) = byteStores b := by
  simp [Blk.countRmw]
@[simp] theorem openWrite_stores (b : Blk) (key n : Nat) : byteStores (b.openWrite key n) = byteStores b := by
  simp [Blk.openWrite]
@[simp] theorem openWords_stores (b : Blk) (key : Nat) (ids : List Nat) :
    byteStores (b.openWords key ids) = byteStores b := by simp [Blk.openWords]

/-! ### Machine/Topo -/

@[simp] theorem showMap_stores (b : Blk) : byteStores b.showMap = byteStores b := by simp [Blk.showMap]
@[simp] theorem mapPort_stores (b : Blk) (n p : Nat) : byteStores (b.mapPort n p) = byteStores b := by simp [Blk.mapPort]
@[simp] theorem setPstate_stores (b : Blk) (p v : Nat) : byteStores (b.setPstate p v) = byteStores b := by
  simp [Blk.setPstate]

/-! ### Machine/Packets -/

/-- The definition as a function, so that its match is not evaluated. -/
theorem useTime_eq : Blk.useTime = fun b p c => match b.openTimes p c with
    | k :: _ => b.updPort p fun s => { s with txEnd := b.wordStart p (k + 1) }
    | [] => b := rfl

@[simp] theorem useTime_stores (b : Blk) (p c : Nat) : byteStores (b.useTime p c) = byteStores b := by
  rw [useTime_eq]
  beta_reduce
  generalize b.openTimes p c = l
  cases l with
  | nil => rfl
  | cons k l => exact updPort_stores ..

@[simp] theorem countTime_stores (b : Blk) : byteStores b.countTime = byteStores b := by simp [Blk.countTime]
@[simp] theorem restartCal_stores (b : Blk) (p : Nat) : byteStores (b.restartCal p) = byteStores b := by
  simp [Blk.restartCal]
@[simp] theorem dropPkt_stores (b : Blk) (ld h cause : Nat) : byteStores (b.dropPkt ld h cause) = byteStores b := by
  simp [Blk.dropPkt]
@[simp] theorem freeCredit_stores (b : Blk) (inP vc n : Nat) : byteStores (b.freeCredit inP vc n) = byteStores b := by
  simp [Blk.freeCredit]
@[simp] theorem enqueue_stores (b : Blk) (ld n : Nat) (pkt : RawPacket) (inP inVc : Nat) (injected : Bool) :
    byteStores (b.enqueue ld n pkt inP inVc injected) = byteStores b := by simp [Blk.enqueue]
@[simp] theorem queueOn_stores (b : Blk) (ld n : Nat) (pkt : RawPacket) (inP inVc : Nat) (injected : Bool) :
    byteStores (b.queueOn ld n pkt inP inVc injected) = byteStores b := by simp [Blk.queueOn]

@[simp] theorem landAcross_stores (b : Blk) (x : CrossPkt) : byteStores (b.landAcross x) = byteStores b := by
  unfold Blk.landAcross
  split <;> simp

@[simp] theorem sendOn_stores (b : Blk) (ld n : Nat) (pkt : RawPacket) (inP inVc : Nat) (injected : Bool) :
    byteStores (b.sendOn ld n pkt inP inVc injected) = byteStores b := by
  unfold Blk.sendOn
  dsimp only
  split
  · simp
  · split
    · simp
    · rfl

@[simp] theorem deliverPkt_stores (b : Blk) (ld : Nat) (pkt : RawPacket) (inP inVc : Nat) :
    byteStores (b.deliverPkt ld pkt inP inVc) = byteStores b := byteStores_congr rfl rfl

@[simp] theorem routeUni_stores (b : Blk) (ld : Nat) (pkt : RawPacket) (inP inVc inAxis : Nat) (injected : Bool) :
    byteStores (b.routeUni ld pkt inP inVc inAxis injected) = byteStores b := by
  unfold Blk.routeUni
  dsimp only
  (repeat' split) <;> simp

@[simp] theorem routeMc_stores (b : Blk) (ld : Nat) (pkt : RawPacket) (inP inVc inAxis : Nat) (injected : Bool) :
    byteStores (b.routeMc ld pkt inP inVc inAxis injected) = byteStores b := by simp [Blk.routeMc]

@[simp] theorem launch_stores (b : Blk) (ld : Nat) (out : Option Nat) (pkt : RawPacket) :
    byteStores (b.launch ld out pkt) = byteStores b := by
  unfold Blk.launch
  split <;> simp

@[simp] theorem fromHub_stores (b : Blk) (ld : Nat) (out : Option Nat) (pkt : RawPacket) :
    byteStores (b.fromHub ld out pkt) = byteStores b := by
  unfold Blk.fromHub
  split
  · exact launch_stores ..
  · exact withCrossing_stores ..

@[simp] theorem inject_stores (b : Blk) (ld : Nat) (pkt : RawPacket) : byteStores (b.inject ld pkt) = byteStores b := by
  simp [Blk.inject]

@[simp] theorem carryLinks_stores (b : Blk) : byteStores b.carryLinks = byteStores b := by
  have hgo (b : Blk) (sel : CrossPkt → Bool) (f : Blk → CrossPkt → Blk) (h : ∀ b x, byteStores (f b x) = byteStores b) :
      byteStores ((b.crossing.filter sel).foldl f { b with crossing := b.crossing.filter fun x => !sel x }) = byteStores b :=
    (foldl_stores f _ _ h).trans (byteStores_congr rfl rfl)
  refine foldl_stores _ _ _ fun b ld => ?_
  refine (ifB_stores _ _ _ fun b => hgo b _ _ fun b x => launch_stores ..).trans ?_
  exact ifB_stores _ _ _ fun b => hgo b _ _ landAcross_stores

@[simp] theorem sendNeighbour_stores (b : Blk) (n type : Nat) (payload : List MWord) (rest : Nat) :
    byteStores (b.sendNeighbour n type payload rest) = byteStores b := by simp [Blk.sendNeighbour]
@[simp] theorem echoFor_stores (b : Blk) (h : Nat) : byteStores (b.echoFor h) = byteStores b := by simp [Blk.echoFor]

@[simp] theorem takePktIf_stores (way : Blk → InPkt → Bool) (pkt : RawPacket) (f : Blk → Blk) (b : Blk)
    (h : ∀ b, byteStores (f b) = byteStores b) : byteStores (takePktIf way pkt f b) = byteStores b := by
  unfold takePktIf
  split
  · simp [h]
  · rfl

@[simp] theorem takePkt_stores (pkt : RawPacket) (f : Blk → Blk) (b : Blk)
    (h : ∀ b, byteStores (f b) = byteStores b) : byteStores (takePkt pkt f b) = byteStores b := takePktIf_stores _ _ _ _ h
@[simp] theorem setLimiter_stores (b : Blk) (c x : Nat) (l : Limiter) :
    byteStores (b.setLimiter c x l) = byteStores b := by simp [Blk.setLimiter]
@[simp] theorem echoAct_stores (b : Blk) (pay : Nat) : byteStores (b.echoAct pay) = byteStores b := by simp [Blk.echoAct]
@[simp] theorem recoveryFx_stores (ld : Fin 2) (b : Blk) : byteStores (recoveryFx ld b) = byteStores b := by
  simp [recoveryFx]
@[simp] theorem echoFx_stores (ld : Fin 2) (pkt : RawPacket) (b : Blk) :
    byteStores (echoFx ld pkt b) = byteStores b := by simp [echoFx]
@[simp] theorem closeDie_stores (b : Blk) (ld : Nat) : byteStores (b.closeDie ld) = byteStores b := by simp [Blk.closeDie]
@[simp] theorem closeOutputs_stores (b : Blk) : byteStores b.closeOutputs = byteStores b := by simp [Blk.closeOutputs]
@[simp] theorem closeInput_stores (b : Blk) (p : Nat) : byteStores (b.closeInput p) = byteStores b := by
  simp [Blk.closeInput]
@[simp] theorem purge_stores (b : Blk) (p : Nat) : byteStores (b.purge p) = byteStores b := by simp [Blk.purge]

@[simp] theorem packetSendFx_stores (p : Port) (vc : Fin 8) (b : Blk) :
    byteStores (packetSendFx p vc b) = byteStores b := by
  unfold packetSendFx
  dsimp only
  (repeat' split) <;> simp

@[simp] theorem switchEpoch_stores (b : Blk) (bank ld : Nat) : byteStores (b.switchEpoch bank ld) = byteStores b := by
  simp [Blk.switchEpoch]
@[simp] theorem refuseEntry_stores (b : Blk) : byteStores b.refuseEntry = byteStores b := by simp [Blk.refuseEntry]
@[simp] theorem resetEpochs_stores (b : Blk) : byteStores b.resetEpochs = byteStores b := by simp [Blk.resetEpochs]
@[simp] theorem epochMarkFx_stores (p : Port) (epoch : Bool) (vcs : BitVec 8) (b : Blk) :
    byteStores (epochMarkFx p epoch vcs b) = byteStores b := by simp [epochMarkFx]
@[simp] theorem epochReleaseFx_stores (ld : Fin 2) (b : Blk) : byteStores (epochReleaseFx ld b) = byteStores b := by
  simp [epochReleaseFx]

/-! ### Machine/CollOps -/

@[simp] theorem setRun_stores (b : Blk) (l : Nat) (r : Option CollRun) : byteStores (b.setRun l r) = byteStores b := by
  simp [Blk.setRun]

@[simp] theorem endRun_stores (b : Blk) (r : CollRun) : byteStores (b.endRun r) = byteStores b := by
  unfold Blk.endRun
  dsimp only
  (repeat' split) <;> simp

@[simp] theorem shardAbort_stores (b : Blk) (a : Nat) : byteStores (b.shardAbort a) = byteStores b := by
  unfold Blk.shardAbort
  dsimp only
  (repeat' split) <;> simp

@[simp] theorem showJournal_stores (b : Blk) : byteStores b.showJournal = byteStores b := by simp [Blk.showJournal]

/-! ### Machine/Fabric -/

@[simp] theorem addrRange_stores (b : Blk) (die unit a : Nat) : byteStores (b.addrRange die unit a) = byteStores b := by
  simp [Blk.addrRange]

@[simp] theorem readSplit_stores (b : Blk) (a die unit : Nat) (told : Bool) (n : Nat) :
    byteStores (b.readSplit a die unit told n).2 = byteStores b := by
  induction n generalizing b a told with
  | zero => rfl
  | succ n ih =>
    unfold Blk.readSplit
    split <;> simp [ih]

@[simp] theorem readDev_stores (b : Blk) (a n die unit : Nat) : byteStores (b.readDev a n die unit).2 = byteStores b := by
  unfold Blk.readDev
  split <;> simp

@[simp] theorem readMem_stores (b : Blk) (a n die unit : Nat) :
    byteStores (b.readMem a n die unit).2 = byteStores b := by
  unfold Blk.readMem
  split <;> simp

@[simp] theorem descriptor_stores (b : Blk) (k : Nat) (r : BitVec 5) :
    byteStores (b.descriptor k r).2 = byteStores b := by simp [Blk.descriptor]
@[simp] theorem holdReqs_stores (b : Blk) (owner a n : Nat) (write : Bool) (serves : MemFor) (data : List MWord) :
    byteStores (b.holdReqs owner a n write serves data) = byteStores b := foldl_stores _ _ _ fun _ _ => rfl
@[simp] theorem dropReq_stores (b : Blk) (x : Nat × MemReq) : byteStores (b.dropReq x) = byteStores b :=
  byteStores_congr rfl rfl
@[simp] theorem markAborted_stores (b : Blk) (id : Nat) : byteStores (b.markAborted id) = byteStores b :=
  byteStores_congr rfl rfl
@[simp] theorem showCollision_stores (b : Blk) (u : LaneUse) (seg cyc : Nat) :
    byteStores (b.showCollision u seg cyc) = byteStores b := by simp [Blk.showCollision]

@[simp] theorem presentClaims_stores (b : Blk) (rel : Nat) : byteStores (b.presentClaims rel) = byteStores b := by
  refine foldl_stores _ _ _ fun b _ => ?_
  split
  · rfl
  · exact fire_stores ..

@[simp] theorem fireWord_stores (b : Blk) (det point die unit far : Nat) (sel : Inject → Bool) (ws : List MWord) :
    byteStores (b.fireWord det point die unit far sel ws).2 = byteStores b := by
  unfold Blk.fireWord
  dsimp only
  (repeat' split) <;> simp

@[simp] theorem receive_stores (b : Blk) (src dst : Nat) (ws : List MWord) :
    byteStores (b.receive src dst ws).2 = byteStores b := by simp [Blk.receive]
@[simp] theorem countHop_stores (b : Blk) (src dst n : Nat) : byteStores (b.countHop src dst n) = byteStores b := by
  simp [Blk.countHop]

@[simp] theorem travel_stores (b : Blk) (way : List Nat) (ws : List MWord) :
    byteStores (b.travel way ws).2 = byteStores b := by
  induction way generalizing b ws with
  | nil => rfl
  | cons src way ih =>
    cases way with
    | nil => rfl
    | cons dst rest => simp [Blk.travel, ih]

@[simp] theorem crossHub_stores (b : Blk) (ws : List MWord) : byteStores (b.crossHub ws).2 = byteStores b := by
  simp [Blk.crossHub]
@[simp] theorem takeServed_stores (b : Blk) (cd p : Nat) (ls : List Nat) :
    byteStores (b.takeServed cd p ls).2 = byteStores b := by simp [Blk.takeServed]
@[simp] theorem regionWriteFx_stores (staging : Bool) (region : BitVec 20) (b : Blk) :
    byteStores (regionWriteFx staging region b) = byteStores b := by simp [regionWriteFx]
@[simp] theorem windowExpired_stores (b : Blk) (a : Nat) : byteStores (b.windowExpired a) = byteStores b := by
  simp [Blk.windowExpired]
@[simp] theorem countDeferred_stores (b : Blk) (ch n : Nat) : byteStores (b.countDeferred ch n) = byteStores b := by
  simp [Blk.countDeferred]
@[simp] theorem refreshSlotFx_stores (ch : Fin 128) (b : Blk) : byteStores (refreshSlotFx ch b) = byteStores b := by
  simp [refreshSlotFx]
@[simp] theorem startMigration_stores (b : Blk) (md logical target : Nat) :
    byteStores (b.startMigration md logical target) = byteStores b := by simp [Blk.startMigration]

@[simp] theorem copySome_stores (b : Blk) : byteStores b.copySome = byteStores b := by
  refine foldl_stores _ _ _ fun b md => ?_
  split <;> simp

@[simp] theorem migrationDoneFx_stores (md : Fin 4) (b : Blk) : byteStores (migrationDoneFx md b) = byteStores b := by
  unfold migrationDoneFx
  dsimp only
  (repeat' split) <;> simp

@[simp] theorem idleSlotFx_stores (b : Blk) : byteStores (idleSlotFx b) = byteStores b := by simp [idleSlotFx]

/-! ### Machine/Gather -/

@[simp] theorem clearNc_stores (b : Blk) (cd : Nat) : byteStores (b.clearNc cd) = byteStores b := by simp [Blk.clearNc]
@[simp] theorem clearAllNc_stores (b : Blk) : byteStores b.clearAllNc = byteStores b := by simp [Blk.clearAllNc]
@[simp] theorem answer_stores (b : Blk) (cd line : Nat) (ports : List Nat) (bad hit : Bool) :
    byteStores (b.answer cd line ports bad hit) = byteStores b := by simp [Blk.answer]
@[simp] theorem ncacheLookupFx_stores (cd : Fin 12) (lport : Fin 5) (addr : BitVec 48) (b : Blk) :
    byteStores (ncacheLookupFx cd lport addr b) = byteStores b := by simp [ncacheLookupFx]
@[simp] theorem retain_stores (b : Blk) (cd line : Nat) (ws : List MWord) :
    byteStores (b.retain cd line ws) = byteStores b := by simp [Blk.retain]

@[simp] theorem ncacheFillFx_stores (cd : Fin 12) (line : BitVec 40) (b : Blk) :
    byteStores (ncacheFillFx cd line b) = byteStores b := by
  unfold ncacheFillFx
  dsimp only
  split <;> simp

@[simp] theorem gathSettle_stores (b : Blk) (ge : Nat) : byteStores (b.gathSettle ge) = byteStores b := by
  unfold Blk.gathSettle
  dsimp only
  split
  · simp
  · rw [updGath_stores, incBy_stores]
    refine foldl_stores _ _ _ fun b s => ?_
    split
    · split <;> simp
    · rfl

@[simp] theorem gathBusy_stores (b : Blk) (ge : Nat) : byteStores (b.gathBusy ge) = byteStores b := by simp [Blk.gathBusy]
@[simp] theorem showGath_stores (b : Blk) (ge : Nat) : byteStores (b.showGath ge) = byteStores b := by simp [Blk.showGath]
@[simp] theorem gstartFx_stores (i : Issue) (r : BitVec 5) (b : Blk) : byteStores (gstartFx i r b) = byteStores b := by
  simp [gstartFx]
@[simp] theorem gathIndex_stores (b : Blk) (st : Machine.Stream) (i : Nat) :
    byteStores (b.gathIndex st i).2.2 = byteStores b := by simp [Blk.gathIndex]

@[simp] theorem gathIssue_stores (b : Blk) (ge : Nat) : byteStores (b.gathIssue ge) = byteStores b := by
  unfold Blk.gathIssue
  dsimp only
  (repeat' split) <;> simp

@[simp] theorem ncExpire_stores (b : Blk) (cd : Nat) (m : NcMiss) : byteStores (b.ncExpire cd m) = byteStores b := by
  simp [Blk.ncExpire]

/-! ### Machine/Links -/

@[simp] theorem portCauses_stores (b : Blk) : byteStores b.portCauses = byteStores b := by simp [Blk.portCauses]
@[simp] theorem startTraining_stores (b : Blk) (p : Nat) : byteStores (b.startTraining p) = byteStores b := by
  simp [Blk.startTraining]
@[simp] theorem fillCredits_stores (b : Blk) (p : Nat) : byteStores (b.fillCredits p) = byteStores b := by
  simp [Blk.fillCredits]
@[simp] theorem linkUp_stores (b : Blk) (p st width : Nat) : byteStores (b.linkUp p st width) = byteStores b := by
  simp [Blk.linkUp]
@[simp] theorem portDown_stores (b : Blk) (p : Nat) : byteStores (b.portDown p) = byteStores b := by simp [Blk.portDown]
@[simp] theorem quarantine_stores (b : Blk) (p : Nat) : byteStores (b.quarantine p) = byteStores b := by
  simp [Blk.quarantine]
@[simp] theorem lineNotice_stores (b : Blk) (n : Nat) : byteStores (b.lineNotice n) = byteStores b := by
  simp [Blk.lineNotice]
@[simp] theorem cover_stores (b : Blk) (n p s : Nat) : byteStores (b.cover n p s) = byteStores b := by simp [Blk.cover]

@[simp] theorem agreeTake_stores (b : Blk) (n p s t : Nat) : byteStores (b.agreeTake n p s t) = byteStores b := by
  unfold Blk.agreeTake
  split
  · exact withTakes_stores ..
  · exact withTakes_stores ..

@[simp] theorem portLost_stores (b : Blk) (p : Nat) : byteStores (b.portLost p) = byteStores b := by
  unfold Blk.portLost
  dsimp only
  (repeat' split) <;> simp

@[simp] theorem linkDownEvent_stores (b : Blk) (p cause durUs words : Nat) :
    byteStores (b.linkDownEvent p cause durUs words) = byteStores b := by simp [Blk.linkDownEvent]
@[simp] theorem received_stores (b : Blk) (p n : Nat) : byteStores (b.received p n) = byteStores b := by simp [Blk.received]

@[simp] theorem linkWordSendFx_stores (p : Port) (b : Blk) : byteStores (linkWordSendFx p b) = byteStores b := by
  unfold linkWordSendFx
  extract_lets p s st final hp hello c even d out credit slot pend takePend
  have hhello (b : Blk) : byteStores (hello b) = byteStores b := by rw [updPort_stores, emit_stores]
  have hcredit (b : Blk) : byteStores (credit b) = byteStores b := by rw [updPort_stores, emit_stores]
  have htake (b : Blk) (x : Nat × Nat) : byteStores (takePend b x) = byteStores b := by rw [updPort_stores, emit_stores]
  have hd : byteStores d = byteStores b := by rw [perf_stores, updPort_stores, useTime_stores]
  clear_value hello c d credit takePend
  split
  · split
    · rw [hhello, perf_stores, updPort_stores]
    · rfl
  · split
    · rfl
    · split
      · rw [hcredit, hd]
      · split
        · exact (updPtime_stores ..).trans ((emit_stores ..).trans hd)
        · split
          · rw [htake, hd]
          · rw [htake, hd]
          · rw [htake, hd]
          · rw [htake, hd]
          · split
            · rw [hhello, hd]
            · rw [hcredit, hd]

@[simp] theorem ackTo_stores (b : Blk) (p ack : Nat) : byteStores (b.ackTo p ack) = byteStores b := by simp [Blk.ackTo]
@[simp] theorem creditAckFx_stores (p : Port) (w : CreditWord) (b : Blk) :
    byteStores (creditAckFx p w b) = byteStores b := by simp [creditAckFx]
@[simp] theorem nakFx_stores (p : Port) (w : CreditWord) (b : Blk) : byteStores (nakFx p w b) = byteStores b := by
  simp [nakFx]
@[simp] theorem fireLink_stores (b : Blk) (det p : Nat) (sel : Inject → Bool) :
    byteStores (b.fireLink det p sel) = byteStores b := by simp [Blk.fireLink]
@[simp] theorem uncorrectableFx_stores (p : Port) (b : Blk) : byteStores (uncorrectableFx p b) = byteStores b := by
  simp [uncorrectableFx]

@[simp] theorem outageEndFx_stores (p : Port) (b : Blk) : byteStores (outageEndFx p b) = byteStores b := by
  unfold outageEndFx
  dsimp only
  (repeat' split) <;> simp

@[simp] theorem laneFailureFx_stores (p : Port) (lane : Fin 36) (lostLock : Bool) (symErr : Nat) (b : Blk) :
    byteStores (laneFailureFx p lane lostLock symErr b) = byteStores b := by
  unfold laneFailureFx
  dsimp only
  (repeat' split) <;> simp

@[simp] theorem spareRequestFx_stores (p : Port) (failed spare : BitVec 6) (b : Blk) :
    byteStores (spareRequestFx p failed spare b) = byteStores b := by simp [spareRequestFx]
@[simp] theorem spareAckFx_stores (p : Port) (failed spare : BitVec 6) (cw : BitVec 32) (b : Blk) :
    byteStores (spareAckFx p failed spare cw b) = byteStores b := by simp [spareAckFx]
@[simp] theorem moveTx_stores (b : Blk) (p : Nat) : byteStores (b.moveTx p) = byteStores b := by simp [Blk.moveTx]

@[simp] theorem laneSwitchFx_stores (p : Port) (b : Blk) : byteStores (laneSwitchFx p b) = byteStores b := by
  unfold laneSwitchFx
  dsimp only
  split
  · simp
  · split <;> simp

@[simp] theorem enterCalmFx_stores (p : Port) (instant : BitVec 64) (b : Blk) :
    byteStores (enterCalmFx p instant b) = byteStores b := by simp [enterCalmFx]
@[simp] theorem sendPortCtrl_stores (b : Blk) (p a t : Nat) : byteStores (b.sendPortCtrl p a t) = byteStores b := by
  simp [Blk.sendPortCtrl]

@[simp] theorem agreeLeave_stores (b : Blk) (p : Nat) : byteStores (b.agreeLeave p) = byteStores b := by
  unfold Blk.agreeLeave
  split <;> simp

@[simp] theorem leaveCalmFx_stores (p : Port) (instant : BitVec 64) (b : Blk) :
    byteStores (leaveCalmFx p instant b) = byteStores b := by simp [leaveCalmFx]
@[simp] theorem halveWidthFx_stores (p : Port) (instant : BitVec 64) (b : Blk) :
    byteStores (halveWidthFx p instant b) = byteStores b := by simp [halveWidthFx]
@[simp] theorem halve_stores (b : Blk) (p : Nat) : byteStores (b.halve p) = byteStores b := by simp [Blk.halve]

@[simp] theorem actionInstantFx_stores (p : Port) (b : Blk) : byteStores (actionInstantFx p b) = byteStores b := by
  unfold actionInstantFx
  dsimp only
  (repeat' split) <;> simp

@[simp] theorem takeoverFx_stores (p : Port) (logical : BitVec 4) (tTake : BitVec 64) (b : Blk) :
    byteStores (takeoverFx p logical tTake b) = byteStores b := by simp [takeoverFx]

@[simp] theorem portTakeoverFx_stores (logical : Fin 10) (b : Blk) :
    byteStores (portTakeoverFx logical b) = byteStores b := by
  unfold portTakeoverFx
  dsimp only
  split
  · rfl
  · simp

@[simp] theorem retrain_stores (b : Blk) (p : Nat) : byteStores (b.retrain p) = byteStores b := by simp [Blk.retrain]
@[simp] theorem portEnabled_stores (b : Blk) (p : Nat) : byteStores (b.portEnabled p) = byteStores b := by
  simp [Blk.portEnabled]
@[simp] theorem portDisabled_stores (b : Blk) (p : Nat) : byteStores (b.portDisabled p) = byteStores b := by
  simp [Blk.portDisabled]
@[simp] theorem portRetrained_stores (b : Blk) (p : Nat) : byteStores (b.portRetrained p) = byteStores b := by
  simp [Blk.portRetrained]

@[simp] theorem cableMateFx_stores (p : Port) (b : Blk) : byteStores (cableMateFx p b) = byteStores b := by
  unfold cableMateFx
  dsimp only
  split <;> simp

@[simp] theorem portFail_stores (b : Blk) (p : Nat) : byteStores (b.portFail p) = byteStores b := by simp [Blk.portFail]
@[simp] theorem cableOvercurrentFx_stores (p : Port) (b : Blk) : byteStores (cableOvercurrentFx p b) = byteStores b := by
  simp [cableOvercurrentFx]
@[simp] theorem farEndFx_stores (p : Port) (b : Blk) : byteStores (farEndFx p b) = byteStores b := by simp [farEndFx]

@[simp] theorem trainingLockFx_stores (p : Port) (r : TrainResult) (b : Blk) :
    byteStores (trainingLockFx p r b) = byteStores b := by
  unfold trainingLockFx
  dsimp only
  split
  · rfl
  · split
    · rw [portFail_stores, wr_stores]
      refine foldl_stores _ _ _ fun b l => ?_
      split <;> simp
    · rw [updPort_stores, wr_stores]
      refine foldl_stores _ _ _ fun b l => ?_
      split <;> simp

@[simp] theorem lockTimeoutFx_stores (p : Port) (b : Blk) : byteStores (lockTimeoutFx p b) = byteStores b := by
  unfold lockTimeoutFx
  dsimp only
  (repeat' split) <;> simp

@[simp] theorem settleTimeoutFx_stores (p : Port) (b : Blk) : byteStores (settleTimeoutFx p b) = byteStores b := by
  unfold settleTimeoutFx
  dsimp only
  (repeat' split) <;> simp

/-! ### Machine/Scale -/

@[simp] theorem setBank_stores (b : Blk) (shadow : Bool) (m : Sp ScaleEnt) :
    byteStores (b.setBank shadow m) = byteStores b := by simp [Blk.setBank]
@[simp] theorem addPending_stores (b : Blk) (t : Nat) (p : PendSet) : byteStores (b.addPending t p) = byteStores b := by
  simp [Blk.addPending]
@[simp] theorem countRescale_stores (b : Blk) (die unit t delta : Nat) :
    byteStores (b.countRescale die unit t delta) = byteStores b := by simp [Blk.countRescale]
@[simp] theorem countConv_stores (b : Blk) (k d : Nat) (r : ConvOut) :
    byteStores (b.countConv k d r) = byteStores b := by simp [Blk.countConv]
@[simp] theorem badDesc_stores (b : Blk) (k addr : Nat) : byteStores (b.badDesc k addr) = byteStores b := by
  simp [Blk.badDesc]
@[simp] theorem fetchBias_stores (b : Blk) (k d : Nat) (js : List Nat) :
    byteStores (b.fetchBias k d js).2 = byteStores b := by simp [Blk.fetchBias]

@[simp] theorem conversionReportFx_stores (b : Blk) : byteStores (conversionReportFx b) = byteStores b := by
  unfold conversionReportFx
  split <;> simp

@[simp] theorem pendingLatchFx_stores (b : Blk) : byteStores (pendingLatchFx b) = byteStores b := by simp [pendingLatchFx]

@[simp] theorem rebuildFirst_stores (b : Blk) (n : Nat) : byteStores (b.rebuildFirst n) = byteStores b := by
  unfold Blk.rebuildFirst
  split <;> simp

@[simp] theorem rebuildCompleteFx_stores (b : Blk) : byteStores (rebuildCompleteFx b) = byteStores b := by
  simp [rebuildCompleteFx]
@[simp] theorem rebuildStopFx_stores (n : Nat) (b : Blk) : byteStores (rebuildStopFx n b) = byteStores b := by
  simp [rebuildStopFx]
@[simp] theorem entryCfg_stores (b : Blk) : byteStores b.entryCfg = byteStores b := by simp [Blk.entryCfg]

/-! ### Machine/Time -/

@[simp] theorem tick_stores (b : Blk) : byteStores b.tick = byteStores b := by simp [Blk.tick]
@[simp] theorem stepMtc_stores (b : Blk) (e : Int) : byteStores (b.stepMtc e) = byteStores b := by simp [Blk.stepMtc]
@[simp] theorem skewEvent_stores (b : Blk) (inj : Bool) (cause port val : Nat) :
    byteStores (b.skewEvent inj cause port val) = byteStores b := by simp [Blk.skewEvent]

@[simp] theorem timestampFx_stores (p : Port) (set : BitVec 160) (b : Blk) :
    byteStores (timestampFx p set b) = byteStores b := by
  unfold timestampFx
  extract_lets q x t4 pt hops turn tTx b₁ b₂ b₃ found inj b₄ injPs asym
  have h₃ : byteStores b₃ = byteStores b := (wr_stores ..).trans ((updPtime_stores ..).trans (by simp [b₁]))
  split
  · rfl
  · clear_value found
    split
    · exact (satBy_stores ..).trans h₃
    · extract_lets rt delay off b₅ run b₆
      have h₅ : byteStores b₅ = byteStores b := (updPtime_stores ..).trans ((fire_stores ..).trans h₃)
      have h₆ : byteStores b₆ = byteStores b := (updPtime_stores ..).trans h₅
      split
      · exact (satBy_stores ..).trans h₃
      · split
        · exact h₅
        · split
          · split
            · exact (skewEvent_stores ..).trans h₆
            · split
              · exact (modFail_stores ..).trans h₆
              · exact h₆
          · exact (updPtime_stores ..).trans h₅

@[simp] theorem showPorts_stores (b : Blk) (h : Nat) (ins : List PortIn) : byteStores (b.showPorts h ins) = byteStores b := by
  refine foldl_stores _ _ _ fun b p => ?_
  simp only [updPtime_stores]
  split <;> simp

@[simp] theorem noContributor_stores (b : Blk) : byteStores b.noContributor = byteStores b := by
  unfold Blk.noContributor
  dsimp only
  (repeat' split) <;> simp

@[simp] theorem lockStep_stores (b : Blk) (e : Int) (ins : List PortIn) :
    byteStores (b.lockStep e ins) = byteStores b := by simp [Blk.lockStep]
@[simp] theorem correct_stores (b : Blk) (e : Int) : byteStores (b.correct e) = byteStores b := by simp [Blk.correct]
@[simp] theorem slewRate_stores (b : Blk) (old want : Int) : byteStores (b.slewRate old want) = byteStores b := by
  simp [Blk.slewRate]
@[simp] theorem rootUpdate_stores (b : Blk) : byteStores b.rootUpdate = byteStores b := by simp [Blk.rootUpdate]
@[simp] theorem overFail_stores (b : Blk) : byteStores b.overFail = byteStores b := by simp [Blk.overFail]
@[simp] theorem controlLawFx_stores (b : Blk) : byteStores (controlLawFx b) = byteStores b := by simp [controlLawFx]
@[simp] theorem oscillatorFx_stores (m : OscMeasure) (b : Blk) : byteStores (oscillatorFx m b) = byteStores b := by
  simp [oscillatorFx]
@[simp] theorem takeRoot_stores (b : Blk) : byteStores b.takeRoot = byteStores b := by simp [Blk.takeRoot]
@[simp] theorem todStep_stores (b : Blk) (ns : Nat) : byteStores (b.todStep ns) = byteStores b := by simp [Blk.todStep]

@[simp] theorem ppsEdgeFx_stores (k : Nat) (b : Blk) : byteStores (ppsEdgeFx k b) = byteStores b := by
  unfold ppsEdgeFx
  split
  · rfl
  · split
    · split
      · rw [updTime_stores, todStep_stores]
      · rfl
    · split
      · rfl
      · extract_lets cap16 err capNs close good c
        have hc : byteStores c = byteStores b := (updTime_stores ..).trans (wr_stores ..)
        clear_value c
        split
        · exact hc
        · rw [updTime_stores, incBy_stores, wr_stores, hc]

@[simp] theorem ppsLossFx_stores (b : Blk) : byteStores (ppsLossFx b) = byteStores b := by
  unfold ppsLossFx
  split <;> simp

@[simp] theorem backupRootFx_stores (b : Blk) : byteStores (backupRootFx b) = byteStores b := by simp [backupRootFx]

/-! ### Machine/Access -/

@[simp] theorem afterRead_stores (b : Blk) (r : Reg) : byteStores (b.afterRead r) = byteStores b := by
  unfold Blk.afterRead
  split <;> simp

@[simp] theorem regRead_stores (b : Blk) (p : Sys2Proof.Path) (a bytes : Nat) :
    byteStores (b.regRead p a bytes).2.2 = byteStores b := by
  unfold Blk.regRead
  (repeat' split) <;> simp

@[simp] theorem schedLate_stores (b : Blk) (action entry inst why : Nat) :
    byteStores (b.schedLate action entry inst why) = byteStores b := by simp [Blk.schedLate]
@[simp] theorem setEntry_stores (b : Blk) (n action arg inst : Nat) :
    byteStores (b.setEntry n action arg inst) = byteStores b := by simp [Blk.setEntry]
@[simp] theorem schedWrite_stores (b : Blk) (n v : Nat) : byteStores (b.schedWrite n v) = byteStores b := by
  simp [Blk.schedWrite]

@[simp] theorem placeSched_stores (b : Blk) (action arg inst : Nat) :
    byteStores (b.placeSched action arg inst).2 = byteStores b := by
  unfold Blk.placeSched
  split <;> simp

@[simp] theorem pullIssue_stores (b : Blk) : byteStores b.pullIssue = byteStores b := by simp [Blk.pullIssue]
@[simp] theorem perfClear_stores (b : Blk) (die : Nat) : byteStores (b.perfClear die) = byteStores b := by
  simp [Blk.perfClear]
@[simp] theorem armInject_stores (b : Blk) (die : Nat) : byteStores (b.armInject die) = byteStores b := by
  simp [Blk.armInject]
@[simp] theorem debugLock_stores (b : Blk) : byteStores b.debugLock = byteStores b := by simp [Blk.debugLock]

@[simp] theorem afterWrite_stores (b : Blk) (r : Reg) (old v : Nat) :
    byteStores (b.afterWrite r old v) = byteStores b := by
  unfold Blk.afterWrite
  split <;> simp

@[simp] theorem quorumReject_stores (b : Blk) (reason seq : Nat) :
    byteStores (b.quorumReject reason seq) = byteStores b := by simp [Blk.quorumReject]

@[simp] theorem writeReg_stores (b : Blk) (q : Bool) (r : Reg) (v : Nat) :
    byteStores (b.writeReg q r v).2 = byteStores b := by
  unfold Blk.writeReg
  (repeat' split) <;> simp

@[simp] theorem regWrite_stores (b : Blk) (q : Bool) (p : Sys2Proof.Path) (a bytes v : Nat) :
    byteStores (b.regWrite q p a bytes v).2 = byteStores b := by
  unfold Blk.regWrite
  (repeat' split) <;> simp

@[simp] theorem writeFx_stores (p : Sys2Proof.Path) (a bytes v : Nat) (b : Blk) :
    byteStores (writeFx p a bytes v b) = byteStores b := by simp [writeFx]
@[simp] theorem readFx_stores (p : Sys2Proof.Path) (a bytes : Nat) (b : Blk) :
    byteStores (readFx p a bytes b) = byteStores b := by simp [readFx]
@[simp] theorem writeAt_stores (p : Sys2Proof.Path) (r : Reg) (v : Nat) (b : Blk) :
    byteStores (writeAt p r v b) = byteStores b := by simp [writeAt]
@[simp] theorem mtcNowReadFx_stores (p : Sys2Proof.Path) (b : Blk) : byteStores (mtcNowReadFx p b) = byteStores b := by
  simp [mtcNowReadFx]
@[simp] theorem eventReadFx_stores (p : Sys2Proof.Path) (r w : Fin 4) (b : Blk) :
    byteStores (eventReadFx p r w b) = byteStores b := by simp [eventReadFx]
@[simp] theorem portEnableFx_stores (p : Sys2Proof.Path) (n : Port) (b : Blk) :
    byteStores (portEnableFx p n b) = byteStores b := by simp [portEnableFx]
@[simp] theorem portDisableFx_stores (p : Sys2Proof.Path) (n : Port) (b : Blk) :
    byteStores (portDisableFx p n b) = byteStores b := by simp [portDisableFx]
@[simp] theorem portRetrainFx_stores (p : Sys2Proof.Path) (n : Port) (b : Blk) :
    byteStores (portRetrainFx p n b) = byteStores b := by simp [portRetrainFx]
@[simp] theorem pullStartFx_stores (p : Sys2Proof.Path) (head : Nat) (b : Blk) :
    byteStores (pullStartFx p head b) = byteStores b := by simp [pullStartFx]
@[simp] theorem pullResumeFx_stores (p : Sys2Proof.Path) (b : Blk) : byteStores (pullResumeFx p b) = byteStores b := by
  simp [pullResumeFx]
@[simp] theorem flushFx_stores (p : Sys2Proof.Path) (cd : Nat) (b : Blk) :
    byteStores (flushFx p cd b) = byteStores b := by simp [flushFx]
@[simp] theorem shadowReadyFx_stores (p : Sys2Proof.Path) (ld : Nat) (b : Blk) :
    byteStores (shadowReadyFx p ld b) = byteStores b := by simp [shadowReadyFx]
@[simp] theorem relockFx_stores (p : Sys2Proof.Path) (b : Blk) : byteStores (relockFx p b) = byteStores b := by
  simp [relockFx]
@[simp] theorem perfClearFx_stores (p : Sys2Proof.Path) (die v : Nat) (b : Blk) :
    byteStores (perfClearFx p die v b) = byteStores b := by simp [perfClearFx]
@[simp] theorem perfSelFx_stores (p : Sys2Proof.Path) (die n v : Nat) (b : Blk) :
    byteStores (perfSelFx p die n v b) = byteStores b := by simp [perfSelFx]

/-! ### Machine/Matrix -/

@[simp] theorem fetchAt_stores (b : Blk) (die unit : Nat) (a : Arr) (ix : List Nat) :
    byteStores (b.fetchAt die unit a ix).2 = byteStores b := by
  unfold Blk.fetchAt
  (repeat' split) <;> simp

@[simp] theorem fetchElems_stores (b : Blk) (die unit : Nat) (a : Arr) (i0 n : Nat) :
    byteStores (b.fetchElems die unit a i0 n).2 = byteStores b := by simp [Blk.fetchElems]
@[simp] theorem fetchRuns_stores (b : Blk) (die unit : Nat) (a : Arr) (k n : Nat) :
    byteStores (b.fetchRuns die unit a k n).2 = byteStores b := by simp [Blk.fetchRuns]
@[simp] theorem readSpill_stores (b : Blk) (o : MOp) (lee int : Bool) (key : Nat) :
    byteStores (b.readSpill o lee int key).2 = byteStores b := fetchWords_stores ..

@[simp] theorem mopRun_stores (b : Blk) (k : Nat) (o : MOp) : byteStores (b.mopRun k o).2 = byteStores b := by
  unfold Blk.mopRun
  extract_lets lee int m n kk die unit res none_ src start fl0 bad pois0 c
  have hc : byteStores c = byteStores b := by
    simp only [c, src]
    split
    · split <;> simp
    · split
      · exact byteStores_congr rfl rfl
      · rfl
  clear_value c
  split
  · exact hc
  · rename_i ar br _ _ _ d _
    show byteStores d = _
    have hbr : byteStores br.2 = byteStores b := (fetchRuns_stores ..).trans ((fetchRuns_stores ..).trans hc)
    simp only [d]
    split
    · rw [consume_stores, hbr]
    · exact hbr

@[simp] theorem showMat_stores (b : Blk) (k : Nat) : byteStores (b.showMat k) = byteStores b := by simp [Blk.showMat]
@[simp] theorem setHeld_stores (b : Blk) (k set : Nat) (v : Bool) : byteStores (setHeld b k set v) = byteStores b := by
  simp [setHeld]
@[simp] theorem mopStart_stores (b : Blk) (k : Nat) (o : MOp) : byteStores (b.mopStart k o) = byteStores b := by
  simp [Blk.mopStart]
@[simp] theorem mopIdle_stores (b : Blk) (k : Nat) (o : MOp) : byteStores (b.mopIdle k o) = byteStores b := by
  simp [Blk.mopIdle]
@[simp] theorem mopFx_stores (i : Issue) (o : MOp) (b : Blk) : byteStores (mopFx i o b) = byteStores b := by simp [mopFx]
@[simp] theorem countMat_stores (b : Blk) (k : Nat) (j : MatJob) (slot : Nat × Nat) :
    byteStores (b.countMat k j slot) = byteStores b := by simp [Blk.countMat]
@[simp] theorem mbalFx_stores (i : Issue) (n : BitVec 17) (b : Blk) : byteStores (mbalFx i n b) = byteStores b := by
  simp [mbalFx]
@[simp] theorem collCx_flag_stores (c : CollCx) (fl : Nat) : byteStores (c.flag fl).b = byteStores c.b := by
  simp [CollCx.flag]

@[simp] theorem collCx_own_stores (c : CollCx) (ix e0 n : Nat) : byteStores (c.own ix e0 n).2.b = byteStores c.b := by
  unfold CollCx.own
  split <;> simp

@[simp] theorem collCx_sendPkt_stores (c : CollCx) (f : Machine.Flow) (type dev : Nat) (ws : List MWord) :
    byteStores (c.sendPkt f type dev ws).b = byteStores c.b := by
  unfold CollCx.sendPkt
  dsimp only
  (repeat' split) <;> simp

@[simp] theorem collCx_sendData_stores (fuel : Nat) (c : CollCx) (f : Machine.Flow) (w e0 : Nat) (codes : List Nat) :
    byteStores (CollCx.sendData fuel c f w e0 codes).b = byteStores c.b := by
  induction fuel generalizing c e0 codes with
  | zero => rfl
  | succ fuel ih =>
    unfold CollCx.sendData
    split
    · rfl
    · exact (ih ..).trans (collCx_sendPkt_stores ..)

@[simp] theorem collCx_send_stores (c : CollCx) (f : Machine.Flow) (w e0 : Nat) (codes : List Nat) :
    byteStores (c.send f w e0 codes).b = byteStores c.b := collCx_sendData_stores ..

@[simp] theorem collCx_signal_stores (c : CollCx) (f : Machine.Flow) : byteStores (c.signal f).b = byteStores c.b := by
  unfold CollCx.signal
  split <;> simp

@[simp] theorem collCx_sendOwn_stores (c : CollCx) (f : Machine.Flow) (st : CollStage) (half ch : Nat) :
    byteStores (c.sendOwn f st half ch).b = byteStores c.b := by
  unfold CollCx.sendOwn
  dsimp only
  (repeat' split) <;> simp

@[simp] theorem collCx_sendDst_stores (c : CollCx) (f : Machine.Flow) (rs : List (Nat × Nat)) (e0 n : Nat) :
    byteStores (c.sendDst f rs e0 n).b = byteStores c.b := by
  unfold CollCx.sendDst
  dsimp only
  (repeat' split) <;> simp

@[simp] theorem collCx_putResult_stores (c : CollCx) (st : CollStage) (half e0 : Nat) (vs : List Nat) :
    byteStores (c.putResult st half e0 vs).b = byteStores c.b := by simp [CollCx.putResult]
@[simp] theorem collCx_count_stores (c : CollCx) (k n : Nat) : byteStores (c.count k n).b = byteStores c.b := by
  simp [CollCx.count]

@[simp] theorem collCx_closeStage_stores (c : CollCx) (st : CollStage) :
    byteStores (c.closeStage st).b = byteStores c.b := by
  unfold CollCx.closeStage
  (repeat' split) <;> simp

@[simp] theorem collCx_signals_stores (c : CollCx) : byteStores c.signals.b = byteStores c.b := by
  refine foldl_keep _ (fun c : CollCx => byteStores c.b) _ _ fun c st _ => ?_
  refine foldl_keep _ (fun c : CollCx => byteStores c.b) _ _ fun c f _ => ?_
  split
  · split <;> simp
  · rfl

/-! ### Machine/Commit -/

@[simp] theorem clearVotes_stores (b : Blk) : byteStores b.clearVotes = byteStores b := by simp [Blk.clearVotes]
@[simp] theorem applyHeld_stores (b : Blk) : byteStores b.applyHeld = byteStores b := by simp [Blk.applyHeld]
@[simp] theorem monitors_stores (b : Blk) (t : Nat) (old new : ScaleEnt) :
    byteStores (b.monitors t old new) = byteStores b := by simp [Blk.monitors]
@[simp] theorem flipScale_stores (b : Blk) (out : Nat) : byteStores (b.flipScale out) = byteStores b := by
  simp [Blk.flipScale]

@[simp] theorem stopAtFlip_stores (b : Blk) (t : Nat) : byteStores (b.stopAtFlip t) = byteStores b := by
  unfold Blk.stopAtFlip
  split <;> simp

@[simp] theorem countDoubt_stores (b : Blk) : byteStores b.countDoubt = byteStores b := by
  unfold Blk.countDoubt
  dsimp only
  split <;> simp

@[simp] theorem sendVote_stores (b : Blk) (n hops payload : Nat) :
    byteStores (b.sendVote n hops payload) = byteStores b := by simp [Blk.sendVote]
@[simp] theorem openStage_stores (b : Blk) (s : Nat) : byteStores (b.openStage s) = byteStores b := by simp [Blk.openStage]
@[simp] theorem outcomeQueryFx_stores (p : Port) (step : BitVec 32) (att : BitVec 8) (b : Blk) :
    byteStores (outcomeQueryFx p step att b) = byteStores b := by simp [outcomeQueryFx]
@[simp] theorem outcomeAnswerFx_stores (p : Port) (step : BitVec 32) (att : BitVec 8) (a : BitVec 2) (b : Blk) :
    byteStores (outcomeAnswerFx p step att a b) = byteStores b := by simp [outcomeAnswerFx]
@[simp] theorem querySendFx_stores (b : Blk) : byteStores (querySendFx b) = byteStores b := by simp [querySendFx]
@[simp] theorem lineNoticeFx_stores (p : Port) (axis : Fin 4) (k : BitVec 5) (instant : BitVec 64) (b : Blk) :
    byteStores (lineNoticeFx p axis k instant b) = byteStores b := by simp [lineNoticeFx]
@[simp] theorem readReqFx_stores (pkt : RawPacket) (b : Blk) : byteStores (readReqFx pkt b) = byteStores b := by
  simp [readReqFx]
@[simp] theorem ctrlPacketFx_stores (pkt : RawPacket) (b : Blk) : byteStores (ctrlPacketFx pkt b) = byteStores b := by
  simp [ctrlPacketFx]

/-! ### Machine/Context -/

@[simp] theorem bindSlot_stores (b : Blk) (k slot c : Nat) : byteStores (b.bindSlot k slot c) = byteStores b := by
  simp [Blk.bindSlot]

@[simp] theorem openSeg_stores (b : Blk) (j : Job) (k n rel late : Nat) :
    byteStores (b.openSeg j k n rel late) = byteStores b := by
  unfold Blk.openSeg
  extract_lets c d
  have hd : byteStores d = byteStores b := by simp [d, c]
  clear_value d
  rw [← hd]
  split
  · simp
  · rename_i e _
    have he : byteStores e = byteStores d := by simp [e]
    clear_value e
    split
    · simp [he]
    · split
      · simp [he]
      · split
        · split <;> simp [he]
        · exact he

@[simp] theorem releaseInto_stores (b : Blk) (j : Job) (k n rel late : Nat) :
    byteStores (b.releaseInto j k n rel late) = byteStores b := by simp [Blk.releaseInto]
@[simp] theorem noteWait_stores (b : Blk) (k from_ stop cause : Nat) :
    byteStores (b.noteWait k from_ stop cause) = byteStores b := by simp [Blk.noteWait]

@[simp] theorem unhold_stores (b : Blk) (k cause : Nat) : byteStores (b.unhold k cause) = byteStores b := by
  unfold Blk.unhold
  split <;> simp

@[simp] theorem fillDoneFx_stores (c : CoreId) (poisoned : Bool) (b : Blk) :
    byteStores (fillDoneFx c poisoned b) = byteStores b := by
  unfold fillDoneFx
  dsimp only
  (repeat' split) <;> simp

@[simp] theorem anchorFx_stores (i : Issue) (b : Blk) : byteStores (anchorFx i b) = byteStores b := by
  refine issueCtl_stores _ _ _ _ fun k b => ?_
  extract_lets f c d wait
  have hc : byteStores c = byteStores b := by
    simp only [c]
    split <;> simp [f]
  split
  · split
    · simp [wait, hc]
    · simp [hc]
  · simp [wait, hc]

/-! ### Machine/Power -/

@[simp] theorem resetRegs_stores (b : Blk) (sel : Nat → Bool) (keep : RstClass → Bool) :
    byteStores (b.resetRegs sel keep) = byteStores b := by
  refine foldl_stores _ _ _ fun b a => ?_
  split
  · split <;> simp
  · rfl

@[simp] theorem guestAbort_stores (b : Blk) (t : GuestTxn) : byteStores (b.guestAbort t) = byteStores b := by
  simp [Blk.guestAbort]
@[simp] theorem guestReset_stores (b : Blk) : byteStores b.guestReset = byteStores b := by simp [Blk.guestReset]
@[simp] theorem showLimit_stores (b : Blk) : byteStores b.showLimit = byteStores b := by simp [Blk.showLimit]
@[simp] theorem applyLimit_stores (b : Blk) : byteStores b.applyLimit = byteStores b := by simp [Blk.applyLimit]
@[simp] theorem setSpread_stores (b : Blk) : byteStores b.setSpread = byteStores b := by simp [Blk.setSpread]
@[simp] theorem holdAttempt_stores (b : Blk) (j : Job) : byteStores (b.holdAttempt j) = byteStores b := by
  simp [Blk.holdAttempt]
@[simp] theorem powerCapped_stores (b : Blk) (n : Nat) : byteStores (b.powerCapped n) = byteStores b := by
  simp [Blk.powerCapped]

@[simp] theorem powerPlan_stores (b : Blk) (j : Job) : byteStores (b.powerPlan j) = byteStores b := by
  unfold Blk.powerPlan
  extract_lets c lim lvl bal fits d cut e th f
  have hd : byteStores d = byteStores b := by simp [d, c]
  have he : byteStores e = byteStores b := by
    simp only [e]
    split <;> simp [hd]
  have hf : byteStores f = byteStores b := by
    simp only [f]
    split <;> simp [he]
  split
  · simp [hd]
  · split <;> simp [he, hf]

@[simp] theorem thermalActs_stores (b : Blk) (j : Job) : byteStores (b.thermalActs j) = byteStores b := by
  simp [Blk.thermalActs]

@[simp] theorem powerCalibrationFx_stores (measured : Nat) (b : Blk) :
    byteStores (powerCalibrationFx measured b) = byteStores b := by
  unfold powerCalibrationFx
  split <;> simp

@[simp] theorem setClocks_stores (b : Blk) (mode : Nat) : byteStores (b.setClocks mode) = byteStores b := by
  simp [Blk.setClocks]
@[simp] theorem selfRefresh_stores (b : Blk) (v : Bool) : byteStores (b.selfRefresh v) = byteStores b := by
  simp [Blk.selfRefresh]
@[simp] theorem calmPorts_stores (b : Blk) (t : Nat) : byteStores (b.calmPorts t) = byteStores b := by simp [Blk.calmPorts]
@[simp] theorem uncalmPorts_stores (b : Blk) (t : Nat) : byteStores (b.uncalmPorts t) = byteStores b := by
  simp [Blk.uncalmPorts]
@[simp] theorem setVolts_stores (b : Blk) (m : Nat) : byteStores (b.setVolts m) = byteStores b := by simp [Blk.setVolts]
@[simp] theorem setMode_stores (b : Blk) (m : Nat) : byteStores (b.setMode m) = byteStores b := by simp [Blk.setMode]
@[simp] theorem modeRefused_stores (b : Blk) (target : Nat) : byteStores (b.modeRefused target) = byteStores b := by
  simp [Blk.modeRefused]
@[simp] theorem startMode_stores (b : Blk) (m t : Nat) : byteStores (b.startMode m t) = byteStores b := by
  simp [Blk.startMode]

@[simp] theorem modeAction_stores (b : Blk) (m t : Nat) : byteStores (b.modeAction m t) = byteStores b := by
  unfold Blk.modeAction
  dsimp only
  (repeat' split) <;> simp

@[simp] theorem endTrip_stores (b : Blk) : byteStores b.endTrip = byteStores b := by simp [Blk.endTrip]
@[simp] theorem jobOver_stores (b : Blk) : byteStores b.jobOver = byteStores b := by simp [Blk.jobOver]

@[simp] theorem tripSettleFx_stores (b : Blk) : byteStores (tripSettleFx b) = byteStores b := by
  unfold tripSettleFx
  split <;> simp

@[simp] theorem thermalLevel_stores (b : Blk) (level : Nat) (hot inlet : Int) (flow detail : Nat) :
    byteStores (b.thermalLevel level hot inlet flow detail) = byteStores b := by simp [Blk.thermalLevel]
@[simp] theorem pairCheck_stores (b : Blk) (q : SensorPair) : byteStores (b.pairCheck q) = byteStores b := by
  simp [Blk.pairCheck]
@[simp] theorem pairRead_stores (b : Blk) (q : SensorPair) : byteStores (b.pairRead q).2 = byteStores b := by
  simp [Blk.pairRead]
@[simp] theorem avsFx_stores (die : Fin 19) (margin guard_ : Int) (b : Blk) :
    byteStores (avsFx die margin guard_ b) = byteStores b := by simp [avsFx]
@[simp] theorem regulatorPollFx_stores (rail : Fin 40) (vout iout : Nat) (temp : Int) (b : Blk) :
    byteStores (regulatorPollFx rail vout iout temp b) = byteStores b := by simp [regulatorPollFx]

/-! ### Machine/Ras -/

@[simp] theorem exhausted_stores (b : Blk) (die unit row : Nat) :
    byteStores (b.exhausted die unit row) = byteStores b := by simp [Blk.exhausted]
@[simp] theorem updFence_stores (b : Blk) (cd s : Nat) (f : Fence → Fence) :
    byteStores (b.updFence cd s f) = byteStores b := by simp [Blk.updFence]
@[simp] theorem endFence_stores (b : Blk) (cd s : Nat) : byteStores (b.endFence cd s) = byteStores b := by
  simp [Blk.endFence]
@[simp] theorem coreFenced_stores (b : Blk) (f : Fence) (old spare : Nat) :
    byteStores (b.coreFenced f old spare) = byteStores b := by simp [Blk.coreFenced]

@[simp] theorem startCopy_stores (b : Blk) (f : Fence) : byteStores (b.startCopy f) = byteStores b := by
  unfold Blk.startCopy
  dsimp only
  (repeat' split) <;> simp

@[simp] theorem endTest_stores (b : Blk) (cd s : Nat) : byteStores (b.endTest cd s) = byteStores b := by
  unfold Blk.endTest
  split <;> simp

@[simp] theorem startFence_stores (b : Blk) (cd s : Nat) (ordered : Bool) :
    byteStores (b.startFence cd s ordered) = byteStores b := by simp [Blk.startFence]
@[simp] theorem retryFences_stores (b : Blk) : byteStores b.retryFences = byteStores b := by simp [Blk.retryFences]
@[simp] theorem remap_stores (b : Blk) (f : Fence) : byteStores (b.remap f) = byteStores b := by simp [Blk.remap]
@[simp] theorem remapAll_stores (b : Blk) : byteStores b.remapAll = byteStores b := by simp [Blk.remapAll]
@[simp] theorem ctlFail_stores (b : Blk) (inj : Bool) (die core : Nat) :
    byteStores (b.ctlFail inj die core) = byteStores b := by simp [Blk.ctlFail]
@[simp] theorem ctlWatchdogFx_stores (die : Fin 13) (core : Fin 9) (b : Blk) :
    byteStores (ctlWatchdogFx die core b) = byteStores b := by simp [ctlWatchdogFx]
@[simp] theorem phaseFailFx_stores (rail : Fin 40) (shareW : BitVec 16) (b : Blk) :
    byteStores (phaseFailFx rail shareW b) = byteStores b := by simp [phaseFailFx]

@[simp] theorem testStartFx_stores (die : Fin 20) (b : Blk) : byteStores (testStartFx die b) = byteStores b := by
  unfold testStartFx
  dsimp only
  (repeat' split) <;> simp

@[simp] theorem spareRow_stores (b : Blk) (u : StUnit) : byteStores (b.spareRow u) = byteStores b := by simp [Blk.spareRow]
@[simp] theorem switchLane_stores (b : Blk) (x : LaneSwap) : byteStores (b.switchLane x) = byteStores b := by
  simp [Blk.switchLane]
@[simp] theorem spareLane_stores (b : Blk) (u : StUnit) : byteStores (b.spareLane u) = byteStores b := by
  simp [Blk.spareLane]

@[simp] theorem repair_stores (b : Blk) (u : StUnit) : byteStores (b.repair u) = byteStores b := by
  unfold Blk.repair
  dsimp only
  (repeat' split) <;> simp

@[simp] theorem testDoneFx_stores (die : Fin 20) (passed : Bool) (b : Blk) :
    byteStores (testDoneFx die passed b) = byteStores b := by
  unfold testDoneFx
  extract_lets q
  split
  · rfl
  · extract_lets u c d v e f n core g h
    have hd : byteStores d = byteStores b := by
      simp only [d]
      split
      · rw [wr_stores, updRas_stores]
      · rw [updRas_stores]
    clear_value d
    have hf : byteStores f = byteStores b := by
      simp only [f]
      split
      · rw [updRas_stores, setReg_stores, hd]
      · rw [setReg_stores, hd]
    clear_value f
    have hh : byteStores h = byteStores b := by
      simp only [h, g]
      split
      · rw [raise_stores, wr_stores, hf]
      · rw [raise_stores, hf]
    clear_value h
    split
    · split
      · rw [wr_stores, hh]
      · split
        · rw [updRas_stores, hh]
        · exact hh
    · rw [repair_stores, hh]

@[simp] theorem endMaintenance_stores (b : Blk) : byteStores b.endMaintenance = byteStores b := by simp [Blk.endMaintenance]

@[simp] theorem maintExpiryFx_stores (b : Blk) : byteStores (maintExpiryFx b) = byteStores b := by
  unfold maintExpiryFx
  split <;> simp

/-! ### Machine/Anchor -/

@[simp] theorem dropOrphans_stores (b : Blk) : byteStores b.dropOrphans = byteStores b := by simp [Blk.dropOrphans]

@[simp] theorem takeDue_stores (action : Nat) (f : Nat → Nat → Nat → Blk → Blk) (b : Blk)
    (h : ∀ n arg inst b, byteStores (f n arg inst b) = byteStores b) : byteStores (takeDue action f b) = byteStores b := by
  unfold takeDue
  dsimp only
  split
  · simp
  · split <;> simp [h]

@[simp] theorem epochSwitchFx_stores (b : Blk) : byteStores (epochSwitchFx b) = byteStores b := by simp [epochSwitchFx]
@[simp] theorem modeChangeFx_stores (b : Blk) : byteStores (modeChangeFx b) = byteStores b := by simp [modeChangeFx]

@[simp] theorem placeImage_stores (b : Blk) : byteStores b.placeImage = byteStores b := by
  unfold Blk.placeImage
  split <;> simp

@[simp] theorem passTime_stores (b : Blk) : byteStores b.passTime = byteStores b := by simp [Blk.passTime]
@[simp] theorem windowOpenFx_stores (b : Blk) : byteStores (windowOpenFx b) = byteStores b := by simp [windowOpenFx]
@[simp] theorem windowShutFx_stores (b : Blk) : byteStores (windowShutFx b) = byteStores b := by simp [windowShutFx]
@[simp] theorem startCal_stores (b : Blk) (j : Job) (n : Nat) : byteStores (b.startCal j n) = byteStores b := by
  simp [Blk.startCal]
@[simp] theorem idleCalStart_stores (b : Blk) : byteStores b.idleCalStart = byteStores b := by simp [Blk.idleCalStart]
@[simp] theorem gradNorm_stores (b : Blk) : byteStores b.gradNorm = byteStores b := by simp [Blk.gradNorm]

@[simp] theorem applyVariant_stores (b : Blk) (x k : Nat) : byteStores (b.applyVariant x k) = byteStores b := by
  unfold Blk.applyVariant
  dsimp only
  (repeat' split) <;> simp

@[simp] theorem keepVariants_stores (b : Blk) : byteStores b.keepVariants = byteStores b := by
  refine foldl_stores _ _ _ fun b x => ?_
  split <;> simp

@[simp] theorem applyNotes_stores (b : Blk) (start : Nat) : byteStores (b.applyNotes start) = byteStores b := by
  simp [Blk.applyNotes]
@[simp] theorem countWait_stores (b : Blk) (k n rel : Nat) : byteStores (b.countWait k n rel) = byteStores b := by
  simp [Blk.countWait]
@[simp] theorem releaseCore_stores (b : Blk) (j : Job) (k n next rel : Nat) :
    byteStores (b.releaseCore j k n next rel) = byteStores b := by simp [Blk.releaseCore]

@[simp] theorem countDeadlines_stores (b : Blk) : byteStores b.countDeadlines = byteStores b := by
  refine foldl_stores _ _ _ fun b l => ?_
  split <;> simp

@[simp] theorem flushNc_stores (b : Blk) : byteStores b.flushNc = byteStores b := by simp [Blk.flushNc]
@[simp] theorem addDrain_stores (b : Blk) (kind unit why : Nat) :
    byteStores (b.addDrain kind unit why) = byteStores b := by simp [Blk.addDrain]
@[simp] theorem drainJob_stores (b : Blk) (why : Nat) : byteStores (b.drainJob why) = byteStores b := by simp [Blk.drainJob]
@[simp] theorem endDefer_stores (b : Blk) : byteStores b.endDefer = byteStores b := by simp [Blk.endDefer]
@[simp] theorem drainExitFx_stores (b : Blk) : byteStores (drainExitFx b) = byteStores b := by simp [drainExitFx]

/-! ### Machine/Discovery -/

@[simp] theorem mismatch_stores (b : Blk) (p : Nat) : byteStores (b.mismatch p) = byteStores b := by simp [Blk.mismatch]
@[simp] theorem shut_stores (b : Blk) (p outcome : Nat) (hold : Bool) :
    byteStores (b.shut p outcome hold) = byteStores b := by simp [Blk.shut]
@[simp] theorem signature_stores (b : Blk) (m : List Byte) : byteStores (b.signature m).2 = byteStores b := by
  simp [Blk.signature]
@[simp] theorem responseWords_stores (b : Blk) (p nonce : Nat) :
    byteStores (b.responseWords p nonce).2 = byteStores b := by simp [Blk.responseWords]
@[simp] theorem challenge_stores (b : Blk) (p tries startAt : Nat) :
    byteStores (b.challenge p tries startAt) = byteStores b := by simp [Blk.challenge]

@[simp] theorem coverFailed_stores (b : Blk) (s : Nat) : byteStores (b.coverFailed s) = byteStores b := by
  unfold Blk.coverFailed
  dsimp only
  (repeat' split) <;> simp

@[simp] theorem takeIn_stores (b : Blk) (p : Nat) (k : HelloKey) : byteStores (b.takeIn p k) = byteStores b := by
  unfold Blk.takeIn
  split
  · simp
  · extract_lets st c d e g h was i j
    have he : byteStores e = byteStores b := by
      simp only [e]
      split
      · simp [d, c]
      · split <;> simp [d, c]
    have hj : byteStores j = byteStores b := by
      simp only [j]
      split <;> simp [i, h, he]
    simp [hj]

@[simp] theorem remapPort_stores (b : Blk) (n p : Nat) : byteStores (b.remapPort n p) = byteStores b := by
  simp [Blk.remapPort]
@[simp] theorem permutedEvent_stores (b : Blk) (p : Nat) : byteStores (b.permutedEvent p) = byteStores b := by
  simp [Blk.permutedEvent]
@[simp] theorem trySwap_stores (b : Blk) (p : Nat) : byteStores (b.trySwap p) = byteStores b := by simp [Blk.trySwap]

@[simp] theorem wrongPort_stores (b : Blk) (p : Nat) : byteStores (b.wrongPort p).1 = byteStores b := by
  unfold Blk.wrongPort
  dsimp only
  (repeat' split) <;> simp

@[simp] theorem decidePort_stores (b : Blk) (p : Nat) (k : HelloKey) : byteStores (b.decidePort p k) = byteStores b := by
  simp [Blk.decidePort]

@[simp] theorem evaluate_stores (b : Blk) (p : Nat) : byteStores (b.evaluate p) = byteStores b := by
  unfold Blk.evaluate
  split <;> simp

@[simp] theorem helloFx_stores (p : Port) (w : HelloWord) (b : Blk) : byteStores (helloFx p w b) = byteStores b := by
  simp [helloFx]
@[simp] theorem authChallengeFx_stores (p : Port) (_lport : BitVec 4) (nonce : BitVec 256) (b : Blk) :
    byteStores (authChallengeFx p _lport nonce b) = byteStores b := by simp [authChallengeFx]
@[simp] theorem authFail_stores (b : Blk) (p : Nat) : byteStores (b.authFail p) = byteStores b := by simp [Blk.authFail]
@[simp] theorem authResponseFx_stores (p : Port) (echo : BitVec 256) (key : List Byte) (sigValid : Bool) (b : Blk) :
    byteStores (authResponseFx p echo key sigValid b) = byteStores b := by simp [authResponseFx]
@[simp] theorem authRetryFx_stores (p : Port) (b : Blk) : byteStores (authRetryFx p b) = byteStores b := by
  simp [authRetryFx]
@[simp] theorem authTimeoutFx_stores (p : Port) (b : Blk) : byteStores (authTimeoutFx p b) = byteStores b := by
  simp [authTimeoutFx]
@[simp] theorem enterDiscover_stores (b : Blk) : byteStores b.enterDiscover = byteStores b := by simp [Blk.enterDiscover]

@[simp] theorem discoveryTimeoutFx_stores (b : Blk) : byteStores (discoveryTimeoutFx b) = byteStores b := by
  unfold discoveryTimeoutFx
  split
  · rfl
  · refine foldl_stores _ _ _ fun b p => ?_
    dsimp only
    split
    · rfl
    · split
      · split <;> simp
      · simp

@[simp] theorem rootAtSync_stores (b : Blk) : byteStores b.rootAtSync = byteStores b := by simp [Blk.rootAtSync]
@[simp] theorem discoverExitFx_stores (b : Blk) : byteStores (discoverExitFx b) = byteStores b := by simp [discoverExitFx]

/-! ### Machine/Events -/

@[simp] theorem signedBody_stores (b : Blk) (h : SegHead) (body : List Byte) :
    byteStores (b.signedBody h body).2 = byteStores b := by simp [Blk.signedBody]
@[simp] theorem sendBack_stores (b : Blk) (coord mtype requestId status : Nat) (body : List Byte) :
    byteStores (b.sendBack coord mtype requestId status body) = byteStores b := by simp [Blk.sendBack]

@[simp] theorem dispatchMsg_stores (b : Blk) (dst mtype requestId status : Nat) (body : List Byte) :
    byteStores (b.dispatchMsg dst mtype requestId status body) = byteStores b := by
  unfold Blk.dispatchMsg
  split <;> simp

@[simp] theorem send_stores (b : Blk) (dst mtype requestId status : Nat) (body : List Byte) :
    byteStores (b.send dst mtype requestId status body) = byteStores b := by simp [Blk.send]
@[simp] theorem sendFaultMgrs_stores (b : Blk) (mtype : Nat) (body : List Byte) :
    byteStores (b.sendFaultMgrs mtype body) = byteStores b := by simp [Blk.sendFaultMgrs]
@[simp] theorem keepRec_stores (b : Blk) (x : EvRec) : byteStores (b.keepRec x) = byteStores b := by simp [Blk.keepRec]

@[simp] theorem keepHeld_stores (b : Blk) (n : Nat) : byteStores (b.keepHeld n) = byteStores b := by
  induction n generalizing b with
  | zero => rfl
  | succ n ih =>
    unfold Blk.keepHeld
    split <;> simp [ih]

@[simp] theorem eventCommitFx_stores (b : Blk) : byteStores (eventCommitFx b) = byteStores b := by
  unfold eventCommitFx
  split <;> simp

@[simp] theorem coalesceFlushFx_stores (b : Blk) : byteStores (coalesceFlushFx b) = byteStores b := by
  unfold coalesceFlushFx
  split <;> simp

@[simp] theorem statusFx_stores (b : Blk) : byteStores (statusFx b) = byteStores b := by simp [statusFx]

/-! ### Machine/Boot -/

@[simp] theorem appendLog_stores (b : Blk) (kind d : Nat) : byteStores (b.appendLog kind d) = byteStores b := by
  simp [Blk.appendLog]
@[simp] theorem fwFail_stores (b : Blk) (result : Nat) : byteStores (b.fwFail result) = byteStores b := by simp [Blk.fwFail]
@[simp] theorem takeFirmware_stores (b : Blk) (key : Nat) : byteStores (b.takeFirmware key) = byteStores b := by
  simp [Blk.takeFirmware]
@[simp] theorem identity_stores (b : Blk) (x : BootInput) : byteStores (b.identity x) = byteStores b := by
  simp [Blk.identity]
@[simp] theorem planFail_stores (b : Blk) (c : Nat) : byteStores (b.planFail c) = byteStores b := by simp [Blk.planFail]
@[simp] theorem loadPlan_stores (b : Blk) : byteStores b.loadPlan = byteStores b := by simp [Blk.loadPlan]
@[simp] theorem modeDefaults_stores (b : Blk) : byteStores b.modeDefaults = byteStores b := by simp [Blk.modeDefaults]
@[simp] theorem warmEvent_stores (b : Blk) : byteStores b.warmEvent = byteStores b := by simp [Blk.warmEvent]
@[simp] theorem postFx_stores (hubFails : Bool) (b : Blk) : byteStores (postFx hubFails b) = byteStores b := by
  simp [postFx]

@[simp] theorem lostChannel_stores (b : Blk) (c : Nat) : byteStores (b.lostChannel c) = byteStores b := by
  unfold Blk.lostChannel
  dsimp only
  (repeat' split) <;> simp

@[simp] theorem trainFx_stores (failed : List (Fin 136)) (b : Blk) : byteStores (trainFx failed b) = byteStores b := by
  simp [trainFx]
@[simp] theorem restartRing_stores (b : Blk) : byteStores b.restartRing = byteStores b := by simp [Blk.restartRing]
@[simp] theorem powerGoodFx_stores (b : Blk) : byteStores (powerGoodFx b) = byteStores b := by simp [powerGoodFx]
@[simp] theorem abortTests_stores (b : Blk) : byteStores b.abortTests = byteStores b := by simp [Blk.abortTests]
@[simp] theorem warmReleaseFx_stores (b : Blk) : byteStores (warmReleaseFx b) = byteStores b := by simp [warmReleaseFx]

/-! ### Machine/Vector -/

@[simp] theorem vecFlag_stores (b : Blk) (k fl : Nat) : byteStores (b.vecFlag k fl) = byteStores b := by simp [Blk.vecFlag]
@[simp] theorem nanLanes_stores (b : Blk) (k : Nat) (ids : List Nat) : byteStores (b.nanLanes k ids) = byteStores b := by
  simp [Blk.nanLanes]

@[simp] theorem vecIssue_stores (i : Issue) (wf : Bool) (occ : Nat) (effect : Nat → Blk → Blk) (b : Blk)
    (h : ∀ k b, byteStores (effect k b) = byteStores b) : byteStores (vecIssue i wf occ effect b) = byteStores b := by
  simp [vecIssue, issue_stores, h]

@[simp] theorem lanewise_stores (o : VOp) (wide : Bool) (nan : Nat → Bool) (res : Ctx → Nat → LaneRes) (k : Nat) (b : Blk) :
    byteStores (lanewise o wide nan res k b) = byteStores b := by simp [lanewise]
@[simp] theorem vfpFx_stores (i : Issue) (o : VOp) (b : Blk) : byteStores (vfpFx i o b) = byteStores b := by simp [vfpFx]
@[simp] theorem vfpdFx_stores (i : Issue) (o : VOp) (b : Blk) : byteStores (vfpdFx i o b) = byteStores b := by simp [vfpdFx]
@[simp] theorem vintFx_stores (i : Issue) (o : VOp) (b : Blk) : byteStores (vintFx i o b) = byteStores b := by simp [vintFx]
@[simp] theorem vfnFx_stores (i : Issue) (o : VOp) (b : Blk) : byteStores (vfnFx i o b) = byteStores b := by simp [vfnFx]
@[simp] theorem vcvtFx_stores (i : Issue) (o : VOp) (b : Blk) : byteStores (vcvtFx i o b) = byteStores b := by simp [vcvtFx]
@[simp] theorem writeMaskReg_stores (b : Blk) (k : Nat) (o : VOp) (f p : Ctx → Nat → Bool) :
    byteStores (b.writeMaskReg k o f p) = byteStores b := by simp [Blk.writeMaskReg]
@[simp] theorem vcmpFx_stores (i : Issue) (o : VOp) (b : Blk) : byteStores (vcmpFx i o b) = byteStores b := by simp [vcmpFx]
@[simp] theorem kopFx_stores (i : Issue) (o : VOp) (b : Blk) : byteStores (kopFx i o b) = byteStores b := by simp [kopFx]
@[simp] theorem vselFx_stores (o : VOp) (k : Nat) (b : Blk) : byteStores (vselFx o k b) = byteStores b := by simp [vselFx]
@[simp] theorem vcompressFx_stores (o : VOp) (k : Nat) (b : Blk) : byteStores (vcompressFx o k b) = byteStores b := by
  simp [vcompressFx]
@[simp] theorem vexpandFx_stores (o : VOp) (k : Nat) (b : Blk) : byteStores (vexpandFx o k b) = byteStores b := by
  simp [vexpandFx]
@[simp] theorem vtwosumFx_stores (o : VOp) (k : Nat) (b : Blk) : byteStores (vtwosumFx o k b) = byteStores b := by
  simp [vtwosumFx]

@[simp] theorem vmoveFx_stores (i : Issue) (o : VOp) (b : Blk) : byteStores (vmoveFx i o b) = byteStores b := by
  unfold vmoveFx
  (repeat' split) <;> simp

@[simp] theorem vredFx_stores (i : Issue) (o : VOp) (b : Blk) : byteStores (vredFx i o b) = byteStores b := by simp [vredFx]

@[simp] theorem vload_stores (b : Blk) (k : Nat) (o : VOp) : byteStores (b.vload k o) = byteStores b := by
  unfold Blk.vload
  split <;> simp

@[simp] theorem vldFx_stores (i : Issue) (o : VOp) (b : Blk) : byteStores (vldFx i o b) = byteStores b := by simp [vldFx]
@[simp] theorem vrandFx_stores (i : Issue) (o : VOp) (b : Blk) : byteStores (vrandFx i o b) = byteStores b := by
  simp [vrandFx]
@[simp] theorem vclrfFx_stores (i : Issue) (b : Blk) : byteStores (vclrfFx i b) = byteStores b := by simp [vclrfFx]
@[simp] theorem setvlFx_stores (i : Issue) (o : VOp) (b : Blk) : byteStores (setvlFx i o b) = byteStores b := by
  simp [setvlFx]

/-! ### Machine/Scalar -/

@[simp] theorem scalarFx_stores (i : Issue) (o : SOp) (f : Quad → Quad → Quad) (b : Blk) :
    byteStores (scalarFx i o f b) = byteStores b := by simp [scalarFx]
@[simp] theorem sliFx_stores (i : Issue) (o : SOp) (b : Blk) : byteStores (sliFx i o b) = byteStores b := by simp [sliFx]
@[simp] theorem saddFx_stores (i : Issue) (o : SOp) (b : Blk) : byteStores (saddFx i o b) = byteStores b := by simp [saddFx]
@[simp] theorem ssubFx_stores (i : Issue) (o : SOp) (b : Blk) : byteStores (ssubFx i o b) = byteStores b := by simp [ssubFx]
@[simp] theorem smulFx_stores (i : Issue) (o : SOp) (b : Blk) : byteStores (smulFx i o b) = byteStores b := by simp [smulFx]
@[simp] theorem sandFx_stores (i : Issue) (o : SOp) (b : Blk) : byteStores (sandFx i o b) = byteStores b := by simp [sandFx]
@[simp] theorem sorFx_stores (i : Issue) (o : SOp) (b : Blk) : byteStores (sorFx i o b) = byteStores b := by simp [sorFx]
@[simp] theorem sxorFx_stores (i : Issue) (o : SOp) (b : Blk) : byteStores (sxorFx i o b) = byteStores b := by simp [sxorFx]
@[simp] theorem sshlFx_stores (i : Issue) (o : SOp) (b : Blk) : byteStores (sshlFx i o b) = byteStores b := by simp [sshlFx]
@[simp] theorem sshrFx_stores (i : Issue) (o : SOp) (b : Blk) : byteStores (sshrFx i o b) = byteStores b := by simp [sshrFx]
@[simp] theorem ssraFx_stores (i : Issue) (o : SOp) (b : Blk) : byteStores (ssraFx i o b) = byteStores b := by simp [ssraFx]
@[simp] theorem sminFx_stores (i : Issue) (o : SOp) (b : Blk) : byteStores (sminFx i o b) = byteStores b := by simp [sminFx]
@[simp] theorem smaxFx_stores (i : Issue) (o : SOp) (b : Blk) : byteStores (smaxFx i o b) = byteStores b := by simp [smaxFx]
@[simp] theorem scmpFx_stores (i : Issue) (o : POp) (b : Blk) : byteStores (scmpFx i o b) = byteStores b := by simp [scmpFx]
@[simp] theorem plogFx_stores (i : Issue) (o : POp) (b : Blk) : byteStores (plogFx i o b) = byteStores b := by simp [plogFx]

/-! ### Machine/Command -/

@[simp] theorem mgmtReject_stores (b : Blk) (mtype auth requestId status : Nat) (body : List Byte) :
    byteStores (b.mgmtReject mtype auth requestId status body) = byteStores b := by simp [Blk.mgmtReject]
@[simp] theorem mgmtReply_stores (b : Blk) (auth requestId status : Nat) (body : List Byte) :
    byteStores (b.mgmtReply auth requestId status body) = byteStores b := by simp [Blk.mgmtReply]

@[simp] theorem authRequest_stores (mtype : Nat) (inRecovery : Bool) (r : MgmtReq) (f : Blk → Blk) (b : Blk)
    (h : ∀ b, byteStores (f b) = byteStores b) : byteStores (authRequest mtype inRecovery r f b) = byteStores b := by
  simp [authRequest, h]

@[simp] theorem placeCmd_stores (b : Blk) (ctype seq : Nat) (p : List Byte) (auth reqId : Nat) :
    byteStores (b.placeCmd ctype seq p auth reqId) = byteStores b := by
  unfold Blk.placeCmd
  dsimp only
  (repeat' split) <;> simp

@[simp] theorem commandFx_stores (r : MgmtReq) (e : Envelope) (b : Blk) :
    byteStores (commandFx r e b) = byteStores b := by
  unfold commandFx
  dsimp only
  (repeat' split) <;> simp

@[simp] theorem takeCmd_stores (sel : Placed → Bool) (f : Placed → Blk → Blk) (b : Blk)
    (h : ∀ c b, byteStores (f c b) = byteStores b) : byteStores (takeCmd sel f b) = byteStores b := by
  unfold takeCmd
  dsimp only
  split
  · simp
  · split <;> simp [h]

@[simp] theorem refuse_stores (b : Blk) (code : Nat) : byteStores (b.refuse code) = byteStores b := by simp [Blk.refuse]

/-! ### Machine/Arm -/

@[simp] theorem armRefuse_stores (b : Blk) (code : Nat) : byteStores (b.armRefuse code) = byteStores b := by
  simp [Blk.armRefuse]
@[simp] theorem loadScale_stores (b : Blk) (r : Restored) : byteStores (b.loadScale r) = byteStores b := by
  simp [Blk.loadScale]
@[simp] theorem dropDebug_stores (b : Blk) : byteStores b.dropDebug = byteStores b := by simp [Blk.dropDebug]

@[simp] theorem stopFx_stores (b : Blk) : byteStores (stopFx b) = byteStores b := by
  refine takeCmd_stores _ _ _ fun c b => ?_
  extract_lets st wait
  have hwait (b : Blk) : byteStores (wait b) = byteStores b := by simp [wait]
  split
  · split <;> simp [hwait]
  · simp [hwait]

/-! ### Machine/Host -/

@[simp] theorem setCxlLink_stores (b : Blk) (up : Bool) (speed width : Nat) :
    byteStores (b.setCxlLink up speed width) = byteStores b := by simp [Blk.setCxlLink]
@[simp] theorem cxlLinkFx_stores (up : Bool) (speed : BitVec 2) (width : BitVec 4) (b : Blk) :
    byteStores (cxlLinkFx up speed width b) = byteStores b := by simp [cxlLinkFx]
@[simp] theorem hdmCommitFx_stores (base : BitVec 64) (b : Blk) : byteStores (hdmCommitFx base b) = byteStores b := by
  simp [hdmCommitFx]

@[simp] theorem hostRequestFx_stores (r : HostReq) (b : Blk) : byteStores (hostRequestFx r b) = byteStores b := by
  unfold hostRequestFx
  (repeat' split) <;> simp

@[simp] theorem mailbox_stores (b : Blk) (code : Nat) (body : List Byte) :
    byteStores (b.mailbox code body) = byteStores b := by simp [Blk.mailbox]
@[simp] theorem mailboxFx_stores (b : Blk) : byteStores (mailboxFx b) = byteStores b := by simp [mailboxFx]
@[simp] theorem mailboxNoFx_stores (b : Blk) : byteStores (mailboxNoFx b) = byteStores b := by simp [mailboxNoFx]
@[simp] theorem getLogFx_stores (uuid : BitVec 128) (b : Blk) : byteStores (getLogFx uuid b) = byteStores b := by
  simp [getLogFx]
@[simp] theorem doeFx_stores (index : BitVec 16) (b : Blk) : byteStores (doeFx index b) = byteStores b := by simp [doeFx]
@[simp] theorem perstOffFx_stores (b : Blk) : byteStores (perstOffFx b) = byteStores b := by simp [perstOffFx]
@[simp] theorem msixFx_stores (v : Fin 16) (b : Blk) : byteStores (msixFx v b) = byteStores b := by simp [msixFx]

/-! ### Machine/Security -/

@[simp] theorem attestFx_stores (r : MgmtReq) (nonce : BitVec 256) (b : Blk) :
    byteStores (attestFx r nonce b) = byteStores b := by simp [attestFx]
@[simp] theorem isolate_stores (b : Blk) : byteStores b.isolate = byteStores b := by simp [Blk.isolate]
@[simp] theorem guestDeny_stores (b : Blk) (inj : Bool) (t : GuestTxn) :
    byteStores (b.guestDeny inj t) = byteStores b := by simp [Blk.guestDeny]
@[simp] theorem takeTokens_stores (b : Blk) (n words : Nat) : byteStores (b.takeTokens n words) = byteStores b := by
  simp [Blk.takeTokens]

@[simp] theorem freeWords_stores (b : Blk) (n : Nat) : byteStores (b.freeWords n).2 = byteStores b := by
  induction n generalizing b with
  | zero => rfl
  | succ n ih => exact (ih _).trans (fresh_stores b)

@[simp] theorem debugSubmit_stores (b : Blk) (c : DebugCert) : byteStores (b.debugSubmit c) = byteStores b := by
  simp [Blk.debugSubmit]
@[simp] theorem debugSubmitFx_stores (c : DebugCert) (b : Blk) : byteStores (debugSubmitFx c b) = byteStores b := by
  simp [debugSubmitFx]
@[simp] theorem debugQuorumFx_stores (newNonce : BitVec 64) (b : Blk) :
    byteStores (debugQuorumFx newNonce b) = byteStores b := by simp [debugQuorumFx]
@[simp] theorem debugExpiryFx_stores (b : Blk) : byteStores (debugExpiryFx b) = byteStores b := by simp [debugExpiryFx]
@[simp] theorem tapFx_stores (ir : BitVec 8) (b : Blk) : byteStores (tapFx ir b) = byteStores b := by simp [tapFx]

/-! ### Machine/Drain -/

@[simp] theorem fencePortEnd_stores (b : Blk) (p : Nat) : byteStores (b.fencePortEnd p) = byteStores b := by
  simp [Blk.fencePortEnd]

@[simp] theorem drainEnd_stores (b : Blk) (d : Drain) : byteStores (b.drainEnd d) = byteStores b := by
  unfold Blk.drainEnd
  dsimp only
  (repeat' split) <;> simp

@[simp] theorem expelOver_stores (b : Blk) : byteStores b.expelOver = byteStores b := by simp [Blk.expelOver]
@[simp] theorem drainDone_stores (b : Blk) (kind u : Nat) : byteStores (b.drainDone kind u) = byteStores b := by
  simp [Blk.drainDone]
@[simp] theorem drainCompleteFx_stores (kind : BitVec 4) (unit : BitVec 9) (b : Blk) :
    byteStores (drainCompleteFx kind unit b) = byteStores b := by simp [drainCompleteFx]

@[simp] theorem fenceCmd_stores (sel : Nat → Bool) (f : Nat → Blk → Blk) (b : Blk)
    (h : ∀ w b, byteStores (f w b) = byteStores b) : byteStores (fenceCmd sel f b) = byteStores b := by
  simp [fenceCmd, takeCmd_stores, h]

@[simp] theorem unfence_stores (b : Blk) (kind u : Nat) : byteStores (b.unfence kind u) = byteStores b := by
  simp [Blk.unfence]
@[simp] theorem fenceCoreFx_stores (b : Blk) : byteStores (fenceCoreFx b) = byteStores b := by simp [fenceCoreFx]
@[simp] theorem fenceGatherFx_stores (b : Blk) : byteStores (fenceGatherFx b) = byteStores b := by simp [fenceGatherFx]
@[simp] theorem fencePortFx_stores (b : Blk) : byteStores (fencePortFx b) = byteStores b := by simp [fencePortFx]
@[simp] theorem fenceCollFx_stores (b : Blk) : byteStores (fenceCollFx b) = byteStores b := by simp [fenceCollFx]
@[simp] theorem fenceGuestFx_stores (b : Blk) : byteStores (fenceGuestFx b) = byteStores b := by simp [fenceGuestFx]
@[simp] theorem fenceCxlFx_stores (b : Blk) : byteStores (fenceCxlFx b) = byteStores b := by simp [fenceCxlFx]

@[simp] theorem fenceMemFx_stores (b : Blk) : byteStores (fenceMemFx b) = byteStores b := by
  refine fenceCmd_stores _ _ _ fun w b => ?_
  extract_lets md
  split <;> simp

@[simp] theorem releaseCoreFx_stores (passed : Bool) (b : Blk) : byteStores (releaseCoreFx passed b) = byteStores b := by
  simp [releaseCoreFx]
@[simp] theorem releaseGatherFx_stores (b : Blk) : byteStores (releaseGatherFx b) = byteStores b := by
  simp [releaseGatherFx]
@[simp] theorem releasePortFx_stores (b : Blk) : byteStores (releasePortFx b) = byteStores b := by simp [releasePortFx]
@[simp] theorem releaseCollFx_stores (b : Blk) : byteStores (releaseCollFx b) = byteStores b := by simp [releaseCollFx]
@[simp] theorem releaseGuestFx_stores (b : Blk) : byteStores (releaseGuestFx b) = byteStores b := by simp [releaseGuestFx]
@[simp] theorem releaseCxlFx_stores (b : Blk) : byteStores (releaseCxlFx b) = byteStores b := by simp [releaseCxlFx]
@[simp] theorem releaseMemFx_stores (b : Blk) : byteStores (releaseMemFx b) = byteStores b := by simp [releaseMemFx]
@[simp] theorem expel_stores (b : Blk) : byteStores b.expel = byteStores b := by simp [Blk.expel]
@[simp] theorem expelFx_stores (b : Blk) : byteStores (expelFx b) = byteStores b := by simp [expelFx]

/-! ### Machine/Install -/

@[simp] theorem replaceFail_stores (b : Blk) (plan : Bool) : byteStores (b.replaceFail plan) = byteStores b := by
  simp [Blk.replaceFail]
@[simp] theorem plainMap_stores (b : Blk) : byteStores b.plainMap = byteStores b := by simp [Blk.plainMap]
@[simp] theorem closeLines_stores (b : Blk) : byteStores b.closeLines = byteStores b := by simp [Blk.closeLines]
@[simp] theorem injectionFx_stores (b : Blk) : byteStores (injectionFx b) = byteStores b := by simp [injectionFx]
@[simp] theorem regWrites_stores (b : Blk) (q : Bool) (p : Sys2Proof.Path) (l : List (Nat × Nat)) :
    byteStores (b.regWrites q p l).2 = byteStores b := by simp [Blk.regWrites]
@[simp] theorem rwqFx_stores (b : Blk) : byteStores (rwqFx b) = byteStores b := by simp [rwqFx]
@[simp] theorem loadChunkFx_stores (r : MgmtReq) (plan : Bool) (off : Nat) (bs : List Byte) (b : Blk) :
    byteStores (loadChunkFx r plan off bs b) = byteStores b := by simp [loadChunkFx]
@[simp] theorem loadCommitFx_stores (r : MgmtReq) (plan : Bool) (len : Nat) (b : Blk) :
    byteStores (loadCommitFx r plan len b) = byteStores b := by simp [loadCommitFx]

/-! ### Machine/Mgmt -/

@[simp] theorem dropMsg_stores (b : Blk) : byteStores b.dropMsg = byteStores b := by simp [Blk.dropMsg]
@[simp] theorem putSegment_stores (b : Blk) (m : Reasm) (s : Segment) :
    byteStores (b.putSegment m s) = byteStores b := by simp [Blk.putSegment]

@[simp] theorem segIn_stores (b : Blk) (s : Segment) : byteStores (b.segIn s) = byteStores b := by
  unfold Blk.segIn
  split <;> simp

@[simp] theorem mgmtSegmentFx_stores (s : Segment) (b : Blk) : byteStores (mgmtSegmentFx s b) = byteStores b := by
  simp [mgmtSegmentFx]
@[simp] theorem relayReply_stores (b : Blk) (s : Segment) (bytes : List Byte) (peer : BitVec 128) :
    byteStores (b.relayReply s bytes peer) = byteStores b := by simp [Blk.relayReply]

@[simp] theorem mgmtPacketFx_stores (pkt : RawPacket) (b : Blk) : byteStores (mgmtPacketFx pkt b) = byteStores b := by
  refine takePkt_stores _ _ _ fun b => ?_
  extract_lets s reply
  split <;> simp

@[simp] theorem reassemblyFx_stores (sender : BitVec 128) (id : BitVec 64) (b : Blk) :
    byteStores (reassemblyFx sender id b) = byteStores b := by
  unfold reassemblyFx
  split <;> simp

@[simp] theorem readRegFx_stores (r : MgmtReq) (addrs : List (BitVec 48)) (b : Blk) :
    byteStores (readRegFx r addrs b) = byteStores b := by
  refine authRequest_stores _ _ _ _ _ fun b => ?_
  extract_lets a id x
  have hx : byteStores x.2.2 = byteStores b :=
    foldl_keep _ (fun x : List Nat × List Byte × Blk => byteStores x.2.2) _ _ fun x ad _ => regRead_stores ..
  split <;> simp [hx]

@[simp] theorem writeRegFx_stores (r : MgmtReq) (pairs : List (BitVec 48 × BitVec 64)) (b : Blk) :
    byteStores (writeRegFx r pairs b) = byteStores b := by simp [writeRegFx]
@[simp] theorem readMemFx_stores (r : MgmtReq) (addr len : Nat) (b : Blk) :
    byteStores (readMemFx r addr len b) = byteStores b := by simp [readMemFx]
@[simp] theorem timeOfDayFx_stores (r : MgmtReq) (tai : Nat) (pps : Bool) (b : Blk) :
    byteStores (timeOfDayFx r tai pps b) = byteStores b := by simp [timeOfDayFx]
@[simp] theorem powerLimitFx_stores (r : MgmtReq) (watts : Nat) (b : Blk) :
    byteStores (powerLimitFx r watts b) = byteStores b := by simp [powerLimitFx]

@[simp] theorem icmpFx_stores (m : Icmp) (b : Blk) : byteStores (icmpFx m b) = byteStores b := by
  unfold icmpFx
  (repeat' split) <;> simp

@[simp] theorem entdaaFx_stores (addr : BitVec 7) (b : Blk) : byteStores (entdaaFx addr b) = byteStores b := by
  simp [entdaaFx]
@[simp] theorem i3cReadFx_stores (off n : Nat) (b : Blk) : byteStores (i3cReadFx off n b) = byteStores b := by
  simp [i3cReadFx]
@[simp] theorem i3cWriteFx_stores (b : Blk) : byteStores (i3cWriteFx b) = byteStores b := by simp [i3cWriteFx]

end Sys2Proof.Proofs
end

section
/-!
PROOFS. The functions of the model that write a byte store keep it canonical: strictly rising places, none listed with the byte
that an unlisted place reads as. One rule for each, in the order of the model's files; the rest of a function leaves the stores
alone by the rules above.
-/
namespace Sys2Proof.Proofs
open Sys2Proof Sys2Proof.Machine Sys2Proof.Says

/-- Both stores are in canonical form: `Safety.memWf` and `Safety.flashWf` of a block that holds them. -/
def StoresCanonical (p : Sp Byte × Sp Byte) : Prop := Sp.wf 0 p.1 = true ∧ Sp.wf 0xFF p.2 = true

@[simp] abbrev Canonical (b : Blk) : Prop := StoresCanonical (byteStores b)

theorem canonical_iff (b : Blk) : Canonical b ↔ Safety.memWf b = true ∧ Safety.flashWf b = true := Iff.rfl

theorem canonical_of_stores {b c : Blk} (hs : byteStores c = byteStores b) (h : Canonical b) : Canonical c := by
  rw [Canonical, hs]; exact h

@[simp] theorem storesCanonical_ite (c : Prop) [Decidable c] (x y : Sp Byte × Sp Byte) :
    StoresCanonical (if c then x else y) ↔ if c then StoresCanonical x else StoresCanonical y := by split <;> rfl

theorem foldl_canonical {α : Type} (f : Blk → α → Blk) (l : List α) (b : Blk) (h : Canonical b)
    (hf : ∀ b x, Canonical b → Canonical (f b x)) : Canonical (l.foldl f b) :=
  foldl_inv f Canonical l b h fun b x _ => hf b x

/-! ### Machine/Sequencer -/

theorem issue_canonical (i : Issue) (wf : Bool) (effect : Nat → Blk → Blk) (b : Blk)
    (he : ∀ k b, Canonical b → Canonical (effect k b)) (h : Canonical b) : Canonical (issue i wf effect b) := by
  unfold issue
  dsimp only
  split
  · exact h
  · split
    · simp [h]
    · split
      · simp [h]
      · rw [Canonical, jump_stores, spend_stores]
        split
        · exact he _ _ (by simp [h])
        · simp [h]

/-! ### Machine/Vector -/

theorem vecIssue_canonical (i : Issue) (wf : Bool) (occ : Nat) (effect : Nat → Blk → Blk) (b : Blk)
    (he : ∀ k b, Canonical b → Canonical (effect k b)) (h : Canonical b) : Canonical (vecIssue i wf occ effect b) := by
  have hi := issue_canonical i wf (fun k b => (effect k b).incBy (VEC_OPS.count (k / 32) (k % 32)) 1) b
    (fun k b hb => canonical_of_stores (incBy_stores ..) (he k b hb)) h
  unfold vecIssue
  dsimp only
  split
  · exact canonical_of_stores (stall_stores ..) hi
  · exact hi

/-! ### Machine/Packets -/

theorem takePktIf_canonical (way : Blk → InPkt → Bool) (pkt : RawPacket) (f : Blk → Blk) (b : Blk)
    (hf : ∀ b, Canonical b → Canonical (f b)) (h : Canonical b) : Canonical (takePktIf way pkt f b) := by
  unfold takePktIf
  split
  · exact hf _ (canonical_of_stores ((echoFor_stores ..).trans (freeCredit_stores ..)) h)
  · exact h

theorem takePkt_canonical (pkt : RawPacket) (f : Blk → Blk) (b : Blk)
    (hf : ∀ b, Canonical b → Canonical (f b)) (h : Canonical b) : Canonical (takePkt pkt f b) :=
  takePktIf_canonical _ _ _ _ hf h

/-! ### Machine/Anchor -/

theorem takeDue_canonical (action : Nat) (f : Nat → Nat → Nat → Blk → Blk) (b : Blk)
    (hf : ∀ n arg inst b, Canonical b → Canonical (f n arg inst b)) (h : Canonical b) : Canonical (takeDue action f b) := by
  unfold takeDue
  dsimp only
  split
  · simp [h]
  · split
    · simp [h]
    · exact hf _ _ _ _ (by simp [h])

/-! ### Machine/Command -/

theorem takeCmd_canonical (sel : Placed → Bool) (f : Placed → Blk → Blk) (b : Blk)
    (hf : ∀ c b, Canonical b → Canonical (f c b)) (h : Canonical b) : Canonical (takeCmd sel f b) := by
  unfold takeCmd
  dsimp only
  split
  · simp [h]
  · split
    · exact hf _ _ (by simp [h])
    · simp [h]

theorem authRequest_canonical (mtype : Nat) (inRecovery : Bool) (r : MgmtReq) (f : Blk → Blk) (b : Blk)
    (hf : ∀ b, Canonical b → Canonical (f b)) (h : Canonical b) : Canonical (authRequest mtype inRecovery r f b) := by
  unfold authRequest
  dsimp only
  split
  · exact h
  · split
    · split
      · exact hf _ h
      · simp [h]
    · split
      · simp [h]
      · split
        · simp [h]
        · exact hf _ (by simp [h])

theorem collCx_foldl_stores {α : Type} (f : CollCx → α → CollCx) (l : List α) (c : CollCx)
    (hf : ∀ c x, byteStores (f c x).b = byteStores c.b) : byteStores (l.foldl f c).b = byteStores c.b :=
  foldl_keep f (fun c : CollCx => byteStores c.b) l c fun c x _ => hf c x

theorem collCx_foldl_canonical {α : Type} (f : CollCx → α → CollCx) (l : List α) (c : CollCx) (h : Canonical c.b)
    (hf : ∀ c x, Canonical c.b → Canonical (f c x).b) : Canonical (l.foldl f c).b :=
  foldl_inv f (fun c : CollCx => Canonical c.b) l c h fun c x _ => hf c x

theorem raise_armRefuse_canonical (b : Blk) (die unit code detail n : Nat) (h : Canonical b) :
    Canonical ((b.raise die unit code detail).armRefuse n) :=
  canonical_of_stores ((armRefuse_stores ..).trans (raise_stores ..)) h

/-! ### Machine/Ops -/

@[simp] theorem setByte_canonical (b : Blk) (key : Nat) (v : Byte) (h : Canonical b) : Canonical (b.setByte key v) :=
  ⟨setByte_wf b key v h.1, h.2⟩

@[simp] theorem setBytes_canonical (b : Blk) (key : Nat) (l : List Byte) (h : Canonical b) :
    Canonical (b.setBytes key l) := by
  refine ⟨setBytes_wf b key l h.1, ?_⟩
  rw [setBytes_eq]
  exact h.2

@[simp] theorem setRawWord_canonical (b : Blk) (key : Nat) (data : Word) (e : BitVec 32) (h : Canonical b) :
    Canonical (b.setRawWord key data e) :=
  canonical_of_stores (byteStores_congr rfl rfl) (setBytes_canonical b (key / 32 * 32) _ h)

@[simp] theorem writeWord_canonical (b : Blk) (key : Nat) (w : MWord) (h : Canonical b) :
    Canonical (b.writeWord key w) := by
  unfold Blk.writeWord
  split
  · simp [h]
  · dsimp only
    split <;> simp [h]

@[simp] theorem writeWords_canonical (b : Blk) (key : Nat) (ws : List MWord) (h : Canonical b) :
    Canonical (b.writeWords key ws) := by
  induction ws generalizing b key with
  | nil => exact h
  | cons w ws ih => exact ih _ _ (writeWord_canonical b key w h)

/-! ### Machine/Calendar -/

@[simp] theorem landWords_canonical (b : Blk) (key : Nat) (ws : List MWord) (h : Canonical b) :
    Canonical (b.landWords key ws) := by
  simp [Blk.landWords, h]

/-! ### Machine/Plan -/

@[simp] theorem setFbytes_canonical (b : Blk) (off : Nat) (l : List Byte) (h : Canonical b) :
    Canonical (b.setFbytes off l) := by
  refine ⟨?_, setFbytes_wf b off l h.2⟩
  rw [setFbytes_eq]
  exact h.1

/-! ### Machine/CollOps -/

@[simp] theorem collStatus_canonical (b : Blk) (r : CollRun) (aborted : Bool) (axis phase step : Nat) (h : Canonical b) :
    Canonical (b.collStatus r aborted axis phase step) := by
  unfold Blk.collStatus
  split <;> simp [h]

@[simp] theorem collFail_canonical (b : Blk) (r : CollRun) (axis phase step : Nat) (h : Canonical b) :
    Canonical (b.collFail r axis phase step) := by
  simp [Blk.collFail, h]

@[simp] theorem collPortFail_canonical (b : Blk) (n : Nat) (h : Canonical b) : Canonical (b.collPortFail n) := by
  unfold Blk.collPortFail
  split
  · exact h
  · refine foldl_canonical _ _ _ h fun b l hb => ?_
    split
    · split <;> simp [hb]
    · exact hb

@[simp] theorem writeJournal_canonical (b : Blk) (f : Journal → Journal) (h : Canonical b) : Canonical (b.writeJournal f) := by
  unfold Blk.writeJournal
  dsimp only
  (repeat' split) <;> simp [h]

/-! ### Machine/Fabric -/

@[simp] theorem writeSplit_canonical (b : Blk) (a die unit : Nat) (told : Bool) (ws : List MWord) (h : Canonical b) :
    Canonical (b.writeSplit a die unit told ws) := by
  induction ws generalizing b a told with
  | nil => exact h
  | cons w ws ih =>
    unfold Blk.writeSplit
    split
    · exact ih _ _ _ (by simp [h])
    · exact ih _ _ _ (by simp [h])

@[simp] theorem putDev_canonical (b : Blk) (a : Nat) (ws : List MWord) (die unit : Nat) (h : Canonical b) :
    Canonical (b.putDev a ws die unit) := by
  unfold Blk.putDev
  split <;> simp [h]

@[simp] theorem writeDev_canonical (b : Blk) (a : Nat) (ws : List MWord) (die unit : Nat) (h : Canonical b) :
    Canonical (b.writeDev a ws die unit) := by
  simp [Blk.writeDev, h]
@[simp] theorem putFar_canonical (b : Blk) (x : Xfer) (off : Nat) (ws : List MWord) (h : Canonical b) :
    Canonical (b.putFar x off ws) := by
  simp [Blk.putFar, h]
@[simp] theorem poisonFar_canonical (b : Blk) (x : Xfer) (off n : Nat) (h : Canonical b) : Canonical (b.poisonFar x off n) := by
  simp [Blk.poisonFar, h]

@[simp] theorem abortXfer_canonical (b : Blk) (id : Nat) (h : Canonical b) : Canonical (b.abortXfer id) := by
  unfold Blk.abortXfer
  split <;> simp [h]

@[simp] theorem spoil_canonical (b : Blk) (u : LaneUse) (h : Canonical b) : Canonical (b.spoil u) := by
  unfold Blk.spoil
  split <;> simp [h]

@[simp] theorem collide_canonical (b : Blk) (u v : LaneUse) (h : Canonical b) : Canonical (b.collide u v) := by
  simp [Blk.collide, h]

@[simp] theorem claimLanes_canonical (b : Blk) (us : List LaneUse) (h : Canonical b) : Canonical (b.claimLanes us).2 := by
  unfold Blk.claimLanes
  split
  · exact h
  · exact foldl_canonical _ _ _ h fun b x hb => collide_canonical b _ _ hb

@[simp] theorem nxferFx_canonical (i : Issue) (r : BitVec 5) (b : Blk) (h : Canonical b) : Canonical (nxferFx i r b) := by
  refine issue_canonical _ _ _ _ (fun k b hb => ?_) h
  dsimp only
  split <;> simp [hb]

@[simp] theorem startXfer_canonical (b : Blk) (k x : Nat) (h : Canonical b) : Canonical (b.startXfer k x) := by
  unfold Blk.startXfer
  extract_lets kind n home dev id cached xf r g c d
  have hd : Canonical d := by
    simp only [Canonical, d, withNextXfer_stores, c]
    split <;> simp [h]
  clear_value d
  split
  · exact abortXfer_canonical _ _ (canonical_of_stores ((withXfers_stores ..).trans (addrRange_stores ..)) hd)
  · extract_lets ends us e f g l
    have hg : Canonical g := by simp [g, e, f, hd]
    have hl : Canonical l := by
      simp only [l]
      split
      · simp [hg]
      · split <;> simp [hg]
    clear_value l
    split
    · simp [hl]
    · split <;> simp [hl]

@[simp] theorem dmaFx_canonical (i : Issue) (r : BitVec 5) (b : Blk) (h : Canonical b) : Canonical (dmaFx i r b) := by
  refine issue_canonical _ _ _ _ (fun k b hb => ?_) h
  dsimp only
  split <;> simp [hb]

@[simp] theorem prefFx_canonical (i : Issue) (r : BitVec 5) (b : Blk) (h : Canonical b) : Canonical (prefFx i r b) := by
  refine issue_canonical _ _ _ _ (fun k b hb => ?_) h
  dsimp only
  split <;> simp [hb]

@[simp] theorem moveXfer_canonical (b : Blk) (x : Xfer) (off n : Nat) (h : Canonical b) : Canonical (b.moveXfer x off n) := by
  simp [Blk.moveXfer, h]
@[simp] theorem finishXfer_canonical (b : Blk) (x : Xfer) (h : Canonical b) : Canonical (b.finishXfer x) := by
  simp [Blk.finishXfer, h]

@[simp] theorem dmaCompleteFx_canonical (c : CoreId) (b : Blk) (h : Canonical b) : Canonical (dmaCompleteFx c b) := by
  unfold dmaCompleteFx
  extract_lets k
  split
  · exact h
  · extract_lets d
    have hd : Canonical d := finishXfer_canonical _ _ (by simp [h])
    clear_value d
    simp [hd]

@[simp] theorem prefChecks_canonical (b : Blk) (h : Canonical b) : Canonical b.prefChecks := by
  refine foldl_canonical _ _ { b with checks := _ } h fun b c hb => ?_
  dsimp only
  split <;> simp [hb]

@[simp] theorem serveReq_canonical (b : Blk) (ch : Nat) (r : MemReq) (h : Canonical b) : Canonical (b.serveReq ch r) := by
  unfold Blk.serveReq
  dsimp only
  (repeat' split) <;> simp [h]

@[simp] theorem serveChan_canonical (b : Blk) (ch : Nat) (h : Canonical b) : Canonical (b.serveChan ch) := by
  unfold Blk.serveChan
  extract_lets l
  split
  · exact h
  · split
    · exact h
    · exact serveReq_canonical { b with memReqs := _ } _ _ h

@[simp] theorem abortReq_canonical (b : Blk) (r : MemReq) (h : Canonical b) : Canonical (b.abortReq r) := by
  unfold Blk.abortReq
  (repeat' split) <;> simp [h]

/-- Waiting requests that are taken out and end aborted. -/
theorem dropAndAbort_canonical (l : List (Nat × MemReq)) (b : Blk) (h : Canonical b) :
    Canonical (l.foldl (fun b x => (b.dropReq x).abortReq x.2) b) :=
  foldl_canonical _ _ _ h fun b x hb => abortReq_canonical _ x.2 (canonical_of_stores (dropReq_stores b x) hb)

@[simp] theorem expireReq_canonical (b : Blk) (r : MemReq) (h : Canonical b) : Canonical (b.expireReq r) := by
  simp [Blk.expireReq, h]

@[simp] theorem closeReqs_canonical (b : Blk) (ch : Nat) (h : Canonical b) : Canonical (b.closeReqs ch) := by
  unfold Blk.closeReqs
  extract_lets owners l back dead c d
  have hd : Canonical d := canonical_of_stores ((withMemReqs_stores ..).trans (countDeferred_stores ..)) h
  clear_value d
  exact foldl_canonical _ _ _ hd fun b r hb => expireReq_canonical b r hb

@[simp] theorem eccRepairFx_canonical (md : Fin 4) (b : Blk) (h : Canonical b) : Canonical (eccRepairFx md b) := by
  unfold eccRepairFx
  dsimp only
  (repeat' split) <;> simp [h]

/-! ### Machine/Gather -/

@[simp] theorem writeMask_canonical (b : Blk) (st : Machine.Stream) (i : Nat) (v : Bool) (h : Canonical b) :
    Canonical (b.writeMask st i v) := by
  simp [Blk.writeMask, h]

@[simp] theorem gathWrite_canonical (b : Blk) (ge i : Nat) (ws : List MWord) (mask bad : Bool) (h : Canonical b) :
    Canonical (b.gathWrite ge i ws mask bad) := by
  unfold Blk.gathWrite
  split <;> simp [h]

@[simp] theorem gathAlloc_canonical (b : Blk) (ge : Nat) (h : Canonical b) : Canonical (b.gathAlloc ge) := by
  unfold Blk.gathAlloc
  split <;> simp [h]

@[simp] theorem gatherIssueFx_canonical (cd : Fin 12) (e : Fin 4) (b : Blk) (h : Canonical b) :
    Canonical (gatherIssueFx cd e b) := by
  simp [gatherIssueFx, h]

@[simp] theorem gathReturn_canonical (b : Blk) (ge i : Nat) (ws : List MWord) (h : Canonical b) :
    Canonical (b.gathReturn ge i ws) := by
  unfold Blk.gathReturn
  split <;> simp [h]

@[simp] theorem gatherReturnFx_canonical (cd : Fin 12) (e : Fin 4) (elem : BitVec 20) (b : Blk) (h : Canonical b) :
    Canonical (gatherReturnFx cd e elem b) := by
  unfold gatherReturnFx
  dsimp only
  (repeat' split) <;> simp [h]

@[simp] theorem gatherTimeoutFx_canonical (cd : Fin 12) (e : Fin 4) (elem : BitVec 20) (b : Blk) (h : Canonical b) :
    Canonical (gatherTimeoutFx cd e elem b) := by
  unfold gatherTimeoutFx
  dsimp only
  (repeat' split) <;> simp [h]

@[simp] theorem gathExpire_canonical (b : Blk) (ge : Nat) (r : GathReq) (h : Canonical b) : Canonical (b.gathExpire ge r) := by
  unfold Blk.gathExpire
  split <;> simp [h]

@[simp] theorem windowCloseFx_canonical (ch : Fin 128) (b : Blk) (h : Canonical b) : Canonical (windowCloseFx ch b) := by
  unfold windowCloseFx
  dsimp only
  rw [Canonical, copySome_stores]
  refine foldl_canonical _ _ _ (foldl_canonical _ _ _ (closeReqs_canonical b _ h) fun b ge hb => ?_) fun b cd hb => ?_
  · split
    · exact hb
    · split
      · simp [hb]
      · exact foldl_canonical _ _ _ hb fun b r hb => gathExpire_canonical b ge r hb
  · split
    · exact hb
    · split <;> simp [hb]

@[simp] theorem expireStep_canonical (b : Blk) (h : Canonical b) : Canonical b.expireStep := by
  unfold Blk.expireStep
  refine foldl_canonical _ _ _ (foldl_canonical _ _ _
    (foldl_canonical _ _ _ h fun b x hb => ?_) fun b ge hb => ?_) fun b cd hb => ?_
  · simp [hb]
  · exact foldl_canonical _ _ _ hb fun b r hb => gathExpire_canonical b ge r hb
  · simp [hb]

/-! ### Machine/Links -/

@[simp] theorem discard_canonical (b : Blk) (p : Nat) (h : Canonical b) : Canonical (b.discard p) := by
  simp [Blk.discard, h]
@[simp] theorem linkLoss_canonical (b : Blk) (p cause : Nat) (h : Canonical b) : Canonical (b.linkLoss p cause) := by
  simp [Blk.linkLoss, h]
@[simp] theorem packetRouteFx_canonical (ld : Fin 2) (inp : RouterIn) (pkt : RawPacket) (b : Blk) (h : Canonical b) :
    Canonical (packetRouteFx ld inp pkt b) := by
  simp [packetRouteFx, h]

@[simp] theorem outageExpiryFx_canonical (p : Port) (allLost : Bool) (b : Blk) (h : Canonical b) :
    Canonical (outageExpiryFx p allLost b) := by
  unfold outageExpiryFx
  dsimp only
  (repeat' split) <;> simp [h]

@[simp] theorem cableUnmateFx_canonical (p : Port) (b : Blk) (h : Canonical b) : Canonical (cableUnmateFx p b) := by
  simp [cableUnmateFx, h]

/-! ### Machine/Scale -/

@[simp] theorem writeBits_canonical (b : Blk) (key lo n v : Nat) (poison : Bool) (h : Canonical b) :
    Canonical (b.writeBits key lo n v poison) := by
  unfold Blk.writeBits
  split
  · exact h
  · exact foldl_canonical _ _ _ h fun b q hb => writeWord_canonical b _ _ hb

@[simp] theorem writeConv_canonical (b : Blk) (d : Nat) (o : OutAt) (r : ConvOut) (poison : Nat → Bool) (h : Canonical b) :
    Canonical (b.writeConv d o r poison) := by
  unfold Blk.writeConv
  extract_lets w bad c e
  have he : Canonical e :=
    foldl_canonical _ _ _ (canonical_of_stores (openWords_stores ..) h) fun b c hb => writeBits_canonical b _ _ _ _ _ hb
  clear_value e
  split
  · exact he
  · refine foldl_canonical _ _ _ (canonical_of_stores (openWords_stores ..) he) fun b x hb => ?_
    split
    · exact writeBits_canonical b _ _ _ _ _ hb
    · exact writeBits_canonical b _ _ _ _ _ hb

@[simp] theorem poisonOut_canonical (b : Blk) (d key : Nat) (is : List Nat) (h : Canonical b) :
    Canonical (b.poisonOut d key is) :=
  foldl_canonical _ _ _ (canonical_of_stores (openWords_stores ..) h) fun b _ hb => writeBits_canonical b _ _ _ _ _ hb

@[simp] theorem writeTileByte_canonical (b : Blk) (d tile delta : Nat) (h : Canonical b) :
    Canonical (b.writeTileByte d tile delta) := by
  unfold Blk.writeTileByte
  (repeat' split) <;> simp [h]

/-! ### Machine/Matrix -/

@[simp] theorem deliverTile_canonical (b : Blk) (k : Nat) (j : MatJob) (h : Canonical b) :
    Canonical (b.deliverTile k j).2.2 := by
  unfold Blk.deliverTile
  extract_lets dw w d c ok e bias f res bad slot t
  have he : Canonical e := by
    have hc : Canonical c := canonical_of_stores (readDev_stores ..) h
    simp only [e]
    split
    · simp [hc]
    · split <;> simp [hc]
  split
  · exact canonical_of_stores (addrRange_stores ..) he
  · extract_lets o els r badEls g i l
    split
    · exact poisonOut_canonical _ _ _ _ he
    · have hres : Canonical res.2 := canonical_of_stores ((residue_stores ..).trans (fetchBias_stores ..)) he
      have hg : Canonical g := canonical_of_stores (countConv_stores ..) (writeConv_canonical _ _ _ _ _ hres)
      have hi : Canonical i := writeTileByte_canonical _ _ _ _ (canonical_of_stores (stall_stores ..) hg)
      split
      · exact canonical_of_stores (stall_stores ..) hi
      · exact hi

@[simp] theorem deliverSpill_canonical (b : Blk) (k : Nat) (j : MatJob) (ws : List Nat) (h : Canonical b) :
    Canonical (b.deliverSpill k j ws) := by
  unfold Blk.deliverSpill
  split <;> simp [h]

@[simp] theorem deliver_canonical (b : Blk) (k : Nat) (j : MatJob) (h : Canonical b) : Canonical (b.deliver k j).2.2 := by
  unfold Blk.deliver
  (repeat' split) <;> simp [h]

@[simp] theorem matrixCompleteFx_canonical (c : CoreId) (b : Blk) (h : Canonical b) : Canonical (matrixCompleteFx c b) := by
  unfold matrixCompleteFx
  extract_lets k cd s
  split
  · exact h
  · next x j rest _ =>
    extract_lets c res sums j d e r aborted f g i l
    have he : byteStores e = byteStores b := by
      simp only [e, d, res, c, setReg_stores]
      split <;> simp
    have hr : Canonical r.2.2 := deliver_canonical _ _ _ (canonical_of_stores he h)
    have hi : Canonical i := by simp [i, g, f, hr]
    clear_value i
    rw [Canonical, showMat_stores]
    simp only [l]
    split
    · simp [hi]
    · exact hi

/-! ### Machine/Coll -/

@[simp] theorem putElem_canonical (b : Blk) (r : CollRun) (w e v : Nat) (h : Canonical b) : Canonical (b.putElem r w e v) := by
  unfold Blk.putElem
  split <;> simp [h]

@[simp] theorem putScale_canonical (b : Blk) (r : CollRun) (i v : Nat) (h : Canonical b) : Canonical (b.putScale r i v) := by
  unfold Blk.putScale
  split <;> simp [h]

@[simp] theorem collCx_convert_canonical (c : CollCx) (ix : Nat) (h : Canonical c.b) : Canonical (c.convert ix).b := by
  unfold CollCx.convert
  extract_lets rs n vs c' dw d loc b is els bias c₂ o w b₂ st b₃ b₄ b₅ b₆ sm b₇
  have hc : Canonical c'.b := canonical_of_stores (collCx_own_stores ..) h
  clear_value c'
  split
  · exact hc
  · split
    · have hb : Canonical b := canonical_of_stores (badDesc_stores ..) hc
      clear_value b
      dsimp only
      split
      · exact poisonOut_canonical _ _ _ _ hb
      · exact hb
    · have hbias : Canonical bias.2 := canonical_of_stores (fetchBias_stores ..) hc
      have h₂ : Canonical b₂ := foldl_canonical _ _ _ hbias fun b q hb => by
        split <;> simp [hb]
      have h₃ : Canonical b₃ := foldl_canonical _ _ _ h₂ fun b x hb => by
        dsimp only
        split <;> simp [hb]
      have h₄ : Canonical b₄ := canonical_of_stores (updScale_stores ..) h₃
      have h₅ : Canonical b₅ := writeTileByte_canonical _ _ _ _ h₄
      clear_value b₅
      rw [Canonical, collCx_flag_stores]
      show Canonical b₇
      have h₆ : Canonical b₆ := by
        simp only [b₆]
        split
        · exact h₅
        · exact canonical_of_stores (countRescale_stores ..) h₅
      clear_value b₆
      simp only [b₇]
      split <;> simp [h₆]

@[simp] theorem collCx_copyOwn_canonical (c : CollCx) (s n : Nat) (d : Nat → Nat) (h : Canonical c.b) :
    Canonical (c.copyOwn s n d).b := by
  unfold CollCx.copyOwn
  extract_lets w b st e
  have hb : Canonical b := foldl_canonical _ _ _ h fun b i hb => putElem_canonical b _ _ _ _ hb
  clear_value b
  show Canonical e
  simp only [e]
  split
  · exact hb
  · exact foldl_canonical _ _ _ hb fun b q hb =>
      foldl_canonical _ _ _ hb fun b j hb => putScale_canonical b _ _ _ hb

@[simp] theorem collCx_startStage_canonical (c : CollCx) (st : CollStage) (h : Canonical c.b) :
    Canonical (c.startStage st).b := by
  unfold CollCx.startStage
  extract_lets pl p l n ne rs v codes cr c₁ hp go₁ c₂ rs₂ go₂ blk c₃ w
  split
  · refine canonical_of_stores (collCx_foldl_stores _ _ _ fun c half => ?_) h
    split
    · extract_lets plus ch f
      split <;> simp
    · extract_lets q run c'
      have hrun : ∀ c plus sel, byteStores (run c plus sel).b = byteStores c.b := by
        intro c plus sel
        simp only [run]
        split
        · rfl
        · rw [collCx_signal_stores]
          exact collCx_foldl_stores _ _ _ fun c ch => collCx_sendOwn_stores ..
      clear_value run
      have hc' : byteStores c'.b = byteStores c.b := by
        simp only [c']
        split <;> simp [hrun]
      clear_value c'
      split <;> simp [hrun, hc']
  · refine canonical_of_stores (collCx_foldl_stores _ _ _ fun c half => ?_) h
    extract_lets ch f go
    split
    · split <;> simp
    · extract_lets q
      have hgo : ∀ c plus on last step, byteStores (go c plus on last step).b = byteStores c.b := by
        intro c plus on last step
        simp only [go]
        split
        · rfl
        · split
          · split <;> simp
          · split <;> simp
      clear_value go
      rw [hgo, hgo]
  · have hgo : ∀ c plus hops, byteStores (go₁ c plus hops).b = byteStores c.b := by
      intro c plus hops
      simp only [go₁]
      split <;> simp
    clear_value go₁
    refine canonical_of_stores ((hgo ..).trans (hgo ..)) ?_
    exact canonical_of_stores (collCx_own_stores ..) h
  · split
    · exact h
    · have hc : Canonical c₂.b := collCx_copyOwn_canonical _ _ _ _ h
      have hgo : ∀ c plus half hops, byteStores (go₂ c plus half hops).b = byteStores c.b := by
        intro c plus half hops
        simp only [go₂]
        split <;> simp
      clear_value c₂ go₂
      split
      · exact canonical_of_stores (collCx_foldl_stores _ _ _ fun c half => hgo ..) hc
      · exact canonical_of_stores (collCx_foldl_stores _ _ _ fun c half => (hgo ..).trans (hgo ..)) hc
  · have hc : Canonical c₃.b := collCx_copyOwn_canonical _ _ _ _ h
    clear_value c₃
    refine canonical_of_stores (collCx_foldl_stores _ _ _ fun c q => ?_) hc
    split
    · rfl
    · dsimp only
      split <;> simp

@[simp] theorem collCx_place_canonical (c : CollCx) (st : CollStage) (half step side src dev : Nat) (ws : List MWord)
    (h : Canonical c.b) : Canonical (c.place st half step side src dev ws).b := by
  unfold CollCx.place
  generalize st.kind = kind
  extract_lets pl p l n rs sp multi key cr c' scale dev' fm w line e0 ch rg lim cnt codes c₂ vs own a c₄ mp sc b c₃ on plus
  have hc₂ : Canonical c₂.b := by
    simp only [c₂]
    split
    · exact h
    · exact canonical_of_stores (collCx_count_stores ..) h
  split
  · have hown : Canonical own.2.b := canonical_of_stores (collCx_own_stores ..) hc₂
    have h₄ : Canonical c₄.b := canonical_of_stores (collCx_flag_stores ..) hown
    generalize line = o
    cases o
    · dsimp only
      split <;> simp [h₄]
    · dsimp only
      split <;> simp [hown, hc₂]
  · exact hc₂
  · have hb : Canonical b := foldl_canonical _ _ _ hc₂ fun b v hb => by
      dsimp only
      split <;> simp [hb]
    have hc₃ : Canonical c₃.b := hb
    split
    · simp [hc₃]
    · exact hc₃

@[simp] theorem collCx_take_canonical (c : CollCx) (pkt : RawPacket) (h : Canonical c.b) : Canonical (c.take pkt).b := by
  unfold CollCx.take
  dsimp only
  (repeat' split) <;> simp [h]

@[simp] theorem collCx_scratch_canonical (c : CollCx) (h : Canonical c.b) : Canonical c.scratch.b := by
  simp [CollCx.scratch, h]

@[simp] theorem collCx_progress_canonical (fuel : Nat) (c : CollCx) (h : Canonical c.b) :
    Canonical (CollCx.progress fuel c).b := by
  induction fuel generalizing c with
  | zero => exact h
  | succ fuel ih =>
    unfold CollCx.progress
    extract_lets c₁
    have h₁ : Canonical c₁.b := canonical_of_stores (collCx_signals_stores _) h
    split
    · exact h₁
    · split
      · exact h₁
      · extract_lets c₂ cr c₃ c₄ c₅ c₆ held cr₂ c₇
        have h₂ : Canonical c₃.b := canonical_of_stores (collCx_closeStage_stores c₁ _) h₁
        have h₄ : Canonical c₄.b := by
          simp only [c₄]
          split <;> simp [h₂]
        have h₅ : Canonical c₅.b := by
          simp only [c₅]
          split <;> simp [h₄]
        have h₆ : Canonical c₆.b := by
          simp only [c₆]
          split <;> simp [h₅]
        refine ih _ ?_
        exact collCx_foldl_canonical _ _ _ h₆ fun c x hc => collCx_take_canonical c x hc

@[simp] theorem collCx_store_canonical (c : CollCx) (h : Canonical c.b) : Canonical c.store := by simp [CollCx.store, h]

@[simp] theorem startRun_canonical (b : Blk) (r : CollRun) (h : Canonical b) : Canonical (b.startRun r) := by
  unfold Blk.startRun
  extract_lets b₁ b₂ c k rs c₂ c₃
  have h₁ : Canonical b₁ := by
    simp only [b₁]
    split <;> simp [h]
  clear_value b₁
  have h₂ : Canonical b₂ := by
    simp only [b₂]
    split <;> simp [h₁]
  clear_value b₂
  have h₃ : Canonical c₂.b := by
    simp only [c₂]
    split
    · exact collCx_copyOwn_canonical _ _ _ _ h₂
    · split
      · exact collCx_convert_canonical _ _ h₂
      · split
        · exact collCx_copyOwn_canonical _ _ _ _ h₂
        · exact h₂
  clear_value c₂
  have h₄ : Canonical c₃.b := by
    simp only [c₃]
    split <;> simp [h₃]
  clear_value c₃
  refine collCx_store_canonical _ (collCx_progress_canonical _ _ ?_)
  exact collCx_foldl_canonical _ _ _ h₄ fun c x hc => collCx_take_canonical c x hc

@[simp] theorem goOn_canonical (b : Blk) (r : CollRun) (h : Canonical b) : Canonical (b.goOn r) := by
  unfold Blk.goOn
  split
  · simp [h]
  · split
    · simp [h]
    · refine collCx_store_canonical _ (collCx_progress_canonical _ _ ?_)
      exact collCx_foldl_canonical _ _ _ h fun c x hc => collCx_take_canonical c x hc

@[simp] theorem collServe_canonical (b : Blk) (ch : Nat) (h : Canonical b) : Canonical (b.collServe ch) := by
  refine foldl_canonical _ _ _ h fun b l hb => ?_
  split
  · split <;> simp [hb]
  · exact hb

@[simp] theorem memoryRequestFx_canonical (ch : Fin 128) (b : Blk) (h : Canonical b) : Canonical (memoryRequestFx ch b) := by
  simp [memoryRequestFx, h]

@[simp] theorem collFx_canonical (i : Issue) (rg : BitVec 5) (b : Blk) (h : Canonical b) : Canonical (collFx i rg b) := by
  refine issue_canonical _ _ _ _ (fun k b hb => ?_) h
  extract_lets a d w0 w1 b₁ l n p x fb r b₂ shut b₃
  have h₁ : Canonical b₁ := canonical_of_stores (readDev_stores ..) hb
  clear_value b₁
  split
  · simp [h₁]
  · have h₂ : Canonical b₂ := canonical_of_stores (updColl_stores ..) h₁
    clear_value b₂
    split
    · exact h₂
    · split
      · simp [h₂]
      · have h₃ : Canonical b₃ := by
          simp only [b₃]
          clear_value p
          split <;> simp [h₂]
        clear_value b₃
        split <;> simp [h₃]

@[simp] theorem collPkt_canonical (b : Blk) (pkt : RawPacket) (h : Canonical b) : Canonical (b.collPkt pkt) := by
  unfold Blk.collPkt
  dsimp only
  (repeat' split) <;> simp [h]

@[simp] theorem collDataFx_canonical (pkt : RawPacket) (b : Blk) (h : Canonical b) : Canonical (collDataFx pkt b) :=
  takePkt_canonical _ _ _ (fun b hb => collPkt_canonical b _ hb) h

@[simp] theorem collSignalFx_canonical (pkt : RawPacket) (b : Blk) (h : Canonical b) : Canonical (collSignalFx pkt b) := by
  refine takePkt_canonical _ _ _ (fun b hb => ?_) h
  extract_lets p f
  have hf : Canonical f.2 := canonical_of_stores (fire_stores ..) hb
  split <;> simp [hb, hf]

@[simp] theorem collCompleteFx_canonical (ch : Fin 16) (b : Blk) (h : Canonical b) : Canonical (collCompleteFx ch b) := by
  unfold collCompleteFx
  (repeat' split) <;> simp [h]

@[simp] theorem collDeadlineFx_canonical (ch : Fin 16) (b : Blk) (h : Canonical b) : Canonical (collDeadlineFx ch b) := by
  unfold collDeadlineFx
  (repeat' split) <;> simp [h]

/-! ### Machine/Commit -/

@[simp] theorem putScaleEntry_canonical (b : Blk) (key t : Nat) (e : ScaleEnt) (h : Canonical b) :
    Canonical (b.putScaleEntry key t e) := by
  simp [Blk.putScaleEntry, h]

@[simp] theorem writeShard0_canonical (b : Blk) (h : Canonical b) : Canonical b.writeShard0 := by
  unfold Blk.writeShard0
  split
  · exact h
  · split
    · exact h
    · exact foldl_canonical _ _ _ (by simp [h]) fun b t hb => putScaleEntry_canonical b _ _ _ hb

@[simp] theorem rewriteShard0_canonical (b : Blk) (h : Canonical b) : Canonical b.rewriteShard0 := by
  unfold Blk.rewriteShard0
  split
  · exact h
  · split
    · exact h
    · split
      · exact h
      · exact foldl_canonical _ _ _ (canonical_of_stores (openWords_stores ..) h) fun b t hb =>
          putScaleEntry_canonical b _ _ _ hb

@[simp] theorem latchFx_canonical (b : Blk) (h : Canonical b) : Canonical (latchFx b) := by simp [latchFx, h]
@[simp] theorem stopRebuildFx_canonical (n : Nat) (b : Blk) (h : Canonical b) : Canonical (stopRebuildFx n b) := by
  simp [stopRebuildFx, h]

@[simp] theorem endRebuildFx_canonical (b : Blk) (h : Canonical b) : Canonical (endRebuildFx b) := by
  unfold endRebuildFx
  (repeat' split) <;> simp [h]

@[simp] theorem applyOutcome_canonical (b : Blk) (out : Nat) (h : Canonical b) : Canonical (b.applyOutcome out) := by
  simp [Blk.applyOutcome, h]

@[simp] theorem flipAt_canonical (b : Blk) (t : Nat) (h : Canonical b) : Canonical (b.flipAt t) := by
  unfold Blk.flipAt
  extract_lets b₁ b₂ b₃
  have h₁ : Canonical b₁ := canonical_of_stores (clearAllNc_stores b) h
  have h₂ : Canonical b₂ := canonical_of_stores (updColl_stores ..) h₁
  have h₃ : Canonical b₃ := canonical_of_stores (applyHeld_stores _) (writeJournal_canonical _ _ h₁)
  split
  · simp [h₁]
  · split
    · simp [h₂]
    · simp [h₃]

@[simp] theorem barrierDone_canonical (b : Blk) (h : Canonical b) : Canonical b.barrierDone := by simp [Blk.barrierDone, h]

@[simp] theorem advanceBarrier_canonical (fuel : Nat) (b : Blk) (h : Canonical b) : Canonical (Blk.advanceBarrier fuel b) := by
  induction fuel generalizing b with
  | zero => exact h
  | succ fuel ih =>
    unfold Blk.advanceBarrier
    extract_lets s l vs v b₁ b₂
    have h₂ : Canonical b₂ := canonical_of_stores ((wr_stores ..).trans (updColl_stores ..)) h
    split
    · exact h
    · split
      · exact h
      · split
        · exact barrierDone_canonical _ h₂
        · exact ih _ (canonical_of_stores (openStage_stores ..) h₂)

@[simp] theorem startVote_canonical (b : Blk) (j : Job) (tVote : Nat) (h : Canonical b) : Canonical (b.startVote j tVote) := by
  unfold Blk.startVote
  extract_lets live vote nf b₁ b₂ w b₃ tFlip b₄ b₅ b₆
  have h₂ : Canonical b₂ := canonical_of_stores
    ((updVote_stores ..).trans (ifB_stores _ _ _ fun b => raiseOpen_stores ..)) h
  have h₄ : Canonical b₄ := canonical_of_stores
    ((placeSched_stores ..).trans ((setReg_stores ..).trans (updVote_stores ..))) h₂
  have h₅ : Canonical b₅ := by
    simp only [b₅]
    split
    · exact writeJournal_canonical _ _ h₄
    · exact h₄
  exact advanceBarrier_canonical _ _
    (canonical_of_stores ((openStage_stores ..).trans ((wr_stores ..).trans (updColl_stores ..))) h₅)

@[simp] theorem votePacketFx_canonical (p : Port) (pkt : RawPacket) (b : Blk) (h : Canonical b) :
    Canonical (votePacketFx p pkt b) := by
  refine takePktIf_canonical _ _ _ _ (fun b hb => ?_) h
  extract_lets w v n hops b₁ s pos id val
  have h₁ : Canonical b₁ := by
    simp only [b₁]
    split
    · exact canonical_of_stores (sendVote_stores ..) hb
    · exact hb
  split
  · exact h₁
  · split
    · split
      · exact h₁
      · split
        · exact advanceBarrier_canonical _ _ (canonical_of_stores (updColl_stores ..) h₁)
        · split
          · exact h₁
          · exact canonical_of_stores (updColl_stores ..) h₁
    · split
      · exact h₁
      · exact canonical_of_stores (updColl_stores ..) h₁

@[simp] theorem resolve_canonical (b : Blk) (how : Nat) (h : Canonical b) : Canonical (b.resolve how) := by
  simp [Blk.resolve, h]

@[simp] theorem resolveAtAnchor_canonical (b : Blk) (h : Canonical b) : Canonical b.resolveAtAnchor := by
  unfold Blk.resolveAtAnchor
  split <;> simp [h]

@[simp] theorem writePacketFx_canonical (pkt : RawPacket) (b : Blk) (h : Canonical b) : Canonical (writePacketFx pkt b) :=
  takePktIf_canonical _ _ _ _ (fun b hb => writeDev_canonical b _ _ _ _ hb) h

@[simp] theorem readRespFx_canonical (pkt : RawPacket) (b : Blk) (h : Canonical b) : Canonical (readRespFx pkt b) := by
  refine takePkt_canonical _ _ _ (fun b hb => ?_) h
  extract_lets t own ge
  split
  · exact hb
  · split
    · exact hb
    · split
      · split
        · exact gathReturn_canonical _ _ _ _ hb
        · exact hb
      · exact hb

/-! ### Machine/Context -/

@[simp] theorem clearPart_canonical (b : Blk) (k slot : Nat) (h : Canonical b) : Canonical (b.clearPart k slot) :=
  ⟨clearPart_wf b k slot h.1, h.2⟩
@[simp] theorem freshSlot_canonical (b : Blk) (k slot c : Nat) (h : Canonical b) : Canonical (b.freshSlot k slot c) := by
  simp [Blk.freshSlot, h]

@[simp] theorem startBind_canonical (b : Blk) (slot c : Nat) (h : Canonical b) : Canonical (b.startBind slot c) := by
  unfold Blk.startBind
  extract_lets fresh b₁
  refine canonical_of_stores (updRun_stores ..) (foldl_canonical _ _ _ h fun b k hb => ?_)
  dsimp only
  split
  · exact hb
  · split
    · exact freshSlot_canonical _ _ _ _ hb
    · exact canonical_of_stores ((updRun_stores ..).trans (wr_stores ..)) hb

@[simp] theorem bindSeg_canonical (b : Blk) (g : Seg) (h : Canonical b) : Canonical (b.bindSeg g) := by
  simp [Blk.bindSeg, h]

@[simp] theorem doSwap_canonical (b : Blk) (w : Swap) (h : Canonical b) : Canonical (b.doSwap w) := by
  unfold Blk.doSwap
  split <;> simp [h]

@[simp] theorem swapDoneFx_canonical (c : CoreId) (slot : Bool) (b : Blk) (h : Canonical b) :
    Canonical (swapDoneFx c slot b) := by
  unfold swapDoneFx
  dsimp only
  (repeat' split) <;> simp [h]

/-! ### Machine/Power -/

@[simp] theorem computeOff_canonical (b : Blk) (h : Canonical b) : Canonical b.computeOff := by
  unfold Blk.computeOff
  extract_lets b₁ low mem err moves held b₂
  have h₁ : Canonical b₁ := canonical_of_stores (resetRegs_stores ..) h
  have h₂ : Canonical b₂ := canonical_of_stores (foldl_stores _ _ _ fun b x => dropReq_stores ..) h₁
  exact ⟨Sp.wf_filter _ _ _ h₁.1, h₂.2⟩

@[simp] theorem journalBack_canonical (b : Blk) (h : Canonical b) : Canonical b.journalBack := by
  unfold Blk.journalBack
  split <;> simp [h]

@[simp] theorem modeDoneFx_canonical (b : Blk) (h : Canonical b) : Canonical (modeDoneFx b) := by simp [modeDoneFx, h]

@[simp] theorem trip_canonical (b : Blk) (die sensor : Nat) (temp : Int) (h : Canonical b) :
    Canonical (b.trip die sensor temp) := by
  unfold Blk.trip
  extract_lets st b₁ b₂ b₃ b₄ b₅ b₆ b₇ b₈ b₉ b₁₀
  have h₁ : Canonical b₁ := canonical_of_stores (wr_stores ..) h
  have h₄ : Canonical b₄ := canonical_of_stores ((wr_stores ..).trans ((updPower_stores ..).trans (raise_stores ..))) h₁
  have h₆ : Canonical b₆ := canonical_of_stores
    ((updSched_stores ..).trans (foldl_stores _ _ _ fun b n => wr_stores ..)) h₄
  have h₇ : Canonical b₇ := canonical_of_stores
    (foldl_stores _ _ _ fun b p => (satBy_stores ..).trans (updPort_stores ..)) h₆
  have h₈ : Canonical b₈ := canonical_of_stores (calmPorts_stores ..) h₇
  have h₉ : Canonical b₉ := by
    simp only [b₉]
    split
    · exact writeJournal_canonical _ _ h₈
    · exact h₈
  have h₁₀ : Canonical b₁₀ := by
    simp only [b₁₀]
    split
    · split
      · exact canonical_of_stores (updColl_stores ..) h₈
      · exact h₈
    · exact canonical_of_stores ((enter_stores ..).trans (updColl_stores ..)) h₉
  split
  · exact h
  · split
    · exact h₁
    · split
      · exact h₁
      · exact canonical_of_stores ((updColl_stores ..).trans ((guestReset_stores ..).trans (setMode_stores ..)))
          (computeOff_canonical _ (canonical_of_stores (selfRefresh_stores ..) h₁₀))

@[simp] theorem thermalTripFx_canonical (die sensor : Nat) (temp : Int) (b : Blk) (h : Canonical b) :
    Canonical (thermalTripFx die sensor temp b) := by
  simp [thermalTripFx, h]

@[simp] theorem thermalSampleFx_canonical (t : ThermalReading) (b : Blk) (h : Canonical b) :
    Canonical (thermalSampleFx t b) := by
  unfold thermalSampleFx
  dsimp only
  (repeat' split) <;> simp [h]

/-! ### Machine/Ras -/

@[simp] theorem scrubCore_canonical (b : Blk) (k : Nat) (h : Canonical b) : Canonical (b.scrubCore k) :=
  foldl_canonical _ _ _ h fun b _ hb => setRawWord_canonical b _ _ _ hb

@[simp] theorem fenceCopyFx_canonical (cd : Fin 12) (b : Blk) (h : Canonical b) : Canonical (fenceCopyFx cd b) := by
  unfold fenceCopyFx
  split <;> simp [h]

/-! ### Machine/Anchor -/

@[simp] theorem flipFx_canonical (b : Blk) (h : Canonical b) : Canonical (flipFx b) :=
  takeDue_canonical _ _ _ (fun _ _ t b hb => flipAt_canonical b t hb) h

@[simp] theorem unbindChan_canonical (b : Blk) (j : Job) (c : Nat) (h : Canonical b) : Canonical (b.unbindChan j c) := by
  unfold Blk.unbindChan
  dsimp only
  (repeat' split) <;> simp [h]

@[simp] theorem bindChan_canonical (b : Blk) (j : Job) (l c : Nat) (h : Canonical b) : Canonical (b.bindChan j l c) := by
  unfold Blk.bindChan
  extract_lets b₁ b₂ b₃ b₄
  have h₁ : Canonical b₁ := by
    simp only [b₁]
    split
    · exact unbindChan_canonical _ _ _ h
    · exact h
  have h₂ : Canonical b₂ := unbindChan_canonical _ _ _ h₁
  have h₃ : Canonical b₃ := canonical_of_stores (foldl_stores _ _ _ fun b o => by split <;> simp) h₂
  have h₄ : Canonical b₄ := canonical_of_stores ((wr_stores ..).trans ((wr_stores ..).trans (wr_stores ..))) h₃
  split
  · exact h
  · split
    · simp [h₄]
    · extract_lets b₅ r
      exact goOn_canonical _ _ (canonical_of_stores ((wr_stores ..).trans (wr_stores ..)) h₄)

@[simp] theorem bindColl_canonical (b : Blk) (j : Job) (n : Nat) (h : Canonical b) : Canonical (b.bindColl j n) :=
  foldl_canonical _ _ _ (foldl_canonical _ _ _ h fun b _ hb => unbindChan_canonical b _ _ hb)
    fun b _ hb => bindChan_canonical b _ _ _ hb

@[simp] theorem anchorActs_canonical (b : Blk) (h : Canonical b) : Canonical b.anchorActs := by
  unfold Blk.anchorActs
  extract_lets b₁ lanes b₂ b₃ b₄ b₅
  have h₁ : Canonical b₁ := canonical_of_stores
    ((copySome_stores ..).trans ((setSpread_stores ..).trans (applyLimit_stores ..))) (resolveAtAnchor_canonical _ h)
  have h₂ : Canonical b₂ := canonical_of_stores
    ((foldl_stores _ _ _ fun b s => switchLane_stores ..).trans (updRas_stores ..)) h₁
  have h₃ : Canonical b₃ := canonical_of_stores (foldl_stores _ _ _ fun b ge => by split <;> simp) h₂
  have h₄ : Canonical b₄ := canonical_of_stores (updColl_stores ..) h₃
  have h₅ : Canonical b₅ := canonical_of_stores (foldl_stores _ _ _ fun b d => by split <;> simp) h₄
  refine canonical_of_stores (foldl_stores _ _ _ fun b k => ?_) h₅
  dsimp only
  split
  · rfl
  · exact (wr_stores ..).trans ((wr_stores ..).trans
      (foldl_stores _ _ _ fun b c => foldl_stores _ _ _ fun b e => wr_stores ..))

@[simp] theorem setShards_canonical (b : Blk) (j : Job) (n : Nat) (h : Canonical b) : Canonical (b.setShards j n) := by
  simp [Blk.setShards, h]

@[simp] theorem commitPhase_canonical (b : Blk) (j : Job) (n t : Nat) (h : Canonical b) : Canonical (b.commitPhase j n t) := by
  unfold Blk.commitPhase
  extract_lets live b₁ b₂ b₃
  split
  · exact h
  · have h₁ : Canonical b₁ := by
      simp only [b₁]
      split <;> simp [h]
    have h₂ : Canonical b₂ := by
      simp only [b₂]
      split
      · rw [Canonical, gradNorm_stores]
        split <;> simp [h₁]
      · exact h₁
    have h₃ : Canonical b₃ := by
      simp only [b₃]
      split <;> simp [h₂]
    split
    · exact startVote_canonical _ _ _ h₃
    · exact h₃

@[simp] theorem openStep_canonical (b : Blk) (j : Job) (start : Nat) (h : Canonical b) : Canonical (b.openStep j start) := by
  unfold Blk.openStep
  extract_lets b₁ b₂ b₃ b₄ b₅ st at_ b₆
  have h₁ : Canonical b₁ := by simp [b₁, h]
  have h₃ : Canonical b₃ := canonical_of_stores ((updScale_stores ..).trans (updColl_stores ..)) h₁
  have h₄ : Canonical b₄ := canonical_of_stores ((updRouter_stores ..).trans (updRouter_stores ..)) h₃
  have h₅ : Canonical b₅ := canonical_of_stores (foldl_stores _ _ _ fun b k => updCore_stores ..) h₄
  refine canonical_of_stores (powerPlan_stores ..) ?_
  simp only [b₆]
  split
  · exact h₅
  · split
    · exact canonical_of_stores (modFail_stores ..) h₅
    · exact writeJournal_canonical _ _ h₅

@[simp] theorem openHub_canonical (b : Blk) (j : Job) (n rel : Nat) (h : Canonical b) : Canonical (b.openHub j n rel) := by
  simp [Blk.openHub, h]
@[simp] theorem startJob_canonical (b : Blk) (j : Job) (h : Canonical b) : Canonical (b.startJob j) := by
  simp [Blk.startJob, h]

@[simp] theorem jobStartFx_canonical (b : Blk) (h : Canonical b) : Canonical (jobStartFx b) := by
  refine takeDue_canonical _ _ _ (fun _ _ _ b hb => ?_) h
  split
  · split
    · exact startJob_canonical _ _ hb
    · exact hb
  · exact hb

@[simp] theorem runRelease_canonical (b : Blk) (j : Job) (h : Canonical b) : Canonical (b.runRelease j) := by
  unfold Blk.runRelease
  extract_lets n t rel next b₁ b₂ b₃ b₄ b₅ j' b₆ b₇
  have h₁ : Canonical b₁ := canonical_of_stores (foldl_stores _ _ _ fun b k => countWait_stores ..) h
  have h₂ : Canonical b₂ := anchorActs_canonical _ h₁
  have h₃ : Canonical b₃ := canonical_of_stores ((flushNc_stores ..).trans (countDeadlines_stores ..))
    (prefChecks_canonical _ (commitPhase_canonical _ _ _ _ h₂))
  have h₄ : Canonical b₄ := by
    simp only [b₄]
    split
    · exact canonical_of_stores (remapAll_stores ..) h₃
    · exact h₃
  have h₅ : Canonical b₅ := by
    simp only [b₅]
    split
    · refine canonical_of_stores (placeImage_stores ..) (openStep_canonical _ _ _ ?_)
      split
      · exact h₄
      · exact expireStep_canonical _ h₄
    · exact canonical_of_stores ((placeImage_stores ..).trans (thermalActs_stores ..)) h₄
  have h₆ : Canonical b₆ := openHub_canonical _ _ _ _ h₅
  have h₇ : Canonical b₇ := by
    simp only [b₇]
    split
    · exact canonical_of_stores (retryFences_stores ..) h₆
    · exact h₆
  exact canonical_of_stores (foldl_stores _ _ _ fun b k => releaseCore_stores ..) h₇

@[simp] theorem drainRelease_canonical (b : Blk) (j : Job) (h : Canonical b) : Canonical (b.drainRelease j) := by
  simp [Blk.drainRelease, h]

@[simp] theorem anchorReleaseFx_canonical (b : Blk) (h : Canonical b) : Canonical (anchorReleaseFx b) := by
  unfold anchorReleaseFx
  split <;> simp [h]

@[simp] theorem idleCalendarFx_canonical (b : Blk) (h : Canonical b) : Canonical (idleCalendarFx b) := by
  simp [idleCalendarFx, h]

/-! ### Machine/Discovery -/

@[simp] theorem recoverJournal_canonical (b : Blk) (h : Canonical b) : Canonical b.recoverJournal := by
  simp [Blk.recoverJournal, h]

@[simp] theorem enterReady_canonical (b : Blk) (h : Canonical b) : Canonical b.enterReady := by
  unfold Blk.enterReady
  dsimp only
  (repeat' split) <;> simp [h]

@[simp] theorem syncExitFx_canonical (b : Blk) (h : Canonical b) : Canonical (syncExitFx b) := by simp [syncExitFx, h]

/-! ### Machine/Boot -/

@[simp] theorem setAnchor_canonical (b : Blk) (d : Nat) (h : Canonical b) : Canonical (b.setAnchor d) := by
  simp [Blk.setAnchor, h]

@[simp] theorem bootFx_canonical (x : BootInput) (b : Blk) (h : Canonical b) : Canonical (bootFx x b) := by
  unfold bootFx
  split
  · exact h
  · split
    · exact canonical_of_stores (fwFail_stores ..) h
    · split
      · exact canonical_of_stores (fwFail_stores ..) h
      · extract_lets b₁ b₂ b₃
        have h₁ : Canonical b₁ := canonical_of_stores
          ((setReg_stores ..).trans ((identity_stores ..).trans (takeFirmware_stores ..))) h
        split
        · exact canonical_of_stores (planFail_stores ..) h₁
        · have h₂ : Canonical b₂ := by
            simp only [b₂]
            split
            · exact setAnchor_canonical _ _ h₁
            · exact h₁
          simp [b₃, h₂]

@[simp] theorem volatileClear_canonical (b : Blk) (h : Canonical b) : Canonical b.volatileClear :=
  ⟨volatileClear_wf b h.1, h.2⟩
@[simp] theorem coldClear_canonical (b : Blk) (h : Canonical b) : Canonical b.coldClear := ⟨rfl, h.2⟩

@[simp] theorem startBoot_canonical (b : Blk) (h : Canonical b) : Canonical b.startBoot :=
  canonical_of_stores ((enter_stores ..).trans ((updRst_stores ..).trans ((restartRing_stores ..).trans (resetRegs_stores ..))))
    (b := { b.volatileClear with mem := [], err := [], mds := [] }) ⟨rfl, (volatileClear_canonical b h).2⟩

@[simp] theorem powerLostFx_canonical (b : Blk) (h : Canonical b) : Canonical (powerLostFx b) := by simp [powerLostFx, h]
@[simp] theorem holdReleaseFx_canonical (b : Blk) (h : Canonical b) : Canonical (holdReleaseFx b) := by
  simp [holdReleaseFx, h]
@[simp] theorem coldResetFx_canonical (b : Blk) (h : Canonical b) : Canonical (coldResetFx b) := by simp [coldResetFx, h]
@[simp] theorem coldReleaseFx_canonical (b : Blk) (h : Canonical b) : Canonical (coldReleaseFx b) := by
  simp [coldReleaseFx, h]
@[simp] theorem tripClearFx_canonical (t : ThermalReading) (b : Blk) (h : Canonical b) : Canonical (tripClearFx t b) := by
  simp [tripClearFx, h]
@[simp] theorem warmReset_canonical (b : Blk) (cause : Nat) (h : Canonical b) : Canonical (b.warmReset cause) := by
  simp [Blk.warmReset, h]
@[simp] theorem warmResetFx_canonical (b : Blk) (h : Canonical b) : Canonical (warmResetFx b) := by simp [warmResetFx, h]
@[simp] theorem watchdogFx_canonical (b : Blk) (h : Canonical b) : Canonical (watchdogFx b) := by simp [watchdogFx, h]
@[simp] theorem ctlFatalFx_canonical (b : Blk) (h : Canonical b) : Canonical (ctlFatalFx b) := by simp [ctlFatalFx, h]

/-! ### Machine/Vector -/

@[simp] theorem vstrFx_canonical (i : Issue) (o : VOp) (b : Blk) (h : Canonical b) : Canonical (vstrFx i o b) := by
  refine vecIssue_canonical _ _ _ _ _ (fun k b hb => ?_) h
  extract_lets c wide kp n
  split
  · split <;> simp [hb]
  · extract_lets b₁
    refine foldl_canonical _ _ _ (canonical_of_stores (openWords_stores ..) hb) fun b l hb => ?_
    split
    · exact writeBits_canonical _ _ _ _ _ _ hb
    · exact writeBits_canonical _ _ _ _ _ _ hb

@[simp] theorem vstore_canonical (b : Blk) (k : Nat) (o : VOp) (h : Canonical b) : Canonical (b.vstore k o) := by
  unfold Blk.vstore
  dsimp only
  (repeat' split) <;> simp [h]

@[simp] theorem vstFx_canonical (i : Issue) (o : VOp) (b : Blk) (h : Canonical b) : Canonical (vstFx i o b) := by
  refine vecIssue_canonical _ _ _ _ _ (fun k b hb => ?_) h
  split
  · exact hb
  · exact vstore_canonical _ _ _ hb

/-! ### Machine/Arm -/

@[simp] theorem clearCores_canonical (b : Blk) (h : Canonical b) : Canonical b.clearCores := by
  refine foldl_canonical _ _ _ h fun b k hb => ?_
  dsimp only
  exact canonical_of_stores ((setReg_stores ..).trans ((setReg_stores ..).trans (setReg_stores ..)))
    (clearPart_canonical _ _ _ (clearPart_canonical _ _ _ (canonical_of_stores (updCore_stores ..) hb)))

@[simp] theorem armAccept_canonical (b : Blk) (p : List Byte) (hdr : Nat) (j : Job) (r : Restored) (h : Canonical b) :
    Canonical (b.armAccept p hdr j r) := by
  unfold Blk.armAccept
  extract_lets change b₁ b₂ b₃ b₄ b₅ b₆ ri b₇ b₈ b₉ b₁₀ b₁₁ b₁₂ b₁₃ b₁₄
  have h₂ : Canonical b₂ := by simp [b₂, b₁, h]
  have h₄ : Canonical b₄ := by simp [b₄, b₃, h₂]
  have h₅ : Canonical b₅ := canonical_of_stores ((loadScale_stores ..).trans (wr_stores ..)) h₄
  have h₆ : Canonical b₆ := writeJournal_canonical _ _ h₅
  have h₈ : Canonical b₈ := canonical_of_stores ((updColl_stores ..).trans (updRun_stores ..)) h₆
  have h₉ : Canonical b₉ := clearCores_canonical _
    (canonical_of_stores ((updVote_stores ..).trans (clearVotes_stores ..)) h₈)
  have h₁₀ : Canonical b₁₀ := canonical_of_stores ((appendLog_stores ..).trans (appendLog_stores ..)) h₉
  have h₁₁ : Canonical b₁₁ := by
    simp only [b₁₁]
    split
    · exact canonical_of_stores (placeSched_stores ..) h₁₀
    · exact h₁₀
  have h₁₃ : Canonical b₁₃ := canonical_of_stores ((setReg_stores ..).trans (placeSched_stores ..)) h₁₁
  have h₁₄ : Canonical b₁₄ := canonical_of_stores (foldl_stores _ _ _ fun b i => setReg_stores ..) h₁₃
  exact canonical_of_stores ((placeImage_stores ..).trans ((enter_stores ..).trans
    ((dropDebug_stores ..).trans (wr_stores ..)))) h₁₄

@[simp] theorem armImage_canonical (b : Blk) (p : List Byte) (h : Canonical b) : Canonical (b.armImage p) := by
  unfold Blk.armImage
  extract_lets g hdr
  split
  · exact raise_armRefuse_canonical _ _ _ _ _ _ h
  · split
    · exact raise_armRefuse_canonical _ _ _ _ _ _ h
    · extract_lets j
      split
      · exact canonical_of_stores (armRefuse_stores ..) h
      · split
        · exact canonical_of_stores (armRefuse_stores ..) h
        · split
          · exact canonical_of_stores (armRefuse_stores ..) h
          · split
            · exact canonical_of_stores (armRefuse_stores ..) h
            · split
              · exact canonical_of_stores (armRefuse_stores ..) h
              · exact armAccept_canonical _ _ _ _ _ h

@[simp] theorem armBegin_canonical (b : Blk) (p : List Byte) (h : Canonical b) : Canonical (b.armBegin p) := by
  simp [Blk.armBegin, h]

@[simp] theorem armFx_canonical (b : Blk) (h : Canonical b) : Canonical (armFx b) := by
  refine takeCmd_canonical _ _ _ (fun c b hb => ?_) h
  split
  · simp [hb]
  · exact armBegin_canonical _ _ hb

/-! ### Machine/Host -/

@[simp] theorem hostServeFx_canonical (ch : Fin 128) (b : Blk) (h : Canonical b) : Canonical (hostServeFx ch b) := by
  unfold hostServeFx
  dsimp only
  (repeat' split) <;> simp [h]

@[simp] theorem hostExpiryFx_canonical (b : Blk) (h : Canonical b) : Canonical (hostExpiryFx b) := by
  unfold hostExpiryFx
  extract_lets due b₁
  have h₁ : Canonical b₁ := dropAndAbort_canonical _ _ h
  split
  · exact h₁
  · extract_lets n b₂ step
    have h₂ : Canonical b₂ := canonical_of_stores (satBy_stores ..) h₁
    split
    · exact h₂
    · exact canonical_of_stores ((updHost_stores ..).trans (raise_stores ..)) h₂

@[simp] theorem pullStatus_canonical (b : Blk) (w : Word) (st : Nat) (h : Canonical b) : Canonical (b.pullStatus w st) := by
  simp [Blk.pullStatus, h]
@[simp] theorem pullEnd_canonical (b : Blk) (st : Nat) (h : Canonical b) : Canonical (b.pullEnd st) := by
  simp [Blk.pullEnd, h]
@[simp] theorem ringDone_canonical (b : Blk) (st : Nat) (data : List MWord) (h : Canonical b) :
    Canonical (b.ringDone st data) := by
  simp [Blk.ringDone, h]
@[simp] theorem armPulled_canonical (b : Blk) (p : List Byte) (st : Nat) (data : List MWord) (h : Canonical b) :
    Canonical (b.armPulled p st data) := by
  simp [Blk.armPulled, h]

@[simp] theorem pullDoneFx_canonical (status : BitVec 8) (data : List MWord) (b : Blk) (h : Canonical b) :
    Canonical (pullDoneFx status data b) := by
  unfold pullDoneFx
  split <;> simp [h]

@[simp] theorem pullTimeoutFx_canonical (b : Blk) (h : Canonical b) : Canonical (pullTimeoutFx b) := by
  unfold pullTimeoutFx
  (repeat' split) <;> simp [h]

@[simp] theorem pullsFail_canonical (b : Blk) (h : Canonical b) : Canonical b.pullsFail := by
  unfold Blk.pullsFail
  split <;> simp [h]

@[simp] theorem perstOnFx_canonical (b : Blk) (h : Canonical b) : Canonical (perstOnFx b) := by
  unfold perstOnFx
  extract_lets b₁ b₂ b₃
  have h₂ : Canonical b₂ := canonical_of_stores
    ((wr_stores ..).trans ((setCxlLink_stores ..).trans (updHost_stores ..))) h
  exact pullsFail_canonical _ (dropAndAbort_canonical _ _ h₂)

/-! ### Machine/Security -/

@[simp] theorem guestStage_canonical (b : Blk) (h : Canonical b) : Canonical b.guestStage := by
  unfold Blk.guestStage
  split
  · exact h
  · split
    · exact h
    · split
      · exact h
      · extract_lets b₁ ws
        have h₁ : Canonical b₁ := canonical_of_stores (withMemReqs_stores ..) h
        split
        · exact canonical_of_stores (emit_stores ..) (landWords_canonical _ _ _ h₁)
        · exact canonical_of_stores ((emit_stores ..).trans (fetchWords_stores ..)) h₁

@[simp] theorem guestRun_canonical (b : Blk) (t : GuestTxn) (h : Canonical b) : Canonical (b.guestRun t) := by
  unfold Blk.guestRun
  extract_lets a n r data rq
  split
  · split
    · simp [h]
    · simp [r, h]
  · split
    · simp [h]
    · split
      · exact canonical_of_stores (holdReqs_stores ..) h
      · exact guestStage_canonical _ (canonical_of_stores (withMemReqs_stores ..) h)

@[simp] theorem guestJudge_canonical (b : Blk) (inj : Bool) (t : GuestTxn) (h : Canonical b) :
    Canonical (b.guestJudge inj t) := by
  unfold Blk.guestJudge
  (repeat' split) <;> simp [h]

@[simp] theorem guestTxnFx_canonical (t : GuestTxn) (b : Blk) (h : Canonical b) : Canonical (guestTxnFx t b) := by
  unfold guestTxnFx
  dsimp only
  (repeat' split) <;> simp [h]

@[simp] theorem guestAdmitFx_canonical (b : Blk) (h : Canonical b) : Canonical (guestAdmitFx b) := by
  unfold guestAdmitFx
  dsimp only
  (repeat' split) <;> simp [h]

/-! ### Machine/Drain -/

@[simp] theorem forceMats_canonical (b : Blk) (k : Nat) (h : Canonical b) : Canonical (b.forceMats k) :=
  foldl_canonical _ _ _ (canonical_of_stores (updCore_stores ..) h) fun b _ hb => matrixCompleteFx_canonical _ b hb

@[simp] theorem forceXfers_canonical (b : Blk) (k : Nat) (h : Canonical b) : Canonical (b.forceXfers k) := by
  unfold Blk.forceXfers
  extract_lets mine held b₁ whole b₂ b₃
  have h₁ : Canonical b₁ := dropAndAbort_canonical _ _ h
  have h₂ : Canonical b₂ := foldl_canonical _ _ _ h₁ fun b x hb => abortXfer_canonical b _ hb
  have h₃ : Canonical b₃ := canonical_of_stores (withXfers_stores ..) h₂
  exact foldl_canonical _ _ _ h₃ fun b _ hb => dmaCompleteFx_canonical _ b hb

@[simp] theorem forceGather_canonical (b : Blk) (ge : Nat) (h : Canonical b) : Canonical (b.forceGather ge) :=
  foldl_canonical _ _ _ h fun _ _ hb => foldl_canonical _ _ _ hb fun b _ hb => gathWrite_canonical b _ _ _ _ _ hb
@[simp] theorem forcePort_canonical (b : Blk) (p : Nat) (h : Canonical b) : Canonical (b.forcePort p) := by
  simp [Blk.forcePort, h]

@[simp] theorem force_canonical (b : Blk) (kind u : Nat) (h : Canonical b) : Canonical (b.force kind u).2 := by
  unfold Blk.force
  split
  · exact forceXfers_canonical _ _ (forceMats_canonical _ _ h)
  · split
    · exact forceGather_canonical _ _ h
    · split
      · exact forcePort_canonical _ _ h
      · split
        · split
          · exact collFail_canonical _ _ _ _ _ h
          · exact h
        · split
          · have hc := dropAndAbort_canonical b.guestHeld b h
            exact canonical_of_stores
              ((foldl_stores _ _ _ fun b w => guestAbort_stores ..).trans (updSec_stores ..)) hc
          · exact pullsFail_canonical _ h

@[simp] theorem drainTimeoutFx_canonical (kind : BitVec 4) (unit : BitVec 9) (b : Blk) (h : Canonical b) :
    Canonical (drainTimeoutFx kind unit b) := by
  unfold drainTimeoutFx
  dsimp only
  (repeat' split) <;> simp [h]

/-! ### Machine/Install -/

@[simp] theorem setLayout_canonical (b : Blk) (lo len : Nat) (h : Canonical b) : Canonical (b.setLayout lo len) := by
  simp [Blk.setLayout, h]
@[simp] theorem writePlan_canonical (b : Blk) (p : List Byte) (h : Canonical b) : Canonical (b.writePlan p) := by
  simp [Blk.writePlan, h]
@[simp] theorem writeFw_canonical (b : Blk) (p : List Byte) (h : Canonical b) : Canonical (b.writeFw p) := by
  simp [Blk.writeFw, h]

@[simp] theorem replanFx_canonical (b : Blk) (h : Canonical b) : Canonical (replanFx b) := by
  refine takeCmd_canonical _ _ _ (fun c b hb => ?_) h
  extract_lets b₁ b₂ b₃ b₄ b₅
  have h₁ : Canonical b₁ := writePlan_canonical _ _ hb
  have h₂ : Canonical b₂ := by
    simp only [b₂]
    split
    · exact setAnchor_canonical _ _ h₁
    · exact h₁
  have h₃ : Canonical b₃ := by
    simp only [b₃]
    split
    · exact canonical_of_stores ((idleCalStart_stores ..).trans (jobOver_stores ..)) h₂
    · exact h₂
  have h₄ : Canonical b₄ := by simp [b₄, h₃]
  have h₅ : Canonical b₅ := canonical_of_stores (foldl_stores _ _ _ fun b p => updPort_stores ..) h₄
  split
  · simp [hb]
  · split
    · exact h₂
    · exact canonical_of_stores (enterDiscover_stores ..) h₅

@[simp] theorem firmwareFx_canonical (sigOk chainOk : Bool) (b : Blk) (h : Canonical b) :
    Canonical (firmwareFx sigOk chainOk b) := by
  refine takeCmd_canonical _ _ _ (fun c b hb => ?_) h
  extract_lets n chain b₁ b₂
  have h₁ : Canonical b₁ := writeFw_canonical _ _ hb
  have h₂ : Canonical b₂ := by
    simp only [b₂]
    split
    · exact h₁
    · exact canonical_of_stores (wrB_stores ..) (setLayout_canonical _ _ _ (setFbytes_canonical _ _ _ h₁))
  split
  · exact h₂
  · exact canonical_of_stores (replaceFail_stores ..) h₂

@[simp] theorem recoveryDoneFx_canonical (x : BootInput) (b : Blk) (h : Canonical b) : Canonical (recoveryDoneFx x b) := by
  unfold recoveryDoneFx
  split
  · exact h
  · extract_lets b₁ b₂ b₃
    have h₁ : Canonical b₁ := by
      simp only [b₁]
      split
      · exact writePlan_canonical _ _ h
      · exact writeFw_canonical _ _ h
    have h₂ : Canonical b₂ := canonical_of_stores (updMgmt_stores ..) h₁
    have h₃ : Canonical b₃ := canonical_of_stores (identity_stores ..) h₂
    split
    · exact h
    · split
      · split
        · exact startBoot_canonical _ (coldClear_canonical _ h₃)
        · exact canonical_of_stores ((replaceFail_stores ..).trans (wr_stores ..)) h₃
      · split
        · exact startBoot_canonical _ (coldClear_canonical _ h₂)
        · exact canonical_of_stores (replaceFail_stores ..) h₂

/-! ### Machine/Mgmt -/

@[simp] theorem startFx_canonical (r : MgmtReq) (b : Blk) (h : Canonical b) : Canonical (startFx r b) := by
  refine authRequest_canonical _ _ _ _ _ (fun b hb => ?_) h
  dsimp only
  split
  · exact startBoot_canonical _ (canonical_of_stores (mgmtReply_stores ..) hb)
  · simp [hb]

end Sys2Proof.Proofs
end

section
/-!
PROOFS. Every step keeps the byte stores canonical (O29): each command's effect does, and so does the passing of time.
-/
namespace Sys2Proof.Proofs
open Sys2Proof Sys2Proof.Machine Sys2Proof.Says

/-- A command whose meaning is an effect on the block leaves the block that the effect makes. -/
theorem canonical_of_exec_eq_onBlk {c : Instr} {s s' : State} {f : Blk → Blk} (hc : exec c s = onBlk s f)
    (h : Canonical (f s.blk)) (hs : exec c s = .next s') : Canonical s'.blk := by
  cases hc.symm.trans hs
  exact h

/-- Every command keeps the stores canonical: by the rule of its own effect, one of the lemmas above. -/
theorem exec_canonical (c : Instr) (s s' : State) (h : Canonical s.blk) (hs : exec c s = .next s') :
    Canonical s'.blk := by
  have hb : StoresCanonical (byteStores s.blk) := h
  cases c
  all_goals refine canonical_of_exec_eq_onBlk rfl ?_ hs
  all_goals simp [hb]

/-- Settles O29: the command in front keeps the stores canonical, and on an empty queue a nanosecond that passes leaves them
alone. -/
theorem stepsKeepTheStoresCanonical : Obligations.StepsKeepTheStoresCanonical := by
  unfold Obligations.StepsKeepTheStoresCanonical
  intro s s' hmem hflash hs
  have h : Canonical s.blk := ⟨hmem, hflash⟩
  unfold step at hs
  split at hs
  · cases hs
    exact canonical_of_stores (passTime_stores _) h
  · next c rest _ => exact exec_canonical c { s with pending := rest } s' h hs

end Sys2Proof.Proofs
end

section
/-!
PROOFS. The event ring (O23): the order of the held records (R18), the record that enters the ring and those that are kept
(R295), the end of a coalescing millisecond (R296) and the messages to the fault managers (R307).
-/
namespace Sys2Proof.Proofs
open Sys2Proof Sys2Proof.Machine Sys2Proof.Says

/-! ### The order of the records (R18) -/

theorem before_iff (x y : EvRec) : x.before y = true ↔
    x.time < y.time ∨ x.time = y.time ∧ (x.die < y.die ∨ x.die = y.die ∧ x.unit ≤ y.unit) := by
  simp [EvRec.before]

/-- Records of the same time, die and unit come before the same records. -/
theorem before_of_same_place {x y z : EvRec} (ht : y.time = x.time) (hd : y.die = x.die) (hu : y.unit = x.unit)
    (h : x.before z = true) : y.before z = true := by
  unfold EvRec.before at *
  rw [ht, hd, hu]
  exact h

theorem nextHeld_before {b : Blk} {x : EvRec} (h : b.nextHeld = some x) : ∀ y ∈ b.ev.held, x.before y = true := by
  have hx := List.find?_some h
  simpa using hx

/-- Of the records of one time, die and unit the ring takes the one that is held first. -/
theorem nextHeld_first {b : Blk} {x : EvRec} (h : b.nextHeld = some x) (l m : List EvRec) (hl : b.ev.held = l ++ m)
    (hx : x ∉ l) : ∀ y ∈ l, ¬(y.time = x.time ∧ y.die = x.die ∧ y.unit = x.unit) := by
  rintro y hy ⟨ht, hd, hu⟩
  have hfirst : (b.ev.held.all fun z => y.before z) = true :=
    List.all_eq_true.2 fun z hz => before_of_same_place ht hd hu (nextHeld_before h z hz)
  have hin : ∃ z, l.find? (fun x => b.ev.held.all fun y => x.before y) = some z :=
    Option.isSome_iff_exists.1 (List.find?_isSome.2 ⟨y, hy, hfirst⟩)
  obtain ⟨z, hz⟩ := hin
  have hzx : some z = some x := by
    rw [← h, Blk.nextHeld]
    conv_rhs => arg 2; rw [hl]
    rw [List.find?_append, hz, Option.some_or]
  cases hzx
  exact hx (List.mem_of_find?_eq_some hz)

/-! ### Messages to the fault managers (R307) -/

/-- A message that is no reply leaves by the module's own port. -/
theorem dispatchMsg_unasked (b : Blk) (dst mtype id status : Nat) (body : List Byte) (h : mtype < 0x30) :
    b.dispatchMsg dst mtype id status body = b.emit (.message dst mtype id status body) := by
  have hnone : b.mgmt.relayFrom.find? (fun r => 0x30 ≤ mtype ∧ r.auth.toNat = dst % 256 ∧ r.requestId.toNat = id) = none :=
    List.find?_eq_none.2 fun e _ hx => absurd (of_decide_eq_true hx).1 (by omega)
  unfold Blk.dispatchMsg
  rw [hnone]

theorem send_unasked (b : Blk) (dst mtype id status : Nat) (body : List Byte) (h : mtype < 0x30)
    (hkey : b.on SEC_STATUS.key_ok = true) :
    b.send dst mtype id status body = b.emit (.message dst mtype id status body) := by
  rw [Blk.send, if_pos hkey, dispatchMsg_unasked _ _ _ _ _ _ h]

theorem send_unasked_eq (b : Blk) (dst mtype id status : Nat) (body : List Byte) (h : mtype < 0x30) :
    ∃ out, b.send dst mtype id status body = { b with out := out } := by
  unfold Blk.send
  split
  · exact ⟨_, dispatchMsg_unasked b _ _ _ _ _ h⟩
  · rw [if_neg (by omega)]
    exact ⟨_, rfl⟩

/-- Messages to the fault managers add to what the module sends, and change nothing else. -/
theorem sendFaultMgrs_eq (b : Blk) (mtype : Nat) (body : List Byte) (h : mtype < 0x30) :
    ∃ out, b.sendFaultMgrs mtype body = { b with out := out } :=
  foldl_inv _ (fun c => ∃ out, c = { b with out := out }) _ b ⟨_, rfl⟩ fun c a _ hc => by
    obtain ⟨out, rfl⟩ := hc
    exact send_unasked_eq _ _ _ _ _ _ h

/-! ### The ring (R18, R295) -/

theorem keepRec_eq (b : Blk) (x : EvRec) : ∃ kept, b.keepRec x = b.updEv fun e => { e with kept := kept } := by
  unfold Blk.keepRec
  split
  · exact ⟨b.ev.kept, rfl⟩
  · exact ⟨_, rfl⟩

theorem keepRec_of_low (b : Blk) (x : EvRec) (h : x.severity < 3) : b.keepRec x = b := if_pos h

theorem keepRec_kept_of_room (b : Blk) (x : EvRec) (h : 3 ≤ x.severity) (hroom : b.ev.kept.length < 32) :
    (b.keepRec x).ev.kept = b.ev.kept ++ [x.pack] := by
  have hlen : (b.ev.kept ++ [x.pack]).length - 32 = 0 := by
    rw [List.length_append, List.length_singleton]
    omega
  rw [Blk.keepRec, if_neg (by omega), updEv_ev]
  dsimp only
  rw [hlen, List.drop_zero]

/-- The block with `x` taken from the held records into the ring, at the write index. -/
def ringed (b : Blk) (x : EvRec) : Blk := b.updEv fun e =>
  { e with held := e.held.erase x, ring := Sp.set 0 e.ring (b.rd CTL_EV_WR.index % 4096) x.pack }

/-- The ring takes the next record when its 2 µs have passed; beside it and the write index, only messages and MSI-X vectors
follow. -/
theorem eventCommitFx_eq (b : Blk) (x : EvRec) (hx : b.nextHeld = some x) (hdue : x.time + 2000 ≤ b.now) :
    ∃ out host, eventCommitFx b =
      { ((ringed b x).keepRec x).wr CTL_EV_WR.index (b.rd CTL_EV_WR.index + 1) with out := out, host := host } := by
  obtain ⟨kept, hkept⟩ := keepRec_eq (ringed b x) x
  have hindex : ((ringed b x).keepRec x).incBy CTL_EV_WR.index 1
      = ((ringed b x).keepRec x).wr CTL_EV_WR.index (b.rd CTL_EV_WR.index + 1) := by
    rw [hkept]; rfl
  unfold eventCommitFx
  rw [hx]
  dsimp only
  rw [if_neg (by omega), ← ringed, hindex]
  generalize ((ringed b x).keepRec x).wr CTL_EV_WR.index (b.rd CTL_EV_WR.index + 1) = c
  obtain ⟨out, hout⟩ := sendFaultMgrs_eq c 0x20 (leBytes 4 (b.rd CTL_EV_WR.index) ++ leBytes 32 x.pack.toNat) (by decide)
  have hpush : ∃ out, (if x.severity < 2 then c
      else c.sendFaultMgrs 0x20 (leBytes 4 (b.rd CTL_EV_WR.index) ++ leBytes 32 x.pack.toNat)) = { c with out := out } := by
    split
    · exact ⟨c.out, rfl⟩
    · exact ⟨out, hout⟩
  obtain ⟨out', hout'⟩ := hpush
  rw [hout']
  split
  · exact ⟨out', _, rfl⟩
  · exact ⟨out', c.host, rfl⟩

/-- R18, R295: the ring takes the record, and the write index moves on. -/
theorem commit_enters_ring (s : State) (x : EvRec) (hx : s.blk.nextHeld = some x) (hdue : x.time + 2000 ≤ s.blk.now) :
    Does .eventRecordCommit s fun b =>
      Sp.get 0 b.ev.ring (s.blk.rd CTL_EV_WR.index % 4096) = x.pack ∧ b.ev.held = s.blk.ev.held.erase x
        ∧ (∀ i, i ≠ s.blk.rd CTL_EV_WR.index % 4096 → Sp.get 0 b.ev.ring i = Sp.get 0 s.blk.ev.ring i)
        ∧ b.rd CTL_EV_WR.index = (s.blk.rd CTL_EV_WR.index + 1) % 2 ^ CTL_EV_WR.index.w
        ∧ (x.severity < 3 → b.ev.kept = s.blk.ev.kept)
        ∧ (3 ≤ x.severity → s.blk.ev.kept.length < 32 → b.ev.kept = s.blk.ev.kept ++ [x.pack])
        ∧ RegsKeep [.ctlEvWr] s.blk b := by
  refine does_of_onBlk (f := eventCommitFx) rfl ?_
  obtain ⟨out, host, hfx⟩ := eventCommitFx_eq s.blk x hx hdue
  obtain ⟨kept, hkept⟩ := keepRec_eq (ringed s.blk x) x
  have hev : (eventCommitFx s.blk).ev = ((ringed s.blk x).keepRec x).ev := by rw [hfx]; rfl
  have hreg : ∀ r, (eventCommitFx s.blk).reg r = (s.blk.wr CTL_EV_WR.index (s.blk.rd CTL_EV_WR.index + 1)).reg r := by
    intro r
    rw [hfx, hkept]
    rfl
  refine ⟨?_, ?_, fun i hi => ?_, ?_, fun hlow => ?_, fun hhigh hroom => ?_, fun r hr => ?_⟩
  · rw [hev, hkept]
    exact Sp.get_set_same ..
  · rw [hev, hkept]
    rfl
  · rw [hev, hkept]
    exact Sp.get_set_ne _ _ _ _ _ hi
  · rw [Blk.rd, hreg, ← Blk.rd, wr_rd_same _ _ _ (by decide)]
  · rw [hev, keepRec_of_low _ _ hlow]
    rfl
  · rw [hev]
    exact keepRec_kept_of_room _ _ hhigh hroom
  · rw [hreg]
    exact wr_reg_of _ _ .ctlEvWr _ _ rfl (by simpa using hr)

/-! ### Coalescing and status (R296, R307) -/

theorem flush_closes_millisecond (s : State) (c : Coal) (hc : s.blk.ev.coal = [c]) (hdue : c.opened + 1000000 ≤ s.blk.now) :
    Does .eventCoalesceFlush s fun b => b = { s.blk with ev := { s.blk.ev with
      coal := [], held := s.blk.ev.held ++ if c.count = 0 then [] else [c.followUp] } } := by
  refine does_of_onBlk (f := coalesceFlushFx) rfl ?_
  have hfind : s.blk.ev.coal.find? (fun c => c.opened + 1000000 ≤ s.blk.now) = some c := by
    rw [hc, List.find?_singleton, if_pos (decide_eq_true hdue)]
  have hclosed : (s.blk.updEv fun e => { e with coal := e.coal.erase c })
      = { s.blk with ev := { s.blk.ev with coal := [] } } := by
    rw [Blk.updEv, hc, List.erase_cons_head]
  unfold coalesceFlushFx
  rw [hfind]
  dsimp only
  rw [hclosed]
  split
  · rw [List.append_nil]
  · rfl

theorem status_is_sent (s : State) (a : Nat) (hon : s.blk.dstate ≠ stOff)
    (hdue : s.blk.ras.lastStatus + 1000000000 ≤ s.blk.now) (hfm : s.blk.faultMgrs = [a])
    (hkey : s.blk.on SEC_STATUS.key_ok = true) :
    Does .statusMessage s fun b => b.ras = { s.blk.ras with lastStatus := s.blk.now }
      ∧ b.out = s.blk.out ++ [.message a 0x21 0 0 (leBytes 8 (s.blk.reg .ctlState) ++ leBytes 8 (s.blk.reg .ctlEvWr)
        ++ leBytes 8 s.blk.now ++ leBytes 4 (s.blk.rd CTL_BOOT.plan_serial))] ∧ b.regs = s.blk.regs := by
  refine does_of_onBlk (f := statusFx) rfl ?_
  have hgate : ¬(s.blk.dstate = stOff ∨ s.blk.now < s.blk.ras.lastStatus + 1000000000) := by
    rintro (hoff | hearly)
    · exact hon hoff
    · omega
  have hmgrs : (s.blk.updRas fun r => { r with lastStatus := s.blk.now }).faultMgrs = [a] := hfm
  rw [statusFx, if_neg hgate]
  dsimp only
  rw [Blk.sendFaultMgrs, hmgrs, List.foldl_cons, List.foldl_nil, send_unasked _ _ _ _ _ _ (by decide) (by simpa using hkey)]
  exact ⟨rfl, rfl, rfl⟩

/-- Settles O23: the order of the ring, the entry of a record, the end of a coalescing millisecond and the status message. -/
theorem eventsEnterTheRingAndAreReported : Obligations.EventsEnterTheRingAndAreReported :=
  ⟨fun _ _ hx => ⟨fun y hy => (before_iff ..).1 (nextHeld_before hx y hy), nextHeld_first hx⟩,
    commit_enters_ring, flush_closes_millisecond, status_is_sent⟩

end Sys2Proof.Proofs
end

section
/-!
PROOFS. What a command leaves alone: registers outside a list, and, for the time block, everything but registers, its own state,
events and votes.
-/
namespace Sys2Proof.Proofs
open Sys2Proof Sys2Proof.Machine Sys2Proof.Says

/-! ### Registers outside a list -/

theorem regsKeep_refl (l : List Reg) (b : Blk) : RegsKeep l b b := fun _ _ => rfl

theorem regsKeep_trans {l : List Reg} {b c d : Blk} (hbc : RegsKeep l b c) (hcd : RegsKeep l c d) : RegsKeep l b d :=
  fun r hr => (hcd r hr).trans (hbc r hr)

theorem regsKeep_mono {l m : List Reg} {b c : Blk} (h : RegsKeep l b c) (hm : ∀ r ∈ l, r.addr ∈ m.map Reg.addr) :
    RegsKeep m b c := fun r hr => h r fun hl => by
  obtain ⟨q, hq, hqr⟩ := List.mem_map.1 hl
  exact hr (hqr ▸ hm q hq)

theorem regsKeep_of_regs {b c : Blk} (l : List Reg) (hpart : c.part = b.part) (h : c.regs = b.regs) : RegsKeep l b c :=
  fun r _ => by rw [Blk.reg, Blk.reg, hpart, h]

theorem regsKeep_wr {l : List Reg} (b : Blk) (f : Fld) (v : Nat) (hf : f.reg.addr ∈ l.map Reg.addr) :
    RegsKeep l b (b.wr f v) := fun r hr => wr_reg_ne b f r v fun h => hr (h ▸ hf)

theorem regsKeep_foldl {α : Type} {l : List Reg} (f : Blk → α → Blk) (as : List α) (b : Blk)
    (h : ∀ c, ∀ a ∈ as, RegsKeep l c (f c a)) : RegsKeep l b (as.foldl f b) :=
  foldl_inv f (RegsKeep l b) as b (regsKeep_refl l b) fun c a ha hc => regsKeep_trans hc (h c a ha)

/-- A field of a register outside the list reads as before. -/
theorem regsKeep_rd {l : List Reg} {b c : Blk} (h : RegsKeep l b c) (f : Fld) (hf : f.reg.addr ∉ l.map Reg.addr) :
    c.rd f = b.rd f := by rw [Blk.rd, h _ hf, Blk.rd]

/-- Only registers of the list may differ. -/
def RegsOnly (l : List Reg) (b c : Blk) : Prop := RegsKeep l b c ∧ c = { b with regs := c.regs }

theorem regsOnly_refl (l : List Reg) (b : Blk) : RegsOnly l b b := ⟨regsKeep_refl l b, rfl⟩

theorem regsOnly_trans {l : List Reg} {b c d : Blk} (hbc : RegsOnly l b c) (hcd : RegsOnly l c d) : RegsOnly l b d := by
  obtain ⟨hkeep, hb⟩ := hbc
  obtain ⟨hkeep', hc⟩ := hcd
  refine ⟨regsKeep_trans hkeep hkeep', ?_⟩
  rw [hc, hb]

theorem regsOnly_mono {l m : List Reg} {b c : Blk} (h : RegsOnly l b c) (hm : ∀ r ∈ l, r.addr ∈ m.map Reg.addr) :
    RegsOnly m b c := ⟨regsKeep_mono h.1 hm, h.2⟩

theorem regsOnly_wr {l : List Reg} {b c : Blk} {f : Fld} {v : Nat} (h : RegsOnly l b c) (hf : f.reg.addr ∈ l.map Reg.addr) :
    RegsOnly l b (c.wr f v) := regsOnly_trans h ⟨regsKeep_wr c f v hf, rfl⟩

theorem regsOnly_wr_self {r : Reg} {b c : Blk} {f : Fld} {v : Nat} (h : RegsOnly [r] b c) (hf : f.reg = r) :
    RegsOnly [r] b (c.wr f v) := regsOnly_wr h (by simp [hf])

theorem regsOnly_rd {l : List Reg} {b c : Blk} (h : RegsOnly l b c) (f : Fld) (hf : f.reg.addr ∉ l.map Reg.addr) :
    c.rd f = b.rd f := regsKeep_rd h.1 f hf

theorem regsOnly_time {l : List Reg} {b c : Blk} (h : RegsOnly l b c) : c.time = b.time := by rw [h.2]
theorem regsOnly_ev {l : List Reg} {b c : Blk} (h : RegsOnly l b c) : c.ev = b.ev := by rw [h.2]

/-! ### The performance counters (R378) -/

theorem regsKeep_perf (b : Blk) (die ev u n : Nat) : RegsKeep (perfRegs die) b (b.perf die ev u n) := by
  unfold Blk.perf
  split
  · exact regsKeep_refl _ b
  · refine regsKeep_foldl _ _ b fun c i hi => ?_
    split
    · exact regsKeep_wr c _ _ (List.mem_map_of_mem (List.mem_map_of_mem hi))
    · exact regsKeep_refl _ c

/-- The counters of the dies that have a performance block. -/
def allPerfRegs : List Reg := (List.range 19).flatMap perfRegs

theorem regsKeep_perf_all (b : Blk) (die ev u n : Nat) (hd : die < 19) : RegsKeep allPerfRegs b (b.perf die ev u n) :=
  regsKeep_mono (regsKeep_perf b die ev u n) fun _ hr =>
    List.mem_map_of_mem (List.mem_flatMap.2 ⟨die, List.mem_range.2 hd, hr⟩)

theorem regsKeep_countTime (b : Blk) : RegsKeep allPerfRegs b b.countTime := by
  unfold Blk.countTime
  dsimp only
  split
  · exact regsKeep_refl _ b
  · refine regsKeep_trans (c := (List.range 4).foldl _ _) (regsKeep_trans ?_ (regsKeep_foldl _ _ _ fun c md hmd => ?_))
      (regsKeep_foldl _ _ _ fun c p hp => ?_)
    · split
      · exact regsKeep_refl _ b
      · exact regsKeep_foldl _ _ b fun c cd hcd => regsKeep_perf_all c _ _ _ _ (by have := List.mem_range.1 hcd; omega)
    · exact regsKeep_perf_all c _ _ _ _ (by have := List.mem_range.1 hmd; omega)
    · have hdie : portDie p < 19 := by have := List.mem_range.1 hp; unfold portDie; omega
      split
      · exact regsKeep_refl _ c
      · exact regsKeep_trans (regsKeep_perf_all c _ _ _ _ hdie) (regsKeep_perf_all _ _ _ _ _ hdie)

/-- The counters lie past offset 0x4_0000 and below offset 0xB_0000 of their dies. -/
theorem notMem_allPerfRegs {a : Nat} (ha : a < hubBase + 0x40000 ∨ hubBase + 0xB0000 ≤ a ∧ a < hubBase + 0x1000000) :
    a ∉ allPerfRegs.map Reg.addr := by
  intro h
  obtain ⟨r, hr, rfl⟩ := List.mem_map.1 h
  obtain ⟨die, -, hr⟩ := List.mem_flatMap.1 hr
  obtain ⟨i, hi, rfl⟩ := List.mem_map.1 hr
  have hi := List.mem_range.1 hi
  have haddr : (Reg.perfCnt die i).addr = perfBase die + 0x80 + i * 8 := rfl
  rw [haddr, perfBase, dieBase, hubBase] at ha
  split at ha
  · omega
  · split at ha <;> omega

end Sys2Proof.Proofs
end

section
/-!
PROOFS. The whole block: the command in front, and the tick of an empty queue (R24, R25, R378).
-/
namespace Sys2Proof.Proofs
open Sys2Proof Sys2Proof.Machine Sys2Proof.Says

theorem step_cons {s : State} {c : Instr} {rest : List Instr} (h : s.pending = c :: rest) :
    step s = exec c { s with pending := rest } := by rw [step, h]

theorem step_nil {s : State} (h : s.pending = []) : step s = onBlk s Blk.passTime := by rw [step, h]

/-- Where no image is in force and nothing waits to cross, a tick counts and moves the time. -/
theorem passTime_unlocked (b : Blk) (hlock : b.locked = false) (hcross : b.crossing = []) :
    b.passTime = b.countTime.tick := by
  have hkeep := regsKeep_countTime b
  have hstate : b.countTime.tick.dstate = b.dstate := by
    rw [tick_eq]
    exact regsKeep_rd hkeep CTL_STATE.state (notMem_allPerfRegs (by decide))
  have hlock' : b.countTime.tick.locked = false := by rw [Blk.locked, hstate, ← hlock, Blk.locked]
  have hcross' : b.countTime.tick.crossing = [] := by rw [tick_eq, countTime_eq]; exact hcross
  rw [Blk.passTime, placeImage_unlocked _ hlock', carryLinks_none _ hcross']

/-- Up to STANDBY nothing is counted. -/
theorem countTime_standby (b : Blk) (h : b.dstate ≤ stStandby) : b.countTime = b := if_pos h

theorem tick_off (b : Blk) (h : b.dstate = stOff) : b.tick = b := if_pos h

/-- A tick in any other state: one nanosecond and the rate adjustment (R24, R25). -/
theorem countTime_tick (b : Blk) (h : b.dstate ≠ stOff) :
    b.countTime.tick = { b with regs := b.countTime.regs, time := { b.time with
      mtc := b.time.mtc + BitVec.ofInt 104 ((2 : Int) ^ 40 + sext 32 (b.rd MTC_RATE.adj)) } } := by
  have hkeep := regsKeep_countTime b
  have hstate : b.countTime.dstate = b.dstate := regsKeep_rd hkeep CTL_STATE.state (notMem_allPerfRegs (by decide))
  have hadj : b.countTime.rd MTC_RATE.adj = b.rd MTC_RATE.adj := regsKeep_rd hkeep _ (notMem_allPerfRegs (by decide))
  rw [Blk.tick, if_neg (hstate ▸ h), Blk.rdI, hadj, countTime_eq b]
  rfl

/-- Settles O26: the step's own case split, and on an empty queue what counting and the tick change. -/
theorem stepRunsTheCommandInFront : Obligations.StepRunsTheCommandInFront := by
  refine ⟨fun c rest s h => step_cons h, fun s hq hlock hcross => ⟨fun hoff => ?_, fun hon => ?_⟩⟩
  · have hstandby : s.blk.dstate ≤ stStandby := by rw [hoff]; decide
    rw [step_nil hq, onBlk, passTime_unlocked _ hlock hcross, countTime_standby _ hstandby, tick_off _ hoff]
  · refine ⟨s.blk.passTime, step_nil hq, ?_⟩
    rw [passTime_unlocked _ hlock hcross, countTime_tick _ hon]
    have hpart : s.blk.part = s.blk.countTime.part := by rw [countTime_eq]
    refine ⟨rfl, regsKeep_trans (regsKeep_countTime s.blk) (regsKeep_of_regs _ hpart rfl), fun h => ?_⟩
    show s.blk.countTime.regs = s.blk.regs
    rw [countTime_standby s.blk (Nat.le_of_eq h)]

end Sys2Proof.Proofs
end

section
/-!
PROOFS. What the operations of machine time leave alone, and what they leave in the time block (R24 to R39).
-/
namespace Sys2Proof.Proofs
open Sys2Proof Sys2Proof.Machine Sys2Proof.Says

/-! ### Everything but listed registers, time, events and votes -/

theorem timeOnly_refl (l : List Reg) (b : Blk) : TimeOnly l b b := ⟨regsKeep_refl l b, rfl⟩

theorem timeOnly_trans {l : List Reg} {b c d : Blk} (hbc : TimeOnly l b c) (hcd : TimeOnly l c d) : TimeOnly l b d := by
  obtain ⟨hkeep, hb⟩ := hbc
  obtain ⟨hkeep', hc⟩ := hcd
  refine ⟨regsKeep_trans hkeep hkeep', ?_⟩
  rw [hc, hb]

theorem timeOnly_mono {l m : List Reg} {b c : Blk} (h : TimeOnly l b c) (hm : ∀ r ∈ l, r.addr ∈ m.map Reg.addr) :
    TimeOnly m b c := ⟨regsKeep_mono h.1 hm, h.2⟩

theorem timeOnly_regsOnly {l : List Reg} {b c d : Blk} (h : TimeOnly l b c) (hd : RegsOnly l c d) : TimeOnly l b d :=
  timeOnly_trans h ⟨hd.1, by rw [hd.2]⟩

theorem timeOnly_wr {l : List Reg} {b c : Blk} {f : Fld} {v : Nat} (h : TimeOnly l b c) (hf : f.reg.addr ∈ l.map Reg.addr) :
    TimeOnly l b (c.wr f v) := timeOnly_trans h ⟨regsKeep_wr c f v hf, rfl⟩

theorem timeOnly_updTime {l : List Reg} {b c : Blk} {f : TimeSt → TimeSt} (h : TimeOnly l b c) : TimeOnly l b (c.updTime f) :=
  timeOnly_trans h ⟨regsKeep_refl l c, rfl⟩

theorem timeOnly_updPtime {l : List Reg} {b c : Blk} {p : Nat} {f : PortTime → PortTime} (h : TimeOnly l b c) :
    TimeOnly l b (c.updPtime p f) := timeOnly_updTime h

theorem timeOnly_modFail {l : List Reg} {b c : Blk} (h : TimeOnly l b c) : TimeOnly l b c.modFail := by
  refine timeOnly_trans h ?_
  rw [modFail_eq]
  exact ⟨regsKeep_refl l c, rfl⟩

theorem timeOnly_raiseInj {l : List Reg} {b c : Blk} {inj : Bool} {die unit code detail : Nat} (h : TimeOnly l b c)
    (hc : coalesced code = false) (h9 : code ≠ 0x0901) : TimeOnly l b (c.raiseInj inj die unit code detail) := by
  refine timeOnly_trans h ?_
  rw [raiseInj_eq, raiseInj_out c inj die unit code detail hc h9]
  exact ⟨regsKeep_refl l c, rfl⟩

theorem timeOnly_foldl {α : Type} {l : List Reg} {b c : Blk} {f : Blk → α → Blk} {as : List α} (hb : TimeOnly l b c)
    (h : ∀ c, ∀ a ∈ as, TimeOnly l b c → TimeOnly l b (f c a)) : TimeOnly l b (as.foldl f c) :=
  foldl_inv f (TimeOnly l b) as c hb h

theorem timeOnly_ifB {l : List Reg} {b c : Blk} {x : Bool} {f : Blk → Blk} (h : TimeOnly l b c)
    (hf : TimeOnly l b (f c)) : TimeOnly l b (ifB x f c) := by
  cases x
  · exact h
  · exact hf

theorem timeOnly_rd {l : List Reg} {b c : Blk} (h : TimeOnly l b c) (f : Fld) (hf : f.reg.addr ∉ l.map Reg.addr) :
    c.rd f = b.rd f := regsKeep_rd h.1 f hf

theorem timeOnly_ras {l : List Reg} {b c : Blk} (h : TimeOnly l b c) : c.ras = b.ras := by rw [h.2]

/-! ### The registers of the time block -/

theorem mtcStatus_addr : Reg.mtcStatus.addr = hubBase + 0x10010 := rfl
theorem mtcRate_addr : Reg.mtcRate.addr = hubBase + 0x10020 := rfl
theorem mtcPortStat_addr (p : Nat) : (Reg.mtcPortStat p).addr = hubBase + 0x10000 + 0x80 + p * 8 := rfl
theorem mtcPortCal_addr (p : Nat) : (Reg.mtcPortCal p).addr = hubBase + 0x10000 + 0x100 + p * 8 := rfl

/-- The ports' registers lie past the block's own (R24). -/
theorem notMem_portStats {a : Nat} (h : a < hubBase + 0x10080 ∨ hubBase + 0x100D0 ≤ a) : a ∉ portStats.map Reg.addr := by
  intro hm
  obtain ⟨r, hr, rfl⟩ := List.mem_map.1 hm
  obtain ⟨p, hp, rfl⟩ := List.mem_map.1 hr
  have hp := List.mem_range.1 hp
  rw [mtcPortStat_addr] at h
  omega

theorem updTime_congr (b : Blk) {f g : TimeSt → TimeSt} (h : f b.time = g b.time) : b.updTime f = b.updTime g := by
  rw [Blk.updTime, h, Blk.updTime]

/-! ### Events -/

theorem raiseInj_time (b : Blk) (inj : Bool) (die unit code detail : Nat) :
    (b.raiseInj inj die unit code detail).time = b.time := by rw [raiseInj_eq]

/-- An event that is not coalesced is detected, and nothing else (R294). -/
theorem raiseInj_raised (b : Blk) (inj : Bool) (die unit code detail : Nat) (hc : coalesced code = false) (h9 : code ≠ 0x0901) :
    Raised die unit code detail b (b.raiseInj inj die unit code detail) := ⟨_, raiseInj_ev b inj die unit code detail hc h9⟩

/-- Only the events and the time of the blocks matter to what has been raised. -/
theorem raised_congr {die unit code detail : Nat} {b b' c c' : Blk} (hev : b.ev = b'.ev) (hnow : b.now = b'.now)
    (hev' : c.ev = c'.ev) (h : Raised die unit code detail b c) : Raised die unit code detail b' c' := by
  unfold Raised at *
  rwa [← hev, ← hnow, ← hev']

/-! ### Fields of MTC_STATUS -/

theorem rd_eq_one_of_on {b : Blk} {f : Fld} (hw : f.w = 1) (h : b.on f = true) : b.rd f = 1 := by
  have hlt := rd_lt b f
  rw [hw] at hlt
  have hne : b.rd f ≠ 0 := by simpa [Blk.on] using h
  omega

/-! ### Numbers -/

/-- A field that holds `v` in two's complement reads as `v`. -/
theorem sext_wrapInt (w : Nat) (v : Int) (hw : 0 < w) (hlo : -(2 : Int) ^ (w - 1) ≤ v) (hhi : v < (2 : Int) ^ (w - 1)) :
    sext w (wrapInt w v % 2 ^ w) = v := by
  obtain ⟨n, rfl⟩ : ∃ n, w = n + 1 := ⟨w - 1, by omega⟩
  rw [Nat.add_sub_cancel] at hlo hhi
  have hpos : (0 : Int) < 2 ^ n := by positivity
  have htwo : (2 : Int) ^ (n + 1) = 2 * 2 ^ n := by rw [pow_succ]; ring
  have hcast : ((2 ^ (n + 1) : Nat) : Int) = 2 * 2 ^ n := by push_cast; exact htwo
  have hnat : ((wrapInt (n + 1) v : Nat) : Int) = v % (2 * 2 ^ n) := by
    rw [wrapInt, htwo, Int.toNat_of_nonneg (Int.emod_nonneg _ (by omega))]
  have hlt : wrapInt (n + 1) v < 2 ^ (n + 1) := by
    have := Int.emod_lt_of_pos v (show (0 : Int) < 2 * 2 ^ n by omega)
    zify
    rw [hnat, htwo]
    exact this
  have hcastn : ((2 ^ n : Nat) : Int) = 2 ^ n := by push_cast; rfl
  rw [sext, Nat.mod_eq_of_lt (Nat.mod_lt _ (Nat.two_pow_pos _)), Nat.mod_eq_of_lt hlt, Nat.add_sub_cancel]
  rw [htwo]
  by_cases hv : 0 ≤ v
  · rw [Int.emod_eq_of_lt hv (by omega)] at hnat
    rw [if_pos (by zify; omega), hnat]
  · have hmod : v % (2 * 2 ^ n) = v + 2 * 2 ^ n := by
      rw [← Int.add_emod_right, Int.emod_eq_of_lt (by omega) (by omega)]
    rw [hmod] at hnat
    rw [if_neg (by zify; omega), hnat]
    omega

/-- A 32-bit signed field that was written reads as the value written. -/
theorem wr_rdI_same (b : Blk) (f : Fld) (v : Int) (hw : f.w = 32) (h64 : f.lo + 32 ≤ 64)
    (hv : -(2 : Int) ^ 31 ≤ v ∧ v < (2 : Int) ^ 31) : (b.wr f (wrapInt 32 v)).rdI f = v := by
  rw [Blk.rdI, wr_rd_same _ _ _ (hw ▸ h64), hw, sext_wrapInt 32 v (by decide) hv.1 hv.2]

theorem sat32_bounds (x : Int) : -(2 : Int) ^ 31 ≤ max (-(2 ^ 31)) (min (2 ^ 31 - 1) x) ∧
    max (-(2 ^ 31)) (min (2 ^ 31 - 1) x) < (2 : Int) ^ 31 := by omega

theorem adjClamp_bounds (x : Int) : -(2 : Int) ^ 31 ≤ adjClamp x ∧ adjClamp x < (2 : Int) ^ 31 := by
  unfold adjClamp; omega

end Sys2Proof.Proofs
end

section
/-!
PROOFS. Timestamps (R28, R29, R38): what an arriving set adds to its port's period.
-/
namespace Sys2Proof.Proofs
open Sys2Proof Sys2Proof.Machine Sys2Proof.Says

theorem updPtime_ptime_same (b : Blk) (p : Nat) (f : PortTime → PortTime) : (b.updPtime p f).ptime p = f (b.ptime p) :=
  Sp.get_set_same ..

theorem updPtime_ptime_ne (b : Blk) {p q : Nat} (f : PortTime → PortTime) (h : q ≠ p) : (b.updPtime p f).ptime q = b.ptime q :=
  Sp.get_set_ne _ _ _ _ _ h

theorem wr_ptime (b : Blk) (f : Fld) (v p : Nat) : (b.wr f v).ptime p = b.ptime p := rfl

theorem fire_none (b : Blk) (det : Nat) (sel : Inject → Bool) (h : NoInj b) : b.fire det sel = (none, b) := by
  unfold Blk.fire
  rw [show b.ras.injects = [] from h]
  rfl

/-- The port's registers, the time-block's own state and the status register are all that a timestamp set moves. -/
abbrev setRegs (p : Nat) : List Reg := [.mtcStatus, .mtcPortStat p]

/-- A set is heard: the advertised root, and what the sender says of itself (R28). -/
def heard (p x : Nat) (b : Blk) : Blk :=
  let b' := ifB (bits x 24 6 < 63) (fun b => b.updTime fun t => { t with noRootSince := b.now }) b
  (b'.updPtime p fun t =>
    { t with lastRxSeq := bits x 8 8, lastRxAt := b.now16, nbHops := bits x 24 6, nbRoot := bit x 30, nbHoldover := bit x 31 }).wr
    (MTC_PORT_STAT.hops p) (bits x 24 6)

theorem timeOnly_heard (p x : Nat) (b : Blk) : TimeOnly (setRegs p) b (heard p x b) := by
  unfold heard
  refine timeOnly_wr (timeOnly_updPtime ?_) (by simp [setRegs, MTC_PORT_STAT.hops])
  exact timeOnly_ifB (timeOnly_refl _ b) (timeOnly_updTime (timeOnly_refl _ b))

/-- The calibration of a port stands apart from what the exchange writes. -/
theorem asym_notMem_setRegs (p : Nat) (hp : p < 10) : (MTC_PORT_CAL.asym p).reg.addr ∉ (setRegs p).map Reg.addr := by
  simp only [setRegs, MTC_PORT_CAL.asym, List.map_cons, List.map_nil, mtcPortCal_addr, mtcStatus_addr, mtcPortStat_addr,
    List.mem_cons, List.not_mem_nil, or_false]
  omega

/-- An offset of a port in service is compared with the limit (R38). -/
def compared (p : Nat) (off : Int) (b : Blk) : Blk :=
  if ¬b.inService p then b
  else if b.rd MTC_SKEW_LIMIT.limit_ps * 2 ^ 32 < off.natAbs * 1000 then
    let run := (b.ptime p).overRun + 1
    let b := b.updPtime p fun t => { t with overRun := run }
    if run = 2 then b.skewEvent false 0 p (sat32 (off * 1000 / ns32))
    else if 2 < run ∧ b.locked then b.modFail
    else b
  else b.updPtime p fun t => { t with overRun := 0 }

/-- The set of its own that an arriving one answers (R29). -/
def answered (b : Blk) (p x : Nat) : Option SentSet :=
  (b.ptime p).sent.find? fun t => t.seq = bits x 16 8 ∧ b.now16 < t.at16 + 64000 * 2 ^ 16

/-- The round trip that `t` and the arriving set give, less the turn-round at the far end (R29). -/
def roundTrip (b : Blk) (x : Nat) (t : SentSet) : Int := (b.now16 : Int) - t.at16 - bits x 112 32

theorem timestampFx_eq (p : Port) (set : BitVec 160) (b : Blk) (hlive : b.pLive p.val = true) (h5A : bits set.toNat 0 8 = 0x5A)
    (hinj : NoInj b) : timestampFx p set b =
      match answered b p.val set.toNat with
      | none => (heard p.val set.toNat b).satBy (MTC_PORT_STAT.discards p.val) 1
      | some t => if roundTrip b set.toNat t < 0 ∨ 50000 * 2 ^ 16 < roundTrip b set.toNat t then
            (heard p.val set.toNat b).satBy (MTC_PORT_STAT.discards p.val) 1
          else compared p.val (offsetOf b p.val set.toNat t.at16) ((heard p.val set.toNat b).updPtime p.val fun u =>
            { u with samples := u.samples ++ [offsetOf b p.val set.toNat t.at16] }) := by
  have hadd : ∀ x y : Int, x + (y + b.rdI (MTC_PORT_CAL.asym p.val) * ns32 / 1000) + 0 * ns32 / 1000
      = x + y + b.rdI (MTC_PORT_CAL.asym p.val) * 2 ^ 32 / 1000 := fun x y => by simp [ns32, add_assoc]
  have hheard : NoInj (heard p.val set.toNat b) := by
    rw [NoInj, timeOnly_ras (timeOnly_heard ..)]; exact hinj
  have hasym : (heard p.val set.toNat b).rdI (MTC_PORT_CAL.asym p.val) = b.rdI (MTC_PORT_CAL.asym p.val) := by
    rw [Blk.rdI, timeOnly_rd (timeOnly_heard ..) _ (asym_notMem_setRegs _ p.isLt), Blk.rdI]
  rw [timestampFx, if_neg (by simp [hlive, h5A])]
  change (match answered b p.val set.toNat with
    | none => (heard p.val set.toNat b).satBy (MTC_PORT_STAT.discards p.val) 1
    | some s => _) = _
  cases answered b p.val set.toNat with
  | none => rfl
  | some t =>
    simp only
    change (if roundTrip b set.toNat t < 0 ∨ 50000 * 2 ^ 16 < roundTrip b set.toNat t then _ else _) = _
    split
    · rfl
    · have hnone := fire_none (heard p.val set.toNat b) 0x0B (fun i => bits i.arg 32 4 = p.val) hheard
      dsimp only [heard] at hnone hasym
      simp only [hnone, hasym, hadd, Option.isSome_none]
      rfl

/-! ### What the exchange leaves -/

/-- Port `p` has heard set `x`: what it holds of its neighbour and its period, its register, and that nothing else has changed. -/
def Exchanged (p x : Nat) (samples : List Int) (discards : Nat) (b c : Blk) : Prop :=
  c.ptime p = { b.ptime p with
      lastRxSeq := bits x 8 8, lastRxAt := b.now16, nbHops := bits x 24 6, nbRoot := bit x 30, nbHoldover := bit x 31,
      samples := samples, overRun := (c.ptime p).overRun }
    ∧ (∀ q, q ≠ p → c.ptime q = b.ptime q) ∧ c.time.mtc = b.time.mtc ∧ c.rd (MTC_PORT_STAT.hops p) = bits x 24 6
    ∧ c.rd (MTC_PORT_STAT.discards p) = discards ∧ TimeOnly (setRegs p) b c

theorem wr_hops_discards (b : Blk) (p v : Nat) :
    (b.wr (MTC_PORT_STAT.hops p) v).rd (MTC_PORT_STAT.discards p) = b.rd (MTC_PORT_STAT.discards p) :=
  wr_rd_disj b _ _ v rfl (by simp [MTC_PORT_STAT.hops, MTC_PORT_STAT.discards]) (by simp [MTC_PORT_STAT.discards])

theorem wr_discards_hops (b : Blk) (p v : Nat) :
    (b.wr (MTC_PORT_STAT.discards p) v).rd (MTC_PORT_STAT.hops p) = b.rd (MTC_PORT_STAT.hops p) :=
  wr_rd_disj b _ _ v rfl (by simp [MTC_PORT_STAT.hops, MTC_PORT_STAT.discards]) (by simp [MTC_PORT_STAT.hops])

theorem updTime_noRoot_ptime (b : Blk) (x : Bool) (q : Nat) :
    (ifB x (fun b => b.updTime fun t => { t with noRootSince := b.now }) b).ptime q = b.ptime q := by cases x <;> rfl

theorem heard_exchanged (p x : Nat) (b : Blk) :
    Exchanged p x (b.ptime p).samples (b.rd (MTC_PORT_STAT.discards p)) b (heard p x b) := by
  refine ⟨?_, fun q hq => ?_, ?_, ?_, ?_, timeOnly_heard p x b⟩ <;> unfold heard <;> dsimp only
  · rw [wr_ptime, updPtime_ptime_same, updTime_noRoot_ptime]
  · rw [wr_ptime, updPtime_ptime_ne _ _ hq, updTime_noRoot_ptime]
  · rw [wr_time]
    cases decide (bits x 24 6 < 63) <;> rfl
  · rw [wr_rd_same _ _ _ (by simp [MTC_PORT_STAT.hops])]
    exact Nat.mod_eq_of_lt (bits_lt ..)
  · rw [wr_hops_discards, updPtime_rd]
    cases decide (bits x 24 6 < 63) <;> rfl

/-- Writing other registers, the events and the votes keeps what the exchange left. -/
theorem exchanged_congr {p x n : Nat} {l : List Int} {b c d : Blk} (h : Exchanged p x l n b c) (htime : d.time = c.time)
    (hreg : d.reg (.mtcPortStat p) = c.reg (.mtcPortStat p)) (hd : TimeOnly (setRegs p) b d) : Exchanged p x l n b d := by
  obtain ⟨hp, hq, hmtc, hhops, hdisc, -⟩ := h
  have hpt : ∀ q, d.ptime q = c.ptime q := fun q => by rw [Blk.ptime, htime, Blk.ptime]
  refine ⟨by rw [hpt, ← hp], fun q hne => by rw [hpt, hq q hne], by rw [htime, hmtc], ?_, ?_, hd⟩
  · rw [← hhops]; simp only [Blk.rd, MTC_PORT_STAT.hops, hreg]
  · rw [← hdisc]; simp only [Blk.rd, MTC_PORT_STAT.discards, hreg]

theorem exchanged_discard {p x n : Nat} {l : List Int} {b c : Blk} (h : Exchanged p x l n b c) :
    Exchanged p x l (min (n + 1) (2 ^ 16 - 1)) b (c.satBy (MTC_PORT_STAT.discards p) 1) := by
  obtain ⟨hp, hq, hmtc, hhops, hdisc, honly⟩ := h
  refine ⟨?_, fun q hne => ?_, ?_, ?_, ?_, timeOnly_wr honly (by simp [setRegs, MTC_PORT_STAT.discards])⟩
  · rw [satBy_eq, wr_ptime, ← hp]
  · rw [satBy_eq, wr_ptime, hq q hne]
  · rw [satBy_eq, wr_time, hmtc]
  · rw [satBy_eq, wr_discards_hops, hhops]
  · rw [satBy_rd_same _ _ _ (by simp [MTC_PORT_STAT.discards]), hdisc]
    rfl

theorem exchanged_sample {p x n : Nat} {l m : List Int} {b c : Blk} (h : Exchanged p x l n b c) :
    Exchanged p x (l ++ m) n b (c.updPtime p fun u => { u with samples := u.samples ++ m }) := by
  obtain ⟨hp, hq, hmtc, hhops, hdisc, honly⟩ := h
  refine ⟨?_, fun q hne => ?_, hmtc, hhops, hdisc, timeOnly_updPtime honly⟩
  · rw [updPtime_ptime_same, hp]
  · rw [updPtime_ptime_ne _ _ hne, hq q hne]

theorem exchanged_overRun {p x n : Nat} {l : List Int} {b c : Blk} (h : Exchanged p x l n b c) (k : Nat) :
    Exchanged p x l n b (c.updPtime p fun u => { u with overRun := k }) := by
  obtain ⟨hp, hq, hmtc, hhops, hdisc, honly⟩ := h
  refine ⟨?_, fun q hne => ?_, hmtc, hhops, hdisc, timeOnly_updPtime honly⟩
  · rw [updPtime_ptime_same, hp]
  · rw [updPtime_ptime_ne _ _ hne, hq q hne]

theorem exchanged_modFail {p x n : Nat} {l : List Int} {b c : Blk} (h : Exchanged p x l n b c) :
    Exchanged p x l n b c.modFail := by
  have hm := modFail_eq c
  exact exchanged_congr h (by rw [hm]) (by rw [hm]; rfl) (timeOnly_modFail h.2.2.2.2.2)

theorem exchanged_skewEvent {p x n : Nat} {l : List Int} {b c : Blk} (h : Exchanged p x l n b c) (inj : Bool)
    (cause port val : Nat) : Exchanged p x l n b (c.skewEvent inj cause port val) := by
  unfold Blk.skewEvent
  extract_lets d
  have hd : Exchanged p x l n b d := exchanged_congr h (raiseInj_time ..) (raiseInj_reg ..)
    (timeOnly_raiseInj h.2.2.2.2.2 (by decide) (by decide))
  split
  · exact exchanged_modFail hd
  · split
    · exact hd
    · refine exchanged_congr hd rfl (wr_reg_ne _ _ _ _ ?_) (timeOnly_wr hd.2.2.2.2.2 (by simp [setRegs, MTC_STATUS.locked]))
      simp only [MTC_STATUS.locked, mtcStatus_addr, mtcPortStat_addr]
      omega

theorem exchanged_compared {p x n : Nat} {l : List Int} {b c : Blk} (h : Exchanged p x l n b c) (off : Int) :
    Exchanged p x l n b (compared p off c) := by
  unfold compared
  split
  · exact h
  · split
    · dsimp only
      split
      · exact exchanged_skewEvent (exchanged_overRun h _) ..
      · split
        · exact exchanged_modFail (exchanged_overRun h _)
        · exact exchanged_overRun h _
    · exact exchanged_overRun h 0

/-- The four cases of R28 and R29: no set answered, a round trip out of range, and a sample. -/
theorem timestampFx_exchanged (p : Port) (set : BitVec 160) (b : Blk) (hlive : b.pLive p.val = true)
    (h5A : bits set.toNat 0 8 = 0x5A) (hinj : NoInj b) :
    ∃ samples discards, Exchanged p.val set.toNat samples discards b (timestampFx p set b)
      ∧ (∀ t, answered b p.val set.toNat = some t → 0 ≤ roundTrip b set.toNat t → roundTrip b set.toNat t ≤ 50000 * 2 ^ 16 →
          samples = (b.ptime p.val).samples ++ [offsetOf b p.val set.toNat t.at16]
            ∧ discards = b.rd (MTC_PORT_STAT.discards p.val))
      ∧ ((answered b p.val set.toNat = none ∨ ∃ t, answered b p.val set.toNat = some t
            ∧ (roundTrip b set.toNat t < 0 ∨ 50000 * 2 ^ 16 < roundTrip b set.toNat t)) →
          samples = (b.ptime p.val).samples ∧ discards = min (b.rd (MTC_PORT_STAT.discards p.val) + 1) (2 ^ 16 - 1)) := by
  have hheard := heard_exchanged p.val set.toNat b
  rw [timestampFx_eq p set b hlive h5A hinj]
  cases hfound : answered b p.val set.toNat with
  | none => exact ⟨_, _, exchanged_discard hheard, fun t ht => by simp at ht, fun _ => ⟨rfl, rfl⟩⟩
  | some t =>
    dsimp only
    split
    · next hout =>
      refine ⟨_, _, exchanged_discard hheard, fun u hu h0 h1 => ?_, fun _ => ⟨rfl, rfl⟩⟩
      obtain rfl := Option.some.inj hu
      omega
    · next hin =>
      refine ⟨_, _, exchanged_compared (exchanged_sample hheard) _, fun u hu _ _ => ?_, fun hbad => ?_⟩
      · obtain rfl := Option.some.inj hu
        exact ⟨rfl, rfl⟩
      · obtain hbad | ⟨u, hu, hout⟩ := hbad
        · simp at hbad
        · obtain rfl := Option.some.inj hu
          exact absurd hout hin

theorem timestampsGiveOffsets : TimestampsGiveOffsets := by
  intro p set s hlive h5A hinj
  obtain ⟨samples, discards, hex, hin, hout⟩ := timestampFx_exchanged p set s.blk hlive h5A hinj
  obtain ⟨hp, hq, hmtc, hhops, hdisc, honly⟩ := hex
  refine does_of_onBlk (f := timestampFx p set) rfl ?_
  rw [hdisc]
  dsimp only
  rw [hp]
  exact ⟨rfl, rfl, rfl, rfl, rfl, hhops, hq, hmtc, hin, hout, honly⟩

end Sys2Proof.Proofs
end

section
/-!
PROOFS. The control law's update (R30 to R32, R34, R36): what it takes from the ports, what it shows, and what it leaves alone.
-/
namespace Sys2Proof.Proofs
open Sys2Proof Sys2Proof.Machine Sys2Proof.Says

theorem overFail_eq (b : Blk) : b.overFail = { b with vote := b.overFail.vote } := by
  unfold Blk.overFail
  exact ifModFail_eq ..

/-- A fold in which one element's turn establishes a fact that the other turns keep. -/
theorem foldl_establish {α β : Type} (f : β → α → β) (P : β → Prop) (l : List α) (a : α) (ha : a ∈ l) (s : β)
    (hset : ∀ s, P (f s a)) (hkeep : ∀ s x, x ≠ a → P s → P (f s x)) : P (l.foldl f s) := by
  induction l using List.reverseRecOn with
  | nil => cases ha
  | append_singleton l x ih =>
    rw [List.foldl_append, List.foldl_cons, List.foldl_nil]
    by_cases hx : x = a
    · exact hx ▸ hset _
    · refine hkeep _ _ hx (ih ?_)
      simpa [Ne.symm hx] using ha

/-! ### The ports that are shown (R29, R30) -/

/-- What the law took from a port is shown in its register. -/
def shownIn (i : PortIn) (p : Nat) (b : Blk) : Blk :=
  ((b.wr (MTC_PORT_STAT.offset p) (sat32 (i.mean / 2 ^ 16))).wr (MTC_PORT_STAT.valid p) 1).wr (MTC_PORT_STAT.role p) i.role

/-- A port that the update leaves out shows its role alone. -/
def shownOut (h p : Nat) (b : Blk) : Blk :=
  (b.wr (MTC_PORT_STAT.valid p) 0).wr (MTC_PORT_STAT.role p)
    (if b.pLive p ∧ b.idleStandby p then 4 else if b.inService p then (b.ptime p).roleAt h else 0)

/-- Port `p`'s turn: its register is set, and its period starts anew. -/
def showPort (h : Nat) (ins : List PortIn) (b : Blk) (p : Nat) : Blk :=
  (match ins.find? fun (i : PortIn) => i.port = p with
    | some i => shownIn i p b
    | none => shownOut h p b).updPtime p fun t => { t with samples := [] }

theorem showPorts_eq (b : Blk) (h : Nat) (ins : List PortIn) : b.showPorts h ins = (List.range 10).foldl (showPort h ins) b := by
  unfold Blk.showPorts
  congr 1

theorem regsOnly_shownIn (i : PortIn) (p : Nat) (b : Blk) : RegsOnly [.mtcPortStat p] b (shownIn i p b) := by
  unfold shownIn
  exact regsOnly_wr_self (regsOnly_wr_self (regsOnly_wr_self (regsOnly_refl _ b) rfl) rfl) rfl

theorem regsOnly_shownOut (h p : Nat) (b : Blk) : RegsOnly [.mtcPortStat p] b (shownOut h p b) := by
  unfold shownOut
  exact regsOnly_wr_self (regsOnly_wr_self (regsOnly_refl _ b) rfl) rfl

/-- What is written in a port's turn is its own register. -/
theorem showPort_frame (h : Nat) (ins : List PortIn) (b : Blk) (p : Nat) :
    ∃ c, showPort h ins b p = c.updPtime p (fun t => { t with samples := [] }) ∧ RegsOnly [.mtcPortStat p] b c := by
  unfold showPort
  split
  · exact ⟨_, rfl, regsOnly_shownIn ..⟩
  · exact ⟨_, rfl, regsOnly_shownOut ..⟩

theorem timeOnly_showPort {l : List Reg} {b c : Blk} (hc : TimeOnly l b c) (h : Nat) (ins : List PortIn) (p : Nat)
    (hp : (Reg.mtcPortStat p).addr ∈ l.map Reg.addr) : TimeOnly l b (showPort h ins c p) := by
  obtain ⟨d, hd, honly⟩ := showPort_frame h ins c p
  rw [hd]
  exact timeOnly_updPtime (timeOnly_regsOnly hc (regsOnly_mono honly (by simpa using hp)))

theorem mem_portStats {p : Nat} (hp : p < 10) : (Reg.mtcPortStat p).addr ∈ portStats.map Reg.addr :=
  List.mem_map_of_mem (List.mem_map_of_mem (List.mem_range.2 hp))

theorem timeOnly_showPorts (b : Blk) (h : Nat) (ins : List PortIn) : TimeOnly portStats b (b.showPorts h ins) := by
  rw [showPorts_eq]
  exact timeOnly_foldl (timeOnly_refl _ b) fun c p hp hc =>
    timeOnly_showPort hc h ins p (mem_portStats (List.mem_range.1 hp))

/-- Showing the ports moves nothing of the time block but their periods, and no event. -/
theorem showPorts_rest (b : Blk) (h : Nat) (ins : List PortIn) :
    (b.showPorts h ins).time = { b.time with ports := (b.showPorts h ins).time.ports }
      ∧ (b.showPorts h ins).ev = b.ev ∧ (b.showPorts h ins).vote = b.vote := by
  rw [showPorts_eq]
  refine foldl_inv _ (fun c => c.time = { b.time with ports := c.time.ports } ∧ c.ev = b.ev ∧ c.vote = b.vote) _ b
    ⟨rfl, rfl, rfl⟩ fun c p _ ⟨htime, hev, hvote⟩ => ?_
  obtain ⟨d, hd, honly⟩ := showPort_frame h ins c p
  have hdtime := regsOnly_time honly
  rw [hd]
  refine ⟨?_, ?_, ?_⟩
  · rw [Blk.updPtime, updTime_time, hdtime, htime]
  · rw [updPtime_ev, regsOnly_ev honly, hev]
  · rw [updPtime_vote, honly.2, hvote]

/-- Every port's period starts anew. -/
theorem showPorts_samples (b : Blk) (h : Nat) (ins : List PortIn) {p : Nat} (hp : p < 10) :
    ((b.showPorts h ins).ptime p).samples = [] := by
  rw [showPorts_eq]
  refine foldl_establish _ (fun c => (c.ptime p).samples = []) _ p (List.mem_range.2 hp) b (fun c => ?_) fun c q hq hc => ?_
  · obtain ⟨d, hd, -⟩ := showPort_frame h ins c p
    rw [hd, updPtime_ptime_same]
  · obtain ⟨d, hd, honly⟩ := showPort_frame h ins c q
    rw [hd, updPtime_ptime_ne _ _ (Ne.symm hq), Blk.ptime, regsOnly_time honly]
    exact hc

/-- The field of a port's register after the update, from what its turn writes there. -/
theorem showPorts_rd (b : Blk) (h : Nat) (ins : List PortIn) {p : Nat} (hp : p < 10) (f : Fld) (hf : f.reg = .mtcPortStat p) (v : Nat)
    (hv : ∀ c, (showPort h ins c p).rd f = v) : (b.showPorts h ins).rd f = v := by
  rw [showPorts_eq]
  refine foldl_establish _ (fun c => c.rd f = v) _ p (List.mem_range.2 hp) b hv fun c q hq hc => ?_
  obtain ⟨d, hd, honly⟩ := showPort_frame h ins c q
  rw [hd, updPtime_rd, regsOnly_rd honly f ?_, hc]
  rw [hf, List.map_singleton, List.mem_singleton, mtcPortStat_addr, mtcPortStat_addr]
  omega

theorem showPort_of_in {h : Nat} {ins : List PortIn} {p : Nat} {i : PortIn} (c : Blk)
    (hi : (ins.find? fun (i : PortIn) => i.port = p) = some i) :
    showPort h ins c p = (shownIn i p c).updPtime p fun t => { t with samples := [] } := by
  unfold showPort
  rw [hi]

/-- A port from which the law took something shows it. -/
theorem showPorts_in (b : Blk) {h : Nat} {ins : List PortIn} {p : Nat} {i : PortIn} (hp : p < 10)
    (hi : (ins.find? fun (i : PortIn) => i.port = p) = some i) :
    (b.showPorts h ins).rd (MTC_PORT_STAT.role p) = i.role % 8 ∧ (b.showPorts h ins).rd (MTC_PORT_STAT.valid p) = 1
      ∧ (b.showPorts h ins).rd (MTC_PORT_STAT.offset p) = sat32 (i.mean / 2 ^ 16) % 2 ^ 32 := by
  refine ⟨showPorts_rd b h ins hp _ rfl _ fun c => ?_, showPorts_rd b h ins hp _ rfl _ fun c => ?_,
    showPorts_rd b h ins hp _ rfl _ fun c => ?_⟩ <;> rw [showPort_of_in c hi, updPtime_rd, shownIn]
  · exact wr_rd_same _ (MTC_PORT_STAT.role p) _ (by simp [MTC_PORT_STAT.role])
  · rw [wr_rd_disj _ (MTC_PORT_STAT.role p) (MTC_PORT_STAT.valid p) _ rfl (by simp [MTC_PORT_STAT.role, MTC_PORT_STAT.valid])
      (by simp [MTC_PORT_STAT.valid])]
    exact wr_rd_same _ (MTC_PORT_STAT.valid p) _ (by simp [MTC_PORT_STAT.valid])
  · rw [wr_rd_disj _ (MTC_PORT_STAT.role p) (MTC_PORT_STAT.offset p) _ rfl (by simp [MTC_PORT_STAT.role, MTC_PORT_STAT.offset])
        (by simp [MTC_PORT_STAT.offset]),
      wr_rd_disj _ (MTC_PORT_STAT.valid p) (MTC_PORT_STAT.offset p) _ rfl (by simp [MTC_PORT_STAT.valid, MTC_PORT_STAT.offset])
        (by simp [MTC_PORT_STAT.offset])]
    exact wr_rd_same _ (MTC_PORT_STAT.offset p) _ (by simp [MTC_PORT_STAT.offset])

end Sys2Proof.Proofs
end

section
/-!
PROOFS. The cases of the control law's update: a root, a module that nobody leads, and a child of one parent (R30 to R36).
-/
namespace Sys2Proof.Proofs
open Sys2Proof Sys2Proof.Machine Sys2Proof.Says

/-! ### The new period -/

theorem overFail_contributors (b : Blk) : b.overFail.contributors = b.contributors := by rw [overFail_eq]; rfl
theorem overFail_hopsFrom (b : Blk) (ps : List Nat) : b.overFail.hopsFrom ps = b.hopsFrom ps := by rw [overFail_eq]; rfl
theorem overFail_portIn (b : Blk) (h p : Nat) : b.overFail.portIn h p = b.portIn h p := by rw [overFail_eq]; rfl
theorem overFail_on (b : Blk) (f : Fld) : b.overFail.on f = b.on f := by rw [overFail_eq]; rfl
theorem overFail_time (b : Blk) : b.overFail.time = b.time := by rw [overFail_eq]
theorem overFail_ev (b : Blk) : b.overFail.ev = b.ev := by rw [overFail_eq]

/-- The block after what the update took from the ports, `ins`, has been shown, with the ports that last contributed. -/
def newPeriod (h : Nat) (ins : List PortIn) (last : Nat) (b : Blk) : Blk :=
  (b.overFail.showPorts h ins).updTime fun t =>
    { t with everContrib := t.everContrib || !ins.isEmpty, lastContrib := last }

theorem timeOnly_newPeriod (h : Nat) (ins : List PortIn) (last : Nat) (b : Blk) :
    TimeOnly portStats b (newPeriod h ins last b) := by
  have hfail : TimeOnly portStats b b.overFail := by
    unfold Blk.overFail
    exact timeOnly_ifB (timeOnly_refl _ b) (timeOnly_modFail (timeOnly_refl _ b))
  exact timeOnly_updTime (timeOnly_trans hfail (timeOnly_showPorts ..))

theorem newPeriod_ev (h : Nat) (ins : List PortIn) (last : Nat) (b : Blk) : (newPeriod h ins last b).ev = b.ev := by
  rw [newPeriod, updTime_ev, (showPorts_rest ..).2.1, overFail_ev]

theorem newPeriod_time (h : Nat) (ins : List PortIn) (last : Nat) (b : Blk) :
    (newPeriod h ins last b).time = { b.time with
      everContrib := b.time.everContrib || !ins.isEmpty, lastContrib := last, ports := (newPeriod h ins last b).time.ports } := by
  rw [newPeriod, updTime_time, (showPorts_rest ..).1, overFail_time]

theorem newPeriod_now (h : Nat) (ins : List PortIn) (last : Nat) (b : Blk) : (newPeriod h ins last b).now = b.now := by
  rw [Blk.now, newPeriod_time, Blk.now]

theorem newPeriod_samples (h : Nat) (ins : List PortIn) (last : Nat) (b : Blk) {p : Nat} (hp : p < 10) :
    ((newPeriod h ins last b).ptime p).samples = [] := showPorts_samples _ h ins hp

/-- A register of the time block outside the ports reads as before. -/
theorem newPeriod_rd (h : Nat) (ins : List PortIn) (last : Nat) (b : Blk) (f : Fld)
    (hf : f.reg.addr < hubBase + 0x10080 ∨ hubBase + 0x100D0 ≤ f.reg.addr) : (newPeriod h ins last b).rd f = b.rd f :=
  timeOnly_rd (timeOnly_newPeriod ..) f (notMem_portStats hf)

/-- What the update takes from the contributing ports at `h` hops, and what of it has a weight. -/
def lawIns (h : Nat) (b : Blk) : List PortIn := b.contributors.map (b.portIn h)
def weighing (ins : List PortIn) : List PortIn := ins.filter fun (i : PortIn) => 0 < i.weight
def portMask (ins : List PortIn) : Nat := ins.foldl (fun m (i : PortIn) => m + 2 ^ i.port) 0

/-! ### A root (R31, R34) -/

theorem controlLawFx_root (b : Blk) (hon : b.dstate ≠ stOff) (hroot : b.on MTC_STATUS.is_root = true) :
    controlLawFx b =
      (newPeriod 0 (lawIns 0 b) (portMask (weighing (lawIns 0 b))) b).rootUpdate.wr MTC_STATUS.hops 0 := by
  have hins : b.contributors.map (b.overFail.portIn 0) = lawIns 0 b := by
    rw [lawIns]; congr 1; funext p; exact overFail_portIn ..
  unfold controlLawFx
  simp only [hon, if_false, overFail_contributors, overFail_on, hroot, if_true, hins, true_or]
  rfl

/-- A root that no 1PPS leads is held at its trim. -/
theorem rootUpdate_trim (b : Blk) (hstep : b.time.stepped = true) (hpps : b.on MTC_CTRL.pps_enable = false) :
    b.rootUpdate = b.slewRate (b.rdI MTC_RATE.adj) (adjClamp (b.rdI MTC_ROOT_TRIM.trim)) := by
  simp [Blk.rootUpdate, hstep, hpps]

/-- A root's rate moves to its trim, by at most 1 ppm a second. -/
theorem slewRate_trim (b : Blk) (old : Int) :
    b.slewRate old (adjClamp (b.rdI MTC_ROOT_TRIM.trim)) =
      b.wr MTC_RATE.adj (wrapInt 32 (adjClamp (max (old - 70) (min (old + 70) (adjClamp (b.rdI MTC_ROOT_TRIM.trim)))))) := by
  unfold Blk.slewRate
  dsimp only
  congr 5
  omega

/-- The registers that an update of the law may write. -/
abbrev lawRegs : List Reg := .mtcStatus :: .mtcRate :: portStats

theorem timeOnly_lawRegs {l : List Reg} {b c : Blk} (h : TimeOnly portStats b c) (hl : ∀ r ∈ portStats, r ∈ l) :
    TimeOnly l b c := timeOnly_mono h fun r hr => List.mem_map_of_mem (hl r hr)

theorem controlLaw_holds_root_at_trim (s : State) (hon : s.blk.dstate ≠ stOff) (hroot : s.blk.on MTC_STATUS.is_root = true)
    (hpps : s.blk.on MTC_CTRL.pps_enable = false) (hstep : s.blk.time.stepped = true) :
    Does .controlLawUpdate s fun b =>
      let old := s.blk.rdI MTC_RATE.adj
      let trim := max (-219902325) (min 219902325 (s.blk.rdI MTC_ROOT_TRIM.trim))
      b.rd MTC_STATUS.hops = 0 ∧ b.rdI MTC_RATE.adj = max (-219902325) (min 219902325 (max (old - 70) (min (old + 70) trim)))
        ∧ b.rd MTC_STATUS.locked = s.blk.rd MTC_STATUS.locked ∧ b.rd MTC_STATUS.is_root = 1 ∧ b.ev = s.blk.ev
        ∧ b.time.mtc = s.blk.time.mtc ∧ b.time.integ = s.blk.time.integ
        ∧ TimeOnly (.mtcStatus :: .mtcRate :: portStats) s.blk b := by
  refine does_of_onBlk (f := controlLawFx) rfl ?_
  rw [controlLawFx_root s.blk hon hroot]
  generalize lawIns 0 s.blk = ins
  generalize hn : newPeriod 0 ins (portMask (weighing ins)) s.blk = n
  have hrd : ∀ f : Fld, (f.reg.addr < hubBase + 0x10080 ∨ hubBase + 0x100D0 ≤ f.reg.addr) → n.rd f = s.blk.rd f :=
    fun f hf => hn ▸ newPeriod_rd 0 ins _ s.blk f hf
  have htime := newPeriod_time 0 ins (portMask (weighing ins)) s.blk
  rw [hn] at htime
  have hrate : n.rdI MTC_RATE.adj = s.blk.rdI MTC_RATE.adj := by rw [Blk.rdI, hrd _ (by decide), Blk.rdI]
  have htrim : n.rdI MTC_ROOT_TRIM.trim = s.blk.rdI MTC_ROOT_TRIM.trim := by rw [Blk.rdI, hrd _ (by decide), Blk.rdI]
  have honly : TimeOnly lawRegs s.blk n := timeOnly_lawRegs (hn ▸ timeOnly_newPeriod ..) (by simp +contextual)
  rw [rootUpdate_trim n (by rw [htime]; exact hstep) (by rw [Blk.on, hrd _ (by decide)]; exact hpps), slewRate_trim, hrate, htrim]
  refine ⟨?_, ?_, ?_, ?_, ?_, ?_, ?_, ?_⟩
  · exact wr_rd_same _ _ _ (by decide)
  · rw [Blk.rdI, wr_rd_ne _ _ _ _ (by decide), ← Blk.rdI, wr_rdI_same _ _ _ (by rfl) (by decide) (adjClamp_bounds _)]
    rfl
  · rw [wr_rd_disj _ _ _ _ (by rfl) (by decide) (by decide), wr_rd_ne _ _ _ _ (by decide), hrd _ (by decide)]
  · rw [wr_rd_disj _ _ _ _ (by rfl) (by decide) (by decide), wr_rd_ne _ _ _ _ (by decide), hrd _ (by decide), rd_eq_one_of_on rfl hroot]
  · rw [wr_ev, wr_ev, ← hn, newPeriod_ev]
  · rw [wr_time, wr_time, htime]
  · rw [wr_time, wr_time, htime]
  · exact timeOnly_wr (timeOnly_wr honly (by decide)) (by decide)

/-! ### Nobody leads (R36) -/

theorem controlLawFx_alone (b : Blk) (hon : b.dstate ≠ stOff) (hroot : b.on MTC_STATUS.is_root = false)
    (hnone : b.contributors = []) : controlLawFx b = (newPeriod (b.hopsFrom []) [] b.time.lastContrib b).noContributor := by
  have hlast : (b.overFail.showPorts (b.hopsFrom []) []).time.lastContrib = b.time.lastContrib := by
    rw [(showPorts_rest ..).1, overFail_time]
  unfold controlLawFx newPeriod
  simp only [hon, if_false, overFail_contributors, overFail_on, hroot, hnone, overFail_hopsFrom]
  refine congrArg Blk.noContributor (updTime_congr _ ?_)
  simp [hlast]

/-- Holdover begins: it is recorded, with the ports that last contributed (R36). -/
def holdBegun (b : Blk) : Blk :=
  (b.raise 0 uMtc 0x0104 (b.rd MTC_STATUS.hops + b.time.lastContrib * 2 ^ 6)).updTime fun t =>
    { t with holdSince := some b.now, holdRaised := false }

theorem holdBegun_time (b : Blk) : (holdBegun b).time = { b.time with holdSince := some b.now, holdRaised := false } := by
  rw [holdBegun, updTime_time, Blk.raise, raiseInj_time]

theorem holdBegun_raised (b : Blk) :
    Raised 0 4 0x0104 (b.rd MTC_STATUS.hops + b.time.lastContrib * 2 ^ 6) b (holdBegun b) :=
  raised_congr rfl rfl (by rw [holdBegun, updTime_ev, Blk.raise])
    (raiseInj_raised b false 0 uMtc 0x0104 (b.rd MTC_STATUS.hops + b.time.lastContrib * 2 ^ 6) (by decide) (by decide))

theorem timeOnly_holdBegun {l : List Reg} {b c : Blk} (h : TimeOnly l b c) : TimeOnly l b (holdBegun c) := by
  unfold holdBegun Blk.raise
  exact timeOnly_updTime (timeOnly_raiseInj h (by decide) (by decide))

/-- The same, as the model writes it: the instant is read after the event. -/
theorem holdBegun_eq (b : Blk) : ((b.raise 0 uMtc 0x0104 (b.rd MTC_STATUS.hops + b.time.lastContrib * 2 ^ 6)).updTime fun t =>
    { t with holdSince := some (b.raise 0 uMtc 0x0104 (b.rd MTC_STATUS.hops + b.time.lastContrib * 2 ^ 6)).now,
             holdRaised := false }) = holdBegun b := by rw [holdBegun, raise_now]

theorem wr_wr_now (b : Blk) (f g : Fld) (v w : Nat) : ((b.wr f v).wr g w).now = b.now := by rw [wr_now, wr_now]

theorem noContributor_begins (b : Blk) (hever : b.time.everContrib = true) (hsince : b.time.holdSince = none) :
    b.noContributor = ((holdBegun b).wr MTC_STATUS.holdover 1).wr MTC_STATUS.hops 63 := by
  have hnow : (holdBegun b).now = b.now := by rw [Blk.now, holdBegun_time, Blk.now]
  have hheld : (holdBegun b).time.holdSince = some b.now := by rw [holdBegun_time]
  unfold Blk.noContributor
  simp only [hever, hsince, not_true, if_false, holdBegun_eq, wr_time, hheld, wr_wr_now, hnow, Nat.sub_self, Nat.not_lt_zero]

theorem controlLaw_enters_holdover (s : State) (hon : s.blk.dstate ≠ stOff) (hroot : s.blk.on MTC_STATUS.is_root = false)
    (hnone : s.blk.contributors = []) (hever : s.blk.time.everContrib = true) (hsince : s.blk.time.holdSince = none) :
    Does .controlLawUpdate s fun b =>
      b.rd MTC_STATUS.hops = 63 ∧ b.rd MTC_STATUS.holdover = 1 ∧ b.time.holdSince = some s.blk.now
        ∧ Raised 0 4 0x0104 (s.blk.rd MTC_STATUS.hops + s.blk.time.lastContrib * 2 ^ 6) s.blk b
        ∧ b.reg .mtcRate = s.blk.reg .mtcRate ∧ b.time.mtc = s.blk.time.mtc ∧ b.time.integ = s.blk.time.integ
        ∧ TimeOnly (.mtcStatus :: portStats) s.blk b := by
  refine does_of_onBlk (f := controlLawFx) rfl ?_
  rw [controlLawFx_alone s.blk hon hroot hnone]
  have htime := newPeriod_time (s.blk.hopsFrom []) [] s.blk.time.lastContrib s.blk
  have hev := newPeriod_ev (s.blk.hopsFrom []) [] s.blk.time.lastContrib s.blk
  have hnow := newPeriod_now (s.blk.hopsFrom []) [] s.blk.time.lastContrib s.blk
  have honly := timeOnly_newPeriod (s.blk.hopsFrom []) [] s.blk.time.lastContrib s.blk
  have hhops := newPeriod_rd (s.blk.hopsFrom []) [] s.blk.time.lastContrib s.blk MTC_STATUS.hops (by decide)
  generalize newPeriod (s.blk.hopsFrom []) [] s.blk.time.lastContrib s.blk = n at *
  have hraised := holdBegun_raised n
  have hall : TimeOnly (.mtcStatus :: portStats) s.blk (((holdBegun n).wr MTC_STATUS.holdover 1).wr MTC_STATUS.hops 63) :=
    timeOnly_wr (timeOnly_wr (timeOnly_holdBegun
      (timeOnly_mono honly fun r hr => List.mem_map_of_mem (List.mem_cons_of_mem _ hr))) (by decide)) (by decide)
  rw [noContributor_begins n (by rw [htime, hever]; rfl) (by rw [htime]; exact hsince)]
  refine ⟨wr_rd_same _ _ _ (by decide), ?_, ?_, ?_, ?_, ?_, ?_, hall⟩
  · rw [wr_rd_disj _ _ _ _ (by rfl) (by decide) (by decide)]
    exact wr_rd_same _ _ _ (by decide)
  · rw [wr_time, wr_time, holdBegun_time, hnow]
  · rw [htime, hhops] at hraised
    exact raised_congr hev hnow (by rw [wr_ev, wr_ev]) hraised
  · exact hall.1 _ (by decide)
  · rw [wr_time, wr_time, holdBegun_time, htime]
  · rw [wr_time, wr_time, holdBegun_time, htime]

theorem rootTrimAndHoldover : RootTrimAndHoldover := ⟨controlLaw_holds_root_at_trim, controlLaw_enters_holdover⟩

/-! ### A child (R30 to R32) -/

/-- What the law takes from its one parent. -/
theorem portIn_parent (b : Blk) (p : Nat) (e : Int) (hsamples : (b.ptime p).samples = [e]) (hhold : (b.ptime p).nbHoldover = false)
    (hhalf : b.halved p = false) : b.portIn ((b.ptime p).nbHops + 1) p = ⟨p, 1, 8, e, (b.ptime p).nbHops⟩ := by
  have hrole : (b.ptime p).roleAt ((b.ptime p).nbHops + 1) = 1 := by
    rw [PortTime.roleAt, hhold, if_neg (by simp), if_neg (by omega), if_pos rfl]
  simp [Blk.portIn, hrole, hhalf, hsamples, meanOf]

theorem hopsFrom_one (b : Blk) (p : Nat) (h : (b.ptime p).nbHops < 62) : b.hopsFrom [p] = (b.ptime p).nbHops + 1 := by
  have hmin : min 63 (b.ptime p).nbHops = (b.ptime p).nbHops := by omega
  simp only [Blk.hopsFrom, List.map_cons, List.map_nil, List.foldl_cons, List.foldl_nil, hmin]
  rw [if_neg (by omega)]
  omega

/-- The block as the law takes the one parent `i`: no holdover, at `h` hops. -/
def following (h : Nat) (i : PortIn) (b : Blk) : Blk :=
  (((newPeriod h [i] (2 ^ i.port) b).updTime fun t => { t with holdSince := none, holdRaised := false }).wr
    MTC_STATUS.holdover 0).wr MTC_STATUS.hops h

theorem controlLawFx_child (b : Blk) (p : Nat) (e : Int) (hon : b.dstate ≠ stOff) (hsync : b.dstate ≠ stSync)
    (hstep : b.time.stepped = true) (hroot : b.on MTC_STATUS.is_root = false) (hone : b.contributors = [p])
    (hsamples : (b.ptime p).samples = [e]) (hhold : (b.ptime p).nbHoldover = false) (hhops : (b.ptime p).nbHops < 62)
    (hhalf : b.halved p = false) :
    controlLawFx b = ((following ((b.ptime p).nbHops + 1) ⟨p, 1, 8, e, (b.ptime p).nbHops⟩ b).correct e).lockStep e
      [⟨p, 1, 8, e, (b.ptime p).nbHops⟩] := by
  have hh : b.overFail.hopsFrom [p] = (b.ptime p).nbHops + 1 := by rw [overFail_hopsFrom, hopsFrom_one b p hhops]
  have hin : b.overFail.portIn ((b.ptime p).nbHops + 1) p = ⟨p, 1, 8, e, (b.ptime p).nbHops⟩ := by
    rw [overFail_portIn, portIn_parent b p e hsamples hhold hhalf]
  have hweighted : weighted [⟨p, 1, 8, e, (b.ptime p).nbHops⟩] = e := by simp [weighted]
  have hstep' : (following ((b.ptime p).nbHops + 1) ⟨p, 1, 8, e, (b.ptime p).nbHops⟩ b).time.stepped = true := by
    rw [following, wr_time, wr_time, updTime_time, newPeriod_time]
    exact hstep
  have hstate : (following ((b.ptime p).nbHops + 1) ⟨p, 1, 8, e, (b.ptime p).nbHops⟩ b).dstate = b.dstate := by
    rw [Blk.dstate, following, wr_rd_ne _ _ _ _ (by decide), wr_rd_ne _ _ _ _ (by decide), updTime_rd, newPeriod_rd _ _ _ _ _ (by decide)]
    rfl
  have hfollow : ((((b.overFail.showPorts ((b.ptime p).nbHops + 1) [⟨p, 1, 8, e, (b.ptime p).nbHops⟩]).updTime fun t =>
      { t with everContrib := t.everContrib || true, lastContrib := 2 ^ p }).updTime fun t =>
      { t with holdSince := none, holdRaised := false }).wr MTC_STATUS.holdover 0).wr MTC_STATUS.hops ((b.ptime p).nbHops + 1)
      = following ((b.ptime p).nbHops + 1) ⟨p, 1, 8, e, (b.ptime p).nbHops⟩ b := by rw [following, newPeriod]; rfl
  unfold controlLawFx
  simp only [hon, if_false, overFail_contributors, overFail_on, hroot, hone, hh, List.map_cons, List.map_nil, hin, List.filter_cons,
    List.filter_nil, hweighted, Bool.false_eq_true, decide_true, Nat.ofNat_pos, if_true, List.isEmpty_cons, List.foldl_cons, List.foldl_nil,
    Bool.not_false, false_or, not_false_eq_true, Nat.zero_add, hfollow, hstep', not_true, hstate, hsync, false_and]

/-- The lock condition counts updates, and may write the lock (R32). -/
theorem lockStep_cases (b : Blk) (e : Int) (ins : List PortIn) : ∃ n,
    b.lockStep e ins = b.updTime (fun t => { t with lockCount := n })
      ∨ ∃ v, b.lockStep e ins = (b.updTime fun t => { t with lockCount := n }).wr MTC_STATUS.locked v := by
  unfold Blk.lockStep
  dsimp only
  split
  · split
    · exact ⟨_, .inr ⟨1, rfl⟩⟩
    · exact ⟨_, .inl rfl⟩
  · exact ⟨0, .inr ⟨0, rfl⟩⟩

theorem timeOnly_lockStep {l : List Reg} {b c : Blk} {e : Int} {ins : List PortIn} (h : TimeOnly l b c)
    (hl : Reg.mtcStatus.addr ∈ l.map Reg.addr) : TimeOnly l b (c.lockStep e ins) := by
  obtain ⟨n, hn | ⟨v, hv⟩⟩ := lockStep_cases c e ins
  · rw [hn]; exact timeOnly_updTime h
  · rw [hv]; exact timeOnly_wr (timeOnly_updTime h) hl

theorem lockStep_time (b : Blk) (e : Int) (ins : List PortIn) :
    (b.lockStep e ins).time = { b.time with lockCount := (b.lockStep e ins).time.lockCount } := by
  obtain ⟨n, hn | ⟨v, hv⟩⟩ := lockStep_cases b e ins
  · rw [hn]; rfl
  · rw [hv, wr_time, updTime_time]

/-- The lock is the first bit of MTC_STATUS; fields elsewhere read as before. -/
theorem lockStep_rd (b : Blk) (e : Int) (ins : List PortIn) (f : Fld)
    (hf : f.reg.addr ≠ Reg.mtcStatus.addr ∨ f.reg = .mtcStatus ∧ 1 ≤ f.lo ∧ f.lo + f.w ≤ 64) :
    (b.lockStep e ins).rd f = b.rd f := by
  obtain ⟨n, hn | ⟨v, hv⟩⟩ := lockStep_cases b e ins
  · rw [hn, updTime_rd]
  · rw [hv]
    obtain hf | ⟨hr, hlo, h64⟩ := hf
    · rw [wr_rd_ne _ _ _ _ hf, updTime_rd]
    · rw [wr_rd_disj _ MTC_STATUS.locked f _ hr (.inr hlo) h64, updTime_rd]

/-- The rate that the law's correction sets (R31). -/
def lawRate (b : Blk) (e : Int) : Int :=
  adjClamp ((lawInteg b e + e * 2 ^ 32 / 64000 / (2 : Int) ^ b.rd MTC_LOOP.kp_shift) / 2 ^ 24)

theorem correct_eq (b : Blk) (e : Int) :
    b.correct e = (b.updTime fun t => { t with integ := lawInteg b e }).wr MTC_RATE.adj (wrapInt 32 (lawRate b e)) := rfl

theorem following_time (h : Nat) (i : PortIn) (b : Blk) : (following h i b).time =
    { (newPeriod h [i] (2 ^ i.port) b).time with holdSince := none, holdRaised := false } := by
  rw [following, wr_time, wr_time, updTime_time]

theorem following_ptime (h : Nat) (i : PortIn) (b : Blk) (q : Nat) :
    (following h i b).ptime q = (newPeriod h [i] (2 ^ i.port) b).ptime q := by rw [Blk.ptime, following_time, Blk.ptime]

theorem following_rd_ne (h : Nat) (i : PortIn) (b : Blk) (f : Fld) (hf : f.reg.addr ≠ Reg.mtcStatus.addr) :
    (following h i b).rd f = (newPeriod h [i] (2 ^ i.port) b).rd f := by
  rw [following, wr_rd_ne _ _ _ _ hf, wr_rd_ne _ _ _ _ hf, updTime_rd]

theorem following_hops (h : Nat) (i : PortIn) (b : Blk) (hh : h < 64) : (following h i b).rd MTC_STATUS.hops = h := by
  rw [following, wr_rd_same _ _ _ (by decide)]
  exact Nat.mod_eq_of_lt hh

theorem following_holdover (h : Nat) (i : PortIn) (b : Blk) : (following h i b).rd MTC_STATUS.holdover = 0 := by
  rw [following, wr_rd_disj _ _ _ _ (by rfl) (by decide) (by decide)]
  exact wr_rd_same _ _ _ (by decide)

theorem timeOnly_following (h : Nat) (i : PortIn) (b : Blk) : TimeOnly lawRegs b (following h i b) := by
  unfold following
  exact timeOnly_wr (timeOnly_wr (timeOnly_updTime (timeOnly_lawRegs (timeOnly_newPeriod ..) (by simp +contextual))) (by decide))
    (by decide)

theorem following_lawInteg (h : Nat) (i : PortIn) (b : Blk) (e : Int) : lawInteg (following h i b) e = lawInteg b e := by
  rw [lawInteg, following_rd_ne _ _ _ _ (by decide), newPeriod_rd _ _ _ _ _ (by decide), following_time, newPeriod_time]
  rfl

theorem following_lawRate (h : Nat) (i : PortIn) (b : Blk) (e : Int) : lawRate (following h i b) e = lawAdj b e := by
  rw [lawRate, following_lawInteg, following_rd_ne _ _ _ _ (by decide), newPeriod_rd _ _ _ _ _ (by decide)]
  rfl

/-- A child's block after the correction: the integral term, the rate, and nothing else of what the parent set. -/
theorem correct_time (b : Blk) (e : Int) : (b.correct e).time = { b.time with integ := lawInteg b e } := by
  rw [correct_eq, wr_time, updTime_time]

theorem correct_rd_ne (b : Blk) (e : Int) (f : Fld) (hf : f.reg.addr ≠ Reg.mtcRate.addr) : (b.correct e).rd f = b.rd f := by
  rw [correct_eq, wr_rd_ne _ _ _ _ hf, updTime_rd]

theorem correct_rate (b : Blk) (e : Int) : (b.correct e).rdI MTC_RATE.adj = lawRate b e := by
  rw [correct_eq]
  exact wr_rdI_same _ _ _ rfl (by decide) (adjClamp_bounds _)

theorem childFollowsItsParent : ChildFollowsItsParent := by
  intro s p e hon hsync hstep hroot hone hsamples hhold hhops hhalf
  refine does_of_onBlk (f := controlLawFx) rfl ?_
  rw [controlLawFx_child s.blk p e hon hsync hstep hroot hone hsamples hhold hhops hhalf]
  have hp : p < 10 := by
    have hmem : p ∈ s.blk.contributors := by rw [hone]; exact List.mem_singleton_self p
    exact List.mem_range.1 (List.mem_of_mem_filter hmem)
  generalize hh : (s.blk.ptime p).nbHops + 1 = h
  generalize hi : (⟨p, 1, 8, e, (s.blk.ptime p).nbHops⟩ : PortIn) = i
  have hport : i.port = p := by rw [← hi]
  have hrole1 : i.role = 1 := by rw [← hi]
  have hmean : i.mean = e := by rw [← hi]
  obtain ⟨hrole, hvalid, hoff⟩ := showPorts_in s.blk.overFail (h := h) (ins := [i]) (i := i) hp (by simp [hport])
  have hst (f : Fld) (h1 : f.reg.addr ≠ Reg.mtcStatus.addr) (h2 : f.reg.addr ≠ Reg.mtcRate.addr) :
      (((following h i s.blk).correct e).lockStep e [i]).rd f = (s.blk.overFail.showPorts h [i]).rd f := by
    rw [lockStep_rd _ _ _ _ (.inl h1), correct_rd_ne _ _ _ h2, following_rd_ne _ _ _ _ h1, newPeriod, updTime_rd]
  have hstat : (Reg.mtcPortStat p).addr ≠ Reg.mtcStatus.addr ∧ (Reg.mtcPortStat p).addr ≠ Reg.mtcRate.addr := by
    rw [mtcPortStat_addr, mtcStatus_addr, mtcRate_addr]; omega
  refine ⟨?_, ?_, ?_, ?_, ?_, ?_, ?_, ?_, fun q hq => ?_, ?_, ?_⟩
  · rw [lockStep_rd _ _ _ _ (.inr (by decide)), correct_rd_ne _ _ _ (by decide), following_hops _ _ _ (by omega)]
  · rw [lockStep_rd _ _ _ _ (.inr (by decide)), correct_rd_ne _ _ _ (by decide), following_holdover]
  · rw [lockStep_time, correct_time, following_time]
  · rw [lockStep_time, correct_time, following_lawInteg]
  · rw [Blk.rdI, lockStep_rd _ _ _ _ (.inl (by decide)), ← Blk.rdI, correct_rate, following_lawRate]
  · rw [hst _ hstat.1 hstat.2, hrole, hrole1]
  · rw [hst _ hstat.1 hstat.2, hvalid]
  · rw [Blk.rdI, hst _ hstat.1 hstat.2, hoff, hmean]
    exact sext_wrapInt 32 _ (by decide) (sat32_bounds _).1 (sat32_bounds _).2
  · rw [Blk.ptime, lockStep_time, correct_time, ← newPeriod_samples h [i] (2 ^ i.port) s.blk hq, ← following_ptime]
    rfl
  · rw [lockStep_time, correct_time, following_time, newPeriod_time]
  · exact timeOnly_lockStep (timeOnly_wr (timeOnly_updTime (timeOnly_following ..)) (by decide)) (by decide)

/-- Settles O42: an arriving set case by case, and the law's update with one parent. -/
theorem timestampsAndFollowing : Obligations.TimestampsAndFollowing := ⟨timestampsGiveOffsets, childFollowsItsParent⟩

end Sys2Proof.Proofs
end

section
/-!
PROOFS. The time root's references (R27, R34, R35, R37): 1PPS, the oscillator pair, and the backup roots.
-/
namespace Sys2Proof.Proofs
open Sys2Proof Sys2Proof.Machine Sys2Proof.Says

/-! ### 1PPS (R34, R35) -/

/-- An edge is captured: what it is off the nearest second, its instant and the run of close edges. -/
def captured (cap good : Nat) (b : Blk) : Blk :=
  (b.wr MTC_PPS_STAT.last_error (sat32 (ppsError cap))).updTime fun t =>
    { t with ppsLast := some (cap / 2 ^ 16), ppsGood := good, ppsErr := ppsError cap }

/-- A captured edge counts, and 1PPS is valid. -/
def counted (b : Blk) : Blk :=
  ((b.wr MTC_STATUS.pps_valid 1).incBy MTC_PPS_STAT.edges 1).updTime fun t => { t with ppsLost := false }

theorem captured_time (cap good : Nat) (b : Blk) : (captured cap good b).time =
    { b.time with ppsLast := some (cap / 2 ^ 16), ppsGood := good, ppsErr := ppsError cap } := by
  rw [captured, updTime_time, wr_time]

theorem accepted_of_not_lost (b : Blk) (good : Nat) (h : b.time.ppsLost = false) :
    (if b.time.ppsLost = true ∧ good < 5 then b else counted b) = counted b := by simp [h]

/-- At a disciplined root that has not lost 1PPS, every edge of a pulse of legal width counts. -/
theorem ppsEdgeFx_counts (high : Nat) (b : Blk) (hlo : 1000 ≤ high) (hhi : high ≤ 500000000)
    (hen : b.on MTC_CTRL.pps_enable = true) (htod : b.time.pendingTod = none) (hroot : b.on MTC_STATUS.is_root = true)
    (hlost : b.time.ppsLost = false) : ∃ good, ppsEdgeFx high b = counted (captured (b.now16 - 52 * 2 ^ 16) good b) := by
  have hwidth : ¬(high < 1000 ∨ 500000000 < high ∨ ¬b.on MTC_CTRL.pps_enable = true) := by
    simp only [hen, not_true, or_false]; omega
  unfold ppsEdgeFx
  rw [if_neg hwidth, htod]
  dsimp only
  rw [if_neg (not_not.2 hroot)]
  exact ⟨_, accepted_of_not_lost (captured _ _ b) _ (by rw [captured_time]; exact hlost)⟩

/-- The nearest second is the only one within half a second. -/
theorem ppsError_unique (cap sec : Nat) (err : Int) (herr : err = (sec : Int) * 1000000000 * 2 ^ 16 - (cap : Int))
    (hnear : err.natAbs < 500000000 * 2 ^ 16) : ppsError cap = err := by
  unfold ppsError
  dsimp only
  split <;> omega

theorem timeOnly_captured {l : List Reg} {b c : Blk} {cap good : Nat} (h : TimeOnly l b c)
    (hl : Reg.mtcPpsStat.addr ∈ l.map Reg.addr) : TimeOnly l b (captured cap good c) := by
  unfold captured
  exact timeOnly_updTime (timeOnly_wr h hl)

theorem timeOnly_counted {l : List Reg} {b c : Blk} (h : TimeOnly l b c) (hs : Reg.mtcStatus.addr ∈ l.map Reg.addr)
    (hl : Reg.mtcPpsStat.addr ∈ l.map Reg.addr) : TimeOnly l b (counted c) := by
  unfold counted Blk.incBy
  exact timeOnly_updTime (timeOnly_wr (timeOnly_wr h hs) hl)

theorem counted_time (b : Blk) : (counted b).time = { b.time with ppsLost := false } := by
  rw [counted, updTime_time, incBy_eq, wr_time, wr_time]

theorem counted_valid (b : Blk) : (counted b).rd MTC_STATUS.pps_valid = 1 := by
  rw [counted, updTime_rd, incBy_eq, wr_rd_ne _ _ _ _ (by decide)]
  exact wr_rd_same _ _ _ (by decide)

theorem counted_edges (b : Blk) : (counted b).rd MTC_PPS_STAT.edges = (b.rd MTC_PPS_STAT.edges + 1) % 2 ^ 32 := by
  rw [counted, updTime_rd, incBy_eq, wr_rd_same _ _ _ (by decide), wr_rd_ne _ _ _ _ (by decide)]
  rfl

theorem captured_edges (cap good : Nat) (b : Blk) : (captured cap good b).rd MTC_PPS_STAT.edges = b.rd MTC_PPS_STAT.edges := by
  rw [captured, updTime_rd, wr_rd_disj _ _ _ _ (by rfl) (by decide) (by decide)]

theorem counted_last_error (b : Blk) : (counted b).rdI MTC_PPS_STAT.last_error = b.rdI MTC_PPS_STAT.last_error := by
  rw [Blk.rdI, counted, updTime_rd, incBy_eq, wr_rd_disj _ _ _ _ (by rfl) (by decide) (by decide),
    wr_rd_ne _ _ _ _ (by decide), Blk.rdI]

theorem captured_last_error (cap good : Nat) (b : Blk) :
    (captured cap good b).rdI MTC_PPS_STAT.last_error = max (-(2 ^ 31)) (min (2 ^ 31 - 1) (ppsError cap)) := by
  rw [captured, updTime_rdI]
  exact wr_rdI_same _ _ _ rfl (by decide) (sat32_bounds _)

theorem counted_ev (b : Blk) : (counted b).ev = b.ev := by rw [counted, updTime_ev, incBy_eq, wr_ev, wr_ev]
theorem captured_ev (cap good : Nat) (b : Blk) : (captured cap good b).ev = b.ev := by rw [captured, updTime_ev, wr_ev]

theorem pulse_counts (high : Nat) (s : State) (hlo : 1000 ≤ high) (hhi : high ≤ 500000000)
    (hen : s.blk.on MTC_CTRL.pps_enable = true) (htod : s.blk.time.pendingTod = none)
    (hroot : s.blk.on MTC_STATUS.is_root = true) (hlost : s.blk.time.ppsLost = false) (_ : 52 * 2 ^ 16 ≤ s.blk.now16) :
    Does (.ppsEdge high) s fun b =>
      let cap : Nat := s.blk.now16 - 52 * 2 ^ 16
      b.rd MTC_STATUS.pps_valid = 1 ∧ b.rd MTC_PPS_STAT.edges = (s.blk.rd MTC_PPS_STAT.edges + 1) % 2 ^ 32
        ∧ (∀ (sec : Nat) (err : Int), err = (sec : Int) * 1000000000 * 2 ^ 16 - (cap : Int) →
            err.natAbs < 500000000 * 2 ^ 16 →
            b.rdI MTC_PPS_STAT.last_error = max (-(2 ^ 31)) (min (2 ^ 31 - 1) err))
        ∧ b.time.ppsLast = some (cap / 2 ^ 16) ∧ b.time.mtc = s.blk.time.mtc ∧ b.ev = s.blk.ev
        ∧ TimeOnly [.mtcStatus, .mtcPpsStat] s.blk b := by
  refine does_of_onBlk (f := ppsEdgeFx high) rfl ?_
  obtain ⟨good, hgood⟩ := ppsEdgeFx_counts high s.blk hlo hhi hen htod hroot hlost
  rw [hgood]
  generalize s.blk.now16 - 52 * 2 ^ 16 = cap
  refine ⟨counted_valid _, ?_, fun sec err herr hnear => ?_, ?_, ?_, ?_, ?_⟩
  · rw [counted_edges, captured_edges]
  · rw [counted_last_error, captured_last_error, ppsError_unique cap sec err herr hnear]
  · rw [counted_time, captured_time]
  · rw [counted_time, captured_time]
  · rw [counted_ev, captured_ev]
  · exact timeOnly_counted (timeOnly_captured (timeOnly_refl _ _) (by decide)) (by decide) (by decide)

/-- 1PPS is given up: no longer valid, with EV_PPS_LOSS. -/
def ppsGivenUp (l : Nat) (b : Blk) : Blk :=
  ((b.wr MTC_STATUS.pps_valid 0).raiseInj false 0 uMtc 0x0103 (satur 32 ((b.now - l) / 1000))).updTime fun t =>
    { t with ppsGood := 0, ppsLost := true }

theorem ppsLossFx_gives_up (b : Blk) (l : Nat) (hlast : b.time.ppsLast = some l) (hroot : b.on MTC_STATUS.is_root = true)
    (hvalid : b.on MTC_STATUS.pps_valid = true) (hdue : l + 1100000000 ≤ b.now) : ppsLossFx b = ppsGivenUp l b := by
  rw [ppsLossFx, hlast]
  exact if_pos ⟨hroot, hvalid, hdue⟩

theorem pulse_loss (s : State) (l : Nat) (hlast : s.blk.time.ppsLast = some l) (hroot : s.blk.on MTC_STATUS.is_root = true)
    (hvalid : s.blk.on MTC_STATUS.pps_valid = true) (hdue : l + 1100000000 ≤ s.blk.now) :
    Does .ppsLossTimeout s fun b =>
      b.rd MTC_STATUS.pps_valid = 0 ∧ Raised 0 4 0x0103 (min ((s.blk.now - l) / 1000) (2 ^ 32 - 1)) s.blk b
        ∧ b.reg .mtcRate = s.blk.reg .mtcRate ∧ b.time.mtc = s.blk.time.mtc ∧ TimeOnly [.mtcStatus] s.blk b := by
  refine does_of_onBlk (f := ppsLossFx) rfl ?_
  rw [ppsLossFx_gives_up s.blk l hlast hroot hvalid hdue]
  have honly : TimeOnly [.mtcStatus] s.blk (ppsGivenUp l s.blk) := by
    unfold ppsGivenUp
    exact timeOnly_updTime (timeOnly_raiseInj (timeOnly_wr (timeOnly_refl _ _) (by decide)) (by decide) (by decide))
  refine ⟨?_, ?_, honly.1 _ (by decide), ?_, honly⟩
  · rw [ppsGivenUp, updTime_rd, raiseInj_rd]
    exact wr_rd_same _ _ _ (by decide)
  · refine raised_congr (wr_ev ..) (wr_now ..) ?_ (raiseInj_raised (s.blk.wr MTC_STATUS.pps_valid 0) false 0 uMtc 0x0103
      (satur 32 ((s.blk.now - l) / 1000)) (by decide) (by decide))
    rw [ppsGivenUp, updTime_ev]
  · rw [ppsGivenUp, updTime_time, raiseInj_time, wr_time]

theorem pulsesDisciplineTheRoot : PulsesDisciplineTheRoot := ⟨pulse_counts, pulse_loss⟩

/-! ### The oscillator pair (R27) -/

/-- The other oscillator takes over, with EV_MTO_SWITCH. -/
def switched (m : OscMeasure) (b : Blk) : Blk :=
  let sel := 1 - b.rd MTC_STATUS.mto_sel
  ((b.wr MTC_STATUS.mto_sel sel).raiseInj false 0 uMtc 0x0102
    (sel + 2 * b2n (!m.stopped) + wrapInt 32 m.drift * 4)).updTime fun t => { t with otherOscBad := true, lockCount := 0 }

theorem oscillatorFx_switches (m : OscMeasure) (b : Blk) (hinj : NoInj b) (hbad : m.stopped = true ∨ 10000 < m.drift.natAbs)
    (hok : m.otherOk = true) (hother : b.time.otherOscBad = false) :
    oscillatorFx m b = if b.on MTC_STATUS.is_root then switched m b else (switched m b).wr MTC_STATUS.locked 0 := by
  have hroot : (switched m b).on MTC_STATUS.is_root = b.on MTC_STATUS.is_root := by
    rw [switched, updTime_on, raiseInj_on, wr_on_disj _ _ _ _ (by rfl) (by decide) (by decide)]
  rw [← hroot]
  unfold oscillatorFx
  rw [fire_none b 0x0C _ hinj]
  simp only [Option.isSome_none, Bool.or_false, hbad, if_true, hok, hother, Bool.false_eq_true, not_false_eq_true, and_self]
  rfl

theorem switched_time (m : OscMeasure) (b : Blk) :
    (switched m b).time = { b.time with otherOscBad := true, lockCount := 0 } := by
  rw [switched, updTime_time, raiseInj_time, wr_time]

theorem switched_sel (m : OscMeasure) (b : Blk) : (switched m b).rd MTC_STATUS.mto_sel = 1 - b.rd MTC_STATUS.mto_sel := by
  rw [switched, updTime_rd, raiseInj_rd, wr_rd_same _ _ _ (by decide)]
  exact Nat.mod_eq_of_lt (Nat.lt_succ_of_le (Nat.sub_le ..))

theorem switched_locked (m : OscMeasure) (b : Blk) : (switched m b).rd MTC_STATUS.locked = b.rd MTC_STATUS.locked := by
  rw [switched, updTime_rd, raiseInj_rd, wr_rd_disj _ _ _ _ (by rfl) (by decide) (by decide)]

theorem switched_raised (m : OscMeasure) (b : Blk) : Raised 0 4 0x0102
    (1 - b.rd MTC_STATUS.mto_sel + 2 * b2n (!m.stopped) + wrapInt 32 m.drift * 4) b (switched m b) := by
  refine raised_congr (wr_ev ..) (wr_now ..) ?_ (raiseInj_raised (b.wr MTC_STATUS.mto_sel (1 - b.rd MTC_STATUS.mto_sel)) false 0
    uMtc 0x0102 (1 - b.rd MTC_STATUS.mto_sel + 2 * b2n (!m.stopped) + wrapInt 32 m.drift * 4) (by decide) (by decide))
  rw [switched, updTime_ev]

theorem timeOnly_switched (m : OscMeasure) (b : Blk) : TimeOnly [.mtcStatus] b (switched m b) := by
  unfold switched
  exact timeOnly_updTime (timeOnly_raiseInj (timeOnly_wr (timeOnly_refl _ _) (by decide)) (by decide) (by decide))

theorem oscillator_switches (m : OscMeasure) (s : State) (hinj : NoInj s.blk)
    (hbad : m.stopped = true ∨ 10000 < m.drift.natAbs) (hok : m.otherOk = true) (hother : s.blk.time.otherOscBad = false) :
    Does (.oscillatorCheck m) s fun b =>
      b.rd MTC_STATUS.mto_sel = 1 - s.blk.rd MTC_STATUS.mto_sel
        ∧ Raised 0 4 0x0102 (1 - s.blk.rd MTC_STATUS.mto_sel + 2 * b2n (!m.stopped) + wrapInt 32 m.drift * 4) s.blk b
        ∧ b.rd MTC_STATUS.locked = (if s.blk.on MTC_STATUS.is_root then s.blk.rd MTC_STATUS.locked else 0)
        ∧ b.time.mtc = s.blk.time.mtc ∧ TimeOnly [.mtcStatus] s.blk b := by
  refine does_of_onBlk (f := oscillatorFx m) rfl ?_
  rw [oscillatorFx_switches m s.blk hinj hbad hok hother]
  split
  · refine ⟨switched_sel .., switched_raised .., switched_locked .., ?_, timeOnly_switched ..⟩
    rw [switched_time]
  · refine ⟨?_, raised_congr rfl rfl (wr_ev ..).symm (switched_raised ..), ?_, ?_, timeOnly_wr (timeOnly_switched ..) (by decide)⟩
    · rw [wr_rd_disj _ _ _ _ (by rfl) (by decide) (by decide), switched_sel]
    · exact wr_rd_same _ _ _ (by decide)
    · rw [wr_time, switched_time]

/-! ### Backup roots (R32, R37) -/

theorem takeRoot_time (b : Blk) : b.takeRoot.time = { b.time with holdSince := none, holdRaised := false } := by
  rw [Blk.takeRoot, updTime_time, wr_time, wr_time, wr_time, wr_time]

theorem timeOnly_takeRoot {l : List Reg} {b c : Blk} (h : TimeOnly l b c) (hl : Reg.mtcStatus.addr ∈ l.map Reg.addr) :
    TimeOnly l b c.takeRoot := by
  unfold Blk.takeRoot
  exact timeOnly_updTime (timeOnly_wr (timeOnly_wr (timeOnly_wr (timeOnly_wr h hl) hl) hl) hl)

theorem takeRoot_rd_ne (b : Blk) (f : Fld) (hf : f.reg.addr ≠ Reg.mtcStatus.addr) : b.takeRoot.rd f = b.rd f := by
  rw [Blk.takeRoot, updTime_rd, wr_rd_ne _ _ _ _ hf, wr_rd_ne _ _ _ _ hf, wr_rd_ne _ _ _ _ hf, wr_rd_ne _ _ _ _ hf]

/-- The role is held, locked, at no hops and without holdover. -/
theorem takeRoot_status (b : Blk) : b.takeRoot.rd MTC_STATUS.is_root = 1 ∧ b.takeRoot.rd MTC_STATUS.locked = 1
    ∧ b.takeRoot.rd MTC_STATUS.hops = 0 ∧ b.takeRoot.rd MTC_STATUS.holdover = 0 := by
  refine ⟨?_, ?_, ?_, ?_⟩ <;> rw [Blk.takeRoot, updTime_rd]
  · rw [wr_rd_disj _ _ _ _ (by rfl) (by decide) (by decide), wr_rd_disj _ _ _ _ (by rfl) (by decide) (by decide),
      wr_rd_disj _ _ _ _ (by rfl) (by decide) (by decide)]
    exact wr_rd_same _ _ _ (by decide)
  · rw [wr_rd_disj _ _ _ _ (by rfl) (by decide) (by decide), wr_rd_disj _ _ _ _ (by rfl) (by decide) (by decide)]
    exact wr_rd_same _ _ _ (by decide)
  · rw [wr_rd_disj _ _ _ _ (by rfl) (by decide) (by decide)]
    exact wr_rd_same _ _ _ (by decide)
  · exact wr_rd_same _ _ _ (by decide)

theorem backup_takes_over (s : State) (hrank : s.blk.rd MTC_CTRL.backup_rank ≠ 0)
    (hstate : s.blk.dstate = stReady ∨ s.blk.dstate = stArmed ∨ s.blk.dstate = stRun)
    (hroot : s.blk.on MTC_STATUS.is_root = false)
    (hdue : s.blk.time.noRootSince + (1 + 5 * (s.blk.rd MTC_CTRL.backup_rank - 1)) * 1000000 ≤ s.blk.now) :
    Does .backupRootTakeover s fun b =>
      b.rd MTC_STATUS.is_root = 1 ∧ b.rd MTC_STATUS.locked = 1 ∧ b.rd MTC_STATUS.hops = 0 ∧ b.rd MTC_STATUS.holdover = 0
        ∧ b.rd MTC_ROOT_TRIM.trim = s.blk.rd MTC_RATE.adj ∧ b.reg .mtcRate = s.blk.reg .mtcRate
        ∧ b.time.mtc = s.blk.time.mtc ∧ b.time.holdSince = none ∧ TimeOnly [.mtcStatus, .mtcRootTrim] s.blk b := by
  refine does_of_onBlk (f := backupRootFx) rfl ?_
  have hfx : backupRootFx s.blk = (s.blk.wr MTC_ROOT_TRIM.trim (s.blk.rd MTC_RATE.adj)).takeRoot :=
    if_pos ⟨hrank, hstate, by simp [hroot], hdue⟩
  have honly : TimeOnly [.mtcStatus, .mtcRootTrim] s.blk (s.blk.wr MTC_ROOT_TRIM.trim (s.blk.rd MTC_RATE.adj)).takeRoot :=
    timeOnly_takeRoot (timeOnly_wr (timeOnly_refl _ _) (by decide)) (by decide)
  rw [hfx]
  obtain ⟨hisroot, hlocked, hhops, hhold⟩ := takeRoot_status (s.blk.wr MTC_ROOT_TRIM.trim (s.blk.rd MTC_RATE.adj))
  refine ⟨hisroot, hlocked, hhops, hhold, ?_, honly.1 _ (by decide), ?_, ?_, honly⟩
  · rw [takeRoot_rd_ne _ _ (by decide), wr_rd_same _ _ _ (by decide)]
    exact Nat.mod_eq_of_lt (rd_lt s.blk MTC_RATE.adj)
  · rw [takeRoot_time, wr_time]
  · rw [takeRoot_time]

theorem oscillatorAndBackupRootTakeOver : OscillatorAndBackupRootTakeOver := ⟨oscillator_switches, backup_takes_over⟩

/-- Settles O43: the law's update at a root and without contributors, the 1PPS edges, the oscillator pair and the backup roots. -/
theorem rootTimeAndItsTakeover : Obligations.RootTimeAndItsTakeover :=
  ⟨rootTrimAndHoldover, pulsesDisciplineTheRoot, oscillatorAndBackupRootTakeOver⟩

end Sys2Proof.Proofs
end

section
/-!
PROOFS. The scheduled-event table (R43): the only due entry is the next one, and taking it leaves all but its validity alone.
-/
namespace Sys2Proof.Proofs
open Sys2Proof Sys2Proof.Machine Sys2Proof.Says

theorem eq_singleton_of_nodup {α : Type} {l : List α} {a : α} (hl : l.Nodup) (ha : a ∈ l) (h : ∀ x ∈ l, x = a) : l = [a] := by
  cases l with
  | nil => exact absurd ha List.not_mem_nil
  | cons x xs =>
    obtain ⟨hx, -⟩ := List.nodup_cons.1 hl
    have hxa : x = a := h x List.mem_cons_self
    have hxs : xs = [] := List.eq_nil_iff_forall_not_mem.2 fun y hy =>
      hx (by rwa [hxa, ← h y (List.mem_cons_of_mem _ hy)])
    rw [hxa, hxs]

/-- The entries that are due are the one that `Due` names. -/
theorem due_filter {n action : Nat} {b : Blk} (h : Due n action b) :
    ((List.range 32).filter fun n => b.on (MTC_SCHED_ACT.valid n) && decide (b.schedInst n + 40 ≤ b.now)) = [n] := by
  obtain ⟨hn, hvalid, -, hdue, hothers⟩ := h
  refine eq_singleton_of_nodup (List.nodup_range.filter _) (by simp [hn, hvalid, hdue]) fun m hm => ?_
  simp only [List.mem_filter, List.mem_range, Bool.and_eq_true, decide_eq_true_eq] at hm
  obtain ⟨hm32, hmvalid, hmdue⟩ := hm
  by_contra hne
  have := hothers m hm32 hne hmvalid
  omega

theorem nextDue_due {n action : Nat} {b : Blk} (h : Due n action b) : b.nextDue = some n := by
  unfold Blk.nextDue
  rw [due_filter h]
  simp

/-- No due entry is a command without a holder, unless the due one is. -/
theorem dropOrphans_due {n action : Nat} {b : Blk} (h : Due n action b) (h4 : action ≠ 4) : b.dropOrphans = b := by
  unfold Blk.dropOrphans
  refine foldl_inv _ (fun c => c = b) _ b rfl fun c m hm hc => ?_
  rw [hc]
  refine if_neg fun hm' => ?_
  obtain ⟨hvalid, hact, hdue, -⟩ := hm'
  obtain ⟨-, -, haction, -, hothers⟩ := h
  by_cases hmn : m = n
  · rw [hmn, haction] at hact
    exact h4 hact
  · have := hothers m (List.mem_range.1 hm) hmn hvalid
    omega

/-- The due entry becomes invalid and acts on its argument at its instant. -/
theorem takeDue_due {n action : Nat} {b : Blk} (h : Due n action b) (h4 : action ≠ 4) (f : Nat → Nat → Nat → Blk → Blk) :
    takeDue action f b = f n (argOf n b) (b.schedInst n) (b.wr (MTC_SCHED_ACT.valid n) 0) := by
  unfold takeDue
  rw [dropOrphans_due h h4]
  dsimp only
  rw [nextDue_due h]
  obtain ⟨-, -, haction, -, -⟩ := h
  dsimp only
  rw [if_neg (not_not.2 haction), argOf]

theorem wr_valid_off (n : Nat) (b : Blk) : (b.wr (MTC_SCHED_ACT.valid n) 0).on (MTC_SCHED_ACT.valid n) = false := by
  rw [Blk.on, wr_rd_same _ _ _ (by simp [MTC_SCHED_ACT.valid])]
  simp

end Sys2Proof.Proofs
end

section
/-!
PROOFS. Self-tests (O44): the windows of the scheduled-event table (R43, R45, R297), and tests that start and report (R297 to R299).
-/
namespace Sys2Proof.Proofs
open Sys2Proof Sys2Proof.Machine Sys2Proof.Says

/-! ### Windows -/

/-- Entry `m` of the table closes a window that opens at `t`. -/
def closes (b : Blk) (t m : Nat) : Bool :=
  b.on (MTC_SCHED_ACT.valid m) ∧ b.rd (MTC_SCHED_ACT.action m) = 7 ∧ t ≤ b.schedInst m

/-- With no job loaded a window ends at the earliest close of the table. -/
theorem windowEnd_eq_min (b : Blk) (t : Nat) (hjob : b.run.job = none) :
    b.windowEnd t = (((List.range 32).filter (closes b t)).map b.schedInst).min? := by
  unfold Blk.windowEnd
  rw [hjob]
  dsimp only
  rw [List.append_nil]
  unfold closes
  split
  · next h => rw [h]; rfl
  · next h => rw [h]; rfl

/-- An entry that opens the window does not close it, whether it is still valid or not. -/
theorem closes_wr_valid (b : Blk) (t n m : Nat) (hn : b.rd (MTC_SCHED_ACT.action n) = 6) :
    closes (b.wr (MTC_SCHED_ACT.valid n) 0) t m = closes b t m := by
  have hsched : (b.wr (MTC_SCHED_ACT.valid n) 0).schedInst m = b.schedInst m := by rw [Blk.schedInst, wr_sched, Blk.schedInst]
  unfold closes
  rw [hsched]
  by_cases hmn : m = n
  · rw [hmn, wr_rd_disj b (MTC_SCHED_ACT.valid n) (MTC_SCHED_ACT.action n) 0 (by simp [MTC_SCHED_ACT.valid, MTC_SCHED_ACT.action])
      (by simp [MTC_SCHED_ACT.valid, MTC_SCHED_ACT.action]) (by simp [MTC_SCHED_ACT.action]), hn]
    simp
  · have haddr : (Reg.mtcSchedAct m).addr ≠ (Reg.mtcSchedAct n).addr := by
      have haddr (k : Nat) : (Reg.mtcSchedAct k).addr = hubBase + 0x10208 + k * 16 := rfl
      rw [haddr, haddr]
      omega
    rw [wr_on_ne _ _ _ _ haddr, wr_rd_ne _ _ _ _ haddr]

theorem windowEnd_opened (b : Blk) (t n : Nat) (hn : b.rd (MTC_SCHED_ACT.action n) = 6) (hjob : b.run.job = none) :
    (b.wr (MTC_SCHED_ACT.valid n) 0).windowEnd t = (((List.range 32).filter (closes b t)).map b.schedInst).min? := by
  have hinst : (b.wr (MTC_SCHED_ACT.valid n) 0).schedInst = b.schedInst := by
    funext m
    rw [Blk.schedInst, wr_sched, Blk.schedInst]
  rw [windowEnd_eq_min _ _ (by rw [wr_run, hjob]), hinst, funext fun m => closes_wr_valid b t n m hn]

theorem mem_closes {b : Blk} {t m : Nat} : m ∈ (List.range 32).filter (closes b t) ↔
    m < 32 ∧ b.on (MTC_SCHED_ACT.valid m) = true ∧ b.rd (MTC_SCHED_ACT.action m) = 7 ∧ t ≤ b.schedInst m := by
  simp [closes]

/-- A self-test window is set, or none. -/
def windowSet (n : Nat) (w : Option Nat) (b : Blk) : Blk :=
  (b.wr (MTC_SCHED_ACT.valid n) 0).updRas fun r => { r with window := w }

theorem windowSet_valid (n : Nat) (w : Option Nat) (b : Blk) : (windowSet n w b).on (MTC_SCHED_ACT.valid n) = false := by
  rw [windowSet, updRas_on, wr_valid_off]

theorem regsKeep_windowSet (n : Nat) (w : Option Nat) (b : Blk) : RegsKeep [.mtcSchedAct n] b (windowSet n w b) := fun r hr => by
  rw [windowSet, updRas_reg]
  exact regsKeep_wr b (MTC_SCHED_ACT.valid n) 0 (by simp [MTC_SCHED_ACT.valid]) r hr

theorem updRas_of_regs {b c : Blk} (h : c = { b with regs := c.regs }) (f : RasSt → RasSt) :
    c.updRas f = { b with regs := (c.updRas f).regs, ras := f b.ras } := by
  rw [updRas_regs, Blk.updRas]
  conv_lhs => rw [h]

theorem windowSet_eq (n : Nat) (w : Option Nat) (b : Blk) :
    windowSet n w b = { b with regs := (windowSet n w b).regs, ras := { b.ras with window := w } } :=
  updRas_of_regs (wr_eq b (MTC_SCHED_ACT.valid n) 0) _

theorem selftestWindow_opens (s : State) (n : Nat) (hdue : Due n 6 s.blk) (hjob : s.blk.run.job = none) :
    Does .selftestWindowOpen s fun b =>
      let later (m : Nat) : Prop := m < 32 ∧ s.blk.on (MTC_SCHED_ACT.valid m) = true ∧ s.blk.rd (MTC_SCHED_ACT.action m) = 7
        ∧ s.blk.schedInst n ≤ s.blk.schedInst m
      b.on (MTC_SCHED_ACT.valid n) = false
        ∧ (∀ m, later m → ∃ e, b.ras.window = some e ∧ e ≤ s.blk.schedInst m)
        ∧ (∀ e, b.ras.window = some e → ∃ m, later m ∧ s.blk.schedInst m = e)
        ∧ RegsKeep [.mtcSchedAct n] s.blk b
        ∧ b = { s.blk with regs := b.regs, ras := { s.blk.ras with window := b.ras.window } } := by
  refine does_of_onBlk (f := windowOpenFx) rfl ?_
  have hfx : windowOpenFx s.blk =
      windowSet n (((List.range 32).filter (closes s.blk (s.blk.schedInst n))).map s.blk.schedInst).min? s.blk := by
    rw [windowOpenFx, takeDue_due hdue (by decide)]
    obtain ⟨-, -, haction, -, -⟩ := hdue
    rw [windowEnd_opened _ _ _ haction hjob, windowSet]
  rw [hfx]
  refine ⟨windowSet_valid .., fun m hm => ?_, fun e he => ?_, regsKeep_windowSet _ _ _, windowSet_eq ..⟩
  · have hmem : s.blk.schedInst m ∈ ((List.range 32).filter (closes s.blk (s.blk.schedInst n))).map s.blk.schedInst :=
      List.mem_map_of_mem (mem_closes.2 hm)
    obtain ⟨e, he⟩ := Option.isSome_iff_exists.1 (List.isSome_min?_of_mem hmem)
    exact ⟨e, he, (List.min?_eq_some_iff.1 he).2 _ hmem⟩
  · obtain ⟨m, hm, hme⟩ := List.mem_map.1 (List.min?_mem he)
    exact ⟨m, mem_closes.1 hm, hme⟩

theorem selftestWindow_closes (s : State) (n : Nat) (hdue : Due n 7 s.blk) :
    Does .selftestWindowClose s fun b => b.on (MTC_SCHED_ACT.valid n) = false ∧ b.ras.window = none
      ∧ RegsKeep [.mtcSchedAct n] s.blk b
      ∧ b = { s.blk with regs := b.regs, ras := { s.blk.ras with window := none } } := by
  refine does_of_onBlk (f := windowShutFx) rfl ?_
  have hfx : windowShutFx s.blk = windowSet n none s.blk := by
    rw [windowShutFx, takeDue_due hdue (by decide), windowSet]
  rw [hfx]
  exact ⟨windowSet_valid .., rfl, regsKeep_windowSet _ _ _, windowSet_eq ..⟩

theorem selftestWindowsOpenAndClose : SelftestWindowsOpenAndClose := ⟨selftestWindow_opens, selftestWindow_closes⟩

/-! ### Tests -/

/-- Unit `u` is under test. -/
def underTest (q : Nat) (u : StUnit) (b : Blk) : Blk :=
  b.updRas fun r => { r with running := Sp.set none r.running q (some ⟨u, b.now⟩) }

theorem testStartFx_first (die : Fin 20) (b : Blk) (u : StUnit) (rest : List StUnit) (hq : Queued die u rest b)
    (hidle : b.testable u = true) (hfits : b.testFits u = true) :
    testStartFx die b =
      if u.kind = 1 then
        (underTest (stQueue die.val) u b).wr (SITE_CORE.state (u.die - 1) (b.rd (SITE_MAP.phys (u.die - 1) u.unit))) 3
      else underTest (stQueue die.val) u b := by
  obtain ⟨hst, hrunning, hon, hqueue⟩ := hq
  unfold testStartFx
  dsimp only
  rw [if_neg (by rw [hrunning]; rcases hon with h | h <;> simp [h] <;> omega), hqueue,
    List.find?_cons_of_pos (by simp [hidle, hfits])]
  rfl

theorem unitTest_starts (die : Fin 20) (s : State) (u : StUnit) (rest : List StUnit) (hq : Queued die u rest s.blk)
    (hidle : s.blk.testable u = true) (hfits : s.blk.testFits u = true) :
    Does (.unitTestStart die) s fun b => Sp.get none b.ras.running (stQueue die.val) = some ⟨u, s.blk.now⟩
      ∧ b.ras.queues = s.blk.ras.queues
      ∧ (u.kind ≠ 1 → b.regs = s.blk.regs)
      ∧ (u.kind = 1 → let c := s.blk.rd (SITE_MAP.phys (u.die - 1) u.unit)
          b.rd (SITE_CORE.state (u.die - 1) c) = 3 ∧ RegsKeep [.siteCore (u.die - 1) c] s.blk b) := by
  refine does_of_onBlk (f := testStartFx die) rfl ?_
  rw [testStartFx_first die s.blk u rest hq hidle hfits]
  split
  · next hkind =>
    refine ⟨?_, ?_, fun h => absurd hkind h, fun _ => ⟨wr_rd_same _ _ _ (by simp [SITE_CORE.state]), ?_⟩⟩
    · rw [wr_ras, underTest, updRas_ras, Sp.get_set_same]
    · rw [wr_ras, underTest, updRas_ras]
    · exact regsKeep_wr (underTest (stQueue die.val) u s.blk) _ _ (by simp [SITE_CORE.state])
  · next hkind =>
    refine ⟨?_, ?_, fun _ => ?_, fun h => absurd h hkind⟩
    · rw [underTest, updRas_ras, Sp.get_set_same]
    · rw [underTest, updRas_ras]
    · rw [underTest, updRas_regs]

/-- Unit `u` has been tested: the test ends, and the unit leaves the queue. -/
def tested (q : Nat) (u : StUnit) (b : Blk) : Blk :=
  b.updRas fun r =>
    { r with running := Sp.set none r.running q none,
             queues := Sp.set [] r.queues q ((Sp.get [] r.queues q).filter fun x =>
               ¬(x.die = u.die ∧ x.unit = u.unit ∧ x.kind = u.kind ∧ x.arg = u.arg)) }

/-- What RAS_ST_LAST shows of the test (R299). -/
def testResult (u : StUnit) (pass : Bool) (ns : Nat) : Nat :=
  u.kind + (u.die + (u.unit % 2 ^ 11) * 2 ^ 5) * 2 ^ 8 + b2n pass * 2 ^ 24 + satur 32 ns * 2 ^ 32

theorem testResult_kind (u : StUnit) (pass : Bool) (ns : Nat) (hkind : u.kind < 2 ^ 8) : bits (testResult u pass ns) 0 8 = u.kind := by
  simp only [testResult, bits, Nat.shiftRight_zero]
  omega

theorem testResult_pass (u : StUnit) (pass : Bool) (ns : Nat) (hkind : u.kind < 2 ^ 8) (hdie : u.die < 32) :
    bits (testResult u pass ns) 24 1 = if pass then 1 else 0 := by
  simp only [testResult, bits, Nat.shiftRight_eq_div_pow]
  cases pass
  · simp only [b2n_false, Bool.false_eq_true, if_false]
    omega
  · simp only [b2n_true, if_true]
    omega

/-- A pass is recorded as a transient. -/
def transientIf (u : StUnit) (pass : Bool) (b : Blk) : Blk :=
  if pass then b.updRas fun r => { r with transients := r.transients ++ [⟨u.die, u.unit, u.kind, u.arg, b.now⟩] } else b

/-- The unit's result is shown and recorded. -/
def reported (q : Nat) (u : StUnit) (pass : Bool) (t : Nat) (b : Blk) : Blk :=
  transientIf u pass ((tested q u b).setReg (.rasStLast q) (testResult u pass (b.now - t)))

theorem transientIf_eq (u : StUnit) (pass : Bool) (b : Blk) : transientIf u pass b = b.updRas fun r =>
    { r with transients := r.transients ++ if pass then [⟨u.die, u.unit, u.kind, u.arg, b.now⟩] else [] } := by
  cases pass <;> simp [transientIf, Blk.updRas]

theorem reported_ras (q : Nat) (u : StUnit) (pass : Bool) (t : Nat) (b : Blk) : (reported q u pass t b).ras =
    { (tested q u b).ras with
        transients := b.ras.transients ++ if pass then [⟨u.die, u.unit, u.kind, u.arg, b.now⟩] else [] } := by
  rw [reported, transientIf_eq, updRas_ras, setReg_ras, setReg_now]
  rfl

theorem reported_rd (q : Nat) (u : StUnit) (pass : Bool) (t : Nat) (b : Blk) (f : Fld) (hf : f.reg.addr ≠ (Reg.rasStLast q).addr) :
    (reported q u pass t b).rd f = b.rd f := by
  rw [reported, transientIf_eq, updRas_rd, setReg_rd_ne _ _ _ _ hf, tested, updRas_rd]

theorem reported_reg (q : Nat) (u : StUnit) (pass : Bool) (t : Nat) (b : Blk) :
    (reported q u pass t b).reg (.rasStLast q) = testResult u pass (b.now - t) % 2 ^ 64 := by
  rw [reported, transientIf_eq, updRas_reg, setReg_reg_same]

theorem reported_now (q : Nat) (u : StUnit) (pass : Bool) (t : Nat) (b : Blk) : (reported q u pass t b).now = b.now := by
  rw [reported, transientIf_eq, updRas_now, setReg_now, tested, updRas_now]

theorem reported_ev (q : Nat) (u : StUnit) (pass : Bool) (t : Nat) (b : Blk) : (reported q u pass t b).ev = b.ev := by
  rw [reported, transientIf_eq, updRas_ev, setReg_ev, tested, updRas_ev]

theorem regsKeep_reported (q : Nat) (u : StUnit) (pass : Bool) (t : Nat) (b : Blk) :
    RegsKeep [.rasStLast q] b (reported q u pass t b) := fun r hr => by
  rw [reported, transientIf_eq, updRas_reg, setReg_reg_ne _ _ _ _ (by simpa using hr), tested, updRas_reg]

/-- RAS_CFG and RAS_ST_LAST are registers apart. -/
theorem rasCfg_ne_rasStLast (q : Nat) : Reg.rasCfg.addr ≠ (Reg.rasStLast q).addr := by
  have hlast : (Reg.rasStLast q).addr = rasBase q + 0x28 := rfl
  have hcfg : Reg.rasCfg.addr = hubBase + 0xA0030 := rfl
  rw [hlast, hcfg, rasBase, dieBase, hubBase]
  split <;> omega

theorem transientCount_reported (q : Nat) (u : StUnit) (pass : Bool) (t : Nat) (b : Blk) :
    (reported q u pass t b).transientCount u = b.transientCount u + if pass then 1 else 0 := by
  unfold Blk.transientCount
  rw [reported_rd _ _ _ _ _ _ (rasCfg_ne_rasStLast q), reported_ras, reported_now]
  dsimp only
  rw [List.filter_append, List.length_append]
  cases pass <;> simp

/-- A gather engine has no spare. -/
theorem repair_gather (b : Blk) (u : StUnit) (hkind : u.kind = 4) : b.repair u = b := by simp [Blk.repair, hkind]

theorem testDoneFx_reports (die : Fin 20) (pass : Bool) (b : Blk) (u : StUnit) (t : Nat) (hkind : u.kind = 4)
    (hrun : Sp.get none b.ras.running (stQueue die.val) = some ⟨u, t⟩) :
    testDoneFx die pass b =
      (reported (stQueue die.val) u pass t b).raise u.die u.unit (if pass then 0x0804 else 0x0805)
        (u.kind + u.arg % 2 ^ 48 * 2 ^ 8 + satur 8 (b.transientCount u + if pass then 1 else 0) * 2 ^ 56) := by
  have h1 : ¬u.kind = 1 := by omega
  have h2 : ¬u.kind = 2 := by omega
  have h5 : ¬u.kind = 5 := by omega
  have h6 : ¬u.kind = 6 := by omega
  have hcore : ¬((decide (1 ≤ u.die) && decide (u.die ≤ 12) && decide (u.unit < 32)) = true ∧ u.kind = 1) := fun h => h1 h.2
  rw [← transientCount_reported (stQueue die.val) u pass t b]
  unfold testDoneFx
  dsimp only
  rw [hrun]
  dsimp only
  rw [if_neg h1, if_neg hcore, if_neg h2, if_neg h5, if_neg h6, repair_gather _ u hkind, ite_self]
  rfl

theorem unitTest_reports (die : Fin 20) (pass : Bool) (s : State) (u : StUnit) (t : Nat) (hkind : u.kind = 4)
    (_ : 36 ≤ u.unit) (_ : u.unit < 2 ^ 11) (hdie : u.die < 32)
    (hrun : Sp.get none s.blk.ras.running (stQueue die.val) = some ⟨u, t⟩) (_ : t ≤ s.blk.now)
    (_ : s.blk.transientCount u + 1 < s.blk.rd RAS_CFG.transient_limit) :
    Does (.unitTestComplete die pass) s fun b =>
      let n := s.blk.transientCount u + if pass then 1 else 0
      Sp.get none b.ras.running (stQueue die.val) = none
        ∧ (∀ v ∈ Sp.get [] b.ras.queues (stQueue die.val),
            ¬(v.die = u.die ∧ v.unit = u.unit ∧ v.kind = u.kind ∧ v.arg = u.arg))
        ∧ b.ras.transients = s.blk.ras.transients ++ (if pass then [⟨u.die, u.unit, u.kind, u.arg, s.blk.now⟩] else [])
        ∧ b.rd (RAS_ST_LAST.kind (stQueue die.val)) = u.kind
        ∧ b.rd (RAS_ST_LAST.pass (stQueue die.val)) = (if pass then 1 else 0)
        ∧ Logged u.die u.unit (if pass then 0x0804 else 0x0805) (u.kind + u.arg % 2 ^ 48 * 2 ^ 8 + min n (2 ^ 8 - 1) * 2 ^ 56) s.blk b
        ∧ RegsKeep [.rasStLast (stQueue die.val)] s.blk b := by
  refine does_of_onBlk (f := testDoneFx die pass) rfl ?_
  rw [testDoneFx_reports die pass s.blk u t hkind hrun]
  generalize stQueue die.val = q
  refine ⟨?_, ?_, ?_, ?_, ?_, ?_, ?_⟩
  · rw [raise_ras, reported_ras, tested, updRas_ras]
    dsimp only
    rw [Sp.get_set_same]
  · rw [raise_ras, reported_ras, tested, updRas_ras]
    dsimp only
    rw [Sp.get_set_same]
    intro v hv
    exact of_decide_eq_true (List.mem_filter.1 hv).2
  · rw [raise_ras, reported_ras]
  · rw [raise_rd, Blk.rd, RAS_ST_LAST.kind, reported_reg, bits_mod _ _ _ _ (by simp)]
    exact testResult_kind u pass _ (by omega)
  · rw [raise_rd, Blk.rd, RAS_ST_LAST.pass, reported_reg, bits_mod _ _ _ _ (by simp)]
    exact testResult_pass u pass _ (by omega) hdie
  · exact logged_since (reported_ev ..) (reported_now ..) (raise_logged _ _ _ _ _ (by cases pass <;> decide) (by cases pass <;> decide))
  · intro r hr
    rw [raise_reg, regsKeep_reported _ _ _ _ _ r hr]

theorem selfTestsRunAndReport : SelfTestsRunAndReport := ⟨unitTest_starts, unitTest_reports⟩

/-- Settles O44: the windows by what taking the one due entry leaves, the tests by the block that a start and a result leave. -/
theorem selfTestsAndTheirWindows : Obligations.SelfTestsAndTheirWindows :=
  ⟨selftestWindowsOpenAndClose, selfTestsRunAndReport⟩

end Sys2Proof.Proofs
end

section
/-!
PROOFS. Accesses to machine time, the event ports and the scheduled-event table (O10): R24, R309, R43, R44, R226.
-/
namespace Sys2Proof.Proofs
open Sys2Proof Sys2Proof.Machine Sys2Proof.Says

/-! ### Accesses that reach a register -/

/-- Past STANDBY the hub's registers have power (R374). -/
theorem poweredOff_hub (b : Blk) (a : Nat) (write : Bool) (hst : stStandby < b.dstate) (hhub : dieOfAddr a = 0) :
    b.poweredOff a write = false := by
  unfold Blk.poweredOff
  rw [hhub]
  simp [Nat.not_le.2 hst]

/-- A read that its path admits, of a register of the hub, shows the register and does what the read does beside (R367 to R369). -/
theorem readFx_hub (q : Path) (r : Reg) (b : Blk) (ho : OpenPath q b) (hr : regOfAddr r.addr = some r) (hal : r.addr % 8 = 0)
    (hreg : isRegAddr r.addr = true) (hhub : dieOfAddr r.addr = 0) :
    readFx q r.addr 8 b = (b.afterRead r).emit (.access q 0 (BitVec.ofNat 64 (b.view r))) := by
  obtain ⟨hopen, -, hdbg, hst⟩ := ho
  have hread : b.regRead q r.addr 8 = (0, b.view r, b.afterRead r) := by
    unfold Blk.regRead
    rw [if_neg (by simp [hal, hreg]), hdbg, poweredOff_hub b r.addr false hst hhub, hr]
    simp [Nat.not_le.2 hst, stDone]
  unfold readFx
  rw [hread]
  simp [hopen]

/-- A write that its path admits, of a register of the hub, reaches the register (R367 to R369). -/
theorem writeAt_hub (q : Path) (r : Reg) (v : Nat) (b : Blk) (ho : OpenPath q b) (hr : regOfAddr r.addr = some r)
    (hal : r.addr % 8 = 0) (hreg : isRegAddr r.addr = true) (hhub : dieOfAddr r.addr = 0) :
    writeAt q r v b = (b.writeReg false r v).2.emit (.access q (b.writeReg false r v).1 0) := by
  obtain ⟨hopen, hdbg, -, hst⟩ := ho
  have hwrite : b.regWrite false q r.addr 8 v = b.writeReg false r v := by
    unfold Blk.regWrite
    rw [if_neg (by simp [hal, hreg]), hdbg, poweredOff_hub b r.addr true hst hhub, hr]
    simp
  rw [writeAt, writeFx_open _ _ _ _ _ hopen, hwrite]

/-! ### Machine time (R24) -/

theorem ofNat_mod (n x : Nat) : BitVec.ofNat n (x % 2 ^ n) = BitVec.ofNat n x := BitVec.eq_of_toNat_eq (by simp)

theorem mtcNow_reads (q : Path) (s : State) (ho : OpenPath q s.blk) :
    Does (.mtcNowRead q) s fun b => Completes q 0 (BitVec.ofNat 64 s.blk.now) s.blk b
      ∧ b.rd MTC_NOW_FRAC.frac = s.blk.now16 % 2 ^ 16 ∧ RegsKeep [.mtcNowFrac] s.blk b
      ∧ b = { s.blk with regs := b.regs, out := b.out } := by
  refine does_of_onBlk (f := mtcNowReadFx q) rfl ?_
  have hfx : mtcNowReadFx q s.blk = (s.blk.wr MTC_NOW_FRAC.frac (s.blk.now16 % 2 ^ 16)).emit
      (.access q 0 (BitVec.ofNat 64 (s.blk.now % 2 ^ 64))) :=
    readFx_hub q .mtcNow s.blk ho (by decide +kernel) (by decide) (by decide) (by decide)
  rw [hfx]
  refine ⟨?_, ?_, ?_, ?_⟩
  · rw [Completes, emit_out, wr_out, ofNat_mod]
  · rw [emit_rd, wr_rd_same _ _ _ (by decide)]
    exact Nat.mod_mod ..
  · intro r hr
    rw [emit_reg]
    exact regsKeep_wr _ _ _ (by decide) r hr
  · rw [wr_eq]
    rfl

/-! ### Event ports (R309) -/

theorem evIndex_near (b : Blk) (r : Nat)
    (h : (b.rd CTL_EV_WR.index + 2 ^ 32 - b.rd (CTL_EV_RD.index r)) % 2 ^ 32 ≤ 4096) :
    b.evIndex r = (b.rd (CTL_EV_RD.index r), 0) := if_neg (Nat.not_lt.2 h)

theorem view_evData (b : Blk) (r w : Nat) (hne : b.rd (CTL_EV_RD.index r) ≠ b.rd CTL_EV_WR.index)
    (h : (b.rd CTL_EV_WR.index + 2 ^ 32 - b.rd (CTL_EV_RD.index r)) % 2 ^ 32 ≤ 4096) :
    b.view (.ctlEvData r w) = bits (b.ringRec (b.rd (CTL_EV_RD.index r))).toNat (64 * w) 64 := by
  unfold Blk.view
  dsimp only
  rw [evIndex_near b r h]
  simp [hne]

theorem afterRead_evData (b : Blk) (r w : Nat) (hne : b.rd (CTL_EV_RD.index r) ≠ b.rd CTL_EV_WR.index)
    (h : (b.rd CTL_EV_WR.index + 2 ^ 32 - b.rd (CTL_EV_RD.index r)) % 2 ^ 32 ≤ 4096) :
    b.afterRead (.ctlEvData r w) = if w = 3 then b.incBy (CTL_EV_RD.index r) 1 else b := by
  unfold Blk.afterRead
  dsimp only
  rw [evIndex_near b r h]
  simp [hne]

/-- The event ports are registers of the hub. -/
theorem evData_reached : ∀ r w : Fin 4, regOfAddr (Reg.ctlEvData r.val w.val).addr = some (.ctlEvData r.val w.val)
    ∧ (Reg.ctlEvData r.val w.val).addr % 8 = 0 ∧ isRegAddr (Reg.ctlEvData r.val w.val).addr = true
    ∧ dieOfAddr (Reg.ctlEvData r.val w.val).addr = 0 := by decide +kernel

theorem eventRing_reads (q : Path) (r w : Fin 4) (s : State) (ho : OpenPath q s.blk) :
    let i := s.blk.rd (CTL_EV_RD.index r.val)
    i ≠ s.blk.rd CTL_EV_WR.index → (s.blk.rd CTL_EV_WR.index + 2 ^ 32 - i) % 2 ^ 32 ≤ 4096 →
    Does (.eventRingRead q r w) s fun b =>
      Completes q 0 (BitVec.ofNat 64 ((s.blk.ringRec i).toNat / 2 ^ (64 * w.val))) s.blk b
        ∧ b.rd (CTL_EV_RD.index r.val) = (if w.val = 3 then (i + 1) % 2 ^ 32 else i)
        ∧ RegsKeep [.ctlEvRd r.val] s.blk b ∧ b = { s.blk with regs := b.regs, out := b.out } := by
  intro i hne hnear
  refine does_of_onBlk (f := eventReadFx q r w) rfl ?_
  obtain ⟨hr, hal, hreg, hhub⟩ := evData_reached r w
  rw [eventReadFx, readFx_hub q _ s.blk ho hr hal hreg hhub, view_evData _ _ _ hne hnear, afterRead_evData _ _ _ hne hnear]
  have hvalue : BitVec.ofNat 64 (bits (s.blk.ringRec i).toNat (64 * w.val) 64)
      = BitVec.ofNat 64 ((s.blk.ringRec i).toNat / 2 ^ (64 * w.val)) := by
    rw [bits, Nat.shiftRight_eq_div_pow, ofNat_mod]
  rw [← hvalue]
  split
  · refine ⟨?_, ?_, fun x hx => ?_, ?_⟩
    · rw [Completes, emit_out, incBy_eq, wr_out]
    · rw [emit_rd, incBy_eq, wr_rd_same _ _ _ (by simp [CTL_EV_RD.index])]
      rfl
    · rw [emit_reg, incBy_eq]
      exact regsKeep_wr _ _ _ (by simp [CTL_EV_RD.index]) x hx
    · rw [incBy_eq, wr_eq]
      rfl
  · exact ⟨emit_out .., emit_rd .., fun x _ => emit_reg .., rfl⟩

/-! ### The scheduled-event table (R43, R44, R226) -/

theorem schedAct_reached : ∀ n : Fin 32, regOfAddr (Reg.mtcSchedAct n.val).addr = some (.mtcSchedAct n.val)
    ∧ (Reg.mtcSchedAct n.val).addr % 8 = 0 ∧ isRegAddr (Reg.mtcSchedAct n.val).addr = true
    ∧ dieOfAddr (Reg.mtcSchedAct n.val).addr = 0 := by decide +kernel

theorem writeReg_schedAct (b : Blk) (n v : Nat) : b.writeReg false (.mtcSchedAct n) v = (0, b.schedWrite n v) := rfl

theorem schedEntryWrite_does {P : Blk → Prop} (q : Path) (n : Fin 32) (v : BitVec 64) (s : State) (ho : OpenPath q s.blk)
    (h : P ((s.blk.schedWrite n.val v.toNat).emit (.access q 0 0))) : Does (.schedEntryWrite q n v) s P := by
  refine does_of_onBlk (f := writeAt q (.mtcSchedAct n.val) v.toNat) rfl ?_
  obtain ⟨hr, hal, hreg, hhub⟩ := schedAct_reached n
  rwa [writeAt_hub q _ _ s.blk ho hr hal hreg hhub, writeReg_schedAct]

/-- A free entry is taken if its instant and the state allow it, or raises EV_SCHED_LATE. -/
theorem schedWrite_free (b : Blk) (n v : Nat) (hfree : b.on (MTC_SCHED_ACT.valid n) = false) (hvalid : bit v 8 = true)
    (hlo : 1 ≤ bits v 0 8) (hhi : bits v 0 8 ≤ 7) :
    b.schedWrite n v =
      if b.schedOk (b.rd (MTC_SCHED_TIME.instant n)) then
        b.setEntry n (bits v 0 8) (bits v 32 32) (b.rd (MTC_SCHED_TIME.instant n))
      else b.schedLate (bits v 0 8) n (b.rd (MTC_SCHED_TIME.instant n)) 0 := by
  unfold Blk.schedWrite
  simp only [hvalid, hfree, Bool.false_eq_true, false_and, if_true, if_false]
  rw [if_neg (by omega), ite_not]

theorem setEntry_arg (b : Blk) (n action arg inst : Nat) :
    (b.setEntry n action arg inst).rd (MTC_SCHED_ACT.arg n) = arg % 2 ^ 32 := by
  simp only [Blk.rd, MTC_SCHED_ACT.arg, setEntry_reg_same, bits, Nat.shiftRight_eq_div_pow]
  omega

theorem setEntry_schedInst_ne (b : Blk) (n action arg inst : Nat) {m : Nat} (hm : m ≠ n) :
    (b.setEntry n action arg inst).schedInst m = b.schedInst m := by
  rw [Blk.schedInst, setEntry_sched, Sp.get_set_ne _ _ _ _ _ hm, Blk.schedInst]

theorem regsKeep_setEntry (b : Blk) (n action arg inst : Nat) : RegsKeep [.mtcSchedAct n] b (b.setEntry n action arg inst) :=
  fun r hr => by rw [Blk.setEntry, updSched_reg, setReg_reg_ne _ _ _ _ (by simpa using hr)]

theorem setEntry_eq (b : Blk) (n action arg inst : Nat) : b.setEntry n action arg inst =
    { b with regs := (b.setEntry n action arg inst).regs, sched := (b.setEntry n action arg inst).sched } := by
  rw [Blk.setEntry, setReg_eq]
  rfl

/-- Router `ld` counts a refused switch and keeps it in mind (R226). -/
def refusing (ld : Nat) (b : Blk) : Blk :=
  (b.satBy (ROUTE_EPOCH.refused ld) 1).updRouter ld fun r => { r with refusedSwitch := true }

theorem refuseEntry_refusing (b : Blk) : b.refuseEntry = refusing 1 (refusing 0 b) := rfl

theorem routeEpoch_addr_ne {m n : Nat} (h : m ≠ n) : (Reg.routeEpoch m).addr ≠ (Reg.routeEpoch n).addr := by
  have haddr (k : Nat) : (Reg.routeEpoch k).addr = ldBase k + 0x80000 + 0x8 := rfl
  rw [haddr, haddr, ldBase, ldBase, dieBase, dieBase]
  omega

theorem refusing_same (ld : Nat) (b : Blk) : (refusing ld b).rd (ROUTE_EPOCH.refused ld)
    = min (b.rd (ROUTE_EPOCH.refused ld) + 1) (2 ^ 32 - 1) ∧ ((refusing ld b).router ld).refusedSwitch = true := by
  refine ⟨?_, ?_⟩
  · rw [refusing, updRouter_rd, satBy_rd_same _ _ _ (by simp [ROUTE_EPOCH.refused])]
    rfl
  · rw [refusing, Blk.router, Blk.updRouter, Sp.get_set_same]

theorem refusing_ne {ld m : Nat} (b : Blk) (h : m ≠ ld) : (refusing ld b).rd (ROUTE_EPOCH.refused m) = b.rd (ROUTE_EPOCH.refused m)
    ∧ (refusing ld b).router m = b.router m := by
  refine ⟨?_, ?_⟩
  · rw [refusing, updRouter_rd, satBy_eq, wr_rd_ne _ _ _ _ (routeEpoch_addr_ne h)]
  · rw [refusing, Blk.router, Blk.updRouter, Sp.get_set_ne _ _ _ _ _ h, satBy_eq, wr_routers, Blk.router]

theorem refusing_sched (ld : Nat) (b : Blk) : (refusing ld b).sched = b.sched := by rw [refusing, updRouter_sched, satBy_eq, wr_sched]
theorem refusing_ev (ld : Nat) (b : Blk) : (refusing ld b).ev = b.ev := by rw [refusing, updRouter_ev, satBy_eq, wr_ev]
theorem refusing_out (ld : Nat) (b : Blk) : (refusing ld b).out = b.out := by rw [refusing, updRouter_out, satBy_eq, wr_out]
theorem refusing_now (ld : Nat) (b : Blk) : (refusing ld b).now = b.now := by rw [refusing, updRouter_now, satBy_eq, wr_now]

theorem regsKeep_refusing (ld : Nat) (b : Blk) : RegsKeep [.routeEpoch ld] b (refusing ld b) := fun r hr => by
  rw [refusing, updRouter_reg, satBy_eq]
  exact regsKeep_wr b _ _ (by simp [ROUTE_EPOCH.refused]) r hr

/-- Both routers have refused a switch. -/
theorem refuseEntry_both (b : Blk) {ld : Nat} (hld : ld < 2) : (b.refuseEntry.router ld).refusedSwitch = true
    ∧ b.refuseEntry.rd (ROUTE_EPOCH.refused ld) = min (b.rd (ROUTE_EPOCH.refused ld) + 1) (2 ^ 32 - 1) := by
  rw [refuseEntry_refusing]
  obtain rfl | rfl : ld = 0 ∨ ld = 1 := by omega
  · obtain ⟨hrd, hrouter⟩ := refusing_ne (refusing 0 b) (show 0 ≠ 1 by decide)
    obtain ⟨hcount, hrefused⟩ := refusing_same 0 b
    exact ⟨by rw [hrouter, hrefused], by rw [hrd, hcount]⟩
  · obtain ⟨hrd, -⟩ := refusing_ne b (show 1 ≠ 0 by decide)
    obtain ⟨hcount, hrefused⟩ := refusing_same 1 (refusing 0 b)
    exact ⟨hrefused, by rw [hcount, hrd]⟩

theorem regsKeep_refuseEntry (b : Blk) : RegsKeep [.routeEpoch 0, .routeEpoch 1] b b.refuseEntry :=
  regsKeep_trans (c := refusing 0 b) (regsKeep_mono (regsKeep_refusing 0 b) (by simp))
    (regsKeep_mono (regsKeep_refusing 1 _) (by simp))

/-- What stands before the event of a refused entry: a refused switch, if it is one. -/
def beforeLate (action : Nat) (b : Blk) : Blk := ifB (action = 2) Blk.refuseEntry b

theorem beforeLate_frame (action : Nat) (b : Blk) : (beforeLate action b).sched = b.sched ∧ (beforeLate action b).ev = b.ev
    ∧ (beforeLate action b).out = b.out ∧ (beforeLate action b).now = b.now := by
  by_cases h : action = 2
  · simp only [beforeLate, ifB, h, decide_true, if_true, refuseEntry_refusing, refusing_sched, refusing_ev, refusing_out,
      refusing_now, and_self]
  · simp [beforeLate, ifB, h]

theorem schedLate_raises (b : Blk) (action n : Nat) (inst : Nat) (ha : action < 256) (hi : inst < 2 ^ 64) :
    b.schedLate action n inst 0 = (beforeLate action b).raise 0 uMtc 0x0105
      (action + n * 2 ^ 8 + inst * 2 ^ 13 + b.now % 2 ^ 64 * 2 ^ 77) := by
  rw [Blk.schedLate, Nat.mod_eq_of_lt ha, Nat.mod_eq_of_lt hi, Nat.zero_mul, Nat.add_zero, beforeLate]

theorem schedEntry_taken (q : Path) (n : Fin 32) (v : BitVec 64) (s : State) (ho : OpenPath q s.blk)
    (hfree : s.blk.on (MTC_SCHED_ACT.valid n.val) = false) (hvalid : bit v.toNat 8 = true) (hlo : 1 ≤ bits v.toNat 0 8)
    (hhi : bits v.toNat 0 8 ≤ 7) (hready : stReady ≤ s.blk.dstate) (hdrain : s.blk.dstate ≤ stDrain)
    (hahead : s.blk.now + 100 ≤ s.blk.rd (MTC_SCHED_TIME.instant n.val)) :
    let t := s.blk.rd (MTC_SCHED_TIME.instant n.val)
    Does (.schedEntryWrite q n v) s fun b =>
      b.on (MTC_SCHED_ACT.valid n.val) = true ∧ b.rd (MTC_SCHED_ACT.action n.val) = bits v.toNat 0 8
        ∧ b.rd (MTC_SCHED_ACT.arg n.val) = bits v.toNat 32 32 ∧ b.schedInst n.val = t
        ∧ (∀ m, m ≠ n.val → b.schedInst m = s.blk.schedInst m) ∧ Completes q 0 0 s.blk b
        ∧ RegsKeep [.mtcSchedAct n.val] s.blk b ∧ b = { s.blk with regs := b.regs, out := b.out, sched := b.sched } := by
  intro t
  refine schedEntryWrite_does q n v s ho ?_
  have hok : s.blk.schedOk t = true := by simp [Blk.schedOk, Blk.schedState, hready, hdrain, hahead, t]
  rw [schedWrite_free _ _ _ hfree hvalid hlo hhi, if_pos hok]
  have hinst (c : Blk) (o : Out) (m : Nat) : (c.emit o).schedInst m = c.schedInst m := by rw [Blk.schedInst, emit_sched, Blk.schedInst]
  refine ⟨?_, ?_, ?_, ?_, fun m hm => ?_, ?_, ?_, ?_⟩
  · rw [emit_on, setEntry_valid]
  · rw [emit_rd, setEntry_action]
    exact Nat.mod_eq_of_lt (bits_lt ..)
  · rw [emit_rd, setEntry_arg]
    exact Nat.mod_eq_of_lt (bits_lt ..)
  · rw [hinst, setEntry_schedInst]
  · rw [hinst, setEntry_schedInst_ne _ _ _ _ _ hm]
  · rw [Completes, emit_out, setEntry_out]
  · intro r hr
    rw [emit_reg, regsKeep_setEntry _ _ _ _ _ r hr]
  · rw [setEntry_eq]
    rfl

theorem schedEntry_late (q : Path) (n : Fin 32) (v : BitVec 64) (s : State) (ho : OpenPath q s.blk)
    (hfree : s.blk.on (MTC_SCHED_ACT.valid n.val) = false) (hvalid : bit v.toNat 8 = true) (hlo : 1 ≤ bits v.toNat 0 8)
    (hhi : bits v.toNat 0 8 ≤ 7) (hlate : s.blk.rd (MTC_SCHED_TIME.instant n.val) < s.blk.now + 100) :
    let t := s.blk.rd (MTC_SCHED_TIME.instant n.val)
    Does (.schedEntryWrite q n v) s fun b =>
      Raised 0 4 0x0105 (bits v.toNat 0 8 + n.val * 2 ^ 8 + t * 2 ^ 13 + s.blk.now % 2 ^ 64 * 2 ^ 77) s.blk b
        ∧ (bits v.toNat 0 8 ≠ 2 → b.regs = s.blk.regs)
        ∧ (bits v.toNat 0 8 = 2 → RegsKeep [.routeEpoch 0, .routeEpoch 1] s.blk b
          ∧ ∀ ld, ld < 2 → (b.router ld).refusedSwitch = true
            ∧ b.rd (ROUTE_EPOCH.refused ld) = min (s.blk.rd (ROUTE_EPOCH.refused ld) + 1) (2 ^ 32 - 1))
        ∧ b.sched = s.blk.sched ∧ Completes q 0 0 s.blk b := by
  intro t
  refine schedEntryWrite_does q n v s ho ?_
  have hok : ¬s.blk.schedOk t = true := by simp [Blk.schedOk, Nat.not_le.2 hlate, t]
  rw [schedWrite_free _ _ _ hfree hvalid hlo hhi, if_neg hok, schedLate_raises _ _ _ _ (by omega) (rd_lt ..)]
  generalize hd : bits v.toNat 0 8 + n.val * 2 ^ 8 + s.blk.rd (MTC_SCHED_TIME.instant n.val) * 2 ^ 13
    + s.blk.now % 2 ^ 64 * 2 ^ 77 = d
  generalize bits v.toNat 0 8 = action
  obtain ⟨hsched, hev, hout, hnow⟩ := beforeLate_frame action s.blk
  refine ⟨?_, fun h2 => ?_, fun h2 => ⟨fun r hr => ?_, fun ld hld => ?_⟩, ?_, ?_⟩
  · exact raised_congr hev hnow (emit_ev ..).symm (raiseInj_raised _ false 0 uMtc 0x0105 d (by decide) (by decide))
  · rw [emit_regs, raise_regs, beforeLate, ifB, if_neg (by simpa using h2)]
  · rw [emit_reg, raise_reg, beforeLate, ifB, if_pos (by simpa using h2)]
    exact regsKeep_refuseEntry _ r hr
  · have hboth := refuseEntry_both s.blk hld
    have hrouter (o : Out) :
        (((beforeLate action s.blk).raise 0 uMtc 0x0105 d).emit o).router ld = (beforeLate action s.blk).router ld := by
      rw [Blk.router, emit_routers, raise_eq, Blk.router]
    rw [hrouter, emit_rd, raise_rd, beforeLate, ifB, if_pos (by simpa using h2)]
    exact hboth
  · rw [emit_sched, raise_sched, hsched]
  · rw [Completes, emit_out, raise_out _ _ _ _ _ (by decide), hout]

/-- Settles O10: the reads by what the view and the read's side effect are, the entries by the one branch that R44 picks. -/
theorem timeEventAndScheduleAccesses : Obligations.TimeEventAndScheduleAccesses := by
  refine ⟨mtcNow_reads, eventRing_reads, fun q n v s ho hfree hvalid hlo hhi => ⟨fun hready hdrain hahead => ?_, fun hlate => ?_⟩⟩
  · exact schedEntry_taken q n v s ho hfree hvalid hlo hhi hready hdrain hahead
  · exact schedEntry_late q n v s ho hfree hvalid hlo hhi hlate

end Sys2Proof.Proofs
end

section
/-!
PROOFS. Link words (R198, R28, R206, R216): what a port's word time carries, acknowledgement, credits and resending.
-/
namespace Sys2Proof.Proofs
open Sys2Proof Sys2Proof.Machine Sys2Proof.Says

/-! ### What a port's commands leave alone -/

/-- The registers of a port lie below its die's counters. -/
theorem notMem_perfRegs_port (p off : Nat) (h : off < 0x10000) : portBase p + off ∉ (perfRegs (portDie p)).map Reg.addr := by
  intro hm
  obtain ⟨r, hr, haddr⟩ := List.mem_map.1 hm
  obtain ⟨i, -, rfl⟩ := List.mem_map.1 hr
  have hcnt : (Reg.perfCnt (portDie p) i).addr = perfBase (portDie p) + 0x80 + i * 8 := rfl
  rw [hcnt, perfBase, portBase, ldBase, dieBase, dieBase, portDie, if_neg (by omega), if_neg (by omega)] at haddr
  omega

/-- So do the registers of the hub. -/
theorem notMem_perfRegs_hub (p off : Nat) (h : off < 0x1000000) : hubBase + off ∉ (perfRegs (portDie p)).map Reg.addr := by
  intro hm
  obtain ⟨r, hr, haddr⟩ := List.mem_map.1 hm
  obtain ⟨i, -, rfl⟩ := List.mem_map.1 hr
  have hcnt : (Reg.perfCnt (portDie p) i).addr = perfBase (portDie p) + 0x80 + i * 8 := rfl
  rw [hcnt, perfBase, dieBase, hubBase, portDie] at haddr
  split at haddr
  · omega
  · split at haddr <;> omega

theorem perf_rd_port (b : Blk) (p ev u n off : Nat) (f : Fld) (hf : f.reg.addr = portBase p + off) (h : off < 0x10000) :
    (b.perf (portDie p) ev u n).rd f = b.rd f :=
  regsKeep_rd (regsKeep_perf b _ ev u n) f (hf ▸ notMem_perfRegs_port p off h)

theorem perf_rd_hub (b : Blk) (p ev u n off : Nat) (f : Fld) (hf : f.reg.addr = hubBase + off) (h : off < 0x1000000) :
    (b.perf (portDie p) ev u n).rd f = b.rd f :=
  regsKeep_rd (regsKeep_perf b _ ev u n) f (hf ▸ notMem_perfRegs_hub p off h)

theorem pLive_congr {b c : Blk} {p : Nat} (h : c.pstate p = b.pstate p) : c.pLive p = b.pLive p := by
  rw [Blk.pLive, h, Blk.pLive]

theorem pLive_not_training {b : Blk} {p : Nat} (h : b.pLive p = true) : b.pstate p ≠ psTraining := by
  intro ht
  simp [Blk.pLive, ht, psTraining, psUp, psCalm, psDegr] at h

/-! ### A word time is used -/

/-- Port `p` uses word time `k` for a link word. -/
def opened (p k : Nat) (b : Blk) : Blk :=
  ((b.updPort p fun s => { s with txEnd := b.wordStart p (k + 1) }).updPort p
    fun s => { s with linkCount := s.linkCount + 1 }).perf (portDie p) 0x04 (portUnit p) 1

theorem opened_port (p k : Nat) (b : Blk) : (opened p k b).port p =
    { b.port p with linkCount := (b.port p).linkCount + 1, txEnd := b.wordStart p (k + 1) } := by
  rw [opened, perf_port, updPort_port_same, updPort_port_same]

theorem opened_time (p k : Nat) (b : Blk) : (opened p k b).time = b.time := by
  rw [opened, perf_eq]
  rfl

theorem opened_ptime (p k : Nat) (b : Blk) : (opened p k b).ptime p = b.ptime p := by
  rw [Blk.ptime, opened_time, Blk.ptime]

theorem opened_now (p k : Nat) (b : Blk) : (opened p k b).now = b.now := by
  rw [Blk.now, opened_time, Blk.now]

theorem opened_now16 (p k : Nat) (b : Blk) : (opened p k b).now16 = b.now16 := by
  rw [Blk.now16, opened_time, Blk.now16]

theorem opened_out (p k : Nat) (b : Blk) : (opened p k b).out = b.out := by
  rw [opened, perf_eq]
  rfl

theorem opened_pstate (p k : Nat) (b : Blk) : (opened p k b).pstate p = b.pstate p := by
  rw [opened, Blk.pstate, perf_rd_port _ _ _ _ _ 0 _ rfl (by decide), updPort_rd, updPort_rd, Blk.pstate]

theorem useTime_open (p k : Nat) (ks : List Nat) (b : Blk) (h : b.openTimes p 8 = k :: ks) :
    b.useTime p 8 = b.updPort p fun s => { s with txEnd := b.wordStart p (k + 1) } := by
  rw [useTime_eq]
  dsimp only
  rw [h]

/-- A link word is sent. -/
def sentLink (p w : Nat) (b : Blk) : Blk := b.emit (.link p (BitVec.ofNat 256 w))

/-- At an even position a live port's link word is CREDIT_ACK. -/
theorem linkWordSendFx_even (p : Port) (k : Nat) (ks : List Nat) (b : Blk) (hlive : b.pLive p.val = true)
    (hopen : b.openTimes p.val 8 = k :: ks) (heven : (b.port p.val).linkCount % 2 = 0) :
    linkWordSendFx p b = (sentLink p.val ((opened p.val k b).creditWord p.val) (opened p.val k b)).updPort p.val
      fun s => { s with nakPending := false } := by
  unfold linkWordSendFx
  dsimp only
  rw [if_neg (fun h => pLive_not_training hlive h.1), if_neg (by simp [hlive, hopen]), useTime_open _ _ _ _ hopen, if_pos heven]
  rfl

/-- Port `p` has sent its timestamp set of this slot (R28). -/
def stamped (p : Nat) (b : Blk) : Blk :=
  (sentLink p (b.timestampWord p) b).updPtime p fun t =>
    { t with lastSetSlot := b.now / 8000, nextSeq := ((b.ptime p).nextSeq + 1) % 256,
             sent := (t.sent.filter fun x => b.now16 < x.at16 + 64000 * 2 ^ 16 ∧ x.seq ≠ (b.ptime p).nextSeq)
               ++ [⟨(b.ptime p).nextSeq, b.now16⟩] }

/-- At an odd position it is the timestamp set, while the slot has sent none. -/
theorem linkWordSendFx_odd (p : Port) (k : Nat) (ks : List Nat) (b : Blk) (hlive : b.pLive p.val = true)
    (hopen : b.openTimes p.val 8 = k :: ks) (hodd : (b.port p.val).linkCount % 2 = 1)
    (hslot : (b.ptime p.val).lastSetSlot ≠ b.now / 8000) :
    linkWordSendFx p b = stamped p.val (opened p.val k b) := by
  have hlive' : (opened p.val k b).pLive p.val = true := by rw [pLive_congr (opened_pstate ..), hlive]
  have hslot' : ((opened p.val k b).ptime p.val).lastSetSlot ≠ (opened p.val k b).now / 8000 := by
    rwa [opened_ptime, opened_now]
  unfold linkWordSendFx
  dsimp only
  rw [if_neg (fun h => pLive_not_training hlive h.1), if_neg (by simp [hlive, hopen]), useTime_open _ _ _ _ hopen,
    if_neg (by omega)]
  exact if_pos ⟨hlive', hslot'⟩

/-! ### The words -/

theorem bits_add_mul (x y m lo w : Nat) (h : lo + w ≤ m) : bits (x + y * 2 ^ m) lo w = bits x lo w := by
  obtain ⟨d, rfl⟩ : ∃ d, m = lo + w + d := ⟨m - (lo + w), by omega⟩
  rw [← bits_mod (x + y * 2 ^ (lo + w + d)) lo w (lo + w + d) (by omega), Nat.add_mul_mod_self_right,
    bits_mod _ _ _ _ (by omega)]

theorem bits_add_mul_same (x c m w : Nat) (hx : x < 2 ^ m) (hc : c < 2 ^ w) : bits (x + c * 2 ^ m) m w = c := by
  rw [bits, Nat.shiftRight_eq_div_pow, Nat.add_mul_div_right _ _ (Nat.two_pow_pos m), Nat.div_eq_of_lt hx, Nat.zero_add,
    Nat.mod_eq_of_lt hc]

/-- A word with the counts `c 0 … c (n - 1)` of 20 bits each from bit 64 on (R198). -/
def withCounts (base : Nat) (c : Nat → Nat) (n : Nat) : Nat :=
  base + (List.range n).foldl (fun a v => a + c v * 2 ^ (64 + 20 * v)) 0

theorem withCounts_succ (base : Nat) (c : Nat → Nat) (n : Nat) :
    withCounts base c (n + 1) = withCounts base c n + c n * 2 ^ (64 + 20 * n) := by
  simp [withCounts, List.range_succ, Nat.add_assoc]

theorem withCounts_lt (base : Nat) (c : Nat → Nat) (hbase : base < 2 ^ 64) (hc : ∀ v, c v < 2 ^ 20) (n : Nat) :
    withCounts base c n < 2 ^ (64 + 20 * n) := by
  induction n with
  | zero => simpa [withCounts] using hbase
  | succ n ih =>
    have hpow : 2 ^ (64 + 20 * (n + 1)) = 2 ^ (64 + 20 * n) * 2 ^ 20 := by rw [← pow_add]; rfl
    have hmul : c n * 2 ^ (64 + 20 * n) ≤ (2 ^ 20 - 1) * 2 ^ (64 + 20 * n) := Nat.mul_le_mul_right _ (Nat.le_pred_of_lt (hc n))
    rw [withCounts_succ, hpow]
    omega

theorem bits_withCounts_low (base : Nat) (c : Nat → Nat) (n lo w : Nat) (h : lo + w ≤ 64) :
    bits (withCounts base c n) lo w = bits base lo w := by
  induction n with
  | zero => simp [withCounts]
  | succ n ih => rw [withCounts_succ, bits_add_mul _ _ _ _ _ (by omega), ih]

theorem bits_withCounts (base : Nat) (c : Nat → Nat) (hbase : base < 2 ^ 64) (hc : ∀ v, c v < 2 ^ 20) {n v : Nat} (hv : v < n) :
    bits (withCounts base c n) (64 + 20 * v) 20 = c v := by
  induction n with
  | zero => omega
  | succ n ih =>
    rw [withCounts_succ]
    rcases Nat.lt_succ_iff_lt_or_eq.1 hv with hlt | rfl
    · rw [bits_add_mul _ _ _ _ _ (by omega), ih hlt]
    · exact bits_add_mul_same _ _ _ _ (withCounts_lt base c hbase hc v) (hc v)

/-- CREDIT_ACK's word below its counts (R198). -/
def ackPart (s : PortSt) : Nat := 0x51 + s.rxSeq * 2 ^ 8 + b2n s.nakPending * 2 ^ 32

theorem creditWord_withCounts (b : Blk) (p : Nat) :
    b.creditWord p = withCounts (ackPart (b.port p)) (Sp.get 0 (b.port p).vcFreed) 8 := rfl

theorem ackPart_lt (s : PortSt) (hseq : s.rxSeq < 2 ^ 24) : ackPart s < 2 ^ 64 := by
  have hnak := b2n_lt s.nakPending
  unfold ackPart
  omega

theorem bit_b2n (x : Nat) (c : Bool) (i : Nat) (h : bits x i 1 = b2n c) : bit x i = c := by
  rw [bits, Nat.shiftRight_eq_div_pow, pow_one] at h
  rw [bit, Nat.testBit_eq_decide_div_mod_eq, h]
  cases c <;> rfl

/-- CREDIT_ACK's fields. -/
theorem creditWord_fields (b : Blk) (p : Nat) (hseq : (b.port p).rxSeq < 2 ^ 24) (hfreed : ∀ v, Sp.get 0 (b.port p).vcFreed v < 2 ^ 20) :
    let w : Word := BitVec.ofNat 256 (b.creditWord p)
    bits w.toNat 0 8 = 0x51 ∧ bits w.toNat 8 24 = (b.port p).rxSeq ∧ bit w.toNat 32 = (b.port p).nakPending
      ∧ ∀ v, v < 8 → bits w.toNat (64 + 20 * v) 20 = Sp.get 0 (b.port p).vcFreed v := by
  have hbase := ackPart_lt (b.port p) hseq
  have hlt := withCounts_lt _ _ hbase hfreed 8
  have hnak := b2n_lt (b.port p).nakPending
  have hw : (BitVec.ofNat 256 (b.creditWord p)).toNat = withCounts (ackPart (b.port p)) (Sp.get 0 (b.port p).vcFreed) 8 := by
    rw [creditWord_withCounts, BitVec.toNat_ofNat]
    exact Nat.mod_eq_of_lt (hlt.trans (by decide))
  dsimp only
  rw [hw]
  refine ⟨?_, ?_, bit_b2n _ _ _ ?_, fun v hv => bits_withCounts _ _ hbase hfreed hv⟩
  all_goals
    rw [bits_withCounts_low _ _ _ _ _ (by decide), ackPart, bits, Nat.shiftRight_eq_div_pow]
    omega

/-- A timestamp set (R28): its number, the number of the last set received, the hops and the status bits below bit 32, the fraction, the
nanoseconds and the turn-around. -/
def setWord (seq last hops status frac ns turn : Nat) : Nat :=
  0x5A + seq * 2 ^ 8 + last * 2 ^ 16 + hops * 2 ^ 24 + status * 2 ^ 30 + frac * 2 ^ 32 + ns * 2 ^ 48 + turn * 2 ^ 112

theorem setWord_fields (seq last hops status frac ns turn : Nat) (hseq : seq < 2 ^ 8) (hlast : last < 2 ^ 8) (hhops : hops < 2 ^ 6)
    (hstatus : status < 2 ^ 2) (hfrac : frac < 2 ^ 16) (hns : ns < 2 ^ 64) (hturn : turn < 2 ^ 32) :
    let x := setWord seq last hops status frac ns turn
    x < 2 ^ 256 ∧ bits x 0 8 = 0x5A ∧ bits x 8 8 = seq ∧ bits x 16 8 = last ∧ bits x 24 6 = hops ∧ bits x 32 16 = frac
      ∧ bits x 48 64 = ns ∧ bits x 112 32 = turn := by
  simp only [bits, Nat.shiftRight_eq_div_pow, setWord]
  refine ⟨?_, ?_, ?_, ?_, ?_, ?_, ?_, ?_⟩ <;> omega

theorem timestampWord_setWord (b : Blk) (p : Nat) : b.timestampWord p = setWord (b.ptime p).nextSeq (b.ptime p).lastRxSeq
    (b.rd MTC_STATUS.hops) (b2n (b.on MTC_STATUS.is_root) + 2 * b2n (b.on MTC_STATUS.holdover)) (b.now16 % 2 ^ 16)
    (b.now16 / 2 ^ 16 % 2 ^ 64) ((b.now16 - (b.ptime p).lastRxAt) % 2 ^ 32) := by
  unfold Blk.timestampWord setWord
  dsimp only
  omega

/-- The timestamp set's fields (R28). -/
theorem timestampWord_fields (b : Blk) (p : Nat) (hnext : (b.ptime p).nextSeq < 256) (hlast : (b.ptime p).lastRxSeq < 256) :
    let w : Word := BitVec.ofNat 256 (b.timestampWord p)
    bits w.toNat 0 8 = 0x5A ∧ bits w.toNat 8 8 = (b.ptime p).nextSeq ∧ bits w.toNat 16 8 = (b.ptime p).lastRxSeq
      ∧ bits w.toNat 24 6 = b.rd MTC_STATUS.hops ∧ bits w.toNat 32 16 = b.now16 % 2 ^ 16
      ∧ bits w.toNat 48 64 = b.now16 / 2 ^ 16 % 2 ^ 64 ∧ bits w.toNat 112 32 = (b.now16 - (b.ptime p).lastRxAt) % 2 ^ 32 := by
  have hroot := b2n_lt (b.on MTC_STATUS.is_root)
  have hhold := b2n_lt (b.on MTC_STATUS.holdover)
  obtain ⟨hlt, hfields⟩ := setWord_fields (b.ptime p).nextSeq (b.ptime p).lastRxSeq (b.rd MTC_STATUS.hops)
    (b2n (b.on MTC_STATUS.is_root) + 2 * b2n (b.on MTC_STATUS.holdover)) (b.now16 % 2 ^ 16) (b.now16 / 2 ^ 16 % 2 ^ 64)
    ((b.now16 - (b.ptime p).lastRxAt) % 2 ^ 32) hnext hlast (rd_lt ..) (by omega) (Nat.mod_lt _ (by decide)) (Nat.mod_lt _ (by decide))
    (Nat.mod_lt _ (by decide))
  dsimp only
  rw [timestampWord_setWord, BitVec.toNat_ofNat, Nat.mod_eq_of_lt hlt]
  exact hfields

/-! ### Sending -/

theorem creditAck_sent (p : Port) (s : State) (k : Nat) (ks : List Nat) (hlive : s.blk.pLive p.val = true)
    (hopen : s.blk.openTimes p.val 8 = k :: ks) (heven : (s.blk.port p.val).linkCount % 2 = 0)
    (hseq : (s.blk.port p.val).rxSeq < 2 ^ 24) (hfreed : ∀ v, Sp.get 0 (s.blk.port p.val).vcFreed v < 2 ^ 20) :
    Does (.linkWordSend p) s fun b => ∃ w : Word, b.out = s.blk.out ++ [.link p.val w]
      ∧ bits w.toNat 0 8 = 0x51 ∧ bits w.toNat 8 24 = (s.blk.port p.val).rxSeq ∧ bit w.toNat 32 = (s.blk.port p.val).nakPending
      ∧ (∀ v, v < 8 → bits w.toNat (64 + 20 * v) 20 = Sp.get 0 (s.blk.port p.val).vcFreed v)
      ∧ b.port p.val =
        { s.blk.port p.val with linkCount := (s.blk.port p.val).linkCount + 1, nakPending := false, txEnd := s.blk.wordStart p.val (k + 1) } := by
  refine does_of_onBlk (f := linkWordSendFx p) rfl ?_
  rw [linkWordSendFx_even p k ks s.blk hlive hopen heven]
  have hport := opened_port p.val k s.blk
  obtain ⟨hkind, hrx, hnak, hcounts⟩ := creditWord_fields (opened p.val k s.blk) p.val (by rw [hport]; exact hseq)
    (by rw [hport]; exact hfreed)
  rw [hport] at hrx hnak hcounts
  refine ⟨_, ?_, hkind, hrx, hnak, hcounts, ?_⟩
  · rw [updPort_out, sentLink, emit_out, opened_out]
  · rw [updPort_port_same, sentLink, emit_port, hport]

theorem timestamp_sent (p : Port) (s : State) (hlive : s.blk.pLive p.val = true) (hopen : s.blk.openTimes p.val 8 ≠ [])
    (hodd : (s.blk.port p.val).linkCount % 2 = 1) (hslot : (s.blk.ptime p.val).lastSetSlot ≠ s.blk.now / 8000)
    (hnext : (s.blk.ptime p.val).nextSeq < 256) (hlast : (s.blk.ptime p.val).lastRxSeq < 256) :
    Does (.linkWordSend p) s fun b => ∃ w : Word, b.out = s.blk.out ++ [.link p.val w]
      ∧ bits w.toNat 0 8 = 0x5A ∧ bits w.toNat 8 8 = (s.blk.ptime p.val).nextSeq
      ∧ bits w.toNat 16 8 = (s.blk.ptime p.val).lastRxSeq ∧ bits w.toNat 24 6 = s.blk.rd MTC_STATUS.hops
      ∧ bits w.toNat 32 16 = s.blk.now16 % 2 ^ 16 ∧ bits w.toNat 48 64 = s.blk.now16 / 2 ^ 16 % 2 ^ 64
      ∧ bits w.toNat 112 32 = (s.blk.now16 - (s.blk.ptime p.val).lastRxAt) % 2 ^ 32
      ∧ ⟨(s.blk.ptime p.val).nextSeq, s.blk.now16⟩ ∈ (b.ptime p.val).sent
      ∧ (b.ptime p.val).nextSeq = ((s.blk.ptime p.val).nextSeq + 1) % 256 := by
  refine does_of_onBlk (f := linkWordSendFx p) rfl ?_
  obtain ⟨k, ks, hk⟩ := List.exists_cons_of_ne_nil hopen
  rw [linkWordSendFx_odd p k ks s.blk hlive hk hodd hslot]
  have hptime := opened_ptime p.val k s.blk
  have hhops : (opened p.val k s.blk).rd MTC_STATUS.hops = s.blk.rd MTC_STATUS.hops := by
    rw [opened, perf_rd_hub _ _ _ _ _ 0x10010 _ (by decide) (by decide), updPort_rd, updPort_rd]
  obtain ⟨hkind, hseq, hrx, hhop, hfrac, hns, hturn⟩ := timestampWord_fields (opened p.val k s.blk) p.val (by rw [hptime]; exact hnext)
    (by rw [hptime]; exact hlast)
  rw [hptime] at hseq hrx
  rw [hhops] at hhop
  rw [opened_now16] at hfrac hns
  rw [hptime, opened_now16] at hturn
  refine ⟨_, ?_, hkind, hseq, hrx, hhop, hfrac, hns, hturn, ?_, ?_⟩
  · rw [stamped, Blk.updPtime, updTime_out, sentLink, emit_out, opened_out]
  · rw [stamped, updPtime_ptime_same]
    dsimp only
    rw [hptime, opened_now16]
    exact List.mem_append_right _ (List.mem_singleton_self _)
  · rw [stamped, updPtime_ptime_same]
    dsimp only
    rw [hptime]

end Sys2Proof.Proofs
end

section
/-!
PROOFS. Acknowledgement, credits and resending (R198, R206, R216), and what a port's commands leave alone.
-/
namespace Sys2Proof.Proofs
open Sys2Proof Sys2Proof.Machine Sys2Proof.Says

/-! ### Everything but listed registers, one port and the events -/

theorem portOnly_refl (l : List Reg) (p : Nat) (b : Blk) : PortOnly l p b b := ⟨regsKeep_refl l b, fun _ _ => rfl, rfl⟩

theorem portOnly_trans {l : List Reg} {p : Nat} {b c d : Blk} (hbc : PortOnly l p b c) (hcd : PortOnly l p c d) : PortOnly l p b d := by
  obtain ⟨hkeep, hports, hb⟩ := hbc
  obtain ⟨hkeep', hports', hc⟩ := hcd
  refine ⟨regsKeep_trans hkeep hkeep', fun q hq => (hports' q hq).trans (hports q hq), ?_⟩
  rw [hc, hb]

theorem portOnly_wr {l : List Reg} {p : Nat} {b c : Blk} {f : Fld} {v : Nat} (h : PortOnly l p b c)
    (hf : f.reg.addr ∈ l.map Reg.addr) : PortOnly l p b (c.wr f v) :=
  portOnly_trans h ⟨regsKeep_wr c f v hf, fun q _ => wr_port c f v q, rfl⟩

theorem portOnly_updPort {l : List Reg} {p : Nat} {b c : Blk} {f : PortSt → PortSt} (h : PortOnly l p b c) :
    PortOnly l p b (c.updPort p f) := portOnly_trans h ⟨regsKeep_refl l c, fun q hq => updPort_port_ne c p q f hq, rfl⟩

theorem portOnly_fresh {l : List Reg} {p : Nat} {b c : Blk} (h : PortOnly l p b c) : PortOnly l p b c.fresh.2 :=
  portOnly_trans h ⟨regsKeep_refl l c, fun _ _ => rfl, rfl⟩

theorem portOnly_foldl {α : Type} {l : List Reg} {p : Nat} {b c : Blk} {f : Blk → α → Blk} {as : List α} (hb : PortOnly l p b c)
    (h : ∀ c, ∀ a ∈ as, PortOnly l p b c → PortOnly l p b (f c a)) : PortOnly l p b (as.foldl f c) :=
  foldl_inv f (PortOnly l p b) as c hb h

theorem portOnly_rd {l : List Reg} {p : Nat} {b c : Blk} (h : PortOnly l p b c) (f : Fld) (hf : f.reg.addr ∉ l.map Reg.addr) :
    c.rd f = b.rd f := regsKeep_rd h.1 f hf

theorem portOnly_now {l : List Reg} {p : Nat} {b c : Blk} (h : PortOnly l p b c) : c.now = b.now := by
  rw [h.2.2]
  rfl

theorem portOnly_out {l : List Reg} {p : Nat} {b c : Blk} (h : PortOnly l p b c) : c.out = b.out := by rw [h.2.2]

/-! ### Credits (R216) -/

/-- The words of VC `v` that a count returns. -/
def returned (p : Nat) (w : CreditWord) (b : Blk) (v : Nat) : Nat :=
  (w.credits.getD v 0 % 2 ^ 20 + 2 ^ 20 - Sp.get 0 (b.port p).vcReturned v) % 2 ^ 20

/-- VC `v` takes the credits that a count returns. -/
def credited (p : Nat) (w : CreditWord) (b : Blk) (v : Nat) : Blk :=
  (b.updPort p fun s => { s with vcReturned := Sp.set 0 s.vcReturned v (w.credits.getD v 0 % 2 ^ 20) }).wr (PORT_CREDIT.avail p v)
    (satur 16 (b.rd (PORT_CREDIT.avail p v) + returned p w b v))

theorem creditAckFx_live (p : Port) (w : CreditWord) (b : Blk) (hlive : b.pLive p.val = true) :
    creditAckFx p w b = (List.range 8).foldl (credited p.val w) (b.ackTo p.val w.ackSeq.toNat) := by
  unfold creditAckFx
  dsimp only
  rw [if_neg (by simp [hlive])]
  rfl

theorem portCredit_addr_ne {p v u : Nat} (h : v ≠ u) : (Reg.portCredit p v).addr ≠ (Reg.portCredit p u).addr := by
  have haddr (k : Nat) : (Reg.portCredit p k).addr = portBase p + 0x80 + k * 8 := rfl
  rw [haddr, haddr]
  omega

theorem credited_port (p : Nat) (w : CreditWord) (b : Blk) (v : Nat) : (credited p w b v).port p =
    { b.port p with vcReturned := Sp.set 0 (b.port p).vcReturned v (w.credits.getD v 0 % 2 ^ 20) } := by
  rw [credited, wr_port, updPort_port_same]

theorem credited_avail_same (p : Nat) (w : CreditWord) (b : Blk) (v : Nat) : (credited p w b v).rd (PORT_CREDIT.avail p v) =
    min (2 ^ 16 - 1) (b.rd (PORT_CREDIT.avail p v) + returned p w b v) := by
  rw [credited, wr_rd_same _ _ _ (by simp [PORT_CREDIT.avail])]
  exact (Nat.mod_eq_of_lt (satur_lt 16 _)).trans (Nat.min_comm ..)

theorem credited_avail_ne (p : Nat) (w : CreditWord) (b : Blk) {v u : Nat} (h : u ≠ v) :
    (credited p w b v).rd (PORT_CREDIT.avail p u) = b.rd (PORT_CREDIT.avail p u) := by
  rw [credited, wr_rd_ne _ _ _ _ (portCredit_addr_ne h), updPort_rd]

theorem credited_returned_ne (p : Nat) (w : CreditWord) (b : Blk) {v u : Nat} (h : u ≠ v) :
    returned p w (credited p w b v) u = returned p w b u := by
  rw [returned, credited_port, returned, Sp.get_set_ne _ _ _ _ _ h]

/-- The VCs before `n` have their credits, the others still wait. -/
theorem credits_upTo (p : Nat) (w : CreditWord) (b : Blk) (n : Nat) :
    let c := (List.range n).foldl (credited p w) b
    (∀ v, c.rd (PORT_CREDIT.avail p v) =
        if v < n then min (2 ^ 16 - 1) (b.rd (PORT_CREDIT.avail p v) + returned p w b v) else b.rd (PORT_CREDIT.avail p v))
      ∧ ∀ v, n ≤ v → returned p w c v = returned p w b v := by
  induction n with
  | zero => simp
  | succ n ih =>
    obtain ⟨havail, hreturned⟩ := ih
    rw [List.range_succ, List.foldl_append]
    refine ⟨fun v => ?_, fun v hv => ?_⟩
    · rw [List.foldl_cons, List.foldl_nil]
      by_cases hvn : v = n
      · rw [hvn, credited_avail_same, havail n, hreturned n (Nat.le_refl n), if_neg (Nat.lt_irrefl n), if_pos (Nat.lt_succ_self n)]
      · rw [credited_avail_ne _ _ _ hvn, havail v]
        simp only [Nat.lt_succ_iff_lt_or_eq, hvn, or_false]
    · rw [List.foldl_cons, List.foldl_nil, credited_returned_ne _ _ _ (by omega), hreturned v (by omega)]

theorem ackTo_port (b : Blk) (p ack : Nat) (h : (ack + 2 ^ 24 - (b.port p).ackSeq) % 2 ^ 24 ≤ (b.port p).replay.length) :
    b.ackTo p ack = b.updPort p fun s =>
      { s with ackSeq := ack, replay := s.replay.drop ((ack + 2 ^ 24 - (b.port p).ackSeq) % 2 ^ 24) } := if_pos h

theorem credits_replay (p : Nat) (w : CreditWord) (b : Blk) (l : List Nat) :
    ((l.foldl (credited p w) b).port p).replay = (b.port p).replay ∧ ((l.foldl (credited p w) b).port p).ackSeq = (b.port p).ackSeq
      ∧ ((l.foldl (credited p w) b).port p).txEnd = (b.port p).txEnd :=
  foldl_inv (credited p w) (fun c => (c.port p).replay = (b.port p).replay ∧ (c.port p).ackSeq = (b.port p).ackSeq
    ∧ (c.port p).txEnd = (b.port p).txEnd) l b ⟨rfl, rfl, rfl⟩ fun c v _ hc => by rwa [credited_port]

/-- What an arriving CREDIT_ACK that acknowledges words of the replay buffer leaves (R206, R216). -/
theorem creditAckFx_acknowledges (p : Port) (w : CreditWord) (b : Blk) (hlive : b.pLive p.val = true)
    (hn : (w.ackSeq.toNat + 2 ^ 24 - (b.port p.val).ackSeq) % 2 ^ 24 ≤ (b.port p.val).replay.length) :
    ((creditAckFx p w b).port p.val).replay = (b.port p.val).replay.drop ((w.ackSeq.toNat + 2 ^ 24 - (b.port p.val).ackSeq) % 2 ^ 24)
      ∧ ((creditAckFx p w b).port p.val).ackSeq = w.ackSeq.toNat ∧ ((creditAckFx p w b).port p.val).txEnd = (b.port p.val).txEnd
      ∧ (∀ v, v < 8 → (creditAckFx p w b).rd (PORT_CREDIT.avail p.val v) =
          min (2 ^ 16 - 1) (b.rd (PORT_CREDIT.avail p.val v) + returned p.val w b v))
      ∧ PortOnly ((List.range 8).map (Reg.portCredit p.val)) p.val b (creditAckFx p w b) := by
  rw [creditAckFx_live p w b hlive, ackTo_port _ _ _ hn]
  obtain ⟨hreplay, hack, htx⟩ := credits_replay p.val w (b.updPort p.val fun s => { s with
    ackSeq := w.ackSeq.toNat, replay := s.replay.drop ((w.ackSeq.toNat + 2 ^ 24 - (b.port p.val).ackSeq) % 2 ^ 24) }) (List.range 8)
  obtain ⟨havail, -⟩ := credits_upTo p.val w (b.updPort p.val fun s => { s with
    ackSeq := w.ackSeq.toNat, replay := s.replay.drop ((w.ackSeq.toNat + 2 ^ 24 - (b.port p.val).ackSeq) % 2 ^ 24) }) 8
  rw [updPort_port_same] at hreplay hack htx
  refine ⟨hreplay, hack, htx, fun v hv => ?_, ?_⟩
  · rw [havail v, if_pos hv, updPort_rd, returned, updPort_port_same, returned]
  · refine portOnly_foldl (portOnly_updPort (portOnly_refl _ _ _)) fun c v hv hc => ?_
    exact portOnly_wr (portOnly_updPort hc) (List.mem_map_of_mem (List.mem_map_of_mem hv))

theorem creditAck_received (p : Port) (w : CreditWord) (s : State) (hlive : s.blk.pLive p.val = true) :
    let n := (w.ackSeq.toNat + 2 ^ 24 - (s.blk.port p.val).ackSeq) % 2 ^ 24
    n ≤ (s.blk.port p.val).replay.length →
    Does (.creditAck p w) s fun b =>
      (b.port p.val).replay = (s.blk.port p.val).replay.drop n ∧ (b.port p.val).ackSeq = w.ackSeq.toNat
        ∧ (∀ v, v < 8 → b.rd (PORT_CREDIT.avail p.val v) = min (2 ^ 16 - 1) (s.blk.rd (PORT_CREDIT.avail p.val v)
            + (w.credits.getD v 0 % 2 ^ 20 + 2 ^ 20 - Sp.get 0 (s.blk.port p.val).vcReturned v) % 2 ^ 20))
        ∧ PortOnly ((List.range 8).map (Reg.portCredit p.val)) p.val s.blk b := by
  intro n hn
  refine does_of_onBlk (f := creditAckFx p w) rfl ?_
  obtain ⟨hreplay, hack, -, havail, honly⟩ := creditAckFx_acknowledges p w s.blk hlive hn
  exact ⟨hreplay, hack, havail, honly⟩

/-! ### Resending (R206) -/

theorem foldl_emit (l : List MWord) (p : Nat) (b : Blk) :
    l.foldl (fun b w => b.emit (.resend p w)) b = { b with out := b.out ++ l.map (Out.resend p) } := by
  induction l generalizing b with
  | nil => simp
  | cons w l ih =>
    rw [List.foldl_cons, ih, List.map_cons, emit_out, List.append_assoc, List.singleton_append]
    rfl

/-- The words that a NAK has resent occupy the port, and the NAK is counted. -/
def resending (p n : Nat) (b : Blk) : Blk :=
  ((b.satBy (PORT_REPLAY.naks p) 1).perf (portDie p) 0x05 (portUnit p) n).updPort p fun s =>
    { s with txEnd := max s.txEnd (((b.satBy (PORT_REPLAY.naks p) 1).perf (portDie p) 0x05 (portUnit p) n).now * 1000000)
        + n * ((b.satBy (PORT_REPLAY.naks p) 1).perf (portDie p) 0x05 (portUnit p) n).wordFs p }

theorem nakFx_resends (p : Port) (w : CreditWord) (b : Blk) (hlive : (creditAckFx p w b).pLive p.val = true)
    (hreplay : ((creditAckFx p w b).port p.val).replay ≠ []) :
    nakFx p w b = ((creditAckFx p w b).port p.val).replay.foldl (fun b w => b.emit (.resend p.val w))
      (resending p.val ((creditAckFx p w b).port p.val).replay.length (creditAckFx p w b)) := by
  unfold nakFx
  dsimp only
  rw [if_neg (by simp [hlive, hreplay])]
  rfl

theorem wordFs_congr {b c : Blk} {p : Nat} (h : c.pstate p = b.pstate p) : c.wordFs p = b.wordFs p := by
  rw [Blk.wordFs, h, Blk.wordFs]

theorem counted_pstate (p n : Nat) (b : Blk) :
    ((b.satBy (PORT_REPLAY.naks p) 1).perf (portDie p) 0x05 (portUnit p) n).pstate p = b.pstate p := by
  have hne : (PORT_STATE.state p).reg.addr ≠ (PORT_REPLAY.naks p).reg.addr := by
    have hstate : (PORT_STATE.state p).reg.addr = portBase p + 0 := rfl
    have hnaks : (PORT_REPLAY.naks p).reg.addr = portBase p + 0xc0 := rfl
    omega
  rw [Blk.pstate, perf_rd_port _ _ _ _ _ 0 _ rfl (by decide), satBy_eq, wr_rd_ne _ _ _ _ hne, Blk.pstate]

theorem resending_port (p n : Nat) (b : Blk) :
    ((resending p n b).port p).txEnd = max (b.port p).txEnd (b.now * 1000000) + n * b.wordFs p := by
  rw [resending, updPort_port_same, wordFs_congr (counted_pstate p n b)]
  dsimp only
  rw [perf_port, perf_now, satBy_eq, wr_port, wr_now]

theorem resending_naks (p n : Nat) (b : Blk) :
    (resending p n b).rd (PORT_REPLAY.naks p) = min (b.rd (PORT_REPLAY.naks p) + 1) (2 ^ 32 - 1) := by
  rw [resending, updPort_rd, perf_rd_port _ _ _ _ _ 0xc0 _ rfl (by decide), satBy_rd_same _ _ _ (by simp [PORT_REPLAY.naks])]
  rfl

theorem resending_out (p n : Nat) (b : Blk) : (resending p n b).out = b.out := by
  rw [resending, updPort_out, perf_eq, satBy_eq, wr_eq]

/-- The credit registers lie apart from a port's state and replay registers. -/
theorem notMem_portCredits (p off : Nat) (h : off < 0x80 ∨ 0xC0 ≤ off) :
    portBase p + off ∉ ((List.range 8).map (Reg.portCredit p)).map Reg.addr := by
  intro hm
  obtain ⟨r, hr, haddr⟩ := List.mem_map.1 hm
  obtain ⟨v, hv, rfl⟩ := List.mem_map.1 hr
  have hv := List.mem_range.1 hv
  have hcredit : (Reg.portCredit p v).addr = portBase p + 0x80 + v * 8 := rfl
  omega

theorem nak_received (p : Port) (w : CreditWord) (s : State) (hlive : s.blk.pLive p.val = true) :
    let n := (w.ackSeq.toNat + 2 ^ 24 - (s.blk.port p.val).ackSeq) % 2 ^ 24
    n < (s.blk.port p.val).replay.length →
    Does (.nak p w) s fun b =>
      b.out = s.blk.out ++ ((s.blk.port p.val).replay.drop n).map (Out.resend p.val)
        ∧ (b.port p.val).txEnd = max (s.blk.port p.val).txEnd (s.blk.now * 1000000)
          + ((s.blk.port p.val).replay.length - n) * s.blk.wordFs p.val
        ∧ b.rd (PORT_REPLAY.naks p.val) = min (s.blk.rd (PORT_REPLAY.naks p.val) + 1) (2 ^ 32 - 1) := by
  intro n hn
  refine does_of_onBlk (f := nakFx p w) rfl ?_
  obtain ⟨hreplay, -, htx, -, honly⟩ := creditAckFx_acknowledges p w s.blk hlive (Nat.le_of_lt hn)
  have hstate : (creditAckFx p w s.blk).pstate p.val = s.blk.pstate p.val :=
    portOnly_rd honly (PORT_STATE.state p.val) (notMem_portCredits p.val 0 (by decide))
  have hnaks : (creditAckFx p w s.blk).rd (PORT_REPLAY.naks p.val) = s.blk.rd (PORT_REPLAY.naks p.val) :=
    portOnly_rd honly _ (notMem_portCredits p.val 0xC0 (by decide))
  rw [nakFx_resends p w s.blk (by rw [pLive_congr hstate, hlive])
    (by rw [hreplay, ← List.length_pos_iff, List.length_drop]; exact Nat.sub_pos_of_lt hn), foldl_emit, hreplay]
  refine ⟨?_, ?_, ?_⟩
  · dsimp only
    rw [resending_out, portOnly_out honly]
  · show ((resending p.val _ _).port p.val).txEnd = _
    rw [resending_port, htx, portOnly_now honly, wordFs_congr hstate, List.length_drop]
  · show (resending p.val _ _).rd _ = _
    rw [resending_naks, hnaks]

theorem linkWordsAcknowledgeAndResend : LinkWordsAcknowledgeAndResend :=
  ⟨creditAck_sent, timestamp_sent, creditAck_received, nak_received⟩

end Sys2Proof.Proofs
end

section
/-!
PROOFS. Lane sparing (R204, R205, R207): a failed lane's receiver, the transmitter, and the switch (O48).
-/
namespace Sys2Proof.Proofs
open Sys2Proof Sys2Proof.Machine Sys2Proof.Says

/-! ### The lanes' registers -/

theorem portLane_addr (p l : Nat) : (Reg.portLane p l).addr = portBase p + 0x100 + l * 8 := rfl

theorem portLane_addr_ne {p l m : Nat} (h : l ≠ m) : (Reg.portLane p l).addr ≠ (Reg.portLane p m).addr := by
  rw [portLane_addr, portLane_addr]
  omega

/-- A lane's state reads as before when its other fields are written. -/
theorem wr_lock_state (b : Blk) (p l m v : Nat) : (b.wr (PORT_LANE.lock p l) v).rd (PORT_LANE.state p m) = b.rd (PORT_LANE.state p m) := by
  by_cases h : m = l
  · rw [h, wr_rd_disj _ _ _ _ (by simp [PORT_LANE.lock, PORT_LANE.state]) (by simp [PORT_LANE.lock, PORT_LANE.state])
      (by simp [PORT_LANE.state])]
  · exact wr_rd_ne _ _ _ _ (portLane_addr_ne h)

theorem wr_symErr_state (b : Blk) (p l m v : Nat) :
    (b.wr (PORT_LANE.sym_err p l) v).rd (PORT_LANE.state p m) = b.rd (PORT_LANE.state p m) := by
  by_cases h : m = l
  · rw [h, wr_rd_disj _ _ _ _ (by simp [PORT_LANE.sym_err, PORT_LANE.state]) (by simp [PORT_LANE.sym_err, PORT_LANE.state])
      (by simp [PORT_LANE.state])]
  · exact wr_rd_ne _ _ _ _ (portLane_addr_ne h)

theorem freeSpares_congr {b c : Blk} {p : Nat} (hstate : ∀ l, c.rd (PORT_LANE.state p l) = b.rd (PORT_LANE.state p l))
    (hspares : (c.port p).rxSpares = (b.port p).rxSpares) : c.freeSpares p = b.freeSpares p := by
  unfold Blk.freeSpares Blk.lanesIn
  simp only [hstate, hspares]

/-! ### A lane fails (R204, R205, R207) -/

theorem fireLink_none (b : Blk) (det p : Nat) (sel : Inject → Bool) (h : NoInj b) : b.fireLink det p sel = b := by
  unfold Blk.fireLink
  rw [fire_none b det _ h]
  rfl

/-- The lane's symbol errors are counted, and a lost lock begins an outage. -/
def struck (p l : Nat) (lost : Bool) (n : Nat) (b : Blk) : Blk :=
  ifB lost (fun b => (b.wr (PORT_LANE.lock p l) 0).updPort p fun x => { x with outage := some (x.outage.getD b.now) })
    (b.satBy (PORT_LANE.sym_err p l) n)

theorem struck_port (p l : Nat) (lost : Bool) (n : Nat) (b : Blk) : (struck p l lost n b).port p =
    { b.port p with outage := if lost then some ((b.port p).outage.getD b.now) else (b.port p).outage } := by
  cases lost
  · rw [struck, ifB, if_neg (by decide), satBy_eq, wr_port]
    rfl
  · rw [struck, ifB, if_pos rfl, updPort_port_same, wr_port, satBy_eq, wr_port, wr_now]
    rfl

theorem struck_state (p l : Nat) (lost : Bool) (n : Nat) (b : Blk) (m : Nat) :
    (struck p l lost n b).rd (PORT_LANE.state p m) = b.rd (PORT_LANE.state p m) := by
  cases lost
  · rw [struck, ifB, if_neg (by decide), satBy_eq, wr_symErr_state]
  · rw [struck, ifB, if_pos rfl, updPort_rd, wr_lock_state, satBy_eq, wr_symErr_state]

theorem portOnly_struck (p l : Nat) (lost : Bool) (n : Nat) (b : Blk) : PortOnly [.portLane p l] p b (struck p l lost n b) := by
  have hcount : PortOnly [.portLane p l] p b (b.satBy (PORT_LANE.sym_err p l) n) :=
    portOnly_wr (portOnly_refl _ _ _) (by simp [PORT_LANE.sym_err])
  cases lost
  · exact hcount
  · rw [struck, ifB, if_pos rfl]
    exact portOnly_updPort (portOnly_wr hcount (by simp [PORT_LANE.lock]))

theorem struck_rd_ne (p l : Nat) (lost : Bool) (n : Nat) (b : Blk) (f : Fld) (hf : f.reg.addr ≠ (Reg.portLane p l).addr) :
    (struck p l lost n b).rd f = b.rd f := portOnly_rd (portOnly_struck p l lost n b) f (by simpa using hf)

theorem struck_pstate (p l : Nat) (lost : Bool) (n : Nat) (b : Blk) : (struck p l lost n b).pstate p = b.pstate p := by
  refine struck_rd_ne p l lost n b (PORT_STATE.state p) ?_
  have hstate : (PORT_STATE.state p).reg.addr = portBase p + 0 := rfl
  rw [portLane_addr, hstate]
  omega

/-- The receiver asks for spare `s` in lane `l`'s place. -/
def askSpare (p l s : Nat) (lost : Bool) (b : Blk) : Blk :=
  b.updPort p fun x =>
    { x with rxSpares := x.rxSpares ++ [⟨l, s, b2n (!lost), none⟩], pendLink := x.pendLink ++ [(0x52, 0x52 + l * 2 ^ 8 + s * 2 ^ 14)] }

/-- The port agrees to halve at `t`. -/
def agreeHalf (p t : Nat) (b : Blk) : Blk :=
  b.updPort p fun x =>
    { x with act := some ⟨3, t⟩, pendLink := x.pendLink ++ [(0x55, 0x55 + 3 * 2 ^ 8 + t * 2 ^ 64)] }

/-- Without a spare the lane has failed, and the port agrees to halve within 5 ms. -/
def halving (p l : Nat) (b : Blk) : Blk :=
  agreeHalf p ((b.wr (PORT_LANE.state p l) 2).fresh.2.now + (b.wr (PORT_LANE.state p l) 2).fresh.1.toNat % 5000000)
    (b.wr (PORT_LANE.state p l) 2).fresh.2

/-- Lane `l` of port `p` is active and fails: its lock is lost or its errors pass the limit. -/
def Fails (p l : Nat) (lost : Bool) (n : Nat) (b : Blk) : Prop :=
  b.pLive p = true ∧ b.rd (PORT_LANE.state p l) = 0 ∧ (lost = true ∨ b.rd (PORT_CFG.lane_err_limit p) < n)

theorem fails_counted {p l : Nat} {lost : Bool} {n : Nat} {b : Blk} (h : Fails p l lost n b) :
    Fails p l lost n (b.satBy (PORT_LANE.sym_err p l) n) := by
  obtain ⟨hlive, hactive, hlimit⟩ := h
  have hstate : (PORT_STATE.state p).reg.addr = portBase p + 0 := rfl
  have hcfg : (PORT_CFG.lane_err_limit p).reg.addr = portBase p + 0x18 := rfl
  have hlane : (PORT_LANE.sym_err p l).reg.addr = portBase p + 0x100 + l * 8 := rfl
  refine ⟨?_, ?_, ?_⟩
  · rwa [satBy_eq, pLive_congr (wr_rd_ne b (PORT_LANE.sym_err p l) (PORT_STATE.state p) _ (by omega))]
  · rwa [satBy_eq, wr_symErr_state]
  · rwa [satBy_eq, wr_rd_ne _ _ _ _ (by omega)]

/-- A lane's first failure: its receiver asks for the first free spare, or the port goes on to halve (R204, R205). -/
theorem laneFailureFx_struck (p : Port) (l : Fin 36) (lost : Bool) (n : Nat) (b : Blk) (hinj : NoInj b)
    (hfails : Fails p.val l.val lost n b) (hnew : ∀ x ∈ (b.port p.val).rxSpares, x.failed ≠ l.val) :
    (∀ s rest, b.freeSpares p.val = s :: rest →
      laneFailureFx p l lost n b = askSpare p.val l.val s lost (struck p.val l.val lost n b))
    ∧ (b.freeSpares p.val = [] → b.pstate p.val = psUp →
      laneFailureFx p l lost n b = halving p.val l.val (struck p.val l.val lost n b)) := by
  have hspares : ((struck p.val l.val lost n b).port p.val).rxSpares = (b.port p.val).rxSpares := by rw [struck_port]
  have hfree := freeSpares_congr (p := p.val) (struck_state p.val l.val lost n b) hspares
  have hany : ¬(((struck p.val l.val lost n b).port p.val).rxSpares.any fun x => x.failed = l.val) = true := by
    rw [hspares]
    simpa using hnew
  obtain ⟨hlive, hactive, hlimit⟩ := fails_counted hfails
  have hcounted : NoInj (b.satBy (PORT_LANE.sym_err p.val l.val) n) := by rwa [NoInj, satBy_eq, wr_ras, ← NoInj]
  have hstruck : laneFailureFx p l lost n b =
      match (struck p.val l.val lost n b).freeSpares p.val with
      | s :: _ => askSpare p.val l.val s lost (struck p.val l.val lost n b)
      | [] => if (struck p.val l.val lost n b).pstate p.val ≠ psUp then struck p.val l.val lost n b
        else halving p.val l.val (struck p.val l.val lost n b) := by
    unfold laneFailureFx
    dsimp only
    rw [fireLink_none _ _ _ _ hcounted, if_neg (by simp [hlive, hactive, hlimit])]
    exact if_neg hany
  rw [hstruck, hfree]
  refine ⟨fun s rest h => by rw [h], fun h hup => ?_⟩
  rw [h]
  exact if_neg (by rw [struck_pstate, hup]; exact not_not.2 rfl)

theorem lane_asks_for_spare (p : Port) (l : Fin 36) (lost : Bool) (n : Nat) (s : State) (sp : Nat) (rest : List Nat)
    (hinj : NoInj s.blk) (hlive : s.blk.pLive p.val = true) (hactive : s.blk.rd (PORT_LANE.state p.val l.val) = 0)
    (hlimit : lost = true ∨ s.blk.rd (PORT_CFG.lane_err_limit p.val) < n)
    (hnew : ∀ x ∈ (s.blk.port p.val).rxSpares, x.failed ≠ l.val) (hfree : s.blk.freeSpares p.val = sp :: rest) :
    Does (.laneFailure p l lost n) s fun b =>
      (b.port p.val).rxSpares = (s.blk.port p.val).rxSpares ++ [⟨l.val, sp, b2n (!lost), none⟩]
        ∧ b.rd (PORT_LANE.state p.val l.val) = 0
        ∧ (b.port p.val).outage = (if lost then some ((s.blk.port p.val).outage.getD s.blk.now) else (s.blk.port p.val).outage)
        ∧ (b.port p.val).pendLink = (s.blk.port p.val).pendLink ++ [(0x52, 0x52 + l.val * 2 ^ 8 + sp * 2 ^ 14)]
        ∧ PortOnly [.portLane p.val l.val] p.val s.blk b := by
  refine does_of_onBlk (f := laneFailureFx p l lost n) rfl ?_
  rw [(laneFailureFx_struck p l lost n s.blk hinj ⟨hlive, hactive, hlimit⟩ hnew).1 sp rest hfree]
  have hport := struck_port p.val l.val lost n s.blk
  refine ⟨?_, ?_, ?_, ?_, ?_⟩
  · rw [askSpare, updPort_port_same, hport]
  · rw [askSpare, updPort_rd, struck_state, hactive]
  · rw [askSpare, updPort_port_same, hport]
  · rw [askSpare, updPort_port_same, hport]
  · exact portOnly_updPort (portOnly_struck ..)

theorem fresh_now (b : Blk) : b.fresh.2.now = b.now := rfl
theorem fresh_port (b : Blk) (p : Nat) : b.fresh.2.port p = b.port p := rfl
theorem fresh_rd (b : Blk) (f : Fld) : b.fresh.2.rd f = b.rd f := rfl

theorem halving_port (p l : Nat) (b : Blk) : ∃ t, b.now ≤ t ∧ t < b.now + 5000000 ∧ (halving p l b).port p =
    { b.port p with act := some ⟨3, t⟩, pendLink := (b.port p).pendLink ++ [(0x55, 0x55 + 3 * 2 ^ 8 + t * 2 ^ 64)] } := by
  unfold halving
  rw [fresh_now, wr_now]
  refine ⟨b.now + (b.wr (PORT_LANE.state p l) 2).fresh.1.toNat % 5000000, Nat.le_add_right .., ?_, ?_⟩
  · exact Nat.add_lt_add_left (Nat.mod_lt _ (by decide)) _
  · rw [agreeHalf, updPort_port_same, fresh_port, wr_port]

theorem portOnly_halving (p l : Nat) (b : Blk) : PortOnly [.portLane p l] p b (halving p l b) :=
  portOnly_updPort (portOnly_fresh (portOnly_wr (portOnly_refl _ _ _) (by simp [PORT_LANE.state])))

theorem halving_state (p l : Nat) (b : Blk) : (halving p l b).rd (PORT_LANE.state p l) = 2 := by
  rw [halving, agreeHalf, updPort_rd, fresh_rd, wr_rd_same _ _ _ (by simp [PORT_LANE.state])]
  rfl

theorem lane_agrees_to_halve (p : Port) (l : Fin 36) (lost : Bool) (n : Nat) (s : State) (hinj : NoInj s.blk)
    (hup : s.blk.pstate p.val = psUp) (hactive : s.blk.rd (PORT_LANE.state p.val l.val) = 0)
    (hlimit : lost = true ∨ s.blk.rd (PORT_CFG.lane_err_limit p.val) < n)
    (hnew : ∀ x ∈ (s.blk.port p.val).rxSpares, x.failed ≠ l.val) (hfree : s.blk.freeSpares p.val = []) :
    Does (.laneFailure p l lost n) s fun b =>
      b.rd (PORT_LANE.state p.val l.val) = 2
        ∧ (∃ t, (b.port p.val).act = some ⟨3, t⟩ ∧ s.blk.now ≤ t ∧ t < s.blk.now + 5000000
          ∧ (b.port p.val).pendLink = (s.blk.port p.val).pendLink ++ [(0x55, 0x55 + 3 * 2 ^ 8 + t * 2 ^ 64)])
        ∧ PortOnly [.portLane p.val l.val] p.val s.blk b := by
  refine does_of_onBlk (f := laneFailureFx p l lost n) rfl ?_
  have hlive : s.blk.pLive p.val = true := by simp [Blk.pLive, hup]
  rw [(laneFailureFx_struck p l lost n s.blk hinj ⟨hlive, hactive, hlimit⟩ hnew).2 hfree hup]
  have honly := portOnly_struck p.val l.val lost n s.blk
  obtain ⟨t, hlo, hhi, hport⟩ := halving_port p.val l.val (struck p.val l.val lost n s.blk)
  rw [portOnly_now honly] at hlo hhi
  refine ⟨halving_state .., ⟨t, ?_, hlo, hhi, ?_⟩, portOnly_trans honly (portOnly_halving ..)⟩
  · rw [hport]
  · rw [hport, struck_port]

/-! ### The transmitter answers, the receiver takes it (R204) -/

theorem spareRequest_answered (p : Port) (f x : BitVec 6) (s : State) (hlive : s.blk.pLive p.val = true) (hf : f.toNat < 36)
    (hx : x.toNat < 36) :
    Does (.spareRequest p f x) s fun b => ∃ cw, cw < 2 ^ 32
      ∧ (b.port p.val).txSpares = (s.blk.port p.val).txSpares ++ [⟨f.toNat, x.toNat, 0, some cw⟩]
      ∧ (b.port p.val).pendLink = (s.blk.port p.val).pendLink
        ++ [(0x52, 0x52 + f.toNat * 2 ^ 8 + x.toNat * 2 ^ 14 + 2 ^ 20 + cw * 2 ^ 32)]
      ∧ PortOnly [] p.val s.blk b := by
  refine does_of_onBlk (f := spareRequestFx p f x) rfl ?_
  have hfx : spareRequestFx p f x s.blk = s.blk.fresh.2.updPort p.val fun y =>
      { y with txSpares := y.txSpares ++ [⟨f.toNat, x.toNat, 0, some (s.blk.fresh.1.toNat % 2 ^ 32)⟩],
               pendLink := y.pendLink ++ [(0x52, 0x52 + f.toNat * 2 ^ 8 + x.toNat * 2 ^ 14 + 2 ^ 20
                 + s.blk.fresh.1.toNat % 2 ^ 32 * 2 ^ 32)] } :=
    if_neg (by simp only [hlive, not_true, false_or, not_or, Nat.not_le]; exact ⟨hf, hx⟩)
  rw [hfx]
  generalize hcw : s.blk.fresh.1.toNat % 2 ^ 32 = cw
  refine ⟨cw, hcw ▸ Nat.mod_lt _ (by decide), ?_, ?_, portOnly_updPort (portOnly_fresh (portOnly_refl _ _ _))⟩
  · rw [updPort_port_same, fresh_port]
  · rw [updPort_port_same, fresh_port]

theorem spareAcknowledge_taken (p : Port) (f x : BitVec 6) (cw : BitVec 32) (s : State) :
    Does (.spareAcknowledge p f x cw) s fun b =>
      (∃ l, b.port p.val = { s.blk.port p.val with rxSpares := l } ∧ l.length = (s.blk.port p.val).rxSpares.length
        ∧ ∀ (i : Nat) (y : Sparing), (s.blk.port p.val).rxSpares[i]? = some y → l[i]? = some { y with
            cw := if y.failed = f.toNat ∧ y.spare = x.toNat ∧ y.cw = none then some cw.toNat else y.cw })
        ∧ PortOnly [] p.val s.blk b := by
  refine does_of_onBlk (f := spareAckFx p f x cw) rfl ?_
  unfold spareAckFx
  refine ⟨⟨_, updPort_port_same .., List.length_map .., fun i y hy => ?_⟩, portOnly_updPort (portOnly_refl _ _ _)⟩
  rw [List.getElem?_map, hy, Option.map_some]
  split <;> rfl

/-! ### The switch (R204, R300) -/

theorem transmitter_switches (p : Port) (s : State) (y : Sparing) (ys : List Sparing)
    (hnone : ∀ z ∈ (s.blk.port p.val).rxSpares, z.cw = none) (htx : (s.blk.port p.val).txSpares = y :: ys) :
    Does (.laneSpareSwitch p) s fun b =>
      b.port p.val = { s.blk.port p.val with txSpares := ys, txLanes := (s.blk.port p.val).txLanes.map fun n =>
          if n = y.failed then y.spare else n }
        ∧ PortOnly [] p.val s.blk b := by
  refine does_of_onBlk (f := laneSwitchFx p) rfl ?_
  have hfind : ((s.blk.port p.val).rxSpares.find? fun y => y.cw.isSome) = none :=
    List.find?_eq_none.2 fun z hz => by simp [hnone z hz]
  unfold laneSwitchFx
  dsimp only
  rw [hfind]
  dsimp only
  refine ⟨?_, portOnly_updPort (portOnly_refl _ _ _)⟩
  rw [Blk.moveTx, updPort_port_same, htx]
  rfl

/-- A unit joins its die's self-test queue, or is counted as dropped; nothing else changes. -/
theorem queueTest_frame (b : Blk) (u : StUnit) (hdie : 12 < u.die) :
    RegsKeep [.rasStatus 0] b (b.queueTest u) ∧ b.queueTest u = { b with regs := (b.queueTest u).regs, ras := (b.queueTest u).ras } := by
  have hq : (if 1 ≤ u.die ∧ u.die ≤ 12 then u.die else 0) = 0 := if_neg (by omega)
  unfold Blk.queueTest
  dsimp only
  rw [hq]
  split
  · exact ⟨fun _ _ => updRas_reg .., rfl⟩
  · split
    · refine ⟨regsKeep_wr _ _ _ (by decide), ?_⟩
      rw [satBy_eq, wr_eq]
    · exact ⟨fun _ _ => updRas_reg .., rfl⟩

/-- The spare lane takes the failed one's place at the receiver. -/
def movedLane (p f x : Nat) (b : Blk) : Blk :=
  ((((b.wr (PORT_LANE.state p f) 2).wr (PORT_LANE.lock p f) 0).wr (PORT_LANE.state p x) 0).wr (PORT_LANE.logical p x)
    (b.rd (PORT_LANE.logical p f))).wr (PORT_LANE.lock p x) 1

/-- The switch is reported, and the replacement is over. -/
def toldLane (p f x cause : Nat) (cw : Option Nat) (b : Blk) : Blk :=
  ((b.updPort p fun y => { y with inj := false }).raiseInj (b.port p).inj (portDie p) (portUnit p) 0x0502
    (p + f * 2 ^ 4 + x * 2 ^ 10 + cause * 2 ^ 16)).updPort p fun y => { y with rxSpares := y.rxSpares.erase ⟨f, x, cause, cw⟩ }

/-- The failed lane is to be tested, and a port without a spare lane left says so. -/
def spentLane (p f : Nat) (b : Blk) : Blk :=
  if (b.queueTest ⟨portDie p, portUnit p, 5, f, 1⟩).lanesIn p 1 = [] then
    (b.queueTest ⟨portDie p, portUnit p, 5, f, 1⟩).raise (portDie p) (portUnit p) 0x0809 (4 + portUnit p * 2 ^ 8)
  else b.queueTest ⟨portDie p, portUnit p, 5, f, 1⟩

theorem laneSwitchFx_receiver (p : Port) (b : Blk) (f x cause : Nat) (cw : Option Nat)
    (hfind : ((b.port p.val).rxSpares.find? fun y => y.cw.isSome) = some ⟨f, x, cause, cw⟩) :
    laneSwitchFx p b = spentLane p.val f (toldLane p.val f x cause cw (movedLane p.val f x b)) := by
  unfold laneSwitchFx
  dsimp only
  rw [hfind]
  rfl

theorem movedLane_fields (p f x : Nat) (b : Blk) (hne : f ≠ x) :
    (movedLane p f x b).rd (PORT_LANE.state p f) = 2 ∧ (movedLane p f x b).rd (PORT_LANE.state p x) = 0
      ∧ (movedLane p f x b).rd (PORT_LANE.lock p x) = 1
      ∧ (movedLane p f x b).rd (PORT_LANE.logical p x) = b.rd (PORT_LANE.logical p f) := by
  refine ⟨?_, ?_, ?_, ?_⟩ <;> rw [movedLane]
  · rw [wr_lock_state, wr_rd_ne _ _ _ _ (portLane_addr_ne hne), wr_rd_ne _ _ _ _ (portLane_addr_ne hne), wr_lock_state,
      wr_rd_same _ _ _ (by simp [PORT_LANE.state])]
    rfl
  · rw [wr_lock_state, wr_rd_disj _ _ _ _ (by simp [PORT_LANE.logical, PORT_LANE.state])
      (by simp [PORT_LANE.logical, PORT_LANE.state]) (by simp [PORT_LANE.state]), wr_rd_same _ _ _ (by simp [PORT_LANE.state])]
    rfl
  · rw [wr_rd_same _ _ _ (by simp [PORT_LANE.lock])]
    rfl
  · rw [wr_rd_disj _ _ _ _ (by simp [PORT_LANE.logical, PORT_LANE.lock]) (by simp [PORT_LANE.logical, PORT_LANE.lock])
      (by simp [PORT_LANE.logical]), wr_rd_same _ _ _ (by simp [PORT_LANE.logical])]
    exact Nat.mod_eq_of_lt (rd_lt b (PORT_LANE.logical p f))

theorem movedLane_frame (p f x : Nat) (b : Blk) : (movedLane p f x b).ev = b.ev ∧ (movedLane p f x b).now = b.now
    ∧ (movedLane p f x b).port p = b.port p := by
  refine ⟨?_, ?_, ?_⟩ <;> rw [movedLane]
  · rw [wr_ev, wr_ev, wr_ev, wr_ev, wr_ev]
  · rw [wr_now, wr_now, wr_now, wr_now, wr_now]
  · rw [wr_port, wr_port, wr_port, wr_port, wr_port]

theorem toldLane_rd (p f x cause : Nat) (cw : Option Nat) (b : Blk) (r : Fld) : (toldLane p f x cause cw b).rd r = b.rd r := by
  rw [toldLane, updPort_rd, raiseInj_rd, updPort_rd]

theorem raiseInj_port (b : Blk) (inj : Bool) (die unit code detail p : Nat) : (b.raiseInj inj die unit code detail).port p = b.port p := by
  rw [Blk.port, raiseInj_eq, Blk.port]

theorem toldLane_spares (p f x cause : Nat) (cw : Option Nat) (b : Blk) :
    ((toldLane p f x cause cw b).port p).rxSpares = (b.port p).rxSpares.erase ⟨f, x, cause, cw⟩ := by
  rw [toldLane, updPort_port_same, raiseInj_port, updPort_port_same]

/-- An event that is not coalesced is logged, marked as injected or not (R292, R294). -/
theorem raiseInj_logged (b : Blk) (inj : Bool) (die unit code detail : Nat) (hc : coalesced code = false) (h9 : code ≠ 0x0901) :
    Logged die unit code detail b (b.raiseInj inj die unit code detail) :=
  ⟨[⟨b.now, die, unit, code, severity code, _, detail % 2 ^ 152⟩], by rw [raiseInj_ev b inj die unit code detail hc h9], _,
    List.mem_singleton_self _, rfl, rfl, rfl, rfl, rfl, rfl⟩

theorem toldLane_logged (p f x cause : Nat) (cw : Option Nat) (b : Blk) :
    Logged (portDie p) (portUnit p) 0x0502 (p + f * 2 ^ 4 + x * 2 ^ 10 + cause * 2 ^ 16) b (toldLane p f x cause cw b) := by
  have hraised := raiseInj_logged (b.updPort p fun y => { y with inj := false }) (b.port p).inj (portDie p) (portUnit p) 0x0502
    (p + f * 2 ^ 4 + x * 2 ^ 10 + cause * 2 ^ 16) (by decide) (by decide)
  refine logged_append (logged_since (updPort_ev ..) (updPort_now ..) hraised) ⟨[], ?_⟩
  rw [toldLane, updPort_ev, List.append_nil]

/-- After the switch only the self-test queue, its counter and the events may still change. -/
theorem spentLane_frame (p f : Nat) (b : Blk) : (spentLane p f b).port p = b.port p ∧ (∃ l, (spentLane p f b).ev.held = b.ev.held ++ l)
    ∧ ∀ r : Fld, r.reg.addr ≠ (Reg.rasStatus 0).addr → (spentLane p f b).rd r = b.rd r := by
  obtain ⟨hkeep, heq⟩ := queueTest_frame b ⟨portDie p, portUnit p, 5, f, 1⟩ (Nat.lt_of_lt_of_le (by decide) (Nat.le_add_right 17 _))
  have hport : (b.queueTest ⟨portDie p, portUnit p, 5, f, 1⟩).port p = b.port p := by rw [Blk.port, heq, Blk.port]
  have hev : (b.queueTest ⟨portDie p, portUnit p, 5, f, 1⟩).ev = b.ev := by rw [heq]
  have hrd (r : Fld) (hr : r.reg.addr ≠ (Reg.rasStatus 0).addr) : (b.queueTest ⟨portDie p, portUnit p, 5, f, 1⟩).rd r = b.rd r :=
    regsKeep_rd hkeep r (by simpa using hr)
  unfold spentLane
  split
  · refine ⟨?_, ?_, fun r hr => ?_⟩
    · rw [Blk.raise, raiseInj_port, hport]
    · rw [← hev]
      exact raise_held_append ..
    · rw [raise_rd, hrd r hr]
  · exact ⟨hport, ⟨[], by rw [hev, List.append_nil]⟩, hrd⟩

theorem receiver_switches (p : Port) (s : State) (f x cause : Nat) (cw : Option Nat)
    (hfind : ((s.blk.port p.val).rxSpares.find? fun y => y.cw.isSome) = some ⟨f, x, cause, cw⟩) (_ : f < 36) (_ : x < 36)
    (hne : f ≠ x) :
    Does (.laneSpareSwitch p) s fun b =>
      b.rd (PORT_LANE.state p.val f) = 2 ∧ b.rd (PORT_LANE.state p.val x) = 0 ∧ b.rd (PORT_LANE.lock p.val x) = 1
        ∧ b.rd (PORT_LANE.logical p.val x) = s.blk.rd (PORT_LANE.logical p.val f)
        ∧ (b.port p.val).rxSpares = (s.blk.port p.val).rxSpares.erase ⟨f, x, cause, cw⟩
        ∧ Logged (portDie p.val) (portUnit p.val) 0x0502
          (p.val + f * 2 ^ 4 + x * 2 ^ 10 + cause * 2 ^ 16) s.blk b := by
  refine does_of_onBlk (f := laneSwitchFx p) rfl ?_
  rw [laneSwitchFx_receiver p s.blk f x cause cw hfind]
  obtain ⟨hfailed, hactive, hlock, hlogical⟩ := movedLane_fields p.val f x s.blk hne
  obtain ⟨hev, hnow, hport⟩ := movedLane_frame p.val f x s.blk
  obtain ⟨hspares, hheld, hrd⟩ := spentLane_frame p.val f (toldLane p.val f x cause cw (movedLane p.val f x s.blk))
  have hlane (l : Nat) : (Reg.portLane p.val l).addr ≠ (Reg.rasStatus 0).addr := by
    have hras : (Reg.rasStatus 0).addr = hubBase + 0xA0000 := rfl
    rw [portLane_addr, hras, portBase, ldBase, dieBase, hubBase]
    omega
  refine ⟨?_, ?_, ?_, ?_, ?_, ?_⟩
  · rw [hrd _ (hlane f), toldLane_rd, hfailed]
  · rw [hrd _ (hlane x), toldLane_rd, hactive]
  · rw [hrd _ (hlane x), toldLane_rd, hlock]
  · rw [hrd _ (hlane x), toldLane_rd, hlogical]
  · rw [hspares, toldLane_spares, hport]
  · exact logged_since hev hnow (logged_append (toldLane_logged ..) hheld)

theorem spareLanesReplaceFailedOnes : SpareLanesReplaceFailedOnes :=
  ⟨lane_asks_for_spare, lane_agrees_to_halve, spareRequest_answered, spareAcknowledge_taken, transmitter_switches, receiver_switches⟩

/-- Settles O48: the link words by the packing of their fields, the credits VC by VC, and the four steps of a lane's replacement. -/
theorem linkWordsAndSpareLanes : Obligations.LinkWordsAndSpareLanes := ⟨linkWordsAcknowledgeAndResend, spareLanesReplaceFailedOnes⟩

end Sys2Proof.Proofs
end

section
/-!
PROOFS. The instruction ANCHOR (R149), and the release that is not yet due (R41).
-/
namespace Sys2Proof.Proofs
open Sys2Proof Sys2Proof.Machine Sys2Proof.Says

/-! ### The fields of SEQ_STATUS -/

theorem setSeqState_seqState (b : Blk) (k v : Nat) (hv : v < 8) : (b.setSeqState k v).seqState k = v := by
  rw [Blk.seqState, Blk.setSeqState, wr_rd_same _ _ _ (by simp [SEQ_STATUS.state])]
  exact Nat.mod_eq_of_lt hv

theorem setSeqState_rd_disj (b : Blk) (k v : Nat) (f : Fld) (hr : f.reg = .seqStatus (k / 32) (k % 32)) (hlo : 3 ≤ f.lo)
    (h64 : f.lo + f.w ≤ 64) : (b.setSeqState k v).rd f = b.rd f :=
  wr_rd_disj b (SEQ_STATUS.state (k / 32) (k % 32)) f v hr (Or.inr hlo) h64

theorem setSeqState_pc (b : Blk) (k v : Nat) : (b.setSeqState k v).pc k = b.pc k :=
  setSeqState_rd_disj b k v _ rfl (by simp [SEQ_STATUS.pc]) (by simp [SEQ_STATUS.pc])

theorem setSeqState_segOf (b : Blk) (k v : Nat) : (b.setSeqState k v).segOf k = b.segOf k :=
  setSeqState_rd_disj b k v _ rfl (by simp [SEQ_STATUS.segment]) (by simp [SEQ_STATUS.segment])

theorem setSeqState_slot (b : Blk) (k v : Nat) : (b.setSeqState k v).slot k = b.slot k :=
  setSeqState_rd_disj b k v _ rfl (by simp [SEQ_STATUS.ctx]) (by simp [SEQ_STATUS.ctx])

theorem setSeqState_core (b : Blk) (k v m : Nat) : (b.setSeqState k v).core m = b.core m := wr_core ..

theorem countIssue_segOf (b : Blk) (k : Nat) : (b.countIssue k).segOf k = b.segOf k := by
  simp only [Blk.segOf, Blk.rd, SEQ_STATUS.segment, countIssue_status]

/-- One more issue is counted, unless the counters are frozen (R165). -/
theorem countIssue_counted (b : Blk) (k : Nat) : (b.countIssue k).rd (SEQ_ISSUED.count (k / 32) (k % 32)) =
    if b.on (SEQ_PERF_CTRL.freeze (k / 32) (k % 32)) then b.rd (SEQ_ISSUED.count (k / 32) (k % 32))
    else (b.rd (SEQ_ISSUED.count (k / 32) (k % 32)) + 1) % 2 ^ 48 := by
  have hissued : (b.stall k 0 0 1).rd (SEQ_ISSUED.count (k / 32) (k % 32)) = b.rd (SEQ_ISSUED.count (k / 32) (k % 32)) := by
    have hne : (Reg.seqIssued (k / 32) (k % 32)).addr ≠ (Reg.seqStall (k / 32) (k % 32) 0 0).addr := by
      rw [seqIssued_addr, seqStall_addr]
      omega
    rw [Blk.rd, SEQ_ISSUED.count, stall_reg_ne _ _ _ _ _ _ hne, Blk.rd]
  have hfreeze : (b.stall k 0 0 1).on (SEQ_PERF_CTRL.freeze (k / 32) (k % 32)) = b.on (SEQ_PERF_CTRL.freeze (k / 32) (k % 32)) := by
    have hne : (Reg.seqPerfCtrl (k / 32) (k % 32)).addr ≠ (Reg.seqStall (k / 32) (k % 32) 0 0).addr := by
      rw [seqPerfCtrl_addr, seqStall_addr]
      omega
    rw [Blk.on, Blk.rd, SEQ_PERF_CTRL.freeze, stall_reg_ne _ _ _ _ _ _ hne, Blk.on, Blk.rd]
  unfold Blk.countIssue
  dsimp only
  rw [hfreeze]
  split
  · exact hissued
  · rw [incBy_eq, wr_rd_same _ _ _ (by simp [SEQ_ISSUED.count]), hissued]
    rfl

/-! ### ANCHOR (R149) -/

/-- The core waits for the release of its segment's closing anchor. -/
def waiting (k : Nat) (b : Blk) : Blk :=
  ((b.countIssue k).updCore k fun c => { c with arrived := some c.cyc }).setSeqState k 2

theorem anchorFx_waits (i : Issue) (b : Blk) (j : Job) (hissue : CanIssue i b) (hinj : NoInj b) (hjob : b.run.job = some j)
    (hseg : b.segOf (coreKey i.core) = b.run.seg) : anchorFx i b = waiting (coreKey i.core) b := by
  obtain ⟨hissuing, hfetch⟩ := hissue
  have hframe := countIssue_eq b (coreKey i.core)
  have hinj' : NoInj (b.countIssue (coreKey i.core)) := by rw [NoInj, hframe, ← hinj]
  have hjob' : (b.countIssue (coreKey i.core)).run.job = some j := by rw [hframe, ← hjob]
  have hseg' : (b.countIssue (coreKey i.core)).segOf (coreKey i.core) = (b.countIssue (coreKey i.core)).run.seg := by
    have hrun : (b.countIssue (coreKey i.core)).run = b.run := by rw [hframe]
    rw [countIssue_segOf, hrun, hseg]
  unfold anchorFx
  rw [issueCtl_runs _ _ _ _ hissuing hfetch rfl]
  dsimp only
  rw [fire_none _ _ _ hinj']
  dsimp only
  rw [hjob']
  exact if_pos hseg'

theorem waiting_core (k : Nat) (b : Blk) : Core k [] { b.core k with arrived := some (b.core k).cyc } b (waiting k b) := by
  have hissued : (SEQ_ISSUED.count (k / 32) (k % 32)).reg.addr ≠ (SEQ_STATUS.state (k / 32) (k % 32)).reg.addr :=
    (seqStatus_ne_seqIssued k).symm
  refine ⟨?_, ?_, fun m hm => ?_, fun r hr => ?_, ?_⟩
  · rw [waiting, setSeqState_core, updCore_core_same, countIssue_core]
  · rw [Counted, waiting, Blk.setSeqState, wr_rd_ne _ _ _ _ hissued, updCore_rd, countIssue_counted]
  · rw [waiting, setSeqState_core, updCore_core_ne _ _ _ _ hm, countIssue_core]
  · simp only [List.append_nil, List.map_cons, List.map_nil, List.mem_cons, List.not_mem_nil, or_false, not_or] at hr
    obtain ⟨hstatus, hissue, hstall⟩ := hr
    rw [waiting, Blk.setSeqState, wr_reg_ne _ _ _ _ hstatus, updCore_reg, countIssue_reg_ne _ _ _ hstall hissue]
  · rw [waiting, Blk.setSeqState, wr_eq, countIssue_eq]
    rfl

theorem anchor_waits (i : Issue) (s : State) (j : Job) (hissue : CanIssue i s.blk) (hinj : NoInj s.blk)
    (hjob : s.blk.run.job = some j) (hseg : s.blk.segOf (coreKey i.core) = s.blk.run.seg) :
    Does (.anchor i) s fun b =>
      let k := coreKey i.core
      let c := s.blk.core k
      Core k [] { c with arrived := some c.cyc } s.blk b ∧ b.seqState k = 2 ∧ b.pc k = s.blk.pc k
        ∧ b.slot k = s.blk.slot k ∧ b.segOf k = s.blk.segOf k := by
  refine does_of_onBlk (f := anchorFx i) rfl ?_
  rw [anchorFx_waits i s.blk j hissue hinj hjob hseg]
  have hupd (c : Blk) (k : Nat) (f : CoreSt → CoreSt) : (c.updCore k f).segOf k = c.segOf k := updCore_rd ..
  have hpc (c : Blk) (k : Nat) (f : CoreSt → CoreSt) : (c.updCore k f).pc k = c.pc k := updCore_rd ..
  refine ⟨waiting_core _ _, setSeqState_seqState _ _ _ (by decide), ?_, ?_, ?_⟩
  · rw [waiting, setSeqState_pc, hpc, countIssue_pc]
  · rw [waiting, setSeqState_slot, updCore_slot, countIssue_slot]
  · rw [waiting, setSeqState_segOf, hupd, countIssue_segOf]

/-! ### Not yet due (R41) -/

theorem anchorRelease_not_due (s : State) (j : Job) (hjob : s.blk.run.job = some j)
    (hearly : s.blk.now < s.blk.relOf j s.blk.run.seg) : Does .anchorRelease s fun b => b = s.blk := by
  refine does_of_onBlk (f := anchorReleaseFx) rfl ?_
  unfold anchorReleaseFx
  rw [hjob]
  exact if_pos hearly

end Sys2Proof.Proofs
end

section
/-!
PROOFS. What the commands around an anchor's release leave alone: the cores' status and instruction caches, their site maps, the
device state and what the release itself goes by.
-/
namespace Sys2Proof.Proofs
open Sys2Proof Sys2Proof.Machine Sys2Proof.Says

/-! ### The registers that stay -/

/-- The addresses of SEQ_STATUS, SEQ_ICACHE and SITE_MAP of the compute dies, and of CTL_STATE, CTL_ARM, XBAR_STATUS, PWR_THERM_STAT,
COLL_FALLBACK and MTC_SCHED_ACT in the hub, by die and offset. -/
def SteadyAddr (a : Nat) : Prop :=
  hubBase ≤ a
    ∧ (1 ≤ dieOfAddr a ∧ dieOfAddr a ≤ 12
        ∧ (0x100000 ≤ offOfAddr a ∧ (offOfAddr a % 0x10000 = 8 ∨ offOfAddr a % 0x10000 = 0x30)
          ∨ 0x10000 ≤ offOfAddr a ∧ offOfAddr a < 0x10100)
      ∨ dieOfAddr a = 0
        ∧ (offOfAddr a = 0xC0000 ∨ offOfAddr a = 0xC0020 ∨ offOfAddr a = 0x20000 ∨ offOfAddr a = 0x90020 ∨ offOfAddr a = 0x40030
          ∨ 0x10208 ≤ offOfAddr a ∧ offOfAddr a < 0x10408 ∧ offOfAddr a % 16 = 8))

/-- The same of an address that is given from the hub's base. -/
theorem steadyAddr_iff (x : Nat) : SteadyAddr (hubBase + x) ↔
    1 ≤ x / 2 ^ 24 ∧ x / 2 ^ 24 ≤ 12
        ∧ (0x100000 ≤ x % 2 ^ 24 ∧ (x % 2 ^ 24 % 0x10000 = 8 ∨ x % 2 ^ 24 % 0x10000 = 0x30)
          ∨ 0x10000 ≤ x % 2 ^ 24 ∧ x % 2 ^ 24 < 0x10100)
      ∨ x / 2 ^ 24 = 0
        ∧ (x % 2 ^ 24 = 0xC0000 ∨ x % 2 ^ 24 = 0xC0020 ∨ x % 2 ^ 24 = 0x20000 ∨ x % 2 ^ 24 = 0x90020 ∨ x % 2 ^ 24 = 0x40030
          ∨ 0x10208 ≤ x % 2 ^ 24 ∧ x % 2 ^ 24 < 0x10408 ∧ x % 2 ^ 24 % 16 = 8) := by
  have hx : hubBase + x - hubBase = x := Nat.add_sub_cancel_left ..
  simp only [SteadyAddr, dieOfAddr, offOfAddr, hx, Nat.le_add_right, true_and]

theorem dieBase_eq (d : Nat) : dieBase d = hubBase + d * 0x1000000 := rfl

theorem coreBase_eq (cd s : Nat) : coreBase cd s = hubBase + ((cd + 1) * 0x1000000 + 0x100000 + s * 0x10000) := by
  rw [coreBase, cdBase, dieBase_eq]
  omega

/-- A core's registers other than SEQ_STATUS and SEQ_ICACHE may change. -/
theorem not_steady_core (k x : Nat) (hx : x < 0x10000) (h8 : x ≠ 8) (h30 : x ≠ 0x30) :
    ¬SteadyAddr (coreBase (k / 32) (k % 32) + x) := by
  rw [coreBase_eq, Nat.add_assoc, steadyAddr_iff]
  omega

theorem steady_status {k : Nat} (hk : k < 384) : SteadyAddr (Reg.seqStatus (k / 32) (k % 32)).addr := by
  rw [seqStatus_addr, coreBase_eq, Nat.add_assoc, steadyAddr_iff]
  omega

theorem seqIcache_addr (cd s : Nat) : (Reg.seqIcache cd s).addr = coreBase cd s + 0x30 := rfl

theorem steady_icache {k : Nat} (hk : k < 384) : SteadyAddr (Reg.seqIcache (k / 32) (k % 32)).addr := by
  rw [seqIcache_addr, coreBase_eq, Nat.add_assoc, steadyAddr_iff]
  omega

theorem siteMap_addr (cd s : Nat) : (Reg.siteMap cd s).addr = hubBase + ((cd + 1) * 0x1000000 + 0x10000 + s * 8) := by
  have haddr : (Reg.siteMap cd s).addr = cdBase cd + 0x10000 + 0x0 + s * 8 := rfl
  rw [haddr, cdBase, dieBase_eq]
  omega

theorem steady_siteMap {k : Nat} (hk : k < 384) : SteadyAddr (Reg.siteMap (k / 32) (k % 32)).addr := by
  rw [siteMap_addr, steadyAddr_iff]
  omega

theorem steady_hub {x : Nat} (h : x = 0xC0000 ∨ x = 0xC0020 ∨ x = 0x20000 ∨ x = 0x90020 ∨ x = 0x40030) :
    SteadyAddr (hubBase + x) := by
  rw [steadyAddr_iff]
  omega

theorem mtcSchedAct_addr (n : Nat) : (Reg.mtcSchedAct n).addr = hubBase + (0x10208 + n * 16) := by
  have haddr : (Reg.mtcSchedAct n).addr = hubBase + 0x10208 + n * 16 := rfl
  rw [haddr, Nat.add_assoc]

theorem steady_schedAct {n : Nat} (hn : n < 32) : SteadyAddr (Reg.mtcSchedAct n).addr := by
  rw [mtcSchedAct_addr, steadyAddr_iff]
  omega

/-! ### The frame -/

/-- The register of core `m` is not at this address. -/
def Beside (ms : List Nat) (a : Nat) : Prop :=
  ∀ m ∈ ms, a ≠ (Reg.seqStatus (m / 32) (m % 32)).addr ∧ a ≠ (Reg.seqIcache (m / 32) (m % 32)).addr

theorem beside_nil (a : Nat) : Beside [] a := fun _ hm => absurd hm List.not_mem_nil

/-- Nothing that an anchor's release goes by has changed, but for the status, the instruction cache and the state of the cores `ms`. -/
structure Steady (ms : List Nat) (b c : Blk) : Prop where
  reg : ∀ r : Reg, SteadyAddr r.addr → Beside ms r.addr → c.reg r = b.reg r
  run : c.run = b.run
  time : c.time = b.time
  checks : c.checks = b.checks
  answer : c.coll.answer = b.coll.answer
  lanes : c.ras.d2dSwitch = b.ras.d2dSwitch
  draining : ∀ k, k ∉ ms → (c.core k).draining = (b.core k).draining
  badHalves : ∀ k, k ∉ ms → (c.core k).badHalves = (b.core k).badHalves

variable {ms : List Nat} {b c d : Blk}

theorem steady_refl (ms : List Nat) (b : Blk) : Steady ms b b :=
  ⟨fun _ _ _ => rfl, rfl, rfl, rfl, rfl, rfl, fun _ _ => rfl, fun _ _ => rfl⟩

theorem steady_trans (h : Steady ms b c) (h' : Steady ms c d) : Steady ms b d :=
  ⟨fun r hr hb => (h'.reg r hr hb).trans (h.reg r hr hb), h'.run.trans h.run, h'.time.trans h.time, h'.checks.trans h.checks,
    h'.answer.trans h.answer, h'.lanes.trans h.lanes, fun k hk => (h'.draining k hk).trans (h.draining k hk),
    fun k hk => (h'.badHalves k hk).trans (h.badHalves k hk)⟩

/-- A command that leaves the registers, the run, the time and the cores alone. -/
theorem steady_of_same (h : Steady ms b c) (hreg : ∀ r, d.reg r = c.reg r) (hrun : d.run = c.run) (htime : d.time = c.time)
    (hchecks : d.checks = c.checks) (hanswer : d.coll.answer = c.coll.answer) (hlanes : d.ras.d2dSwitch = c.ras.d2dSwitch)
    (hcore : ∀ k, d.core k = c.core k) : Steady ms b d :=
  steady_trans h ⟨fun r _ _ => hreg r, hrun, htime, hchecks, hanswer, hlanes, fun k _ => by rw [hcore], fun k _ => by rw [hcore]⟩

theorem steady_wr {f : Fld} {v : Nat} (h : Steady ms b c) (hf : ¬SteadyAddr f.reg.addr) : Steady ms b (c.wr f v) :=
  steady_trans h ⟨fun r hr _ => wr_reg_ne c f r v fun heq => hf (heq ▸ hr), wr_run .., wr_time .., wr_checks .., by rw [wr_coll],
    by rw [wr_ras], fun k _ => by rw [wr_core], fun k _ => by rw [wr_core]⟩

theorem steady_foldl {α : Type} {f : Blk → α → Blk} {l : List α} (h : Steady ms b c)
    (hf : ∀ c, ∀ a ∈ l, Steady ms b c → Steady ms b (f c a)) : Steady ms b (l.foldl f c) :=
  foldl_inv f (Steady ms b) l c h hf

/-- A core may change in all but its draining and its poisoned halves. -/
theorem steady_updCore {k : Nat} {f : CoreSt → CoreSt} (h : Steady ms b c)
    (hf : ∀ x, (f x).draining = x.draining ∧ (f x).badHalves = x.badHalves) : Steady ms b (c.updCore k f) := by
  have hcore (m : Nat) : ((c.updCore k f).core m).draining = (c.core m).draining
      ∧ ((c.updCore k f).core m).badHalves = (c.core m).badHalves := by
    by_cases hm : m = k
    · rw [hm, updCore_core_same]
      exact hf _
    · rw [updCore_core_ne _ _ _ _ hm]
      exact ⟨rfl, rfl⟩
  exact steady_trans h ⟨fun _ _ _ => updCore_reg .., updCore_run .., updCore_time .., updCore_checks .., by rw [updCore_coll],
    by rw [updCore_ras], fun m _ => (hcore m).1, fun m _ => (hcore m).2⟩

theorem steady_mono {ls : List Nat} (h : Steady ls b c) (hl : ∀ m ∈ ls, m ∈ ms) : Steady ms b c :=
  ⟨fun r hr hb => h.reg r hr fun m hm => hb m (hl m hm), h.run, h.time, h.checks, h.answer, h.lanes,
    fun k hk => h.draining k fun hm => hk (hl k hm), fun k hk => h.badHalves k fun hm => hk (hl k hm)⟩

theorem steady_raiseInj {inj : Bool} {die unit code detail : Nat} (h : Steady ms b c) :
    Steady ms b (c.raiseInj inj die unit code detail) := by
  refine steady_of_same h (fun r => raiseInj_reg .. ) ?_ ?_ ?_ ?_ ?_ fun k => ?_
  all_goals rw [raiseInj_eq]
  rfl

theorem steady_hwFail {k : Nat} (h : Steady ms b c) : Steady ms b (c.hwFail k) := by
  unfold Blk.hwFail
  split
  · exact steady_of_same h (fun _ => updVote_reg ..) rfl rfl rfl rfl rfl fun _ => rfl
  · exact steady_wr h (not_steady_core k 0x40 (by decide) (by decide) (by decide))

/-- The die's RAS registers are none of those. -/
theorem not_steady_rasInj (block : Nat) : ¬SteadyAddr (Reg.rasInjCtrl block).addr := by
  have haddr : (Reg.rasInjCtrl block).addr = rasBase block + 0x18 := rfl
  rw [haddr, rasBase, dieBase_eq, Nat.add_assoc, Nat.add_assoc, steadyAddr_iff]
  split <;> omega

theorem steady_fire {det : Nat} {sel : Inject → Bool} (h : Steady ms b c) : Steady ms b (c.fire det sel).2 := by
  unfold Blk.fire
  split
  · exact h
  · next i _ =>
    have hupd (f : RasSt → RasSt) (hf : (f c.ras).d2dSwitch = c.ras.d2dSwitch) : Steady ms b (c.updRas f) :=
      steady_of_same h (fun _ => updRas_reg ..) rfl rfl rfl rfl hf fun _ => rfl
    dsimp only
    rw [satBy_eq]
    split
    · exact steady_wr (steady_wr (hupd _ rfl) (not_steady_rasInj i.block)) (not_steady_rasInj i.block)
    · exact steady_wr (hupd _ rfl) (not_steady_rasInj i.block)

end Sys2Proof.Proofs
end

section
/-!
PROOFS. The steps of a release that concern no core's status (R20, R164, R178, R218, R248, R300, R361, R375).
-/
namespace Sys2Proof.Proofs
open Sys2Proof Sys2Proof.Machine Sys2Proof.Says

variable {ms : List Nat} {b c : Blk}

/-! ### Waits are counted (R165) -/

theorem steady_stall {k e x n : Nat} (h : Steady ms b c) (he : e < 4) (hx : x < 16) : Steady ms b (c.stall k e x n) := by
  unfold Blk.stall
  split
  · exact h
  · refine steady_wr h ?_
    have haddr : (SEQ_STALL.count (k / 32) (k % 32) e x).reg.addr = coreBase (k / 32) (k % 32) + (0x1000 + e * 128 + x * 8) := by
      rw [SEQ_STALL.count, seqStall_addr]
      omega
    rw [haddr]
    exact not_steady_core k _ (by omega) (by omega) (by omega)

theorem steady_noteWait {k from_ stop cause : Nat} (h : Steady ms b c) : Steady ms b (c.noteWait k from_ stop cause) := by
  unfold Blk.noteWait
  split
  · exact h
  · exact steady_updCore h fun _ => ⟨rfl, rfl⟩

theorem steady_countWait {k n rel : Nat} (h : Steady ms b c) : Steady ms b (c.countWait k n rel) := by
  unfold Blk.countWait
  dsimp only
  split
  · exact h
  · split
    · refine steady_noteWait (steady_stall h (by decide) ?_)
      split <;> decide
    · split
      · exact steady_noteWait (steady_stall (steady_stall h (by decide) (by decide)) (by decide) (by decide))
      · exact h

/-! ### What waits for an anchor -/

theorem steady_updColl {f : CollSt → CollSt} (h : Steady ms b c) (hf : ∀ x, (f x).answer = x.answer) :
    Steady ms b (c.updColl f) :=
  steady_of_same h (fun _ => updColl_reg ..) rfl rfl rfl (hf _) rfl fun _ => rfl

theorem steady_fresh (h : Steady ms b c) : Steady ms b c.fresh.2 :=
  steady_of_same h (fun _ => rfl) rfl rfl rfl rfl rfl fun _ => rfl

theorem steady_applyLimit (h : Steady ms b c) : Steady ms b c.applyLimit := by
  have hlimit : ¬SteadyAddr (PWR_LIMIT.in_force_w).reg.addr := by
    have haddr : (PWR_LIMIT.in_force_w).reg.addr = hubBase + 0x90008 := rfl
    rw [haddr, steadyAddr_iff]
    omega
  unfold Blk.applyLimit Blk.showLimit
  refine steady_wr ?_ hlimit
  split
  · exact steady_of_same h (fun _ => updPower_reg ..) rfl rfl rfl rfl rfl fun _ => rfl
  · exact h

theorem steady_setSpread (h : Steady ms b c) : Steady ms b c.setSpread := by
  have hspread : ¬SteadyAddr (Reg.pwrSpread).addr := by
    have haddr : (Reg.pwrSpread).addr = hubBase + 0x90028 := rfl
    rw [haddr, steadyAddr_iff]
    omega
  unfold Blk.setSpread
  dsimp only
  rw [wrB_eq, wrB_eq]
  exact steady_wr (steady_wr h hspread) hspread

theorem steady_copySome (h : Steady ms b c) : Steady ms b c.copySome := by
  unfold Blk.copySome
  refine steady_foldl h fun x md hmd hx => ?_
  have hmigrate : ¬SteadyAddr (Reg.chanMigrate md).addr := by
    have haddr : (Reg.chanMigrate md).addr = hubBase + ((md + 13) * 0x1000000 + 0x10008) := by
      have haddr : (Reg.chanMigrate md).addr = mdBase md + 0x10000 + 0x8 := rfl
      rw [haddr, mdBase, dieBase_eq]
      omega
    rw [haddr, steadyAddr_iff]
    omega
  split
  · exact hx
  · split
    · exact steady_wr (steady_fresh hx) hmigrate
    · exact hx

theorem not_steady_perf (die x : Nat) (hx : x < 0x100) : ¬SteadyAddr (perfBase die + x) := by
  rw [perfBase, dieBase_eq, Nat.add_assoc, Nat.add_assoc, steadyAddr_iff]
  split
  · omega
  · split <;> omega

theorem steady_perfClear {die : Nat} (h : Steady ms b c) : Steady ms b (c.perfClear die) := by
  unfold Blk.perfClear
  refine steady_wr (steady_foldl h fun x i hi hx => steady_wr hx ?_) (not_steady_perf die 0 (by decide))
  have hi := List.mem_range.1 hi
  have haddr : (PERF_CNT.count die i).reg.addr = perfBase die + (0x80 + i * 8) := by
    have haddr : (PERF_CNT.count die i).reg.addr = perfBase die + 0x80 + i * 8 := rfl
    rw [haddr, Nat.add_assoc]
  rw [haddr]
  exact not_steady_perf die _ (by omega)

/-- A core's counters clear (R164). -/
theorem steady_clearCounts {k : Nat} (h : Steady ms b c) : Steady ms b
    ((((List.range 16).foldl (fun b x => (List.range 4).foldl (fun b e => b.wr (SEQ_STALL.count (k / 32) (k % 32) e x) 0) b) c).wr
      (SEQ_ISSUED.count (k / 32) (k % 32)) 0).wr (SEQ_PERF_CTRL.clear (k / 32) (k % 32)) 0) := by
  refine steady_wr (steady_wr (steady_foldl h fun y x hx hy => steady_foldl hy fun z e he hz => steady_wr hz ?_) ?_) ?_
  · have hx := List.mem_range.1 hx
    have he := List.mem_range.1 he
    have haddr : (SEQ_STALL.count (k / 32) (k % 32) e x).reg.addr = coreBase (k / 32) (k % 32) + (0x1000 + e * 128 + x * 8) := by
      rw [SEQ_STALL.count, seqStall_addr]
      omega
    rw [haddr]
    exact not_steady_core k _ (by omega) (by omega) (by omega)
  · exact not_steady_core k 0x48 (by decide) (by decide) (by decide)
  · exact not_steady_core k 0x38 (by decide) (by decide) (by decide)

/-- With no doubt answered and no lane to switch, an anchor leaves the frame alone. -/
theorem steady_anchorActs (h : Steady ms b c) (hanswer : b.coll.answer = none) (hlanes : b.ras.d2dSwitch = []) :
    Steady ms b c.anchorActs := by
  have hresolve : c.resolveAtAnchor = c := by rw [Blk.resolveAtAnchor, h.answer, hanswer]
  have hcopied := steady_copySome (steady_setSpread (steady_applyLimit h))
  unfold Blk.anchorActs
  rw [hresolve]
  dsimp only
  rw [hcopied.lanes, hlanes, List.foldl_nil]
  generalize c.applyLimit.setSpread.copySome = d at hcopied
  refine steady_foldl (steady_foldl (steady_updColl (steady_foldl ?_ fun x ge _ hx => ?_) fun _ => rfl)
    fun x die _ hx => ?_) fun x k _ hx => ?_
  · refine steady_trans hcopied ⟨fun _ _ _ => updRas_reg .., rfl, rfl, rfl, rfl, ?_, fun _ _ => by rw [updRas_core],
      fun _ _ => by rw [updRas_core]⟩
    rw [hcopied.lanes, hlanes]
    rfl
  · split
    · exact steady_of_same hx (fun _ => updGath_reg ..) rfl rfl rfl rfl rfl fun _ => rfl
    · exact hx
  · split
    · exact steady_perfClear hx
    · exact hx
  · split
    · exact hx
    · exact steady_clearCounts hx

/-! ### The commit, the prefetches, the collectives and the caches -/

theorem commitPhase_none (b : Blk) (j : Job) (n t : Nat) (h : j.commits = false) : b.commitPhase j n t = b :=
  if_pos (Or.inl (by simp [h]))

theorem prefChecks_none (b : Blk) (h : b.checks = []) : b.prefChecks = b := by
  unfold Blk.prefChecks
  rw [h]
  show { b with checks := [] } = b
  rw [← h]

theorem steady_countDeadlines (h : Steady ms b c) : Steady ms b c.countDeadlines := by
  unfold Blk.countDeadlines
  refine steady_foldl h fun x l _ hx => ?_
  split
  · exact steady_updColl hx fun _ => rfl
  · exact hx

theorem steady_flushNc (h : Steady ms b c) : Steady ms b c.flushNc := by
  unfold Blk.flushNc
  refine steady_foldl h fun x cd hcd hx => ?_
  have hflush : ¬SteadyAddr (Reg.ncacheCtrl cd).addr := by
    have hcd := List.mem_range.1 hcd
    have haddr : (Reg.ncacheCtrl cd).addr = hubBase + ((cd + 1) * 0x1000000 + 0x40000) := by
      have haddr : (Reg.ncacheCtrl cd).addr = cdBase cd + 0x40000 + 0x0 := rfl
      rw [haddr, cdBase, dieBase_eq]
      omega
    rw [haddr, steadyAddr_iff]
    omega
  split
  · exact steady_wr (steady_of_same hx (fun _ => updNc_reg ..) rfl rfl rfl rfl rfl fun _ => rfl) hflush
  · exact hx

/-- An image without scheduled entries places none. -/
theorem placeImage_none (b : Blk) (j : Job) (hjob : b.run.job = some j) (hsched : j.sched = []) : b.placeImage = b := by
  unfold Blk.placeImage
  rw [hjob]
  dsimp only
  rw [hsched]
  split <;> rfl

theorem thermalActs_none (b : Blk) (j : Job) (h : b.rd PWR_THERM_STAT.level = 0) : b.thermalActs j = b := if_pos (Or.inl h)

/-! ### The hub opens a segment -/

theorem steady_presentClaims {rel : Nat} (h : Steady ms b c) : Steady ms b (c.presentClaims rel) := by
  unfold Blk.presentClaims
  refine steady_foldl h fun x _ _ hx => ?_
  split
  · exact hx
  · exact steady_of_same (steady_fire hx) (fun _ => rfl) rfl rfl rfl rfl rfl fun _ => rfl

theorem bindColl_none (b : Blk) (j : Job) (n : Nat) (h : j.bindings = []) : b.bindColl j n = b := by
  unfold Blk.bindColl
  rw [h]
  rfl

theorem bindSeg_none (b : Blk) (g : Seg) (h0 : 8 ≤ g.c0) (h1 : 8 ≤ g.c1) : b.bindSeg g = b := by
  unfold Blk.bindSeg
  rw [if_neg (Nat.not_lt.2 h0), if_neg (Nat.not_lt.2 h1)]

theorem steady_startCal {j : Job} {n : Nat} (h : Steady ms b c) : Steady ms b (c.startCal j n) := by
  unfold Blk.startCal
  refine steady_foldl h fun x p _ hx => ?_
  have hcal : ¬SteadyAddr (Reg.portCal p).addr := by
    have haddr : (Reg.portCal p).addr = hubBase + ((p / 5 + 17) * 0x1000000 + 0x100D0 + p % 5 * 0x10000) := by
      have haddr : (Reg.portCal p).addr = portBase p + 0xd0 := rfl
      rw [haddr, portBase, ldBase, dieBase_eq]
      omega
    rw [haddr, steadyAddr_iff]
    omega
  dsimp only
  exact steady_of_same (steady_wr hx hcal) (fun _ => updPort_reg ..) rfl rfl rfl rfl rfl fun _ => rfl

/-- Segment `n` is the one in progress from release `rel` on. -/
def inSegment (n rel : Nat) (b : Blk) : Blk :=
  b.updRun fun r => { r with seg := n, lastRel := rel, rels := (r.rels.filter fun e => decide (rel < e.2 + calNs)) ++ [(n, rel)] }

/-- Apart from the segment in progress, opening a segment that binds nothing leaves the frame alone. -/
theorem steady_openHub {j : Job} {n rel : Nat} (hbind : j.bindings = []) (hnone : BindsNone j n) :
    Steady [] (inSegment n rel b) (b.openHub j n rel) := by
  obtain ⟨h0, h1⟩ := hnone
  unfold Blk.openHub
  dsimp only
  rw [bindColl_none _ _ _ hbind, bindSeg_none _ _ h0 h1]
  exact steady_startCal (steady_presentClaims (steady_refl _ _))

end Sys2Proof.Proofs
end

section
/-!
PROOFS. The release of a core into a segment (R41, R155, R163): what it leaves alone, and what the core does as the segment opens.
-/
namespace Sys2Proof.Proofs
open Sys2Proof Sys2Proof.Machine Sys2Proof.Says

variable {ms : List Nat} {b c d : Blk}

/-! ### What a core's release leaves alone -/

theorem steady_setSeqState {k v : Nat} (h : Steady ms b c) (hk : k ∈ ms) : Steady ms b (c.setSeqState k v) :=
  steady_trans h ⟨fun r _ hb => wr_reg_ne c (SEQ_STATUS.state (k / 32) (k % 32)) r v (hb k hk).1, wr_run .., wr_time .., wr_checks ..,
    by rw [Blk.setSeqState, wr_coll], by rw [Blk.setSeqState, wr_ras], fun m _ => by rw [setSeqState_core],
    fun m _ => by rw [setSeqState_core]⟩

theorem steady_wr_own {k v : Nat} {f : Fld} (h : Steady ms b c) (hk : k ∈ ms)
    (hf : f.reg = .seqStatus (k / 32) (k % 32) ∨ f.reg = .seqIcache (k / 32) (k % 32)) : Steady ms b (c.wr f v) := by
  refine steady_trans h ⟨fun r _ hb => wr_reg_ne c f r v ?_, wr_run .., wr_time .., wr_checks .., by rw [wr_coll], by rw [wr_ras],
    fun m _ => by rw [wr_core], fun m _ => by rw [wr_core]⟩
  obtain ⟨hstatus, hicache⟩ := hb k hk
  rcases hf with hf | hf <;> rw [hf]
  · exact hstatus
  · exact hicache

theorem steady_lateArrival {k late : Nat} (h : Steady ms b c) : Steady ms b (c.lateArrival k late) := by
  have hstat : ¬SteadyAddr (Reg.mtcAnchorStat).addr := by
    have haddr : (Reg.mtcAnchorStat).addr = hubBase + 0x10040 := rfl
    rw [haddr, steadyAddr_iff]
    omega
  unfold Blk.lateArrival
  split
  · exact steady_wr h hstat
  · dsimp only
    rw [satBy_eq]
    exact steady_hwFail (steady_wr (steady_raiseInj h) hstat)

theorem steady_beginSeg {k n rel : Nat} (h : Steady ms b c) (hk : k ∈ ms) : Steady ms b (c.beginSeg k n rel) := by
  unfold Blk.beginSeg
  exact steady_setSeqState (steady_wr_own (k := k) (steady_wr_own (k := k) (steady_updCore h fun _ => ⟨rfl, rfl⟩) hk (Or.inl rfl)) hk
    (Or.inl rfl)) hk

/-- The first fault of a core is kept (R161). -/
theorem steady_keepFault {k pc : Nat} (h : Steady ms b c) : Steady ms b (if c.on (SEQ_FAULT.valid (k / 32) (k % 32)) then c
    else (((c.wr (SEQ_FAULT.valid (k / 32) (k % 32)) 1).wr (SEQ_FAULT.check (k / 32) (k % 32)) 0x02).wr
      (SEQ_FAULT.pc (k / 32) (k % 32)) pc).wr (SEQ_FAULT.segment (k / 32) (k % 32)) (c.segOf k)) := by
  have hfault : ¬SteadyAddr (Reg.seqFault (k / 32) (k % 32)).addr := not_steady_core k 0x10 (by decide) (by decide) (by decide)
  split
  · exact h
  · exact steady_wr (steady_wr (steady_wr (steady_wr h hfault) hfault) hfault) hfault

theorem steady_fetchFault {k : Nat} (h : Steady ms b c) (hk : k ∈ ms) : Steady ms b (c.fetchFault k) := by
  unfold Blk.fetchFault
  dsimp only
  have hraised (detail : Nat) : Steady ms b (c.raiseInj false (k / 32 + 1) (k % 32) 0x0302 detail) := steady_raiseInj h
  generalize (_ + _ * 2 ^ 51 : Nat) = detail
  specialize hraised detail
  generalize c.raiseInj false (k / 32 + 1) (k % 32) 0x0302 detail = x at hraised ⊢
  exact steady_hwFail (steady_setSeqState (steady_keepFault hraised) hk)

/-- The half that the segment executes from is shown; one that a poisoned fill left invalid is a fault (R161, R163). -/
theorem steady_execHalf {k half : Nat} {bad : Bool} (h : Steady ms b c) (hk : k ∈ ms) :
    Steady ms b (if bad then (c.wr (SEQ_ICACHE.exec_half (k / 32) (k % 32)) half).fetchFault k
      else c.wr (SEQ_ICACHE.exec_half (k / 32) (k % 32)) half) := by
  have hexec : Steady ms b (c.wr (SEQ_ICACHE.exec_half (k / 32) (k % 32)) half) := steady_wr_own h hk (Or.inr rfl)
  split
  · exact steady_fetchFault hexec hk
  · exact hexec

/-- What core `k` does in segment `n`, once it has begun it (R155, R163): openSeg without the lateness. -/
def segOpened (j : Job) (k n late : Nat) (b : Blk) : Blk :=
  if (b.core k).draining then (b.updCore k fun c => { c with arrived := some 0 }).setSeqState k 6
  else
    let b := b.updCore k fun c => { c with cyc := b.cycOfNs late }
    if b.run.removed.contains n ∨ (j.codeFor n k).isNone then
      (b.updCore k fun c => { c with arrived := some c.cyc }).setSeqState k 2
    else if ¬b.served k then b.fetchFault k
    else
      match b.halfOf k (j.seg n).block with
      | some (h, bad) =>
        let b := b.wr (SEQ_ICACHE.exec_half (k / 32) (k % 32)) h
        if bad then b.fetchFault k else b
      | none => b

theorem openSeg_eq (b : Blk) (j : Job) (k n rel late : Nat) : b.openSeg j k n rel late =
    segOpened j k n late ((if late = 0 then b else b.lateArrival k late).beginSeg k n rel) := rfl

theorem steady_segOpened {j : Job} {k n late : Nat} (h : Steady ms b c) (hk : k ∈ ms) :
    Steady ms b (segOpened j k n late c) := by
  unfold segOpened
  have hcyc : Steady ms b (c.updCore k fun x => { x with cyc := c.cycOfNs late }) := steady_updCore h fun _ => ⟨rfl, rfl⟩
  dsimp only
  generalize (c.updCore k fun x => { x with cyc := c.cycOfNs late }) = y at hcyc ⊢
  split
  · exact steady_setSeqState (steady_updCore h fun _ => ⟨rfl, rfl⟩) hk
  · split
    · exact steady_setSeqState (steady_updCore hcyc fun _ => ⟨rfl, rfl⟩) hk
    · split
      · exact steady_fetchFault hcyc hk
      · split
        · exact steady_execHalf hcyc hk
        · exact hcyc

theorem steady_openSeg {j : Job} {k n rel late : Nat} (h : Steady ms b c) (hk : k ∈ ms) :
    Steady ms b (c.openSeg j k n rel late) := by
  rw [openSeg_eq]
  refine steady_segOpened (steady_beginSeg ?_ hk) hk
  split
  · exact h
  · exact steady_lateArrival h

theorem steady_releaseInto {j : Job} {k n rel late : Nat} (h : Steady ms b c) (hk : k ∈ ms) :
    Steady ms b (c.releaseInto j k n rel late) := by
  unfold Blk.releaseInto
  split
  · exact steady_setSeqState (steady_updCore h fun _ => ⟨rfl, rfl⟩) hk
  · exact steady_openSeg h hk

theorem steady_releaseCore {j : Job} {k n next rel : Nat} (h : Steady ms b c) (hk : k ∈ ms) :
    Steady ms b (c.releaseCore j k n next rel) := by
  unfold Blk.releaseCore
  dsimp only
  split
  · exact h
  · exact steady_releaseInto h hk

/-! ### What the core goes by -/

theorem served_congr {k : Nat} (h : c.reg (.siteMap (k / 32) (k % 32)) = b.reg (.siteMap (k / 32) (k % 32))) :
    c.served k = b.served k := by
  have hrd : c.rd (SITE_MAP.unserved (k / 32) (k % 32)) = b.rd (SITE_MAP.unserved (k / 32) (k % 32)) := by
    rw [Blk.rd, SITE_MAP.unserved, h, Blk.rd]
  rw [Blk.served, hrd, Blk.served]

theorem halfOf_congr {k : Nat} (h : c.reg (.seqIcache (k / 32) (k % 32)) = b.reg (.seqIcache (k / 32) (k % 32)))
    (hbad : (c.core k).badHalves = (b.core k).badHalves) (x : Nat) : c.halfOf k x = b.halfOf k x := by
  have hvalid (n : Nat) : c.halfValid k n = b.halfValid k n := by
    unfold Blk.halfValid Blk.on Blk.rd
    split
    · rw [SEQ_ICACHE.half0_valid, h]
    · rw [SEQ_ICACHE.half1_valid, h]
  have hblock (n : Nat) : c.halfBlock k n = b.halfBlock k n := by
    unfold Blk.halfBlock Blk.rd
    split
    · rw [SEQ_ICACHE.half0_block, h]
    · rw [SEQ_ICACHE.half1_block, h]
  unfold Blk.halfOf
  simp only [hvalid, hblock, hbad]

theorem halfOf_lt {k x h : Nat} {bad : Bool} (hhalf : b.halfOf k x = some (h, bad)) (hgood : bad = false) : h < 2 := by
  unfold Blk.halfOf at hhalf
  split at hhalf
  · next y hy =>
    obtain ⟨rfl, -⟩ := Prod.mk.inj (Option.some.inj hhalf)
    have hmem := List.mem_of_find?_eq_some hy
    simp only [List.mem_cons, List.not_mem_nil, or_false] at hmem
    omega
  · split at hhalf
    · obtain ⟨-, rfl⟩ := Prod.mk.inj (Option.some.inj hhalf)
      exact absurd hgood (by decide)
    · exact absurd hhalf (by simp)

/-! ### A segment opens (R41, R163) -/

theorem beginSeg_status (b : Blk) (k n rel : Nat) (hn : n < 2 ^ 32) :
    (b.beginSeg k n rel).seqState k = 1 ∧ (b.beginSeg k n rel).pc k = 0 ∧ (b.beginSeg k n rel).segOf k = n := by
  unfold Blk.beginSeg
  refine ⟨setSeqState_seqState _ _ _ (by decide), ?_, ?_⟩
  · rw [setSeqState_pc, Blk.pc, 
      wr_rd_disj _ (SEQ_STATUS.segment (k / 32) (k % 32)) (SEQ_STATUS.pc (k / 32) (k % 32)) _ rfl
        (by simp [SEQ_STATUS.pc, SEQ_STATUS.segment]) (by simp [SEQ_STATUS.pc]), wr_rd_same _ _ _ (by simp [SEQ_STATUS.pc])]
    exact Nat.zero_mod _
  · rw [setSeqState_segOf, Blk.segOf, wr_rd_same _ _ _ (by simp [SEQ_STATUS.segment])]
    exact Nat.mod_eq_of_lt hn

theorem beginSeg_reg_ne (b : Blk) (k n rel : Nat) (r : Reg) (hr : r.addr ≠ (Reg.seqStatus (k / 32) (k % 32)).addr) :
    (b.beginSeg k n rel).reg r = b.reg r := by
  unfold Blk.beginSeg Blk.setSeqState
  rw [wr_reg_ne _ (SEQ_STATUS.state (k / 32) (k % 32)) _ _ hr, wr_reg_ne _ (SEQ_STATUS.segment (k / 32) (k % 32)) _ _ hr,
    wr_reg_ne _ (SEQ_STATUS.pc (k / 32) (k % 32)) _ _ hr, updCore_reg]

theorem beginSeg_core (b : Blk) (k n rel : Nat) : ((b.beginSeg k n rel).core k).draining = (b.core k).draining
    ∧ ((b.beginSeg k n rel).core k).badHalves = (b.core k).badHalves := by
  unfold Blk.beginSeg Blk.setSeqState
  dsimp only
  rw [wr_core, wr_core, wr_core, updCore_core_same]
  exact ⟨rfl, rfl⟩

theorem beginSeg_run (b : Blk) (k n rel : Nat) : (b.beginSeg k n rel).run = b.run := by
  unfold Blk.beginSeg Blk.setSeqState
  dsimp only
  rw [wr_run, wr_run, wr_run, updCore_run]

theorem status_ne_icache (k m : Nat) : (Reg.seqIcache (k / 32) (k % 32)).addr ≠ (Reg.seqStatus (m / 32) (m % 32)).addr := by
  rw [seqIcache_addr, seqStatus_addr, coreBase_eq, coreBase_eq]
  omega

theorem siteMap_ne_core (k m x : Nat) (hx : x < 0x10000) : (Reg.siteMap (k / 32) (k % 32)).addr ≠ coreBase (m / 32) (m % 32) + x := by
  rw [siteMap_addr, coreBase_eq]
  omega

end Sys2Proof.Proofs
end

section
/-!
PROOFS. Every core that is released opens the segment (R41, R155, R163), whatever the other cores' releases do.
-/
namespace Sys2Proof.Proofs
open Sys2Proof Sys2Proof.Machine Sys2Proof.Says

variable {ms : List Nat} {b c d : Blk} {j : Job} {k n : Nat}

/-! ### What opens, seen from elsewhere -/

/-- What a core goes by as it opens a segment. -/
theorem opens_of (h : Opens j n k b d) (hremoved : c.run.removed = b.run.removed) (hserved : c.served k = b.served k)
    (hhalf : c.halfOf k (j.seg n).block = b.halfOf k (j.seg n).block) : Opens j n k c d := by
  unfold Opens at h ⊢
  rw [hremoved, hserved, hhalf]
  exact h

theorem rd_congr {f : Fld} (h : c.reg f.reg = b.reg f.reg) : c.rd f = b.rd f := by
  rw [Blk.rd, h, Blk.rd]

/-- The core's status shows it, and its instruction cache. -/
theorem opens_keeps (h : Opens j n k b c) (hstatus : d.reg (.seqStatus (k / 32) (k % 32)) = c.reg (.seqStatus (k / 32) (k % 32)))
    (hicache : d.reg (.seqIcache (k / 32) (k % 32)) = c.reg (.seqIcache (k / 32) (k % 32))) : Opens j n k b d := by
  have hstate : d.seqState k = c.seqState k := rd_congr (f := SEQ_STATUS.state (k / 32) (k % 32)) hstatus
  have hpc : d.pc k = c.pc k := rd_congr (f := SEQ_STATUS.pc (k / 32) (k % 32)) hstatus
  have hseg : d.segOf k = c.segOf k := rd_congr (f := SEQ_STATUS.segment (k / 32) (k % 32)) hstatus
  have hexec : d.rd (SEQ_ICACHE.exec_half (k / 32) (k % 32)) = c.rd (SEQ_ICACHE.exec_half (k / 32) (k % 32)) :=
    rd_congr (f := SEQ_ICACHE.exec_half (k / 32) (k % 32)) hicache
  unfold Opens at h ⊢
  rw [hstate, hpc, hseg, hexec]
  exact h

theorem updCore_served (b : Blk) (f : CoreSt → CoreSt) (m k : Nat) : (b.updCore m f).served k = b.served k := rfl

theorem updCore_halfOf (b : Blk) (f : CoreSt → CoreSt) (k x : Nat) (hf : (f (b.core k)).badHalves = (b.core k).badHalves) :
    (b.updCore k f).halfOf k x = b.halfOf k x :=
  halfOf_congr (updCore_reg ..) (by rw [updCore_core_same, hf]) x

/-! ### A core opens the segment that it has begun -/

/-- The core's own status shows segment `n`, at its first instruction. -/
def AtStart (n k : Nat) (b : Blk) : Prop := b.seqState k = 1 ∧ b.pc k = 0 ∧ b.segOf k = n

theorem atStart_runs (h : AtStart n k b) (half : Nat) (hhalf : half < 2) :
    AtStart n k (b.wr (SEQ_ICACHE.exec_half (k / 32) (k % 32)) half)
      ∧ (b.wr (SEQ_ICACHE.exec_half (k / 32) (k % 32)) half).rd (SEQ_ICACHE.exec_half (k / 32) (k % 32)) = half := by
  have hne : (Reg.seqStatus (k / 32) (k % 32)).addr ≠ (Reg.seqIcache (k / 32) (k % 32)).addr := (status_ne_icache k k).symm
  refine ⟨?_, ?_⟩
  · unfold AtStart Blk.seqState Blk.pc Blk.segOf at h ⊢
    rw [wr_rd_ne _ (SEQ_ICACHE.exec_half (k / 32) (k % 32)) (SEQ_STATUS.state (k / 32) (k % 32)) _ hne,
      wr_rd_ne _ (SEQ_ICACHE.exec_half (k / 32) (k % 32)) (SEQ_STATUS.pc (k / 32) (k % 32)) _ hne,
      wr_rd_ne _ (SEQ_ICACHE.exec_half (k / 32) (k % 32)) (SEQ_STATUS.segment (k / 32) (k % 32)) _ hne]
    exact h
  · rw [wr_rd_same _ _ _ (by simp [SEQ_ICACHE.exec_half])]
    exact Nat.mod_eq_of_lt hhalf

/-- The segment is removed, or has no code for the core. -/
theorem opens_idle (hidle : b.run.removed.contains n = true ∨ j.codeFor n k = none) (hstate : d.seqState k = 2) (hseg : d.segOf k = n) :
    Opens j n k b d := by
  refine ⟨fun _ => ⟨hstate, hseg⟩, fun _ hrun hcode => ?_, fun hrun hcode => ?_⟩
  all_goals
    rcases hidle with hidle | hidle
    · exact absurd hidle (by rw [hrun]; decide)
    · exact absurd hcode (by rw [hidle]; decide)

/-- The segment has code for the core, which decides by the half that holds it. -/
theorem opens_code (hrun : b.run.removed.contains n = false) (hcode : (j.codeFor n k).isSome = true)
    (hhalf : ∀ h, b.served k = true → b.halfOf k (j.seg n).block = some (h, false) → AtStart n k d
      ∧ d.rd (SEQ_ICACHE.exec_half (k / 32) (k % 32)) = h)
    (hnone : b.served k = true → b.halfOf k (j.seg n).block = none → d.seqState k = 3) : Opens j n k b d := by
  refine ⟨fun hidle => ?_, fun h _ _ hserved hin => ?_, fun _ _ => hnone⟩
  · rcases hidle with hidle | hidle
    · exact absurd hidle (by rw [hrun]; decide)
    · exact absurd hcode (by rw [hidle]; decide)
  · obtain ⟨⟨hstate, hpc, hseg⟩, hexec⟩ := hhalf h hserved hin
    exact ⟨hstate, hpc, hseg, hexec⟩

/-- A core that neither drains nor is held opens the segment. -/
theorem segOpened_opens {late : Nat} (hstart : AtStart n k b) (hdrain : (b.core k).draining = false)
    (hheld : ¬(b.served k = true ∧ b.run.removed.contains n = false ∧ b.fillHolds j k n = true)) :
    Opens j n k b (segOpened j k n late b) := by
  unfold segOpened
  rw [if_neg (by rw [hdrain]; decide)]
  dsimp only
  have hserved : (b.updCore k fun x => { x with cyc := b.cycOfNs late }).served k = b.served k := updCore_served ..
  have hhalf := updCore_halfOf b (fun x => { x with cyc := b.cycOfNs late }) k (j.seg n).block rfl
  have hrun : (b.updCore k fun x => { x with cyc := b.cycOfNs late }).run = b.run := updCore_run ..
  have hstart' : AtStart n k (b.updCore k fun x => { x with cyc := b.cycOfNs late }) := hstart
  generalize (b.updCore k fun x => { x with cyc := b.cycOfNs late }) = y at hserved hhalf hrun hstart' ⊢
  rw [hrun, hserved, hhalf]
  split
  · next hidle =>
    rw [Option.isNone_iff_eq_none] at hidle
    refine opens_idle hidle (setSeqState_seqState _ _ _ (by decide)) ?_
    rw [setSeqState_segOf, Blk.segOf, updCore_rd]
    exact hstart'.2.2
  · next hcode =>
    rw [not_or, Bool.not_eq_true, Bool.not_eq_true, Option.isNone_eq_false_iff] at hcode
    obtain ⟨hrun, hcode⟩ := hcode
    refine opens_code hrun hcode (fun h hserved hin => ?_) fun hserved hnone => absurd ⟨hserved, hrun, ?_⟩ hheld
    · rw [if_neg (not_not.2 hserved), hin]
      exact atStart_runs hstart' h (halfOf_lt hin rfl)
    · rw [Blk.fillHolds, hcode, hnone]
      rfl

/-! ### A core's release -/

theorem beginSeg_start (b : Blk) (k n rel : Nat) (hn : n < 2 ^ 32) : AtStart n k (b.beginSeg k n rel) := beginSeg_status b k n rel hn

theorem steady_arrival {late : Nat} (h : Steady ms b c) : Steady ms b (if late = 0 then c else c.lateArrival k late) := by
  split
  · exact h
  · exact steady_lateArrival h

theorem beginSeg_served (b : Blk) (k n rel : Nat) : (b.beginSeg k n rel).served k = b.served k :=
  served_congr (beginSeg_reg_ne b k n rel _ (siteMap_ne_core k k 8 (by decide)))

theorem beginSeg_halfOf (b : Blk) (k n rel x : Nat) : (b.beginSeg k n rel).halfOf k x = b.halfOf k x :=
  halfOf_congr (beginSeg_reg_ne b k n rel _ (status_ne_icache k k)) (beginSeg_core b k n rel).2 x

/-- What a core goes by, as another command leaves it. -/
theorem steady_served (h : Steady [] b c) (hk : k < 384) : c.served k = b.served k :=
  served_congr (h.reg _ (steady_siteMap hk) (beside_nil _))

theorem steady_halfOf (h : Steady [] b c) (hk : k < 384) (x : Nat) : c.halfOf k x = b.halfOf k x :=
  halfOf_congr (h.reg _ (steady_icache hk) (beside_nil _)) (h.badHalves k List.not_mem_nil) x

/-- With no swap in progress, a core that does not drain is released into a segment. -/
theorem releaseInto_opens {rel late : Nat} (hswaps : b.run.swaps = []) (hdrain : (b.core k).draining = false) (hk : k < 384)
    (hn : n < 2 ^ 32) : Opens j n k b (b.releaseInto j k n rel late) := by
  have hnoswap : b.swapHolds k rel = false := by rw [Blk.swapHolds, hswaps, List.any_nil]
  unfold Blk.releaseInto
  rw [hnoswap]
  split
  · next hheld =>
    obtain ⟨hserved, hrun, hfill⟩ := hheld.resolve_left (by decide)
    rw [Blk.fillHolds, Bool.and_eq_true, Option.isNone_iff_eq_none] at hfill
    obtain ⟨hcode, hnone⟩ := hfill
    refine opens_code (by simpa using hrun) hcode (fun h _ hin => ?_) fun _ _ => setSeqState_seqState _ _ _ (by decide)
    rw [hnone] at hin
    exact absurd hin (by simp)
  · next hheld =>
    have harrived : Steady [] b (if late = 0 then b else b.lateArrival k late) := steady_arrival (steady_refl [] b)
    rw [openSeg_eq]
    generalize (if late = 0 then b else b.lateArrival k late) = x at harrived ⊢
    have hserved : (x.beginSeg k n rel).served k = b.served k := (beginSeg_served ..).trans (steady_served harrived hk)
    have hhalf (y : Nat) : (x.beginSeg k n rel).halfOf k y = b.halfOf k y :=
      (beginSeg_halfOf ..).trans (steady_halfOf harrived hk y)
    have hrun : (x.beginSeg k n rel).run = b.run := (beginSeg_run ..).trans harrived.run
    have hdrain' : ((x.beginSeg k n rel).core k).draining = false := by
      rw [(beginSeg_core x k n rel).1, harrived.draining k List.not_mem_nil, hdrain]
    refine opens_of (segOpened_opens (beginSeg_start x k n rel hn) hdrain' fun hfill => hheld (Or.inr ?_)) (by rw [hrun]) hserved.symm
      (hhalf _).symm
    rw [Blk.fillHolds, hserved, hrun, hhalf] at hfill
    rw [Blk.fillHolds]
    simpa using hfill

/-! ### Each core among the others -/

theorem status_ne_status {k m : Nat} (h : k ≠ m) :
    (Reg.seqStatus (k / 32) (k % 32)).addr ≠ (Reg.seqStatus (m / 32) (m % 32)).addr := by
  rw [seqStatus_addr, seqStatus_addr, coreBase_eq, coreBase_eq]
  omega

theorem icache_ne_icache {k m : Nat} (h : k ≠ m) :
    (Reg.seqIcache (k / 32) (k % 32)).addr ≠ (Reg.seqIcache (m / 32) (m % 32)).addr := by
  rw [seqIcache_addr, seqIcache_addr, coreBase_eq, coreBase_eq]
  omega

theorem beside_status (hk : k ∉ ms) : Beside ms (Reg.seqStatus (k / 32) (k % 32)).addr := fun m hm =>
  ⟨status_ne_status fun heq => hk (heq ▸ hm), (status_ne_icache m k).symm⟩

theorem beside_icache (hk : k ∉ ms) : Beside ms (Reg.seqIcache (k / 32) (k % 32)).addr := fun m hm =>
  ⟨status_ne_icache k m, icache_ne_icache fun heq => hk (heq ▸ hm)⟩

theorem beside_siteMap (ms : List Nat) (k : Nat) : Beside ms (Reg.siteMap (k / 32) (k % 32)).addr := fun m _ =>
  ⟨siteMap_ne_core k m 8 (by decide), siteMap_ne_core k m 0x30 (by decide)⟩

/-- The hub's registers lie below the compute dies'. -/
theorem beside_hub (ms : List Nat) {x : Nat} (hx : x < 2 ^ 24) : Beside ms (hubBase + x) := fun m _ => by
  rw [seqStatus_addr, seqIcache_addr, coreBase_eq]
  omega

/-- What core `k` goes by as it is released, and its own status. -/
structure SameCore (k : Nat) (b c : Blk) : Prop where
  removed : c.run.removed = b.run.removed
  swaps : c.run.swaps = b.run.swaps
  siteMap : c.reg (.siteMap (k / 32) (k % 32)) = b.reg (.siteMap (k / 32) (k % 32))
  status : c.reg (.seqStatus (k / 32) (k % 32)) = b.reg (.seqStatus (k / 32) (k % 32))
  icache : c.reg (.seqIcache (k / 32) (k % 32)) = b.reg (.seqIcache (k / 32) (k % 32))
  draining : (c.core k).draining = (b.core k).draining
  badHalves : (c.core k).badHalves = (b.core k).badHalves

theorem sameCore_trans (h : SameCore k b c) (h' : SameCore k c d) : SameCore k b d :=
  ⟨h'.removed.trans h.removed, h'.swaps.trans h.swaps, h'.siteMap.trans h.siteMap, h'.status.trans h.status, h'.icache.trans h.icache,
    h'.draining.trans h.draining, h'.badHalves.trans h.badHalves⟩

/-- What concerns other cores only leaves this one as it was. -/
theorem sameCore_of_steady (h : Steady ms b c) (hk : k ∉ ms) (h384 : k < 384) : SameCore k b c :=
  ⟨by rw [h.run], by rw [h.run], h.reg _ (steady_siteMap h384) (beside_siteMap ms k), h.reg _ (steady_status h384) (beside_status hk),
    h.reg _ (steady_icache h384) (beside_icache hk), h.draining k hk, h.badHalves k hk⟩

theorem sameCore_seqState (h : SameCore k b c) : c.seqState k = b.seqState k := rd_congr (f := SEQ_STATUS.state (k / 32) (k % 32)) h.status

theorem sameCore_pc (h : SameCore k b c) : c.pc k = b.pc k := rd_congr (f := SEQ_STATUS.pc (k / 32) (k % 32)) h.status

theorem sameCore_segOf (h : SameCore k b c) : c.segOf k = b.segOf k := rd_congr (f := SEQ_STATUS.segment (k / 32) (k % 32)) h.status

/-- A core opens alike after what leaves it as it was, and what leaves it as it is shows it. -/
theorem opens_after (h : Opens j n k c d) (hbc : SameCore k b c) : Opens j n k b d :=
  opens_of h hbc.removed.symm (served_congr hbc.siteMap).symm (halfOf_congr hbc.icache hbc.badHalves _).symm

theorem opens_before (h : Opens j n k b c) (hcd : SameCore k c d) : Opens j n k b d := opens_keeps h hcd.status hcd.icache

/-- A command for a core concerns no other core. -/
def OwnCore (f : Blk → Nat → Blk) : Prop := ∀ ms b c m, Steady ms b c → m ∈ ms → Steady ms b (f c m)

/-- A command for each core in turn: the others' concern them alone. -/
theorem allCores_at {f : Blk → Nat → Blk} (hf : OwnCore f) (b : Blk) (hk : k < 384) :
    ∃ c, SameCore k b c ∧ SameCore k (f c k) (allCores.foldl f b) := by
  obtain ⟨ls, ms, hsplit⟩ := List.append_of_mem (show k ∈ allCores from List.mem_range.2 hk)
  have hnodup : (ls ++ k :: ms).Nodup := hsplit ▸ List.nodup_range
  have hnot : k ∉ ls ++ ms := (List.nodup_middle.1 hnodup).notMem
  rw [List.mem_append, not_or] at hnot
  obtain ⟨hls, hms⟩ := hnot
  refine ⟨ls.foldl f b, sameCore_of_steady (steady_foldl (steady_refl ls b) fun _ _ hm hc => hf _ _ _ _ hc hm) hls hk, ?_⟩
  rw [hsplit, List.foldl_append, List.foldl_cons]
  exact sameCore_of_steady (steady_foldl (steady_refl ms _) fun _ _ hm hc => hf _ _ _ _ hc hm) hms hk

theorem steady_allCores {f : Blk → Nat → Blk} (hf : OwnCore f) (b : Blk) :
    Steady allCores b (allCores.foldl f b) :=
  steady_foldl (steady_refl allCores b) fun _ _ hm hc => hf _ _ _ _ hc hm

/-- A core that `f` releases opens the segment. -/
theorem foldl_opens {f : Blk → Nat → Blk} (hf : OwnCore f) (b : Blk) (hk : k < 384)
    (hcore : ∀ c, SameCore k b c → Opens j n k c (f c k)) : Opens j n k b (allCores.foldl f b) := by
  obtain ⟨c, hbc, hcd⟩ := allCores_at hf b hk
  exact opens_after (opens_before (hcore c hbc) hcd) hbc

/-- A core that `f` leaves alone stays as it is. -/
theorem foldl_sameCore {f : Blk → Nat → Blk} (hf : OwnCore f) (b : Blk) (hk : k < 384)
    (hcore : ∀ c, SameCore k b c → f c k = c) : SameCore k b (allCores.foldl f b) := by
  obtain ⟨c, hbc, hcd⟩ := allCores_at hf b hk
  rw [hcore c hbc] at hcd
  exact sameCore_trans hbc hcd

end Sys2Proof.Proofs
end

section
/-!
PROOFS. The job's start and the release of an anchor (O4; R285, R41, R149, R152, R163).
-/
namespace Sys2Proof.Proofs
open Sys2Proof Sys2Proof.Machine Sys2Proof.Says

variable {ms : List Nat} {b c d : Blk} {j : Job} {k n : Nat}

/-! ### The hub opens a segment, and the cores follow -/

/-- A hub register that stays. -/
theorem steady_hub_rd {f : Fld} {x : Nat} (h : Steady ms b c) (hf : f.reg.addr = hubBase + x) (hs : SteadyAddr (hubBase + x))
    (hx : x < 2 ^ 24) : c.rd f = b.rd f :=
  rd_congr (h.reg _ (hf ▸ hs) (hf ▸ beside_hub ms hx))

theorem nextSeg_lt (hlen : j.segs.length ≤ 4096) (n : Nat) : j.nextSeg n < 2 ^ 32 := by
  unfold Job.nextSeg
  split
  · omega
  · split
    · next i hi =>
      obtain ⟨hi, -⟩ := List.findIdx?_eq_some_iff_getElem.1 hi
      omega
    · decide

/-- The hub opens segment `n`, then `f` releases the cores. -/
def opening (j : Job) (n rel : Nat) (f : Blk → Nat → Blk) (b : Blk) : Blk := allCores.foldl f (b.openHub j n rel)

section
variable {f : Blk → Nat → Blk} {rel : Nat}

theorem sameCore_openHub (hbind : j.bindings = []) (hnone : BindsNone j n) (hk : k < 384) : SameCore k b (b.openHub j n rel) := by
  have hin : SameCore k b (inSegment n rel b) := ⟨rfl, rfl, rfl, rfl, rfl, rfl, rfl⟩
  exact sameCore_trans hin (sameCore_of_steady (steady_openHub hbind hnone) List.not_mem_nil hk)

theorem steady_opening (hf : OwnCore f) (hbind : j.bindings = []) (hnone : BindsNone j n) :
    Steady allCores (inSegment n rel b) (opening j n rel f b) :=
  steady_trans (steady_mono (steady_openHub hbind hnone) fun _ hm => absurd hm List.not_mem_nil) (steady_allCores hf _)

theorem opening_run (hf : OwnCore f) (hbind : j.bindings = []) (hnone : BindsNone j n) :
    (opening j n rel f b).run.seg = n ∧ (opening j n rel f b).run.lastRel = rel
      ∧ (opening j n rel f b).run.stepStart = b.run.stepStart := by
  rw [(steady_opening hf hbind hnone).run]
  exact ⟨rfl, rfl, rfl⟩

theorem opening_time (hf : OwnCore f) (hbind : j.bindings = []) (hnone : BindsNone j n) :
    (opening j n rel f b).time = b.time := by
  rw [(steady_opening hf hbind hnone).time, inSegment, updRun_time]

theorem opening_rd {x : Fld} {a : Nat} (hf : OwnCore f) (hbind : j.bindings = [])
    (hnone : BindsNone j n) (haddr : x.reg.addr = hubBase + a) (hs : SteadyAddr (hubBase + a)) (ha : a < 2 ^ 24) :
    (opening j n rel f b).rd x = b.rd x :=
  (steady_hub_rd (steady_opening hf hbind hnone) haddr hs ha).trans (updRun_rd ..)

end

/-! ### The job's start (R285) -/

theorem enter_run (b : Blk) (st : Nat) : (b.enter st).run = b.run := by rw [enter_eq]
theorem enter_coll (b : Blk) (st : Nat) : (b.enter st).coll = b.coll := by rw [enter_eq]
theorem enter_ras (b : Blk) (st : Nat) : (b.enter st).ras = b.ras := by rw [enter_eq]
theorem enter_core (b : Blk) (st k : Nat) : (b.enter st).core k = b.core k := by rw [enter_eq]; rfl

theorem enter_reg_ne (b : Blk) (st : Nat) (r : Reg) (hstate : r.addr ≠ (Reg.ctlState).addr) (htime : r.addr ≠ (Reg.ctlStateTime).addr) :
    (b.enter st).reg r = b.reg r := by
  rw [enter_reg, setReg_reg_ne _ _ _ _ htime, wr_reg_ne _ CTL_STATE.state _ _ hstate]

/-- A command on the hub's registers leaves the cores as they are. -/
theorem sameCore_of_hub (hrun : c.run = b.run) (hcore : c.core k = b.core k)
    (hreg : ∀ r : Reg, (∀ x < 2 ^ 24, r.addr ≠ hubBase + x) → c.reg r = b.reg r) : SameCore k b c := by
  refine ⟨by rw [hrun], by rw [hrun], hreg _ fun x hx => ?_, hreg _ fun x hx => ?_, hreg _ fun x hx => ?_, by rw [hcore], by rw [hcore]⟩
  · rw [siteMap_addr]
    omega
  · rw [seqStatus_addr, coreBase_eq]
    omega
  · rw [seqIcache_addr, coreBase_eq]
    omega

theorem sameCore_wr_hub {f : Fld} {v x : Nat} (h : SameCore k b c) (hf : f.reg.addr = hubBase + x) (hx : x < 2 ^ 24) :
    SameCore k b (c.wr f v) :=
  sameCore_trans h (sameCore_of_hub (wr_run ..) (wr_core ..) fun r hr => wr_reg_ne c f r v (hf ▸ hr x hx))

theorem sameCore_enter {st : Nat} (h : SameCore k b c) : SameCore k b (c.enter st) :=
  sameCore_trans h (sameCore_of_hub (enter_run ..) (enter_core ..) fun r hr =>
    enter_reg_ne c st r (hr 0xC0000 (by decide)) (hr 0xC0008 (by decide)))

theorem sameCore_stepStart {start : Nat} (h : SameCore k b c) : SameCore k b (c.updRun fun r => { r with stepStart := start }) :=
  sameCore_trans h ⟨rfl, rfl, rfl, rfl, rfl, rfl, rfl⟩

/-- The armed module enters RUN: its entry is taken, its phase and its crossbar are those of a job, and the first step's start is known. -/
def entered (n start : Nat) (b : Blk) : Blk :=
  ((((b.wr (MTC_SCHED_ACT.valid n) 0).enter stRun).wr CTL_ARM.phase 5).wr XBAR_STATUS.idle 0).updRun fun r => { r with stepStart := start }

theorem sameCore_entered (hn : n < 32) (start : Nat) (b : Blk) (k : Nat) : SameCore k b (entered n start b) := by
  have hsame : SameCore k b b := ⟨rfl, rfl, rfl, rfl, rfl, rfl, rfl⟩
  have hvalid : SameCore k b (b.wr (MTC_SCHED_ACT.valid n) 0) := sameCore_wr_hub hsame (mtcSchedAct_addr n) (by omega)
  have harm : CTL_ARM.phase.reg.addr = hubBase + 0xC0020 := rfl
  have hxbar : XBAR_STATUS.idle.reg.addr = hubBase + 0x20000 := rfl
  exact sameCore_stepStart (sameCore_wr_hub (sameCore_wr_hub (sameCore_enter hvalid) harm (by decide)) hxbar (by decide))

theorem entered_dstate (n start : Nat) (b : Blk) : (entered n start b).dstate = stRun := by
  obtain ⟨hstate, -⟩ := enter_entered (b.wr (MTC_SCHED_ACT.valid n) 0) stRun (by decide)
  rw [entered, Blk.dstate, updRun_rd, wr_rd_ne _ XBAR_STATUS.idle CTL_STATE.state _ (by decide),
    wr_rd_ne _ CTL_ARM.phase CTL_STATE.state _ (by decide)]
  exact hstate

theorem entered_phase (n start : Nat) (b : Blk) : (entered n start b).rd CTL_ARM.phase = 5 := by
  rw [entered, updRun_rd, wr_rd_ne _ XBAR_STATUS.idle CTL_ARM.phase _ (by decide), wr_rd_same _ _ _ (by decide)]
  decide

theorem entered_idle (n start : Nat) (b : Blk) : (entered n start b).rd XBAR_STATUS.idle = 0 := by
  rw [entered, updRun_rd, wr_rd_same _ _ _ (by decide)]
  decide

theorem entered_valid (hn : n < 32) (start : Nat) (b : Blk) : (entered n start b).on (MTC_SCHED_ACT.valid n) = false := by
  have haddr (x : Nat) (hx : 0x10408 ≤ x) : (MTC_SCHED_ACT.valid n).reg.addr ≠ hubBase + x := by
    rw [MTC_SCHED_ACT.valid, mtcSchedAct_addr]
    omega
  rw [entered, updRun_on, Blk.on, wr_rd_ne _ XBAR_STATUS.idle _ _ (haddr 0x20000 (by decide)),
    wr_rd_ne _ CTL_ARM.phase _ _ (haddr 0xC0020 (by decide)), ← wr_valid_off n b, Blk.on,
    rd_congr (enter_reg_ne _ _ _ (haddr 0xC0000 (by decide)) (haddr 0xC0008 (by decide)))]

theorem entered_run (n start : Nat) (b : Blk) : (entered n start b).run = { b.run with stepStart := start } := by
  rw [entered, updRun_run, wr_run, wr_run, enter_run, wr_run]

theorem entered_coll (n start : Nat) (b : Blk) : (entered n start b).coll = b.coll := by
  rw [entered, updRun_coll, wr_coll, wr_coll, enter_coll, wr_coll]

theorem entered_ras (n start : Nat) (b : Blk) : (entered n start b).ras = b.ras := by
  rw [entered, updRun_ras, wr_ras, wr_ras, enter_ras, wr_ras]

theorem keepVariants_none (b : Blk) (h : ∀ x, x < 4 → b.lineOf x = none) : b.keepVariants = b := by
  unfold Blk.keepVariants
  refine foldl_inv _ (fun c => c = b) _ b rfl fun c x hx hc => ?_
  rw [hc, h x (List.mem_range.1 hx)]

theorem entered_lineOf (n start : Nat) (b : Blk) (x : Nat) : (entered n start b).lineOf x = b.lineOf x := by
  have hne : COLL_FALLBACK.variants.reg.addr ≠ (MTC_SCHED_ACT.valid n).reg.addr := by
    have haddr : COLL_FALLBACK.variants.reg.addr = hubBase + 0x40030 := rfl
    rw [haddr, MTC_SCHED_ACT.valid, mtcSchedAct_addr]
    omega
  have hrd : (entered n start b).rd COLL_FALLBACK.variants = b.rd COLL_FALLBACK.variants := by
    rw [entered, updRun_rd, wr_rd_ne _ XBAR_STATUS.idle _ _ (by decide), wr_rd_ne _ CTL_ARM.phase _ _ (by decide),
      rd_congr (enter_reg_ne _ _ _ (by decide) (by decide)), wr_rd_ne _ _ _ _ hne]
  rw [Blk.lineOf, hrd, Blk.lineOf]

theorem steady_lineOf (h : Steady [] b c) (x : Nat) : c.lineOf x = b.lineOf x := by
  have haddr : COLL_FALLBACK.variants.reg.addr = hubBase + 0x40030 := rfl
  unfold Blk.lineOf
  rw [steady_hub_rd h haddr (steady_hub (by decide)) (by decide)]

/-- The commands of the job's start up to its first segment. -/
def started (j : Job) (n : Nat) (b : Blk) : Blk := (entered n (j.tStart + j.prologueNs) b).anchorActs

theorem steady_started (hquiet : QuietJob j b) (n : Nat) : Steady [] (entered n (j.tStart + j.prologueNs) b) (started j n b) := by
  obtain ⟨-, -, -, -, -, hanswer, hlanes, -, -, -⟩ := hquiet
  exact steady_anchorActs (steady_refl _ _) (by rw [entered_coll, hanswer]) (by rw [entered_ras, hlanes])

theorem startJob_eq (hquiet : QuietJob j b) (hstop : b.run.stopAt = none) (hfirst : (j.seg 0).prologue = true)
    (hlines : ∀ x, x < 4 → b.lineOf x = none) (n : Nat) : (b.wr (MTC_SCHED_ACT.valid n) 0).startJob j =
      opening j 0 (j.tStart + 40) (fun b k => b.releaseInto j k 0 (j.tStart + 40) 0) (started j n b) := by
  have hsteady := steady_started hquiet n
  obtain ⟨hjob, hsched, -, -, -, -, -, -, -, -⟩ := hquiet
  have hphase : (if (b.wr (MTC_SCHED_ACT.valid n) 0).run.stopAt.isSome then 6 else 5) = 5 := by
    rw [wr_run, hstop]
    rfl
  have hjob' : (entered n (j.tStart + j.prologueNs) b).run.job = some j := by rw [entered_run]; exact hjob
  have hplace : (entered n (j.tStart + j.prologueNs) b).placeImage = entered n (j.tStart + j.prologueNs) b :=
    placeImage_none _ _ hjob' hsched
  have hkeep : (started j n b).keepVariants = started j n b :=
    keepVariants_none _ fun x hx => by rw [steady_lineOf hsteady, entered_lineOf, hlines x hx]
  have hgetD : (started j n b).run.job.getD j = j := by rw [hsteady.run, hjob', Option.getD_some]
  unfold Blk.startJob
  rw [hphase]
  dsimp only
  rw [← entered, hplace, ← started, hkeep, if_pos hfirst, hgetD, opening]

theorem jobStart_opens (s : State) (n : Nat) (j : Job) (hdue : Due n 5 s.blk) (harmed : s.blk.dstate = stArmed)
    (hquiet : QuietJob j s.blk) (hstop : s.blk.run.stopAt = none) (hfirst : (j.seg 0).prologue = true) (hnone : BindsNone j 0)
    (hlines : ∀ x, x < 4 → s.blk.lineOf x = none) :
    Does .jobStart s fun b =>
      b.dstate = stRun ∧ b.on (MTC_SCHED_ACT.valid n) = false ∧ b.rd CTL_ARM.phase = 5 ∧ b.rd XBAR_STATUS.idle = 0
        ∧ b.run.seg = 0 ∧ b.run.lastRel = j.tStart + 40 ∧ b.run.stepStart = j.tStart + j.prologueNs
        ∧ ∀ k, k < 384 → Opens j 0 k s.blk b := by
  have hn : n < 32 := hdue.1
  have hstarted := steady_started hquiet n
  have hcores := startJob_eq hquiet hstop hfirst hlines n
  obtain ⟨hjob, -, hbind, -, -, -, -, hswaps, -, hdrain⟩ := hquiet
  have hjob' : (s.blk.wr (MTC_SCHED_ACT.valid n) 0).run.job = some j := by rw [wr_run, hjob]
  have harmed' : (s.blk.wr (MTC_SCHED_ACT.valid n) 0).dstate = stArmed := by
    have hne : CTL_STATE.state.reg.addr ≠ (MTC_SCHED_ACT.valid n).reg.addr := by
      have haddr : CTL_STATE.state.reg.addr = hubBase + 0xC0000 := rfl
      rw [haddr, MTC_SCHED_ACT.valid, mtcSchedAct_addr]
      omega
    rw [Blk.dstate, wr_rd_ne _ _ _ _ hne, ← Blk.dstate, harmed]
  refine does_of_onBlk (f := jobStartFx) rfl ?_
  unfold jobStartFx
  rw [takeDue_due hdue (by decide), hjob']
  dsimp only
  rw [if_pos harmed', hcores]
  have hf : OwnCore fun b k => b.releaseInto j k 0 (j.tStart + 40) 0 := fun _ _ _ _ h hm => steady_releaseInto h hm
  have hrd {f : Fld} {a : Nat} (haddr : f.reg.addr = hubBase + a) (hs : SteadyAddr (hubBase + a)) (ha : a < 2 ^ 24) :
      (opening j 0 (j.tStart + 40) (fun b k => b.releaseInto j k 0 (j.tStart + 40) 0) (started j n s.blk)).rd f
        = (entered n (j.tStart + j.prologueNs) s.blk).rd f :=
    (opening_rd hf hbind hnone haddr hs ha).trans (steady_hub_rd hstarted haddr hs ha)
  obtain ⟨hseg, hlast, hstep⟩ := opening_run (b := started j n s.blk) hf hbind hnone
  refine ⟨?_, ?_, ?_, ?_, hseg, hlast, ?_, fun k hk => ?_⟩
  · have haddr : CTL_STATE.state.reg.addr = hubBase + 0xC0000 := rfl
    rw [Blk.dstate, hrd haddr (steady_hub (by decide)) (by decide)]
    exact entered_dstate ..
  · rw [Blk.on, hrd (mtcSchedAct_addr n) (mtcSchedAct_addr n ▸ steady_schedAct hn) (by omega)]
    exact entered_valid hn ..
  · have haddr : CTL_ARM.phase.reg.addr = hubBase + 0xC0020 := rfl
    rw [hrd haddr (steady_hub (by decide)) (by decide), entered_phase]
  · have haddr : XBAR_STATUS.idle.reg.addr = hubBase + 0x20000 := rfl
    rw [hrd haddr (steady_hub (by decide)) (by decide), entered_idle]
  · rw [hstep, hstarted.run, entered_run]
  · have hsame : SameCore k s.blk ((started j n s.blk).openHub j 0 (j.tStart + 40)) :=
      sameCore_trans (sameCore_trans (sameCore_entered hn _ _ _) (sameCore_of_steady hstarted List.not_mem_nil hk))
        (sameCore_openHub hbind hnone hk)
    refine opens_after (foldl_opens hf _ hk fun c hc => ?_) hsame
    have hsame' := sameCore_trans hsame hc
    exact releaseInto_opens (by rw [hsame'.swaps, hswaps]) (by rw [hsame'.draining, hdrain]) hk (by decide)

/-! ### The release of an anchor (R41) -/

/-- The commands at the anchor that closes segment `n`, before the next one opens. -/
def anchored (n rel : Nat) (b : Blk) : Blk := (allCores.foldl (fun b k => b.countWait k n rel) b).anchorActs.countDeadlines.flushNc

theorem steady_anchorActs_of (hquiet : QuietJob j b) (n rel : Nat) :
    Steady [] b (allCores.foldl (fun b k => b.countWait k n rel) b).anchorActs := by
  obtain ⟨-, -, -, -, -, hanswer, hlanes, -, -, -⟩ := hquiet
  exact steady_anchorActs (steady_foldl (steady_refl [] b) fun _ _ _ hc => steady_countWait hc) hanswer hlanes

theorem steady_anchored (hquiet : QuietJob j b) (n rel : Nat) : Steady [] b (anchored n rel b) :=
  steady_flushNc (steady_countDeadlines (steady_anchorActs_of hquiet n rel))

/-- Between two segments of a step, outside lull windows and with nothing hot, an anchor only opens the next segment. -/
theorem runRelease_eq (hquiet : QuietJob j b) (hstep : j.startsStep (j.nextSeg b.run.seg) = false) (hlull : (j.seg b.run.seg).lull = false)
    (hlull' : (j.seg (j.nextSeg b.run.seg)).lull = false) (hcool : b.rd PWR_THERM_STAT.level = 0) : b.runRelease j =
      opening j (j.nextSeg b.run.seg) (b.relOf j b.run.seg)
        (fun c k => c.releaseCore j k b.run.seg (j.nextSeg b.run.seg) (b.relOf j b.run.seg))
        (anchored b.run.seg (b.relOf j b.run.seg) b) := by
  have hacts := steady_anchorActs_of hquiet b.run.seg (b.relOf j b.run.seg)
  have hsteady := steady_anchored hquiet b.run.seg (b.relOf j b.run.seg)
  obtain ⟨hjob, hsched, -, hcommits, -, -, -, -, hchecks, -⟩ := hquiet
  have hjob' : (anchored b.run.seg (b.relOf j b.run.seg) b).run.job = some j := by rw [hsteady.run, hjob]
  have haddr : PWR_THERM_STAT.level.reg.addr = hubBase + 0x90020 := rfl
  have hlevel : (anchored b.run.seg (b.relOf j b.run.seg) b).rd PWR_THERM_STAT.level = 0 := by
    rw [steady_hub_rd hsteady haddr (steady_hub (by decide)) (by decide), hcool]
  have hrel : b.segInstant j b.run.seg + 40 = b.relOf j b.run.seg := rfl
  unfold Blk.runRelease
  dsimp only
  rw [hrel, commitPhase_none _ _ _ _ hcommits, prefChecks_none _ (by rw [hacts.checks, hchecks]), ← anchored, hlull, hlull', hstep]
  simp only [Bool.false_eq_true, false_and, if_false]
  rw [thermalActs_none _ _ hlevel, placeImage_none _ _ hjob' hsched, hjob', Option.getD_some, if_neg (by rw [hlull']; decide), opening]

theorem releaseCore_waiting {next rel : Nat} (hstate : b.seqState k = 2) (hseg : b.segOf k = n) :
    ∃ late, b.releaseCore j k n next rel = b.releaseInto j k next rel late := by
  unfold Blk.releaseCore
  rw [hstate, hseg]
  exact ⟨_, if_neg (by simp)⟩

theorem releaseCore_working {next rel : Nat} (hstate : b.seqState k = 1) : b.releaseCore j k n next rel = b := by
  unfold Blk.releaseCore
  rw [hstate]
  exact if_pos (by simp)

theorem anchorRelease_opens (s : State) (j : Job) (hrun : s.blk.dstate = stRun) (hquiet : QuietJob j s.blk)
    (hdue : s.blk.relOf j s.blk.run.seg ≤ s.blk.now) (hstep : j.startsStep (j.nextSeg s.blk.run.seg) = false)
    (hnone : BindsNone j (j.nextSeg s.blk.run.seg)) (hlull : (j.seg s.blk.run.seg).lull = false)
    (hlull' : (j.seg (j.nextSeg s.blk.run.seg)).lull = false) (hcool : s.blk.rd PWR_THERM_STAT.level = 0) :
    Does .anchorRelease s fun b =>
      b.dstate = stRun ∧ b.run.seg = j.nextSeg s.blk.run.seg ∧ b.run.lastRel = s.blk.relOf j s.blk.run.seg
        ∧ b.run.stepStart = s.blk.run.stepStart ∧ b.time = s.blk.time
        ∧ ∀ k, k < 384 → s.blk.segOf k = s.blk.run.seg →
          (s.blk.seqState k = 2 → Opens j (j.nextSeg s.blk.run.seg) k s.blk b)
            ∧ (s.blk.seqState k = 1 → b.seqState k = 1 ∧ b.segOf k = s.blk.run.seg ∧ b.pc k = s.blk.pc k) := by
  have hsteady := steady_anchored hquiet s.blk.run.seg (s.blk.relOf j s.blk.run.seg)
  have hcores := runRelease_eq hquiet hstep hlull hlull' hcool
  obtain ⟨hjob, -, hbind, -, hlen, -, -, hswaps, -, hdrain⟩ := hquiet
  refine does_of_onBlk (f := anchorReleaseFx) rfl ?_
  unfold anchorReleaseFx
  rw [hjob]
  dsimp only
  rw [if_neg (Nat.not_lt.2 hdue), if_pos hrun, hcores]
  generalize s.blk.relOf j s.blk.run.seg = rel at hsteady ⊢
  have hnext : j.nextSeg s.blk.run.seg < 2 ^ 32 := nextSeg_lt hlen _
  generalize j.nextSeg s.blk.run.seg = next at hnone hnext ⊢
  have hf : OwnCore fun c k => c.releaseCore j k s.blk.run.seg next rel := fun _ _ _ _ h hm => steady_releaseCore h hm
  obtain ⟨hseg, hlast, hstart⟩ := opening_run (b := anchored s.blk.run.seg rel s.blk) (rel := rel) hf hbind hnone
  have htime := opening_time (b := anchored s.blk.run.seg rel s.blk) (rel := rel) hf hbind hnone
  have haddr : CTL_STATE.state.reg.addr = hubBase + 0xC0000 := rfl
  refine ⟨?_, hseg, hlast, ?_, ?_, fun k hk hin => ?_⟩
  · rw [Blk.dstate, opening_rd hf hbind hnone haddr (steady_hub (by decide)) (by decide),
      steady_hub_rd hsteady haddr (steady_hub (by decide)) (by decide)]
    exact hrun
  · rw [hstart, hsteady.run]
  · rw [htime, hsteady.time]
  · have hsame : SameCore k s.blk ((anchored s.blk.run.seg rel s.blk).openHub j next rel) :=
      sameCore_trans (sameCore_of_steady hsteady List.not_mem_nil hk) (sameCore_openHub hbind hnone hk)
    refine ⟨fun hstate => opens_after (foldl_opens hf _ hk fun c hc => ?_) hsame, fun hstate => ?_⟩
    · have hsame' := sameCore_trans hsame hc
      obtain ⟨late, hinto⟩ := releaseCore_waiting (j := j) (next := next) (rel := rel)
        ((sameCore_seqState hsame').trans hstate) ((sameCore_segOf hsame').trans hin)
      rw [hinto]
      exact releaseInto_opens (by rw [hsame'.swaps, hswaps]) (by rw [hsame'.draining, hdrain]) hk hnext
    · have hstay := sameCore_trans hsame (foldl_sameCore hf _ hk fun c hc =>
        releaseCore_working ((sameCore_seqState (sameCore_trans hsame hc)).trans hstate))
      exact ⟨(sameCore_seqState hstay).trans hstate, (sameCore_segOf hstay).trans hin, sameCore_pc hstay⟩

/-! ### O4 -/

/-- Settles O4: what the hub does around an anchor leaves each core's status, instruction cache and site map alone, and each core's own
release opens the segment. -/
theorem anchorsStartAndReleaseTheJob : Obligations.AnchorsStartAndReleaseTheJob := by
  unfold Obligations.AnchorsStartAndReleaseTheJob
  refine ⟨jobStart_opens, anchorRelease_not_due, ?_, anchor_waits⟩
  intro s j hrun hquiet hdue n next hstep hnone hlull hlull' hcool
  exact anchorRelease_opens s j hrun hquiet hdue hstep hnone hlull hlull' hcool

end Sys2Proof.Proofs
end

section
/-!
PROOFS. Vector instructions (R93, R95, R99, R143, R165): what issuing one leaves alone, and what the elements that it writes hold.
-/
namespace Sys2Proof.Proofs
open Sys2Proof Sys2Proof.Machine Sys2Proof.Says

/-! ### Elements of a vector register (R93, R105) -/

theorem lane_setLane_same (c : Ctx) (n i v : Nat) (p : Bool) : (c.setLane n i v p).lane n i = v % 2 ^ 32 := by
  simp [Ctx.lane, Ctx.setLane]

theorem lane_setLane_ne (c : Ctx) {n i m j : Nat} (v : Nat) (p : Bool) (hi : i < 128) (hj : j < 128) (h : m ≠ n ∨ j ≠ i) :
    (c.setLane n i v p).lane m j = c.lane m j := by
  unfold Ctx.lane Ctx.setLane
  rw [Sp.get_set_ne _ _ _ _ _ (by omega)]

theorem wide_setWide_same (c : Ctx) {n i : Nat} (v : Nat) (p : Bool) (hi : i < 128) : (c.setWide n i v p).wide n i = v % 2 ^ 64 := by
  rw [Ctx.wide, Ctx.setWide, lane_setLane_same, lane_setLane_ne _ _ _ hi hi (.inl (by omega)), lane_setLane_same]
  omega

/-- Registers outside the pair of Vn, and other elements of it, keep their values. -/
theorem lane_setWide_ne (c : Ctx) {n i m j : Nat} (v : Nat) (p : Bool) (hi : i < 128) (hj : j < 128) (h : m / 2 ≠ n / 2 ∨ j ≠ i) :
    (c.setWide n i v p).lane m j = c.lane m j := by
  rw [Ctx.setWide, lane_setLane_ne _ _ _ hi hj (by omega), lane_setLane_ne _ _ _ hi hj (by omega)]

/-! ### One element of the destination -/

/-- Element `i` of the destination becomes `v`. -/
def putLane (o : VOp) (wide : Bool) (i v : Nat) (p : Bool) (c : Ctx) : Ctx :=
  if wide then c.setWide o.vd.toNat i v p else c.setLane o.vd.toNat i v p

theorem dst_putLane_same (o : VOp) (wide : Bool) {i : Nat} (v : Nat) (p : Bool) (c : Ctx) (hi : i < 128) :
    dst o wide (putLane o wide i v p c) i = v % 2 ^ (if wide then 64 else 32) := by
  cases wide
  · exact lane_setLane_same ..
  · exact wide_setWide_same _ _ _ hi

theorem lane_putLane_ne (o : VOp) (wide : Bool) {i n j : Nat} (v : Nat) (p : Bool) (c : Ctx) (hi : i < 128) (hj : j < 128)
    (h : (if wide then n / 2 ≠ o.vd.toNat / 2 else n ≠ o.vd.toNat) ∨ j ≠ i) : (putLane o wide i v p c).lane n j = c.lane n j := by
  cases wide
  · exact lane_setLane_ne _ _ _ hi hj (by simpa using h)
  · exact lane_setWide_ne _ _ _ hi hj (by simpa using h)

theorem dst_putLane_ne (o : VOp) (wide : Bool) {i j : Nat} (v : Nat) (p : Bool) (c : Ctx) (hi : i < 128) (hj : j < 128) (h : j ≠ i) :
    dst o wide (putLane o wide i v p c) j = dst o wide c j := by
  have hlane (n : Nat) := lane_putLane_ne o wide (n := n) v p c hi hj (.inr h)
  simp only [dst, Ctx.wide, hlane]

theorem putLane_eq (o : VOp) (wide : Bool) (i v : Nat) (p : Bool) (c : Ctx) :
    putLane o wide i v p c = { c with v := (putLane o wide i v p c).v, vPoison := (putLane o wide i v p c).vPoison } := by
  cases wide <;> rfl

/-! ### The elements that an instruction writes (R95) -/

/-- Context `x` is `c` with `val` in the first `n` elements that `act` selects, the others kept, or zero under the zeroing option. -/
structure FilledLanes (n : Nat) (o : VOp) (wide : Bool) (act : Nat → Bool) (val : Nat → Nat) (c x : Ctx) : Prop where
  dst : ∀ l, l < 128 → Says.dst o wide x l =
    if l < n then (if act l then val l % 2 ^ (if wide then 64 else 32) else if o.zero then 0 else Says.dst o wide c l)
    else Says.dst o wide c l
  others : ∀ m l, l < 128 → (if wide then m / 2 ≠ o.vd.toNat / 2 else m ≠ o.vd.toNat) → x.lane m l = c.lane m l
  rest : x = { c with v := x.v, vPoison := x.vPoison }

variable {n : Nat} {o : VOp} {wide : Bool} {act : Nat → Bool} {val : Nat → Nat} {c x : Ctx}

theorem filled_zero : FilledLanes 0 o wide act val c c := ⟨fun _ _ => rfl, fun _ _ _ _ => rfl, rfl⟩

/-- The next element is written where it is active or zeroed. -/
theorem filled_put (h : FilledLanes n o wide act val c x) (hn : n < 128) (v : Nat) (p : Bool)
    (hv : v % 2 ^ (if wide then 64 else 32) =
      if act n then val n % 2 ^ (if wide then 64 else 32) else if o.zero then 0 else Says.dst o wide c n) :
    FilledLanes (n + 1) o wide act val c (putLane o wide n v p x) := by
  refine ⟨fun l hl => ?_, fun m l hl hm => ?_, ?_⟩
  · by_cases hln : l = n
    · subst hln
      rw [dst_putLane_same _ _ _ _ _ hl, hv, if_pos (Nat.lt_succ_self l)]
    · rw [dst_putLane_ne _ _ _ _ _ hn hl hln, h.dst l hl]
      exact if_congr (by omega) rfl rfl
  · rw [lane_putLane_ne _ _ _ _ _ hn hl (.inl hm), h.others m l hl hm]
  · rw [putLane_eq, h.rest]

/-- It is kept where it is neither. -/
theorem filled_keep (h : FilledLanes n o wide act val c x) (hact : act n = false) (hz : o.zero = false) :
    FilledLanes (n + 1) o wide act val c x := by
  refine ⟨fun l hl => ?_, h.others, h.rest⟩
  rw [h.dst l hl]
  by_cases hln : l = n
  · subst hln
    simp [hact, hz]
  · exact if_congr (by omega) rfl rfl

/-- An invariant of a fold over the first naturals. -/
theorem foldl_range_inv {β : Type} (f : β → Nat → β) (q : Nat → β → Prop) (s : β) (n : Nat) (h0 : q 0 s)
    (h : ∀ t x, t < n → q t x → q (t + 1) (f x t)) : q n ((List.range n).foldl f s) := by
  induction n with
  | zero => exact h0
  | succ n ih =>
    rw [List.range_succ, List.foldl_append]
    exact h n _ (Nat.lt_succ_self n) (ih fun t x ht => h t x (Nat.lt_succ_of_lt ht))

theorem lanes_le (k : Nat) : lanes k ≤ 128 := by unfold lanes; split <;> decide

theorem writeLanes_filled (k : Nat) (res : Nat → LaneRes) (hvl : c.vl ≠ 0) :
    FilledLanes (lanes k) o wide act (fun l => (res l).val) c (c.writeLanes k o wide act res) := by
  unfold Ctx.writeLanes
  rw [if_neg hvl]
  refine foldl_range_inv _ (fun n x => FilledLanes n o wide act _ c x) c _ filled_zero fun n x hn hx => ?_
  have hn' : n < 128 := Nat.lt_of_lt_of_le hn (lanes_le k)
  dsimp only
  by_cases hact : act n = true
  · rw [if_pos hact]
    exact filled_put hx hn' _ _ (by rw [if_pos hact])
  · rw [if_neg hact]
    by_cases hz : o.zero = true
    · rw [if_pos hz]
      exact filled_put hx hn' 0 false (by rw [if_neg hact, if_pos hz, Nat.zero_mod])
    · rw [if_neg hz]
      exact filled_keep hx (by simpa using hact) (by simpa using hz)

/-- What `Wrote` asks of the context: `val` in the active elements, the others kept or zeroed, nothing else changed. -/
structure Lanes (k : Nat) (o : VOp) (wide : Bool) (act : Nat → Bool) (val : Nat → Nat) (c x : Ctx) : Prop where
  active : c.vl ≠ 0 → ∀ l, l < lanes k → act l = true → Says.dst o wide x l = val l % 2 ^ (if wide then 64 else 32)
  inactive : ∀ l, l < lanes k → (c.vl = 0 ∨ act l = false) →
    Says.dst o wide x l = if o.zero ∧ c.vl ≠ 0 then 0 else Says.dst o wide c l
  others : ∀ m l, l < 128 → (if wide then m / 2 ≠ o.vd.toNat / 2 else m ≠ o.vd.toNat) → x.lane m l = c.lane m l
  rest : x = { c with v := x.v, vPoison := x.vPoison }

theorem writeLanes_lanes (k : Nat) (o : VOp) (wide : Bool) (act : Nat → Bool) (res : Nat → LaneRes) (c : Ctx) :
    Lanes k o wide act (fun l => (res l).val) c (c.writeLanes k o wide act res) := by
  by_cases hvl : c.vl = 0
  · have hkeep : c.writeLanes k o wide act res = c := if_pos hvl
    rw [hkeep]
    exact ⟨fun h => absurd hvl h, fun l _ _ => by rw [if_neg fun h => h.2 hvl], fun _ _ _ _ => rfl, rfl⟩
  · have h := writeLanes_filled (o := o) (wide := wide) (act := act) k res hvl
    refine ⟨fun _ l hl hact => ?_, fun l hl hact => ?_, h.others, h.rest⟩
    · rw [h.dst l (Nat.lt_of_lt_of_le hl (lanes_le k)), if_pos hl, if_pos hact]
    · have hact' : ¬act l = true := by simpa using hact.resolve_left hvl
      rw [h.dst l (Nat.lt_of_lt_of_le hl (lanes_le k)), if_pos hl, if_neg hact']
      simp [hvl]

theorem lanes_congr {k : Nat} {val' : Nat → Nat} (h : Lanes k o wide act val c x) (hval : ∀ l, act l = true → val l = val' l) :
    Lanes k o wide act val' c x :=
  ⟨fun hvl l hl hact => by rw [h.active hvl l hl hact, hval l hact], h.inactive, h.others, h.rest⟩

end Sys2Proof.Proofs
end

section
/-!
PROOFS. The issue of a vector instruction (R143, R145, R165): everything outside the active context and the registers of the vector engine
stays, and an instruction that computes each active element writes what `Wrote` asks.
-/
namespace Sys2Proof.Proofs
open Sys2Proof Sys2Proof.Machine Sys2Proof.Says

/-! ### Everything but the active context and the vector engine's registers -/

theorem seqStall_vec_addr (k : Nat) : (Reg.seqStall (k / 32) (k % 32) 2 0).addr = coreBase (k / 32) (k % 32) + 0x1100 := by
  rw [seqStall_addr]

theorem mem_vecRegs {k a : Nat} : a ∈ (vecRegs k).map Reg.addr ↔ a = coreBase (k / 32) (k % 32) + 0x5010
    ∨ a = coreBase (k / 32) (k % 32) + 0x5018 ∨ a = coreBase (k / 32) (k % 32) + 0x5020 ∨ a = coreBase (k / 32) (k % 32) + 0x5028
    ∨ a = coreBase (k / 32) (k % 32) + 0x1100 := by
  have hmap : (vecRegs k).map Reg.addr = [coreBase (k / 32) (k % 32) + 0x5010, coreBase (k / 32) (k % 32) + 0x5018,
      coreBase (k / 32) (k % 32) + 0x5020 + 0 * 8, coreBase (k / 32) (k % 32) + 0x5020 + 1 * 8,
      (Reg.seqStall (k / 32) (k % 32) 2 0).addr] := rfl
  rw [hmap, seqStall_vec_addr]
  simp only [List.mem_cons, List.not_mem_nil, or_false]

/-- Registers of a core at different offsets. -/
theorem coreReg_ne {k x y : Nat} {r q : Reg} (hr : r.addr = coreBase (k / 32) (k % 32) + x) (hq : q.addr = coreBase (k / 32) (k % 32) + y)
    (h : x ≠ y) : r.addr ≠ q.addr := by
  omega

/-- The sequencer's registers are not the vector engine's. -/
theorem notMem_vecRegs (k x : Nat) (hx : x < 0x1000) : coreBase (k / 32) (k % 32) + x ∉ (vecRegs k).map Reg.addr := by
  rw [mem_vecRegs]
  omega

/-- Nothing but registers and cores has changed. -/
def RegsCores (b c : Blk) : Prop := c = { b with regs := c.regs, cores := c.cores }

theorem regsCores_trans {b c d : Blk} (hbc : RegsCores b c) (hcd : RegsCores c d) : RegsCores b d := by
  unfold RegsCores at *
  rw [hcd, hbc]

/-- The frame of `Core`, which leaves the counter of free values open. -/
theorem regsCores_frame {b c : Blk} (h : RegsCores b c) : c = { b with regs := c.regs, cores := c.cores, freeCtr := c.freeCtr } := by
  unfold RegsCores at h
  rw [h]

theorem regsCores_setReg (b : Blk) (r : Reg) (v : Nat) : RegsCores b (b.setReg r v) := rfl
theorem regsCores_wr (b : Blk) (f : Fld) (v : Nat) : RegsCores b (b.wr f v) := rfl
theorem regsCores_incBy (b : Blk) (f : Fld) (n : Nat) : RegsCores b (b.incBy f n) := regsCores_wr ..
theorem regsCores_updCore (b : Blk) (k : Nat) (f : CoreSt → CoreSt) : RegsCores b (b.updCore k f) := rfl
theorem regsCores_updCtx (b : Blk) (k : Nat) (f : Ctx → Ctx) : RegsCores b (b.updCtx k f) := regsCores_updCore ..
theorem regsCores_spend (b : Blk) (k n : Nat) : RegsCores b (b.spend k n) := regsCores_updCore ..
theorem regsCores_jump (b : Blk) (k p : Nat) : RegsCores b (b.jump k p) := jump_eq ..
theorem regsCores_stall (b : Blk) (k e c n : Nat) : RegsCores b (b.stall k e c n) := by unfold RegsCores; rw [stall_eq]
theorem regsCores_countIssue (b : Blk) (k : Nat) : RegsCores b (b.countIssue k) := by unfold RegsCores; rw [countIssue_eq]
theorem regsCores_vecFlag (b : Blk) (k fl : Nat) : RegsCores b (b.vecFlag k fl) :=
  regsCores_trans (regsCores_updCtx ..) (regsCores_setReg ..)

/-- The active context of core `k` has become `x`; of the registers, at most those of the vector engine have changed; all else stays. -/
structure InCtx (k : Nat) (x : Ctx) (b c : Blk) : Prop where
  core : c.core k = (b.core k).updCtx (b.slot k) fun _ => x
  others : ∀ j, j ≠ k → c.core j = b.core j
  regs : RegsKeep (vecRegs k) b c
  rest : RegsCores b c

theorem updCtx_self (c : CoreSt) (s : Nat) : (c.updCtx s fun _ => c.ctx s) = c := by
  unfold CoreSt.updCtx CoreSt.ctx; split <;> rfl

theorem updCtx_updCtx (c : CoreSt) (s : Nat) (x : Ctx) (f : Ctx → Ctx) :
    (c.updCtx s fun _ => x).updCtx s f = c.updCtx s fun _ => f x := by
  unfold CoreSt.updCtx; split <;> rfl

variable {k : Nat} {x : Ctx} {b c : Blk}

theorem inCtx_refl (k : Nat) (b : Blk) : InCtx k (b.ctx k) b b :=
  ⟨(updCtx_self _ _).symm, fun _ _ => rfl, regsKeep_refl _ _, rfl⟩

theorem inCtx_slot (h : InCtx k x b c) : c.slot k = b.slot k :=
  regsKeep_rd h.regs _ (notMem_vecRegs k 0x8 (by decide))

theorem inCtx_ctx (h : InCtx k x b c) : c.ctx k = x := by
  rw [Blk.ctx, inCtx_slot h, h.core, ctx_updCtx_same]

theorem inCtx_updCtx (h : InCtx k x b c) (f : Ctx → Ctx) : InCtx k (f x) b (c.updCtx k f) := by
  refine ⟨?_, fun j hj => ?_, fun r hr => ?_, ?_⟩
  · rw [updCtx_core, inCtx_slot h, h.core, updCtx_updCtx]
  · rw [updCtx_core_ne _ _ _ _ hj, h.others j hj]
  · rw [updCtx_reg, h.regs r hr]
  · exact regsCores_trans h.rest (regsCores_updCtx ..)

theorem inCtx_setReg (h : InCtx k x b c) {r : Reg} {v : Nat} (hr : r.addr ∈ (vecRegs k).map Reg.addr) :
    InCtx k x b (c.setReg r v) := by
  refine ⟨(setReg_core ..).trans h.core, fun j hj => (setReg_core ..).trans (h.others j hj), fun q hq => ?_, ?_⟩
  · have hne : q.addr ≠ r.addr := fun he => hq (he ▸ hr)
    rw [setReg_reg_ne _ _ _ _ hne, h.regs q hq]
  · exact regsCores_trans h.rest (regsCores_setReg ..)

/-! ### Flags and lanes with NaN (R99) -/

theorem vecFlags_addr (k : Nat) : (Reg.vecFlags (k / 32) (k % 32)).addr = coreBase (k / 32) (k % 32) + 0x5010 := rfl
theorem vecNanLanes_addr (k h : Nat) : (Reg.vecNanLanes (k / 32) (k % 32) h).addr = coreBase (k / 32) (k % 32) + 0x5020 + h * 8 := rfl

theorem inCtx_vecFlag (h : InCtx k x b c) (fl : Nat) : InCtx k { x with flags := x.flags ||| fl } b (c.vecFlag k fl) :=
  inCtx_setReg (inCtx_updCtx h fun x => { x with flags := x.flags ||| fl }) (mem_vecRegs.2 (.inl rfl))

theorem vecFlag_reg (b : Blk) (k fl : Nat) : (b.vecFlag k fl).reg (.vecFlags (k / 32) (k % 32)) =
    (b.reg (.vecFlags (k / 32) (k % 32)) ||| fl) % 2 ^ 64 := setReg_reg_same ..

theorem inCtx_nanLanes (h : InCtx k x b c) (ids : List Nat) : InCtx k x b (c.nanLanes k ids) := by
  unfold Blk.nanLanes
  dsimp only
  have h0 {v : Nat} : InCtx k x b (c.setReg (.vecNanLanes (k / 32) (k % 32) 0) v) := inCtx_setReg h (mem_vecRegs.2 (.inr (.inr (.inl rfl))))
  split
  · exact inCtx_setReg h0 (mem_vecRegs.2 (.inr (.inr (.inr (.inl rfl)))))
  · exact h0

theorem nanLanes_flags (b : Blk) (k : Nat) (ids : List Nat) :
    (b.nanLanes k ids).reg (.vecFlags (k / 32) (k % 32)) = b.reg (.vecFlags (k / 32) (k % 32)) := by
  have hne (h : Nat) : (Reg.vecFlags (k / 32) (k % 32)).addr ≠ (Reg.vecNanLanes (k / 32) (k % 32) h).addr := by
    rw [vecFlags_addr, vecNanLanes_addr]
    omega
  unfold Blk.nanLanes
  dsimp only
  split
  · rw [setReg_reg_ne _ _ _ _ (hne 1), setReg_reg_ne _ _ _ _ (hne 0)]
  · rw [setReg_reg_ne _ _ _ _ (hne 0)]

/-! ### Issue -/

theorem vecOps_addr (k : Nat) : (Reg.vecOps (k / 32) (k % 32)).addr = coreBase (k / 32) (k % 32) + 0x5018 := rfl

/-- A vector instruction that has had its effect is counted, costs a cycle, and occupies the engine for `occ` vector cycles. -/
def retired (k occ pc : Nat) (b : Blk) : Blk :=
  (((b.incBy (VEC_OPS.count (k / 32) (k % 32)) 1).spend k 1).jump k (pc + 1)).stall k 2 0 occ

theorem vecIssue_runs (i : Issue) {wf : Bool} (occ : Nat) (e : Nat → Blk → Blk) (b : Blk) (h : VecRuns i b) (hwf : wf = true) :
    vecIssue i wf occ e b =
      retired (coreKey i.core) occ (b.pc (coreKey i.core)) (e (coreKey i.core) (b.countIssue (coreKey i.core))) := by
  obtain ⟨⟨hissuing, hfetch⟩, hguard, -⟩ := h
  unfold vecIssue
  dsimp only
  rw [if_pos ⟨hissuing, hwf⟩, issue_runs _ _ _ _ hissuing hfetch hwf hguard]
  rfl

theorem regsCores_retired (k occ pc : Nat) (b : Blk) : RegsCores b (retired k occ pc b) :=
  regsCores_trans (regsCores_trans (regsCores_trans (regsCores_incBy ..) (regsCores_spend ..)) (regsCores_jump ..)) (regsCores_stall ..)

theorem retired_reg (occ pc : Nat) (b : Blk) {r : Reg} (hstatus : r.addr ≠ (Reg.seqStatus (k / 32) (k % 32)).addr)
    (hops : r.addr ≠ (Reg.vecOps (k / 32) (k % 32)).addr) (hstall : r.addr ≠ (Reg.seqStall (k / 32) (k % 32) 2 0).addr) :
    (retired k occ pc b).reg r = b.reg r := by
  rw [retired, stall_reg_ne _ _ _ _ _ _ hstall, jump_reg_ne _ _ _ _ hstatus, spend_reg, incBy_eq]
  exact wr_reg_ne _ _ _ _ hops

theorem spend_seqState (b : Blk) (k n j : Nat) : (b.spend k n).seqState j = b.seqState j := rfl

theorem countIssue_seqState (b : Blk) (k : Nat) : (b.countIssue k).seqState k = b.seqState k := by
  simp only [Blk.seqState, Blk.rd, SEQ_STATUS.state, countIssue_status]

theorem retired_slot (k occ pc : Nat) (b : Blk) : (retired k occ pc b).slot k = b.slot k := by
  have hops : (SEQ_STATUS.ctx (k / 32) (k % 32)).reg.addr ≠ (VEC_OPS.count (k / 32) (k % 32)).reg.addr :=
    coreReg_ne (seqStatus_addr ..) (vecOps_addr k) (by decide)
  rw [retired, stall_slot, jump_slot, spend_slot, incBy_eq]
  exact wr_rd_ne _ _ _ _ hops

theorem retired_core (k occ pc : Nat) (b : Blk) : (retired k occ pc b).core k = { b.core k with
    cyc := (b.core k).cyc + 1, loops := (closeAt 16 (b.core k).loops (b.core k).brs (pc + 1)).1,
    brs := (closeAt 16 (b.core k).loops (b.core k).brs (pc + 1)).2.1 } := by
  rw [retired, stall_core, jump_core, spend_core, incBy_eq, wr_core]

theorem retired_core_ne (occ pc : Nat) (b : Blk) {j : Nat} (hj : j ≠ k) : (retired k occ pc b).core j = b.core j := by
  rw [retired, stall_core, jump_core_ne _ _ _ _ hj, spend_core_ne _ _ _ _ hj, incBy_eq, wr_core]

theorem retired_ctx (k occ pc : Nat) (b : Blk) : (retired k occ pc b).ctx k = b.ctx k := by
  rw [Blk.ctx, retired_slot, retired_core]
  rfl

/-- A vector instruction that turns the active context into `x` has issued with that effect. -/
theorem retired_issued (occ : Nat) (h : InCtx k x (b.countIssue k) c) :
    Issued k 1 (vecRegs k) (fun y => y.updCtx (b.slot k) fun _ => x) b (retired k occ (b.pc k) c) := by
  have hcore : c.core k = (b.core k).updCtx (b.slot k) fun _ => x := by rw [h.core, countIssue_core, countIssue_slot]
  have hissued : (retired k occ (b.pc k) c).reg (.seqIssued (k / 32) (k % 32)) = (b.countIssue k).reg (.seqIssued (k / 32) (k % 32)) := by
    rw [retired_reg _ _ _ (seqStatus_ne_seqIssued k).symm (coreReg_ne (seqIssued_addr ..) (vecOps_addr k) (by decide))
      (coreReg_ne (seqIssued_addr ..) (seqStall_vec_addr k) (by decide))]
    exact h.regs _ (notMem_vecRegs k 0x48 (by decide))
  have hstate : (retired k occ (b.pc k) c).seqState k = b.seqState k := by
    have hops : (SEQ_STATUS.state (k / 32) (k % 32)).reg.addr ≠ (VEC_OPS.count (k / 32) (k % 32)).reg.addr :=
      coreReg_ne (seqStatus_addr ..) (vecOps_addr k) (by decide)
    have hkeep : c.seqState k = (b.countIssue k).seqState k :=
      regsKeep_rd h.regs (SEQ_STATUS.state (k / 32) (k % 32)) (notMem_vecRegs k 0x8 (by decide))
    have hcount : (c.incBy (VEC_OPS.count (k / 32) (k % 32)) 1).seqState k = c.seqState k := wr_rd_ne _ _ _ _ hops
    rw [retired, stall_seqState, jump_seqState, spend_seqState, hcount, hkeep, countIssue_seqState]
  refine ⟨⟨?_, ?_, fun j hj => ?_, fun r hr => ?_, ?_⟩, ?_, hstate⟩
  · rw [retired_core, hcore, updCtx_cyc, updCtx_loops, updCtx_brs]
  · rw [Counted, Blk.rd, SEQ_ISSUED.count, hissued]
    exact countIssue_counted b k
  · rw [retired_core_ne _ _ _ hj, h.others j hj, countIssue_core]
  · simp only [List.map_append, List.map_cons, List.map_nil, List.mem_append, List.mem_cons, List.not_mem_nil, or_false, not_or] at hr
    obtain ⟨⟨hstatus, hissue, hstall⟩, hvec⟩ := hr
    have hops : r.addr ≠ (Reg.vecOps (k / 32) (k % 32)).addr := fun he => hvec (mem_vecRegs.2 (.inr (.inl he)))
    have hstall' : r.addr ≠ (Reg.seqStall (k / 32) (k % 32) 2 0).addr := fun he =>
      hvec (mem_vecRegs.2 (.inr (.inr (.inr (.inr (he.trans (seqStall_vec_addr k)))))))
    rw [retired_reg _ _ _ hstatus hops hstall', h.regs r hvec, countIssue_reg_ne _ _ _ hstall hissue]
  · exact regsCores_frame (regsCores_trans (regsCores_trans (regsCores_countIssue b k) h.rest) (regsCores_retired ..))
  · rw [retired, stall_pc, jump_pc, spend_core, incBy_eq, wr_core, hcore, updCtx_loops, updCtx_brs]

/-- A vector instruction that fills its destination and raises flags has written what `Wrote` asks. -/
theorem retired_wrote {i : Issue} {o : VOp} {wide : Bool} {act : Ctx → Nat → Bool} {val : Ctx → Nat → Nat} {fl : Ctx → Nat}
    (occ : Nat) (hk : coreKey i.core = k) (hin : InCtx k { x with flags := x.flags ||| fl (b.ctx k) } (b.countIssue k) c)
    (hlanes : Lanes k o wide (act (b.ctx k)) (val (b.ctx k)) (b.ctx k) x)
    (hflags : c.reg (.vecFlags (k / 32) (k % 32)) = (b.reg (.vecFlags (k / 32) (k % 32)) ||| fl (b.ctx k)) % 2 ^ 64) :
    Wrote i o wide act val fl b (retired k occ (b.pc k) c) := by
  subst hk
  have hctx : (retired (coreKey i.core) occ (b.pc (coreKey i.core)) c).ctx (coreKey i.core) =
      { x with flags := x.flags ||| fl (b.ctx (coreKey i.core)) } := by rw [retired_ctx, inCtx_ctx hin]
  have hx := hlanes.rest
  unfold Wrote
  dsimp only
  rw [hctx]
  refine ⟨retired_issued occ hin, hlanes.active, hlanes.inactive, hlanes.others, ?_, ?_, ?_⟩
  · rw [hx]
  · rw [retired_reg _ _ _ (coreReg_ne (vecFlags_addr _) (seqStatus_addr ..) (by decide))
      (coreReg_ne (vecFlags_addr _) (vecOps_addr _) (by decide)) (coreReg_ne (vecFlags_addr _) (seqStall_vec_addr _) (by decide)), hflags]
  · rw [hx]

/-! ### An instruction that computes each active element -/

theorem mem_activeIds {c : Ctx} {o : VOp} {l : Nat} : l ∈ c.activeIds o ↔ c.active o l = true := by
  simp only [Ctx.activeIds, List.mem_filter, List.mem_range, and_iff_right_iff_imp]
  intro h
  simp only [Ctx.active, Bool.and_eq_true, decide_eq_true_eq] at h
  exact h.1

theorem find_tagged {α : Type} (f : Nat → α) {l : List Nat} {n : Nat} (h : n ∈ l) :
    (l.map fun i => (i, f i)).find? (fun p => p.1 = n) = some (n, f n) := by
  induction l with
  | nil => exact absurd h List.not_mem_nil
  | cons a l ih =>
    rw [List.map_cons, List.find?_cons]
    by_cases ha : a = n
    · simp [ha]
    · simpa [ha] using ih ((List.mem_cons.1 h).resolve_left (Ne.symm ha))

theorem residue_none (b : Blk) (k engine : Nat) (h : NoInj b) : b.residue k engine = (false, b) := by
  unfold Blk.residue
  dsimp only
  rw [fire_none _ _ _ h]

/-- Only the results of active elements matter. -/
theorem lanewise_congr {o : VOp} {wide : Bool} {nan : Nat → Bool} {res res' : Ctx → Nat → LaneRes} {k : Nat} {b : Blk}
    (h : ∀ l, (b.ctx k).active o l = true → res (b.ctx k) l = res' (b.ctx k) l) :
    lanewise o wide nan res k b = lanewise o wide nan res' k b := by
  have hmap : (((b.ctx k).activeIds o).map fun l => (l, res (b.ctx k) l)) = ((b.ctx k).activeIds o).map fun l => (l, res' (b.ctx k) l) :=
    List.map_congr_left fun l hl => by rw [h l (mem_activeIds.1 hl)]
  unfold lanewise
  dsimp only
  rw [hmap]

/-- The flags that the active elements raise together. -/
def raisedBy (o : VOp) (res : Ctx → Nat → LaneRes) (c : Ctx) : Nat := (c.activeIds o).foldl (fun f l => f ||| (res c l).flags) 0

theorem lanewise_fills (o : VOp) (wide : Bool) (nan : Nat → Bool) (res : Ctx → Nat → LaneRes) (k : Nat) (b : Blk) (hinj : NoInj b) :
    (∃ x, InCtx k { x with flags := x.flags ||| raisedBy o res (b.ctx k) } b (lanewise o wide nan res k b)
        ∧ Lanes k o wide ((b.ctx k).active o) (fun l => (res (b.ctx k) l).val) (b.ctx k) x)
      ∧ (lanewise o wide nan res k b).reg (.vecFlags (k / 32) (k % 32)) =
          (b.reg (.vecFlags (k / 32) (k % 32)) ||| raisedBy o res (b.ctx k)) % 2 ^ 64 := by
  have hact : (fun l => ((b.ctx k).activeIds o).contains l) = (b.ctx k).active o := by
    funext l
    rw [Bool.eq_iff_iff, List.contains_iff_mem, mem_activeIds]
  have hflags : (((b.ctx k).activeIds o).map fun l => (l, res (b.ctx k) l)).foldl (fun f p => f ||| p.2.flags) 0
      = raisedBy o res (b.ctx k) := List.foldl_map
  unfold lanewise
  dsimp only
  rw [residue_none _ _ _ hinj, hflags, hact]
  refine ⟨⟨_, inCtx_nanLanes (inCtx_vecFlag (inCtx_updCtx (inCtx_refl k b) _) _) _, ?_⟩, ?_⟩
  · refine lanes_congr (writeLanes_lanes ..) fun l hl => ?_
    dsimp only
    rw [find_tagged (res (b.ctx k)) (mem_activeIds.2 hl)]
    rfl
  · rw [nanLanes_flags, vecFlag_reg, updCtx_reg]

theorem countIssue_ras (b : Blk) (k : Nat) : (b.countIssue k).ras = b.ras := by rw [countIssue_eq]

theorem countIssue_vecFlags (b : Blk) (k : Nat) :
    (b.countIssue k).reg (.vecFlags (k / 32) (k % 32)) = b.reg (.vecFlags (k / 32) (k % 32)) :=
  countIssue_reg_ne _ _ _ (coreReg_ne (y := 0x1000) (vecFlags_addr k) (by rw [seqStall_addr]) (by decide))
    (coreReg_ne (vecFlags_addr k) (seqIssued_addr ..) (by decide))

/-- An instruction that computes each active element has written what `Wrote` asks. -/
theorem lanewise_wrote (i : Issue) (o : VOp) (wide : Bool) (nan : Nat → Bool) (res : Ctx → Nat → LaneRes) (occ : Nat) (b : Blk)
    (hinj : NoInj b) :
    let k := coreKey i.core
    Wrote i o wide (fun c l => c.active o l) (fun c l => (res c l).val) (raisedBy o res) b
      (retired k occ (b.pc k) (lanewise o wide nan res k (b.countIssue k))) := by
  intro k
  obtain ⟨⟨x, hin, hlanes⟩, hflags⟩ := lanewise_fills o wide nan res k (b.countIssue k) (by rw [NoInj, countIssue_ras]; exact hinj)
  rw [countIssue_ctx] at hin hlanes hflags
  rw [countIssue_vecFlags] at hflags
  exact retired_wrote occ rfl hin hlanes hflags

end Sys2Proof.Proofs
end

section
/-!
PROOFS. Memory as a string of bits (R5, R58, R288 to R290): a block whose words hold no error gives fetched elements as they are stored, and
elements that are written come to stand at their places.
-/
namespace Sys2Proof.Proofs
open Sys2Proof Sys2Proof.Machine Sys2Proof.Says

/-! ### Bits of bytes and words -/

/-- Bit `m` of memory, counted from bit 0 of the byte at place 0. -/
def bitAt (b : Blk) (m : Nat) : Bool := (b.byte (m / 8)).toNat.testBit (m % 8)

theorem byte_ext {x y : Byte} (h : ∀ t, t < 8 → x.toNat.testBit t = y.toNat.testBit t) : x = y :=
  BitVec.eq_of_getLsbD_eq fun t ht => h t ht

theorem bitAt_byte (b : Blk) {a t : Nat} (ht : t < 8) : bitAt b (8 * a + t) = (b.byte a).toNat.testBit t := by
  rw [bitAt, show (8 * a + t) / 8 = a by omega, show (8 * a + t) % 8 = t by omega]

theorem testBit_ofLeBytes (l : List Byte) (n : Nat) : (ofLeBytes l).testBit n = (l.getD (n / 8) 0).toNat.testBit (n % 8) := by
  induction l generalizing n with
  | nil => simp [ofLeBytes]
  | cons v l ih =>
    rw [ofLeBytes, Nat.add_comm, show (256 : Nat) = 2 ^ 8 from rfl, Nat.testBit_two_pow_mul_add _ v.isLt]
    by_cases hn : n < 8
    · rw [if_pos hn, Nat.div_eq_of_lt hn, Nat.mod_eq_of_lt hn, List.getD_cons_zero]
    · rw [if_neg hn, ih, show n / 8 = (n - 8) / 8 + 1 by omega, show n % 8 = (n - 8) % 8 by omega, List.getD_cons_succ]

theorem bytes_getD (b : Blk) (key n i : Nat) (hi : i < n) : (b.bytes key n).getD i 0 = b.byte (key + i) := by
  induction n generalizing key i with
  | zero => omega
  | succ n ih =>
    cases i with
    | zero => rfl
    | succ i => exact (ih (key + 1) i (by omega)).trans (by rw [show key + 1 + i = key + (i + 1) by omega])

theorem testBit_rawWord (b : Blk) (key n : Nat) (hn : n < 256) :
    (b.rawWord key).1.toNat.testBit n = bitAt b (256 * (key / 32) + n) := by
  unfold Blk.rawWord
  dsimp only
  rw [BitVec.toNat_ofNat, Nat.testBit_mod_two_pow, testBit_ofLeBytes, bytes_getD _ _ _ _ (by omega), bitAt,
    show (256 * (key / 32) + n) / 8 = key / 32 * 32 + n / 8 by omega, show (256 * (key / 32) + n) % 8 = n % 8 by omega]
  simp [hn]

theorem bitAt_setRawWord (b : Blk) (key : Nat) (d : Word) (e : BitVec 32) (m : Nat) :
    bitAt (b.setRawWord key d e) m = if m / 256 = key / 32 then d.toNat.testBit (m % 256) else bitAt b m := by
  have hbyte : (b.setRawWord key d e).byte (m / 8) = (b.setBytes (key / 32 * 32) (leBytes 32 d.toNat)).byte (m / 8) := rfl
  rw [bitAt, hbyte, setBytes_byte, leBytes_length]
  by_cases hm : m / 256 = key / 32
  · have hbits := testBit_ofLeBytes (leBytes 32 d.toNat) (m % 256)
    rw [ofLe_leBytes, Nat.mod_eq_of_lt d.isLt] at hbits
    rw [if_pos hm, if_pos (by omega), hbits, show m % 256 / 8 = m / 8 - key / 32 * 32 by omega, show m % 256 % 8 = m % 8 by omega]
  · rw [if_neg hm, if_neg (by omega), bitAt]

theorem testBit_elemBits (byte : Nat → Byte) (w i t : Nat) :
    (elemBits byte w i).testBit t = (decide (t < w) && (byte ((w * i + t) / 8)).toNat.testBit ((w * i + t) % 8)) := by
  unfold elemBits
  dsimp only
  rw [testBit_bits]
  by_cases ht : t < w
  · rw [testBit_ofLeBytes, List.getD_eq_getElem?_getD, List.getElem?_map, List.getElem?_range (by unfold cdiv; omega)]
    simp only [ht, decide_true, Bool.true_and, Option.map_some, Option.getD_some]
    rw [show w * i / 8 + (w * i % 8 + t) / 8 = (w * i + t) / 8 by omega, show (w * i % 8 + t) % 8 = (w * i + t) % 8 by omega]
  · simp [ht]

/-! ### Reading words without errors (R289) -/

theorem rawWord_clean (b : Blk) (key : Nat) (h : Clean b) : (b.rawWord key).2 = 0 := by
  unfold Blk.rawWord
  rw [h.1]
  rfl

theorem rawWord_word (b : Blk) (key : Nat) : b.rawWord (key / 32 * 32) = b.rawWord key := by
  unfold Blk.rawWord
  rw [show key / 32 * 32 / 32 * 32 = key / 32 * 32 by omega]

theorem checked_clean (d : Word) : checked d 0 = ⟨d, false⟩ := rfl

theorem readWord_clean (b : Blk) (key : Nat) (h : Clean b) : b.readWord key = ⟨(b.rawWord key).1, false⟩ := by
  obtain ⟨herr, hdead, hinj⟩ := h
  unfold Blk.readWord
  dsimp only
  rw [rawWord_clean b key ⟨herr, hdead, hinj⟩, hdead, if_neg (by simp), checked_clean]

theorem fetchWord_clean (b : Blk) (key : Nat) (h : Clean b) : b.fetchWord key = (⟨(b.rawWord key).1, false⟩, b) := by
  obtain ⟨herr, hdead, hinj⟩ := h
  unfold Blk.fetchWord
  dsimp only
  rw [rawWord_clean b _ ⟨herr, hdead, hinj⟩, rawWord_word, hdead, if_neg (by simp), if_pos (.inl rfl), checked_clean]

/-- A descriptor word or another word at a device address is read as it is stored. -/
theorem readDev_clean (b : Blk) {a key : Nat} (die unit : Nat) (h : Clean b) (hplace : b.place a = some key) :
    b.readDev a 1 die unit = ([⟨(b.rawWord key).1, false⟩], b) := by
  have hrun : b.placeRun a 1 = some key := by simp [Blk.placeRun, hplace]
  rw [Blk.readDev, hrun]
  simp [Blk.fetchWords, fetchWord_clean b key h]

/-! ### Fetching fields -/

/-- The words fetched so far: those of the list, with their stored data. -/
structure Fetched (b : Blk) (key : Nat) (ids : List Nat) (s : Sp MWord × Blk) : Prop where
  blk : s.2 = b
  word : ∀ w, w ∈ ids → Sp.get ⟨0, true⟩ s.1 w = ⟨(b.rawWord (key + 32 * w)).1, false⟩
  clean : ∀ e, e ∈ s.1 → e.2.poison = false

theorem mem_set {α : Type} [DecidableEq α] (d : α) (m : Sp α) (k : Nat) (v : α) (e : Nat × α) (h : e ∈ Sp.set d m k v) :
    e = (k, v) ∨ e ∈ m := by
  unfold Sp.set at h
  split at h
  · exact .inr (List.mem_of_mem_filter h)
  · exact (Sp.mem_ins _ _ _ _ h).imp id List.mem_of_mem_filter

theorem fetched_next {b : Blk} {key w : Nat} {ids : List Nat} {s : Sp MWord × Blk} (hclean : Clean b) (h : Fetched b key ids s) :
    Fetched b key (ids ++ [w]) (Sp.set ⟨0, true⟩ s.1 w (s.2.fetchWord (key + 32 * w)).1, (s.2.fetchWord (key + 32 * w)).2) := by
  obtain ⟨hblk, hword, hpoison⟩ := h
  rw [hblk, fetchWord_clean b _ hclean]
  refine ⟨rfl, fun v hv => ?_, fun e he => ?_⟩
  · by_cases hvw : v = w
    · rw [hvw, Sp.get_set_same]
    · rw [Sp.get_set_ne _ _ _ _ _ hvw, hword v (by simpa [hvw] using hv)]
  · dsimp only at he
    rcases mem_set _ _ _ _ _ he with hnew | hold
    · rw [hnew]
    · exact hpoison e hold

theorem fetchSet_fetched (b : Blk) (key : Nat) (ids : List Nat) (hclean : Clean b) : Fetched b key ids (b.fetchSet key ids) := by
  have hall : ∀ (done : List Nat) (s : Sp MWord × Blk), Fetched b key done s → Fetched b key (done ++ ids) (ids.foldl (fun s w =>
      (Sp.set ⟨0, true⟩ s.1 w (s.2.fetchWord (key + 32 * w)).1, (s.2.fetchWord (key + 32 * w)).2)) s) := by
    induction ids with
    | nil => intro done s hs; rwa [List.append_nil]
    | cons w ids ih =>
      intro done s hs
      have hnext := ih (done ++ [w]) _ (fetched_next hclean hs)
      rwa [List.append_assoc] at hnext
  have hnone : Fetched b key [] ([], b) := ⟨rfl, fun _ h => absurd h List.not_mem_nil, fun _ h => absurd h List.not_mem_nil⟩
  have h := hall [] ([], b) hnone
  unfold Blk.fetchSet
  exact h

theorem fetchSet_blk (b : Blk) (key : Nat) (ids : List Nat) (hclean : Clean b) : (b.fetchSet key ids).2 = b :=
  (fetchSet_fetched b key ids hclean).blk

theorem fetchSet_unpoisoned (b : Blk) (key : Nat) (ids : List Nat) (hclean : Clean b) :
    (b.fetchSet key ids).1.filter (·.2.poison) = [] :=
  List.filter_eq_nil_iff.2 fun e he => by rw [(fetchSet_fetched b key ids hclean).clean e he]; simp

theorem mem_addNew {α : Type} [DecidableEq α] {l : List α} {x y : α} : y ∈ addNew l x ↔ y ∈ l ∨ y = x := by
  unfold addNew
  split
  · rename_i h
    have hx : x ∈ l := by simpa using h
    exact ⟨.inl, fun hy => hy.elim id fun he => he ▸ hx⟩
  · simp

theorem mem_foldl_addNew {α : Type} [DecidableEq α] (l m : List α) (y : α) : y ∈ m.foldl addNew l ↔ y ∈ l ∨ y ∈ m := by
  induction m generalizing l with
  | nil => simp
  | cons x m ih => rw [List.foldl_cons, ih, mem_addNew, List.mem_cons, or_assoc]

theorem mem_coverWords {fs : List (Nat × Nat)} {f : Nat × Nat} {w : Nat} (hf : f ∈ fs) (hw : w ∈ wordsOf f.1 f.2) :
    w ∈ coverWords fs := by
  suffices hall : ∀ l, (f ∈ fs ∨ w ∈ l) → w ∈ fs.foldl (fun l f => (wordsOf f.1 f.2).foldl addNew l) l from hall [] (.inl hf)
  clear hf
  induction fs with
  | nil => intro l h; exact h.resolve_left List.not_mem_nil
  | cons g fs ih =>
    intro l h
    rw [List.foldl_cons]
    refine ih _ ?_
    rcases h with h | h
    · rcases List.mem_cons.1 h with rfl | h
      · exact .inr ((mem_foldl_addNew ..).2 (.inr hw))
      · exact .inl h
    · exact .inr ((mem_foldl_addNew ..).2 (.inl h))

/-! ### A field out of fetched words -/

theorem testBit_foldr_words (ws : List MWord) (n : Nat) :
    (ws.foldr (fun (w : MWord) a => w.data.toNat + a * 2 ^ 256) 0).testBit n = (ws.getD (n / 256) ⟨0, false⟩).data.toNat.testBit (n % 256) := by
  induction ws generalizing n with
  | nil => simp
  | cons w ws ih =>
    rw [List.foldr_cons, Nat.add_comm, Nat.mul_comm, Nat.testBit_two_pow_mul_add _ w.data.isLt]
    by_cases hn : n < 256
    · rw [if_pos hn, Nat.div_eq_of_lt hn, Nat.mod_eq_of_lt hn, List.getD_cons_zero]
    · rw [if_neg hn, ih, show n / 256 = (n - 256) / 256 + 1 by omega, show n % 256 = (n - 256) % 256 by omega, List.getD_cons_succ]

theorem wordsOf_getD (lo n t : Nat) (d : MWord) (f : Nat → MWord) (ht : t < n) :
    (((wordsOf lo n).map f).getD ((lo % 256 + t) / 256) d) = f ((lo + t) / 256) := by
  unfold wordsOf
  rw [if_neg (by omega), List.map_map, List.getD_eq_getElem?_getD, List.getElem?_map, List.getElem?_range (by omega)]
  simp only [Option.map_some, Option.getD_some, Function.comp]
  rw [show (lo % 256 + t) / 256 + lo / 256 = (lo + t) / 256 by omega]

/-- A fetched field holds the bits of memory at its place, and is not poisoned. -/
theorem takeBits_fetched (b : Blk) {key : Nat} {fs : List (Nat × Nat)} {lo n : Nat} (hclean : Clean b) (hkey : key % 32 = 0)
    (hf : (lo, n) ∈ fs) {x : Nat} (hx : ∀ t, x.testBit t = (decide (t < n) && bitAt b (8 * key + lo + t))) :
    takeBits (b.fetchSet key (coverWords fs)).1 lo n = (x, false) := by
  have hfetched := fetchSet_fetched b key (coverWords fs) hclean
  have hwords : (wordsOf lo n).map (fun w => Sp.get ⟨0, true⟩ (b.fetchSet key (coverWords fs)).1 w) =
      (wordsOf lo n).map fun w => ⟨(b.rawWord (key + 32 * w)).1, false⟩ :=
    List.map_congr_left fun w hw => hfetched.word w (mem_coverWords hf hw)
  unfold takeBits
  dsimp only
  rw [hwords]
  refine Prod.ext (Nat.eq_of_testBit_eq fun t => ?_) (by simp)
  dsimp only
  rw [testBit_bits, hx, testBit_foldr_words]
  by_cases ht : t < n
  · rw [wordsOf_getD _ _ _ _ _ ht]
    dsimp only
    rw [testBit_rawWord _ _ _ (Nat.mod_lt _ (by decide))]
    congr 2
    omega
  · simp [ht]

/-- An element of an array at place `e`. -/
theorem takeBits_elem (b : Blk) (e w i : Nat) {fs : List (Nat × Nat)} (hclean : Clean b) (hf : (8 * (e % 32) + w * i, w) ∈ fs) :
    takeBits (b.fetchSet (e / 32 * 32) (coverWords fs)).1 (8 * (e % 32) + w * i) w =
      (elemBits (fun j => b.byte (e + j)) w i, false) := by
  refine takeBits_fetched b hclean (by omega) hf fun t => ?_
  rw [testBit_elemBits, bitAt, show (8 * (e / 32 * 32) + (8 * (e % 32) + w * i) + t) / 8 = e + (w * i + t) / 8 by omega,
    show (8 * (e / 32 * 32) + (8 * (e % 32) + w * i) + t) % 8 = (w * i + t) % 8 by omega]

/-! ### Writing a field (R58) -/

/-- Nothing but bytes of memory has changed. -/
def MemOnly (b c : Blk) : Prop := c = { b with mem := c.mem }

theorem memOnly_trans {b c d : Blk} (hbc : MemOnly b c) (hcd : MemOnly c d) : MemOnly b d := by
  unfold MemOnly at *
  rw [hcd, hbc]

theorem memOnly_clean {b c : Blk} (h : MemOnly b c) (hclean : Clean b) : Clean c := by
  unfold MemOnly at h
  rw [h]
  exact hclean

theorem memOnly_setRawWord (b : Blk) (key : Nat) (d : Word) (hclean : Clean b) : MemOnly b (b.setRawWord key d 0) := by
  have herr : (b.setRawWord key d 0).err = b.err := by
    show Sp.set 0 (b.setBytes (key / 32 * 32) (leBytes 32 d.toNat)).err (key / 32 * 32) 0 = b.err
    rw [setBytes_eq]
    show Sp.set 0 b.err (key / 32 * 32) 0 = b.err
    rw [hclean.1]
    rfl
  unfold MemOnly
  rw [setRawWord_eq, herr]

/-- Of the field of `n` bits from bit `s` of memory, those in words below `z` hold `v`. -/
structure FieldDone (s n v z : Nat) (b c : Blk) : Prop where
  frame : MemOnly b c
  bits : ∀ m, bitAt c m = if s ≤ m ∧ m < s + n ∧ m / 256 < z then v.testBit (m - s) else bitAt b m

/-- The part of a field in word `w`, counted from `key`, is replaced. -/
theorem fieldDone_word {b c : Blk} {key lo n v w : Nat} (hclean : Clean b) (hkey : key % 32 = 0)
    (h : FieldDone (8 * key + lo) n v (key / 32 + w) b c) :
    FieldDone (8 * key + lo) n v (key / 32 + w + 1) b
      (c.writeWord (key + 32 * w) ⟨BitVec.ofNat 256 (setBits (c.readWord (key + 32 * w)).data.toNat (max lo (256 * w) - 256 * w)
        (min (lo + n) (256 * w + 256) - max lo (256 * w)) (v >>> (max lo (256 * w) - lo))),
        false || ((c.readWord (key + 32 * w)).poison && decide (min (lo + n) (256 * w + 256) - max lo (256 * w) < 256))⟩) := by
  have hc := memOnly_clean h.frame hclean
  rw [readWord_clean c _ hc, writeWord_plain _ _ _ hc.2.2]
  dsimp only [Bool.false_and, Bool.false_or, poisonErr]
  refine ⟨memOnly_trans h.frame (memOnly_setRawWord c _ _ hc), fun m => ?_⟩
  rw [if_neg (by simp), bitAt_setRawWord, show (key + 32 * w) / 32 = key / 32 + w by omega]
  by_cases hm : m / 256 = key / 32 + w
  · have hold : bitAt c m = bitAt b m := by rw [h.bits, if_neg (by omega)]
    have hraw : (c.rawWord (key + 32 * w)).1.toNat.testBit (m % 256) = bitAt b m := by
      rw [testBit_rawWord _ _ _ (by omega), show 256 * ((key + 32 * w) / 32) + m % 256 = m by omega, hold]
    rw [if_pos hm, BitVec.toNat_ofNat, Nat.testBit_mod_two_pow, testBit_setBits, hraw, Nat.testBit_shiftRight]
    simp only [show m % 256 < 256 by omega, decide_true, Bool.true_and]
    by_cases hin : 8 * key + lo ≤ m ∧ m < 8 * key + lo + n
    · rw [if_neg (by omega), if_pos (by omega), if_pos (by omega)]
      congr 1
      omega
    · have hout : (if 8 * key + lo ≤ m ∧ m < 8 * key + lo + n ∧ m / 256 < key / 32 + w + 1 then v.testBit (m - (8 * key + lo))
          else bitAt b m) = bitAt b m := if_neg fun hall => hin ⟨hall.1, hall.2.1⟩
      rw [hout]
      split
      · rfl
      · exact if_neg (by omega)
  · rw [if_neg hm, h.bits]
    exact if_congr (by omega) rfl rfl

/-- A field written without poison holds its value, and every other bit of memory is as before. -/
theorem writeBits_done (b : Blk) (key lo n v : Nat) (hclean : Clean b) :
    MemOnly b (b.writeBits key lo n v false)
      ∧ ∀ m, bitAt (b.writeBits key lo n v false) m =
          if 8 * key + lo ≤ m ∧ m < 8 * key + lo + n then v.testBit (m - (8 * key + lo)) else bitAt b m := by
  unfold Blk.writeBits
  by_cases hn : n = 0
  · rw [if_pos hn]
    exact ⟨rfl, fun m => (if_neg (by omega)).symm⟩
  · rw [if_neg hn]
    dsimp only
    have hdone := foldl_range_inv (fun (c : Blk) q =>
      let w := (lo + 8 * (key % 32)) / 256 + q
      let a := max (lo + 8 * (key % 32)) (256 * w)
      let z := min (lo + 8 * (key % 32) + n) (256 * w + 256)
      let old := c.readWord (key / 32 * 32 + 32 * w)
      c.writeWord (key / 32 * 32 + 32 * w) ⟨BitVec.ofNat 256 (setBits old.data.toNat (a - 256 * w) (z - a)
        (v >>> (a - (lo + 8 * (key % 32))))), false || (old.poison && decide (z - a < 256))⟩)
      (fun t c => FieldDone (8 * (key / 32 * 32) + (lo + 8 * (key % 32))) n v
        (key / 32 * 32 / 32 + ((lo + 8 * (key % 32)) / 256 + t)) b c) b
      ((lo + 8 * (key % 32) + n - 1) / 256 + 1 - (lo + 8 * (key % 32)) / 256)
      ⟨rfl, fun m => (if_neg (by omega)).symm⟩ fun t c _ hc => fieldDone_word hclean (by omega) hc
    refine ⟨hdone.frame, fun m => (hdone.bits m).trans ?_⟩
    rw [show 8 * (key / 32 * 32) + (lo + 8 * (key % 32)) = 8 * key + lo by omega]
    exact if_congr (by omega) rfl rfl

/-- A field of the string at a place is a field of the string at the word that holds the place. -/
theorem writeBits_word (b : Blk) (key lo n v : Nat) (p : Bool) :
    b.writeBits (key / 32 * 32) (8 * (key % 32) + lo) n v p = b.writeBits key lo n v p := by
  unfold Blk.writeBits
  rw [show key / 32 * 32 % 32 = 0 by omega, show key / 32 * 32 / 32 * 32 = key / 32 * 32 by omega, Nat.mul_zero, Nat.add_zero,
    Nat.add_comm lo]

/-! ### Writing elements -/

/-- Elements of `w` bytes, each with its index, are written to the array at place `key`. -/
def storeElems (key w : Nat) (es : List (Nat × Nat)) (b : Blk) : Blk :=
  es.foldl (fun b e => b.writeBits key (8 * w * e.1) (8 * w) e.2 false) b

theorem memOnly_storeElems (key w : Nat) (es : List (Nat × Nat)) (b : Blk) (hclean : Clean b) : MemOnly b (storeElems key w es b) := by
  unfold storeElems
  refine foldl_inv _ (MemOnly b) es b rfl fun c e _ hc => ?_
  exact memOnly_trans hc (writeBits_done c _ _ _ _ (memOnly_clean hc hclean)).1

theorem storeElems_cons (key w : Nat) (e : Nat × Nat) (es : List (Nat × Nat)) (b : Blk) :
    storeElems key w (e :: es) b = storeElems key w es (b.writeBits key (8 * w * e.1) (8 * w) e.2 false) := rfl

/-- A byte of one element. -/
theorem writeElem_byte (b : Blk) (key w : Nat) (e : Nat × Nat) {j : Nat} (hclean : Clean b) (hj : j < w) :
    (b.writeBits key (8 * w * e.1) (8 * w) e.2 false).byte (key + w * e.1 + j) = BitVec.ofNat 8 (e.2 / 2 ^ (8 * j)) := by
  refine byte_ext fun t ht => ?_
  rw [← bitAt_byte _ ht, (writeBits_done b _ _ _ _ hclean).2, Nat.mul_assoc, if_pos (by omega), BitVec.toNat_ofNat,
    Nat.testBit_mod_two_pow, Nat.testBit_div_two_pow]
  simp only [ht, decide_true, Bool.true_and]
  congr 1
  omega

theorem writeElem_byte_out (b : Blk) (key w : Nat) (e : Nat × Nat) {a : Nat} (hclean : Clean b)
    (ha : a < key + w * e.1 ∨ key + w * e.1 + w ≤ a) : (b.writeBits key (8 * w * e.1) (8 * w) e.2 false).byte a = b.byte a := by
  refine byte_ext fun t ht => ?_
  rw [← bitAt_byte _ ht, (writeBits_done b _ _ _ _ hclean).2, Nat.mul_assoc, if_neg (by omega), bitAt_byte _ ht]

/-- Bytes outside the elements keep what they hold. -/
theorem storeElems_byte_out (key w : Nat) (es : List (Nat × Nat)) (b : Blk) {a : Nat} (hclean : Clean b)
    (ha : ∀ e ∈ es, a < key + w * e.1 ∨ key + w * e.1 + w ≤ a) : (storeElems key w es b).byte a = b.byte a := by
  induction es generalizing b with
  | nil => rfl
  | cons e es ih =>
    rw [storeElems_cons, ih _ (memOnly_clean (writeBits_done b _ _ _ _ hclean).1 hclean) fun d hd => ha d (List.mem_cons_of_mem _ hd),
      writeElem_byte_out _ _ _ _ hclean (ha e (List.mem_cons_self ..))]

/-- Elements at different indices do not overlap. -/
theorem elem_apart (key : Nat) {w i k j : Nat} (hj : j < w) (h : i ≠ k) :
    key + w * i + j < key + w * k ∨ key + w * k + w ≤ key + w * i + j := by
  rcases Nat.lt_or_gt_of_ne h with h | h
  · have := Nat.mul_le_mul_left w h
    rw [Nat.mul_succ] at this
    omega
  · have := Nat.mul_le_mul_left w h
    rw [Nat.mul_succ] at this
    omega

/-- Each element's bytes are those of its value. -/
theorem storeElems_byte (key w : Nat) (es : List (Nat × Nat)) (b : Blk) {e : Nat × Nat} {j : Nat} (hclean : Clean b)
    (hdiff : (es.map Prod.fst).Nodup) (he : e ∈ es) (hj : j < w) :
    (storeElems key w es b).byte (key + w * e.1 + j) = BitVec.ofNat 8 (e.2 / 2 ^ (8 * j)) := by
  induction es generalizing b with
  | nil => exact absurd he List.not_mem_nil
  | cons d es ih =>
    obtain ⟨hnot, hdiff⟩ := List.nodup_cons.1 (List.map_cons ▸ hdiff)
    have hclean' := memOnly_clean (writeBits_done b key (8 * w * d.1) (8 * w) d.2 hclean).1 hclean
    rw [storeElems_cons]
    rcases List.mem_cons.1 he with rfl | he
    · rw [storeElems_byte_out _ _ _ _ hclean' fun f hf => elem_apart key hj fun heq => hnot (by rw [heq]; exact List.mem_map_of_mem hf),
        writeElem_byte _ _ _ _ hclean hj]
    · exact ih _ hclean' hdiff he

end Sys2Proof.Proofs
end

section
/-!
PROOFS. VLD of a per-tensor or unscaled array (R59, R61, R96): the fetched elements are those of memory, widened.
-/
namespace Sys2Proof.Proofs
open Sys2Proof Sys2Proof.Machine Sys2Proof.Says

/-! ### What the count of an issue leaves alone -/

variable (b : Blk) (k : Nat)

theorem countIssue_byte (a : Nat) : (b.countIssue k).byte a = b.byte a := by rw [countIssue_eq]; rfl
theorem countIssue_place (a : Nat) : (b.countIssue k).place a = b.place a := by rw [countIssue_eq]; rfl
theorem countIssue_padOf (e fmt : Nat) : (b.countIssue k).padOf e fmt = b.padOf e fmt := by rw [countIssue_eq]; rfl
theorem countIssue_partBase (j slot : Nat) : (b.countIssue k).partBase j slot = b.partBase j slot := by rw [countIssue_eq]; rfl
theorem countIssue_sreg (r : Nat) : (b.countIssue k).sreg k r = b.sreg k r := by rw [Blk.sreg, Blk.sreg, countIssue_ctx]

theorem countIssue_regPlace (r : Nat) (rel : Bool) : (b.countIssue k).regPlace k r rel = b.regPlace k r rel := by
  simp only [Blk.regPlace, Blk.coreKeyOf, countIssue_sreg, countIssue_place, countIssue_partBase, countIssue_slot]

variable {b k}

theorem countIssue_clean (h : Clean b) : Clean (b.countIssue k) := by
  rw [countIssue_eq]
  exact h

/-! ### The elements that are loaded -/

/-- A value of a per-tensor or unscaled array raises no flag (R61). -/
theorem widen_flags (fmt : Nat) (sgn : Bool) (code sc sub : Nat) : (widen fmt sgn 0 code sc sub).flags = 0 := by
  unfold widen
  rw [if_pos rfl]
  split
  · rfl
  · split <;> rfl

/-- What VLD delivers to element `l` from the array at place `e`. -/
def loaded (b : Blk) (e : Nat) (o : VOp) (l : Nat) : LaneRes :=
  laneOf (if b.padOf e o.fmt.toNat l then ⟨0, 0⟩
    else widen o.fmt.toNat o.sgn 0 (elemBits (fun j => b.byte (e + j)) (fmtWidth o.fmt.toNat) l) 0 0) false

theorem loaded_flags (b : Blk) (e : Nat) (o : VOp) (l : Nat) : (loaded b e o l).flags = 0 := by
  unfold loaded laneOf
  split
  · rfl
  · exact widen_flags ..

theorem loaded_val (b : Blk) (e : Nat) (o : VOp) (l : Nat) : (loaded b e o l).val =
    if b.padOf e o.fmt.toNat l then 0
    else (widen o.fmt.toNat o.sgn 0 (elemBits (fun j => b.byte (e + j)) (fmtWidth o.fmt.toNat) l) 0 0).val := by
  unfold loaded laneOf
  split <;> rfl

theorem loaded_countIssue (b : Blk) (k e : Nat) (o : VOp) : loaded (b.countIssue k) e o = loaded b e o := by
  funext l
  simp only [loaded, countIssue_padOf, countIssue_byte]

theorem raisedBy_zero {o : VOp} {res : Ctx → Nat → LaneRes} (h : ∀ c l, (res c l).flags = 0) : raisedBy o res = fun _ => 0 := by
  funext c
  unfold raisedBy
  exact foldl_inv _ (fun f => f = 0) _ 0 rfl fun f l _ hf => by rw [hf, h]; rfl

/-- A load with active elements delivers each of them as an instruction that computes it does. -/
theorem vload_some {o : VOp} {e : Nat} (hclean : Clean b) (hplace : b.regPlace k o.ra.toNat o.rel = some e) (hlayout : o.layout = 0)
    (hids : (b.ctx k).activeIds o ≠ []) :
    b.vload k o = lanewise o (o.fmt.toNat = 11) neverNan (fun _ l => loaded b e o l) k b := by
  have hlay : o.layout.toNat = 0 := by rw [hlayout]; rfl
  have hfield {l : Nat} (hl : (b.ctx k).active o l = true) :
      (8 * (e % 32) + fmtWidth o.fmt.toNat * l, fmtWidth o.fmt.toNat) ∈
        ((b.ctx k).activeIds o).map fun i => (8 * (e % 32) + fmtWidth o.fmt.toNat * i, fmtWidth o.fmt.toNat) :=
    List.mem_map.2 ⟨l, mem_activeIds.2 hl, rfl⟩
  unfold Blk.vload
  dsimp only
  rw [if_neg hids, hplace]
  simp only [hlay, if_true, List.append_nil, fetchSet_blk _ _ _ hclean, fetchSet_unpoisoned _ _ _ hclean, List.length_nil,
    Nat.lt_irrefl, if_false, ne_eq, not_true, false_and]
  refine lanewise_congr fun l hl => ?_
  rw [takeBits_elem b e _ l hclean (hfield hl)]
  rfl

/-- With no active element the load writes no value, and zeroes or keeps every element. -/
theorem vload_none {o : VOp} (hids : (b.ctx k).activeIds o = []) :
    b.vload k o = b.updCtx k fun c => c.writeLanes k o (o.fmt.toNat = 11) (fun _ => false) fun _ => ⟨0, 0, false⟩ := if_pos hids

/-- The active elements of a per-tensor or unscaled load. -/
theorem vload_wrote (i : Issue) (o : VOp) (b : Blk) (e : Nat) (hclean : Clean b)
    (hplace : b.regPlace (coreKey i.core) o.ra.toNat o.rel = some e) (hlayout : o.layout = 0) :
    let k := coreKey i.core
    Wrote i o (o.fmt.toNat = 11) (fun c l => c.active o l) (fun _ l => (loaded b e o l).val) (fun _ => 0) b
      (retired k 1 (b.pc k) ((b.countIssue k).vload k o)) := by
  intro k
  by_cases hids : (b.ctx k).activeIds o = []
  · have hnone : (b.ctx k).active o = fun _ => false := by
      funext l
      rw [← Bool.not_eq_true, ← mem_activeIds, hids]
      exact List.not_mem_nil
    rw [vload_none (by rw [countIssue_ctx]; exact hids)]
    refine retired_wrote (x := (b.ctx k).writeLanes k o (o.fmt.toNat = 11) (fun _ => false) fun _ => ⟨0, 0, false⟩) 1 rfl ?_ ?_ ?_
    · have hin := inCtx_updCtx (inCtx_refl k (b.countIssue k))
        fun c => c.writeLanes k o (o.fmt.toNat = 11) (fun _ => false) fun _ => ⟨0, 0, false⟩
      rw [countIssue_ctx] at hin
      simpa only [Nat.or_zero] using hin
    · rw [hnone]
      exact lanes_congr (writeLanes_lanes ..) fun l hl => absurd hl Bool.false_ne_true
    · rw [updCtx_reg, countIssue_vecFlags, Nat.or_zero, Nat.mod_eq_of_lt (reg_lt ..)]
  · have hwrote := lanewise_wrote i o (o.fmt.toNat = 11) neverNan (fun _ l => loaded b e o l) 1 b hclean.2.2
    rw [raisedBy_zero fun _ _ => loaded_flags ..] at hwrote
    rw [vload_some (countIssue_clean hclean) (by rw [countIssue_regPlace]; exact hplace) hlayout (by rw [countIssue_ctx]; exact hids),
      loaded_countIssue]
    exact hwrote

theorem does_vld (i : Issue) (o : VOp) (s : State) (e : Nat) (hruns : VecRuns i s.blk) (hclean : Clean s.blk)
    (hplace : s.blk.regPlace (coreKey i.core) o.ra.toNat o.rel = some e) (hfmt : o.fmt.toNat ≤ 11) (hlayout : o.layout = 0) :
    Does (.vld i o) s (Wrote i o (o.fmt.toNat = 11) (fun c l => c.active o l) (fun _ l =>
      if s.blk.padOf e o.fmt.toNat l then 0
      else (widen o.fmt.toNat o.sgn 0 (elemBits (fun j => s.blk.byte (e + j)) (fmtWidth o.fmt.toNat) l) 0 0).val)
      (fun _ => 0) s.blk) := by
  have hwf : WellFormed.vld o = true := by simp [WellFormed.vld, hfmt, hlayout]
  have hexec : exec (.vld i o) s = onBlk s (vldFx i o) := rfl
  refine does_of_onBlk hexec ?_
  have hwrote := vload_wrote i o s.blk e hclean hplace hlayout
  simp only [loaded_val] at hwrote
  rw [vldFx, vecIssue_runs i 1 _ s.blk hruns hwf]
  exact hwrote

end Sys2Proof.Proofs
end

section
/-!
PROOFS. VSTR (R96): the contents of the active elements come to stand at the place that the address register names, and no other byte changes.
-/
namespace Sys2Proof.Proofs
open Sys2Proof Sys2Proof.Machine Sys2Proof.Says

/-! ### What a store leaves unchanged -/

variable {key k : Nat} {a b c d : Blk}

theorem stores_trans (hbc : Stores key c b) (hcd : Stores key d c) : Stores key d b := by
  obtain ⟨hc, hcs⟩ := hbc
  obtain ⟨hd, hds⟩ := hcd
  refine ⟨?_, fun hs => ⟨(hds hs).1.trans (hcs hs).1, (hds hs).2.trans (hcs hs).2⟩⟩
  rw [hd]
  rw [hc]

theorem stores_of_regsCores (h : RegsCores b c) : Stores key c b := by
  unfold RegsCores at h
  rw [h]
  exact ⟨rfl, fun _ => ⟨rfl, rfl⟩⟩

theorem stores_of_memOnly (h : MemOnly b c) : Stores key c b := by
  unfold MemOnly at h
  rw [h]
  exact ⟨rfl, fun _ => ⟨rfl, rfl⟩⟩

theorem stores_clean (h : Stores key c b) (hclean : Clean b) : Clean c := by
  rw [h.1]
  exact hclean

theorem regsCores_byte (h : RegsCores b c) (n : Nat) : c.byte n = b.byte n := by
  unfold RegsCores at h
  rw [h]
  rfl

/-! ### The start of a write (R176, R190) -/

/-- Nothing but registers, regions and near caches has changed. -/
def Opened (b c : Blk) : Prop := c = { b with regs := c.regs, regions := c.regions, ncache := c.ncache }

theorem opened_trans (hbc : Opened b c) (hcd : Opened c d) : Opened b d := by
  unfold Opened at *
  rw [hcd, hbc]

theorem opened_of_regs (h : c = { b with regs := c.regs }) : Opened b c := by
  unfold Opened
  rw [h]

theorem opened_of_regions (h : c = { b with regions := c.regions, ncache := c.ncache }) : Opened b c := by
  unfold Opened
  rw [h]

theorem opened_openWords (b : Blk) (key : Nat) (ids : List Nat) : Opened b (b.openWords key ids) := by
  unfold Blk.openWords
  split
  · rfl
  · exact opened_trans (opened_of_regions (openRegions_eq ..)) (opened_trans (opened_of_regs (foldl_regs _ _ _ fun c x => bursts_eq ..))
      (opened_of_regs (foldl_regs _ _ _ fun c g => countGroup_eq ..)))

theorem openWords_sram (b : Blk) {key : Nat} (ids : List Nat) (h : isSram key = true) : b.openWords key ids = b := if_pos (.inl h)

theorem openWords_nil (b : Blk) (key : Nat) : b.openWords key [] = b := if_pos (.inr rfl)

theorem isSram_word (key : Nat) : isSram (key / 32 * 32) = isSram key := by
  unfold isSram
  exact decide_eq_decide.2 (by omega)

theorem stores_openWords (b : Blk) (key : Nat) (ids : List Nat) : Stores key (b.openWords (key / 32 * 32) ids) b := by
  by_cases hs : isSram key = true
  · rw [openWords_sram b ids ((isSram_word key).trans hs)]
    exact ⟨rfl, fun _ => ⟨rfl, rfl⟩⟩
  · have h := opened_openWords b (key / 32 * 32) ids
    generalize b.openWords (key / 32 * 32) ids = c at h
    unfold Opened at h
    refine ⟨?_, fun hs' => absurd hs' hs⟩
    rw [h]

theorem openWords_byte (b : Blk) (key : Nat) (ids : List Nat) (n : Nat) : (b.openWords key ids).byte n = b.byte n := by
  have h := opened_openWords b key ids
  generalize b.openWords key ids = c at h
  unfold Opened at h
  rw [h]
  rfl

/-! ### Elements stored -/

/-- The elements `es`, of `w` bytes each, have been stored to the array at place `key`, and nothing else. -/
structure Stored (key w : Nat) (es : List (Nat × Nat)) (b c : Blk) : Prop where
  byte : ∀ e ∈ es, ∀ j, j < w → c.byte (key + w * e.1 + j) = BitVec.ofNat 8 (e.2 / 2 ^ (8 * j))
  out : ∀ n, (∀ e ∈ es, n < key + w * e.1 ∨ key + w * e.1 + w ≤ n) → c.byte n = b.byte n
  frame : Stores key c b

variable {w : Nat} {es : List (Nat × Nat)}

theorem storeElems_stored (b : Blk) (key w : Nat) (es : List (Nat × Nat)) (ids : List Nat) (hclean : Clean b)
    (hdiff : (es.map Prod.fst).Nodup) : Stored key w es b (storeElems key w es (b.openWords (key / 32 * 32) ids)) := by
  have hopen := stores_openWords b key ids
  have hclean' := stores_clean hopen hclean
  refine ⟨fun e he j hj => storeElems_byte _ _ _ _ hclean' hdiff he hj, fun n hn => ?_,
    stores_trans hopen (stores_of_memOnly (memOnly_storeElems _ _ _ _ hclean'))⟩
  rw [storeElems_byte_out _ _ _ _ hclean' hn, openWords_byte]

/-- Steps of registers and cores before and after do not matter. -/
theorem stored_regsCores (h : Stored key w es b c) (hab : RegsCores a b) (hcd : RegsCores c d) : Stored key w es a d := by
  refine ⟨fun e he j hj => ?_, fun n hn => ?_, stores_trans (stores_trans (stores_of_regsCores hab) h.frame) (stores_of_regsCores hcd)⟩
  · rw [regsCores_byte hcd, h.byte e he j hj]
  · rw [regsCores_byte hcd, h.out n hn, regsCores_byte hab]

theorem nodup_activeIds (x : Ctx) (o : VOp) : (x.activeIds o).Nodup := List.nodup_range.filter _

/-- One element for each active lane, `i0` elements into the array. -/
theorem stored_lanes {o : VOp} {x : Ctx} {i0 : Nat} {v : Nat → Nat} (h : Stored key w ((x.activeIds o).map fun l => (i0 + l, v l)) b c) :
    (∀ l j, x.active o l = true → j < w → c.byte (key + w * (i0 + l) + j) = BitVec.ofNat 8 (v l / 2 ^ (8 * j)))
      ∧ ∀ n, (∀ l, x.active o l = true → n < key + w * (i0 + l) ∨ key + w * (i0 + l) + w ≤ n) → c.byte n = b.byte n := by
  refine ⟨fun l j hl hj => h.byte _ (List.mem_map_of_mem (mem_activeIds.2 hl)) j hj, fun n hn => h.out n fun e he => ?_⟩
  obtain ⟨l, hl, rfl⟩ := List.mem_map.1 he
  exact hn l (mem_activeIds.1 hl)

theorem nodup_lanes (x : Ctx) (o : VOp) (i0 : Nat) (v : Nat → Nat) :
    ((((x.activeIds o).map fun l => (i0 + l, v l))).map Prod.fst).Nodup := by
  rw [List.map_map]
  exact (nodup_activeIds x o).map fun l m h => by simpa using h

/-! ### VSTR -/

/-- The contents of lane `l` that VSTR stores, and whether they are poisoned. -/
def rawLane (o : VOp) (x : Ctx) (l : Nat) : Nat := if o.fmt.toNat = 11 then x.wide o.vs1.toNat l else x.lane o.vs1.toNat l
def rawPoison (o : VOp) (x : Ctx) (l : Nat) : Bool := if o.fmt.toNat = 11 then x.wideP o.vs1.toNat l else x.laneP o.vs1.toNat l

/-- The bytes of an element that VSTR stores. -/
def rawBytes (o : VOp) : Nat := if o.fmt.toNat = 11 then 8 else 4

theorem writeRaw_eq {o : VOp} {x : Ctx} {l : Nat} (c : Blk) (e : Nat) (hmask : x.kP o.mask.toNat = false)
    (hpoison : rawPoison o x l = false) :
    (if o.fmt.toNat = 11 then
      c.writeBits (e / 32 * 32) (8 * (e % 32) + 64 * l) 64 (x.wide o.vs1.toNat l) (x.wideP o.vs1.toNat l || x.kP o.mask.toNat)
    else c.writeBits (e / 32 * 32) (8 * (e % 32) + 32 * l) 32 (x.lane o.vs1.toNat l) (x.laneP o.vs1.toNat l || x.kP o.mask.toNat)) =
      c.writeBits e (8 * rawBytes o * (0 + l)) (8 * rawBytes o) (rawLane o x l) false := by
  unfold rawPoison at hpoison
  unfold rawBytes rawLane
  rw [hmask, Nat.zero_add, writeBits_word, writeBits_word]
  split at hpoison <;> rename_i hfmt
  · rw [if_pos hfmt, if_pos hfmt, if_pos hfmt, hpoison]
    rfl
  · rw [if_neg hfmt, if_neg hfmt, if_neg hfmt, hpoison]
    rfl

theorem vstrFx_stored (i : Issue) (o : VOp) (b : Blk) (e : Nat) (hruns : VecRuns i b) (hclean : Clean b)
    (hplace : b.regPlace (coreKey i.core) o.ra.toNat o.rel = some e) (hmask : (b.ctx (coreKey i.core)).kP o.mask.toNat = false)
    (hpoison : ∀ l, rawPoison o (b.ctx (coreKey i.core)) l = false) :
    Stored e (rawBytes o) (((b.ctx (coreKey i.core)).activeIds o).map fun l => (0 + l, rawLane o (b.ctx (coreKey i.core)) l)) b
      (vstrFx i o b) := by
  rw [vstrFx, vecIssue_runs i 1 _ b hruns rfl, countIssue_ctx, countIssue_regPlace, hplace]
  dsimp only
  refine stored_regsCores (b := b.countIssue (coreKey i.core)) ?_ (regsCores_countIssue ..) (regsCores_retired ..)
  have hstored := storeElems_stored (b.countIssue (coreKey i.core)) e (rawBytes o) _
    (coverWords (((b.ctx (coreKey i.core)).activeIds o).map fun l =>
      (8 * (e % 32) + (if o.fmt.toNat = 11 then 64 else 32) * l, if o.fmt.toNat = 11 then 64 else 32)))
    (countIssue_clean hclean) (nodup_lanes (b.ctx (coreKey i.core)) o 0 (rawLane o (b.ctx (coreKey i.core))))
  unfold storeElems at hstored
  rw [List.foldl_map] at hstored
  simpa only [writeRaw_eq _ _ hmask (hpoison _)] using hstored

theorem does_vstr (i : Issue) (o : VOp) (s : State) (e : Nat) (hruns : VecRuns i s.blk) (hclean : Clean s.blk)
    (hplace : s.blk.regPlace (coreKey i.core) o.ra.toNat o.rel = some e) (hmask : (s.blk.ctx (coreKey i.core)).kP o.mask.toNat = false)
    (hpoison : ∀ l, rawPoison o (s.blk.ctx (coreKey i.core)) l = false) :
    Does (.vstr i o) s fun b =>
      (∀ l j, (s.blk.ctx (coreKey i.core)).active o l = true → j < rawBytes o →
        b.byte (e + rawBytes o * l + j) = BitVec.ofNat 8 (rawLane o (s.blk.ctx (coreKey i.core)) l / 2 ^ (8 * j)))
        ∧ (∀ a, (∀ l, (s.blk.ctx (coreKey i.core)).active o l = true → a < e + rawBytes o * l ∨ e + rawBytes o * l + rawBytes o ≤ a) →
            b.byte a = s.blk.byte a)
        ∧ Stores e b s.blk := by
  have hexec : exec (.vstr i o) s = onBlk s (vstrFx i o) := rfl
  have hstored := vstrFx_stored i o s.blk e hruns hclean hplace hmask hpoison
  obtain ⟨hin, hout⟩ := stored_lanes hstored
  simp only [Nat.zero_add] at hin hout
  exact does_of_onBlk hexec ⟨hin, hout, hstored.frame⟩

/-- R59, R61, R96: the three clauses of the plain loads and stores. -/
theorem vectorLoadsAndRawStores : VectorLoadsAndRawStores := by
  intro i o s e hruns hclean hplace
  refine ⟨does_vld i o s e hruns hclean hplace, fun hfmt hmask hlane => ?_, fun hfmt hmask hwide => ?_⟩
  · have h := does_vstr i o s e hruns hclean hplace hmask fun l => by rw [rawPoison, if_neg hfmt]; exact hlane l
    simpa only [rawBytes, rawLane, if_neg hfmt] using h
  · have h := does_vstr i o s e hruns hclean hplace hmask fun l => by rw [rawPoison, if_pos hfmt]; exact hwide l
    simpa only [rawBytes, rawLane, if_pos hfmt] using h

end Sys2Proof.Proofs
end

section
/-!
PROOFS. The output conversion of a per-tensor or unscaled output outside RECOMPUTE (R114 to R119): the bias row is that of memory, each
element's code is the encoding of its piped value, and the codes come to stand at their places.
-/
namespace Sys2Proof.Proofs
open Sys2Proof Sys2Proof.Machine Sys2Proof.Says

variable {b c : Blk} {k d : Nat}

/-! ### What the conversion of an element depends on -/

/-- The numerics of `c` are those of `b`: the scale table, the generator's key and the bytes of memory. -/
structure SameNumerics (b c : Blk) : Prop where
  hub : ∀ (r : Reg) (x : Nat), r.addr = hubBase + x → x < 2 ^ 24 → c.reg r = b.reg r
  scale : c.scale = b.scale
  byte : ∀ n, c.byte n = b.byte n

theorem sameNumerics_countIssue (b : Blk) (k : Nat) : SameNumerics b (b.countIssue k) := by
  refine ⟨fun r x hr hx => countIssue_reg_ne _ _ _ ?_ ?_, by rw [countIssue_eq], countIssue_byte b k⟩
  · rw [hr, seqStall_addr, coreBase_eq]
    omega
  · rw [hr, seqIssued_addr, coreBase_eq]
    omega

theorem sameNumerics_rd (h : SameNumerics b c) (f : Fld) (x : Nat) (hf : f.reg.addr = hubBase + x) (hx : x < 2 ^ 24) : c.rd f = b.rd f := by
  rw [Blk.rd, Blk.rd, h.hub _ _ hf hx]

theorem sameNumerics_bank (h : SameNumerics b c) (shadow : Bool) : c.bank shadow = b.bank shadow := by
  have hactive : c.on NUM_TABLE_STAT.active_bank = b.on NUM_TABLE_STAT.active_bank := by
    rw [Blk.on, Blk.on, sameNumerics_rd h NUM_TABLE_STAT.active_bank 0x50020 rfl (by decide)]
  rw [Blk.bank, Blk.bank, hactive, h.scale]

theorem sameNumerics_xOf (h : SameNumerics b c) (t : Nat) : c.xOf t = b.xOf t := by
  simp only [Blk.xOf, Blk.entry, sameNumerics_bank h]

theorem sameNumerics_attempt (h : SameNumerics b c) : c.genAttempt = b.genAttempt := by
  have hreplay : c.on NUM_CTRL.replay = b.on NUM_CTRL.replay := by
    rw [Blk.on, Blk.on, sameNumerics_rd h NUM_CTRL.replay 0x50000 rfl (by decide)]
  rw [Blk.genAttempt, Blk.genAttempt, hreplay, sameNumerics_rd h NUM_STEP.attempt 0x50018 rfl (by decide)]

theorem sameNumerics_roundBits (h : SameNumerics b c) (t draw i : Nat) : c.roundBits t draw i = b.roundBits t draw i := by
  have hseed0 : c.rd (NUM_SEED.seed 0) = b.rd (NUM_SEED.seed 0) := sameNumerics_rd h _ 0x50008 rfl (by decide)
  have hseed1 : c.rd (NUM_SEED.seed 1) = b.rd (NUM_SEED.seed 1) := sameNumerics_rd h _ 0x50010 rfl (by decide)
  have hstep : c.rd NUM_STEP.step = b.rd NUM_STEP.step := sameNumerics_rd h _ 0x50018 rfl (by decide)
  simp only [Blk.roundBits, Blk.genKey, sameNumerics_attempt h, hseed0, hseed1, hstep]

theorem sameNumerics_rndOf (h : SameNumerics b c) (d i : Nat) : c.rndOf d i = b.rndOf d i := by
  simp only [Blk.rndOf, sameNumerics_roundBits h]

theorem sameNumerics_pipe (h : SameNumerics b c) (d : Nat) (bias : Nat → Ex) (el : ConvEl) : c.pipe d bias el = b.pipe d bias el := by
  simp only [Blk.pipe, sameNumerics_xOf h]

theorem sameNumerics_biasAt (h : SameNumerics b c) (k d : Nat) : biasAt c k d = biasAt b k d := by
  funext j
  simp only [biasAt, h.byte]

theorem sameNumerics_codeOf (h : SameNumerics b c) (k d : Nat) (el : ConvEl) : codeOf c k d el = codeOf b k d el := by
  simp only [codeOf, sameNumerics_rndOf h, sameNumerics_pipe h, sameNumerics_biasAt h]

/-- The bias row matters only to a conversion that adds it (R114). -/
theorem pipe_bias_congr {bias bias' : Nat → Ex} {el : ConvEl} (h : dBias d = true → bias el.j = bias' el.j) :
    b.pipe d bias el = b.pipe d bias' el := by
  unfold Blk.pipe
  by_cases hd : dBias d = true
  · simp only [h hd]
  · simp only [if_neg hd]

/-! ### The bias row (R111, R114) -/

theorem fetchBias_blk (js : List Nat) (hclean : Clean b) : (b.fetchBias k d js).2 = b := by
  unfold Blk.fetchBias
  split
  · rfl
  · dsimp only
    rw [fetchSet_unpoisoned _ _ _ hclean, fetchSet_blk _ _ _ hclean]
    rfl

/-- A fetched element of the bias row is the one that stands in memory. -/
theorem fetchBias_val {js : List Nat} {j : Nat} (hclean : Clean b) (hbias : dBias d = true) (hj : j ∈ js) :
    (b.fetchBias k d js).1 j = (biasAt b k d j, false) := by
  have hfield : (8 * ((dBiasOff d + 4 * j) % sramBytes k), 32) ∈
      js.map fun j => (8 * ((dBiasOff d + 4 * j) % sramBytes k), 32) := List.mem_map.2 ⟨j, hj, rfl⟩
  have hkey : sramKey k % 32 = 0 := by unfold sramKey; omega
  unfold Blk.fetchBias
  rw [if_neg (not_not_intro hbias)]
  dsimp only
  rw [takeBits_fetched b hclean hkey hfield
    (x := elemBits (fun n => b.byte (sramKey k + (dBiasOff d + 4 * j) % sramBytes k + n)) 32 0) fun t => ?_]
  · rfl
  · rw [testBit_elemBits, bitAt, show (8 * sramKey k + 8 * ((dBiasOff d + 4 * j) % sramBytes k) + t) / 8 =
        sramKey k + (dBiasOff d + 4 * j) % sramBytes k + (32 * 0 + t) / 8 by omega,
      show (8 * sramKey k + 8 * ((dBiasOff d + 4 * j) % sramBytes k) + t) % 8 = (32 * 0 + t) % 8 by omega]

theorem fetchBias_unpoisoned {js : List Nat} {j : Nat} (hclean : Clean b) (hj : j ∈ js) : ((b.fetchBias k d js).1 j).2 = false := by
  by_cases hbias : dBias d = true
  · rw [fetchBias_val hclean hbias hj]
  · rw [Blk.fetchBias, if_pos hbias]

/-! ### The codes of a tile (R114 to R119) -/

theorem scale_zero (v : Ex) : v.scale 0 = v := by
  cases v <;> simp [Ex.scale]

/-- The terms of `plainDesc`. -/
theorem plainDesc_iff : plainDesc d = true ↔ dLayout d = 0 ∧ dSat d ≠ 2 ∧ dTile d = false ∧ fmtWidth (dFmt d) % 8 = 0 := by
  simp [plainDesc, and_assoc]

theorem coldTile_plain (b : Blk) (h : dTile d = false) : b.coldTile d = false := by simp [Blk.coldTile, h]

theorem recomputes_plain (b : Blk) (h : plainDesc d = true) : b.recomputes d = false := by
  obtain ⟨-, hsat, htile, -⟩ := plainDesc_iff.1 h
  simp [Blk.recomputes, coldTile_plain b htile, hsat]

/-- The saturation in force for a descriptor that asks for no RECOMPUTE (R116). -/
def plainSat (d : Nat) : Sat := if dSat d = 1 then .inf else .limit

theorem plainSat_ne (d : Nat) : plainSat d ≠ .recompute := by
  unfold plainSat
  split <;> decide

/-- A tile of an output without blocks, tile scale or RECOMPUTE gets the encoding of each piped value, in order, and is not rescaled. -/
theorem convTile_plain (b : Blk) (bias : Nat → Ex) (els : List ConvEl) (cover : List Nat) (h : plainDesc d = true) :
    (b.convTile d bias els cover).codes =
        els.map (fun el => (el.i, (encodeValue (dFmt d) (dSgn d) (b.rndOf d el.i) (plainSat d) (b.pipe d bias el).out).code))
      ∧ (b.convTile d bias els cover).blocks = [] ∧ (b.convTile d bias els cover).delta = 0 := by
  obtain ⟨hlayout, hsat, htile, -⟩ := plainDesc_iff.1 h
  have hmode : (if b.coldTile d = true ∨ dSat d = 2 then Sat.recompute else if dSat d = 1 then .inf else .limit) = plainSat d :=
    if_neg (by simp [coldTile_plain b htile, hsat])
  have hne := plainSat_ne d
  unfold Blk.convTile
  dsimp only
  rw [hmode, if_neg (not_not_intro hlayout)]
  refine ⟨?_, rfl, if_neg fun hall => hne hall.1⟩
  dsimp only
  rw [if_neg fun hall => hne hall.1, Blk.encodeAll, ← List.map_prod_left_eq_zip, List.map_map, List.map_map]
  refine List.map_congr_left fun el _ => ?_
  simp only [Function.comp, Nat.cast_zero, Int.neg_zero, scale_zero]

/-! ### Writing and counting what a conversion delivers -/

/-- Codes of whole bytes, none of them poisoned, are stored at their places. -/
theorem writeConv_plain (b : Blk) (o : OutAt) (r : ConvOut) (poison : Nat → Bool) (h : plainDesc d = true) (hblocks : r.blocks = [])
    (hpoison : ∀ n, poison n = false) :
    b.writeConv d o r poison = storeElems o.key (fmtWidth (dFmt d) / 8) r.codes (b.openWords (o.key / 32 * 32)
      (coverWords (r.codes.map fun c => (8 * (o.key % 32) + fmtWidth (dFmt d) * c.1, fmtWidth (dFmt d))))) := by
  obtain ⟨hlayout, -, -, hwidth⟩ := plainDesc_iff.1 h
  have hbytes : 8 * (fmtWidth (dFmt d) / 8) = fmtWidth (dFmt d) := by omega
  have hscale (c : Blk) : (match o.scale with
      | none => c
      | some sk => c.openWords (sk / 32 * 32) []) = c := by
    split
    · rfl
    · exact openWords_nil ..
  unfold Blk.writeConv storeElems
  simp only [hblocks, hbytes, hpoison, if_pos hlayout]
  exact hscale _

/-- Nothing but registers and the scale table's state has changed. -/
def RegsScale (b c : Blk) : Prop := c = { b with regs := c.regs, scale := c.scale }

theorem regsScale_trans {b c e : Blk} (hbc : RegsScale b c) (hce : RegsScale c e) : RegsScale b e := by
  unfold RegsScale at *
  rw [hce, hbc]

theorem regsScale_wr (b : Blk) (f : Fld) (v : Nat) : RegsScale b (b.wr f v) := rfl
theorem regsScale_updScale (b : Blk) (f : ScaleSt → ScaleSt) : RegsScale b (b.updScale f) := rfl

theorem countConv_plain (b : Blk) (k d : Nat) (r : ConvOut) (hdelta : r.delta = 0) :
    RegsScale b (b.countConv k d r) ∧ (b.countConv k d r).scale = { b.scale with reports := b.scale.reports ++
      [⟨dTid d, r.captured, r.amax, r.mark, r.vanished, r.nonzero⟩] } := by
  have hreg (b : Blk) (q : Reg) (v : Nat) : RegsScale b (b.setReg q v) := rfl
  have hinc (b : Blk) (f : Fld) (n : Nat) : RegsScale b (b.incBy f n) := regsScale_wr ..
  unfold Blk.countConv
  dsimp only
  rw [if_pos hdelta]
  refine ⟨regsScale_trans (regsScale_trans (hreg ..) (regsScale_trans (hinc ..) (hinc ..))) (regsScale_updScale ..), ?_⟩
  rw [updScale_scale, incBy_eq, wr_scale, incBy_eq, wr_scale, setReg_scale]

end Sys2Proof.Proofs
end

section
/-!
PROOFS. VST (R96, R114, R119): the active elements go through the output conversion to the place that the address register names.
-/
namespace Sys2Proof.Proofs
open Sys2Proof Sys2Proof.Machine Sys2Proof.Says

variable {b c : Blk} {k d e : Nat} {o : VOp}

/-! ### What VST asks of the state -/

/-- VST finds a valid plain descriptor `d`, its output at place `e`, and no poisoned source (R96, R111, R113). -/
structure VstReady (k : Nat) (o : VOp) (d e : Nat) (b : Blk) : Prop where
  clean : Clean b
  desc : Describes k o.rdesc b d
  device : b.sreg k o.rdesc.toNat < 2 ^ 48
  ok : b.descOk d true = true
  plain : plainDesc d = true
  place : b.regPlace k o.ra.toNat o.rel = some e
  lanes : ∀ l, (b.ctx k).laneP o.vs1.toNat l = false ∧ (b.ctx k).wideP o.vs1.toNat l = false
  mask : (b.ctx k).kP o.mask.toNat = false

theorem vstReady_countIssue (h : VstReady k o d e b) : VstReady k o d e (b.countIssue k) := by
  obtain ⟨hclean, ⟨key, hkey, hd⟩, hdevice, hok, hplain, hplace, hlanes, hmask⟩ := h
  refine ⟨countIssue_clean hclean, ⟨key, ?_, ?_⟩, ?_, ?_, hplain, ?_, ?_, ?_⟩
  · rw [countIssue_sreg, countIssue_place, hkey]
  · rw [hd, countIssue_eq]
    rfl
  · rw [countIssue_sreg]
    exact hdevice
  · rw [countIssue_eq]
    exact hok
  · rw [countIssue_regPlace, hplace]
  · rw [countIssue_ctx]
    exact hlanes
  · rw [countIssue_ctx]
    exact hmask

/-- The descriptor is read as it stands in memory. -/
theorem vstReady_readDev (h : VstReady k o d e b) :
    ∃ w : MWord, b.readDev (b.sreg k o.rdesc.toNat % 2 ^ 48 / 32 * 32) 1 (coreDie k) (k % 32) = ([w], b) ∧ w.poison = false
      ∧ w.data.toNat = d := by
  obtain ⟨key, hkey, hd⟩ := h.desc
  rw [Nat.mod_eq_of_lt h.device]
  exact ⟨_, readDev_clean b _ _ h.clean hkey, rfl, hd.symm⟩

/-! ### The tile of the active elements -/

/-- The element that lane `l` enters the conversion as. -/
def vstEl (b : Blk) (k : Nat) (o : VOp) (d e l : Nat) : ConvEl :=
  ⟨if dFmt d = 11 then f64.val ((b.ctx k).wide o.vs1.toNat l) else f32.val ((b.ctx k).lane o.vs1.toNat l), l, (b.outAt d e 0).i0 + l⟩

/-- What the conversion delivers for the active elements. -/
def vstTile (b : Blk) (k : Nat) (o : VOp) (d e : Nat) : ConvOut :=
  b.convTile d (fun j => ((b.fetchBias k d ((b.ctx k).activeIds o)).1 j).1) (((b.ctx k).activeIds o).map (vstEl b k o d e)) []

/-- Each active element with its code, by its index in the output's array. -/
def vstCodes (b : Blk) (k : Nat) (o : VOp) (d e : Nat) : List (Nat × Nat) :=
  ((b.ctx k).activeIds o).map fun l => ((b.outAt d e 0).i0 + l, codeOf b k d (vstEl b k o d e l))

theorem vstTile_plain (h : VstReady k o d e b) :
    (vstTile b k o d e).codes = vstCodes b k o d e ∧ (vstTile b k o d e).blocks = [] ∧ (vstTile b k o d e).delta = 0 := by
  obtain ⟨hcodes, hblocks, hdelta⟩ := convTile_plain b (fun j => ((b.fetchBias k d ((b.ctx k).activeIds o)).1 j).1)
    (((b.ctx k).activeIds o).map (vstEl b k o d e)) [] h.plain
  refine ⟨hcodes.trans ?_, hblocks, hdelta⟩
  rw [List.map_map]
  refine List.map_congr_left fun l hl => ?_
  have hpipe : b.pipe d (fun j => ((b.fetchBias k d ((b.ctx k).activeIds o)).1 j).1) (vstEl b k o d e l) =
      b.pipe d (biasAt b k d) (vstEl b k o d e l) := pipe_bias_congr fun hbias => by
    show ((b.fetchBias k d ((b.ctx k).activeIds o)).1 l).1 = biasAt b k d l
    rw [fetchBias_val h.clean hbias hl]
  show (_, _) = (_, _)
  rw [hpipe]
  rfl

/-- The words that the codes of the tile cover. -/
def vstWords (b : Blk) (k : Nat) (o : VOp) (d e : Nat) : List Nat :=
  coverWords ((vstCodes b k o d e).map fun c => (8 * ((b.outAt d e 0).key % 32) + fmtWidth (dFmt d) * c.1, fmtWidth (dFmt d)))

/-- The tile's codes written to their places. -/
def vstWritten (b : Blk) (k : Nat) (o : VOp) (d e : Nat) : Blk :=
  storeElems (b.outAt d e 0).key (fmtWidth (dFmt d) / 8) (vstCodes b k o d e)
    (b.openWords ((b.outAt d e 0).key / 32 * 32) (vstWords b k o d e))

/-- No element comes out poisoned. -/
theorem vstReady_unpoisoned (h : VstReady k o d e b) : (((b.ctx k).activeIds o).filter fun l =>
    (if dFmt d = 11 then (b.ctx k).wideP o.vs1.toNat l else (b.ctx k).laneP o.vs1.toNat l) || (b.ctx k).kP o.mask.toNat
      || ((b.fetchBias k d ((b.ctx k).activeIds o)).1 l).2) = [] := by
  refine List.filter_eq_nil_iff.2 fun l hl => ?_
  rw [(h.lanes l).1, (h.lanes l).2, h.mask, fetchBias_unpoisoned h.clean hl, ite_self]
  decide

theorem writeTileByte_plain (b : Blk) (tile delta : Nat) (h : dTile d = false) : b.writeTileByte d tile delta = b :=
  if_pos (by simp [h])

theorem vstore_ready (h : VstReady k o d e b) :
    b.vstore k o = (((vstWritten b k o d e).countConv k d (vstTile b k o d e)).vecFlag k (vstTile b k o d e).flags).stall k 3 0
      (cdiv ((b.ctx k).activeIds o).length 64) := by
  obtain ⟨w, hread, hpoison, hd⟩ := vstReady_readDev h
  obtain ⟨hlayout, -, htile, -⟩ := plainDesc_iff.1 h.plain
  obtain ⟨hcodes, hblocks, hdelta⟩ := vstTile_plain h
  have hwritten : b.writeConv d (b.outAt d e 0) (vstTile b k o d e) (fun _ => false) = vstWritten b k o d e := by
    rw [writeConv_plain b _ _ _ h.plain hblocks fun _ => rfl, hcodes]
    rfl
  unfold Blk.vstore
  dsimp only
  rw [hread]
  simp only [List.headD_cons, hpoison, hd, h.ok, Bool.not_false, Bool.true_and, Bool.false_eq_true, if_false, if_true, h.place,
    not_true, fetchBias_blk _ h.clean, recomputes_plain b h.plain, hlayout, vstReady_unpoisoned h, List.contains_nil,
    writeTileByte_plain _ _ _ htile]
  rw [← hwritten]
  rfl

/-! ### What VST leaves in memory -/

theorem stored_scale {key w : Nat} {es : List (Nat × Nat)} (h : Stored key w es b c) (z : ScaleSt) :
    Stored key w es { b with scale := z } { c with scale := z } := by
  refine ⟨h.byte, h.out, ?_, h.frame.2⟩
  have hframe := h.frame.1
  rw [hframe]

theorem stores_scale {key : Nat} (h : Stores key c b) : c.scale = b.scale := by rw [h.1]

theorem regsCores_refl (b : Blk) : RegsCores b b := rfl

theorem regsCores_scale (h : RegsCores b c) : c.scale = b.scale := by
  unfold RegsCores at h
  rw [h]

theorem regsCores_withScale (h : RegsCores b c) (z : ScaleSt) : RegsCores { b with scale := z } { c with scale := z } := by
  unfold RegsCores at *
  rw [h]

/-- A change of registers and of the scale table's state is the one of the latter, followed by one of registers. -/
theorem regsScale_regsCores (h : RegsScale b c) : RegsCores { b with scale := c.scale } c := by
  unfold RegsScale at h
  unfold RegsCores
  rw [h]

theorem nodup_vstCodes (b : Blk) (k : Nat) (o : VOp) (d e : Nat) : ((vstCodes b k o d e).map Prod.fst).Nodup := nodup_lanes ..

/-- The codes are stored, a report is added, and besides registers nothing else changes. -/
theorem vstore_stored (h : VstReady k o d e b) :
    Stored (b.outAt d e 0).key (fmtWidth (dFmt d) / 8) (vstCodes b k o d e) { b with scale := (b.vstore k o).scale } (b.vstore k o)
      ∧ ∃ rep, (b.vstore k o).scale = { b.scale with reports := b.scale.reports ++ [rep] } := by
  have hstored := storeElems_stored b (b.outAt d e 0).key (fmtWidth (dFmt d) / 8) (vstCodes b k o d e) (vstWords b k o d e) h.clean
    (nodup_vstCodes b k o d e)
  have hwritten : (vstWritten b k o d e).scale = b.scale := stores_scale hstored.frame
  obtain ⟨hframe, hscale⟩ := countConv_plain (vstWritten b k o d e) k d (vstTile b k o d e) (vstTile_plain h).2.2
  rw [hwritten] at hscale
  have hrest : RegsCores ((vstWritten b k o d e).countConv k d (vstTile b k o d e)) (b.vstore k o) := by
    rw [vstore_ready h]
    exact regsCores_trans (regsCores_vecFlag ..) (regsCores_stall ..)
  have hsame := regsCores_scale hrest
  rw [hsame]
  exact ⟨stored_regsCores (stored_scale hstored _) (regsCores_refl _) (regsCores_trans (regsScale_regsCores hframe) hrest), _, hscale⟩

/-! ### The instruction -/

theorem vstFx_ready (i : Issue) (hruns : VecRuns i b) (hvl : (b.ctx (coreKey i.core)).vl ≠ 0) :
    vstFx i o b = retired (coreKey i.core) 1 (b.pc (coreKey i.core)) ((b.countIssue (coreKey i.core)).vstore (coreKey i.core) o) := by
  rw [vstFx, vecIssue_runs i 1 _ b hruns rfl]
  rw [countIssue_ctx, if_neg hvl]

theorem countIssue_outAt (b : Blk) (k d e n : Nat) : (b.countIssue k).outAt d e n = b.outAt d e n := by rw [countIssue_eq]; rfl

theorem countIssue_scale (b : Blk) (k : Nat) : (b.countIssue k).scale = b.scale := by rw [countIssue_eq]

theorem vstCodes_countIssue (b : Blk) (k : Nat) (o : VOp) (d e : Nat) : vstCodes (b.countIssue k) k o d e = vstCodes b k o d e := by
  simp only [vstCodes, vstEl, countIssue_ctx, countIssue_outAt, sameNumerics_codeOf (sameNumerics_countIssue b k)]

theorem vstFx_stored (i : Issue) (hruns : VecRuns i b) (hvl : (b.ctx (coreKey i.core)).vl ≠ 0)
    (h : VstReady (coreKey i.core) o d e b) :
    Stored (b.outAt d e 0).key (fmtWidth (dFmt d) / 8) (vstCodes b (coreKey i.core) o d e) { b with scale := (vstFx i o b).scale }
        (vstFx i o b)
      ∧ ∃ rep, (vstFx i o b).scale = { b.scale with reports := b.scale.reports ++ [rep] } := by
  obtain ⟨hstored, rep, hscale⟩ := vstore_stored (vstReady_countIssue (k := coreKey i.core) h)
  have hrest := regsCores_retired (coreKey i.core) 1 (b.pc (coreKey i.core)) ((b.countIssue (coreKey i.core)).vstore (coreKey i.core) o)
  rw [countIssue_outAt, vstCodes_countIssue] at hstored
  rw [countIssue_scale] at hscale
  rw [vstFx_ready i hruns hvl, regsCores_scale hrest]
  exact ⟨stored_regsCores hstored (regsCores_withScale (regsCores_countIssue b (coreKey i.core)) _) hrest, rep, hscale⟩

/-- R96, R114, R119: what VST stores. -/
theorem vectorStoreConverts : VectorStoreConverts := by
  intro i o s d e hruns hclean k c hdesc hdevice hok hplain hplace hvl hlanes hmask
  have hexec : exec (.vst i o) s = onBlk s (vstFx i o) := rfl
  obtain ⟨hstored, rep, hscale⟩ := vstFx_stored i hruns hvl ⟨hclean, hdesc, hdevice, hok, hplain, hplace, hlanes, hmask⟩
  obtain ⟨hin, hout⟩ := stored_lanes hstored
  refine does_of_onBlk hexec ⟨hin, hout, ?_, ?_, hstored.frame⟩
  · rw [hscale]
  · rw [hscale, List.length_append]
    rfl

/-- Settles O39: loads and raw stores move the active elements as they stand, VST moves their codes, and the frame of each store follows from
that of a written field. -/
theorem vectorLoadsAndStores : Obligations.VectorLoadsAndStores := by
  unfold Obligations.VectorLoadsAndStores
  exact ⟨vectorLoadsAndRawStores, vectorStoreConverts⟩

end Sys2Proof.Proofs
end

section
/-!
PROOFS. INT32 accumulation (R79): a group's exact sum joins the running value, and a limit that replaces a result is flagged.
-/
namespace Sys2Proof.Proofs
open Sys2Proof Sys2Proof.Machine Sys2Proof.Says

/-- The values of INT32. -/
def InInt32 (z : Int) : Prop := -(2 ^ 31) ≤ z ∧ z < 2 ^ 31

/-- The running sum of value `x.1`, with the overflow and int_sat flags beside `fl` where a limit has replaced a result. -/
def runSum (fl : Nat) (x : Int × Bool) : RunSum := ⟨wrapInt 32 x.1, if x.2 then fl ||| 2 ||| 8 else fl⟩

theorem sext_runSum (fl : Nat) (x : Int × Bool) (h : InInt32 x.1) : sext 32 (runSum fl x).v = x.1 := by
  have hround := sext_wrapInt 32 x.1 (by decide) h.1 h.2
  rwa [sext, Nat.mod_mod] at hround

theorem runSum_clamped (fl : Nat) (x : Int × Bool) : (runSum fl x).fl ||| 10 = fl ||| 2 ||| 8 := by
  unfold runSum
  split <;> simp [Nat.or_assoc]

/-- The running value after a group is again one of INT32. -/
theorem clampStep_inInt32 (x : Int × Bool) (s : Int) : InInt32 (clampStep x s).1 := by
  unfold InInt32 clampStep
  split
  · decide
  · split
    · decide
    · dsimp only
      omega

/-- The exact sum of a group's products. -/
def groupSum (l : List (Ex × Ex)) : Int := (l.map fun t => exInt t.1 * exInt t.2).sum

theorem foldl_products (l : List (Ex × Ex)) (z : Int) : l.foldl (fun z t => z + exInt t.1 * exInt t.2) z = z + groupSum l := by
  induction l generalizing z with
  | nil => exact (Int.add_zero z).symm
  | cons t l ih => rw [List.foldl_cons, ih, groupSum, groupSum, List.map_cons, List.sum_cons, Int.add_assoc]

/-- One group of the INT32 path is one step of the clamped sum. -/
theorem intGroup_runSum (fl : Nat) (x : Int × Bool) (l : List (Ex × Ex)) (h : InInt32 x.1) :
    intGroup (runSum fl x) l = runSum fl (clampStep x (groupSum l)) := by
  have hfl := runSum_clamped fl x
  unfold intGroup
  dsimp only
  rw [foldl_products, sext_runSum fl x h, hfl]
  unfold clampStep
  split
  · rfl
  · split
    · rw [if_pos (by omega)]
      rfl
    · rw [if_neg (by omega)]
      rfl

theorem groupSums_nil {g : Nat} (hg : 0 < g) : groupSums g [] = [] := by
  have hnone : cdiv 0 g = 0 := Nat.div_eq_of_lt (by omega)
  rw [groupSums, List.length_nil, hnone]
  rfl

/-- The first group of a list that is not empty, and the groups of the rest. -/
theorem groupSums_cons {g : Nat} (hg : 0 < g) {l : List (Ex × Ex)} (hl : l ≠ []) :
    groupSums g l = groupSum (l.take g) :: groupSums g (l.drop g) := by
  have hpos := List.length_pos_iff.2 hl
  have hlen : cdiv l.length g = cdiv (l.drop g).length g + 1 := by
    unfold cdiv
    rw [List.length_drop]
    by_cases h : l.length ≤ g
    · rw [show l.length - g + g - 1 = g - 1 by omega, Nat.div_eq_of_lt (by omega : g - 1 < g),
        show l.length + g - 1 = l.length - 1 + g by omega, Nat.add_div_right _ hg, Nat.div_eq_of_lt (by omega)]
    · rw [show l.length + g - 1 = l.length - g + g - 1 + g by omega, Nat.add_div_right _ hg]
  unfold groupSums
  rw [hlen, List.range_succ_eq_map, List.map_cons, List.map_map]
  refine congrArg₂ _ rfl (List.map_congr_left fun i _ => ?_)
  simp only [Function.comp, List.drop_drop, Nat.mul_succ, Nat.add_comm]

/-- With fuel for every product, the INT32 path folds the groups' sums into the running value, one after the other. -/
theorem accumulate_int {g : Nat} (hg : 0 < g) (fl n : Nat) (x : Int × Bool) (l : List (Ex × Ex)) (hn : l.length ≤ n)
    (hx : InInt32 x.1) : accumulate true g n (runSum fl x) l = runSum fl ((groupSums g l).foldl clampStep x) := by
  induction n generalizing x l with
  | zero =>
    rw [List.length_eq_zero_iff.1 (Nat.le_zero.1 hn), groupSums_nil hg]
    rfl
  | succ n ih =>
    cases l with
    | nil =>
      rw [groupSums_nil hg]
      rfl
    | cons t l =>
      have hdrop : ((t :: l).drop g).length ≤ n := by
        rw [List.length_drop]
        omega
      rw [groupSums_cons hg (List.cons_ne_nil t l), List.foldl_cons, ← ih _ _ hdrop (clampStep_inInt32 x _),
        ← intGroup_runSum fl x _ hx]
      rfl

/-- Settles O3: by induction over the groups, each of which is one step of the clamped sum. -/
theorem integerAccumulationClampsEachGroup : Obligations.IntegerAccumulationClampsEachGroup := by
  unfold Obligations.IntegerAccumulationClampsEachGroup
  intro g n fl start l hg hn hlo hhi r x
  have hr : r = runSum fl x := accumulate_int hg fl n (start, false) l hn ⟨hlo, hhi⟩
  have hx : InInt32 x.1 := foldl_inv _ (fun y => InInt32 y.1) _ _ ⟨hlo, hhi⟩ fun y s _ _ => clampStep_inInt32 y s
  rw [hr]
  exact ⟨sext_runSum fl x hx, rfl⟩

end Sys2Proof.Proofs
end

section
/-!
PROOFS. The end of a matrix operation (R81, R84, R165): what counting its cycles, marking the set that it leaves and showing MAT_STATUS do
to the core, and that they leave everything else alone.
-/
namespace Sys2Proof.Proofs
open Sys2Proof Sys2Proof.Machine Sys2Proof.Says

variable {b d e : Blk} {k : Nat} {j : MatJob}

/-! ### The registers of the matrix engine -/

theorem matStatus_addr (k : Nat) : (Reg.matStatus (k / 32) (k % 32)).addr = coreBase (k / 32) (k % 32) + 0x4008 := rfl
theorem matFlags_addr (k : Nat) : (Reg.matFlags (k / 32) (k % 32)).addr = coreBase (k / 32) (k % 32) + 0x4010 := rfl
theorem matOps_addr (k : Nat) : (Reg.matOps (k / 32) (k % 32)).addr = coreBase (k / 32) (k % 32) + 0x4018 := rfl
theorem matMacs_addr (k : Nat) : (Reg.matMacs (k / 32) (k % 32)).addr = coreBase (k / 32) (k % 32) + 0x4020 := rfl

/-- Bit `set` of MAT_STATUS that tells a held set (R84). -/
def heldFld (k set : Nat) : Fld :=
  if set = 0 then MAT_STATUS.set0_held (k / 32) (k % 32) else MAT_STATUS.set1_held (k / 32) (k % 32)

theorem heldFld_status (k set : Nat) : (heldFld k set).reg = .matStatus (k / 32) (k % 32) ∧ 8 ≤ (heldFld k set).lo ∧
    (heldFld k set).lo + (heldFld k set).w ≤ 64 ∧ (heldFld k set).w = 1 := by
  unfold heldFld
  split <;> simp [MAT_STATUS.set0_held, MAT_STATUS.set1_held]

theorem setHeld_eq (b : Blk) (k set : Nat) (v : Bool) : setHeld b k set v = b.wr (heldFld k set) (b2n v) := by
  unfold setHeld heldFld
  split <;> rfl

theorem setHeld_on (b : Blk) (k set : Nat) (v : Bool) : (setHeld b k set v).on (heldFld k set) = v := by
  obtain ⟨-, -, h64, hw⟩ := heldFld_status k set
  rw [setHeld_eq, wr_on_same _ _ _ h64, hw]
  cases v <;> rfl

theorem setHeld_reg_ne (b : Blk) (k set : Nat) (v : Bool) {r : Reg} (h : r.addr ≠ (Reg.matStatus (k / 32) (k % 32)).addr) :
    (setHeld b k set v).reg r = b.reg r := by
  rw [setHeld_eq]
  exact wr_reg_of _ _ _ _ _ (heldFld_status k set).1 h

/-! ### MAT_STATUS (R81) -/

theorem showMat_eq (b : Blk) (k : Nat) : b.showMat k = { b with regs := (b.showMat k).regs } := rfl
theorem showMat_core (b : Blk) (k i : Nat) : (b.showMat k).core i = b.core i := rfl

theorem showMat_reg_ne (b : Blk) (k : Nat) {r : Reg} (h : r.addr ≠ (Reg.matStatus (k / 32) (k % 32)).addr) :
    (b.showMat k).reg r = b.reg r :=
  (wr_reg_ne _ (MAT_STATUS.set1_draining ..) _ _ h).trans ((wr_reg_ne _ (MAT_STATUS.set0_draining ..) _ _ h).trans
    (wr_reg_ne _ (MAT_STATUS.busy ..) _ _ h))

/-- Fields of MAT_STATUS other than the draining bits read as once the busy bit is shown. -/
theorem showMat_on (b : Blk) (k : Nat) {f : Fld} (hreg : f.reg = .matStatus (k / 32) (k % 32)) (hbits : f.lo + f.w ≤ 6 ∨ 8 ≤ f.lo)
    (h64 : f.lo + f.w ≤ 64) :
    (b.showMat k).on f = (b.wrB (MAT_STATUS.busy (k / 32) (k % 32)) ((b.core k).mats ≠ [])).on f := by
  have h0 : f.lo + f.w ≤ (MAT_STATUS.set0_draining (k / 32) (k % 32)).lo ∨
      (MAT_STATUS.set0_draining (k / 32) (k % 32)).lo + (MAT_STATUS.set0_draining (k / 32) (k % 32)).w ≤ f.lo := by
    simp only [MAT_STATUS.set0_draining]
    omega
  have h1 : f.lo + f.w ≤ (MAT_STATUS.set1_draining (k / 32) (k % 32)).lo ∨
      (MAT_STATUS.set1_draining (k / 32) (k % 32)).lo + (MAT_STATUS.set1_draining (k / 32) (k % 32)).w ≤ f.lo := by
    simp only [MAT_STATUS.set1_draining]
    omega
  unfold Blk.showMat
  dsimp only
  rw [wrB_eq, wr_on_disj _ _ _ _ hreg h1 h64, wrB_eq, wr_on_disj _ _ _ _ hreg h0 h64]

/-- The held bits stay as they are. -/
theorem showMat_held (b : Blk) (k set : Nat) : (b.showMat k).on (heldFld k set) = b.on (heldFld k set) := by
  obtain ⟨hreg, h8, h64, -⟩ := heldFld_status k set
  rw [showMat_on b k hreg (.inr h8) h64, wrB_eq, wr_on_disj _ _ _ _ hreg (.inr (Nat.le_trans (by simp [MAT_STATUS.busy]) h8)) h64]

/-- An engine with an operation is shown busy. -/
theorem showMat_busy (b : Blk) (k : Nat) (h : (b.core k).mats ≠ []) : (b.showMat k).on (MAT_STATUS.busy (k / 32) (k % 32)) = true := by
  rw [showMat_on b k rfl (.inl (by simp [MAT_STATUS.busy])) (by simp [MAT_STATUS.busy]), wrB_eq,
    wr_on_same _ _ _ (by simp [MAT_STATUS.busy]), decide_eq_true h]
  rfl

/-! ### The cycles of an operation (R165) -/

/-- The matrix engine's cycles of each cause are added to its stall counters. -/
def countCauses (k : Nat) (causes : List Nat) (b : Blk) : Blk :=
  (List.range 16).foldl (fun b x => if causes.contains x then b.stall k 1 x (causes.count x) else b) b

theorem countCauses_eq (k : Nat) (causes : List Nat) (b : Blk) :
    countCauses k causes b = { b with regs := (countCauses k causes b).regs } :=
  foldl_regs b _ _ fun c x => by
    split
    · exact stall_eq ..
    · rfl

/-- Registers of the core beyond its stall counters stay. -/
theorem countCauses_reg (causes : List Nat) (b : Blk) {r : Reg} {x : Nat} (hr : r.addr = coreBase (k / 32) (k % 32) + x)
    (hx : 0x1100 ≤ x) : (countCauses k causes b).reg r = b.reg r := by
  refine foldl_keep _ (fun b => b.reg r) _ b fun b i hi => ?_
  have hi := List.mem_range.1 hi
  split
  · refine stall_reg_ne _ _ _ _ _ _ ?_
    rw [hr, seqStall_addr]
    omega
  · rfl

/-- Counting an operation's cycles writes stall counters and the core's own account of the engine. -/
theorem countMat_counts (b : Blk) (k : Nat) (j : MatJob) (slot : Nat × Nat) : ∃ causes f,
    b.countMat k j slot = (countCauses k causes b).updCore k f ∧ ∀ x, (f x).mats = x.mats ∧ (f x).acc = x.acc := by
  unfold Blk.countMat
  dsimp only
  refine ⟨_, _, rfl, ?_⟩
  exact fun _ => ⟨rfl, rfl⟩

theorem countMat_frame (b : Blk) (k : Nat) (j : MatJob) (slot : Nat × Nat) : RegsCores b (b.countMat k j slot) := by
  obtain ⟨causes, f, heq, -⟩ := countMat_counts b k j slot
  rw [heq]
  refine regsCores_trans ?_ (regsCores_updCore ..)
  unfold RegsCores
  rw [countCauses_eq]

theorem countMat_core (b : Blk) (k : Nat) (j : MatJob) (slot : Nat × Nat) :
    ((b.countMat k j slot).core k).mats = (b.core k).mats ∧ ((b.countMat k j slot).core k).acc = (b.core k).acc := by
  obtain ⟨causes, f, heq, hf⟩ := countMat_counts b k j slot
  rw [heq, updCore_core_same, countCauses_eq]
  exact hf _

theorem countMat_core_ne (b : Blk) (k : Nat) (j : MatJob) (slot : Nat × Nat) {i : Nat} (hi : i ≠ k) :
    (b.countMat k j slot).core i = b.core i := by
  obtain ⟨causes, f, heq, -⟩ := countMat_counts b k j slot
  rw [heq, updCore_core_ne _ _ _ _ hi, countCauses_eq]
  rfl

theorem countMat_reg (b : Blk) (j : MatJob) (slot : Nat × Nat) {r : Reg} {x : Nat} (hr : r.addr = coreBase (k / 32) (k % 32) + x)
    (hx : 0x1100 ≤ x) : (b.countMat k j slot).reg r = b.reg r := by
  obtain ⟨causes, f, heq, -⟩ := countMat_counts b k j slot
  rw [heq, updCore_reg, countCauses_reg causes b hr hx]

/-! ### An operation that is counted (R81) -/

/-- An operation that has delivered its results is counted with its cycles and products. -/
def matCounted (k : Nat) (j : MatJob) (b : Blk) : Blk :=
  ((b.countMat k j (0, 0)).incBy (MAT_OPS.count (k / 32) (k % 32)) 1).incBy (MAT_MACS.count (k / 32) (k % 32)) j.macs

/-- A drained set has no contents, one that keeps its sums holds them; another dataflow uses no set (R84). -/
def matSet (k : Nat) (j : MatJob) (b : Blk) : Blk :=
  if j.dataflow = 1 then
    setHeld ({ b with freeCtr := b.freeCtr + if j.dst = 2 then 0 else 4096 }.updCore k fun c =>
      { c with acc := Sp.set AccSet.init c.acc j.set ((Sp.get AccSet.init c.acc j.set).after j b.freeCtr) }) k j.set (j.dst = 2)
  else b

/-- `c` is `b` after the engine of core `k` has counted operation `j`, which has delivered its results, and marked the set it leaves. -/
structure MatEnded (k : Nat) (j : MatJob) (b c : Blk) : Prop where
  mats : (c.core k).mats = (b.core k).mats
  acc : j.dataflow = 1 → (c.core k).acc =
    Sp.set AccSet.init (b.core k).acc j.set ((Sp.get AccSet.init (b.core k).acc j.set).after j b.freeCtr)
  others : ∀ i, i ≠ k → c.core i = b.core i
  ops : c.rd (MAT_OPS.count (k / 32) (k % 32)) = (b.rd (MAT_OPS.count (k / 32) (k % 32)) + 1) % 2 ^ 48
  aborted : c.rd (MAT_OPS.aborted (k / 32) (k % 32)) = b.rd (MAT_OPS.aborted (k / 32) (k % 32))
  macs : c.rd (MAT_MACS.count (k / 32) (k % 32)) = (b.rd (MAT_MACS.count (k / 32) (k % 32)) + j.macs) % 2 ^ 64
  flags : c.reg (.matFlags (k / 32) (k % 32)) = b.reg (.matFlags (k / 32) (k % 32))
  held : j.dataflow = 1 → c.on (heldFld k j.set) = decide (j.dst = 2)
  frame : c = { b with regs := c.regs, cores := c.cores, freeCtr := c.freeCtr }
  freeCtr : j.dst = 2 → c.freeCtr = b.freeCtr

theorem matCounted_frame (k : Nat) (j : MatJob) (b : Blk) : RegsCores b (matCounted k j b) :=
  regsCores_trans (countMat_frame b k j (0, 0)) (regsCores_trans (regsCores_incBy ..) (regsCores_incBy ..))

theorem matCounted_core (k i : Nat) (j : MatJob) (b : Blk) : (matCounted k j b).core i = (b.countMat k j (0, 0)).core i := rfl

theorem matCounted_ops (k : Nat) (j : MatJob) (b : Blk) :
    (matCounted k j b).rd (MAT_OPS.count (k / 32) (k % 32)) = (b.rd (MAT_OPS.count (k / 32) (k % 32)) + 1) % 2 ^ 48 := by
  have hops : (b.countMat k j (0, 0)).rd (MAT_OPS.count (k / 32) (k % 32)) = b.rd (MAT_OPS.count (k / 32) (k % 32)) :=
    congrArg (bits · 0 48) (countMat_reg b j (0, 0) (matOps_addr k) (by decide))
  have hne : (MAT_OPS.count (k / 32) (k % 32)).reg.addr ≠ (MAT_MACS.count (k / 32) (k % 32)).reg.addr :=
    coreReg_ne (matOps_addr k) (matMacs_addr k) (by decide)
  rw [matCounted, incBy_eq, wr_rd_ne _ _ _ _ hne, incBy_eq, wr_rd_same _ _ _ (show 0 + 48 ≤ 64 by decide), hops]
  rfl

theorem matCounted_aborted (k : Nat) (j : MatJob) (b : Blk) :
    (matCounted k j b).rd (MAT_OPS.aborted (k / 32) (k % 32)) = b.rd (MAT_OPS.aborted (k / 32) (k % 32)) := by
  have hne : (MAT_OPS.aborted (k / 32) (k % 32)).reg.addr ≠ (MAT_MACS.count (k / 32) (k % 32)).reg.addr :=
    coreReg_ne (matOps_addr k) (matMacs_addr k) (by decide)
  rw [matCounted, incBy_eq, wr_rd_ne _ _ _ _ hne, incBy_eq,
    wr_rd_disj _ (MAT_OPS.count ..) (MAT_OPS.aborted ..) _ rfl (.inr (Nat.le_refl 48)) (show 48 + 16 ≤ 64 by decide)]
  exact congrArg (bits · 48 16) (countMat_reg b j (0, 0) (matOps_addr k) (by decide))

theorem matCounted_macs (k : Nat) (j : MatJob) (b : Blk) :
    (matCounted k j b).rd (MAT_MACS.count (k / 32) (k % 32)) = (b.rd (MAT_MACS.count (k / 32) (k % 32)) + j.macs) % 2 ^ 64 := by
  have hmacs : (b.countMat k j (0, 0)).rd (MAT_MACS.count (k / 32) (k % 32)) = b.rd (MAT_MACS.count (k / 32) (k % 32)) :=
    congrArg (bits · 0 64) (countMat_reg b j (0, 0) (matMacs_addr k) (by decide))
  have hne : (MAT_MACS.count (k / 32) (k % 32)).reg.addr ≠ (MAT_OPS.count (k / 32) (k % 32)).reg.addr :=
    coreReg_ne (matMacs_addr k) (matOps_addr k) (by decide)
  rw [matCounted, incBy_eq, wr_rd_same _ _ _ (show 0 + 64 ≤ 64 by decide), incBy_eq, wr_rd_ne _ _ _ _ hne, hmacs]
  rfl

theorem matCounted_flags (k : Nat) (j : MatJob) (b : Blk) :
    (matCounted k j b).reg (.matFlags (k / 32) (k % 32)) = b.reg (.matFlags (k / 32) (k % 32)) := by
  rw [matCounted, incBy_eq, wr_reg_ne _ _ _ _ (coreReg_ne (matFlags_addr k) (matMacs_addr k) (by decide)), incBy_eq,
    wr_reg_ne _ _ _ _ (coreReg_ne (matFlags_addr k) (matOps_addr k) (by decide)), countMat_reg b j (0, 0) (matFlags_addr k) (by decide)]

/-! ### The set that an operation leaves (R84) -/

theorem matSet_reg_ne (k : Nat) (j : MatJob) (b : Blk) {r : Reg} (h : r.addr ≠ (Reg.matStatus (k / 32) (k % 32)).addr) :
    (matSet k j b).reg r = b.reg r := by
  unfold matSet
  split
  · exact setHeld_reg_ne _ _ _ _ h
  · rfl

theorem matSet_core_ne (k : Nat) (j : MatJob) (b : Blk) {i : Nat} (hi : i ≠ k) : (matSet k j b).core i = b.core i := by
  unfold matSet
  split
  · rw [setHeld_eq, wr_core, updCore_core_ne _ _ _ _ hi]
    rfl
  · rfl

theorem matSet_mats (k : Nat) (j : MatJob) (b : Blk) : ((matSet k j b).core k).mats = (b.core k).mats := by
  unfold matSet
  split
  · rw [setHeld_eq, wr_core, updCore_core_same]
    rfl
  · rfl

theorem matSet_acc (k : Nat) (b : Blk) (h : j.dataflow = 1) : ((matSet k j b).core k).acc =
    Sp.set AccSet.init (b.core k).acc j.set ((Sp.get AccSet.init (b.core k).acc j.set).after j b.freeCtr) := by
  rw [matSet, if_pos h, setHeld_eq, wr_core, updCore_core_same]
  rfl

theorem matSet_frame (k : Nat) (j : MatJob) (b : Blk) :
    matSet k j b = { b with regs := (matSet k j b).regs, cores := (matSet k j b).cores, freeCtr := (matSet k j b).freeCtr } := by
  unfold matSet
  split
  · rw [setHeld_eq]
    rfl
  · rfl

theorem matSet_freeCtr (k : Nat) (b : Blk) (h : j.dst = 2) : (matSet k j b).freeCtr = b.freeCtr := by
  by_cases hflow : j.dataflow = 1
  · rw [matSet, if_pos hflow, setHeld_eq]
    exact congrArg (b.freeCtr + ·) (if_pos h)
  · rw [matSet, if_neg hflow]

/-- The end of an operation: counted, its set marked, and MAT_STATUS shown. -/
theorem matEnded (k : Nat) (j : MatJob) (b : Blk) : MatEnded k j b ((matSet k j (matCounted k j b)).showMat k) := by
  have hreg {r : Reg} {x : Nat} (hr : r.addr = coreBase (k / 32) (k % 32) + x) (hx : x ≠ 0x4008) :
      ((matSet k j (matCounted k j b)).showMat k).reg r = (matCounted k j b).reg r := by
    have hne := coreReg_ne hr (matStatus_addr k) hx
    rw [showMat_reg_ne _ _ hne, matSet_reg_ne _ _ _ hne]
  have hops := hreg (matOps_addr k) (by decide)
  have hmacs := hreg (matMacs_addr k) (by decide)
  obtain ⟨hmats, hacc⟩ := countMat_core b k j (0, 0)
  have hcounted := matCounted_frame k j b
  have hfree : (matCounted k j b).freeCtr = b.freeCtr := by rw [hcounted]
  refine ⟨?_, fun hflow => ?_, fun i hi => ?_, ?_, ?_, ?_, ?_, fun hflow => ?_, ?_, fun hdst => ?_⟩
  · rw [showMat_core, matSet_mats, matCounted_core, hmats]
  · rw [showMat_core, matSet_acc k _ hflow, matCounted_core, hacc, hfree]
  · rw [showMat_core, matSet_core_ne _ _ _ hi, matCounted_core, countMat_core_ne _ _ _ _ hi]
  · exact (congrArg (bits · 0 48) hops).trans (matCounted_ops k j b)
  · exact (congrArg (bits · 48 16) hops).trans (matCounted_aborted k j b)
  · exact (congrArg (bits · 0 64) hmacs).trans (matCounted_macs k j b)
  · rw [hreg (matFlags_addr k) (by decide), matCounted_flags]
  · rw [showMat_held, matSet, if_pos hflow, setHeld_on]
  · rw [showMat_eq, matSet_frame]
    rw [hcounted]
  · exact (matSet_freeCtr k _ hdst).trans hfree

/-! ### MATRIX_OP_COMPLETE (R81, R87 to R89) -/

/-- The oldest operation has left the engine, and its flags are in MAT_FLAGS (R81). -/
def matTaken (k : Nat) (j : MatJob) (rest : List MatJob) (b : Blk) : Blk :=
  (b.updCore k fun c => { c with mats := rest }).setReg (.matFlags (k / 32) (k % 32))
    (b.reg (.matFlags (k / 32) (k % 32)) ||| j.sums.flags)

theorem regsCores_matTaken (k : Nat) (j : MatJob) (rest : List MatJob) (b : Blk) : RegsCores b (matTaken k j rest b) :=
  regsCores_trans (regsCores_updCore ..) (regsCores_setReg ..)

theorem matTaken_core (k : Nat) (j : MatJob) (rest : List MatJob) (b : Blk) :
    (matTaken k j rest b).core k = { b.core k with mats := rest } := (setReg_core ..).trans (updCore_core_same ..)

theorem matTaken_core_ne (k : Nat) (j : MatJob) (rest : List MatJob) (b : Blk) {i : Nat} (hi : i ≠ k) :
    (matTaken k j rest b).core i = b.core i := (setReg_core ..).trans (updCore_core_ne _ _ _ _ hi)

theorem matTaken_reg (k : Nat) (j : MatJob) (rest : List MatJob) (b : Blk) {r : Reg}
    (h : r.addr ≠ (Reg.matFlags (k / 32) (k % 32)).addr) : (matTaken k j rest b).reg r = b.reg r :=
  (setReg_reg_ne _ _ _ _ h).trans (updCore_reg ..)

theorem matTaken_flags (k : Nat) (j : MatJob) (rest : List MatJob) (b : Blk) :
    (matTaken k j rest b).reg (.matFlags (k / 32) (k % 32)) = (b.reg (.matFlags (k / 32) (k % 32)) ||| j.sums.flags) % 2 ^ 64 :=
  setReg_reg_same ..

/-- The counters of the engine are as before the operation is taken. -/
theorem matTaken_counts (k : Nat) (j : MatJob) (rest : List MatJob) (b : Blk) :
    (matTaken k j rest b).reg (.matOps (k / 32) (k % 32)) = b.reg (.matOps (k / 32) (k % 32)) ∧
      (matTaken k j rest b).reg (.matMacs (k / 32) (k % 32)) = b.reg (.matMacs (k / 32) (k % 32)) :=
  ⟨matTaken_reg _ _ _ _ (coreReg_ne (matOps_addr k) (matFlags_addr k) (by decide)),
    matTaken_reg _ _ _ _ (coreReg_ne (matMacs_addr k) (matFlags_addr k) (by decide))⟩

/-- Operation `j` is the oldest of core `c`, has results to deliver and is to be counted, and no injection meets it. -/
structure MatReady (c : CoreId) (j : MatJob) (rest : List MatJob) (b : Blk) : Prop where
  inj : NoInj b
  mats : (b.core (coreKey c)).mats = j :: rest
  aborted : j.aborted = false
  written : j.written = true
  counted : j.counted = true

/-- An operation that does not end aborted delivers its results, and then ends. -/
theorem matrixCompleteFx_delivers {c : CoreId} {rest : List MatJob} (h : MatReady c j rest b)
    (hdeliver : (matTaken (coreKey c) j rest b).deliver (coreKey c) j = (false, (0, 0), d)) :
    MatEnded (coreKey c) j d (matrixCompleteFx c b) := by
  obtain ⟨hinj, hmats, haborted, hwritten, hcounted⟩ := h
  have hresidue (n : Nat) : (b.updCore (coreKey c) fun c => { c with mats := rest }).residue (coreKey c) n =
      (false, b.updCore (coreKey c) fun c => { c with mats := rest }) := residue_none _ _ _ hinj
  have heq : matrixCompleteFx c b = (matSet (coreKey c) j (matCounted (coreKey c) j d)).showMat (coreKey c) := by
    unfold matrixCompleteFx
    dsimp only
    rw [hmats]
    dsimp only
    rw [if_pos hwritten, hresidue]
    unfold matTaken at hdeliver
    simp only [Bool.false_eq_true, if_false, updCore_reg, hdeliver, haborted, hcounted, hwritten, Bool.or_false, true_and]
    rfl
  rw [heq]
  exact matEnded ..

/-- An operation that ends is counted once, with its products, whatever its delivery does elsewhere. -/
theorem matEnded_counts (h : MatEnded k j d e) (hops : d.reg (.matOps (k / 32) (k % 32)) = b.reg (.matOps (k / 32) (k % 32)))
    (hmacs : d.reg (.matMacs (k / 32) (k % 32)) = b.reg (.matMacs (k / 32) (k % 32))) :
    e.rd (MAT_OPS.count (k / 32) (k % 32)) = (b.rd (MAT_OPS.count (k / 32) (k % 32)) + 1) % 2 ^ 48
      ∧ e.rd (MAT_OPS.aborted (k / 32) (k % 32)) = b.rd (MAT_OPS.aborted (k / 32) (k % 32))
      ∧ e.rd (MAT_MACS.count (k / 32) (k % 32)) = (b.rd (MAT_MACS.count (k / 32) (k % 32)) + j.macs) % 2 ^ 64 := by
  have hcount : d.rd (MAT_OPS.count (k / 32) (k % 32)) = b.rd (MAT_OPS.count (k / 32) (k % 32)) := congrArg (bits · 0 48) hops
  have haborted : d.rd (MAT_OPS.aborted (k / 32) (k % 32)) = b.rd (MAT_OPS.aborted (k / 32) (k % 32)) := congrArg (bits · 48 16) hops
  have hproducts : d.rd (MAT_MACS.count (k / 32) (k % 32)) = b.rd (MAT_MACS.count (k / 32) (k % 32)) := congrArg (bits · 0 64) hmacs
  rw [h.ops, h.aborted, h.macs, hcount, haborted, hproducts]
  exact ⟨rfl, rfl, rfl⟩

end Sys2Proof.Proofs
end

section
/-!
PROOFS. Resident sums (R82, R84): a tile that lands in a set writes its own rows and columns, and the operation that leaves its sums there.
-/
namespace Sys2Proof.Proofs
open Sys2Proof Sys2Proof.Machine Sys2Proof.Says

variable {a : AccSet} {t : AccTile} {r q : Nat}

/-! ### A tile in its set (R82) -/

/-- The rows and columns of a tile. -/
def tilePlaces (t : AccTile) : List (Nat × Nat) := (List.range t.rows).flatMap fun i => (List.range t.cols).map fun j => (i, j)

theorem mem_tilePlaces {p : Nat × Nat} : p ∈ tilePlaces t ↔ p.1 < t.rows ∧ p.2 < t.cols := by
  simp only [tilePlaces, List.mem_flatMap, List.mem_map, List.mem_range]
  constructor
  · rintro ⟨i, hi, j, hj, rfl⟩
    exact ⟨hi, hj⟩
  · rintro ⟨hi, hj⟩
    exact ⟨p.1, hi, p.2, hj, rfl⟩

/-- The number of a sum in its set. -/
def sumKey (p : Nat × Nat) : Nat := 64 * p.1 + p.2

/-- The sum of a tile that stands under number `n`. -/
def tileSum (t : AccTile) (n : Nat) : Option Nat := some (t.at_ (n / 64) (n % 64))

/-- Landing sets the sums of the tile's places. -/
theorem land_vals (hcols : t.cols ≤ 64) :
    (a.land t).vals = ((tilePlaces t).map sumKey).foldl (fun m n => Sp.set none m n (tileSum t n)) a.vals := by
  rw [List.foldl_map]
  refine List.foldl_ext _ _ _ fun m p hp => ?_
  obtain ⟨-, hq⟩ := mem_tilePlaces.1 hp
  rw [tileSum, sumKey, show (64 * p.1 + p.2) / 64 = p.1 by omega, show (64 * p.1 + p.2) % 64 = p.2 by omega]

theorem land_vals_in (hcols : t.cols ≤ 64) (hr : r < t.rows) (hq : q < t.cols) :
    Sp.get none (a.land t).vals (64 * r + q) = some (t.at_ r q) := by
  have hmem : sumKey (r, q) ∈ (tilePlaces t).map sumKey := List.mem_map_of_mem (mem_tilePlaces.2 ⟨hr, hq⟩)
  rw [land_vals hcols]
  refine (get_foldl_set none (tileSum t) _ _ _ hmem).trans ?_
  rw [tileSum, sumKey, show (64 * r + q) / 64 = r by omega, show (64 * r + q) % 64 = q by omega]

theorem land_vals_out (hcols : t.cols ≤ 64) (hq : q < 64) (hout : ¬(r < t.rows ∧ q < t.cols)) :
    Sp.get none (a.land t).vals (64 * r + q) = Sp.get none a.vals (64 * r + q) := by
  rw [land_vals hcols]
  refine foldl_keep _ (fun m => Sp.get none m (64 * r + q)) _ _ fun m n hn => Sp.get_set_ne _ _ _ _ _ fun hkey => hout ?_
  obtain ⟨p, hp, rfl⟩ := List.mem_map.1 hn
  obtain ⟨hpr, hpq⟩ := mem_tilePlaces.1 hp
  unfold sumKey at hkey
  omega

/-- The tile's sums stand in the set, and the others keep what they held. -/
theorem land_at (hcols : t.cols ≤ 64) (hq : q < 64) :
    (a.land t).at_ r q = if r < t.rows ∧ q < t.cols then t.at_ r q else a.at_ r q := by
  split
  · rename_i hin
    rw [AccSet.at_, land_vals_in hcols hin.1 hin.2]
  · rename_i hout
    rw [AccSet.at_, land_vals_out hcols hq hout]
    rfl

/-- No sum of a tile that is not poisoned comes out poisoned. -/
theorem land_poisoned (h : t.poison = false) : (a.land t).poisoned t.rows t.cols = false := by
  unfold AccSet.poisoned AccSet.land
  simp only [h, Bool.false_eq_true, if_false, List.append_nil, List.any_filter, List.any_eq_false, Bool.and_eq_true, decide_eq_true_eq]
  omega

/-! ### An operation that leaves its sums in a set -/

variable {j : MatJob} {rest : List MatJob}

/-- What the sums of an operation leave in a set (R84). -/
theorem after_resident (a : AccSet) (ctr : Nat) (hwritten : j.written = true) (hflow : j.dataflow = 1) (hdst : j.dst = 2) :
    a.after j ctr = a.land j.sums := by
  rw [AccSet.after, if_neg (by simp [hwritten, hflow]), if_pos hdst]

/-- R81, R82, R84: the operation is counted, its flags are in MAT_FLAGS, and its sums stay in their set, which is held. -/
theorem matrixOpComplete_resident (c : CoreId) (s : State) (h : MatReady c j rest s.blk) (hdst : j.dst = 2) (hflow : j.dataflow = 1)
    (hpoison : j.sums.poison = false) (hcols : j.sums.cols ≤ 64) :
    let k := coreKey c
    Does (.matrixOpComplete c) s fun b =>
      let set := Sp.get AccSet.init (b.core k).acc j.set
      let old := Sp.get AccSet.init (s.blk.core k).acc j.set
      (b.core k).mats = rest
        ∧ (∀ r q, r < 64 → q < 64 → set.at_ r q = if r < j.sums.rows ∧ q < j.sums.cols then j.sums.at_ r q else old.at_ r q)
        ∧ set.flags = j.sums.flags ∧ set.poisoned j.sums.rows j.sums.cols = false
        ∧ (∀ n, n ≠ j.set → Sp.get AccSet.init (b.core k).acc n = Sp.get AccSet.init (s.blk.core k).acc n)
        ∧ b.on (heldFld k j.set) = true
        ∧ b.rd (MAT_OPS.count (k / 32) (k % 32)) = (s.blk.rd (MAT_OPS.count (k / 32) (k % 32)) + 1) % 2 ^ 48
        ∧ b.rd (MAT_OPS.aborted (k / 32) (k % 32)) = s.blk.rd (MAT_OPS.aborted (k / 32) (k % 32))
        ∧ b.rd (MAT_MACS.count (k / 32) (k % 32)) = (s.blk.rd (MAT_MACS.count (k / 32) (k % 32)) + j.macs) % 2 ^ 64
        ∧ b.reg (.matFlags (k / 32) (k % 32)) = (s.blk.reg (.matFlags (k / 32) (k % 32)) ||| j.sums.flags) % 2 ^ 64
        ∧ (∀ i, i ≠ k → b.core i = s.blk.core i) ∧ b = { s.blk with regs := b.regs, cores := b.cores } := by
  intro k
  have hdeliver : (matTaken k j rest s.blk).deliver k j = (false, (0, 0), matTaken k j rest s.blk) := by
    simp [Blk.deliver, h.written, hdst]
  have hend := matrixCompleteFx_delivers h hdeliver
  obtain ⟨hops, hmacs⟩ := matTaken_counts k j rest s.blk
  obtain ⟨hcount, haborted, hproducts⟩ := matEnded_counts hend hops hmacs
  have hframe : RegsCores s.blk (matTaken k j rest s.blk) := regsCores_matTaken ..
  have hacc := hend.acc hflow
  rw [matTaken_core, after_resident _ _ h.written hflow hdst] at hacc
  refine does_of_onBlk (f := matrixCompleteFx c) rfl ?_
  dsimp only
  rw [hacc, Sp.get_set_same]
  refine ⟨?_, fun r q _ hq => land_at hcols hq, rfl, land_poisoned hpoison, fun n hn => Sp.get_set_ne _ _ _ _ _ hn, ?_, hcount, haborted,
    hproducts, ?_, fun i hi => ?_, ?_⟩
  · rw [hend.mats, matTaken_core]
  · rw [hend.held hflow, decide_eq_true hdst]
  · rw [hend.flags, matTaken_flags]
  · rw [hend.others i hi, matTaken_core_ne _ _ _ _ hi]
  · have hfree := hend.freeCtr hdst
    have hend := hend.frame
    rw [hfree] at hend
    rw [hend]
    rw [hframe]

end Sys2Proof.Proofs
end

section
/-!
PROOFS. The spill record (R86, R87): words written one after another come to stand at their places, the start of a write counts on no
core, and the operation that spills its sums.
-/
namespace Sys2Proof.Proofs
open Sys2Proof Sys2Proof.Machine Sys2Proof.Says

variable {b c d : Blk}

/-! ### Words written in order -/

theorem writeWords_eq (b : Blk) (key : Nat) (ws : List MWord) (hinj : NoInj b) :
    b.writeWords key ws = { b with mem := (b.writeWords key ws).mem, err := (b.writeWords key ws).err } := by
  induction ws generalizing b key with
  | nil => rfl
  | cons w ws ih =>
    have hword : b.writeWord key w = { b with mem := (b.writeWord key w).mem, err := (b.writeWord key w).err } := by
      rw [writeWord_plain _ _ _ hinj, setRawWord_eq]
    have hinj' : NoInj (b.writeWord key w) := by
      rw [NoInj, hword]
      exact hinj
    rw [Blk.writeWords, ih _ _ hinj', hword]

theorem writeWords_noInj {b : Blk} (key : Nat) (ws : List MWord) (hinj : NoInj b) : NoInj (b.writeWords key ws) := by
  rw [NoInj, writeWords_eq _ _ _ hinj]
  exact hinj

theorem noInj_writeWord {b : Blk} (key : Nat) (w : MWord) (hinj : NoInj b) : NoInj (b.writeWord key w) :=
  writeWords_noInj key [w] hinj

/-- Words below the first that is written stay. -/
theorem writeWords_below (b : Blk) {key n : Nat} (ws : List MWord) (hinj : NoInj b) (h : n / 32 < key / 32) :
    (b.writeWords key ws).rawWord n = b.rawWord n := by
  induction ws generalizing b key with
  | nil => rfl
  | cons w ws ih =>
    rw [Blk.writeWords, ih _ (noInj_writeWord key w hinj) (by omega), writeWord_plain _ _ _ hinj, rawWord_ne _ _ _ _ _ (by omega)]

/-- Each word stands at its place, with its check bits, or inverted ones where it is poisoned. -/
theorem writeWords_word (b : Blk) (key : Nat) (ws : List MWord) (hinj : NoInj b) {n : Nat} {w : MWord} (hn : ws[n]? = some w) :
    (b.writeWords key ws).rawWord (key + 32 * n) = (w.data, poisonErr w.poison) := by
  induction ws generalizing b key n with
  | nil => simp at hn
  | cons v ws ih =>
    rw [Blk.writeWords]
    cases n with
    | zero =>
      have hv : v = w := by simpa using hn
      rw [writeWords_below _ _ (noInj_writeWord key v hinj) (by omega), writeWord_plain _ _ _ hinj, Nat.mul_zero, Nat.add_zero,
        rawWord_same _ _ _ _ _ rfl, hv]
    | succ n =>
      rw [show key + 32 * (n + 1) = key + 32 + 32 * n by omega]
      exact ih _ _ (noInj_writeWord key v hinj) (by simpa using hn)

/-- Bytes outside the words stay. -/
theorem writeWords_byte_out (b : Blk) {key a : Nat} (ws : List MWord) (hinj : NoInj b) (hkey : 32 ∣ key)
    (ha : a < key ∨ key + 32 * ws.length ≤ a) : (b.writeWords key ws).byte a = b.byte a := by
  induction ws generalizing b key with
  | nil => rfl
  | cons w ws ih =>
    rw [List.length_cons] at ha
    rw [Blk.writeWords, ih _ (noInj_writeWord key w hinj) (by omega) (by omega), writeWord_plain _ _ _ hinj,
      setRawWord_byte_out _ _ _ _ _ (by omega)]

/-! ### The start of a write, and the cores (R176, R190, R378) -/

/-- Registers of the hub and of the compute dies, below the memory dies, read as before. -/
def KeepsCores (b c : Blk) : Prop := ∀ r : Reg, r.addr < mdBase 0 → c.reg r = b.reg r

theorem keepsCores_trans (hbc : KeepsCores b c) (hcd : KeepsCores c d) : KeepsCores b d := fun r hr => (hcd r hr).trans (hbc r hr)

theorem keepsCores_foldl {α : Type} (f : Blk → α → Blk) (l : List α) (b : Blk) (h : ∀ c x, KeepsCores c (f c x)) :
    KeepsCores b (l.foldl f b) :=
  foldl_inv f (KeepsCores b) l b (fun _ _ => rfl) fun c x _ hc => keepsCores_trans hc (h c x)

/-- Events of a memory die, or of a die beyond, count in its own registers. -/
theorem keepsCores_perf (b : Blk) {die : Nat} (ev u n : Nat) (hdie : 13 ≤ die) : KeepsCores b (b.perf die ev u n) := by
  intro r hr
  refine regsKeep_perf b die ev u n r fun hmem => ?_
  obtain ⟨q, hq, hqr⟩ := List.mem_map.1 hmem
  obtain ⟨i, -, rfl⟩ := List.mem_map.1 hq
  have haddr : (Reg.perfCnt die i).addr = perfBase die + 0x80 + i * 8 := rfl
  rw [← hqr, haddr, perfBase, mdBase, dieBase, dieBase] at hr
  omega

theorem keepsCores_bursts (b : Blk) (write : Bool) (key n : Nat) : KeepsCores b (b.bursts write key n) := by
  unfold Blk.bursts
  split
  · exact fun _ _ => rfl
  · refine keepsCores_foldl _ _ b fun c i => ?_
    have hperf := keepsCores_perf c (die := 13 + chanOf (key + 32 * i) / 32) (if write then 0x03 else 0x02) (c.chanPhys (key + 32 * i)) 1
      (by omega)
    dsimp only
    split
    · split
      · exact keepsCores_trans hperf (keepsCores_perf _ _ _ _ (by omega))
      · exact hperf
    · exact hperf

theorem keepsCores_countGroup (b : Blk) (g : Nat) : KeepsCores b (b.countGroup g) := by
  refine keepsCores_trans (fun r hr => wr_reg_ne _ (ECC_RMW.count (chanOf (256 * g) / 32)) _ _ ?_) (keepsCores_perf _ _ _ _ (by omega))
  have haddr : (ECC_RMW.count (chanOf (256 * g) / 32)).reg.addr = mdBase (chanOf (256 * g) / 32) + 0x20000 + 0x200 := rfl
  rw [haddr]
  unfold mdBase dieBase at *
  omega

theorem keepsCores_countRmw (b : Blk) (key n : Nat) : KeepsCores b (b.countRmw key n) := by
  have hbursts := keepsCores_bursts b true key n
  have hgroup (c : Blk) (g : Nat) (hc : KeepsCores b c) : KeepsCores b (c.countGroup g) := keepsCores_trans hc (keepsCores_countGroup c g)
  unfold Blk.countRmw
  dsimp only
  split
  · exact hbursts
  · split
    · split
      · exact hbursts
      · exact hgroup _ _ hbursts
    · split <;> split
      · exact hbursts
      · exact hgroup _ _ hbursts
      · exact hgroup _ _ hbursts
      · exact hgroup _ _ (hgroup _ _ hbursts)

theorem keepsCores_openRegions (b : Blk) (rs : List Nat) : KeepsCores b (b.openRegions rs) := fun r _ => by
  rw [openRegions_eq]
  rfl

theorem keepsCores_openWrite (b : Blk) (key n : Nat) : KeepsCores b (b.openWrite key n) := by
  have hbegin : KeepsCores b (b.beginWrite key n) := by
    unfold Blk.beginWrite
    split
    · exact fun _ _ => rfl
    · exact keepsCores_openRegions _ _
  exact keepsCores_trans hbegin (keepsCores_countRmw _ _ _)

theorem keepsCores_openWords (b : Blk) (key : Nat) (ids : List Nat) : KeepsCores b (b.openWords key ids) := by
  unfold Blk.openWords
  split
  · exact fun _ _ => rfl
  · exact keepsCores_trans (keepsCores_openRegions _ _) (keepsCores_trans
      (keepsCores_foldl _ _ _ fun c x => keepsCores_bursts c true x 1) (keepsCores_foldl _ _ _ keepsCores_countGroup))

/-- A register of a core lies below the memory dies. -/
theorem coreReg_lt_md {c : CoreId} {r : Reg} {x : Nat} (hr : r.addr = coreBase (coreKey c / 32) (coreKey c % 32) + x) (hx : x < 0x10000) :
    r.addr < mdBase 0 := by
  have hcd := c.cd.isLt
  have hsite := c.site.isLt
  rw [hr, coreKey_div, coreKey_mod, coreBase_eq]
  unfold mdBase dieBase hubBase
  omega

/-! ### Regions of a write into SRAM -/

/-- SRAM has no regions, so that a write there begins in none (R175). -/
theorem openWrite_sram (b : Blk) {key : Nat} (n : Nat) (h : isSram key = true) :
    (b.openWrite key n).regions = b.regions ∧ (b.openWrite key n).ncache = b.ncache := by
  have hkey : 2 ^ 49 ≤ key := of_decide_eq_true h
  have hregions : regionsOf key n = [] := by
    unfold regionsOf regionOf stageKey
    rw [if_neg (show ¬key < 2 ^ 48 by omega), if_neg (by omega)]
  have hopen : b.openRegions [] = b := by simp [Blk.openRegions]
  have hbegin : b.beginWrite key n = b := by
    unfold Blk.beginWrite
    split
    · rfl
    · rw [hregions, hopen]
  rw [Blk.openWrite, hbegin, countRmw_eq]
  exact ⟨rfl, rfl⟩

/-! ### A write that lands whole -/

theorem noInj_openWrite (key n : Nat) (h : NoInj b) : NoInj (b.openWrite key n) := by
  rw [NoInj, openWrite_eq]
  exact h

theorem openWrite_byte (b : Blk) (key n a : Nat) : (b.openWrite key n).byte a = b.byte a := by
  rw [openWrite_eq]
  rfl

theorem landWords_byte_out (b : Blk) {key : Nat} (ws : List MWord) (hinj : NoInj b) (hkey : 32 ∣ key) :
    BytesKeep key (32 * ws.length) b (b.landWords key ws) := fun a ha => by
  rw [Blk.landWords, writeWords_byte_out _ _ (noInj_openWrite key _ hinj) hkey ha, openWrite_byte]

theorem landWords_word (b : Blk) (key : Nat) (ws : List MWord) (hinj : NoInj b) {n : Nat} {w : MWord} (hn : ws[n]? = some w) :
    (b.landWords key ws).rawWord (key + 32 * n) = (w.data, poisonErr w.poison) :=
  writeWords_word _ _ _ (noInj_openWrite key _ hinj) hn

theorem landWords_keepsCores (b : Blk) (key : Nat) (ws : List MWord) (hinj : NoInj b) : KeepsCores b (b.landWords key ws) := fun r hr => by
  rw [Blk.landWords, writeWords_eq _ _ _ (noInj_openWrite key _ hinj)]
  exact keepsCores_openWrite b key ws.length r hr

theorem landWords_eq (b : Blk) (key : Nat) (ws : List MWord) (hinj : NoInj b) : b.landWords key ws =
    { b with regs := (b.landWords key ws).regs, mem := (b.landWords key ws).mem, err := (b.landWords key ws).err,
             regions := (b.landWords key ws).regions, ncache := (b.landWords key ws).ncache } := by
  unfold Blk.landWords
  rw [writeWords_eq _ _ _ (noInj_openWrite key _ hinj), openWrite_eq]

/-- Words that land leave all but memory, regions, near caches and the counters of accesses alone. -/
theorem landWords_stores (b : Blk) (key : Nat) (ws : List MWord) (hinj : NoInj b) :
    Stores key (b.landWords key ws) { b with err := (b.landWords key ws).err } := by
  refine ⟨?_, fun hs => ?_⟩
  · rw [landWords_eq b key ws hinj]
  · rw [Blk.landWords, writeWords_eq _ _ _ (noInj_openWrite key _ hinj)]
    exact openWrite_sram b ws.length hs

/-! ### An operation that spills its sums -/

variable {j : MatJob} {rest : List MatJob}

theorem noInj_matTaken (k : Nat) (j : MatJob) (rest : List MatJob) (hinj : NoInj b) : NoInj (matTaken k j rest b) := hinj

/-- The words of the spill record as they land: each poisoned if the sums are (log entry 123). -/
def spillRecord (k : Nat) (j : MatJob) : List MWord :=
  (spillWords j.sums j.shape (isLee k)).map fun x => ⟨BitVec.ofNat 256 x, j.sums.poison⟩

/-- R81, R86: the operation is counted, and the words of its spill record stand at their place. -/
theorem matrixOpComplete_spill (c : CoreId) (s : State) (h : MatReady c j rest s.blk) {key : Nat} (hdst : j.dst = 1)
    (hout : j.out = some key) (hkey : 32 ∣ key) :
    let k := coreKey c
    Does (.matrixOpComplete c) s fun b =>
      let ws := spillWords j.sums j.shape (isLee k)
      (b.core k).mats = rest
        ∧ (∀ n, n < ws.length → b.rawWord (key + 32 * n) = (BitVec.ofNat 256 (ws.getD n 0), poisonErr j.sums.poison))
        ∧ BytesKeep key (32 * ws.length) s.blk b
        ∧ b.rd (MAT_OPS.count (k / 32) (k % 32)) = (s.blk.rd (MAT_OPS.count (k / 32) (k % 32)) + 1) % 2 ^ 48
        ∧ Stores key b { s.blk with err := b.err, freeCtr := b.freeCtr } := by
  intro k
  have hinj : NoInj (matTaken k j rest s.blk) := noInj_matTaken k j rest h.inj
  have hdeliver : (matTaken k j rest s.blk).deliver k j =
      (false, (0, 0), (matTaken k j rest s.blk).landWords key (spillRecord k j)) := by
    simp [Blk.deliver, Blk.deliverSpill, spillRecord, h.written, hdst, hout]
  have hend := matrixCompleteFx_delivers h hdeliver
  have hland := landWords_eq (matTaken k j rest s.blk) key (spillRecord k j) hinj
  have hword := fun n w => landWords_word (matTaken k j rest s.blk) key (spillRecord k j) hinj (n := n) (w := w)
  have hbyte := landWords_byte_out (matTaken k j rest s.blk) (spillRecord k j) hinj hkey
  have hstores := landWords_stores (matTaken k j rest s.blk) key (spillRecord k j) hinj
  have hkeeps := landWords_keepsCores (matTaken k j rest s.blk) key (spillRecord k j) hinj
  have htaken : RegsCores s.blk (matTaken k j rest s.blk) := regsCores_matTaken ..
  have hcore : ((matTaken k j rest s.blk).core k).mats = rest := by rw [matTaken_core]
  obtain ⟨hops, hmacs⟩ := matTaken_counts k j rest s.blk
  generalize (matTaken k j rest s.blk).landWords key (spillRecord k j) = d at hend hland hword hbyte hstores hkeeps
  obtain ⟨hcount, -, -⟩ := matEnded_counts (b := s.blk) hend ((hkeeps _ (coreReg_lt_md (matOps_addr k) (by decide))).trans hops)
    ((hkeeps _ (coreReg_lt_md (matMacs_addr k) (by decide))).trans hmacs)
  have hframe := hend.frame
  refine does_of_onBlk (f := matrixCompleteFx c) rfl ⟨?_, fun n hn => ?_, fun a ha => ?_, hcount, ?_, fun hs => ?_⟩
  · rw [hend.mats, hland]
    exact hcore
  · rw [hframe]
    exact hword n ⟨BitVec.ofNat 256 ((spillWords j.sums j.shape (isLee k)).getD n 0), j.sums.poison⟩ (by simp [spillRecord, hn])
  · rw [hframe]
    refine (hbyte a ?_).trans (regsCores_byte htaken a)
    rwa [spillRecord, List.length_map]
  · rw [hframe]
    rw [hstores.1]
    rw [htaken]
  · rw [hframe]
    rw [htaken] at hstores
    exact hstores.2 hs

end Sys2Proof.Proofs
end

section
/-!
PROOFS. The output conversion of a tile (R112 to R120): each sum of a plain output goes to its row's and column's place in the tensor, and
the operation that delivers them.
-/
namespace Sys2Proof.Proofs
open Sys2Proof Sys2Proof.Machine Sys2Proof.Says

variable {b c : Blk} {k d dk e : Nat} {j : MatJob} {rest : List MatJob}

/-! ### What the conversion of a tile asks of the state -/

/-- Operation `j` delivers a tile that is not poisoned to place `e`, by the valid plain descriptor `d`; the rows of the tensor do not
overlap. -/
structure TileReady (j : MatJob) (d dk e : Nat) (b : Blk) : Prop where
  clean : Clean b
  place : b.place (j.desc / 32 * 32) = some dk
  desc : d = (b.rawWord dk).1.toNat
  ok : b.descOk d false = true
  plain : plainDesc d = true
  out : j.out = some e
  aborted : j.aborted = false
  poison : j.sums.poison = false
  rows : j.sums.vals.length = j.sums.rows
  cols : ∀ r ∈ j.sums.vals, r.length = j.sums.cols
  stride : j.sums.cols ≤ (b.outAt d e j.sums.cols).stride

theorem tileReady_matTaken (h : TileReady j d dk e b) (k : Nat) : TileReady j d dk e (matTaken k j rest b) :=
  ⟨h.clean, h.place, h.desc, h.ok, h.plain, h.out, h.aborted, h.poison, h.rows, h.cols, h.stride⟩

/-- The numerics do not read the core's flags. -/
theorem sameNumerics_matTaken (k : Nat) (j : MatJob) (rest : List MatJob) (b : Blk) : SameNumerics b (matTaken k j rest b) := by
  refine ⟨fun r x hr hx => matTaken_reg _ _ _ _ ?_, rfl, fun _ => rfl⟩
  rw [hr, matFlags_addr, coreBase_eq]
  omega

/-! ### The elements of a tile -/

theorem map_zipIdx_getD {α β : Type} (l : List α) (x : α) (f : α × Nat → β) :
    l.zipIdx.map f = (List.range l.length).map fun i => f (l.getD i x, i) := by
  refine List.ext_getElem (by simp) fun i hi _ => ?_
  have hi : i < l.length := by simpa using hi
  simp [hi]

/-- The index in the tensor of the sum at row and column `p`. -/
def tileIx (b : Blk) (j : MatJob) (d e : Nat) (p : Nat × Nat) : Nat :=
  (b.outAt d e j.sums.cols).i0 + p.1 * (b.outAt d e j.sums.cols).stride + p.2

/-- The element that the sum at row and column `p` enters the conversion as. -/
def tileEl (b : Blk) (j : MatJob) (d e : Nat) (p : Nat × Nat) : ConvEl :=
  ⟨if j.sums.int then .ofInt (sext 32 (j.sums.at_ p.1 p.2)) else f32.val (j.sums.at_ p.1 p.2), p.2, tileIx b j d e p⟩

theorem tileEls (h : TileReady j d dk e b) :
    (j.sums.vals.zipIdx.map fun r => r.1.zipIdx.map fun c =>
      ConvEl.mk (if j.sums.int then .ofInt (sext 32 c.1) else f32.val c.1) c.2
        ((b.outAt d e j.sums.cols).i0 + r.2 * (b.outAt d e j.sums.cols).stride + c.2)).flatten =
      (tilePlaces j.sums).map (tileEl b j d e) := by
  rw [map_zipIdx_getD _ [], h.rows, tilePlaces, List.map_flatMap, List.flatMap_def]
  refine congrArg List.flatten (List.map_congr_left fun r hr => ?_)
  have hlen : (j.sums.vals.getD r []).length = j.sums.cols := by
    have hr : r < j.sums.vals.length := h.rows ▸ List.mem_range.1 hr
    rw [List.getD_eq_getElem _ _ hr]
    exact h.cols _ (List.getElem_mem hr)
  rw [map_zipIdx_getD _ 0, hlen, List.map_map]
  rfl

/-- What the conversion delivers for the tile. -/
def tileConv (b : Blk) (k : Nat) (j : MatJob) (d e : Nat) : ConvOut :=
  b.convTile d (fun q => ((b.fetchBias k d (List.range j.sums.cols)).1 q).1) ((tilePlaces j.sums).map (tileEl b j d e))

/-- Each sum with its code, by its index in the output's array. -/
def tileCodes (b : Blk) (k : Nat) (j : MatJob) (d e : Nat) : List (Nat × Nat) :=
  (tilePlaces j.sums).map fun p => (tileIx b j d e p, codeOf b k d (tileEl b j d e p))

theorem tileConv_plain (k : Nat) (h : TileReady j d dk e b) :
    (tileConv b k j d e).codes = tileCodes b k j d e ∧ (tileConv b k j d e).blocks = [] ∧ (tileConv b k j d e).delta = 0 := by
  obtain ⟨hcodes, hblocks, hdelta⟩ := convTile_plain b (fun q => ((b.fetchBias k d (List.range j.sums.cols)).1 q).1)
    ((tilePlaces j.sums).map (tileEl b j d e)) [] h.plain
  refine ⟨hcodes.trans ?_, hblocks, hdelta⟩
  rw [List.map_map]
  refine List.map_congr_left fun p hp => ?_
  have hcol : p.2 ∈ List.range j.sums.cols := List.mem_range.2 (mem_tilePlaces.1 hp).2
  have hpipe : b.pipe d (fun q => ((b.fetchBias k d (List.range j.sums.cols)).1 q).1) (tileEl b j d e p) =
      b.pipe d (biasAt b k d) (tileEl b j d e p) :=
    pipe_bias_congr fun hbias => congrArg Prod.fst (fetchBias_val h.clean hbias hcol)
  show (_, _) = (_, _)
  rw [hpipe]
  rfl

/-- No element of the tile comes out poisoned. -/
theorem tileEls_unpoisoned (k : Nat) (h : TileReady j d dk e b) : (((tilePlaces j.sums).map (tileEl b j d e)).filter fun el =>
    ((b.fetchBias k d (List.range j.sums.cols)).1 el.j).2) = [] := by
  refine List.filter_eq_nil_iff.2 fun el hel => ?_
  obtain ⟨p, hp, rfl⟩ := List.mem_map.1 hel
  have hcol : p.2 ∈ List.range j.sums.cols := List.mem_range.2 (mem_tilePlaces.1 hp).2
  exact Bool.not_eq_true _ ▸ fetchBias_unpoisoned h.clean hcol

/-- The write of the tile's codes begins: the words that they cover (R176). -/
def tileOpened (b : Blk) (k : Nat) (j : MatJob) (d e : Nat) : Blk :=
  b.openWords ((b.outAt d e j.sums.cols).key / 32 * 32) (coverWords ((tileCodes b k j d e).map fun c =>
    (8 * ((b.outAt d e j.sums.cols).key % 32) + fmtWidth (dFmt d) * c.1, fmtWidth (dFmt d))))

/-- The tile's codes written to their places. -/
def tileWritten (b : Blk) (k : Nat) (j : MatJob) (d e : Nat) : Blk :=
  storeElems (b.outAt d e j.sums.cols).key (fmtWidth (dFmt d) / 8) (tileCodes b k j d e) (tileOpened b k j d e)

/-- The tile goes through the conversion, is counted, and the unit's cycles are counted as work. -/
theorem deliverTile_ready (k : Nat) (h : TileReady j d dk e b) : b.deliverTile k j =
    (false, (0, 0), ((tileWritten b k j d e).countConv k d (tileConv b k j d e)).stall k 3 0 j.convTime.2) := by
  obtain ⟨-, -, htile, -⟩ := plainDesc_iff.1 h.plain
  obtain ⟨hcodes, hblocks, hdelta⟩ := tileConv_plain k h
  have hread : b.readDev (j.desc / 32 * 32) 1 (coreDie k) (k % 32) = ([⟨(b.rawWord dk).1, false⟩], b) :=
    readDev_clean b _ _ h.clean h.place
  have hwritten : b.writeConv d (b.outAt d e j.sums.cols) (tileConv b k j d e) (fun _ => false) = tileWritten b k j d e := by
    rw [writeConv_plain b _ _ _ h.plain hblocks fun _ => rfl, hcodes]
    rfl
  unfold Blk.deliverTile
  dsimp only
  rw [hread]
  simp only [List.headD_cons, ← h.desc, h.ok, h.out, h.aborted, h.poison, tileEls h, fetchBias_blk _ h.clean,
    residue_none b k 2 h.clean.2.2, tileEls_unpoisoned k h, recomputes_plain b h.plain, writeTileByte_plain _ _ _ htile,
    Bool.not_false, Bool.not_true, Bool.true_and, Bool.or_self, Bool.false_eq_true, if_false, if_true, List.map_nil, List.contains_nil]
  rw [← hwritten]
  rfl

/-! ### What a tile leaves in memory -/

/-- Rows at least their columns apart give every sum a place of its own. -/
theorem tileIx_inj (h : TileReady j d dk e b) {p q : Nat × Nat} (hp : p.2 < j.sums.cols) (hq : q.2 < j.sums.cols)
    (heq : tileIx b j d e p = tileIx b j d e q) : p = q := by
  have hstride := h.stride
  unfold tileIx at heq
  generalize (b.outAt d e j.sums.cols).stride = n at *
  have hrow : p.1 = q.1 := by
    rcases Nat.lt_trichotomy p.1 q.1 with hlt | heq | hlt
    · have := Nat.mul_le_mul_right n hlt
      rw [Nat.succ_mul] at this
      omega
    · exact heq
    · have := Nat.mul_le_mul_right n hlt
      rw [Nat.succ_mul] at this
      omega
  rw [hrow] at heq
  exact Prod.ext hrow (by omega)

theorem nodup_tilePlaces (t : AccTile) : (tilePlaces t).Nodup := by
  refine List.nodup_flatMap.2 ⟨fun i _ => List.nodup_range.map fun x y h => (Prod.ext_iff.1 h).2, ?_⟩
  refine List.nodup_range.imp fun hne => ?_
  rw [Function.onFun, List.disjoint_left]
  intro p hp hp'
  obtain ⟨_, -, rfl⟩ := List.mem_map.1 hp
  obtain ⟨_, -, heq⟩ := List.mem_map.1 hp'
  exact hne (Prod.ext_iff.1 heq).1.symm

theorem nodup_tileCodes (k : Nat) (h : TileReady j d dk e b) : ((tileCodes b k j d e).map Prod.fst).Nodup := by
  rw [tileCodes, List.map_map]
  exact (nodup_tilePlaces j.sums).map_on fun p hp q hq heq =>
    tileIx_inj h (mem_tilePlaces.1 hp).2 (mem_tilePlaces.1 hq).2 heq

theorem tileWritten_stored (k : Nat) (h : TileReady j d dk e b) :
    Stored (b.outAt d e j.sums.cols).key (fmtWidth (dFmt d) / 8) (tileCodes b k j d e) b (tileWritten b k j d e) :=
  storeElems_stored _ _ _ _ _ h.clean (nodup_tileCodes k h)

/-- Of the registers, writing the tile touches those of the memory dies alone, and no core. -/
theorem tileWritten_keeps (k : Nat) (h : TileReady j d dk e b) :
    KeepsCores b (tileWritten b k j d e) ∧ (tileWritten b k j d e).cores = b.cores := by
  have hopen : Opened b (tileOpened b k j d e) := opened_openWords ..
  have hkeeps : KeepsCores b (tileOpened b k j d e) := keepsCores_openWords _ _ _
  unfold tileWritten
  generalize tileOpened b k j d e = c at hopen hkeeps
  have hclean : Clean c := by
    rw [hopen]
    exact h.clean
  rw [memOnly_storeElems _ _ _ c hclean]
  refine ⟨hkeeps, ?_⟩
  show c.cores = b.cores
  rw [hopen]

theorem convFlags_addr (k : Nat) : (Reg.convFlags (k / 32) (k % 32)).addr = coreBase (k / 32) (k % 32) + 0x6000 := rfl
theorem convCount_addr (k : Nat) : (Reg.convCount (k / 32) (k % 32)).addr = coreBase (k / 32) (k % 32) + 0x6008 := rfl
theorem convVanish_addr (k : Nat) : (Reg.convVanish (k / 32) (k % 32)).addr = coreBase (k / 32) (k % 32) + 0x6010 := rfl

/-- A tile that is not rescaled counts in the conversion's own registers. -/
theorem countConv_reg (b : Blk) (d : Nat) {r : ConvOut} (hdelta : r.delta = 0) {q : Reg} {x : Nat}
    (hq : q.addr = coreBase (k / 32) (k % 32) + x) (hx : x < 0x6000) : (b.countConv k d r).reg q = b.reg q := by
  have hflags := coreReg_ne hq (convFlags_addr k) (Nat.ne_of_lt hx)
  have htiles := coreReg_ne hq (convCount_addr k) (Nat.ne_of_lt (Nat.lt_trans hx (by decide)))
  have hvanished := coreReg_ne hq (convVanish_addr k) (Nat.ne_of_lt (Nat.lt_trans hx (by decide)))
  unfold Blk.countConv
  dsimp only
  rw [if_pos hdelta, updScale_reg, incBy_eq, wr_reg_of _ (CONV_VANISH.vanished ..) _ _ _ rfl hvanished, incBy_eq,
    wr_reg_of _ (CONV_COUNT.tiles ..) _ _ _ rfl htiles, setReg_reg_ne _ _ _ _ hflags]

/-- What the delivery of a tile leaves: its codes at their places and its report; of the core, counters of the conversion alone change. -/
structure TileDelivered (k : Nat) (j : MatJob) (d e : Nat) (b c : Blk) : Prop where
  stored : Stored (b.outAt d e j.sums.cols).key (fmtWidth (dFmt d) / 8) (tileCodes b k j d e) { b with scale := c.scale } c
  scale : ∃ rep, c.scale = { b.scale with reports := b.scale.reports ++ [rep] }
  cores : c.cores = b.cores
  reg : ∀ (r : Reg) (x : Nat), r.addr = coreBase (k / 32) (k % 32) + x → r.addr < mdBase 0 → 0x2000 ≤ x → x < 0x6000 →
    c.reg r = b.reg r

theorem deliverTile_delivered (k : Nat) (h : TileReady j d dk e b) :
    ∃ c, b.deliverTile k j = (false, (0, 0), c) ∧ TileDelivered k j d e b c := by
  have hdelta := (tileConv_plain k h).2.2
  have hstored := tileWritten_stored k h
  obtain ⟨hkeeps, hcores⟩ := tileWritten_keeps k h
  obtain ⟨hframe, hscale⟩ := countConv_plain (tileWritten b k j d e) k d (tileConv b k j d e) hdelta
  have hstall := stall_eq ((tileWritten b k j d e).countConv k d (tileConv b k j d e)) k 3 0 j.convTime.2
  rw [stores_scale hstored.frame] at hscale
  refine ⟨_, deliverTile_ready k h, ?_, ?_, ?_, fun r x hr hmd hlo hhi => ?_⟩
  · have hsame : (((tileWritten b k j d e).countConv k d (tileConv b k j d e)).stall k 3 0 j.convTime.2).scale =
        ((tileWritten b k j d e).countConv k d (tileConv b k j d e)).scale := by rw [hstall]
    rw [hsame]
    exact stored_regsCores (stored_scale hstored _) (regsCores_refl _) (regsCores_trans (regsScale_regsCores hframe) (regsCores_stall ..))
  · rw [hstall]
    exact ⟨_, hscale⟩
  · rw [hstall, ← hcores]
    show ((tileWritten b k j d e).countConv k d (tileConv b k j d e)).cores = _
    rw [hframe]
  · have hne : r.addr ≠ (Reg.seqStall (k / 32) (k % 32) 3 0).addr := by
      rw [hr, seqStall_addr]
      omega
    rw [stall_reg_ne _ _ _ _ _ _ hne, countConv_reg _ _ hdelta hr hhi, hkeeps r hmd]

/-! ### An operation that is bound for the output conversion -/

/-- The bytes of a tile: each sum's code at its place, and every byte outside the tile's elements as before. -/
theorem stored_tile {key w : Nat} {t : AccTile} {ix v : Nat × Nat → Nat}
    (h : Stored key w ((tilePlaces t).map fun p => (ix p, v p)) b c) :
    (∀ r q n, r < t.rows → q < t.cols → n < w →
        c.byte (key + w * ix (r, q) + n) = BitVec.ofNat 8 (v (r, q) / 2 ^ (8 * n)))
      ∧ ∀ a, (∀ r q, r < t.rows → q < t.cols →
          a < key + w * ix (r, q) ∨ key + w * ix (r, q) + w ≤ a) → c.byte a = b.byte a := by
  refine ⟨fun r q n hr hq hn => h.byte _ (List.mem_map_of_mem (mem_tilePlaces.2 ⟨hr, hq⟩)) n hn, fun a ha => h.out a fun x hx => ?_⟩
  obtain ⟨p, hp, rfl⟩ := List.mem_map.1 hx
  obtain ⟨hr, hq⟩ := mem_tilePlaces.1 hp
  exact ha p.1 p.2 hr hq

theorem tileCodes_matTaken (k : Nat) (j : MatJob) (rest : List MatJob) (b : Blk) (d e : Nat) :
    tileCodes (matTaken k j rest b) k j d e = tileCodes b k j d e := by
  refine List.map_congr_left fun p _ => ?_
  rw [sameNumerics_codeOf (sameNumerics_matTaken k j rest b)]
  rfl

/-- R114, R115, R119: the codes of the tile, its report, and the count of the operation. -/
theorem matrixOutputConverts : MatrixOutputConverts := by
  intro c s j rest d dk e hclean k cd x hmats haborted hwritten hcounted hdst hpoison hrows hcols hplace hdesc hok hplain hout w out ix el
    hstride
  have h : MatReady c j rest s.blk := ⟨hclean.2.2, hmats, haborted, hwritten, hcounted⟩
  have htile : TileReady j d dk e s.blk := ⟨hclean, hplace, hdesc, hok, hplain, hout, haborted, hpoison, hrows, hcols, hstride⟩
  obtain ⟨y, hdelivers, hstored, ⟨rep, hscale⟩, hcores, hreg⟩ := deliverTile_delivered k (tileReady_matTaken (rest := rest) htile k)
  have hdeliver : (matTaken k j rest s.blk).deliver k j = (false, (0, 0), y) := by
    simp [Blk.deliver, hwritten, hdst, hdelivers]
  have hend := matrixCompleteFx_delivers h hdeliver
  have htaken : RegsCores s.blk (matTaken k j rest s.blk) := regsCores_matTaken ..
  have hcore : ((matTaken k j rest s.blk).core k).mats = rest := by rw [matTaken_core]
  obtain ⟨hops, hmacs⟩ := matTaken_counts k j rest s.blk
  obtain ⟨hcount, -, hproducts⟩ := matEnded_counts (b := s.blk) hend
    ((hreg _ _ (matOps_addr k) (coreReg_lt_md (matOps_addr k) (by decide)) (by decide) (by decide)).trans hops)
    ((hreg _ _ (matMacs_addr k) (coreReg_lt_md (matMacs_addr k) (by decide)) (by decide) (by decide)).trans hmacs)
  have hstored : Stored out.key w (tileCodes s.blk k j d e) { s.blk with scale := y.scale } y := by
    rw [← tileCodes_matTaken k j rest]
    exact stored_regsCores hstored (regsCores_withScale htaken _) (regsCores_refl _)
  obtain ⟨hin, hout⟩ := stored_tile (ix := tileIx s.blk j d e) hstored
  have hframe := hend.frame
  have hbyte (a : Nat) : (matrixCompleteFx c s.blk).byte a = y.byte a := by
    rw [hframe]
    rfl
  have hsame : (matrixCompleteFx c s.blk).scale = y.scale := by rw [hframe]
  refine does_of_onBlk (f := matrixCompleteFx c) rfl
    ⟨fun r q n hr hq hn => (hbyte _).trans (hin r q n hr hq hn), fun a ha => (hbyte a).trans (hout a ha), ?_, hcount, hproducts,
      ?_, ?_, ?_⟩
  · rw [hend.mats, Blk.core, hcores]
    exact hcore
  · rw [hsame, hscale]
    rfl
  · rw [hsame, hscale, List.length_append]
    rfl
  · rw [hsame, hframe]
    obtain ⟨hrest, hsram⟩ := hstored.frame
    refine ⟨?_, hsram⟩
    rw [hrest]

end Sys2Proof.Proofs
end

section
/-!
PROOFS. MOP (R72, R85, R143): the operation that its engine takes, and the statements of the matrix engines together (O40).
-/
namespace Sys2Proof.Proofs
open Sys2Proof Sys2Proof.Machine Sys2Proof.Says

/-! ### The operation that a MOP starts -/

/-- The sums of an operation have its rows and columns. -/
theorem mopRun_extent (b : Blk) (k : Nat) (o : MOp) : (b.mopRun k o).1.1.rows = o.m.toNat ∧ (b.mopRun k o).1.1.cols = o.n.toNat := by
  unfold Blk.mopRun
  dsimp only
  split <;> exact ⟨rfl, rfl⟩

/-- What a MOP computes at its issue; one with no row or no column reads and computes nothing (R85). -/
def mopResult (b : Blk) (k : Nat) (o : MOp) : (AccTile × Bool) × Blk :=
  if o.m = 0 ∨ o.n = 0 then ((⟨false, 0, 0, [], 0, false⟩, false), b) else b.mopRun k o

/-- The operation as the engine takes it, where no status word of a spill record misfits it. -/
structure Started (k : Nat) (o : MOp) (b : Blk) (j : MatJob) : Prop where
  written : j.written = !decide (o.m = 0 ∨ o.n = 0)
  counted : j.counted = true
  aborted : j.aborted = false
  dst : j.dst = o.accDst.toNat
  set : j.set = b2n o.accSet
  macs : j.macs = o.m.toNat * o.n.toNat * o.k.toNat
  sums : j.sums = (mopResult b k o).1.1

theorem toNat_zero_iff {n : Nat} (x : BitVec n) : x.toNat = 0 ↔ x = 0 := by simp [BitVec.toNat_eq]

/-- The engine takes operation `j`, and shows its dataflow and class (R81). -/
def engineTakes (k : Nat) (j : MatJob) (b : Blk) : Blk :=
  (((b.updCore k fun c => { c with mats := c.mats ++ [j] }).wr (MAT_STATUS.dataflow (k / 32) (k % 32)) j.dataflow).wr
    (MAT_STATUS.class_ (k / 32) (k % 32)) j.cls).showMat k

theorem engineTakes_mats (k : Nat) (j : MatJob) (b : Blk) : ((engineTakes k j b).core k).mats = (b.core k).mats ++ [j] := by
  rw [engineTakes, showMat_core, wr_core, wr_core, updCore_core_same]

theorem engineTakes_busy (k : Nat) (j : MatJob) (b : Blk) : (engineTakes k j b).on (MAT_STATUS.busy (k / 32) (k % 32)) = true := by
  refine showMat_busy _ _ ?_
  rw [wr_core, wr_core, updCore_core_same]
  simp

theorem mopStart_takes (b : Blk) (k : Nat) (o : MOp) (h : (mopResult b k o).1.2 = false) :
    ∃ j, Started k o b j ∧ b.mopStart k o = engineTakes k j (mopResult b k o).2 := by
  unfold Blk.mopStart
  simp only [toNat_zero_iff]
  rw [← mopResult]
  simp only [h, Bool.false_eq_true, if_false]
  refine ⟨_, ?_, rfl⟩
  exact ⟨rfl, rfl, rfl, rfl, rfl, rfl, rfl⟩

/-! ### The issue of a MOP (R143) -/

/-- A MOP whose guard holds starts its operation, costs one cycle, and control moves on. -/
theorem mopFx_runs (i : Issue) (o : MOp) (b : Blk) (hissue : CanIssue i b) (hguard : GuardHolds i b) (hwf : WellFormed.mop o = true) :
    mopFx i o b = ((((b.countIssue (coreKey i.core)).mopStart (coreKey i.core) o).spend (coreKey i.core) 1).jump (coreKey i.core)
      (b.pc (coreKey i.core) + 1)) := by
  obtain ⟨hissuing, hfetch⟩ := hissue
  have hon : b.guardOn (coreKey i.core) i.guard = true := hguard
  unfold mopFx
  dsimp only
  rw [if_neg fun hoff => hoff.2.2 hon, issue_runs _ _ _ _ hissuing hfetch hwf hguard]

theorem mopStartsAnOperation : MopStartsAnOperation := by
  intro i o s hissue hguard hwf k empty r hfits
  have hsums : mopResult (s.blk.countIssue k) k o =
      if empty then ((⟨false, 0, 0, [], 0, false⟩, false), s.blk.countIssue k) else r := rfl
  have hfits' : (mopResult (s.blk.countIssue k) k o).1.2 = false := by
    rw [hsums]
    split
    · rfl
    · rename_i hne
      exact hfits.resolve_left hne
  obtain ⟨j, hj, htakes⟩ := mopStart_takes _ k o hfits'
  have hruns := mopFx_runs i o s.blk hissue hguard hwf
  have hbusy := coreReg_ne (matStatus_addr k) (seqStatus_addr ..) (by decide)
  refine does_of_onBlk (f := mopFx i o) rfl ⟨j, ?_, hj.written, hj.counted, hj.aborted, hj.dst, hj.set, hj.macs, fun hne => ?_, ?_, ?_⟩
  · rw [hruns, jump_core, spend_core]
    show (((s.blk.countIssue k).mopStart k o).core k).mats = _
    rw [htakes, engineTakes_mats, hsums]
    split
    · rw [countIssue_core]
    · rfl
  · have hrun : j.sums = r.1.1 := by rw [hj.sums, hsums, if_neg hne]
    rw [hrun]
    exact ⟨rfl, mopRun_extent ..⟩
  · rw [hruns, Blk.on, Blk.rd, MAT_STATUS.busy, jump_reg_ne _ _ _ _ hbusy, spend_reg, htakes]
    exact engineTakes_busy k j _
  · exact congrArg Prod.fst (mopFx_stores i o s.blk)

/-- Settles O40: MOP by what its engine takes, and MATRIX_OP_COMPLETE by what each destination is delivered, each operation ending alike. -/
theorem matrixOperationsRunAndDeliver : Obligations.MatrixOperationsRunAndDeliver := by
  unfold Obligations.MatrixOperationsRunAndDeliver
  refine ⟨mopStartsAnOperation, ?_, matrixOutputConverts⟩
  intro c s j rest hinj k cd x hmats haborted hwritten hcounted
  have h : MatReady c j rest s.blk := ⟨hinj, hmats, haborted, hwritten, hcounted⟩
  exact ⟨fun hdst hflow hpoison _ hcols => matrixOpComplete_resident c s h hdst hflow hpoison hcols,
    fun key hdst hout hkey => matrixOpComplete_spill c s h hdst hout hkey⟩

end Sys2Proof.Proofs
end

section
/-!
PROOFS. The scale table through the writes of shard 0 (R253): memory operations, whatever an armed injection does to them, leave the
table's state and NUM_TABLE_STAT alone.
-/
namespace Sys2Proof.Proofs
open Sys2Proof Sys2Proof.Machine Sys2Proof.Says

variable {b c d : Blk}

/-- The scale table's state and its status register are as before. -/
structure SameTable (b c : Blk) : Prop where
  stat : c.reg .numTableStat = b.reg .numTableStat
  scale : c.scale = b.scale

theorem sameTable_refl (b : Blk) : SameTable b b := ⟨rfl, rfl⟩

theorem sameTable_trans (hbc : SameTable b c) (hcd : SameTable c d) : SameTable b d :=
  ⟨hcd.stat.trans hbc.stat, hcd.scale.trans hbc.scale⟩

theorem sameTable_foldl {α : Type} (f : Blk → α → Blk) (l : List α) (b : Blk) (h : ∀ c x, SameTable c (f c x)) :
    SameTable b (l.foldl f b) :=
  foldl_inv f (SameTable b) l b (sameTable_refl b) fun c x _ hc => sameTable_trans hc (h c x)

theorem sameTable_wr (b : Blk) (f : Fld) (v : Nat) (hf : Reg.numTableStat.addr ≠ f.reg.addr) : SameTable b (b.wr f v) :=
  ⟨wr_reg_ne b f _ v hf, rfl⟩

theorem sameTable_rd (h : SameTable b c) (f : Fld) (hf : f.reg = .numTableStat) : c.rd f = b.rd f := by
  rw [Blk.rd, Blk.rd, hf, h.stat]

theorem sameTable_bank (h : SameTable b c) (shadow : Bool) : c.bank shadow = b.bank shadow := by
  rw [Blk.bank, Blk.bank, Blk.on, Blk.on, sameTable_rd h _ rfl, h.scale]

/-- No RAS block's injection register is NUM_TABLE_STAT. -/
theorem numTableStat_ne_rasInjCtrl (block : Nat) : Reg.numTableStat.addr ≠ (Reg.rasInjCtrl block).addr := by
  have hstat : Reg.numTableStat.addr = hubBase + 0x50020 := rfl
  have hinj : (Reg.rasInjCtrl block).addr = rasBase block + 0x18 := rfl
  rw [hstat, hinj, rasBase, dieBase_eq]
  split <;> omega

theorem sameTable_fire (b : Blk) (det : Nat) (sel : Inject → Bool) : SameTable b (b.fire det sel).2 := by
  unfold Blk.fire
  split
  · exact sameTable_refl b
  · next i _ =>
    dsimp only
    rw [satBy_eq]
    have hupd (f : RasSt → RasSt) : SameTable b (b.updRas f) := ⟨rfl, rfl⟩
    have hinj (c : Blk) (f : Fld) (v : Nat) (hf : f.reg = .rasInjCtrl i.block) : SameTable c (c.wr f v) :=
      sameTable_wr c f v (by rw [hf]; exact numTableStat_ne_rasInjCtrl i.block)
    split
    · exact sameTable_trans (sameTable_trans (hupd _) (hinj _ _ _ rfl)) (hinj _ _ _ rfl)
    · exact sameTable_trans (hupd _) (hinj _ _ _ rfl)

theorem sameTable_fireWrite (b : Blk) (key : Nat) : SameTable b (b.fireWrite key).2 := by
  have hfire := sameTable_fire b
  unfold Blk.fireWrite
  dsimp only
  split
  · exact hfire _ _
  · split
    · exact hfire _ _
    · exact hfire _ _

theorem sameTable_setRawWord (b : Blk) (key : Nat) (w : Word) (e : BitVec 32) : SameTable b (b.setRawWord key w e) := by
  have h := setRawWord_eq b key w e
  generalize b.setRawWord key w e = c at h
  rw [h]
  exact ⟨rfl, rfl⟩

theorem sameTable_writeWord (b : Blk) (key : Nat) (w : MWord) : SameTable b (b.writeWord key w) := by
  have hfire := sameTable_fireWrite b key
  have hfresh (c : Blk) : SameTable c c.fresh.2 := ⟨rfl, rfl⟩
  have hras (c : Blk) (f : RasSt → RasSt) : SameTable c (c.updRas f) := ⟨rfl, rfl⟩
  unfold Blk.writeWord
  split
  · exact sameTable_setRawWord ..
  · dsimp only
    split
    · exact sameTable_trans hfire (sameTable_setRawWord ..)
    · exact sameTable_trans (sameTable_trans hfire (hfresh _)) (sameTable_trans (sameTable_setRawWord ..) (hras _ _))

theorem sameTable_writeWords (b : Blk) (key : Nat) (ws : List MWord) : SameTable b (b.writeWords key ws) := by
  induction ws generalizing b key with
  | nil => exact sameTable_refl b
  | cons w ws ih => exact sameTable_trans (sameTable_writeWord b key w) (ih _ _)

/-- NUM_TABLE_STAT lies in the hub, where the start of a write counts nothing. -/
theorem sameTable_openWrite (b : Blk) (key n : Nat) : SameTable b (b.openWrite key n) :=
  ⟨keepsCores_openWrite b key n _ (by decide), by rw [openWrite_eq]⟩

theorem sameTable_openWords (b : Blk) (key : Nat) (ids : List Nat) : SameTable b (b.openWords key ids) := by
  refine ⟨keepsCores_openWords b key ids _ (by decide), ?_⟩
  have h := opened_openWords b key ids
  unfold Opened at h
  rw [h]

theorem sameTable_putScaleEntry (b : Blk) (key t : Nat) (e : ScaleEnt) : SameTable b (b.putScaleEntry key t e) :=
  sameTable_writeWords ..

theorem sameTable_writeShard0 (b : Blk) : SameTable b b.writeShard0 := by
  unfold Blk.writeShard0
  split
  · exact sameTable_refl b
  · split
    · exact sameTable_refl b
    · exact sameTable_trans (sameTable_trans (sameTable_openWrite ..) (sameTable_writeWord ..))
        (sameTable_foldl _ _ _ fun c t => sameTable_putScaleEntry ..)

theorem sameTable_rewriteShard0 (b : Blk) : SameTable b b.rewriteShard0 := by
  unfold Blk.rewriteShard0
  split
  · exact sameTable_refl b
  · split
    · exact sameTable_refl b
    · split
      · exact sameTable_refl b
      · exact sameTable_trans (sameTable_openWords ..) (sameTable_foldl _ _ _ fun c t => sameTable_putScaleEntry ..)

end Sys2Proof.Proofs
end

section
/-!
PROOFS. The scale table in PREPARE (R125 to R128, O6): reports join the pending sets, the latch starts the shadow bank as a copy, and
the rebuild replaces the entries that it reaches.
-/
namespace Sys2Proof.Proofs
open Sys2Proof Sys2Proof.Machine Sys2Proof.Says

variable {b c : Blk}

/-! ### Banks -/

/-- The field that tells the banks apart decides which is which. -/
theorem bank_congr (hactive : c.on NUM_TABLE_STAT.active_bank = b.on NUM_TABLE_STAT.active_bank) (h0 : c.scale.bank0 = b.scale.bank0)
    (h1 : c.scale.bank1 = b.scale.bank1) (shadow : Bool) : c.bank shadow = b.bank shadow := by
  rw [Blk.bank, Blk.bank, hactive, h0, h1]

@[simp] theorem setBank_reg (b : Blk) (shadow : Bool) (m : Sp ScaleEnt) (r : Reg) : (b.setBank shadow m).reg r = b.reg r := by
  unfold Blk.setBank
  split <;> rfl

@[simp] theorem setBank_rd (b : Blk) (shadow : Bool) (m : Sp ScaleEnt) (f : Fld) : (b.setBank shadow m).rd f = b.rd f := by
  rw [Blk.rd, setBank_reg, Blk.rd]

@[simp] theorem setBank_on (b : Blk) (shadow : Bool) (m : Sp ScaleEnt) (f : Fld) : (b.setBank shadow m).on f = b.on f := by
  rw [Blk.on, setBank_rd, Blk.on]

/-- Setting a bank leaves the rest of the table's state alone. -/
theorem setBank_scale (b : Blk) (shadow : Bool) (m : Sp ScaleEnt) : (b.setBank shadow m).scale =
    { b.scale with bank0 := (b.setBank shadow m).scale.bank0, bank1 := (b.setBank shadow m).scale.bank1 } := by
  unfold Blk.setBank
  split <;> rfl

theorem setBank_bank_same (b : Blk) (shadow : Bool) (m : Sp ScaleEnt) : (b.setBank shadow m).bank shadow = m := by
  rw [Blk.bank, setBank_on, Blk.setBank]
  split <;> rfl

/-- Setting the shadow bank leaves the active one alone. -/
theorem setBank_shadow_active (b : Blk) (m : Sp ScaleEnt) : (b.setBank true m).bank false = b.bank false := by
  rw [Blk.bank, setBank_on, Blk.setBank, Blk.bank]
  cases b.on NUM_TABLE_STAT.active_bank <;> rfl

/-- A write of NUM_TABLE_STAT beside its lowest bit leaves both banks where they are. -/
theorem wr_bank (b : Blk) (f : Fld) (v : Nat) (hf : f.reg = .numTableStat) (hlo : 1 ≤ f.lo) (shadow : Bool) :
    (b.wr f v).bank shadow = b.bank shadow :=
  bank_congr (wr_on_disj b f _ v hf.symm (.inl hlo) (by decide)) rfl rfl shadow

/-! ### Reports (R126) -/

theorem conversionReportFx_cons (b : Blk) {r : ScaleReport} {rest : List ScaleReport} (h : b.scale.reports = r :: rest) :
    conversionReportFx b = { b with scale := { b.scale with
      pending := Sp.set PendSet.init b.scale.pending r.tid
        ((b.pendSet r.tid).merge ⟨r.captured, r.amax, r.nonfinite, r.vanished, r.nonzero⟩), reports := rest } } := by
  unfold conversionReportFx
  rw [h]
  rfl

theorem report_joins (s : State) (r : ScaleReport) (rest : List ScaleReport) (h : s.blk.scale.reports = r :: rest) :
    Does .conversionReport s fun b =>
      let p := s.blk.pendSet r.tid
      b.pendSet r.tid = ⟨p.captured || r.captured, max p.amax r.amax, p.nonfinite || r.nonfinite, p.vanished + r.vanished,
        p.nonzero + r.nonzero⟩
        ∧ (∀ t, t ≠ r.tid → b.pendSet t = s.blk.pendSet t) ∧ b.scale.reports = rest
        ∧ b = { s.blk with scale := { s.blk.scale with pending := b.scale.pending, reports := rest } } := by
  refine does_of_onBlk (f := conversionReportFx) rfl ?_
  rw [conversionReportFx_cons _ h]
  exact ⟨Sp.get_set_same .., fun t ht => Sp.get_set_ne _ _ _ _ _ ht, rfl, rfl⟩

/-! ### The latch (R127) -/

/-- The pending sets latched and cleared, in PREPARE (R127). -/
def latched (b : Blk) : Blk :=
  b.updScale fun z =>
    { z with latched := some (latchOver (z.latched.getD []) z.pending), pending := [], rebuilt := [], boundary := none }

theorem pendingLatchFx_due (h : b.latchDue = true) : pendingLatchFx b =
    (((latched b).setBank true ((latched b).bank false)).wr NUM_TABLE_STAT.rebuilding 1).wr NUM_TABLE_STAT.done 0 := by
  unfold pendingLatchFx latched
  simp only [h, not_true_eq_false, false_and, if_false, if_true]

theorem latched_bank (b : Blk) (shadow : Bool) : (latched b).bank shadow = b.bank shadow := bank_congr rfl rfl rfl shadow

theorem pendingLatchFx_bank (h : b.latchDue = true) (shadow : Bool) : (pendingLatchFx b).bank shadow = b.bank false := by
  rw [pendingLatchFx_due h, wr_bank _ _ _ rfl (by decide), wr_bank _ _ _ rfl (by decide)]
  cases shadow with
  | false => rw [setBank_shadow_active, latched_bank]
  | true => rw [setBank_bank_same, latched_bank]

theorem pendingSets_latched (s : State) (hdue : s.blk.latchDue = true) (hnone : s.blk.scale.latched = none) :
    Does .pendingSetLatch s fun b =>
      b.scale.latched = some (latchOver [] s.blk.scale.pending) ∧ b.scale.pending = [] ∧ b.scale.boundary = none ∧ b.scale.rebuilt = []
        ∧ b.rd NUM_TABLE_STAT.rebuilding = 1 ∧ b.rd NUM_TABLE_STAT.done = 0
        ∧ b.rd NUM_TABLE_STAT.active_bank = s.blk.rd NUM_TABLE_STAT.active_bank
        ∧ b.bank false = s.blk.bank false ∧ b.bank true = s.blk.bank false := by
  refine does_of_onBlk (f := latchFx) rfl ?_
  have hfx : latchFx s.blk = (pendingLatchFx s.blk).writeShard0 := if_pos hdue
  have hsame := sameTable_writeShard0 (pendingLatchFx s.blk)
  rw [hfx, hsame.scale, sameTable_rd hsame _ rfl, sameTable_rd hsame _ rfl, sameTable_rd hsame _ rfl, sameTable_bank hsame,
    sameTable_bank hsame, pendingLatchFx_bank hdue, pendingLatchFx_bank hdue, pendingLatchFx_due hdue, wr_scale, wr_scale, setBank_scale]
  refine ⟨?_, rfl, rfl, rfl, ?_, ?_, ?_, rfl, rfl⟩
  · show some (latchOver (s.blk.scale.latched.getD []) s.blk.scale.pending) = _
    rw [hnone]
    rfl
  · exact (wr_rd_disj _ NUM_TABLE_STAT.done NUM_TABLE_STAT.rebuilding _ rfl (by decide) (by decide)).trans
      (wr_rd_same _ _ _ (by decide))
  · exact wr_rd_same _ _ _ (by decide)
  · rw [wr_rd_disj _ NUM_TABLE_STAT.done NUM_TABLE_STAT.active_bank _ rfl (by decide) (by decide),
      wr_rd_disj _ NUM_TABLE_STAT.rebuilding NUM_TABLE_STAT.active_bank _ rfl (by decide) (by decide), setBank_rd, latched, updScale_rd]

/-! ### The rebuild (R127, R128) -/

/-- The first `n` valid entries of the active bank, rebuilt with the latched sets `l`, stand in the shadow bank, and the rebuild is over. -/
def Reached (l : Sp PendSet) (n : Nat) (b c : Blk) : Prop :=
  c.rd NUM_TABLE_STAT.rebuilding = 0 ∧ c.rd NUM_TABLE_STAT.done = (b.validIds.take n).length
    ∧ c.scale.rebuilt = b.validIds.take n ∧ c.bank false = b.bank false
    ∧ (∀ t ∈ b.validIds.take n, Sp.get ScaleEnt.init (c.bank true) t = (b.entry t).rebuild (Sp.get PendSet.init l t))
    ∧ ∀ t, t ∉ b.validIds.take n → Sp.get ScaleEnt.init (c.bank true) t = Sp.get ScaleEnt.init (b.bank true) t

theorem reached_sameTable {l : Sp PendSet} {n : Nat} {d : Blk} (h : Reached l n b c) (hcd : SameTable c d) : Reached l n b d := by
  unfold Reached
  rw [sameTable_rd hcd _ rfl, sameTable_rd hcd _ rfl, hcd.scale, sameTable_bank hcd, sameTable_bank hcd]
  exact h

/-- The shadow bank with the entries `ids` rebuilt. -/
def rebuiltBank (b : Blk) (l : Sp PendSet) (ids : List Nat) : Sp ScaleEnt :=
  ids.foldl (fun m t => Sp.set ScaleEnt.init m t ((b.entry t).rebuild (Sp.get PendSet.init l t))) (b.bank true)

theorem rebuildFirst_latched (b : Blk) (n : Nat) {l : Sp PendSet} (hl : b.scale.latched = some l) : b.rebuildFirst n =
    ((b.setBank true (rebuiltBank b l (b.validIds.take n))).updScale fun z => { z with rebuilt := b.validIds.take n }).wr
      NUM_TABLE_STAT.done (b.validIds.take n).length := by
  unfold Blk.rebuildFirst
  rw [hl]
  rfl

theorem rebuildFirst_reached (b : Blk) (n : Nat) {l : Sp PendSet} (hl : b.scale.latched = some l) (hlen : b.validIds.length ≤ 16384) :
    Reached l n b ((b.rebuildFirst n).wr NUM_TABLE_STAT.rebuilding 0) := by
  have hbank (shadow : Bool) : ((b.rebuildFirst n).wr NUM_TABLE_STAT.rebuilding 0).bank shadow
      = (b.setBank true (rebuiltBank b l (b.validIds.take n))).bank shadow := by
    rw [rebuildFirst_latched b n hl, wr_bank _ _ _ rfl (by decide), wr_bank _ _ _ rfl (by decide)]
    exact bank_congr rfl rfl rfl shadow
  have hdone : (b.validIds.take n).length < 2 ^ 15 := by
    have := List.length_take_le' n b.validIds
    omega
  refine ⟨wr_rd_same _ _ _ (by decide), ?_, ?_, ?_, fun t ht => ?_, fun t ht => ?_⟩
  · rw [wr_rd_disj _ NUM_TABLE_STAT.rebuilding NUM_TABLE_STAT.done _ rfl (by decide) (by decide), rebuildFirst_latched b n hl,
      wr_rd_same _ _ _ (by decide)]
    exact Nat.mod_eq_of_lt hdone
  · rw [rebuildFirst_latched b n hl]
    rfl
  · rw [hbank, setBank_shadow_active]
  · rw [hbank, setBank_bank_same]
    exact get_foldl_set ScaleEnt.init (fun t => (b.entry t).rebuild (Sp.get PendSet.init l t)) _ _ t ht
  · rw [hbank, setBank_bank_same]
    exact foldl_keep _ (fun m => Sp.get ScaleEnt.init m t) _ _ fun m u hu => Sp.get_set_ne _ _ _ _ _ fun h => ht (h ▸ hu)

theorem rebuild_completes (s : State) (l : Sp PendSet) (hon : s.blk.on NUM_TABLE_STAT.rebuilding = true)
    (hl : s.blk.scale.latched = some l) (hlen : s.blk.validIds.length ≤ 16384)
    (hlimit : ∀ t, s.blk.rebuildLimit = some t → s.blk.now ≤ t) :
    Does .scaleRebuildComplete s (Reached l s.blk.validIds.length s.blk) := by
  refine does_of_onBlk (f := endRebuildFx) rfl ?_
  have hreached := rebuildFirst_reached s.blk s.blk.validIds.length hl hlen
  have hfx : rebuildCompleteFx s.blk = (s.blk.rebuildFirst s.blk.validIds.length).wr NUM_TABLE_STAT.rebuilding 0 :=
    if_neg (by simp [hon])
  rw [← hfx] at hreached
  unfold endRebuildFx
  rw [if_neg (by simp [hon])]
  split
  · next t ht =>
    rw [if_pos (hlimit t ht)]
    exact reached_sameTable hreached (sameTable_rewriteShard0 _)
  · exact hreached

theorem rebuild_stops (s : State) (l : Sp PendSet) (n t : Nat) (hon : s.blk.on NUM_TABLE_STAT.rebuilding = true)
    (hl : s.blk.scale.latched = some l) (hlen : s.blk.validIds.length ≤ 16384) (hlimit : s.blk.rebuildLimit = some t)
    (hdue : t ≤ s.blk.now) : Does (.scaleRebuildStop n) s (Reached l n s.blk) := by
  refine does_of_onBlk (f := stopRebuildFx n) rfl ?_
  have hfx : rebuildStopFx n s.blk = (s.blk.rebuildFirst n).wr NUM_TABLE_STAT.rebuilding 0 := if_neg (by simp [hon])
  unfold stopRebuildFx
  rw [if_pos (by simp [hon, hlimit, hdue]), hfx]
  exact reached_sameTable (rebuildFirst_reached s.blk n hl hlen) (sameTable_rewriteShard0 _)

/-- Settles O6: each command's effect on the table's state, which the shards written beside it leave alone. -/
theorem scaleTableLatchesAndRebuilds : Obligations.ScaleTableLatchesAndRebuilds := by
  refine ⟨report_joins, pendingSets_latched, fun s l hon hl hlen _ => ⟨fun hlimit => ?_, fun n t hlimit hdue => ?_⟩⟩
  · exact rebuild_completes s l hon hl hlen hlimit
  · exact rebuild_stops s l n t hon hl hlen hlimit hdue

end Sys2Proof.Proofs
end

section
/-!
PROOFS. A write that reaches its register: what it leaves in the fields, by access code (R6 to R10), and its completion (R367 to R369).
-/
namespace Sys2Proof.Proofs
open Sys2Proof Sys2Proof.Machine Sys2Proof.Says

variable {b c : Blk}

/-! ### Bits of the written value -/

theorem bits_or_two_pow_ne (x : Nat) {n lo w : Nat} (h : lo + w ≤ n ∨ n < lo) : bits (x ||| 2 ^ n) lo w = bits x lo w := by
  apply Nat.eq_of_testBit_eq; intro i
  rw [testBit_bits, testBit_bits, Nat.testBit_or, Nat.testBit_two_pow]
  by_cases hi : i < w
  · simp [show ¬n = lo + i by omega]
  · simp [hi]

theorem bits_or_two_pow_same (x n : Nat) : bits (x ||| 2 ^ n) n 1 = 1 := by
  have hset : (bits (x ||| 2 ^ n) n 1).testBit 0 = true := by
    rw [testBit_bits, Nat.testBit_or, Nat.testBit_two_pow]
    simp
  have hlt : bits (x ||| 2 ^ n) n 1 < 2 := bits_lt ..
  obtain h | h : bits (x ||| 2 ^ n) n 1 = 0 ∨ bits (x ||| 2 ^ n) n 1 = 1 := by omega
  · rw [h] at hset
    exact absurd hset (by decide)
  · exact h

theorem bits_one_ne_zero (x i : Nat) : decide (bits x i 1 ≠ 0) = bit x i := by
  rw [bits, Nat.shiftRight_eq_div_pow, bit, Nat.testBit_eq_decide_div_mod_eq]
  exact decide_eq_decide.2 (by omega)

/-- A field of two bytes is its low byte and its high byte. -/
theorem bits_two_bytes (x : Nat) : bits x 0 16 = bits x 0 8 + 2 ^ 8 * bits x 8 8 := by
  simp only [bits, Nat.shiftRight_eq_div_pow]
  omega

/-! ### What a write leaves in its register -/

/-- Register `r` after a write of `v` that is no verified command, before what the write starts. -/
def written (b : Blk) (r : Reg) (v : Nat) : Blk := b.setReg r (b.mergeWrite false r v)

variable {r : Reg} {f : FieldSpec}

theorem written_rd (b : Blk) (v : Nat) (hf : f ∈ r.fields) :
    (written b r v).rd ⟨r, f.lo, f.w⟩ = fieldAfter b.locked f (b.rd ⟨r, f.lo, f.w⟩) (bits v f.lo f.w) := by
  rw [Blk.rd, written, setReg_reg_same, bits_mod _ _ _ _ (field_in_word hf), bits_mergeWrite _ _ _ _ hf, Blk.rd]

theorem written_rd_ro (b : Blk) (v : Nat) (hf : f ∈ r.fields) (hacc : f.acc = .ro) :
    (written b r v).rd ⟨r, f.lo, f.w⟩ = b.rd ⟨r, f.lo, f.w⟩ := by
  rw [written_rd b v hf, fieldAfter, hacc]

theorem written_rd_rw (b : Blk) (v : Nat) (hf : f ∈ r.fields) (hacc : f.acc = .rw) :
    (written b r v).rd ⟨r, f.lo, f.w⟩ = bits v f.lo f.w := by
  rw [written_rd b v hf, fieldAfter, hacc]

theorem written_rd_rwl (v : Nat) (hf : f ∈ r.fields) (hacc : f.acc = .rwl) (hlocked : b.locked = false) :
    (written b r v).rd ⟨r, f.lo, f.w⟩ = bits v f.lo f.w := by
  rw [written_rd b v hf, fieldAfter, hacc, hlocked]
  rfl

/-- A one sets a one-bit W1S field (R7). -/
theorem written_rd_w1s (b : Blk) (v : Nat) (hf : f ∈ r.fields) (hacc : f.acc = .w1s) (hw : f.w = 1) (hv : bits v f.lo 1 = 1) :
    (written b r v).rd ⟨r, f.lo, f.w⟩ = 1 := by
  rw [written_rd b v hf, fieldAfter, hacc, hw, hv]
  have hold : b.rd ⟨r, f.lo, 1⟩ < 2 := rd_lt ..
  obtain h | h : b.rd ⟨r, f.lo, 1⟩ = 0 ∨ b.rd ⟨r, f.lo, 1⟩ = 1 := by omega
  · rw [h]
    rfl
  · rw [h]
    rfl

theorem regsOnly_written (b : Blk) (r : Reg) (v : Nat) : RegsOnly [r] b (written b r v) :=
  ⟨fun q hq => setReg_reg_ne _ _ _ _ (by simpa using hq), rfl⟩

theorem regsOnly_out {l : List Reg} (h : RegsOnly l b c) : c.out = b.out := by rw [h.2]
theorem regsOnly_ras {l : List Reg} (h : RegsOnly l b c) : c.ras = b.ras := by rw [h.2]

theorem written_dstate (hr : Reg.ctlState.addr ≠ r.addr) (b : Blk) (v : Nat) : (written b r v).dstate = b.dstate :=
  regsOnly_rd (regsOnly_written b r v) CTL_STATE.state (by simpa [CTL_STATE.state] using hr)

theorem written_locked (hr : Reg.ctlState.addr ≠ r.addr) (b : Blk) (v : Nat) : (written b r v).locked = b.locked := by
  rw [Blk.locked, Blk.locked, written_dstate hr]

/-- Where nothing stands in the write's way, the register is written and starts what it starts. -/
theorem writeReg_acts (r : Reg) (v : Nat) (hinj : b.injLocked r = false) (hdiscards : ∀ x, b.discards r x = false)
    (hclamp : ∀ x, clampReg r x = x) (hsched : ∀ n, r ≠ .mtcSchedAct n) (hstatus : writeStatus r b.locked = 0) :
    b.writeReg false r v = (0, (written b r v).afterWrite r (b.reg r) v) := by
  have hst : (if (r.fields.any fun f => f.acc = .rwq) && !false then stQuorum
      else if (r.fields.any fun f => f.acc = .rwl) && b.locked then stLock else stDone) = 0 := by
    rw [← hstatus]
    simp [writeStatus, stQuorum, stLock, stDone]
  simp only [Blk.writeReg, hinj, hdiscards, hclamp, Bool.false_eq_true, if_false]
  rw [hst]
  rfl

/-! ### A write that reaches its register -/

/-- `r` is the register at its device address, in the space of die `d`. -/
@[reducible] def Mapped (d : Nat) (r : Reg) : Prop :=
  regOfAddr r.addr = some r ∧ r.addr % 8 = 0 ∧ isRegAddr r.addr = true ∧ dieOfAddr r.addr = d

theorem reaches_hub {q : Path} (ho : OpenPath q b) : Reaches q 0 b := ⟨ho, fun h => absurd h.1 (by decide)⟩

/-- Past STANDBY every die but a compute die without rails has power (R374). -/
theorem poweredOff_reached {q : Path} {a d : Nat} (h : Reaches q d b) (hd : dieOfAddr a = d) (write : Bool) :
    b.poweredOff a write = false := by
  obtain ⟨⟨-, -, -, hst⟩, hcd⟩ := h
  unfold Blk.poweredOff
  rw [hd]
  by_cases hcompute : 1 ≤ d ∧ d ≤ 12
  · simp [hcompute, hcd hcompute]
  · simp [hcompute, Nat.not_le.2 hst]

/-- A write that its path admits completes with what the register answers (R367 to R369). -/
theorem writeAt_mapped {q : Path} {d v st : Nat} (hmap : Mapped d r) (hreach : Reaches q d b)
    (hw : b.writeReg false r v = (st, c)) : writeAt q r v b = c.emit (.access q st 0) := by
  obtain ⟨hr, hal, hreg, hd⟩ := hmap
  have hoff := poweredOff_reached hreach hd true
  obtain ⟨⟨hopen, hdbg, -, -⟩, -⟩ := hreach
  have hwrite : b.regWrite false q r.addr 8 v = (st, c) := by
    unfold Blk.regWrite
    rw [if_neg (by simp [hal, hreg]), hdbg, hoff, hr]
    simpa using hw
  rw [writeAt, writeFx_open _ _ _ _ _ hopen, hwrite]

/-- A command that writes one register does what the answered block satisfies once the completion has left. -/
theorem does_writeAt {i : Instr} {s : State} {P : Blk → Prop} {q : Path} {d v : Nat} (hc : exec i s = onBlk s (writeAt q r v))
    (hmap : Mapped d r) (hreach : Reaches q d s.blk) (hw : s.blk.writeReg false r v = (0, c)) (h : P (c.emit (.access q 0 0))) :
    Does i s P :=
  does_of_onBlk hc (by rwa [writeAt_mapped hmap hreach hw])

theorem completes_emit {q : Path} {st : Nat} {v : Quad} (h : c.out = b.out) : Completes q st v b (c.emit (.access q st v)) := by
  rw [Completes, emit_out, h]

theorem regsKeep_emit {l : List Reg} (o : Out) (h : RegsKeep l b c) : RegsKeep l b (c.emit o) := h

end Sys2Proof.Proofs
end

section
/-!
PROOFS. Register writes that start or end something (O11): R125, R164, R225, R292, R328, R375, R378.
-/
namespace Sys2Proof.Proofs
open Sys2Proof Sys2Proof.Machine Sys2Proof.Says

variable {b : Blk}

/-! ### NUM_ENTRY_CFG (R125) -/

/-- An entry under the configuration that NUM_ENTRY_CFG holds; a ring of another length starts empty. -/
def configured (b : Blk) (e : ScaleEnt) : ScaleEnt :=
  let h := b.rd NUM_ENTRY_CFG.hist_len + 1
  let e := if e.hist = h then e else { e with hist := h, ring := [], count := 0, head := 0 }
  { e with fmt := b.rd NUM_ENTRY_CFG.fmt, sgn := b.on NUM_ENTRY_CFG.signed, valid := b.on NUM_ENTRY_CFG.valid,
           margin := b.rd NUM_ENTRY_CFG.margin, grad := b.on NUM_ENTRY_CFG.grad, x := b.rdI NUM_ENTRY_CFG.x }

theorem configured_hist (b : Blk) (e : ScaleEnt) : (configured b e).hist = b.rd NUM_ENTRY_CFG.hist_len + 1 := by
  unfold configured
  dsimp only
  split
  · assumption
  · rfl

theorem configured_same (b : Blk) {e : ScaleEnt} (h : e.hist = b.rd NUM_ENTRY_CFG.hist_len + 1) :
    (configured b e).ring = e.ring ∧ (configured b e).count = e.count := by
  unfold configured
  simp only [h, if_true, and_self]

theorem configured_count (b : Blk) {e : ScaleEnt} (h : e.hist ≠ b.rd NUM_ENTRY_CFG.hist_len + 1) : (configured b e).count = 0 := by
  unfold configured
  simp only [h, if_false]

/-- The selected entry of either bank is configured. -/
theorem entryCfg_bank (b : Blk) (shadow : Bool) : b.entryCfg.bank shadow =
    Sp.set ScaleEnt.init (b.bank shadow) (b.rd NUM_ENTRY_SEL.tensor_id)
      (configured b (Sp.get ScaleEnt.init (b.bank shadow) (b.rd NUM_ENTRY_SEL.tensor_id))) := by
  unfold Blk.entryCfg Blk.bank
  dsimp only
  rw [updScale_on]
  split <;> rfl

theorem writeReg_numEntryCfg (v : Nat) (hlocked : b.locked = false) :
    b.writeReg false .numEntryCfg v = (0, (written b .numEntryCfg v).entryCfg) := by
  rw [writeReg_acts .numEntryCfg v rfl (fun _ => rfl) (fun _ => rfl) nofun (by rw [hlocked]; rfl)]
  exact congrArg (Prod.mk 0) (if_neg (by simp [written_locked, hlocked, show Reg.ctlState.addr ≠ Reg.numEntryCfg.addr by decide]))

theorem numEntryCfg_mapped : Mapped 0 .numEntryCfg := by decide +kernel

theorem entry_configured (q : Path) (v : BitVec 64) (s : State) (ho : OpenPath q s.blk) (hlocked : s.blk.locked = false) :
    Does (.numEntryCfgWrite q v) s fun b =>
      let t := s.blk.rd NUM_ENTRY_SEL.tensor_id
      (∀ sh : Bool, let e := Sp.get ScaleEnt.init (b.bank sh) t
        let o := Sp.get ScaleEnt.init (s.blk.bank sh) t
        e.fmt = bits v.toNat 0 4 ∧ e.sgn = bit v.toNat 4 ∧ e.valid = bit v.toNat 5 ∧ e.hist = bits v.toNat 6 6 + 1
          ∧ e.margin = bits v.toNat 12 4 ∧ e.grad = bit v.toNat 16 ∧ e.x = sext 10 (bits v.toNat 17 10)
          ∧ (o.hist = e.hist → e.ring = o.ring ∧ e.count = o.count) ∧ (o.hist ≠ e.hist → e.count = 0)
          ∧ ∀ u, u ≠ t → Sp.get ScaleEnt.init (b.bank sh) u = Sp.get ScaleEnt.init (s.blk.bank sh) u)
        ∧ Completes q 0 0 s.blk b ∧ RegsKeep [.numEntryCfg] s.blk b := by
  refine does_writeAt rfl numEntryCfg_mapped (reaches_hub ho) (writeReg_numEntryCfg v.toNat hlocked) ?_
  let w := written s.blk .numEntryCfg v.toNat
  have hkeep : RegsOnly [.numEntryCfg] s.blk w := regsOnly_written ..
  have hfield (f : FieldSpec) (hf : f ∈ Reg.numEntryCfg.fields) (hacc : f.acc = .rwl) :
      w.rd ⟨.numEntryCfg, f.lo, f.w⟩ = bits v.toNat f.lo f.w := written_rd_rwl _ hf hacc hlocked
  have hhist : w.rd NUM_ENTRY_CFG.hist_len = bits v.toNat 6 6 := hfield ⟨6, 6, .rwl, .w, 15⟩ (by decide) rfl
  have hbit (f : Fld) (hf : w.rd f = bits v.toNat f.lo 1) : w.on f = bit v.toNat f.lo := by
    rw [Blk.on, hf, bits_one_ne_zero]
  have hold (sh : Bool) : w.bank sh = s.blk.bank sh := by
    refine bank_congr (b := s.blk) (c := w) ?_ rfl rfl sh
    rw [Blk.on, Blk.on, regsOnly_rd hkeep _ (by decide)]
  have hbank (sh : Bool) : w.entryCfg.bank sh = Sp.set ScaleEnt.init (s.blk.bank sh) (s.blk.rd NUM_ENTRY_SEL.tensor_id)
      (configured w (Sp.get ScaleEnt.init (s.blk.bank sh) (s.blk.rd NUM_ENTRY_SEL.tensor_id))) := by
    rw [entryCfg_bank, hold, regsOnly_rd hkeep _ (by decide)]
  refine ⟨fun sh => ?_, completes_emit rfl, regsKeep_emit _ hkeep.1⟩
  have hemit (o : Out) : (w.entryCfg.emit o).bank sh = w.entryCfg.bank sh := rfl
  dsimp only
  rw [hemit, hbank, Sp.get_set_same]
  generalize Sp.get ScaleEnt.init (s.blk.bank sh) (s.blk.rd NUM_ENTRY_SEL.tensor_id) = o
  have hlen : (configured w o).hist = bits v.toNat 6 6 + 1 := by rw [configured_hist, hhist]
  rw [hlen]
  refine ⟨hfield ⟨0, 4, .rwl, .w, 0⟩ (by decide) rfl, hbit _ (hfield ⟨4, 1, .rwl, .w, 0⟩ (by decide) rfl),
    hbit _ (hfield ⟨5, 1, .rwl, .w, 0⟩ (by decide) rfl), rfl, hfield ⟨12, 4, .rwl, .w, 0⟩ (by decide) rfl,
    hbit _ (hfield ⟨16, 1, .rwl, .w, 0⟩ (by decide) rfl), ?_, fun h => ?_, fun h => ?_, fun u hu => Sp.get_set_ne _ _ _ _ _ hu⟩
  · exact congrArg (sext 10) (hfield ⟨17, 10, .rwl, .w, 0⟩ (by decide) rfl)
  · exact configured_same w (by rw [hhist, h])
  · exact configured_count w (by rw [hhist]; exact h)

/-! ### Counters of a core (R164) -/

theorem seqPerfCtrl_mapped : ∀ c : CoreId, Mapped (c.cd.val + 1) (.seqPerfCtrl c.cd.val c.site.val) := by
  rintro ⟨cd, site⟩
  revert cd site
  decide +kernel

theorem writeReg_seqPerfCtrl (b : Blk) (cd s v : Nat) :
    b.writeReg false (.seqPerfCtrl cd s) v = (0, written b (.seqPerfCtrl cd s) v) := rfl

theorem coreCounters_clear (q : Path) (c : CoreId) (v : BitVec 64) (s : State) (hreach : Reaches q (c.cd.val + 1) s.blk) :
    Does (.seqPerfClear q c v) s fun b => b.rd (SEQ_PERF_CTRL.clear c.cd.val c.site.val) = 1
      ∧ b.rd (SEQ_PERF_CTRL.freeze c.cd.val c.site.val) = bits v.toNat 1 1 ∧ Completes q 0 0 s.blk b
      ∧ RegsKeep [.seqPerfCtrl c.cd.val c.site.val] s.blk b ∧ b = { s.blk with regs := b.regs, out := b.out } := by
  refine does_writeAt rfl (seqPerfCtrl_mapped c) hreach (writeReg_seqPerfCtrl ..)
    ⟨?_, ?_, completes_emit (regsOnly_out (regsOnly_written ..)), ?_, rfl⟩
  · exact written_rd_w1s s.blk _ (f := ⟨0, 1, .w1s, .w, 0⟩) (.head _) rfl rfl (bits_or_two_pow_same v.toNat 0)
  · exact (written_rd_rw s.blk _ (f := ⟨1, 1, .rw, .w, 0⟩) (.tail _ (.head _)) rfl).trans
      (bits_or_two_pow_ne v.toNat (n := 0) (.inr (by decide)))
  · exact regsKeep_emit _ (regsOnly_written ..).1

/-! ### Performance counters (R375, R378) -/

theorem perf_mapped : ∀ d : Fin 20, 1 ≤ d.val → d.val ≤ 18 →
    Mapped d.val (.perfCtrl d.val) ∧ ∀ n : Fin 8, Mapped d.val (.perfSel d.val n.val) := by decide +kernel

theorem perfCnt_addr (d n : Nat) : (Reg.perfCnt d n).addr = perfBase d + 0x80 + n * 8 := rfl

theorem perfCnt_addr_ne (d : Nat) {m n : Nat} (h : m ≠ n) : (Reg.perfCnt d m).addr ≠ (Reg.perfCnt d n).addr := by
  rw [perfCnt_addr, perfCnt_addr]
  omega

theorem perfCtrl_ne_perfCnt (d n : Nat) : (Reg.perfCtrl d).addr ≠ (Reg.perfCnt d n).addr := by
  have hctrl : (Reg.perfCtrl d).addr = perfBase d := rfl
  rw [hctrl, perfCnt_addr]
  omega

theorem perfSel_ne_perfCnt (d n : Nat) {m : Nat} (hm : m < 8) : (Reg.perfSel d m).addr ≠ (Reg.perfCnt d n).addr := by
  have hsel : (Reg.perfSel d m).addr = perfBase d + 0x40 + m * 8 := rfl
  rw [hsel, perfCnt_addr]
  omega

/-- A die past the hub has its performance block outside the hub's space, where CTL_STATE is. -/
theorem ctlState_ne_perfCtrl {d : Nat} (hd : 1 ≤ d) : Reg.ctlState.addr ≠ (Reg.perfCtrl d).addr := by
  have hstate : Reg.ctlState.addr = hubBase + 0xC0000 := rfl
  have hctrl : (Reg.perfCtrl d).addr = perfBase d := rfl
  rw [hstate, hctrl, perfBase, dieBase_eq]
  omega

/-- The counters `l` of die `d` at zero. -/
def cleared (d : Nat) (l : List Nat) (b : Blk) : Blk := l.foldl (fun b n => b.wr (PERF_CNT.count d n) 0) b

theorem cleared_count (d : Nat) {l : List Nat} {n : Nat} (hn : n ∈ l) (b : Blk) : (cleared d l b).rd (PERF_CNT.count d n) = 0 := by
  induction l using List.reverseRecOn with
  | nil => cases hn
  | append_singleton l m ih =>
    have hlast : cleared d (l ++ [m]) b = (cleared d l b).wr (PERF_CNT.count d m) 0 := by
      rw [cleared, List.foldl_append]
      rfl
    rw [hlast]
    by_cases h : n = m
    · rw [h, wr_rd_same _ _ _ (by simp [PERF_CNT.count]), Nat.zero_mod]
    · rw [wr_rd_ne _ _ _ _ (perfCnt_addr_ne d h)]
      exact ih (by simpa [h] using hn)

theorem cleared_ctrl (d : Nat) (l : List Nat) (b : Blk) (f : Fld) (hf : f.reg = .perfCtrl d) : (cleared d l b).rd f = b.rd f :=
  foldl_keep _ (fun b => b.rd f) l b fun b n _ => wr_rd_ne _ _ _ _ (by rw [hf]; exact perfCtrl_ne_perfCnt d n)

theorem regsOnly_cleared (d : Nat) (b : Blk) : RegsOnly (perfRegs d) b (cleared d (List.range 8) b) :=
  foldl_inv _ (RegsOnly (perfRegs d) b) _ b (regsOnly_refl _ b) fun _ _ hn hc =>
    regsOnly_wr hc (List.mem_map_of_mem (List.mem_map_of_mem hn))

theorem perfClear_eq (b : Blk) (d : Nat) : b.perfClear d = (cleared d (List.range 8) b).wr (PERF_CTRL.clear d) 0 := rfl

theorem regsOnly_perfClear (b : Blk) (d : Nat) : RegsOnly (.perfCtrl d :: perfRegs d) b (b.perfClear d) :=
  regsOnly_wr (regsOnly_mono (regsOnly_cleared d b) fun _ hr => List.mem_cons_of_mem _ (List.mem_map_of_mem hr)) (.head _)

theorem writeReg_perfCtrl {d v : Nat} (hd : 1 ≤ d) (hrun : b.dstate ≠ stRun) :
    b.writeReg false (.perfCtrl d) (v ||| 1) = (0, (written b (.perfCtrl d) (v ||| 1)).perfClear d) := by
  have hclear : (written b (.perfCtrl d) (v ||| 1)).rd (PERF_CTRL.clear d) = 1 :=
    written_rd_w1s b _ (f := ⟨0, 1, .w1s, .w, 0⟩) (.head _) rfl rfl (bits_or_two_pow_same v 0)
  rw [writeReg_acts (.perfCtrl d) _ rfl (fun _ => rfl) (fun _ => rfl) nofun rfl]
  refine congrArg (Prod.mk 0) (if_pos ⟨?_, ?_⟩)
  · simp [Blk.on, hclear]
  · rw [written_dstate (ctlState_ne_perfCtrl hd)]
    exact hrun

theorem dieCounters_clear (q : Path) (d : Fin 20) (v : BitVec 64) (s : State) (hlo : 1 ≤ d.val) (hhi : d.val ≤ 18)
    (hreach : Reaches q d.val s.blk) (hrun : s.blk.dstate ≠ stRun) :
    Does (.perfClear q d v) s fun b => (∀ n, n < 8 → b.rd (PERF_CNT.count d.val n) = 0)
      ∧ b.rd (PERF_CTRL.clear d.val) = 0 ∧ b.rd (PERF_CTRL.freeze d.val) = bits v.toNat 1 1
      ∧ Completes q 0 0 s.blk b ∧ RegsKeep (.perfCtrl d.val :: perfRegs d.val) s.blk b := by
  refine does_of_onBlk (f := perfClearFx q d.val v.toNat) rfl ?_
  have hfx : perfClearFx q d.val v.toNat s.blk = writeAt q (.perfCtrl d.val) (v.toNat ||| 1) s.blk := if_neg (by omega)
  let w := written s.blk (.perfCtrl d.val) (v.toNat ||| 1)
  have hfreeze : w.rd (PERF_CTRL.freeze d.val) = bits v.toNat 1 1 :=
    (written_rd_rw s.blk _ (f := ⟨1, 1, .rw, .w, 0⟩) (.tail _ (.head _)) rfl).trans
      (bits_or_two_pow_ne v.toNat (n := 0) (.inr (by decide)))
  have hkeep : RegsOnly (.perfCtrl d.val :: perfRegs d.val) s.blk (w.perfClear d.val) :=
    regsOnly_trans (regsOnly_mono (regsOnly_written ..) (by simp)) (regsOnly_perfClear w d.val)
  rw [hfx, writeAt_mapped (perf_mapped d hlo hhi).1 hreach (writeReg_perfCtrl hlo hrun)]
  refine ⟨fun n hn => ?_, ?_, ?_, completes_emit (regsOnly_out hkeep), regsKeep_emit _ hkeep.1⟩
  · rw [emit_rd, perfClear_eq, wr_rd_ne _ _ _ _ (perfCtrl_ne_perfCnt d.val n).symm, cleared_count _ (List.mem_range.2 hn)]
  · rw [emit_rd, perfClear_eq, wr_rd_same _ _ _ (by simp [PERF_CTRL.clear]), Nat.zero_mod]
  · rw [emit_rd, perfClear_eq, wr_rd_disj _ (PERF_CTRL.clear d.val) (PERF_CTRL.freeze d.val) _ rfl
      (.inr (by simp [PERF_CTRL.clear, PERF_CTRL.freeze])) (by simp [PERF_CTRL.freeze]), cleared_ctrl _ _ _ _ rfl, hfreeze]

/-- A selection written anew: its two fields, and its counter at zero. -/
theorem writeReg_perfSel {d n v : Nat} (hnew : bits v 0 16 ≠ bits (b.reg (.perfSel d n)) 0 16) :
    b.writeReg false (.perfSel d n) v = (0, (written b (.perfSel d n) v).wr (PERF_CNT.count d n) 0) := by
  rw [writeReg_acts (.perfSel d n) _ rfl (fun _ => rfl) (fun _ => rfl) nofun rfl]
  refine congrArg (Prod.mk 0) (if_neg fun hsame => hnew ?_)
  have hevent : bits ((written b (.perfSel d n) v).reg (.perfSel d n)) 0 8 = bits v 0 8 :=
    written_rd_rw b v (f := ⟨0, 8, .rw, .w, 0⟩) (.head _) rfl
  have hunit : bits ((written b (.perfSel d n) v).reg (.perfSel d n)) 8 8 = bits v 8 8 :=
    written_rd_rw b v (f := ⟨8, 8, .rw, .w, 0⟩) (.tail _ (.head _)) rfl
  rw [hsame] at hevent hunit
  rw [bits_two_bytes, bits_two_bytes, hevent, hunit]

theorem counter_selected (q : Path) (d : Fin 20) (n : Fin 8) (v : BitVec 64) (s : State) (hlo : 1 ≤ d.val) (hhi : d.val ≤ 18)
    (hreach : Reaches q d.val s.blk) (hnew : bits v.toNat 0 16 ≠ bits (s.blk.reg (.perfSel d.val n.val)) 0 16) :
    Does (.perfSelWrite q d n v) s fun b => b.rd (PERF_SEL.event d.val n.val) = bits v.toNat 0 8
      ∧ b.rd (PERF_SEL.unit d.val n.val) = bits v.toNat 8 8 ∧ b.rd (PERF_CNT.count d.val n.val) = 0 ∧ Completes q 0 0 s.blk b
      ∧ RegsKeep [.perfSel d.val n.val, .perfCnt d.val n.val] s.blk b := by
  refine does_of_onBlk (f := perfSelFx q d.val n.val v.toNat) rfl ?_
  have hfx : perfSelFx q d.val n.val v.toNat s.blk = writeAt q (.perfSel d.val n.val) v.toNat s.blk := if_neg (by omega)
  have hne := perfSel_ne_perfCnt d.val n.val n.isLt
  rw [hfx, writeAt_mapped ((perf_mapped d hlo hhi).2 n) hreach (writeReg_perfSel hnew)]
  refine ⟨?_, ?_, ?_, completes_emit rfl, regsKeep_emit _ (regsKeep_trans ?_ (regsKeep_wr _ _ _ (.tail _ (.head _))))⟩
  · rw [emit_rd, wr_rd_ne _ _ _ _ hne]
    exact written_rd_rw s.blk _ (f := ⟨0, 8, .rw, .w, 0⟩) (.head _) rfl
  · rw [emit_rd, wr_rd_ne _ _ _ _ hne]
    exact written_rd_rw s.blk _ (f := ⟨8, 8, .rw, .w, 0⟩) (.tail _ (.head _)) rfl
  · rw [emit_rd, wr_rd_same _ _ _ (by simp [PERF_CNT.count]), Nat.zero_mod]
  · exact regsKeep_mono (regsOnly_written ..).1 (by simp)

/-! ### Readiness of a shadow bank (R225) -/

theorem routeEpoch_mapped : ∀ ld : Fin 2, Mapped (17 + ld.val) (.routeEpoch ld.val) := by decide +kernel

theorem reaches_link {q : Path} (ho : OpenPath q b) (ld : Nat) : Reaches q (17 + ld) b := ⟨ho, fun h => absurd h.2 (by omega)⟩

theorem writeReg_routeEpoch (b : Blk) (ld v : Nat) : b.writeReg false (.routeEpoch ld) v = (0, written b (.routeEpoch ld) v) := rfl

theorem shadowBank_ready (q : Path) (ld : Fin 2) (s : State) (ho : OpenPath q s.blk) :
    Does (.epochShadowReady q ld) s fun b => b.rd (ROUTE_EPOCH.shadow_ready ld.val) = 1 ∧ Completes q 0 0 s.blk b
      ∧ b.rd (ROUTE_EPOCH.active ld.val) = s.blk.rd (ROUTE_EPOCH.active ld.val) ∧ RegsKeep [.routeEpoch ld.val] s.blk b := by
  refine does_writeAt rfl (routeEpoch_mapped ld) (reaches_link ho ld.val) (writeReg_routeEpoch ..)
    ⟨?_, completes_emit (regsOnly_out (regsOnly_written ..)), ?_, ?_⟩
  · exact written_rd_w1s s.blk 2 (f := ⟨1, 1, .w1s, .w, 0⟩) (.tail _ (.head _)) rfl rfl rfl
  · exact written_rd_ro s.blk 2 (f := ⟨0, 1, .ro, .w, 0⟩) (.head _) rfl
  · exact regsKeep_emit _ (regsOnly_written ..).1

/-! ### The end of a debug unlock (R328) -/

theorem secDbg_mapped : Mapped 0 .secDbg := by decide +kernel

theorem debugLock_locks (b : Blk) : b.debugLock.rd SEC_DBG.level = 0 ∧ b.debugLock.rd SEC_DBG.relock = b.rd SEC_DBG.relock
    ∧ b.debugLock.sec.dbgExpiry = 0 ∧ b.debugLock.out = b.out ∧ RegsKeep [.secDbg] b b.debugLock := by
  have hlevel : (b.wr SEC_DBG.level 0).rd SEC_DBG.level = 0 := wr_rd_same _ _ _ (by decide)
  have hrelock : (b.wr SEC_DBG.level 0).rd SEC_DBG.relock = b.rd SEC_DBG.relock :=
    wr_rd_disj _ _ _ _ rfl (by decide) (by decide)
  have hkeep : RegsKeep [.secDbg] b (b.wr SEC_DBG.level 0) := regsKeep_wr _ _ _ (by decide)
  unfold Blk.debugLock
  dsimp only
  split
  · exact ⟨hlevel, hrelock, rfl, rfl, hkeep⟩
  · exact ⟨hlevel, hrelock, rfl, rfl, hkeep⟩

theorem writeReg_relock (b : Blk) : b.writeReg false .secDbg 4 = (0, ((written b .secDbg 4).wr SEC_DBG.relock 0).debugLock) := by
  have hset : (written b .secDbg 4).rd SEC_DBG.relock = 1 :=
    written_rd_w1s b 4 (f := ⟨2, 1, .w1s, .w, 0⟩) (.tail _ (.head _)) rfl rfl rfl
  rw [writeReg_acts .secDbg _ rfl (fun _ => rfl) (fun _ => rfl) nofun rfl]
  exact congrArg (Prod.mk 0) (if_pos (by simp [Blk.on, hset]))

theorem debugUnlock_ends (q : Path) (s : State) (ho : OpenPath q s.blk) :
    Does (.debugRelock q) s fun b => b.rd SEC_DBG.level = 0 ∧ b.rd SEC_DBG.relock = 0 ∧ b.sec.dbgExpiry = 0 ∧ Completes q 0 0 s.blk b
      ∧ RegsKeep [.secDbg] s.blk b := by
  refine does_writeAt rfl secDbg_mapped (reaches_hub ho) (writeReg_relock s.blk) ?_
  have hw : RegsOnly [.secDbg] s.blk ((written s.blk .secDbg 4).wr SEC_DBG.relock 0) := regsOnly_wr_self (regsOnly_written ..) rfl
  obtain ⟨hlevel, hrelock, hexpiry, hout, hkeep⟩ := debugLock_locks ((written s.blk .secDbg 4).wr SEC_DBG.relock 0)
  rw [wr_rd_same _ _ _ (by decide)] at hrelock
  rw [emit_rd, emit_rd, emit_sec]
  exact ⟨hlevel, hrelock, hexpiry, completes_emit (hout.trans (regsOnly_out hw)), regsKeep_emit _ (regsKeep_trans hw.1 hkeep)⟩

/-! ### Injections (R292, R293) -/

theorem rasInjCtrl_mapped : ∀ d : Fin 13, Mapped d.val (.rasInjCtrl d.val) := by decide +kernel

theorem rasInjArg_ne_rasInjCtrl (d : Nat) : (Reg.rasInjArg d).addr ≠ (Reg.rasInjCtrl d).addr := by
  have harg : (Reg.rasInjArg d).addr = rasBase d + 0x20 := rfl
  have hctrl : (Reg.rasInjCtrl d).addr = rasBase d + 0x18 := rfl
  rw [harg, hctrl]
  omega

/-- The injection that die `d`'s block describes. -/
def blockInject (d : Nat) (b : Blk) : Inject :=
  ⟨d, b.rd (RAS_INJ_CTRL.det d), if d = 0 then b.rd (RAS_INJ_CTRL.die d) else d, b.rd (RAS_INJ_CTRL.unit d),
    max 1 (b.rd (RAS_INJ_CTRL.count d)), b.rd (RAS_INJ_ARG.arg d)⟩

theorem armInject_eq (b : Blk) (d : Nat) : b.armInject d =
    (((b.updRas fun z => { z with injects := z.injects.filter (fun j => j.block ≠ d) ++ [blockInject d b] }).wr
      (RAS_INJ_CTRL.arm d) 0).wr (RAS_INJ_CTRL.armed d) 1).wr (RAS_INJ_CTRL.fired d) 0 := rfl

theorem armInject_arms (b : Blk) (d : Nat) :
    (b.armInject d).ras.injects = b.ras.injects.filter (fun j => j.block ≠ d) ++ [blockInject d b]
      ∧ (b.armInject d).rd (RAS_INJ_CTRL.armed d) = 1 ∧ (b.armInject d).rd (RAS_INJ_CTRL.fired d) = 0
      ∧ (b.armInject d).out = b.out ∧ RegsKeep [.rasInjCtrl d] b (b.armInject d) := by
  have hwr (c : Blk) (f : Fld) (v : Nat) (hf : f.reg = .rasInjCtrl d) : RegsKeep [.rasInjCtrl d] c (c.wr f v) :=
    regsKeep_wr c f v (by simp [hf])
  rw [armInject_eq]
  refine ⟨rfl, ?_, ?_, ?_, regsKeep_trans (regsKeep_trans (hwr (b.updRas _) _ _ rfl) (hwr _ _ _ rfl)) (hwr _ _ _ rfl)⟩
  · rw [wr_rd_disj _ (RAS_INJ_CTRL.fired d) (RAS_INJ_CTRL.armed d) _ rfl (by simp [RAS_INJ_CTRL.fired, RAS_INJ_CTRL.armed])
      (by simp [RAS_INJ_CTRL.armed]), wr_rd_same _ _ _ (by simp [RAS_INJ_CTRL.armed])]
    rfl
  · rw [wr_rd_same _ _ _ (by simp [RAS_INJ_CTRL.fired]), Nat.zero_mod]
  · rw [wr_out, wr_out, wr_out, updRas_out]

theorem writeReg_injectionArm {d v t : Nat} (hmaint : b.ras.maintUntil = some t) :
    b.writeReg false (.rasInjCtrl d) (v ||| 2 ^ 32) = (0, (written b (.rasInjCtrl d) (v ||| 2 ^ 32)).armInject d) := by
  have harm : (written b (.rasInjCtrl d) (v ||| 2 ^ 32)).rd (RAS_INJ_CTRL.arm d) = 1 :=
    written_rd_w1s b _ (f := ⟨32, 1, .w1s, .w, 0⟩) (by simp [Reg.fields]) rfl rfl (bits_or_two_pow_same v 32)
  rw [writeReg_acts (.rasInjCtrl d) _ (by simp [Blk.injLocked, hmaint]) (fun _ => rfl) (fun _ => rfl) nofun rfl]
  exact congrArg (Prod.mk 0) (if_pos (by rw [Blk.on, harm]; rfl))

theorem written_blockInject (b : Blk) (d x : Nat) : blockInject d (written b (.rasInjCtrl d) x) =
    ⟨d, bits x 0 8, if d = 0 then bits x 8 5 else d, bits x 13 11, max 1 (bits x 24 8), b.rd (RAS_INJ_ARG.arg d)⟩ := by
  have hfield (f : FieldSpec) (hf : f ∈ (Reg.rasInjCtrl d).fields) (hacc : f.acc = .rw) :
      (written b (.rasInjCtrl d) x).rd ⟨.rasInjCtrl d, f.lo, f.w⟩ = bits x f.lo f.w := written_rd_rw b x hf hacc
  have hdet : (written b (.rasInjCtrl d) x).rd (RAS_INJ_CTRL.det d) = bits x 0 8 :=
    hfield ⟨0, 8, .rw, .w, 0⟩ (by simp [Reg.fields]) rfl
  have hdie : (written b (.rasInjCtrl d) x).rd (RAS_INJ_CTRL.die d) = bits x 8 5 :=
    hfield ⟨8, 5, .rw, .w, 0⟩ (by simp [Reg.fields]) rfl
  have hunit : (written b (.rasInjCtrl d) x).rd (RAS_INJ_CTRL.unit d) = bits x 13 11 :=
    hfield ⟨13, 11, .rw, .w, 0⟩ (by simp [Reg.fields]) rfl
  have hcount : (written b (.rasInjCtrl d) x).rd (RAS_INJ_CTRL.count d) = bits x 24 8 :=
    hfield ⟨24, 8, .rw, .w, 0⟩ (by simp [Reg.fields]) rfl
  have harg : (written b (.rasInjCtrl d) x).rd (RAS_INJ_ARG.arg d) = b.rd (RAS_INJ_ARG.arg d) :=
    regsOnly_rd (regsOnly_written ..) _ (by simpa [RAS_INJ_ARG.arg] using rasInjArg_ne_rasInjCtrl d)
  rw [blockInject, hdet, hdie, hunit, hcount, harg]

theorem injection_arms (q : Path) (d : Fin 13) (v : BitVec 64) (s : State) (t : Nat) (hreach : Reaches q d.val s.blk)
    (hmaint : s.blk.ras.maintUntil = some t) :
    Does (.injectionArm q d v) s fun b =>
      let i : Inject := ⟨d.val, bits v.toNat 0 8, if d.val = 0 then bits v.toNat 8 5 else d.val, bits v.toNat 13 11,
        max 1 (bits v.toNat 24 8), s.blk.rd (RAS_INJ_ARG.arg d.val)⟩
      b.ras.injects = s.blk.ras.injects.filter (fun j => j.block ≠ d.val) ++ [i] ∧ b.rd (RAS_INJ_CTRL.armed d.val) = 1
        ∧ b.rd (RAS_INJ_CTRL.fired d.val) = 0 ∧ Completes q 0 0 s.blk b ∧ RegsKeep [.rasInjCtrl d.val] s.blk b := by
  refine does_writeAt (r := .rasInjCtrl d.val) (v := v.toNat ||| 2 ^ 32) rfl (rasInjCtrl_mapped d) hreach
    (writeReg_injectionArm hmaint) ?_
  have hlow (lo w : Nat) (h : lo + w ≤ 32) : bits (v.toNat ||| 2 ^ 32) lo w = bits v.toNat lo w := bits_or_two_pow_ne _ (.inl h)
  generalize v.toNat ||| 2 ^ 32 = x at hlow ⊢
  have hw : RegsOnly [.rasInjCtrl d.val] s.blk (written s.blk (.rasInjCtrl d.val) x) := regsOnly_written ..
  obtain ⟨hinjects, harmed, hfired, hout, hkeep⟩ := armInject_arms (written s.blk (.rasInjCtrl d.val) x) d.val
  rw [written_blockInject, regsOnly_ras hw, hlow 0 8 (by decide), hlow 8 5 (by decide), hlow 13 11 (by decide),
    hlow 24 8 (by decide)] at hinjects
  dsimp only
  rw [emit_ras, emit_rd, emit_rd]
  exact ⟨hinjects, harmed, hfired, completes_emit (hout.trans (regsOnly_out hw)), regsKeep_emit _ (regsKeep_trans hw.1 hkeep)⟩

/-- Settles O11: each write by the fields it leaves in its register, then by what the register starts. -/
theorem writesThatActAtOnce : Obligations.WritesThatActAtOnce :=
  ⟨entry_configured, coreCounters_clear, dieCounters_clear, counter_selected, shadowBank_ready, debugUnlock_ends, injection_arms⟩

end Sys2Proof.Proofs
end
